-- ==== Sys2Proof/Word.lean ====
section
/-! DEFINITION. The words of the ZL-9600 and their plainest readings. Bit-field helpers that an encoding or a
rule could show wrong stand in Machine/Bits.lean. -/

namespace Sys2Proof

/-- A register, slot or address word (R200, R212). -/
abbrev Word := BitVec 64

/-- One byte of memory (R84). -/
abbrev Byte := BitVec 8

/-- One beat of a vector track: 1,024 data bits (R141). -/
abbrev Beat1024 := BitVec 1024

end Sys2Proof
end

