-- ==== Sys2Proof/Machine/Bits.lean ====
section
/-! DEFINITION. The pseudocode helpers of R221, byte order (R8), CRCs (R134, R142) and small list helpers. -/

namespace Sys2Proof.Bits

/-- `bits(v, hi, lo)` of R221, as a number. -/
def bits (v hi lo : Nat) : Nat := (v >>> lo) % 2 ^ (hi + 1 - lo)

/-- One bit of a number. -/
def bit (v b : Nat) : Bool := v.testBit b

/-- The low `n` bits of `v` read as two's complement. -/
def sextI (v n : Nat) : Int :=
  let m := v % 2 ^ n
  if n ≠ 0 ∧ m.testBit (n - 1) then (m : Int) - (2 ^ n : Nat) else m

/-- `sext(v, n)` of R221, a 64-bit value. -/
def sext (v n : Nat) : Word := BitVec.ofInt 64 (sextI v n)

/-- `zext(v, n)` of R221, a 64-bit value. -/
def zext (v n : Nat) : Word := BitVec.ofNat 64 (v % 2 ^ n)

/-- Count of ones in the low `n` bits (`popc` of R221). -/
def popcN (n v : Nat) : Nat :=
  match n with
  | 0 => 0
  | k + 1 => popcN k v + (if v.testBit k then 1 else 0)

/-- `rotl16(v, s)` of R221. -/
def rotl16 (v s : Nat) : Nat :=
  let s := s % 16
  ((v % 65536) * 2 ^ s + (v % 65536) / 2 ^ (16 - s)) % 65536

/-- The low `n` bits of `v` in reverse order (`bitrev` of R331). -/
def bitrev (n v : Nat) : Nat :=
  match n with
  | 0 => 0
  | k + 1 => (if v.testBit 0 then 2 ^ k else 0) + bitrev k (v / 2)

/-- Rounded-up division. -/
def ceilDiv (a b : Nat) : Nat := (a + b - 1) / b

/-- `v` rounded up to a multiple of `m`. -/
def roundUp (v m : Nat) : Nat := ceilDiv v m * m

/-- `floor(log2 v)`, and 0 for 0. -/
def log2 (v : Nat) : Nat := Nat.log2 v

/-- The number held by little-endian bytes, lowest address first (R8). -/
def leNat : List Byte → Nat
  | [] => 0
  | b :: bs => b.toNat + 256 * leNat bs

/-- `n` bytes of `v`, little-endian, lowest address first (R8). -/
def leBytes : Nat → Nat → List Byte
  | 0, _ => []
  | n + 1, v => BitVec.ofNat 8 v :: leBytes n (v / 256)

/-- `n` zero bytes (`zeros` of R221). -/
def zeros (n : Nat) : List Byte := List.replicate n 0

/-- The 64-bit word at 8-byte index `k` of a byte list. -/
def word8 (bs : List Byte) (k : Nat) : Nat := leNat ((bs.drop (8 * k)).take 8)

/-- One bit of a reflected CRC with polynomial `poly`. -/
def crcStep (poly : Nat) (c : Nat) : Nat :=
  if c.testBit 0 then (c / 2) ^^^ poly else c / 2

/-- One byte of a reflected CRC with polynomial `poly`. -/
def crcByte (poly c b : Nat) : Nat :=
  crcStep poly (crcStep poly (crcStep poly (crcStep poly
    (crcStep poly (crcStep poly (crcStep poly (crcStep poly (c ^^^ b))))))))

/-- The IEEE 802.3 CRC-32 of R134 (0x04C1_1DB7 reflected; initial value and final XOR 0xFFFF_FFFF). -/
def crc32 (bs : List Byte) : Nat :=
  (bs.foldl (fun c b => crcByte 0xEDB88320 c b.toNat) 0xFFFFFFFF) ^^^ 0xFFFFFFFF

/-- One bit of a most-significant-first CRC-64. -/
def crc64Step (poly c : Nat) : Nat :=
  if c.testBit 63 then ((c * 2) % 2 ^ 64) ^^^ poly else (c * 2) % 2 ^ 64

/-- One byte of a most-significant-first CRC-64. -/
def crc64Byte (c b : Nat) : Nat :=
  let p := 0x42F0E1EBA9EA3693
  crc64Step p (crc64Step p (crc64Step p (crc64Step p
    (crc64Step p (crc64Step p (crc64Step p (crc64Step p (c ^^^ (b * 2 ^ 56)))))))))

/-- The CRC-64 of R142. DESIGN CHOICE (log 19): most significant bit first, start value 0; R142 gives the
polynomial only. -/
def crc64 (bs : List Byte) : Nat := bs.foldl (fun c b => crc64Byte c b.toNat) 0

/-- The entries of a list with their indices from `k` on. -/
def indexed {α : Type} (k : Nat) : List α → List (Nat × α)
  | [] => []
  | a :: as => (k, a) :: indexed (k + 1) as

/-- The list without its element `k`. -/
def removeAt {α : Type} : Nat → List α → List α
  | _, [] => []
  | 0, _ :: as => as
  | k + 1, a :: as => a :: removeAt k as

/-- The list with `f` applied to element `k`. -/
def updateAt {α : Type} (f : α → α) : Nat → List α → List α
  | _, [] => []
  | 0, a :: as => f a :: as
  | k + 1, a :: as => a :: updateAt f k as

end Sys2Proof.Bits
end

