-- ==== Sys2Proof/Syntax.lean ====
section
/-! DEFINITION. The abstract syntax of the ZL-9600's opcode table: one constructor of `Instr` for each row of
spec/opcode_table.json. The rows of control opcodes carry the fields of their slot format (R212 to R217). The rows
of element operations name the FE that fires; their fields stand in its configuration context (R293). The other rows
are the module's own steps; their arguments are what the outside world or the place of the step supplies. -/

namespace Sys2Proof

/-! ## Fields of the slot formats (R212 to R217) -/

/-- WIDTH of format G (R213). -/
inductive Width | d | ws | wz
  deriving DecidableEq, Repr

/-- PR (R203). -/
inductive Pred | always | ifTrue | ifFalse
  deriving DecidableEq, Repr

/-- AS (R26). -/
inductive Space | virt | cab | war
  deriving DecidableEq, Repr

/-- SZ of format M (R214). -/
inductive Size | b | h | w | d
  deriving DecidableEq, Repr

/-- Ordering codes (R10, R87). -/
inductive MemOrd | plain | acq | rel | acqrel | sc
  deriving DecidableEq, Repr

/-- Scope codes (R10, R85). -/
inductive Scope | core | region | cluster | die | module | system
  deriving DecidableEq, Repr

/-- The operand a target names (R201). -/
inductive Opnd | L | R | P
  deriving DecidableEq, Repr

/-- A target (R201). `write k` is OPND 11 with INDEX `k`; INDEX 127 there is the absent target. -/
inductive Target
  | none
  | opnd (slot : BitVec 7) (o : Opnd)
  | write (k : BitVec 7)
  deriving DecidableEq, Repr

/-- Fields of format G (R212, R213). -/
structure GOp where
  i : Bool
  w : Width
  pr : Pred
  t1 : Target
  t2 : Target
  imm : BitVec 24
  deriving DecidableEq, Repr

/-- Fields of formats M and A (R212, R214, R215). -/
structure MOp where
  sz : Size
  sg : Bool
  as : Space
  lsid : BitVec 5
  pr : Pred
  ord : MemOrd
  scope : Scope
  t1 : Target
  off : BitVec 24
  deriving DecidableEq, Repr

/-- Fields of format B (R212, R216). -/
structure BOp where
  pr : Pred
  t1 : Target
  off : BitVec 24
  deriving DecidableEq, Repr

/-- Fields of formats E and F (R212, R217). -/
structure EOp where
  as : Space
  ch : Bool
  scope : Scope
  pr : Pred
  t1 : Target
  t2 : Target
  sel : BitVec 6
  imm : BitVec 24
  deriving DecidableEq, Repr

/-! ## Places and arguments of the module's own steps -/

/-- An FE of a region by its relative coordinates (R163). -/
structure FeAt where
  c : Nat
  w : Nat
  deriving DecidableEq, Repr

/-- An input of an FE (R293). -/
inductive FeIn | ia | ib | ic
  deriving DecidableEq, Repr

/-- The agents of the ordering machine (R83). Control contexts and regions are named by the model's instance key,
engine records by the model's record key, host agents by port and requester, peer agents by node. -/
inductive Agent
  | ctl (i : Nat)
  | region (i : Nat)
  | engine (r : Nat)
  | host (port rid : Nat)
  | peer (node : Nat)
  deriving DecidableEq, Repr

/-- Arrays that may enter retention (R51). Shelves by module FE index, slices by cluster or die and slice. -/
inductive ArrayId
  | shelf (fe : Nat)
  | cabSlice (cluster slice : Nat)
  | warSlice (die slice : Nat)
  deriving DecidableEq, Repr

/-- The firmware images of R405. -/
inductive FwRole
  | scheduler | leaf | hbmTraining | ucieTraining | timeBase
  deriving DecidableEq, Repr, Inhabited

/-- A firmware image as the boot ROM judges it (R405). -/
structure FwImage where
  role : FwRole
  rsaOk : Bool
  slhOk : Bool
  version : Nat
  deriving DecidableEq, Repr, Inhabited

/-- What bring-up finds in the physical module (R2, R405, R406): firmware images, anti-rollback counter, the physical defect
maps (each defective FE as (cluster × 9 + physical column) × 8 + row), and link modules with failing lanes. -/
structure BringUpInput where
  images : List FwImage
  rollback : Nat
  defects : List Nat
  links : List (Nat × BitVec 64)
  deriving DecidableEq, Repr, Inhabited

/-- A context descriptor as firmware writes it (R14). `windows` gives CBASE and CSIZE of each die. -/
structure CtxDesc where
  tenant : BitVec 4
  root : BitVec 36
  wat : BitVec 41
  hrot : BitVec 4
  hxor : BitVec 4
  windows : List (BitVec 6 × BitVec 6)
  deriving DecidableEq, Repr

/-- A rectangle of FEs in module coordinates (R162). -/
structure Rect where
  col0 : Nat
  row0 : Nat
  w : Nat
  h : Nat
  deriving DecidableEq, Repr

/-- What firmware grants, allocates or sets at a tenant runtime's request. -/
inductive Grant
  | semaphore (core sem : Nat) (owner : BitVec 8)           -- R261
  | semGrant (core sem : Nat) (ctx : BitVec 8)              -- R261
  | laneGroup (die group : Nat) (tenant : BitVec 4)         -- R275
  | clusterCounters (cluster : Nat) (tenant : BitVec 4)     -- R282
  | dieCounters (die : Nat) (tenant : BitVec 4)             -- R282
  | wardrobePage (ctx : BitVec 8) (page : BitVec 10) (w : Bool) (die : BitVec 3) (dpage : BitVec 7)  -- R29, R44
  | vecBase (ctx : BitVec 8) (addr : Word)                  -- R416
  | weight (tenant : BitVec 4) (cls : BitVec 2) (die : Nat) (weight : Nat)   -- R364
  | quota (tenant : BitVec 4) (class0 : Nat)                -- R366
  | reserve (tenant : BitVec 4) (rect : Rect)               -- R366
  | signPolicy (tenant : BitVec 4) (required : Bool) (keys : List Word)      -- R359
  | watchdogLimit (tenant : BitVec 4) (us : Nat)            -- R398
  | leavePool (die : Nat) (units : Nat)                     -- R376
  | calendar (slot : Nat) (entry : BitVec 8)                -- R369
  | bufferReserve (die cluster : Nat) (cab war : Nat)       -- R65
  | ringReserve (chan : Nat) (pages : BitVec 16)            -- R79
  deriving DecidableEq, Repr

/-- What firmware writes in its port tables (R149, R153, R154, R156). -/
inductive TableWrite
  | peer (entry : Nat) (w0 w1 : Word)
  | aperture (port index : Nat) (w0 w1 w2 : Word)
  | ingress (port index : Nat) (w0 w1 w2 : Word)
  | window (port index : Nat) (ctx : BitVec 8)
  | launch (entry word : Nat) (v : Word)      -- W0 to W2 of a launch-table entry (R372)
  deriving DecidableEq, Repr

/-- A packet ready at a router output or memory port (R370). -/
structure Packet where
  tenant : BitVec 4
  cls : BitVec 2
  age : Nat
  firmware : Bool
  deriving DecidableEq, Repr

/-- Who writes a launch-table entry: a PCI Express requester of a port through BAR 0, or firmware (R372). -/
inductive Writer
  | host (port rid : Nat)
  | firmware
  deriving DecidableEq, Repr

/-- A host that reaches BAR 0: its port, and the requester on it (R149, R153). -/
structure Requester where
  port : Nat
  rid : Nat
  deriving DecidableEq, Repr

/-- A host's write of a register of BAR 0: who makes it, the byte of the register at which it begins, how many bytes it
writes, and their value (R152, R153). -/
structure RegWrite where
  port : Nat
  rid : Nat
  at_ : Nat
  size : Nat
  value : Word
  deriving DecidableEq, Repr

/-- A write of W3 of a launch-table entry (R372). -/
structure EntryWrite where
  by_ : Writer
  at_ : Nat
  size : Nat
  value : Word
  deriving DecidableEq, Repr

/-- A payload of a track or link (R142). -/
structure LinkLoad where
  stream : Nat
  payload : List Byte
  deriving DecidableEq, Repr

/-- How an outbound host read completes (R148). -/
inductive ReadStatus | ok | unsupported | aborted
  deriving DecidableEq, Repr

/-- KIND of a flit (R142). -/
inductive FlitKind | idle | data
  deriving DecidableEq, Repr

/-- The rows of spec/opcode_table.json. -/
inductive Instr
  /- bring-up, firmware and block life -/
  | bringUp (b : BringUpInput)
  | contextCreate (ctx : BitVec 8) (d : CtxDesc)
  | contextDestroy (ctx : BitVec 8)
  | channelDestroy (handle : BitVec 32)
  | firmwareGrant (g : Grant)
  | blockFetch (i : Nat)
  | blockStart (i : Nat)
  | blockCommit (i : Nat)
  | blockStall (i : Nat)
  | trapEntry (i : Nat)
  /- values, comparison and selection (format G) -/
  | fan (f : GOp)
  | null (f : GOp)
  | movi (f : GOp)
  | appi (f : GOp)
  | add (f : GOp)
  | sub (f : GOp)
  | mul (f : GOp)
  | mulh (f : GOp)
  | mulhu (f : GOp)
  | div (f : GOp)
  | divu (f : GOp)
  | rem (f : GOp)
  | remu (f : GOp)
  | and (f : GOp)
  | or (f : GOp)
  | xor (f : GOp)
  | andn (f : GOp)
  | shl (f : GOp)
  | shr (f : GOp)
  | sra (f : GOp)
  | rol (f : GOp)
  | ror (f : GOp)
  | min (f : GOp)
  | max (f : GOp)
  | minu (f : GOp)
  | maxu (f : GOp)
  | adds (f : GOp)
  | subs (f : GOp)
  | addus (f : GOp)
  | subus (f : GOp)
  | clz (f : GOp)
  | ctz (f : GOp)
  | popc (f : GOp)
  | bswap (f : GOp)
  | sext (f : GOp)
  | zext (f : GOp)
  | neg (f : GOp)
  | not (f : GOp)
  | abs (f : GOp)
  | bfx (f : GOp)
  | bfi (f : GOp)
  | teq (f : GOp)
  | tne (f : GOp)
  | tlt (f : GOp)
  | tltu (f : GOp)
  | tle (f : GOp)
  | tleu (f : GOp)
  | tgt (f : GOp)
  | tgtu (f : GOp)
  | tge (f : GOp)
  | tgeu (f : GOp)
  | tbs (f : GOp)
  | tbc (f : GOp)
  | sel (f : GOp)
  | wid (f : GOp)
  | time (f : GOp)
  | cyc (f : GOp)
  | ctx (f : GOp)
  /- memory and atomics (formats M and A) -/
  | ld (f : MOp)
  | st (f : MOp)
  | pft (f : MOp)
  | aadd (f : MOp)
  | aand (f : MOp)
  | aor (f : MOp)
  | axor (f : MOp)
  | amin (f : MOp)
  | amax (f : MOp)
  | aminu (f : MOp)
  | amaxu (f : MOp)
  | aswp (f : MOp)
  | acas (f : MOp)
  | fence (f : MOp)
  /- channels, semaphores, barriers, engines, launches (format E) -/
  | chsend (f : EOp)
  | chrecv (f : EOp)
  | chtry (f : EOp)
  | chlen (f : EOp)
  | chclose (f : EOp)
  | semwait (f : EOp)
  | sempost (f : EOp)
  | semread (f : EOp)
  | barinit (f : EOp)
  | bararr (f : EOp)
  | barwait (f : EOp)
  | cpy (f : EOp)
  | cpyc (f : EOp)
  | cpyt (f : EOp)
  | xtload (f : EOp)
  | xstat (f : EOp)
  | launch (f : EOp)
  | qreset (f : EOp)
  | yield (f : EOp)
  | yieldTimeout (i : Nat)
  /- exits (format B) -/
  | br (f : BOp)
  | bri (f : BOp)
  | call (f : BOp)
  | calli (f : BOp)
  | halt (f : BOp)
  | trap (f : BOp)
  /- system (format E) -/
  | sysr (f : EOp)
  | sysw (f : EOp)
  | tlbinv (f : EOp)
  | tlbinvDone (i : Nat)
  | bcinv (f : EOp)
  | bcinvDone (i : Nat)
  | eret (f : EOp)
  | waitev (f : EOp)
  | waitevTimeout (i : Nat)
  /- fabric body (format F) -/
  | src (f : EOp)
  | snk (f : EOp)
  | accr (f : EOp)
  | accd (f : EOp)
  | kset (f : EOp)
  | mark (f : EOp)
  | fmtw (f : EOp)
  | scalew (f : EOp)
  | genseed (f : EOp)
  | fwait (f : EOp)
  | fwaitTimeout (i : Nat)
  | fcnt (f : EOp)
  | fstop (f : EOp)
  | frun (f : EOp)
  /- memory steps -/
  | readPerform (a : Agent) (n : Nat)
  | writePerform (a : Agent) (n : Nat)
  | cacheLineDrop (core line : Nat)
  | eccWriteback (key : Nat)
  | homeAtomicPerform (i : Nat)
  | barrierOpPerform (i : Nat)
  | barwaitPoll (i : Nat)
  | pageWalk (n : Nat)
  | wardrobeEntryFill (cluster : Nat) (ctx : BitVec 8) (page : Nat)
  | retentionEntry (a : ArrayId)
  | retentionExit (a : ArrayId)
  | retentionExitDone (a : ArrayId)
  /- channels -/
  | channelRequest (i : Nat)
  | channelSpill (h : Nat)
  | channelRefill (h : Nat)
  | spillRetry (h : Nat)
  | blockedReport (i : Nat)
  | deadlockDetector (i : Nat)
  | growthCopyDone (h : Nat)
  /- regions -/
  | regionSourceAccess (i b : Nat)
  | regionSinkWrite (i b : Nat)
  | iterationStart (i : Nat)
  | iterationCommit (i : Nat)
  | iterationDiscard (i : Nat)
  | iterOverrun (i : Nat)
  | configFill (i : Nat) (fe : FeAt)
  | configMulticast (sel : Word) (slot : BitVec 3) (image : List Word) (deltas : List (Word × Word))
  | markerPass (i : Nat) (fe : FeAt) (inp : FeIn)
  /- element operations: an FE of instance i's region fires -/
  | pass (i : Nat) (fe : FeAt)
  | dot (i : Nat) (fe : FeAt) (upset : Bool)
  | dots (i : Nat) (fe : FeAt) (upset : Bool)
  | redadd (i : Nat) (fe : FeAt)
  | redmax (i : Nat) (fe : FeAt)
  | redmin (i : Nat) (fe : FeAt)
  | eopAdd (i : Nat) (fe : FeAt)
  | mule (i : Nat) (fe : FeAt) (upset : Bool)
  | scale (i : Nat) (fe : FeAt)
  | quant (i : Nat) (fe : FeAt)
  | deq (i : Nat) (fe : FeAt)
  | cvt (i : Nat) (fe : FeAt)
  | bfly (i : Nat) (fe : FeAt)
  | split3 (i : Nat) (fe : FeAt)
  | lut6 (i : Nat) (fe : FeAt)
  | fsm (i : Nat) (fe : FeAt)
  | table (i : Nat) (fe : FeAt)
  | cmpsel (i : Nat) (fe : FeAt)
  | shiftv (i : Nat) (fe : FeAt)
  | cnt (i : Nat) (fe : FeAt)
  | sgen (i : Nat) (fe : FeAt)
  | sand (i : Nat) (fe : FeAt)
  | sor (i : Nat) (fe : FeAt)
  | smux (i : Nat) (fe : FeAt)
  | snot (i : Nat) (fe : FeAt)
  | sminc (i : Nat) (fe : FeAt)
  | smaxc (i : Nat) (fe : FeAt)
  | sxor (i : Nat) (fe : FeAt)
  | scnt (i : Nat) (fe : FeAt)
  | sregen (i : Nat) (fe : FeAt)
  | sfsm (i : Nat) (fe : FeAt)
  /- launches and instances -/
  | launchAccept (n : Nat)
  | imageLoad (l : Nat)
  | instancePlace (l : Nat)
  | doneArrival (i : Nat)
  /- engines and lanes -/
  | recordAccept (i engine : Nat)
  | engineRecordStart (r : Nat)
  | recordComplete (r : Nat)
  | chunkDecode (r chunk : Nat)
  | xtloadTakeEffect (group : Nat)
  | leaveGrant (q : Nat)
  | leaveTimeout (q : Nat)
  /- links: module index = (boundary * 128 + module) * 2 + direction -/
  | flitSend (l : Nat) (kind : FlitKind) (load : LinkLoad)
  | flitReceive (l : Nat) (errors : List (Nat × Byte))
  | nakReceive (l : Nat)
  | replayTimeout (l : Nat)
  | retrainDone (l : Nat) (failing : BitVec 64)
  /- host ports -/
  | hostPostedWrite (port rid off : Nat) (data : List Byte) (ro poisoned : Bool)
  | hostRead (port rid : Nat) (bar0 : Bool) (off n : Nat) (ro : Bool) (tag : Nat)
  | hostLineAck (port line : Nat)
  | hostAtomicop (by_ : Requester) (tag : Nat)
  | hostReadCompletion (tag : Nat) (status : ReadStatus) (data : List Byte)
  | hostReadTimeout (tag : Nat)
  | hostResetCommand (by_ : Requester) (tenant : BitVec 4) (cls : BitVec 2) (diemask : BitVec 8)
  | queueResetComplete (serial : Nat)
  | launchWindowWrite (port rid window : Nat) (value : Word) (size : Nat)
  | launchTableArm (entry : Nat) (w : EntryWrite)
  | launchTableDisarm (entry : Nat) (w : EntryWrite)
  | launchTableFire (entry : Nat)
  | timebaseSrcWrite (w : RegWrite)
  | ptmoffWrite (w : RegWrite)
  | bar0RegisterWrite (port rid off size : Nat) (value : Word)
  | attestationRequest (port rid : Nat) (addr : Word)
  | attestationReportWrite
  /- peers -/
  | peerRead (port node aper off n tag : Nat)
  | peerWrite (port node aper off : Nat) (data : List Byte)
  | peerWriteOrd (port node aper off : Nat) (data : List Byte)
  | llynramResend (op : Nat)
  | peerUnreachable (entry : Nat)
  /- time, calendar, quotas -/
  | ptpMessage (tai : Word)
  | ptmExchange (port : Nat) (ptm : Word)
  | timebaseSourceLost
  | calendarSlot (die port : Nat) (ready : List Packet)
  | borrowLimit (tenant : BitVec 4)
  /- pre-emption and saved contexts -/
  | contextPreempt (i : Nat)
  | regionStopDiscard (i : Nat)
  | regionStopFinish (i : Nat)
  | feLazySave (i : Nat) (fe : FeAt)
  | restore (i : Nat)
  | saveTimeout (i : Nat)
  | watchdog (i : Nat) (ofRegion : Bool)
  /- schedulers, leaf controllers and firmware -/
  | heartbeat
  | standbyTakeover
  | leafCommand (cluster : Nat)
  | leafAck (cluster : Nat)
  | retentionEntryDone (a : ArrayId)
  | peerAcknowledgement (op : Nat) (data : List Byte)
  | feMarkDefective (col row : Nat)
  | firmwareTableWrite (t : TableWrite)
  deriving DecidableEq, Repr

/-- A move of the module: the firing of slot `k` of instance `i`'s block, an event, the passing of control cycles (log 2),
or what befalls the module from outside any row of the opcode table. -/
inductive Move
  | tick (n : Nat)
  | slot (i k : Nat)
  | event (e : Instr)
  | upset (key errs : Nat)               -- so many stored bits or symbols of a row or line go wrong (R47)
  | accUpset (fe acc bit : Nat)          -- a stored bit of an accumulator goes wrong (R55)
  | barSize (port log : Nat)             -- the host resizes BAR 2 (R147)
  | pace (die port : Nat) (on : Bool)    -- the die's power manager holds a port's lent slots back, or no longer (R378)
  deriving DecidableEq, Repr, Inhabited

end Sys2Proof
end

