-- ==== Sys2Proof/Machine/Rows.lean ====
section
/-! DEFINITION. The control opcodes as a table (R217, R218, R225, R247, R269, R326): number, operands taken, results,
the bits its fields may set; and from it what makes a slot legal at decode (step 4 of R211). -/

namespace Sys2Proof.Rows

open Sys2Proof.Bits

/-- The fields of a slot, by format. -/
inductive Fields
  | g (f : GOp)
  | m (f : MOp)
  | b (f : BOp)
  | e (f : EOp)
  deriving DecidableEq, Repr

/-- The constructor a row stands for, by format (M covers A, E covers F). -/
inductive Ctor
  | g (c : GOp → Instr)
  | m (c : MOp → Instr)
  | b (c : BOp → Instr)
  | e (c : EOp → Instr)

/-- Whether an opcode takes an operand: no, and required (R202), or only when named (R256). -/
inductive Need | no | yes | may
  deriving DecidableEq, Repr

/-- One row of the opcode map. -/
structure Row where
  opc : Nat
  ctor : Ctor
  l : Need := .no
  r : Need := .no
  res : Nat := 0              -- results delivered: T1, T2
  side : Bool := false        -- side-effecting (R208)
  priv : Bool := false        -- privileged (R218)
  withI : Bool := false       -- R may be the immediate (R225)
  as_ : Bool := false         -- FN uses of R217
  ch : Bool := false
  sc : Bool := false
  selLo : Nat := 0
  selHi : Nat := 0
  imm : Nat := 0              -- bits of IMM24 (or OFF of format B) the opcode uses

/-- A two-operand ALU row, R an operand or the immediate. -/
def alu2 (opc : Nat) (c : GOp → Instr) : Row :=
  { opc, ctor := .g c, l := .yes, r := .yes, res := 2, withI := true }

/-- A one-operand ALU row using the IMM24 bits `imm`. -/
def alu1 (opc : Nat) (c : GOp → Instr) (imm : Nat) : Row :=
  { opc, ctor := .g c, l := .yes, res := 2, imm }

/-- An ALU row without operands. -/
def alu0 (opc : Nat) (c : GOp → Instr) (imm : Nat) : Row := { opc, ctor := .g c, res := 2, imm }

/-- An atomic's row. -/
def atom (opc : Nat) (c : MOp → Instr) : Row :=
  { opc, ctor := .m c, l := .yes, r := .yes, res := 1, side := true, imm := 0xFFFFFF }

/-- Format G, 0x01 to 0x29 (R225). -/
def rowsG1 : List Row :=
  [alu1 0x01 .fan 0x3FFFF, alu0 0x02 .null 0, alu0 0x03 .movi 0xFFFFFF, alu1 0x04 .appi 0xFFFFFF,
   alu2 0x10 .add, alu2 0x11 .sub, alu2 0x12 .mul, alu2 0x13 .mulh, alu2 0x14 .mulhu, alu2 0x15 .div, alu2 0x16 .divu,
   alu2 0x17 .rem, alu2 0x18 .remu, alu2 0x19 .and, alu2 0x1A .or, alu2 0x1B .xor, alu2 0x1C .andn, alu2 0x1D .shl,
   alu2 0x1E .shr, alu2 0x1F .sra, alu2 0x20 .rol, alu2 0x21 .ror, alu2 0x22 .min, alu2 0x23 .max, alu2 0x24 .minu,
   alu2 0x25 .maxu, alu2 0x26 .adds, alu2 0x27 .subs, alu2 0x28 .addus, alu2 0x29 .subus]

/-- Format G, 0x2C to 0x53 (R225). -/
def rowsG2 : List Row :=
  [alu1 0x2C .clz 0, alu1 0x2D .ctz 0, alu1 0x2E .popc 0, alu1 0x2F .bswap 0, alu1 0x30 .sext 0x3F,
   alu1 0x31 .zext 0x3F, alu1 0x32 .neg 0, alu1 0x33 .not 0, alu1 0x34 .abs 0, alu1 0x35 .bfx 0x1FFF,
   { alu1 0x36 .bfi 0xFFF with r := .yes },
   alu2 0x40 .teq, alu2 0x41 .tne, alu2 0x42 .tlt, alu2 0x43 .tltu, alu2 0x44 .tle, alu2 0x45 .tleu, alu2 0x46 .tgt,
   alu2 0x47 .tgtu, alu2 0x48 .tge, alu2 0x49 .tgeu, alu2 0x4A .tbs, alu2 0x4B .tbc, alu2 0x4C .sel,
   alu0 0x50 .wid 0xF, alu0 0x51 .time 0, alu0 0x52 .cyc 1, alu0 0x53 .ctx 7]

/-- Formats M and A (R215, R247, R254). -/
def rowsM : List Row :=
  [{ opc := 0x60, ctor := .m .ld, l := .yes, res := 1, imm := 0xFFFFFF },
   { opc := 0x61, ctor := .m .st, l := .yes, r := .yes, imm := 0xFFFFFF },
   { opc := 0x62, ctor := .m .pft, l := .yes, imm := 0xFFFFFF },
   atom 0x68 .aadd, atom 0x69 .aand, atom 0x6A .aor, atom 0x6B .axor, atom 0x6C .amin, atom 0x6D .amax,
   atom 0x6E .aminu, atom 0x6F .amaxu, atom 0x70 .aswp, atom 0x71 .acas,
   { opc := 0x74, ctor := .m .fence, imm := 0xF }]

/-- Format E, 0x78 to 0x9A (R217). -/
def rowsE1 : List Row :=
  [{ opc := 0x78, ctor := .e .chsend, l := .yes, r := .yes, side := true, as_ := true },
   { opc := 0x79, ctor := .e .chrecv, l := .yes, r := .may, res := 1, side := true, as_ := true },
   { opc := 0x7A, ctor := .e .chtry, l := .yes, r := .may, res := 2, side := true, as_ := true },
   { opc := 0x7B, ctor := .e .chlen, l := .yes, res := 1 },
   { opc := 0x7C, ctor := .e .chclose, l := .yes, side := true },
   { opc := 0x80, ctor := .e .semwait, res := 1, side := true, sc := true, selHi := 63, imm := 0xFFFFFF },
   { opc := 0x81, ctor := .e .sempost, side := true, sc := true, selHi := 63, imm := 0xFFFFFF },
   { opc := 0x82, ctor := .e .semread, res := 1, selHi := 63 },
   { opc := 0x84, ctor := .e .barinit, l := .yes, r := .yes, side := true, as_ := true, sc := true },
   { opc := 0x85, ctor := .e .bararr, l := .yes, res := 1, side := true, as_ := true, sc := true },
   { opc := 0x86, ctor := .e .barwait, l := .yes, r := .yes, res := 1, side := true, as_ := true, sc := true },
   { opc := 0x90, ctor := .e .cpy, l := .yes, side := true, selLo := 1, selHi := 63 },
   { opc := 0x91, ctor := .e .cpyc, l := .yes, side := true, selHi := 15, imm := 0x3F },
   { opc := 0x92, ctor := .e .cpyt, l := .yes, side := true, selLo := 1, selHi := 63 },
   { opc := 0x93, ctor := .e .xtload, l := .yes, side := true, selLo := 1, selHi := 63, imm := 0x1FF },
   { opc := 0x94, ctor := .e .xstat, res := 1, imm := 0x1FF },
   { opc := 0x98, ctor := .e .launch, l := .yes, res := 1, side := true },
   { opc := 0x99, ctor := .e .qreset, l := .yes, res := 1, side := true, priv := true },
   { opc := 0x9A, ctor := .e .yield }]

/-- Formats B, E and F, 0xA0 to 0xCC (R217, R240, R326). -/
def rowsE2 : List Row :=
  [{ opc := 0xA0, ctor := .b .br, imm := 0xFFFFFF }, { opc := 0xA1, ctor := .b .bri, l := .yes },
   { opc := 0xA2, ctor := .b .call, res := 1, imm := 0xFFFFFF }, { opc := 0xA3, ctor := .b .calli, l := .yes, res := 1 },
   { opc := 0xA4, ctor := .b .halt }, { opc := 0xA5, ctor := .b .trap, imm := 0xFFFFFF },
   { opc := 0xB0, ctor := .e .sysr, res := 1, imm := 0xFFF }, { opc := 0xB1, ctor := .e .sysw, l := .yes, imm := 0xFFF },
   { opc := 0xB2, ctor := .e .tlbinv, l := .yes, priv := true, imm := 3 },
   { opc := 0xB3, ctor := .e .bcinv, l := .yes, priv := true }, { opc := 0xB4, ctor := .e .eret, priv := true },
   { opc := 0xB5, ctor := .e .waitev, res := 1, imm := 0xF },
   { opc := 0xC0, ctor := .e .src, l := .yes, as_ := true, ch := true, selHi := 31, imm := 0xFF },
   { opc := 0xC1, ctor := .e .snk, l := .yes, as_ := true, ch := true, selHi := 31, imm := 0xFF },
   { opc := 0xC2, ctor := .e .accr, res := 1, selHi := 63, imm := 0xFFFF },
   { opc := 0xC3, ctor := .e .accd, l := .yes, as_ := true, selHi := 63, imm := 0xF },
   { opc := 0xC4, ctor := .e .kset, l := .yes, r := .yes, selHi := 15, imm := 0xF },
   { opc := 0xC5, ctor := .e .mark, selHi := 31, imm := 0xF },
   { opc := 0xC6, ctor := .e .fmtw, l := .yes, selHi := 31, imm := 0x1F },
   { opc := 0xC7, ctor := .e .scalew, l := .yes, r := .yes, selHi := 31 },
   { opc := 0xC8, ctor := .e .genseed, l := .yes, r := .yes, selHi := 15 },
   { opc := 0xC9, ctor := .e .fwait, res := 1, imm := 0xF },
   { opc := 0xCA, ctor := .e .fcnt, res := 1, selHi := 63 },
   { opc := 0xCB, ctor := .e .fstop }, { opc := 0xCC, ctor := .e .frun }]

/-- The opcode map (R218). -/
def rows : List Row := rowsG1 ++ rowsG2 ++ rowsM ++ rowsE1 ++ rowsE2

/-- The row of an opcode. -/
def rowOf (opc : Nat) : Option Row := rows.find? (fun r => r.opc == opc)

/-- The system registers of R282. -/
def isSysReg (n : Nat) : Bool :=
  n ≤ 5 || (0x10 ≤ n && n ≤ 0x14) || (0x18 ≤ n && n ≤ 0x1D) || n == 0x20 || n == 0x21 || n == 0x28 || n == 0x29
    || (0x30 ≤ n && n ≤ 0x4F) || (0x60 ≤ n && n ≤ 0x9F)

/-- The system registers with a writable field at some level (R281, R282). -/
def isSysWritable (n : Nat) : Bool :=
  n == 0 || n == 4 || n == 5 || (0x10 ≤ n && n ≤ 0x14) || (0x18 ≤ n && n ≤ 0x1D) || (0x40 ≤ n && n ≤ 0x47)
    || (0x60 ≤ n && n ≤ 0x7F)

/-- Every set bit of `v` is set in `mask`. -/
def within (v mask : Nat) : Bool := v &&& mask == v

/-- Legality of a G slot (R213, R225 to R239). DEDUCED (log 20): with I = 0 an opcode whose IMM24 is used "with I"
uses no IMM24 bit. -/
def legalG (row : Row) (f : GOp) : Bool :=
  let imm := f.imm.toNat
  (if f.i then row.withI else within imm row.imm)
    && (row.opc != 0x02 || f.w == .d)
    && ((row.opc != 0x35 && row.opc != 0x36) || imm % 64 + (bits imm 11 6 + 1) ≤ 64)
    && (row.opc != 0x50 || imm < 14)
    && (row.opc != 0x53 || imm != 7)

/-- Legality of an M or A slot (R87, R203, R214, R215, R247, R254). -/
def legalM (row : Row) (f : MOp) : Bool :=
  match row.opc with
  | 0x60 => (f.ord == .plain || f.ord == .acq) && (!f.sg || f.sz != .d)
  | 0x61 => (f.ord == .plain || f.ord == .rel) && !f.sg && f.t1 == .none
  | 0x62 => f.ord == .plain && f.sz == .b && !f.sg && f.t1 == .none
  | 0x74 => f.ord == .acqrel && f.sz == .b && !f.sg && f.as == .virt && f.t1 == .none
              && within f.off.toNat row.imm && f.off != 0
  | _ => (f.sz == .w || f.sz == .d) && !f.sg && (row.opc != 0x71 || f.pr == .always)

/-- Legality of a B slot (R216). -/
def legalB (row : Row) (f : BOp) : Bool :=
  within f.off.toNat row.imm && (1 ≤ row.res || f.t1 == .none)

/-- Legality of an E or F slot (R217, R256, R261, R269 to R287, R321 to R326). -/
def legalE (row : Row) (f : EOp) : Bool :=
  let imm := f.imm.toNat
  (row.as_ || f.as == .virt) && (row.ch || !f.ch) && (row.sc || f.scope == .core) && (!f.ch || f.as == .virt)
    && row.selLo ≤ f.sel.toNat && f.sel.toNat ≤ row.selHi && within imm row.imm
    && (1 ≤ row.res || f.t1 == .none) && (2 ≤ row.res || f.t2 == .none)
    && ((row.opc != 0x80 && row.opc != 0x81 && row.opc != 0xB5 && row.opc != 0xC5 && row.opc != 0xC9) || imm != 0)
    && (row.opc != 0x93 || imm % 256 != 0)
    && (row.opc != 0xC3 || imm ≤ 4)
    && (row.opc != 0xB0 || isSysReg imm) && (row.opc != 0xB1 || isSysWritable imm)

/-- A target that its 9 bits can hold: OPND 11 with INDEX 127 is the absent target, not a write entry (R201). -/
def targetFits (t : Target) : Bool :=
  match t with
  | .write k => k != 127
  | _ => true

/-- A slot with row `row` and fields `f` is legal at decode: its fields are within their format's limits. -/
def legal (row : Row) (f : Fields) : Bool :=
  match f with
  | .g f => legalG row f && targetFits f.t1 && targetFits f.t2
  | .m f => legalM row f && targetFits f.t1
  | .b f => legalB row f && targetFits f.t1
  | .e f => legalE row f && targetFits f.t1 && targetFits f.t2

/-- The L operand of a slot: TLBINV with extent 11 takes none (R284). -/
def needL (row : Row) (f : Fields) : Need :=
  match f with
  | .e f => if row.opc == 0xB2 && f.imm.toNat % 4 == 3 then .no else row.l
  | _ => row.l

/-- The R operand of a slot: none with I = 1 (R213). -/
def needR (row : Row) (f : Fields) : Need :=
  match f with
  | .g f => if f.i then .no else row.r
  | _ => row.r

/-- PR of a slot. -/
def predOf (f : Fields) : Pred :=
  match f with
  | .g f => f.pr | .m f => f.pr | .b f => f.pr | .e f => f.pr

/-- The P operand: the predicate, or the compare value of ACAS (R203). -/
def needP (row : Row) (f : Fields) : Need :=
  if predOf f != .always || row.opc == 0x71 then .yes else .no

/-- A target from its 9 bits (R201). -/
def targetOf (t : Nat) : Target :=
  if t % 512 == 511 then .none
  else match t % 4 with
    | 0 => .opnd (BitVec.ofNat 7 (t / 4)) .L
    | 1 => .opnd (BitVec.ofNat 7 (t / 4)) .R
    | 2 => .opnd (BitVec.ofNat 7 (t / 4)) .P
    | _ => .write (BitVec.ofNat 7 (t / 4))

/-- The targets a slot delivers to, FAN's third and fourth included (R226). -/
def targets (row : Row) (f : Fields) : List Target :=
  match f with
  | .g f => if row.opc == 0x01 then [f.t1, f.t2, targetOf (bits f.imm.toNat 17 9), targetOf (bits f.imm.toNat 8 0)]
            else [f.t1, f.t2]
  | .m f => [f.t1]
  | .b f => [f.t1]
  | .e f => [f.t1, f.t2]

/-- A memory output counted by NMEM (R207). -/
def memOut (row : Row) : Bool := row.side || row.opc == 0x61 || row.opc == 0x74

/-- The exits of R206. -/
def isExit (row : Row) : Bool := (0xA0 ≤ row.opc && row.opc ≤ 0xA5) || row.opc == 0xB4

/-- A fabric-body opcode (R218). -/
def isFabric (row : Row) : Bool := 0xC0 ≤ row.opc

/-- WAITEV, FWAIT, ACCR, ACCD and FRUN, whose waits fall before binding (R208). -/
def waitsBeforeBinding (row : Row) : Bool :=
  row.opc == 0xB5 || row.opc == 0xC9 || row.opc == 0xC2 || row.opc == 0xC3 || row.opc == 0xCC

end Sys2Proof.Rows
end

