-- ==== Sys2Proof/WellFormed.lean ====
section
/-! DEFINITION. What makes an instruction well formed: a control opcode's fields are within the limits its format and
its chapter give (step 4 of R211, from the table of Machine/Rows.lean). The module's own steps and the element
operations carry no slot, so nothing is asked of them here. -/

namespace Sys2Proof

open Sys2Proof.Rows

/-- The opcode and fields of a control opcode; none for the other rows. -/
def Instr.slotFields : Instr → Option (Nat × Fields)
  | .fan f => some (0x01, .g f) | .null f => some (0x02, .g f) | .movi f => some (0x03, .g f)
  | .appi f => some (0x04, .g f) | .add f => some (0x10, .g f) | .sub f => some (0x11, .g f)
  | .mul f => some (0x12, .g f) | .mulh f => some (0x13, .g f) | .mulhu f => some (0x14, .g f)
  | .div f => some (0x15, .g f) | .divu f => some (0x16, .g f) | .rem f => some (0x17, .g f)
  | .remu f => some (0x18, .g f) | .and f => some (0x19, .g f) | .or f => some (0x1A, .g f)
  | .xor f => some (0x1B, .g f) | .andn f => some (0x1C, .g f) | .shl f => some (0x1D, .g f)
  | .shr f => some (0x1E, .g f) | .sra f => some (0x1F, .g f) | .rol f => some (0x20, .g f)
  | .ror f => some (0x21, .g f) | .min f => some (0x22, .g f) | .max f => some (0x23, .g f)
  | .minu f => some (0x24, .g f) | .maxu f => some (0x25, .g f) | .adds f => some (0x26, .g f)
  | .subs f => some (0x27, .g f) | .addus f => some (0x28, .g f) | .subus f => some (0x29, .g f)
  | .clz f => some (0x2C, .g f) | .ctz f => some (0x2D, .g f) | .popc f => some (0x2E, .g f)
  | .bswap f => some (0x2F, .g f) | .sext f => some (0x30, .g f) | .zext f => some (0x31, .g f)
  | .neg f => some (0x32, .g f) | .not f => some (0x33, .g f) | .abs f => some (0x34, .g f)
  | .bfx f => some (0x35, .g f) | .bfi f => some (0x36, .g f)
  | .teq f => some (0x40, .g f) | .tne f => some (0x41, .g f) | .tlt f => some (0x42, .g f)
  | .tltu f => some (0x43, .g f) | .tle f => some (0x44, .g f) | .tleu f => some (0x45, .g f)
  | .tgt f => some (0x46, .g f) | .tgtu f => some (0x47, .g f) | .tge f => some (0x48, .g f)
  | .tgeu f => some (0x49, .g f) | .tbs f => some (0x4A, .g f) | .tbc f => some (0x4B, .g f)
  | .sel f => some (0x4C, .g f) | .wid f => some (0x50, .g f) | .time f => some (0x51, .g f)
  | .cyc f => some (0x52, .g f) | .ctx f => some (0x53, .g f)
  | .ld f => some (0x60, .m f) | .st f => some (0x61, .m f) | .pft f => some (0x62, .m f)
  | .aadd f => some (0x68, .m f) | .aand f => some (0x69, .m f) | .aor f => some (0x6A, .m f)
  | .axor f => some (0x6B, .m f) | .amin f => some (0x6C, .m f) | .amax f => some (0x6D, .m f)
  | .aminu f => some (0x6E, .m f) | .amaxu f => some (0x6F, .m f) | .aswp f => some (0x70, .m f)
  | .acas f => some (0x71, .m f) | .fence f => some (0x74, .m f)
  | .chsend f => some (0x78, .e f) | .chrecv f => some (0x79, .e f) | .chtry f => some (0x7A, .e f)
  | .chlen f => some (0x7B, .e f) | .chclose f => some (0x7C, .e f)
  | .semwait f => some (0x80, .e f) | .sempost f => some (0x81, .e f) | .semread f => some (0x82, .e f)
  | .barinit f => some (0x84, .e f) | .bararr f => some (0x85, .e f) | .barwait f => some (0x86, .e f)
  | .cpy f => some (0x90, .e f) | .cpyc f => some (0x91, .e f) | .cpyt f => some (0x92, .e f)
  | .xtload f => some (0x93, .e f) | .xstat f => some (0x94, .e f) | .launch f => some (0x98, .e f)
  | .qreset f => some (0x99, .e f) | .yield f => some (0x9A, .e f)
  | .br f => some (0xA0, .b f) | .bri f => some (0xA1, .b f) | .call f => some (0xA2, .b f)
  | .calli f => some (0xA3, .b f) | .halt f => some (0xA4, .b f) | .trap f => some (0xA5, .b f)
  | .sysr f => some (0xB0, .e f) | .sysw f => some (0xB1, .e f) | .tlbinv f => some (0xB2, .e f)
  | .bcinv f => some (0xB3, .e f) | .eret f => some (0xB4, .e f) | .waitev f => some (0xB5, .e f)
  | .src f => some (0xC0, .e f) | .snk f => some (0xC1, .e f) | .accr f => some (0xC2, .e f)
  | .accd f => some (0xC3, .e f) | .kset f => some (0xC4, .e f) | .mark f => some (0xC5, .e f)
  | .fmtw f => some (0xC6, .e f) | .scalew f => some (0xC7, .e f) | .genseed f => some (0xC8, .e f)
  | .fwait f => some (0xC9, .e f) | .fcnt f => some (0xCA, .e f) | .fstop f => some (0xCB, .e f)
  | .frun f => some (0xCC, .e f)
  | _ => none

/-- Well formed: the fields of a control opcode are legal for its row. -/
def Instr.wf (i : Instr) : Bool :=
  match i.slotFields with
  | none => true
  | some (opc, f) =>
    match rowOf opc with
    | some row => legal row f
    | none => false

end Sys2Proof
end

