-- ==== Sys2Proof/Decode.lean ====
section
/-! DEFINITION. Decoding a 64-bit slot (R212 to R218), total and rejecting by name, and the encoder written from the
same tables; and the element-operation codes of a configuration context (R293, R311, R335). -/

namespace Sys2Proof

open Sys2Proof.Bits Sys2Proof.Rows

/-- Why a slot word is no instruction (R211, step 4). -/
inductive DecErr
  | brk                     -- opcode 0xA6, whatever the other bits hold (R245)
  | unlisted                -- opcode 0x00 or one that R218 does not list
  | field                   -- a reserved field is nonzero or a code has no meaning in the format
  | limit                   -- a field value that the opcode excludes
  deriving DecidableEq, Repr

/-- WIDTH (R213). -/
def widthOf : Nat → Option Width
  | 0 => some .d | 1 => some .ws | 2 => some .wz | _ => none

/-- PR (R203). -/
def predOfNat : Nat → Option Pred
  | 0 => some .always | 1 => some .ifTrue | 2 => some .ifFalse | _ => none

/-- AS (R26). -/
def spaceOf : Nat → Option Space
  | 0 => some .virt | 1 => some .cab | 2 => some .war | _ => none

/-- SZ (R214). -/
def sizeOf? : Nat → Option Size
  | 0 => some .b | 1 => some .h | 2 => some .w | 3 => some .d | _ => none

/-- ORD (R87). -/
def ordOf : Nat → Option MemOrd
  | 0 => some .plain | 1 => some .acq | 2 => some .rel | 3 => some .acqrel | 4 => some .sc | _ => none

/-- SCOPE (R10). -/
def scopeOf : Nat → Option Scope
  | 0 => some .core | 1 => some .region | 2 => some .cluster | 3 => some .die | 4 => some .module
  | 5 => some .system | _ => none

/-- WIDTH's code. -/
def widthCode : Width → Nat
  | .d => 0 | .ws => 1 | .wz => 2
/-- PR's code. -/
def predCode : Pred → Nat
  | .always => 0 | .ifTrue => 1 | .ifFalse => 2
/-- AS's code. -/
def spaceCode : Space → Nat
  | .virt => 0 | .cab => 1 | .war => 2
/-- SZ's code. -/
def sizeCode : Size → Nat
  | .b => 0 | .h => 1 | .w => 2 | .d => 3
/-- ORD's code. -/
def ordCode : MemOrd → Nat
  | .plain => 0 | .acq => 1 | .rel => 2 | .acqrel => 3 | .sc => 4
/-- SCOPE's code. -/
def scopeCode : Scope → Nat
  | .core => 0 | .region => 1 | .cluster => 2 | .die => 3 | .module => 4 | .system => 5

/-- The 9 bits of a target (R201). -/
def targetCode : Target → Nat
  | .none => 511
  | .opnd s .L => s.toNat * 4
  | .opnd s .R => s.toNat * 4 + 1
  | .opnd s .P => s.toNat * 4 + 2
  | .write k => k.toNat * 4 + 3

/-- One bit as a number. -/
def bitCode (b : Bool) : Nat := if b then 1 else 0

/-- Format G (R212, R213). -/
def decodeG (w : Nat) : Option GOp :=
  match widthOf (bits w 52 50), predOfNat (bits w 49 48) with
  | some wd, some pr =>
    if bits w 54 53 = 0 ∧ bits w 29 24 = 0 then
      some { i := bits w 55 55 == 1, w := wd, pr := pr, t1 := targetOf (bits w 47 39), t2 := targetOf (bits w 38 30),
             imm := BitVec.ofNat 24 (bits w 23 0) }
    else none
  | _, _ => none

/-- Formats M and A (R212, R214, R215). -/
def decodeM (w : Nat) : Option MOp :=
  match sizeOf? (bits w 55 53), spaceOf (bits w 51 50), predOfNat (bits w 44 43), ordOf (bits w 42 40),
        scopeOf (bits w 39 37) with
  | some sz, some as, some pr, some ord, some sc =>
    if bits w 27 24 = 0 then
      some { sz := sz, sg := bits w 52 52 == 1, as := as, lsid := BitVec.ofNat 5 (bits w 49 45), pr := pr, ord := ord,
             scope := sc, t1 := targetOf (bits w 36 28), off := BitVec.ofNat 24 (bits w 23 0) }
    else none
  | _, _, _, _, _ => none

/-- Format B (R212, R216). -/
def decodeB (w : Nat) : Option BOp :=
  match predOfNat (bits w 49 48) with
  | some pr =>
    if bits w 55 50 = 0 ∧ bits w 38 24 = 0 then
      some { pr := pr, t1 := targetOf (bits w 47 39), off := BitVec.ofNat 24 (bits w 23 0) }
    else none
  | none => none

/-- Formats E and F (R212, R217). -/
def decodeE (w : Nat) : Option EOp :=
  match spaceOf (bits w 55 54), scopeOf (bits w 52 50), predOfNat (bits w 49 48) with
  | some as, some sc, some pr =>
    some { as := as, ch := bits w 53 53 == 1, scope := sc, pr := pr, t1 := targetOf (bits w 47 39),
           t2 := targetOf (bits w 38 30), sel := BitVec.ofNat 6 (bits w 29 24), imm := BitVec.ofNat 24 (bits w 23 0) }
  | _, _, _ => none

/-- The instruction and the fields a row reads from a word, before the limits of its opcode. -/
def decodeRow (row : Row) (w : Nat) : Option (Instr × Fields) :=
  match row.ctor with
  | .g c => (decodeG w).map fun f => (c f, .g f)
  | .m c => (decodeM w).map fun f => (c f, .m f)
  | .b c => (decodeB w).map fun f => (c f, .b f)
  | .e c => (decodeE w).map fun f => (c f, .e f)

/-- A slot word with its row, fields and instruction (R212 to R218). -/
def decodeFull (w : Word) : Except DecErr (Row × Fields × Instr) :=
  let n := w.toNat
  if bits n 63 56 = 0xA6 then .error .brk
  else match rowOf (bits n 63 56) with
    | none => .error .unlisted
    | some row => match decodeRow row n with
      | none => .error .field
      | some (i, f) => if legal row f then .ok (row, f, i) else .error .limit

/-- A slot word's instruction. -/
def decodeSlot (w : Word) : Except DecErr Instr :=
  match decodeFull w with
  | .ok (_, _, i) => .ok i
  | .error e => .error e

/-- The word of a slot's fields under an opcode (R212). -/
def encodeFields (opc : Nat) : Fields → Nat
  | .g f => opc * 2 ^ 56 + bitCode f.i * 2 ^ 55 + widthCode f.w * 2 ^ 50 + predCode f.pr * 2 ^ 48
      + targetCode f.t1 * 2 ^ 39 + targetCode f.t2 * 2 ^ 30 + f.imm.toNat
  | .m f => opc * 2 ^ 56 + sizeCode f.sz * 2 ^ 53 + bitCode f.sg * 2 ^ 52 + spaceCode f.as * 2 ^ 50
      + f.lsid.toNat * 2 ^ 45 + predCode f.pr * 2 ^ 43 + ordCode f.ord * 2 ^ 40 + scopeCode f.scope * 2 ^ 37
      + targetCode f.t1 * 2 ^ 28 + f.off.toNat
  | .b f => opc * 2 ^ 56 + predCode f.pr * 2 ^ 48 + targetCode f.t1 * 2 ^ 39 + 0 * 2 ^ 24 + f.off.toNat
  | .e f => opc * 2 ^ 56 + spaceCode f.as * 2 ^ 54 + bitCode f.ch * 2 ^ 53 + scopeCode f.scope * 2 ^ 50
      + predCode f.pr * 2 ^ 48 + targetCode f.t1 * 2 ^ 39 + targetCode f.t2 * 2 ^ 30 + f.sel.toNat * 2 ^ 24
      + f.imm.toNat

/-- The slot word of a control opcode; none for a row that no slot holds. -/
def encode (i : Instr) : Option Word :=
  match i.slotFields with
  | some (opc, f) => some (BitVec.ofNat 64 (encodeFields opc f))
  | none => none

/-- The EOP code of an element operation's instruction (R311, R335). -/
def eopInstr (code i : Nat) (fe : FeAt) (upset : Bool) : Option Instr :=
  match code with
  | 0x01 => some (.pass i fe) | 0x02 => some (.dot i fe upset) | 0x03 => some (.dots i fe upset)
  | 0x04 => some (.redadd i fe) | 0x05 => some (.redmax i fe) | 0x06 => some (.redmin i fe)
  | 0x07 => some (.eopAdd i fe) | 0x08 => some (.mule i fe upset) | 0x09 => some (.scale i fe)
  | 0x0A => some (.quant i fe) | 0x0B => some (.deq i fe) | 0x0C => some (.cvt i fe) | 0x0D => some (.bfly i fe)
  | 0x0E => some (.split3 i fe) | 0x0F => some (.lut6 i fe) | 0x10 => some (.fsm i fe) | 0x11 => some (.table i fe)
  | 0x12 => some (.cmpsel i fe) | 0x13 => some (.shiftv i fe) | 0x14 => some (.cnt i fe)
  | 0x20 => some (.sgen i fe) | 0x21 => some (.sand i fe) | 0x22 => some (.sor i fe) | 0x23 => some (.smux i fe)
  | 0x24 => some (.snot i fe) | 0x25 => some (.sminc i fe) | 0x26 => some (.smaxc i fe) | 0x27 => some (.sxor i fe)
  | 0x28 => some (.scnt i fe) | 0x29 => some (.sregen i fe) | 0x2A => some (.sfsm i fe)
  | _ => none

/-- The instruction that the decoder reads from a table word: a slot is one 64-bit word, and the opcode table gives
none of its rows any bits, so a word shorter than a slot has zeros above. -/
def decodeTableWord (nbits w : Nat) : Option Instr :=
  match decodeSlot (BitVec.ofNat 64 (w % 2 ^ nbits)) with
  | .ok i => some i
  | .error _ => none

end Sys2Proof
end

