-- ==== Sys2Proof/Machine/Layout.lean ====
section
/-! DEFINITION. The layout of a block (R197 to R200): header fields, entries, slots and extent, read from its words. -/

namespace Sys2Proof.Layout

open Sys2Proof.Bits Sys2Proof.Rows

/-- Word `k` of a block as a number. -/
def wordAt (ws : List Word) (k : Nat) : Nat := (ws.getD k 0).toNat

/-- KIND (R198). -/
def kind (ws : List Word) : Nat := bits (wordAt ws 0) 63 62
/-- Instruction slots. -/
def nslot (ws : List Word) : Nat := bits (wordAt ws 0) 61 55 + 1
/-- Read entries. -/
def nread (ws : List Word) : Nat := bits (wordAt ws 0) 54 50
/-- Write entries. -/
def nwrite (ws : List Word) : Nat := bits (wordAt ws 0) 49 44
/-- Memory outputs declared. -/
def nmem (ws : List Word) : Nat := bits (wordAt ws 0) 43 38
/-- SER. -/
def ser (ws : List Word) : Bool := bit (wordAt ws 0) 37
/-- BUDGET, in a fabric block ITERBOUND. -/
def budget (ws : List Word) : Nat := bits (wordAt ws 0) 31 16
/-- A fabric block. -/
def isFabric (ws : List Word) : Bool := kind ws == 1
/-- CTXSET (R199). -/
def ctxset (ws : List Word) : Nat := bits (wordAt ws 1) 63 48
/-- LOOPOFF, in words. -/
def loopoff (ws : List Word) : Nat := bits (wordAt ws 1) 47 32
/-- BINDOFF, in words. -/
def bindoff (ws : List Word) : Nat := bits (wordAt ws 1) 31 16
/-- NBIND. -/
def nbind (ws : List Word) : Nat := bits (wordAt ws 1) 15 8
/-- DRAW. -/
def draw (ws : List Word) : Nat := bits (wordAt ws 1) 7 0
/-- A nest block (R290). -/
def isNest (ws : List Word) : Bool := isFabric ws && loopoff ws != 0

/-- First word of the outlet words. -/
def firstWrite (ws : List Word) : Nat := 2 + ceilDiv (nread ws) 2
/-- First word of the slots (R197). -/
def firstSlot (ws : List Word) : Nat := firstWrite ws + ceilDiv (nwrite ws) 4
/-- The word after the last slot. -/
def slotEnd (ws : List Word) : Nat := firstSlot ws + nslot ws

/-- Words of the block, descriptors included, before rounding (R197). -/
def usedWords (ws : List Word) : Nat :=
  let e := slotEnd ws
  let e := if isFabric ws && loopoff ws != 0 then max e (loopoff ws + 4) else e
  if isFabric ws && nbind ws != 0 then max e (bindoff ws + 8 * nbind ws) else e

/-- The extent in bytes: the run of words rounded up to 64 bytes (R197). -/
def extent (ws : List Word) : Nat := roundUp (usedWords ws * 8) 64

/-- Read entry `k`: register, first and second target (R200). -/
def readEntry (ws : List Word) (k : Nat) : Nat × Target × Target :=
  let e := bits (wordAt ws (2 + k / 2)) (32 * (k % 2) + 31) (32 * (k % 2))
  (bits e 31 26, targetOf (bits e 25 17), targetOf (bits e 16 8))

/-- Register of write entry `k` (R200). -/
def writeReg (ws : List Word) (k : Nat) : Nat :=
  bits (wordAt ws (firstWrite ws + k / 4)) (16 * (k % 4) + 15) (16 * (k % 4) + 10)

/-- Slot `k`'s word. -/
def slotWord (ws : List Word) (k : Nat) : Word := ws.getD (firstSlot ws + k) 0

/-- Slot `k` decoded. -/
def slot (ws : List Word) (k : Nat) : Option (Row × Fields × Instr) :=
  match decodeFull (slotWord ws k) with
  | .ok x => some x
  | .error _ => none

/-- The decoded slots with their numbers, those that decode. -/
def slots (ws : List Word) : List (Nat × Row × Fields) :=
  (List.range (nslot ws)).filterMap fun k => (slot ws k).map fun x => (k, x.1, x.2.1)

/-- Every target that the read entries and the slots of a block name. -/
def named (ws : List Word) : List Target :=
  ((List.range (nread ws)).flatMap fun k => [(readEntry ws k).2.1, (readEntry ws k).2.2])
    ++ (slots ws).flatMap fun x => targets x.2.1 x.2.2

/-- Binding `k` of the block's table: its eight words (R303). -/
def binding (ws : List Word) (k : Nat) : List Word := (List.range 8).map fun j => ws.getD (bindoff ws + 8 * k + j) 0

/-- The loop descriptor's four words (R302). -/
def loop (ws : List Word) : List Word := (List.range 4).map fun j => ws.getD (loopoff ws + j) 0

/-- LSID of an M or A slot. -/
def lsidOf : Fields → Option Nat
  | .m f => some f.lsid.toNat
  | _ => none

end Sys2Proof.Layout
end

