-- ==== Sys2Proof/Config.lean ====
section
/-! DEFINITION. What the manual leaves open: free values (opaque constants, so that no proof can see them) and the
figures an implementation fixes. Each is named in the assumption log. -/

namespace Sys2Proof.Config

/-- The move that comes next when the agenda names none: a free choice, fresh for each counter value (R88; log 2). -/
opaque nextMove : Nat → Move

/-- What bring-up finds in the physical module: images, defects, links (R405, R406; log 2). -/
opaque bringUpInput : BringUpInput

/-- A free byte, fresh for each counter value: destination bytes of an overlapping copy (R119; log 4). -/
opaque freeByte : Nat → Byte

/-- Verdict of an RSASSA-PSS signature over an image under a key (R359; log 5). -/
opaque rsaVerifies : List Byte → Word → Bool

/-- Verdict of an SLH-DSA signature over an image under a key (R359; log 5). -/
opaque slhVerifies : List Byte → Word → Bool

/-- Bytes of the attestation report that identity, firmware digests and key identifiers fill (R407; log 6). -/
opaque reportByte : Nat → Byte

/-- Digest of the logical defect map in the report, by its byte (R407; log 6). -/
opaque defectDigest : List Nat → Nat → Byte

/-- The report's two signatures over its bytes 0 to 0xFF, by their byte; fresh for each counter value (R407; log 6). -/
opaque reportSignature : List Byte → Nat → Nat → Byte

/-- The word of the identification region that reports the step at which bring-up failed (R405; log 50). -/
opaque failedStepWord : Nat

/-- Which column gives way to the spare in a cluster with defects in several physical columns (R2; log 123). -/
opaque spareChoice : Nat → List Nat → Nat

/-- Beats that a circuit holds beyond those of one firing of its receiver (R173 gives no capacity; log 11). -/
opaque linkRoom : Nat

/-- A free number, for values the manual states no result for (log 8). -/
opaque freeNat : Nat → Nat

/-- 8-byte words of the identification region of a port's BAR 0 (R153; log 50). -/
opaque identification : Nat → Nat → BitVec 64

/-- Which counter a word of BAR 0's counter region shows: die times 32 plus number for the dies' counters, 256 plus module
cluster times 8 plus number for the clusters' (R153, R409; log 50). -/
opaque counterAt : Nat → Nat

end Sys2Proof.Config
end

