-- ==== Sys2Proof/Machine/State.lean ====
section
/-! DEFINITION. The state of the module, all of it plain data, and the state right after reset. A sparse table of
like things is a list of (key, value) pairs with rising keys; what an unlisted key stands for is said at the table. -/

namespace Sys2Proof.Machine

/-- A table by key: pairs with strictly rising keys. -/
abbrev Assoc (α : Type) := List (Nat × α)

/-- Memory: (address, byte) pairs with strictly rising addresses and no zero byte (R406 step 3 clears all to zero). -/
abbrev Memory := List Host.Cell

/-- What an unlisted byte reads as: bring-up clears every line and row to zero (R406, step 3). -/
def Memory.unlisted : Byte := 0

/-- An operand's or write entry's content once delivered (R202, R204). -/
inductive Val
  | val (v : Word)
  | null
  deriving DecidableEq, Repr

/-- A contiguous run of bytes of one home token: first key and length (R84, R107), and whether the data cache may
serve it (R22, R96). -/
structure Piece where
  key : Nat
  n : Nat
  cache : Bool := false
  deriving DecidableEq, Repr

/-- An exact number of the element formats (R183): NaN, infinity, or sign and m times 2^e. -/
inductive Num
  | nan
  | inf (neg : Bool)
  | fin (neg : Bool) (m : Nat) (e : Int)
  deriving DecidableEq, Repr

/-- A trap's source: code, block, FAULTSLOT, FAULTADDR, FAULTARG when given, iteration vector when a region (R381, R382),
and the model's own name of the fault for the regions that it holds (R384); 0 for none. -/
structure TrapInfo where
  code : Nat
  blk : Word
  slot : Nat
  addr : Word
  arg : Option Word
  iter : Option (List Nat)
  hold : Nat
  deriving DecidableEq, Repr

/-! ## Blocks -/

/-- Life of a slot in one execution of its block (R202 to R204). -/
inductive SlotSt
  | waiting      -- has not fired
  | walking      -- fired, its translation waits for a walk (R30)
  | translated   -- a load that has not performed in full, or a held store (R100)
  | queued       -- its request stands at its object (R424)
  | blocked      -- fired and waits (SEMWAIT, WAITEV, FWAIT, ACCR, ACCD, FRUN)
  | done         -- fired, with its results delivered
  | squashed     -- R203
  | nullified    -- R204
  deriving DecidableEq, Repr

/-- One slot's operands and progress. -/
structure SlotRec where
  l : Option Val
  r : Option Val
  p : Option Val
  st : SlotSt
  pieces : List Piece
  got : List Byte
  since : Nat
  deriving DecidableEq, Repr

/-- A slot with nothing delivered. -/
def SlotRec.empty : SlotRec := ⟨none, none, none, .waiting, [], [], 0⟩

/-- A store or fence marker that a block holds (R100, R255). -/
structure Held where
  lsid : Nat
  slot : Nat
  pieces : List Piece
  data : List Byte
  rel : Option Scope
  fence : Option (BitVec 4 × Scope)
  deriving DecidableEq, Repr

/-- The ten atomics (R252). -/
inductive AtomicOp | add | and | or | xor | min | max | minu | maxu | swp | cas
  deriving DecidableEq, Repr

/-- Channel operations (R257). -/
inductive ChanOp | send | recv | tryRecv | close
  deriving DecidableEq, Repr

/-- Barrier operations (R263). -/
inductive BarOp | init | arrive | wait
  deriving DecidableEq, Repr

/-- The request of a block's side-effecting operation (R208, R424). -/
inductive Req
  | atomic (op : AtomicOp) (piece : Piece) (v c : Word) (ord : MemOrd) (scope : Scope)
  | chan (op : ChanOp) (handle : Word) (token : List Byte) (dest : List Piece)
  | barrier (op : BarOp) (key : Nat) (scope : Scope) (arg : Word)
  | record (addr : Word) (remote : Bool)
  | chain (addr : Word) (ec sem : Nat)
  | launch (addr : Word)
  | device (pieces : List Piece) (data : Option (List Byte))
  deriving DecidableEq, Repr

/-- A request with its slot and whether a barrier wait is registered (R266). -/
structure ReqRec where
  slot : Nat
  req : Req
  registered : Bool
  deriving DecidableEq, Repr

/-- What an exit chooses (R240). -/
inductive ExitTo
  | block (a : Word)
  | halt
  | trap (arg : Nat)
  | eret
  deriving DecidableEq, Repr

/-- What a block does in its commit step besides its write entries and stores. -/
inductive CommitAct
  | sysw (reg : Nat) (v : Word)                                   -- R281
  | clearEvents (mask : Nat)                                      -- R287
  | clearFabricEvents (mask : Nat)                                -- R323
  | attach (port bind : Nat) (base : Word) (as : Space) (ch : Bool)   -- R305
  | kset (k : Nat) (v sel : Word) (tag : Nat)                     -- R320
  | mark (port tag : Nat)                                         -- R321
  | fmtw (v : Nat) (sel : Word) (code : Nat)                      -- R322
  | scalew (b : Nat) (v sel : Word)                               -- R322
  | genseed (k : Nat) (v sel : Word)                              -- R322
  | fstop                                                         -- R307
  | frun                                                          -- R306
  | drain (writes : List (Nat × List Byte))                       -- R325
  | tlbinv (extent : Nat) (addr : Word)                           -- R284
  | bcinv (addr : Word)                                           -- R285
  | yield                                                         -- R279
  | token (chan : Nat) (data : List Byte)                         -- R72
  deriving DecidableEq, Repr

/-- A fetched block of a control context (R197). -/
structure Block where
  addr : Word
  words : List Word
  started : Bool
  bound : Bool
  slots : List SlotRec
  writes : List (Option Val)
  exit : Option (Nat × ExitTo)
  held : List Held
  req : Option ReqRec
  acts : List CommitAct
  divZero : Bool
  runFrom : Nat        -- cycle from which R210 counts
  excluded : Nat       -- cycles of excluded waits
  id : Nat := 0        -- the model's name of this execution, given at its start
  evLate : BitVec 4 := 0       -- events of EVPEND that have arrived since a WAITEV of the block delivered (R287)
  fabLate : BitVec 4 := 0      -- events of the region that have arrived since an FWAIT of the block delivered (R323)
  deriving DecidableEq, Repr

/-- What a context's next block waits for after a commit. -/
inductive CtlWait
  | yield (others : List Nat) (since : Nat)     -- R279
  | tlbinv (extent : Nat) (addr : Word) (began : Option (List (Nat × Nat)))
      -- R284; begun, with the reduce records that held translations of its range then: name, place in the chain
  | bcinv (addr : Word)                         -- R285
  | halted                                      -- R243
  deriving DecidableEq, Repr

/-- The architectural state of a control context (R282, R394) with its block. -/
structure Ctl where
  regs : Vector Word 64
  pending : BitVec 64
  next : Word
  step : Bool
  dz : Bool
  prev : Bool
  cur : Bool
  vecbase : Word
  faultCode : BitVec 8
  faultBlk : Word
  faultSlot : BitVec 8
  faultAddr : Word
  faultArg : Word
  faultIter : Vector (BitVec 32) 6
  resident : Nat
  resetStat : Word
  evpend : BitVec 4
  ecstate : Vector Word 16
  async : List TrapInfo
  due : Option TrapInfo
  wait : List CtlWait            -- all that the next block waits for
  blk : Option Block
  watch : Nat
  expired : Bool
  acq : BitVec 64                -- registers whose token a record with REL delivered and no block has read (R95)
  inHalt : Bool                  -- interrupted in its HALT wait (R384)
  traps : List TrapInfo          -- traps entered and not yet left, the latest first (R383, R384)
  deriving DecidableEq, Repr

/-- A context before its first block: every register at the value named in the log (log 1; DESIGN CHOICE). -/
def Ctl.fresh (entry vecbase : Word) : Ctl :=
  { regs := Vector.replicate 64 0, pending := 0, next := entry, step := false, dz := false, prev := false,
    cur := false, vecbase := vecbase, faultCode := 0, faultBlk := 0, faultSlot := 0, faultAddr := 0, faultArg := 0,
    faultIter := Vector.replicate 6 0, resident := 0, resetStat := 0, evpend := 0,
    ecstate := Vector.replicate 16 0, async := [], due := none, wait := [], blk := none, watch := 0,
    expired := false, acq := 0, inHalt := false, traps := [] }

/-! ## Fabric elements and regions -/

/-- A beat of a vector track with the model's iteration tag (R141, R173, R176). -/
structure Beat where
  data : Beat1024
  side : BitVec 32
  tag : BitVec 5
  marks : BitVec 6
  iter : Nat
  deriving DecidableEq, Repr

/-- An accumulator with its even-parity bits (R55, R301). -/
structure Acc where
  v : BitVec 48
  parity : BitVec 3
  deriving DecidableEq, Repr

/-- An open window of one output: its exact products and the block scales (R192, R312). -/
structure Window where
  terms : List Num
  sa : Nat
  sb : Nat
  deriving DecidableEq, Repr

/-- The parts of an FE that an outer iteration's snapshot covers (R319, R342). -/
structure FeCore where
  k : Vector Word 16
  pendK : Assoc (Nat × Word)
  acc : Vector Acc 128
  bank : Bool
  taken : Nat           -- elements of the running reduction that have taken a value (R301)
  wide : Bool           -- the last reduction end was one of more than 64 elements (R301)
  wins : Assoc Window
  fsm : Vector (BitVec 5) 16
  mask : Vector (BitVec 16) 16
  ltag : Vector (BitVec 3) 16
  seed : Vector (BitVec 12) 16
  idx : Vector (BitVec 12) 16
  deriving DecidableEq, Repr

/-- Reset values of an FE: seeds k and indices 0 (R331); the rest as named in the log (log 15). -/
def FeCore.fresh : FeCore :=
  { k := Vector.replicate 16 0, pendK := [], acc := Vector.replicate 128 ⟨0, 0⟩, bank := false, taken := 0,
    wide := false, wins := [], fsm := Vector.replicate 16 0, mask := Vector.replicate 16 0xFFFF, ltag := Vector.replicate 16 7,
    seed := #v[0, 1, 2, 3, 4, 5, 6, 7, 8, 9, 10, 11, 12, 13, 14, 15], idx := Vector.replicate 16 0 }

/-- An FE's state at the start of an outer iteration (R319, R342): its core, the bytes of its stream registers with those of
their rows that were poisoned, and what the FE's markers and KSETs have done since (R320, R321): tags of the markers that
passed, and tagged KSETs that came behind a marker of their tag, each with how many of them had passed by then. -/
structure Snap where
  core : FeCore
  cells : List Byte
  bad : List Nat
  passed : List Nat
  late : List (Nat × Nat × Word × Nat)     -- register, tag, value, markers of the tag
  deriving DecidableEq, Repr

/-- A fabric element. An unlisted FE is `Fe.fresh`. -/
structure Fe where
  core : FeCore
  vc : Vector (BitVec 5) 32
  bs : Vector (BitVec 33) 32
  slots : List (List Word)       -- eight context slots of eight words, [] when empty (R296)
  lru : List Nat                 -- slots, least recently used first
  run : Option Nat               -- slot of the running context
  ring : List (Nat × Nat)        -- ring image of the running context: 96 entries (R317)
  qa : List Beat
  qb : List Beat
  qc : List Beat
  si : List (Nat × BitVec 32)    -- iteration and token
  stoch : Bool
  live : Bool
  iter : Nat
  snaps : Assoc Snap             -- by iteration (R319, R342)
  parkedFor : Option Nat         -- the saved instance whose state it holds (R391)
  claimedAt : Option Nat         -- parked, and claimed in that cycle (R391, R399)
  deriving DecidableEq, Repr

/-- An FE as bring-up leaves it (log 15 for vc and k; R309 for bs). -/
def Fe.fresh : Fe :=
  { core := FeCore.fresh, vc := Vector.replicate 32 0, bs := Vector.replicate 32 0x7F7F7F7F,
    slots := List.replicate 8 [], lru := [0, 1, 2, 3, 4, 5, 6, 7], run := none, ring := [], qa := [], qb := [],
    qc := [], si := [], stoch := false, live := false, iter := 0, snaps := [], parkedFor := none, claimedAt := none }

/-- A nest: block address, loop descriptor (4 words), bindings (8 words each), context set, ITERBOUND, DRAW (R291). -/
structure Nest where
  blk : Word
  loop : List Word
  binds : List (List Word)
  ctxset : Nat
  bound : Nat
  draw : Nat
  run : Bool                     -- an FRUN asked for it
  after : Nat                    -- model's counter at that FRUN's commit: earlier writes of the context bear lower names (R306)
  resume : Bool                  -- a restored nest: it goes on where it was saved, once its contexts are loaded (R397)
  started : Bool
  failed : Bool                  -- it never starts: a load check failed, or it was stopped before its start
  loaded : List Nat              -- FEs (w times W plus c) whose sequencer has loaded its context (R296)
  deriving DecidableEq, Repr

/-- A port's base or channel handle (R305). -/
structure Port where
  base : Word
  as : Space
  ch : Bool
  deriving DecidableEq, Repr

/-- A write or token that a sink holds for its iteration (R81, R102). -/
inductive HoldItem
  | write (id bind pos : Nat) (rel : Option Scope) (va : Word) (pieces : Option (List Piece)) (data : List Byte)
      (cluster : Nat)            -- no pieces: parked on a translation miss (R32, R113)
  | fence (bind pos : Nat) (kinds : BitVec 4) (scope : Scope)
  | token (bind port : Nat) (handle : Word) (data : List Byte) (cluster : Nat)
  deriving DecidableEq, Repr

/-- An outer iteration in flight (R176 to R180). -/
structure Iter where
  n : Nat
  vec : List Nat
  pos : Assoc Nat                -- beats formed so far by each binding
  sinkPos : Assoc Nat            -- beats taken so far by each sink binding
  beats : Assoc Nat              -- beats delivered or taken by each port, for FCNT
  takes : List Word              -- channel handles of the tokens taken, in order
  holds : List HoldItem
  undo : List (Nat × Nat × List Byte × Bool)   -- FE, key, old bytes of one row and whether it was poisoned (R177)
  marks : List (Nat × Nat)           -- markers this iteration carries: port, tag (R321)
  since : Nat
  excluded : Nat
  replays : Nat
  checkFailed : Option (Nat × Nat)   -- relative FE whose check failed first (R56)
  deriving DecidableEq, Repr

/-- A source read that has not been delivered (R102, R113). -/
structure RRead where
  id : Nat
  bind : Nat
  iter : Nat
  pos : Nat                      -- position in the binding's pass
  pieces : List Piece
  got : List Byte
  fence : Option (BitVec 4 × Scope)
  zero : Bool
  parked : Bool
  missed : Bool                  -- it has been parked: a fence token waits until it has performed (R113)
  va : Word
  size : Nat
  marks : BitVec 6
  deriving DecidableEq, Repr

/-- A tagged KSET that waits, in a replay, until as many markers of its tag have passed its FE as had when it came (R320,
R321): relative FE, register, tag, value, markers still to pass. -/
structure KsetLate where
  c : Nat
  w : Nat
  k : Nat
  tag : Nat
  v : Word
  after : Nat
  deriving DecidableEq, Repr

/-- Phase of a region (R386). -/
inductive RPhase | idle | running | held
  deriving DecidableEq, Repr

/-- A region (R162, R291). -/
structure Region where
  rect : Rect
  variant : Nat
  setoff : Nat
  routes : List Word             -- the variant's route records, in relative coordinates (R358)
  phase : RPhase
  nest : Option Nest
  ports : Assoc Port             -- vi0-31 at 0-31, vo0-31 at 32-63
  att : Assoc Nat                -- binding to port
  iters : List Iter
  nextVec : Option (List Nat)
  nextN : Nat
  committed : Nat
  events : BitVec 4              -- pending ITER (bit 1) and SINKMARK (bit 3)
  fcnt : Assoc Nat
  marks : List (Nat × Nat)       -- markers waiting for the next iteration: port, tag
  remarks : Assoc (List (Nat × Nat))   -- markers that iterations to start again carry, by number (R321)
  ksets : List KsetLate          -- tagged KSETs that wait for markers of a replay
  sinks : Assoc (List Beat)      -- beats waiting at each sink binding
  reads : List RRead
  retries : Nat
  retried : Bool
  dataErr : Bool
  leave : Option Nat
  replayed : Assoc Nat           -- replays already made of iterations to start again, by number (R56)
  heldBy : List Nat              -- the faults that hold it, by the model's name (R79, R384, R386)
  blockedFrom : Option Nat       -- since when it waits on channels without interruption (R77)
  watch : Nat
  expired : Bool
  deriving DecidableEq, Repr

/-- A region of a placed instance before any nest. -/
def Region.fresh (rect : Rect) (variant setoff : Nat) (routes : List Word) : Region :=
  { rect, variant, setoff, routes, phase := .idle, nest := none, ports := [], att := [], iters := [], nextVec := none,
    nextN := 0, committed := 0, events := 0, fcnt := [], marks := [], sinks := [], reads := [], retries := 0,
    retried := false, dataErr := false, leave := none, replayed := [], remarks := [], ksets := [], heldBy := [], blockedFrom := none,
    watch := 0, expired := false }

/-! ## Instances and launches -/

/-- Life of a graph instance. -/
inductive Life
  | running | stopping | saving | saved | ended
  deriving DecidableEq, Repr

/-- A delivery that arrives for a saved context and is applied at its restore (R396). -/
inductive Kept
  | token (reg : Nat) (v : Word) (rel : Bool)
  | semaphore (sem : Nat)
  | ecstate (ec : Nat) (v : Word)
  | event (bit : Nat)
  | report (v : Word)            -- RESETSTAT at a report (R278)
  | async (t : TrapInfo)
  deriving DecidableEq, Repr

/-- A graph instance (R161, R166, R171). -/
structure Inst where
  serial : Nat
  ctx : Nat
  launch : Nat
  pos : Nat                      -- position in ascending work identifier (R423)
  wid : Nat
  cluster : Nat                  -- core: die times 96 plus cluster
  slot : Nat
  life : Life
  ctl : Ctl
  reg : Option Region
  faultEnd : Option Nat          -- fault code, when ended by a fault (R418)
  discard : Bool                 -- a stop order in DISCARD mode (R367, R390)
  regDone : Bool                 -- its region has stopped for a save (R390)
  saveFrom : Nat
  bytes : Nat                    -- BYTES of the save header (R393)
  placedAt : Nat
  kept : List Kept               -- deliveries kept while saved, in arrival order (R396)
  sems : List Nat := []          -- semaphores that it owned when it was saved, and owns again where it is restored (R397)
  deriving DecidableEq, Repr

/-- A variant of an image as its loader read it (R358). -/
structure Variant where
  sig : Nat
  w : Nat
  h : Nat
  setoff : Nat
  pattern : Nat
  deriving DecidableEq, Repr

/-- What the loader keeps of an image (R354 to R356, R358): its ctx sections (address, bytes), variants, route records,
channel declarations (handle word, four words), sets of its nest blocks, the route records without a ROUTE_FIELD item, whose
coordinates stand as they are, and the places of the set entries with a CTX_ID item. -/
structure ImageInfo where
  ctx : List (Word × Nat)
  variants : List Variant
  routes : List Word
  chans : List (Word × List Word)
  sets : List Nat
  absRoutes : List Word := []
  ctxIds : List Word := []
  deriving DecidableEq, Repr

/-- An image of which nothing is known. -/
def ImageInfo.none : ImageInfo := { ctx := [], variants := [], routes := [], chans := [], sets := [] }

/-- An accepted launch (R164, R172). -/
structure Launch where
  addr : Word
  ctx : Nat
  tenant : Nat
  cls : Nat
  die : Nat                      -- the die whose queue holds it (R363)
  words : List Word              -- the 16 words of the record as read
  seq : Nat
  inst0 : Nat
  loaded : Bool
  next : Nat                     -- position of the next instance to place
  live : List Nat                -- instance keys placed and not arrived
  status : BitVec 4              -- merged bits (ONCE)
  retries : Nat
  lastFault : Nat
  faulted : Bool
  refused : Bool                 -- a refusal stands in STATE (R170)
  table : Option Nat             -- the launch-table entry that pushed it
  defects0 : List Nat            -- the logical defect map at its acceptance (R167)
  reserved0 : List (Nat × Rect)  -- the tenants' reserved rectangles at its acceptance (R167)
  info : ImageInfo
  deriving DecidableEq, Repr

/-- A push that the scheduler has not read yet (R363). -/
inductive PushFrom
  | ctl (i : Nat)
  | window (port w : Nat)
  | succ
  | table (entry : Nat)
  deriving DecidableEq, Repr

/-- A pushed launch record: context, address, level, die. -/
structure Push where
  from_ : PushFrom
  ctx : Nat
  addr : Word
  sup : Bool
  die : Nat
  deriving DecidableEq, Repr

/-! ## Memory system -/

/-- Where a TLB stands (R30). -/
inductive TlbPlace
  | cluster (c : Nat)
  | die (d : Nat)
  deriving DecidableEq, Repr

/-- A TLB entry: place, context, page base (VA[54:0]) and log2 size, the leaf as last read, its address, and the
physical base (R20, R30). A wardrobe allocation entry stands in the same table: `base` is the page's first wardrobe
address, `pte` the 16-bit entry, `leaf` its address, `phys` the key of the page's first byte. -/
structure TlbEntry where
  place : TlbPlace
  war : Bool := false
  ctx : Nat
  base : Nat
  size : Nat
  pte : Nat
  leaf : Nat
  phys : Nat
  deriving DecidableEq, Repr

/-- Who waits for a walk. -/
inductive WalkFor
  | fetch (i : Nat)
  | slot (i k : Nat)
  | source (i id : Nat)
  | sink (i id : Nat)
  deriving DecidableEq, Repr

/-- A walk asked for (R31), or the fill of a wardrobe allocation entry (`as_` war): who waits, the page, the class of
the context's launch, and whether it has a walker. -/
structure WalkReq where
  by_ : WalkFor
  ctx : Nat
  as_ : Space
  va : Nat
  cluster : Nat
  cls : Nat := 3
  run : Bool := true
  deriving DecidableEq, Repr

/-- An entry of an agent's outbound set: a write of one token, or a fence marker (R88, R97, R255). -/
structure Outb where
  id : Nat
  grp : Nat                      -- id of the first piece of the same access (R107)
  agent : Agent
  key : Nat
  data : List Byte
  rel : Option Scope
  fence : Option (BitVec 4 × Scope)
  poisoned : Bool
  red : Option Nat := none       -- RFMT, when the engine adds into the destination (R133)
  seq : Nat := 0                 -- place of an engine's record in its chain
  inst : Nat := 0                -- the instance that started an engine's record
  ctx : Nat := 0                 -- that instance's context (R129)
  queue : Nat := 0               -- the queue that the write is tagged with (R116; see `queueTag`)
  ser : Nat := 0                 -- of a block with SER, one more than its name: what its context wrote before performs first (R198)
  deriving DecidableEq, Repr

/-- A stored error not yet met by a read (R47, R48): the row or line, how many of its bits (in an HBM4 line: 16-bit
symbols) are wrong, and whether they arose while the row stood in the retention code. -/
structure Flaw where
  key : Nat
  errs : Nat
  retained : Bool
  deriving DecidableEq, Repr

/-- Retention of an array (R51 to R53): entering since a cycle, retained, or leaving until a cycle with the first
`rows` rows of each bank to convert back. -/
inductive Retention
  | entering (since : Nat)
  | retained
  | leaving (until_ rows : Nat)
  deriving DecidableEq, Repr

/-- A waiter of a semaphore (R262): instance, slot, count. -/
structure SemWaiter where
  inst : Nat
  slot : Nat
  count : Nat
  deriving DecidableEq, Repr

/-- A semaphore (R261). -/
structure Sem where
  count : BitVec 32
  owner : Option (BitVec 8)
  grants : List (BitVec 8)
  waiters : List SemWaiter
  deriving DecidableEq, Repr

/-- A control core: data cache lines and semaphores. An unlisted core has none (R96, R261). -/
structure Core where
  cache : Assoc (List Byte)
  sems : Assoc Sem
  blocks : List (Nat × Word × List Word)     -- block cache: context, address, extent
  csel : Vector (BitVec 10) 8
  ccnt : Vector (BitVec 48) 8
  ctenant : Option (BitVec 4)
  deriving DecidableEq, Repr

/-- A core as bring-up leaves it. -/
def Core.fresh : Core :=
  { cache := [], sems := [], blocks := [], csel := Vector.replicate 8 0, ccnt := Vector.replicate 8 0,
    ctenant := none }

/-! ## Channels -/

/-- STATE of a channel (R61). -/
inductive ChState | opened | closed | ended
  deriving DecidableEq, Repr

/-- A token of the head (R67, R80), in a slot of the head buffer. -/
structure Tok where
  data : List Byte               -- of a lost token: the ring address, 8 bytes
  taken : Bool
  lost : Bool
  slot : Nat := 0
  deriving DecidableEq, Repr

/-- An entry of the ring or the tail: token bytes, stored size, compressed or raw; a pad has no token (R68, R70). In the
tail it begins at byte `off` of the buffer. -/
structure Ent where
  data : List Byte
  size : Nat
  comp : Bool
  pad : Bool
  lost : Bool
  off : Nat := 0
  deriving DecidableEq, Repr

/-- A committed token of a region that is still in the hold buffer of a cluster (R81), or the close-at-end of its last
iteration (no data; R73). It stands in the FIFO from the commit on (R104); it is receivable once its release has
performed, that is, once the marker `id` of instance `inst` has left the outbound set. -/
structure LateTok where
  hold : Nat
  data : Option (List Byte)
  inst : Nat
  id : Nat
  ready : Bool
  deriving DecidableEq, Repr

/-- An endpoint (R62): unbound, a control context, or a region port, by the model's instance key. -/
inductive Endpoint
  | opened
  | ctl (i : Nat)
  | port (i p : Nat)
  deriving DecidableEq, Repr

/-- A channel table entry with its tokens (R61). -/
structure Chan where
  valid : Bool
  state : ChState
  stall : Bool
  stallRead : Bool
  rfull : Bool
  grow : Bool
  comp : Bool
  gen : BitVec 8
  ctx : Nat
  scope : Scope
  width : Nat
  thresh : Nat
  lost : Nat
  writer : Endpoint
  reader : Endpoint
  hcap : Nat
  tcap : Nat
  hwar : Bool
  twar : Bool
  hclu : Nat                     -- cluster (or die) of the head buffer
  tclu : Nat
  hbase : Nat                    -- HBASE: byte offset of the head buffer in that cabinet or die's wardrobe
  tbase : Nat                    -- TBASE
  rbase : Word
  ringpg : Nat
  ringmax : Nat
  head : List Tok
  ring : List Ent
  tail : List Ent
  resv : List (Nat × Ent)        -- reservations: instance, entry (R72)
  late : List LateTok
  rdoff : Nat
  wroff : Nat
  deriving DecidableEq, Repr

/-! ## Engines, lanes, power -/

/-- How a record reports its completion (R125). -/
inductive RecTarget
  | token (reg : Nat)
  | chain (ec sem : Nat)
  deriving DecidableEq, Repr

/-- Phase of a record at its engine. -/
inductive RecPhase
  | accepted
  | waitLeave
  | active
  | signal (k : Nat)             -- its data is written; completion signal k comes next (R125)
  deriving DecidableEq, Repr

/-- A record accepted by an engine (R117 to R128). -/
structure Rec where
  inst : Nat
  cls : Nat                      -- class and queue of that instance's launch: the record outlives the instance (R116)
  queue : Nat
  ctx : Nat
  sup : Bool
  die : Nat
  engine : Nat
  cluster : Nat                  -- core that issued it, for LOCAL (R119)
  addr : Word
  target : RecTarget
  toDst : Bool                   -- a CPYT record in a DEVICE page: the die of DST is not known yet (R271)
  walked : Bool                  -- reached by a chain walk (R124)
  seq : Nat                      -- records of the chain before this one
  phase : RecPhase
  fetched : Assoc (List Byte)    -- read from a DEVICE page: the record at 0, the tile descriptor at 1, CAP at 2
  words : List Word
  tile : List Word
  input : Assoc (List (Byte × Bool))     -- source units read so far: each byte, and whether it is poisoned
  chunks : Assoc (Option (List Byte))    -- decoded chunks; none: bad
  issued : List Nat              -- output tokens put into the outbound set
  pois : Bool
  total : Nat                    -- bytes this chain has transferred since its CPYC (R272)
  leave : Option Nat
  pages : Assoc (List Piece)     -- translations a reduce record holds (R127): unit n at 2n, destination token t at 2t + 1
  group : Option Nat             -- lane group it uses (R136)
  deriving DecidableEq, Repr

/-- An XTLOAD accepted and not yet in effect (R275). -/
structure XtLoad where
  inst : Nat
  queue : Nat                    -- the queue that the load is tagged with (R116)
  reg : Nat
  ctx : Nat
  sup : Bool
  addr : Word
  xtid : Nat
  got : List Byte                -- the image as far as it has been read
  deriving DecidableEq, Repr

/-- A lane group: tenant, table, loads in order (R136, R275). -/
structure LaneGroup where
  tenant : Option (BitVec 4)
  xtid : Nat
  table : List Byte
  loads : List XtLoad
  deriving DecidableEq, Repr

/-- Who asks for power leave (R376). -/
inductive LeaveFor
  | frun (i : Nat)
  | record (r : Nat)
  | restore (i : Nat)
  deriving DecidableEq, Repr

/-- A leave request (R377), in units of 0.25 mW. -/
structure LeaveReq where
  for_ : LeaveFor
  die : Nat
  cls : Nat
  units : Nat
  since : Nat
  deriving DecidableEq, Repr

/-- A tenant's policy (R359, R364 to R367, R398). -/
structure Tenant where
  weights : Assoc Nat            -- key die times 4 plus class; unlisted 1
  served : Assoc Nat             -- instances placed in the current turn, by the same key
  quota0 : Nat
  reserved : Option Rect
  signed : Bool
  keys : List Word
  watchdogUs : Nat
  borrowed : List (Nat × Nat)    -- intervals of borrowed time, in cycles
  deriving DecidableEq, Repr

/-- A tenant before firmware sets anything (log 13; watchdog 1 s by R398). -/
def Tenant.fresh : Tenant :=
  { weights := [], served := [], quota0 := 0, reserved := none, signed := false, keys := [], watchdogUs := 1000000,
    borrowed := [] }

/-- A context known to firmware (R14, R416). -/
structure Context where
  desc : CtxDesc
  vecDefault : Word
  serial : Nat                   -- INST serial of its next instance (R166; log 42)
  deriving DecidableEq, Repr

/-! ## Time, launch table, links, ports, firmware -/

/-- Time base (R159, R160, R375). `eighths` counts eighths of a TAI nanosecond. -/
structure TimeBase where
  eighths : Nat
  src : BitVec 2
  everlock : Bool
  holdover : Bool
  locked : Bool
  offset : Word
  ptmoff : Word
  slew : Int                     -- correction still to be slewed, in eighths of ns
  deriving DecidableEq, Repr

/-- A launch-table entry (R372). -/
structure LtEntry where
  start : Word
  period : Word
  record : Word
  valid : Bool
  rule : BitVec 2
  deferred : Bool
  cls : BitVec 2
  ctx : BitVec 8
  die : BitVec 3
  skips : BitVec 32
  nextK : Nat                    -- k of the next T_k
  jump : Option (Nat × Nat)      -- T_k from the first on are skipped to the second: the step at first lock passed them (R373)
  replace : Bool                 -- a REPLACE reset runs (R374)
  deriving DecidableEq, Repr

/-- An unarmed entry: every field 0 (R372). -/
def LtEntry.fresh : LtEntry := ⟨0, 0, 0, false, 0, false, 0, 0, 0, 0, 0, none, false⟩

/-- A flit on a module's wire (R142). -/
structure Flit where
  seq : BitVec 8
  ackseq : BitVec 8
  nakseq : BitVec 8
  kind : BitVec 4
  nakv : Bool
  payload : List Byte
  stream : Nat := 0              -- the model's own: the track or link of the boundary that the payload belongs to
  ord : Nat := 0                 -- the model's own: its place in that track or link
  deriving DecidableEq, Repr

/-- One direction of one boundary module: its sender and its far receiver (R143, R144). -/
structure LinkDir where
  width : Nat                    -- 64, 32, or 0 when retired
  half : Bool                    -- at 32 lanes: the upper half works
  nextSeq : BitVec 8
  held : List Flit               -- replay buffer, oldest first
  toSend : List Flit             -- flits of a replay still to go out
  wire : List Flit
  nakSeen : Option (BitVec 8)    -- a NAK that reached the sender
  expected : BitVec 8
  nakOut : Bool                  -- a NAK went out and its number has not been accepted yet
  delivered : List (List Byte)   -- payloads delivered, newest last
  fails : List Nat               -- cycles of recent CRC failures
  replays : Assoc Nat            -- times each held SEQ was replayed
  lastAck : Nat                  -- cycle of the last ACKSEQ advance
  retraining : Bool
  began : Bool                   -- the retraining began at this direction's receiver or sender
  moved : List Flit              -- flits taken over from a retired module, to be sent under new numbers (R144)
  deriving DecidableEq, Repr

/-- A module direction at full width (R144; start sequence 0, log 19). -/
def LinkDir.fresh : LinkDir :=
  { width := 64, half := false, nextSeq := 0, held := [], toSend := [], wire := [], nakSeen := none, expected := 0,
    nakOut := false, delivered := [], fails := [], replays := [], lastAck := 0, retraining := false,
    began := false, moved := [] }

/-- One direction of a boundary: what its modules carry for each of its tracks and links, and the order that the receiving
side restores before it delivers (R142). -/
structure Bound where
  sent : Assoc Nat               -- payloads sent, by track or link
  due : Assoc Nat                -- payloads delivered, by track or link
  early : List (Nat × Nat × List Byte)   -- arrived before their turn: track or link, place, payload
  out : List (Nat × List Byte)   -- delivered, the latest last: track or link, payload
  deriving DecidableEq, Repr

/-- A boundary before any flit. -/
def Bound.fresh : Bound := ⟨[], [], [], []⟩

/-- What an ordering point or peer port still holds of a line of an inbound write (R112, R152, R157). A peer's source node
stands as requester 65,536 plus the node. -/
structure HostLine where
  id : Nat
  wr : Nat                       -- the posted write it belongs to
  rid : Nat
  forwarded : Bool
  key : Nat                      -- next byte to perform
  data : List Byte               -- bytes still to perform
  poisoned : Bool
  deriving DecidableEq, Repr

/-- An aperture (R149). -/
structure Aperture where
  w0 : Word
  w1 : Word
  w2 : Word
  deriving DecidableEq, Repr

/-- A launch window (R154). -/
structure Window154 where
  ctx : Option (BitVec 8)
  accepted : Word
  refused : Word
  deriving DecidableEq, Repr

/-- An inbound read: translated, held behind earlier writes of its requester, or performing (R112, R150). -/
structure HostReadReq where
  id : Nat
  rid : Nat
  tag : Nat
  ro : Bool                      -- its Relaxed Ordering attribute (R421)
  forwarded : Bool
  pieces : List Piece
  got : List Byte
  poisoned : Bool
  deriving DecidableEq, Repr

/-- What an inbound request is answered with: requester, tag, and data with the poisoned attribute, or Unsupported
Request. -/
inductive Completion
  | data (rid tag : Nat) (bytes : List Byte) (poisoned : Bool)
  | unsupported (rid tag : Nat)
  deriving DecidableEq, Repr

/-- A PCI Express port and its BAR 0 registers (R147 to R155). -/
structure HostPort where
  bar2log : Nat                  -- log2 of the BAR 2 size, 30 to 40
  apertures : Assoc Aperture
  ingress : Assoc Aperture
  windows : Assoc Window154
  msixTable : Assoc Word         -- 8-byte words of the table; unlisted: address and data 0, masked
  msixPending : BitVec 32        -- raised while masked
  msixSent : List (Nat × Word × Nat)    -- messages that left for the host, the latest last: vector, address, data
  lines : List HostLine
  reads : List HostReadReq
  completions : List Completion
  deriving DecidableEq, Repr

/-- A port as bring-up leaves it (R147: BAR 2 from 1 GiB; log 7). -/
def HostPort.fresh : HostPort :=
  { bar2log := 30, apertures := [], ingress := [], windows := [], msixTable := [], msixPending := 0,
    msixSent := [], lines := [], reads := [], completions := [] }

/-- A peer-table entry (R156) with the unreachable mark of R158. -/
structure PeerEntry where
  w0 : Word
  w1 : Word
  down : Bool
  deriving DecidableEq, Repr

/-- Who receives the data of an outbound read. -/
inductive ReadFor
  | slot (i k : Nat)
  | engine (r token : Nat)
  | words (r k : Nat)            -- a record, tile descriptor or list word of record `r`, by its place in `fetched`
  | image (g : Nat)              -- the next bytes of the oldest load of lane group `g`
  deriving DecidableEq, Repr

/-- An outbound read of the host window or of a peer (R148, R157). -/
structure OutRead where
  tag : Nat
  pa : Nat
  n : Nat
  for_ : ReadFor
  via : Option Nat               -- the peer port that carries it (R156)
  since : Nat
  sends : Nat                    -- transmissions so far (R158)
  deriving DecidableEq, Repr

/-- A write that left for the host or a peer (R148, R157). -/
structure OutWrite where
  id : Nat
  pa : Nat
  data : List Byte
  ordered : Bool                 -- Relaxed Ordering clear, or WRITE_ORD
  via : Option Nat               -- the peer port that carries it (R156)
  since : Nat
  sends : Nat                    -- transmissions so far (R158)
  deriving DecidableEq, Repr

/-- A fault-log record (R408, R430). -/
structure LogRec where
  time : Nat
  code : Nat
  ctx : Nat
  tenant : Nat
  die : Nat
  cluster : Nat
  inst : Nat
  addr : Nat
  detail : Nat
  deriving DecidableEq, Repr

/-- The fault log (R408). -/
structure FaultLog where
  head : Nat
  tail : Nat
  used : Nat                     -- records written and not read (log 24)
  lost : Nat
  recs : Assoc LogRec
  deriving DecidableEq, Repr

/-- A command of the scheduler to a leaf controller (R402). -/
structure LeafState where
  permits : Nat
  nextSeq : BitVec 16
  sent : List (BitVec 16)        -- sent and not acknowledged
  wire : List (BitVec 16)        -- on their way to the leaf
  acks : List (BitVec 16)        -- acknowledgements on their way back
  acted : List (BitVec 16)
  deriving DecidableEq, Repr

/-- A leaf controller's command link at bring-up (R402; log 17). -/
def LeafState.fresh : LeafState := ⟨8, 0, [], [], [], []⟩

/-- A queue-level reset (R116, R278). -/
structure Reset where
  serial : Nat
  tenant : Nat
  cls : Nat
  diemask : Nat
  issuers : List Nat
  insts : List Nat
  launches : List Nat
  table : Option Nat             -- a launch-table entry whose record is pushed at the report (R374)
  deriving DecidableEq, Repr

/-- A placement record (R171), under the model's name of the instance; without a region, its origin, W and H are 0. -/
structure PlaceRec where
  key : Nat
  inst : Nat
  ctx : Nat
  cls : Nat
  col0 : Nat
  row0 : Nat
  w : Nat
  h : Nat
  variant : Nat
  sig : Nat
  core : Nat                     -- die times 96 plus cluster
  slot : Nat
  tai : Nat
  deriving DecidableEq, Repr

/-- What a command tells a leaf controller to do (R401, R402). -/
inductive LeafAct
  | place (launch : Nat)         -- the next unit of a launch
  | stop (inst : Nat)            -- for its save (R389)
  | reset (serial : Nat)         -- every instance of a queue-level reset (R116)
  | restore (inst : Nat)         -- R397
  | save (fes : List Nat)        -- claimed FEs (R391)
  | sleep (a : ArrayId)          -- retention entry (R51)
  | wake (a : ArrayId)           -- retention exit (R51)
  | other                        -- R401 names no effect of its own
  deriving DecidableEq, Repr

/-- A decision of the journal (R403): what was decided, for which key. -/
inductive Decision
  | accept (launch : Nat)
  | place (r : PlaceRec)
  | claim (inst fe : Nat)        -- a parked FE of a saved instance is claimed (R391)
  | grant (q : Nat)
  | preempt (inst : Nat)
  | reset (serial : Nat)
  | command (leaf : Nat) (seq : BitVec 16) (act : LeafAct)
  | firmware (g : Grant)
  deriving DecidableEq, Repr

/-- A record of the journal, in its place of both copies (R403; log 104). -/
structure JournalRec where
  slot : Nat
  what : Decision
  deriving DecidableEq, Repr

/-- The die's performance counters and calendar state (R282, R369, R370). -/
structure DieState where
  dsel : Vector (BitVec 10) 32
  dcnt : Vector (BitVec 48) 32
  dtenant : Option (BitVec 4)
  pool : Nat                     -- leave pool in units of 0.25 mW
  granted0 : Nat                 -- granted to class 0
  granted : Nat                  -- granted to all classes
  served : Assoc Nat             -- by router output or memory port: one more than the number of the slot it last served
  rotation : Assoc Nat           -- by port: whom it next lends to; 16 stands for firmware
  forwarded : Option (Nat × Packet)  -- the packet last forwarded, with its port
  paced : List Nat               -- ports whose lent slots the power manager holds back (R378)
  engSeq : Vector (BitVec 64) 8
  engTurn : Assoc Nat            -- by engine: one more than the tenant that it last gave an active place (R123)
  deriving DecidableEq, Repr

/-- A die as bring-up leaves it: 245 W of leave (R376), counters of the engines zero (R126). -/
def DieState.fresh : DieState :=
  { dsel := Vector.replicate 32 0, dcnt := Vector.replicate 32 0, dtenant := none, pool := 980000, granted0 := 0,
    granted := 0, served := [], rotation := [], forwarded := none, paced := [], engSeq := Vector.replicate 8 0,
    engTurn := [] }

/-- Which scheduler commands the leaves (R401, R404). -/
inductive Scheduler | primary | standby
  deriving DecidableEq, Repr

/-- Firmware's own state (R402 to R407). -/
structure Firmware where
  sched : Scheduler
  standby : Bool                 -- a standby runs
  lastBeat : Nat
  journal : List JournalRec      -- oldest first
  leaves : Assoc LeafState
  nonce : Assoc Word             -- four words (R407)
  reportTo : Option (Nat × Word)     -- pending report: port, address
  rollback : Nat
  configured : Bool              -- a context has been created since bring-up: the buffer reserves are fixed (R65)
  deriving DecidableEq, Repr

/-- Bring-up progress (R405, R406). -/
inductive Bringup
  | off
  | failed (step : Nat)
  | up
  deriving DecidableEq, Repr

/-- An item that a cluster's configuration store holds (R37, R296): tagged with its context, its kind and identifier
(R349), its first byte in the store and its length. -/
structure StoreItem where
  core : Nat
  ctx : Nat
  kind : Nat
  id : Nat
  off : Nat
  n : Nat
  deriving DecidableEq, Repr

/-- The state of the module. -/
structure State where
  agenda : List Move             -- the model's own: the moves that come next (log 2)
  cur : Nat × Nat                -- the model's own: instance and slot of the firing slot
  fresh : Nat                    -- the model's own: counter of names and free values (log 3)
  bringup : Bringup
  cycle : Nat
  mem : Memory
  poison : List Nat              -- keys of poisoned rows and lines (R49)
  flaws : List Flaw
  writebacks : List Nat          -- granules whose corrected data waits to be written back (R48)
  retention : List (ArrayId × Retention)
  defects : List Nat             -- module FE indices (R169)
  contexts : Assoc Context
  gens : Assoc (BitVec 8)        -- GEN of freed channel entries
  tenants : Assoc Tenant
  tlb : List TlbEntry
  walks : List WalkReq
  outb : List Outb
  cores : Assoc Core
  insts : Assoc Inst
  launches : Assoc Launch
  pushes : List Push
  resets : List Reset
  resetSerial : Nat
  launchSeq : Nat
  fes : Assoc Fe                 -- by module FE index: row times 384 plus column
  store : List StoreItem         -- what the configuration stores hold, the latest last
  chans : Assoc Chan             -- by die times 4096 plus index
  reports : List Nat             -- instances reported blocked on channels (R77)
  detect : List Nat              -- reports for which the detector has still to run
  reserves : Assoc Nat           -- bytes of the buffer reserves: by cluster in its cabinet; by 768 plus die in its wardrobe
  recs : Assoc Rec
  lanes : Assoc LaneGroup        -- by die times 2 plus group
  leaves : Assoc LeaveReq
  dies : Assoc DieState
  time : TimeBase
  table : Assoc LtEntry
  calendar : Vector (BitVec 8) 64
  links : Assoc LinkDir
  bounds : Assoc Bound           -- by boundary times 2 plus direction
  ports : Assoc HostPort         -- 0 and 1
  peers : Assoc PeerEntry
  outReads : List OutRead
  outWrites : List OutWrite      -- writes to peers that wait for their acknowledgement
  hostSeen : List OutWrite       -- writes handed to the host, newest last
  log : FaultLog
  fw : Firmware
  deriving DecidableEq, Repr

/-- The module when power is applied: bring-up (R406) has not run, and nothing is listed. -/
def State.reset : State :=
  { agenda := [], cur := (0, 0), fresh := 0, bringup := .off, cycle := 0, mem := [], poison := [], flaws := [],
    writebacks := [], retention := [], defects := [], contexts := [], gens := [], tenants := [], tlb := [],
    walks := [], outb := [], cores := [], insts := [], launches := [], pushes := [], resets := [], resetSerial := 0,
    launchSeq := 0, fes := [], store := [], chans := [], reports := [], detect := [], reserves := [], recs := [], lanes := [],
    leaves := [], dies := [], time := ⟨0, 0, false, false, false, 0, 0, 0⟩, table := [],
    calendar := Vector.replicate 64 0, links := [], bounds := [], ports := [], peers := [], outReads := [], outWrites := [],
    hostSeen := [], log := ⟨0, 0, 0, 0, []⟩,
    fw := { sched := .primary, standby := true, lastBeat := 0, journal := [], leaves := [], nonce := [],
            reportTo := none, rollback := 0, configured := false } }

/-- Why the model stops with a fault. -/
inductive Fault
  /-- Raised by `step` when the move names a slot whose word does not decode. A fetched block holds no such word
  (R211 refuses the block at its fetch), so no run meets it: safe. -/
  | notAnInstruction (w : Word)
  deriving DecidableEq, Repr

/-- Why the model gives an instruction no meaning. -/
inductive Refusal
  /-- Raised by an arm of `exec` for an instruction with no meaning yet: safe. -/
  | notModelled (mnemonic : String)
  deriving DecidableEq, Repr

end Sys2Proof.Machine
end

