-- ==== Sys2Proof/Machine/Basics.lean ====
section
/-! DEFINITION. Tables by key, memory in its canonical form, the keys under which the spaces' bytes stand, home slices,
poison, and the plainest accessors of State. -/

namespace Sys2Proof.Machine

open Sys2Proof.Bits

/-! ## Tables by key -/

/-- The value at a key. -/
def aget {α : Type} (k : Nat) : Assoc α → Option α
  | [] => none
  | (j, a) :: m => if j = k then some a else aget k m

/-- The value at a key, or `d`. -/
def agetD {α : Type} (d : α) (k : Nat) (m : Assoc α) : α := (aget k m).getD d

/-- The table with key `k` at `a`, keys kept rising. -/
def aset {α : Type} (k : Nat) (a : α) : Assoc α → Assoc α
  | [] => [(k, a)]
  | (j, b) :: m => if k < j then (k, a) :: (j, b) :: m else if k = j then (k, a) :: m else (j, b) :: aset k a m

/-- The table without key `k`. -/
def adel {α : Type} (k : Nat) : Assoc α → Assoc α
  | [] => []
  | (j, b) :: m => if j = k then m else (j, b) :: adel k m

/-- The table with `f` applied at `k`, if it is listed. -/
def amod {α : Type} (k : Nat) (f : α → α) : Assoc α → Assoc α
  | [] => []
  | (j, b) :: m => if j = k then (j, f b) :: m else (j, b) :: amod k f m

/-- Keys rise strictly from above `lo`. -/
def Assoc.rising {α : Type} : Option Nat → Assoc α → Bool
  | _, [] => true
  | none, (k, _) :: m => Assoc.rising (some k) m
  | some lo, (k, _) :: m => lo < k && Assoc.rising (some k) m

/-! ## Memory -/

/-- One byte of memory. -/
def Memory.read (m : Memory) (a : Nat) : Byte := agetD Memory.unlisted a m

/-- Memory with byte `a` at `b`, in canonical form: writing what an unlisted byte reads as removes the entry. -/
def Memory.write (m : Memory) (a : Nat) (b : Byte) : Memory :=
  if b = Memory.unlisted then adel a m else aset a b m

/-- `n` bytes from `a` on, lowest address first (R8). -/
def Memory.readN (m : Memory) (a : Nat) : Nat → List Byte
  | 0 => []
  | n + 1 => m.read a :: Memory.readN m (a + 1) n

/-- Memory with the bytes `bs` from `a` on (R8). -/
def Memory.writeN (m : Memory) (a : Nat) : List Byte → Memory
  | [] => m
  | b :: bs => Memory.writeN (m.write a b) (a + 1) bs

/-- The canonical form: addresses strictly rising, and no entry equal to what an unlisted address reads as. -/
def Memory.wf (m : Memory) : Bool := Assoc.rising none m && m.all (fun c => c.2 != Memory.unlisted)

/-! ## Keys and homes -/

/-- End of HBM4 (R16). -/
def hbmEnd : Nat := 0xC000000000
/-- Bytes of one stack (R45). -/
def stackBytes : Nat := 0xC00000000
/-- First key of the cabinets; below it stand physical addresses (R16). -/
def cabBase : Nat := 2 ^ 52
/-- First key of the wardrobes. -/
def warBase : Nat := 2 ^ 53
/-- First key of the shelves. -/
def shelfBase : Nat := 2 ^ 54
/-- First key of the configuration stores (R37). -/
def storeBase : Nat := 2 ^ 55
/-- First key of the decision journal's two copies (R403). -/
def journalBase : Nat := 2 ^ 56
/-- First key that stands for a channel's FIFO at its die's channel controller (R83, R104). -/
def chanBase : Nat := 2 ^ 57

/-- Key of a cabinet byte; clusters of the module are numbered die times 96 plus cluster (R28). -/
def cabKey (core off : Nat) : Nat := cabBase + core * 0x200000 + off
/-- Key of a wardrobe byte (R29, R44). -/
def warKey (die page off : Nat) : Nat := warBase + die * 0x8000000 + page * 0x100000 + off
/-- Key of a shelf byte of a module FE (R27). -/
def shelfKey (fe off : Nat) : Nat := shelfBase + fe * 0x8000 + off % 0x8000

/-- Key of a configuration-store byte of a module cluster (R37). -/
def storeKey (core off : Nat) : Nat := storeBase + core * 0x40000 + off
/-- Key of a byte of the decision journal's copy on an I/O die (R403). -/
def journalKey (io off : Nat) : Nat := journalBase + io * 0x400000 + off
/-- The key that stands for the FIFO of a channel (table key: die times 4096 plus index) at its controller. -/
def tokenKey (chan : Nat) : Nat := chanBase + chan

/-- Where a location is homed (R84, R86), and the other arrays of R47. -/
inductive Home
  | hbm (die : Nat)
  | cab (core : Nat)
  | war (die : Nat)
  | host
  | peer
  | shelf (fe : Nat)
  | store (core : Nat)
  | journal (io : Nat)
  | chan (die : Nat)
  deriving DecidableEq, Repr

/-- The home of a key (R37, R45, R84). -/
def homeOf (key : Nat) : Home :=
  if key < 2 ^ 51 then .hbm (key / stackBytes / 2)
  else if key < 0xC000000000000 then .host
  else if key < cabBase then .peer
  else if key < warBase then .cab ((key - cabBase) / 0x200000)
  else if key < shelfBase then .war ((key - warBase) / 0x8000000)
  else if key < storeBase then .shelf ((key - shelfBase) / 0x8000)
  else if key < journalBase then .store ((key - storeBase) / 0x40000)
  else if key < chanBase then .journal ((key - journalBase) / 0x400000)
  else .chan ((key - chanBase) / 4096)

/-- A DEVICE location (R16). -/
def isDeviceKey (key : Nat) : Bool := 2 ^ 51 ≤ key && key < cabBase

/-- Granule of a stored code at a key: a 64-byte line in HBM4, an 8-byte row elsewhere (R47). -/
def granule (key : Nat) : Nat := if key < 2 ^ 51 then 64 else 8

/-- Start of the granule that holds a key. -/
def granuleOf (key : Nat) : Nat := key - key % granule key

/-- Some byte of the run lies in a poisoned row or line (R49). -/
def poisonedIn (poison : List Nat) (key n : Nat) : Bool :=
  poison.any fun g => g < key + n && key < g + granule g

/-- Poison after a write: a write that covers a whole row or line clears it (R50). -/
def clearPoison (poison : List Nat) (key n : Nat) : List Nat :=
  poison.filter fun g => !(key ≤ g && g + granule g ≤ key + n)

/-- The bytes of a run. -/
def State.bytes (s : State) (key n : Nat) : List Byte := s.mem.readN key n

/-- Two runs of bytes have a byte in common. -/
def overlap (k n k' n' : Nat) : Bool := k < k' + n' && k' < k + n

/-- A run of bytes written in one step: what covers a whole row or line replaces its stored code, errors included, and
pending write-backs of what it touches are dropped (R48, R50). -/
def State.putBytes (s : State) (key : Nat) (bs : List Byte) : State :=
  { s with mem := s.mem.writeN key bs, poison := clearPoison s.poison key bs.length,
           flaws := s.flaws.filter fun f => !(key ≤ f.key && f.key + granule f.key ≤ key + bs.length),
           writebacks := s.writebacks.filter fun g => !overlap g (granule g) key bs.length }

/-- Rows and lines poisoned beside those that are. -/
def State.repoison (s : State) (gs : List Nat) : State :=
  { s with poison := gs.dedup.filter (fun g => !s.poison.contains g) ++ s.poison }

/-- The poisoned rows and lines that a run touches. -/
def State.badRows (s : State) (key n : Nat) : List Nat := s.poison.filter fun g => g < key + n && key < g + granule g

/-- A 64-bit number at a key. -/
def State.num8 (s : State) (key : Nat) : Nat := leNat (s.bytes key 8)

/-! ## Instances, cores, dies, FEs -/

/-- The instance of a model key. -/
def State.inst? (s : State) (i : Nat) : Option Inst := aget i s.insts

/-- The state with instance `i` changed. -/
def State.modInst (s : State) (i : Nat) (f : Inst → Inst) : State := { s with insts := amod i f s.insts }

/-- The state with the control context of instance `i` changed. -/
def State.modCtl (s : State) (i : Nat) (f : Ctl → Ctl) : State := s.modInst i fun n => { n with ctl := f n.ctl }

/-- The state with the block in flight of instance `i` changed. -/
def State.modBlk (s : State) (i : Nat) (f : Block → Block) : State :=
  s.modCtl i fun c => { c with blk := c.blk.map f }

/-- The state with slot `k` of that block changed. -/
def State.modSlot (s : State) (i k : Nat) (f : SlotRec → SlotRec) : State :=
  s.modBlk i fun b => { b with slots := updateAt f k b.slots }

/-- The state with the region of instance `i` changed. -/
def State.modReg (s : State) (i : Nat) (f : Region → Region) : State :=
  s.modInst i fun n => { n with reg := n.reg.map f }

/-- A control core. -/
def State.core (s : State) (c : Nat) : Core := agetD Core.fresh c s.cores

/-- The state with a control core changed. -/
def State.modCore (s : State) (c : Nat) (f : Core → Core) : State := { s with cores := aset c (f (s.core c)) s.cores }

/-- A die's counters, calendar and leave pool. -/
def State.die (s : State) (d : Nat) : DieState := agetD DieState.fresh d s.dies

/-- The state with a die changed. -/
def State.modDie (s : State) (d : Nat) (f : DieState → DieState) : State :=
  { s with dies := aset d (f (s.die d)) s.dies }

/-- An FE by module index. -/
def State.fe (s : State) (x : Nat) : Fe := agetD Fe.fresh x s.fes

/-- The state with an FE changed. -/
def State.modFe (s : State) (x : Nat) (f : Fe → Fe) : State := { s with fes := aset x (f (s.fe x)) s.fes }

/-- A tenant's policy. -/
def State.tenant (s : State) (t : Nat) : Tenant := agetD Tenant.fresh t s.tenants

/-- The state with a tenant's policy changed. -/
def State.modTenant (s : State) (t : Nat) (f : Tenant → Tenant) : State :=
  { s with tenants := aset t (f (s.tenant t)) s.tenants }

/-- A host port. -/
def State.port (s : State) (p : Nat) : HostPort := agetD HostPort.fresh p s.ports

/-- The state with a host port changed. -/
def State.modPort (s : State) (p : Nat) (f : HostPort → HostPort) : State :=
  { s with ports := aset p (f (s.port p)) s.ports }

/-- The next free name of the model's own counter, from 1 up (log 3), and the counter moved on. -/
def State.takeFresh (s : State) : Nat × State := (s.fresh + 1, { s with fresh := s.fresh + 1 })

/-- Tenant of a context (R13). -/
def State.tenantOf (s : State) (ctx : Nat) : Nat :=
  match aget ctx s.contexts with
  | some c => c.desc.tenant.toNat
  | none => 0

/-! ## Channel handles (R60) -/

/-- The table key that a handle names: die times 4096 plus index; none when a zero field is set. -/
def chanKey (h : Word) : Option Nat :=
  if 2 ^ 32 ≤ h.toNat ∨ bits h.toNat 8 0 ≠ 0 then none
  else some (bits h.toNat 31 29 * 4096 + bits h.toNat 28 17)

/-- The handle of a channel. -/
def chanHandle (key : Nat) (c : Chan) : Word :=
  BitVec.ofNat 64 (key / 4096 * 2 ^ 29 + key % 4096 * 2 ^ 17 + c.gen.toNat * 2 ^ 9)

/-- The channel of a handle for an agent's context; none when the handle is stale. -/
def chanOf (s : State) (ctx : Nat) (h : Word) : Option (Nat × Chan) :=
  match chanKey h with
  | none => none
  | some k => match aget k s.chans with
    | some c => if c.valid && c.gen.toNat == bits h.toNat 16 9 && c.ctx == ctx then some (k, c) else none
    | none => none

/-- The state with a channel changed. -/
def State.modChan (s : State) (k : Nat) (f : Chan → Chan) : State := { s with chans := amod k f s.chans }

/-- The state with the channel of a handle changed, if the handle is good for a context. -/
def State.modHandle (s : State) (ctx : Nat) (h : Word) (f : Chan → Chan) : State :=
  match chanOf s ctx h with
  | some (k, _) => s.modChan k f
  | none => s

/-! ## Places (R2, R83, R85, R161) -/

/-- Die of a module cluster number. -/
def dieOfCore (core : Nat) : Nat := core / 96

/-- Module FE index of module coordinates. -/
def feIndex (col row : Nat) : Nat := row * 384 + col

/-- Die of module coordinates: dies stand four to a row of 96 columns, two rows of 64 (R2). -/
def dieOfFe (col row : Nat) : Nat := row / 64 * 4 + col / 96

/-- Module cluster number of module coordinates: clusters of 8 × 8 FEs, 12 to a row of a die (R2, R28). -/
def coreOfFe (col row : Nat) : Nat := dieOfFe col row * 96 + row % 64 / 8 * 12 + col % 96 / 8

/-- The FEs of a rectangle as (column, row) in module coordinates. -/
def rectCells (r : Rect) : List (Nat × Nat) :=
  (List.range r.h).flatMap fun w => (List.range r.w).map fun c => (r.col0 + c, r.row0 + w)

/-- The clusters a rectangle covers. -/
def rectCores (r : Rect) : List Nat := ((rectCells r).map fun x => coreOfFe x.1 x.2).dedup

/-- The dies a rectangle covers. -/
def rectDies (r : Rect) : List Nat := ((rectCells r).map fun x => dieOfFe x.1 x.2).dedup

/-- The rectangle that an instance's region holds. -/
def Inst.rect (n : Inst) : Option Rect := n.reg.map (·.rect)

/-- Module index of relative FE (c, w) of instance `i`'s region. -/
def State.feOf (s : State) (i : Nat) (fe : FeAt) : Option Nat :=
  match s.inst? i with
  | some n => match n.reg with
    | some r => if fe.c < r.rect.w ∧ fe.w < r.rect.h then some (feIndex (r.rect.col0 + fe.c) (r.rect.row0 + fe.w))
                else none
    | none => none
  | none => none

end Sys2Proof.Machine
end

