-- ==== Sys2Proof/Machine/Homes.lean ====
section
/-! DEFINITION. What the homes keep beside the bytes: counters and the fault log, arrays in retention, and the codes on
stored data (R47 to R52), so that every read of a row or line meets its errors in one operation. -/

namespace Sys2Proof.Machine

open Sys2Proof.Bits

/-! ## Counters, log, interrupts -/

/-- A counter moved on when its select names the event (R409). -/
def bumpCounters (code n : Nat) {k : Nat} (sel : Vector (BitVec 10) k) (cnt : Vector (BitVec 48) k) :
    Vector (BitVec 48) k :=
  Vector.zipWith (fun x c => if x.toNat = code then c + BitVec.ofNat 48 n else c) sel cnt

/-- The event codes that count in a cluster counter and in a die counter (R409). -/
def clusterEvents : List Nat := [0x001, 0x010, 0x011, 0x012, 0x020, 0x040, 0x041]
/-- The event codes that count in a die counter (R409). -/
def dieEvents : List Nat := [0x001, 0x021, 0x022, 0x030, 0x031, 0x050, 0x051, 0x052, 0x060, 0x061, 0x070]

/-- An event counted at a core's cluster. -/
def State.countCore (s : State) (core code n : Nat) : State :=
  if clusterEvents.contains code then
    s.modCore core fun c => { c with ccnt := bumpCounters code n c.csel c.ccnt }
  else s

/-- An event counted at a die. -/
def State.countDie (s : State) (die code n : Nat) : State :=
  if dieEvents.contains code then s.modDie die fun d => { d with dcnt := bumpCounters code n d.dsel d.dcnt } else s

/-- NOW in TAI nanoseconds, as a die's copy reads it (R159). -/
def State.now (s : State) : Nat := s.time.eighths / 8 % 2 ^ 64

/-- An 8-byte word of the MSI-X table. PRESUMED (log 88): the entry is PCI Express's own, message address, then data and
vector control, whose bit 0 masks the vector and is 1 at reset. -/
def HostPort.msixWord (p : HostPort) (k : Nat) : Word := agetD (if k % 2 = 1 then 0x100000000 else 0) k p.msixTable

/-- A vector at a port: its message leaves for the host; masked, it is pending (log 88). -/
def HostPort.signal (p : HostPort) (v : Nat) : HostPort :=
  let w := (p.msixWord (2 * v + 1)).toNat
  if bit w 32 then { p with msixPending := p.msixPending ||| BitVec.twoPow 32 v }
  else { p with msixPending := p.msixPending &&& ~~~ BitVec.twoPow 32 v
                msixSent := p.msixSent ++ [(v, p.msixWord (2 * v), w % 2 ^ 32)] }

/-- An MSI-X vector raised at both ports (R155). -/
def State.raiseMsix (s : State) (v : Nat) : State := (s.modPort 0 fun p => p.signal v).modPort 1 fun p => p.signal v

/-- Records the fault log holds (R408). -/
def logCap : Nat := 16382

/-- A record into the fault log, or its loss when the ring is full; a record raises vector 0 (R408). HEAD and TAIL
run over the records; HEAD = TAIL is an empty log, and the log holds all 16,382 records (log 24). -/
def State.logFault (s : State) (code ctx tenant die cluster inst addr detail : Nat) : State :=
  if s.log.used < logCap then
    let r : LogRec := { time := s.now, code, ctx, tenant, die, cluster, inst, addr, detail }
    let l := { s.log with head := (s.log.head + 1) % logCap, used := s.log.used + 1, recs := aset s.log.head r s.log.recs }
    ({ s with log := l }).raiseMsix 0
  else { s with log := { s.log with lost := (s.log.lost + 1) % 2 ^ 64 } }

/-- A module event with no context (R430). -/
def State.logEvent (s : State) (code die cluster addr detail : Nat) : State :=
  s.logFault code 0xFF 0 die cluster 0 addr detail

/-! ## Arrays in retention (R51, R52) -/

/-- Die of a home of the ordering machine; a shelf is homed nowhere in it (R37). -/
def Home.die? : Home → Option Nat
  | .hbm d => some d
  | .cab c => some (dieOfCore c)
  | .war d => some d
  | .chan d => some d
  | _ => none

/-- Die on which an array stands, for the log; 0 for the journal's I/O dies. -/
def Home.place : Home → Nat
  | .shelf fe => dieOfFe (fe % 384) (fe / 384)
  | .store c => dieOfCore c
  | h => h.die?.getD 0

/-- Cluster of its die at which an array stands; 0 where it has none. -/
def Home.clusterOf : Home → Nat
  | .cab c => c % 96
  | .store c => c % 96
  | .shelf fe => coreOfFe (fe % 384) (fe / 384) % 96
  | _ => 0

/-- The array of a cabinet, wardrobe or shelf byte; HBM4, the configuration stores and the journal have none (R51). -/
def arrayOf (key : Nat) : Option ArrayId :=
  match homeOf key with
  | .cab c => some (.cabSlice c ((key - cabBase) % 0x200000 / 0x80000))
  | .war d => some (.warSlice d ((key - warBase) % 0x8000000 / 0x400000))
  | .shelf fe => some (.shelf fe)
  | _ => none

/-- An access to an array in retention, entering or leaving it waits (R52). -/
def State.asleep (s : State) (key : Nat) : Bool :=
  match arrayOf key with
  | some a => s.retention.any fun r => r.1 == a
  | none => false

/-- An event of an array counted at its die; an I/O die has no counters (R409). -/
def State.countHome (s : State) (h : Home) (code : Nat) : State :=
  match h with
  | .journal _ => s
  | _ => s.countDie h.place code 1

/-! ## Buffer reserves (R65) -/

/-- End of the reserve in a cabinet, or of that in a wardrobe: of the array itself. Where a reserve lies in its array is the
module's own (log 81). -/
def reserveTop (war : Bool) : Nat := if war then 0x8000000 else 0x200000

/-- Bytes of the reserve of a cluster's cabinet, or of a die's wardrobe. -/
def State.reserveSize (s : State) (war : Bool) (place : Nat) : Nat := agetD 0 (if war then 768 + place else place) s.reserves

/-- Bytes of the tail buffer. -/
def Chan.tailCap (c : Chan) : Nat := c.tcap * c.width

/-- Key of byte `o` of the head buffer. -/
def Chan.headKey (c : Chan) (o : Nat) : Nat :=
  if c.hwar then warKey c.hclu 0 (c.hbase + o) else cabKey c.hclu (c.hbase + o)

/-- Key of byte `o` of the tail buffer. -/
def Chan.tailKey (c : Chan) (o : Nat) : Nat :=
  if c.twar then warKey c.tclu 0 (c.tbase + o) else cabKey c.tclu (c.tbase + o)

/-- The arrays under a run of bytes. -/
def runArrays (key n : Nat) : List ArrayId :=
  ((List.range (n / 0x80000 + 2)).filterMap fun j => arrayOf (min (key + j * 0x80000) (key + n - 1))).dedup

/-- The arrays that hold a channel's buffers. -/
def Chan.bufferArrays (c : Chan) : List ArrayId :=
  runArrays (c.headKey 0) (c.hcap * c.width) ++ runArrays (c.tailKey 0) c.tailCap

/-- Control cycles that each row of a bank takes to re-encode (R51): the shelves and cabinets run at half the control
clock. -/
def rowCycles : ArrayId → Nat
  | .warSlice _ _ => 1
  | _ => 2

/-- Rows of each bank of an array (R51). -/
def bankRows : ArrayId → Nat
  | .shelf _ => 256
  | .cabSlice _ _ => 4096
  | .warSlice _ _ => 65536

/-- Control cycles that an array's entry or exit takes (R51). -/
def retentionCycles (a : ArrayId) : Nat := bankRows a * rowCycles a

/-- Row within its bank of a byte of an array (R38, R41, R44). -/
def rowInBank (key : Nat) : Nat :=
  match homeOf key with
  | .cab _ => (key - cabBase) % 0x80000 / 1024 * 8 + key % 64 / 8
  | .war _ => (key - warBase) % 0x400000 / 512 * 8 + key % 64 / 8
  | .shelf _ => (key - shelfBase) % 0x8000 / 128
  | _ => 0

/-- The row stands in the retention code at this moment (R51, R53). -/
def State.reencoded (s : State) (key : Nat) : Bool :=
  match arrayOf key with
  | none => false
  | some a => s.retention.any fun r => r.1 == a && match r.2 with
    | .entering t => rowInBank key < (s.cycle - t) / rowCycles a
    | .retained => true
    | .leaving _ rows => rowInBank key < rows

/-! ## Codes on stored data (R47 to R50) -/

/-- What a row's or line's code does with wrong bits or symbols: so many it corrects, so many it detects. -/
structure Code where
  corrects : Nat
  detects : Nat
  deriving DecidableEq, Repr

/-- The code under which an error is met (R47): the line code of HBM4, DEC-TED for a row whose error arose in
retention, SECDED otherwise. -/
def codeOf (f : Flaw) : Code := if granule f.key = 64 then ⟨2, 4⟩ else if f.retained then ⟨2, 3⟩ else ⟨1, 2⟩

/-- Place of a poisoned granule for the fault log: row index and array code with its coordinates (R430, code 0xF3).
DESIGN CHOICE (log 74): R430 does not say how the rows of an array are numbered; the index is the row's offset in its
slice, shelf, store or journal divided by 8. -/
def poisonDetail (key : Nat) : Nat × Nat :=
  match homeOf key with
  | .cab _ => ((key - cabBase) % 0x80000 / 8, 2 + ((key - cabBase) % 0x200000 / 0x80000) * 2 ^ 20)
  | .war _ => ((key - warBase) % 0x400000 / 8, 3 + ((key - warBase) % 0x8000000 / 0x400000) * 2 ^ 20)
  | .shelf fe => ((key - shelfBase) % 0x8000 / 8, 1 + fe % 384 * 2 ^ 4 + fe / 384 * 2 ^ 13)
  | .store _ => ((key - storeBase) % 0x40000 / 8, 4)
  | .journal _ => ((key - journalBase) % 0x400000 / 8, 5)
  | _ => (key, 0)

/-- A row or line poisoned by an uncorrectable read or at retention exit, and logged with its place (R49, R52). -/
def poisonGranule (s : State) (key : Nat) : State :=
  let g := granuleOf key
  let h := homeOf g
  let s := { s with poison := if s.poison.contains g then s.poison else g :: s.poison }
  let d := poisonDetail g
  (s.logEvent 0xF3 h.place h.clusterOf d.1 d.2).countHome h 0x031

/-- Free bytes over a granule: what its code returns for more errors than it detects (R47 names none; log 75). -/
def freeGranule (s : State) (key : Nat) : State :=
  let n := granule key
  { s with fresh := s.fresh + n,
           mem := s.mem.writeN key ((List.range n).map fun j => Config.freeByte (s.fresh + j)) }

/-- One stored error is met under its code: corrected and counted, and written back later by a read (R48); detected, so
that the row or line is poisoned and logged (R49); or beyond the code, where what is read is free. -/
def meetFlaw (back : Bool) (s : State) (f : Flaw) : State :=
  let c := codeOf f
  if f.errs = 0 then s
  else if f.errs ≤ c.corrects then
    let s := s.countHome (homeOf f.key) 0x030
    if back then { s with writebacks := f.key :: s.writebacks } else s
  else if f.errs ≤ c.detects then poisonGranule s f.key
  else freeGranule s f.key

/-- The stored errors that satisfy `p` are met. -/
def meetWhere (back : Bool) (s : State) (p : Flaw → Bool) : State :=
  (s.flaws.filter p).foldl (meetFlaw back) { s with flaws := s.flaws.filter fun f => !p f }

/-- A read at the home meets the stored errors of the rows or lines it touches (R48, R49). -/
def meetFlaws (s : State) (key n : Nat) : State :=
  meetWhere true s fun f => overlap f.key (granule f.key) key n

/-- Stored bits of a row or line go wrong (R47): the errors join those of their code. An error of the active code that a
re-encoding has met meanwhile was met then (R52). -/
def upset (s : State) (key errs : Nat) : State :=
  let g := granuleOf key
  let s := if s.reencoded g then meetWhere false s fun f => f.key == g && !f.retained else s
  let old := (s.flaws.filter fun f => f.key == g).foldl (fun n f => n + f.errs) 0
  if errs = 0 ∨ isDeviceKey key ∨ chanBase ≤ key ∨ (hbmEnd ≤ key ∧ key < 2 ^ 51) then s
  else { s with flaws := (s.flaws.filter fun f => f.key != g) ++ [⟨g, old + errs, s.reencoded g⟩] }

end Sys2Proof.Machine
end

