-- ==== Sys2Proof/Machine/Leaf.lean ====
section
/-! DEFINITION. The scheduler's decisions and commands (R401 to R404): the heartbeat's loss, the decision journal, and the
command links of the leaf controllers with their permits. -/

namespace Sys2Proof.Machine

/-! ## The scheduler's pause (R404) -/

/-- Control cycles without a heartbeat after which the standby declares it lost (R404). -/
def lostCycles : Nat := 32768

/-- The heartbeat has been declared lost and no scheduler has taken over: iod0's scheduler is fenced off the command links,
and placements, restores and launch-table pushes pause (R404). -/
def schedPaused (s : State) : Bool := s.fw.standby && s.fw.lastBeat + lostCycles ≤ s.cycle

/-! ## The decision journal (R403; log 104) -/

/-- Bytes of a record (DESIGN CHOICE, log 104: R403 gives the journal's size and no record's). -/
def journalRecord : Nat := 64

/-- Records that 4 MiB hold. -/
def journalCap : Nat := 0x400000 / journalRecord

/-- A decision is about a launch or an instance that has completed. -/
def Decision.completed (s : State) : Decision → Bool
  | .accept k => (aget k s.launches).isNone
  | .place r => (aget r.key s.insts).isNone
  | .claim i _ => (aget i s.insts).isNone
  | .preempt i => (aget i s.insts).isNone
  | .command _ _ (.place k) => (aget k s.launches).isNone
  | .command _ _ (.stop i) => (aget i s.insts).isNone
  | .command _ _ (.restore i) => (aget i s.insts).isNone
  | _ => false

/-- The journal with room for a record: a full one releases the oldest record of a completed instance, or without one its
oldest record (R403; log 104). -/
def journalRoom (s : State) : List JournalRec :=
  let j := s.fw.journal
  if j.length < journalCap then j
  else if j.any fun r => r.what.completed s then j.eraseP fun r => r.what.completed s
  else j.tail

/-- The first place of the journal that holds no record. -/
def journalSlot (j : List JournalRec) : Nat :=
  ((List.range (j.length + 1)).find? fun k => j.all fun r => r.slot != k).getD 0

/-- The rows of a place in both copies written with fresh codes (R50, R403). -/
def journalWrite (s : State) (slot : Nat) : State :=
  let at_ := fun (io : Nat) => journalKey io (slot * journalRecord)
  let covers := fun (g : Nat) => (at_ 0 ≤ g && g < at_ 0 + journalRecord) || (at_ 1 ≤ g && g < at_ 1 + journalRecord)
  { s with poison := s.poison.filter fun g => !covers g, flaws := s.flaws.filter fun f => !covers f.key
           writebacks := s.writebacks.filter fun g => !covers g }

/-- A decision written to both copies of the journal, before any command that acts on it (R403). -/
def State.note (s : State) (d : Decision) : State :=
  let j := journalRoom s
  let k := journalSlot j
  let s := journalWrite s k
  { s with fw := { s.fw with journal := j ++ [⟨k, d⟩] } }

/-- A row of a place of copy `io` is poisoned. -/
def journalPoisoned (s : State) (io slot : Nat) : Bool :=
  s.poison.any fun g => journalKey io (slot * journalRecord) ≤ g && g < journalKey io (slot * journalRecord) + journalRecord

/-- A replay of the journal reads copy 1, and copy 0 of a record of which a row of copy 1 is poisoned; it meets the errors of
what it reads, and a record poisoned in both is lost (R47, R49, R404; log 104). -/
def readJournal (s : State) : State :=
  let s := meetWhere true s fun f => homeOf f.key == .journal 1
  let bad := s.fw.journal.filter fun r => journalPoisoned s 1 r.slot
  let s := bad.foldl (fun s r => meetFlaws s (journalKey 0 (r.slot * journalRecord)) journalRecord) s
  { s with fw := { s.fw with journal := s.fw.journal.filter fun r => !(journalPoisoned s 1 r.slot && journalPoisoned s 0 r.slot) } }

/-! ## The command links (R402; log 68) -/

/-- The command link of a leaf controller. -/
def State.leaf (s : State) (leaf : Nat) : LeafState := agetD LeafState.fresh leaf s.fw.leaves

/-- The state with a leaf's command link changed. -/
def State.setLeaf (s : State) (leaf : Nat) (l : LeafState) : State := { s with fw := { s.fw with leaves := aset leaf l s.fw.leaves } }

/-- The leaf takes the command at the head of its link: it acts on a number once, and acknowledges it every time. -/
def LeafState.take (l : LeafState) : LeafState :=
  match l.wire with
  | [] => l
  | q :: rest => { l with wire := rest, acks := l.acks ++ [q], acted := if l.acted.contains q then l.acted else l.acted ++ [q] }

/-- A leaf's unacknowledged commands sent again under their numbers. -/
def LeafState.resent (l : LeafState) : LeafState := { l with wire := l.sent }

/-- A command put on a leaf's link: it spends a permit and takes the leaf's next number. -/
def LeafState.send (l : LeafState) : LeafState :=
  { l with permits := l.permits - 1, nextSeq := l.nextSeq + 1, sent := l.sent ++ [l.nextSeq], wire := l.wire ++ [l.nextSeq] }

/-- The leaf acts on the newest command, whose number is on its link no longer, and acknowledges it. -/
def LeafState.act (l : LeafState) (q : BitVec 16) : LeafState :=
  { l with wire := l.wire.filter fun x => x != q, acks := l.acks ++ [q], acted := l.acted ++ [q] }

/-- A command to one leaf: its number stands in the journal first, it spends a permit, and the leaf acts on it in the step it
belongs to (R402, R403; log 68). -/
def command (act : LeafAct) (s : State) (leaf : Nat) : State :=
  let l := s.leaf leaf
  (s.note (.command leaf l.nextSeq act)).setLeaf leaf (l.send.act l.nextSeq)

/-- One command of the same content to each of several leaves. -/
def commandAll (s : State) (leaves : List Nat) (act : LeafAct) : State := leaves.foldl (command act) s

/-- The scheduler can command these leaves: it is not fenced off, and holds a permit for each (R402, R404). -/
def canCommand (s : State) (leaves : List Nat) : Bool := !schedPaused s && leaves.all fun l => 0 < (s.leaf l).permits

/-- The leaf of an FE's cluster. -/
def leafOfFe (fe : Nat) : Nat := coreOfFe (fe % 384) (fe / 384)

/-- The leaves of a control core and of the clusters that a rectangle meets. -/
def leavesAt (core : Nat) (r : Option Rect) : List Nat :=
  match r with
  | none => [core]
  | some r =>
    let span := fun (lo n : Nat) => (List.range ((lo + n + 7) / 8 - lo / 8)).map fun k => lo / 8 * 8 + k * 8
    (core :: if r.w = 0 ∨ r.h = 0 then []
      else (span r.row0 r.h).flatMap fun w => (span r.col0 r.w).map fun c => coreOfFe c w).dedup

/-- The leaves that hold an instance; none for a saved or an ended one. -/
def Inst.leaves (n : Inst) : List Nat :=
  match n.life with
  | .saved => []
  | .ended => []
  | _ => leavesAt n.cluster n.rect

/-- The leaves that hold any of some instances. -/
def leavesOf (s : State) (is : List Nat) : List Nat :=
  (is.flatMap fun i => ((aget i s.insts).map Inst.leaves).getD []).dedup

/-- The leaf of an array; none for a wardrobe slice, which lies in no cluster. -/
def leafOfArray : ArrayId → List Nat
  | .shelf fe => [leafOfFe fe]
  | .cabSlice core _ => [core]
  | .warSlice _ _ => []

end Sys2Proof.Machine
end

