-- ==== Sys2Proof/Machine/Mmu.lean ====
section
/-! DEFINITION. Translation: the walk, class, permission and poison checks, TLBs, the cabinet and wardrobe spaces, and
the order of faults (R15 to R36). -/

namespace Sys2Proof.Machine

open Sys2Proof.Bits

/-- The agent that an access translates for (R21, R33). -/
inductive Use | core | coreAtomic | fetch | regionFetch | engine | port | chan | prefetch
  deriving DecidableEq, Repr

/-- An access as translation sees it: agent, needs (R23) and level. -/
structure Access where
  use : Use
  r : Bool
  w : Bool
  x : Bool
  sup : Bool
  deriving DecidableEq, Repr

/-- Fault codes of R222 that translation raises. -/
def codePageAbsent : Nat := 0x01
/-- PAGE_DENIED. -/
def codePageDenied : Nat := 0x02
/-- PAGE_CLASS. -/
def codePageClass : Nat := 0x03
/-- MISALIGN. -/
def codeMisalign : Nat := 0x04
/-- DATA_ERR. -/
def codeDataErr : Nat := 0x20
/-- POISON. -/
def codePoison : Nat := 0x21
/-- SCORR. -/
def codeScorr : Nat := 0x18
/-- FMT_UNBOUND. -/
def codeFmtUnbound : Nat := 0x19
/-- FCW_INVALID. -/
def codeFcwInvalid : Nat := 0x1A
/-- ITER_OVERRUN. -/
def codeIterOverrun : Nat := 0x1B
/-- HOLD_OVERFLOW. -/
def codeHoldOverflow : Nat := 0x1C
/-- WATCHDOG. -/
def codeWatchdog : Nat := 0x28

/-- No fault code of R222: what a step answers inside when its walk has to wait for a walker; that step is then not taken
(R31; log 58). -/
def codeWait : Nat := 0

/-- Canonical form (R15). -/
def canonical (va : Nat) : Bool := bits va 63 55 == if bit va 54 then 0x1FF else 0

/-- The fault that poison raises for an agent (R33 step 5, R49). -/
def poisonCode (u : Use) : Nat := match u with
  | .port => codeDataErr
  | .regionFetch => codeDataErr
  | _ => codePoison

/-- Entry `e` at level `lv` is invalid (R16, R17, R19). -/
def entryInvalid (e lv : Nat) : Bool :=
  let frame := bits e 51 16 * 65536
  !bit e 0 || bits e 55 52 != 0 || bits e 15 13 != 0 ||
  (if bits e 3 1 == 0 then bits e 12 4 != 0 || lv == 2 || hbmEnd ≤ frame
   else lv == 0 || (bit e 2 && !bit e 1) || bits e 7 6 == 3 || bits e 9 8 == 3
        || (lv == 1 && (bits e 28 16 != 0 || bit e 12)) || (hbmEnd ≤ frame && frame < 2 ^ 51))

/-- Outcome of a walk: the leaf with its address and log2 of what it maps. -/
inductive Walk
  | absent
  | poisoned
  | leaf (e addr lg : Nat)
  deriving DecidableEq, Repr

/-- Index of a level in a virtual address (R17). -/
def vaIndex (va lv : Nat) : Nat := match lv with
  | 0 => bits va 54 42
  | 1 => bits va 41 29
  | _ => bits va 28 16

/-- The walk from a table through the levels listed, each entry read at its home (R17, R25, R48, R49). -/
def walkLevels (va : Nat) : List Nat → State → Nat → State × Walk
  | [], s, _ => (s, .absent)
  | lv :: rest, s, table =>
    let addr := table + vaIndex va lv * 8
    if hbmEnd ≤ table then (s, .absent)
    else
      let s := meetFlaws s addr 8
      if poisonedIn s.poison addr 8 then (s, .poisoned)
      else
        let e := s.num8 addr
        if entryInvalid e lv then (s, .absent)
        else if bits e 3 1 = 0 then walkLevels va rest s (bits e 51 16 * 65536)
        else (s, .leaf e addr (if lv = 1 then 29 else 16))

/-- The walk of a context's tables from ROOT (R14, R17). -/
def walk (s : State) (ctx va : Nat) : State × Walk :=
  match aget ctx s.contexts with
  | none => (s, .absent)
  | some c => walkLevels va [0, 1, 2] s (c.desc.root.toNat * 65536)

/-- The group of 32 entries that holds the level-2 leaf at `addr`, read at its home, forms one 2 MiB run (R20); its
first frame. DESIGN CHOICE (log 108): a poisoned line among them, or an entry with a reserved bit 55:52, makes the group no
run, as a malformed entry does; R20 and R49 do not say what the group's read of it does. -/
def contigRun (s : State) (e addr : Nat) : Option Nat :=
  let g := addr - addr % 256
  let e0 := s.num8 g
  let f0 := bits e0 51 16 * 65536
  let same := fun (k : Nat) =>
    let x := s.num8 (g + 8 * k)
    !entryInvalid x 2 && bit x 12 && ((x ^^^ e0) % 65536 &&& 0xFFCF) == 0 && bits x 51 16 * 65536 == f0 + k * 65536
  if bit e 12 && f0 % 0x200000 == 0 && (List.range 32).all same && !poisonedIn s.poison g 256 then some f0 else none

/-- A leaf's checks for an access (R21, R23, R33 steps 3 to 5). -/
def checkLeaf (e pa : Nat) (a : Access) : Option Nat :=
  let cls := bits e 7 6
  let rangeOk := if pa < hbmEnd then cls == 0 || cls == 1 else cls == 2
  let useOk := match a.use with
    | .core => cls != 1
    | .engine => cls != 1
    | .chan => cls == 1
    | .prefetch => cls == 0
    | _ => cls == 0
  if !rangeOk || !useOk then some codePageClass
  else if (a.r && !bit e 1) || (a.w && !bit e 2) || (a.x && !bit e 3) || (bit e 11 && !a.sup) then some codePageDenied
  else if bit e 10 then some (poisonCode a.use)
  else none

/-- Entries a TLB holds (R30). -/
def tlbCap : TlbPlace → Nat
  | .cluster _ => 1024
  | .die _ => 16384

/-- The table with an entry added; a full TLB drops its oldest (DESIGN CHOICE, log 22: R30 gives no replacement). -/
def tlbInsert (t : List TlbEntry) (e : TlbEntry) : List TlbEntry :=
  let t := t.filter fun x => !(x.place == e.place && x.war == e.war && x.ctx == e.ctx && x.base == e.base && x.size == e.size)
  let here := t.filter fun x => x.place == e.place
  match here with
  | o :: _ => if tlbCap e.place ≤ here.length then t.erase o ++ [e] else t ++ [e]
  | [] => t ++ [e]

/-- The entries of a place that cover a virtual address. -/
def tlbCovering (s : State) (p : TlbPlace) (ctx va : Nat) : List TlbEntry :=
  s.tlb.filter fun x => x.place == p && !x.war && x.ctx == ctx && x.base == va % 2 ^ 55 / 2 ^ x.size * 2 ^ x.size

/-- The entry a lookup uses at a place: of two sizes the smaller (R30). -/
def tlbFind (s : State) (p : TlbPlace) (ctx va : Nat) : Option TlbEntry :=
  (tlbCovering s p ctx va).foldl (fun best x => match best with
    | none => some x
    | some b => if x.size < b.size then some x else some b) none

/-- Where an agent looks: a control core's or port's cluster and the die behind it, or the die alone. -/
def lookupPlaces (core : Option Nat) (die : Nat) : List TlbPlace :=
  match core with
  | some c => [.cluster c, .die die]
  | none => [.die die]

/-- Lookup in a cluster TLB, then in the die TLB (R30). DESIGN CHOICE (log 76): an entry found in the die TLB is used from
there and is not copied into the cluster TLB; R30 does not say. -/
def tlbLookup (s : State) (core : Option Nat) (die ctx va : Nat) : Option TlbEntry :=
  (lookupPlaces core die).findSome? fun p => tlbFind s p ctx va

/-- The entry that a leaf gives at a place: of `run` when its group forms a 2 MiB run (R20). -/
def leafEntry (place : TlbPlace) (ctx va e addr lg : Nat) (run : Option Nat) : TlbEntry :=
  let size := if run.isSome then 21 else lg
  { place, ctx, base := va % 2 ^ 55 / 2 ^ size * 2 ^ size, size, pte := e, leaf := addr,
    phys := run.getD (bits e 51 16 * 65536) }

/-- A leaf found by a walk is installed with A set, and with D when the walk's access writes, by compare-and-swap at its
home; the walk reads it and swaps it in one step (R20, R24, R30). A leaf with CONTIG whose group is no run counts a
contiguity miss. DESIGN CHOICE (log 77): of a 2 MiB group only the walked leaf gets A and D; R24 names no other. -/
def installLeaf (s : State) (core : Option Nat) (die ctx va e addr lg : Nat) (dirty : Bool) : State × Option Nat :=
  let grouped := lg = 16 && bit e 12
  let s := if grouped then meetFlaws s (addr - addr % 256) 256 else s
  let run := if grouped then contigRun s e addr else none
  let s := if grouped && run.isNone then s.countDie die 0x022 1 else s
  let e' := e ||| 16 ||| (if dirty then 32 else 0)
  let s := if e' = e then s else s.putBytes addr (leBytes 8 e')
  ({ s with tlb := (lookupPlaces core die).foldl (fun t p => tlbInsert t (leafEntry p ctx va e' addr lg run)) s.tlb },
    run)

/-- Outcome of translating one run of bytes within a page. -/
inductive Look
  | miss
  | fault (code : Nat)
  | hit (pa policy : Nat)
  deriving DecidableEq, Repr

/-- A leaf that a walk found for an access: installed, and then checked (R17, R24). DESIGN CHOICE (log 78): a leaf that fails
its class, permission or poison check has been installed and has A; R24 sets A at the installation and R17 checks
beside it, and neither says which comes first. -/
def enterLeaf (s : State) (core : Option Nat) (die ctx va e addr lg : Nat) (a : Access) : State × Look :=
  let check := fun (run : Option Nat) =>
    let x := leafEntry (.die die) ctx va e addr lg run
    let pa := x.phys + va % 2 ^ x.size
    (checkLeaf e pa a, pa)
  let (s, run) := installLeaf s core die ctx va e addr lg (a.w && (check none).1.isNone)
  match check run with
  | (some c, _) => (s, .fault c)
  | (none, pa) => (s, .hit pa (bits e 9 8))

/-- The outcome of a walk for an access. -/
def endWalk (w : State × Walk) (core : Option Nat) (die ctx va : Nat) (a : Access) : State × Look :=
  match w with
  | (s, .absent) => (s, .fault codePageAbsent)
  | (s, .poisoned) => (s, .fault (poisonCode a.use))
  | (s, .leaf e addr lg) => enterLeaf s core die ctx va e addr lg a

/-- A translation through an entry: the checks, then D set by compare-and-swap before the first write, in the leaf and
in this entry (R24, R25). A failed compare restarts the walk at that level with the current value (R24). -/
def throughEntry (s : State) (x : TlbEntry) (core : Option Nat) (die ctx va : Nat) (a : Access) : State × Look :=
  let pa := x.phys + va % 2 ^ x.size
  match checkLeaf x.pte pa a with
  | some c => (s, .fault c)
  | none =>
    if a.w && !bit x.pte 5 then
      let s := meetFlaws s x.leaf 8
      if s.num8 x.leaf = x.pte && !poisonedIn s.poison x.leaf 8 then
        let e' := x.pte + 32
        let s := s.putBytes x.leaf (leBytes 8 e')
        ({ s with tlb := s.tlb.map fun y => if y = x then { y with pte := e' } else y }, .hit pa (bits x.pte 9 8))
      else
        let s := { s with tlb := s.tlb.filter fun y => y != x }
        endWalk (walkLevels va (if x.size = 29 then [1, 2] else [2]) s (x.leaf - x.leaf % 65536)) core die ctx va a
    else (s, .hit pa (bits x.pte 9 8))

/-- The misses of a lookup counted (R409): of the cluster TLB, when its die's answers or none does, and of the die TLB. -/
def countMiss (s : State) (core : Option Nat) (die : Nat) (hit : Option TlbPlace) : State :=
  let s := match core, hit with
    | some _, some (.cluster _) => s
    | some c, _ => s.countCore c 0x020 1
    | none, _ => s
  if hit.isNone then s.countDie die 0x021 1 else s

/-- Translation through the TLBs only. -/
def lookVirt (s : State) (core : Option Nat) (die ctx va : Nat) (a : Access) : State × Look :=
  match tlbLookup s core die ctx va with
  | some x => throughEntry (countMiss s core die (some x.place)) x core die ctx va a
  | none => (countMiss s core die none, .miss)

/-! ## Walkers (R31, R32) -/

/-- Two requests that one walk serves: for one page of a context from one die, or for one allocation entry (R32). -/
def sameWalk (w : WalkReq) (x : WalkReq) : Bool :=
  x.ctx == w.ctx && x.as_ == w.as_ && dieOfCore w.cluster == dieOfCore x.cluster
    && (if w.as_ == .virt then x.va / 65536 == w.va / 65536 else x.va / 0x100000 == w.va / 0x100000)

/-- The walks that run on a die, one request for each. -/
def runningWalks (ws : List WalkReq) (die : Nat) : List WalkReq :=
  ws.foldl (fun acc w =>
    if w.run && w.as_ == .virt && dieOfCore w.cluster == die && !acc.any (sameWalk w) then acc ++ [w] else acc) []

/-- A waiting request finds a walker: it shares a walk that runs, or one is free. Of a die's 256 walkers, 32 are kept
for class 0 (R31, R32). The fill of an allocation entry is one read and takes none. -/
def walkerFree (ws : List WalkReq) (w : WalkReq) : Bool :=
  let running := runningWalks ws (dieOfCore w.cluster)
  w.as_ != .virt || running.any (sameWalk w)
    || (running.length < 256 && (w.cls == 0 || (running.filter fun x => x.cls != 0).length < 224))

/-- Waiting requests of a die start, higher classes first and in arrival order within a class (R31). -/
def startWalks (ws : List WalkReq) (die : Nat) : List WalkReq :=
  ((List.range 4).flatMap fun c => ws.filter fun w => !w.run && w.cls == c && dieOfCore w.cluster == die).foldl
    (fun ws w => if walkerFree ws w then ws.map fun x => if sameWalk w x then { x with run := true } else x else ws) ws

/-- A walk or fill asked for (R31, R32). -/
def askWalk (s : State) (w : WalkReq) : State :=
  { s with walks := startWalks (s.walks ++ [{ w with run := false }]) (dieOfCore w.cluster) }

/-- The requests that a walk has served leave, and waiting ones start (R31). -/
def endWalks (s : State) (w : WalkReq) : State :=
  { s with walks := startWalks (s.walks.filter fun x => !sameWalk w x) (dieOfCore w.cluster) }

/-- Requests withdrawn; waiting ones of every die take the walkers that this frees (R31). -/
def dropWalks (s : State) (p : WalkReq → Bool) : State :=
  if s.walks.any p then { s with walks := (List.range 8).foldl startWalks (s.walks.filter fun w => !p w) } else s

/-- The class for which a context's misses of no launch of their own count (R31): the highest among its instances. -/
def State.ctxClass (s : State) (ctx : Nat) : Nat :=
  s.insts.foldl (fun c (x : Nat × Inst) =>
    if x.2.ctx = ctx ∧ x.2.life ≠ .ended then min c ((aget x.2.launch s.launches).elim 3 fun l => l.cls) else c) 3

/-- An agent whose step holds its walk may make it now: no other request of the die waits for that page or entry, whose
walk it would share, and a walker is free (R31, R32; log 58). -/
def mayWalk (s : State) (die ctx : Nat) (as_ : Space) (va : Nat) : Bool :=
  let w : WalkReq := { by_ := .fetch 0, ctx, as_, va, cluster := die * 96, cls := s.ctxClass ctx }
  !s.walks.any (sameWalk w) && walkerFree s.walks w

/-- Translation with the walk made in the same step, for agents whose step holds it; a miss when the walk has to wait. -/
def findVirt (s : State) (core : Option Nat) (die ctx va : Nat) (a : Access) : State × Look :=
  match lookVirt s core die ctx va a with
  | (s, .miss) => if mayWalk s die ctx .virt va then endWalk (walk s ctx va) core die ctx va a else (s, .miss)
  | r => r

/-! ## The software-managed spaces -/

/-- Translation in the cabinet space (R28): the key, or the fault and FAULTADDR (R34; log 23). `core` resolves LOCAL. -/
def lookCab (s : State) (core ctx addr n : Nat) : Except (Nat × Nat) Nat :=
  let loc := bit addr 31
  if 2 ^ 32 ≤ addr ∨ (loc ∧ bits addr 30 21 ≠ 0) ∨ (¬ loc ∧ 96 ≤ bits addr 27 21) then
    .error (codePageAbsent, addr)
  else
    let tgt := if loc then core else bits addr 30 28 * 96 + bits addr 27 21
    let off := bits addr 20 0
    let win := match aget ctx s.contexts with
      | some c => c.desc.windows.getD (dieOfCore tgt) (0, 0)
      | none => (0, 0)
    let lo := win.1.toNat * 65536
    let hi := (win.1.toNat + win.2.toNat) * 65536
    if off < lo ∨ hi < off + n then
      .error (codePageDenied, if off < lo ∧ lo < off + n then addr + (lo - off) else addr)
    else .ok (cabKey tgt off)

/-- A wardrobe allocation entry's address (R29). -/
def watAddr (s : State) (ctx page : Nat) : Nat :=
  match aget ctx s.contexts with
  | some c => c.desc.wat.toNat * 2048 + 2 * page
  | none => 0

/-- A cached wardrobe allocation entry: of the cluster TLB, or else of the die TLB (R30). -/
def watFind (s : State) (core : Option Nat) (die ctx page : Nat) : Option TlbEntry :=
  (lookupPlaces core die).findSome? fun p =>
    s.tlb.find? fun x => x.place == p && x.war && x.ctx == ctx && x.base == page * 0x100000

/-- The TLB entry of a wardrobe allocation entry (R29, R30). -/
def watEntry (place : TlbPlace) (ctx page e addr : Nat) : TlbEntry :=
  { place, war := true, ctx, base := page * 0x100000, size := 20, pte := e, leaf := addr,
    phys := warKey (bits e 9 7) (bits e 6 0) 0 }

/-- An allocation entry read at its home and, when valid, installed in both TLBs (R30, R31, R48, R49). DESIGN CHOICE
(log 79): R31 says the table lies in HBM4; a descriptor whose WAT names no HBM4 address gives no entry, and the access
ends like one whose entry is poisoned. -/
def watFill (s : State) (core : Option Nat) (die ctx page : Nat) : State × Option Nat :=
  let addr := watAddr s ctx page
  if hbmEnd ≤ addr + 1 then (s, none)
  else
    let s := meetFlaws s addr 2
    if poisonedIn s.poison addr 2 then (s, none)
    else
      let e := leNat (s.bytes addr 2)
      if bit e 15 && bits e 13 10 == 0 then
        ({ s with tlb := (lookupPlaces core die).foldl (fun t p => tlbInsert t (watEntry p ctx page e addr)) s.tlb },
          some e)
      else (s, some e)

/-- Checks of an allocation entry (R29, R33). -/
def checkWat (e addr : Nat) (a : Access) : Except Nat Nat :=
  if !bit e 15 || bits e 13 10 != 0 then .error codePageAbsent
  else if a.w && !bit e 14 then .error codePageDenied
  else .ok (warKey (bits e 9 7) (bits e 6 0) (addr % 0x100000))

/-! ## Accesses of several tokens -/

/-- The tokens that an access of `n` bytes touches: address and length of each piece (R107). -/
def tokensOf (addr n tok : Nat) : List (Nat × Nat) :=
  let first := addr / tok
  let last := (addr + n - 1) / tok
  if n = 0 then [] else
  (List.range (last + 1 - first)).map fun k =>
    let lo := max addr ((first + k) * tok)
    let hi := min (addr + n) ((first + k + 1) * tok)
    (lo, hi - lo)

/-- Outcome of translating an access. -/
inductive Xlate
  | ok (pieces : List Piece)
  | fault (code : Nat) (addr : Word)
  | miss (as_ : Space) (va : Nat)
  deriving DecidableEq, Repr

/-- Pieces of a virtual access, lowest first; the first failing page decides (R34). -/
def xlateVirt (find : State → Nat → State × Look) : State → List (Nat × Nat) → List Piece → State × Xlate
  | s, [], acc => (s, .ok acc.reverse)
  | s, (a, n) :: rest, acc =>
    match find s (a % 2 ^ 64) with
    | (s, .miss) => (s, .miss .virt (a % 2 ^ 64))
    | (s, .fault c) => (s, .fault c (BitVec.ofNat 64 a))
    | (s, .hit pa policy) => xlateVirt find s rest (⟨pa, n, policy == 0 && pa < hbmEnd⟩ :: acc)

/-- The allocation entry of a page for an access: cached, or with `fill` read at its home in this step; none when it cannot
be read. A miss when the read has to wait, or is asked for. -/
def findWat (s : State) (core : Option Nat) (die ctx page : Nat) (fill : Bool) : State × Except Unit (Option Nat) :=
  match watFind s core die ctx page with
  | some x => (countMiss s core die (some x.place), .ok (some x.pte))
  | none =>
    let s := countMiss s core die none
    if fill && mayWalk s die ctx .war (page * 0x100000) then
      match watFill s core die ctx page with
      | (s, e) => (s, .ok e)
    else (s, .error ())

/-- Pieces of a wardrobe access (R29); `fill` makes a missing allocation entry's read part of the step. -/
def xlateWar (core : Option Nat) (die ctx : Nat) (a : Access) (fill : Bool) :
    State → List (Nat × Nat) → List Piece → State × Xlate
  | s, [], acc => (s, .ok acc.reverse)
  | s, (addr, n) :: rest, acc =>
    if 2 ^ 30 ≤ addr then (s, .fault codePageAbsent (BitVec.ofNat 64 addr))
    else
      match findWat s core die ctx (addr / 0x100000) fill with
      | (s, .error _) => (s, .miss .war addr)
      | (s, .ok none) => (s, .fault (poisonCode a.use) (BitVec.ofNat 64 addr))
      | (s, .ok (some e)) =>
        match checkWat e addr a with
        | .error c => (s, .fault c (BitVec.ofNat 64 addr))
        | .ok key => xlateWar core die ctx a fill s rest (⟨key, n, false⟩ :: acc)

/-- Translation of an access of `n` bytes at `addr`, cut into tokens of `tok` bytes. `fill` makes walks and fills part
of the step, as far as a walker is free; a miss is reported otherwise. `align` is the alignment the instruction requires (R33). -/
def xlate (s : State) (core : Option Nat) (local_ die ctx : Nat) (as_ : Space) (addr : Word) (n tok align : Nat)
    (a : Access) (fill : Bool) : State × Xlate :=
  let va := addr.toNat
  if va % align ≠ 0 then (s, .fault codeMisalign addr)
  else match as_ with
  | .virt =>
    if !canonical va || !canonical ((va + n - 1) % 2 ^ 64) then (s, .fault codePageAbsent addr)
    else xlateVirt (fun s va => if fill then findVirt s core die ctx va a else lookVirt s core die ctx va a)
      s (tokensOf va n tok) []
  | .cab =>
    match lookCab s local_ ctx va n with
    | .error (c, f) => (s, .fault c (BitVec.ofNat 64 f))
    | .ok key => (s, .ok ((tokensOf key n tok).map fun t => ⟨t.1, t.2, false⟩))
  | .war => xlateWar core die ctx a fill s (tokensOf va n tok) []

/-- The byte addresses of a virtual run are made pieces with their walks in the same step (firmware's and the
scheduler's accesses in a context, saves, channel traffic). -/
def xlateNow (s : State) (die ctx : Nat) (addr : Word) (n align : Nat) (a : Access) : State × Xlate :=
  xlate s none 0 die ctx .virt addr n 64 align a true

/-- Bytes at pieces, in order. -/
def State.gather (s : State) (ps : List Piece) : List Byte := ps.flatMap fun p => s.bytes p.key p.n

/-- The stored errors of pieces that are read are met (R48, R49). -/
def State.meetPieces (s : State) (ps : List Piece) : State := ps.foldl (fun s p => meetFlaws s p.key p.n) s

/-- Some piece is poisoned. -/
def State.poisonedPieces (s : State) (ps : List Piece) : Bool := ps.any fun p => poisonedIn s.poison p.key p.n

/-- Bytes written over pieces in order, in one step. -/
def State.scatter (s : State) : List Piece → List Byte → State
  | [], _ => s
  | p :: ps, bs => (s.putBytes p.key (bs.take p.n)).scatter ps (bs.drop p.n)

end Sys2Proof.Machine
end

