-- ==== Sys2Proof/Machine/Ops.lean ====
section
/-! DEFINITION. The named operations that the meanings share: registers, the fault log and counters, discarding
iterations and blocks, asynchronous faults, ending an instance, and taking a trap and returning from one. -/

namespace Sys2Proof.Machine

open Sys2Proof.Bits

/-- What the machine answers for a move that it permits or not at this moment: a move that is not permitted is not
taken, and the state stays (log 2). -/
def when_ (c : Bool) (s : State) (t : State) : Host.Outcome State Fault Refusal := .next (if c then t else s)

/-! ## Registers (R200) -/

/-- Register `r` of a context; x0 reads 0. -/
def Ctl.reg (c : Ctl) (r : Nat) : Word := if r = 0 then 0 else c.regs.toList.getD r 0

/-- The context with register `r` at `v`; x0 takes a value and drops it. What a record's token brought there is gone. -/
def Ctl.setReg (c : Ctl) (r : Nat) (v : Word) : Ctl :=
  if r = 0 then c else { c with regs := c.regs.setIfInBounds r v, acq := c.acq &&& ~~~ BitVec.twoPow 64 r }

/-- Register `r` is pending (R270). -/
def Ctl.isPending (c : Ctl) (r : Nat) : Bool := c.pending.getLsbD r

/-- The context with register `r` marked pending or not (R270). -/
def Ctl.setPending (c : Ctl) (r : Nat) (b : Bool) : Ctl :=
  let m := BitVec.twoPow 64 r
  { c with pending := if b then c.pending ||| m else c.pending &&& ~~~ m }

/-- The context with register `r` at the token of a record with REL: the read of it is an acquire (R95). -/
def Ctl.setToken (c : Ctl) (r : Nat) (v : Word) (rel : Bool) : Ctl :=
  let c := (c.setReg r v).setPending r false
  if rel && r != 0 then { c with acq := c.acq ||| BitVec.twoPow 64 r } else c

/-! ## Log -/

/-- A record about an instance (R430). -/
def State.logInst (s : State) (n : Inst) (code addr detail : Nat) : State :=
  s.logFault code n.ctx (s.tenantOf n.ctx) (dieOfCore n.cluster) (n.cluster % 96) n.serial addr detail

/-! ## Regions: rollback (R178, R386) -/

/-- First offset of the stream registers (R328). -/
def streamBase : Nat := 0x6000

/-- Bytes of an FE's stream registers. -/
def streamBytes : Nat := 0x2000

/-- The stream registers of an FE are read for a snapshot (R342): their rows meet their errors (R48, R49). -/
def State.meetStreams (s : State) (x : Nat) : State := meetFlaws s (shelfKey x streamBase) streamBytes

/-- An FE's stream registers put back to a snapshot, row by row: each gets a fresh code (R50), and a row that was poisoned
when it was read is poisoned again (DEDUCED, log 98). -/
def State.restoreStreams (s : State) (x : Nat) (cells : List Byte) (bad : List Nat) : State :=
  (s.putBytes (shelfKey x streamBase) cells).repoison bad

/-- The running context of an FE carries accumulators across iterations (R293, R319), or is a stream context (R342). -/
def Fe.keepsAcc (f : Fe) : Bool :=
  f.stoch || (match f.run with
    | some k => bit ((f.slots.getD k []).getD 1 0).toNat 6
    | none => false)

/-- An FE back at the start of iteration `k`, the first in flight: its oldest snapshot restored, queues emptied (R319,
R342). Accumulators without
CARRY are not snapshotted; the replay's start resets them (R319). -/
def rollbackFe (s : State) (k x : Nat) : State :=
  let f := s.fe x
  let clear := fun (f : Fe) => { f with qa := [], qb := [], qc := [], si := [], iter := min f.iter k, snaps := [] }
  match f.snaps with
  | [] => s.modFe x clear
  | (_, p) :: _ =>
    let s := if f.stoch then s.restoreStreams x p.cells p.bad else s
    let core := if f.keepsAcc then p.core
      else { p.core with acc := f.core.acc, bank := f.core.bank, taken := f.core.taken, wide := f.core.wide }
    s.modFe x fun f => { clear f with core := core }

/-- The old bytes of an iteration's carried shelf writes put back, latest first, row by row (R50, R177, R178): a row that was
poisoned when its old bytes were read is poisoned again (DEDUCED, log 98). -/
def undoWrites (s : State) (undo : List (Nat × Nat × List Byte × Bool)) : State :=
  undo.reverse.foldl (fun s u =>
    let t := s.putBytes u.2.1 u.2.2.1
    if u.2.2.2 then t.repoison [granuleOf u.2.1] else t) s

/-- The tagged KSETs that a replay has still to bring (R319 to R321): those that waited already, behind the markers that have
passed since their FE's snapshot, and those that came after a marker since then. -/
def replayKsets (s : State) (r : Region) : List KsetLate :=
  let snap := fun (c w : Nat) => (s.fe (feIndex (r.rect.col0 + c) (r.rect.row0 + w))).snaps.head?.map fun x => x.2
  (r.ksets.map fun y => { y with after := y.after + ((snap y.c y.w).elim 0 fun p => p.passed.count y.tag) })
    ++ (rectCells r.rect).flatMap fun x =>
      let c := x.1 - r.rect.col0
      let w := x.2 - r.rect.row0
      ((snap c w).elim [] fun p => p.late).map fun l => ⟨c, w, l.1, l.2.1, l.2.2.1, l.2.2.2⟩

/-- Tentative receives of a context's region returned: the channels' taken tokens can be taken again (R80). -/
def untake (s : State) (ctx : Nat) (handles : List Word) : State :=
  handles.foldl (fun s h => s.modHandle ctx h fun c =>
    { c with head := c.head.map fun t => { t with taken := false } }) s

/-- The region's iterations in flight discarded and rolled back; the region resumes at the vector of the first of
them (R178, R179). Markers go back to be carried again, each with its iteration (R321), and replays already made stay
counted (R56). -/
def rollback (s : State) (i : Nat) : State :=
  match s.inst? i with
  | none => s
  | some n => match n.reg with
    | none => s
    | some r => match r.iters with
      | [] => s.modReg i fun r => { r with reads := [], sinks := [] }
      | k :: _ =>
        let s := r.iters.reverse.foldl (fun s it => undoWrites s it.undo) s
        let s := r.iters.foldl (fun s it => untake s n.ctx it.takes) s
        let late := replayKsets s r
        let s := (rectCells r.rect).foldl (fun s x => rollbackFe s k.n (feIndex x.1 x.2)) s
        s.modReg i fun r => { r with
          iters := [], reads := [], sinks := [], nextVec := some k.vec, nextN := k.n,
          remarks := r.iters.foldl (fun m it => if it.marks.isEmpty then m else aset it.n it.marks m) r.remarks
          ksets := late
          replayed := r.iters.foldl (fun m it => if it.replays = 0 then m else aset it.n it.replays m) r.replayed }

/-- The die whose leave pool a region's FRUN asks: the die of its origin (log 25). -/
def leaveDie (n : Inst) : Nat := dieOfCore n.cluster

/-- Class of an instance's launch. -/
def State.classOf (s : State) (n : Inst) : Nat :=
  match aget n.launch s.launches with
  | some l => l.cls
  | none => 3

/-- The tag of a queue: of a tenant's class on the die that holds its launches (R116, R363); 0 is no queue's. -/
def queueTag (tenant cls die : Nat) : Nat := 1 + (tenant * 4 + cls) * 8 + die

/-- The queue of an instance's launch. -/
def State.queueOf (s : State) (n : Inst) : Nat :=
  match aget n.launch s.launches with
  | some l => queueTag l.tenant l.cls l.die
  | none => 0

/-- Leave given back to a die's pool (R376). -/
def giveLeave (s : State) (die cls units : Nat) : State :=
  s.modDie die fun d => { d with granted := d.granted - units, granted0 := if cls = 0 then d.granted0 - units else d.granted0 }

/-- A region's leave returned (R376). -/
def returnLeave (s : State) (i : Nat) : State :=
  match s.inst? i with
  | none => s
  | some n => match n.reg with
    | none => s
    | some r => match r.leave with
      | none => s
      | some u => (giveLeave s (leaveDie n) (s.classOf n) u).modReg i fun r => { r with leave := none }

/-- A region stopped: iterations discarded, leave returned, idle (R307, R386, R390). -/
def stopRegion (s : State) (i : Nat) : State :=
  (returnLeave (rollback s i) i).modReg i fun r => { r with
    phase := .idle, heldBy := [], blockedFrom := none,
    nest := r.nest.map fun n => { n with failed := n.failed || !n.started } }

/-- A region held by the fault of a name: iterations discarded, nest, attachments and leave kept (R386). -/
def holdRegion (s : State) (i by_ : Nat) : State :=
  (rollback s i).modReg i fun r => { r with phase := .held, blockedFrom := none, heldBy := r.heldBy ++ [by_] }

/-! ## Asynchronous faults and events (R380, R396) -/

/-- Entries of the pending queue (R380). -/
def asyncCap : Nat := 16

/-- A reset has taken the instance (R116): neither a save nor a trap entry goes on. -/
def underReset (s : State) (i : Nat) : Bool := s.resets.any fun r => r.insts.contains i

/-- The region of an instance is idle. -/
def regionIdle (n : Inst) : Bool :=
  match n.reg with
  | some r => r.phase == .idle
  | none => true

/-- An instance has completed: its HALT has committed, its region is idle, and nothing was due before (R172, R243). It only
has to arrive; no fault, watchdog or stop order reaches it any more. -/
def Inst.completed (n : Inst) : Bool :=
  (n.life == .running || n.life == .stopping) && n.ctl.wait == [.halted] && n.ctl.blk.isNone && regionIdle n && n.ctl.due.isNone
    && (n.ctl.async.isEmpty || n.ctl.cur)

/-- An asynchronous fault arrives at a context; one that finds the queue full is logged and dropped (R380). A saved
context keeps it for its restore (R396). -/
def postAsync (s : State) (i : Nat) (t : TrapInfo) : State :=
  match s.inst? i with
  | none => s
  | some n =>
    if n.completed then s
    else match n.life with
    | .saved => s.modInst i fun n => { n with kept := n.kept ++ [.async t] }
    | .running | .stopping | .saving =>
      if n.ctl.async.length < asyncCap then s.modCtl i fun c => { c with async := c.async ++ [t] }
      else s.logInst n 0xFD t.addr.toNat t.code
    | _ => s

/-- FAULTARG of a region source (R336, R382). -/
def regionArg (ma mb ctx c w : Nat) : Word :=
  BitVec.ofNat 64 (ma % 65536 * 2 ^ 48 + mb % 65536 * 2 ^ 32 + ctx % 65536 * 2 ^ 16 + c % 512 * 2 ^ 7 + w % 128)

/-- Identifier of the context that an FE runs (R293). -/
def Fe.ctxId (f : Fe) : Nat :=
  match f.run with
  | some k => bits ((f.slots.getD k []).getD 0 0).toNat 63 48
  | none => 0

/-- FAULTARG of a fault at an FE of a region, the masks zero (R382). -/
def feArg (s : State) (i c w : Nat) : Word :=
  match s.feOf i ⟨c, w⟩ with
  | some x => regionArg 0 0 (s.fe x).ctxId c w
  | none => regionArg 0 0 0 c w

/-- The vector that a region fault reports: that of the iteration, or of the first in flight, or of the next. -/
def regionVec (r : Region) (it : Option Nat) : List Nat :=
  match it.bind fun k => r.iters.find? (·.n == k) with
  | some x => x.vec
  | none => match r.iters with
    | x :: _ => x.vec
    | [] => r.nextVec.getD [0, 0, 0, 0, 0, 0]

/-- The fault-log record of a DATA_ERR report (R171, R430): the die and cluster of the FE, INST, the relative coordinates as
FAULTARG in ADDR, and the module coordinates in DETAIL where 0xF3 has them (DESIGN CHOICE, log 97). -/
def logDataErr (s : State) (n : Inst) (r : Region) (arg : Word) : State :=
  let col := r.rect.col0 + bits arg.toNat 15 7
  let row := r.rect.row0 + bits arg.toNat 6 0
  s.logFault codeDataErr n.ctx (s.tenantOf n.ctx) (dieOfFe col row) (coreOfFe col row % 96) n.serial arg.toNat
    (col * 2 ^ 4 + row * 2 ^ 13)

/-- A fault of a region (R386): its iterations are discarded, the region is held or stopped in the same step (R417),
and the fault goes to its control context, which it finds in a HALT wait too (R243, R380). `it` is the faulting iteration. -/
def regionFault (s : State) (i : Nat) (code : Nat) (addr arg : Word) (it : Option Nat) (hold : Bool) : State :=
  match s.inst? i with
  | none => s
  | some n => match n.reg with
    | none => s
    | some r =>
      let (id, s) := if hold then s.takeFresh else (0, s)
      let t : TrapInfo := { code, blk := 0, slot := 0xC0, addr, arg := some arg, iter := some (regionVec r it), hold := id }
      let s := postAsync s i t
      let s := if hold then holdRegion s i id else stopRegion s i
      if code = codeDataErr then (logDataErr s n r arg).modReg i fun r => { r with dataErr := true } else s

/-- An event bit of EVPEND becomes pending (R287), behind what a WAITEV of the block in flight has delivered; a saved context
keeps it (R396). -/
def postEvent (s : State) (i bit : Nat) : State :=
  match s.inst? i with
  | none => s
  | some n => if n.life = .saved then s.modInst i fun n => { n with kept := n.kept ++ [.event bit] }
              else s.modCtl i fun c => { c with
                evpend := c.evpend ||| BitVec.twoPow 4 bit
                blk := c.blk.map fun b => { b with evLate := b.evLate ||| BitVec.twoPow 4 bit } }

/-- An event bit of a region becomes pending (R323), behind what an FWAIT of the block in flight has delivered. -/
def postFabric (s : State) (i : Nat) (bits : BitVec 4) : State :=
  (s.modReg i fun r => { r with events := r.events ||| bits }).modBlk i fun b => { b with fabLate := b.fabLate ||| bits }

/-! ## Discarding a block (R100, R209) -/

/-- A request that the module withdraws at its object (R260, R266, R424). -/
def Req.withdrawable : Req → Bool
  | .chan .send .. => true
  | .chan .recv .. => true
  | .barrier .wait .. => true
  | _ => false

/-- A walk of a slot of instance `i`. -/
def WalkFor.ofSlot (i : Nat) : WalkFor → Bool
  | .slot j _ => j == i
  | _ => false

/-- An outbound read of a slot of instance `i`. -/
def ReadFor.ofSlot (i : Nat) : ReadFor → Bool
  | .slot j _ => j == i
  | _ => false

/-- An unbound block discarded: nothing of it performs, its waits are withdrawn in the same step, leave that its FRUN was
granted goes back, and the context stands at its address again (R100, R209, R260, R266). -/
def discardBlock (s : State) (i : Nat) : State :=
  match s.inst? i with
  | none => s
  | some n => match n.ctl.blk with
    | none => s
    | some b =>
      let s := s.modCore n.cluster fun c => { c with
        sems := c.sems.map fun x => (x.1, { x.2 with waiters := x.2.waiters.filter fun w => w.inst != i }) }
      let s := dropWalks s fun w => w.by_.ofSlot i
      let s := { s with
        pushes := s.pushes.filter (fun p => p.from_ != PushFrom.ctl i),
        leaves := s.leaves.filter (fun q => q.2.for_ != LeaveFor.frun i),
        outReads := s.outReads.filter (fun q => !q.for_.ofSlot i) }
      let s := if b.acts.contains .frun then returnLeave s i else s
      let s := s.modCtl i fun c => { c with blk := none, next := b.addr }
      if b.started then s.countCore n.cluster 0x011 1 else s

/-! ## Ending an instance (R383, R385, R399) -/

/-- An instance ended by a fault: its region stops as under DISCARD, its control context ends, and it will arrive at
DONE with FAULTED and LASTFAULT `c` (R383). -/
def endInstance (s : State) (i c : Nat) : State :=
  match s.inst? i with
  | none => s
  | some n =>
    let s := stopRegion (discardBlock s i) i
    let s := s.modInst i fun n => { n with
      life := .ended, faultEnd := some c,
      ctl := { n.ctl with blk := none, due := none, async := [], wait := [] } }
    s.logInst n c n.ctl.faultAddr.toNat 0

/-! ## Taking a trap (R381) and returning from one (R286, R384) -/

/-- What the read of a vector gives: the handler's address, none when it faults, or a walk that has to wait (R31). -/
inductive VectorRead
  | at_ (h : Word)
  | bad
  | wait
  deriving DecidableEq, Repr

/-- The 8-byte read of the vector at level S, at its home slice (R381). -/
def readVector (s : State) (n : Inst) (code : Nat) : State × VectorRead :=
  let a : Access := ⟨.core, true, false, false, true⟩
  match xlate s (some n.cluster) n.cluster (dieOfCore n.cluster) n.ctx .virt
      (n.ctl.vecbase + BitVec.ofNat 64 (code * 8)) 8 8 1 a true with
  | (s, .ok ps) =>
    let s := s.meetPieces ps
    if s.poisonedPieces ps || ps.any (fun p => isDeviceKey p.key) then (s, .bad)
    else (s, .at_ (BitVec.ofNat 64 (leNat (s.gather ps))))
  | (s, .miss _ _) => (s, .wait)
  | (s, .fault _ _) => (s, .bad)

/-- The fault registers and levels as trap entry leaves them (R381, R383). -/
def Ctl.enterTrap (c : Ctl) (t : TrapInfo) : Ctl :=
  { c with
    faultCode := BitVec.ofNat 8 t.code, faultBlk := t.blk, faultSlot := BitVec.ofNat 8 t.slot, faultAddr := t.addr,
    faultArg := t.arg.getD c.faultArg,
    faultIter := match t.iter with
      | some v => Vector.ofFn fun k => BitVec.ofNat 32 (v.getD k 0)
      | none => c.faultIter,
    prev := c.cur, cur := true, due := none, blk := none, traps := t :: c.traps }

/-- A handler's address that no block can stand at (R381). -/
def badHandler (h : Word) : Bool := h == 0 || h.toNat % 64 != 0

/-- Trap entry, one step of the context (R381): fault registers, level, vector; a fetch that was under way is given up. An
unusable vector ends the instance. None: the vector's walk has to wait for a walker, and so does the entry (log 58). -/
def takeTrap (s : State) (i : Nat) (t : TrapInfo) : Option State :=
  let s := (dropWalks s fun w => w.by_ == .fetch i).modCtl i fun c => c.enterTrap t
  match s.inst? i with
  | none => some s
  | some n =>
    if n.ctl.vecbase = 0 then some (endInstance s i t.code)
    else match readVector s n t.code with
      | (s, .at_ h) => some (if badHandler h then endInstance s i t.code else s.modCtl i fun c => { c with next := h })
      | (s, .bad) => some (endInstance s i t.code)
      | (_, .wait) => none

/-- The next block waits for one thing more. -/
def Ctl.alsoWait (c : Ctl) (w : CtlWait) : Ctl := { c with wait := c.wait ++ [w] }

/-- The context after ERET: it stands at FAULTBLK at level PREV, and PREV is 0 (R286). Back at level U, a context that was
interrupted in its HALT wait and has FAULTBLK 0 waits again, beside what the ERET block itself left to wait for (R384). A
trap nested in the handler leaves it interrupted. -/
def Ctl.leaveTrap (c : Ctl) : Ctl :=
  { c with
    next := c.faultBlk, cur := c.prev, prev := false, traps := c.traps.drop 1, inHalt := c.inHalt && c.prev,
    wait := if c.inHalt && !c.prev && c.faultBlk == 0 then c.wait ++ [.halted] else c.wait }

/-- A region after the fault named has been left: it goes on once no other fault holds it; each held iteration replays from
its vector, its leave still in force (R384, R386). A region held by the fill of a nest that no FRUN started is idle again. -/
def Region.releasedBy (r : Region) (by_ : Nat) : Region :=
  if r.phase = .held ∧ r.heldBy.contains by_ then
    let left := r.heldBy.filter fun k => k != by_
    if left.isEmpty then
      { r with phase := if (r.nest.map fun n => n.run).getD false then .running else .idle, heldBy := [] }
    else { r with heldBy := left }
  else r

/-- The regions of a context that a fault held are released from it (R384): of a region fault its own, of CH_DEADLOCK every
one that R79 held. -/
def releaseHeld (s : State) (ctx by_ : Nat) : State :=
  s.insts.foldl (fun s (x : Nat × Inst) =>
    if x.2.ctx = ctx then s.modReg x.1 fun r => r.releasedBy by_ else s) s

/-- Return from a trap, in the commit step of the ERET block (R286, R384): the regions that the trap being left held are
released from it. -/
def returnTrap (s : State) (i : Nat) : State :=
  match s.inst? i with
  | none => s
  | some n =>
    let by_ := (n.ctl.traps.head?.map fun t => t.hold).getD 0
    (if by_ = 0 then s else releaseHeld s n.ctx by_).modCtl i Ctl.leaveTrap

end Sys2Proof.Machine
end

