-- ==== Sys2Proof/Machine/Operands.lean ====
section
/-! DEFINITION. Firing a slot: operands, predicate, null and squash, delivery, and the faults of delivery (R201 to
R205), with the choice of an exit (R246). -/

namespace Sys2Proof.Machine

open Sys2Proof.Bits Sys2Proof.Rows

/-- Fault codes of R222 that blocks raise. -/
def codeBlockFormat : Nat := 0x05
/-- ILLEGAL. -/
def codeIllegal : Nat := 0x06
/-- PRIV. -/
def codePriv : Nat := 0x07
/-- TRAP. -/
def codeTrap : Nat := 0x08
/-- BREAK. -/
def codeBreak : Nat := 0x09
/-- STEP. -/
def codeStep : Nat := 0x0A
/-- MULTI_EXIT. -/
def codeMultiExit : Nat := 0x0B
/-- BLOCK_STALL. -/
def codeBlockStall : Nat := 0x0C
/-- LEAVE_DENIED. -/
def codeLeaveDenied : Nat := 0x2A

/-- The block with a fault raised: a request of a block with SER that earlier writes of its context still keep in the
core does not leave it any more (R198, R209, R424). -/
def Block.faulted (b : Block) (pending : Bool) : Block :=
  if pending && !b.bound && Layout.ser b.words then { b with req := none } else b

/-- A synchronous fault of the context's block: due at its boundary (R209, R380). The first one stands. -/
def raise (s : State) (i code slot : Nat) (addr : Word) : State :=
  let pending := s.outb.any fun o => o.agent == .ctl i
  s.modCtl i fun c => match c.due, c.blk with
    | none, some b =>
      { c with due := some ⟨code, b.addr, slot, addr, none, none, 0⟩, blk := some (b.faulted pending) }
    | _, _ => c

/-- The value that an operand of a slot holds. -/
def SlotRec.opnd (r : SlotRec) : Opnd → Option Val
  | .L => r.l
  | .R => r.r
  | .P => r.p

/-- The slot with an operand delivered. -/
def SlotRec.put (r : SlotRec) (o : Opnd) (v : Val) : SlotRec :=
  match o with
  | .L => { r with l := some v }
  | .R => { r with r := some v }
  | .P => { r with p := some v }

/-- One delivery (R201, R205): a second delivery to an operand or write entry raises BLOCK_FORMAT, with FAULTSLOT
naming the receiver. -/
def deliver (s : State) (i : Nat) (t : Target) (v : Val) : State :=
  match s.inst? i with
  | none => s
  | some n => match n.ctl.blk with
    | none => s
    | some b => match t with
      | .none => s
      | .opnd k o =>
        let k := k.toNat
        match ((b.slots.getD k SlotRec.empty).opnd o) with
        | some _ => raise s i codeBlockFormat k 0
        | none => s.modSlot i k fun r => r.put o v
      | .write k =>
        let k := k.toNat
        match b.writes.getD k none with
        | some _ => raise s i codeBlockFormat (0xA0 + k) 0
        | none => s.modBlk i fun b => { b with writes := updateAt (fun _ => some v) k b.writes }

/-- Deliveries in order. -/
def deliverAll (s : State) (i : Nat) (ds : List (Target × Val)) : State :=
  ds.foldl (fun s d => deliver s i d.1 d.2) s

/-- A value to every target listed. -/
def deliverVal (s : State) (i : Nat) (ts : List Target) (v : Word) : State :=
  deliverAll s i (ts.map fun t => (t, .val v))

/-- Null to every target listed (`nullify` of R221). -/
def deliverNull (s : State) (i : Nat) (ts : List Target) : State := deliverAll s i (ts.map fun t => (t, .null))

/-- The firing slot: context, slot number, and the values of its operands (0 where it takes none). -/
structure Firing where
  i : Nat
  k : Nat
  n : Inst
  b : Block
  rec_ : SlotRec
  l : Word
  r : Word
  p : Word
  deriving DecidableEq, Repr

/-- A context's block goes on: the context runs, or its bound block runs to its commit before a save (R389). -/
def Inst.goesOn (n : Inst) : Bool :=
  n.life == .running || (n.life == .stopping && (n.ctl.blk.map fun b => b.bound).getD false)

/-- A context may fire slots: its block goes on, and no fault is due. -/
def Inst.canFire (n : Inst) : Bool := n.goesOn && n.ctl.due.isNone

/-- A slot may fire: that of a context that may, or the side effect by which a block is bound and which still waits for
its step (R209, R424). -/
def Inst.slotMay (n : Inst) (b : Block) (k : Nat) (r : SlotRec) : Bool :=
  n.canFire || (n.goesOn && b.bound && r.st == .blocked && match Layout.slot b.words k with
    | some (row, _, _) => row.side
    | none => false)

/-- The slot named by `cur`, when its block has started and it may fire. -/
def State.curSlot (s : State) : Option (Inst × Block × SlotRec) :=
  match s.inst? s.cur.1 with
  | none => none
  | some n => match n.ctl.blk with
    | none => none
    | some b => match b.slots[s.cur.2]? with
      | none => none
      | some r => if n.slotMay b s.cur.2 r ∧ b.started then some (n, b, r) else none

/-- The word of a value; 0 for none and null. -/
def valWord : Option Val → Word
  | some (.val v) => v
  | _ => 0

/-- An operand that a slot waits for: required, or named by a target (R202, R256). -/
def awaits (ws : List Word) (k : Nat) (o : Opnd) : Need → Bool
  | .yes => true
  | .may => (Layout.named ws).contains (.opnd (BitVec.ofNat 7 k) o)
  | .no => false

/-- The exit slots of a block. -/
def exitSlots (ws : List Word) : List Nat := (Layout.slots ws).filterMap fun x => if isExit x.2.1 then some x.1 else none

/-- Every exit of the block squashed or nullified raises BLOCK_STALL at once, FAULTSLOT the highest-numbered exit
(R246). -/
def exitCheck (s : State) (i : Nat) : State :=
  match s.inst? i with
  | none => s
  | some n => match n.ctl.blk with
    | none => s
    | some b =>
      let es := exitSlots b.words
      let dead := fun k => match (b.slots.getD k SlotRec.empty).st with
        | .squashed => true
        | .nullified => true
        | _ => false
      if es.all dead then raise s i codeBlockStall (es.foldl max 0) 0 else s

/-- What becomes of a slot whose turn it is. -/
inductive Fate
  | wait
  | squash
  | nullify
  | go
  deriving DecidableEq, Repr

/-- The fate of a waiting slot (R202 to R204): a predicated slot is squashed as soon as its condition has the other
value or is null; otherwise it waits for its operands, and a null among them nullifies it. -/
def fate (needs : List (Bool × Option Val)) (pr : Pred) (p : Option Val) : Fate :=
  let squash := match pr, p with
    | .always, _ => false
    | _, some .null => true
    | .ifTrue, some (.val v) => v == 0
    | .ifFalse, some (.val v) => v != 0
    | _, none => false
  if squash then .squash
  else if needs.any (fun x => x.1 && x.2.isNone) then .wait
  else if needs.any (fun x => x.1 && x.2 == some .null) then .nullify
  else .go

/-- The awaited operands of the slot with what they hold. -/
def needsOf (row : Row) (f : Fields) (ws : List Word) (k : Nat) (r : SlotRec) : List (Bool × Option Val) :=
  [(awaits ws k .L (needL row f), r.l), (awaits ws k .R (needR row f), r.r), (awaits ws k .P (needP row f), r.p)]

/-- Firing of the slot named by `cur` under an opcode: `go` gives what a firing with values does. A slot in a state
other than `waiting` that waits for an event of its own goes on through `go` as well (its operands have arrived). -/
def fireOp (opc : Nat) (f : Fields) (s : State) (go : Firing → State) : Host.Outcome State Fault Refusal :=
  match s.curSlot, rowOf opc with
  | some (n, b, r), some row =>
    let i := s.cur.1
    let k := s.cur.2
    let fr : Firing := ⟨i, k, n, b, r, valWord r.l, valWord r.r, valWord r.p⟩
    match r.st with
    | .waiting =>
      match fate (needsOf row f b.words k r) (predOf f) r.p with
      | .wait => .next s
      | .squash =>
        let s := s.modSlot i k fun r => { r with st := .squashed }
        .next (if isExit row then exitCheck s i else s)
      | .nullify =>
        let s := s.modSlot i k fun r => { r with st := .nullified }
        .next (deliverNull (if isExit row then exitCheck s i else s) i (targets row f))
      | .go => .next (go fr)
    | .walking => .next (go fr)
    | .blocked => .next (go fr)
    | _ => .next s
  | _, _ => .next s

/-- The firing ends: the slot is done and a value goes to its targets. -/
def Firing.done (fr : Firing) (s : State) (ts : List Target) (v : Word) : State :=
  deliverVal (s.modSlot fr.i fr.k fun r => { r with st := .done }) fr.i ts v

/-- The firing ends with the deliveries listed. -/
def Firing.doneAll (fr : Firing) (s : State) (ds : List (Target × Val)) : State :=
  deliverAll (s.modSlot fr.i fr.k fun r => { r with st := .done }) fr.i ds

/-- The firing raises a fault: FAULTSLOT is the slot (R209). -/
def Firing.fault (fr : Firing) (s : State) (code : Nat) (addr : Word) : State := raise s fr.i code fr.k addr

/-- The exits of a block that have their operands and fire in this control cycle (R202). -/
def readyExits (b : Block) : List Nat :=
  (exitSlots b.words).filter fun k => match Layout.slot b.words k with
    | some (row, f, _) =>
      let r := b.slots.getD k SlotRec.empty
      r.st == .waiting && fate (needsOf row f b.words k r) (predOf f) r.p == .go
    | none => false

/-- An exit fires: the choice of what follows the block (R240); a second one raises MULTI_EXIT and is named, of exits that
fire in one control cycle the highest (R246). -/
def Firing.exit (fr : Firing) (s : State) (e : ExitTo) : State :=
  let s := s.modSlot fr.i fr.k fun r => { r with st := .done, since := s.cycle + 1 }
  match fr.b.exit with
  | some (j, _) =>
    let together := (fr.b.slots.getD j SlotRec.empty).since = s.cycle + 1
    raise s fr.i codeMultiExit ((readyExits fr.b).foldl max (if together then max j fr.k else fr.k)) 0
  | none => s.modBlk fr.i fun b => { b with exit := some (fr.k, e) }

/-- A commit action noted for the block's commit step. -/
def Firing.note (fr : Firing) (s : State) (a : CommitAct) : State :=
  (s.modSlot fr.i fr.k fun r => { r with st := .done }).modBlk fr.i fun b => { b with acts := b.acts ++ [a] }

end Sys2Proof.Machine
end

