-- ==== Sys2Proof/Machine/Flags.lean ====
section
/-! DEFINITION. The results of the value, comparison and selection opcodes (R224 to R236) as functions of the operand
width and the two operands, and the sticky DZ flag (R230). The module keeps no condition register (R203). -/

namespace Sys2Proof.Machine

open Sys2Proof.Bits

/-- Operation width of a WIDTH code (R224). -/
def opWidth : Width → Nat
  | .d => 64
  | _ => 32

/-- `mask_to_width` of R221. -/
def maskToWidth (v : Int) : Width → Word
  | .d => BitVec.ofInt 64 v
  | .ws => BitVec.ofInt 64 (sextI (v % 2 ^ 32).toNat 32)
  | .wz => BitVec.ofNat 64 (v % 2 ^ 32).toNat

/-- s(v) of R224. -/
def sOf (n : Nat) (v : Word) : Int := sextI v.toNat n

/-- u(v) of R224. -/
def uOf (n : Nat) (v : Word) : Nat := v.toNat % 2 ^ n

/-- Clamp to a range (R231). -/
def clampI (v lo hi : Int) : Int := if v < lo then lo else if hi < v then hi else v

/-- Most negative signed value of n bits. -/
def sMin (n : Nat) : Int := -(2 ^ (n - 1) : Nat)

/-- Quotient, remainder and DZ of R230. -/
def divide (x y : Int) (n : Nat) (signed : Bool) : Int × Int × Bool :=
  if y = 0 then (0, x, true)
  else if signed ∧ x = sMin n ∧ y = -1 then (x, 0, false)
  else (x.tdiv y, x - x.tdiv y * y, false)

/-- Shift amount (R232). -/
def shOf (n : Nat) (b : Word) : Nat := uOf n b % n

/-- ROL by an amount (R232). -/
def rolBy (n u sh : Nat) : Nat := (u * 2 ^ sh + u / 2 ^ (n - sh)) % 2 ^ n

/-- Leading zeros of an n-bit value (R233). -/
def clzN (n u : Nat) : Nat := if u = 0 then n else n - 1 - Nat.log2 u

/-- Trailing zeros of an n-bit value (R233). -/
def ctzN : Nat → Nat → Nat
  | 0, _ => 0
  | n + 1, u => if u.testBit 0 then 0 else 1 + ctzN n (u / 2)

/-- Bytes of an n-bit value in reverse order (R233). -/
def bswapN (n u : Nat) : Nat := leNat (leBytes (n / 8) u).reverse

/-- BFX of R234. -/
def bfxOf (imm : Nat) (a : Word) : Int :=
  let lo := bits imm 5 0
  let len := bits imm 11 6 + 1
  let f := bits a.toNat (lo + len - 1) lo
  if bit imm 12 then sextI f len else f

/-- BFI of R234. -/
def bfiOf (imm : Nat) (a r : Word) : Nat :=
  let lo := bits imm 5 0
  let len := bits imm 11 6 + 1
  let mk := BitVec.ofNat 64 ((2 ^ len - 1) * 2 ^ lo)
  ((a &&& ~~~ mk) ||| ((r <<< lo) &&& mk)).toNat

/-- 1 when a condition holds, else 0 (R235). -/
def boolInt (c : Bool) : Int := if c then 1 else 0

/-- The right value of a G slot (R224). -/
def rightOf (f : GOp) (r : Word) : Word := if f.i then sext f.imm.toNat 24 else r

/-- A G slot that computes: its result under WIDTH goes to its targets (R224). -/
def aluOp (opc : Nat) (f : GOp) (s : State) (res : Nat → Word → Word → Int) : Host.Outcome State Fault Refusal :=
  fireOp opc (.g f) s fun fr =>
    fr.done s [f.t1, f.t2] (maskToWidth (res (opWidth f.w) fr.l (rightOf f fr.r)) f.w)

/-- A dividing slot: a zero divisor notes DZ for the block's commit (R230). `pick` takes quotient or remainder. -/
def divOp (opc : Nat) (f : GOp) (s : State) (signed : Bool) (pick : Int × Int × Bool → Int) :
    Host.Outcome State Fault Refusal :=
  fireOp opc (.g f) s fun fr =>
    let n := opWidth f.w
    let b := rightOf f fr.r
    let q := if signed then divide (sOf n fr.l) (sOf n b) n true else divide (uOf n fr.l) (uOf n b) n false
    let s := if q.2.2 then s.modBlk fr.i fun x => { x with divZero := true } else s
    fr.done s [f.t1, f.t2] (maskToWidth (pick q) f.w)

end Sys2Proof.Machine
end

