-- ==== Sys2Proof/Machine/Alu.lean ====
section
/-! DEFINITION. Values, comparison and selection, and reading the instance and the clock (R226 to R239). -/

namespace Sys2Proof.Machine

open Sys2Proof.Bits Sys2Proof.Rows

/-- FAN (R226). -/
def execFan (f : GOp) (s : State) : Host.Outcome State Fault Refusal :=
  fireOp 0x01 (.g f) s fun fr =>
    fr.done s [f.t1, f.t2, targetOf (bits f.imm.toNat 17 9), targetOf (bits f.imm.toNat 8 0)]
      (maskToWidth (uOf (opWidth f.w) fr.l) f.w)

/-- NULL (R227). -/
def execNull (f : GOp) (s : State) : Host.Outcome State Fault Refusal :=
  fireOp 0x02 (.g f) s fun fr => fr.doneAll s [(f.t1, .null), (f.t2, .null)]

/-- MOVI (R228). -/
def execMovi (f : GOp) (s : State) : Host.Outcome State Fault Refusal :=
  aluOp 0x03 f s fun _ _ _ => sextI f.imm.toNat 24

/-- APPI (R228). -/
def execAppi (f : GOp) (s : State) : Host.Outcome State Fault Refusal :=
  aluOp 0x04 f s fun _ a _ => a.toNat * 2 ^ 24 + f.imm.toNat

/-- ADD (R229). -/
def execAdd (f : GOp) (s : State) : Host.Outcome State Fault Refusal :=
  aluOp 0x10 f s fun n a b => uOf n a + uOf n b

/-- SUB (R229). -/
def execSub (f : GOp) (s : State) : Host.Outcome State Fault Refusal :=
  aluOp 0x11 f s fun n a b => (uOf n a : Int) - uOf n b

/-- MUL (R229). -/
def execMul (f : GOp) (s : State) : Host.Outcome State Fault Refusal :=
  aluOp 0x12 f s fun n a b => sOf n a * sOf n b

/-- MULH (R229). -/
def execMulh (f : GOp) (s : State) : Host.Outcome State Fault Refusal :=
  aluOp 0x13 f s fun n a b => (sOf n a * sOf n b).fdiv (2 ^ n : Nat)

/-- MULHU (R229). -/
def execMulhu (f : GOp) (s : State) : Host.Outcome State Fault Refusal :=
  aluOp 0x14 f s fun n a b => uOf n a * uOf n b / 2 ^ n

/-- DIV (R230). -/
def execDiv (f : GOp) (s : State) : Host.Outcome State Fault Refusal := divOp 0x15 f s true fun q => q.1

/-- DIVU (R230). -/
def execDivu (f : GOp) (s : State) : Host.Outcome State Fault Refusal := divOp 0x16 f s false fun q => q.1

/-- REM (R230). -/
def execRem (f : GOp) (s : State) : Host.Outcome State Fault Refusal := divOp 0x17 f s true fun q => q.2.1

/-- REMU (R230). -/
def execRemu (f : GOp) (s : State) : Host.Outcome State Fault Refusal := divOp 0x18 f s false fun q => q.2.1

/-- AND (R229). -/
def execAnd (f : GOp) (s : State) : Host.Outcome State Fault Refusal :=
  aluOp 0x19 f s fun n a b => (uOf n a &&& uOf n b : Nat)

/-- OR (R229). -/
def execOr (f : GOp) (s : State) : Host.Outcome State Fault Refusal :=
  aluOp 0x1A f s fun n a b => (uOf n a ||| uOf n b : Nat)

/-- XOR (R229). -/
def execXor (f : GOp) (s : State) : Host.Outcome State Fault Refusal :=
  aluOp 0x1B f s fun n a b => (uOf n a ^^^ uOf n b : Nat)

/-- ANDN (R229). -/
def execAndn (f : GOp) (s : State) : Host.Outcome State Fault Refusal :=
  aluOp 0x1C f s fun n a b => uOf n (a &&& ~~~ b)

/-- SHL (R232). -/
def execShl (f : GOp) (s : State) : Host.Outcome State Fault Refusal :=
  aluOp 0x1D f s fun n a b => (uOf n a * 2 ^ shOf n b : Nat)

/-- SHR (R232). -/
def execShr (f : GOp) (s : State) : Host.Outcome State Fault Refusal :=
  aluOp 0x1E f s fun n a b => (uOf n a / 2 ^ shOf n b : Nat)

/-- SRA (R232). -/
def execSra (f : GOp) (s : State) : Host.Outcome State Fault Refusal :=
  aluOp 0x1F f s fun n a b => (sOf n a).fdiv (2 ^ shOf n b : Nat)

/-- ROL (R232). -/
def execRol (f : GOp) (s : State) : Host.Outcome State Fault Refusal :=
  aluOp 0x20 f s fun n a b => rolBy n (uOf n a) (shOf n b)

/-- ROR (R232). -/
def execRor (f : GOp) (s : State) : Host.Outcome State Fault Refusal :=
  aluOp 0x21 f s fun n a b => rolBy n (uOf n a) ((n - shOf n b) % n)

/-- MIN (R229). -/
def execMin (f : GOp) (s : State) : Host.Outcome State Fault Refusal :=
  aluOp 0x22 f s fun n a b => min (sOf n a) (sOf n b)

/-- MAX (R229). -/
def execMax (f : GOp) (s : State) : Host.Outcome State Fault Refusal :=
  aluOp 0x23 f s fun n a b => max (sOf n a) (sOf n b)

/-- MINU (R229). -/
def execMinu (f : GOp) (s : State) : Host.Outcome State Fault Refusal :=
  aluOp 0x24 f s fun n a b => (min (uOf n a) (uOf n b) : Nat)

/-- MAXU (R229). -/
def execMaxu (f : GOp) (s : State) : Host.Outcome State Fault Refusal :=
  aluOp 0x25 f s fun n a b => (max (uOf n a) (uOf n b) : Nat)

/-- ADDS (R231). -/
def execAdds (f : GOp) (s : State) : Host.Outcome State Fault Refusal :=
  aluOp 0x26 f s fun n a b => clampI (sOf n a + sOf n b) (sMin n) (-1 - sMin n)

/-- SUBS (R231). -/
def execSubs (f : GOp) (s : State) : Host.Outcome State Fault Refusal :=
  aluOp 0x27 f s fun n a b => clampI (sOf n a - sOf n b) (sMin n) (-1 - sMin n)

/-- ADDUS (R231). -/
def execAddus (f : GOp) (s : State) : Host.Outcome State Fault Refusal :=
  aluOp 0x28 f s fun n a b => clampI (uOf n a + uOf n b) 0 ((2 ^ n : Nat) - 1)

/-- SUBUS (R231). -/
def execSubus (f : GOp) (s : State) : Host.Outcome State Fault Refusal :=
  aluOp 0x29 f s fun n a b => clampI ((uOf n a : Int) - uOf n b) 0 ((2 ^ n : Nat) - 1)

/-- CLZ (R233). -/
def execClz (f : GOp) (s : State) : Host.Outcome State Fault Refusal :=
  aluOp 0x2C f s fun n a _ => clzN n (uOf n a)

/-- CTZ (R233). -/
def execCtz (f : GOp) (s : State) : Host.Outcome State Fault Refusal :=
  aluOp 0x2D f s fun n a _ => ctzN n (uOf n a)

/-- POPC (R233). -/
def execPopc (f : GOp) (s : State) : Host.Outcome State Fault Refusal :=
  aluOp 0x2E f s fun n a _ => popcN n (uOf n a)

/-- BSWAP (R233). -/
def execBswap (f : GOp) (s : State) : Host.Outcome State Fault Refusal :=
  aluOp 0x2F f s fun n a _ => bswapN n (uOf n a)

/-- SEXT (R234). -/
def execSext (f : GOp) (s : State) : Host.Outcome State Fault Refusal :=
  aluOp 0x30 f s fun _ a _ => sextI a.toNat (bits f.imm.toNat 5 0 + 1)

/-- ZEXT (R234). -/
def execZext (f : GOp) (s : State) : Host.Outcome State Fault Refusal :=
  aluOp 0x31 f s fun _ a _ => bits a.toNat (bits f.imm.toNat 5 0) 0

/-- NEG (R233). -/
def execNeg (f : GOp) (s : State) : Host.Outcome State Fault Refusal := aluOp 0x32 f s fun n a _ => -(sOf n a)

/-- NOT (R233). -/
def execNot (f : GOp) (s : State) : Host.Outcome State Fault Refusal :=
  aluOp 0x33 f s fun n a _ => (2 ^ n : Nat) - 1 - (uOf n a : Int)

/-- ABS (R233). -/
def execAbs (f : GOp) (s : State) : Host.Outcome State Fault Refusal :=
  aluOp 0x34 f s fun n a _ => (sOf n a).natAbs

/-- BFX (R234). -/
def execBfx (f : GOp) (s : State) : Host.Outcome State Fault Refusal :=
  aluOp 0x35 f s fun _ a _ => bfxOf f.imm.toNat a

/-- BFI (R234). -/
def execBfi (f : GOp) (s : State) : Host.Outcome State Fault Refusal :=
  aluOp 0x36 f s fun _ a b => bfiOf f.imm.toNat a b

/-- TEQ (R235). -/
def execTeq (f : GOp) (s : State) : Host.Outcome State Fault Refusal :=
  aluOp 0x40 f s fun n a b => boolInt (uOf n a == uOf n b)

/-- TNE (R235). -/
def execTne (f : GOp) (s : State) : Host.Outcome State Fault Refusal :=
  aluOp 0x41 f s fun n a b => boolInt (uOf n a != uOf n b)

/-- TLT (R235). -/
def execTlt (f : GOp) (s : State) : Host.Outcome State Fault Refusal :=
  aluOp 0x42 f s fun n a b => boolInt (sOf n a < sOf n b)

/-- TLTU (R235). -/
def execTltu (f : GOp) (s : State) : Host.Outcome State Fault Refusal :=
  aluOp 0x43 f s fun n a b => boolInt (uOf n a < uOf n b)

/-- TLE (R235). -/
def execTle (f : GOp) (s : State) : Host.Outcome State Fault Refusal :=
  aluOp 0x44 f s fun n a b => boolInt (sOf n a ≤ sOf n b)

/-- TLEU (R235). -/
def execTleu (f : GOp) (s : State) : Host.Outcome State Fault Refusal :=
  aluOp 0x45 f s fun n a b => boolInt (uOf n a ≤ uOf n b)

/-- TGT (R235). -/
def execTgt (f : GOp) (s : State) : Host.Outcome State Fault Refusal :=
  aluOp 0x46 f s fun n a b => boolInt (sOf n b < sOf n a)

/-- TGTU (R235). -/
def execTgtu (f : GOp) (s : State) : Host.Outcome State Fault Refusal :=
  aluOp 0x47 f s fun n a b => boolInt (uOf n b < uOf n a)

/-- TGE (R235). -/
def execTge (f : GOp) (s : State) : Host.Outcome State Fault Refusal :=
  aluOp 0x48 f s fun n a b => boolInt (sOf n b ≤ sOf n a)

/-- TGEU (R235). -/
def execTgeu (f : GOp) (s : State) : Host.Outcome State Fault Refusal :=
  aluOp 0x49 f s fun n a b => boolInt (uOf n b ≤ uOf n a)

/-- TBS (R235). -/
def execTbs (f : GOp) (s : State) : Host.Outcome State Fault Refusal :=
  aluOp 0x4A f s fun n a b => boolInt (bit (uOf n a) (uOf n b % n))

/-- TBC (R235). -/
def execTbc (f : GOp) (s : State) : Host.Outcome State Fault Refusal :=
  aluOp 0x4B f s fun n a b => boolInt (!bit (uOf n a) (uOf n b % n))

/-- SEL (R236): the value to T1 when u(a) is nonzero and to T2 otherwise, null to the other. -/
def execSel (f : GOp) (s : State) : Host.Outcome State Fault Refusal :=
  fireOp 0x4C (.g f) s fun fr =>
    let n := opWidth f.w
    let v := maskToWidth (uOf n (rightOf f fr.r)) f.w
    if uOf n fr.l ≠ 0 then fr.doneAll s [(f.t1, .val v), (f.t2, .null)]
    else fr.doneAll s [(f.t1, .null), (f.t2, .val v)]

/-- Word `k` of an instance's launch record (R164). -/
def State.launchWord (s : State) (n : Inst) (k : Nat) : Nat :=
  match aget n.launch s.launches with
  | some l => (l.words.getD k 0).toNat
  | none => 0

/-- Width of field k of the work identifier (R164). -/
def fieldWidth (w2 k : Nat) : Nat := bits w2 (6 * k + 5) (6 * k)

/-- Field k of a work identifier (R166): f0 stands highest, f5 in the lowest bits. -/
def widField (w2 wid k : Nat) : Nat :=
  let below := ((List.range 6).drop (k + 1)).foldl (fun a j => a + fieldWidth w2 j) 0
  bits (wid / 2 ^ below) (fieldWidth w2 k - 1) 0 % 2 ^ fieldWidth w2 k

/-- COUNTk (R164). -/
def countOf (w34 : Nat → Nat) (k : Nat) : Nat := bits (w34 (3 + k / 2)) (32 * (k % 2) + 31) (32 * (k % 2))

/-- What WID reads (R237). -/
def widValue (s : State) (n : Inst) (imm : Nat) : Nat :=
  let sel := bits imm 2 0
  if bit imm 3 then countOf (s.launchWord n) sel
  else if sel = 6 then n.wid
  else if sel = 7 then s.launchWord n 6
  else widField (s.launchWord n 2) n.wid sel

/-- WID (R237). -/
def execWid (f : GOp) (s : State) : Host.Outcome State Fault Refusal :=
  fireOp 0x50 (.g f) s fun fr => fr.done s [f.t1, f.t2] (maskToWidth (widValue s fr.n f.imm.toNat) f.w)

/-- TIME (R238). -/
def execTime (f : GOp) (s : State) : Host.Outcome State Fault Refusal :=
  fireOp 0x51 (.g f) s fun fr => fr.done s [f.t1, f.t2] (maskToWidth s.now f.w)

/-- CYC (R238). -/
def execCyc (f : GOp) (s : State) : Host.Outcome State Fault Refusal :=
  fireOp 0x52 (.g f) s fun fr =>
    fr.done s [f.t1, f.t2] (maskToWidth (if bit f.imm.toNat 0 then fr.n.ctl.resident else s.cycle % 2 ^ 64) f.w)

/-- Region rectangle as CTX item 6 lays it out (R239). -/
def rectWord (r : Rect) : Nat := r.h * 2 ^ 48 + r.w * 2 ^ 32 + r.row0 * 2 ^ 16 + r.col0

/-- What CTX reads (R239). -/
def ctxValue (s : State) (n : Inst) (sel : Nat) : Nat :=
  match sel with
  | 0 => n.ctx
  | 1 => s.tenantOf n.ctx
  | 2 => s.classOf n
  | 3 => if n.ctl.cur then 1 else 0
  | 4 => n.serial
  | 5 => dieOfCore n.cluster * 2 ^ 10 + n.cluster % 96 * 2 ^ 3 + n.slot
  | _ => match n.reg with
    | some r => rectWord r.rect
    | none => 0

/-- CTX (R239). -/
def execCtx (f : GOp) (s : State) : Host.Outcome State Fault Refusal :=
  fireOp 0x53 (.g f) s fun fr => fr.done s [f.t1, f.t2] (maskToWidth (ctxValue s fr.n (bits f.imm.toNat 2 0)) f.w)

end Sys2Proof.Machine
end

