-- ==== Sys2Proof/Machine/Descr.lean ====
section
/-! DEFINITION. Loop descriptors and binding entries (R302, R303), their limits, and the addresses that a binding forms
(R175, R304). -/

namespace Sys2Proof.Descr

open Sys2Proof.Bits

/-- Word `k` of a descriptor as a number. -/
def w (ws : List Word) (k : Nat) : Nat := (ws.getD k 0).toNat

/-- Half `d` of words from `k` on: dimension d in word k + d div 2 (R302). -/
def half (ws : List Word) (k d : Nat) : Nat := bits (w ws (k + d / 2)) (32 * (d % 2) + 31) (32 * (d % 2))

/-! ## Loops (R302) -/

/-- Dimensions of the nest. -/
def ndim (l : List Word) : Nat := bits (w l 0) 58 56 + 1
/-- Commit dimension. -/
def cdim (l : List Word) : Nat := bits (w l 0) 55 53
/-- Declared undo bytes per FE and iteration. -/
def undo (l : List Word) : Nat := bits (w l 0) 47 32
/-- Declared held bytes per cluster and iteration. -/
def hold (l : List Word) : Nat := bits (w l 0) 31 0
/-- Count of dimension d; 1 at or above NDIM. -/
def count (l : List Word) (d : Nat) : Nat := if d < ndim l then half l 1 d else 1

/-- The loop descriptor breaks R302. -/
def loopBad (l : List Word) : Bool :=
  bits (w l 0) 63 59 != 0 || bits (w l 0) 52 48 != 0 || 6 < ndim l || ndim l ≤ cdim l || 4096 < undo l
    || 262144 < hold l || (List.range 6).any fun d => ndim l ≤ d && half l 1 d != 0

/-! ## Bindings (R303) -/

/-- KIND. -/
def kind (b : List Word) : Nat := bits (w b 0) 63 60
/-- CARRIED. -/
def carried (b : List Word) : Bool := bit (w b 0) 59
/-- REL. -/
def rel (b : List Word) : Bool := bit (w b 0) 58
/-- SCOPE. -/
def scope (b : List Word) : Nat := bits (w b 0) 57 55
/-- WIN. -/
def win (b : List Word) : Bool := bit (w b 0) 54
/-- CLOSE. -/
def close (b : List Word) : Bool := bit (w b 0) 53
/-- CH. -/
def ch (b : List Word) : Bool := bit (w b 0) 52
/-- AG. -/
def ag (b : List Word) : Nat := bits (w b 0) 51 46
/-- GEN. -/
def gen (b : List Word) : Nat := bits (w b 0) 45 44
/-- COL. -/
def col (b : List Word) : Nat := bits (w b 0) 43 35
/-- ROW. -/
def row (b : List Word) : Nat := bits (w b 0) 34 28
/-- IO. -/
def io (b : List Word) : Nat := bits (w b 0) 27 26
/-- VCTAG. -/
def vctag (b : List Word) : Nat := bits (w b 0) 25 21
/-- Bytes per beat. -/
def nbytes (b : List Word) : Nat := bits (w b 0) 20 14 + 1
/-- Stride of dimension d, signed; STRIDE[7] reads as 0 (R304). -/
def stride (b : List Word) (d : Nat) : Int := if d < 6 then sextI (half b 1 d) 32 else 0
/-- GW of an accumulator group. -/
def gw (b : List Word) : Nat := bits (w b 4) 63 55
/-- Height of an accumulator group. -/
def gh (b : List Word) : Nat := bits (w b 4) 54 48 + 1
/-- Outputs per FE of an accumulator group. -/
def no (b : List Word) : Nat := bits (w b 4) 47 40
/-- KINDS of a fence: bit 3 LL, 2 LS, 1 SL, 0 SS as W4[63:60] lists them. -/
def kinds (b : List Word) : Nat := bits (w b 4) 63 60
/-- FDIM of a fence. -/
def fdim (b : List Word) : Nat := bits (w b 4) 59 57
/-- TOKITER. -/
def tokiter (b : List Word) : Nat := bits (w b 6) 63 48

/-- A source binding: MEMSRC or SHELFRD. -/
def isSource (b : List Word) : Bool := kind b == 0 || kind b == 2
/-- A sink binding: MEMSNK or SHELFWR. -/
def isSink (b : List Word) : Bool := kind b == 1 || kind b == 3

/-- W0 fields that a KIND uses, as a mask of bits 59 down to 14 (R303). -/
def useMask (b : List Word) : Nat :=
  let place := (2 ^ 2 - 1) * 2 ^ 44 + (2 ^ 9 - 1) * 2 ^ 35 + (2 ^ 7 - 1) * 2 ^ 28
  let io := 3 * 2 ^ 26
  let tag := 31 * 2 ^ 21
  let byt := 127 * 2 ^ 14
  let sc := 7 * 2 ^ 55
  match kind b with
  | 0 => place + io + tag + byt + 2 ^ 54 + 2 ^ 52 + (if ch b then sc else 0)
  | 1 => place + io + byt + 2 ^ 58 + 2 ^ 54 + 2 ^ 52 + (if ch b then 2 ^ 53 else 0) + (if ch b || rel b then sc else 0)
  | 2 => place + io + tag + byt + 2 ^ 54
  | 3 => place + io + byt + 2 ^ 59 + 2 ^ 54
  | 4 => 63 * 2 ^ 46 + (2 ^ 9 - 1) * 2 ^ 35 + (2 ^ 7 - 1) * 2 ^ 28
  | _ => sc

/-- The WIN words break their limits. -/
def winBad (b : List Word) : Bool :=
  bits (w b 4) 7 0 != 0 || bits (w b 4) 15 12 == 0 || bits (w b 4) 11 8 == 0 || bits (w b 5) 48 32 != 0
    || [bits (w b 5) 63 61, bits (w b 5) 60 58, bits (w b 5) 57 55, bits (w b 5) 54 52, bits (w b 5) 51 49].contains 6

/-- Words 1 to 5 break what the KIND uses. -/
def wordsBad (b : List Word) : Bool :=
  match kind b with
  | 4 => w b 1 != 0 || w b 2 != 0 || w b 3 != 0 || bits (w b 4) 39 0 != 0 || w b 5 != 0 || gw b == 0 || 384 < gw b
          || no b == 0 || 64 < no b
  | 5 => w b 1 != 0 || w b 2 != 0 || w b 3 != 0 || bits (w b 4) 56 0 != 0 || w b 5 != 0 || kinds b == 0 || 5 < fdim b
  | _ => if win b then winBad b else w b 4 != 0 || w b 5 != 0

/-- The binding entry breaks R303. -/
def bindingBad (b : List Word) : Bool :=
  5 < kind b || w b 0 % 2 ^ 14 != 0 || (w b 0 % 2 ^ 60) &&& useMask b != w b 0 % 2 ^ 60 || 5 < scope b
    || (if isSink b then 1 < io b else 2 < io b) || (ch b && win b) || wordsBad b
    || bits (w b 6) 47 0 != 0 || (tokiter b != 0 && !(ch b && kind b ≤ 1)) || w b 7 != 0

/-! ## Walks (R174 to R176, R304) -/

/-- Index of dimension d of a vector; dimension 7 reads as 0. -/
def ix (v : List Nat) (d : Nat) : Nat := if d < 6 then v.getD d 0 else 0

/-- The address that a binding forms at a vector, without reduction, or none for a zero beat (R304). -/
def addrAt (b : List Word) (base : Int) (v : List Nat) : Option Int :=
  if win b then
    let ex := bits (w b 4) 63 48
    let ey := bits (w b 4) 47 32
    let dox := bits (w b 5) 63 61
    let dfx := bits (w b 5) 60 58
    let doy := bits (w b 5) 57 55
    let dfy := bits (w b 5) 54 52
    let dn := bits (w b 5) 51 49
    let imgpix := bits (w b 5) 31 0
    let x : Int := ix v dox * bits (w b 4) 15 12 + ix v dfx - (bits (w b 4) 31 24 : Nat)
    let y : Int := if doy = 7 then 0 else ix v doy * bits (w b 4) 11 8 + ix v dfy - (bits (w b 4) 23 16 : Nat)
    let n : Int := if dn = 7 then 0 else ix v dn
    let pix : Int := (n * ey + y) * ex + x
    if x < 0 ∨ (ex : Int) ≤ x ∨ y < 0 ∨ (doy ≠ 7 ∧ (ey : Int) ≤ y) ∨ (imgpix ≠ 0 ∧ (imgpix : Int) ≤ pix) then none
    else
      let a := base + y * stride b doy + x * stride b dox
      some (((List.range 6).filter fun d => !([dox, dfx, doy, dfy].contains d)).foldl
        (fun a d => a + (ix v d : Int) * stride b d) a)
  else some ((List.range 6).foldl (fun a d => a + (ix v d : Int) * stride b d) base)

/-- Beats that a binding forms in one pass of dimension m: the product of the counts up to m (R176). -/
def passLen (l : List Word) (m : Nat) : Nat := (List.range (m + 1)).foldl (fun p d => p * count l d) 1

/-- The vector of beat `p` of the iteration whose vector is `v`: dimension 0 runs fastest (R174). -/
def vecAt (l : List Word) (v : List Nat) (p : Nat) : List Nat :=
  let m := cdim l
  (List.range 6).map fun d =>
    if d ≤ m then p / (List.range d).foldl (fun q e => q * count l e) 1 % max 1 (count l d) else v.getD d 0

/-- Dimension marks of a beat at a vector (R174): mark d when the beat is the last of its pass of dimension d, with the
marks of the dimensions inside it. -/
def marksAt (l : List Word) (v : List Nat) : Nat :=
  (List.range (ndim l)).foldl (fun acc d =>
    if (List.range (d + 1)).all (fun e => v.getD e 0 + 1 == count l e) then acc + 2 ^ d else acc) 0

/-- The vector after `v` in the dimensions above m; none after the last (R176). -/
def nextVec (l : List Word) (v : List Nat) : Option (List Nat) :=
  let m := cdim l
  let rec go : List Nat → List Nat → Option (List Nat)
    | [], _ => none
    | d :: ds, v =>
      if v.getD d 0 + 1 < count l d then some ((indexed 0 v).map fun x => if x.1 = d then x.2 + 1 else x.2)
      else go ds ((indexed 0 v).map fun x => if x.1 = d then 0 else x.2)
  go ((List.range 6).filter fun d => m < d) v

/-- A nest with no iterations: some used dimension has count 0 (R302). -/
def emptyNest (l : List Word) : Bool := (List.range 6).any fun d => count l d == 0

/-! ## FE selectors and context-set entries (R295) -/

/-- An entry or selector matches relative coordinates. -/
def selects (e c w : Nat) : Bool :=
  let clo := bits e 47 39
  let wlo := bits e 29 23
  clo ≤ c && c ≤ bits e 38 30 && wlo ≤ w && w ≤ bits e 22 16 && (c - clo) % (bits e 15 12 + 1) == 0
    && (w - wlo) % (bits e 11 8 + 1) == 0

end Sys2Proof.Descr
end

