-- ==== Sys2Proof/Machine/Fetch.lean ====
section
/-! DEFINITION. BLOCK_FETCH with the decode checks in their order (R197 to R211, R290), and BLOCK_START (R202, R270). -/

namespace Sys2Proof.Machine

open Sys2Proof.Bits Sys2Proof.Rows Sys2Proof.Layout

/-! ## Fields read before a slot is known to be legal -/

/-- The targets that a slot word names under its opcode's format; none for BRK and unlisted opcodes (R201, R245). -/
def rawTargets (w : Word) : List Target :=
  let n := w.toNat
  match rowOf (bits n 63 56) with
  | none => []
  | some row => match row.ctor with
    | .g _ => targetOf (bits n 47 39) :: targetOf (bits n 38 30) ::
        (if row.opc == 0x01 then [targetOf (bits n 17 9), targetOf (bits n 8 0)] else [])
    | .m _ => [targetOf (bits n 36 28)]
    | .b _ => [targetOf (bits n 47 39)]
    | .e _ => [targetOf (bits n 47 39), targetOf (bits n 38 30)]

/-- A slot word takes an operand (R201). Any operand of a BRK slot may be named, since only its opcode byte was
overwritten (R245). -/
def rawTakes (w : Word) (o : Opnd) : Bool :=
  let n := w.toNat
  if bits n 63 56 == 0xA6 then true
  else match rowOf (bits n 63 56) with
  | none => false
  | some row => match o with
    | .L => row.l != .no && !(row.opc == 0xB2 && bits n 1 0 == 3)
    | .R => row.r != .no && !(row.withI && bit n 55)
    | .P =>
      let pr := match row.ctor with
        | .m _ => bits n 44 43
        | _ => bits n 49 48
      pr == 1 || pr == 2 || row.opc == 0x71

/-- A target of the block names a consumer that exists and takes it (R201). -/
def targetOk (ws : List Word) : Target → Bool
  | .none => true
  | .write k => k.toNat < nwrite ws
  | .opnd k o => k.toNat < nslot ws && rawTakes (slotWord ws k.toNat) o

/-! ## Steps 2 and 3 of R211 -/

/-- Step 2: header fields and descriptor offsets (R198, R199, R290). -/
def headerBad (ws : List Word) : Bool :=
  let h0 := wordAt ws 0
  let h1 := wordAt ws 1
  2 ≤ kind ws || bits h0 36 32 != 0 || bits h0 15 0 != 0 || 16 < nread ws || 32 < nwrite ws || 32 < nmem ws
    || (kind ws == 0 && h1 != 0)
    || (isFabric ws && loopoff ws == 0 && ctxset ws != 0)
    || (isFabric ws && loopoff ws != 0 && loopoff ws < slotEnd ws)
    || (isFabric ws && nbind ws != 0 && bindoff ws < slotEnd ws)

/-- Step 3: entries, targets, repeated write registers (R200, R201). -/
def entriesBad (ws : List Word) : Bool :=
  let rd := fun k => bits (wordAt ws (2 + k / 2)) (32 * (k % 2) + 31) (32 * (k % 2))
  let wr := fun k => bits (wordAt ws (firstWrite ws + k / 4)) (16 * (k % 4) + 15) (16 * (k % 4))
  let nr := nread ws
  let nw := nwrite ws
  (List.range (2 * ceilDiv nr 2)).any (fun k => if k < nr then rd k % 256 != 0 else rd k != 0)
    || (List.range (4 * ceilDiv nw 4)).any (fun k => if k < nw then wr k % 1024 != 0 else wr k != 0)
    || !((List.range nw).map fun k => writeReg ws k).Nodup
    || (List.range nr).any (fun k => !targetOk ws (readEntry ws k).2.1 || !targetOk ws (readEntry ws k).2.2)
    || (List.range (nslot ws)).any (fun k => (rawTargets (slotWord ws k)).any fun t => !targetOk ws t)

/-! ## Step 4 -/

/-- The check of one slot (R211 step 4): the fault code, if it fails. `seen` lists the registers of lower SYSW slots
(R281). -/
def slotCheck (ws : List Word) (sup region : Bool) (seen : List Nat) (k : Nat) : Option Nat :=
  match decodeFull (slotWord ws k) with
  | .error .brk => some codeBreak
  | .error _ => some codeIllegal
  | .ok (row, f, _) =>
    if Rows.isFabric row && !(Layout.isFabric ws && region) then some codeIllegal
    else if (match f with | .e e => row.opc == 0xB1 && seen.contains e.imm.toNat | _ => false) then some codeIllegal
    else if row.priv && !sup then some codePriv
    else none

/-- The register that a SYSW slot names. -/
def syswReg (ws : List Word) (k : Nat) : Option Nat :=
  match slot ws k with
  | some (row, .e e, _) => if row.opc == 0xB1 then some e.imm.toNat else none
  | _ => none

/-- Step 4 over the slots in ascending order: fault code and slot of the first failure. -/
def slotsCheck (ws : List Word) (sup region : Bool) : List Nat → List Nat → Option (Nat × Nat)
  | _, [] => none
  | seen, k :: ks =>
    match slotCheck ws sup region seen k with
    | some c => some (c, k)
    | none => slotsCheck ws sup region (match syswReg ws k with | some r => r :: seen | none => seen) ks

/-! ## Step 5 -/

/-- Slots that the targets of a slot name. -/
def succs (ws : List Word) (k : Nat) : List Nat :=
  match slot ws k with
  | some (row, f, _) => (targets row f).filterMap fun t => match t with | .opnd j _ => some j.toNat | _ => none
  | none => []

/-- Slots reached by paths of targets, widened `fuel` times. -/
def reach (ws : List Word) : Nat → List Nat → List Nat
  | 0, r => r
  | fuel + 1, r => reach ws fuel (r ++ (r.flatMap (succs ws))).dedup

/-- The slots that paths of targets from slot `k` reach (R208). -/
def reachedFrom (ws : List Word) (k : Nat) : List Nat := reach ws (nslot ws) (succs ws k).dedup

/-- The M and A slots: slot and LSID. -/
def lsids (ws : List Word) : List (Nat × Nat) := (slots ws).filterMap fun x => (lsidOf x.2.2).map fun l => (x.1, l)

/-- The lowest slot whose LSID a lower slot already holds (R211). -/
def repeatedLsid (ws : List Word) : Option Nat :=
  ((lsids ws).find? fun x => (lsids ws).any fun y => y.1 < x.1 && y.2 == x.2).map (·.1)

/-- The side-effecting slots in order (R208). -/
def sideSlots (ws : List Word) : List Nat := (slots ws).filterMap fun x => if x.2.1.side then some x.1 else none

/-- The lowest slot that receives an operand fed by the side-effecting slot although R208 forbids it. -/
def forbiddenFed (ws : List Word) : Option Nat :=
  match sideSlots ws with
  | j :: _ =>
    let r := reachedFrom ws j
    ((slots ws).find? fun x =>
      r.contains x.1 && ((lsidOf x.2.2).isSome || waitsBeforeBinding x.2.1)).map (·.1)
  | [] => none

/-- The lowest slot lacking a required operand (R202). -/
def unsupplied (ws : List Word) : Option Nat :=
  let nm := named ws
  ((slots ws).find? fun x =>
    let lacks := fun o n => n == Need.yes && !nm.contains (.opnd (BitVec.ofNat 7 x.1) o)
    lacks .L (needL x.2.1 x.2.2) || lacks .R (needR x.2.1 x.2.2) || lacks .P (needP x.2.1 x.2.2)).map (·.1)

/-- A FENCE naming SL between a lower ST and a higher LD (R255). -/
def fenceStuck (ws : List Word) : Option Nat :=
  ((slots ws).find? fun x => match x.2.2 with
    | .m f => x.2.1.opc == 0x74 && bit f.off.toNat 2
        && (slots ws).any (fun y => y.2.1.opc == 0x61 && ((lsidOf y.2.2).getD 0) < f.lsid.toNat)
        && (slots ws).any (fun y => y.2.1.opc == 0x60 && f.lsid.toNat < (lsidOf y.2.2).getD 0)
    | _ => false).map (·.1)

/-- A token SEL that names a register of the block's own write entries (R270). -/
def tokenWritten (ws : List Word) : Option Nat :=
  ((slots ws).find? fun x => match x.2.2 with
    | .e e => (x.2.1.opc == 0x90 || x.2.1.opc == 0x92 || x.2.1.opc == 0x93)
        && ((List.range (nwrite ws)).any fun k => writeReg ws k == e.sel.toNat)
    | _ => false).map (·.1)

/-- WAITEV in a control block whose BUDGET is nonzero and below 16,448 (R287). -/
def waitevShort (ws : List Word) : Option Nat :=
  if kind ws == 0 && budget ws != 0 && budget ws < 16448 then
    ((slots ws).find? fun x => x.2.1.opc == 0xB5).map (·.1)
  else none

/-- A descriptor field of the block breaks its limits (R290, R302, R303). -/
def descriptorBad (ws : List Word) : Bool :=
  Layout.isFabric ws && ((isNest ws && Descr.loopBad (loop ws))
    || (List.range (nbind ws)).any fun k => Descr.bindingBad (binding ws k))

/-- The binding that declares accumulator group `g` (R325). -/
def groupBinding (ws : List Word) (g : Nat) : Option (List Word) :=
  (((List.range (nbind ws)).map (binding ws)).find? fun b => Descr.kind b == 4 && Descr.ag b == g)

/-- The check of one fabric-body slot against the block's descriptors (R290, R325, R326). -/
def fabricSlotBad (ws : List Word) (row : Row) (f : Fields) : Bool :=
  match f with
  | .e e =>
    if row.opc == 0xC0 || row.opc == 0xC1 then
      let k := e.imm.toNat % 256
      !isNest ws || nbind ws ≤ k || Descr.kind (binding ws k) != (if row.opc == 0xC1 then 1 else 0)
        || Descr.ch (binding ws k) != e.ch
    else if row.opc == 0xCC then !isNest ws
    else if row.opc == 0xC2 || row.opc == 0xC3 then
      match groupBinding ws e.sel.toNat with
      | none => true
      | some b => row.opc == 0xC2 && Descr.gw b * Descr.gh b * Descr.no b ≤ e.imm.toNat % 65536
    else false
  | _ => false

/-- FRUN and FSTOP slots of a nest block when there are too many (R290): the lowest of them. -/
def runStopBad (ws : List Word) : Option Nat :=
  let at_ := fun o => (slots ws).filterMap fun x => if x.2.1.opc == o then some x.1 else none
  let rs := at_ 0xCC
  let ss := at_ 0xCB
  if isNest ws && (1 < rs.length || 1 < ss.length || (rs != [] && ss != [])) then (rs ++ ss).min? else none

/-- The first check of step 5 that fails: FAULTSLOT (R211; log 27 for the order after R202). -/
def blockCheck (ws : List Word) : Option Nat :=
  match repeatedLsid ws with
  | some k => some k
  | none =>
  if ((slots ws).filter fun x => memOut x.2.1).length ≠ nmem ws then some 0x80
  else match (sideSlots ws)[1]? with
  | some k => some k
  | none => match forbiddenFed ws with
  | some k => some k
  | none => match unsupplied ws with
  | some k => some k
  | none => match fenceStuck ws with
  | some k => some k
  | none => match tokenWritten ws with
  | some k => some k
  | none => match waitevShort ws with
  | some k => some k
  | none =>
    if descriptorBad ws then some 0x80
    else match runStopBad ws with
    | some k => some k
    | none => ((slots ws).find? fun x => fabricSlotBad ws x.2.1 x.2.2).map (·.1)

/-- The decode checks of R211 from step 2 on: fault code and FAULTSLOT of the first failure. -/
def decodeCheck (ws : List Word) (sup region : Bool) : Option (Nat × Nat) :=
  if headerBad ws then some (codeBlockFormat, 0x80)
  else if entriesBad ws then some (codeBlockFormat, 0x80)
  else match slotsCheck ws sup region [] (List.range (nslot ws)) with
  | some x => some x
  | none => (blockCheck ws).map fun k => (codeBlockFormat, k)

/-! ## BLOCK_FETCH -/

/-- The access of a block fetch: X at the current level (R23). -/
def fetchAccess (sup : Bool) : Access := ⟨.fetch, false, false, true, sup⟩

/-- What a fetch of code gives: its words, a fault with FAULTADDR, or a miss at an address whose walk comes first. -/
inductive Fetched
  | ok (ws : List Word)
  | fault (code : Nat) (addr : Word)
  | miss (va : Nat)
  deriving DecidableEq, Repr

/-- One 64-byte unit of code: eight words. `fill` makes a walk part of the step. -/
def fetchUnit (s : State) (n : Inst) (fill : Bool) (addr : Word) : State × Fetched :=
  match xlate s (some n.cluster) n.cluster (dieOfCore n.cluster) n.ctx .virt addr 64 64 1 (fetchAccess n.ctl.cur) fill with
  | (s, .ok ps) =>
    let s := s.meetPieces ps
    if s.poisonedPieces ps then (s, .fault codePoison addr)
    else
      let bs := s.gather ps
      (s, .ok ((List.range 8).map fun k => BitVec.ofNat 64 (word8 bs k)))
  | (s, .fault c a) => (s, .fault c a)
  | (s, .miss _ a) => (s, .miss a)

/-- Units from `k` up, `m` of them. -/
def fetchUnits (s : State) (n : Inst) (fill : Bool) (addr : Word) (k : Nat) : Nat → List Word → State × Fetched
  | 0, ws => (s, .ok ws)
  | m + 1, ws =>
    match fetchUnit s n fill (addr + BitVec.ofNat 64 (64 * k)) with
    | (s, .ok us) => fetchUnits s n fill addr (k + 1) m (ws ++ us)
    | r => r

/-- The words of a block's extent, from the first unit's header on (R197). -/
def fetchWords (s : State) (n : Inst) (fill : Bool) (addr : Word) : State × Fetched :=
  match fetchUnit s n fill addr with
  | (s, .ok us) => fetchUnits s n fill addr 1 (extent us / 64 - 1) us
  | r => r

/-- Key of the block cache: context and level. -/
def cacheCtx (n : Inst) : Nat := n.ctx * 2 + (if n.ctl.cur then 1 else 0)

/-- The words of a block from the core's block cache, or fetched into it (R206, R285). -/
def blockWords (s : State) (n : Inst) (addr : Word) : State × Fetched :=
  match (s.core n.cluster).blocks.find? fun b => b.1 == cacheCtx n && b.2.1 == addr with
  | some b => (s, .ok b.2.2)
  | none =>
    match fetchWords s n false addr with
    | (s, .ok ws) =>
      ((s.countCore n.cluster 0x012 1).modCore n.cluster fun c => { c with blocks := c.blocks ++ [(cacheCtx n, addr, ws)] }, .ok ws)
    | (s, .fault c a) => (s.countCore n.cluster 0x012 1, .fault c a)
    | r => r

/-- A fault of the block that was to start: FAULTBLK names it (R33, R211). -/
def fetchFault (s : State) (i code slot : Nat) (addr : Word) : State :=
  s.modCtl i fun c => { c with due := some ⟨code, c.next, slot, addr, none, none, 0⟩ }

/-- A block fetched and checked, nothing of it started. -/
def Block.fresh (addr : Word) (ws : List Word) : Block :=
  { addr, words := ws, started := false, bound := false, slots := List.replicate (nslot ws) SlotRec.empty,
    writes := List.replicate (nwrite ws) none, exit := none, held := [], req := none, acts := [], divZero := false,
    runFrom := 0, excluded := 0 }

/-- The context stands at a boundary and no trap is to be taken there first (R380). -/
def Ctl.atBoundary (c : Ctl) : Bool :=
  c.blk.isNone && c.due.isNone && (c.async.isEmpty || c.cur) && c.wait.isEmpty

/-- The waits of a YIELD, TLBINV or BCINV are over, or there is none. -/
def Inst.mayFetch (n : Inst) : Bool := n.life == .running && n.ctl.atBoundary

/-- BLOCK_FETCH (R30 to R32, R206, R211): a miss asks for a walk, and the fetch is made anew once that has been made. -/
def execBlockFetch (i : Nat) (s : State) : Host.Outcome State Fault Refusal :=
  match s.inst? i with
  | none => .next s
  | some n =>
    if n.mayFetch && !s.walks.any (fun w => w.by_ == .fetch i) then
      match blockWords s n n.ctl.next with
      | (s, .miss va) => .next (askWalk s { by_ := .fetch i, ctx := n.ctx, as_ := .virt, va, cluster := n.cluster, cls := s.classOf n })
      | (s, .fault c a) => .next (fetchFault s i c 0 a)
      | (s, .ok ws) =>
        match decodeCheck ws n.ctl.cur n.reg.isSome with
        | some (c, k) => .next (fetchFault s i c k 0)
        | none => .next (s.modCtl i fun c => { c with blk := some (Block.fresh c.next ws) })
    else .next s

/-! ## BLOCK_START -/

/-- The registers that keep a block from starting while they are pending: those of its read entries, write entries and
token SELs (R270). -/
def awaitedRegs (ws : List Word) : List Nat :=
  ((List.range (nread ws)).map fun k => (readEntry ws k).1) ++ ((List.range (nwrite ws)).map fun k => writeReg ws k)
    ++ (slots ws).filterMap fun x => match x.2.2 with
      | .e e => if x.2.1.opc == 0x90 || x.2.1.opc == 0x92 || x.2.1.opc == 0x93 then some e.sel.toNat else none
      | _ => none

/-- The read entries' deliveries: each register as it stood before the block, to both targets (R200). -/
def readDeliveries (c : Ctl) (ws : List Word) : List (Target × Val) :=
  (List.range (nread ws)).flatMap fun k =>
    let e := readEntry ws k
    [(e.2.1, .val (c.reg e.1)), (e.2.2, .val (c.reg e.1))]

/-- The token registers of a REL record that the block reads: the read is an acquire at the record's scope, at least DIE, so
the data cache is invalidated in this step (R93, R95). -/
def acquireTokens (s : State) (i : Nat) (n : Inst) (ws : List Word) : State :=
  let rs := ((List.range (nread ws)).map fun k => (readEntry ws k).1).filter fun r => n.ctl.acq.getLsbD r
  if rs.isEmpty then s
  else (s.modCore n.cluster fun c => { c with cache := [] }).modCtl i fun c =>
    { c with acq := rs.foldl (fun a r => a &&& ~~~ BitVec.twoPow 64 r) c.acq }

/-- BLOCK_START (R200, R202, R270). Slots without required operands then fire in steps of their own. The loading of a
nest block's contexts begins with their own steps (CONFIG_FILL and NEST_START). -/
def execBlockStart (i : Nat) (s : State) : Host.Outcome State Fault Refusal :=
  match s.inst? i with
  | none => .next s
  | some n => match n.ctl.blk with
    | none => .next s
    | some b =>
      if n.canFire && !b.started && !(awaitedRegs b.words).any n.ctl.isPending then
        let (id, s) := (acquireTokens s i n b.words).takeFresh
        let s := s.modBlk i fun b => { b with started := true, runFrom := s.cycle, id }
        .next (deliverAll s i (readDeliveries n.ctl b.words))
      else .next s

end Sys2Proof.Machine
end

