-- ==== Sys2Proof/Machine/Order.lean ====
section
/-! DEFINITION. The ordering machine (R83 to R109): domains, outbound sets, what a read takes its bytes from, and the
step in which a write performs at its home, live barriers included (R114). -/

namespace Sys2Proof.Machine

open Sys2Proof.Bits

/-! ## Places and domains (R83, R85, R86) -/

/-- The clusters an agent stands on: a control context's core, every cluster a region spans; none for the others. -/
def State.clustersOf (s : State) : Agent → List Nat
  | .ctl i => ((s.inst? i).map fun n => [n.cluster]).getD []
  | .region i => (((s.inst? i).bind fun n => n.rect).map rectCores).getD []
  | _ => []

/-- The clusters of REGION scope: those of the region, or the core's for a context without one (R85). -/
def State.regionClusters (s : State) : Agent → List Nat
  | .ctl i => match s.inst? i with
    | some n => (n.rect.map rectCores).getD [n.cluster]
    | none => []
  | a => s.clustersOf a

/-- The dies an agent stands on. -/
def State.diesOf (s : State) : Agent → List Nat
  | .engine r => ((aget r s.recs).map fun x => [x.engine / 8]).getD []
  | a => ((s.clustersOf a).map dieOfCore).dedup

/-- An agent on no cluster: its narrow scopes act as DIE (R86). -/
def offCluster : Agent → Bool
  | .engine _ => true
  | _ => false

/-- The location is homed in dom(S, A) (R86). -/
def inDom (s : State) (a : Agent) (sc : Scope) (key : Nat) : Bool :=
  let h := homeOf key
  let narrow := fun (cs : List Nat) => match h with
    | .cab c => cs.contains c
    | _ => false
  let die := match h.die? with
    | some d => (s.diesOf a).contains d
    | none => false
  match sc with
  | .core => offCluster a && die
  | .region => if offCluster a then die else narrow (s.regionClusters a)
  | .cluster => if offCluster a then die else narrow (s.clustersOf a)
  | .die => die
  | .module => h.die?.isSome
  | .system => true

/-- The scope is CLUSTER or wider (R93, R97). -/
def clusterUp : Scope → Bool
  | .core => false
  | .region => false
  | _ => true

/-- An ordering code makes an acquire (R98). -/
def isAcq : MemOrd → Bool
  | .acq => true | .acqrel => true | .sc => true | _ => false

/-- An ordering code makes a release (R98). -/
def isRel : MemOrd → Bool
  | .rel => true | .acqrel => true | .sc => true | _ => false

/-- Every line of the core's data cache invalidated, for an acquire at CLUSTER scope or wider (R93). -/
def acquire (s : State) (core : Nat) (sc : Scope) : State :=
  if clusterUp sc then s.modCore core fun c => { c with cache := [] } else s

/-! ## Outbound sets -/

/-- An agent's outbound entries, in program order. -/
def State.outbOf (s : State) (a : Agent) : List Outb := s.outb.filter fun o => o.agent == a

/-- Kinds of a fence (R254): LL, LS, SL, SS. -/
def fLL (k : BitVec 4) : Bool := k.getLsbD 0
/-- Kind LS. -/
def fLS (k : BitVec 4) : Bool := k.getLsbD 1
/-- Kind SL. -/
def fSL (k : BitVec 4) : Bool := k.getLsbD 2
/-- Kind SS. -/
def fSS (k : BitVec 4) : Bool := k.getLsbD 3

/-- An earlier fence marker that names a store before (SL) holds a later read of its domain (R97). -/
def fenceHoldsRead (s : State) (a : Agent) (os : List Outb) (key : Nat) : Bool :=
  os.any fun o => match o.fence with
    | some (k, sc) => fSL k && inDom s a sc key
    | none => false

/-- An earlier fence marker that names SS holds a later write of its domain (R97). -/
def fenceHoldsWrite (s : State) (a : Agent) (os : List Outb) (key : Nat) : Bool :=
  os.any fun o => match o.fence with
    | some (k, sc) => fSS k && inDom s a sc key
    | none => false

/-- No write among `os` is homed in dom(S, A): a release at S may perform as far as those go (R92). -/
def releaseClear (s : State) (a : Agent) (os : List Outb) (sc : Scope) : Bool :=
  os.all fun o => o.fence.isSome || !inDom s a sc o.key

/-- The entries of `a` before the entry `id`. -/
def State.outbBefore (s : State) (a : Agent) (id : Nat) : List Outb :=
  (s.outbOf a).takeWhile fun o => o.id != id

/-- A write put at the end of an agent's outbound set, one entry a piece (R107). -/
def enterWrite (s : State) (a : Agent) (ps : List Piece) (data : List Byte) (rel : Option Scope) (poisoned : Bool)
    (ser : Nat := 0) (red : Option Nat := none) (seq : Nat := 0) (inst : Nat := 0) (queue : Nat := 0) (ctx : Nat := 0) : State :=
  let grp := s.fresh + 1
  (ps.foldl (fun (x : State × List Byte) p =>
    let (id, s) := x.1.takeFresh
    ({ s with outb := s.outb ++ [{ id, grp, agent := a, key := p.key, data := x.2.take p.n, rel, fence := none,
                                   poisoned, red, seq, inst, ctx, queue, ser }] }, x.2.drop p.n)) (s, data)).1

/-- A fence marker put at the end of an agent's outbound set (R255). -/
def enterFence (s : State) (a : Agent) (k : BitVec 4) (sc : Scope) : State :=
  let (id, s) := s.takeFresh
  { s with outb := s.outb ++ [{ id, grp := id, agent := a, key := 0, data := [], rel := none, fence := some (k, sc),
                                poisoned := false }] }

/-- A held store or marker of a block enters the outbound set (R100). -/
def enterHeld (s : State) (i : Nat) (ser : Nat) (h : Held) : State :=
  match h.fence with
  | some (k, sc) => enterFence s (.ctl i) k sc
  | none => enterWrite s (.ctl i) h.pieces h.data h.rel false ser

/-- Held entries in LSID order; the stores of a received token stand behind every LSID, at 32 (R257). -/
def byLsid (hs : List Held) : List Held := (List.range 33).flatMap fun l => hs.filter fun h => h.lsid == l

/-- The block's held entries with LSID below `limit` enter the outbound set in LSID order (R100, R101). -/
def enterBelow (s : State) (i limit : Nat) : State :=
  match (s.inst? i).bind fun n => n.ctl.blk with
  | none => s
  | some b =>
    let s := (byLsid (b.held.filter fun h => h.lsid < limit)).foldl (fun s h => enterHeld s i (if Layout.ser b.words then b.id + 1 else 0) h) s
    s.modBlk i fun b => { b with held := b.held.filter fun h => !(h.lsid < limit) }

/-- The LSID below which a block's stores enter at binding: that of an A or M side effect, all for format E (R101). -/
def sideLimit (b : Block) : Nat :=
  match b.req with
  | some q => match Layout.slot b.words q.slot with
    | some (_, f, _) => (Layout.lsidOf f).getD 32
    | none => 32
  | none => 32

/-- The block binds: its held stores below its side effect enter the outbound set in the same step (R101, R208). -/
def bindBlock (s : State) (i : Nat) : State :=
  match (s.inst? i).bind fun n => n.ctl.blk with
  | none => s
  | some b => if b.bound then s else (enterBelow s i (sideLimit b)).modBlk i fun b => { b with bound := true }

/-! ## Reads (R89) -/

/-- Bytes of a run with a write laid over them. -/
def overlay (key : Nat) (bs : List Byte) (wkey : Nat) (w : List Byte) : List Byte :=
  (indexed key bs).map fun x => if wkey ≤ x.1 ∧ x.1 < wkey + w.length then w.getD (x.1 - wkey) x.2 else x.2

/-- Every byte of the run is covered by some of the writes. -/
def coveredBy (key n : Nat) (ws : List (Nat × List Byte)) : Bool :=
  (List.range n).all fun j => ws.any fun w => w.1 ≤ key + j && key + j < w.1 + w.2.length

/-- The writes of an agent's outbound set as (key, bytes), oldest first. -/
def State.ownWrites (s : State) (a : Agent) : List (Nat × List Byte) :=
  (s.outbOf a).filterMap fun o => if o.fence.isSome then none else some (o.key, o.data)

/-- A held store's writes as (key, bytes), its pieces in order. -/
def heldWrites (h : Held) : List (Nat × List Byte) :=
  (h.pieces.foldl (fun (x : List (Nat × List Byte) × List Byte) p => (x.1 ++ [(p.key, x.2.take p.n)], x.2.drop p.n))
    ([], h.data)).1

/-- What a read of one piece takes: poisoned when a byte must come from a poisoned row or line at the home. -/
structure Taken where
  s : State
  bytes : List Byte
  poisoned : Bool

/-- A read event at the home under the reader's own unperformed writes, youngest last (R89 sources 2 and 4, R109). -/
def readHome (s : State) (own : List (Nat × List Byte)) (p : Piece) : Taken :=
  if coveredBy p.key p.n own then
    ⟨s, own.foldl (fun bs w => overlay p.key bs w.1 w.2) (List.replicate p.n 0), false⟩
  else
    let s := meetFlaws s p.key p.n
    ⟨s, own.foldl (fun bs w => overlay p.key bs w.1 w.2) (s.bytes p.key p.n), poisonedIn s.poison p.key p.n⟩

/-- A read that may use the core's data cache (R89 source 3, R96): a present line serves it; otherwise the home does,
and the line is placed in the cache with the value read in that step. -/
def readCached (s : State) (core : Nat) (own : List (Nat × List Byte)) (p : Piece) : Taken :=
  let line := p.key - p.key % 64
  match aget line (s.core core).cache with
  | some bs =>
    let mine := (bs.drop (p.key - line)).take p.n
    ⟨s, own.foldl (fun bs w => overlay p.key bs w.1 w.2) mine, false⟩
  | none =>
    let t := readHome s own p
    if t.poisoned || coveredBy p.key p.n own then t
    else { t with s := t.s.modCore core fun c => { c with cache := aset line (t.s.bytes line 64) c.cache } }

/-- A control core that has read a line at its home replaces the copy that its data cache holds, so that no later load
returns an older value (R91, R96). -/
def refreshLine (s : State) (core key : Nat) : State :=
  let line := key - key % 64
  if key < hbmEnd then s.modCore core fun c => { c with cache := amod line (fun _ => s.bytes line 64) c.cache } else s

/-- A read of a control core at the home (R89, R96). -/
def readPast (s : State) (core : Nat) (own : List (Nat × List Byte)) (p : Piece) : Taken :=
  let t := readHome s own p
  if t.poisoned || coveredBy p.key p.n own then t else { t with s := refreshLine t.s core p.key }

/-! ## Writes at the home (R90, R114) -/

/-- Result word of a barrier operation answered or released with BROKEN (R265, R266). -/
def brokenResult (phase : Nat) : Word := BitVec.ofNat 64 (2 ^ 63 + phase % 2 ^ 24)

/-- PHASE of a barrier's word 0 (R263). -/
def phaseOf (w0 : Nat) : Nat := bits w0 63 40

/-- The slots whose BARWAIT waits registered at a barrier: instance, slot, object, scope (R266). One whose phase has ended
holds its result in `got` and is registered until it performs (R104, R114). -/
def barrierWaiters (s : State) (key n : Nat) : List (Nat × Nat × Nat × Scope) :=
  s.insts.filterMap fun (x : Nat × Inst) => match x.2.ctl.blk with
    | some b => match b.req with
      | some ⟨k, .barrier .wait bk sc _, true⟩ =>
        if overlap bk 16 key n then some (x.1, k, bk, sc) else none
      | _ => none
    | none => none

/-- The targets of a slot of the block in flight. -/
def slotTargets (s : State) (i k : Nat) : List Target :=
  match (s.inst? i).bind fun n => n.ctl.blk with
  | some b => match Layout.slot b.words k with
    | some (row, f, _) => Rows.targets row f
    | none => []
  | none => []

/-- A request performed at its object: the block binds, the request is gone, and a value goes to the slot's first
target. -/
def answer (s : State) (i k : Nat) (v : Option Word) : State :=
  let s := bindBlock s i
  let s := (s.modBlk i fun b => { b with req := none }).modSlot i k fun r => { r with st := .done }
  match v, slotTargets s i k with
  | some v, t :: _ => deliver s i t (.val v)
  | _, _ => s

/-- A waiting BARWAIT released with a result: an acquire at its scope, in the releasing step (R266). -/
def releaseWaiter (s : State) (v : Word) (x : Nat × Nat × Nat × Scope) : State :=
  let s := answer s x.1 x.2.1 (some v)
  match s.inst? x.1 with
  | some n => acquire s n.cluster x.2.2.2
  | none => s

/-- Live barriers that a write touches are overwritten: BROKEN is set after the write's own bytes, and every waiter is
released with BROKEN and the PHASE bits as the write left them (R114, R266). -/
def breakBarriers (s : State) (key n : Nat) : State :=
  (barrierWaiters s key n).foldl (fun s x =>
    let bk := x.2.2.1
    let st := s.num8 (bk + 8)
    let s := s.putBytes (bk + 8) (leBytes 8 (st ||| 4))
    releaseWaiter s (brokenResult (phaseOf (s.num8 bk))) x) s

/-- One write event at a home slice (R84, R90): its bytes join, poison clears where it covers a row or line (R50),
pending write-backs of what it touches are dropped (R48), live barriers break (R114). -/
def homeWrite (s : State) (key : Nat) (bs : List Byte) : State :=
  breakBarriers (s.putBytes key bs) key bs.length

/-- A run copied from one home to another: its errors are met, and what comes from a poisoned row or line is poisoned in the
copy (R49, R128; for the save area log 98). -/
def copyRun (s : State) (src dst n : Nat) : State :=
  let s := meetFlaws s src n
  let bad := ((List.range n).filter fun k => s.poison.contains (granuleOf (src + k))).map fun k => granuleOf (dst + k)
  (homeWrite s dst (s.bytes src n)).repoison bad

/-- A write by a context of a core updates that core's present copy (R96). -/
def updateCache (s : State) (core key : Nat) (bs : List Byte) : State :=
  let upd := fun (x : Nat × List Byte) => if overlap x.1 64 key bs.length then (x.1, overlay x.1 x.2 key bs) else x
  s.modCore core fun c => { c with cache := c.cache.map upd }

/-- A control context's write event at its home. -/
def ctlWrite (s : State) (i key : Nat) (bs : List Byte) : State :=
  let s := homeWrite s key bs
  match s.inst? i with
  | some n => if key < hbmEnd then updateCache s n.cluster key bs else s
  | none => s

end Sys2Proof.Machine
end

