-- ==== Sys2Proof/Machine/MemOps.lean ====
section
/-! DEFINITION. LD, ST, PFT, FENCE and the atomics (R247 to R255), the reads of control contexts (READ_PERFORM for them),
HOME_ATOMIC_PERFORM, walks and fills, the data cache, write-backs and retention. -/

namespace Sys2Proof.Machine

open Sys2Proof.Bits Sys2Proof.Rows

/-! ## Translating a slot's access -/

/-- The address of an M or A slot (R214, R247). -/
def memAddr (f : MOp) (l : Word) : Word := l + sext f.off.toNat 24

/-- Bytes of SZ (R214). -/
def sizeBytes : Size → Nat
  | .b => 1 | .h => 2 | .w => 4 | .d => 8

/-- A walk for this slot is still asked for. -/
def walkPending (s : State) (i k : Nat) : Bool := s.walks.any fun w => w.by_ == .slot i k

/-- Outcome of a slot's translation. -/
inductive SlotX
  | ok (s : State) (ps : List Piece)
  | stop (s : State)             -- waits for a walk or a fill, or faulted

/-- Translation of a control slot's access (R30 to R34): a miss asks for a walk, or the fill of an allocation entry,
and the slot goes on once that has been made; a fault is raised before the block binds. An access whose slot has not
fired translates ahead: it stays in its state. -/
def slotXlate (s : State) (fr : Firing) (as_ : Space) (addr : Word) (n align : Nat) (a : Access) (fired : Bool := true) :
    SlotX :=
  if walkPending s fr.i fr.k then .stop s
  else match xlate s (some fr.n.cluster) fr.n.cluster (dieOfCore fr.n.cluster) fr.n.ctx as_ addr n 8 align a false with
  | (s, .ok ps) => .ok s ps
  | (s, .fault c fa) => .stop (fr.fault s c fa)
  | (s, .miss sp va) =>
    let s := askWalk s { by_ := .slot fr.i fr.k, ctx := fr.n.ctx, as_ := sp, va, cluster := fr.n.cluster
                         cls := s.classOf fr.n }
    .stop (s.modSlot fr.i fr.k fun r => { r with st := if fired && r.st == .waiting then .walking else r.st })

/-- A load's access at the context's level. -/
def loadAccess (n : Inst) : Access := ⟨.core, true, false, false, n.ctl.cur⟩
/-- A store's access. -/
def storeAccess (n : Inst) : Access := ⟨.core, false, true, false, n.ctl.cur⟩
/-- An atomic's or barrier operation's access. -/
def atomicAccess (n : Inst) : Access := ⟨.coreAtomic, true, true, false, n.ctl.cur⟩

/-! ## DEVICE accesses (R36) -/

/-- A slot is squashed or nullified. -/
def SlotRec.gone (r : SlotRec) : Bool := r.st == .squashed || r.st == .nullified

/-- A slot's record in a block. -/
def Block.rec_ (b : Block) (k : Nat) : SlotRec := b.slots.getD k SlotRec.empty

/-- Slots reached from slot `k` by paths of targets. -/
def reachedFromSlot (ws : List Word) (k : Nat) : List Nat :=
  let next := fun j => match Layout.slot ws j with
    | some (row, f, _) => (targets row f).filterMap fun t => match t with | .opnd m _ => some m.toNat | _ => none
    | none => []
  (List.range (Layout.nslot ws)).foldl (fun r _ => (r ++ r.flatMap next).dedup) (next k)

/-- Slot `k`'s results reach the address of a memory operation of the block. -/
def feedsAddress (ws : List Word) (k : Nat) : Bool :=
  (k :: reachedFromSlot ws k).any fun j => match Layout.slot ws j with
    | some (row, f, _) => (targets row f).any fun t => match t with
      | .opnd m .L => match Layout.slot ws m.toNat with
        | some (_, .m _, _) => true
        | _ => false
      | _ => false
    | none => false

/-- Another slot of the block has translated to a DEVICE page. -/
def otherDevice (b : Block) (k : Nat) : Bool :=
  (indexed 0 b.slots).any fun x => x.1 != k && !x.2.gone && x.2.pieces.any fun p => isDeviceKey p.key

/-- The DEVICE access of a slot meets another side effect of its block, or feeds an address (R36). -/
def deviceClash (b : Block) (k : Nat) (isLoad : Bool) : Bool :=
  b.req.isSome || otherDevice b k
    || (Layout.slots b.words).any (fun x => x.1 != k && x.2.1.side && !(b.rec_ x.1).gone)
    || (isLoad && feedsAddress b.words k)

/-- A slot's DEVICE access becomes the block's side effect, or the block is discarded with BLOCK_FORMAT (R36). Its pieces
are those of its tokens (R107), those of a second, ORDINARY page included. -/
def deviceRequest (s : State) (fr : Firing) (addr : Word) (ps : List Piece) (data : Option (List Byte)) : State :=
  if deviceClash fr.b fr.k data.isNone then fr.fault s codeBlockFormat addr
  else
    (s.modSlot fr.i fr.k fun r => { r with st := .queued, pieces := ps }).modBlk fr.i
      fun b => { b with req := some ⟨fr.k, .device ps data, false⟩ }

/-- Key of the first piece. -/
def firstKey (ps : List Piece) : Nat := (ps.head?.map fun p => p.key).getD 0

/-- Some piece is behind a DEVICE page. -/
def devicePieces (ps : List Piece) : Bool := ps.any fun p => isDeviceKey p.key

/-! ## LD, ST, PFT, FENCE -/

/-- LD (R248): translates; its read performs in READ_PERFORM. -/
def execLd (f : MOp) (s : State) : Host.Outcome State Fault Refusal :=
  fireOp 0x60 (.m f) s fun fr =>
    let addr := memAddr f fr.l
    let n := sizeBytes f.sz
    match slotXlate s fr f.as addr n 1 (loadAccess fr.n) with
    | .stop s => s
    | .ok s ps =>
      if devicePieces ps then deviceRequest s fr addr ps none
      else s.modSlot fr.i fr.k fun r => { r with st := .translated, pieces := ps }

/-- A store's data held in the block until commit or binding (R249). -/
def holdStore (s : State) (fr : Firing) (f : MOp) (addr : Word) (ps : List Piece) : State :=
  let data := leBytes (sizeBytes f.sz) fr.r.toNat
  if devicePieces ps then deviceRequest s fr addr ps (some data)
  else
    let h : Held := { lsid := f.lsid.toNat, slot := fr.k, pieces := ps, data, rel := if isRel f.ord then some f.scope else none, fence := none }
    (s.modSlot fr.i fr.k fun r => { r with st := .done, pieces := ps }).modBlk fr.i fun b => { b with held := b.held ++ [h] }

/-- Slot `k` cannot fire before a load performs that stands behind it and waits for its translation (R251): its other
operands come from such a load. -/
def waitsForLoad (b : Block) (k : Nat) : Bool :=
  let at_ := fun (f : Fields) => (Layout.lsidOf f).getD 32
  (Layout.slot b.words k).any fun y => (Layout.slots b.words).any fun x =>
    x.2.1.opc == 0x60 && at_ y.2.1 < at_ x.2.2 && !(b.rec_ x.1).gone && (b.rec_ x.1).st != .done
      && (reachedFromSlot b.words x.1).contains k

/-- A store or atomic slot (R204, R251): its address may translate before its other operands have arrived, so that a load
with a higher LSID can perform; `early` says what that leaves. A translation fault is raised when the slot fires, or at
once when the slot waits for such a load and so can never fire (R251, R267); `go` is the firing. -/
def fireMem (opc : Nat) (f : MOp) (s : State) (align : Nat) (a : Inst → Access) (go early : Firing → State → List Piece → State) :
    Host.Outcome State Fault Refusal :=
  match s.curSlot, rowOf opc with
  | some (n, b, r), some row =>
    let fr : Firing := ⟨s.cur.1, s.cur.2, n, b, r, valWord r.l, valWord r.r, valWord r.p⟩
    let x := fun (fired : Bool) => slotXlate s fr f.as (memAddr f fr.l) (sizeBytes f.sz) align (a n) fired
    if r.st = .waiting ∨ r.st = .walking ∨ r.st = .translated then
      match fate (needsOf row (.m f) b.words fr.k r) f.pr r.p with
      | .squash => .next (s.modSlot fr.i fr.k fun r => { r with st := .squashed })
      | .nullify => .next (deliverNull (s.modSlot fr.i fr.k fun r => { r with st := .nullified }) fr.i (targets row (.m f)))
      | .go =>
        if r.st = .translated then .next (go fr s r.pieces)
        else match x true with
          | .stop s => .next s
          | .ok s ps => .next (go fr s ps)
      | .wait =>
        match r.l with
        | some (.val _) =>
          if r.st = .translated ∨ (f.pr ≠ .always ∧ r.p.isNone) then .next s
          else match x false with
            | .ok s ps => .next (early fr s ps)
            | .stop s' => .next (if (s'.inst? fr.i).any (fun n => n.ctl.due.isSome) && !waitsForLoad b fr.k then s else s')
        | _ => .next s
    else .next s
  | _, _ => .next s

/-- A slot whose address has translated ahead of its firing. -/
def Firing.ahead (fr : Firing) (s : State) (ps : List Piece) : State :=
  s.modSlot fr.i fr.k fun r => { r with st := .translated, pieces := ps }

/-- ST (R249); the check of R36 stands at translation. -/
def execSt (f : MOp) (s : State) : Host.Outcome State Fault Refusal :=
  fireMem 0x61 f s 1 storeAccess (fun fr s ps => holdStore s fr f (memAddr f fr.l) ps) fun fr s ps =>
    if devicePieces ps && deviceClash fr.b fr.k false then fr.fault s codeBlockFormat (memAddr f fr.l)
    else fr.ahead s ps

/-- The physical address that a prefetch may ask for: its page is there, readable, ORDINARY and DEFAULT (R22, R35). -/
def prefetchPa (s : State) (fr : Firing) (f : MOp) : State × Option Nat :=
  let va := (memAddr f fr.l).toNat
  let hit := fun (e pa : Nat) =>
    if (checkLeaf e pa ⟨.prefetch, true, false, false, fr.n.ctl.cur⟩).isNone && bits e 9 8 == 0 then some pa else none
  if !canonical va || f.as != .virt then (s, none)
  else match tlbLookup s (some fr.n.cluster) (dieOfCore fr.n.cluster) fr.n.ctx va with
    | some x => (countMiss s (some fr.n.cluster) (dieOfCore fr.n.cluster) (some x.place), hit x.pte (x.phys + va % 2 ^ x.size))
    | none => match walk (countMiss s (some fr.n.cluster) (dieOfCore fr.n.cluster) none) fr.n.ctx va with
      | (s, .leaf e _ lg) => (s, hit e (bits e 51 16 * 65536 + va % 2 ^ lg))
      | (s, _) => (s, none)

/-- PFT (R35, R250): the line is asked for when its page is there, ORDINARY and DEFAULT; otherwise it is dropped. It
never faults and sets neither A nor D. A walk of its own waits for a walker (R31, R32). -/
def execPft (f : MOp) (s : State) : Host.Outcome State Fault Refusal :=
  fireOp 0x62 (.m f) s fun fr =>
    let va := (memAddr f fr.l).toNat
    let die := dieOfCore fr.n.cluster
    if f.as == .virt && canonical va && (tlbLookup s (some fr.n.cluster) die fr.n.ctx va).isNone && !mayWalk s die fr.n.ctx .virt va then s
    else match prefetchPa s fr f with
    | (s, some pa) => s.modSlot fr.i fr.k fun r => { r with st := .translated, pieces := [⟨pa - pa % 64, 64, true⟩] }
    | (s, none) => s.modSlot fr.i fr.k fun r => { r with st := .done }

/-- Every LD with a lower LSID has performed, or is squashed or nullified. -/
def loadsBelowDone (b : Block) (lsid : Nat) : Bool :=
  (Layout.slots b.words).all fun x => match Layout.lsidOf x.2.2 with
    | some l => !(x.2.1.opc == 0x60 && l < lsid) || (b.rec_ x.1).st == .done || (b.rec_ x.1).gone
    | none => true

/-- FENCE (R97, R254, R255): performs once every earlier load has; its marker is held at its LSID. A FENCE that names
LL alone at CLUSTER scope or wider invalidates the data cache in its own step. -/
def execFence (f : MOp) (s : State) : Host.Outcome State Fault Refusal :=
  fireOp 0x74 (.m f) s fun fr =>
    if loadsBelowDone fr.b f.lsid.toNat then
      let kinds : BitVec 4 := f.off.setWidth 4
      let s := if kinds = 1 then acquire s fr.n.cluster f.scope else s
      let h : Held := { lsid := f.lsid.toNat, slot := fr.k, pieces := [], data := [], rel := none, fence := some (kinds, f.scope) }
      (s.modSlot fr.i fr.k fun r => { r with st := .done }).modBlk fr.i fun b => { b with held := b.held ++ [h] }
    else s

/-! ## A control context's reads (READ_PERFORM; R89, R91, R93, R97, R251) -/

/-- Every store of the block below a FENCE that names SL stands outside the FENCE's domain (R97): one inside it is held
until the block binds or commits, so that a read behind the FENCE never performs. -/
def heldClear (s : State) (i : Nat) (b : Block) (lsid : Nat) (sc : Scope) : Bool :=
  (Layout.slots b.words).all fun x => match Layout.lsidOf x.2.2 with
    | some l =>
      let r := b.rec_ x.1
      !(x.2.1.opc == 0x61 && l < lsid) || r.gone
        || ((r.st == .done || r.st == .translated) && !r.pieces.any fun q => inDom s (.ctl i) sc q.key)
    | none => true

/-- A lower M or A slot lets a load of a piece perform (R251, R91, R93, R97). A lower load of a DEVICE page, its request
put, stands behind every other load of its block (R36, R83; log 105). -/
def lowerLets (s : State) (i : Nat) (b : Block) (k : Nat) (p : Piece) (x : Nat × Row × Fields) : Bool :=
  let r := b.rec_ x.1
  let meets := r.pieces.any fun q => overlap q.key q.n p.key p.n
  match x.2.2 with
  | .m f =>
    if r.gone then true
    else match x.2.1.opc with
    | 0x60 =>
      r.st == .done || r.st == .queued || (!(isAcq f.ord && inDom s (.ctl i) f.scope p.key)
        && (if r.st == .translated then !meets else (reachedFromSlot b.words k).contains x.1))
    | 0x61 => r.st == .done || r.st == .queued || (r.st == .translated && !meets)
    | 0x62 => true
    | 0x74 =>
      let kinds : BitVec 4 := f.off.setWidth 4
      !((fLL kinds || fSL kinds) && inDom s (.ctl i) f.scope p.key)
        || (r.st == .done && (!fSL kinds || (heldClear s i b f.lsid.toNat f.scope
              && releaseClear s (.ctl i) (s.outbOf (.ctl i)) f.scope)))
    | _ => r.st == .queued || r.st == .done || r.st == .translated
  | _ => true

/-- A read of the context of slot `k`, placed at `lsid` in its block, may perform on piece `p`. -/
def readMay (s : State) (i : Nat) (b : Block) (k lsid : Nat) (p : Piece) : Bool :=
  let a := Agent.ctl i
  ((Layout.slots b.words).all fun x => match Layout.lsidOf x.2.2 with
    | some l => !(l < lsid) || lowerLets s i b k p x
    | none => true)
  && !fenceHoldsRead s a (s.outbOf a) p.key
  && !s.asleep p.key
  && (!Layout.ser b.words || (s.outbOf a).isEmpty)

/-- The writes that a context's read at `lsid` sees before memory: its outbound set, then its held stores with lower
LSID in LSID order (R89). -/
def ctlOwn (s : State) (i : Nat) (b : Block) (lsid : Nat) : List (Nat × List Byte) :=
  s.ownWrites (.ctl i) ++ (byLsid (b.held.filter fun h => h.lsid < lsid && h.fence.isNone)).flatMap heldWrites

/-- The piece that a read performs next: the first not read, in ascending order (R107). -/
def nextPiece (r : SlotRec) : Option Piece :=
  let rec go : List Piece → Nat → Option Piece
    | [], _ => none
    | p :: ps, got => if got < p.n then some p else go ps (got - p.n)
  go r.pieces r.got.length

/-- Bytes that all pieces hold. -/
def piecesLen (ps : List Piece) : Nat := ps.foldl (fun n p => n + p.n) 0

/-- The value of a load's bytes (R248). -/
def loadValue (f : MOp) (bs : List Byte) : Word :=
  let k := 8 * sizeBytes f.sz
  if f.sg then sext (leNat bs) k else zext (leNat bs) k

/-- READ_PERFORM of an LD: its next piece (R89, R93, R96, R248). Only ORD = ACQ makes it an acquire: a plain load of a
record's COMPL value or of a word with OWN clear is none (DESIGN CHOICE, log 106; R95 can be read either way). -/
def performLoad (s : State) (i k : Nat) (n : Inst) (b : Block) (r : SlotRec) (f : MOp) (p : Piece) : State :=
  let own := ctlOwn s i b f.lsid.toNat
  let t := if p.cache && f.ord == .plain then readCached s n.cluster own p else readPast s n.cluster own p
  if t.poisoned then raise t.s i codePoison k (memAddr f (valWord r.l) + BitVec.ofNat 64 r.got.length)
  else
    let s := if f.ord == .acq then acquire t.s n.cluster f.scope else t.s
    let got := r.got ++ t.bytes
    if got.length < piecesLen r.pieces then s.modSlot i k fun r => { r with got := got }
    else deliver (s.modSlot i k fun r => { r with got := got, st := .done }) i f.t1 (.val (loadValue f got))

/-- READ_PERFORM of a PFT: the line's home value goes to the cache (R250). -/
def performPrefetch (s : State) (i k : Nat) (n : Inst) (p : Piece) : State :=
  let t := readHome s [] p
  let s := t.s.modSlot i k fun r => { r with st := .done }
  if t.poisoned then s else s.modCore n.cluster fun c => { c with cache := aset p.key t.bytes c.cache }

/-- READ_PERFORM of the 8-byte reads of a CHSEND token: they stand after every M and A slot (R257). With the last one
the request goes to the controller. -/
def performToken (s : State) (i k core : Nat) (b : Block) (r : SlotRec) (p : Piece) : State :=
  let t := readPast s core (ctlOwn s i b 32) p
  if t.poisoned then raise t.s i codePoison k (valWord r.r + BitVec.ofNat 64 r.got.length)
  else
    let got := r.got ++ t.bytes
    if got.length < piecesLen r.pieces then t.s.modSlot i k fun r => { r with got := got }
    else if b.req.isSome then raise t.s i codeBlockFormat k 0
    else
      let s := t.s.modSlot i k fun r => { r with got := got, st := .queued }
      s.modBlk i fun b => { b with req := some ⟨k, .chan .send (valWord r.l) got [], false⟩ }

/-- READ_PERFORM of a control context, slot `k`: the next piece of its read, when it may perform. -/
def readCtl (s : State) (i k : Nat) : State :=
  match s.inst? i with
  | none => s
  | some n => match n.ctl.blk with
    | none => s
    | some b =>
      let r := b.rec_ k
      match Layout.slot b.words k, nextPiece r with
      | some (row, .m f, _), some p =>
        if !n.canFire || r.st != .translated then s
        else if row.opc = 0x60 then
          if readMay s i b k f.lsid.toNat p then performLoad s i k n b r f p else s
        else if row.opc = 0x62 then if s.asleep p.key then s else performPrefetch s i k n p
        else s
      | some (row, _, _), some p =>
        if row.opc = 0x78 ∧ n.canFire ∧ r.st = .translated ∧ readMay s i b k 32 p then performToken s i k n.cluster b r p else s
      | _, _ => s

/-! ## The block's side effect (R101, R208) -/

/-- CHLEN, SEMREAD and XSTAT, which perform before their block binds (R259, R262, R276). -/
def readsBeforeBinding (row : Row) : Bool := row.opc == 0x7B || row.opc == 0x82 || row.opc == 0x94

/-- LSID of the block's slot `k`; 32 for one that stands after every M and A slot. -/
def lsidAt (b : Block) (k : Nat) : Nat :=
  match Layout.slot b.words k with
  | some (_, f, _) => (Layout.lsidOf f).getD 32
  | none => 32

/-- A slot other than the side effect at `k` lets it perform: memory operations have translated, loads have performed,
and WAITEV, FWAIT, ACCR, ACCD, FRUN and the reads before binding have fired (R36, R101, R208). A store below it is held
by then, so that it enters at binding (R101); only one whose data comes from the side effect itself, a DEVICE load, may
come later. A PFT delays nothing (R250). A FENCE after a DEVICE load in the block waits for that load and does not hold
it (R255). -/
def sideLets (b : Block) (k : Nat) (x : Nat × Row × Fields) : Bool :=
  let r := b.rec_ x.1
  if r.gone then true
  else match x.2.1.opc with
    | 0x60 => r.st == .done
    | 0x61 => r.st == .done
      || (r.st == .translated && (lsidAt b k < lsidAt b x.1 || (reachedFromSlot b.words k).contains x.1))
    | 0x62 => true
    | 0x74 => r.st == .done || lsidAt b k < lsidAt b x.1
    | _ => if waitsBeforeBinding x.2.1 || readsBeforeBinding x.2.1 then r.st == .done else true

/-- A nest block commits only while the region is idle (R291). -/
def nestClear (n : Inst) (b : Block) : Bool := !Layout.isNest b.words || regionIdle n

/-- The side effect at slot `k` may perform as far as its block goes (R101, R208, SER of R198). That of a nest block waits for
the region to be idle: a bound block waits for nothing but its own slots (R389), and a nest block commits only then. -/
def sideReady (s : State) (i : Nat) (b : Block) (k : Nat) : Bool :=
  b.bound || ((Layout.slots b.words).all (fun x => x.1 == k || sideLets b k x)
    && (!Layout.ser b.words || (s.outbOf (.ctl i)).isEmpty) && (s.inst? i).all fun n => nestClear n b)

/-- A block's request has left the core and is not decided (R209, R424): nothing in the block keeps it back any more. -/
def undecided (s : State) (i : Nat) (b : Block) : Bool :=
  match b.req with
  | some q => !b.bound && !q.req.withdrawable && sideReady s i b q.slot
  | none => false

/-- A release by a control context at a scope may perform: nothing of its outbound set is homed in its domain (R92). -/
def ctlReleaseClear (s : State) (i : Nat) (sc : Scope) : Bool := releaseClear s (.ctl i) (s.outbOf (.ctl i)) sc

/-- A side-effect request of a slot put at its object. -/
def putRequest (s : State) (fr : Firing) (q : Req) : State :=
  if fr.b.req.isSome then fr.fault s codeBlockFormat 0
  else (s.modSlot fr.i fr.k fun r => { r with st := .queued }).modBlk fr.i fun b => { b with req := some ⟨fr.k, q, false⟩ }

/-- A request refused at its object: nothing of it performs, and the block is discarded with the fault (R424). -/
def refuse (s : State) (i k code : Nat) (addr : Word) : State :=
  raise (s.modBlk i fun b => { b with req := none }) i code k addr

/-! ## Atomics (R252, R253) -/

/-- An atomic slot: translates, ahead of its other operands if they are late, and its request goes to the home (R251,
R252). -/
def atomicOp (opc : Nat) (op : AtomicOp) (f : MOp) (s : State) : Host.Outcome State Fault Refusal :=
  fireMem opc f s (sizeBytes f.sz) atomicAccess (fun fr s ps =>
    putRequest s fr (.atomic op ⟨firstKey ps, sizeBytes f.sz, (ps.head?.map fun p => p.cache).getD false⟩ fr.r fr.p f.ord f.scope))
    Firing.ahead

/-- AADD. -/
def execAadd (f : MOp) (s : State) : Host.Outcome State Fault Refusal := atomicOp 0x68 .add f s
/-- AAND. -/
def execAand (f : MOp) (s : State) : Host.Outcome State Fault Refusal := atomicOp 0x69 .and f s
/-- AOR. -/
def execAor (f : MOp) (s : State) : Host.Outcome State Fault Refusal := atomicOp 0x6A .or f s
/-- AXOR. -/
def execAxor (f : MOp) (s : State) : Host.Outcome State Fault Refusal := atomicOp 0x6B .xor f s
/-- AMIN. -/
def execAmin (f : MOp) (s : State) : Host.Outcome State Fault Refusal := atomicOp 0x6C .min f s
/-- AMAX. -/
def execAmax (f : MOp) (s : State) : Host.Outcome State Fault Refusal := atomicOp 0x6D .max f s
/-- AMINU. -/
def execAminu (f : MOp) (s : State) : Host.Outcome State Fault Refusal := atomicOp 0x6E .minu f s
/-- AMAXU. -/
def execAmaxu (f : MOp) (s : State) : Host.Outcome State Fault Refusal := atomicOp 0x6F .maxu f s
/-- ASWP. -/
def execAswp (f : MOp) (s : State) : Host.Outcome State Fault Refusal := atomicOp 0x70 .swp f s
/-- ACAS. -/
def execAcas (f : MOp) (s : State) : Host.Outcome State Fault Refusal := atomicOp 0x71 .cas f s

/-- The new value of an atomic of `n` bits (R252). -/
def atomicNew (op : AtomicOp) (n a b : Nat) : Nat :=
  match op with
  | .add => (a + b) % 2 ^ n
  | .and => a &&& b
  | .or => a ||| b
  | .xor => a ^^^ b
  | .min => if sextI a n ≤ sextI b n then a else b
  | .max => if sextI a n ≤ sextI b n then b else a
  | .minu => min a b
  | .maxu => max a b
  | .swp => b
  | .cas => b

/-- The atomic's step at its home (R252): old value read, new one written unless an ACAS fails; the old value answers.
The core's copy is replaced, and an acquire invalidates the data cache (R91, R93, R96). -/
def performAtomic (s : State) (i k : Nat) (op : AtomicOp) (p : Piece) (v c : Word) (ord : MemOrd) (sc : Scope) : State :=
  let n := 8 * p.n
  let a := leNat (s.bytes p.key p.n)
  let s := if op == .cas && a != c.toNat % 2 ^ n then s
           else ctlWrite s i p.key (leBytes p.n (atomicNew op n a (v.toNat % 2 ^ n)))
  let s := match s.inst? i with
    | some ins =>
      let s := refreshLine s ins.cluster p.key
      if isAcq ord then acquire s ins.cluster sc else s
    | none => s
  answer s i k (some (BitVec.ofNat 64 a))

/-- An operation of a context's block on a run of bytes at their home may perform as far as its agent's order goes (R91,
R92, R97, R98). -/
def objectMay (s : State) (i key n : Nat) (rel : Bool) (sc : Scope) (isSc : Bool) : Bool :=
  let a := Agent.ctl i
  let os := s.outbOf a
  !(os.any fun o => o.fence.isNone && overlap o.key o.data.length key n)
    && (!rel || releaseClear s a os sc) && (!isSc || os.isEmpty)
    && !fenceHoldsRead s a os key && !fenceHoldsWrite s a os key

/-- What the home of a side effect does with its request at this moment. -/
inductive Turn
  | wait (s : State)             -- its agent's order keeps it back
  | poison (s : State)           -- the row or line is poisoned
  | go (s : State)               -- it performs: the block has bound
  deriving DecidableEq, Repr

/-- Poison in a run that the block's own held stores do not replace as they perform: one that covers a whole row clears
it (R50). -/
def poisonLeft (s : State) (b : Block) (key n : Nat) : Bool :=
  s.poison.any fun g => g < key + n && key < g + granule g
    && !(b.held.any fun h => (heldWrites h).any fun w => w.1 ≤ g && g + granule g ≤ w.1 + w.2.length)

/-- The turn of a side effect on a run of bytes (R91, R92, R101, R252). It performs as soon as its order lets it, and the
block binds in that step. When stores that the block still holds, and they alone, keep it back (bytes in common, or a
release), the block binds first, so that they enter the outbound set, and it performs in a later step. An operation that
reads the bytes (`reads`) meets their errors, and poison refuses it before its block binds. -/
def objectTurn (s : State) (i : Nat) (b : Block) (key n : Nat) (rel : Bool) (sc : Scope) (isSc reads : Bool) : Turn :=
  let may := objectMay (bindBlock s i) i key n rel sc isSc
  if may || (!b.bound && objectMay s i key n rel sc isSc) then
    let s := if reads then meetFlaws s key n else s
    if reads && poisonLeft s b key n then .poison s
    else if may then .go (bindBlock s i)
    else .wait (bindBlock s i)
  else .wait s

/-- A side effect refused at its object (R252, R424): an unbound block is discarded with the fault. A block already bound
by its stores' entry (`objectTurn`), whose object was poisoned since, ends as R209 says of a fault after binding (DESIGN
CHOICE, log 28). -/
def refuseEither (s : State) (i k : Nat) (b : Block) (code : Nat) (addr : Word) : State :=
  if b.bound then
    raise ((s.modBlk i fun b => { b with req := none }).modSlot i k fun r => { r with st := .done }) i code k addr
  else refuse s i k code addr

/-- The address of an M or A slot from its operand. -/
def memAddrOf (b : Block) (k : Nat) : Word :=
  match Layout.slot b.words k with
  | some (_, .m f, _) => memAddr f (valWord (b.rec_ k).l)
  | _ => 0

/-- HOME_ATOMIC_PERFORM (R98, R101, R252, R424): the home decides the request. -/
def execHomeAtomicPerform (i : Nat) (s : State) : Host.Outcome State Fault Refusal :=
  match (s.inst? i).bind fun n => n.ctl.blk with
  | none => .next s
  | some b => match b.req with
    | some ⟨k, .atomic op p v c ord sc, _⟩ =>
      if !sideReady s i b k || s.asleep p.key then .next s
      else match objectTurn s i b p.key p.n (isRel ord) sc (ord == .sc) true with
        | .wait s => .next s
        | .poison s => .next (refuseEither s i k b codePoison (memAddrOf b k))
        | .go s => .next (performAtomic s i k op p v c ord sc)
    | _ => .next s

/-! ## Walks and fills -/

/-- The binding whose port asked for a walk, with the iteration: of a source read, or of a sink write that is held. -/
def askerOf (s : State) (i id : Nat) : Option (Nat × Nat) :=
  ((s.inst? i).bind fun n => n.reg).bind fun r =>
    match r.reads.find? fun x => x.id == id with
    | some x => some (x.bind, x.iter)
    | none => r.iters.findSome? fun it => it.holds.findSome? fun h => match h with
      | .write k b _ _ _ _ _ _ => if k = id then some (b, it.n) else none
      | _ => none

/-- A fault of a walk for a region's port: its iteration is discarded (R33). -/
def portWalkFault (s : State) (i id code : Nat) (va : Nat) : State :=
  let at_ := askerOf s i id
  let b := (((s.inst? i).bind fun n => n.reg).bind fun r => r.nest.bind fun n => at_.bind fun x => n.binds[x.1]?).getD []
  regionFault s i code (BitVec.ofNat 64 va) (feArg s i (Descr.col b) (Descr.row b)) (at_.map fun x => x.2) (code != codeDataErr)

/-- A fault of a walk or fill reaches who asked: a block's slot, or a region with the vector of the iteration. A slot that
has not fired is not faulted: it translates again when it fires (R204), unless it can never fire (`waitsForLoad`). -/
def walkFault (s : State) (w : WalkReq) (core port : Nat) : State :=
  match w.by_ with
  | .fetch i => if (s.inst? i).any Inst.mayFetch then fetchFault s i core 0 (BitVec.ofNat 64 w.va) else s
  | .slot i k =>
    let fired := (((s.inst? i).bind fun n => n.ctl.blk).map fun b =>
      (b.rec_ k).st != .waiting || waitsForLoad b k).getD false
    if fired then raise s i core k (BitVec.ofNat 64 w.va) else s
  | .source i id => portWalkFault s i id port w.va
  | .sink i id => portWalkFault s i id port w.va

/-- PAGE_WALK (R17, R20, R24, R31): request `n` of those with a walker. Its leaf is installed with A set, and all who wait
for the page from that die go on; an invalid entry or a poisoned table is a fault of theirs. -/
def execPageWalk (n : Nat) (s : State) : Host.Outcome State Fault Refusal :=
  match s.walks[n]? with
  | none => .next s
  | some w =>
    if w.as_ ≠ .virt ∨ !w.run then .next s
    else
      let die := dieOfCore w.cluster
      let mine := s.walks.filter (sameWalk w)
      match walk (endWalks s w) w.ctx w.va with
      | (s, .absent) => .next (mine.foldl (fun s x => walkFault s x codePageAbsent codePageAbsent) s)
      | (s, .poisoned) => .next (mine.foldl (fun s x => walkFault s x codePoison codeDataErr) s)
      | (s, .leaf e addr lg) => .next (installLeaf s (some w.cluster) die w.ctx w.va e addr lg false).1

/-- WARDROBE_ENTRY_FILL (R29, R31): the allocation entry is read at its home and installed in both TLBs; an invalid one
is a fault of who waits for it. -/
def execWardrobeEntryFill (cluster : Nat) (ctx : BitVec 8) (page : Nat) (s : State) : Host.Outcome State Fault Refusal :=
  let w : WalkReq := { by_ := .fetch 0, ctx := ctx.toNat, as_ := .war, va := page * 0x100000, cluster }
  let mine := s.walks.filter (sameWalk w)
  if mine.isEmpty ∨ 1024 ≤ page then .next s
  else match watFill (endWalks s w) (some cluster) (dieOfCore cluster) ctx.toNat page with
    | (s, none) => .next (mine.foldl (fun s x => walkFault s x codePoison codeDataErr) s)
    | (s, some e) =>
      if bit e 15 && bits e 13 10 == 0 then .next s
      else .next (mine.foldl (fun s x => walkFault s x codePageAbsent codePageAbsent) s)

/-! ## Data cache, write-backs, retention -/

/-- CACHE_LINE_DROP (R96): a copy may leave the cache at any step. -/
def execCacheLineDrop (core line : Nat) (s : State) : Host.Outcome State Fault Refusal :=
  .next (s.modCore core fun c => { c with cache := adel line c.cache })

/-- ECC_WRITEBACK (R48): the bank writes the corrected row or line back; the bytes are as they were read. -/
def execEccWriteback (key : Nat) (s : State) : Host.Outcome State Fault Refusal :=
  .next { s with writebacks := s.writebacks.erase key }

/-- An instance's region holds the FEs of its rectangle (R51): until it has ended, or its control context and FEs are
saved or parked (R391). -/
def Inst.holdsFes (n : Inst) : Bool :=
  match n.life with
  | .running => true
  | .stopping => true
  | .saving => !n.regDone
  | _ => false

/-- An array that no agent uses (R51): a shelf no region holds, a cabinet slice no context's window on its die
overlaps, a wardrobe slice that holds no page of a cached or tabled allocation; and no buffer of a channel lies in it. -/
def arrayUnused (s : State) (a : ArrayId) : Bool :=
  !(s.chans.any fun (x : Nat × Chan) => x.2.bufferArrays.contains a) && match a with
  | .shelf fe => !(s.insts.any fun (x : Nat × Inst) => x.2.holdsFes && match x.2.rect with
      | some r => (rectCells r).any fun c => feIndex c.1 c.2 == fe
      | none => false)
  | .cabSlice c sl => !(s.contexts.any fun (x : Nat × Context) =>
      let w := x.2.desc.windows.getD (dieOfCore c) (0, 0)
      w.2 != 0 && w.1.toNat < 8 * sl + 8 && 8 * sl < w.1.toNat + w.2.toNat)
  | .warSlice d sl => !(s.contexts.any fun (x : Nat × Context) => (List.range 1024).any fun p =>
      let e := leNat (s.bytes (x.2.desc.wat.toNat * 2048 + 2 * p) 2)
      bit e 15 && bits e 9 7 == d && bits e 6 0 / 4 == sl)

/-- RETENTION_ENTRY (R51, R402): the leaf of an unused array is commanded, and the array starts to re-encode. -/
def execRetentionEntry (a : ArrayId) (s : State) : Host.Outcome State Fault Refusal :=
  let t := commandAll s (leafOfArray a) (.sleep a)
  when_ (arrayUnused s a && !(s.retention.any fun r => r.1 == a) && canCommand s (leafOfArray a)) s
    { t with retention := t.retention ++ [(a, .entering t.cycle)] }

/-- The rows of an array that have been re-encoded meet the errors that they had in the active code (R48, R49, R52). -/
def reencode (s : State) (a : ArrayId) : State :=
  meetWhere false s fun f => arrayOf f.key == some a && !f.retained && s.reencoded f.key

/-- RETENTION_ENTRY_DONE (R51, R52): every row is re-encoded; the data is kept. -/
def execRetentionEntryDone (a : ArrayId) (s : State) : Host.Outcome State Fault Refusal :=
  let done := s.retention.any fun r => r.1 == a && match r.2 with
    | .entering t => t + retentionCycles a ≤ s.cycle
    | _ => false
  when_ done s (reencode { s with retention := s.retention.map fun r => if r.1 == a then (a, .retained) else r } a)

/-- An array in retention, or entering it. -/
def mayWake (s : State) (a : ArrayId) : Bool :=
  s.retention.any fun r => r.1 == a && match r.2 with
    | .leaving _ _ => false
    | _ => true

/-- RETENTION_EXIT (R51, R53, R402): the array's leaf is commanded, and it converts back; during entry it goes back from the
row reached, and the other rows are untouched. -/
def execRetentionExit (a : ArrayId) (s : State) : Host.Outcome State Fault Refusal :=
  let exit := fun (r : ArrayId × Retention) => match r.2 with
    | .entering t =>
      let rows := min ((s.cycle - t) / rowCycles a) (bankRows a)
      (a, .leaving (s.cycle + rows * rowCycles a) rows)
    | .retained => (a, .leaving (s.cycle + retentionCycles a) (bankRows a))
    | .leaving t k => (a, .leaving t k)
  let t := reencode (commandAll s (leafOfArray a) (.wake a)) a
  when_ (mayWake s a && canCommand s (leafOfArray a)) s
    { t with retention := t.retention.map fun r => if r.1 == a then exit r else r }

/-- The stored errors of the rows that an array's exit converts back are met: up to two wrong bits of a row are
corrected, and a row with three is poisoned and logged (R52). DESIGN CHOICE (log 80): a correction at the exit counts as
event 0x030 like that of a read; R52 does not say. -/
def exitFlaws (s : State) (a : ArrayId) : State :=
  meetWhere false s fun f => arrayOf f.key == some a && s.reencoded f.key

/-- RETENTION_EXIT_DONE (R52, R53): exit has completed; accesses that waited proceed. -/
def execRetentionExitDone (a : ArrayId) (s : State) : Host.Outcome State Fault Refusal :=
  let done := s.retention.any fun r => r.1 == a && match r.2 with
    | .leaving t _ => t ≤ s.cycle
    | _ => false
  let met := exitFlaws s a
  when_ done s { met with
    retention := met.retention.filter fun r => !(r.1 == a)
    flaws := met.flaws.map fun f => if arrayOf f.key == some a then { f with retained := false } else f }

/-! ## A control context's writes (WRITE_PERFORM; R90 to R92, R97, R107) -/

/-- An outbound write may perform: earlier writes to a common byte have (R91), the piece before it of its access has
(R107, R108), a release waits for its domain (R92), and fence markers before it let it (R97). A store of a block with SER lets every earlier access of its context perform first (R198). -/
def writeMay (s : State) (o : Outb) : Bool :=
  let before := s.outbBefore o.agent o.id
  !(before.any fun x => x.fence.isNone && (overlap x.key x.data.length o.key o.data.length || x.grp == o.grp))
    && (match o.rel with
      | some sc => releaseClear s o.agent before sc
      | none => true)
    && (o.ser == 0 || before.all fun x => x.ser == o.ser)
    && !fenceHoldsWrite s o.agent before o.key && !s.asleep o.key

/-- The entry taken out of the outbound set. -/
def dropOutb (s : State) (id : Nat) : State := { s with outb := s.outb.filter fun o => o.id != id }

/-- A fence marker's step (R97, R255): once the earlier accesses of its domain have performed, it leaves; for LL or SL
at CLUSTER scope or wider the data cache is invalidated, LL alone having done so in the FENCE's step. -/
def performMarker (s : State) (o : Outb) (k : BitVec 4) (sc : Scope) : State :=
  if releaseClear s o.agent (s.outbBefore o.agent o.id) sc then
    let s := dropOutb s o.id
    match o.agent with
    | .ctl i => match s.inst? i with
      | some n => if (fLL k || fSL k) && k != 1 then acquire s n.cluster sc else s
      | none => s
    | _ => s
  else s

end Sys2Proof.Machine
end

