-- ==== Sys2Proof/Machine/Sync.lean ====
section
/-! DEFINITION. Semaphores and barriers (R261 to R266): SEMWAIT, SEMPOST, SEMREAD, BARINIT, BARARR, BARWAIT, and the
steps BARRIER_OP_PERFORM and BARWAIT_POLL of their home. -/

namespace Sys2Proof.Machine

open Sys2Proof.Bits Sys2Proof.Rows

/-! ## Semaphores (R261, R262) -/

/-- A semaphore that firmware has not allocated. -/
def Sem.fresh : Sem := ⟨0, none, [], []⟩

/-- Semaphore `k` of a core. -/
def State.sem (s : State) (core k : Nat) : Sem := agetD Sem.fresh k (s.core core).sems

/-- The state with semaphore `k` of a core changed. -/
def State.modSem (s : State) (core k : Nat) (f : Sem → Sem) : State :=
  s.modCore core fun c => { c with sems := aset k (f (agetD Sem.fresh k c.sems)) c.sems }

/-- A context owns a semaphore or has been granted it (R261). -/
def Sem.allows (m : Sem) (ctx : Nat) : Bool :=
  m.owner == some (BitVec.ofNat 8 ctx) || m.grants.contains (BitVec.ofNat 8 ctx)

/-- A saturating addition to a semaphore; a saturated one is counted at the die (R262). -/
def semAdd (s : State) (core k n : Nat) : State :=
  let c := (s.sem core k).count.toNat + n
  let s := s.modSem core k fun m => { m with count := BitVec.ofNat 32 (min c (2 ^ 32 - 1)) }
  if 2 ^ 32 - 1 < c then s.countDie (dieOfCore core) 0x052 1 else s

/-- SEMWAIT's decrement is possible for slot `k` of instance `i`: it stands first among the waiters, or nobody waits. -/
def semFirst (m : Sem) (i k : Nat) : Bool :=
  match m.waiters with
  | [] => true
  | w :: _ => w.inst == i && w.slot == k

/-- SEMWAIT (R262): waits unbound for the count, in order of arrival; the decrement binds the block and is an acquire. -/
def execSemwait (f : EOp) (s : State) : Host.Outcome State Fault Refusal :=
  fireOp 0x80 (.e f) s fun fr =>
    let core := fr.n.cluster
    let k := f.sel.toNat
    let m := s.sem core k
    let c := f.imm.toNat
    if fr.rec_.st == .waiting && !m.allows fr.n.ctx then fr.fault s codePageDenied 0
    else if !sideReady s fr.i fr.b fr.k || !m.allows fr.n.ctx then s.modSlot fr.i fr.k fun r => { r with st := .blocked }
    else if semFirst m fr.i fr.k && c ≤ m.count.toNat then
      let left := m.count - BitVec.ofNat 32 c
      let s := bindBlock s fr.i
      let s := s.modSem core k fun m =>
        { m with count := left, waiters := m.waiters.filter fun w => !(w.inst == fr.i && w.slot == fr.k) }
      fr.done (acquire s core f.scope) [f.t1] (left.setWidth 64)
    else
      let s := s.modSem core k fun m =>
        if m.waiters.any (fun w => w.inst == fr.i && w.slot == fr.k) then m
        else { m with waiters := m.waiters ++ [⟨fr.i, fr.k, c⟩] }
      s.modSlot fr.i fr.k fun r => { r with st := .blocked }

/-- SEMPOST (R262): a release at its scope; it adds, and binds the block, once its domain is clear. Stores that only the
block itself holds back enter first, at the block's binding (R101). Its semaphore is checked as the slot fires (R261). -/
def execSempost (f : EOp) (s : State) : Host.Outcome State Fault Refusal :=
  fireOp 0x81 (.e f) s fun fr =>
    if fr.rec_.st == .waiting && !(s.sem fr.n.cluster f.sel.toNat).allows fr.n.ctx then fr.fault s codePageDenied 0
    else if !sideReady s fr.i fr.b fr.k then s.modSlot fr.i fr.k fun r => { r with st := .blocked }
    else
      let wait := fun (s : State) => s.modSlot fr.i fr.k fun r => { r with st := .blocked }
      let t := bindBlock s fr.i
      if ctlReleaseClear t fr.i f.scope then fr.doneAll (semAdd t fr.n.cluster f.sel.toNat f.imm.toNat) []
      else if ctlReleaseClear s fr.i f.scope then wait t
      else wait s

/-- SEMREAD (R262): reads the count with no ordering. -/
def execSemread (f : EOp) (s : State) : Host.Outcome State Fault Refusal :=
  fireOp 0x82 (.e f) s fun fr =>
    let m := s.sem fr.n.cluster f.sel.toNat
    if !m.allows fr.n.ctx then fr.fault s codePageDenied 0
    else fr.done s [f.t1] (m.count.setWidth 64)

/-! ## Barrier objects (R57, R263) -/

/-- Word 0 of a barrier. -/
def barWord0 (s : State) (key : Nat) : Nat := s.num8 key
/-- STATUS of a barrier. -/
def barStatus (s : State) (key : Nat) : Nat := s.num8 (key + 8)
/-- N of word 0. -/
def barN (w0 : Nat) : Nat := bits w0 39 20
/-- REMAIN of word 0. -/
def barRemain (w0 : Nat) : Nat := bits w0 19 0

/-- Word 0 from its fields. -/
def barMake (phase n remain : Nat) : Nat := phase * 2 ^ 40 + n * 2 ^ 20 + remain

/-- A barrier operation's or arrival's own write to the object: never an overwrite (R114). -/
def barWrite (s : State) (key w0 status : Nat) : State := s.putBytes key (leBytes 8 w0 ++ leBytes 8 status)

/-- Every registered waiter released with a result, in the same step (R264 to R266). -/
def releaseAll (s : State) (key : Nat) (v : Word) : State :=
  (barrierWaiters s key 16).foldl (fun s x => releaseWaiter s v x) s

/-- Every registered waiter of the phase that ended has its result: it performs in a step after the flip (R104, R266). -/
def satisfyAll (s : State) (key : Nat) (v : Word) : State :=
  (barrierWaiters s key 16).foldl (fun s x =>
    s.modSlot x.1 x.2.1 fun r => { r with got := if r.got.isEmpty then leBytes 8 v.toNat else r.got }) s

/-- One arrival (R265, R115): the state after it and BARARR's result. -/
def barArrive (s : State) (key : Nat) : State × Word :=
  let w0 := barWord0 s key
  let st := barStatus s key
  let phase := phaseOf w0
  if bit st 2 then (s, brokenResult phase)
  else if barN w0 = 0 ∨ barRemain w0 = 0 ∨ barN w0 < barRemain w0 then
    let s := barWrite s key w0 (st ||| 4)
    (releaseAll s key (brokenResult phase), brokenResult phase)
  else if barRemain w0 = 1 then
    let phase' := (phase + 1) % 2 ^ 24
    let s := barWrite s key (barMake phase' (barN w0) (barN w0)) st
    (satisfyAll s key (BitVec.ofNat 64 phase'), BitVec.ofNat 64 (2 ^ 62 + phase))
  else (barWrite s key (barMake phase (barN w0) (barRemain w0 - 1)) st, BitVec.ofNat 64 phase)

/-- BARINIT's writes and releases (R264). -/
def barInit (s : State) (key n : Nat) : State :=
  let s := if 1 ≤ n ∧ n ≤ 1048575 then barWrite s key (barMake 0 n n) 0 else barWrite s key 0 4
  releaseAll s key (brokenResult 0)

/-- What a BARWAIT for a phase is answered at once, if it is (R266). -/
def barWaitAnswer (s : State) (key : Nat) (arg : Word) : Option Word :=
  let phase := phaseOf (barWord0 s key)
  if bit (barStatus s key) 2 then some (brokenResult phase)
  else if phase ≠ bits arg.toNat 23 0 then some (BitVec.ofNat 64 phase)
  else none

/-! ## The instructions -/

/-- A barrier slot: translates its 16 bytes and its request goes to the home (R263). -/
def barrierOp (opc : Nat) (op : BarOp) (f : EOp) (s : State) : Host.Outcome State Fault Refusal :=
  fireOp opc (.e f) s fun fr =>
    if fr.rec_.st == .blocked then s        -- a BARWAIT that polls
    else match slotXlate s fr f.as fr.l 16 16 (atomicAccess fr.n) with
    | .stop s => s
    | .ok s ps => putRequest s fr (.barrier op (firstKey ps) f.scope fr.r)

/-- BARINIT (R263, R264). -/
def execBarinit (f : EOp) (s : State) : Host.Outcome State Fault Refusal := barrierOp 0x84 .init f s
/-- BARARR (R263, R265). -/
def execBararr (f : EOp) (s : State) : Host.Outcome State Fault Refusal := barrierOp 0x85 .arrive f s
/-- BARWAIT (R263, R266). -/
def execBarwait (f : EOp) (s : State) : Host.Outcome State Fault Refusal := barrierOp 0x86 .wait f s

/-! ## The home slice -/

/-- The home that tracks live barriers: a cabinet or wardrobe slice, or an HBM4 channel (R45, R266). -/
def liveHome (key : Nat) : ArrayId × Nat :=
  match arrayOf key with
  | some a => (a, 0)
  | none =>
    let o := key % stackBytes
    (.shelf 0, 1 + key / stackBytes * 32 + (bits o 12 8 ^^^ bits o 17 13))

/-- The barriers live at a home. -/
def liveBarriers (s : State) (h : ArrayId × Nat) : List Nat :=
  (s.insts.filterMap fun (x : Nat × Inst) => match x.2.ctl.blk with
    | some b => match b.req with
      | some ⟨k, .barrier .wait bk _ _, true⟩ => if liveHome bk == h then some bk else none
      | _ => none
    | none => none).dedup

/-- The home has room to make a barrier live: it is live already, or fewer than 64 are (R266). -/
def canRegister (s : State) (key : Nat) : Bool :=
  let l := liveBarriers s (liveHome key)
  l.contains key || l.length < 64

/-- The address operand of a slot, for FAULTADDR. -/
def slotL (b : Block) (k : Nat) : Word := valWord (b.rec_ k).l

/-- A BARWAIT answered: an acquire at its scope (R266). It has read at the home, so its core's copy of the line is
replaced (R96). -/
def answerWait (s : State) (i k key : Nat) (sc : Scope) (v : Word) : State :=
  let s := answer s i k (some v)
  match s.inst? i with
  | some n => acquire (refreshLine s n.cluster key) n.cluster sc
  | none => s

/-- The write of a barrier operation updates the core's present copy (R96). -/
def barCache (s : State) (i key : Nat) : State :=
  match s.inst? i with
  | some n => if key < hbmEnd then updateCache s n.cluster key (s.bytes key 16) else s
  | none => s

/-- BARINIT and BARARR at their home, once bound and released (R264, R265). -/
def performBar (s : State) (i k : Nat) (op : BarOp) (key : Nat) (arg : Word) : State :=
  match op with
  | .init => barCache (answer (barInit s key arg.toNat) i k none) i key
  | _ =>
    let (s, v) := barArrive s key
    barCache (answer s i k (some v)) i key

/-- A BARWAIT at its home: answered, registered, or told to poll when the home tracks 64 live barriers (R266). -/
def performWait (s : State) (i k key : Nat) (sc : Scope) (arg : Word) : State :=
  match barWaitAnswer s key arg with
  | some v => answerWait s i k key sc v
  | none =>
    if canRegister s key then s.modBlk i fun b => { b with req := some ⟨k, .barrier .wait key sc arg, true⟩ }
    else s.modSlot i k fun r => { r with st := .blocked, since := s.cycle }

/-- BARRIER_OP_PERFORM (R263 to R266, R424): the home decides the request. Poison refuses it. BARINIT and BARARR perform
as soon as their release lets them. A registered BARWAIT whose phase has ended performs here (R104). DESIGN CHOICE (log
107): a store that a BARWAIT's own block holds to the barrier's bytes does not keep it back; R101 lets it bind only as
it performs. -/
def execBarrierOpPerform (i : Nat) (s : State) : Host.Outcome State Fault Refusal :=
  match (s.inst? i).bind fun n => n.ctl.blk with
  | none => .next s
  | some b => match b.req with
    | some ⟨k, .barrier op key sc arg, reg⟩ =>
      let r := b.rec_ k
      if reg then .next (if r.got.isEmpty then s else answerWait s i k key sc (BitVec.ofNat 64 (leNat r.got)))
      else if r.st == .blocked || !sideReady s i b k || s.asleep key then .next s
      else if op == .wait then
        let faulted := ((s.inst? i).map fun n => n.ctl.due.isSome).getD false
        let s := if faulted then s else meetFlaws s key 16
        if faulted || !objectMay s i key 16 false sc false then .next s
        else if poisonedIn s.poison key 16 then .next (refuse s i k codePoison (slotL b k))
        else .next (performWait s i k key sc arg)
      else match objectTurn s i b key 16 true sc false true with
        | .wait s => .next s
        | .poison s => .next (refuseEither s i k b codePoison (slotL b k))
        | .go s => .next (performBar s i k op key arg)
    | _ => .next s

/-- Control cycles in 1 µs (R6: 1.6 GHz). -/
def cyclesPerUs : Nat := 1600

/-- BARWAIT_POLL (R266): a BARWAIT that found no room re-reads the object every 1 µs until its phase has ended or
BROKEN is set. -/
def execBarwaitPoll (i : Nat) (s : State) : Host.Outcome State Fault Refusal :=
  match (s.inst? i).bind fun n => n.ctl.blk with
  | none => .next s
  | some b => match b.req with
    | some ⟨k, .barrier .wait key sc arg, false⟩ =>
      let r := b.rec_ k
      if r.st == .blocked && r.since + cyclesPerUs ≤ s.cycle && !s.asleep key then
        let s := meetFlaws s key 16
        if poisonedIn s.poison key 16 then .next (refuse s i k codePoison (slotL b k))
        else match barWaitAnswer s key arg with
          | some v => .next (answerWait s i k key sc v)
          | none => .next (s.modSlot i k fun r => { r with since := s.cycle })
      else .next s
    | _ => .next s

end Sys2Proof.Machine
end

