-- ==== Sys2Proof/Machine/Channels.lean ====
section
/-! DEFINITION. Channels (R60 to R82, R256 to R260): handles, entries and compression, the moves between head, ring and
tail, the channel instructions and CHANNEL_REQUEST, spills and refills, the deadlock detector, growth, destruction. -/

namespace Sys2Proof.Machine

open Sys2Proof.Bits Sys2Proof.Rows

/-- CH_WRITER. -/
def codeChWriter : Nat := 0x10
/-- CH_READER. -/
def codeChReader : Nat := 0x11
/-- CH_CLOSED. -/
def codeChClosed : Nat := 0x12
/-- CH_SPILL. -/
def codeChSpill : Nat := 0x13
/-- CH_DEADLOCK. -/
def codeChDeadlock : Nat := 0x14

/-! ## Endpoints (R62, R64) -/

/-- The agent is the endpoint, or the endpoint is still OPEN (R64, R71). -/
def endpointOk (e me : Endpoint) : Bool := e == .opened || e == me

/-! ## Entries, compression, occupancy (R68 to R70) -/

/-- The stored size of a token compressed: by groups of g = min(width, 64), a mask and the nonzero bytes, rounded up to
8 bytes (R69). -/
def compSize (data : List Byte) : Nat :=
  let w := data.length
  let g := min w 64
  roundUp (ceilDiv w g * (g / 8) + (data.filter fun b => b != 0).length) 8

/-- The tail's occupancy in stored bytes, reservations included (TBYTES; R72). -/
def Chan.tbytes (c : Chan) : Nat :=
  c.tail.foldl (fun n e => n + e.size) 0 + c.resv.foldl (fun n e => n + e.2.size) 0

/-- The ring's occupancy, pads included (RBYTES). -/
def Chan.rbytes (c : Chan) : Nat := c.ring.foldl (fun n e => n + e.size) 0

/-- The ring's size in bytes. -/
def Chan.ringCap (c : Chan) : Nat := c.ringpg * 65536

/-- The tail's occupancy lies above the threshold (R69; THRESH 0 compresses every token that gains from it). -/
def Chan.above (c : Chan) : Bool := c.thresh == 0 || c.thresh * c.tcap * c.width < 8 * c.tbytes

/-- Where the next entry of the tail begins: behind the last one, reservations included, round the buffer's end (the
arrangement is the module's own, R68; log 81). -/
def Chan.tailNext (c : Chan) : Nat :=
  match (c.tail ++ c.resv.map fun x => x.2).getLast? with
  | some e => (e.off + e.size) % max 1 c.tailCap
  | none => 0

/-- The entry that a token entering now would form (R69). -/
def Chan.entry (c : Chan) (data : List Byte) : Ent :=
  let z := compSize data
  if c.above && z < c.width then ⟨data, z, true, false, false, c.tailNext⟩ else ⟨data, c.width, false, false, false, c.tailNext⟩

/-- The tail can take an entry (R70). -/
def Chan.fits (c : Chan) (e : Ent) : Bool := c.tbytes + e.size ≤ c.tailCap

/-- Place of an entry of `n` bytes in the ring: bytes of the pad before it and its offset (R70). -/
def Chan.ringPlace (c : Chan) (n : Nat) : Option (Nat × Nat) :=
  if c.ring.isEmpty then (if n ≤ c.ringCap then some (0, 0) else none)
  else if c.rdoff < c.wroff then
    if n ≤ c.ringCap - c.wroff then some (0, c.wroff)
    else if n ≤ c.rdoff then some (c.ringCap - c.wroff, 0)
    else none
  else if n ≤ c.rdoff - c.wroff then some (0, c.wroff) else none

/-- An offset that reaches the ring's end goes on at 0. -/
def Chan.wrap (c : Chan) (o : Nat) : Nat := if o = c.ringCap then 0 else o

/-- The tail's oldest entry moved to the ring (rule 3 of R67), and the offset it takes. -/
def Chan.spillOne (c : Chan) : Option (Nat × Ent × Chan) :=
  match c.tail with
  | [] => none
  | e :: rest => match c.ringPlace e.size with
    | none => none
    | some (pad, off) =>
      let pads := if pad = 0 then [] else [(⟨[], pad, false, true, false, 0⟩ : Ent)]
      some (off, e, { c with tail := rest, ring := c.ring ++ pads ++ [e], wroff := c.wrap (off + e.size) })

/-- Room in tail and ring for tokens in order, with the spills that it takes (R81). -/
def Chan.roomFor (c : Chan) : Nat → List (List Byte) → Bool
  | _, [] => true
  | 0, _ => false
  | fuel + 1, d :: ds =>
    if c.fits (c.entry d) then { c with tail := c.tail ++ [c.entry d] }.roomFor fuel ds
    else match c.spillOne with
      | some (_, _, c) => c.roomFor fuel (d :: ds)
      | none => false

/-- Tokens in ring and tail (R72). -/
def Chan.queued (c : Chan) : Nat := (c.ring.filter fun e => !e.pad).length + c.tail.length

/-- A CLOSED channel with no token left, committed ones in the hold buffers included, is ENDED (R73). -/
def Chan.endCheck (c : Chan) : Chan :=
  if c.state == .closed && c.head.isEmpty && c.queued == 0 && c.late.isEmpty && c.resv.isEmpty then { c with state := .ended } else c

/-! ## The buffers (R65, R68, R76) -/

/-- The slot of the head buffer that the next token takes. -/
def Chan.nextSlot (c : Chan) : Nat :=
  match c.head.getLast? with
  | some t => (t.slot + 1) % max 1 c.hcap
  | none => 0

/-- The bytes of a head token in its buffer. -/
def Chan.headPieces (c : Chan) (t : Tok) : List Piece := [⟨c.headKey (t.slot * c.width), c.width, false⟩]

/-- The bytes of a tail entry in its buffer. -/
def Chan.tailPieces (c : Chan) (e : Ent) : List Piece :=
  let n := min e.size (c.tailCap - e.off)
  (⟨c.tailKey e.off, n, false⟩ : Piece) :: if n = e.size then [] else [⟨c.tailKey 0, e.size - n, false⟩]

/-- Poison in the rows of a run of a buffer, found as it is read (R49, R76). -/
def bufferBad (s : State) (ps : List Piece) : State × Bool :=
  let s := s.meetPieces ps
  (s, s.poisonedPieces ps)

/-- The stored form of an entry: raw bytes, or mask and nonzero bytes by groups, filled to its size (R69). -/
def entBytes (e : Ent) : List Byte :=
  if e.comp then
    let g := min e.data.length 64
    let groups := (List.range (ceilDiv e.data.length g)).map fun k => (e.data.drop (g * k)).take g
    let enc := groups.flatMap fun x =>
      leBytes (g / 8) ((indexed 0 x).foldl (fun m b => if b.2 != 0 then m + 2 ^ b.1 else m) 0) ++ x.filter fun b => b != 0
    enc ++ zeros (e.size - enc.length)
  else e.data

/-- A token put into the head, in the next slot of its buffer. -/
def pushHead (s : State) (k : Nat) (c : Chan) (data : List Byte) (lost : Bool) : State :=
  let s := if lost then s else s.putBytes (c.headKey (c.nextSlot * c.width)) data
  s.modChan k fun c => { c with head := c.head ++ [⟨data, false, lost, c.nextSlot⟩] }

/-- What a lost token holds in place of its bytes: the ring address that the reader's FAULTADDR shows (R76). For a token
lost in a buffer row it is RBASE (DESIGN CHOICE, log 81). -/
def lostMark (addr : Word) : List Byte := leBytes 8 addr.toNat

/-- An entry put into the tail, in its bytes of the buffer. -/
def pushTail (s : State) (k : Nat) (c : Chan) (e : Ent) : State :=
  (s.scatter (c.tailPieces e) (entBytes e)).modChan k fun c => { c with tail := c.tail ++ [e] }

/-- Rule 2 of R67, once: with the ring empty and space in the head, the tail's oldest entry moves to the head. It cancels
a stalled spill (R74). -/
def pullOne (s : State) (k : Nat) (c : Chan) : Option State :=
  match c.tail with
  | [] => none
  | e :: rest =>
    if c.ring.isEmpty && c.head.length < c.hcap then
      let (s, bad) := bufferBad s (c.tailPieces e)
      let lost := e.lost || bad
      some (pushHead (s.modChan k fun c => { c with tail := rest, stall := c.stall && c.grow }) k c
        (if bad then lostMark c.rbase else e.data) lost)
    else none

/-- A committed token moves from its hold buffer into the tail when its release has performed and it fits (R81); a
close-at-end leaves once it is released (R73). -/
def enterOne (s : State) (k : Nat) (c : Chan) : Option State :=
  match c.late with
  | [] => none
  | t :: rest =>
    if !t.ready then none
    else
      let s := s.modChan k fun c => { c with late := rest }
      match t.data with
      | none => some s
      | some d => if c.fits (c.entry d) then some ((pushTail s k c (c.entry d)).modChan k fun x => { x with comp := c.above }) else none

/-- The moves between segments that need no ring access, as far as they go. -/
def settleSteps (k : Nat) : Nat → State → State
  | 0, s => s
  | fuel + 1, s => match aget k s.chans with
    | none => s
    | some c => match pullOne s k c with
      | some s => settleSteps k fuel s
      | none => match enterOne s k c with
        | some s => settleSteps k fuel s
        | none => s

/-- Offsets of an empty ring, RFULL, and the end of a closed channel as they then stand (R70, R73, R74). -/
def Chan.rested (c : Chan) : Chan :=
  let c := if c.ring.isEmpty then { c with rdoff := 0, wroff := 0 } else c
  let c := if c.rfull && !c.grow && (c.tail.isEmpty || c.spillOne.isSome) then { c with rfull := false } else c
  c.endCheck

/-- A channel settled: the moves of R67 without ring accesses, and the state that they leave (R73, R74). -/
def settleChan (s : State) (k : Nat) : State :=
  match aget k s.chans with
  | none => s
  | some c => (settleSteps k (c.tail.length + 2 * c.late.length + 1) s).modChan k Chan.rested

/-! ## Who is told (R75) -/

/-- An instance still lives: it has neither ended nor arrived nor been lost. -/
def Inst.live (n : Inst) : Bool :=
  match n.life with
  | .running => true | .stopping => true | .saving => true | .saved => true
  | _ => false

/-- The instance of an endpoint. -/
def Endpoint.inst : Endpoint → Option Nat
  | .opened => none
  | .ctl i => some i
  | .port i _ => some i

/-- The live instance of a context with the lowest INST. -/
def lowestLive (s : State) (ctx : Nat) : Option Nat :=
  (s.insts.foldl (fun (best : Option (Nat × Nat)) (x : Nat × Inst) =>
    if x.2.ctx = ctx ∧ x.2.live then
      match best with
      | some b => if x.2.serial < b.2 then some (x.1, x.2.serial) else best
      | none => some (x.1, x.2.serial)
    else best) none).map fun b => b.1

/-- The instance that a fault about an endpoint goes to. -/
def endpointTarget (s : State) (e : Endpoint) (ctx : Nat) : Option Nat :=
  match e.inst with
  | some i => if ((s.inst? i).map Inst.live).getD false then some i else lowestLive s ctx
  | none => lowestLive s ctx

/-- CH_SPILL for a stalled access (R75). -/
def chSpill (s : State) (key : Nat) (c : Chan) (e : Endpoint) (addr : Word) : State :=
  match endpointTarget s e c.ctx with
  | some i => postAsync s i ⟨codeChSpill, 0, 0xC1, addr, some (chanHandle key c), none, 0⟩
  | none => s.logFault codeChSpill c.ctx (s.tenantOf c.ctx) (key / 4096) 0 0 addr.toNat 0

/-! ## The checks of an operation (R60, R71) -/

/-- The checks of R60 and R71 by an agent of a context: the channel, or the operation's code. -/
def chanQuery (s : State) (ctx : Nat) (me : Endpoint) (h : Word) (asWriter : Bool) : Except Nat (Nat × Chan) :=
  match chanOf s ctx h with
  | none => .error (if asWriter then codeChWriter else codeChReader)
  | some (k, c) =>
    if endpointOk (if asWriter then c.writer else c.reader) me then .ok (k, c)
    else .error (if asWriter then codeChWriter else codeChReader)

/-- A context's block is decided at its object now: nothing of the block still stands before its side effect, and no fault
of it is due that would withdraw the request. -/
def decides (s : State) (i : Nat) (n : Inst) (b : Block) (q : ReqRec) : Bool :=
  sideReady s i b q.slot && (n.ctl.due.isNone || !q.req.withdrawable)

/-! ## Ring accesses (R67, R70, R75, R76) -/

/-- The access of a spill or a refill (R21, R75). -/
def chanAccess (w : Bool) : Access := ⟨.chan, !w, w, false, true⟩

/-- The spill of the tail's oldest entry: it performs, stalls, or finds the ring full (R74, R75). An entry whose tail rows
are poisoned is lost (R76). DESIGN CHOICE (log 82): a spill write whose page's leaf has POISON set stalls with CH_SPILL like
the three faults that R75 names. -/
def spill (s : State) (key : Nat) (c : Chan) : State :=
  match c.spillOne with
  | none => if c.tail.isEmpty then s else s.modChan key fun c => { c with rfull := true }
  | some (off, e, c') =>
    let addr := c.rbase + BitVec.ofNat 64 off
    match xlateNow s (key / 4096) c.ctx addr e.size 8 (chanAccess true) with
    | (s, .ok ps) =>
      let (s, bad) := bufferBad s (c.tailPieces e)
      let e' := if bad then { e with lost := true } else e
      settleChan ((s.scatter ps (entBytes e)).modChan key fun _ =>
        { c' with stall := false, ring := c'.ring.dropLast ++ [e'] }) key
    | (s, .fault _ fa) =>
      let s := s.modChan key fun c => { c with stall := true }
      if c.stall then s else chSpill s key c c.writer fa
    | (s, .miss _ _) => s

/-- The refill of the ring's oldest entry (rule 1 of R67): it performs, stalls, or finds poison, which loses the token
when the reader meets it (R76). DESIGN CHOICE (log 82): a ring page whose leaf has POISON set loses the token as a
poisoned line does; R75 names no stall for it. -/
def refill (s : State) (key : Nat) (c : Chan) : State :=
  let c := match c.ring with
    | p :: rest => if p.pad then { c with ring := rest, rdoff := c.wrap (c.rdoff + p.size) } else c
    | [] => c
  match c.ring with
  | [] => s
  | e :: rest =>
    let addr := c.rbase + BitVec.ofNat 64 c.rdoff
    let moved := fun (s : State) (bad : Bool) =>
      let lost := bad || e.lost
      let c' := { c with ring := rest, rdoff := c.wrap (c.rdoff + e.size), stallRead := false }
      settleChan (pushHead (s.modChan key fun _ => c') key c' (if lost then lostMark addr else e.data) lost) key
    match xlateNow s (key / 4096) c.ctx addr e.size 8 (chanAccess false) with
    | (s, .ok ps) =>
      let (s, bad) := bufferBad s ps
      moved s bad
    | (s, .fault code fa) =>
      if code = codePoison then moved s true
      else
        let s := s.modChan key fun _ => { c with stallRead := true }
        if c.stallRead then s else chSpill s key c c.reader fa
    | (s, .miss _ _) => s

/-- A control context's CHSEND stands at the channel, which does not refuse it, and finds no room for its entry (R71, R72,
R74). -/
def sendWaits (s : State) (key : Nat) (c : Chan) : Bool :=
  s.insts.any fun (x : Nat × Inst) => match x.2.ctl.blk with
    | some b => match b.req with
      | some ⟨k, .chan .send h d dest, q⟩ => !b.bound && decides s x.1 x.2 b ⟨k, .chan .send h d dest, q⟩
          && (match chanQuery s x.2.ctx (.ctl x.1) h true with
            | .ok (y, c) => y == key && c.state == .opened
            | .error _ => false)
          && !c.fits (c.entry d)
      | _ => false
    | none => false

/-- The next committed token waits in its hold buffer for room in the tail (R81). -/
def Chan.lateWaits (c : Chan) : Bool :=
  match c.late with
  | { ready := true, data := some d, .. } :: _ => !c.fits (c.entry d)
  | _ => false

/-- CHANNEL_SPILL (R67, R72, R75): an entering entry does not fit the tail, and the tail's oldest goes to the ring. -/
def execChannelSpill (h : Nat) (s : State) : Host.Outcome State Fault Refusal :=
  match aget h s.chans with
  | some c => .next (if c.valid && !c.stall && !c.grow && (c.lateWaits || sendWaits s h c) then spill s h c else s)
  | none => .next s

/-- CHANNEL_REFILL (R67, R75, R76). -/
def execChannelRefill (h : Nat) (s : State) : Host.Outcome State Fault Refusal :=
  match aget h s.chans with
  | some c => .next (if c.valid && !c.stallRead && !c.grow && c.head.length < c.hcap then refill s h c else s)
  | none => .next s

/-! ## Growth (R78) -/

/-- The ring after growth. -/
def Chan.grown (c : Chan) : Chan :=
  let c' := if c.wroff ≤ c.rdoff && !c.ring.isEmpty then { c with wroff := c.ringCap + c.wroff } else c
  { c' with ringpg := 2 * c.ringpg, grow := false, rfull := false, stall := false }

/-- Bytes copied piece by piece; a poisoned row or line of the source poisons its copy (R128). -/
def copyPieces (s : State) (src dst : List Piece) : State :=
  (src.zip dst).foldl (fun s p => copyRun s p.1.key p.2.key p.1.n) s

/-- The growth copy (R78): the bytes [0, WROFF) go to the old ring's end when the entries wrap; a fault stalls it as in
R75. It runs at level S for the channel controller, on the home die. DESIGN CHOICE (log 83): CH_SPILL of the copy, its reads
included, goes to the writer's instance. DESIGN CHOICE (log 82): a page of the copy whose leaf has POISON set stalls it too. -/
def growthCopy (s : State) (h : Nat) (c : Chan) : State :=
  let die := h / 4096
  let stallAt := fun (s : State) (fa : Word) =>
    let s := s.modChan h fun c => { c with stall := true }
    if c.stall then s else chSpill s h c c.writer fa
  let finish := fun (s : State) =>
    (settleChan (s.modChan h Chan.grown) h).logFault 0xF4 c.ctx (s.tenantOf c.ctx) die 0
      (((c.writer.inst.bind s.inst?).map fun n => n.serial).getD 0) (chanHandle h c).toNat (2 * c.ringpg)
  if c.wroff ≤ c.rdoff && !c.ring.isEmpty && c.wroff != 0 then
    match xlateNow s die c.ctx c.rbase c.wroff 1 (chanAccess false) with
    | (s, .ok src) =>
      match xlateNow s die c.ctx (c.rbase + BitVec.ofNat 64 c.ringCap) c.wroff 1 (chanAccess true) with
      | (s, .ok dst) => finish (copyPieces s src dst)
      | (s, .fault _ fa) => stallAt s fa
      | (s, .miss _ _) => s
    | (s, .fault _ fa) => stallAt s fa
    | (s, .miss _ _) => s
  else finish s

/-- GROWTH_COPY_DONE (R78): the copy completes, GROW and RFULL clear, and the channel goes on; the growth is logged. -/
def execGrowthCopyDone (h : Nat) (s : State) : Host.Outcome State Fault Refusal :=
  match aget h s.chans with
  | some c => .next (if c.valid && c.grow && !c.stall then growthCopy s h c else s)
  | none => .next s

/-- SPILL_RETRY (R75): the controller retries what is stalled, a refill and a spill alike; the first retry that performs
clears STALL. -/
def execSpillRetry (h : Nat) (s : State) : Host.Outcome State Fault Refusal :=
  let retryRead := fun (s : State) => match aget h s.chans with
    | some c => if c.valid && c.stallRead && !c.grow && c.head.length < c.hcap then refill s h c else s
    | none => s
  let retryWrite := fun (s : State) => match aget h s.chans with
    | some c => if c.valid && c.stall then (if c.grow then growthCopy s h c else spill s h c) else s
    | none => s
  .next (retryWrite (retryRead s))

/-! ## The instructions (R256 to R260) -/

/-- Translation of a token's range as 8-byte accesses (R256); a DEVICE page is a second side effect of the block (R36). -/
def tokenXlate (s : State) (fr : Firing) (as_ : Space) (addr : Word) (width : Nat) (a : Access) : SlotX :=
  match slotXlate s fr as_ addr width 8 a with
  | .ok s ps => if devicePieces ps then .stop (fr.fault s codeBlockFormat addr) else .ok s ps
  | x => x

/-- CHSEND (R256, R257): the width query, then a register token goes to the controller, or the token's reads are made
first. -/
def execChsend (f : EOp) (s : State) : Host.Outcome State Fault Refusal :=
  fireOp 0x78 (.e f) s fun fr =>
    match chanQuery s fr.n.ctx (.ctl fr.i) fr.l true with
    | .error c => fr.fault s c 0
    | .ok (_, c) =>
      if c.width = 8 then putRequest s fr (.chan .send fr.l (leBytes 8 fr.r.toNat) [])
      else match tokenXlate s fr f.as fr.r c.width (loadAccess fr.n) with
        | .stop s => s
        | .ok s ps => s.modSlot fr.i fr.k fun r => { r with st := .translated, pieces := ps }

/-- CHRECV and CHTRY (R256, R257): on the memory path the width query and the translation come before the request. -/
def receiveOp (opc : Nat) (op : ChanOp) (f : EOp) (s : State) : Host.Outcome State Fault Refusal :=
  fireOp opc (.e f) s fun fr =>
    if fr.rec_.r.isNone then putRequest s fr (.chan op fr.l [] [])
    else match chanQuery s fr.n.ctx (.ctl fr.i) fr.l false with
    | .error c => fr.fault s c 0
    | .ok (_, c) =>
      match tokenXlate s fr f.as fr.r c.width (storeAccess fr.n) with
      | .stop s => s
      | .ok s ps => putRequest s fr (.chan op fr.l [] ps)

/-- CHRECV (R257). -/
def execChrecv (f : EOp) (s : State) : Host.Outcome State Fault Refusal := receiveOp 0x79 .recv f s
/-- CHTRY (R257, R258). -/
def execChtry (f : EOp) (s : State) : Host.Outcome State Fault Refusal := receiveOp 0x7A .tryRecv f s

/-- CHLEN (R72, R259): HCNT − HTENT plus the tokens of ring and tail, for either endpoint. -/
def execChlen (f : EOp) (s : State) : Host.Outcome State Fault Refusal :=
  fireOp 0x7B (.e f) s fun fr =>
    match chanOf s fr.n.ctx fr.l with
    | none => fr.fault s codeChReader 0
    | some (_, c) =>
      if c.writer == .ctl fr.i || c.reader == .ctl fr.i then
        fr.done s [f.t1] (BitVec.ofNat 64 ((c.head.filter fun t => !t.taken).length + c.queued))
      else fr.fault s codeChReader 0

/-- CHCLOSE (R73, R257). -/
def execChclose (f : EOp) (s : State) : Host.Outcome State Fault Refusal :=
  fireOp 0x7C (.e f) s fun fr => putRequest s fr (.chan .close fr.l [] [])

/-! ## CHANNEL_REQUEST (R72 to R74) -/

/-- The slot of a request begins to wait on its channel, if it does not already (R77). -/
def startWait (s : State) (i k : Nat) : State :=
  s.modSlot i k fun r => { r with since := if r.since = 0 then s.cycle + 1 else r.since }

/-- The stores of a received token, held behind every LSID of the block until commit (R257). -/
def holdToken (s : State) (i k : Nat) (dest : List Piece) (data : List Byte) : State :=
  let hs := (dest.foldl (fun (x : List Held × List Byte) p =>
    (x.1 ++ [{ lsid := 32, slot := k, pieces := [p], data := x.2.take p.n, rel := none, fence := none }], x.2.drop p.n))
    ([], data)).1
  s.modBlk i fun b => { b with held := b.held ++ hs }

/-- A receive takes its token: an acquire at the channel's scope; T1 takes bytes 7:0, T2 of a CHTRY the status 0. -/
def received (s : State) (i k core : Nat) (c : Chan) (isTry : Bool) (dest : List Piece) (data : List Byte) : State :=
  let ts := slotTargets s i k
  let s := answer s i k (some (BitVec.ofNat 64 (leNat (data.take 8))))
  let s := acquire (holdToken s i k dest data) core c.scope
  match isTry, ts with
  | true, [_, t2] => deliver s i t2 (.val 0)
  | _, _ => s

/-- A CHTRY that takes nothing (R258): T1 null, its stores nullified, T2 the status. -/
def triedEmpty (s : State) (i k core : Nat) (c : Chan) : State :=
  let ts := slotTargets s i k
  let s := answer s i k none
  let s := if c.state == .ended then acquire s core c.scope else s
  match ts with
  | [t1, t2] => deliver (deliver s i t1 .null) i t2 (.val (if c.state == .ended then 2 else 1))
  | _ => s

/-- A token leaves the head: it is lost when its row is poisoned or it was lost on the way (R76). The rest moves on (R67). -/
def takeHead (s : State) (key : Nat) (c : Chan) (k : Nat) (t : Tok) (f : Chan → Chan) : State × Bool :=
  let (s, bad) := if t.lost then (s, false) else bufferBad s (c.headPieces t)
  let lost := t.lost || bad
  (settleChan (s.modChan key fun c =>
    { f c with head := removeAt k c.head, lost := if lost then min 65535 (c.lost + 1) else c.lost }) key, lost)

/-- FAULTADDR of a lost token (R76). -/
def lostAddr (c : Chan) (t : Tok) : Word := if t.lost then BitVec.ofNat 64 (leNat t.data) else c.rbase

/-- A receive or try at the controller. One that is refused leaves no trace but the removal of a lost token (R76, R424), and
so binds no OPEN reader; the same holds of CH_CLOSED on an ENDED channel (DESIGN CHOICE, log 109: R64 binds at a first
receive). -/
def requestReceive (s : State) (i k : Nat) (n : Inst) (h : Word) (isTry : Bool) (dest : List Piece) : State :=
  match chanQuery s n.ctx (.ctl i) h false with
  | .error c => refuse s i k c 0
  | .ok (key, c) =>
    let bindEnd := fun (c : Chan) => { c with reader := .ctl i }
    match c.head with
    | t :: _ =>
      if t.taken then startWait s i k
      else match takeHead s key c 0 t id with
        | (s, true) => refuse s i k codePoison (lostAddr c t)
        | (s, false) => received (s.modChan key bindEnd) i k n.cluster c isTry dest t.data
    | [] =>
      if isTry then triedEmpty (s.modChan key bindEnd) i k n.cluster c
      else if c.state == .ended then refuse (acquire s n.cluster c.scope) i k codeChClosed 0
      else startWait s i k

/-- A send at the controller (R72, R73): room is reserved, the entry's form decided, and the block binds; the token joins
the tail at commit. DESIGN CHOICE (log 84): FAULTADDR of CH_WRITER, CH_READER and CH_CLOSED at a slot is 0; R34 gives none. -/
def requestSend (s : State) (i k : Nat) (n : Inst) (h : Word) (data : List Byte) : State :=
  match chanQuery s n.ctx (.ctl i) h true with
  | .error c => refuse s i k c 0
  | .ok (key, c) =>
    if c.state != .opened then refuse s i k codeChClosed 0
    else
      let e := c.entry data
      if c.fits e then
        let s := s.modChan key fun c => { c with writer := .ctl i, resv := c.resv ++ [(i, e)], comp := c.above }
        let s := answer s i k none
        s.modBlk i fun b => { b with acts := b.acts ++ [.token key data] }
      else startWait s i k

/-- A close at the controller (R64, R73): a release. It binds its agent and the block together; when stores that the block
still holds keep the release back, both bind first, and the channel closes in a later step (R101). A bound close is refused
no more (R267): when its channel has been destroyed since, there is nothing left to close. -/
def requestClose (s : State) (i k : Nat) (n : Inst) (b : Block) (h : Word) : State :=
  let turnedAway := fun (c : Nat) => if b.bound then answer s i k none else refuse s i k c 0
  match chanQuery s n.ctx (.ctl i) h true with
  | .error c => turnedAway c
  | .ok (key, c) =>
    if c.state != .opened then turnedAway codeChClosed
    else
      let t := (bindBlock s i).modChan key fun c => { c with writer := .ctl i }
      if ctlReleaseClear t i c.scope then
        answer ((t.modChan key fun c => { c with state := .closed }).modChan key Chan.endCheck) i k none
      else if ctlReleaseClear s i c.scope then t
      else s

/-- CHANNEL_REQUEST (R71 to R74, R257, R424): the controller performs the request of a context's block. -/
def execChannelRequest (i : Nat) (s : State) : Host.Outcome State Fault Refusal :=
  match s.inst? i with
  | none => .next s
  | some n => match n.ctl.blk with
    | none => .next s
    | some b => match b.req with
      | some ⟨k, .chan op h token dest, q⟩ =>
        if !decides s i n b ⟨k, .chan op h token dest, q⟩ then .next s
        else match op with
          | .send => .next (requestSend s i k n h token)
          | .recv => .next (requestReceive s i k n h false dest)
          | .tryRecv => .next (requestReceive s i k n h true dest)
          | .close => .next (requestClose s i k n b h)
      | _ => .next s

/-- The reserved token of a context's send joins the tail, in the commit step (R72, R104). -/
def enterToken (s : State) (i key : Nat) : State :=
  match aget key s.chans with
  | none => s
  | some c =>
    let mine := c.resv.filter fun x => x.1 == i
    let s := s.modChan key fun c => { c with resv := c.resv.filter fun x => x.1 != i }
    settleChan (mine.foldl (fun s x => pushTail s key c x.2) s) key

/-! ## Destruction (R66) -/

/-- A channel destroyed: tokens discarded, VALID cleared, GEN incremented, and with the entry its buffers returned. Agents
blocked on it find their handle stale when the controller next looks at their request. -/
def destroyChan (s : State) (k : Nat) : State :=
  match aget k s.chans with
  | none => s
  | some c => { s with chans := adel k s.chans, gens := aset k (c.gen + 1) s.gens }

/-- CHANNEL_DESTROY (R66). -/
def execChannelDestroy (handle : BitVec 32) (s : State) : Host.Outcome State Fault Refusal :=
  match chanKey (handle.setWidth 64) with
  | none => .next s
  | some k => match aget k s.chans with
    | some c => .next (if c.valid && chanHandle k c == handle.setWidth 64 then destroyChan s k else s)
    | none => .next s

/-! ## Agents that wait on channels (R77, R81) -/

/-- The channels on which an instance's control context waits: key, and whether it waits to send. -/
def ctlWaits (n : Inst) : List (Nat × Bool) :=
  match n.ctl.blk with
  | some b => match b.req with
    | some ⟨k, .chan op h _ _, _⟩ =>
      if b.bound || (b.rec_ k).since = 0 then []
      else match op, chanKey h with
        | .send, some key => [(key, true)]
        | .recv, some key => [(key, false)]
        | _, _ => []
    | _ => []
  | none => []

/-- The channel of a region port, if its handle is good (R305). -/
def portChan (s : State) (i : Nat) (n : Inst) (r : Region) (p : Nat) : Option (Nat × Chan) :=
  match aget p r.ports with
  | some pt =>
    if pt.ch then match chanOf s n.ctx pt.base with
      | some (k, c) => if endpointOk (if p < 32 then c.reader else c.writer) (.port i (p % 32)) then some (k, c) else none
      | none => none
    else none
  | none => none

/-- The handles of an iteration's held tokens (R81). -/
def heldHandles (it : Iter) : List Word :=
  (it.holds.filterMap fun h => match h with | .token _ _ k _ _ => some k | _ => none).dedup

/-- The tokens that an iteration holds for a handle, in port and firing order, with their hold buffers (R81). DESIGN CHOICE
(log 87): of two sink bindings attached to one port, the tokens stand in the order in which the sinks took their beats;
"firing order" names one FE's firings. -/
def heldTokens (it : Iter) (handle : Word) : List (Nat × List Byte) :=
  (List.range 64).flatMap fun p => it.holds.filterMap fun h => match h with
    | .token _ q k d cl => if q = p ∧ k = handle then some (cl, d) else none
    | _ => none

/-- The port whose token of an iteration reaches a handle's channel first (R64, R81). -/
def firstPort (it : Iter) (handle : Word) : Option Nat :=
  (List.range 64).find? fun p => it.holds.any fun h => match h with
    | .token _ q k _ _ => q == p && k == handle
    | _ => false

/-- Room in tail and ring for all of an iteration's tokens on a channel, behind those already committed (R81). -/
def tokenRoom (c : Chan) (toks : List (Nat × List Byte)) : Bool :=
  let all := c.late.filterMap (fun x => x.data) ++ toks.map fun x => x.2
  !c.grow && { c with late := [] }.roomFor (2 * all.length + c.tail.length + 1) all

end Sys2Proof.Machine
end

