-- ==== Sys2Proof/Machine/Exits.lean ====
section
/-! DEFINITION. The exits BR, BRI, CALL, CALLI, HALT, TRAP and ERET (R240 to R246, R286): each chooses what follows the
block, and the choice takes effect at commit. -/

namespace Sys2Proof.Machine

open Sys2Proof.Bits Sys2Proof.Rows

/-- Target of BR and CALL: OFF in 64-byte units from the block's address (R216, R240). -/
def branchTarget (b : Block) (f : BOp) : Word := b.addr + sext f.off.toNat 24 * 64

/-- Return address: the block's address plus its extent (R241). -/
def returnAddr (b : Block) : Word := b.addr + BitVec.ofNat 64 (Layout.extent b.words)

/-- BR (R240). -/
def execBr (f : BOp) (s : State) : Host.Outcome State Fault Refusal :=
  fireOp 0xA0 (.b f) s fun fr => fr.exit s (.block (branchTarget fr.b f))

/-- BRI (R240, R242): an address with bits 5:0 nonzero raises MISALIGN. -/
def execBri (f : BOp) (s : State) : Host.Outcome State Fault Refusal :=
  fireOp 0xA1 (.b f) s fun fr =>
    if fr.l.toNat % 64 ≠ 0 then fr.fault s codeMisalign fr.l else fr.exit s (.block fr.l)

/-- CALL (R240, R241): the check of R246 comes before its delivery. -/
def execCall (f : BOp) (s : State) : Host.Outcome State Fault Refusal :=
  fireOp 0xA2 (.b f) s fun fr =>
    deliver (fr.exit s (.block (branchTarget fr.b f))) fr.i f.t1 (.val (returnAddr fr.b))

/-- CALLI (R240 to R242). -/
def execCalli (f : BOp) (s : State) : Host.Outcome State Fault Refusal :=
  fireOp 0xA3 (.b f) s fun fr =>
    if fr.l.toNat % 64 ≠ 0 then fr.fault s codeMisalign fr.l
    else deliver (fr.exit s (.block fr.l)) fr.i f.t1 (.val (returnAddr fr.b))

/-- HALT (R243). -/
def execHalt (f : BOp) (s : State) : Host.Outcome State Fault Refusal :=
  fireOp 0xA4 (.b f) s fun fr => fr.exit s .halt

/-- TRAP (R244). -/
def execTrap (f : BOp) (s : State) : Host.Outcome State Fault Refusal :=
  fireOp 0xA5 (.b f) s fun fr => fr.exit s (.trap f.off.toNat)

/-- ERET (R286): at commit the next block is FAULTBLK at level PREV. -/
def execEret (f : EOp) (s : State) : Host.Outcome State Fault Refusal :=
  fireOp 0xB4 (.e f) s fun fr => fr.exit s .eret

end Sys2Proof.Machine
end

