-- ==== Sys2Proof/Machine/NumFmt.lean ====
section
/-! DEFINITION. Number formats (R181 to R196): exact values, decoding, conversion with the five roundings, products,
windows and FP32 accumulation, and the group scale of QUANT (R314). -/

namespace Sys2Proof.Machine.NumFmt

open Sys2Proof.Bits

/-! ## Exact numbers -/

/-- Zero with a sign. -/
def zero (neg : Bool) : Num := .fin neg 0 0

/-- An integer as a number. -/
def ofInt (i : Int) : Num := .fin (i < 0) i.natAbs 0

/-- An integer times a power of two. -/
def ofScaled (i : Int) (e : Int) : Num := .fin (i < 0) i.natAbs e

/-- Signed significand. -/
def sig (neg : Bool) (m : Nat) : Int := if neg then -(m : Int) else m

/-- The number times 2^k. -/
def scale2 (v : Num) (k : Int) : Num :=
  match v with
  | .fin n m e => .fin n m (e + k)
  | v => v

/-- Negation. -/
def neg : Num → Num
  | .nan => .nan
  | .inf n => .inf !n
  | .fin n m e => .fin (!n) m e

/-- The exact sum under IEEE 754 for infinities; an exact zero sum of opposite signs is +0. -/
def add (a b : Num) : Num :=
  match a, b with
  | .nan, _ => .nan
  | _, .nan => .nan
  | .inf x, .inf y => if x = y then .inf x else .nan
  | .inf x, _ => .inf x
  | _, .inf y => .inf y
  | .fin na ma ea, .fin nb mb eb =>
    let e := min ea eb
    let s := sig na ma * 2 ^ (ea - e).toNat + sig nb mb * 2 ^ (eb - e).toNat
    if s = 0 then zero (na && nb && ma == 0 && mb == 0) else ofScaled s e

/-- The exact product under IEEE 754 for infinities. -/
def mul (a b : Num) : Num :=
  match a, b with
  | .nan, _ => .nan
  | _, .nan => .nan
  | .inf x, .inf y => .inf (x != y)
  | .inf x, .fin y m _ => if m = 0 then .nan else .inf (x != y)
  | .fin x m _, .inf y => if m = 0 then .nan else .inf (x != y)
  | .fin x m e, .fin y n f => .fin (x != y) (m * n) (e + f)

/-- a < b among finite magnitudes m times 2^e. -/
def magLt (m : Nat) (e : Int) (n : Nat) (f : Int) : Bool :=
  let g := min e f
  m * 2 ^ (e - g).toNat < n * 2 ^ (f - g).toNat

/-- a < b, exactly; false with a NaN. -/
def lt (a b : Num) : Bool :=
  match a, b with
  | .nan, _ => false
  | _, .nan => false
  | .inf x, .inf y => x && !y
  | .inf x, _ => x
  | _, .inf y => !y
  | .fin na ma ea, .fin nb mb eb =>
    let g := min ea eb
    sig na ma * 2 ^ (ea - g).toNat < sig nb mb * 2 ^ (eb - g).toNat

/-- a = b as values; false with a NaN. -/
def eq (a b : Num) : Bool := a != .nan && b != .nan && !lt a b && !lt b a

/-- The value is a NaN. -/
def isNan (v : Num) : Bool := v == .nan

/-- The value is zero. -/
def isZero : Num → Bool
  | .fin _ m _ => m == 0
  | _ => false

/-- The sign bit of a value. -/
def signOf : Num → Bool
  | .fin n _ _ => n
  | .inf n => n
  | .nan => false

/-- floor(log2) of a nonzero magnitude. -/
def ilog2 (m : Nat) (e : Int) : Int := (Nat.log2 m : Int) + e

/-- floor(v / 2^e) of a finite value. -/
def floorAt (neg : Bool) (m : Nat) (e q : Int) : Int :=
  if q ≤ e then sig neg m * 2 ^ (e - q).toNat else (sig neg m).fdiv (2 ^ (q - e).toNat : Nat)

/-! ## Formats (R181 to R186) -/

/-- Format codes. -/
def cFp32 : Nat := 0x01
/-- BF16. -/
def cBf16 : Nat := 0x02
/-- FP16. -/
def cFp16 : Nat := 0x03

/-- A floating format: exponent and fraction bits, bias. -/
structure Flt where
  eb : Nat
  mb : Nat
  bias : Int
  deriving DecidableEq, Repr

/-- The floating format of a code (R183). -/
def fltOf (code : Nat) : Option Flt :=
  match code with
  | 0x01 => some ⟨8, 23, 127⟩
  | 0x02 => some ⟨8, 7, 127⟩
  | 0x03 => some ⟨5, 10, 15⟩
  | 0x04 => some ⟨4, 3, 7⟩
  | 0x05 => some ⟨5, 2, 15⟩
  | 0x06 => some ⟨3, 2, 3⟩
  | 0x07 => some ⟨2, 3, 1⟩
  | 0x08 => some ⟨2, 1, 1⟩
  | _ => none

/-- FP32, BF16, FP16 and E5M2 have infinities; E4M3 a NaN only; the others neither (R183). -/
def hasInf (code : Nat) : Bool := code == 1 || code == 2 || code == 3 || code == 5

/-- A microscaling code (R185). -/
def isMx (code : Nat) : Bool := 4 ≤ code && code ≤ 9

/-- Bits of an element; `n` is the width of integer codes. -/
def elemBits (code n : Nat) : Nat :=
  match code with
  | 0x01 => 32 | 0x02 => 16 | 0x03 => 16 | 0x04 => 8 | 0x05 => 8 | 0x06 => 6 | 0x07 => 6 | 0x08 => 4 | 0x09 => 8
  | 0x0A => 6 | 0x0B => n | 0x0C => n | 0x0E => 48
  | _ => 1024

/-- Elements of a beat (R308). -/
def elemsPerBeat (code n : Nat) : Nat :=
  if isMx code then 128 else 1024 / elemBits code n

/-- T(f) of R186. -/
def lnsT (f : Nat) : Nat := [0x8000, 0x9837, 0xB505, 0xD745].getD f 0

/-- The table value of LNS6 level `l` (R186); 0 is zero. -/
def lnsMag (l : Nat) : Nat × Int :=
  if l = 0 then (0, 0) else
  let x : Int := (l : Int) - 16
  (lnsT (x.emod 4).toNat, x.ediv 4 - 15)

/-- Decoding of a floating pattern (R183). -/
def decodeFlt (code : Nat) (f : Flt) (v : Nat) : Num :=
  let s := bit v (f.eb + f.mb)
  let e := bits v (f.eb + f.mb - 1) f.mb
  let m := v % 2 ^ f.mb
  if hasInf code && e == 2 ^ f.eb - 1 then (if m = 0 then .inf s else .nan)
  else if code == 4 && e == 15 && m == 7 then .nan
  else if e = 0 then .fin s m (1 - f.bias - f.mb)
  else .fin s (2 ^ f.mb + m) (e - f.bias - f.mb)

/-- The value of an element before any block scale (R182 to R186). -/
def decode (code n v : Nat) : Num :=
  match fltOf code with
  | some f => decodeFlt code f v
  | none => match code with
    | 0x09 => ofScaled (sextI v 8) (-6)
    | 0x0A => let l := lnsMag (v % 32); .fin (bit v 5) l.1 l.2
    | 0x0B => ofInt (sextI v n)
    | _ => ofInt (v % 2 ^ n)

/-- An element's value under an E8M0 block scale (R185). -/
def decodeScaled (code n scale v : Nat) : Num :=
  if isMx code then (if scale = 0xFF then .nan else scale2 (decode code n v) ((scale : Int) - 127)) else decode code n v

/-! ## Rounding (R188, R189) -/

/-- A rounding request: mode, and under SR the generator value and its bits. -/
structure Rnd where
  mode : Nat
  g : Nat
  b : Nat
  deriving DecidableEq, Repr

/-- Round to nearest even. -/
def rne : Rnd := ⟨0, 0, 12⟩

/-- The SR test of R189: D of d bits against a generator value of b bits. -/
def srTest (dd d g b : Nat) : Bool := if d ≤ b then g % 2 ^ d < dd else g * 2 ^ (d - b) < dd

/-- The larger magnitude is taken, for a remainder `rem` of `d` bits below an even or odd smaller magnitude. -/
def goesUp (r : Rnd) (neg odd : Bool) (rem d : Nat) : Bool :=
  if rem = 0 then false
  else match r.mode with
    | 0 => 2 ^ d < 2 * rem || (2 * rem == 2 ^ d && odd)
    | 1 => false
    | 2 => neg
    | 3 => !neg
    | _ => srTest rem d r.g r.b

/-- A magnitude rounded to a whole number of units 2^q. -/
def roundAt (r : Rnd) (neg : Bool) (m : Nat) (e q : Int) : Nat :=
  if q ≤ e then m * 2 ^ (e - q).toNat
  else
    let d := (q - e).toNat
    let lo := m / 2 ^ d
    if goesUp r neg (lo % 2 == 1) (m % 2 ^ d) d then lo + 1 else lo

/-! ## Encoding (R188, R190) -/

/-- The largest finite pattern of a floating format, without sign. -/
def largest (code : Nat) (f : Flt) : Nat :=
  if hasInf code then 2 ^ (f.eb + f.mb) - 2 ^ f.mb - 1
  else if code = 4 then 0x7E
  else 2 ^ (f.eb + f.mb) - 1

/-- The infinity pattern, without sign. -/
def infPattern (f : Flt) : Nat := 2 ^ (f.eb + f.mb) - 2 ^ f.mb

/-- The format's NaN (R184, R190). -/
def nanPattern (code : Nat) : Nat :=
  match code with
  | 0x01 => 0x7FC00000 | 0x02 => 0x7FC0 | 0x03 => 0x7E00 | 0x04 => 0x7F | 0x05 => 0x7F | _ => 0

/-- What overflow gives (R190). -/
def overflow (code : Nat) (f : Flt) (mode : Nat) (neg : Bool) : Nat :=
  if hasInf code && (mode == 0 || (mode == 2 && neg) || (mode == 3 && !neg)) then infPattern f else largest code f

/-- Magnitude pattern of a finite value in a floating format. -/
def encMag (code : Nat) (f : Flt) (r : Rnd) (neg : Bool) (m : Nat) (e : Int) : Nat :=
  if m = 0 then 0
  else
    let q := max (ilog2 m e - f.mb) (1 - f.bias - f.mb)
    let s := roundAt r neg m e q
    let (s, q) := if s = 2 ^ (f.mb + 1) then (2 ^ f.mb, q + 1) else (s, q)
    let x : Int := if s < 2 ^ f.mb then 0 else q + f.mb + f.bias
    let pat := x.toNat * 2 ^ f.mb + s % 2 ^ f.mb
    if largest code f < pat then overflow code f r.mode neg else pat

/-- A pattern with its sign bit. -/
def withSign (f : Flt) (neg : Bool) (mag : Nat) : Nat := (if neg then 2 ^ (f.eb + f.mb) else 0) + mag

/-- Encoding in a floating format. -/
def encFlt (code : Nat) (f : Flt) (r : Rnd) : Num → Nat
  | .nan => nanPattern code
  | .inf n => if hasInf code then withSign f n (infPattern f) else withSign f n (largest code f)
  | .fin n m e => withSign f n (encMag code f r n m e)

/-- Encoding in an integer format of `n` bits (R190). -/
def encInt (signed : Bool) (n : Nat) (r : Rnd) : Num → Nat
  | .nan => 0
  | .inf s => if signed then (if s then 2 ^ (n - 1) else 2 ^ (n - 1) - 1) else (if s then 0 else 2 ^ n - 1)
  | .fin s m e =>
    let v := sig s (roundAt r s m e 0)
    let lo : Int := if signed then -(2 ^ (n - 1) : Nat) else 0
    let hi : Int := if signed then (2 ^ (n - 1) : Nat) - 1 else (2 ^ n : Nat) - 1
    (max lo (min hi v)).emod (2 ^ n : Nat) |>.toNat

/-- Encoding as MXINT8 (R185, R190). -/
def encMxInt (r : Rnd) : Num → Nat
  | .nan => 0
  | .inf s => if s then 0x80 else 0x7F
  | .fin s m e =>
    let v := roundAt r s m e (-6)
    if s then (256 - min v 128) % 256 else min v 127

/-- The levels below and above a nonzero magnitude: the highest LNS6 level not above it (R188). -/
def lnsBelow (m : Nat) (e : Int) : Nat :=
  (List.range 32).foldl (fun best l => if l ≠ 0 && !magLt m e (lnsMag l).1 (lnsMag l).2 then l else best) 0

/-- The LNS6 level that a magnitude rounds to (R186, R188, R189). -/
def lnsRound (r : Rnd) (neg : Bool) (m : Nat) (e : Int) : Nat :=
  let l := lnsBelow m e
  if l = 31 then 31
  else
    let lo := lnsMag l
    let hi := lnsMag (l + 1)
    let q := min e (min lo.2 hi.2)
    let at_ := fun (x : Nat × Int) => x.1 * 2 ^ (x.2 - q).toNat
    let v := at_ (m, e)
    let a := if l = 0 then 0 else at_ lo
    let b := at_ hi
    if v = a then l
    else
      let up := match r.mode with
        | 0 => a + b < 2 * v || (2 * v == a + b && l % 2 == 1)
        | 1 => false
        | 2 => neg
        | 3 => !neg
        | _ => r.g < 2 ^ r.b * (v - a) / (b - a)
      if up then l + 1 else l

/-- Encoding as LNS6 (R190). -/
def encLns (r : Rnd) : Num → Nat
  | .nan => 0
  | .inf s => (if s then 32 else 0) + 31
  | .fin s m e => (if s then 32 else 0) + (if m = 0 then 0 else lnsRound r s m e)

/-- A value converted to an element of a format (R188 to R190). `n` is the width of integer codes. -/
def encodeNum (code n : Nat) (r : Rnd) (v : Num) : Nat :=
  match fltOf code with
  | some f => encFlt code f r v
  | none => match code with
    | 0x09 => encMxInt r v
    | 0x0A => encLns r v
    | 0x0B => encInt true n r v
    | _ => encInt false n r v

/-- A value that rounds under SR uses a generator value: it is finite, not exactly representable, and within the
target's range (R189, R190). -/
def usesDraw (code n : Nat) (v : Num) : Bool :=
  match v with
  | .fin s m _ =>
    let back := decode code n (encodeNum code n ⟨1, 0, 12⟩ v)
    let maxv := decode code n (encodeNum code n ⟨1, 0, 12⟩ (.inf s))
    let lim := match fltOf code with
      | some f => decode code n (largest code f)
      | none => maxv
    m != 0 && !eq back v && !(if s then lt v (if (fltOf code).isSome then neg lim else lim) else lt lim v)
  | _ => false

/-! ## FP32 values -/

/-- An FP32 pattern as a value. -/
def f32 (p : Nat) : Num := decode cFp32 0 p
/-- A value rounded to FP32 by RNE, as a pattern. -/
def toF32 (v : Num) : Nat := encodeNum cFp32 0 rne v
/-- One FP32 addition (R193). -/
def addF32 (p : Nat) (v : Num) : Nat := toF32 (add (f32 p) v)

/-- The smaller of two values for REDMIN, −0 below +0, NaN sticky (R316). -/
def redMin (a b : Num) : Num :=
  if isNan a || isNan b then .nan
  else if lt b a || (eq a b && isZero a && signOf b) then b else a

/-- The larger of two values for REDMAX. -/
def redMax (a b : Num) : Num :=
  if isNan a || isNan b then .nan
  else if lt a b || (eq a b && isZero a && signOf a) then b else a

/-! ## Products and windows (R186, R191, R192, R195) -/

/-- The log adder (R186): sign and level of a product. -/
def lnsProduct (a b : Nat) : Bool × Nat :=
  if a % 32 = 0 ∨ b % 32 = 0 then (false, 0)
  else
    let l : Int := (a % 32 : Nat) + (b % 32 : Nat) - 16
    if l ≤ 0 then (false, 0) else (bit a 5 != bit b 5, (min l 31).toNat)

/-- The exact term of an LNS product in units of 2^−19 (R186). -/
def lnsTerm (a b : Nat) : Int :=
  let p := lnsProduct a b
  if p.2 = 0 then 0
  else
    let x : Int := (p.2 : Int) - 16
    sig p.1 (lnsT (x.emod 4).toNat * 2 ^ (x.ediv 4 + 4).toNat)

/-- The six BF16 products of two FP32X3 elements, in order (R187). -/
def x3Products (a b : Nat) : List Num :=
  let t := fun (x k : Nat) => decode cBf16 0 (bits x (16 * k + 15) (16 * k))
  [(0, 0), (0, 1), (1, 0), (0, 2), (2, 0), (1, 1)].map fun x => mul (t a x.1) (t b x.2)

/-- SPLIT3 of an FP32 pattern: hi, mid and lo as one FP32X3 element (R187). -/
def split3 (p : Nat) : Nat :=
  match f32 p with
  | .nan => 0x7FC0
  | .inf _ => p / 65536
  | x =>
    let hi := p / 65536 * 65536
    let rest := toF32 (add x (neg (f32 hi)))
    let mid := rest / 65536 * 65536
    let lo := encodeNum cBf16 0 rne (add (f32 rest) (neg (f32 mid)))
    hi / 65536 + mid / 65536 * 2 ^ 16 + lo * 2 ^ 32

/-- The exact value of a window (R192). -/
def windowSum (ps : List Num) (sa sb : Nat) : Num :=
  let isInf := fun (n : Bool) (p : Num) => p == .inf n
  if ps.any isNan || sa == 0xFF || sb == 0xFF then .nan
  else if ps.any (isInf false) && ps.any (isInf true) then .nan
  else if ps.any (isInf false) then .inf false
  else if ps.any (isInf true) then .inf true
  else
    let es := ps.filterMap fun p => match p with
      | .fin _ m e => if m = 0 then none else some (ilog2 m e)
      | _ => none
    match es with
    | [] => zero false
    | e0 :: es =>
      let e := es.foldl max e0
      let s := ps.foldl (fun (acc : Int) p => match p with
        | .fin n m x => acc + floorAt n m x (e - 41)
        | _ => acc) 0
      ofScaled s (e - 41 + ((sa : Int) - 127) + ((sb : Int) - 127))

/-! ## Group scales (R314) -/

/-- EMAX of a microscaling target. -/
def emax (code : Nat) : Int :=
  match code with
  | 4 => 8 | 5 => 15 | 6 => 4 | 7 => 2 | 8 => 2 | _ => 0

/-- The E8M0 scale that QUANT chooses for a group. -/
def groupScale (code : Nat) (xs : List Num) : Nat :=
  if xs.any isNan then 0xFF
  else
    let top := xs.foldl (fun (best : Option Int) x => match x with
      | .fin _ m e => if m = 0 then best else some (match best with
        | some b => max b (ilog2 m e)
        | none => ilog2 m e)
      | _ => best) none
    match top with
    | none => 127
    | some t => (max 0 (min 254 (t - emax code + 127))).toNat

/-- One element of a group under its scale, before rounding (R314). -/
def underScale (scale : Nat) (x : Num) : Num := if scale = 0xFF then zero false else scale2 x (127 - (scale : Int))

end Sys2Proof.Machine.NumFmt
end

