-- ==== Sys2Proof/Machine/Cfg.lean ====
section
/-! DEFINITION. Configuration contexts (R293, R299, R329, R333), their load checks (R298, R300, R310, R312), and the
circuits that their selectors make (R294, R358, R412). -/

namespace Sys2Proof.Machine.Cfg

open Sys2Proof.Bits Sys2Proof.Machine.NumFmt

/-- Word `k` of a context as a number. -/
def w (c : List Word) (k : Nat) : Nat := (c.getD k 0).toNat

/-! ## Fields (R293) -/

/-- ID. -/
def id (c : List Word) : Nat := bits (w c 0) 63 48
/-- EOP. -/
def eop (c : List Word) : Nat := bits (w c 0) 47 42
/-- RND. -/
def rnd (c : List Word) : Nat := bits (w c 0) 41 39
/-- GCLS. -/
def gcls (c : List Word) : Nat := bits (w c 0) 38 35
/-- RDIM. -/
def rdim (c : List Word) : Nat := bits (w c 0) 34 32
/-- FCW. -/
def fcw (c : List Word) : Nat := bits (w c 0) 31 0
/-- NIA. -/
def nia (c : List Word) : Nat := bits (w c 1) 63 60
/-- NIB. -/
def nib (c : List Word) : Nat := bits (w c 1) 59 56
/-- NIC. -/
def nic (c : List Word) : Nat := bits (w c 1) 55 52
/-- NOA. -/
def noa (c : List Word) : Nat := bits (w c 1) 51 48
/-- NOB. -/
def nob (c : List Word) : Nat := bits (w c 1) 47 44
/-- OFMT. -/
def ofmt (c : List Word) : Nat := bits (w c 1) 43 39
/-- OTAG. -/
def otag (c : List Word) : Nat := bits (w c 1) 38 34
/-- ASH. -/
def ash (c : List Word) : Nat := bits (w c 1) 33 31
/-- BMSK. -/
def bmsk (c : List Word) : Nat := bits (w c 1) 30 25
/-- RLEN. -/
def rlen (c : List Word) : Nat := bits (w c 1) 24 15 + 1
/-- KREG. -/
def kreg (c : List Word) : Nat := bits (w c 1) 14 11
/-- CMP. -/
def cmp (c : List Word) : Nat := bits (w c 1) 10 8
/-- INIT. -/
def init (c : List Word) : Bool := bit (w c 1) 7
/-- CARRY. -/
def carry (c : List Word) : Bool := bit (w c 1) 6
/-- RING. -/
def ring (c : List Word) : Nat := bits (w c 2) 63 48
/-- Vector selector `j` (R294). -/
def vsel (c : List Word) (j : Nat) : Nat :=
  if j < 12 then bits (w c 3) (5 * j + 4) (5 * j) else bits (w c 4) (5 * (j - 12) + 4) (5 * (j - 12))
/-- Scalar selector `j`. -/
def ssel (c : List Word) (j : Nat) : Nat := bits (w c 5) (3 * j + 2) (3 * j)

/-! ## The fusing control word (R299) -/

/-- MODE: 0 INT, 1 FLOAT, 2 LNS, 3 STOCH, 4 BFLY, 5 ADD. -/
def mode (c : List Word) : Nat := bits (fcw c) 31 29
/-- AW. -/
def aw (c : List Word) : Nat := bits (fcw c) 28 26
/-- BW. -/
def bw (c : List Word) : Nat := bits (fcw c) 25 23
/-- SA. -/
def sa (c : List Word) : Bool := bit (fcw c) 22
/-- SB. -/
def sb (c : List Word) : Bool := bit (fcw c) 21
/-- GANG. -/
def gang (c : List Word) : Nat := bits (fcw c) 20 19
/-- ACC. -/
def acc (c : List Word) : Nat := bits (fcw c) 18 17
/-- PER. -/
def per (c : List Word) : Nat := bits (fcw c) 16 12
/-- LANES. -/
def lanes (c : List Word) : Nat := bits (fcw c) 11 6
/-- BSTG. -/
def bstg (c : List Word) : Nat := bits (fcw c) 5 0
/-- Operand A width. -/
def widA (c : List Word) : Nat := 2 * (aw c + 1)
/-- Operand B width. -/
def widB (c : List Word) : Nat := 2 * (bw c + 1)

/-- Bricks of a product (R300). -/
def bricks (c : List Word) : Nat := (aw c + 1) * (bw c + 1)
/-- Products of a gang. -/
def perGang (c : List Word) : Nat := if per c = 0 then 16 * (gang c + 1) / bricks c else per c
/-- Products of a firing: P. -/
def products (c : List Word) : Nat := (lanes c + 1) / (gang c + 1) * perGang c
/-- Outputs of DOT: NOUT (R312). -/
def nout (c : List Word) : Nat := products c / rlen c

/-! ## Stochastic fields (R329, R333) -/

/-- A STOCH context. -/
def isStoch (c : List Word) : Bool := mode c == 3
/-- LCODE. -/
def lcode (c : List Word) : Nat := aw c
/-- B of R330. -/
def lenLog (c : List Word) : Nat := 4 + 2 * lcode c
/-- L. -/
def len (c : List Word) : Nat := 2 ^ lenLog c
/-- BIP. -/
def bip (c : List Word) : Bool := sa c
/-- SD. -/
def sd (c : List Word) : Nat := bits (w c 2) 47 44
/-- SA, the first register operand. -/
def srA (c : List Word) : Nat := bits (w c 2) 43 40
/-- SB, the second. -/
def srB (c : List Word) : Nat := bits (w c 2) 39 36
/-- SC, the select. -/
def srC (c : List Word) : Nat := bits (w c 2) 35 32
/-- NSTR. -/
def nstr (c : List Word) : Nat := bits (w c 2) 31 28 + 1
/-- ISTR. -/
def istr (c : List Word) : Bool := bit (w c 2) 27
/-- CINC. -/
def cinc (c : List Word) : Bool := bit (w c 2) 26
/-- KLOG. -/
def klog (c : List Word) : Nat := bits (w c 2) 25 22
/-- IMASK. -/
def imask (c : List Word) : Nat := bits (w c 2) 21 6
/-- Beats of a stream. -/
def streamBeats (c : List Word) : Nat := ceilDiv (len c) 1024

/-! ## Load checks (R298) -/

/-- The idle context: all zero (R295). -/
def idle : List Word := List.replicate 8 0

/-- A reserved field is nonzero. -/
def reservedBad (c : List Word) : Bool :=
  bits (w c 1) 5 0 != 0 || bits (w c 3) 63 60 != 0 || bits (w c 4) 63 35 != 0 || bits (w c 5) 63 15 != 0
    || w c 6 != 0 || w c 7 != 0 || (if isStoch c then bits (w c 2) 5 0 != 0 else bits (w c 2) 47 0 != 0)

/-- MODE accepts EOP, and both are listed (R311, R335). -/
def modeTakes (c : List Word) : Bool :=
  let e := eop c
  if e = 0 then fcw c == 0
  else if e = 2 ∨ e = 3 ∨ e = 8 then mode c ≤ 2
  else if e = 0x0D then mode c == 4
  else if e ≤ 0x14 then mode c == 5 && (e != 0x14 || acc c == 2)
  else 0x20 ≤ e && e ≤ 0x2A && mode c == 3

/-- The FCW obeys R299, R300 and R329. -/
def fcwOk (c : List Word) : Bool :=
  match mode c with
  | 3 => lcode c ≤ 4 && bits (fcw c) 25 23 == 0 && !sb c && gang c == 0 && acc c == 2 && per c == 0
          && lanes c == max 1 (len c / 64) - 1 && bstg c == 0
  | 4 => acc c != 3 && gang c == 0 && per c == 0 && lanes c == 0 && 3 ≤ bstg c && bstg c ≤ 6
  | 5 => acc c != 3 && gang c == 0 && per c == 0 && lanes c == 0 && bstg c == 0
  | 6 => false
  | 7 => false
  | m =>
    acc c != 3 && bstg c == 0 && gang c + 1 == ceilDiv (bricks c) 16 && per c ≤ 16 * (gang c + 1) / bricks c
      && (lanes c + 1) % (gang c + 1) == 0
      && (match m with
        | 0 => acc c == 0
        | 1 => acc c == 1
        | _ => aw c == 2 && bw c == 0 && !sa c && !sb c && acc c ≤ 1)

/-- Width of an integer OFMT: AW's, or 16 bits in STOCH mode (R310). -/
def outWidth (c : List Word) : Nat := if isStoch c then 16 else widA c

/-- Elements that NOA beats of OFMT hold. -/
def room (c : List Word) : Nat := noa c * elemsPerBeat (ofmt c) (outWidth c)

/-- Values that a reduction of beats of `n` elements emits: 64, or 128 (R316). -/
def redCount (n : Nat) : Nat := if 64 < n then 128 else 64

/-- The emission of a numeric EOP obeys R298, R310 to R312, R314, R315 and R318, where the context fixes it. -/
def emitOk (c : List Word) : Bool :=
  let red := acc c != 0 || redCount (elemsPerBeat 0x0B (widA c)) ≤ room c
  match eop c with
  | 0x04 => red
  | 0x05 => red
  | 0x06 => red
  | 0x01 => nia c ≤ noa c
  | 0x02 => products c % rlen c == 0 && nout c ≤ 64 && nout c ≤ room c
  | 0x03 => products c % rlen c == 0 && nout c ≤ 64 && nout c ≤ room c
  | 0x08 =>
    if mode c == 0 then nia c * elemsPerBeat 0x0B (widA c) ≤ room c
    else if mode c == 2 then nia c * 170 ≤ room c else true
  | 0x0A => isMx (ofmt c) && 1 ≤ noa c
  | 0x0B => (ofmt c == cFp32 || ofmt c == cBf16) && 128 * nia c ≤ room c
  | 0x0C => !isMx (ofmt c)
  | 0x0D => ofmt c == cFp32 || ofmt c == cBf16
  | 0x0E => nia c ≤ noa c
  | 0x0F => nia c ≤ noa c
  | 0x10 => nia c ≤ noa c
  | 0x11 => elemBits (ofmt c) (widA c) == 8 && (8 < widA c || nia c * elemsPerBeat 0x0C (widA c) ≤ room c)
  | 0x13 => nia c * elemsPerBeat 0x0B (widA c) ≤ room c
  | 0x14 => 64 ≤ room c
  | _ => true

/-- The register fields that a stochastic EOP uses: SD, SA, SB, SC, NSTR, ISTR, CINC, KLOG (R333). -/
def stochUses (e : Nat) : Bool × Bool × Bool × Bool × Bool × Bool × Bool × Bool :=
  match e with
  | 0x20 => (true, false, false, false, true, false, true, false)
  | 0x23 => (true, true, true, true, false, true, false, false)
  | 0x24 => (true, true, false, false, false, true, false, false)
  | 0x28 => (false, true, false, false, false, true, false, false)
  | 0x29 => (true, true, false, false, false, true, false, false)
  | 0x2A => (true, true, false, false, false, true, false, true)
  | _ => (true, true, true, false, false, true, false, false)

/-- A numeric format: neither NONE nor STREAM nor reserved nor FP32X3 (R333, SCNT). -/
def isNumeric (code : Nat) : Bool := 1 ≤ code && code ≤ 0x0C

/-- A STOCH context obeys R333 and R337. -/
def stochOk (c : List Word) : Bool :=
  let (uD, uA, uB, uC, uN, uI, uK, uL) := stochUses (eop c)
  (uD || sd c == 0) && (uA || srA c == 0) && (uB || srB c == 0) && (uC || srC c == 0) && (uN || nstr c == 1)
    && (uI || !istr c) && (uK || !cinc c) && (uL || klog c == 0)
    && ring c == 0 && (istr c == (imask c != 0)) && (!istr c || srA c == 0)
    && sd c + nstr c ≤ 16 && (!uL || (1 ≤ klog c && klog c ≤ 8))
    && nia c == (if istr c then streamBeats c else 1) && nib c == 0 && nic c == 0
    && (match eop c with
      | 0x20 => noa c == 0
      | 0x28 => noa c == 0 || (noa c == 1 && isNumeric (ofmt c))
      | _ => noa c == 0 || (noa c == streamBeats c && ofmt c == 0x0D))
    && ((eop c != 0x20 && eop c != 0x29) || rnd c != 4)

/-- The context breaks a load check of R298; the presence of its ring image is checked beside. -/
def bad (c : List Word) : Bool :=
  reservedBad c || !modeTakes c || (eop c != 0 && !fcwOk c) || 4 < rnd c || 5 < cmp c
    || (List.range 19).any (fun j => 18 < vsel c j) || (List.range 5).any (fun j => 5 < ssel c j)
    || (nob c != 0 && nob c != noa c) || ((ring c != 0) != (eop c == 0x0F || eop c == 0x10))
    || (eop c != 0 && !(if isStoch c then stochOk c else emitOk c))

/-- A ring image holds a reserved bit: bits 63:60 of a W1 (R317). -/
def ringBad (ws : List Word) : Bool := (List.range 96).any fun k => bits (w ws (2 * k + 1)) 63 60 != 0

/-- A context set holds a reserved bit, in its header or an entry, or a number of entries outside 1 to 4,096 (R295). -/
def setBad (set : List Word) : Bool :=
  let h := (set.getD 0 0).toNat
  bits h 31 0 != 0 || bits h 47 32 == 0 || 4096 < bits h 47 32 || (set.drop 1).any fun e => bits e.toNat 7 0 != 0

/-- A delta entry holds a reserved bit (R297). -/
def deltaBad (w0 : Word) : Bool := bits w0.toNat 63 48 != 0 || bits w0.toNat 25 0 != 0

/-- Images of a ring: 96 entries of two words (R317). -/
def ringOf (ws : List Word) : List (Nat × Nat) := (List.range 96).map fun k => (w ws (2 * k), w ws (2 * k + 1))

/-! ## Circuits (R294, R358, R412) -/

/-- An output of an FE. -/
inductive Out | oa | ob | so
  deriving DecidableEq, Repr

/-- What the circuits of a region are drawn from: width, height, the running context of each relative FE, the die of
each, and the linked crossings. -/
structure Net where
  w : Nat
  h : Nat
  ctx : Nat → Nat → List Word
  die : Nat → Nat → Nat
  routes : List Word

/-- A route record names the track that leaves an FE by an edge; network 1 is the scalar one (R358). -/
def linked (n : Net) (c r e t : Nat) (scalar : Bool) : Bool :=
  n.routes.any fun x =>
    let v := x.toNat
    bits v 47 39 == c && bits v 38 32 == r && bits v 31 30 == e && bits v 29 28 == t && bit v 27 == scalar

/-- The FE across an edge: north, east, south, west. -/
def across (n : Net) (c r e : Nat) : Option (Nat × Nat) :=
  match e with
  | 0 => if r = 0 then none else some (c, r - 1)
  | 1 => if c + 1 < n.w then some (c + 1, r) else none
  | 2 => if r + 1 < n.h then some (c, r + 1) else none
  | _ => if c = 0 then none else some (c - 1, r)

/-- The output that a source code of FE (c, r) leads back to, within `fuel` switch boxes. Nothing enters from outside
the rectangle, and a die boundary carries only linked tracks. -/
def traceBack (n : Net) (scalar : Bool) : Nat → Nat → Nat → Nat → Option (Nat × Nat × Out)
  | 0, _, _, _ => none
  | fuel + 1, c, r, code =>
    if code = 0 then none
    else if scalar && code = 5 then some (c, r, .so)
    else if !scalar && code = 17 then some (c, r, .oa)
    else if !scalar && code = 18 then some (c, r, .ob)
    else
      let e := if scalar then code - 1 else (code - 1) / 4
      let t := if scalar then 0 else (code - 1) % 4
      match across n c r e with
      | none => none
      | some (c', r') =>
        let back := (e + 2) % 4
        if n.die c r ≠ n.die c' r' && !linked n c' r' back t scalar then none
        else traceBack n scalar fuel c' r' (if scalar then ssel (n.ctx c' r') back else vsel (n.ctx c' r') (4 * back + t))

/-- Switch boxes that a loop-free circuit can pass. -/
def Net.fuel (n : Net) : Nat := 16 * n.w * n.h + 1

/-- The FEs and inputs (0 IA, 1 IB, 2 IC) that an output feeds. -/
def feeds (n : Net) (c r : Nat) (o : Out) : List (Nat × Nat × Nat) :=
  (List.range n.h).flatMap fun r' => (List.range n.w).flatMap fun c' => (List.range 3).filterMap fun k =>
    if traceBack n false n.fuel c' r' (vsel (n.ctx c' r') (16 + k)) == some (c, r, o) then some (c', r', k) else none

/-- The FEs whose scalar input an output feeds, and which take it (KREG = 15; R294). -/
def feedsScalar (n : Net) (c r : Nat) : List (Nat × Nat) :=
  (List.range n.h).flatMap fun r' => (List.range n.w).filterMap fun c' =>
    if kreg (n.ctx c' r') == 15 && eop (n.ctx c' r') != 0
        && traceBack n true n.fuel c' r' (ssel (n.ctx c' r') 4) == some (c, r, .so) then some (c', r') else none

end Sys2Proof.Machine.Cfg
end

