-- ==== Sys2Proof/Machine/Elements.lean ====
section
/-! DEFINITION. What one firing of an FE computes (R308 to R318, R337 to R341): decoding of beats, emission, accumulators,
and each element operation on the FE's own state. What a firing does outside its FE stands in Region.lean. -/

namespace Sys2Proof.Machine.Elements

open Sys2Proof.Bits Sys2Proof.Machine.NumFmt

/-! ## Firings -/

/-- The inputs of a firing: the beats consumed, the scalar token, the FE's shelf bytes from offset 0x0000, a source of
free values, and whether a residue check fails (R54). -/
structure FireIn where
  a : List Beat
  b : List Beat
  c : List Beat
  si : Option (BitVec 32)
  shelf : Memory
  base : Nat
  free : Nat
  upset : Bool
  deriving DecidableEq, Repr

/-- A stream register as an S operation writes it: register, bits, mask (R332). -/
structure StreamOut where
  reg : Nat
  val : Nat
  mask : Nat
  deriving DecidableEq, Repr

/-- What a firing leaves: the FE's state, the beats emitted on OA, stream registers written, and whether a check
failed. -/
structure FireOut where
  fe : Fe
  beats : List Beat
  streams : List StreamOut
  failed : Bool
  deriving DecidableEq, Repr

/-- A fault of a firing: code, MASKA and MASKB (R336). -/
structure FireFault where
  code : Nat
  ma : Nat
  mb : Nat
  deriving DecidableEq, Repr

/-- A fault without masks. -/
def plainFault (code : Nat) : FireFault := ⟨code, 0, 0⟩

/-- The byte of the FE's shelf at an offset. -/
def FireIn.byte (x : FireIn) (o : Nat) : Byte := x.shelf.read (x.base + o % 0x8000)

/-! ## Decoding (R181, R182, R308, R309) -/

/-- A decoded element: its pattern, format, block scale, and its value before the scale. -/
structure Elem where
  pat : Nat
  code : Nat
  scale : Nat
  num : Num
  deriving DecidableEq, Repr

/-- The value with its block scale (R185). -/
def Elem.value (e : Elem) : Num := if isMx e.code then (if e.scale = 0xFF then .nan else scale2 e.num ((e.scale : Int) - 127)) else e.num

/-- An integer format. -/
def isInt (code : Nat) : Bool := code == 0x0B || code == 0x0C

/-- Operand width that a format needs in the bricks (R181). -/
def brickWidth (code : Nat) : Nat :=
  match code with
  | 0x02 => 8 | 0x03 => 12 | 0x08 => 2 | 0x09 => 8 | 0x0E => 8 | _ => 4

/-- MODE ADD takes a format for an EOP on input A or B (R311, R314 to R316, R318). -/
def addTakes (c : List Word) (code : Nat) : Bool :=
  match Cfg.eop c with
  | 0x0A => code == cFp32 || code == cBf16
  | 0x0B => isMx code
  | 0x0E => code == cFp32
  | 0x11 => code == 0x0C && Cfg.widA c ≤ 8
  | 0x13 => isInt code
  | 0x04 => isInt code || Cfg.acc c == 1
  | 0x05 => isInt code || Cfg.acc c == 1
  | 0x06 => isInt code || Cfg.acc c == 1
  | _ => true

/-- A context decodes a format on input A, or B (R181, R182, R300, R311, R337, R415). -/
def takes (c : List Word) (onB : Bool) (code : Nat) : Bool :=
  let s := if onB then Cfg.sb c else Cfg.sa c
  let n := if onB then Cfg.widB c else Cfg.widA c
  match Cfg.mode c with
  | 0 => isInt code && s == (code == 0x0B)
  | 1 => ((2 ≤ code && code ≤ 9) || code == 0x0E) && brickWidth code ≤ n && s == (code == 9)
  | 2 => code == 0x0A
  | 3 => 1 ≤ code && code ≤ 0x0C
  | 4 => code == cFp32 || code == cBf16
  | _ => 1 ≤ code && code ≤ 0x0C && addTakes c code && (!isInt code || s == (code == 0x0B))

/-- Width of an integer element: the FCW's, or 16 bits for SGEN (R415). -/
def inWidth (c : List Word) (onB : Bool) : Nat := if Cfg.isStoch c then 16 else if onB then Cfg.widB c else Cfg.widA c

/-- One beat decoded through vc(tag): its sideband goes to the paired block-scale register unless that holds (R309). -/
def decodeBeat (c : List Word) (onB : Bool) (f : Fe) (b : Beat) : Except FireFault (List Elem × Fe) :=
  let t := b.tag.toNat
  let code := (f.vc.toList.getD t 0).toNat
  if code = 0 then .error (plainFault codeFmtUnbound)
  else if !takes c onB code then .error (plainFault codeFcwInvalid)
  else
    let old := f.bs.toList.getD t 0
    let new := if old.getLsbD 32 then old else (b.side.setWidth 33 : BitVec 33)
    let n := inWidth c onB
    let eb := elemBits code n
    let es := (List.range (elemsPerBeat code n)).map fun k =>
      let p := bits b.data.toNat (eb * k + eb - 1) (eb * k)
      { pat := p, code, scale := if isMx code then bits new.toNat (8 * (k / 32 % 4) + 7) (8 * (k / 32 % 4)) else 127,
        num := decode code n p : Elem }
    .ok (es, { f with bs := f.bs.setIfInBounds t new })

/-- The beats of an input in arrival order (R308): elements numbered across them. -/
def decodeBeats (c : List Word) (onB : Bool) : Fe → List Beat → Except FireFault (List Elem × Fe)
  | f, [] => .ok ([], f)
  | f, b :: bs =>
    match decodeBeat c onB f b with
    | .error x => .error x
    | .ok (es, f) => match decodeBeats c onB f bs with
      | .error x => .error x
      | .ok (rest, f) => .ok (es ++ rest, f)

/-- The value of an element beyond an input: 0 (R311). -/
def valueAt (es : List Elem) (k : Nat) : Num := (es[k]?.map Elem.value).getD (zero false)

/-! ## Constants (R294) -/

/-- The constant that the operation reads: under KREG = 15 its low half is the scalar token. -/
def constant (c : List Word) (f : Fe) (x : FireIn) : Nat :=
  let k := (f.core.k.toList.getD (Cfg.kreg c) 0).toNat
  if Cfg.kreg c = 15 then match x.si with
    | some v => k / 2 ^ 32 * 2 ^ 32 + v.toNat
    | none => k
  else k

/-! ## Generators (R331) -/

/-- `gen(k, i, B)`. -/
def gen (f : Fe) (k i b : Nat) : Nat := bitrev b (((2 * k + 1) * i + (f.core.seed.toList.getD k 0).toNat) % 2 ^ b)

/-- The next draw of class k for stochastic rounding, and the index moved on. -/
def draw (f : Fe) (k : Nat) : Nat × Fe :=
  let i := f.core.idx.toList.getD k 0
  (gen f k i.toNat 12, { f with core := { f.core with idx := f.core.idx.setIfInBounds k (i + 1) } })

/-! ## Emission (R310) -/

/-- One value rounded to OFMT with RND. -/
def roundOut (c : List Word) (f : Fe) (v : Num) : Nat × Fe :=
  let n := Cfg.outWidth c
  if Cfg.rnd c = 4 ∧ usesDraw (Cfg.ofmt c) n v then
    let (g, f) := draw f (Cfg.gcls c)
    (encodeNum (Cfg.ofmt c) n ⟨4, g, 12⟩ v, f)
  else (encodeNum (Cfg.ofmt c) n ⟨Cfg.rnd c, 0, 12⟩ v, f)

/-- Values rounded in ascending order. -/
def roundAll (c : List Word) : Fe → List Num → List Nat × Fe
  | f, [] => ([], f)
  | f, v :: vs =>
    let (p, f) := roundOut c f v
    let (ps, f) := roundAll c f vs
    (p :: ps, f)

/-- Patterns of `eb` bits packed from bit 0. -/
def packed (eb : Nat) (ps : List Nat) : Nat := (indexed 0 ps).foldl (fun n x => n + x.2 % 2 ^ eb * 2 ^ (eb * x.1)) 0

/-- Marks that a firing passes on when it emits `n` beats (R310). -/
def passMarks (ia : List Beat) (n : Nat) : List (BitVec 6) :=
  if ia.length = n then ia.map fun b => b.marks
  else (List.range n).map fun j => if j + 1 = n then ia.foldl (fun m b => m ||| b.marks) 0 else 0

/-- Sideband of a beat that is not of a microscaling OFMT (R308). -/
def plainSide : BitVec 32 := 0x7F7F7F7F

/-- A beat of the context's OTAG. -/
def outBeat (c : List Word) (data side : Nat) (marks : BitVec 6) : Beat :=
  { data := BitVec.ofNat 1024 data, side := BitVec.ofNat 32 side, tag := BitVec.ofNat 5 (Cfg.otag c), marks, iter := 0 }

/-- Beats with the data given, their marks beside. -/
def outBeats (c : List Word) (datas : List Nat) (side : Nat) (marks : List (BitVec 6)) : List Beat :=
  (indexed 0 datas).map fun x => outBeat c x.2 side (marks.getD x.1 0)

/-- Patterns in OFMT packed into NOA beats; FCW_INVALID when they do not fit (R310). -/
def packOut (c : List Word) (ps : List Nat) (side : Nat) (marks : List (BitVec 6)) : Except FireFault (List Beat) :=
  let per := elemsPerBeat (Cfg.ofmt c) (Cfg.outWidth c)
  let eb := elemBits (Cfg.ofmt c) (Cfg.outWidth c)
  if Cfg.noa c * per < ps.length ∨ ((Cfg.ofmt c = 0 ∨ 0x0D ≤ Cfg.ofmt c) ∧ ps ≠ []) then .error (plainFault codeFcwInvalid)
  else .ok (outBeats c ((List.range (Cfg.noa c)).map fun j => packed eb ((ps.drop (per * j)).take per)) side marks)

/-- A firing that emits values by R310, with the marks given. -/
def emitWith (c : List Word) (f : Fe) (vs : List Num) (marks : List (BitVec 6)) (failed : Bool) :
    Except FireFault FireOut :=
  let (ps, f) := roundAll c f vs
  match packOut c ps plainSide.toNat marks with
  | .ok bs => .ok ⟨f, bs, [], failed⟩
  | .error e => .error e

/-- A firing whose marks pass as R310 gives. -/
def emitVals (c : List Word) (f : Fe) (x : FireIn) (vs : List Num) (failed : Bool) : Except FireFault FireOut :=
  emitWith c f vs (passMarks x.a (Cfg.noa c)) failed

/-- A firing that emits nothing. -/
def emitNone (f : Fe) (failed : Bool) : Except FireFault FireOut := .ok ⟨f, [], [], failed⟩

/-! ## Accumulators (R55, R301) -/

/-- The parity bits of an accumulator value: one even-parity bit for each 16 bits. -/
def parityOf (v : BitVec 48) : BitVec 3 :=
  BitVec.ofNat 3 (popcN 16 v.toNat % 2 + 2 * (popcN 16 (v.toNat / 2 ^ 16) % 2) + 4 * (popcN 16 (v.toNat / 2 ^ 32) % 2))

/-- An accumulator holding a value, its parity with it. -/
def mkAcc (v : BitVec 48) : Acc := ⟨v, parityOf v⟩

/-- The parity agrees. -/
def Acc.good (a : Acc) : Bool := a.parity == parityOf a.v

/-- Accumulator `k`: lane k mod 64 of bank k div 64. -/
def accAt (f : FeCore) (k : Nat) : Acc := f.acc.toList.getD k ⟨0, 0⟩

/-- The FE's state with accumulator `k` set. -/
def setAcc (f : FeCore) (k : Nat) (v : BitVec 48) : FeCore := { f with acc := f.acc.setIfInBounds k (mkAcc v) }

/-- First accumulator of the running bank. -/
def runBase (f : FeCore) : Nat := if f.bank then 64 else 0

/-- Accumulators `k` to `k + n − 1` zeroed. -/
def zeroAccs (f : FeCore) (k n : Nat) : FeCore := (List.range n).foldl (fun f j => setAcc f (k + j) 0) f

/-- A reduction of `n` elements begins to take values: a running set that has taken nothing starts from zero. -/
def openRun (f : FeCore) (wide : Bool) : FeCore :=
  if f.taken ≠ 0 then f else if wide then zeroAccs f 0 128 else zeroAccs f (runBase f) 64

/-- A reduction end in the first way: flip the selector; the new running bank starts empty. -/
def flip (f : FeCore) : FeCore :=
  let f := { f with bank := !f.bank, taken := 0, wide := false }
  zeroAccs f (runBase f) 64

/-- A reduction end in the second way: the values stay until the next reduction's first firing. -/
def keep (f : FeCore) : FeCore := { f with taken := 0, wide := true }

/-- Output `o` of the values completed last (R301). -/
def completed (f : FeCore) (o : Nat) : Acc :=
  if f.wide then accAt f o else accAt f ((if f.bank then 0 else 64) + o)

/-- The value that an accumulator stands for (R310, R325): FP32, or an integer, in LNS mode times 2^−19. -/
def accNum (c : List Word) (v : BitVec 48) : Num :=
  if Cfg.acc c = 1 then f32 (v.toNat % 2 ^ 32)
  else if Cfg.acc c = 2 then ofInt v.toNat
  else if Cfg.mode c = 2 then ofScaled v.toInt (-19)
  else ofInt v.toInt

/-- Mark RDIM is on some consumed beat. -/
def ends (c : List Word) (ia : List Beat) : Bool := ia.any fun b => b.marks.getLsbD (Cfg.rdim c)

/-- Marks of an emission at a reduction end: those of the triggering beat above RDIM, lowered by RDIM + 1, on the last
beat (R312). -/
def endMarks (c : List Word) (ia : List Beat) : List (BitVec 6) :=
  let m := (ia.filter fun b => b.marks.getLsbD (Cfg.rdim c)).foldl (fun m b => m ||| b.marks) (0 : BitVec 6)
  (List.range (Cfg.noa c)).map fun j => if j + 1 = Cfg.noa c then m >>> (Cfg.rdim c + 1) else 0

/-- The bad parity of an accumulator that is about to be updated. -/
def badAcc (f : FeCore) (k : Nat) : Bool := !Acc.good (accAt f k)

/-! ## DOT and DOTS (R312) -/

/-- The terms that a product puts into its window: one, or the six of FP32X3 (R187). The product of an FP32X3 element
and another format has no stated value: a free one (log 8). -/
def terms (c : List Word) (free : Nat) (a b : Option Elem) : List Num :=
  match a, b with
  | some a, some b =>
    if Cfg.mode c = 2 then [ofInt (lnsTerm a.pat b.pat)]
    else if a.code = 0x0E ∧ b.code = 0x0E then x3Products a.pat b.pat
    else if a.code = 0x0E ∨ b.code = 0x0E then [ofInt (Config.freeNat free)]
    else [mul a.num b.num]
  | _, _ => [zero false]

/-- close(o): a window enters its accumulator (R192, R193, R195). -/
def closeWin (c : List Word) (o : Nat) (f : FeCore) : FeCore :=
  match aget o f.wins with
  | none => f
  | some w =>
    let k := runBase f + o
    let old := (accAt f k).v
    let f := { f with wins := adel o f.wins }
    if Cfg.mode c = 2 then
      let s := w.terms.foldl (fun (n : Int) t => match t with | .fin g m _ => n + sig g m | _ => n) 0
      if Cfg.acc c = 0 then setAcc f k (old + BitVec.ofInt 48 s)
      else setAcc f k (BitVec.ofNat 48 (addF32 (old.toNat % 2 ^ 32) (ofScaled s (-19))))
    else setAcc f k (BitVec.ofNat 48 (addF32 (old.toNat % 2 ^ 32) (windowSum w.terms w.sa w.sb)))

/-- A closing window meets bad parity in its accumulator, which it updates (R55). -/
def closeBad (f : FeCore) (o : Nat) : Bool := (aget o f.wins).isSome && badAcc f (runBase f + o)

/-- Window `o` closed, with whether a check failed before or now. -/
def closeChecked (c : List Word) (y : FeCore × Bool) (o : Nat) : FeCore × Bool := (closeWin c o y.1, y.2 || closeBad y.1 o)

/-- One term appended to window `o`; a window of 32 terms closes (R192). -/
def putTerm (c : List Word) (o sa sb : Nat) (y : FeCore × Bool) (t : Num) : FeCore × Bool :=
  let w := agetD ⟨[], sa, sb⟩ o y.1.wins
  let f := { y.1 with wins := aset o { w with terms := w.terms ++ [t] } y.1.wins }
  if w.terms.length + 1 = 32 then closeChecked c (f, y.2) o else (f, y.2)

/-- Scale of an element, 127 without one (R185, R312). -/
def scaleOf (e : Option Elem) : Nat := (e.map fun x => x.scale).getD 127

/-- Product `k` of output `o` taken into its accumulator or window; an update checks the accumulator's parity (R55). -/
def dotStep (c : List Word) (a b : List Elem) (free o k : Nat) (y : FeCore × Bool) : FeCore × Bool :=
  let r := Cfg.rlen c
  let ia := (o >>> Cfg.ash c) * r + k
  let ib := (o &&& Cfg.bmsk c) * r + k
  if Cfg.mode c = 0 then
    let p := mul (valueAt a ia) (valueAt b ib)
    let i := match p with | .fin g m e => sig g m * 2 ^ e.toNat | _ => 0
    let j := runBase y.1 + o
    (setAcc y.1 j ((accAt y.1 j).v + BitVec.ofInt 48 i), y.2 || badAcc y.1 j)
  else
    (terms c (free + r * o + k) (a[ia]?) (b[ib]?)).foldl (putTerm c o (scaleOf (a[ia]?)) (scaleOf (b[ib]?))) y

/-- The values that DOT or DOTS emits: accumulators, under DOTS times the constant's FP32 value. -/
def dotVals (c : List Word) (f : Fe) (x : FireIn) : List Num :=
  (List.range (Cfg.nout c)).map fun o =>
    let v := accNum c (accAt f.core (runBase f.core + o)).v
    if Cfg.eop c = 3 then mul v (f32 (constant c f x % 2 ^ 32)) else v

/-- A DOT or DOTS firing. -/
def dotFire (c : List Word) (f : Fe) (x : FireIn) : Except FireFault FireOut := do
  let (a, f) ← decodeBeats c false f x.a
  let (b, f) ← decodeBeats c true f x.b
  if Cfg.mode c = 1 ∧ (a ++ b).any (fun e => isMx e.code) ∧ Cfg.rlen c % 32 ≠ 0 then .error (plainFault codeFcwInvalid)
  else
    let core := openRun f.core false
    let n := Cfg.nout c
    let (core, failed) := (List.range n).foldl (fun y o =>
      (List.range (Cfg.rlen c)).foldl (fun y k => dotStep c a b x.free o k y) y) (core, x.upset)
    let core := { core with taken := max core.taken n }
    if ends c x.a then
      let (core, failed) := (List.range n).foldl (closeChecked c) (core, failed)
      let f := { f with core := core }
      emitWith c { f with core := flip core } (dotVals c f x) (endMarks c x.a) failed
    else emitNone { f with core := core } failed

/-! ## REDADD, REDMAX, REDMIN, CNT (R316) -/

/-- One element taken into its accumulator. -/
def redStep (c : List Word) (base : Nat) (f : FeCore) (x : Nat × Num) : FeCore :=
  let k := base + x.1
  let old := (accAt f k).v
  let first := f.taken ≤ x.1
  if Cfg.acc c = 1 then
    let o := f32 (old.toNat % 2 ^ 32)
    let v := match Cfg.eop c with
      | 0x04 => addF32 (old.toNat % 2 ^ 32) x.2
      | 0x05 => toF32 (if first then x.2 else redMax o x.2)
      | _ => toF32 (if first then x.2 else redMin o x.2)
    setAcc f k (BitVec.ofNat 48 v)
  else
    let i := match x.2 with | .fin g m e => sig g m * 2 ^ e.toNat | _ => 0
    let v := match Cfg.eop c with
      | 0x04 => old.toInt + i
      | 0x05 => if first then i else max old.toInt i
      | _ => if first then i else min old.toInt i
    setAcc f k (BitVec.ofInt 48 v)

/-- One beat combined; the element count of the beat, and whether a parity was bad. -/
def redBeat (c : List Word) (f : Fe) (b : Beat) : Except FireFault (Fe × Nat × Bool) := do
  let (es, f) ← decodeBeat c false f b
  let n := es.length
  if 128 < n then .error (plainFault codeFcwInvalid)
  else
    let core := openRun f.core (64 < n)
    let base := if 64 < n then 0 else runBase core
    let bad := (List.range n).any fun k => badAcc core (base + k)
    let core := (indexed 0 (es.map Elem.value)).foldl (redStep c base) core
    .ok ({ f with core := { core with taken := max core.taken n } }, n, bad)

/-- The beats of a firing combined in order. -/
def redBeats (c : List Word) : Fe → Nat → Bool → List Beat → Except FireFault (Fe × Nat × Bool)
  | f, n, bad, [] => .ok (f, n, bad)
  | f, _, bad, b :: bs =>
    match redBeat c f b with
    | .error e => .error e
    | .ok (f, n, bad') => redBeats c f n (bad || bad') bs

/-- The value that a reduction emits for element `k`. A maximum or minimum of no values is not stated: a free one (log 8). -/
def redVal (c : List Word) (f : FeCore) (free base k : Nat) : Num :=
  if Cfg.eop c ≠ 0x04 ∧ f.taken ≤ k then ofInt (Config.freeNat (free + k)) else accNum c (accAt f (base + k)).v

/-- A REDADD, REDMAX or REDMIN firing: at the reduction end its 64 or 128 values (R316). -/
def redFire (c : List Word) (f : Fe) (x : FireIn) : Except FireFault FireOut := do
  let (f, n, bad) ← redBeats c f 0 false x.a
  if ends c x.a then
    let base := if 64 < n then 0 else runBase f.core
    let vs := (List.range (Cfg.redCount n)).map (redVal c f.core x.free base)
    let core := if 64 < n then keep f.core else flip f.core
    emitWith c { f with core := core } vs (endMarks c x.a) bad
  else emitNone f bad

/-- A CNT firing: ones of each 16-bit lane. -/
def cntFire (c : List Word) (f : Fe) (x : FireIn) : Except FireFault FireOut :=
  let core := openRun f.core false
  let bad := (List.range 64).any fun l => badAcc core (runBase core + l)
  let core := x.a.foldl (fun core b => (List.range 64).foldl (fun core l =>
    let k := runBase core + l
    setAcc core k ((accAt core k).v + BitVec.ofNat 48 (popcN 16 (b.data.toNat / 2 ^ (16 * l))))) core) core
  let core := { core with taken := 64 }
  if ends c x.a then
    let vs := (List.range 64).map fun l => ofInt (accAt core (runBase core + l)).v.toNat
    emitWith c { f with core := flip core } vs (endMarks c x.a) bad
  else emitNone { f with core := core } bad

/-! ## Element-wise operations (R311) -/

/-- Comparison by CMP; a NaN is false except under NE. -/
def cmpHolds (op : Nat) (a b : Num) : Bool :=
  match op with
  | 0 => lt a b
  | 1 => lt a b || NumFmt.eq a b
  | 2 => NumFmt.eq a b
  | 3 => !NumFmt.eq a b
  | 4 => lt b a || NumFmt.eq a b
  | _ => lt b a

/-- The integer that an element holds. -/
def intOf (v : Num) : Int := match v with | .fin g m e => sig g m * 2 ^ e.toNat | _ => 0

/-- The number with no sign on a zero. -/
def plusZero : Num → Num
  | .fin _ 0 e => .fin false 0 e
  | v => v

/-- The exact product of two elements under MULE: in LNS mode the log adder's, in INT mode the tree's two's-complement
product, which MXINT8's two's-complement elements have in every mode, else of the values (R185 to R187, R191). An element beyond the IB elements is a 0 of IA's format (R311). -/
def muleOf (c : List Word) (free : Nat) (a : Elem) (b : Option Elem) : Num :=
  let b := b.getD { a with pat := 0, scale := 127, num := zero false }
  if Cfg.mode c = 2 then let p := lnsProduct a.pat b.pat; decode 0x0A 6 ((if p.1 then 32 else 0) + p.2)
  else if Cfg.mode c = 0 then ofInt (intOf a.value * intOf b.value)
  else if a.code = 0x0E ∧ b.code = 0x0E then (x3Products a.pat b.pat).foldl add (zero false)
  else if a.code = 0x0E ∨ b.code = 0x0E then ofInt (Config.freeNat free)
  else if a.code = 0x09 ∧ b.code = 0x09 then plusZero (mul a.value b.value)
  else mul a.value b.value

/-- A constant's half read as CMPSEL reads it: FP32 for a floating element, else a signed 32-bit integer. -/
def halfOf (v : Nat) (floating : Bool) : Num := if floating then f32 (v % 2 ^ 32) else ofInt (sextI v 32)

/-- The result for IA element `k` of an element-wise operation. -/
def elemOf (c : List Word) (kv free : Nat) (b : List Elem) (k : Nat) (a : Elem) : Num :=
  match Cfg.eop c with
  | 0x07 => add a.value (valueAt b k)
  | 0x08 => muleOf c (free + k) a (b[k]?)
  | 0x09 => add (mul a.value (f32 (kv % 2 ^ 32))) (f32 (kv / 2 ^ 32))
  | 0x12 =>
    let fl := !isInt a.code
    if cmpHolds (Cfg.cmp c) a.value (halfOf kv fl) then a.value
    else if 0 < Cfg.nib c then valueAt b k else halfOf (kv / 2 ^ 32) fl
  | 0x13 =>
    let s := if 0 < Cfg.nib c then sextI (intOf (valueAt b k) % 256).toNat 8 else sextI kv 8
    scale2 a.value s
  | _ => a.value

/-- IB is read by ADD and MULE, and by CMPSEL and SHIFTV when NIB is not 0. -/
def readsB (c : List Word) : Bool :=
  Cfg.eop c == 7 || Cfg.eop c == 8 || ((Cfg.eop c == 0x12 || Cfg.eop c == 0x13) && Cfg.nib c != 0)

/-- An ADD, MULE, SCALE, CVT, CMPSEL or SHIFTV firing. -/
def mapFire (c : List Word) (f : Fe) (x : FireIn) : Except FireFault FireOut := do
  let (a, f) ← decodeBeats c false f x.a
  let (b, f) ← if readsB c then decodeBeats c true f x.b else .ok ([], f)
  let kv := constant c f x
  emitVals c f x ((indexed 0 a).map fun e => elemOf c kv x.free b e.1 e.2) x.upset

/-- PASS: the beats unchanged, marks kept, tag replaced. -/
def passFire (c : List Word) (f : Fe) (x : FireIn) : Except FireFault FireOut :=
  let ms := passMarks x.a (Cfg.noa c)
  .ok ⟨f, (List.range (Cfg.noa c)).map (fun j => match x.a[j]? with
    | some b => { b with tag := BitVec.ofNat 5 (Cfg.otag c), marks := ms.getD j 0 }
    | none => outBeat c 0 plainSide.toNat (ms.getD j 0)), [], false⟩

/-! ## QUANT, DEQ, BFLY, SPLIT3 (R313 to R315) -/

/-- One group quantised: its patterns and scale. -/
def quantOne (c : List Word) (f : Fe) (xs : List Num) : List Nat × Nat × Fe :=
  let s := groupScale (Cfg.ofmt c) xs
  let (ps, f) := roundAll c f (xs.map (underScale s))
  (ps, s, f)

/-- The groups of a firing. -/
def quantAll (c : List Word) : Fe → List (List Num) → List Nat × List Nat × Fe
  | f, [] => ([], [], f)
  | f, g :: gs =>
    let (ps, s, f) := quantOne c f g
    let (qs, ss, f) := quantAll c f gs
    (ps ++ qs, s :: ss, f)

/-- A QUANT firing. -/
def quantFire (c : List Word) (f : Fe) (x : FireIn) : Except FireFault FireOut := do
  let (a, f) ← decodeBeats c false f x.a
  let code := (a.head?.map fun e => e.code).getD 0
  if !(a.all fun e => e.code == code) || !((code == cFp32 && Cfg.nia c == 4) || (code == cBf16 && Cfg.nia c == 2)) then
    .error (plainFault codeFcwInvalid)
  else
    let groups := (List.range 4).map fun q => ((a.drop (32 * q)).take 32).map fun e => e.num
    let (ps, ss, f) := quantAll c f groups
    let side := packed 8 ss
    match packOut c ps side (passMarks x.a (Cfg.noa c)) with
    | .ok (b :: bs) => .ok ⟨f, b :: bs.map (fun b => { b with side := plainSide }), [], false⟩
    | .ok [] => emitNone f false
    | .error e => .error e

/-- A DEQ firing. -/
def deqFire (c : List Word) (f : Fe) (x : FireIn) : Except FireFault FireOut := do
  let (a, f) ← decodeBeats c false f x.a
  emitVals c f x (a.map Elem.value) false

/-- One stage of the butterfly on FP32 patterns (R313). -/
def bflyStage (v : List Nat) (s : Nat) : List Nat :=
  (List.range v.length).map fun i =>
    if i.testBit s then toF32 (add (f32 (v.getD (i - 2 ^ s) 0)) (neg (f32 (v.getD i 0))))
    else toF32 (add (f32 (v.getD i 0)) (f32 (v.getD (i + 2 ^ s) 0)))

/-- A block of 2^S elements transformed. -/
def bflyBlock (s : Nat) (v : List Nat) : List Nat := (List.range s).foldl bflyStage v

/-- A BFLY firing. Elements that fill no whole block have no stated result: free ones (log 8). -/
def bflyFire (c : List Word) (f : Fe) (x : FireIn) : Except FireFault FireOut := do
  let (a, f) ← decodeBeats c false f x.a
  let n := 2 ^ Cfg.bstg c
  let v := a.map fun e => toF32 e.num
  let whole := (List.range (v.length / n)).flatMap fun j => bflyBlock (Cfg.bstg c) ((v.drop (n * j)).take n)
  let rest := (List.range (v.length % n)).map fun k => Config.freeNat (x.free + k) % 2 ^ 32
  emitVals c f x ((whole ++ rest).map f32) false

/-- A SPLIT3 firing: one FP32X3 beat for each FP32 beat. -/
def split3Fire (c : List Word) (f : Fe) (x : FireIn) : Except FireFault FireOut := do
  let (a, f) ← decodeBeats c false f x.a
  let datas := (List.range (Cfg.noa c)).map fun j =>
    packed 48 (((a.drop (32 * j)).take 21).map fun e => split3 e.pat)
  .ok ⟨f, outBeats c datas plainSide.toNat (passMarks x.a (Cfg.noa c)), [], false⟩

/-! ## LUT6, FSM, TABLE (R317, R318) -/

/-- Bit `b` of LUT6 of a beat. -/
def lut6Bit (ring : List (Nat × Nat)) (d b : Nat) : Bool :=
  let e := ring.getD (b % 96) (0, 0)
  let idx := (List.range 6).foldl (fun n q => n + (if d.testBit ((b + bits e.2 (10 * q + 9) (10 * q)) % 1024) then 2 ^ q else 0)) 0
  e.1.testBit idx

/-- A number from its bits 0 to n − 1. -/
def ofBits (n : Nat) (g : Nat → Bool) : Nat := (List.range n).foldl (fun v b => v + (if g b then 2 ^ b else 0)) 0

/-- A LUT6 firing. -/
def lut6Fire (c : List Word) (f : Fe) (x : FireIn) : Except FireFault FireOut :=
  let datas := (List.range (Cfg.noa c)).map fun j => match x.a[j]? with
    | some b => ofBits 1024 (lut6Bit f.ring b.data.toNat)
    | none => 0
  .ok ⟨f, outBeats c datas plainSide.toNat (passMarks x.a (Cfg.noa c)), [], false⟩

/-- Machine `r` over its 64 bits: state and output bits. -/
def fsmRun (ring : List (Nat × Nat)) (r d : Nat) : Nat → Nat → Nat → Nat × Nat
  | 0, _, s => (s, 0)
  | n + 1, k, s =>
    let idx := (if d.testBit (64 * r + k) then 32 else 0) + s
    let out := (ring.getD (6 * r + 5) (0, 0)).1.testBit idx
    let s' := (List.range 5).foldl (fun v j => v + (if (ring.getD (6 * r + j) (0, 0)).1.testBit idx then 2 ^ j else 0)) 0
    let (t, o) := fsmRun ring r d n (k + 1) s'
    (t, (if out then 2 ^ (64 * r + k) else 0) + o)

/-- One beat through the 16 machines; states reset after a beat that carries mark RDIM. -/
def fsmBeat (c : List Word) (f : Fe) (b : Beat) : Nat × Fe :=
  let rs := (List.range 16).map fun r => fsmRun f.ring r b.data.toNat 64 0 (f.core.fsm.toList.getD r 0).toNat
  let fsm := if b.marks.getLsbD (Cfg.rdim c) then Vector.replicate 16 0
    else Vector.ofFn fun (r : Fin 16) => BitVec.ofNat 5 (rs.getD r.val (0, 0)).1
  (rs.foldl (fun n x => n + x.2) 0, { f with core := { f.core with fsm := fsm } })

/-- The beats of an FSM firing in order. -/
def fsmBeats (c : List Word) : Fe → List Beat → List Nat × Fe
  | f, [] => ([], f)
  | f, b :: bs =>
    let (d, f) := fsmBeat c f b
    let (ds, f) := fsmBeats c f bs
    (d :: ds, f)

/-- An FSM firing. -/
def fsmFire (c : List Word) (f : Fe) (x : FireIn) : Except FireFault FireOut :=
  let (ds, f) := fsmBeats c f x.a
  let datas := (List.range (Cfg.noa c)).map fun j => ds.getD j 0
  .ok ⟨f, outBeats c datas plainSide.toNat (passMarks x.a (Cfg.noa c)), [], false⟩

/-- A TABLE firing: each element names a shelf byte, which is the 8-bit element emitted. -/
def tableFire (c : List Word) (f : Fe) (x : FireIn) : Except FireFault FireOut := do
  let (a, f) ← decodeBeats c false f x.a
  let base := constant c f x % 2 ^ 15
  match packOut c (a.map fun e => (x.byte (base + e.pat)).toNat) plainSide.toNat (passMarks x.a (Cfg.noa c)) with
  | .ok bs => .ok ⟨f, bs, [], false⟩
  | .error e => .error e

/-! ## Streams (R330, R332, R334 to R341) -/

/-- Bits L − 1 to 0 of st j. -/
def streamReg (c : List Word) (x : FireIn) (j : Nat) : Nat :=
  leNat ((List.range (Cfg.len c / 8)).map fun k => x.byte (0x6000 + 512 * j + k))

/-- Mask of a register operand: 0xFFFF when its LTAG is not the context's LCODE (R332). -/
def regMask (c : List Word) (f : Fe) (j : Nat) : Nat :=
  if (f.core.ltag.toList.getD j 7).toNat = Cfg.lcode c then (f.core.mask.toList.getD j 0xFFFF).toNat else 0xFFFF

/-- The stream carried by the IA beats (R330); a beat of another format is refused. -/
def iaStream (c : List Word) (f : Fe) (x : FireIn) : Except FireFault Nat :=
  let code := fun (b : Beat) => (f.vc.toList.getD b.tag.toNat 0).toNat
  match x.a.find? fun b => code b != 0x0D with
  | some b => .error (plainFault (if code b = 0 then codeFmtUnbound else codeFcwInvalid))
  | none => .ok ((indexed 0 (x.a.map fun b => b.data.toNat)).foldl (fun n d => n + d.2 * 2 ^ (1024 * d.1)) 0 % 2 ^ Cfg.len c)

/-- The first operand: bits and mask. -/
def operandA (c : List Word) (f : Fe) (x : FireIn) : Except FireFault (Nat × Nat) :=
  if Cfg.istr c then (iaStream c f x).map fun v => (v, Cfg.imask c)
  else .ok (streamReg c x (Cfg.srA c), regMask c f (Cfg.srA c))

/-- A result written to st(SD), and emitted when NOA is not 0 (R330, R333). -/
def streamOut (c : List Word) (f : Fe) (x : FireIn) (v mask : Nat) : FireOut :=
  let datas := (List.range (Cfg.noa c)).map fun j => v / 2 ^ (1024 * j) % 2 ^ 1024
  ⟨f, outBeats c datas plainSide.toNat (passMarks x.a (Cfg.noa c)), [⟨Cfg.sd c, v, mask⟩], false⟩

/-- SCORR with the masks as compared. -/
def scorr (ma mb : Nat) : FireFault := ⟨codeScorr, ma, mb⟩

/-- Exactly one bit is set. -/
def oneBit (m : Nat) : Bool := popcN 16 m == 1

/-- SAND and SOR: operands of disjoint classes. -/
def disjointFire (op : Nat → Nat → Nat) (c : List Word) (f : Fe) (x : FireIn) : Except FireFault FireOut := do
  let (a, ma) ← operandA c f x
  let mb := regMask c f (Cfg.srB c)
  if ma &&& mb ≠ 0 then .error (scorr ma mb)
  else .ok (streamOut c f x (op a (streamReg c x (Cfg.srB c))) (ma ||| mb))

/-- SMINC, SMAXC and SXOR: operands of one class. -/
def sameFire (op : Nat → Nat → Nat) (c : List Word) (f : Fe) (x : FireIn) : Except FireFault FireOut := do
  let (a, ma) ← operandA c f x
  let mb := regMask c f (Cfg.srB c)
  if ma ≠ mb ∨ !oneBit ma then .error (scorr ma mb)
  else .ok (streamOut c f x (op a (streamReg c x (Cfg.srB c))) ma)

/-- SMUX: b where the select is 1, else a. -/
def smuxFire (c : List Word) (f : Fe) (x : FireIn) : Except FireFault FireOut := do
  let (a, ma) ← operandA c f x
  let mb := regMask c f (Cfg.srB c)
  let mc := regMask c f (Cfg.srC c)
  if mc &&& (ma ||| mb) ≠ 0 then .error (scorr (ma ||| mb) mc)
  else
    let s := streamReg c x (Cfg.srC c)
    .ok (streamOut c f x ((s &&& streamReg c x (Cfg.srB c)) ||| (a &&& (s ^^^ (2 ^ Cfg.len c - 1)))) (ma ||| mb ||| mc))

/-- SNOT. -/
def snotFire (c : List Word) (f : Fe) (x : FireIn) : Except FireFault FireOut := do
  let (a, ma) ← operandA c f x
  .ok (streamOut c f x (a ^^^ (2 ^ Cfg.len c - 1)) ma)

/-- The stream of count x_q in class k: bit t is 1 when x_q exceeds gen(k, t, B). -/
def genStream (c : List Word) (f : Fe) (k xq : Nat) : Nat :=
  ofBits (Cfg.len c) fun t => gen f k t (Cfg.lenLog c) < xq

/-- SREGEN. -/
def sregenFire (c : List Word) (f : Fe) (x : FireIn) : Except FireFault FireOut := do
  let (a, _) ← operandA c f x
  .ok (streamOut c f x (genStream c f (Cfg.gcls c) (popcN (Cfg.len c) a)) (2 ^ Cfg.gcls c))

/-- SFSM's counter over the stream: output bits from position t on. -/
def sfsmRun (k a : Nat) : Nat → Nat → Nat → Nat
  | 0, _, _ => 0
  | n + 1, t, s =>
    let s' := if a.testBit t then min (s + 1) (k - 1) else s - 1
    (if k / 2 ≤ s' then 2 ^ t else 0) + sfsmRun k a n (t + 1) s'

/-- SFSM. -/
def sfsmFire (c : List Word) (f : Fe) (x : FireIn) : Except FireFault FireOut := do
  let (a, ma) ← operandA c f x
  let k := 2 ^ Cfg.klog c
  .ok (streamOut c f x (sfsmRun k a (Cfg.len c) 0 (k / 2)) ma)

/-- quantise_stream of an element (R337): rounded once by RND. -/
def quantiseStream (c : List Word) (e : Elem) : Nat :=
  let l := Cfg.len c
  match e.value with
  | .nan => 0
  | .inf s => if s then 0 else l
  | v =>
    let i := if isInt e.code then intOf v
      else
        let y := if Cfg.bip c then scale2 (add v (ofInt 1)) ((Cfg.lenLog c : Int) - 1) else scale2 v (Cfg.lenLog c)
        match y with
        | .fin s m q =>
          let r := roundAt ⟨Cfg.rnd c, 0, 12⟩ s m q 0
          if s then -(r : Int) else r
        | _ => 0
    (max 0 (min (l : Int) i)).toNat

/-- SGEN. -/
def sgenFire (c : List Word) (f : Fe) (x : FireIn) : Except FireFault FireOut := do
  let (es, f) ← decodeBeats c false f x.a
  if es.length < Cfg.nstr c then .error (plainFault codeFcwInvalid)
  else
    let outs := (List.range (Cfg.nstr c)).map fun j =>
      let k := if Cfg.cinc c then (Cfg.gcls c + j) % 16 else Cfg.gcls c
      let xq := (es[j]?.map (quantiseStream c)).getD 0
      (⟨Cfg.sd c + j, genStream c f k xq, 2 ^ k⟩ : StreamOut)
    .ok ⟨f, [], outs, false⟩

/-- The value that SCNT emits for a count (R339). -/
def cntNum (c : List Word) (n : Nat) : Num :=
  let i : Int := if Cfg.bip c && Cfg.ofmt c != 0x0C then 2 * (n : Int) - Cfg.len c else n
  if isInt (Cfg.ofmt c) then ofInt i else ofScaled i (-(Cfg.lenLog c : Int))

/-- SCNT. -/
def scntFire (c : List Word) (f : Fe) (x : FireIn) : Except FireFault FireOut := do
  let (a, _) ← operandA c f x
  let n := popcN (Cfg.len c) a
  let core := openRun f.core false
  let k := runBase core
  let bad := badAcc core k
  let core := { setAcc core k ((accAt core k).v + BitVec.ofNat 48 n) with taken := max core.taken 1 }
  let core := if ends c x.a then flip core else core
  let f := { f with core := core }
  if Cfg.noa c = 0 then emitNone f bad else emitVals c f x [cntNum c n] bad

/-! ## Iterations and nests (R301, R306, R319) -/

/-- The reset that CARRY = 0 makes at an iteration's start: the running values, open windows and FSM states. Values kept
since the last reduction end stay (R301). -/
def restart (f : FeCore) : FeCore :=
  let f := { f with wins := [], fsm := Vector.replicate 16 0 }
  if f.taken = 0 ∧ f.wide then f
  else if 64 < f.taken then { zeroAccs f 0 128 with taken := 0 }
  else { zeroAccs f (runBase f) 64 with taken := 0 }

/-- The reset that INIT = 0 makes at nest start: every accumulator zero and the selector 0 (R301, R306). -/
def clearAccs (f : FeCore) : FeCore := { zeroAccs f 0 128 with bank := false, taken := 0, wide := false, wins := [] }

/-- What every nest starts from: accumulators reset unless INIT, and FSM states 0 whatever CARRY holds (R301, R306, R317). -/
def atNestStart (c : List Word) (f : FeCore) : FeCore :=
  let f := { f with fsm := Vector.replicate 16 0 }
  if Cfg.init c then f else clearAccs f

/-- Open windows closed at a nest's end (R306). -/
def closeAll (c : List Word) (f : FeCore) : FeCore :=
  if Cfg.mode c ≤ 2 then (f.wins.map fun (x : Nat × Window) => x.1).foldl (fun f o => closeWin c o f) f else f

/-- Closing them would meet bad parity (R55). -/
def closeAllBad (c : List Word) (f : FeCore) : Bool :=
  Cfg.mode c ≤ 2 && f.wins.any fun (x : Nat × Window) => closeBad f x.1

end Sys2Proof.Machine.Elements
end

