-- ==== Sys2Proof/Machine/Leave.lean ====
section
/-! DEFINITION. Power leave (R376, R377), token registers (R270, R125, R396), and what the engines and the scheduler share:
writes to DEVICE locations (R148, R157) and poisoned writes (R128). -/

namespace Sys2Proof.Machine

open Sys2Proof.Bits

/-! ## Leave (R377) -/

/-- A request that its class could never be granted (R377). -/
def leaveNever (s : State) (die cls units : Nat) : Bool :=
  let pool := (s.die die).pool
  if cls = 0 then pool < units else pool * 85 < units * 100

/-- A waiting request may be granted now: within its share of the pool, class 0 first, and the others in arrival
order. -/
def leaveMay (s : State) (q : Nat) (r : LeaveReq) : Bool :=
  let d := s.die r.die
  let earlier := s.leaves.any fun x => x.2.die == r.die && x.1 < q && (x.2.cls == 0) == (r.cls == 0)
  let class0 := s.leaves.any fun x => x.2.die == r.die && x.2.cls == 0
  !earlier && (r.cls == 0 || !class0)
    && (if r.cls = 0 then d.granted + r.units ≤ d.pool else (d.granted + r.units) * 100 ≤ d.pool * 85)

/-- A request put in line; none when it could never be granted. -/
def askLeave (s : State) (for_ : LeaveFor) (die cls units : Nat) : Option State :=
  if leaveNever s die cls units then none
  else
    let (q, s) := s.takeFresh
    some { s with leaves := aset q ⟨for_, die, cls, units, s.cycle⟩ s.leaves }

/-- A request granted: it leaves the line and its units count against the pool. -/
def takeLeave (s : State) (q : Nat) (r : LeaveReq) : State :=
  { s with leaves := adel q s.leaves }.modDie r.die fun d =>
    { d with granted := d.granted + r.units, granted0 := if r.cls = 0 then d.granted0 + r.units else d.granted0 }

/-- Control cycles in the 200 µs of R377. -/
def leaveCycles : Nat := 200 * cyclesPerUs

/-! ## Token registers -/

/-- A completion value reaches a token register, in the slot or in the saved state (R125, R396), from a record with REL or
without (R95). `bit` is the event. -/
def deliverToken (s : State) (i reg : Nat) (v : Word) (bit : Nat) (rel : Bool) : State :=
  match s.inst? i with
  | none => s
  | some n =>
    if n.life = .saved then postEvent (s.modInst i fun n => { n with kept := n.kept ++ [.token reg v rel] }) i bit
    else if n.life = .ended then s
    else postEvent (s.modCtl i fun c => c.setToken reg v rel) i bit

/-- The block of an instance that issued token register `reg` has committed, or is gone (R270). -/
def issuerCommitted (s : State) (i reg : Nat) : Bool :=
  match (s.inst? i).bind fun n => n.ctl.blk with
  | some b => !(b.bound && (Layout.slots b.words).any fun x => match x.2.2 with
      | .e e => (x.2.1.opc == 0x90 || x.2.1.opc == 0x92 || x.2.1.opc == 0x93) && e.sel.toNat == reg && (b.rec_ x.1).st == .done
      | _ => false)
  | none => true

/-- Bits of EVPEND (R287). -/
def evCopy : Nat := 0
/-- CHAIN. -/
def evChain : Nat := 1
/-- RESET. -/
def evReset : Nat := 2
/-- TABLE. -/
def evTable : Nat := 3

/-! ## Writes to DEVICE locations -/

/-- Which peer-table entry a peer address names, and its offset (R156). -/
def peerEntryOf (key : Nat) : Nat × Nat := (bits key 49 40, bits key 39 0)

/-- The host port of a host-window address (R148). -/
def hostPortOf (key : Nat) : Nat := if key < 0xA000000000000 then 0 else 1

/-- The peer port that carries an operation: one of those that the entry's PORTS names, iod0's 0 to 17 and iod1's 18 to 35;
none when it names none (R156). Which one is free (log 89). -/
def peerPort (ent : PeerEntry) (free : Nat) : Option Nat :=
  let ps := (List.range 36).filter fun p => bit ent.w0.toNat (24 + p)
  match ps with
  | [] => none
  | [p] => some p
  | _ => ps[Config.freeNat free % ps.length]?

/-- A write leaves for the host or a peer (R148, R156, R157). Writes to a peer without a valid entry, or unreachable, are
dropped and logged. -/
def deviceWrite (s : State) (key : Nat) (data : List Byte) (ordered : Bool) : State :=
  let (id, s) := s.takeFresh
  let w : OutWrite := ⟨id, key, data, ordered, none, s.cycle, 1⟩
  match homeOf key with
  | .host => { s with hostSeen := s.hostSeen ++ [w] }
  | .peer =>
    let e := (peerEntryOf key).1
    let ent := agetD ⟨0, 0, false⟩ e s.peers
    if bit ent.w0.toNat 63 && !ent.down then { s with outWrites := s.outWrites ++ [{ w with via := peerPort ent id }] }
    else s.logEvent 0xF8 0 0 key e
  | _ => s

/-- A read leaves for the host or a peer, with a tag free among the port's 256 (R147, R148, R157). A peer without a
valid entry, or unreachable, gives 0xFF bytes at once, and the event is logged (R156, R158): then the bytes are
answered. None: every tag is taken. -/
def deviceRead (s : State) (key n : Nat) (for_ : ReadFor) : Option (State × Option (List Byte)) :=
  let issue := fun (s : State) (ent : Option PeerEntry) =>
    let used := (s.outReads.filter fun r => homeOf r.pa == .host && hostPortOf r.pa == hostPortOf key).length
    if ent.isNone && 256 ≤ used then none
    else
      let (tag, s) := s.takeFresh
      some ({ s with outReads := s.outReads ++ [⟨tag, key, n, for_, ent.bind fun e => peerPort e tag, s.cycle, 1⟩] }, none)
  match homeOf key with
  | .peer =>
    let e := (peerEntryOf key).1
    let ent := agetD ⟨0, 0, false⟩ e s.peers
    if bit ent.w0.toNat 63 && !ent.down then issue s (some ent)
    else some (s.logEvent 0xF8 0 0 key (e + 1024), some (List.replicate n 0xFF))
  | _ => issue s none

/-! ## Poisoned writes -/

/-- Every row or line of a run becomes poisoned, without a log record: it holds what came from a poisoned source
(R128). -/
def poisonRun (s : State) (key n : Nat) : State :=
  let gs := ((List.range n).map fun k => granuleOf (key + k)).dedup
  { s with poison := gs.filter (fun g => !s.poison.contains g) ++ s.poison }

end Sys2Proof.Machine
end

