-- ==== Sys2Proof/Machine/Region.lean ====
section
/-! DEFINITION. A region at work (R102, R113, R173 to R180, R296, R302 to R306, R319 to R321): configuration loads, the start
of a nest, iterations, source accesses and reads, firings of FEs, markers, sink writes, commits and discards. -/

namespace Sys2Proof.Machine

open Sys2Proof.Bits

/-! ## Places -/

/-- A region's context may work: its instance runs or finishes its iterations. -/
def Inst.fabricLive (n : Inst) : Bool := n.life == .running || (n.life == .stopping && !n.regDone)

/-- The instance, region and nest of a region whose nest runs. -/
def runningNest (s : State) (i : Nat) : Option (Inst × Region × Nest) :=
  match s.inst? i with
  | none => none
  | some n => match n.reg with
    | none => none
    | some r => match r.nest with
      | none => none
      | some nest => if n.fabricLive && r.phase == .running && nest.started then some (n, r, nest) else none

/-- Module index of relative FE (c, w) of a rectangle. -/
def rectFe (r : Rect) (c w : Nat) : Nat := feIndex (r.col0 + c) (r.row0 + w)

/-- Cluster of relative FE (c, w) of a rectangle. -/
def rectCore (r : Rect) (c w : Nat) : Nat := coreOfFe (r.col0 + c) (r.row0 + w)

/-- The context that an FE runs. -/
def Fe.ctxWords (f : Fe) : List Word :=
  match f.run with
  | some k => let c := f.slots.getD k []; if c.isEmpty then Cfg.idle else c
  | none => Cfg.idle

/-- The circuits of a region as its FEs' contexts draw them. -/
def netOf (s : State) (r : Region) : Cfg.Net :=
  { w := r.rect.w, h := r.rect.h, routes := r.routes
    ctx := fun c w => if c < r.rect.w ∧ w < r.rect.h then (s.fe (rectFe r.rect c w)).ctxWords else Cfg.idle
    die := fun c w => dieOfFe (r.rect.col0 + c) (r.rect.row0 + w) }

/-- Relative coordinates of every FE of a region. -/
def relCells (r : Rect) : List (Nat × Nat) := (List.range r.h).flatMap fun w => (List.range r.w).map fun c => (c, w)

/-- The binding's FE. -/
def bindFe (r : Region) (b : List Word) : Nat := rectFe r.rect (Descr.col b) (Descr.row b)

/-- The cluster that a binding's accesses leave from. -/
def bindCore (r : Region) (b : List Word) : Nat := rectCore r.rect (Descr.col b) (Descr.row b)

/-- A binding that is walked: a shelf binding, or a memory binding that a slot attached (R305). -/
def walked (r : Region) (nest : Nest) (b : Nat) : Bool :=
  match nest.binds[b]? with
  | some w => Descr.kind w == 2 || Descr.kind w == 3 || (aget b r.att).isSome
  | none => false

/-- A region fault at a binding's FE. -/
def bindFault (s : State) (i code : Nat) (addr : Word) (b : List Word) (it : Nat) (hold : Bool) : State :=
  regionFault s i code addr (feArg s i (Descr.col b) (Descr.row b)) (some it) hold

/-- The region with iteration `n` changed. -/
def Region.modIter (r : Region) (n : Nat) (f : Iter → Iter) : Region :=
  { r with iters := r.iters.map fun it => if it.n = n then f it else it }

/-! ## Configuration stores and loads (R295, R296, R298, R349) -/

/-- Translation of a configuration fill: X permission, level U (R23, R296). -/
def fillAccess : Access := ⟨.regionFetch, false, false, true, false⟩

/-- Words of an image read by a leaf controller or the loader; the fault otherwise, `codeWait` when a walk has to wait. -/
def fillWords (s : State) (a : Access) (n : Inst) (addr : Word) (k : Nat) : State × Except (Nat × Word) (List Word) :=
  match xlateNow s (dieOfCore n.cluster) n.ctx addr (8 * k) 1 a with
  | (s, .ok ps) =>
    let s := ps.foldl (fun s p => meetFlaws s p.key p.n) s
    if s.poisonedPieces ps then (s, .error (codeDataErr, addr))
    else
      let bs := s.gather ps
      (s, .ok ((List.range k).map fun j => BitVec.ofNat 64 (word8 bs j)))
  | (s, .fault c fa) => (s, .error (c, fa))
  | (s, .miss _ _) => (s, .error (codeWait, addr))

/-- What a fill finds: the item's words, a fault, or nothing of that name. -/
inductive Fill
  | found (ws : List Word)
  | fault (code : Nat) (addr : Word)
  | absent
  deriving DecidableEq, Repr

/-- The item's words from its place on: 8 for a context, NENT + 1 for a set, 192 for a ring image. -/
def fillItem (s : State) (a : Access) (n : Inst) (kind : Nat) (addr : Word) : State × Fill :=
  let get := fun (s : State) (k : Nat) => match fillWords s a n addr k with
    | (s, .ok ws) => (s, Fill.found ws)
    | (s, .error (c, fa)) => (s, .fault c fa)
  if kind = 0 then get s 8
  else if kind = 2 then get s 192
  else match fillWords s a n addr 1 with
    | (s, .ok ws) => get s (bits (ws.getD 0 0).toNat 47 32 + 1)
    | (s, .error (c, fa)) => (s, .fault c fa)

/-- A directory searched from entry `k` on (R349): the item's address, or none when it is not there. -/
def searchDir (s : State) (a : Access) (n : Inst) (base : Word) (kind id : Nat) :
    Nat → Nat → State × Except (Nat × Word) (Option Word)
  | 0, _ => (s, .ok none)
  | fuel + 1, k =>
    match fillWords s a n (base + BitVec.ofNat 64 (8 * k)) 1 with
    | (s, .error e) => (s, .error e)
    | (s, .ok ws) =>
      let e := (ws.getD 0 0).toNat
      if e = 0 then (s, .ok none)
      else if bits e 63 48 = id ∧ bits e 47 46 = kind then (s, .ok (some (base + BitVec.ofNat 64 (bits e 31 0))))
      else searchDir s a n base kind id fuel (k + 1)

/-- The ctx sections searched in order. -/
def itemAddr (s : State) (a : Access) (n : Inst) (kind id : Nat) : List (Word × Nat) → State × Except (Nat × Word) (Option Word)
  | [] => (s, .ok none)
  | (base, size) :: rest =>
    match searchDir s a n base kind id (size / 8) 0 with
    | (s, .ok none) => itemAddr s a n kind id rest
    | r => r

/-- An item of the ctx sections. -/
def searchSecs (s : State) (a : Access) (n : Inst) (kind id : Nat) (secs : List (Word × Nat)) : State × Fill :=
  match itemAddr s a n kind id secs with
  | (s, .error (c, fa)) => (s, .fault c fa)
  | (s, .ok none) => (s, .absent)
  | (s, .ok (some addr)) => fillItem s a n kind addr

/-- The image that an instance runs, as its loader read it. -/
def State.imageOf (s : State) (n : Inst) : ImageInfo :=
  match aget n.launch s.launches with
  | some l => l.info
  | none => ImageInfo.none

/-- Bytes of a configuration store (R37). -/
def storeCap : Nat := 262144

/-- An item put into a cluster's store, in place of an earlier one of its name: behind the latest one, or at the start when it does not fit there. What it
overlaps leaves the store (DESIGN CHOICE, log 29: R37 gives the size, no rule the arrangement or the replacement). -/
def keepItem (s : State) (core ctx kind id : Nat) (ws : List Word) : State :=
  let n := 8 * ws.length
  let last := ((s.store.filter fun x => x.core == core).getLast?.map fun x => x.off + x.n).getD 0
  let off := if last + n ≤ storeCap then last else 0
  if storeCap < n then s
  else { s.putBytes (storeKey core off) (ws.flatMap fun w => leBytes 8 w.toNat) with
    store := s.store.filter (fun x =>
      !(x.core == core && (overlap x.off x.n off n || (x.ctx == ctx && x.kind == kind && x.id == id)))) ++ [⟨core, ctx, kind, id, off, n⟩] }

/-- An item read from its store: its rows meet their errors, and a poisoned one ends the fetch with DATA_ERR (R33, R49). -/
def readItem (s : State) (x : StoreItem) : State × Fill :=
  let s := meetFlaws s (storeKey x.core x.off) x.n
  if poisonedIn s.poison (storeKey x.core x.off) x.n then (s, .fault codeDataErr 0)
  else
    let bs := s.bytes (storeKey x.core x.off) x.n
    (s, .found ((List.range (x.n / 8)).map fun j => BitVec.ofNat 64 (word8 bs j)))

/-- An item of a cluster's configuration store, filled from the image when it is missing (R296). -/
def storeItem (s : State) (n : Inst) (core kind id : Nat) : State × Fill :=
  match s.store.find? fun x => x.core == core && x.ctx == n.ctx && x.kind == kind && x.id == id with
  | some x => readItem s x
  | none =>
    match searchSecs s fillAccess n kind id (s.imageOf n).ctx with
    | (s, .found ws) => (keepItem s core n.ctx kind id ws, .found ws)
    | r => r

/-- The context identifier that a set gives an FE: the first entry that matches; the idle context otherwise (R295). -/
def setEntry (set : List Word) (c w : Nat) : Nat :=
  match (set.drop 1).find? fun e => Descr.selects e.toNat c w with
  | some e => bits e.toNat 63 48
  | none => 0

/-- The slot into which an FE loads a context: one that holds it, else the least recently used but the running one
(R296). `keep` is the slot in use by a running nest. -/
def loadSlot (f : Fe) (id : Nat) (keep : Option Nat) : Nat × Bool :=
  match (List.range 8).find? fun k => let c := f.slots.getD k []; !c.isEmpty && Cfg.id c == id with
  | some k => (k, true)
  | none => ((f.lru.find? fun k => some k != keep).getD 0, false)

/-- The slot just used stands last. -/
def touchLru (lru : List Nat) (k : Nat) : List Nat := lru.filter (fun j => j != k) ++ [k]

/-- What a sequencer's load gives: the FE with its slot filled and the ring image, a fault, or a load check that
fails, each with the context that was to load; 0 before the set has named it. -/
inductive Load
  | ok (f : Fe) (slot : Option Nat) (ring : List (Nat × Nat))
  | fault (code : Nat) (addr : Word) (id : Nat)
  | bad (id : Nat)
  deriving DecidableEq, Repr

/-- The ring image of a context, when it names one. -/
def loadRing (s : State) (n : Inst) (core : Nat) (f : Fe) (slot : Nat) (c : List Word) : State × Load :=
  if Cfg.ring c = 0 then (s, .ok f (some slot) [])
  else match storeItem s n core 2 (Cfg.ring c) with
    | (s, .found ws) => (s, if Cfg.ringBad ws then .bad (Cfg.id c) else .ok f (some slot) (Cfg.ringOf ws))
    | (s, .fault code fa) => (s, .fault code fa (Cfg.id c))
    | (s, .absent) => (s, .bad (Cfg.id c))

/-- The load of one FE's context of a set (R296, R298). A set or ring image with a nonzero reserved field fails the load
check as a context with one does (R9; DEDUCED, log 110). -/
def loadFe (s : State) (n : Inst) (r : Region) (ctxset c w : Nat) (keep : Option Nat) : State × Load :=
  let core := rectCore r.rect c w
  let f := s.fe (rectFe r.rect c w)
  match storeItem s n core 1 ((ctxset + r.setoff) % 65536) with
  | (s, .fault code fa) => (s, .fault code fa 0)
  | (s, .absent) => (s, .bad 0)
  | (s, .found set) =>
    let id := setEntry set c w
    if Cfg.setBad set then (s, .bad id)
    else if id = 0 then (s, .ok f none [])
    else
      let (k, hit) := loadSlot f id keep
      if hit then
        loadRing s n core { f with lru := touchLru f.lru k } k (f.slots.getD k [])
      else match storeItem s n core 0 id with
        | (s, .fault code fa) => (s, .fault code fa id)
        | (s, .absent) => (s, .bad id)
        | (s, .found ws) =>
          if Cfg.bad ws then (s, .bad id)
          else loadRing s n core { f with slots := f.slots.set k ws, lru := touchLru f.lru k } k ws

/-- Entering stochastic mode sets every MASK to 0xFFFF and every LTAG to 7; the bits stay (R332). -/
def Fe.enterMode (f : Fe) (stoch : Bool) : Fe :=
  if stoch && !f.stoch then
    { f with stoch, core := { f.core with mask := Vector.replicate 16 0xFFFF, ltag := Vector.replicate 16 7 } }
  else { f with stoch }

/-- An FE that runs the context of a slot. -/
def Fe.runCtx (f : Fe) (slot : Option Nat) (ring : List (Nat × Nat)) : Fe :=
  let f := { f with run := slot, ring, qa := [], qb := [], qc := [], si := [], snaps := [], iter := 0 }
  f.enterMode (Cfg.isStoch f.ctxWords)

/-- The context that the nest of a context set gives an FE, as the store and the image stand now; none when there is none to
load. Nothing of the state changes. -/
def givenCtx (s : State) (n : Inst) (r : Region) (ctxset c w : Nat) : Option (List Word) :=
  match (loadFe { s with walks := [] } n r ctxset c w none).2 with
  | .ok f slot _ => some (f.runCtx slot []).ctxWords
  | _ => none

/-- From its nest block's commit on a nest counts as running its contexts (R414): each FE enters or leaves stochastic mode as
the one that it is given has MODE STOCH or another (R328, R332). An FE that the nest can give none stays as it is. -/
def enterModes (s : State) (i ctxset : Nat) : State :=
  match s.inst? i with
  | none => s
  | some n => match n.reg with
    | none => s
    | some r => (relCells r.rect).foldl (fun s x => match givenCtx s n r ctxset x.1 x.2 with
      | some c => s.modFe (rectFe r.rect x.1 x.2) fun f => f.enterMode (Cfg.isStoch c)
      | none => s) s

/-! ## The start and the end of a nest (R303, R306) -/

/-- A region's release into a channel, in its commit step (R81, R92, R95, R104): tokens with their hold buffers, or a close
(no data). They stand in the FIFO from now on and can be taken once the release has performed: at once, or when the
marker that it leaves in the region's outbound set performs (DEDUCED, log 99). -/
def enterRelease (s : State) (i k : Nat) (c : Chan) (toks : List (Nat × Option (List Byte))) : State :=
  let (id, s) := s.takeFresh
  let os := s.outbOf (.region i)
  let now := releaseClear s (.region i) os c.scope && !fenceHoldsWrite s (.region i) os (tokenKey k)
  let s := s.modChan k fun c => { c with late := c.late ++ toks.map fun t => ⟨t.1, t.2, i, id, now⟩ }
  if now then settleChan s k
  else { s with outb := s.outb ++ [{ id, grp := id, agent := .region i, key := tokenKey k, data := [], rel := some c.scope,
                                     fence := none, poisoned := false }] }

/-- A region's close-at-end: the sink binding, its endpoint and the handle. -/
structure CloseAt where
  bind : List Word
  me : Endpoint
  handle : Word
  deriving DecidableEq, Repr

/-- The channels that the sink bindings of a nest close at its end (R73), in the order of the binding table. -/
def closeAts (i : Nat) (r : Region) (nest : Nest) : List CloseAt :=
  (indexed 0 nest.binds).foldl (fun (acc : List CloseAt) b =>
    if Descr.kind b.2 == 1 && Descr.ch b.2 && Descr.close b.2 then
      match (aget b.1 r.att).bind fun p => (aget p r.ports).map fun pt => (p, pt) with
      | some (p, pt) =>
        if pt.ch then acc ++ [⟨b.2, .port i (p % 32), pt.base⟩] else acc
      | none => acc
    else acc) []

/-- What the controller has done before a close-at-end in the same commit: a handle's writer, and whether it has closed. -/
abbrev Before := List (Word × Endpoint × Bool)

/-- A close-at-end that the controller refuses: its code and binding (R71, R73). What the iteration's tokens and the closes
before it do counts: a second close raises CH_CLOSED, one by another port CH_WRITER. The fault keeps the whole commit from
happening (DEDUCED, log 85: a commit is one step). -/
def closeRefused (s : State) (n : Inst) : Before → List CloseAt → Option (Nat × List Word)
  | _, [] => none
  | before, x :: xs =>
    match chanQuery s n.ctx x.me x.handle true with
    | .error c => some (c, x.bind)
    | .ok (_, c) =>
      if c.state != .opened then some (codeChClosed, x.bind)
      else match before.find? fun y => y.1 == x.handle with
        | some (_, me, closed) =>
          if me != x.me then some (codeChWriter, x.bind)
          else if closed then some (codeChClosed, x.bind)
          else closeRefused s n ((x.handle, x.me, true) :: before) xs
        | none => closeRefused s n ((x.handle, x.me, true) :: before) xs

/-- The close-at-end of a nest's sink bindings, each binding an OPEN endpoint with it (R64, R73). -/
def closeSinks (s : State) (i : Nat) (n : Inst) (xs : List CloseAt) : State :=
  xs.foldl (fun s x => match chanOf s n.ctx x.handle with
    | some (k, c) => enterRelease (s.modChan k fun c => { c with writer := x.me, state := .closed }) i k c [(0, none)]
    | none => s) s

/-- The nest ends: open windows close, channels close, leave is returned, and the region is idle (R306). -/
def endNest (s : State) (i : Nat) : State :=
  match s.inst? i with
  | none => s
  | some n => match n.reg with
    | none => s
    | some r => match r.nest with
      | none => s
      | some nest =>
        let s := (relCells r.rect).foldl (fun s x => s.modFe (rectFe r.rect x.1 x.2) fun f =>
          { f with core := Elements.closeAll f.ctxWords f.core }) s
        let s := returnLeave (closeSinks s i n (closeAts i r nest)) i
        s.modReg i fun r => { r with phase := .idle, nextVec := none, blockedFrom := none }

/-- A source binding attached to a channel asks for more tokens an iteration than its head holds (R303). -/
def tokiterBad (s : State) (n : Inst) (r : Region) (nest : Nest) : Option (List Word) :=
  ((indexed 0 nest.binds).find? fun b =>
    Descr.kind b.2 == 0 && Descr.ch b.2 && (match (aget b.1 r.att).bind fun p => aget p r.ports with
      | some p => match chanOf s n.ctx p.base with
        | some (_, c) => c.hcap < Descr.tokiter b.2
        | none => false
      | none => false)).map fun b => b.2

/-- A nest of no iterations ends at once (R302). DESIGN CHOICE (log 86): it closes its close-at-end channels as it ends;
R73 names the commit of the last iteration, and there is none. A close that is refused stops the region. -/
def endEmpty (s : State) (i : Nat) (n : Inst) (r : Region) (nest : Nest) : State :=
  match closeRefused s n [] (closeAts i r nest) with
  | some (code, b) => bindFault s i code 0 b 0 false
  | none => endNest s i

/-- An FE of a nest runs a carried binding (R394). -/
def carriesBinding (nest : Nest) (c w : Nat) : Bool :=
  nest.binds.any fun b => Descr.kind b == 3 && Descr.carried b && Descr.col b == c && Descr.row b == w

/-- The nest starts: accumulators reset unless INIT, FSM states 0, and the first iteration stands at the zero vector (R306,
R317). An FE that runs a context with CARRY or a carried binding is LIVE (R394). Tagged KSETs that waited for a replay of an
earlier nest, which does not come, are pending now (log 35). A nest of no iterations ends at once
(R302). -/
def startNest (s : State) (i : Nat) (n : Inst) (r : Region) (nest : Nest) : State :=
  let s := (relCells r.rect).foldl (fun s x => s.modFe (rectFe r.rect x.1 x.2) fun f =>
    { f with core := Elements.atNestStart f.ctxWords f.core
             live := f.live || Cfg.carry f.ctxWords || carriesBinding nest x.1 x.2 }) s
  let s := r.ksets.foldl (fun s y => s.modFe (rectFe r.rect y.c y.w) fun f =>
    { f with core := { f.core with pendK := aset y.k (y.tag, y.v) f.core.pendK } }) s
  let s := s.modReg i fun r => { r with
    nest := some { nest with started := true }, iters := [], reads := [], sinks := [], replayed := [], remarks := [], ksets := []
    nextN := 0, nextVec := some [0, 0, 0, 0, 0, 0] }
  match tokiterBad s n r nest with
  | some b => bindFault s i codeHoldOverflow 0 b 0 false
  | none => if Descr.emptyNest nest.loop then endEmpty s i n r nest else s

/-- Every FE has loaded its context and FRUN has asked: the nest starts. -/
def maybeStart (s : State) (i : Nat) : State :=
  match s.inst? i with
  | none => s
  | some n => match n.reg with
    | none => s
    | some r => match r.nest with
      | none => s
      | some nest =>
        if nest.run && !nest.started && !nest.failed && r.phase == .running
            && nest.loaded.length == r.rect.w * r.rect.h then
          if nest.resume then s.modReg i fun r => { r with nest := some { nest with started := true, resume := false } }
          else startNest s i n r nest
        else s

/-- The load of an FE for the region's current nest. A fault of the fill holds the region; a failed check stops it
(R386). Both report the context that was to load (R382). A walk that has to wait keeps the load waiting. -/
def fillForNest (s : State) (i : Nat) (n : Inst) (r : Region) (nest : Nest) (fe : FeAt) : State :=
  let x := rectFe r.rect fe.c fe.w
  match loadFe s n r nest.ctxset fe.c fe.w none with
  | (s, .ok f slot ring) =>
    let s := { s with fes := aset x (f.runCtx slot ring) s.fes }
    maybeStart (s.modReg i fun r => { r with
      nest := r.nest.map fun y => { y with loaded := (fe.w * r.rect.w + fe.c) :: y.loaded } }) i
  | (t, .fault code fa id) =>
    if code = codeWait then s else regionFault t i code fa (regionArg 0 0 id fe.c fe.w) (some 0) true
  | (s, .bad id) =>
    let s := regionFault s i codeFcwInvalid 0 (regionArg 0 0 id fe.c fe.w) none false
    s.modReg i fun r => { r with nest := r.nest.map fun y => { y with failed := true } }

/-- The load of an FE ahead, for the nest block in flight: it fills a slot that the running nest does not use. -/
def fillAhead (s : State) (n : Inst) (r : Region) (b : Block) (fe : FeAt) : State :=
  let x := rectFe r.rect fe.c fe.w
  match loadFe s n r (Layout.ctxset b.words) fe.c fe.w (s.fe x).run with
  | (s, .ok f _ _) => { s with fes := aset x f s.fes }
  | (t, .fault code _ _) => if code = codeWait then s else t
  | (t, .bad _) => t

/-- CONFIG_FILL (R296, R298): the sequencer of one FE loads its context, from the store or the image. -/
def execConfigFill (i : Nat) (fe : FeAt) (s : State) : Host.Outcome State Fault Refusal :=
  match s.inst? i with
  | none => .next s
  | some n => match n.reg with
    | none => .next s
    | some r =>
      if !n.fabricLive || r.rect.w ≤ fe.c || r.rect.h ≤ fe.w then .next s
      else
        let ahead := match n.ctl.blk with
          | some b => if b.started && Layout.isNest b.words then fillAhead s n r b fe else s
          | none => s
        match r.nest with
        | some nest =>
          if !nest.started && !nest.failed && r.phase != .held && !nest.loaded.contains (fe.w * r.rect.w + fe.c) then
            .next (fillForNest s i n r nest fe)
          else .next ahead
        | none => .next ahead

/-- The deltas of a multicast applied to the image of one FE (R297). -/
def withDeltas (img : List Word) (col row slot : Nat) (ds : List (Word × Word)) : List Word :=
  ds.foldl (fun (ws : List Word) d =>
    let a := d.1.toNat
    if bits a 47 39 = col ∧ bits a 38 32 = row ∧ bits a 31 29 = slot then ws.set (bits a 28 26) d.2 else ws) img

/-- An FE belongs to a region at work. -/
def feBusy (s : State) (col row : Nat) : Bool :=
  s.insts.any fun (x : Nat × Inst) => match x.2.reg with
    | some r => r.phase != .idle && r.rect.col0 ≤ col && col < r.rect.col0 + r.rect.w && r.rect.row0 ≤ row
        && row < r.rect.row0 + r.rect.h
    | none => false

/-- CONFIG_MULTICAST (R297): firmware loads a context into a slot of every FE that the selector chooses, in module
coordinates (log 30); an image that fails a load check is not loaded. FEs of regions at work are left alone (log 30). A
delta list with a nonzero reserved bit is not taken (R9; log 110). -/
def execConfigMulticast (sel : Word) (slot : BitVec 3) (image : List Word) (deltas : List (Word × Word)) (s : State) :
    Host.Outcome State Fault Refusal :=
  if image.length != 8 || deltas.any (fun d => Cfg.deltaBad d.1) then .next s
  else
    let cells := (rectCells ⟨0, 0, 384, 128⟩).filter fun c => Descr.selects sel.toNat c.1 c.2 && !feBusy s c.1 c.2
    .next (cells.foldl (fun s c =>
      let ws := withDeltas image c.1 c.2 slot.toNat deltas
      if Cfg.bad ws then s
      else s.modFe (feIndex c.1 c.2) fun f => { f with slots := f.slots.set slot.toNat ws, lru := touchLru f.lru slot.toNat }) s)

/-! ## Iterations start (R176, R179, R321) -/

/-- Beats of one pass. -/
def Nest.pass (nest : Nest) : Nat := Descr.passLen nest.loop (Descr.cdim nest.loop)

/-- Position of a binding in an iteration. -/
def Iter.at (it : Iter) (b : Nat) : Nat := agetD 0 b it.pos

/-- Position of a sink binding in an iteration. -/
def Iter.sinkAt (it : Iter) (b : Nat) : Nat := agetD 0 b it.sinkPos

/-- A fence token stands before position `p` of an iteration (R303): how many stand up to and at `p`. -/
def fencesTo (l : List Word) (fdim : Nat) (it : Iter) (p : Nat) : Nat :=
  let m := Descr.cdim l
  if fdim ≤ m then p / max 1 (Descr.passLen l fdim) + 1
  else if (List.range (fdim + 1)).all fun d => d ≤ m || it.vec.getD d 0 == 0 then 1 else 0

/-- The pass of every source binding and of every fence binding is formed. -/
def sourcesFormed (r : Region) (nest : Nest) (it : Iter) : Bool :=
  (indexed 0 nest.binds).all fun b =>
    if Descr.isSource b.2 then !walked r nest b.1 || it.at b.1 == nest.pass
    else if Descr.kind b.2 == 5 then it.at b.1 == fencesTo nest.loop (Descr.fdim b.2) it (nest.pass - 1)
    else true

/-- Bytes of a hold item. -/
def HoldItem.size : HoldItem → Nat
  | .write _ _ _ _ _ _ d _ => d.length
  | .fence .. => 0
  | .token _ _ _ d _ => d.length

/-- Cluster of a hold item. -/
def HoldItem.at (h : HoldItem) (c : Nat) : Bool :=
  match h with
  | .write _ _ _ _ _ _ _ k => k == c
  | .fence .. => false
  | .token _ _ _ _ k => k == c

/-- Bytes that a cluster's hold buffer holds (R177, R81): of iterations in flight, and of committed tokens that have not
entered their tails. -/
def heldBytes (s : State) (core : Nat) : Nat :=
  let its := s.insts.foldl (fun (n : Nat) (x : Nat × Inst) => match x.2.reg with
    | some r => r.iters.foldl (fun n it => it.holds.foldl (fun n h => if h.at core then n + h.size else n) n) n
    | none => n) 0
  s.chans.foldl (fun (n : Nat) (x : Nat × Chan) => x.2.late.foldl (fun n t => match t.data with
    | some d => if t.hold = core then n + d.length else n
    | none => n) n) its

/-- Bytes of a cluster's hold buffer (R177). -/
def holdCap : Nat := 262144

/-- Undo bytes of an FE over the iterations in flight. -/
def undoBytes (r : Region) (x : Nat) : Nat :=
  r.iters.foldl (fun n it => it.undo.foldl (fun n u => if u.1 = x then n + u.2.2.1.length else n) n) 0

/-- Undo bytes of an FE (R177). -/
def undoCap : Nat := 4096

/-- Hold buffers and undo logs have room for an iteration's declared volumes (R179). -/
def roomForNext (s : State) (r : Region) (nest : Nest) : Bool :=
  (rectCores r.rect).all (fun c => heldBytes s c + Descr.hold nest.loop ≤ holdCap)
    && (rectCells r.rect).all fun c => undoBytes r (feIndex c.1 c.2) + Descr.undo nest.loop ≤ undoCap

/-- The beat that a marker is (R321). -/
def markerBeat (tag iter : Nat) : Beat := { data := BitVec.ofNat 1024 tag, side := 0, tag := 0, marks := 0b100000, iter }

/-- A beat is a marker. -/
def Beat.isMarker (b : Beat) : Bool := b.marks == 0b100000

/-- A beat put into input `k` of an FE. -/
def pushBeat (s : State) (x k : Nat) (b : Beat) : State :=
  s.modFe x fun f => match k with
    | 0 => { f with qa := f.qa ++ [b] }
    | 1 => { f with qb := f.qb ++ [b] }
    | _ => { f with qc := f.qc ++ [b] }

/-- A beat from a source binding: it reaches the FE's input when no circuit drives that input (log 32). -/
def feedBeat (s : State) (r : Region) (b : List Word) (beat : Beat) : State :=
  let x := bindFe r b
  if Cfg.vsel (s.fe x).ctxWords (16 + Descr.io b) = 0 then pushBeat s x (Descr.io b) beat else s

/-- Markers that the next iteration carries: those that it carried before it was discarded, and the new ones (R321). -/
def Region.nextMarks (r : Region) : List (Nat × Nat) := agetD [] r.nextN r.remarks ++ r.marks

/-- Markers inserted into every binding attached to their port (R321). -/
def insertMarkers (s : State) (r : Region) (nest : Nest) (n : Nat) : State :=
  r.nextMarks.foldl (fun s m => (indexed 0 nest.binds).foldl (fun s b =>
    if Descr.kind b.2 == 0 && aget b.1 r.att == some m.1 then feedBeat s r b.2 (markerBeat m.2 n) else s) s) s

/-- ITERATION_START (R176, R179): the next outer iteration enters flight. -/
def execIterationStart (i : Nat) (s : State) : Host.Outcome State Fault Refusal :=
  match runningNest s i with
  | none => .next s
  | some (n, r, nest) => match r.nextVec with
    | none => .next s
    | some v =>
      let prev := r.iters.all fun it => sourcesFormed r nest it && !(r.reads.any fun x => x.iter == it.n)
      if n.life == .stopping || 2 ≤ r.iters.length || !prev || !roomForNext s r nest then .next s
      else
        let it : Iter := { n := r.nextN, vec := v, pos := [], sinkPos := [], beats := [], takes := [], holds := [],
                           undo := [], marks := r.nextMarks, since := 0, excluded := 0, replays := agetD 0 r.nextN r.replayed,
                           checkFailed := none }
        let s := insertMarkers s r nest r.nextN
        .next (s.modReg i fun r => { r with
          iters := r.iters ++ [it], nextN := r.nextN + 1, nextVec := Descr.nextVec nest.loop v, marks := []
          replayed := adel r.nextN r.replayed, remarks := adel r.nextN r.remarks })

/-- A tagged KSET that comes to an FE (R320). Its snapshots take it as a value that was pending from their iteration's start, so
that a discard does not lose it; one behind whose start a marker of the tag has passed already keeps it for its replay, to
come behind as many markers again (DEDUCED, log 35). A value that it replaces while it is pending does not come back. -/
def Fe.ksetTagged (f : Fe) (k tag : Nat) (v : Word) : Fe :=
  let old := aget k f.core.pendK
  let put := fun (c : FeCore) => { c with pendK := aset k (tag, v) c.pendK }
  let keep := fun (p : Snap) =>
    let p := { p with late := p.late.filter fun l => !(l.1 == k && old == some (l.2.1, l.2.2.1)) }
    if p.passed.contains tag then { p with late := p.late ++ [(k, tag, v, p.passed.count tag)] } else { p with core := put p.core }
  { f with core := put f.core, snaps := f.snaps.map fun (x : Nat × Snap) => (x.1, keep x.2) }

end Sys2Proof.Machine
end

