-- ==== Sys2Proof/Machine/Stages.lean ====
section
/-! DEFINITION. The data that transfer records move (R117 to R122, R130 to R140): the record's fields, the tile walk, the
stages, chunked streams, and the table-driven decoder. A byte travels with its poison. -/

namespace Sys2Proof.Machine.Stages

open Sys2Proof.Bits Sys2Proof.Machine.NumFmt

/-- A byte and whether it derives from a poisoned row or line (R128). -/
abbrev PByte := Byte × Bool

/-- A clean byte. -/
def clean (b : Byte) : PByte := (b, false)

/-! ## Record fields (R117, R118) -/

/-- Word `k` of a record as a number. -/
def rw (ws : List Word) (k : Nat) : Nat := (ws.getD k 0).toNat
/-- NEXT. -/
def next (ws : List Word) : Nat := rw ws 0
/-- SRC. -/
def src (ws : List Word) : Word := ws.getD 1 0
/-- DST. -/
def dst (ws : List Word) : Word := ws.getD 2 0
/-- LEN. -/
def len (ws : List Word) : Nat := bits (rw ws 3) 31 0
/-- OWN. -/
def own (ws : List Word) : Bool := bit (rw ws 3) 63
/-- ACQ. -/
def acq (ws : List Word) : Bool := bit (rw ws 3) 62
/-- REL. -/
def rel (ws : List Word) : Bool := bit (rw ws 3) 61
/-- SCOPE. -/
def recScopeCode (ws : List Word) : Nat := bits (rw ws 3) 60 58
/-- SSP. -/
def ssp (ws : List Word) : Nat := bits (rw ws 3) 57 56
/-- DSP. -/
def dsp (ws : List Word) : Nat := bits (rw ws 3) 55 54
/-- HALF. -/
def half (ws : List Word) : Nat := bits (rw ws 3) 53 52
/-- STG. -/
def stg (ws : List Word) : Nat := bits (rw ws 3) 51 49
/-- PFMT. -/
def pfmt (ws : List Word) : Nat := bits (rw ws 3) 48 44
/-- WFMT as a format code. -/
def wfmt (ws : List Word) : Nat := if bit (rw ws 3) 43 then cBf16 else cFp32
/-- RND. -/
def rnd (ws : List Word) : Nat := bits (rw ws 3) 42 40
/-- CHK in bytes. -/
def chk (ws : List Word) : Nat := [4096, 1024, 16384, 65536].getD (bits (rw ws 3) 39 38) 4096
/-- RFMT. -/
def rfmt (ws : List Word) : Nat := bits (rw ws 3) 37 36
/-- XTID. -/
def xtid (ws : List Word) : Nat := bits (rw ws 4) 63 56
/-- BCL, sign-extended from bit 55. -/
def bcl (ws : List Word) : Word := sext (rw ws 4) 56
/-- The record has a tile. -/
def hasTile (ws : List Word) : Bool := rw ws 5 != 0
/-- Address of the tile descriptor. -/
def tptr (ws : List Word) : Word := BitVec.ofNat 64 (rw ws 5 / 64 * 64)
/-- Bytes of a tile element. -/
def esz (ws : List Word) : Nat := 2 ^ bits (rw ws 5) 5 4
/-- Dimensions of the tile. -/
def tdim (ws : List Word) : Nat := bits (rw ws 5) 3 2 + 1
/-- COMPL. -/
def compl (ws : List Word) : Word := ws.getD 6 0

/-- Expand is enabled. -/
def expands (ws : List Word) : Bool := half ws == 1 && bit (stg ws) 0
/-- Dequantise is enabled. -/
def dequants (ws : List Word) : Bool := half ws == 1 && bit (stg ws) 1
/-- Transpose is enabled. -/
def transposes (ws : List Word) : Bool := half ws == 1 && bit (stg ws) 2
/-- Reduce is enabled. -/
def reduces (ws : List Word) : Bool := half ws == 2 && bit (stg ws) 0
/-- Quantise is enabled. -/
def quants (ws : List Word) : Bool := half ws == 2 && bit (stg ws) 1
/-- Compress is enabled. -/
def compresses (ws : List Word) : Bool := half ws == 2 && bit (stg ws) 2

/-- Bytes of an element of RFMT (R118). -/
def redSize (fmt : Nat) : Nat := [4, 4, 2, 8].getD fmt 4

/-- Bytes of a record's reduce element. -/
def reduceSize (ws : List Word) : Nat := redSize (rfmt ws)

/-- A space code. -/
def recSpace (n : Nat) : Space := if n = 1 then .cab else if n = 2 then .war else .virt

/-- A scope code, 0 to 5. -/
def recScope (n : Nat) : Scope :=
  match n with
  | 0 => .core | 1 => .region | 2 => .cluster | 3 => .die | 4 => .module | _ => .system

/-- Unit of LEN of packed elements, and elements in it (R131). -/
def packedUnit (code : Nat) : Nat × Nat :=
  match code with
  | 2 => (2, 1) | 3 => (2, 1) | 4 => (1056, 1024) | 5 => (1056, 1024) | 9 => (1056, 1024) | 6 => (800, 1024)
  | 7 => (800, 1024) | 8 => (544, 1024) | _ => (3, 4)

/-! ## Tiles (R121, R122) -/

/-- A field of tile entry `d`: COUNT, EXTENT, ORIGIN, STRIDE are 0 to 3. -/
def tf (tile : List Word) (d k : Nat) : Nat := bits (rw tile (2 * d + k / 2)) (32 * (k % 2) + 31) (32 * (k % 2))

/-- COUNT of dimension d. -/
def tcount (ws tile : List Word) (d : Nat) : Nat := if d < tdim ws then tf tile d 0 else 1

/-- Elements of the walk; 0 when a count is 0. -/
def tileElems (ws tile : List Word) : Nat := (List.range 4).foldl (fun p d => p * tcount ws tile d) 1

/-- Bytes that the tile transfers (walk_tile of R122). -/
def tileBytes (ws tile : List Word) : Nat := tileElems ws tile * esz ws

/-- Index vector of destination element `p`: dimension 0 fastest over the counts, 0 and 1 exchanged under transpose. -/
def tileIndex (ws tile : List Word) (p : Nat) : List Nat :=
  let swap := fun d => if transposes ws then (if d = 0 then 1 else if d = 1 then 0 else d) else d
  let cnt := fun d => tcount ws tile (swap d)
  let j := fun d => p / (List.range d).foldl (fun q e => q * cnt e) 1 % max 1 (cnt d)
  (List.range 4).map fun d => j (swap d)

/-- Source offset in bytes of destination element `p`, or none when it is padding (R122). -/
def tileOff (ws tile : List Word) (p : Nat) : Option Int :=
  let i := tileIndex ws tile p
  let c := fun d => sextI (tf tile d 2) 32 + (i.getD d 0 : Nat)
  let ds := List.range (tdim ws)
  if ds.any fun d => c d < 0 || (tf tile d 1 : Int) ≤ c d then none
  else some (ds.foldl (fun (o : Int) d => o + c d * sextI (tf tile d 3) 32 * (esz ws : Nat)) 0)

/-- A tile over decoded bytes: padding and elements beyond the stream are zeros (R122). DESIGN CHOICE (log 116): an element of
negative `off` is zeros too, one that straddles the stream's end has a zero tail, and under dequantise the stream ends where
its dequantised bytes do; R122 says none of the three. -/
def tileOver (ws tile : List Word) (bs : List PByte) : List PByte :=
  (List.range (tileElems ws tile)).flatMap fun p => match tileOff ws tile p with
    | some o =>
      if o < 0 ∨ (bs.length : Int) ≤ o then List.replicate (esz ws) (clean 0)
      else
        let x := (bs.drop o.toNat).take (esz ws)
        x ++ List.replicate (esz ws - x.length) (clean 0)
    | none => List.replicate (esz ws) (clean 0)

/-! ## Dequantise and quantise (R131, R132) -/

/-- Bytes that a unit of packed elements becomes (R131). -/
def wideUnit (code w : Nat) : Nat := (packedUnit code).2 * (elemBits w 0 / 8)

/-- The number of a run of bytes. -/
def numOf (bs : List PByte) : Nat := leNat (bs.map fun b => b.1)

/-- Some byte of a run of bits is poisoned. -/
def poisBits (bs : List PByte) (lo n : Nat) : Bool := ((bs.drop (lo / 8)).take ((lo + n + 7) / 8 - lo / 8)).any fun b => b.2

/-- Wide bytes of one value. -/
def wideBytes (w : Nat) (v : Num) (p : Bool) : List PByte :=
  (leBytes (elemBits w 0 / 8) (encodeNum w 0 rne v)).map fun b => (b, p)

/-- One unit of packed elements turned wide (R131). -/
def dequantUnit (code w : Nat) (bs : List PByte) : List PByte :=
  let b := elemBits code 0
  let n := (packedUnit code).2
  let hd := if isMx code then 32 else 0
  let v := numOf (bs.drop hd)
  (List.range n).flatMap fun k =>
    let s := bs.getD (k / 32) (0x7F, false)
    let scale := if isMx code then s.1.toNat else 127
    wideBytes w (decodeScaled code 0 scale (bits v (b * k + b - 1) (b * k)))
      (poisBits (bs.drop hd) (b * k) b || (isMx code && s.2))

/-- Bytes that a tile element at source offset `o` is read from, as offset and length: itself, or with dequantise, which
acts before the tile (R130), the whole packed units that it is made of (log 92). -/
def tileRun (ws : List Word) (o : Int) : Int × Nat :=
  if dequants ws then
    let u := (packedUnit (pfmt ws)).1
    let w := wideUnit (pfmt ws) (wfmt ws)
    let a := o.fdiv w
    (a * u, ((o + esz ws - 1).fdiv w - a + 1).toNat * u)
  else (o, esz ws)

/-- Cut into runs of `n`. -/
def cutInto {α : Type} (n : Nat) (xs : List α) : List (List α) :=
  if n = 0 then [] else (List.range (ceilDiv xs.length n)).map fun k => (xs.drop (n * k)).take n

/-- Dequantise (R131). -/
def dequant (code w : Nat) (bs : List PByte) : List PByte := (cutInto (packedUnit code).1 bs).flatMap (dequantUnit code w)

/-- A tile element taken from the bytes of its run. -/
def tileElem (ws : List Word) (o : Int) (bs : List PByte) : List PByte :=
  if dequants ws then
    ((dequant (pfmt ws) (wfmt ws) bs).drop (o.fmod (wideUnit (pfmt ws) (wfmt ws))).toNat).take (esz ws)
  else bs

/-- One step of the 32-bit Galois generator with taps 0x8020_0003 (R132). -/
def galois32 (x : Nat) : Nat := if x % 2 = 1 then (x / 2) ^^^ 0x80200003 else x / 2

/-- The generator's start for a record (R132). -/
def galoisSeed (addr : Word) : Nat :=
  let x := (addr.toNat % 2 ^ 32) ^^^ 0x9E3779B9
  if x = 0 then 1 else x

/-- Elements converted in order, the generator stepping once an element (R132). The first element draws the seed itself and
the step follows the draw (DESIGN CHOICE, log 115). -/
def convertAll (code mode : Nat) : Nat → List (Num × Bool) → List (Nat × Bool) × Nat
  | g, [] => ([], g)
  | g, (v, p) :: vs =>
    let rest := convertAll code mode (galois32 g) vs
    ((encodeNum code 0 ⟨mode, g, 32⟩ v, p) :: rest.1, rest.2)

/-- Bytes of packed patterns of `b` bits, from bit 0 upward; the bits of the last byte that no element fills are those of
`pad`. -/
def packBits (b : Nat) (pad : Byte) (xs : List (Nat × Bool)) : List PByte :=
  let v := (indexed 0 xs).foldl (fun acc x => acc + x.2.1 * 2 ^ (b * x.1)) (pad.toNat * 2 ^ (b * xs.length))
  let n := ceilDiv (b * xs.length) 8
  (indexed 0 (leBytes n v)).map fun x =>
    (x.2, ((xs.drop (8 * x.1 / b)).take ((8 * x.1 + 7) / b + 1 - 8 * x.1 / b)).any fun e => e.2)

/-- One packed group of 1,024 wide values: scales, then elements (R131, R132, R314). A block's scale comes from all its
elements and stands in all of them, so that one poisoned element poisons the block (R128). -/
def quantGroup (code mode g : Nat) (vs : List (Num × Bool)) : List PByte × Nat :=
  let blocks := cutInto 32 vs
  let scales := blocks.map fun b => (groupScale code (b.map fun x => x.1), b.any fun x => x.2)
  let scaled := (blocks.zip scales).flatMap fun x => x.1.map fun v => (underScale x.2.1 v.1, v.2 || x.2.2)
  let (es, g) := convertAll code mode g scaled
  (scales.map (fun s => (BitVec.ofNat 8 s.1, s.2)) ++ packBits (elemBits code 0) 0 es, g)

/-- Groups in order. -/
def quantGroups (code mode : Nat) : Nat → List (List (Num × Bool)) → List PByte
  | _, [] => []
  | g, x :: xs => let (bs, g) := quantGroup code mode g x; bs ++ quantGroups code mode g xs

/-- Quantise (R132). The bits after the last element of a stream that ends within a byte are free, by the record's address
(log 93). -/
def quant (code w mode : Nat) (addr : Word) (bs : List PByte) : List PByte :=
  let vs := (cutInto (elemBits w 0 / 8) bs).map fun x => (decode w 0 (numOf x), x.any fun b => b.2)
  if isMx code then quantGroups code mode (galoisSeed addr) (cutInto 1024 vs)
  else packBits (elemBits code 0) (Config.freeByte addr.toNat) (convertAll code mode (galoisSeed addr) vs).1

/-! ## The elastic codec and chunked streams (R69, R134) -/

/-- One group encoded: a mask of its bytes and the nonzero ones. -/
def elasticGroup (x : List PByte) : List PByte :=
  let m := (indexed 0 x).foldl (fun m b => if b.2.1 != 0 then m + 2 ^ b.1 else m) 0
  let p := x.any fun b => b.2
  (leBytes (ceilDiv x.length 8) m).map (fun b => (b, p)) ++ x.filter fun b => b.1 != 0

/-- A chunk encoded in 64-byte groups, the last shorter. -/
def elastic (x : List PByte) : List PByte := (cutInto 64 x).flatMap elasticGroup

/-- The bytes that a mask and nonzero bytes give. -/
def unmask (m : Nat) : Nat → Nat → List Byte → Option (List Byte × List Byte)
  | _, 0, rest => some ([], rest)
  | k, n + 1, rest =>
    if bit m k then match rest with
      | b :: rest => (unmask m (k + 1) n rest).map fun x => (b :: x.1, x.2)
      | [] => none
    else (unmask m (k + 1) n rest).map fun x => (0 :: x.1, x.2)

/-- The built-in elastic decoder: `xlen` bytes of a body, none when the body does not give exactly that many. -/
def unelastic : Nat → Nat → List Byte → Option (List Byte)
  | 0, _, _ => none
  | fuel + 1, xlen, body =>
    if xlen = 0 then (if body.isEmpty then some [] else none)
    else
      let g := min 64 xlen
      let mb := ceilDiv g 8
      let m := leNat (body.take mb)
      if body.length < mb ∨ 2 ^ g ≤ m then none
      else match unmask m 0 g (body.drop mb) with
        | some (x, rest) => (unelastic fuel (xlen - g) rest).map fun y => x ++ y
        | none => none

/-- Compress (R134): directory and bodies. -/
def compress (size : Nat) (bs : List PByte) : List PByte :=
  let chunks := cutInto size bs
  let bodies := chunks.map elastic
  let n := chunks.length
  let start := 16 + 16 * n
  let offs := (List.range n).map fun k => start + ((bodies.take k).foldl (fun a b => a + b.length) 0)
  let hurt := fun (x : List PByte) => x.any fun y => y.2
  let cl := fun (x : List Byte) => x.map clean
  cl (leBytes 8 n) ++ cl (leBytes 8 bs.length)
    ++ ((List.range n).flatMap fun k =>
      let b := bodies.getD k []
      let p := hurt b
      (leBytes 4 (offs.getD k 0)).map (fun x => (x, (bodies.take k).any hurt)) ++ (leBytes 4 b.length ++ leBytes 4 (crc32 (b.map fun x => x.1))
        ++ leBytes 4 (chunks.getD k []).length).map fun x => (x, p))
    ++ bodies.flatMap id

/-- A directory entry: body offset and length, CRC, expanded length. -/
structure ChunkDir where
  off : Nat
  clen : Nat
  crc : Nat
  xlen : Nat
  deriving DecidableEq, Repr

/-- NCHUNK of a stream. -/
def nchunk (bs : List PByte) : Nat := leNat ((bs.take 4).map fun b => b.1)

/-- The directory of a stream. -/
def dirOf (bs : List PByte) : List ChunkDir :=
  (List.range (nchunk bs)).map fun k =>
    let e := fun (j : Nat) => numOf ((bs.drop (16 + 16 * k + 4 * j)).take 4)
    ⟨e 0, e 1, e 2, e 3⟩

/-- The stream breaks R134: the directory passes LEN, NCHUNK's upper half is set, the total differs, or an XLEN is above
1 MiB. -/
def streamBad (bs : List PByte) : Bool :=
  bs.length < 16 || bs.length < 16 + 16 * nchunk bs || numOf ((bs.drop 4).take 4) != 0
    || numOf ((bs.drop 8).take 8) != (dirOf bs).foldl (fun a d => a + d.xlen) 0
    || (dirOf bs).any fun d => 2 ^ 20 < d.xlen

/-- A poisoned byte stands in the stream's first 16 bytes or in the directory entry of chunk `k`, which makes the chunk bad
(R128). The words are taken as they stand; that those first bytes are of every chunk is a DESIGN CHOICE (log 113). -/
def dirPoisoned (bs : List PByte) (k : Nat) : Bool := (bs.take 16 ++ (bs.drop (16 + 16 * k)).take 16).any fun b => b.2

/-! ## The table decoder (R137, R138) -/

/-- A number at an offset of a table image. -/
def tnum (t : List Byte) (o n : Nat) : Nat := leNat ((t.drop o).take n)
/-- NSTATE. -/
def nstate (t : List Byte) : Nat := tnum t 2 2
/-- NENT. -/
def nent (t : List Byte) : Nat := tnum t 4 2
/-- START. -/
def tstart (t : List Byte) : Nat := tnum t 6 2
/-- Offset of the transition entries. -/
def entBase (t : List Byte) : Nat := roundUp (0x110 + 4 * nstate t) 8
/-- The image's length. -/
def imageLen (t : List Byte) : Nat := entBase t + 4 * nent t
/-- Class of a symbol. -/
def classOf (t : List Byte) (b : Byte) : Nat := (t.getD (0x10 + b.toNat) 0).toNat
/-- State word. -/
def stateWord (t : List Byte) (k : Nat) : Nat := tnum t (0x110 + 4 * k) 4
/-- Transition entry. -/
def entry (t : List Byte) (k : Nat) : Nat := tnum t (entBase t + 4 * k) 4

/-- The header alone breaks R137, so that the image's length has no meaning. -/
def headBad (t : List Byte) : Bool :=
  tnum t 0 2 != 0x5854 || nstate t == 0 || 4096 < nstate t || tnum t 8 8 != 0 || 65536 < imageLen t || nstate t ≤ tstart t

/-- The image breaks R137. -/
def imageBad (t : List Byte) : Bool :=
  headBad t
    || (List.range 256).any (fun b => 64 ≤ classOf t (BitVec.ofNat 8 b))
    || (List.range (nstate t)).any (fun k => bits (stateWord t k) 31 20 != 0
        || nent t ≤ bits (stateWord t k) 13 0 + bits (stateWord t k) 19 14)
    || (List.range (nent t)).any fun k => nstate t ≤ bits (entry t k) 31 20

/-- A way's registers: state, N, D, ended, and the output so far, latest first. -/
structure Way where
  s : Nat
  n : Nat
  d : Nat
  ended : Bool
  out : List Byte
  deriving DecidableEq, Repr

/-- `k` bytes copied from `d + 1` back (COPY of R138). -/
def copyBack (d : Nat) : Nat → List Byte → List Byte
  | 0, out => out
  | k + 1, out => copyBack d k (out.getD d 0 :: out)

/-- One body byte (R138); none: BAD. -/
def wayStep (t : List Byte) (xlen : Nat) (w : Way) (b : Byte) : Option Way :=
  let c := classOf t b
  let sw := stateWord t w.s
  if w.ended ∨ bits sw 19 14 < c then none
  else
    let e := entry t (bits sw 13 0 + c)
    let v := if bit e 16 then b else BitVec.ofNat 8 (bits e 7 0)
    let a := bits e 15 8
    let go := fun (w : Way) => if xlen < w.out.length then none else some { w with s := bits e 31 20 }
    match bits e 19 17 with
    | 0 => go { w with out := v :: w.out }
    | 1 => go w
    | 2 => go { w with n := if bit a 0 then b.toNat else (w.n * 256 + b.toNat) % 2 ^ 24 }
    | 3 => go { w with d := if bit a 0 then b.toNat else (w.d * 256 + b.toNat) % 2 ^ 16 }
    | 4 => if xlen < w.out.length + (w.n + a) then none else go { w with out := List.replicate (w.n + a) v ++ w.out, n := 0 }
    | 5 =>
      if 4096 ≤ w.d ∨ w.out.length < w.d + 1 ∨ xlen < w.out.length + (w.n + a) then none
      else go { w with out := copyBack w.d (w.n + a) w.out, n := 0, d := 0 }
    | 6 => go { w with ended := true }
    | _ => none

/-- Body bytes in order. -/
def wayRun (t : List Byte) (xlen : Nat) : Way → List Byte → Option Way
  | w, [] => some w
  | w, b :: bs => match wayStep t xlen w b with
    | some w => wayRun t xlen w bs
    | none => none

/-- decode of R138: the chunk's bytes, or BAD. -/
def decodeTable (t : List Byte) (xlen : Nat) (body : List Byte) : Option (List Byte) :=
  match wayRun t xlen ⟨tstart t, 0, 0, false, []⟩ body with
  | some w => if w.ended ∧ w.out.length = xlen then some w.out.reverse else none
  | none => none

/-- A chunk decoded (R138, R139): none when it is bad. `table` is none for the built-in decoder. -/
def decodeChunk (table : Option (List Byte)) (bs : List PByte) (d : ChunkDir) : Option (List Byte) :=
  let body := (bs.drop d.off).take d.clen
  let raw := body.map fun b => b.1
  if d.clen = 0 ∨ bs.length < d.off + d.clen ∨ body.any (fun b => b.2) ∨ crc32 raw ≠ d.crc then none
  else match table with
    | some t => decodeTable t d.xlen raw
    | none => unelastic (d.xlen / 64 + 2) d.xlen raw

/-! ## Reduce (R133) -/

/-- One destination element with a source element added. -/
def reduceElem (fmt : Nat) (d s : Nat) : Nat :=
  match fmt with
  | 0 => (d + s) % 2 ^ 32
  | 1 => encodeNum cFp32 0 rne (add (decode cFp32 0 d) (decode cFp32 0 s))
  | 2 => encodeNum cBf16 0 rne (add (decode cBf16 0 d) (decode cBf16 0 s))
  | _ => (d + s) % 2 ^ 64

/-- A run of destination bytes with source bytes added element by element. -/
def reduceBytes (fmt size : Nat) (d s : List Byte) : List Byte :=
  ((cutInto size d).zip (cutInto size s)).flatMap fun x => leBytes size (reduceElem fmt (leNat x.1) (leNat x.2))

end Sys2Proof.Machine.Stages
end

