-- ==== Sys2Proof/Machine/Engines.lean ====
section
/-! DEFINITION. Copy engines and transducer lanes (R117 to R140, R269 to R276): CPY, CPYC, CPYT, XTLOAD, XSTAT, and the
steps of a record: acceptance, start with its checks, reads, chunks, writes, faults and completion. -/

namespace Sys2Proof.Machine

open Sys2Proof.Bits Sys2Proof.Rows Sys2Proof.Machine.Stages

/-! ## The starting instructions (R271, R273) -/

/-- A record slot: alignment and translation of its 64 bytes, then its request goes to the engines. -/
def recordOp (opc : Nat) (f : EOp) (q : Word → Req) (s : State) : Host.Outcome State Fault Refusal :=
  fireOp opc (.e f) s fun fr =>
    match slotXlate s fr .virt fr.l 64 64 (loadAccess fr.n) with
    | .stop s => s
    | .ok s _ => putRequest s fr (q fr.l)

/-- CPY (R271). -/
def execCpy (f : EOp) (s : State) : Host.Outcome State Fault Refusal := recordOp 0x90 f (fun l => .record l false) s

/-- CPYT (R271). -/
def execCpyt (f : EOp) (s : State) : Host.Outcome State Fault Refusal := recordOp 0x92 f (fun l => .record l true) s

/-- CPYC (R273): the semaphore must be owned or granted. -/
def execCpyc (f : EOp) (s : State) : Host.Outcome State Fault Refusal :=
  fireOp 0x91 (.e f) s fun fr =>
    let sem := f.imm.toNat % 64
    if !(s.sem fr.n.cluster sem).allows fr.n.ctx then fr.fault s codePageDenied 0
    else match slotXlate s fr .virt fr.l 64 64 (loadAccess fr.n) with
    | .stop s => s
    | .ok s _ => putRequest s fr (.chain fr.l (f.sel.toNat % 16) sem)

/-! ## Acceptance (RECORD_ACCEPT; R123, R271, R273) -/

/-- Records that a die has accepted beyond those active on its engines; a chain's later records take no place. -/
def queuedRecords (s : State) (die : Nat) : Nat :=
  (s.recs.filter fun (x : Nat × Rec) => x.2.engine / 8 == die && x.2.phase == .accepted && !x.2.walked).length

/-- Where a record lies, for a context now. -/
def recordPieces (s : State) (die : Nat) (n : Inst) (addr : Word) : List Piece :=
  match xlateNow s die n.ctx addr 64 64 ⟨.engine, true, false, false, n.ctl.cur⟩ with
  | (_, .ok ps) => ps
  | _ => []

/-- The record lies in a DEVICE page. -/
def recordInDevice (s : State) (die : Nat) (n : Inst) (addr : Word) : Bool :=
  (recordPieces s die n addr).any fun p => isDeviceKey p.key

/-- Words of a run of 64 bytes. -/
def wordsOf (bs : List Byte) : List Word := (List.range 8).map fun k => BitVec.ofNat 64 (word8 bs k)

/-- The record's words as its home holds them now, under some writes on their way there; none when memory does not hold
them. -/
def peekRecord (s : State) (die : Nat) (n : Inst) (addr : Word) (own : List (Nat × List Byte)) : Option (List Word) :=
  match recordPieces s die n addr with
  | [] => none
  | ps =>
    if ps.any fun p => isDeviceKey p.key then none
    else some (wordsOf (ps.flatMap fun p => own.foldl (fun bs w => overlay p.key bs w.1 w.2) (s.bytes p.key p.n)))

/-- The die that holds DST's first byte, for CPYT (R271). -/
def dstDie (s : State) (cluster die ctx : Nat) (sup : Bool) (ws : List Word) : Nat :=
  match xlate s none cluster die ctx (recSpace (dsp ws)) (dst ws) 1 64 1 ⟨.engine, false, true, false, sup⟩ true with
  | (_, .ok (p :: _)) => ((homeOf p.key).die?).getD die
  | _ => die

/-- The die whose engines a record goes to. That of a CPYT record in a DEVICE page is known when the engine has read it. -/
def recordDie (s : State) (n : Inst) (addr : Word) (remote : Bool) : Nat :=
  let die := dieOfCore n.cluster
  if remote then match peekRecord s die n addr [] with
    | some ws => dstDie s n.cluster die n.ctx n.ctl.cur ws
    | none => die
  else die

/-- Scope of a record's acquire and release: codes 0 to 2 act as DIE (R118). -/
def recScopeOf (ws : List Word) : Scope := recScope (max 3 (recScopeCode ws))

/-- The releases that the starting instruction makes because the record carries ACQ (R110): the record as its home holds
it, and as the context's stores on their way there, those that its block holds included, leave it. A record in a DEVICE page
is released at SYSTEM scope (log 94). -/
def startReleases (s : State) (i : Nat) (n : Inst) (b : Block) (addr : Word) : List Scope :=
  let die := dieOfCore n.cluster
  if recordInDevice s die n addr then [.system]
  else ([peekRecord s die n addr [], peekRecord s die n addr (ctlOwn s i b 33)].filterMap id).filterMap fun ws =>
    if acq ws then some (recScopeOf ws) else none

/-- A record as an engine accepts it. -/
def Rec.fresh (s : State) (i : Nat) (n : Inst) (engine : Nat) (addr : Word) (target : RecTarget) (toDst : Bool) : Rec :=
  { inst := i, cls := s.classOf n, queue := s.queueOf n, ctx := n.ctx, sup := n.ctl.cur, die := dieOfCore n.cluster, engine, cluster := n.cluster, addr, target,
    toDst, walked := false, seq := 0, phase := .accepted, fetched := [], words := [], tile := [], input := [],
    chunks := [], issued := [], pois := false, total := 0, leave := none, pages := [], group := none }

/-- ECSTATE of a walk (R274). -/
def ecValue (addr : Word) (sealed fault busy : Bool) : Word :=
  BitVec.ofNat 64 (addr.toNat / 64 * 64 + (if sealed then 4 else 0) + (if fault then 2 else 0) + (if busy then 1 else 0))

/-- An engine channel register set, in the slot or in the saved state (R396). -/
def setEc (s : State) (i ec : Nat) (v : Word) : State :=
  match s.inst? i with
  | none => s
  | some n =>
    if n.life = .saved then s.modInst i fun n => { n with kept := n.kept ++ [.ecstate ec v] }
    else s.modCtl i fun c => { c with ecstate := c.ecstate.setIfInBounds ec v }

/-- The token register that a slot names. -/
def slotSel (b : Block) (k : Nat) : Nat :=
  match Layout.slot b.words k with
  | some (_, .e e, _) => e.sel.toNat
  | _ => 0

/-- The engine takes the record: the block binds, and SEL is pending or the channel register busy. The record's name is
higher than those of the context's earlier writes. -/
def acceptRecord (s : State) (i k engine : Nat) (n : Inst) (b : Block) (addr : Word) (remote : Bool)
    (chain : Option (Nat × Nat)) : State :=
  let toDst := remote && recordInDevice s (dieOfCore n.cluster) n addr
  let (r, s) := (bindBlock s i).takeFresh
  let target := match chain with
    | some (ec, sem) => RecTarget.chain ec sem
    | none => .token (slotSel b k)
  let s := { s with recs := aset r (Rec.fresh s i n engine addr target toDst) s.recs }
  let s := answer s i k none
  match chain with
  | some (ec, _) => setEc s i ec (ecValue addr false false true)
  | none => s.modCtl i fun c => c.setPending (slotSel b k) true

/-- The channel register of a chain is idle (R273). -/
def ecIdle (n : Inst) (chain : Option (Nat × Nat)) : Bool :=
  match chain with
  | some (ec, _) => !(n.ctl.ecstate.toList.getD ec 0).getLsbD 0
  | none => true

/-- A waiting request for an engine: record address, CPYT or not, and a chain's channel register and semaphore. -/
def recordReq (b : Block) : Option (Nat × Word × Bool × Option (Nat × Nat)) :=
  match b.req with
  | some ⟨k, .record addr remote, _⟩ => some (k, addr, remote, none)
  | some ⟨k, .chain addr ec sem, _⟩ => some (k, addr, false, some (ec, sem))
  | _ => none

/-- Another instance of class 0 waits to enter a record at the die: it enters ahead (R271). -/
def class0Waits (s : State) (i die : Nat) : Bool :=
  s.insts.any fun (x : Nat × Inst) => x.1 != i && s.classOf x.2 == 0 && match x.2.ctl.blk with
    | some b => match recordReq b with
      | some (k, addr, remote, chain) =>
        sideReady s x.1 b k && ecIdle x.2 chain && recordDie s x.2 addr remote == die
      | none => false
    | none => false

/-- A request for an engine: it is of the chosen die with room, and the channel register is idle. The block binds in the
accepting step (R271, R273); with ACQ that step is a release, so that it waits for its domain (R110), and stores that the
block itself holds, when they alone keep it back, enter first, at the block's binding (log 28). -/
def offerRecord (s : State) (i engine : Nat) (n : Inst) (b : Block) (k : Nat) (addr : Word) (remote : Bool)
    (chain : Option (Nat × Nat)) : State :=
  let die := recordDie s n addr remote
  if engine / 8 ≠ die ∨ 256 ≤ queuedRecords s die ∨ !ecIdle n chain ∨ (s.classOf n ≠ 0 ∧ class0Waits s i die) then s
  else
    let scs := startReleases s i n b addr
    let clear := fun (s : State) => scs.all fun sc => ctlReleaseClear s i sc
    if clear (bindBlock s i) then acceptRecord s i k engine n b addr remote chain
    else if clear s then bindBlock s i
    else s

/-- RECORD_ACCEPT (R101, R110, R271, R273). -/
def execRecordAccept (i engine : Nat) (s : State) : Host.Outcome State Fault Refusal :=
  match s.inst? i with
  | none => .next s
  | some n => match n.ctl.blk with
    | none => .next s
    | some b => match recordReq b with
      | some (k, addr, remote, chain) =>
        .next (if sideReady s i b k && engine < 64 then offerRecord s i engine n b k addr remote chain else s)
      | none => .next s

/-! ## Ending a record -/

/-- A record's leave returned (R272). -/
def recordLeave (s : State) (r : Nat) (x : Rec) : State :=
  let s := { s with leaves := s.leaves.filter fun q => q.2.for_ != LeaveFor.record r }
  match x.leave with
  | some u => giveLeave s (x.engine / 8) (x.cls) u
  | none => s

/-- A read on its way to the host or a peer is of record `r`. -/
def ReadFor.ofRec (r : Nat) : ReadFor → Bool
  | .engine j _ => j == r
  | .words j _ => j == r
  | _ => false

/-- A record leaves its engine; its writes that have not performed are dropped when `drop`, and no others of its chain
(R127). -/
def dropRecord (s : State) (r : Nat) (x : Rec) (drop : Bool) : State :=
  let s := recordLeave s r x
  { s with
    recs := adel r s.recs,
    outb := if drop then s.outb.filter fun o => !(o.agent == .engine r && o.seq == x.seq) else s.outb,
    outReads := s.outReads.filter fun q => !q.for_.ofRec r }

/-- A record that meets a fault stops (R127). -/
def recordFault (s : State) (r : Nat) (x : Rec) (code : Nat) (addr : Word) : State :=
  let s := dropRecord s r x true
  let s := match x.target with
    | .token reg => deliverToken s x.inst reg (BitVec.ofNat 64 (2 ^ 63 + code % 256 * 2 ^ 40)) evCopy false
    | .chain ec _ => postEvent (setEc s x.inst ec (ecValue x.addr false true false)) x.inst evChain
  postAsync s x.inst ⟨code, 0, 0xC1, addr, some x.addr, none, 0⟩

/-- A chain ends without a fault: the register goes idle (R124). -/
def endChain (s : State) (r : Nat) (x : Rec) (ec : Nat) (sealed : Bool) : State :=
  postEvent (setEc (dropRecord s r x false) x.inst ec (ecValue x.addr sealed false false)) x.inst evChain

/-! ## Addresses of a record -/

/-- Translation for a record, walks in the same step; LOCAL names the issuing core's cluster (R119). -/
def recXlate (s : State) (x : Rec) (as_ : Space) (addr : Word) (n align : Nat) (w : Bool) : State × Xlate :=
  xlate s none x.cluster (x.engine / 8) x.ctx as_ addr n 64 align ⟨.engine, !w, w, false, x.sup⟩ true

/-- The pieces of a run after its first `k` bytes. -/
def dropBytes : Nat → List Piece → List Piece
  | _, [] => []
  | k, p :: ps => if p.n ≤ k then dropBytes (k - p.n) ps else { p with key := p.key + k, n := p.n - k } :: ps

/-- The places in `pages` that hold where a reduce's COMPL word and its record lie: above those of every token. -/
def complPage : Nat := 2 ^ 64
/-- The record's place. -/
def recordPage : Nat := 2 ^ 64 + 1

/-- Where `n` bytes lie: held since the record started, at `off` bytes of a place of `pages`, or translated now. -/
def heldXlate (s : State) (x : Rec) (place off : Nat) (addr : Word) (n : Nat) : State × Xlate :=
  match aget place x.pages with
  | some ps => (s, .ok (dropBytes off ps))
  | none => recXlate s x .virt addr n 8 true

/-- The tile walks source bytes themselves: no expand (R122). -/
def walksSource (ws : List Word) : Bool := hasTile ws && !expands ws

/-- Source units: destination elements of a tile over source bytes, or 64-byte tokens of SRC to SRC + LEN. -/
def unitCount (x : Rec) : Nat :=
  if walksSource x.words then tileElems x.words x.tile
  else if len x.words = 0 then 0
  else ((src x.words).toNat + len x.words - 1) / 64 + 1 - (src x.words).toNat / 64

/-- Address and length of source unit `n`; none when it reads nothing. -/
def unitAt (x : Rec) (n : Nat) : Option (Word × Nat) :=
  if walksSource x.words then
    (tileOff x.words x.tile n).map fun o =>
      let t := tileRun x.words o
      (src x.words + BitVec.ofInt 64 t.1, t.2)
  else
    let a := (src x.words).toNat
    let lo := max a ((a / 64 + n) * 64)
    let hi := min (a + len x.words) ((a / 64 + n + 1) * 64)
    some (BitVec.ofNat 64 lo, hi - lo)

/-- What has been read of unit `n`. -/
def unitGot (x : Rec) (n : Nat) : List PByte := agetD [] n x.input

/-- Unit `n` has been read whole, or reads nothing. -/
def unitRead (x : Rec) (n : Nat) : Bool :=
  match unitAt x n with
  | some u => (unitGot x n).length == u.2
  | none => true

/-- Every unit that reads something has been read. -/
def allRead (x : Rec) : Bool := (List.range (unitCount x)).all (unitRead x)

/-- The bytes of a unit that has been read, with their poison, dequantised under a tile; zeros for padding. -/
def unitBytes (x : Rec) (n : Nat) : Option (List PByte) :=
  if !unitRead x n then none
  else if walksSource x.words then match tileOff x.words x.tile n with
    | some o => some (tileElem x.words o (unitGot x n))
    | none => some (List.replicate (esz x.words) (clean 0))
  else some (unitGot x n)

/-- All source bytes in order. -/
def sourceBytes (x : Rec) : List PByte := (List.range (unitCount x)).flatMap fun n => (unitBytes x n).getD []

/-! ## What a record writes -/

/-- The decoded chunks of an expand, bad ones as zeros; none while a chunk is not decoded. -/
def expanded (x : Rec) : Option (List PByte) :=
  let ds := dirOf (sourceBytes x)
  let parts := (indexed 0 ds).map fun d => (aget d.1 x.chunks).map fun c => (c.getD (zeros d.2.xlen)).map clean
  if parts.all Option.isSome then some (parts.flatMap fun p => p.getD []) else none

/-- The chunks of an expand with dequantise, each dequantised by itself (R131). -/
def expandedWide (x : Rec) : Option (List PByte) :=
  let ws := x.words
  if dequants ws then
    let ds := dirOf (sourceBytes x)
    let parts := (indexed 0 ds).map fun d => (aget d.1 x.chunks).map fun c => (c.getD (zeros d.2.xlen)).map clean
    if parts.all Option.isSome then some (parts.flatMap fun p => dequant (pfmt ws) (wfmt ws) (p.getD [])) else none
  else expanded x

/-- The destination bytes of a record with stages, once everything is read and decoded (R130). -/
def stagedOutput (x : Rec) : Option (List PByte) :=
  let ws := x.words
  if !allRead x then none
  else if half ws = 1 then
    if expands ws then if streamBad (sourceBytes x) then none else (expandedWide x).map fun bs => if hasTile ws then tileOver ws x.tile bs else bs
    else some (if dequants ws && !hasTile ws then dequant (pfmt ws) (wfmt ws) (sourceBytes x) else sourceBytes x)
  else
    let bs := sourceBytes x
    let bs := if quants ws then quant (pfmt ws) (wfmt ws) (rnd ws) x.addr bs else bs
    some (if compresses ws then compress (chk ws) bs else bs)

/-- A record that moves bytes as they are: no stages, or a transposed tile only. -/
def isPlain (ws : List Word) : Bool := stg ws == 0 || (half ws == 1 && stg ws == 4)

/-- Bytes that a plain record writes. -/
def plainLen (x : Rec) : Nat := if hasTile x.words then tileBytes x.words x.tile else len x.words

/-- The pieces of a run of the source, or of the destination when `w`, as it lies now; none when it does not translate. -/
def runPieces (s : State) (x : Rec) (w : Bool) (addr : Word) (n : Nat) : List Piece :=
  match recXlate s x (recSpace (if w then dsp x.words else ssp x.words)) addr n 1 w with
  | (_, .ok ps) => ps
  | _ => []

/-- Where the bytes that the record reads lie. -/
def srcPieces (s : State) (x : Rec) : List Piece :=
  (List.range (unitCount x)).flatMap fun n => match aget (2 * n) x.pages, unitAt x n with
    | some ps, _ => ps
    | none, some u => runPieces s x false u.1 u.2
    | none, none => []

/-- Some byte of a run is one that the record reads: two addresses of one place overlap (R119). -/
def meetsSource (s : State) (x : Rec) (key n : Nat) : Bool := (srcPieces s x).any fun p => overlap p.key p.n key n

/-- Destination byte `o` of a plain record, when its source has been read. -/
def plainByte (x : Rec) (o : Nat) : Option PByte :=
  let unit := if hasTile x.words then (o / esz x.words, o % esz x.words)
    else
      let a := (src x.words).toNat
      ((a + o) / 64 - a / 64, if (a + o) / 64 = a / 64 then o else (a + o) % 64)
  (unitBytes x unit.1).map fun bs => bs.getD unit.2 (clean 0)

/-- The destination tokens of a run of `n` bytes: index, offset in the run, length. -/
def dstTokens (x : Rec) (n : Nat) : List (Nat × Nat × Nat) :=
  let a := (dst x.words).toNat
  (indexed 0 (tokensOf a n 64)).map fun t => (t.1, t.2.1 - a, t.2.2)

/-- The destination bytes of `n` overlap the source (R119). -/
def overlapping (s : State) (x : Rec) (n : Nat) : Bool :=
  (dstTokens x n).any fun t =>
    (runPieces s x true (dst x.words + BitVec.ofNat 64 t.2.1) t.2.2).any fun p => meetsSource s x p.key p.n

/-- The bytes of a run at `ps`, those that overlap the source free, each fresh (R119; log 4). -/
def freeOverlap (s : State) (x : Rec) (ps : List Piece) (bs : List PByte) : State × List PByte :=
  let keys := ps.flatMap fun p => (List.range p.n).map fun k => p.key + k
  if ps.any fun p => meetsSource s x p.key p.n then
    ({ s with fresh := s.fresh + bs.length },
      (indexed 0 bs).map fun b =>
        if meetsSource s x (keys.getD b.1 0) 1 then clean (Config.freeByte (s.fresh + b.1)) else b.2)
  else (s, bs)

/-- One destination token put into the outbound set (R107, R128): translated, or held from before for a reduce. -/
def issueToken (s : State) (r : Nat) (x : Rec) (t off : Nat) (bs : List PByte) : State :=
  let addr := dst x.words + BitVec.ofNat 64 off
  let res := match aget (2 * t + 1) x.pages with
    | some ps => (s, Xlate.ok ps)
    | none => recXlate s x (recSpace (dsp x.words)) addr bs.length 1 true
  match res with
  | (s, .ok ps) =>
    let (s, bs) := freeOverlap s x ps bs
    let pois := bs.any fun b => b.2
    let red := if reduces x.words then some (rfmt x.words) else none
    let s := enterWrite s (.engine r) ps (bs.map fun b => b.1) none pois (red := red) (seq := x.seq) (inst := x.inst)
      (queue := x.queue) (ctx := x.ctx)
    { s with recs := amod r (fun x => { x with issued := x.issued ++ [t], pois := x.pois || pois }) s.recs }
  | (s, .fault c fa) => recordFault s r x c fa
  | (s, .miss _ _) => s

/-- Every destination token whose bytes are known is put into the outbound set; a fault stops the record. -/
def issueList (r : Nat) (get : Rec → Nat → Option PByte) : State → List (Nat × Nat × Nat) → State
  | s, [] => s
  | s, (t, off, n) :: ts =>
    match aget r s.recs with
    | none => s
    | some x =>
      if x.issued.contains t then issueList r get s ts
      else
        let bs := (List.range n).map fun k => get x (off + k)
        if bs.all Option.isSome then issueList r get (issueToken s r x t off (bs.map fun b => b.getD (clean 0))) ts
        else issueList r get s ts

/-- Whatever a record can write now enters its outbound set. One whose ranges overlap has read its source by then, so that
the bytes outside the overlap are the source's (R119). -/
def issueReady (s : State) (r : Nat) : State :=
  match aget r s.recs with
  | none => s
  | some x =>
    if x.phase != .active then s
    else if isPlain x.words then
      if overlapping s x (plainLen x) && !allRead x then s else issueList r plainByte s (dstTokens x (plainLen x))
    else match stagedOutput x with
      | some out => issueList r (fun _ o => out[o]?) s (dstTokens x out.length)
      | none => s

/-- Bytes that a record writes to DST, once it is known. -/
def outputLen (x : Rec) : Option Nat := if isPlain x.words then some (plainLen x) else (stagedOutput x).map List.length

/-! ## The checks of R120 -/

/-- MISALIGN of R120. -/
def recMisaligned (ws : List Word) (walked : Bool) : Bool :=
  (walked && next ws % 64 != 0 && next ws != 1) || (compl ws).toNat % 8 != 0 || (bcl ws).toNat % 8 != 0
    || (reduces ws && ((src ws).toNat % reduceSize ws != 0 || (dst ws).toNat % reduceSize ws != 0))

/-- A combination of stages that R130 allows. -/
def stagesOk (ws : List Word) : Bool :=
  match half ws with
  | 0 => stg ws == 0
  | 1 => stg ws != 0
  | 2 => stg ws == 1 || stg ws == 2 || stg ws == 4 || stg ws == 6
  | _ => false

/-- Bytes that enter the first stage after a tile, where the record alone fixes them; a dequantise before a tile takes
whole units. -/
def inputLen (ws tile : List Word) : Nat :=
  if walksSource ws then (if dequants ws then 0 else tileBytes ws tile) else len ws

/-- The unit that the input of a stage must be whole in (R131 to R133). -/
def stageUnit (ws : List Word) : Nat :=
  if reduces ws then reduceSize ws
  else if dequants ws && !expands ws then (packedUnit (pfmt ws)).1
  else if quants ws then NumFmt.elemBits (wfmt ws) 0 / 8 * (if NumFmt.isMx (pfmt ws) then 1024 else 1)
  else 1

/-- ILLEGAL of R120, apart from the tile's own entries. -/
def recIllegal (ws : List Word) : Bool :=
  bits (rw ws 3) 35 32 != 0 || bits (rw ws 5) 1 0 != 0 || rw ws 7 != 0 || ssp ws == 3 || dsp ws == 3 || half ws == 3
    || 6 ≤ recScopeCode ws || 5 ≤ rnd ws || !stagesOk ws
    || ((dequants ws || quants ws) && (pfmt ws < 2 || 10 < pfmt ws))
    || (!expands ws && (xtid ws != 0 || (bcl ws).toNat != 0))
    || (transposes ws && !(hasTile ws && 2 ≤ tdim ws)) || (hasTile ws && !expands ws && len ws != 0)

/-- ILLEGAL of a tile (R120, R122) and of lengths. A tile with reduce whose bytes are no whole number of reduce elements is
ILLEGAL too, though its LEN is 0 (R133 speaks of LEN alone; DESIGN CHOICE, log 117). -/
def tileIllegal (ws tile : List Word) : Bool :=
  (hasTile ws && ((List.range 4).any (fun d => tdim ws ≤ d && (rw tile (2 * d) != 0 || rw tile (2 * d + 1) != 0))
      || 2 ^ 40 - 1 < tileBytes ws tile))
    || inputLen ws tile % stageUnit ws != 0

/-- The lane group that an expand uses (R136): it holds the table; of two the one beside the stream's first byte. When that
byte lies beside neither, it is the die's group 0 (DESIGN CHOICE, log 114: R136 does not say). -/
def laneGroupFor (s : State) (x : Rec) : Option Nat :=
  let d := x.engine / 8
  let id := xtid x.words
  let holds := fun g => match aget (d * 2 + g) s.lanes with
    | some l => l.xtid == id
    | none => false
  let near := match runPieces s x false (src x.words) 1 with
    | p :: _ => if p.key < hbmEnd && p.key / stackBytes / 2 == d then some (p.key / stackBytes % 2) else none
    | [] => none
  if holds 0 && holds 1 then some (d * 2 + near.getD 0)
  else if holds 0 then some (d * 2)
  else if holds 1 then some (d * 2 + 1)
  else none

/-! ## ENGINE_RECORD_START (R120, R123, R124, R272) -/

/-- What reading some words at the start or end of a record gives; `wait`: they are on their way. -/
inductive WordsRead
  | bytes (bs : List Byte)
  | fault (code : Nat) (addr : Word)
  | wait
  deriving DecidableEq, Repr

/-- The youngest write of a record's engine on its way to byte `key` brings a poisoned token (R89, R128). -/
def ownPoison (s : State) (r key : Nat) : Option Bool :=
  (((s.outbOf (.engine r)).filter fun o => o.key ≤ key && key < o.key + o.data.length).getLast?).map fun o => o.poisoned

/-- A piece's bytes, each with its poison: one that the record's own writes cover has theirs (R89, R128). -/
def readPoison (s : State) (r : Nat) (p : Piece) : State × List PByte :=
  let t := readHome s (s.ownWrites (.engine r)) p
  (t.s, (indexed p.key t.bytes).map fun b => (b.2, (ownPoison s r b.1).getD (t.s.poison.contains (granuleOf b.1))))

/-- `n` bytes at a virtual address read as one event; poison among them is a fault (R128). `k` is their place in
`fetched`, where a read of a DEVICE page puts them. -/
def takeWords (s : State) (r : Nat) (x : Rec) (k : Nat) (addr : Word) (n : Nat) : State × WordsRead :=
  match aget k x.fetched with
  | some bs => (s, .bytes bs)
  | none => match recXlate s x .virt addr n 1 false with
    | (s, .ok [p]) =>
      if s.asleep p.key then (s, .wait)
      else if isDeviceKey p.key then
        if s.outReads.any fun q => q.for_ == .words r k then (s, .wait)
        else match deviceRead s p.key n (.words r k) with
          | some (s, some bs) => (s, .bytes bs)
          | some (s, none) => (s, .wait)
          | none => (s, .wait)
      else
        let (s, bs) := readPoison s r p
        (s, if bs.any fun b => b.2 then .fault codePoison addr else .bytes (bs.map fun b => b.1))
    | (s, .ok _) => (s, .wait)
    | (s, .fault c fa) => (s, .fault c fa)
    | (s, .miss _ _) => (s, .wait)

/-- A run that a reduce record translates before its first read: its place in `pages`, space, address, bytes, and whether it
is written, read, and may lie in a DEVICE page. -/
structure PageAsk where
  place : Nat
  space : Space
  addr : Word
  n : Nat
  write : Bool
  read : Bool
  device : Bool
  deriving DecidableEq, Repr

/-- One run translated for a read or a write: its pieces, or the fault. -/
def askPage (s : State) (x : Rec) (q : PageAsk) (w : Bool) : State × Except (Nat × Word) (List Piece) :=
  match recXlate s x q.space q.addr q.n 1 w with
  | (s, .ok ps) => (s, if !q.device && ps.any (fun p => isDeviceKey p.key) then .error (codePageClass, q.addr) else .ok ps)
  | (s, .fault c fa) => (s, .error (c, fa))
  | (s, .miss _ _) => (s, .error (codeWait, q.addr))

/-- A reduce record's translations, made before its first read (R127). -/
def holdPages (x : Rec) : State → List PageAsk → Assoc (List Piece) → State × Except (Nat × Word) (Assoc (List Piece))
  | s, [], acc => (s, .ok acc)
  | s, q :: rest, acc =>
    match (if q.read then askPage s x q false else (s, .ok [])) with
    | (s, .error e) => (s, .error e)
    | (s, .ok ps) => match (if q.write then askPage s x q true else (s, .ok ps)) with
      | (s, .error e) => (s, .error e)
      | (s, .ok ps) => holdPages x s rest (aset q.place ps acc)

/-- The runs that a reduce record translates: its source units, its destination tokens, which are read as well, and the words
that it signals, so that it never faults after it has added (R127). -/
def reducePages (x : Rec) : List PageAsk :=
  ((List.range (unitCount x)).filterMap fun n => (unitAt x n).map fun u =>
      ⟨2 * n, recSpace (ssp x.words), u.1, u.2, false, true, true⟩)
    ++ ((dstTokens x (inputLen x.words x.tile)).map fun t =>
      ⟨2 * t.1 + 1, recSpace (dsp x.words), dst x.words + BitVec.ofNat 64 t.2.1, t.2.2, true, true, false⟩)
    ++ (if compl x.words = 0 then [] else [⟨complPage, .virt, compl x.words, 8, true, false, true⟩])
    ++ [⟨recordPage, .virt, x.addr, 64, true, true, false⟩]

/-- Units of the 6 W that a long copy asks (R272, R376). -/
def copyLeave : Nat := 24000

/-- The record starts: a reduce translates its pages, and what needs no read is written. -/
def activate (s : State) (r : Nat) (x : Rec) : State :=
  if reduces x.words then
    match holdPages x s (reducePages x) [] with
    | (t, .ok pg) => issueReady { t with recs := aset r { x with phase := .active, pages := pg } t.recs } r
    | (t, .error (c, fa)) => if c = codeWait then s else recordFault t r x c fa
  else issueReady { s with recs := aset r { x with phase := .active } s.recs } r

/-- Leave is asked for when the bytes pass 1 MiB (R272); a chain that has it asks no more. -/
def startOrAsk (s : State) (r : Nat) (x : Rec) : State :=
  let est := if hasTile x.words then tileBytes x.words x.tile else len x.words
  if x.leave.isNone && 2 ^ 20 < x.total + est then
    match askLeave s (.record r) (x.engine / 8) (x.cls) copyLeave with
    | some s => { s with recs := aset r { x with phase := .waitLeave } s.recs }
    | none => recordFault s r x codeLeaveDenied x.addr
  else activate s r x

/-- The record checked, once its tile descriptor has been read (R120). -/
def checkTile (s : State) (r : Nat) (x : Rec) (tile : List Word) : State :=
  let x := { x with tile }
  if tileIllegal x.words tile then recordFault s r x codeIllegal x.addr
  else if xtid x.words != 0 then
    match laneGroupFor s x with
    | some g => startOrAsk s r { x with group := some g }
    | none => recordFault s r x codeFmtUnbound x.addr
  else startOrAsk s r x

/-- The record read and checked (R120). -/
def checkRecord (s : State) (r : Nat) (x : Rec) (ws : List Word) : State :=
  let x := { x with words := ws, tile := [], input := [], chunks := [], issued := [], pages := [], group := none }
  let chain := match x.target with | .chain .. => true | .token _ => false
  if recMisaligned ws chain then recordFault s r x codeMisalign x.addr
  else if recIllegal ws then recordFault s r x codeIllegal x.addr
  else if hasTile ws then match takeWords s r x 1 (tptr ws) 64 with
    | (s, .bytes bs) => checkTile s r x (wordsOf bs)
    | (s, .fault c fa) => recordFault s r x c fa
    | (s, .wait) => { s with recs := amod r (fun y => { y with fetched := aset 0 (ws.flatMap fun w => leBytes 8 w.toNat) y.fetched }) s.recs }
  else checkTile s r x []

/-- The issuing block has committed (R270). -/
def recIssued (s : State) (x : Rec) : Bool :=
  match x.target with
  | .token reg => issuerCommitted s x.inst reg
  | .chain .. => true

/-- The tenant of a record's context. -/
def recordTenant (s : State) (x : Rec) : Nat := s.tenantOf x.ctx

/-- How far a tenant's turn at an engine is: 0 for the one after the tenant that took the last place (R123). -/
def engineTurn (s : State) (engine tenant : Nat) : Nat :=
  (tenant + 16 - agetD 0 (engine % 8) (s.die (engine / 8)).engTurn) % 16

/-- The engine has a place for the record: fewer than eight are active; class 0 takes one first, and the others take them
in rotation by tenant (R123). -/
def engineFree (s : State) (x : Rec) : Bool :=
  let here := s.recs.filter fun (y : Nat × Rec) => y.2.engine == x.engine
  let waiting := here.filter fun (y : Nat × Rec) => y.2.phase == .accepted && recIssued s y.2
  (here.filter fun (y : Nat × Rec) => y.2.phase != .accepted).length < 8
    && (x.cls == 0 || waiting.all fun (y : Nat × Rec) => y.2.cls != 0
      && engineTurn s x.engine (recordTenant s x) ≤ engineTurn s x.engine (recordTenant s y.2))

/-- A record that left the waiting ones moves the rotation on (R123). -/
def tookPlace (s : State) (r : Nat) (x : Rec) : State :=
  match aget r s.recs with
  | some y =>
    if y.phase = .accepted ∨ x.cls = 0 then s
    else s.modDie (x.engine / 8) fun d => { d with engTurn := aset (x.engine % 8) (recordTenant s x + 1) d.engTurn }
  | none => s

/-- The release that the starting instruction made, as far as this record's acquire depends on it (R110): the context's
writes before it, in the record's domain, have performed. Every record of a chain reads from the CPYC that named it. -/
def startReleased (s : State) (r : Nat) (x : Rec) (ws : List Word) : Bool :=
  !acq ws
    || releaseClear s (.ctl x.inst) ((s.outbOf (.ctl x.inst)).filter fun o => o.id < r) (recScopeOf ws)

/-- A record whose words the engine has read goes on: to the die of its destination first, if that was not known (R271);
a chain ends at a record that software owns (R124). -/
def startRecord (s : State) (r : Nat) (x : Rec) (ws : List Word) : State :=
  if x.toDst then
    let d := dstDie s x.cluster x.die x.ctx x.sup ws
    let y := { x with toDst := false, engine := d * 8 + x.engine % 8,
                      fetched := aset 0 (ws.flatMap fun w => leBytes 8 w.toNat) x.fetched }
    { s with recs := aset r y s.recs }
  else if !startReleased s r x ws then s
  else match x.target with
    | .chain ec _ => if own ws then tookPlace (checkRecord s r x ws) r x else endChain s r x ec false
    | .token _ => tookPlace (checkRecord s r x ws) r x

/-- ENGINE_RECORD_START (R120, R123, R124). -/
def execEngineRecordStart (r : Nat) (s : State) : Host.Outcome State Fault Refusal :=
  match aget r s.recs with
  | none => .next s
  | some x =>
    if x.phase != .accepted || !recIssued s x || !engineFree s x then .next s
    else match takeWords s r x 0 x.addr 64 with
      | (s, .fault c fa) => .next (recordFault s r x c fa)
      | (s, .bytes bs) => .next (startRecord s r x (wordsOf bs))
      | (s, .wait) => .next s

/-! ## Reads, chunks, writes -/

/-- Bytes of a unit arrive at the engine. -/
def engineInput (s : State) (r n : Nat) (bs : List PByte) : State :=
  issueReady { s with recs := amod r (fun x => { x with input := aset n (unitGot x n ++ bs) x.input }) s.recs } r

/-- Where the next bytes of unit `n` are read, as far as one token goes (R107): held since the record started, or
translated now (R127). -/
def unitPieces (s : State) (x : Rec) (n : Nat) (addr : Word) (k : Nat) : State × Xlate :=
  let got := (unitGot x n).length
  let a := addr + BitVec.ofNat 64 got
  match aget (2 * n) x.pages with
  | some ps => (s, .ok (dropBytes got ps))
  | none => recXlate s x (recSpace (ssp x.words)) a (min (k - got) (64 - a.toNat % 64)) 1 false

/-- READ_PERFORM of an engine record: the next token of source unit `n` (R89, R107, R128). A DEVICE source goes to the host
or peer. -/
def readEngine (s : State) (r n : Nat) : State :=
  match aget r s.recs with
  | none => s
  | some x =>
    if x.phase != .active || unitCount x ≤ n || unitRead x n then s
    else match unitAt x n with
      | none => s
      | some (addr, k) =>
        match unitPieces s x n addr k with
        | (s, .fault c fa) => recordFault s r x c fa
        | (s, .miss _ _) => s
        | (s, .ok []) => s
        | (s, .ok (p :: _)) =>
          if s.asleep p.key || fenceHoldsRead s (.engine r) (s.outbOf (.engine r)) p.key then s
          else if isDeviceKey p.key then
            if s.outReads.any (fun q => q.for_ == .engine r n) then s
            else match deviceRead s p.key p.n (.engine r n) with
              | some (s, some bs) => engineInput s r n (bs.map clean)
              | some (s, none) => s
              | none => s
          else
            let t := readPoison s r p
            engineInput t.1 r n t.2

/-- CHUNK_DECODE (R134, R138, R139): a way decodes chunk `c` of an expand once the stream is read. A stream that breaks
R134 makes the record ILLEGAL. -/
def execChunkDecode (r chunk : Nat) (s : State) : Host.Outcome State Fault Refusal :=
  match aget r s.recs with
  | none => .next s
  | some x =>
    if x.phase != .active || !expands x.words || !allRead x || (aget chunk x.chunks).isSome then .next s
    else
      let bs := sourceBytes x
      if streamBad bs then .next (recordFault s r x codeIllegal x.addr)
      else if dequants x.words && (dirOf bs).any (fun d => d.xlen % (packedUnit (pfmt x.words)).1 != 0) then
        .next (recordFault s r x codeIllegal x.addr)
      else match (dirOf bs)[chunk]? with
        | none => .next (issueReady s r)
        | some d =>
          let table := if xtid x.words = 0 then none else some (((x.group.bind fun g => aget g s.lanes).map fun l => l.table).getD [])
          let out := if dirPoisoned bs chunk then none else decodeChunk table bs d
          let s := if out.isNone then s.countDie (x.engine / 8) 0x051 1 else s
          .next (issueReady { s with recs := amod r (fun x => { x with chunks := aset chunk out x.chunks }) s.recs } r)

/-- The token that an engine's write stands in becomes poisoned, and the record reports it (R128). -/
def poisonToken (s : State) (r key : Nat) : State :=
  let s := poisonRun s (key - key % 64) 64
  { s with recs := amod r (fun x => { x with pois := true }) s.recs }

/-- An engine's write at its home (R128, R133): a reduce adds into the destination in the same event, and a poisoned token
that it reads stays poisoned; a poisoned write leaves its token poisoned. -/
def engineWrite (s : State) (r : Nat) (o : Outb) : State :=
  match o.red with
  | some f =>
    let n := o.data.length
    let s := meetFlaws s o.key n
    let hurt := poisonedIn s.poison o.key n || o.poisoned
    let s := homeWrite s o.key (reduceBytes f (redSize f) (s.bytes o.key n) o.data)
    if hurt then poisonToken s r o.key else s
  | none =>
    let s := homeWrite s o.key o.data
    if o.poisoned then poisonRun s (o.key - o.key % 64) 64 else s

/-! ## Completion (R124, R125, R140) -/

/-- Everything the record writes to DST has been put into the outbound set. -/
def allIssued (x : Rec) : Bool :=
  match outputLen x with
  | some n => (dstTokens x n).all fun t => x.issued.contains t.1
  | none => false

/-- A write of an engine to a DEVICE location (R148): Relaxed Ordering is clear for the last data write of a record with
REL, the one that leaves when all its writes have been issued and the others have performed. -/
def engineDeviceWrite (s : State) (r : Nat) (o : Outb) : State :=
  let last := match aget r s.recs with
    | some x => rel x.words && o.seq == x.seq && (x.phase != .active || allIssued x)
        && ((s.outbOf (.engine r)).filter fun p => p.seq == o.seq).length == 1
    | none => false
  deviceWrite s o.key o.data last

/-- The bad chunks of a record, ascending. -/
def badChunks (x : Rec) : List Nat := x.chunks.filterMap fun (c : Nat × Option (List Byte)) => if c.2.isNone then some c.1 else none

/-- The record's own writes have performed. -/
def recWritten (s : State) (r : Nat) (x : Rec) : Bool := !((s.outbOf (.engine r)).any fun o => o.seq == x.seq)

/-- A record's signal steps wait for its release with REL (R92, R105), and for its last write with reduce (R127). -/
def signalMay (s : State) (r : Nat) (x : Rec) : Bool :=
  (!(rel x.words || reduces x.words) || recWritten s r x)
    && (!rel x.words || releaseClear s (.engine r) (s.outbOf (.engine r)) (recScopeOf x.words))

/-- The bad-chunk list (R140): COUNT and the first indices, as writes of the record. -/
def writeBadList (s0 : State) (r : Nat) (x : Rec) : State :=
  let next := fun (s : State) => { s with recs := amod r (fun x => { x with phase := .signal 0 }) s.recs }
  if (bcl x.words).toNat = 0 then next s0
  else match takeWords s0 r x 2 (bcl x.words) 8 with
    | (s, .bytes bs) =>
      let cap := bits (leNat bs) 63 32
      let bad := (badChunks x).take cap
      let put := fun (s : State) (addr : Word) (n : Nat) =>
        match recXlate s x .virt addr 4 4 true with
        | (s, .ok ps) => (enterWrite s (.engine r) ps (leBytes 4 n) none false (seq := x.seq) (inst := x.inst) (queue := x.queue)
            (ctx := x.ctx), none)
        | (s, .fault c fa) => (s, some (c, fa))
        | (s, .miss _ _) => (s, some (codeWait, addr))
      let ws := (bcl x.words, (badChunks x).length) ::
        (indexed 0 bad).map fun b => (bcl x.words + BitVec.ofNat 64 (8 + 4 * b.1), b.2)
      let res := ws.foldl (fun (a : State × Option (Nat × Word)) w => match a.2 with
        | some _ => a
        | none => put a.1 w.1 w.2) (s, none)
      match res.2 with
      | some (c, fa) => if c = codeWait then s0 else recordFault res.1 r x c fa
      | none => next res.1
    | (s, .fault c fa) => recordFault s r x c fa
    | (s, .wait) => s

/-- The completion value (R125). -/
def completionValue (x : Rec) : Word :=
  BitVec.ofNat 64 ((if x.pois then 2 ^ 62 else 0) + (if (badChunks x).isEmpty then 0 else 2 ^ 61)
    + ((outputLen x).getD 0) % 2 ^ 40)

/-- Writes of the record's engine on their way to some of these bytes: its signal there waits for them (R91). -/
def ownPending (s : State) (r key n : Nat) : Bool := (s.outbOf (.engine r)).any fun o => overlap o.key o.data.length key n

/-- Signal 0: the sequence number is taken and written to COMPL (R125, R126), after its own earlier writes there (R91). -/
def signalCompl (s : State) (r : Nat) (x : Rec) : State :=
  let d := x.engine / 8
  let e := x.engine % 8
  let num := ((s.die d).engSeq.toList.getD e 0).toNat + 1
  let took := fun (s : State) =>
    let s := s.modDie d fun y => { y with engSeq := y.engSeq.setIfInBounds e (BitVec.ofNat 64 num) }
    { s with recs := amod r (fun x => { x with phase := .signal 1 }) s.recs }
  if (compl x.words).toNat = 0 then took s
  else match heldXlate s x complPage 0 (compl x.words) 8 with
    | (t, .ok ps) => match ps with
      | p :: _ => if ownPending s r p.key 8 then s else took (if isDeviceKey p.key then deviceWrite t p.key (leBytes 8 num) true else homeWrite t p.key (leBytes 8 num))
      | [] => took t
    | (t, .fault c fa) => recordFault t r x c fa
    | (_, .miss _ _) => s

/-- A word of the record for an atomic of the engine: its key, or the fault; `codeWait` while a walk or its own earlier write
there has to be waited for (R91). A DEVICE page takes no atomic (R21, R157; log 95), and a poisoned word is a fault
(R128). -/
def recordKey (s : State) (r : Nat) (x : Rec) (off : Nat) : State × Except (Nat × Word) Nat :=
  let a := x.addr + BitVec.ofNat 64 off
  match heldXlate s x recordPage off a 8 with
  | (s, .ok (p :: _)) =>
    if isDeviceKey p.key then (s, .error (codePageClass, a))
    else if ownPending s r p.key 8 then (s, .error (codeWait, a))
    else
      let s := meetFlaws s p.key 8
      (s, if poisonedIn s.poison p.key 8 then .error (codePoison, a) else .ok p.key)
  | (s, .ok []) => (s, .error (codePageAbsent, a))
  | (s, .fault c fa) => (s, .error (c, fa))
  | (s, .miss _ _) => (s, .error (codeWait, a))

/-- Signal 1: OWN is cleared by an atomic AND on W3 (R125). -/
def signalOwn (s : State) (r : Nat) (x : Rec) : State :=
  match recordKey s r x 24 with
  | (t, .ok key) =>
    let t := homeWrite t key (leBytes 8 (t.num8 key &&& (2 ^ 63 - 1)))
    { t with recs := amod r (fun x => { x with phase := .signal 2 }) t.recs }
  | (t, .error (c, fa)) => if c = codeWait then s else recordFault t r x c fa

/-- An engine's increment of a semaphore, in the core or in the saved state (R262, R396); of an instance that is gone, in
the core it ran on. -/
def engineIncrement (s : State) (i core sem : Nat) : State :=
  match s.inst? i with
  | none => semAdd s core sem 1
  | some n => if n.life = .saved then s.modInst i fun n => { n with kept := n.kept ++ [.semaphore sem] }
              else semAdd s n.cluster sem 1

/-- Signal 2: the semaphore, or the token register and the record's end (R125). The increment is a release at DIE scope
(R262). -/
def signalDone (s : State) (r : Nat) (x : Rec) : State :=
  match x.target with
  | .token reg =>
    let s := s.countDie (x.engine / 8) 0x050 1
    deliverToken (dropRecord s r x false) x.inst reg (completionValue x) evCopy (rel x.words)
  | .chain _ sem =>
    if !releaseClear s (.engine r) (s.outbOf (.engine r)) .die then s
    else
      let s := engineIncrement (s.countDie (x.engine / 8) 0x050 1) x.inst x.cluster sem
      { s with recs := amod r (fun y => { y with phase := .signal 3, total := y.total + (outputLen x).getD 0 }) s.recs }

/-- Signal 3 of a chain: the compare-and-swap on NEXT (R124). SEALED says that this walk sealed it (R274). -/
def chainNext (s : State) (r : Nat) (x : Rec) (ec : Nat) : State :=
  match recordKey s r x 0 with
  | (t, .ok key) =>
    let v := t.num8 key
    if v = 0 then endChain (homeWrite t key (leBytes 8 1)) r x ec true
    else if v = 1 then endChain t r x ec false
    else if v % 64 ≠ 0 then recordFault t r x codeMisalign x.addr
    else
      let a := BitVec.ofNat 64 v
      let go := fun (x : Rec) =>
        { x with addr := a, walked := true, seq := x.seq + 1, phase := .accepted, fetched := [], pages := [], pois := false }
      setEc { t with recs := amod r go t.recs } x.inst ec (ecValue a false false true)
  | (t, .error (c, fa)) => if c = codeWait then s else recordFault t r x c fa

/-- RECORD_COMPLETE (R124, R125): each signal is one step, in order, after the release when REL is set. -/
def execRecordComplete (r : Nat) (s : State) : Host.Outcome State Fault Refusal :=
  match aget r s.recs with
  | none => .next s
  | some x => match x.phase with
    | .active => .next (if allIssued x && (!reduces x.words || recWritten s r x) then writeBadList s r x else s)
    | .signal 0 => .next (if signalMay s r x then signalCompl s r x else s)
    | .signal 1 => .next (if signalMay s r x then signalOwn s r x else s)
    | .signal 2 => .next (if signalMay s r x then signalDone s r x else s)
    | .signal _ => match x.target with
      | .chain ec _ => .next (chainNext s r x ec)
      | .token _ => .next s
    | _ => .next s

/-! ## Transducer tables (R275, R276) -/

/-- A lane group that firmware has assigned to nobody. -/
def LaneGroup.fresh : LaneGroup := ⟨none, 0, [], []⟩

/-- Records that use a group's current table. -/
def laneUsers (s : State) (g : Nat) : Nat :=
  (s.recs.filter fun (x : Nat × Rec) => x.2.group == some g && x.2.phase != .accepted).length

/-- XTLOAD (R275): performs when the group accepts it; the block binds and SEL is pending. -/
def execXtload (f : EOp) (s : State) : Host.Outcome State Fault Refusal :=
  fireOp 0x93 (.e f) s fun fr =>
    let g := dieOfCore fr.n.cluster * 2 + f.imm.toNat / 256 % 2
    let l := agetD LaneGroup.fresh g s.lanes
    if l.tenant != some (BitVec.ofNat 4 (s.tenantOf fr.n.ctx)) then fr.fault s codePageDenied 0
    else match slotXlate s fr .virt fr.l 8 8 (loadAccess fr.n) with
    | .stop s => s
    | .ok s _ =>
      if !sideReady s fr.i fr.b fr.k then s.modSlot fr.i fr.k fun r => { r with st := .blocked }
      else
        let s := bindBlock s fr.i
        let ld : XtLoad := ⟨fr.i, s.queueOf fr.n, f.sel.toNat, fr.n.ctx, fr.n.ctl.cur, fr.l, f.imm.toNat % 256, []⟩
        let s := { s with lanes := aset g { l with loads := l.loads ++ [ld] } s.lanes }
        fr.doneAll (s.modCtl fr.i fun c => c.setPending f.sel.toNat true) []

/-- XSTAT (R276). -/
def execXstat (f : EOp) (s : State) : Host.Outcome State Fault Refusal :=
  fireOp 0x94 (.e f) s fun fr =>
    let g := dieOfCore fr.n.cluster * 2 + f.imm.toNat / 256 % 2
    let id := f.imm.toNat % 256
    let l := agetD LaneGroup.fresh g s.lanes
    let v := if l.tenant == some (BitVec.ofNat 4 (s.tenantOf fr.n.ctx)) then
        2 ^ 61 + (if l.xtid != 0 && (id == 0 || l.xtid == id) then 2 ^ 63 else 0) + (if l.loads.isEmpty then 0 else 2 ^ 62)
          + l.xtid * 2 ^ 48 + laneUsers s g
      else 0
    fr.done s [f.t1] (BitVec.ofNat 64 v)

/-- The next bytes of a load's image, up to byte `n`, as far as one token goes (R107): its read of a DEVICE page goes to
the host or peer (R21). -/
def readImage (s : State) (g : Nat) (ld : XtLoad) (n : Nat) : State × WordsRead :=
  let a := ld.addr + BitVec.ofNat 64 ld.got.length
  match xlate s none 0 (g / 2) ld.ctx .virt a (min (n - ld.got.length) (64 - a.toNat % 64)) 64 1
      ⟨.engine, true, false, false, ld.sup⟩ true with
  | (s, .ok (p :: _)) =>
    if s.asleep p.key || s.outReads.any (fun q => q.for_ == .image g) then (s, .wait)
    else if isDeviceKey p.key then match deviceRead s p.key p.n (.image g) with
      | some (s, some bs) => (s, .bytes bs)
      | some (s, none) => (s, .wait)
      | none => (s, .wait)
    else
      let t := readHome s [] p
      (t.s, if t.poisoned then .fault codePoison a else .bytes t.bytes)
  | (s, .ok []) => (s, .wait)
  | (s, .fault c fa) => (s, .fault c fa)
  | (s, .miss _ _) => (s, .wait)

/-- Bytes of the oldest load's image arrive at its group. -/
def imageInput (s : State) (g : Nat) (bs : List Byte) : State :=
  let take := fun (loads : List XtLoad) => match loads with
    | ld :: rest => { ld with got := ld.got ++ bs } :: rest
    | [] => []
  { s with lanes := amod g (fun l => { l with loads := take l.loads }) s.lanes }

/-- A load answered: it leaves the line and its value goes to SEL, with the TABLE event (R275, R287). -/
def endLoad (s : State) (g : Nat) (ld : XtLoad) (v : Word) : State :=
  deliverToken { s with lanes := amod g (fun l => { l with loads := l.loads.drop 1 }) s.lanes } ld.inst ld.reg v evTable false

/-- The step of a load whose image is to be read up to byte `n`. -/
def loadReads (s : State) (g : Nat) (ld : XtLoad) (n : Nat) : State :=
  match readImage s g ld n with
  | (s, .bytes bs) => imageInput s g bs
  | (s, .wait) => s
  | (s, .fault c fa) =>
    postAsync (endLoad s g ld (BitVec.ofNat 64 (2 ^ 63 + c * 2 ^ 40))) ld.inst ⟨c, 0, 0xC1, fa, some ld.addr, none, 0⟩

/-- XTLOAD_TAKE_EFFECT (R136, R137, R275): the oldest load of a group is read, token by token, and checked, and takes effect
once no record uses the current table. -/
def execXtloadTakeEffect (group : Nat) (s : State) : Host.Outcome State Fault Refusal :=
  match (aget group s.lanes).bind fun l => l.loads.head? with
  | none => .next s
  | some ld =>
    let refused := BitVec.ofNat 64 (2 ^ 63 + codeIllegal * 2 ^ 40)
    if !issuerCommitted s ld.inst ld.reg then .next s
    else if ld.got.length < 16 then .next (loadReads s group ld 16)
    else if headBad ld.got then .next (endLoad s group ld refused)
    else if ld.got.length < imageLen ld.got then .next (loadReads s group ld (imageLen ld.got))
    else if imageBad ld.got then .next (endLoad s group ld refused)
    else if laneUsers s group ≠ 0 then .next s
    else
      let s := { s with lanes := amod group (fun l => { l with xtid := ld.xtid, table := ld.got }) s.lanes }
      .next (endLoad s group ld (BitVec.ofNat 64 ld.got.length))

end Sys2Proof.Machine
end

