-- ==== Sys2Proof/Machine/System.lean ====
section
/-! DEFINITION. System instructions (R279 to R287): YIELD, SYSR, SYSW, TLBINV, BCINV, WAITEV, with the steps that end their
waits, and the commit effects of the system registers. -/

namespace Sys2Proof.Machine

open Sys2Proof.Bits Sys2Proof.Rows

/-! ## System registers (R281 to R283) -/

/-- Registers that level U cannot read (R282). -/
def userHidden (n : Nat) : Bool :=
  n == 5 || (0x10 ≤ n && n ≤ 0x1D) || n == 0x28 || (0x40 ≤ n && n ≤ 0x4F) || (0x60 ≤ n && n ≤ 0x9F)

/-- A counter select or counter that is not granted to the context's tenant (R282). -/
def counterDenied (s : State) (n : Inst) (reg : Nat) : Bool :=
  let t := BitVec.ofNat 4 (s.tenantOf n.ctx)
  if 0x40 ≤ reg && reg ≤ 0x4F then (s.core n.cluster).ctenant != some t
  else if 0x60 ≤ reg && reg ≤ 0x9F then (s.die (dieOfCore n.cluster)).dtenant != some t
  else false

/-- A bit as a word. -/
def flag (b : Bool) (k : Nat) : Nat := if b then 2 ^ k else 0

/-- The value of a system register (R282). -/
def sysValue (s : State) (n : Inst) (reg : Nat) : Word :=
  let c := n.ctl
  let core := s.core n.cluster
  let die := s.die (dieOfCore n.cluster)
  match reg with
  | 0x000 => BitVec.ofNat 64 (flag c.step 1 + flag c.dz 0)
  | 0x001 => BitVec.ofNat 64 n.ctx
  | 0x002 => BitVec.ofNat 64 (s.tenantOf n.ctx)
  | 0x003 => BitVec.ofNat 64 (s.classOf n)
  | 0x004 => BitVec.ofNat 64 (flag c.prev 1 + flag c.cur 0)
  | 0x005 => c.vecbase
  | 0x010 => c.faultCode.setWidth 64
  | 0x011 => c.faultBlk
  | 0x012 => c.faultSlot.setWidth 64
  | 0x013 => c.faultAddr
  | 0x014 => c.faultArg
  | 0x020 => BitVec.ofNat 64 s.cycle
  | 0x021 => BitVec.ofNat 64 c.resident
  | 0x028 => c.resetStat
  | 0x029 => c.evpend.setWidth 64
  | r =>
    if 0x18 ≤ r ∧ r ≤ 0x1D then (c.faultIter.toList.getD (r - 0x18) 0).setWidth 64
    else if 0x30 ≤ r ∧ r ≤ 0x3F then c.ecstate.toList.getD (r - 0x30) 0
    else if 0x40 ≤ r ∧ r ≤ 0x47 then (core.csel.toList.getD (r - 0x40) 0).setWidth 64
    else if 0x48 ≤ r ∧ r ≤ 0x4F then (core.ccnt.toList.getD (r - 0x48) 0).setWidth 64
    else if 0x60 ≤ r ∧ r ≤ 0x7F then (die.dsel.toList.getD (r - 0x60) 0).setWidth 64
    else if 0x80 ≤ r ∧ r ≤ 0x9F then (die.dcnt.toList.getD (r - 0x80) 0).setWidth 64
    else 0

/-- SYSR (R281); of a RESETSTAT that shows a serial, an acquire at SYSTEM scope (R278). -/
def execSysr (f : EOp) (s : State) : Host.Outcome State Fault Refusal :=
  fireOp 0xB0 (.e f) s fun fr =>
    let reg := f.imm.toNat
    if (!fr.n.ctl.cur && userHidden reg) || counterDenied s fr.n reg then fr.fault s codePriv 0
    else
      let v := sysValue s fr.n reg
      -- the serial of a report that this context asked for is the report's acquire (R278)
      let s := if reg = 0x28 ∧ v.toNat % 2 ^ 32 ≠ 0 then acquire s fr.n.cluster .system else s
      fr.done s [f.t1] v

/-- SYSW (R281): at level U it may write STATUS alone (R280, R283). -/
def execSysw (f : EOp) (s : State) : Host.Outcome State Fault Refusal :=
  fireOp 0xB1 (.e f) s fun fr =>
    let reg := f.imm.toNat
    if (!fr.n.ctl.cur && reg != 0) || counterDenied s fr.n reg then fr.fault s codePriv 0
    else fr.note s (.sysw reg fr.l)

/-- Bits 63:6 of a word. -/
def top58 (v : Word) : Word := v &&& ~~~ 63#64

/-- The context with a system register of its own written (R281 to R283); RO and RSV fields keep their values. -/
def Ctl.sysw (c : Ctl) (reg : Nat) (v : Word) : Ctl :=
  match reg with
  | 0x000 => { c with dz := v.getLsbD 0, step := if c.cur then v.getLsbD 1 else c.step }
  | 0x004 => { c with prev := v.getLsbD 1 }
  | 0x005 => { c with vecbase := top58 v }
  | 0x010 => { c with faultCode := v.setWidth 8 }
  | 0x011 => { c with faultBlk := top58 v }
  | 0x012 => { c with faultSlot := v.setWidth 8 }
  | 0x013 => { c with faultAddr := v }
  | 0x014 => { c with faultArg := v }
  | r => if 0x18 ≤ r ∧ r ≤ 0x1D then { c with faultIter := c.faultIter.setIfInBounds (r - 0x18) (v.setWidth 32) } else c

/-- A SYSW in its block's commit step. Writing a select clears its counter (R409). -/
def applySysw (s : State) (i reg : Nat) (v : Word) : State :=
  match s.inst? i with
  | none => s
  | some n =>
    if 0x40 ≤ reg ∧ reg ≤ 0x47 then
      s.modCore n.cluster fun c => { c with
        csel := c.csel.setIfInBounds (reg - 0x40) (v.setWidth 10), ccnt := c.ccnt.setIfInBounds (reg - 0x40) 0 }
    else if 0x60 ≤ reg ∧ reg ≤ 0x7F then
      s.modDie (dieOfCore n.cluster) fun d => { d with
        dsel := d.dsel.setIfInBounds (reg - 0x60) (v.setWidth 10), dcnt := d.dcnt.setIfInBounds (reg - 0x60) 0 }
    else s.modCtl i fun c => c.sysw reg v

/-! ## YIELD (R279) -/

/-- YIELD. -/
def execYield (f : EOp) (s : State) : Host.Outcome State Fault Refusal :=
  fireOp 0x9A (.e f) s fun fr => fr.note s .yield

/-- A block waits unbound in CHSEND, CHRECV, SEMWAIT, BARWAIT, WAITEV, FWAIT or for power leave (R279). -/
def waitsUnbound (b : Block) : Bool :=
  !b.bound && ((match b.req with
    | some ⟨_, .chan .send .., _⟩ => true
    | some ⟨_, .chan .recv .., _⟩ => true
    | some ⟨_, .barrier .wait .., _⟩ => true
    | _ => false)
    || (Layout.slots b.words).any fun x => (b.rec_ x.1).st == .blocked && [0x80, 0xB5, 0xC9, 0xCC].contains x.2.1.opc)

/-- A context is ready when it holds an instruction that can issue: it does not wait unbound, nor on a pending register,
nor after HALT (R279). -/
def ctxReady (n : Inst) : Bool :=
  n.life == .running && n.ctl.due.isNone && match n.ctl.blk with
    | some b =>
      if b.started then
        !waitsUnbound b && (Layout.slots b.words).any fun x =>
          let r := b.rec_ x.1
          r.st == .waiting && fate (needsOf x.2.1 x.2.2 b.words x.1 r) (predOf x.2.2) r.p != .wait
      else n.ctl.wait.isEmpty && !(awaitedRegs b.words).any n.ctl.isPending
    | none => n.ctl.wait.isEmpty

/-- The other ready contexts of an instance's core. -/
def readyOthers (s : State) (i core : Nat) : List Nat :=
  s.insts.filterMap fun (x : Nat × Inst) => if x.1 != i && x.2.cluster == core && ctxReady x.2 then some x.1 else none

/-- A committed YIELD makes the next block wait for the other ready contexts; several yield once. -/
def yieldWait (s : State) (i core : Nat) (c : Ctl) : Ctl :=
  match readyOthers s i core with
  | [] => c
  | os => c.alsoWait (.yield os s.cycle)

/-- A yield that waits for a context that has issued an instruction waits for it no more. -/
def CtlWait.issued (i : Nat) : CtlWait → Option CtlWait
  | .yield os t =>
    let os := os.filter fun j => j != i
    if os.isEmpty then none else some (.yield os t)
  | w => some w

/-- A context has issued an instruction: the yields that wait for it wait no more. -/
def noteIssue (s : State) (i : Nat) : State :=
  { s with insts := s.insts.map fun (x : Nat × Inst) =>
      (x.1, { x.2 with ctl := { x.2.ctl with wait := x.2.ctl.wait.filterMap (CtlWait.issued i) } }) }

/-- The cycle since which a yield waits. -/
def CtlWait.yielded : CtlWait → Option Nat
  | .yield _ t => some t
  | _ => none

/-- YIELD_TIMEOUT (R279): 64 control cycles after the commit the next block may start. -/
def execYieldTimeout (i : Nat) (s : State) : Host.Outcome State Fault Refusal :=
  match s.inst? i with
  | none => .next s
  | some n => match n.ctl.wait.filterMap CtlWait.yielded with
    | t :: _ => when_ (t + 64 ≤ s.cycle) s (s.modCtl i fun c => { c with wait := c.wait.filter fun w => w.yielded.isNone })
    | [] => .next s

/-! ## TLBINV and BCINV (R284, R285) -/

/-- TLBINV: the invalidation starts at commit. -/
def execTlbinv (f : EOp) (s : State) : Host.Outcome State Fault Refusal :=
  fireOp 0xB2 (.e f) s fun fr => fr.note s (.tlbinv (f.imm.toNat % 4) fr.l)

/-- The range of an extent: base in VA[54:0] and log2 of its size; none for the whole context. -/
def invRange (extent : Nat) (addr : Word) : Option (Nat × Nat) :=
  let va := addr.toNat % 2 ^ 55
  match extent with
  | 0 => some (va / 2 ^ 16 * 2 ^ 16, 16)
  | 1 => some (va / 2 ^ 21 * 2 ^ 21, 21)
  | 2 => some (va / 2 ^ 29 * 2 ^ 29, 29)
  | _ => none

/-- A run of bytes meets the range. -/
def inRange (r : Option (Nat × Nat)) (base n : Nat) : Bool :=
  match r with
  | none => true
  | some (b, lg) => base < b + 2 ^ lg && b < base + n

/-- Every entry of a context that meets the range is gone; its wardrobe allocation entries with the whole context (R284). -/
def invalidate (s : State) (ctx : Nat) (r : Option (Nat × Nat)) : State :=
  { s with
    tlb := s.tlb.filter fun e => !(e.ctx == ctx && (if e.war then r.isNone else inRange r e.base (2 ^ e.size))) }

/-- The running reduce records of a context that hold translations in the range, those of the words that they signal too, and
wardrobe entries among them when the whole context is invalidated (R127, R284). -/
def reduceHolds (s : State) (ctx : Nat) (r : Option (Nat × Nat)) : List (Nat × Nat) :=
  (s.recs.filter fun (x : Nat × Rec) => x.2.ctx == ctx && !x.2.pages.isEmpty
    && ((r.isNone && (Stages.ssp x.2.words == 2 || Stages.dsp x.2.words == 2)) || (Stages.ssp x.2.words == 0 && (List.range (unitCount x.2)).any (fun k => match unitAt x.2 k with
          | some u => inRange r (u.1.toNat % 2 ^ 55) u.2
          | none => false))
      || (Stages.dsp x.2.words == 0 && inRange r ((Stages.dst x.2.words).toNat % 2 ^ 55) (inputLen x.2.words x.2.tile))
      || inRange r (x.2.addr.toNat % 2 ^ 55) 64
      || ((Stages.compl x.2.words).toNat != 0 && inRange r ((Stages.compl x.2.words).toNat % 2 ^ 55) 8))).map
    fun x => (x.1, x.2.seq)

/-- The invalidation that a wait is for. -/
def CtlWait.tlb : CtlWait → Option (Nat × Word × Option (List (Nat × Nat)))
  | .tlbinv extent addr began => some (extent, addr, began)
  | _ => none

/-- The block-cache range that a wait is for. -/
def CtlWait.bc : CtlWait → Option Word
  | .bcinv addr => some addr
  | _ => none

/-- A reduce record that held translations when an invalidation began still runs. -/
def stillHolds (s : State) (h : Nat × Nat) : Bool :=
  match aget h.1 s.recs with
  | some x => x.seq == h.2 && !x.pages.isEmpty
  | none => false

/-- TLBINV_DONE (R284): once every earlier write of the context has performed, the entries are gone; its walks end and the
reduce records that then hold translations of the range complete; what those walks installed is gone too, and the next
block may start. -/
def execTlbinvDone (i : Nat) (s : State) : Host.Outcome State Fault Refusal :=
  match s.inst? i with
  | none => .next s
  | some n => match n.ctl.wait.filterMap CtlWait.tlb with
    | (extent, addr, began) :: _ =>
      let r := invRange extent addr
      let held := began.getD (reduceHolds s n.ctx r)
      let others := fun (c : Ctl) => c.wait.erase (.tlbinv extent addr began)
      if began.isNone && !(s.outbOf (.ctl i)).isEmpty then .next s
      else if (s.walks.any fun w => w.ctx == n.ctx) || held.any (stillHolds s) then
        .next (if began.isSome then s
          else (invalidate s n.ctx r).modCtl i fun c => { c with wait := .tlbinv extent addr (some held) :: others c })
      else .next ((invalidate s n.ctx r).modCtl i fun c => { c with wait := others c })
    | [] => .next s

/-- BCINV: the invalidation starts at commit. -/
def execBcinv (f : EOp) (s : State) : Host.Outcome State Fault Refusal :=
  fireOp 0xB3 (.e f) s fun fr => fr.note s (.bcinv fr.l)

/-- A context's block that has been fetched and not started is dropped, so that it is fetched anew (R285). -/
def Ctl.refetch (c : Ctl) (gone : Word → Bool) : Ctl :=
  match c.blk with
  | some b => if !b.started && gone b.addr then { c with blk := none } else c
  | none => c

/-- BCINV_DONE (R285): the block-cache copies of the context's blocks in the 4 KiB range are gone on every core. -/
def execBcinvDone (i : Nat) (s : State) : Host.Outcome State Fault Refusal :=
  match s.inst? i with
  | none => .next s
  | some n => match n.ctl.wait.filterMap CtlWait.bc with
    | addr :: _ =>
      let gone := fun (a : Word) => a.toNat / 4096 == addr.toNat / 4096
      let keep := fun (b : Nat × Word × List Word) => !(b.1 / 2 == n.ctx && gone b.2.1)
      let t := { s with
        cores := s.cores.map fun (x : Nat × Core) => (x.1, { x.2 with blocks := x.2.blocks.filter keep })
        insts := s.insts.map fun (x : Nat × Inst) => (x.1, if x.2.ctx = n.ctx then { x.2 with ctl := x.2.ctl.refetch gone } else x.2) }
      when_ (s.outbOf (.ctl i)).isEmpty s (t.modCtl i fun c => { c with wait := c.wait.erase (.bcinv addr) })
    | [] => .next s

/-! ## WAITEV (R287) -/

/-- Control cycles that WAITEV and FWAIT wait at most. -/
def waitCycles : Nat := 65536

/-- The mask of a waiting WAITEV or FWAIT. -/
def waitMask (n : Inst) (k : Nat) : BitVec 4 :=
  match n.ctl.blk.bind fun b => Layout.slot b.words k with
  | some (_, .e e, _) => e.imm.setWidth 4
  | _ => 0

/-- The delivery of a WAITEV: met events, cleared at commit, those that come meanwhile not (`evLate`); RESET, COPY and TABLE make an acquire. -/
def waitevDone (s : State) (i k core : Nat) (met : BitVec 4) : State :=
  let ts := slotTargets s i k
  let s := s.modSlot i k fun r => { r with st := .done }
  let s := s.modBlk i fun b => { b with acts := b.acts ++ [.clearEvents met.toNat], evLate := b.evLate &&& ~~~met }
  let s := if met &&& 0b1101#4 = 0 then s else acquire s core .system
  deliverVal s i (ts.take 1) (met.setWidth 64)

/-- WAITEV. -/
def execWaitev (f : EOp) (s : State) : Host.Outcome State Fault Refusal :=
  fireOp 0xB5 (.e f) s fun fr =>
    let met := fr.n.ctl.evpend &&& f.imm.setWidth 4
    if met ≠ 0 then waitevDone s fr.i fr.k fr.n.cluster met
    else if fr.rec_.st == .blocked then s
    else s.modSlot fr.i fr.k fun r => { r with st := .blocked, since := s.cycle }

/-- A blocked slot of an opcode whose wait has lasted `waitCycles`. -/
def timedOut (s : State) (i opc : Nat) : Option (Inst × Nat) :=
  match s.inst? i with
  | none => none
  | some n => match n.ctl.blk with
    | none => none
    | some b =>
      if !n.canFire then none
      else ((Layout.slots b.words).find? fun x => x.2.1.opc == opc && (b.rec_ x.1).st == .blocked
          && (b.rec_ x.1).since + waitCycles ≤ s.cycle).map fun x => (n, x.1)

/-- WAITEV_TIMEOUT (R287): it delivers EVPEND AND mask, which is 0 then. -/
def execWaitevTimeout (i : Nat) (s : State) : Host.Outcome State Fault Refusal :=
  match timedOut s i 0xB5 with
  | some (n, k) => .next (waitevDone s i k n.cluster (n.ctl.evpend &&& waitMask n k))
  | none => .next s

end Sys2Proof.Machine
end

