-- ==== Sys2Proof/Machine/Fabric.lean ====
section
/-! DEFINITION. The fabric-body instructions (R305 to R307, R320 to R326): SRC, SNK, ACCR, ACCD, KSET, MARK, FMTW, SCALEW,
GENSEED, FWAIT, FCNT, FSTOP, FRUN, and what they do at their block's commit. -/

namespace Sys2Proof.Machine

open Sys2Proof.Bits Sys2Proof.Rows

/-- SRC (R305): attaches binding IMM24[7:0] to vi(SEL) at commit. -/
def execSrc (f : EOp) (s : State) : Host.Outcome State Fault Refusal :=
  fireOp 0xC0 (.e f) s fun fr => fr.note s (.attach f.sel.toNat (f.imm.toNat % 256) fr.l f.as f.ch)

/-- SNK (R305): attaches binding IMM24[7:0] to vo(SEL) at commit. -/
def execSnk (f : EOp) (s : State) : Host.Outcome State Fault Refusal :=
  fireOp 0xC1 (.e f) s fun fr => fr.note s (.attach (32 + f.sel.toNat) (f.imm.toNat % 256) fr.l f.as f.ch)

/-! ## Accumulators (R325) -/

/-- The FE and output of element `e` of an accumulator group. -/
def groupPlace (b : List Word) (e : Nat) : Nat × Nat × Nat :=
  let q := e / Descr.no b
  (Descr.col b + q % Descr.gw b, Descr.row b + q / Descr.gw b, e % Descr.no b)

/-- Elements of a group. -/
def groupSize (b : List Word) : Nat := Descr.gw b * Descr.gh b * Descr.no b

/-- The completed accumulator of an element, with the context that its FE runs; none outside the region. -/
def groupAcc (s : State) (r : Region) (b : List Word) (e : Nat) : Option (List Word × Acc) :=
  let (c, w, o) := groupPlace b e
  if c < r.rect.w ∧ w < r.rect.h then
    let f := s.fe (rectFe r.rect c w)
    some (f.ctxWords, Elements.completed f.core o)
  else none

/-- The word that ACCR delivers: INT48 sign-extended, FP32 and a counter zero-extended. -/
def accWord (c : List Word) (v : BitVec 48) : Word :=
  if Cfg.acc c = 1 then BitVec.ofNat 64 (v.toNat % 2 ^ 32) else if Cfg.acc c = 2 then v.setWidth 64 else v.signExtend 64

/-- Bytes of an element written by ACCD. -/
def drainSize (code : Nat) : Nat := [4, 8, 4, 2, 2].getD code 4

/-- The bytes that ACCD writes for an accumulator (R325). -/
def drainBytes (code : Nat) (c : List Word) (v : BitVec 48) : List Byte :=
  let x := Elements.accNum c v
  let n := match code with
    | 0 => NumFmt.encInt true 32 NumFmt.rne x
    | 1 => if Cfg.acc c = 1 then NumFmt.encInt true 64 NumFmt.rne x else (accWord c v).toNat
    | 2 => NumFmt.encodeNum NumFmt.cFp32 0 NumFmt.rne x
    | 3 => NumFmt.encodeNum NumFmt.cBf16 0 NumFmt.rne x
    | _ => NumFmt.encodeNum 0x03 0 NumFmt.rne x
  leBytes (drainSize code) n

/-- A slot waits for a condition. -/
def Firing.block (fr : Firing) (s : State) : State :=
  s.modSlot fr.i fr.k fun r => if r.st = .blocked then r else { r with st := .blocked, since := s.cycle }

/-- A parity mismatch at ACCR or ACCD raises DATA_ERR (R55, R325). -/
def Firing.parity (fr : Firing) (s : State) : State :=
  (fr.fault s codeDataErr 0).modReg fr.i fun r => { r with dataErr := true }

/-- ACCR (R325). An element outside the region has no stated value: a free one (log 8). -/
def execAccr (f : EOp) (s : State) : Host.Outcome State Fault Refusal :=
  fireOp 0xC2 (.e f) s fun fr =>
    match fr.n.reg, groupBinding fr.b.words f.sel.toNat with
    | some r, some b =>
      if r.phase ≠ .idle then fr.block s
      else match groupAcc s r b (f.imm.toNat % 65536) with
        | some (c, a) => if Elements.Acc.good a then fr.done s [f.t1] (accWord c a.v) else fr.parity s
        | none => fr.done { s with fresh := s.fresh + 1 } [f.t1] (BitVec.ofNat 64 (Config.freeNat s.fresh))
    | _, _ => s

/-- The pieces of bytes `off` to `off + n − 1` of an access. -/
def slicePieces : List Piece → Nat → Nat → List Piece
  | [], _, _ => []
  | p :: ps, off, n =>
    if n = 0 then []
    else if p.n ≤ off then slicePieces ps (off - p.n) n
    else
      let k := min n (p.n - off)
      ⟨p.key + off, k, p.cache⟩ :: slicePieces ps 0 (n - k)

/-- The writes of ACCD, in element order. -/
def drainWrites (s : State) (r : Region) (b : List Word) (code : Nat) (ps : List Piece) : List (Nat × List Byte) :=
  let z := drainSize code
  (List.range (groupSize b)).flatMap fun e =>
    let bs := match groupAcc s r b e with
      | some (c, a) => drainBytes code c a.v
      | none => leBytes z (Config.freeNat (s.fresh + e))
    ((slicePieces ps (z * e) z).foldl (fun (x : List (Nat × List Byte) × List Byte) p =>
      (x.1 ++ [(p.key, x.2.take p.n)], x.2.drop p.n)) ([], bs)).1

/-- ACCD (R325): the range is translated before commit; the writes leave at commit. -/
def execAccd (f : EOp) (s : State) : Host.Outcome State Fault Refusal :=
  fireOp 0xC3 (.e f) s fun fr =>
    match fr.n.reg, groupBinding fr.b.words f.sel.toNat with
    | some r, some b =>
      if r.phase ≠ .idle then fr.block s
      else
        let code := f.imm.toNat
        match slotXlate s fr f.as fr.l (groupSize b * drainSize code) 1 ⟨.port, false, true, false, fr.n.ctl.cur⟩ with
        | .stop s => s
        | .ok s ps =>
          let bad := (List.range (groupSize b)).any fun e => match groupAcc s r b e with
            | some (_, a) => !Elements.Acc.good a
            | none => false
          if bad then fr.parity s
          else { fr.note s (.drain (drainWrites s r b code ps)) with fresh := s.fresh + groupSize b }
    | _, _ => s

/-! ## Constants, markers, formats -/

/-- KSET (R320): at commit. -/
def execKset (f : EOp) (s : State) : Host.Outcome State Fault Refusal :=
  fireOp 0xC4 (.e f) s fun fr => fr.note s (.kset f.sel.toNat fr.l fr.r (f.imm.toNat % 16))

/-- MARK (R321): at commit. -/
def execMark (f : EOp) (s : State) : Host.Outcome State Fault Refusal :=
  fireOp 0xC5 (.e f) s fun fr => fr.note s (.mark f.sel.toNat (f.imm.toNat % 16))

/-- FMTW (R322): at commit. -/
def execFmtw (f : EOp) (s : State) : Host.Outcome State Fault Refusal :=
  fireOp 0xC6 (.e f) s fun fr => fr.note s (.fmtw f.sel.toNat fr.l (f.imm.toNat % 32))

/-- SCALEW (R309, R322): at commit. -/
def execScalew (f : EOp) (s : State) : Host.Outcome State Fault Refusal :=
  fireOp 0xC7 (.e f) s fun fr => fr.note s (.scalew f.sel.toNat fr.l fr.r)

/-- GENSEED (R322): at commit. -/
def execGenseed (f : EOp) (s : State) : Host.Outcome State Fault Refusal :=
  fireOp 0xC8 (.e f) s fun fr => fr.note s (.genseed f.sel.toNat fr.l fr.r)

/-- The state with `f` applied to every FE of a region that a selector chooses (R295). -/
def onSelected (s : State) (i : Nat) (sel : Word) (f : Fe → Fe) : State :=
  match (s.inst? i).bind fun n => n.reg with
  | none => s
  | some r => ((relCells r.rect).filter fun x => Descr.selects sel.toNat x.1 x.2).foldl
      (fun s x => s.modFe (rectFe r.rect x.1 x.2) f) s

/-- An FE's core changed, in its snapshots too, so that a discard does not undo what the control context set (log 35). -/
def Fe.setCore (f : Fe) (g : FeCore → FeCore) : Fe :=
  { f with core := g f.core, snaps := f.snaps.map fun (x : Nat × Snap) => (x.1, { x.2 with core := g x.2.core }) }

/-- A KSET at an FE (R320). -/
def Fe.kset (f : Fe) (k : Nat) (v : Word) (tag : Nat) : Fe :=
  if tag = 0 then f.setCore fun c => { c with k := c.k.setIfInBounds k v } else f.ksetTagged k tag v

/-- A tagged KSET commits: what a replay had still to bring to the same register of an FE that it chooses is replaced (R320). -/
def dropLate (s : State) (i k tag : Nat) (sel : Word) : State :=
  if tag = 0 then s
  else s.modReg i fun r => { r with ksets := r.ksets.filter fun y => !(y.k == k && Descr.selects sel.toNat y.c y.w) }

/-- A GENSEED at an FE (R322): seed and index. -/
def seedCore (k : Nat) (v : Word) (c : FeCore) : FeCore :=
  { c with seed := c.seed.setIfInBounds k (v.setWidth 12), idx := c.idx.setIfInBounds k 0 }

/-! ## FWAIT and FCNT (R323, R324) -/

/-- Names of the writes of an ACCD in the outbound set. -/
def drainGroup : Nat := 2 ^ 62

/-- Region writes still to perform: those of ACCD alone, or all. -/
def regionWrites (s : State) (i : Nat) (drainOnly : Bool) : Bool :=
  (s.outbOf (.region i)).any fun o => o.fence.isNone && o.key < chanBase && (!drainOnly || drainGroup ≤ o.grp)

/-- The conditions of FWAIT that are met (R323). -/
def fabricEvents (s : State) (i : Nat) (r : Region) : BitVec 4 :=
  let b := fun (c : Bool) (m : BitVec 4) => if c then m else 0
  (r.events &&& 0b1010) ||| b (r.phase == .idle && !regionWrites s i false) 0b0001 ||| b (!regionWrites s i true) 0b0100

/-- FWAIT's result: iterations committed since the last FRUN, saturating, and the conditions met. -/
def fwaitWord (r : Region) (met : BitVec 4) : Word :=
  BitVec.ofNat 64 (min r.committed (2 ^ 32 - 1) * 2 ^ 32 + met.toNat)

/-- FWAIT's delivery: events are cleared at commit, those that come meanwhile not (`fabLate`); IDLE or DRAINED makes an acquire
at MODULE scope. -/
def fwaitDone (s : State) (i k core : Nat) (r : Region) (met : BitVec 4) : State :=
  let ts := slotTargets s i k
  let s := s.modSlot i k fun r => { r with st := .done }
  let s := s.modBlk i fun b => { b with acts := b.acts ++ [.clearFabricEvents met.toNat], fabLate := b.fabLate &&& ~~~met }
  let s := if met &&& 0b0101#4 = 0 then s else acquire s core .module
  deliverVal s i (ts.take 1) (fwaitWord r met)

/-- FWAIT (R323). -/
def execFwait (f : EOp) (s : State) : Host.Outcome State Fault Refusal :=
  fireOp 0xC9 (.e f) s fun fr =>
    match fr.n.reg with
    | none => s
    | some r =>
      let met := fabricEvents s fr.i r &&& f.imm.setWidth 4
      if met ≠ 0 then fwaitDone s fr.i fr.k fr.n.cluster r met else fr.block s

/-- FWAIT_TIMEOUT (R323): after 65,536 control cycles it delivers the conditions met, which are none. -/
def execFwaitTimeout (i : Nat) (s : State) : Host.Outcome State Fault Refusal :=
  match timedOut s i 0xC9 with
  | some (n, k) => match n.reg with
    | some r => .next (fwaitDone s i k n.cluster r (fabricEvents s i r &&& waitMask n k))
    | none => .next s
  | none => .next s

/-- FCNT (R324): the count of a port in committed iterations. -/
def execFcnt (f : EOp) (s : State) : Host.Outcome State Fault Refusal :=
  fireOp 0xCA (.e f) s fun fr =>
    fr.done s [f.t1] (BitVec.ofNat 64 ((fr.n.reg.map fun r => agetD 0 f.sel.toNat r.fcnt).getD 0))

/-! ## FSTOP and FRUN (R292, R306, R307) -/

/-- FSTOP (R307): at commit. -/
def execFstop (f : EOp) (s : State) : Host.Outcome State Fault Refusal :=
  fireOp 0xCB (.e f) s fun fr => fr.note s .fstop

/-- DRAWCLS of the launch record of an instance (R164). -/
def drawcls (s : State) (n : Inst) : Nat :=
  match aget n.launch s.launches with
  | some l => bits (l.words.getD 9 0).toNat 15 8
  | none => 0

/-- An asynchronous fault stands before the context, which takes it at its next boundary (R380); its FRUN asks
and is granted no leave until then (R417; DEDUCED, log 124). -/
def Ctl.asyncDue (c : Ctl) : Bool := !c.async.isEmpty && !c.cur

/-- FRUN (R292, R306): with the region idle it fires and asks for leave, and waits for it. With a fault of the region due to
the context its unbound block starts no nest any more (R417). -/
def execFrun (f : EOp) (s : State) : Host.Outcome State Fault Refusal :=
  fireOp 0xCC (.e f) s fun fr =>
    match fr.n.reg with
    | none => s
    | some r =>
      if s.leaves.any fun (q : Nat × LeaveReq) => q.2.for_ == .frun fr.i then s
      else if r.phase ≠ .idle || fr.n.ctl.asyncDue then fr.block s
      else if drawcls s fr.n < Layout.draw fr.b.words then fr.fault s codeLeaveDenied 0
      else match askLeave s (.frun fr.i) (leaveDie fr.n) (s.classOf fr.n) (Layout.draw fr.b.words * (r.rect.w * r.rect.h)) with
        | some s => fr.block s
        | none => fr.fault s codeLeaveDenied 0

/-- The FRUN slot of an instance's block that waits. -/
def frunSlot (s : State) (i : Nat) : Option Nat :=
  match (s.inst? i).bind fun n => n.ctl.blk with
  | some b => ((Layout.slots b.words).find? fun x => x.2.1.opc == 0xCC && (b.rec_ x.1).st == .blocked).map fun x => x.1
  | none => none

/-- FRUN's leave granted: the slot is done, and its nest starts at commit. -/
def grantFrun (s : State) (i units : Nat) : State :=
  match frunSlot s i with
  | some k =>
    let s := s.modReg i fun r => { r with leave := some units }
    (s.modSlot i k fun r => { r with st := .done }).modBlk i fun b => { b with acts := b.acts ++ [.frun] }
  | none => s

end Sys2Proof.Machine
end

