-- ==== Sys2Proof/Machine/Commit.lean ====
section
/-! DEFINITION. BLOCK_COMMIT with its effects in order, BLOCK_STALL and TRAP_ENTRY (R100, R206 to R210, R243 to R246, R291,
R380 to R388). -/

namespace Sys2Proof.Machine

open Sys2Proof.Bits Sys2Proof.Rows

/-! ## The effects of a commit -/

/-- The order in which a commit's effects come about: system registers, attachments, KSET and its like before MARK, stop
and start, drains, the rest (R291, R320). -/
def CommitAct.rank : CommitAct → Nat
  | .sysw .. => 0
  | .attach .. => 1
  | .kset .. => 2 | .fmtw .. => 2 | .scalew .. => 2 | .genseed .. => 2
  | .mark .. => 3
  | .fstop => 4
  | .frun => 5
  | .drain .. => 6
  | .clearEvents .. => 7 | .clearFabricEvents .. => 7
  | .token .. => 8
  | .tlbinv .. => 9 | .bcinv .. => 9 | .yield => 9

/-- Effects in that order. -/
def ranked (as : List CommitAct) : List CommitAct := (List.range 10).flatMap fun k => as.filter fun a => a.rank == k

/-- An attachment: a port holds one base, and a binding stands at one port (R305). -/
def attach (r : Region) (port bind : Nat) (base : Word) (as_ : Space) (ch : Bool) : Region :=
  { r with ports := aset port ⟨base, as_, ch⟩ r.ports, att := aset bind port r.att }

/-- A nest that an FRUN asks for: one that has already run begins anew, its contexts loaded again (R291, R306). -/
def Nest.asked (n : Nest) (now : Nat) : Nest :=
  { n with run := true, after := now, failed := false, started := false, loaded := if n.started || n.failed then [] else n.loaded }

/-- The nest starts to run: counters since the last FRUN begin anew (R306, R323, R324). -/
def frunRegion (s : State) (i : Nat) : State :=
  s.modReg i fun r => { r with
    phase := .running, committed := 0, fcnt := []
    nest := r.nest.map fun n => n.asked s.fresh }

/-- The writes of ACCD enter the region's outbound set (R325). -/
def enterDrain (s : State) (i : Nat) (ws : List (Nat × List Byte)) : State :=
  ws.foldl (fun s w =>
    let (id, s) := s.takeFresh
    { s with outb := s.outb ++ [{ id, grp := drainGroup + id, agent := .region i, key := w.1, data := w.2, rel := none,
                                  fence := none, poisoned := false }] }) s

/-- One effect of a commit. -/
def applyAct (s : State) (i : Nat) : CommitAct → State
  | .sysw reg v => applySysw s i reg v
  | .clearEvents m => s.modCtl i fun c =>
    { c with evpend := c.evpend &&& ~~~(BitVec.ofNat 4 m &&& ~~~(c.blk.elim 0 fun b => b.evLate)) }
  | .clearFabricEvents m =>
    let late : BitVec 4 := ((s.inst? i).bind fun n => n.ctl.blk).elim 0 fun b => b.fabLate
    s.modReg i fun r => { r with events := r.events &&& ~~~(BitVec.ofNat 4 m &&& 0b1010#4 &&& ~~~late) }
  | .attach port bind base as_ ch => s.modReg i fun r => attach r port bind base as_ ch
  | .kset k v sel tag => onSelected (dropLate s i k tag sel) i sel fun f => f.kset k v tag
  | .mark port tag => s.modReg i fun r => { r with marks := r.marks ++ [(port, tag)] }
  | .fmtw v sel code => onSelected s i sel fun f => { f with vc := f.vc.setIfInBounds v (BitVec.ofNat 5 code) }
  | .scalew b v sel => onSelected s i sel fun f => { f with bs := f.bs.setIfInBounds b (v.setWidth 33) }
  | .genseed k v sel => onSelected s i sel fun f => f.setCore (seedCore k v)
  | .fstop =>
    match (s.inst? i).bind fun n => n.reg with
    | some r => if r.phase == .idle then s else stopRegion s i
    | none => s
  | .frun => maybeStart (frunRegion s i) i
  | .drain ws => enterDrain s i ws
  | .tlbinv e a => s.modCtl i fun c => c.alsoWait (.tlbinv e a none)
  | .bcinv a => s.modCtl i fun c => c.alsoWait (.bcinv a)
  | .yield =>
    match s.inst? i with
    | some n => s.modCtl i fun c => yieldWait s i n.cluster c
    | none => s
  | .token key _ => enterToken s i key

/-- A nest block's nest becomes the region's current one, with no attachment (R291, steps 1 and 2), and its FEs enter or leave
stochastic mode (R414). -/
def installNest (s : State) (i : Nat) (ws : List Word) : State :=
  if Layout.isNest ws then
    let n : Nest := { blk := ((s.inst? i).bind fun n => n.ctl.blk).elim 0 fun b => b.addr, loop := Layout.loop ws
                      binds := (List.range (Layout.nbind ws)).map (Layout.binding ws), ctxset := Layout.ctxset ws
                      bound := Layout.budget ws, draw := Layout.draw ws, run := false, after := 0, resume := false, started := false, failed := false
                      loaded := [] }
    enterModes (s.modReg i fun r => { r with nest := some n, att := [], ports := [], nextVec := none }) i (Layout.ctxset ws)
  else s

/-- The write entries update their registers; null and x0 leave theirs (R200, R204). -/
def writeRegs (b : Block) (c : Ctl) : Ctl :=
  (indexed 0 b.writes).foldl (fun c w => match w.2 with
    | some (.val v) => c.setReg (Layout.writeReg b.words w.1) v
    | _ => c) c

/-- What follows the block: the exit's choice (R240, R243, R244, R286, R385). -/
def takeExit (s : State) (i : Nat) (b : Block) : State :=
  match b.exit with
  | none => s
  | some (k, e) => match e with
    | .block a => s.modCtl i fun c => { c with blk := none, next := a }
    | .halt => s.modCtl i fun c => ({ c with blk := none, next := 0 }).alsoWait .halted
    | .trap arg =>
      match s.inst? i with
      | none => s
      | some n =>
        let s := s.modCtl i fun c => { c with blk := none, next := returnAddr b }
        if n.ctl.cur then endInstance s i (if n.ctl.faultCode = 0 then codeTrap else n.ctl.faultCode.toNat)
        else s.modCtl i fun c => { c with due := some ⟨codeTrap, returnAddr b, k, BitVec.ofNat 64 arg, none, none, 0⟩ }
    | .eret => returnTrap (s.modCtl i fun c => { c with blk := none }) i

/-- A STEP trap is due after a commit at level U, unless TRAP is (R388). `was` is the context before the commit. -/
def stepDue (s : State) (i : Nat) (was : Ctl) (b : Block) : State :=
  match b.exit with
  | some (_, .block a) =>
    if was.step && !was.cur then s.modCtl i fun c => { c with due := some ⟨codeStep, a, 0xC2, 0, none, none, 0⟩ } else s
  | some (_, .halt) =>
    if was.step && !was.cur then s.modCtl i fun c => { c with due := some ⟨codeStep, 0, 0xC2, 0, none, none, 0⟩ } else s
  | _ => s

/-- The commit step (R100, R206, R291). -/
def commitBlock (s : State) (i : Nat) (n : Inst) (b : Block) : State :=
  let s := enterBelow s i 33
  let s := s.modCtl i fun c =>
    let c := writeRegs b c
    { c with dz := c.dz || b.divZero, watch := 0, expired := false }
  let s := installNest s i b.words
  let s := (ranked b.acts).foldl (fun s a => applyAct s i a) s
  stepDue ((takeExit s i b).countCore n.cluster 0x010 1) i n.ctl b

/-! ## When a block commits -/

/-- A slot holds the commit back: it waits for something of its own, or its turn to fire has come (log 36). A PFT never
does (R250). -/
def slotHolds (b : Block) (x : Nat × Row × Fields) : Bool :=
  let r := b.rec_ x.1
  if x.2.1.opc = 0x62 then false
  else match r.st with
  | .done => false
  | .squashed => false
  | .nullified => false
  | .waiting => fate (needsOf x.2.1 x.2.2 b.words x.1 r) (predOf x.2.2) r.p != .wait || memOut x.2.1
  | _ => true

/-- A send of the block is a release: what its context wrote in the channel's scope has performed (R72, R92). -/
def sendClear (s : State) (i : Nat) (b : Block) : Bool :=
  b.acts.all fun a => match a with
    | .token key _ => match aget key s.chans with
      | some c => ctlReleaseClear s i c.scope
      | none => true
    | _ => true

/-- Conditions of a commit (R206, R291, R417). -/
def committable (s : State) (i : Nat) (n : Inst) (b : Block) : Bool :=
  (n.life == .running || (n.life == .stopping && b.bound)) && n.ctl.due.isNone && (n.ctl.async.isEmpty || n.ctl.cur || b.bound)
    && b.started && b.exit.isSome && b.writes.all Option.isSome && b.req.isNone
    && (Layout.slots b.words).all (fun x => !slotHolds b x) && nestClear n b && sendClear s i b

/-- BLOCK_COMMIT (R206). -/
def execBlockCommit (i : Nat) (s : State) : Host.Outcome State Fault Refusal :=
  match s.inst? i with
  | none => .next s
  | some n => match n.ctl.blk with
    | none => .next s
    | some b => .next (if committable s i n b then commitBlock s i n b else s)

/-- The limit of R210, in control cycles. -/
def stallLimit (ws : List Word) : Nat :=
  if Layout.isFabric ws || Layout.budget ws == 0 then 1048576 else 4 * Layout.budget ws

/-- BLOCK_STALL (R210, R291, R382): the timer of an unbound block runs out; its FAULTSLOT is 0xC5. A block whose request has
left and is not decided waits for the decision: performed, the request binds it and it commits (R424). -/
def execBlockStall (i : Nat) (s : State) : Host.Outcome State Fault Refusal :=
  match s.inst? i with
  | none => .next s
  | some n => match n.ctl.blk with
    | none => .next s
    | some b =>
      let late := stallLimit b.words ≤ s.cycle - b.runFrom - b.excluded
      .next (if n.canFire && b.started && !b.bound && !undecided s i b && late then raise s i codeBlockStall 0xC5 0 else s)

/-! ## TRAP_ENTRY (R209, R380, R381) -/

/-- A bound block that met a fault counts as committed: its remaining stores and write entries are nullified, its
reserved token and its other effects stay, in the order of R291 (R209; log 21). -/
def endBound (s : State) (i : Nat) (n : Inst) (b : Block) : State :=
  let s := installNest s i b.words
  let s := (ranked b.acts).foldl (fun s a => applyAct s i a) s
  let s := s.modCtl i fun c => { c with dz := c.dz || b.divZero, watch := 0, expired := false, blk := none }
  s.countCore n.cluster 0x010 1

/-- A bound block's side effect has still to perform: its request stands at its object, or its slot waits for the step. -/
def sideOwed (b : Block) : Bool :=
  b.req.isSome || (Layout.slots b.words).any fun x => x.2.1.side && (b.rec_ x.1).st == .blocked

/-- The block in flight is put away before a trap; none while it must first be decided, perform its side effect or
commit. -/
def clearBlock (s : State) (i : Nat) (n : Inst) (sync : Bool) : Option State :=
  match n.ctl.blk with
  | none => some s
  | some b =>
    if undecided s i b then none
    else if b.bound then
      (if sync && !sideOwed b && nestClear n b && sendClear s i b then some (endBound s i n b) else none)
    else some (discardBlock s i)

/-- An asynchronous fault taken: at the boundary, in a HALT wait, or over an unbound block (R380). -/
def takeAsync (s0 : State) (i : Nat) (n : Inst) (t : TrapInfo) (rest : List TrapInfo) : State :=
  match clearBlock s0 i n false with
  | none => s0
  | some s =>
    let halted := n.ctl.wait.contains .halted
    let at_ := match n.ctl.blk with | some b => b.addr | none => n.ctl.next
    let s := s.modCtl i fun c => { c with
      async := rest, inHalt := c.inHalt || halted, wait := c.wait.filter fun w => w != .halted }
    (takeTrap s i { t with blk := if halted then 0 else at_ }).getD s0

/-- TRAP_ENTRY (R380, R381): the synchronous fault or STEP that is due, else, at level U, the oldest asynchronous one. A
STEP after a committed HALT interrupts the wait as well. An instance that a reset stops takes none (R400). -/
def execTrapEntry (i : Nat) (s : State) : Host.Outcome State Fault Refusal :=
  match s.inst? i with
  | none => .next s
  | some n =>
    if (n.life != .running && n.life != .stopping) || underReset s i then .next s
    else match n.ctl.due with
      | some t => match clearBlock s i n true with
        | some u =>
          let halted := n.ctl.wait.contains .halted
          .next ((takeTrap (u.modCtl i fun c => { c with
            inHalt := c.inHalt || halted, wait := c.wait.filter fun w => w != .halted }) i t).getD s)
        | none => .next s
      | none => match n.ctl.async with
        | t :: rest => .next (if n.ctl.cur then s else takeAsync s i n t rest)
        | [] => .next s

end Sys2Proof.Machine
end

