-- ==== Sys2Proof/Machine/Ports.lean ====
section
/-! DEFINITION. The ports of a region (R83, R102, R113, R304): the order of its stream, source accesses and their reads, fence
tokens, and the writes and tokens that sinks hold. -/

namespace Sys2Proof.Machine

open Sys2Proof.Bits

/-! ## The stream of a region (R83, R102, R113) -/

/-- Fence tokens of all bindings that stand at or before beat `p` of an iteration: the segment of the beat. -/
def segOf (nest : Nest) (it : Iter) (p : Nat) : Nat :=
  nest.binds.foldl (fun n w => if Descr.kind w = 5 then n + fencesTo nest.loop (Descr.fdim w) it p else n) 0

/-- The beat before which fence token `q` of a binding stands. -/
def fenceBeat (nest : Nest) (w : List Word) (q : Nat) : Nat :=
  q * Descr.passLen nest.loop (min (Descr.fdim w) (Descr.cdim nest.loop))

/-- A place in a region's stream: iteration, segment between fence tokens, binding, generation (R83). The fence tokens of
a segment stand at its start, so that they divide the accesses of every binding (DEDUCED, log 62). -/
def rankOf (nest : Nest) (it : Iter) (fence : Bool) (bind pos : Nat) : List Nat :=
  [it.n, segOf nest it pos, if fence then 0 else bind + 1, if fence then bind else pos]

/-- A place stands before another. -/
def rankLt : List Nat → List Nat → Bool
  | x :: xs, y :: ys => x < y || (x == y && rankLt xs ys)
  | _, _ => false

/-- The place of a read or fence token. -/
def readRank (r : Region) (nest : Nest) (x : RRead) : List Nat :=
  match r.iters.find? fun it => it.n == x.iter with
  | some it => rankOf nest it x.fence.isSome x.bind x.pos
  | none => []

/-- The place of a held item among its iteration's accesses. -/
def holdRank (nest : Nest) (it : Iter) : HoldItem → List Nat
  | .write _ b p _ _ _ _ _ => rankOf nest it false b p
  | .fence b p _ _ => rankOf nest it true b p
  | .token .. => []

/-- The access of a region port (R21, R23). -/
def portAccess (w : Bool) : Access := ⟨.port, !w, w, false, false⟩

/-- The port to which a binding is attached. -/
def Region.portOf (r : Region) (b : Nat) : Port := agetD ⟨0, .virt, false⟩ ((aget b r.att).getD 0) r.ports

/-- The address of a memory binding's beat; none for a zero beat (R304). -/
def beatAddr (r : Region) (nest : Nest) (b : Nat) (w : List Word) (it : Iter) (p : Nat) : Option Word :=
  (Descr.addrAt w (r.portOf b).base.toInt (Descr.vecAt nest.loop it.vec p)).map (BitVec.ofInt 64)

/-- The pieces of an access that has not translated yet, as its pages stand now, whoever else waits for a walker. Nothing of
the state changes. -/
def peekPieces (s : State) (n : Inst) (r : Region) (b : Nat) (w : List Word) (write : Bool) (addr : Word) (size : Nat) :
    List Piece :=
  let core := bindCore r w
  match (xlate { s with walks := [] } (some core) core (dieOfCore core) n.ctx (r.portOf b).as addr size 64 1 (portAccess write) true).2 with
  | .ok ps => ps
  | _ => []

/-- Some piece has a byte in common with a run. -/
def touchesRun (ps : List Piece) (key n : Nat) : Bool := ps.any fun p => overlap p.key p.n key n

/-- The pieces of a held write; of a parked one, where its page now stands. -/
def heldPieces (s : State) (n : Inst) (r : Region) (nest : Nest) : HoldItem → List Piece
  | .write _ b _ _ va ps d _ => ps.getD (peekPieces s n r b (nest.binds.getD b []) true va d.length)
  | _ => []

/-- A held write is parked. -/
def HoldItem.parked : HoldItem → Bool
  | .write _ _ _ _ _ none _ _ => true
  | _ => false

/-- Pieces of a read that have not performed. -/
def restPieces : List Piece → Nat → List Piece
  | [], _ => []
  | p :: ps, k => if p.n ≤ k then restPieces ps (k - p.n) else p :: ps

/-- Pieces of a region's read that have not performed; of a parked one, where its page now stands. -/
def RRead.rest (s : State) (n : Inst) (r : Region) (nest : Nest) (x : RRead) : List Piece :=
  if x.parked then peekPieces s n r x.bind (nest.binds.getD x.bind []) false x.va x.size else restPieces x.pieces x.got.length

/-! ## Source accesses (R102, R113, R304) -/

/-- Every write of the control context before the FRUN's commit has performed (R306). -/
def frunClear (s : State) (i : Nat) (nest : Nest) : Bool :=
  !((s.outbOf (.ctl i)).any fun o => o.fence.isNone && o.id ≤ nest.after)

/-- A read complete: nothing of it is missing. -/
def RRead.complete (x : RRead) : Bool := x.fence.isNone && !x.parked && (x.zero || x.got.length == x.size)

/-- The beat that a complete read forms: its bytes from bit 0, tagged VCTAG, with its dimension marks (R304). -/
def RRead.beat (x : RRead) (b : List Word) : Beat :=
  { data := BitVec.ofNat 1024 (leNat x.got), side := Elements.plainSide, tag := BitVec.ofNat 5 (Descr.vctag b), marks := x.marks,
    iter := x.iter }

/-- A binding's first read delivered to its FE, counted at its port. -/
def deliverRead (s : State) (i : Nat) (r : Region) (b : Nat) (w : List Word) (x : RRead) : State :=
  let s := feedBeat s r w (x.beat w)
  s.modReg i fun r =>
    let r := { r with reads := r.reads.filter fun y => y.id != x.id }
    match aget b r.att with
    | some p => r.modIter x.iter fun it => { it with beats := aset p (agetD 0 p it.beats + 1) it.beats }
    | none => r

/-- Complete reads of a binding delivered in generation order. -/
def deliverReads (s : State) (i b : Nat) (w : List Word) : Nat → State
  | 0 => s
  | fuel + 1 =>
    match (s.inst? i).bind fun n => n.reg with
    | none => s
    | some r => match r.reads.find? fun x => x.bind == b && x.fence.isNone with
      | some x => if x.complete then deliverReads (deliverRead s i r b w x) i b w fuel else s
      | none => s

/-- A read put behind the others; the binding's position moves on, and what is complete is delivered. -/
def enterRead (s : State) (i b : Nat) (w : List Word) (x : RRead) : State :=
  let s := s.modReg i fun r =>
    { r with reads := r.reads ++ [x], blockedFrom := none }.modIter x.iter fun it => { it with pos := aset b (it.at b + 1) it.pos }
  deliverReads s i b w ((((s.inst? i).bind fun n => n.reg).map fun r => r.reads.length).getD 0)

/-- The fence tokens that stand before position `p` have been placed. -/
def fencesPlaced (nest : Nest) (it : Iter) (p : Nat) : Bool :=
  (indexed 0 nest.binds).all fun b => Descr.kind b.2 != 5 || fencesTo nest.loop (Descr.fdim b.2) it p ≤ it.at b.1

/-- A walk asked for by a region's port (R31, R32). -/
def askPortWalk (s : State) (n : Inst) (by_ : WalkFor) (sp : Space) (va core : Nat) : State :=
  askWalk s { by_, ctx := n.ctx, as_ := sp, va, cluster := core, cls := s.classOf n }

/-- A memory source's access: translated, or parked on a miss (R32, R113). DESIGN CHOICE (log 111): LOCAL of a region port's
cabinet address names the cluster of its binding's FE, at a sink too; R28 speaks of the issuing core's cluster alone. -/
def memSource (s : State) (i : Nat) (n : Inst) (r : Region) (b : Nat) (w : List Word) (x : RRead) (addr : Word) : State :=
  let core := bindCore r w
  match xlate s (some core) core (dieOfCore core) n.ctx (r.portOf b).as addr x.size 64 1 (portAccess false) false with
  | (s, .ok ps) => enterRead s i b w { x with pieces := ps, va := addr }
  | (s, .fault c fa) => bindFault s i c fa w x.iter (c != codeDataErr)
  | (s, .miss sp va) => enterRead (askPortWalk s n (.source i x.id) sp va core) i b w { x with parked := true, missed := true, va := addr }

/-- A receive of an iteration that stands before a place and has not been formed is an acquire whose domain holds the home of
channel `k`: a later receive of `k` waits for it (R86, R93, R95). -/
def receiveHeld (s : State) (i : Nat) (n : Inst) (r : Region) (nest : Nest) (at_ : List Nat) (it : Iter) (k : Nat) : Bool :=
  (indexed 0 nest.binds).any fun b =>
    Descr.kind b.2 == 0 && walked r nest b.1 && (r.portOf b.1).ch
      && (List.range (nest.pass - it.at b.1)).any (fun j => rankLt (rankOf nest it false b.1 (it.at b.1 + j)) at_)
      && match chanOf s n.ctx (r.portOf b.1).base with
        | some (_, c) => inDom s (.region i) c.scope (tokenKey k)
        | none => false

/-- A source's channel is held back by an earlier receive of its iteration. -/
def sourceHeld (s : State) (i : Nat) (n : Inst) (r : Region) (nest : Nest) (b : Nat) (it : Iter) (p : Nat) : Bool :=
  match chanOf s n.ctx (r.portOf b).base with
  | some (k, _) => receiveHeld s i n r nest (rankOf nest it false b p) it k
  | none => false

/-- A channel source takes a token tentatively, in its bytes of the head (R80); one lost on the way or in its buffer row
raises DATA_ERR and is gone (R76). The first receive binds an OPEN endpoint (R64); one that loses its token or raises
CH_CLOSED binds none (log 109). -/
def chanSource (s : State) (i : Nat) (n : Inst) (b : Nat) (w : List Word) (port : Nat) (p : Port) (x : RRead) : State :=
  match chanQuery s n.ctx (.port i port) p.base false with
  | .error c => bindFault s i c 0 w x.iter true
  | .ok (key, c) =>
    let bindEnd := fun (c : Chan) => { c with reader := .port i port }
    match (indexed 0 c.head).find? fun t => !t.2.taken with
    | some (k, t) =>
      match if t.lost then (s, true) else bufferBad s (c.headPieces t) with
      | (_, true) => bindFault (takeHead s key c k t id).1 i codeDataErr (lostAddr c t) w x.iter false
      | (s, false) =>
        let s := s.modChan key fun c => { bindEnd c with head := updateAt (fun t => { t with taken := true }) k c.head }
        let s := s.modReg i fun r => r.modIter x.iter fun it => { it with takes := it.takes ++ [p.base] }
        enterRead s i b w { x with got := (t.data ++ zeros x.size).take x.size }
    | none =>
      if c.state == .ended then bindFault s i codeChClosed 0 w x.iter true
      else s.modReg i fun r => { r with blockedFrom := some (r.blockedFrom.getD s.cycle) }

/-- Data beats at an input of an FE. -/
def dataBeats (f : Fe) (k : Nat) : Nat :=
  ((if k = 0 then f.qa else if k = 1 then f.qb else f.qc).filter fun b => !b.isMarker).length

/-- Declared beats of an input. -/
def declared (c : List Word) (k : Nat) : Nat := if k = 0 then Cfg.nia c else if k = 1 then Cfg.nib c else Cfg.nic c

/-- A shelf source reads its bytes when its FE's input has room for them: just before the firing that consumes them
(log 33). A shelf in retention keeps it waiting (R52). -/
def shelfSource (s : State) (i : Nat) (r : Region) (b : Nat) (w : List Word) (x : RRead) (addr : Nat) : State :=
  let fe := bindFe r w
  let f := s.fe fe
  if declared f.ctxWords (Descr.io w) ≤ dataBeats f (Descr.io w) || s.asleep (shelfKey fe 0) then s
  else
    let keys := (List.range x.size).map fun k => shelfKey fe (addr + k)
    let s := keys.foldl (fun s k => meetFlaws s k 1) s
    if keys.any fun k => poisonedIn s.poison k 1 then bindFault s i codeDataErr (BitVec.ofNat 64 addr) w x.iter false
    else enterRead s i b w { x with got := keys.map fun k => s.mem.read k }

/-- Beat `p` of a source binding in an iteration. -/
def formBeat (s : State) (i : Nat) (n : Inst) (r : Region) (nest : Nest) (b : Nat) (w : List Word) (it : Iter) (p : Nat) : State :=
  let v := Descr.vecAt nest.loop it.vec p
  let (id, s) := s.takeFresh
  let x : RRead := { id, bind := b, iter := it.n, pos := p, pieces := [], got := [], fence := none, zero := false, parked := false,
                     va := 0, size := Descr.nbytes w, marks := BitVec.ofNat 6 (Descr.marksAt nest.loop v), missed := false }
  if Descr.kind w = 0 then
    if (r.portOf b).ch then
      if sourceHeld s i n r nest b it p then s else chanSource s i n b w ((aget b r.att).getD 0) (r.portOf b) x
    else match beatAddr r nest b w it p with
      | none => enterRead s i b w { x with zero := true }
      | some a => memSource s i n r b w x a
  else match Descr.addrAt w 0 v with
    | none => enterRead s i b w { x with zero := true }
    | some a => shelfSource s i r b w x (BitVec.ofInt 64 a).toNat

/-- KINDS of a FENCE binding as FENCE names them (R254, R303). -/
def fenceKinds (w : List Word) : BitVec 4 :=
  let k := Descr.kinds w
  let flag := fun (b : Bool) (v : Nat) => if b then v else 0
  BitVec.ofNat 4 (flag (bit k 3) 1 + flag (bit k 2) 2 + flag (bit k 1) 4 + flag (bit k 0) 8)

/-- A fence token placed: it holds later reads for LL and SL, and enters the outbound set at commit for LS and SS
(R97, R102, R113). -/
def placeFence (s : State) (i : Nat) (nest : Nest) (b : Nat) (w : List Word) (it : Iter) : State :=
  let (id, s) := s.takeFresh
  let sc := (scopeOf (Descr.scope w)).getD .system
  let p := fenceBeat nest w (it.at b)
  let x : RRead := { id, bind := b, iter := it.n, pos := p, pieces := [], got := [], fence := some (fenceKinds w, sc),
                     zero := false, parked := false, missed := false, va := 0, size := 0, marks := 0 }
  s.modReg i fun r =>
    { r with reads := r.reads ++ [x] }.modIter it.n fun it =>
      { it with pos := aset b (it.at b + 1) it.pos, holds := it.holds ++ [HoldItem.fence b p (fenceKinds w) sc] }

/-- A fence token may be placed: every source has formed what stands before it. -/
def fenceReady (r : Region) (nest : Nest) (w : List Word) (b : Nat) (it : Iter) : Bool :=
  (indexed 0 nest.binds).all fun x => !Descr.isSource x.2 || !walked r nest x.1 || fenceBeat nest w (it.at b) ≤ it.at x.1

/-- REGION_SOURCE_ACCESS (R102, R113, R304): the next beat of source binding `b`, or the next token of a fence binding,
in the oldest iteration that still lacks one. -/
def execRegionSourceAccess (i b : Nat) (s : State) : Host.Outcome State Fault Refusal :=
  match runningNest s i with
  | none => .next s
  | some (n, r, nest) => match nest.binds[b]? with
    | none => .next s
    | some w =>
      if !frunClear s i nest then .next s
      else if Descr.kind w = 5 then
        match r.iters.find? fun it => it.at b < fencesTo nest.loop (Descr.fdim w) it (nest.pass - 1) with
        | some it => .next (if fenceReady r nest w b it then placeFence s i nest b w it else s)
        | none => .next s
      else if !Descr.isSource w || !walked r nest b then .next s
      else match r.iters.find? fun it => it.at b < nest.pass with
        | some it => .next (if fencesPlaced nest it (it.at b) then formBeat s i n r nest b w it (it.at b) else s)
        | none => .next s

/-! ## Reads of a region (READ_PERFORM; R89, R91, R93, R97, R102) -/

/-- The region's reads and fence tokens that stand before a place. -/
def readsBefore (r : Region) (nest : Nest) (at_ : List Nat) : List RRead :=
  r.reads.filter fun y => rankLt (readRank r nest y) at_

/-- The items that iterations before `n` hold. -/
def heldBefore (r : Region) (n : Nat) : List HoldItem := (r.iters.filter fun it => it.n < n).flatMap fun it => it.holds

/-- An access that stands before a place and has not been formed keeps back a read of a run: a read of a common byte (R91),
or a receive, which is an acquire at its channel's scope (R93, R95). -/
def unformedHolds (s : State) (i : Nat) (n : Inst) (r : Region) (nest : Nest) (at_ : List Nat) (it : Iter) (p : Piece) : Bool :=
  (indexed 0 nest.binds).any fun b =>
    Descr.kind b.2 == 0 && walked r nest b.1
      && (List.range (nest.pass - it.at b.1)).any fun j =>
        let q := it.at b.1 + j
        rankLt (rankOf nest it false b.1 q) at_
          && if (r.portOf b.1).ch then
              match chanOf s n.ctx (r.portOf b.1).base with
              | some (_, c) => inDom s (.region i) c.scope p.key
              | none => false
            else match beatAddr r nest b.1 b.2 it q with
              | some a => touchesRun (peekPieces s n r b.1 b.2 false a (Descr.nbytes b.2)) p.key p.n
              | none => false

/-- A write that an earlier iteration has still to form keeps back a read of a run (R91, R102): its sink binding has not taken
that beat. -/
def unformedWrites (s : State) (n : Inst) (r : Region) (nest : Nest) (it : Iter) (p : Piece) : Bool :=
  (indexed 0 nest.binds).any fun b =>
    Descr.kind b.2 == 1 && walked r nest b.1 && !(r.portOf b.1).ch
      && (List.range (nest.pass - it.sinkAt b.1)).any fun j =>
        match beatAddr r nest b.1 b.2 it (it.sinkAt b.1 + j) with
        | some a => touchesRun (peekPieces s n r b.1 b.2 true a (Descr.nbytes b.2)) p.key p.n
        | none => false

/-- A read of a region may perform on a piece: earlier reads of common bytes have (R91), fence tokens and receives before
it let it (R93, R97), and no earlier iteration holds a write to it or has still to form one (R91, R102). -/
def regionReadMay (s : State) (i : Nat) (n : Inst) (r : Region) (nest : Nest) (x : RRead) (p : Piece) : Bool :=
  let at_ := readRank r nest x
  !((readsBefore r nest at_).any fun y => match y.fence with
      | some (k, sc) => (fLL k || fSL k) && inDom s (.region i) sc p.key
      | none => touchesRun (y.rest s n r nest) p.key p.n)
    && !((r.iters.filter fun it => it.n == x.iter).any fun it => unformedHolds s i n r nest at_ it p)
    && !fenceHoldsRead s (.region i) (s.outbOf (.region i)) p.key
    && !((heldBefore r x.iter).any fun h => touchesRun (heldPieces s n r nest h) p.key p.n)
    && !((r.iters.filter fun it => it.n < x.iter).any fun it => unformedWrites s n r nest it p) && !s.asleep p.key

/-- Some access before a place was parked and has not performed, or is a write that is parked still (R113). -/
def parkedBefore (r : Region) (nest : Nest) (at_ : List Nat) : Bool :=
  (readsBefore r nest at_).any (fun y => y.missed && !y.complete)
    || r.iters.any fun it => it.holds.any fun h => h.parked && rankLt (holdRank nest it h) at_

/-- A fence token has passed for later reads: every earlier read of the region that was parked has performed; under LL the earlier reads of its
domain have performed, under SL the earlier writes, those that earlier iterations hold included (R97, R113). A write that
its own iteration holds performs only after the commit: for it the token waits until it has translated (log 62). -/
def fencePassed (s : State) (i : Nat) (n : Inst) (r : Region) (nest : Nest) (x : RRead) (k : BitVec 4) (sc : Scope) : Bool :=
  let at_ := readRank r nest x
  let inside := fun (ps : List Piece) => ps.any fun q => inDom s (.region i) sc q.key
  !parkedBefore r nest at_
    && (!fLL k || !((readsBefore r nest at_).any fun y => y.fence.isSome || inside (y.rest s n r nest)))
    && (!fSL k || (releaseClear s (.region i) (s.outbOf (.region i)) sc
          && !((heldBefore r x.iter).any fun h => inside (heldPieces s n r nest h))))

/-- A parked read translates again once its walk has been made. -/
def unpark (s : State) (i : Nat) (n : Inst) (r : Region) (w : List Word) (x : RRead) : State :=
  if s.walks.any fun q => q.by_ == .source i x.id then s
  else
    let core := bindCore r w
    let put := fun (s : State) (f : RRead → RRead) =>
      s.modReg i fun r => { r with reads := r.reads.map fun y => if y.id = x.id then f y else y }
    match xlate s (some core) core (dieOfCore core) n.ctx (r.portOf x.bind).as x.va x.size 64 1 (portAccess false) false with
    | (s, .ok ps) => put s fun y => { y with pieces := ps, parked := false }
    | (s, .fault c fa) => bindFault s i c fa w x.iter (c != codeDataErr)
    | (s, .miss sp va) => askPortWalk s n (.source i x.id) sp va core

/-- READ_PERFORM of region read `id` (R89, R102). Poison raises DATA_ERR. -/
def readRegion (s : State) (i id : Nat) : State :=
  match runningNest s i with
  | none => s
  | some (n, r, nest) => match r.reads.find? fun x => x.id == id with
    | none => s
    | some x =>
      let w := nest.binds.getD x.bind []
      match x.fence with
      | some (k, sc) =>
        if fencePassed s i n r nest x k sc then s.modReg i fun r => { r with reads := r.reads.filter fun y => y.id != id } else s
      | none =>
        if x.parked then unpark s i n r w x
        else match (restPieces x.pieces x.got.length).head? with
          | none => s
          | some p =>
            if !regionReadMay s i n r nest x p then s
            else
              let t := readHome s (s.ownWrites (.region i)) p
              if t.poisoned then bindFault t.s i codeDataErr (x.va + BitVec.ofNat 64 x.got.length) w x.iter false
              else
                let s := t.s.modReg i fun r =>
                  { r with reads := r.reads.map fun y => if y.id = id then { y with got := y.got ++ t.bytes } else y }
                deliverReads s i x.bind w r.reads.length

/-! ## Sinks (R81, R102, R304, R325) -/

/-- A sink's beat taken: the binding's position and its port's count move on. -/
def takeSinkBeat (r : Region) (b k port : Nat) (f : Iter → Iter) : Region :=
  { r with sinks := aset b ((agetD [] b r.sinks).drop 1) r.sinks, blockedFrom := none }.modIter k fun it =>
    f { it with sinkPos := aset b (it.sinkAt b + 1) it.sinkPos, beats := aset port (agetD 0 port it.beats + 1) it.beats }

/-- An item put into an iteration's hold buffer; more than the cluster's buffer holds raises HOLD_OVERFLOW (R177). -/
def holdItem (s : State) (i b : Nat) (w : List Word) (k core port : Nat) (h : HoldItem) : State :=
  let s := s.modReg i fun r => takeSinkBeat r b k port fun it => { it with holds := it.holds ++ [h] }
  if holdCap < heldBytes s core then bindFault s i codeHoldOverflow 0 w k false else s

/-- A sink's beat taken without a write: a window outside its image, or beyond the pass. -/
def skipBeat (s : State) (i b k port : Nat) : State := s.modReg i fun r => takeSinkBeat r b k port id

/-- A memory sink's beat: translated and held, or held and parked on a miss (R32, R102, R113). -/
def memSink (s : State) (i : Nat) (n : Inst) (r : Region) (b : Nat) (w : List Word) (port : Nat) (it : Iter) (beat : Beat)
    (addr : Word) : State :=
  let core := bindCore r w
  let bs := leBytes (Descr.nbytes w) beat.data.toNat
  let rel := if Descr.rel w then some ((scopeOf (Descr.scope w)).getD .system) else none
  let (id, s) := s.takeFresh
  let hold := fun (s : State) (ps : Option (List Piece)) =>
    holdItem s i b w it.n core port (.write id b (it.sinkAt b) rel addr ps bs core)
  match xlate s (some core) core (dieOfCore core) n.ctx (r.portOf b).as addr bs.length 64 1 (portAccess true) false with
  | (s, .ok ps) => hold s (some ps)
  | (s, .fault c fa) => bindFault s i c fa w it.n (c != codeDataErr)
  | (s, .miss sp va) => hold (askPortWalk s n (.sink i id) sp va core) none

/-- A parked write of a sink binding whose walk has been made: iteration, name and address with its length. -/
def parkedSink (s : State) (i : Nat) (r : Region) (b : Nat) : Option (Iter × Nat × Word × Nat) :=
  r.iters.findSome? fun it => it.holds.findSome? fun h => match h with
    | .write id hb _ _ va none d _ =>
      if hb = b ∧ ¬ s.walks.any (fun q => q.by_ == .sink i id) then some (it, id, va, d.length) else none
    | _ => none

/-- A held write with its pieces, once it has translated. -/
def HoldItem.translated (id : Nat) (ps : List Piece) (h : HoldItem) : HoldItem :=
  match h with
  | .write k b p rel va none d c => if k = id then .write k b p rel va (some ps) d c else h
  | _ => h

/-- A parked write translates again. -/
def unparkSink (s : State) (i : Nat) (n : Inst) (r : Region) (b : Nat) (w : List Word) (it : Iter) (id : Nat) (va : Word)
    (size : Nat) : State :=
  let core := bindCore r w
  match xlate s (some core) core (dieOfCore core) n.ctx (r.portOf b).as va size 64 1 (portAccess true) false with
  | (s, .ok ps) => s.modReg i fun r => r.modIter it.n fun it => { it with holds := it.holds.map (HoldItem.translated id ps) }
  | (s, .fault c fa) => bindFault s i c fa w it.n (c != codeDataErr)
  | (s, .miss sp a) => askPortWalk s n (.sink i id) sp a core

/-- A channel sink's beat: its token held for the iteration (R81). An OPEN writer is bound when the token enters, at the
commit (R64); what the controller would refuse is found here already (R71, R73). -/
def chanSink (s : State) (i : Nat) (n : Inst) (r : Region) (b : Nat) (w : List Word) (port k : Nat) (beat : Beat) : State :=
  let h := (r.portOf b).base
  let me := Endpoint.port i (port % 32)
  match chanQuery s n.ctx me h true with
  | .error c => bindFault s i c 0 w k true
  | .ok (_, c) =>
    if c.state != .opened then bindFault s i codeChClosed 0 w k true
    else holdItem s i b w k (bindCore r w) port (.token b port h (leBytes c.width beat.data.toNat) (bindCore r w))

/-- The beat at the head of a sink binding. A marker is dropped and raises SINKMARK (R321). -/
def sinkBeat (s : State) (i : Nat) (n : Inst) (r : Region) (nest : Nest) (b : Nat) (w : List Word) (port : Nat) (beat : Beat) :
    State :=
  if beat.isMarker then
    postFabric (s.modReg i fun r => { r with sinks := aset b ((agetD [] b r.sinks).drop 1) r.sinks }) i 0b1000
  else match r.iters.find? fun it => it.n == beat.iter with
    | none => s
    | some it =>
      if nest.pass ≤ it.sinkAt b then skipBeat s i b it.n port
      else if (r.portOf b).ch then chanSink s i n r b w port it.n beat
      else match beatAddr r nest b w it (it.sinkAt b) with
        | none => skipBeat s i b it.n port
        | some a => memSink s i n r b w port it beat a

/-- REGION_SINK_WRITE (R32, R81, R102, R321, R325): sink binding `b` takes up a parked write whose walk has been made, or
else the beat at its head. -/
def execRegionSinkWrite (i b : Nat) (s : State) : Host.Outcome State Fault Refusal :=
  match runningNest s i with
  | none => .next s
  | some (n, r, nest) => match nest.binds[b]?, aget b r.att with
    | some w, some port => match parkedSink s i r b with
      | some (it, id, va, size) => .next (unparkSink s i n r b w it id va size)
      | none => match agetD [] b r.sinks with
        | beat :: _ => .next (sinkBeat s i n r nest b w port beat)
        | [] => .next s
    | _, _ => .next s

end Sys2Proof.Machine
end

