-- ==== Sys2Proof/Machine/Firing.lean ====
section
/-! DEFINITION. Firings of FEs, markers, and the end of iterations (R56, R81, R102, R173, R177 to R180, R294, R310, R319 to
R321): what a firing leaves outside its FE, commits and discards. -/

namespace Sys2Proof.Machine

open Sys2Proof.Bits

/-! ## Firings (R173, R294, R310, R319) -/

/-- The snapshot that an FE takes at an iteration's start (R319, R342). -/
def snapOf (s : State) (x : Nat) : Snap :=
  let f := s.fe x
  let key := shelfKey x streamBase
  { core := f.core, cells := if f.stoch then s.bytes key streamBytes else [],
    bad := if f.stoch then s.badRows key streamBytes else [], passed := [], late := [] }

/-- The FE enters iteration `k`: its state is kept for a discard, and what CARRY does not carry is reset (R319). -/
def enterIter (s : State) (x k : Nat) : State :=
  let f := s.fe x
  if k < f.iter then s
  else
    let s := if f.stoch then s.meetStreams x else s
    let p := snapOf s x
    let core := if Cfg.carry f.ctxWords then f.core else Elements.restart f.core
    s.modFe x fun f => { f with snaps := aset k p f.snaps, iter := k + 1, core }

/-- An iteration's first firing starts its measure (R180). -/
def markFirst (s : State) (i k : Nat) : State :=
  s.modReg i fun r => r.modIter k fun it => if it.since = 0 then { it with since := s.cycle + 1 } else it

/-- Bytes written into a shelf from an offset up to its end at most, in one write; the mask and length tag of a stream
register that they touch become unknown (R332). -/
def shelfRun (s : State) (x o : Nat) (bs : List Byte) : State :=
  let s := (s.putBytes (shelfKey x o) bs).modFe x fun f => { f with live := true }
  if (s.fe x).stoch then
    ((List.range 16).filter fun j => overlap (streamBase + 512 * j) 512 o bs.length).foldl (fun s j => s.modFe x fun f =>
      { f with core := { f.core with mask := f.core.mask.setIfInBounds j 0xFFFF, ltag := f.core.ltag.setIfInBounds j 7 } }) s
  else s

/-- Bytes written into a shelf, modulo its size (R27). -/
def shelfWrite (s : State) (x addr : Nat) (bs : List Byte) : State :=
  let o := addr % 0x8000
  let n := 0x8000 - o
  if bs.length ≤ n then shelfRun s x o bs else shelfRun (shelfRun s x o (bs.take n)) x 0 (bs.drop n)

/-- What a carried write of `n` shelf bytes at offset `o` undoes: the old bytes row by row, read with their errors met, and
whether the row is poisoned (R48, R49, R177). -/
def undoOf (s : State) (x o n : Nat) : State × List (Nat × Nat × List Byte × Bool) :=
  let m := 0x8000 - o % 0x8000
  let rows := tokensOf (shelfKey x o) (min n m) 8 ++ tokensOf (shelfKey x 0) (n - m) 8
  let s := rows.foldl (fun s t => meetFlaws s t.1 t.2) s
  (s, rows.map fun t => (x, t.1, s.bytes t.1 t.2, poisonedIn s.poison t.1 t.2))

/-- A SHELFWR binding takes a beat (R177, R304): its bytes are written, with their old values kept when it is carried.
More beats than one pass are dropped (log 34). -/
def shelfSink (s : State) (i b : Nat) (w : List Word) (nest : Nest) (x k : Nat) (beat : Beat) : State :=
  match ((s.inst? i).bind fun n => n.reg).bind fun r => r.iters.find? fun it => it.n == k with
  | none => s
  | some it =>
    let p := it.sinkAt b
    if nest.pass ≤ p then s
    else
      let s := s.modReg i fun r => r.modIter k fun it => { it with sinkPos := aset b (p + 1) it.sinkPos }
      match Descr.addrAt w 0 (Descr.vecAt nest.loop it.vec p) with
      | none => s
      | some a =>
        let a := (BitVec.ofInt 64 a).toNat
        let s := if Descr.carried w then
            let (s, old) := undoOf s x a (Descr.nbytes w)
            s.modReg i fun r => r.modIter k fun it => { it with undo := it.undo ++ old }
          else s
        shelfWrite s x a (leBytes (Descr.nbytes w) beat.data.toNat)

/-- The sink bindings of an FE's output: 0 OA, 1 OB. -/
def sinksOf (nest : Nest) (c w io kind : Nat) : List (Nat × List Word) :=
  (indexed 0 nest.binds).filter fun b =>
    Descr.kind b.2 == kind && Descr.col b.2 == c && Descr.row b.2 == w && Descr.io b.2 == io

/-- A beat leaves on an output: to the memory sinks attached there, and along the circuits (R294, R305). -/
def emitBeat (s : State) (i : Nat) (r : Region) (nest : Nest) (net : Cfg.Net) (fe : FeAt) (io : Nat) (beat : Beat) : State :=
  let s := (sinksOf nest fe.c fe.w io 1).foldl (fun s b =>
    if (aget b.1 r.att).isSome then s.modReg i fun r => { r with sinks := aset b.1 (agetD [] b.1 r.sinks ++ [beat]) r.sinks }
    else s) s
  (Cfg.feeds net fe.c fe.w (if io = 0 then .oa else .ob)).foldl (fun s y => pushBeat s (rectFe r.rect y.1 y.2.1) y.2.2 beat) s

/-- A selector of the context names a source (R294). -/
def namesSource (c : List Word) (code : Nat) : Bool := (List.range 19).any fun j => Cfg.vsel c j == code

/-- The outputs that a context drives: those that it emits on and that a selector of it names. On another no room is needed,
and its beats are dropped, at the FE's own sink bindings too (R412; DEDUCED, log 112). -/
def outputs (c : List Word) : List Nat :=
  (if Cfg.noa c != 0 && namesSource c 17 then [0] else []) ++ (if Cfg.nob c != 0 && namesSource c 18 then [1] else [])

/-- Bits 31:0 of element 0 of a beat: the scalar token it makes (R294). -/
def scalarOf (c : List Word) (beat : Beat) : BitVec 32 :=
  let eb := NumFmt.elemBits (Cfg.ofmt c) (Cfg.outWidth c)
  BitVec.ofNat 32 (beat.data.toNat % 2 ^ (if eb = 0 then 32 else min eb 32))

/-- A result of an S operation written to its stream register (R332). -/
def writeStream (s : State) (c : List Word) (x : Nat) (o : Elements.StreamOut) : State :=
  let s := s.putBytes (shelfKey x (streamBase + 512 * o.reg)) (leBytes (Cfg.len c / 8) o.val)
  s.modFe x fun f => { f with live := true, core := { f.core with
    mask := f.core.mask.setIfInBounds o.reg (BitVec.ofNat 16 o.mask), ltag := f.core.ltag.setIfInBounds o.reg (BitVec.ofNat 3 (Cfg.lcode c)) } }

/-- The SHELFWR bindings of an FE's driven outputs, in the order of the binding table (R39). -/
def shelfWriters (nest : Nest) (c w : Nat) (outs : List Nat) : List (Nat × List Word) :=
  (indexed 0 nest.binds).filter fun b =>
    Descr.kind b.2 == 3 && Descr.col b.2 == c && Descr.row b.2 == w && outs.contains (Descr.io b.2)

/-- A link holds room for one more firing's beats: its receiver declares `n` a firing (R173, R310; log 11). -/
def hasRoom (len n : Nat) : Bool := len ≤ n || len - n ≤ Config.linkRoom

/-- Every link that an FE drives has room (R173, R310): to other FEs, to sinks, and of scalar tokens. -/
def outRoom (s : State) (r : Region) (nest : Nest) (fe : FeAt) (c : List Word) : Bool :=
  let net := netOf s r
  (outputs c).all (fun io =>
    ((Cfg.feeds net fe.c fe.w (if io = 0 then .oa else .ob)).all fun y =>
      let f := s.fe (rectFe r.rect y.1 y.2.1)
      hasRoom (if y.2.2 = 0 then f.qa else if y.2.2 = 1 then f.qb else f.qc).length (declared f.ctxWords y.2.2))
    && (sinksOf nest fe.c fe.w io 1).all fun b => (aget b.1 r.att).isNone || hasRoom (agetD [] b.1 r.sinks).length 1)
  && (Cfg.feedsScalar net fe.c fe.w).all fun y => hasRoom (s.fe (rectFe r.rect y.1 y.2)).si.length 1

/-- What a firing leaves outside its FE: shelf writes, stream registers, beats and scalar tokens; an undo log that
overflows raises HOLD_OVERFLOW (R177). -/
def spreadOut (s : State) (i : Nat) (r : Region) (nest : Nest) (fe : FeAt) (x k : Nat) (c : List Word) (out : Elements.FireOut) :
    State :=
  let beats := out.beats.map fun b => { b with iter := k }
  let s := (shelfWriters nest fe.c fe.w (outputs c)).foldl (fun s b =>
    beats.foldl (fun s beat => shelfSink s i b.1 b.2 nest x k beat) s) s
  let s := out.streams.foldl (fun s o => writeStream s c x o) s
  let net := netOf s r
  let s := (outputs c).foldl (fun s io => beats.foldl (fun s beat => emitBeat s i r nest net fe io beat) s) s
  let s := (Cfg.feedsScalar net fe.c fe.w).foldl (fun s y => s.modFe (rectFe r.rect y.1 y.2) fun f =>
    { f with si := f.si ++ beats.map fun b => (k, scalarOf c b) }) s
  let r' := ((s.inst? i).bind fun n => n.reg).getD r
  if undoCap < undoBytes r' x then regionFault s i codeHoldOverflow 0 (feArg s i fe.c fe.w) (some k) false else s

/-- The shelf bytes that a firing reads: of its register operands, or named by a TABLE's elements. -/
def shelfReads (c : List Word) (f : Fe) (a : List Beat) (kv : Nat) : List (Nat × Nat) :=
  if Cfg.isStoch c then
    let (_, uA, uB, uC, _) := Cfg.stochUses (Cfg.eop c)
    let reg := fun j => (streamBase + 512 * j, Cfg.len c / 8)
    (if uA && !Cfg.istr c then [reg (Cfg.srA c)] else []) ++ (if uB then [reg (Cfg.srB c)] else [])
      ++ (if uC then [reg (Cfg.srC c)] else [])
  else if Cfg.eop c = 0x11 then
    match Elements.decodeBeats c false f a with
    | .ok (es, _) => es.map fun e => ((kv % 2 ^ 15 + e.pat) % 0x8000, 1)
    | .error _ => []
  else []

/-- The first `n` beats of an input, when all are data. -/
def takeData (q : List Beat) (n : Nat) : Option (List Beat) :=
  if n ≤ q.length && !((q.take n).any Beat.isMarker) then some (q.take n) else none

/-- The inputs of a firing of an FE, when every declared token is there (R173, R294). -/
def fireInputs (s : State) (x : Nat) (f : Fe) (c : List Word) (upset : Bool) : Option (Elements.FireIn × Nat) :=
  match takeData f.qa (Cfg.nia c), takeData f.qb (Cfg.nib c), takeData f.qc (Cfg.nic c) with
  | some a, some b, some d =>
    let si := if Cfg.kreg c = 15 then f.si.head? else none
    if Cfg.kreg c = 15 && si.isNone then none
    else
      let its := (a ++ b ++ d).map (fun y => y.iter) ++ (si.map fun y => y.1).toList
      match its with
      | [] => none
      | _ => some (⟨a, b, d, si.map fun y => y.2, s.mem, shelfKey x 0, s.fresh, upset⟩, its.foldl max 0)
  | _, _, _ => none

/-- The FE after its inputs have been consumed. -/
def Fe.consumed (f : Fe) (c : List Word) : Fe :=
  { f with qa := f.qa.drop (Cfg.nia c), qb := f.qb.drop (Cfg.nib c), qc := f.qc.drop (Cfg.nic c),
           si := if Cfg.kreg c = 15 then f.si.drop 1 else f.si, live := f.live || Cfg.carry c }

/-- The firing that an EOP code names (R311, R335). -/
def fireOf (e : Nat) : Option (List Word → Fe → Elements.FireIn → Except Elements.FireFault Elements.FireOut) :=
  match e with
  | 0x01 => some Elements.passFire
  | 0x02 => some Elements.dotFire
  | 0x03 => some Elements.dotFire
  | 0x04 => some Elements.redFire
  | 0x05 => some Elements.redFire
  | 0x06 => some Elements.redFire
  | 0x0A => some Elements.quantFire
  | 0x0B => some Elements.deqFire
  | 0x0D => some Elements.bflyFire
  | 0x0E => some Elements.split3Fire
  | 0x0F => some Elements.lut6Fire
  | 0x10 => some Elements.fsmFire
  | 0x11 => some Elements.tableFire
  | 0x14 => some Elements.cntFire
  | 0x20 => some Elements.sgenFire
  | 0x21 => some (Elements.disjointFire fun a b => a &&& b)
  | 0x22 => some (Elements.disjointFire fun a b => a ||| b)
  | 0x23 => some Elements.smuxFire
  | 0x24 => some Elements.snotFire
  | 0x25 => some (Elements.sameFire fun a b => a &&& b)
  | 0x26 => some (Elements.sameFire fun a b => a ||| b)
  | 0x27 => some (Elements.sameFire fun a b => a ^^^ b)
  | 0x28 => some Elements.scntFire
  | 0x29 => some Elements.sregenFire
  | 0x2A => some Elements.sfsmFire
  | e => if e = 0x07 ∨ e = 0x08 ∨ e = 0x09 ∨ e = 0x0C ∨ e = 0x12 ∨ e = 0x13 then some Elements.mapFire else none

/-- A firing's fault: FMT_UNBOUND holds the region, the others stop it (R336, R386). -/
def fireFault (s : State) (i : Nat) (fe : FeAt) (x k : Nat) (e : Elements.FireFault) : State :=
  regionFault s i e.code 0 (regionArg e.ma e.mb (s.fe x).ctxId fe.c fe.w) (some k) (e.code == codeFmtUnbound)

/-- What a firing of an FE's inputs gives: the shelf bytes that it reads met their errors, and poison among them ends it (R49). -/
def fireResult (s : State) (x : Nat) (inp : Elements.FireIn)
    (fire : List Word → Fe → Elements.FireIn → Except Elements.FireFault Elements.FireOut) :
    State × Except Elements.FireFault Elements.FireOut :=
  let f := s.fe x
  let c := f.ctxWords
  let reads := shelfReads c f inp.a (Elements.constant c f inp)
  let s := reads.foldl (fun s y => meetFlaws s (shelfKey x y.1) y.2) s
  if reads.any fun y => poisonedIn s.poison (shelfKey x y.1) y.2 then (s, .error (Elements.plainFault codeDataErr))
  else (s, fire c f inp)

/-- An FE of a region that can fire now and would fault: its place, its iteration and the fault. -/
def faultsNow (s : State) (r : Region) (nest : Nest) (fe : FeAt) : Option (FeAt × Nat × Elements.FireFault) :=
  let x := rectFe r.rect fe.c fe.w
  let f := s.fe x
  let c := f.ctxWords
  if s.asleep (shelfKey x 0) || !outRoom s r nest fe c then none
  else match fireOf (Cfg.eop c), fireInputs s x f c false with
    | some fire, some (inp, k) => match (fireResult (enterIter s x k) x inp fire).2 with
      | .error e => some (fe, k, e)
      | .ok _ => none
    | _, _ => none

/-- Of the FEs that fault in this cycle the one that is reported: the lowest row, then the lowest column (R336). An FE that
can fire now fires in this cycle (R173; DEDUCED, log 122). -/
def firstFault (s : State) (r : Region) (nest : Nest) (fe : FeAt) : Option (FeAt × Nat × Elements.FireFault) :=
  ((relCells r.rect).filter fun y => y.2 < fe.w || (y.2 == fe.w && y.1 < fe.c)).findSome? fun y => faultsNow s r nest ⟨y.1, y.2⟩

/-- The firing itself, in iteration `k`, its inputs there. -/
def fireNow (s : State) (i : Nat) (r : Region) (nest : Nest) (fe : FeAt) (x k : Nat) (inp : Elements.FireIn)
    (fire : List Word → Fe → Elements.FireIn → Except Elements.FireFault Elements.FireOut) : State :=
  let first := firstFault s r nest fe
  let s := (markFirst (enterIter s x k) i k).modReg i fun r => { r with blockedFrom := none }
  let c := (s.fe x).ctxWords
  match fireResult s x inp fire with
    | (s, .error e) => match first with
      | some (y, j, e') => fireFault s i y (rectFe r.rect y.c y.w) j e'
      | none => fireFault s i fe x k e
    | (s, .ok out) =>
      let s := { s with fes := aset x (out.fe.consumed c) s.fes, fresh := s.fresh + 4096 }
      let s := if out.failed then s.modReg i fun r => r.modIter k fun it =>
        { it with checkFailed := some (it.checkFailed.getD (fe.c, fe.w)) } else s
      spreadOut s i r nest fe x k c out

/-- An FE of instance `i`'s region fires under the EOP code given, when its inputs hold their tokens and its links have
room (R173); a shelf in retention keeps it waiting (R52). -/
def fireFe (eop : Nat) (fire : List Word → Fe → Elements.FireIn → Except Elements.FireFault Elements.FireOut) (upset : Bool)
    (i : Nat) (fe : FeAt) (s : State) : Host.Outcome State Fault Refusal :=
  match runningNest s i, s.feOf i fe with
  | some (_, r, nest), some x =>
    let f := s.fe x
    let c := f.ctxWords
    if Cfg.eop c ≠ eop || s.asleep (shelfKey x 0) || !outRoom s r nest fe c then .next s
    else match fireInputs s x f c upset with
      | some (inp, k) => .next (fireNow s i r nest fe x k inp fire)
      | none => .next s
  | _, _ => .next s

/-! ## Markers (R320, R321) -/

/-- Pending values of a tag written, in the marker's step (R320). -/
def Fe.applyMarker (f : Fe) (tag : Nat) : Fe :=
  let core := f.core
  let hit := core.pendK.filter fun (p : Nat × Nat × Word) => p.2.1 == tag
  let k := hit.foldl (fun (k : Vector Word 16) (p : Nat × Nat × Word) => k.setIfInBounds p.1 p.2.2) core.k
  { f with core := { core with k, pendK := core.pendK.filter fun (p : Nat × Nat × Word) => p.2.1 != tag } }

/-- A marker of a tag has passed an FE: its snapshots count it, and KSETs that a replay has still to bring there come when
their markers have passed (R320, R321). -/
def notePass (s : State) (i : Nat) (r : Region) (fe : FeAt) (tag : Nat) : State :=
  let x := rectFe r.rect fe.c fe.w
  let s := s.modFe x fun f => { f with snaps := f.snaps.map fun (y : Nat × Snap) => (y.1, { y.2 with passed := y.2.passed ++ [tag] }) }
  let here := fun (y : KsetLate) => y.c == fe.c && y.w == fe.w && y.tag == tag
  let due := r.ksets.filter fun y => here y && y.after ≤ 1
  let s := s.modReg i fun r => { r with
    ksets := (r.ksets.filter fun y => !(here y && y.after ≤ 1)).map fun y => if here y then { y with after := y.after - 1 } else y }
  due.foldl (fun s y => s.modFe x fun f => f.ksetTagged y.k y.tag y.v) s

/-- MARKER_PASS (R320, R321): a marker at an input head is taken, pending values of its tag are written, and it goes on
on every output that the FE drives. -/
def execMarkerPass (i : Nat) (fe : FeAt) (inp : FeIn) (s : State) : Host.Outcome State Fault Refusal :=
  match runningNest s i, s.feOf i fe with
  | some (_, r, nest), some x =>
    let f := s.fe x
    let tag := fun (m : Beat) => m.data.toNat % 16
    let q := match inp with | .ia => f.qa | .ib => f.qb | .ic => f.qc
    match q with
    | [] => .next s
    | m :: rest =>
      if !m.isMarker || !outRoom s r nest fe f.ctxWords then .next s
      else
        let s := enterIter s x m.iter
        let s := s.modFe x fun f =>
          let f := match inp with
            | .ia => { f with qa := rest }
            | .ib => { f with qb := rest }
            | .ic => { f with qc := rest }
          f.applyMarker (tag m)
        let s := notePass s i r fe (tag m)
        let net := netOf s r
        .next ((outputs f.ctxWords).foldl (fun s io => emitBeat s i r nest net fe io m) s)
  | _, _ => .next s

/-! ## Commits and discards (R56, R81, R102, R178 to R180) -/

/-- Every FE of the region has drained the tokens of iterations up to `k`, and no sink holds one. -/
def drained (s : State) (r : Region) (k : Nat) : Bool :=
  let old := fun (q : List Beat) => q.any fun b => b.iter ≤ k
  (relCells r.rect).all (fun x =>
    let f := s.fe (rectFe r.rect x.1 x.2)
    !old f.qa && !old f.qb && !old f.qc && !(f.si.any fun t => t.1 ≤ k))
  && r.sinks.all fun (q : Nat × List Beat) => !old q.2

/-- Every binding has finished its pass in an iteration, and no write of it is parked. -/
def passesDone (r : Region) (nest : Nest) (it : Iter) : Bool :=
  sourcesFormed r nest it && !(r.reads.any fun x => x.iter == it.n) && !(it.holds.any HoldItem.parked)
    && (indexed 0 nest.binds).all fun b => !Descr.isSink b.2 || !walked r nest b.1 || nest.pass ≤ it.sinkAt b.1

/-- A held token that its channel's controller refuses: its code and binding (R60, R66, R71, R73). Of two ports that send
first on an OPEN channel the second is refused (R64). -/
def tokenRefused (s : State) (i : Nat) (n : Inst) (nest : Nest) (it : Iter) : Option (Nat × List Word) :=
  it.holds.findSome? fun h => match h with
    | .token b p handle _ _ => match chanQuery s n.ctx (.port i (p % 32)) handle true with
      | .error c => some (c, nest.binds.getD b [])
      | .ok (_, c) =>
        if c.state != .opened then some (codeChClosed, nest.binds.getD b [])
        else if c.writer == .opened && firstPort it handle != some p then some (codeChWriter, nest.binds.getD b [])
        else none
    | _ => none

/-- What an iteration's tokens do before the closes of the same commit: their ports write. -/
def sentBefore (i : Nat) (it : Iter) : Before :=
  (heldHandles it).filterMap fun h => (firstPort it h).map fun p => (h, Endpoint.port i (p % 32), false)

/-- The channels whose tail and ring have no room for all of an iteration's tokens (R81). -/
def fullChans (s : State) (n : Inst) (it : Iter) : List Nat :=
  (heldHandles it).filterMap fun h => match chanOf s n.ctx h with
    | some (k, c) => if tokenRoom c (heldTokens it h) then none else some k
    | none => none

/-- The commit waits for room: the region counts as blocked, and the channels are full (R74, R77, R81). -/
def waitForRoom (s : State) (i : Nat) (full : List Nat) : State :=
  full.foldl (fun s k => s.modChan k fun c => { c with rfull := c.rfull || !c.grow })
    (s.modReg i fun r => { r with blockedFrom := some (r.blockedFrom.getD s.cycle) })

/-- An item put among others in the order of the stream. -/
def insertHold (nest : Nest) (it : Iter) (h : HoldItem) : List HoldItem → List HoldItem
  | [] => [h]
  | x :: xs => if rankLt (holdRank nest it h) (holdRank nest it x) then h :: x :: xs else x :: insertHold nest it h xs

/-- An iteration's held writes and fence tokens in the order of its stream (R83, R102). -/
def holdsInOrder (nest : Nest) (it : Iter) : List HoldItem := it.holds.foldl (fun acc h => insertHold nest it h acc) []

/-- An iteration's held items leave in its commit step (R81, R102): writes and fence tokens enter the outbound set in the
order of the stream, then the tokens join their channels in port order, each binding an OPEN writer (R64). -/
def releaseHolds (s : State) (i : Nat) (n : Inst) (nest : Nest) (it : Iter) : State :=
  let s := (holdsInOrder nest it).foldl (fun s h => match h with
    | .write _ _ _ rel _ ps data _ => enterWrite s (.region i) (ps.getD []) data rel false
    | .fence _ _ kinds sc => enterFence s (.region i) kinds sc
    | .token .. => s) s
  (sentBefore i it).foldl (fun s h => match chanOf s n.ctx h.1 with
    | some (k, c) => enterRelease (s.modChan k fun c => { c with writer := h.2.1 }) i k c
        ((heldTokens it h.1).map fun t => (t.1, some t.2))
    | none => s) s

/-- Tokens that an iteration took leave the heads (R80). -/
def freeTaken (s : State) (ctx : Nat) (takes : List Word) : State :=
  takes.foldl (fun s h => match chanOf s ctx h with
    | none => s
    | some (k, c) => match (indexed 0 c.head).find? fun t => t.2.taken with
      | some (j, _) => settleChan (s.modChan k fun c => { c with head := removeAt j c.head }) k
      | none => s) s

/-- What a commit of an iteration leaves to do: the nest's end after the last, and the iteration's STEP trap (R388), which holds
the region at the vector of its next iteration; a nest that ends with this one leaves nothing to hold. The trap finds the
context in a HALT wait too (R243, R380). -/
def afterCommit (s : State) (i : Nat) (it : Iter) (last : Bool) : State :=
  match s.inst? i with
  | none => s
  | some n =>
    if n.ctl.step && !n.ctl.cur then
      let (id, s) := if last then (0, s) else s.takeFresh
      let s := postAsync s i { code := codeStep, blk := 0, slot := 0xC3, addr := 0, arg := none, iter := some it.vec, hold := id }
      if last then endNest s i else holdRegion s i id
    else if last then endNest s i else s

/-- The iteration in flight is the nest's last. -/
def lastIter (r : Region) : Bool := r.iters.length == 1 && r.nextVec.isNone

/-- An FE whose open windows would meet bad parity as they close (R55). -/
def closeFails (s : State) (r : Region) : Option (Nat × Nat) :=
  (relCells r.rect).find? fun x =>
    let f := s.fe (rectFe r.rect x.1 x.2)
    Elements.closeAllBad f.ctxWords f.core

/-- The commit step of the oldest iteration. -/
def commitIter (s : State) (i : Nat) (n : Inst) (r : Region) (nest : Nest) (it : Iter) : State :=
  let s := freeTaken (releaseHolds s i n nest it) n.ctx it.takes
  let s := (relCells r.rect).foldl (fun s x => s.modFe (rectFe r.rect x.1 x.2) fun f =>
    { f with snaps := f.snaps.filter fun (y : Nat × Snap) => it.n < y.1 }) s
  let s := (postFabric s i 0b0010).modReg i fun r => { r with
    iters := r.iters.drop 1, committed := min (r.committed + 1) (2 ^ 32 - 1), watch := 0, expired := false
    blockedFrom := none
    fcnt := it.beats.foldl (fun m (p : Nat × Nat) => aset p.1 (agetD 0 p.1 m + p.2) m) r.fcnt
    retries := if it.replays = 0 then r.retries else r.retries + 1, retried := r.retried || it.replays != 0 }
  let s := s.countCore n.cluster 0x040 1
  afterCommit s i it (lastIter r)

/-- ITERATION_COMMIT (R66, R71, R73, R80, R81, R102, R178, R179, R388). An iteration whose tokens find no room waits, and the
region counts as blocked. DESIGN CHOICE (log 90): bad parity in a window that the nest's end closes (R306) is a check
failure of the last iteration, which then does not commit. -/
def execIterationCommit (i : Nat) (s : State) : Host.Outcome State Fault Refusal :=
  match runningNest s i with
  | none => .next s
  | some (n, r, nest) => match r.iters with
    | [] => .next s
    | it :: _ =>
      if it.checkFailed.isSome || !passesDone r nest it || !drained s r it.n then .next s
      else
        let closes := if lastIter r then closeAts i r nest else []
        match (tokenRefused s i n nest it).orElse fun _ => closeRefused s n (sentBefore i it) closes with
        | some (code, b) => .next (bindFault s i code 0 b it.n true)
        | none =>
          match if lastIter r then closeFails s r else none with
          | some bad => .next (s.modReg i fun r => r.modIter it.n fun it => { it with checkFailed := some bad })
          | none => match fullChans s n it with
            | [] => .next (commitIter s i n r nest it)
            | full => .next (waitForRoom s i full)

/-- ITERATION_DISCARD (R56, R178, R386): the oldest iteration, when a check of it failed, is rolled back and replayed
once; a replay that fails again raises DATA_ERR with the coordinates of the FE. -/
def execIterationDiscard (i : Nat) (s : State) : Host.Outcome State Fault Refusal :=
  match runningNest s i with
  | none => .next s
  | some (n, r, _) => match r.iters.head? with
    | none => .next s
    | some it => match it.checkFailed with
      | none => .next s
      | some (c, w) =>
        if it.replays = 0 then
          .next (((rollback s i).countCore n.cluster 0x041 1).modReg i fun r => { r with replayed := aset it.n 1 r.replayed })
        else
          .next (regionFault s i codeDataErr 0 (feArg s i c w) (some it.n) false)

/-- ITERBOUND in fabric cycles (R180). -/
def iterBound (nest : Nest) : Nat := if nest.bound = 0 then 65536 else nest.bound

/-- ITER_OVERRUN (R180): an iteration has run for ITERBOUND fabric cycles, two control cycles each. -/
def execIterOverrun (i : Nat) (s : State) : Host.Outcome State Fault Refusal :=
  match runningNest s i with
  | none => .next s
  | some (_, r, nest) =>
    match r.iters.find? fun it => it.since != 0 && iterBound nest ≤ (s.cycle + 1 - it.since - it.excluded) / 2 with
    | some it => .next (regionFault s i codeIterOverrun 0 (regionArg 0 0 0 0 0) (some it.n) false)
    | none => .next s

end Sys2Proof.Machine
end

