-- ==== Sys2Proof/Machine/Detector.lean ====
section
/-! DEFINITION. The artificial-deadlock detector (R77 to R79): what instances wait for on channels, the reports of the leaves,
the graph that they make, and growth or CH_DEADLOCK. -/

namespace Sys2Proof.Machine

open Sys2Proof.Bits

/-- The channels for whose room alone a region's oldest iteration waits with its commit (R81). -/
def commitWaits (s : State) (i : Nat) (n : Inst) (r : Region) (nest : Nest) : List Nat :=
  match r.iters with
  | it :: _ =>
    if it.checkFailed.isNone && passesDone r nest it && drained s r it.n && (tokenRefused s i n nest it).isNone then fullChans s n it
    else []
  | [] => []

/-- The channels from which a region's source bindings need a token that is not there. -/
def receiveWaits (s : State) (i : Nat) (n : Inst) (r : Region) (nest : Nest) : List Nat :=
  (indexed 0 nest.binds).filterMap fun b =>
    if Descr.kind b.2 == 0 && walked r nest b.1 && (r.portOf b.1).ch
        && r.iters.any (fun it => it.at b.1 < nest.pass && fencesPlaced nest it (it.at b.1)) then
      match (aget b.1 r.att).bind (portChan s i n r) with
      | some (k, c) => if (c.head.any fun t => !t.taken) || c.state == .ended then none else some k
      | none => none
    else none

/-- The channels on which an instance's region waits, and whether it waits to send (R77). -/
def regionWaits (s : State) (i : Nat) : List (Nat × Bool) :=
  match runningNest s i with
  | some (n, r, nest) =>
    if r.blockedFrom.isNone then []
    else (commitWaits s i n r nest).map (fun k => (k, true)) ++ (receiveWaits s i n r nest).map fun k => (k, false)
  | none => []

/-- The channels on which an instance waits. -/
def waitsOf (s : State) (i : Nat) : List (Nat × Bool) :=
  match s.inst? i with
  | none => []
  | some n => ctlWaits n ++ regionWaits s i

/-- Since when an instance's context or region has been blocked on channels. -/
def blockedSince (s : State) (i : Nat) : Option Nat :=
  match s.inst? i with
  | none => none
  | some n =>
    let c := match n.ctl.blk with
      | some b => match b.req with
        | some ⟨k, .chan .., _⟩ => if ctlWaits n = [] then none else some ((b.rec_ k).since - 1)
        | _ => none
      | none => none
    match c, n.reg.bind fun r => if regionWaits s i = [] then none else r.blockedFrom with
    | some a, some b => some (min a b)
    | some a, none => some a
    | none, b => b

/-- BLOCKED_REPORT (R77): a leaf reports an instance that has been blocked on channels for 50 µs. -/
def execBlockedReport (i : Nat) (s : State) : Host.Outcome State Fault Refusal :=
  let due := match blockedSince s i with
    | some t => t + 50 * cyclesPerUs ≤ s.cycle
    | none => false
  when_ due s { s with reports := (s.reports.filter fun j => j != i) ++ [i], detect := (s.detect.filter fun j => j != i) ++ [i] }

/-- The edges of a reported instance: channel and the instance at its other end. None for a channel with STALL or GROW,
or whose other endpoint is OPEN, saved or not running (R77). -/
def edgesOf (s : State) (i : Nat) : List (Nat × Nat) :=
  if !s.reports.contains i then []
  else (waitsOf s i).filterMap fun w => match aget w.1 s.chans with
    | some c =>
      if !c.valid || c.stall || c.stallRead || c.grow then none
      else match (if w.2 then c.reader else c.writer).inst with
        | some j => match s.inst? j with
          | some m => if m.life == .running then some (w.1, j) else none
          | none => none
        | none => none
    | none => none

/-- One instance of a cycle with the channels on which it waits for the next. -/
structure Hop where
  inst : Nat
  chans : List Nat
  deriving DecidableEq, Repr

/-- The hop from an instance to another, with every channel between them. -/
def hop (s : State) (i j : Nat) : Hop := ⟨i, ((edgesOf s i).filter fun e => e.2 == j).map fun e => e.1⟩

/-- A path of hops from `i` back to `goal` within `fuel` edges. -/
def cyclePath (s : State) (goal : Nat) : Nat → Nat → List Nat → Option (List Hop)
  | 0, _, _ => none
  | fuel + 1, i, seen =>
    (edgesOf s i).findSome? fun e =>
      if e.2 = goal then some [hop s i goal]
      else if seen.contains e.2 then none
      else (cyclePath s goal fuel e.2 (e.2 :: seen)).map fun p => hop s i e.2 :: p

/-- A cycle of the blocked graph. DESIGN CHOICE (log 91): of several cycles the detector acts on the first that it finds from
the instance of the report, its edges in order, and else from the other reports; R78 names none. -/
def findCycle (s : State) (i : Nat) : Option (List Hop) :=
  (i :: s.reports).findSome? fun j => cyclePath s j (s.insts.length + 1) j [j]

/-- A channel's capacity for R78. -/
def Chan.capacity (c : Chan) : Nat := c.hcap * c.width + c.tcap * c.width + c.ringCap

/-- CH_DEADLOCK (R79): the trap goes to instance `i`. Its block is discarded when it waits on the channel; its iteration that
waits to commit goes with the hold of every region of the channel's context, whose release the trap's ERET brings. -/
def chDeadlock (s : State) (i key : Nat) (c : Chan) : State :=
  let h := chanHandle key c
  let waits := ((s.inst? i).map fun n => (ctlWaits n).any fun w => w.1 == key).getD false
  let s := if waits then discardBlock s i else s
  let (id, s) := s.takeFresh
  let s := s.insts.foldl (fun s (x : Nat × Inst) =>
    if x.2.ctx = c.ctx ∧ (x.2.reg.map fun r : Region => r.phase != .idle).getD false then holdRegion s x.1 id else s) s
  postAsync s i ⟨codeChDeadlock, 0, 0xC1, h, some h, none, id⟩

/-- The better of two full channels: the smaller capacity, then the lower handle (R78). -/
def smallerChan (a b : Nat × Chan) : Bool :=
  b.2.capacity < a.2.capacity || (b.2.capacity == a.2.capacity && (chanHandle b.1 b.2).toNat < (chanHandle a.1 a.2).toNat)

/-- The instance of a cycle with the lowest INST. -/
def lowestHop (s : State) : List Hop → Option Hop
  | [] => none
  | e :: es =>
    let serial := fun (x : Hop) => ((s.inst? x.inst).map fun n => n.serial).getD 0
    some (es.foldl (fun a b => if serial b < serial a then b else a) e)

/-- What the detector does with a cycle (R78, R79). -/
def breakCycle (s : State) (cy : List Hop) : State :=
  let cs := (cy.flatMap fun e => e.chans).filterMap fun k => (aget k s.chans).map fun c => (k, c)
  match cs.filter fun x => x.2.rfull with
  | x :: xs =>
    let x := xs.foldl (fun a b => if smallerChan a b then b else a) x
    if x.2.ringmax < 2 * x.2.ringpg then
      match x.2.writer.inst with
      | some i => chDeadlock s i x.1 x.2
      | none => s
    else s.modChan x.1 fun c => { c with grow := true }
  | [] => match lowestHop s cy with
    | none => s
    | some low => match low.chans with
      | [] => s
      | k :: ks =>
        let key := ks.foldl min k
        match aget key s.chans with
        | some c => chDeadlock s low.inst key c
        | none => s

/-- DEADLOCK_DETECTOR (R77 to R79), run for a report. The report is used up: the detector is not run again for the
same block until it is renewed. -/
def execDeadlockDetector (i : Nat) (s : State) : Host.Outcome State Fault Refusal :=
  if s.detect.contains i then
    let s := { s with reports := s.reports.filter (fun j => !(waitsOf s j).isEmpty), detect := s.detect.erase i }
    let s' := match findCycle s i with
      | some cy => breakCycle s cy
      | none => s
    .next { s' with reports := s'.reports.filter fun j => (s'.inst? j).isSome && !(waitsOf s' j).isEmpty }
  else .next s

end Sys2Proof.Machine
end

