-- ==== Sys2Proof/Machine/Eops.lean ====
section
/-! DEFINITION. The element operations of R311: each fires an FE whose running context names it. -/

namespace Sys2Proof.Machine

open Sys2Proof.Machine.Elements

/-- PASS (R311): beats go on unchanged. -/
def execPass (i : Nat) (fe : FeAt) (s : State) : Host.Outcome State Fault Refusal :=
  fireFe 0x01 passFire false i fe s

/-- DOT (R312). `upset` says whether a residue check fails (R54). -/
def execDot (i : Nat) (fe : FeAt) (upset : Bool) (s : State) : Host.Outcome State Fault Refusal :=
  fireFe 0x02 dotFire upset i fe s

/-- DOTS (R312): the emitted values times the constant. `upset` says whether a residue check fails (R54). -/
def execDots (i : Nat) (fe : FeAt) (upset : Bool) (s : State) : Host.Outcome State Fault Refusal :=
  fireFe 0x03 dotFire upset i fe s

/-- REDADD (R316). -/
def execRedadd (i : Nat) (fe : FeAt) (s : State) : Host.Outcome State Fault Refusal :=
  fireFe 0x04 redFire false i fe s

/-- REDMAX (R316). -/
def execRedmax (i : Nat) (fe : FeAt) (s : State) : Host.Outcome State Fault Refusal :=
  fireFe 0x05 redFire false i fe s

/-- REDMIN (R316). -/
def execRedmin (i : Nat) (fe : FeAt) (s : State) : Host.Outcome State Fault Refusal :=
  fireFe 0x06 redFire false i fe s

/-- ADD (R311). -/
def execEopAdd (i : Nat) (fe : FeAt) (s : State) : Host.Outcome State Fault Refusal :=
  fireFe 0x07 mapFire false i fe s

/-- MULE (R311). `upset` says whether a residue check fails (R54). -/
def execMule (i : Nat) (fe : FeAt) (upset : Bool) (s : State) : Host.Outcome State Fault Refusal :=
  fireFe 0x08 mapFire upset i fe s

/-- SCALE (R311). -/
def execScale (i : Nat) (fe : FeAt) (s : State) : Host.Outcome State Fault Refusal :=
  fireFe 0x09 mapFire false i fe s

/-- QUANT (R314). -/
def execQuant (i : Nat) (fe : FeAt) (s : State) : Host.Outcome State Fault Refusal :=
  fireFe 0x0A quantFire false i fe s

/-- DEQ (R314). -/
def execDeq (i : Nat) (fe : FeAt) (s : State) : Host.Outcome State Fault Refusal :=
  fireFe 0x0B deqFire false i fe s

/-- CVT (R311). -/
def execCvt (i : Nat) (fe : FeAt) (s : State) : Host.Outcome State Fault Refusal :=
  fireFe 0x0C mapFire false i fe s

/-- BFLY (R313). -/
def execBfly (i : Nat) (fe : FeAt) (s : State) : Host.Outcome State Fault Refusal :=
  fireFe 0x0D bflyFire false i fe s

/-- SPLIT3 (R315). -/
def execSplit3 (i : Nat) (fe : FeAt) (s : State) : Host.Outcome State Fault Refusal :=
  fireFe 0x0E split3Fire false i fe s

/-- LUT6 (R317). -/
def execLut6 (i : Nat) (fe : FeAt) (s : State) : Host.Outcome State Fault Refusal :=
  fireFe 0x0F lut6Fire false i fe s

/-- FSM (R317). -/
def execFsm (i : Nat) (fe : FeAt) (s : State) : Host.Outcome State Fault Refusal :=
  fireFe 0x10 fsmFire false i fe s

/-- TABLE (R318). -/
def execTable (i : Nat) (fe : FeAt) (s : State) : Host.Outcome State Fault Refusal :=
  fireFe 0x11 tableFire false i fe s

/-- CMPSEL (R311). -/
def execCmpsel (i : Nat) (fe : FeAt) (s : State) : Host.Outcome State Fault Refusal :=
  fireFe 0x12 mapFire false i fe s

/-- SHIFTV (R311). -/
def execShiftv (i : Nat) (fe : FeAt) (s : State) : Host.Outcome State Fault Refusal :=
  fireFe 0x13 mapFire false i fe s

/-- CNT (R316). -/
def execCnt (i : Nat) (fe : FeAt) (s : State) : Host.Outcome State Fault Refusal :=
  fireFe 0x14 cntFire false i fe s

end Sys2Proof.Machine
end

