-- ==== Sys2Proof/Machine/Place.lean ====
section
/-! DEFINITION. The search for places (R161, R162, R166 to R170, R364 to R367): the board of held FEs and context slots,
defect signatures, origins, affinity groups, and whether a group could ever be placed. -/

namespace Sys2Proof.Machine

open Sys2Proof.Bits

/-! ## Fields of a launch record (R164) -/

/-- Word `k` of a record as a number. -/
def recWord (ws : List Word) (k : Nat) : Nat := (ws.getD k 0).toNat
/-- IMAGE. -/
def recImage (ws : List Word) : Word := ws.getD 0 0
/-- ENTRY. -/
def recEntry (ws : List Word) : Word := ws.getD 1 0
/-- Width of field `k`. -/
def recWidth (ws : List Word) (k : Nat) : Nat := bits (recWord ws 2) (6 * k + 5) (6 * k)
/-- Affinity a`k`. -/
def recAff (ws : List Word) (k : Nat) : Nat := bits (recWord ws 2) (36 + 3 * k + 2) (36 + 3 * k)
/-- COUNT`k`. -/
def recCount (ws : List Word) (k : Nat) : Nat := bits (recWord ws (3 + k / 2)) (32 * (k % 2) + 31) (32 * (k % 2))
/-- ARGS. -/
def recArgs (ws : List Word) : Word := ws.getD 6 0
/-- SUCC. -/
def recSucc (ws : List Word) : Word := ws.getD 7 0
/-- DONE. -/
def recDone (ws : List Word) : Word := ws.getD 8 0
/-- TENANT. -/
def recTenant (ws : List Word) : Nat := bits (recWord ws 9) 19 16
/-- ONCE. -/
def recOnce (ws : List Word) : Bool := bit (recWord ws 9) 4
/-- PMODE is DISCARD. -/
def recDiscard (ws : List Word) : Bool := bit (recWord ws 9) 3
/-- RSVRECT. -/
def recRsv (ws : List Word) : Bool := bit (recWord ws 9) 2
/-- CLASS. -/
def recCls (ws : List Word) : Nat := bits (recWord ws 9) 1 0
/-- DIEMASK. -/
def recDiemask (ws : List Word) : Nat := bits (recWord ws 10) 39 32
/-- H. -/
def recH (ws : List Word) : Nat := bits (recWord ws 10) 31 16
/-- W. -/
def recW (ws : List Word) : Nat := bits (recWord ws 10) 15 0
/-- SAVEAREA. -/
def recSave (ws : List Word) : Word := ws.getD 11 0

/-- Product of the counts of fields `k` to 5. -/
def countFrom (ws : List Word) (k : Nat) : Nat := ((List.range 6).drop k).foldl (fun n j => n * recCount ws j) 1

/-- Instances of a launch (R166). -/
def instances (ws : List Word) : Nat := countFrom ws 0

/-- The work identifier at a position in ascending order (R166): f0 highest, each field in its width. -/
def widAt (ws : List Word) (q : Nat) : Nat :=
  (List.range 6).foldl (fun v k => v * 2 ^ recWidth ws k + q / countFrom ws (k + 1) % recCount ws k) 0

/-- A die that DIEMASK permits. -/
def dieAllowed (ws : List Word) (d : Nat) : Bool := recDiemask ws == 0 || bit (recDiemask ws) d

/-! ## The board -/

/-- What is taken: rectangles held, single FEs held (parked ones), and context slots in use as (core, slot). -/
structure Board where
  rects : List Rect
  fes : List Nat
  slots : List (Nat × Nat)
  deriving DecidableEq, Repr

/-- The empty module. -/
def Board.empty : Board := ⟨[], [], []⟩

/-- An instance holds its rectangle and its context slot until it is saved or has arrived. -/
def Inst.holds (n : Inst) : Bool := n.life != .saved

/-- The FEs parked for saved instances (R391). -/
def parkedFes (s : State) : List Nat := s.fes.filterMap fun (x : Nat × Fe) => if x.2.parkedFor.isSome then some x.1 else none

/-- The board without the instances that `gone` names, with parked FEs free or not. -/
def boardOf (s : State) (parkedFree : Bool) (gone : Nat → Bool) : Board :=
  let ins := s.insts.filter fun (x : Nat × Inst) => x.2.holds && !gone x.1
  { rects := ins.filterMap fun (x : Nat × Inst) => x.2.rect
    fes := if parkedFree then [] else parkedFes s
    slots := ins.map fun (x : Nat × Inst) => (x.2.cluster, x.2.slot) }

/-- A place found for an instance. -/
structure Spot where
  rect : Option Rect
  variant : Nat
  setoff : Nat
  pattern : Nat
  sig : Nat
  core : Nat
  slot : Nat
  deriving DecidableEq, Repr

/-- The board with a place taken. -/
def Board.take (b : Board) (p : Spot) : Board :=
  { b with rects := p.rect.toList ++ b.rects, slots := (p.core, p.slot) :: b.slots }

/-- (column, row) lies in a rectangle. -/
def rectHas (r : Rect) (c w : Nat) : Bool := r.col0 ≤ c && c < r.col0 + r.w && r.row0 ≤ w && w < r.row0 + r.h

/-- A rectangle lies inside another. -/
def rectWithin (r o : Rect) : Bool :=
  o.col0 ≤ r.col0 && o.row0 ≤ r.row0 && r.col0 + r.w ≤ o.col0 + o.w && r.row0 + r.h ≤ o.row0 + o.h

/-- Two rectangles share an FE. -/
def rectMeets (r o : Rect) : Bool :=
  r.col0 < o.col0 + o.w && o.col0 < r.col0 + r.w && r.row0 < o.row0 + o.h && o.row0 < r.row0 + r.h

/-- FE (column, row) is held. -/
def Board.held (b : Board) (c w : Nat) : Bool := b.rects.any (fun r => rectHas r c w) || b.fes.contains (feIndex c w)

/-- None of the rectangle's non-defective FEs is held (R168, step 1). -/
def Board.freeRect (b : Board) (defects : List Nat) (r : Rect) : Bool :=
  (rectCells r).all fun x => defects.contains (feIndex x.1 x.2) || !b.held x.1 x.2

/-- The lowest free context slot of a core: four to a core (R167). -/
def Board.freeSlot (b : Board) (core : Nat) : Option Nat := (List.range 4).find? fun k => !b.slots.contains (core, k)

/-! ## Defect signatures (R169) -/

/-- The bitmap of a rectangle's defects: bit w × W + c, padded to whole bytes. -/
def defectBytes (defects : List Nat) (r : Rect) : List Byte :=
  (List.range (ceilDiv (r.w * r.h) 8)).map fun j =>
    BitVec.ofNat 8 ((List.range 8).foldl (fun v b =>
      let i := 8 * j + b
      if i < r.w * r.h ∧ defects.contains (feIndex (r.col0 + i % r.w) (r.row0 + i / r.w)) then v + 2 ^ b else v) 0)

/-- The signature of a W × H bitmap. -/
def signature (w h : Nat) (bitmap : List Byte) : Nat := crc32 (leBytes 2 w ++ leBytes 2 h ++ bitmap)

/-- The variant of the shape that carries a signature: index and variant. -/
def variantOf (vs : List Variant) (w h sig : Nat) : Option (Nat × Variant) :=
  (indexed 0 vs).find? fun v => v.2.w == w && v.2.h == h && v.2.sig == sig

/-! ## Boundaries below their need (R141, R145) -/

/-- Key of one direction of a boundary module. -/
def linkKey (boundary module dir : Nat) : Nat := (boundary * 128 + module) * 2 + dir

/-- Capacity of a boundary in one direction, in GB/s. -/
def boundaryCapacity (s : State) (b dir : Nat) : Nat :=
  (List.range 96).foldl (fun n m =>
    let w := (agetD LinkDir.fresh (linkKey b m dir) s.links).width
    n + (if w = 64 then 488 else if w = 32 then 244 else 0)) 0

/-- The dies that a compute-to-compute boundary joins, and its need in GB/s (R141, R425). -/
def boundaryEnds (b : Nat) : Nat × Nat × Nat :=
  if b < 3 then (b, b + 1, 29180) else if b < 6 then (b + 1, b + 2, 29180) else (b - 6, b - 2, 43780)

/-- The rectangle spans a boundary that runs below its need. -/
def spansWeak (s : State) (r : Rect) : Bool :=
  let ds := rectDies r
  (List.range 10).any fun b =>
    let (x, y, need) := boundaryEnds b
    ds.contains x && ds.contains y && (boundaryCapacity s b 0 < need || boundaryCapacity s b 1 < need)

/-! ## One instance (R168) -/

/-- Where an affinity keeps a group's members (R167). -/
inductive Within
  | module
  | die (d : Nat)
  | cluster (c : Nat)
  deriving DecidableEq, Repr

/-- The rectangle and core stay within it. -/
def Within.rectOk (g : Within) (r : Rect) : Bool :=
  match g with
  | .module => true
  | .die d => rectDies r == [d]
  | .cluster c => rectCores r == [c]

/-- A core within it. -/
def Within.coreOk (g : Within) (core : Nat) : Bool :=
  match g with
  | .module => true
  | .die d => dieOfCore core == d
  | .cluster c => core == c

/-- Control cycles in 10 ms and in 1 ms. -/
def borrowWindow : Nat := 16000000
/-- The limit of R367. -/
def borrowLimitCycles : Nat := 1600000

/-- Length of the union of intervals, from `lo` on. -/
def unionLength (lo : Nat) (xs : List (Nat × Nat)) : Nat :=
  ((xs.mergeSort fun x y => x.1 ≤ y.1).foldl (fun (a : Nat × Nat) x =>
    (a.1 + (x.2 - max a.2 x.1), max a.2 x.2)) (0, lo)).1

/-- Time, in the trailing 10 ms, during which another tenant's region held an FE of a tenant's reserved rectangle (R367):
ended intervals, and those of regions that hold one now. -/
def borrowedTime (s : State) (t : Nat) : Nat :=
  let now := match (s.tenant t).reserved with
    | none => []
    | some r => s.insts.filterMap fun (x : Nat × Inst) =>
        if x.2.holds && s.tenantOf x.2.ctx != t && (x.2.rect.map fun o => rectMeets o r).getD false then some (x.2.placedAt, s.cycle)
        else none
  unionLength (s.cycle - borrowWindow) ((s.tenant t).borrowed ++ now)

/-- Reserved rectangles allow the placement (R366, R367): RSVRECT inside the tenant's own; another tenant's rectangle
only for class 0, while less than 1 ms has been borrowed of it. -/
def reservedOk (s : State) (tenant cls : Nat) (rsv judge : Bool) (r : Rect) : Bool :=
  (!rsv || match (s.tenant tenant).reserved with
    | some o => rectWithin r o
    | none => false)
  && s.tenants.all fun (x : Nat × Tenant) => x.1 == tenant || match x.2.reserved with
    | some o => !rectMeets o r || (cls == 0 && (judge || borrowedTime s x.1 < borrowLimitCycles))
    | none => true

/-- What the search asks for: the record's shape and limits, the variants, and the FEs that must be sound (R397). -/
structure Ask where
  ws : List Word
  tenant : Nat
  variants : List Variant
  live : List (Nat × Nat)        -- relative FEs that must not be defective
  judge : Bool                   -- an emptied module is judged: the borrowed time does not count
  coreOk : Nat → Bool            -- the core can hold the control context

/-- The place at an origin, if it succeeds there (R168, steps 1 to 5). A boundary below its need does not enter the
judgement of R167. -/
def spotAt (s : State) (b : Board) (q : Ask) (g : Within) (col0 row0 : Nat) : Option Spot :=
  let r : Rect := ⟨col0, row0, recW q.ws, recH q.ws⟩
  let core := coreOfFe col0 row0
  if 384 < col0 + r.w ∨ 128 < row0 + r.h then none
  else if !(rectDies r).all (dieAllowed q.ws) || !g.rectOk r || !q.coreOk core
      || !reservedOk s q.tenant (recCls q.ws) (recRsv q.ws) q.judge r || !b.freeRect s.defects r || (!q.judge && spansWeak s r)
      || q.live.any (fun x => s.defects.contains (feIndex (col0 + x.1) (row0 + x.2))) then none
  else
    let sig := signature r.w r.h (defectBytes s.defects r)
    match variantOf q.variants r.w r.h sig, b.freeSlot core with
    | some (k, v), some slot => some ⟨some r, k, v.setoff, v.pattern, sig, core, slot⟩
    | _, _ => none

/-- Origins in ascending row0, then ascending col0, multiples of 4 (R162, R168). -/
def origins : List (Nat × Nat) := (List.range 32).flatMap fun w => (List.range 96).map fun c => (4 * c, 4 * w)

/-- The first place of an instance with which the rest of a search succeeds: its origins in order, or, without a region, the
cores in order with a free slot. -/
def tryAt {α : Type} (s : State) (b : Board) (q : Ask) (g : Within) (rest : Spot → Option α) : Option α :=
  if recW q.ws = 0 then
    (List.range 768).findSome? fun c =>
      match b.freeSlot c with
      | some slot => if dieAllowed q.ws (dieOfCore c) && g.coreOk c && q.coreOk c then rest ⟨none, 0, 0, 0, 0, c, slot⟩ else none
      | none => none
  else origins.findSome? fun o => (spotAt s b q g o.1 o.2).bind rest

/-- The place of an instance: the first origin that succeeds; without a region the lowest core with a free slot. -/
def findSpot (s : State) (b : Board) (q : Ask) (g : Within) : Option Spot := tryAt s b q g some

/-! ## Groups (R167) -/

/-- The rest of a search, with the board and the places taken so far. -/
abbrev Search := Board → List Spot → Option (List Spot)

/-- A part of a search repeated `n` times in order, then the rest. -/
def repeatThen (part : Search → Search) : Nat → Search → Search
  | 0, rest => rest
  | n + 1, rest => part (repeatThen part n rest)

/-- The narrower of a group's place and an affinity's choices within it. -/
def narrowed (g : Within) (aff : Nat) : List Within :=
  match aff, g with
  | 1, .module => (List.range 8).map Within.die
  | 1, g => [g]
  | 2, .module => (List.range 768).map Within.cluster
  | 2, .die d => (List.range 96).map fun c => Within.cluster (d * 96 + c)
  | 2, g => [g]
  | _, g => [g]

/-- Places for one level-`k` group, whose members agree on the fields below `k`, then the rest; `fuel` levels are left. The
group's affinity narrows where it may stand. Every choice is tried, so the arrangement found is the first that holds all
members (log 37). -/
def placeGroup (s : State) (q : Ask) : Nat → Nat → Within → Search → Search
  | 0, k, g, rest, b, ps =>
    (narrowed g (recAff q.ws (k - 1))).findSome? fun g' => tryAt s b q g' fun p => rest (b.take p) (ps ++ [p])
  | fuel + 1, k, g, rest, b, ps =>
    (narrowed g (recAff q.ws (k - 1))).findSome? fun g' =>
      repeatThen (placeGroup s q fuel (k + 1) g') (recCount q.ws k) rest b ps

/-- The level of the group that is placed as one: the outermost whose affinity is not ANY; 7 for single instances. -/
def unitLevel (ws : List Word) : Nat :=
  ((List.range 7).find? fun k => k != 0 && recAff ws (k - 1) != 3).getD 7

/-- Instances that are placed together. -/
def unitSize (ws : List Word) : Nat := if unitLevel ws = 7 then 1 else countFrom ws (unitLevel ws)

/-- Places for the next unit of a launch. -/
def findUnit (s : State) (b : Board) (q : Ask) : Option (List Spot) :=
  if unitLevel q.ws = 7 then (findSpot s b q .module).map fun p => [p]
  else placeGroup s q (6 - unitLevel q.ws) (unitLevel q.ws) .module (fun _ ps => some ps) b []

/-! ## Launches -/

/-- What a launch asks for. -/
def askOf (l : Launch) (judge : Bool) : Ask :=
  { ws := l.words, tenant := l.tenant, variants := l.info.variants, live := [], judge, coreOk := fun _ => true }

/-- The unit could be placed in the module freed of other work (R167). -/
def couldPlace (s : State) (l : Launch) : Bool := (findUnit s .empty (askOf l true)).isSome

/-- Some rectangle of the shape in the permitted dies, free or held, has a signature in the variant table (R170). -/
def someVariant (s : State) (l : Launch) : Bool :=
  recW l.words == 0 || origins.any fun o =>
    let r : Rect := ⟨o.1, o.2, recW l.words, recH l.words⟩
    o.1 + r.w ≤ 384 && o.2 + r.h ≤ 128 && (rectDies r).all (dieAllowed l.words)
      && (variantOf l.info.variants r.w r.h (signature r.w r.h (defectBytes s.defects r))).isSome

/-- The shape fits the permitted dies, and the reserved rectangle under RSVRECT (R170). -/
def shapeFits (s : State) (l : Launch) : Bool :=
  recW l.words == 0 || origins.any fun o =>
    let r : Rect := ⟨o.1, o.2, recW l.words, recH l.words⟩
    o.1 + r.w ≤ 384 && o.2 + r.h ≤ 128 && (rectDies r).all (dieAllowed l.words)
      && (!recRsv l.words || match (s.tenant l.tenant).reserved with
        | some q => rectWithin r q
        | none => false)

/-- The module as it stood at a launch's acceptance, as far as R167 judges by it. -/
def asAccepted (s : State) (l : Launch) : State :=
  { s with defects := l.defects0, tenants := l.reserved0.map fun x => (x.1, { Tenant.fresh with reserved := some x.2 }) }

/-- Some variant has the launch's shape (R358). -/
def shapeKnown (l : Launch) : Bool := recW l.words == 0 || l.info.variants.any fun v => v.w == recW l.words && v.h == recH l.words

/-- The refusal of a launch that can never be placed (R170): its status. A shape that no variant has is PLACE_NOVARIANT
(R358). "Never" is judged against the module at acceptance; a unit that became impossible only by later defects is
PLACE_NOSPACE (R167). -/
def neverStatus (s : State) (l : Launch) : Option Nat :=
  let t := asAccepted s l
  if !shapeKnown l then some 0x40
  else if !shapeFits t l then some 0x41
  else if !someVariant t l then some 0x40
  else if !couldPlace t l then some 0x41
  else if s.defects != l.defects0 && !couldPlace { t with defects := s.defects } l then some 0x41
  else none

/-! ## Queue service (R363, R364) -/

/-- Instances of a launch that are still to be placed. -/
def Launch.waiting (l : Launch) : Bool := l.next < instances l.words

/-- A reset has taken a launch out of its queue (R116, R374). -/
def resetTakes (s : State) (l : Nat) : Bool := s.resets.any fun r => r.launches.contains l

/-- A reset runs on the launch's queue, which dispatches nothing until it has been reported (R278). -/
def queueStopped (s : State) (l : Launch) : Bool :=
  s.resets.any fun r => r.table.isNone && r.tenant == l.tenant && r.cls == l.cls && bit r.diemask l.die

/-- The launch at the head of a tenant's queue in a class: the one accepted first that still waits (R364). -/
def headLaunch (s : State) (tenant cls : Nat) : Option Nat :=
  (s.launches.foldl (fun (best : Option (Nat × Nat)) (x : Nat × Launch) =>
    if x.2.tenant = tenant ∧ x.2.cls = cls ∧ x.2.waiting ∧ !resetTakes s x.1 then
      match best with
      | some b => if x.2.seq < b.2 then some (x.1, x.2.seq) else best
      | none => some (x.1, x.2.seq)
    else best) none).map fun b => b.1

/-- Key of a queue: die and class. -/
def queueKey (die cls : Nat) : Nat := die * 4 + cls

end Sys2Proof.Machine
end

