-- ==== Sys2Proof/Machine/Links.lean ====
section
/-! DEFINITION. The modules of the die-to-die boundaries (R141 to R146, R425): flits, acknowledgement and replay,
retraining, fallback and retirement. A direction `l` is (boundary × 128 + module) × 2 + direction. -/

namespace Sys2Proof.Machine

open Sys2Proof.Bits

/-! ## Names (R425) -/

/-- Boundary of a direction. -/
def linkBoundary (l : Nat) : Nat := l / 256
/-- Module of a direction. -/
def linkModule (l : Nat) : Nat := l / 2 % 128
/-- The other direction of the module. -/
def linkBack (l : Nat) : Nat := if l % 2 = 0 then l + 1 else l - 1

/-- Modules of a boundary: 96, or 32 to an I/O die (R141). -/
def linkModules (b : Nat) : Nat := if b < 10 then 96 else 32

/-- The direction exists. -/
def linkExists (l : Nat) : Bool := linkBoundary l < 14 && linkModule l < linkModules (linkBoundary l)

/-- The compute dies of a boundary; an I/O boundary has one. -/
def linkDies (b : Nat) : List Nat :=
  if b < 10 then [(boundaryEnds b).1, (boundaryEnds b).2.1] else [[0, 4, 3, 7].getD (b - 10) 0]

/-- The compute die at the receiving end of a direction, or of its boundary when an I/O die receives. Direction 0 runs
from the first named die to the second. -/
def linkReceiver (l : Nat) : Nat :=
  let ds := linkDies (linkBoundary l)
  ds.getD (if l % 2 = 0 then ds.length - 1 else 0) 0

/-- The compute die at the sending end; none when an I/O die sends. -/
def linkSender (l : Nat) : Option Nat := if 10 ≤ linkBoundary l ∧ l % 2 = 0 then none else some (linkReceiver (linkBack l))

/-- A replayed flit counted at its sender's die; an I/O die has no counters (R409, R425). -/
def countReplay (s : State) (l : Nat) : State :=
  match linkSender l with
  | some d => s.countDie d 0x060 1
  | none => s

/-- A direction of a module. -/
def State.link (s : State) (l : Nat) : LinkDir := agetD LinkDir.fresh l s.links

/-- The state with a direction changed. -/
def State.modLink (s : State) (l : Nat) (f : LinkDir → LinkDir) : State := { s with links := aset l (f (s.link l)) s.links }

/-- A direction of a boundary, by a direction of one of its modules. -/
def boundOf (l : Nat) : Nat := linkBoundary l * 2 + l % 2

/-- A boundary's tracks and links. -/
def State.bound (s : State) (k : Nat) : Bound := agetD Bound.fresh k s.bounds

/-- The state with a boundary changed. -/
def State.modBound (s : State) (k : Nat) (f : Bound → Bound) : State := { s with bounds := aset k (f (s.bound k)) s.bounds }

/-! ## Flits (R142) -/

/-- Payload bytes of a flit. -/
def flitPayload : Nat := 244

/-- Bytes 0 to 247 of a flit. -/
def Flit.body (f : Flit) : List Byte :=
  leBytes 4 (f.seq.toNat + f.ackseq.toNat * 2 ^ 8 + f.nakseq.toNat * 2 ^ 16 + f.kind.toNat * 2 ^ 24 + (if f.nakv then 2 ^ 28 else 0))
    ++ (f.payload ++ zeros flitPayload).take flitPayload

/-- The 256 bytes of a flit. -/
def Flit.bytes (f : Flit) : List Byte := f.body ++ leBytes 8 (crc64 f.body)

/-- A flit as its 256 bytes read; none when the CRC fails. -/
def readFlit (bs : List Byte) : Option Flit :=
  if crc64 (bs.take 248) ≠ leNat ((bs.drop 248).take 8) then none
  else
    let h := leNat (bs.take 4)
    some { seq := BitVec.ofNat 8 (bits h 7 0), ackseq := BitVec.ofNat 8 (bits h 15 8), nakseq := BitVec.ofNat 8 (bits h 23 16)
           kind := BitVec.ofNat 4 (bits h 27 24), nakv := bit h 28, payload := (bs.drop 4).take flitPayload }

/-- Bytes as they arrive: each error flips bits of one byte. -/
def withErrors (bs : List Byte) (es : List (Nat × Byte)) : List Byte := es.foldl (fun bs e => updateAt (fun b => b ^^^ e.2) e.1 bs) bs

/-! ## Retraining begins (R144) -/

/-- A module stops both ways; what is in flight is lost, what is held stays. -/
def beginRetrain (s : State) (l : Nat) : State :=
  let stop := fun (d : LinkDir) => { d with retraining := true, wire := [], toSend := [], nakSeen := none, fails := [] }
  ((s.modLink l stop).modLink (linkBack l) stop).modLink l fun d => { d with began := true }

/-! ## Sending (R143) -/

/-- A flit put on the wire with what the other direction has accepted. -/
def putFlit (s : State) (l : Nat) (f : Flit) : State :=
  let acked := (s.link (linkBack l)).expected - 1
  s.modLink l fun d => { d with wire := d.wire ++ [{ f with ackseq := acked }] }

/-- A flit of a replay goes out; the fourth replay of one flit starts retraining. -/
def replayFlit (s : State) (l : Nat) (f : Flit) : State :=
  let k := f.seq.toNat
  let n := agetD 0 k (s.link l).replays + 1
  let s := countReplay (s.modLink l fun d => { d with toSend := d.toSend.drop 1, replays := aset k n d.replays }) l
  let s := putFlit s l f
  if n = 4 then beginRetrain s l else s

/-- A new DATA flit: it takes the next SEQ and is held. -/
def sendData (s : State) (l : Nat) (stream ord : Nat) (payload : List Byte) : State :=
  let d := s.link l
  let f : Flit := { seq := d.nextSeq, ackseq := 0, nakseq := 0, kind := 1, nakv := false
                    payload := (payload ++ zeros flitPayload).take flitPayload, stream, ord }
  putFlit (s.modLink l fun d => { d with
    nextSeq := d.nextSeq + 1, held := d.held ++ [f], lastAck := if d.held.isEmpty then s.cycle else d.lastAck }) l f

/-- A payload of a track or link goes out on one of the boundary's working modules, at its place in that track or link
(R142). -/
def sendStream (s : State) (l stream : Nat) (payload : List Byte) : State :=
  let b := s.bound (boundOf l)
  let ord := agetD 0 stream b.sent
  sendData (s.modBound (boundOf l) fun b => { b with sent := aset stream (ord + 1) b.sent }) l stream ord payload

/-- FLIT_SEND (R142, R143): the flits of a replay go first, then those taken over from a retired module, then the
payload given. No more than 64 are held. -/
def execFlitSend (l : Nat) (kind : FlitKind) (load : LinkLoad) (s : State) : Host.Outcome State Fault Refusal :=
  let d := s.link l
  if !linkExists l || d.width = 0 || d.retraining then .next s
  else match d.toSend with
    | f :: _ => .next (replayFlit s l f)
    | [] => match kind with
      | .idle => .next (putFlit s l { seq := 0, ackseq := 0, nakseq := 0, kind := 0, nakv := false, payload := zeros flitPayload })
      | .data =>
        if 64 ≤ d.held.length then .next s
        else match d.moved with
          | m :: rest => .next (sendData (s.modLink l fun d => { d with moved := rest }) l m.stream m.ord m.payload)
          | [] => .next (sendStream s l load.stream load.payload)

/-! ## Receiving (R143) -/

/-- Held flits that an ACKSEQ covers are freed. -/
def LinkDir.acked (d : LinkDir) (a : BitVec 8) (now : Nat) : LinkDir :=
  if d.held.any fun f => f.seq == a then
    let gone := d.held.takeWhile (fun f => f.seq != a) ++ (d.held.find? fun f => f.seq == a).toList
    let out := fun (f : Flit) => gone.any fun g => g.seq == f.seq
    { d with
      held := d.held.filter (fun f => !out f), toSend := d.toSend.filter (fun f => !out f)
      replays := gone.foldl (fun m f => adel f.seq.toNat m) d.replays, lastAck := now }
  else d

/-- One NAK goes back, on an IDLE flit, until its number has been accepted. -/
def sendNak (s : State) (l : Nat) : State :=
  if (s.link l).nakOut then s
  else putFlit (s.modLink l fun d => { d with nakOut := true }) (linkBack l)
    { seq := 0, ackseq := 0, nakseq := (s.link l).expected, kind := 0, nakv := true, payload := zeros flitPayload }

/-- A flit whose CRC fails: dropped, with a NAK; the third failure within 1 µs starts retraining (R144). -/
def crcFailed (s : State) (l : Nat) : State :=
  let s := s.modLink l fun d => { d with fails := s.cycle :: d.fails.filter fun t => s.cycle < t + 1600 }
  if 3 ≤ (s.link l).fails.length then beginRetrain s l else sendNak s l

/-- What a correct flit carries for the opposite sender. -/
def backward (s : State) (l : Nat) (f : Flit) : State :=
  s.modLink (linkBack l) fun d =>
    let d := d.acked f.ackseq s.cycle
    if f.nakv then { d with nakSeen := some f.nakseq } else d

/-- Every payload whose turn has come is delivered, in the order of its track or link (R142). -/
def Bound.settle : Nat → Bound → Bound
  | 0, b => b
  | fuel + 1, b => match b.early.find? fun x => x.2.1 == agetD 0 x.1 b.due with
    | some x => Bound.settle fuel { b with
        due := aset x.1 (x.2.1 + 1) b.due, early := b.early.erase x, out := b.out ++ [(x.1, x.2.2)] }
    | none => b

/-- A payload arrives from a module of the boundary. -/
def Bound.take (b : Bound) (f : Flit) : Bound :=
  Bound.settle (b.early.length + 1) { b with early := b.early ++ [(f.stream, f.ord, f.payload)] }

/-- A correct flit: DATA with the expected SEQ is delivered once, and the boundary delivers it in the order of its track or
link; another SEQ is dropped without a NAK. -/
def goodFlit (s : State) (l : Nat) (f : Flit) : State :=
  let s := backward s l f
  if f.kind = 1 ∧ f.seq = (s.link l).expected then
    (s.modLink l fun d => { d with expected := d.expected + 1, nakOut := false, delivered := d.delivered ++ [f.payload] }).modBound
      (boundOf l) fun b => b.take f
  else s

/-- FLIT_RECEIVE (R142 to R144): the flit at the head of the wire, with the errors it met. -/
def execFlitReceive (l : Nat) (errors : List (Nat × Byte)) (s : State) : Host.Outcome State Fault Refusal :=
  let d := s.link l
  if d.retraining then .next s
  else match d.wire with
    | [] => .next s
    | f :: rest =>
      let s := s.modLink l fun d => { d with wire := rest }
      match readFlit (withErrors f.bytes errors) with
      | none => .next (crcFailed s l)
      | some g =>
        if 1 < g.kind.toNat then .next (sendNak s l) else .next (goodFlit s l { g with stream := f.stream, ord := f.ord })

/-- NAK_RECEIVE (R143): every held flit from NAKSEQ on is replayed in order. -/
def execNakReceive (l : Nat) (s : State) : Host.Outcome State Fault Refusal :=
  match (s.link l).nakSeen with
  | none => .next s
  | some n => .next (s.modLink l fun d => { d with nakSeen := none, toSend := d.held.dropWhile fun f => f.seq != n })

/-- Control cycles in 256 ns. -/
def replayCycles : Nat := 410

/-- REPLAY_TIMEOUT (R143): no ACKSEQ advance for 256 ns while flits are held: the sender replays from the oldest. -/
def execReplayTimeout (l : Nat) (s : State) : Host.Outcome State Fault Refusal :=
  let d := s.link l
  if d.held.isEmpty || d.retraining || s.cycle < d.lastAck + replayCycles then .next s
  else .next (s.modLink l fun d => { d with toSend := d.held, lastAck := s.cycle })

/-! ## Retraining ends (R144, R425) -/

/-- Width and half after a test: 64, 32 on the lower or upper half, or retired. -/
def widthAfter (d : LinkDir) (failing : BitVec 64) : Nat × Bool :=
  let low := bits failing.toNat 31 0 == 0
  let high := bits failing.toNat 63 32 == 0
  if d.width = 64 then (if low && high then (64, false) else if low then (32, false) else if high then (32, true) else (0, false))
  else if (if d.half then high else low) then (32, d.half) else (0, d.half)

/-- The direction up again: it replays its held flits from the oldest. A NAK that went out before still stands for its
number (R143). -/
def LinkDir.resumed (d : LinkDir) (width : Nat) (half : Bool) (now : Nat) : LinkDir :=
  { d with width, half, retraining := false, began := false, toSend := d.held, replays := [], lastAck := now }

/-- Another working module of the boundary in the same direction. -/
def otherModule (s : State) (l : Nat) : Option Nat :=
  ((List.range (linkModules (linkBoundary l))).map fun m => linkKey (linkBoundary l) m (l % 2)).find? fun k =>
    k != l && (s.link k).width != 0

/-- A retired direction: only the flits after the last accepted number move onto another module. -/
def retireDir (s : State) (l : Nat) : State :=
  let d := s.link l
  let left := (d.held.dropWhile fun f => f.seq != d.expected) ++ d.moved
  let s := s.modLink l fun d => { d with width := 0, retraining := false, began := false, held := [], toSend := [], moved := [] }
  match otherModule s l with
  | some k => s.modLink k fun d => { d with moved := d.moved ++ left }
  | none => s.modLink l fun d => { d with moved := left }

/-- RETRAIN_DONE (R144, R425): the module resumes, falls back or is retired; the event is logged and counted. -/
def execRetrainDone (l : Nat) (failing : BitVec 64) (s : State) : Host.Outcome State Fault Refusal :=
  let d := s.link l
  if !d.retraining then .next s
  else
    let a := if d.began then l else linkBack l
    let (w, half) := widthAfter d failing
    let code := if w = 0 then 0xF2 else if w = d.width then 0xF0 else 0xF1
    let seen := if d.width = 64 then failing.toNat else bits failing.toNat (if d.half then 63 else 31) (if d.half then 32 else 0) * (if d.half then 2 ^ 32 else 1)
    let s := if w = 0 then retireDir (retireDir s l) (linkBack l)
      else (s.modLink l fun d => d.resumed w half s.cycle).modLink (linkBack l) fun d => d.resumed w half s.cycle
    let s := (linkDies (linkBoundary l)).foldl (fun s x => s.countDie x 0x061 1) s
    .next ((s.logEvent code (linkReceiver a) 0 (linkBoundary l * 256 + linkModule l) seen).raiseMsix 5)

end Sys2Proof.Machine
end

