-- ==== Sys2Proof/Machine/Image.lean ====
section
/-! DEFINITION. The loader (R353 to R361): the header and its tables, signatures, variants, relocation, the scan of the
nest blocks, and what is kept of an image for its instances. -/

namespace Sys2Proof.Machine

open Sys2Proof.Bits

/-! ## Reading for the scheduler and the loader -/

/-- Access of the loader and of the module's own writes in a context: level S, ORDINARY memory (R360; log 39). -/
def moduleAccess (w : Bool) : Access := ⟨.coreAtomic, !w, w, false, true⟩

/-- Bytes read at a virtual address of a context as one event; the fault otherwise, `codeWait` when a walk has to wait. -/
def readVirt (s : State) (die ctx : Nat) (addr : Word) (n align : Nat) (a : Access) : State × Except (Nat × Word) (List Byte) :=
  match xlateNow s die ctx addr n align a with
  | (s, .ok ps) =>
    let s := ps.foldl (fun s p => meetFlaws s p.key p.n) s
    if s.poisonedPieces ps then (s, .error (codePoison, addr)) else (s, .ok (s.gather ps))
  | (s, .fault c fa) => (s, .error (c, fa))
  | (s, .miss _ _) => (s, .error (codeWait, addr))

/-- Bytes written at a virtual address of a context at level S, as one event; the fault otherwise, `codeWait` when a walk has to
wait. -/
def writeVirt (s : State) (die ctx : Nat) (addr : Word) (bs : List Byte) : State × Option (Nat × Word) :=
  match xlateNow s die ctx addr bs.length 1 (moduleAccess true) with
  | (s, .ok ps) =>
    ((ps.foldl (fun (x : State × List Byte) p => (homeWrite x.1 p.key (x.2.take p.n), x.2.drop p.n)) (s, bs)).1, none)
  | (s, .fault c fa) => (s, some (c, fa))
  | (s, .miss _ _) => (s, some (codeWait, addr))

/-! ## The header and tables (R353 to R356, R358) -/

/-- Word at a byte offset of an image. -/
def imgWord (img : List Byte) (off : Nat) : Nat := leNat ((img.drop off).take 8)

/-- SIZE. -/
def imgSize (img : List Byte) : Nat := imgWord img 0x08
/-- SIGNED. -/
def imgSigned (img : List Byte) : Bool := bit (imgWord img 0) 50
/-- LOADED. -/
def imgLoaded (img : List Byte) : Bool := bit (imgWord img 0) 49
/-- LOADBASE. -/
def imgBase (img : List Byte) : Nat := imgWord img 0x48
/-- Sections. -/
def imgNsec (img : List Byte) : Nat := bits (imgWord img 0x10) 47 32
/-- Variants. -/
def imgNvar (img : List Byte) : Nat := bits (imgWord img 0x28) 47 32
/-- A table's length, in the upper half of its header word. -/
def imgCount (img : List Byte) (off : Nat) : Nat := bits (imgWord img off) 63 32
/-- A table's offset, in the lower half of its header word. -/
def imgOff (img : List Byte) (off : Nat) : Nat := bits (imgWord img off) 31 0

/-- Word `j` of entry `k` of a table whose entries have `n` bytes. -/
def tabWord (img : List Byte) (hdr n k j : Nat) : Nat := imgWord img (imgOff img hdr + n * k + 8 * j)

/-- The header's own fields (R353, R360 step 1). -/
def headerOk (img : List Byte) : Bool :=
  let h0 := imgWord img 0
  bits h0 31 0 == 0x31464F42 && bits h0 47 32 == 1 && bit h0 48 && bits h0 63 51 == 0
    && bits (imgWord img 0x10) 63 48 == 0 && bits (imgWord img 0x28) 63 48 == 0
    && (List.range 6).all (fun k => imgWord img (0x50 + 8 * k) == 0)
    && 1 ≤ imgNsec img && imgNsec img ≤ 256 && (imgSigned img || imgWord img 0x38 == 0)

/-- The tables lie inside SIZE. -/
def tablesOk (img : List Byte) : Bool :=
  let z := imgSize img
  128 ≤ z && imgOff img 0x10 + 32 * imgNsec img ≤ z && imgOff img 0x18 + 24 * imgCount img 0x18 ≤ z
    && imgOff img 0x20 + 24 * imgCount img 0x20 ≤ z && imgOff img 0x28 + 16 * imgNvar img ≤ z
    && imgOff img 0x30 + 32 * imgCount img 0x30 ≤ z && imgOff img 0x38 + imgCount img 0x38 ≤ z
    && imgOff img 0x40 + imgCount img 0x40 ≤ z

/-- Section `k`: kind, offset and size. -/
def section_ (img : List Byte) (k : Nat) : Nat × Nat × Nat :=
  (bits (tabWord img 0x10 32 k 0) 39 32, tabWord img 0x10 32 k 1, tabWord img 0x10 32 k 2)

/-- The sections. -/
def sections (img : List Byte) : List (Nat × Nat × Nat) := (List.range (imgNsec img)).map (section_ img)

/-- A section entry's fields (R354). -/
def sectionOk (img : List Byte) (k : Nat) : Bool :=
  let w0 := tabWord img 0x10 32 k 0
  let (kind, off, size) := section_ img k
  kind ≤ 4 && bits w0 63 48 == 0 && 6 ≤ bits w0 47 40 && bits w0 47 40 ≤ 16 && tabWord img 0x10 32 k 3 == 0
    && off % 65536 == 0 && off + size ≤ imgSize img

/-- Bytes of a channel's token (R61). -/
def tokenWidth (wcode : Nat) : Nat := 8 * 2 ^ wcode

/-- An endpoint as a declaration gives it (R62, R355). -/
def endpointDeclOk (e : Nat) : Bool :=
  bits e 31 30 != 3 && bits e 24 0 == 0 && (bits e 31 30 == 2 || bits e 29 25 == 0)

/-- A channel declaration within the limits of R63. -/
def chanDeclOk (w0 w1 w2 w3 : Nat) : Bool :=
  let width := tokenWidth (bits w0 34 32)
  let cap := fun (sp : Nat) => if sp = 1 then 262144 else 4194304
  bits w0 63 46 == 0 && bits w0 34 32 ≤ 5 && bits w0 37 35 ≤ 5 && (bits w0 39 38 == 1 || bits w0 39 38 == 2)
    && (bits w0 41 40 == 1 || bits w0 41 40 == 2) && bits w0 45 42 ≤ 8 && 2 ≤ bits w1 15 0 && 2 ≤ bits w1 31 16
    && bits w1 15 0 * width ≤ cap (bits w0 39 38) && bits w1 31 16 * width ≤ cap (bits w0 41 40)
    && w2 % 65536 == 0 && 1 ≤ bits w1 47 32 && bits w1 47 32 ≤ bits w1 63 48
    && endpointDeclOk (bits w3 31 0) && endpointDeclOk (bits w3 63 32)

/-- Relocation entry `k`: place, symbol, kind, addend (R356). -/
def reloc (img : List Byte) (k : Nat) : Nat × Nat × Nat × Nat :=
  let w1 := tabWord img 0x20 24 k 1
  (tabWord img 0x20 24 k 0, bits w1 31 0, bits w1 39 32, tabWord img 0x20 24 k 2)

/-- The ranges of the sections of a kind. -/
def sectionsOf (img : List Byte) (kind : Nat) : List (Nat × Nat) :=
  ((sections img).filter fun x => x.1 == kind).map fun x => (x.2.1, x.2.2)

/-- Places of the route records: every 16 bytes of the route sections (R358). -/
def routePlaces (img : List Byte) : List Nat :=
  (sectionsOf img 3).flatMap fun x => (List.range (x.2 / 16)).map fun k => x.1 + 16 * k

/-- The places of the relocation items of a kind. -/
def relocPlaces (img : List Byte) (kind : Nat) : List Nat :=
  (List.range (imgCount img 0x20)).filterMap fun k => let (place, _, q, _) := reloc img k; if q = kind then some place else none

/-- The entries' zero fields, those of channel entries and route records among them, and kinds; no BLOCK_OFF24 (R355, R356,
R358, R360 step 1). -/
def entriesOk (img : List Byte) : Bool :=
  (List.range (imgNsec img)).all (sectionOk img)
    && (List.range (imgCount img 0x18)).all (fun k => bits (tabWord img 0x18 24 k 0) 63 56 == 0)
    && (List.range (imgCount img 0x20)).all (fun k =>
      let (place, sym, kind, _) := reloc img k
      2 ≤ kind && kind ≤ 4 && bits (tabWord img 0x20 24 k 1) 47 40 == 0 && sym < imgCount img 0x18 && place + 8 ≤ imgSize img)
    && (List.range (imgCount img 0x30)).all (fun k => bits (tabWord img 0x30 32 k 0) 63 46 == 0)
    && (routePlaces img).all fun p => bits (imgWord img p) 26 0 == 0 && imgWord img (p + 8) == 0

/-- Step 1 of R360. -/
def step1Ok (img : List Byte) : Bool := headerOk img && tablesOk img && entriesOk img

/-- An image with LOADED, LOADBASE and the signature block as zero (R359). -/
def digestBytes (img : List Byte) : List Byte :=
  let so := imgOff img 0x38
  let sn := imgCount img 0x38
  (indexed 0 img).map fun x =>
    if x.1 = 6 then x.2 &&& 0xFD#8
    else if (0x48 ≤ x.1 ∧ x.1 < 0x50) ∨ (so ≤ x.1 ∧ x.1 < so + sn) then 0 else x.2

/-- Step 2 of R360 (R359): both signatures verify under keys that the tenant's policy lists. The verdicts themselves are
the implementation's (log 5). -/
def signaturesOk (img : List Byte) (keys : List Word) : Bool :=
  let so := imgOff img 0x38
  let w := imgWord img so
  let rsa := BitVec.ofNat 64 (imgWord img (so + 8))
  let slh := BitVec.ofNat 64 (imgWord img (so + 16))
  let d := digestBytes img
  imgSigned img && bits w 31 0 == 0x47534942 && bits w 63 32 == 0x4100 && imgCount img 0x38 == 0x4100
    && keys.contains rsa && keys.contains slh
    && Config.rsaVerifies (d ++ (img.drop (so + 0x20)).take 0x180) rsa
    && Config.slhVerifies (d ++ (img.drop (so + 0x1A0)).take 0x3F60) slh

/-- Variant `k` (R358). -/
def imgVariant (img : List Byte) (k : Nat) : Variant :=
  let w0 := tabWord img 0x28 16 k 0
  let w1 := tabWord img 0x28 16 k 1
  ⟨bits w0 31 0, bits w0 47 32, bits w0 63 48, bits w1 15 0, bits w1 31 16⟩

/-- The variants. -/
def variants (img : List Byte) : List Variant := (List.range (imgNvar img)).map (imgVariant img)

/-- Step 3 of R360: each variant's signature is that of its bitmap (R169). -/
def variantsOk (img : List Byte) : Bool :=
  (List.range (imgNvar img)).all fun k =>
    let v := imgVariant img k
    let off := bits (tabWord img 0x28 16 k 1) 63 32
    let n := ceilDiv (v.w * v.h) 8
    off + n ≤ imgSize img && v.sig == signature v.w v.h ((img.drop off).take n)

/-- A symbol's address with the image at `base` (R355, R356). -/
def symAddr (img : List Byte) (base sym : Nat) : Nat :=
  let sec := bits (tabWord img 0x18 24 sym 0) 47 32
  let v := tabWord img 0x18 24 sym 1
  if sec = 0xFFFF then v
  else if sec = 0xFFFE then base + v
  else base + (section_ img sec).2.1 + v

/-- The VA64 relocations as (place, value) (R356). -/
def va64s (img : List Byte) (base : Nat) : List (Nat × Nat) :=
  (List.range (imgCount img 0x20)).filterMap fun k =>
    let (place, sym, kind, add) := reloc img k
    if kind = 2 then some (place, (symAddr img base sym + add) % 2 ^ 64) else none

/-! ## The scan of the nest blocks (R80, R170, R177, R358) -/

/-- The words of the blocks that the symbol table names. -/
def imgBlocks (img : List Byte) : List (List Word) :=
  (List.range (imgCount img 0x18)).filterMap fun k =>
    let w0 := tabWord img 0x18 24 k 0
    if bits w0 55 52 = 1 ∧ bits w0 47 32 < imgNsec img then
      let off := symAddr img 0 k
      let words := fun (n : Nat) => (List.range n).map fun j => BitVec.ofNat 64 (imgWord img (off + 8 * j))
      some (words (Layout.extent (words 2) / 8))
    else none

/-- Channel declaration `k` of the table: its four words. -/
def imgChan (img : List Byte) (k : Nat) : List Word := (List.range 4).map fun j => BitVec.ofNat 64 (tabWord img 0x30 32 k j)

/-- HCAP of every channel whose declared reader is source port `p`. -/
def readerCaps (img : List Byte) (p : Nat) : List Nat :=
  (List.range (imgCount img 0x30)).filterMap fun k =>
    let r := bits (tabWord img 0x30 32 k 3) 63 32
    if bits r 31 30 = 2 ∧ bits r 29 25 = p then some (bits (tabWord img 0x30 32 k 1) 15 0) else none

/-- A nest block declares more than R177 or R80 allows. -/
def blockOversize (img : List Byte) (ws : List Word) : Bool :=
  Layout.isNest ws && (262144 < Descr.hold (Layout.loop ws) || 4096 < Descr.undo (Layout.loop ws)
    || (Layout.slots ws).any fun x => match x.2.2 with
      | .e e => x.2.1.opc == 0xC0 && e.ch && (readerCaps img e.sel.toNat).any fun cap =>
        cap < Descr.tokiter (Layout.binding ws (e.imm.toNat % 256))
      | _ => false)

/-- A variant's set of some nest block is number 0 (R358). -/
def setZero (img : List Byte) (ws : List Word) : Bool :=
  Layout.isNest ws && (variants img).any fun v => (Layout.ctxset ws + v.setoff) % 65536 == 0

/-! ## Loading -/

/-- What the loader keeps of an image that stands at `base`. -/
def imageInfo (img : List Byte) (base : Nat) : ImageInfo :=
  let shifted := relocPlaces img 3
  let word := fun (p : Nat) => BitVec.ofNat 64 (imgWord img p)
  { ctx := (sectionsOf img 1).map fun x => (BitVec.ofNat 64 (base + x.1), x.2)
    variants := variants img
    routes := ((routePlaces img).filter fun p => shifted.contains p).map word
    chans := (List.range (imgCount img 0x30)).map fun k =>
      (BitVec.ofNat 64 (symAddr img base (bits (tabWord img 0x30 32 k 0) 31 0)), imgChan img k)
    sets := ((imgBlocks img).filter Layout.isNest).map Layout.ctxset
    absRoutes := ((routePlaces img).filter fun p => !shifted.contains p).map word
    ctxIds := (relocPlaces img 4).map fun p => BitVec.ofNat 64 (base + p) }

/-- How a load ends: the step of R360 that failed, a launch that does not suit the image, a refusal, or what is kept; `wait`: a
walk has to wait, and nothing is done yet. -/
inductive LoadEnd
  | ok (info : ImageInfo)
  | failed (step : Nat)
  | unfit
  | refused (status : Nat)
  | wait
  deriving DecidableEq, Repr

/-- ENTRY lies in a code section (R360). -/
def entryOk (img : List Byte) (ws : List Word) : Bool :=
  let base := (recImage ws).toNat
  let entry := (recEntry ws).toNat
  (sectionsOf img 0).any fun x => base + x.1 ≤ entry && entry < base + x.1 + x.2

/-- The checks of a launch and of its image's blocks and channels, relocated (R80, R170, R177, R358, R360, R361): before
LOADED is set, so that a failed or refused load is made and checked again. -/
def launchFits (img : List Byte) (ws : List Word) : LoadEnd :=
  if !entryOk img ws then .failed 1
  else if imgCount img 0x30 ≠ 0 ∧ instances ws ≠ 1 then .unfit
  else if !(List.range (imgCount img 0x30)).all (fun k =>
      chanDeclOk (tabWord img 0x30 32 k 0) (tabWord img 0x30 32 k 1) (tabWord img 0x30 32 k 2) (tabWord img 0x30 32 k 3)) then .failed 1
  else if (imgBlocks img).any (setZero img) then .failed 3
  else if (imgBlocks img).any (blockOversize img) then .refused 0x44
  else .ok (imageInfo img (recImage ws).toNat)

/-- A launch of an image that is loaded (R361): its base, the product of its counts and its ENTRY, and nothing of its blocks. -/
def loadedFits (img : List Byte) (image : Word) (ws : List Word) : LoadEnd :=
  if imgBase img ≠ image.toNat ∨ (imgCount img 0x30 ≠ 0 ∧ instances ws ≠ 1) then .unfit
  else if !entryOk img ws then .failed 1
  else .ok (imageInfo img (recImage ws).toNat)

/-- The relocations written in order; a fault ends them with its code, and what was written stays (R360). -/
def relocate (s : State) (die ctx : Nat) (image : Word) : List (Nat × Nat) → State × Option Nat
  | [] => (s, none)
  | (place, v) :: rest =>
    match writeVirt s die ctx (image + BitVec.ofNat 64 place) (leBytes 8 v) with
    | (s, none) => relocate s die ctx image rest
    | (s, some (c, _)) => (s, some c)

/-- The image's bytes by 64 KiB pages from page `k` on, `m` pages, those that meet some ranges read and the others as zeros. A
page that cannot be read is the fault, or zeros too when not `strict`. -/
def readPages (s : State) (die ctx : Nat) (image : Word) (size : Nat) (rs : List (Nat × Nat)) (strict : Bool) (k : Nat) :
    Nat → List Byte → State × Except (Nat × Word) (List Byte)
  | 0, acc => (s, .ok acc)
  | m + 1, acc =>
    let off := k * 65536
    let n := min 65536 (size - off)
    if !(rs.any fun x => overlap x.1 x.2 off n) then
      readPages s die ctx image size rs strict (k + 1) m (acc ++ List.replicate n 0)
    else match readVirt s die ctx (image + BitVec.ofNat 64 off) n 1 (moduleAccess false) with
      | (s, .ok bs) => readPages s die ctx image size rs strict (k + 1) m (acc ++ bs)
      | (s, .error e) =>
        if strict || e.1 == codeWait then (s, .error e)
        else readPages s die ctx image size rs strict (k + 1) m (acc ++ List.replicate n 0)

/-- The pages of an image that meet some ranges. -/
def readPart (s : State) (die ctx : Nat) (image : Word) (hd : List Byte) (rs : List (Nat × Nat)) (strict : Bool) :
    State × Except (Nat × Word) (List Byte) :=
  readPages s die ctx image (imgSize hd) rs strict 0 (ceilDiv (imgSize hd) 65536) []

/-- The ranges of an image's header and of the tables that the loader takes something from (R353). -/
def tableRanges (hd : List Byte) : List (Nat × Nat) :=
  [(0, 128), (imgOff hd 0x10, 32 * imgNsec hd), (imgOff hd 0x18, 24 * imgCount hd 0x18), (imgOff hd 0x20, 24 * imgCount hd 0x20),
   (imgOff hd 0x28, 16 * imgNvar hd), (imgOff hd 0x30, 32 * imgCount hd 0x30)]

/-- The ranges of the variants' bitmaps, of the code sections and of the route sections. -/
def partRanges (img : List Byte) : List (Nat × Nat) :=
  ((List.range (imgNvar img)).map fun k => let v := imgVariant img k; (bits (tabWord img 0x28 16 k 1) 63 32, ceilDiv (v.w * v.h) 8))
    ++ sectionsOf img 0 ++ sectionsOf img 3

/-- An image's header read and checked (R360 step 1): a header that fails is ILLEGAL. -/
def readHeader (s : State) (die ctx : Nat) (image : Word) : State × Except (Nat × Word) (List Byte) :=
  match readVirt s die ctx image 128 1 (moduleAccess false) with
  | (s, .ok hd) => (s, if headerOk hd && tablesOk hd then .ok hd else .error (codeIllegal, image))
  | r => r

/-- An image's header and tables. -/
def readTables (s : State) (die ctx : Nat) (image : Word) : State × Except (Nat × Word) (List Byte) :=
  match readHeader s die ctx image with
  | (s, .ok hd) => readPart s die ctx image hd (tableRanges hd) true
  | r => r

/-- An end for a fault with code `c` at a step; a wait when it is none. -/
def failAt (c : Nat) (e : LoadEnd) : LoadEnd := if c = codeWait then .wait else e

/-- Steps 4 and 5 of R360. -/
def relocateImage (s : State) (die ctx : Nat) (image : Word) (img : List Byte) (info : ImageInfo) : State × LoadEnd :=
  match relocate s die ctx image (va64s img image.toNat) with
  | (s, some c) => (s, failAt c (.failed 4))
  | (s, none) =>
    match writeVirt s die ctx (image + 0x48) (leBytes 8 image.toNat) with
    | (s, some (c, _)) => (s, failAt c (.failed 5))
    | (s, none) =>
      match writeVirt s die ctx image (leBytes 8 (imgWord img 0 ||| 2 ^ 49)) with
      | (s, some (c, _)) => (s, failAt c (.failed 5))
      | (s, none) => (s, .ok info)

/-! ## A record inside its own image (log 51) -/

/-- A record's words with the relocations of an image at `base` that fall on them. -/
def recordIn (img : List Byte) (base : Nat) (rec_ : Word) (ws : List Word) : List Word :=
  (va64s img base).foldl (fun ws (r : Nat × Nat) =>
    let at_ := base + r.1
    if rec_.toNat ≤ at_ ∧ at_ < rec_.toNat + 128 ∧ at_ % 8 = 0 then ws.set ((at_ - rec_.toNat) / 8) (BitVec.ofNat 64 r.2) else ws) ws

/-- A header stands at `base`, and its image holds the record and relocates its IMAGE word; none while a walk has to wait. -/
def holdsRecord (s : State) (die ctx : Nat) (base : Nat) (rec_ : Word) : Option Bool :=
  match readTables s die ctx (BitVec.ofNat 64 base) with
  | (_, .ok img) => some (rec_.toNat + 128 ≤ base + imgSize img && (va64s img base).any fun r => base + r.1 == rec_.toNat)
  | (_, .error e) => if e.1 = codeWait then none else some false

/-- The image that holds a record: the nearest such header at or below it, at most `n` pages down; 0 when there is none. -/
def holderOf (s : State) (die ctx : Nat) (rec_ : Word) : Nat → Nat → Option Nat
  | _, 0 => some 0
  | base, n + 1 =>
    match holdsRecord s die ctx base rec_ with
    | none => none
    | some true => some base
    | some false => if base < 65536 then some 0 else holderOf s die ctx rec_ (base - 65536) n

/-- Pages that a loader looks down from a record: SIZE is at most 256 sections of the record's image (log 51). -/
def holderPages : Nat := 65536

/-- The image that a launch names: IMAGE, or the image that holds the record when the loader has not written IMAGE yet
(R352, R360; log 51); none while a walk has to wait. -/
def launchImage (s : State) (die ctx : Nat) (rec_ : Word) (ws : List Word) : Option Word :=
  if recImage ws ≠ 0 then some (recImage ws)
  else (holderOf s die ctx rec_ (rec_.toNat / 65536 * 65536) holderPages).map (BitVec.ofNat 64)

/-- The load of an image that has LOADED clear, its header and tables read (R360), for a tenant's policy. Each step reads
what it needs, and a fault is that step's. -/
def firstLoad (s : State) (die ctx tenant : Nat) (image rec_ : Word) (ws : List Word) (tabs : List Byte) : State × List Word × LoadEnd :=
  let fixed := if recImage ws = 0 then recordIn tabs image.toNat rec_ ws else ws
  let read := fun (s : State) (rs : List (Nat × Nat)) => readPart s die ctx image tabs rs true
  match read s (tableRanges tabs ++ sectionsOf tabs 3) with
  | (s, .error (c, _)) => (s, ws, failAt c (.failed 1))
  | (s, .ok img) =>
    if !step1Ok img then (s, ws, .failed 1)
    else match (if (s.tenant tenant).signed then read s [(0, imgSize tabs)] else (s, .ok img)) with
    | (s, .error (c, _)) => (s, ws, failAt c (.refused 0x43))
    | (s, .ok all) =>
      if (s.tenant tenant).signed && !signaturesOk all (s.tenant tenant).keys then (s, ws, .refused 0x43)
      else match read s (tableRanges tabs ++ partRanges tabs) with
      | (s, .error (c, _)) => (s, ws, failAt c (.failed 3))
      | (s, .ok img) =>
        if !variantsOk img then (s, ws, .failed 3)
        else
          let after := (va64s img image.toNat).foldl (fun bs (r : Nat × Nat) => overlay 0 bs r.1 (leBytes 8 r.2)) img
          match launchFits after fixed with
          | .ok info =>
            let (s, e) := relocateImage s die ctx image img info
            (s, fixed, e)
          | e => (s, fixed, e)

/-- The load of the image of the launch whose record stands at `rec_` (R360, R361), for a tenant's policy; with the
record's words as the load leaves them. Of a loaded image nothing is examined again: a part that cannot be read counts as
zeros. -/
def loadImage (s : State) (die ctx tenant : Nat) (rec_ : Word) (ws : List Word) : State × List Word × LoadEnd :=
  match launchImage s die ctx rec_ ws with
  | none => (s, ws, .wait)
  | some image => match readHeader s die ctx image with
    | (s, .error (c, _)) => (s, ws, failAt c (.failed 1))
    | (s, .ok hd) =>
      match readPart s die ctx image hd (tableRanges hd) (!imgLoaded hd) with
      | (s, .error (c, _)) => (s, ws, failAt c (.failed 1))
      | (s, .ok tabs) =>
        if !imgLoaded hd then firstLoad s die ctx tenant image rec_ ws tabs
        else match readPart s die ctx image hd (tableRanges hd ++ partRanges tabs) false with
        | (s, .error _) => (s, ws, .wait)
        | (s, .ok img) =>
          let ws := if recImage ws = 0 then recordIn img image.toNat rec_ ws else ws
          (s, ws, loadedFits img image ws)

end Sys2Proof.Machine
end

