-- ==== Sys2Proof/Machine/SaveArea.lean ====
section
/-! DEFINITION. The save area (R392 to R394): the header, the control context and nest state, the FE record and the window
extension, as bytes and read back from bytes. Reserved bits are cleared when a word is read back (R397). -/

namespace Sys2Proof.Machine

open Sys2Proof.Bits

/-! ## Places -/

/-- Bytes of the save area of an instance (R392). -/
def saveStride (ws : List Word) : Nat := 65536 * (1 + recW ws * recH ws)

/-- The area of the instance at position `q` of its launch: each instance has its own, in ascending work identifier
(R423). -/
def saveBase (ws : List Word) (q : Nat) : Word := recSave ws + BitVec.ofNat 64 (saveStride ws * q)

/-- Offset of the slot of relative FE (c, w) (R392). -/
def feSlotOff (ws : List Word) (c w : Nat) : Nat := 65536 * (1 + w * recW ws + c)

/-- Words as bytes. -/
def wordBytes (ws : List Nat) : List Byte := ws.flatMap (leBytes 8)

/-- Bytes padded with zeros or cut to a length. -/
def fitTo (n : Nat) (bs : List Byte) : List Byte := (bs ++ zeros n).take n

/-- A number of `n` bytes at an offset. -/
def numAt (bs : List Byte) (off n : Nat) : Nat := leNat ((bs.drop off).take n)

/-! ## The header (R393) -/

/-- NEST of the header: 00 idle or none, 01 running, 10 held. -/
def nestCode (n : Inst) : Nat :=
  match n.reg with
  | some r => match r.phase with
    | .idle => 0
    | .running => 1
    | .held => 2
  | none => 0

/-- The vector at which a region resumes: that of its next iteration. -/
def resumeVec (n : Inst) : List Nat := ((n.reg.bind fun r => r.nextVec).getD [0, 0, 0, 0, 0, 0])

/-- The header of an instance with a STATE and BYTES. -/
def headerBytes (s : State) (n : Inst) (ws : List Word) (state written : Nat) : List Byte :=
  let v := resumeVec n
  let r := n.reg
  fitTo 0x100 (wordBytes [
    0x45564153 * 2 ^ 32 + 1 * 2 ^ 24 + n.serial,
    state * 2 ^ 56 + n.ctx * 2 ^ 48 + s.tenantOf n.ctx * 2 ^ 44 + s.classOf n * 2 ^ 42 + nestCode n * 2 ^ 40,
    (r.elim 0 fun r => r.variant) % 65536 * 2 ^ 48 + recH ws * 2 ^ 16 + recW ws,
    ((r.bind fun r => r.nest).elim 0 fun n => n.blk.toNat)]
    ++ v.flatMap (leBytes 4) ++ leBytes 8 written)

/-! ## Control context and nest state (R394) -/

/-- The seventeen special registers in the order of R394. -/
def savedRegs : List Nat :=
  [0x000, 0x004, 0x005, 0x010, 0x011, 0x012, 0x013, 0x014, 0x018, 0x019, 0x01A, 0x01B, 0x01C, 0x01D, 0x021, 0x028, 0x029]

/-- An asynchronous fault as an entry of 24 bytes. -/
def asyncBytes (t : TrapInfo) : List Byte := wordBytes [t.slot % 256 * 256 + t.code % 256, t.addr.toNat, (t.arg.getD 0).toNat]

/-- The owned mask of a context's semaphores at a core. -/
def ownedSems (s : State) (core ctx : Nat) : List Nat :=
  (List.range 64).filter fun k => (agetD ⟨0, none, [], []⟩ k (s.core core).sems : Sem).owner == some (BitVec.ofNat 8 ctx)

/-- A set of bits as a number. -/
def maskOf (ks : List Nat) : Nat := ks.dedup.foldl (fun v k => v + 2 ^ k) 0

/-- Count of a semaphore that the context owns; 0 for another's. -/
def savedSem (s : State) (core ctx k : Nat) : Nat :=
  if (ownedSems s core ctx).contains k then (agetD ⟨0, none, [], []⟩ k (s.core core).sems : Sem).count.toNat else 0

/-- 0x0100 to 0x08FF: the control context. -/
def ctlBytes (s : State) (n : Inst) : List Byte :=
  let c := n.ctl
  fitTo 0x800
    (wordBytes ((List.range 64).map fun k => if k = 0 then 0 else (c.regs.toList.getD k 0).toNat)
      ++ wordBytes [c.pending.toNat, c.next.toNat]
      ++ wordBytes (savedRegs.map fun r => (sysValue s n r).toNat)
      ++ wordBytes ((List.range 16).map fun k => (c.ecstate.toList.getD k 0).toNat)
      ++ (List.range 64).flatMap (fun k => leBytes 4 (savedSem s n.cluster n.ctx k))
      ++ wordBytes [maskOf (ownedSems s n.cluster n.ctx), c.async.length]
      ++ c.async.flatMap asyncBytes)

/-- The port at index `p` of a region: its base or handle. -/
def portWord (r : Region) (p : Nat) : Nat := (agetD ⟨0, .virt, false⟩ p r.ports).base.toNat

/-- AS, CH and whether a port is attached, in one byte: the model's own place for them (log 46). -/
def portFlags (r : Region) (p : Nat) : Nat :=
  match aget p r.ports with
  | some q => 8 + (if q.ch then 4 else 0) + (match q.as with | .virt => 0 | .cab => 1 | .war => 2)
  | none => 0

/-- How far the current nest is: started, asked for by an FRUN, failed (log 46). -/
def nestFlags (r : Region) : Nat :=
  match r.nest with
  | some n => (if n.started then 1 else 0) + (if n.run then 2 else 0) + (if n.failed then 4 else 0)
  | none => 0

/-- 0x0900 to 0x0FFF: the region's nest state. -/
def nestBytes (n : Inst) : List Byte :=
  match n.reg with
  | none => zeros 0x700
  | some r =>
    fitTo 0x700 (zeros 0x10 ++ wordBytes ((List.range 64).map (portWord r))
      ++ (List.range 256).map (fun b => BitVec.ofNat 8 (agetD 0xFF b r.att))
      ++ wordBytes [min r.committed (2 ^ 32 - 1) * 2 ^ 32 + r.events.toNat]
      ++ wordBytes ((List.range 64).map fun p => agetD 0 p r.fcnt % 2 ^ 64)
      ++ (List.range 64).map (fun p => BitVec.ofNat 8 (portFlags r p)) ++ leBytes 1 (nestFlags r))

/-! ## The FE record (R394) -/

/-- An exact product as a word of the window extension: sign 63, output 62:56, exponent 55:44 with bias 2,048, magnitude
43:0; exponent 0xFFF marks an infinity (magnitude 0) or NaN (1) (log 46). -/
def termWord (o : Nat) (t : Num) : Nat :=
  match t with
  | .nan => o % 128 * 2 ^ 56 + 0xFFF * 2 ^ 44 + 1
  | .inf g => (if g then 2 ^ 63 else 0) + o % 128 * 2 ^ 56 + 0xFFF * 2 ^ 44
  | .fin g m e => (if g then 2 ^ 63 else 0) + o % 128 * 2 ^ 56 + (e + 2048).toNat % 4096 * 2 ^ 44 + m % 2 ^ 44

/-- An exact product read back: its output and value. -/
def wordTerm (w : Nat) : Nat × Num :=
  let g := bit w 63
  let e := bits w 55 44
  let m := bits w 43 0
  (bits w 62 56, if e = 0xFFF then (if m = 0 then .inf g else .nan) else .fin g m ((e : Int) - 2048))

/-- The open windows that an FE carries (R319): those of a running context with CARRY = 1. -/
def carriedWins (f : Fe) : Assoc Window := if Cfg.carry f.ctxWords then f.core.wins else []

/-- The exact products of an FE's carried open windows (R392). -/
def windowTerms (f : Fe) : List (Nat × Num) := (carriedWins f).flatMap fun (x : Nat × Window) => x.2.terms.map fun t => (x.1, t)

/-- The window extension. -/
def extensionBytes (f : Fe) : List Byte := wordBytes ((windowTerms f).map fun x => termWord x.1 x.2)

/-- Identifier of the context in a slot; 0 when the slot is empty. -/
def slotId (f : Fe) (k : Nat) : Nat := Cfg.id (f.slots.getD k [])

/-- The FE record, 2 KiB. -/
def feRecord (f : Fe) : List Byte :=
  let c := f.core
  let head := (List.range 8).flatMap (fun k => leBytes 2 (if (f.slots.getD k []).isEmpty then 0 else slotId f k))
    ++ leBytes 1 (f.run.elim 0 fun k => k + 1) ++ leBytes 1 ((if f.live then 1 else 0) + (if f.stoch then 2 else 0))
    ++ leBytes 2 (windowTerms f).length
  let win := fun (o : Nat) => agetD ⟨[], 0, 0⟩ o (carriedWins f)
  fitTo 0x800 (fitTo 0x20 head
    ++ wordBytes (c.k.toList.map BitVec.toNat)
    ++ (List.range 16).flatMap (fun k => let p := agetD (0, 0#64) k c.pendK; wordBytes [p.2.toNat, p.1])
    ++ f.vc.toList.map (fun v => v.setWidth 8)
    ++ wordBytes (f.bs.toList.map BitVec.toNat)
    ++ c.mask.toList.flatMap (fun v => leBytes 2 v.toNat) ++ c.ltag.toList.map (fun v => v.setWidth 8)
    ++ c.seed.toList.flatMap (fun v => leBytes 2 v.toNat) ++ c.idx.toList.flatMap (fun v => leBytes 2 v.toNat)
    ++ c.fsm.toList.map (fun v => v.setWidth 8)
    ++ fitTo 0x10 (leBytes 1 (if c.bank then 1 else 0) ++ leBytes 1 (if c.wide then 1 else 0) ++ leBytes 2 c.taken)
    ++ fitTo 0xB0 ((List.range 64).flatMap fun o => leBytes 1 (win o).sa ++ leBytes 1 (win o).sb)
    ++ wordBytes (c.acc.toList.map fun a => a.parity.toNat * 2 ^ 48 + a.v.toNat))

/-- LIVE of a record (R394). -/
def recordLive (bs : List Byte) : Bool := bit (numAt bs 0x11 1) 0

/-- NWIN of a record. -/
def recordNwin (bs : List Byte) : Nat := numAt bs 0x12 2

/-- The open windows from the extension's words, in their order. -/
def readWindows (bs ext : List Byte) : Assoc Window :=
  (List.range (min 1984 (recordNwin bs))).foldl (fun m k =>
    let (o, t) := wordTerm (word8 ext k)
    if o < 64 then
      let w := agetD ⟨[], numAt bs (0x350 + 2 * o) 1, numAt bs (0x351 + 2 * o) 1⟩ o m
      aset o { w with terms := w.terms ++ [t] } m
    else m) []

/-- The core of an FE read back from its record and extension. -/
def readCore (bs ext : List Byte) : FeCore :=
  { k := Vector.ofFn fun j => BitVec.ofNat 64 (numAt bs (0x020 + 8 * j.val) 8)
    pendK := (List.range 16).filterMap fun j =>
      let tag := numAt bs (0x0A8 + 16 * j) 8 % 16
      if tag = 0 then none else some (j, tag, BitVec.ofNat 64 (numAt bs (0x0A0 + 16 * j) 8))
    acc := Vector.ofFn fun j => let w := numAt bs (0x400 + 8 * j.val) 8; ⟨BitVec.ofNat 48 w, BitVec.ofNat 3 (w / 2 ^ 48)⟩
    bank := bit (numAt bs 0x340 1) 0
    taken := numAt bs 0x342 2
    wide := bit (numAt bs 0x341 1) 0
    wins := readWindows bs ext
    fsm := Vector.ofFn fun j => BitVec.ofNat 5 (numAt bs (0x330 + j.val) 1)
    mask := Vector.ofFn fun j => BitVec.ofNat 16 (numAt bs (0x2C0 + 2 * j.val) 2)
    ltag := Vector.ofFn fun j => BitVec.ofNat 3 (numAt bs (0x2E0 + j.val) 1)
    seed := Vector.ofFn fun j => BitVec.ofNat 12 (numAt bs (0x2F0 + 2 * j.val) 2)
    idx := Vector.ofFn fun j => BitVec.ofNat 12 (numAt bs (0x310 + 2 * j.val) 2) }

/-- An FE read back: what its record gives; its context slots are filled separately. -/
def readFe (bs ext : List Byte) : Fe :=
  { Fe.fresh with
    core := readCore bs ext
    vc := Vector.ofFn fun j => BitVec.ofNat 5 (numAt bs (0x1A0 + j.val) 1)
    bs := Vector.ofFn fun j => BitVec.ofNat 33 (numAt bs (0x1C0 + 8 * j.val) 8)
    stoch := bit (numAt bs 0x11 1) 1
    live := recordLive bs }

/-- The running slot of a record. -/
def recordRun (bs : List Byte) : Option Nat :=
  let r := numAt bs 0x10 1
  if 1 ≤ r ∧ r ≤ 8 then some (r - 1) else none

/-! ## The control context and nest state read back -/

/-- Bits of a word of the first 4 KiB. -/
def areaWord (bs : List Byte) (off : Nat) : Word := BitVec.ofNat 64 (numAt bs off 8)

/-- An entry of the pending queue read back (R382, R394); a region's fault reports the vector at which it resumes, and holds
what it held. -/
def readAsync (bs : List Byte) (vec : List Nat) (was : List TrapInfo) (k : Nat) : TrapInfo :=
  let w := numAt bs (0x528 + 24 * k) 8
  let slot := bits w 15 8
  let ofRegion := slot = 0xC0 ∨ slot = 0xC3 ∨ (slot = 0xC4 ∧ numAt bs (0x538 + 24 * k) 8 = 1)
  { code := bits w 7 0, blk := 0, slot, addr := areaWord bs (0x530 + 24 * k)
    arg := if slot = 0xC3 then none else some (areaWord bs (0x538 + 24 * k))
    iter := if ofRegion then some vec else none
    hold := (was[k]?).elim 0 fun t => t.hold }

/-- VEC0 to VEC5. -/
def readVec (bs : List Byte) : List Nat := (List.range 6).map fun d => numAt bs (0x20 + 4 * d) 4

/-- A control context read back from the first 4 KiB; what the area does not hold stays with the context (log 46). -/
def savedCtl (bs : List Byte) (c : Ctl) : Ctl :=
  let reg := fun (k : Nat) => areaWord bs (0x310 + 8 * k)
  { c with
    regs := Vector.ofFn fun j => if j.val = 0 then 0 else areaWord bs (0x100 + 8 * j.val)
    pending := areaWord bs 0x300, next := top58 (areaWord bs 0x308)
    step := (reg 0).getLsbD 1, dz := (reg 0).getLsbD 0, prev := (reg 1).getLsbD 1, cur := (reg 1).getLsbD 0
    vecbase := top58 (reg 2), faultCode := (reg 3).setWidth 8, faultBlk := top58 (reg 4), faultSlot := (reg 5).setWidth 8
    faultAddr := reg 6, faultArg := reg 7, faultIter := Vector.ofFn fun j => (reg (8 + j.val)).setWidth 32
    resident := (reg 14).toNat, resetStat := reg 15 &&& 0x80000000FFFFFFFF, evpend := (reg 16).setWidth 4
    ecstate := Vector.ofFn fun j => areaWord bs (0x398 + 8 * j.val) &&& 0xFFFFFFFFFFFFFFC7
    async := (List.range (min asyncCap (numAt bs 0x520 8))).map (readAsync bs (readVec bs) c.async) }

/-- The owned mask of the area: semaphore numbers. -/
def readSems (bs : List Byte) : List Nat := (List.range 64).filter fun k => bit (numAt bs 0x518 8) k

/-- Count of a saved semaphore. -/
def readSemCount (bs : List Byte) (k : Nat) : Nat := numAt bs (0x418 + 4 * k) 4

/-- A port read back; none when nothing was attached to it. -/
def readPort (bs : List Byte) (p : Nat) : Option (Nat × Port) :=
  let f := numAt bs (0xE18 + p) 1
  if bit f 3 then some (p, ⟨areaWord bs (0x910 + 8 * p), if bits f 1 0 = 1 then .cab else if bits f 1 0 = 2 then .war else .virt, bit f 2⟩)
  else none

/-- Attachments read back. -/
def readAtt (bs : List Byte) : Assoc Nat :=
  (List.range 256).filterMap fun b =>
    let p := numAt bs (0xB10 + b) 1
    if p < 64 then some (b, p) else none

/-- A region with the nest state of the area. -/
def readNest (bs : List Byte) (r : Region) : Region :=
  { r with
    ports := (List.range 64).filterMap (readPort bs), att := readAtt bs, committed := numAt bs 0xC14 4
    events := BitVec.ofNat 4 (numAt bs 0xC10 4) &&& 0b1010#4
    fcnt := (List.range 64).filterMap fun p => let c := numAt bs (0xC18 + 8 * p) 8; if c = 0 then none else some (p, c) }

/-- The header agrees with the instance and says saved (R397). -/
def headerAgrees (s : State) (n : Inst) (ws : List Word) (bs : List Byte) : Bool :=
  let w := fun k => numAt bs (8 * k) 8
  bits (w 0) 63 32 == 0x45564153 && bits (w 0) 31 24 == 1 && bits (w 0) 23 0 == n.serial && bits (w 1) 63 56 == 0x02
    && bits (w 1) 55 48 == n.ctx && bits (w 1) 47 44 == s.tenantOf n.ctx && bits (w 1) 43 42 == s.classOf n
    && bits (w 2) 31 16 == recH ws && bits (w 2) 15 0 == recW ws

end Sys2Proof.Machine
end

