-- ==== Sys2Proof/Machine/Queue.lean ====
section
/-! DEFINITION. Which work the scheduler serves next (R364, R365, R390, R391, R397): saved instances and what a restore asks of
placement, heads of queues and their turns, victims and claimed FEs. -/

namespace Sys2Proof.Machine

open Sys2Proof.Bits

/-! ## Saved instances (R390, R397) -/

/-- The saved instances of a tenant and class, latest first: they stand at the head of the queue (R365, R390). -/
def savedOf (s : State) (tenant cls : Nat) : List Nat :=
  ((s.insts.filter fun (x : Nat × Inst) => x.2.life == .saved && s.tenantOf x.2.ctx == tenant
      && ((aget x.2.launch s.launches).map fun l => l.cls) == some cls).mergeSort fun x y => y.2.saveFrom ≤ x.2.saveFrom).map fun x => x.1

/-- Words of an instance's launch record. -/
def recordOf (s : State) (n : Inst) : List Word := ((aget n.launch s.launches).map fun l => l.words).getD []

/-- LIVE of relative FE (c, w) of a saved instance: of the FE still parked, else of its record; none when that cannot be
read. -/
def savedLive (s : State) (i : Nat) (n : Inst) (ws : List Word) (c w : Nat) : Option Bool :=
  match s.feOf i ⟨c, w⟩ with
  | some x =>
    if (s.fe x).parkedFor = some i then some (s.fe x).live
    else match readVirt s (dieOfCore n.cluster) n.ctx (saveBase ws n.pos + BitVec.ofNat 64 (feSlotOff ws c w + 0x8011)) 1 1 (moduleAccess false) with
      | (_, .ok bs) => some (bit (leNat bs) 0)
      | (_, .error _) => none
  | none => some false

/-- The LIVE FEs of a saved instance. -/
def liveFes (s : State) (i : Nat) (n : Inst) (ws : List Word) : Option (List (Nat × Nat)) :=
  match n.reg with
  | none => some []
  | some r =>
    let xs := (relCells r.rect).map fun x => (x, savedLive s i n ws x.1 x.2)
    if xs.any fun x => x.2.isNone then none else some ((xs.filter fun x => x.2 == some true).map fun x => x.1)

/-- The semaphores that a restored context owns again (R397): those of the area's mask that it owned when it was saved. Any
other that a changed mask names is not its own, and is checked when it is used. -/
def savedSems (n : Inst) (area : List Byte) : List Nat := (readSems area).filter n.sems.contains

/-- What a restore asks of placement. -/
def restoreAsk (s : State) (n : Inst) (ws : List Word) (live : List (Nat × Nat)) (area : List Byte) (judge : Bool) : Ask :=
  { ws, tenant := s.tenantOf n.ctx, variants := (s.imageOf n).variants, live, judge
    coreOk := fun core => (savedSems n area).all fun k => (s.sem core k).owner.isNone }

/-- The board for a restore: its own parked FEs are free to it. -/
def restoreBoard (s : State) (i : Nat) (parkedFree : Bool) : Board :=
  let b := boardOf s parkedFree fun _ => false
  { b with fes := b.fes.filter fun x => (s.fe x).parkedFor != some i }

/-- The first 4 KiB of the area. -/
def readArea (s : State) (n : Inst) : State × Except (Nat × Word) (List Byte) :=
  readVirt s (dieOfCore n.cluster) n.ctx (saveBase (recordOf s n) n.pos) 0x1000 1 (moduleAccess false)

/-- The place that a restore takes now: on free FEs, else on parked ones that it claims. -/
def restoreSpot (s : State) (i : Nat) (n : Inst) (area : List Byte) : Option (Spot × Bool) :=
  let ws := recordOf s n
  match liveFes s i n ws with
  | none => none
  | some live =>
    let q := restoreAsk s n ws live area false
    match findSpot s (restoreBoard s i false) q .module with
    | some p => some (p, false)
    | none => (findSpot s (restoreBoard s i true) q .module).map fun p => (p, true)

/-! ## Turns (R364) -/

/-- A saved instance finds a place now. -/
def restorable (s : State) (i : Nat) : Bool :=
  match s.inst? i with
  | none => false
  | some n => match readArea s n with
    | (_, .ok area) => (restoreSpot s i n area).isSome
    | (_, .error _) => false

/-- The launch at the head of a tenant's queue in a class: that of a saved instance first. -/
def headOf (s : State) (tenant cls : Nat) : Option Launch :=
  match (savedOf s tenant cls).head? with
  | some i => (s.inst? i).bind fun n => aget n.launch s.launches
  | none => (headLaunch s tenant cls).bind fun l => aget l s.launches

/-- A tenant's head in a class could be placed on a board: a saved instance restored, or a unit of a loaded launch. -/
def headPlaceable (s : State) (b : Board) (tenant cls : Nat) : Bool :=
  match (savedOf s tenant cls).head? with
  | some i => restorable s i
  | none => match headOf s tenant cls with
    | some l => l.loaded && !queueStopped s l && (findUnit s b (askOf l false)).isSome
    | none => false

/-- Instances that a tenant's head places as one. -/
def headSize (s : State) (tenant cls : Nat) : Nat :=
  if (savedOf s tenant cls).isEmpty then (headOf s tenant cls).elim 1 fun l => unitSize l.words else 1

/-- The tenant whose turn a queue is in, and the instances that it has placed in it. -/
def turnHolder (s : State) (k : Nat) : Option (Nat × Nat) :=
  (s.tenants.find? fun (x : Nat × Tenant) => agetD 0 k x.2.served != 0).map fun x => (x.1, agetD 0 k x.2.served)

/-- A tenant's weight in a queue. -/
def weightOf (s : State) (tenant k : Nat) : Nat := agetD 1 k (s.tenant tenant).weights

/-- The tenants of a queue in the order in which they may place: the one in its turn, as far as its weight lasts for what is at
its head, then all in rotation by number, each in a turn of its own (R364; log 38). -/
def turnOrder (s : State) (die cls : Nat) : List Nat :=
  match turnHolder s (queueKey die cls) with
  | none => List.range 16
  | some (h, c) =>
    (if c + headSize s h cls ≤ weightOf s h (queueKey die cls) then [h] else []) ++ (List.range 16).map fun j => (h + 1 + j) % 16

/-- Class order and turns let a tenant's head in a class go (R364): no head of a lower-numbered class can be placed, and of the
queue's tenants it is the first whose head can. -/
def turnOk (s : State) (b : Board) (tenant die cls : Nat) : Bool :=
  !((List.range cls).any fun c => (List.range 16).any fun u => headPlaceable s b u c)
    && (turnOrder s die cls).find? (fun u => ((headOf s u cls).map fun l => l.die) == some die && headPlaceable s b u cls) == some tenant

/-- Instances placed count in their tenant's turn: the one that it is in, or one that begins with them. -/
def serve (s : State) (tenant die cls n : Nat) : State :=
  let k := queueKey die cls
  let c := match turnHolder s k with
    | some (h, c) => if h = tenant ∧ c + n ≤ weightOf s tenant k then c + n else n
    | none => n
  let s := { s with tenants := s.tenants.map fun (x : Nat × Tenant) => (x.1, { x.2 with served := adel k x.2.served }) }
  s.modTenant tenant fun t => { t with served := aset k c t.served }

/-! ## Victims (R365) -/

/-- Class `c` may pre-empt class `v`. -/
def mayPreempt (c v : Nat) : Bool := if c = 0 then 1 ≤ v else c == 1 && v == 3

/-- Class of a running instance. -/
def instCls (s : State) (n : Inst) : Nat :=
  match aget n.launch s.launches with
  | some l => l.cls
  | none => 3

/-- Instances that work of a class may pre-empt. -/
def preemptible (s : State) (c : Nat) (n : Inst) : Bool := n.life == .running && !n.completed && mayPreempt c (instCls s n)

/-- The order of victims: highest-numbered class first, then the most recently placed. -/
def victimBefore (s : State) (a b : Nat × Inst) : Bool :=
  instCls s b.2 < instCls s a.2 || (instCls s a.2 == instCls s b.2 && b.2.placedAt < a.2.placedAt)

/-- An element put into a list before the first that it precedes. -/
def insertBy {α : Type} (before : α → α → Bool) (x : α) : List α → List α
  | [] => [x]
  | y :: ys => if before x y then x :: y :: ys else y :: insertBy before x ys

/-- An instance that is on its way out of its place already. -/
def Inst.leaving (n : Inst) : Bool := n.life == .stopping || n.life == .saving

/-- The board when some instances have gone, with those that are on their way out. -/
def boardWithout (s : State) (gone : List Nat) : Board :=
  boardOf s true fun i => gone.contains i || (s.inst? i).any Inst.leaving

/-- The victim of a launch that finds no place, if its class has rights over some whose going helps (R365). Work is taken in
the order of victims, the highest-numbered class first, until the launch has a place; the first of it that stands in that place
is stopped. -/
def victimFor (s : State) (l : Launch) : Option Nat :=
  let q := askOf l false
  let order := (s.insts.filter fun (x : Nat × Inst) => preemptible s l.cls x.2).foldr (insertBy (victimBefore s)) []
  let now := boardWithout s []
  if (findUnit s now q).isSome then none
  else (List.range order.length).findSome? fun k =>
    let out := order.take (k + 1)
    (findUnit s (boardWithout s (out.map fun x => x.1)) q).bind fun ps =>
      let helps := fun (n : Inst) => ps.any fun p => (match p.rect, n.rect with
        | some a, some b => rectMeets a b
        | _, _ => false) || (p.core == n.cluster && (now.freeSlot p.core).isNone)
      (out.find? fun x => helps x.2).map fun x => x.1

/-- A launch at the head of its queue has no place and takes `i` as its victim. -/
def isVictim (s : State) (i : Nat) : Bool :=
  (List.range 4).any fun c => (List.range 16).any fun t =>
    (savedOf s t c).isEmpty && match (headLaunch s t c).bind fun l => aget l s.launches with
      | some l => l.loaded && !queueStopped s l && victimFor s l == some i
      | none => false

/-- A launch at the head of its queue has no place among free FEs and takes a parked one: the FEs it claims (R391). -/
def claimed (s : State) (x : Nat) : Bool :=
  (List.range 4).any fun c => (List.range 16).any fun t =>
    (savedOf s t c).isEmpty && match (headLaunch s t c).bind fun l => aget l s.launches with
      | some l =>
        let q := askOf l false
        l.loaded && !queueStopped s l && (findUnit s (boardOf s false fun _ => false) q).isNone
          && match findUnit s (boardOf s true fun _ => false) q with
            | some ps => ps.any fun p => match p.rect with
              | some r => (rectCells r).any fun y => feIndex y.1 y.2 == x
              | none => false
            | none => false
      | none => false

end Sys2Proof.Machine
end

