-- ==== Sys2Proof/Machine/TimeBase.lean ====
section
/-! DEFINITION. The time base (R159, R160, R375): its advance with the slewed rate, and the steps that discipline it. -/

namespace Sys2Proof.Machine

open Sys2Proof.Bits

/-- Eighths of a TAI nanosecond in one control cycle (0.625 ns, R159, R238). -/
def cycleEighths : Nat := 5

/-- Eighths that the slew adds over `n` cycles from `cycle` on: at most one in each 1,000 cycles, which is 200 ppm
(R160). -/
def slewStep (cycle n : Nat) (slew : Int) : Int :=
  let room : Int := ((cycle + n) / 1000 : Nat) - (cycle / 1000 : Nat)
  if slew < -room then -room else if room < slew then room else slew

/-- The time base `n` cycles later. -/
def TimeBase.advance (t : TimeBase) (cycle n : Nat) : TimeBase :=
  let d := slewStep cycle n t.slew
  { t with eighths := ((t.eighths + n * cycleEighths : Nat) + d).toNat, slew := t.slew - d }

/-- The time base after a measurement of the source at `tai` (R160): before the first lock it steps forward to the
source; afterwards, or when the source lies behind, the difference is slewed. -/
def TimeBase.measure (t : TimeBase) (tai : Word) : TimeBase :=
  let off : Int := (tai - BitVec.ofNat 64 (t.eighths / 8)).toInt
  let step := !t.everlock && 0 ≤ off
  let left := if step then 0 else off
  let near := -100 ≤ left && left ≤ 100
  { t with
    eighths := if step then t.eighths + 8 * off.toNat else t.eighths
    slew := 8 * left, offset := BitVec.ofInt 64 off, locked := near, everlock := t.everlock || near
    holdover := t.holdover && !near }

/-- T_k of an entry. -/
def LtEntry.at (e : LtEntry) (k : Nat) : Nat := e.start.toNat + k * e.period.toNat

/-- A step forward over several T_k of an entry leaves only the latest of them to fire; the others count as skipped (R373).
Those that NOW had reached before, `was`, still fire. -/
def LtEntry.steppedTo (e : LtEntry) (was now : Nat) : LtEntry :=
  if e.valid && e.period != 0 && e.start.toNat ≤ now then
    let k := (now - e.start.toNat) / e.period.toNat
    let first := max e.nextK (if was < e.start.toNat then 0 else (was - e.start.toNat) / e.period.toNat + 1)
    if k ≤ first then e
    else
      let e := { e with skips := e.skips + BitVec.ofNat 32 (k - first) }
      if first = e.nextK then { e with nextK := k } else { e with jump := some (first, k) }
  else e

/-- The time base measured; a gain or loss of lock raises vector 3, and launches
skipped in a step raise vector 1 (R155). -/
def measureTime (s : State) (tai : Word) : State :=
  let t := s.time.measure tai
  let u := { s with time := t }
  let late := u.table.map fun (x : Nat × LtEntry) => (x.1, x.2.steppedTo s.now u.now)
  let u := if s.time.everlock || late == u.table then u else { u with table := late }.raiseMsix 1
  if t.locked == s.time.locked then u else u.raiseMsix 3

/-- PTP_MESSAGE (R160): with SRC 01 an IEEE 1588 exchange measures TAI. -/
def execPtpMessage (tai : Word) (s : State) : Host.Outcome State Fault Refusal :=
  when_ (s.time.src == 1) s (measureTime s tai)

/-- PTM_EXCHANGE (R160, R375): with SRC 10 or 11 an exchange on that port gives the host's PTM time, converted to TAI
through PTMOFF, whose newest value takes effect here. -/
def execPtmExchange (port : Nat) (ptm : Word) (s : State) : Host.Outcome State Fault Refusal :=
  when_ ((s.time.src == 2 && port == 0) || (s.time.src == 3 && port == 1)) s (measureTime s (ptm + s.time.ptmoff))

/-- TIMEBASE_SOURCE_LOST (R155, R159): after a lock the time base goes on in HOLDOVER; a loss of lock raises vector 3. -/
def execTimebaseSourceLost (s : State) : Host.Outcome State Fault Refusal :=
  let u := { s with time := { s.time with holdover := true, locked := false, slew := 0 } }
  when_ (s.time.everlock && s.time.src != 0 && !s.time.holdover) s (if s.time.locked then u.raiseMsix 3 else u)

/-- The time base with its source chosen. One that no longer follows a source is not locked; after a first lock it is in
HOLDOVER until the new source is measured (DESIGN CHOICE, log 96). -/
def TimeBase.choose (t : TimeBase) (src : BitVec 2) : TimeBase :=
  if src = t.src then t else { t with src, locked := false, holdover := t.everlock, slew := 0 }

/-- TIMEBASE_SRC_WRITE (R159): bits 1:0 choose the source; the others are reserved. A loss of lock raises vector 3 (R155). -/
def timebaseSrc (s : State) (value : Word) : State :=
  let t := s.time.choose (value.setWidth 2)
  let u := { s with time := t }
  if t.locked == s.time.locked then u else u.raiseMsix 3

/-- PTMOFF_WRITE (R375): kept until the next PTM exchange. -/
def ptmoffWrite (s : State) (value : Word) : State := { s with time := { s.time with ptmoff := value } }

end Sys2Proof.Machine
end

