-- ==== Sys2Proof/Machine/Sched.lean ====
section
/-! DEFINITION. Launches (R63, R103, R116, R161 to R172, R277, R278, R360 to R374): LAUNCH and QRESET, acceptance, the
load, placement, arrivals at DONE, refusals, queue-level reset and the launch table. -/

namespace Sys2Proof.Machine

open Sys2Proof.Bits

/-! ## Small parts -/

/-- The die that the scheduler translates on: iod0 stands beside cd0 (R401, R425). -/
def schedDie : Nat := 0

/-- Access by which the scheduler reads a launch record (R164; log 31). -/
def launchAccess (sup : Bool) : Access := ⟨.coreAtomic, true, false, false, sup⟩

/-- A launch record read as one event (R164). -/
def readRecord (s : State) (ctx : Nat) (addr : Word) (sup : Bool) : State × Except (Nat × Word) (List Word) :=
  match readVirt s schedDie ctx addr 128 64 (launchAccess sup) with
  | (s, .ok bs) => (s, .ok ((List.range 16).map fun k => BitVec.ofNat 64 (word8 bs k)))
  | (s, .error e) => (s, .error e)

/-- An access of the scheduler that its step cannot put off: its walks take no walker of the die (DESIGN CHOICE, log 58). -/
def unqueued {α : Type} (s : State) (f : State → State × α) : State × α :=
  let x := f { s with walks := [] }
  ({ x.1 with walks := s.walks }, x.2)

/-- The scheduler's write into a launch record; one that faults is dropped and logged (log 39). -/
def writeRecord (s : State) (ctx : Nat) (addr : Word) (bs : List Byte) : State :=
  match unqueued s fun s => writeVirt s schedDie ctx addr bs with
  | (s, none) => s
  | (s, some (c, fa)) => s.logFault c ctx (s.tenantOf ctx) 0 0 0 fa.toNat 0

/-- STATE of a record written (R164, R165). -/
def writeState (s : State) (ctx : Nat) (addr : Word) (st : Nat) : State := writeRecord s ctx (addr + 0x60) [BitVec.ofNat 8 st]

/-- The state with a launch changed. -/
def State.modLaunch (s : State) (l : Nat) (f : Launch → Launch) : State := { s with launches := amod l f s.launches }

/-! ## The checks of R165 -/

/-- W and H keep to R162. -/
def shapeBad (w h : Nat) : Bool :=
  !(w == 0 && h == 0) && (w % 4 != 0 || h % 4 != 0 || w < 4 || 384 < w || h < 4 || 128 < h)

/-- The record is malformed for a tenant (R165). -/
def recordBad (s : State) (tenant : Nat) (ws : List Word) : Bool :=
  let w := recWord ws
  bits (w 2) 63 54 != 0 || bits (w 9) 63 20 != 0 || bits (w 9) 7 5 != 0 || bits (w 10) 63 40 != 0
    || w 13 != 0 || w 14 != 0 || w 15 != 0
    || (List.range 6).any (fun k => 3 < recAff ws k || recCount ws k == 0 || 2 ^ recWidth ws k < recCount ws k)
    || 64 < (List.range 6).foldl (fun n k => n + recWidth ws k) 0 || 2 ^ 40 < instances ws
    || shapeBad (recW ws) (recH ws) || recTenant ws != tenant
    || w 0 % 64 != 0 || w 1 % 64 != 0 || w 7 % 64 != 0 || w 8 % 16 != 0 || w 11 % 65536 != 0
    || (recCls ws == 0 && (s.tenant tenant).quota0 == 0)

/-! ## Arrivals at DONE (R57, R58, R103, R115, R172) -/

/-- Access of an arrival. -/
def arrivalAccess : Access := ⟨.coreAtomic, true, true, false, true⟩

/-- STATUS with an arrival merged (R57, R58). -/
def mergeStatus (st flags retries code : Nat) : Nat :=
  let r := min 255 (bits st 15 8 + retries)
  let lf := if code = 0 then bits st 39 32 else code
  lf * 2 ^ 32 + r * 2 ^ 8 + (bits st 3 0 ||| flags)

/-- The status of a launch's DONE barrier merged, as one event, with an arrival behind it when `arrives` (R58, R115, R265). A
barrier that cannot be reached loses it to the fault log (log 40). -/
def doneEvent (s : State) (l : Launch) (flags retries code : Nat) (arrives : Bool) : State :=
  let addr := recDone l.words
  if addr = 0 then s
  else match unqueued s fun s => xlateNow s schedDie l.ctx addr 16 16 arrivalAccess with
    | (s, .ok ps) =>
      let key := firstKey ps
      let s := meetFlaws s key 16
      if poisonedIn s.poison key 16 then s.logFault codePoison l.ctx l.tenant 0 0 0 addr.toNat 0
      else
        let s := s.putBytes (key + 8) (leBytes 8 (mergeStatus (s.num8 (key + 8)) flags retries code))
        if arrives then (barArrive s key).1 else s
    | (s, .fault c fa) => s.logFault c l.ctx l.tenant 0 0 0 fa.toNat 0
    | (s, .miss _ _) => s

/-- One arrival at a launch's DONE barrier: status merged, then the arrival (R58, R115, R265). -/
def doneArrive (s : State) (l : Launch) (flags retries code : Nat) : State := doneEvent s l flags retries code true

/-- The status of a launch's DONE barrier merged without an arrival (R223). -/
def doneStatus (s : State) (l : Launch) (flags retries code : Nat) : State := doneEvent s l flags retries code false

/-- Arrivals of instances that never ran. -/
def arriveTimes (s : State) (l : Launch) (code : Nat) : Nat → State
  | 0 => s
  | n + 1 => arriveTimes (doneArrive s l 8 0 code) l code n

/-- A push for a launch-table entry's record. -/
def tablePush (s : State) (e : Nat) : State :=
  match aget e s.table with
  | some x => { s with pushes := s.pushes ++ [⟨.table e, x.ctx.toNat, x.record, false, x.die.toNat⟩] }
  | none => s

/-- A held deferral is pushed when the entry's instance stops running (R374). -/
def deferredPush (s : State) (e : Nat) : State :=
  match aget e s.table with
  | some x => if x.deferred then tablePush { s with table := aset e { x with deferred := false } s.table } e else s
  | none => s

/-- The running launch of a launch-table entry: one that has been refused runs no more (R373). -/
def entryLaunch (s : State) (e : Nat) : Option Nat :=
  (s.launches.find? fun (x : Nat × Launch) => x.2.table == some e && !x.2.refused).map fun x => x.1

/-- An instance of the entry runs: its launch, or a push still to be read (R373). -/
def entryRuns (s : State) (e : Nat) : Bool :=
  (entryLaunch s e).isSome || s.pushes.any fun p => p.from_ == PushFrom.table e

/-- A push of the entry has been read. When it left no launch, the entry runs no more, and a held deferral is pushed (R373,
R374). -/
def settleEntry (s : State) (e : Nat) : State := if entryRuns s e then s else deferredPush s e

/-- The launch's last instance has ended, on die `die` (R172): its one arrival under ONCE, SUCC, STATE, and what the
launch table holds for it. -/
def finishLaunch (s : State) (k : Nat) (l : Launch) (die : Nat) : State :=
  let s := if recOnce l.words then doneArrive s l l.status.toNat l.retries l.lastFault else s
  let s := if !l.faulted && recSucc l.words != 0 then
      { s with pushes := s.pushes ++ [⟨.succ, l.ctx, recSucc l.words, false, die⟩] }
    else s
  let s := if l.refused then s else writeState s l.ctx l.addr (if l.faulted then 0x03 else 0x02)
  let s := { s with launches := adel k s.launches }
  match l.table with
  | some e => if l.refused then s else deferredPush s e
  | none => s

/-- A launch that has nothing left to place or to end is finished. -/
def checkFinished (s : State) (k die : Nat) : State :=
  match aget k s.launches with
  | some l => if l.live.isEmpty && !l.waiting then finishLaunch s k l die else s
  | none => s

/-- Status of an instance merged into its launch under ONCE. -/
def Launch.merge (l : Launch) (flags retries code : Nat) : Launch :=
  { l with status := l.status ||| BitVec.ofNat 4 flags, retries := min 255 (l.retries + retries)
           lastFault := if code = 0 then l.lastFault else code }

/-- A refusal (R170): STATE holds the status, and every instance that has not run arrives FAULTED with it, so that waiters
are never left waiting (log 41). -/
def refuseLaunch (s : State) (k : Nat) (status : Nat) : State :=
  match aget k s.launches with
  | none => s
  | some l =>
    let left := instances l.words - l.next
    let s := writeState s l.ctx l.addr status
    let s := if 0x40 ≤ status ∧ status ≠ 0x43 then s.logFault status l.ctx l.tenant l.die 0 l.inst0 l.addr.toNat 0 else s
    let s := if recOnce l.words then s else arriveTimes s l status left
    let s := s.modLaunch k fun l =>
      { (if recOnce l.words then l.merge 8 0 status else l) with next := instances l.words, faulted := true, refused := true }
    let s := match l.table with
      | some e => deferredPush s e
      | none => s
    checkFinished s k l.die

/-! ## Acceptance (R164, R165, R277, R363) -/

/-- Launches that wait in a queue. -/
def queueLength (s : State) (die cls : Nat) : Nat :=
  (s.launches.filter fun (x : Nat × Launch) => x.2.die == die && x.2.cls == cls && x.2.waiting).length

/-- The serial `q` places after `inst0`: serials run from 1 to 2^24 − 1 and round again (R166, R408; log 42). -/
def serialAt (inst0 q : Nat) : Nat := (inst0 - 1 + q) % (2 ^ 24 - 1) + 1

/-- Serials of a context that are taken: those of its live instances, and INST0 of launches that have placed none. -/
def usedSerials (s : State) (ctx : Nat) : List Nat :=
  s.insts.filterMap (fun (x : Nat × Inst) => if x.2.ctx = ctx then some x.2.serial else none)
    ++ s.launches.filterMap fun (x : Nat × Launch) => if x.2.ctx = ctx ∧ x.2.next = 0 then some x.2.inst0 else none

/-- The first serial from `from_` on that is not taken, so that INST is unique among the live instances of its context
(R166). -/
def freeSerial (s : State) (ctx from_ : Nat) : Nat :=
  let used := usedSerials s ctx
  (((List.range (used.length + 1)).map (serialAt from_)).find? fun x => !used.contains x).getD from_

/-- A record that passes its checks enters the queue of its class; a full queue refuses it with PLACE_NOSPACE. Answers SEQ
and INST0 (log 42). -/
def queueRecord (s : State) (ctx : Nat) (addr : Word) (die : Nat) (ws : List Word) (table : Option Nat) : State × Nat × Nat :=
  let (k, s) := s.takeFresh
  let seq := (s.launchSeq + 1) % 2 ^ 32
  let inst0 := freeSerial s ctx (((aget ctx s.contexts).map fun c => c.serial).getD 1)
  let full := 16384 ≤ queueLength s die (recCls ws)
  let l : Launch := { addr, ctx, tenant := s.tenantOf ctx, cls := recCls ws, die, words := ws, seq, inst0, loaded := false
                      next := 0, live := [], status := 0, retries := 0, lastFault := 0, faulted := false, refused := false
                      table, defects0 := s.defects
                      reserved0 := s.tenants.filterMap fun (x : Nat × Tenant) => x.2.reserved.map fun r => (x.1, r)
                      info := ImageInfo.none }
  let s := { s with launches := aset k l s.launches, launchSeq := seq,
                    contexts := amod ctx (fun c => { c with serial := serialAt inst0 (instances ws) }) s.contexts }
  let s := writeRecord (s.note (.accept k)) ctx (addr + 0x60) (leBytes 8 (seq * 2 ^ 32 + inst0 * 2 ^ 8))
  (if full then refuseLaunch s k 0x41 else s, seq, inst0)

/-- A record as the scheduler read it is checked, then queued or marked malformed. `cls` is what a launch-table entry
asks. The answer is LAUNCH's T1; a malformed record has no SEQ and no INST0, whose fields are then free (log 8). -/
def acceptRecordWords (s : State) (ctx : Nat) (addr : Word) (die : Nat) (ws : List Word) (table cls : Option Nat) : State × Word :=
  if recordBad s (s.tenantOf ctx) ws || (cls.map fun c => c != recCls ws).getD false then
    ({ writeState s ctx addr 0x04 with fresh := s.fresh + 1 }, BitVec.ofNat 64 (Config.freeNat s.fresh % 2 ^ 56 * 2 ^ 8 + 0x04))
  else
    let (s, seq, inst0) := queueRecord s ctx addr die ws table
    (s, BitVec.ofNat 64 (seq * 2 ^ 32 + inst0 * 2 ^ 8))

/-- The die whose queue a window's launch enters: the lowest that DIEMASK permits (R363). -/
def windowDie (ws : List Word) : Nat := ((List.range 8).find? (dieAllowed ws)).getD 0

/-- A push of the host, of a successor or of the launch table accepted. One that cannot be read leaves a record in the
fault log (log 43). -/
def acceptPush (s : State) (p : Push) : State :=
  match readRecord s p.ctx p.addr p.sup with
  | (s, .error (c, fa)) =>
    let t := s.logFault c p.ctx (s.tenantOf p.ctx) 0 0 0 fa.toNat 0
    match p.from_ with
    | .table e => settleEntry t e
    | _ => t
  | (s, .ok ws) => match p.from_ with
    | .window _ _ => (acceptRecordWords s p.ctx p.addr (windowDie ws) ws none none).1
    | .table e =>
      settleEntry (acceptRecordWords s p.ctx p.addr p.die ws (some e) ((aget e s.table).map fun x => x.cls.toNat)).1 e
    | _ => (acceptRecordWords s p.ctx p.addr p.die ws none none).1

/-- A LAUNCH's push: the block's release at SYSTEM scope, then the acceptance and the binding in one step (R277). Stores that
the block itself holds, when they alone keep it back, enter first, at the block's binding (log 28). The read that the
translation of the record checked for the block (R288) is made in the same step, so that a record that it cannot read is the
launching block's fault (R165); after a binding for its own stores it is as R209 says of a fault after binding. -/
def acceptCtl (s : State) (n : Nat) (i : Nat) (p : Push) : State :=
  match (s.inst? i).bind fun x => x.ctl.blk with
  | none => { s with pushes := removeAt n s.pushes }
  | some b => match b.req with
    | some ⟨k, .launch addr, _⟩ =>
      if !sideReady s i b k then s
      else match readRecord s p.ctx addr p.sup with
        | (t, .error (c, fa)) =>
          if c = codeWait then s else refuseEither { t with pushes := removeAt n t.pushes } i k b c fa
        | (t, .ok ws) =>
          let u := bindBlock t i
          if ctlReleaseClear u i .system then
            let (u, v) := acceptRecordWords { u with pushes := removeAt n u.pushes } p.ctx addr p.die ws none none
            answer u i k (some v)
          else if ctlReleaseClear t i .system then u
          else s
    | _ => { s with pushes := removeAt n s.pushes }

/-- The read of a push's record has to wait for a walker (R31). -/
def readWaits (s : State) (p : Push) : Bool :=
  match readRecord s p.ctx p.addr p.sup with
  | (_, .error (c, _)) => c == codeWait
  | (_, .ok _) => false

/-- LAUNCH_ACCEPT (R164, R165, R277, R363): push `n` of those that wait. Nothing is accepted while the scheduler is lost
(R404). -/
def execLaunchAccept (n : Nat) (s : State) : Host.Outcome State Fault Refusal :=
  match s.pushes[n]? with
  | none => .next s
  | some p =>
    if schedPaused s || readWaits s p then .next s
    else match p.from_ with
      | .ctl i => .next (acceptCtl s n i p)
      | _ => .next (acceptPush { s with pushes := removeAt n s.pushes } p)

/-- LAUNCH (R277): alignment and translation of the record, then its request goes to the scheduler. -/
def execLaunch (f : EOp) (s : State) : Host.Outcome State Fault Refusal :=
  fireOp 0x98 (.e f) s fun fr =>
    match slotXlate s fr .virt fr.l 128 64 (loadAccess fr.n) with
    | .stop s => s
    | .ok s _ =>
      if fr.b.req.isSome then putRequest s fr (.launch fr.l)
      else
        let p : Push := ⟨.ctl fr.i, fr.n.ctx, fr.l, fr.n.ctl.cur, dieOfCore fr.n.cluster⟩
        { putRequest s fr (.launch fr.l) with pushes := s.pushes ++ [p] }

/-! ## IMAGE_LOAD (R360, R361) -/

/-- IMAGE_LOAD: the image of launch `l`. A record that the load has relocated is checked again (R165). A lost scheduler loads
nothing (R404). -/
def execImageLoad (l : Nat) (s : State) : Host.Outcome State Fault Refusal :=
  match aget l s.launches with
  | none => .next s
  | some x =>
    if schedPaused s || x.loaded || !x.waiting then .next s
    else
      let image := (launchImage s schedDie x.ctx x.addr x.words).getD 0
      let failed := fun (s : State) (step : Nat) => s.logFault 0xFC x.ctx x.tenant x.die 0 x.inst0 image.toNat step
      let (t, ws, e) := loadImage s schedDie x.ctx x.tenant x.addr x.words
      let s0 := s
      let s := t.modLaunch l fun x => { x with words := ws }
      match e with
      | .wait => .next s0
      | .ok info =>
        .next (if recordBad s x.tenant ws then refuseLaunch s l 0x04
               else s.modLaunch l fun x => { x with loaded := true, info })
      | .failed k => .next (refuseLaunch (failed s k) l 0x04)
      | .unfit => .next (refuseLaunch s l 0x04)
      | .refused st => .next (refuseLaunch (if st = 0x43 then failed s 2 else s) l st)

/-! ## Channels of an instance (R60 to R65) -/

/-- The buffers that live channels have in a reserve: offset and bytes. -/
def buffersIn (s : State) (war : Bool) (place : Nat) : List (Nat × Nat) :=
  s.chans.flatMap fun (x : Nat × Chan) =>
    (if x.2.hwar = war ∧ x.2.hclu = place then [(x.2.hbase, x.2.hcap * x.2.width)] else [])
      ++ if x.2.twar = war ∧ x.2.tclu = place then [(x.2.tbase, x.2.tcap * x.2.width)] else []

/-- The lowest offset at which `n` bytes fit in a reserve beside the buffers in use. A reserve is the top of its cabinet or
wardrobe (log 81). -/
def bufferSpot (s : State) (war : Bool) (place n : Nat) (used : List (Nat × Nat)) : Option Nat :=
  let top := reserveTop war
  let base := top - s.reserveSize war place
  let free := fun (o : Nat) => o + n ≤ top && used.all fun u => !overlap o n u.1 u.2
  (((base :: used.map fun u => u.1 + u.2).filter free).foldl (fun (b : Option Nat) o => some (min o (b.getD o))) none)

/-- An endpoint as declared, for the launching instance (R62, R64). -/
def endpointOf (e i : Nat) : Endpoint :=
  match bits e 31 30 with
  | 1 => .ctl i
  | 2 => .port i (bits e 29 25)
  | _ => .opened

/-- The scope of a code; codes 6 and 7 do not pass the checks. -/
def scopeCode (c : Nat) : Scope := [Scope.core, .region, .cluster, .die, .module, .system].getD c .system

/-- The entry that a declaration gives an instance's new channel on a core, with GEN `gen` (R63). -/
def declaredChan (i ctx core gen : Nat) (d : Word × List Word) : Chan :=
  let w := fun k => (d.2.getD k 0).toNat
  let hwar := bits (w 0) 39 38 == 2
  let twar := bits (w 0) 41 40 == 2
  { valid := true, state := .opened, stall := false, stallRead := false, rfull := false, grow := false, comp := false
    gen := BitVec.ofNat 8 gen, ctx, scope := scopeCode (bits (w 0) 37 35), width := tokenWidth (bits (w 0) 34 32)
    thresh := bits (w 0) 45 42, lost := 0, writer := endpointOf (bits (w 3) 31 0) i, reader := endpointOf (bits (w 3) 63 32) i
    hcap := bits (w 1) 15 0, tcap := bits (w 1) 31 16, hwar, twar
    hclu := if hwar then dieOfCore core else core, tclu := if twar then dieOfCore core else core, hbase := 0, tbase := 0, rbase := d.2.getD 2 0
    ringpg := bits (w 1) 47 32, ringmax := bits (w 1) 63 48, head := [], ring := [], tail := [], resv := [], late := []
    rdoff := 0, wroff := 0 }

/-- A channel with its head and tail buffers in their reserves (R65); none when one of them does not fit. -/
def takeBuffers (s : State) (c : Chan) : Option Chan :=
  (bufferSpot s c.hwar c.hclu (c.hcap * c.width) (buffersIn s c.hwar c.hclu)).bind fun h =>
    let mine := if c.twar = c.hwar ∧ c.tclu = c.hclu then [(h, c.hcap * c.width)] else []
    (bufferSpot s c.twar c.tclu (c.tcap * c.width) (mine ++ buffersIn s c.twar c.tclu)).map fun t => { c with hbase := h, tbase := t }

/-- A channel created for an instance on a core (R63 to R65; log 44); none when an entry or a buffer does not fit. -/
def createChan (s : State) (i ctx core : Nat) (d : Word × List Word) : Option (State × Word) :=
  let die := dieOfCore core
  match (List.range 4096).find? fun x => (aget (die * 4096 + x) s.chans).isNone with
  | none => none
  | some x =>
    let key := die * 4096 + x
    let c := declaredChan i ctx core (agetD 0 key s.gens).toNat d
    (takeBuffers s c).map fun c => ({ s with chans := aset key c s.chans }, chanHandle key c)

/-- The channels of an image, in table order, with their handle words written. -/
def createChans (i ctx core : Nat) (s : State) (ds : List (Word × List Word)) : Option State :=
  ds.foldl (fun o d => o.bind fun s => (createChan s i ctx core d).map fun x =>
    writeRecord x.1 ctx d.1 (leBytes 8 x.2.toNat)) (some s)

/-! ## INSTANCE_PLACE (R103, R166 to R171, R364) -/

/-- FEs given to a new region: nothing of an earlier one is live in them, no nest of theirs is current (R328), and every
generator class begins anew (R331). -/
def freshFes (s : State) (r : Rect) : State :=
  (rectCells r).foldl (fun s x => s.modFe (feIndex x.1 x.2) fun f => { f with
    live := false, stoch := false, parkedFor := none, claimedAt := none
    core := { f.core with seed := FeCore.fresh.seed, idx := FeCore.fresh.idx } }) s

/-- A route record that no ROUTE_FIELD item moves, in coordinates relative to a rectangle; none when it lies before it (R356). -/
def relativeRoute (r : Rect) (w : Word) : Option Word :=
  if r.col0 ≤ bits w.toNat 47 39 ∧ r.row0 ≤ bits w.toNat 38 32 then some (w - BitVec.ofNat 64 (r.col0 * 2 ^ 39 + r.row0 * 2 ^ 32)) else none

/-- The route records of a place's pattern, relative to its rectangle: the placement copy of those with a ROUTE_FIELD item is at
the same relative place everywhere (R356, R358, R362). -/
def routesOf (info : ImageInfo) (p : Spot) : List Word :=
  let mine := fun (w : Word) => bits w.toNat 63 48 == p.pattern
  (info.routes.filter mine) ++ (info.absRoutes.filter mine).filterMap (relativeRoute (p.rect.getD ⟨0, 0, 0, 0⟩))

/-- A set entry's ranges meet a cluster of a rectangle: relocated to its origin when a CTX_ID item names the entry, else as they
stand (R356, R362). -/
def entryMeets (e : Nat) (moved : Bool) (r : Rect) (core : Nat) : Bool :=
  (relCells r).any fun x =>
    let at_ := if moved then x else (r.col0 + x.1, r.row0 + x.2)
    rectCore r x.1 x.2 == core && bits e 47 39 ≤ at_.1 && at_.1 ≤ bits e 38 30 && bits e 29 23 ≤ at_.2 && at_.2 ≤ bits e 22 16

/-- The entries of a set that stands at `addr`, each with whether a CTX_ID item moves it. -/
def setEntries (info : ImageInfo) (addr : Word) (set : List Word) : List (Nat × Bool) :=
  (indexed 1 (set.drop 1)).map fun e => (e.2.toNat, info.ctxIds.contains (addr + BitVec.ofNat 64 (8 * e.1)))

/-- An item of the image sent to a store by the loader, at level S. One that is absent or cannot be read is not sent; the
fill of R296 meets it later (log 101). -/
def sendItem (s : State) (n : Inst) (info : ImageInfo) (core kind id : Nat) : State :=
  match searchSecs s (moduleAccess false) n kind id info.ctx with
  | (s, .found ws) => keepItem s core n.ctx kind id ws
  | (s, _) => s

/-- A set sent to the clusters that its relocated ranges meet, with the contexts that its entries name there (R362). -/
def sendSet (s : State) (n : Inst) (info : ImageInfo) (r : Rect) (id : Nat) : State :=
  match itemAddr s (moduleAccess false) n 1 id info.ctx with
  | (s, .ok (some addr)) => match fillItem s (moduleAccess false) n 1 addr with
    | (s, .found set) => (rectCores r).foldl (fun s core =>
        match (setEntries info addr set).filter fun e => entryMeets e.1 e.2 r core with
        | [] => s
        | es => ((es.map fun e => bits e.1 63 48).dedup.filter (fun c => c != 0)).foldl
            (fun s c => sendItem s n info core 0 c) (keepItem s core n.ctx 1 id set)) s
    | (s, _) => s
  | (s, _) => s

/-- Step 4 of R168 (R171, R362): the sets that the variant uses go to the configuration stores. -/
def sendSets (s : State) (n : Inst) (info : ImageInfo) (p : Spot) : State :=
  match p.rect with
  | some r => ((info.sets.map fun c => (c + p.setoff) % 65536).dedup).foldl (fun s id => sendSet s n info r id) s
  | none => s

/-- A region placed under a variant. -/
def regionAt (info : ImageInfo) (p : Spot) : Option Region :=
  p.rect.map fun r => Region.fresh r p.variant p.setoff (routesOf info p)

/-- The default vector base of a context (R416). -/
def vecDefault (s : State) (ctx : Nat) : Word := ((aget ctx s.contexts).map fun c => c.vecDefault).getD 0

/-- The placement record of an instance (R171). -/
def placeRec (s : State) (key serial ctx cls : Nat) (p : Spot) : PlaceRec :=
  let r := p.rect.getD ⟨0, 0, 0, 0⟩
  { key, inst := serial, ctx, cls, col0 := r.col0, row0 := r.row0, w := r.w, h := r.h, variant := p.variant, sig := p.sig,
    core := p.core, slot := p.slot, tai := s.now }

/-- An instance starts in its place: the start is an acquire at SYSTEM scope, and the core's data cache is invalidated
(R103). Firmware creates the image's channels for it. -/
def startInst (s : State) (k : Nat) (l : Launch) (q : Nat) (p : Spot) : Option State :=
  let (i, s) := s.takeFresh
  let serial := if q = 0 then l.inst0 else freeSerial s l.ctx (serialAt l.inst0 q)
  let n : Inst := { serial, ctx := l.ctx, launch := k, pos := q, wid := widAt l.words q, cluster := p.core
                    slot := p.slot, life := .running, ctl := Ctl.fresh (recEntry l.words) (vecDefault s l.ctx)
                    reg := regionAt l.info p, faultEnd := none, discard := false, regDone := false, saveFrom := 0, bytes := 0
                    placedAt := s.cycle, kept := [] }
  let s := match p.rect with
    | some r => freshFes s r
    | none => s
  let s := { sendSets s n l.info p with insts := aset i n s.insts }
  let s := (s.modCore p.core fun c => { c with cache := [] }).note (.place (placeRec s i serial l.ctx l.cls p))
  let s := s.modLaunch k fun l => { l with next := q + 1, live := l.live ++ [i] }
  createChans i l.ctx p.core s l.info.chans

/-- The members of a unit start together; the record's STATE becomes running. -/
def startUnit (k : Nat) (l : Launch) : State → Nat → List Spot → Option State
  | s, _, [] => some s
  | s, q, p :: ps =>
    match startInst s k l q p with
    | none => none
    | some s => startUnit k l s (q + 1) ps

/-- Arrays that a placement grants are still in retention, or entering or leaving it: the shelves of its FEs, and slices under
the buffers of its new channels (R52). -/
def grantsAsleep (s t : State) (ps : List Spot) : Bool :=
  ps.any (fun p => ((p.rect.map rectCells).getD []).any fun x => s.asleep (shelfKey (feIndex x.1 x.2) 0))
    || t.chans.any fun (x : Nat × Chan) => (aget x.1 s.chans).isNone
      && ((x.2.bufferArrays).any fun a => s.retention.any fun r => r.1 == a)

/-- The unit at the head of launch `k` placed, when places are found, its turn has come and the leaves there can be commanded
(R402). -/
def placeUnit (s : State) (k : Nat) (l : Launch) : State :=
  let b := boardOf s false fun _ => false
  match neverStatus s l with
  | some st => refuseLaunch s k st
  | none =>
    if !turnOk s b l.tenant l.die l.cls then s
    else match findUnit s b (askOf l false) with
      | none => s
      | some ps =>
        let leaves := (ps.flatMap fun p => leavesAt p.core p.rect).dedup
        if !canCommand s leaves then s
        else
        let t := commandAll (serve s l.tenant l.die l.cls ps.length) leaves (.place k)
        let t := if l.next = 0 then writeState t l.ctx l.addr 0x01 else t
        match startUnit k l t l.next ps with
        | some t => if grantsAsleep s t ps then s else t
        | none => refuseLaunch s k 0x41

/-- INSTANCE_PLACE (R168, R364): launch `l`, when it stands at the head of its tenant's queue in its class. -/
def execInstancePlace (l : Nat) (s : State) : Host.Outcome State Fault Refusal :=
  match aget l s.launches with
  | none => .next s
  | some x =>
    if !schedPaused s && x.loaded && x.waiting && headLaunch s x.tenant x.cls == some l && (savedOf s x.tenant x.cls).isEmpty && !queueStopped s x then
      .next (placeUnit s l x)
    else .next s

/-! ## DONE_ARRIVAL (R58, R103, R172, R418) -/

/-- FEs released by an instance: no context of its identifiers stays in their slots. -/
def releaseFes (s : State) (cells : List Nat) : State :=
  cells.foldl (fun s x => s.modFe x fun f =>
    { f with slots := List.replicate 8 [], run := none, ring := [], qa := [], qb := [], qc := [], si := [], snaps := []
             live := false, stoch := false, parkedFor := none, claimedAt := none }) s

/-- The time that a region held another tenant's reserved FEs ends (R367). -/
def endBorrow (s : State) (n : Inst) : State :=
  match n.rect with
  | none => s
  | some r => { s with tenants := s.tenants.map fun (x : Nat × Tenant) =>
      if x.1 != s.tenantOf n.ctx && (x.2.reserved.map fun o => rectMeets o r).getD false then
        (x.1, { x.2 with borrowed := (n.placedAt, s.cycle) :: x.2.borrowed.filter fun y => s.cycle - borrowWindow < y.2 })
      else x }

/-- FEs that an instance holds or has parked. -/
def fesOf (s : State) (i : Nat) (n : Inst) : List Nat :=
  if n.life = .saved then s.fes.filterMap fun (x : Nat × Fe) => if x.2.parkedFor == some i then some x.1 else none
  else ((n.rect.map rectCells).getD []).map fun c => feIndex c.1 c.2

/-- An instance is gone. -/
def removeInst (s : State) (i : Nat) (n : Inst) : State :=
  let s := if n.life = .saved then s else endBorrow s n
  let s := releaseFes s (fesOf s i n)
  { s with insts := adel i s.insts, reports := s.reports.filter (fun j => j != i), detect := s.detect.filter fun j => j != i }

/-- Flags of an instance's status (R57, R58). -/
def instFlags (n : Inst) : Nat :=
  let b := fun (f : Region → Bool) => (n.reg.map f).getD false
  (if b (fun r => r.retried) then 1 else 0) + (if b (fun r => r.dataErr) then 2 else 0) + (if n.faultEnd.isSome then 8 else 0)

/-- An instance arrives (R172): at DONE, or into its launch's merged status; then it is gone. -/
def arriveInst (s : State) (i : Nat) : State :=
  match s.inst? i with
  | none => s
  | some n =>
    let flags := instFlags n
    let retries := (n.reg.map fun r => r.retries).getD 0
    let code := n.faultEnd.getD 0
    match aget n.launch s.launches with
    | none => removeInst s i n
    | some l =>
      let s := if recOnce l.words then s else doneArrive s l flags retries code
      let s := s.modLaunch n.launch fun l =>
        { (if recOnce l.words then l.merge flags retries code else l) with
          live := l.live.filter (fun j => j != i), faulted := l.faulted || n.faultEnd.isSome }
      checkFinished (removeInst s i n) n.launch (dieOfCore n.cluster)

/-- An instance has completed by HALT (R172, R243), or has ended. -/
def Inst.over (n : Inst) : Bool := n.life == .ended || n.completed

/-- The outbound sets of an instance's context and region are empty (R103). -/
def outboundEmpty (s : State) (i : Nat) : Bool := (s.outbOf (.ctl i)).isEmpty && (s.outbOf (.region i)).isEmpty

/-- DONE_ARRIVAL (R58, R103, R172). An instance under reset arrives when its reset completes (R116). -/
def execDoneArrival (i : Nat) (s : State) : Host.Outcome State Fault Refusal :=
  match s.inst? i with
  | none => .next s
  | some n =>
    .next (if n.over && outboundEmpty s i && !s.resets.any (fun r => r.insts.contains i) then arriveInst s i else s)

/-! ## Queue-level reset (R116, R278, R400) -/

/-- What an instance's context leaves behind at the channels and the scheduler when it stops. -/
def dropRequests (s : State) (i : Nat) : State :=
  { s with
    chans := s.chans.map fun (x : Nat × Chan) => (x.1, { x.2 with resv := x.2.resv.filter fun y => y.1 != i })
    pushes := s.pushes.filter fun p => p.from_ != PushFrom.ctl i }

/-- A saved instance that ends has no place of its own: neither FEs nor a context slot. -/
def Inst.vacate (n : Inst) : Inst := { n with reg := n.reg.map (fun r => { r with rect := ⟨0, 0, 0, 0⟩ }), slot := 4 }

/-- The instance's block is bound: it commits (R82, R424). -/
def Inst.blockBound (n : Inst) : Bool := (n.ctl.blk.map fun b => b.bound).getD false

/-- The instance's block has neither bound nor a request that is undecided: it may end (R82, R424). -/
def Inst.settled (n : Inst) (s : State) (i : Nat) : Bool :=
  match n.ctl.blk with
  | some b => !b.bound && !undecided s i b
  | none => true

/-- A restore's request for leave is withdrawn. -/
def dropRestore (s : State) (i : Nat) : State :=
  { s with leaves := s.leaves.filter fun q => q.2.for_ != LeaveFor.restore i }

/-- STATE 0x05 in the header of an instance that is saved or being saved (R400). -/
def resetHeader (s : State) (n : Inst) : State :=
  if n.life = .saved ∨ n.life = .saving then
    match aget n.launch s.launches with
    | some l => writeRecord s n.ctx (recSave l.words + BitVec.ofNat 64 (65536 * (1 + recW l.words * recH l.words) * n.pos + 0x0F)) [0x05]
    | none => s
  else s

/-- An instance stops under a reset (steps 1 and 2 of R116): its region as under DISCARD; its pending faults are dropped, and
its context stops with its unbound block discarded, or, with a bound block or an undecided request, once that has committed or
been refused (R82, R424). A saved one is ended with nothing restored, and what its restore was granted goes back (R376, R400).
One that has completed only has to arrive. -/
def resetInst (s : State) (i : Nat) : State :=
  match s.inst? i with
  | none => s
  | some n =>
    if n.over then s
    else
      let s := dropRestore (stopRegion (resetHeader s n) i) i
      if !n.settled s i then s.modInst i fun x => { x with
        life := .stopping, discard := true, regDone := true, saveFrom := s.cycle, ctl := { x.ctl with async := [] } }
      else
        let s := dropRequests (discardBlock s i) i
        let s := releaseFes s (if n.life = .saved then fesOf s i n else [])
        s.modInst i fun x => { (if n.life = .saved then x.vacate else x) with
          life := .ended, faultEnd := some 0x29, ctl := { x.ctl with blk := none, due := none, async := [], wait := [] } }

/-- DIEMASK with 0 as every die. -/
def fullMask (m : Nat) : Nat := if m = 0 then 0xFF else m

/-- The instances that a reset covers. -/
def resetCovers (s : State) (tenant cls mask : Nat) (issuer : Option Nat) : List Nat :=
  s.insts.filterMap fun (x : Nat × Inst) => match aget x.2.launch s.launches with
    | some l => if l.tenant == tenant && l.cls == cls && bit mask l.die && issuer != some x.1 then some x.1 else none
    | none => none

/-- The launches of the queue with instances not yet placed. -/
def resetLaunches (s : State) (tenant cls mask : Nat) : List Nat :=
  s.launches.filterMap fun (x : Nat × Launch) =>
    if x.2.tenant == tenant && x.2.cls == cls && bit mask x.2.die && x.2.waiting then some x.1 else none

/-- A reset starts for instances and launches. -/
def beginReset (s : State) (tenant cls mask : Nat) (issuers insts launches : List Nat) (table : Option Nat) : State × Nat :=
  let serial := (s.resetSerial + 1) % 2 ^ 32
  let r : Reset := { serial, tenant, cls, diemask := mask, issuers, insts, launches, table }
  let s := { s with resetSerial := serial, resets := s.resets ++ [r] }
  (insts.foldl resetInst (commandAll (s.note (.reset serial)) (leavesOf s insts) (.reset serial)), serial)

/-- The reset that a request joins (R278). -/
def joins (s : State) (tenant cls mask : Nat) : Option Reset :=
  s.resets.find? fun r => r.table.isNone && r.tenant == tenant && r.cls == cls && r.diemask == mask

/-- A reset can be started now, or joined: every leaf that it stops something at can be commanded (R402). -/
def mayReset (s : State) (tenant cls mask : Nat) (issuer : Option Nat) : Bool :=
  (joins s tenant cls mask).isSome || canCommand s (leavesOf s (resetCovers s tenant cls mask issuer))

/-- A queue's reset started or joined (R278): its serial. -/
def startReset (s : State) (tenant cls mask : Nat) (issuer : Option Nat) : State × Nat :=
  match joins s tenant cls mask with
  | some r =>
    ({ s with resets := s.resets.map fun x => if x.serial = r.serial then { x with issuers := x.issuers ++ issuer.toList } else x }, r.serial)
  | none =>
    beginReset s tenant cls mask issuer.toList (resetCovers s tenant cls mask issuer) (resetLaunches s tenant cls mask) none

/-- QRESET (R278). -/
def execQreset (f : EOp) (s : State) : Host.Outcome State Fault Refusal :=
  fireOp 0x99 (.e f) s fun fr =>
    let w := fr.l.toNat
    let bad := bits w 63 16 != 0 || bits w 3 2 != 0 || bits w 7 4 != s.tenantOf fr.n.ctx
    if !sideReady s fr.i fr.b fr.k || (!bad && !mayReset s (bits w 7 4) (bits w 1 0) (fullMask (bits w 15 8)) (some fr.i)) then
      s.modSlot fr.i fr.k fun r => { r with st := .blocked }
    else
      let s := bindBlock s fr.i
      if bad then fr.done s [f.t1] (BitVec.twoPow 64 63)
      else
        let (s, serial) := startReset s (bits w 7 4) (bits w 1 0) (fullMask (bits w 15 8)) (some fr.i)
        let s := s.modCtl fr.i fun c => { c with resetStat := c.resetStat ||| BitVec.twoPow 64 63 }
        fr.done s [f.t1] (BitVec.ofNat 64 serial)

/-- A region's committed tokens whose release is dropped: they stand in their channels, and are receivable (R82). -/
def readyTokens (s : State) (i : Nat) : State :=
  (s.chans.filter fun (x : Nat × Chan) => x.2.late.any fun t => t.inst == i && !t.ready).foldl (fun s (x : Nat × Chan) =>
    settleChan (s.modChan x.1 fun c => { c with late := c.late.map fun t => if t.inst = i then { t with ready := true } else t }) x.1) s

/-- The loads of the lane groups without those of an instance; a read of the host or a peer for one goes with it. -/
def dropLoads (s : State) (gone : XtLoad → Bool) : State :=
  let head := fun (g : Nat) => (((aget g s.lanes).bind fun l => l.loads.head?).map gone).getD false
  { s with
    lanes := s.lanes.map fun (x : Nat × LaneGroup) => (x.1, { x.2 with loads := x.2.loads.filter fun y => !gone y })
    outReads := s.outReads.filter fun q => match q.for_ with
      | .image g => !head g
      | _ => true }

/-- A walk is asked for by an instance. -/
def WalkFor.ofInst (i : Nat) : WalkFor → Bool
  | .fetch j => j == i
  | .slot j _ => j == i
  | .source j _ => j == i
  | .sink j _ => j == i

/-- Nothing tagged with an instance is in flight any more (step 3 of R116): what has not performed is dropped, the engines'
writes for it included, those of completed records too. -/
def dropInFlight (s : State) (i : Nat) : State :=
  let mine := s.recs.filter fun (x : Nat × Rec) => x.2.inst == i
  let s := mine.foldl (fun s (x : Nat × Rec) => dropRecord s x.1 x.2 true) s
  let s := dropWalks { s with
    outb := s.outb.filter fun o => o.agent != .ctl i && o.agent != .region i && o.inst != i } fun w => w.by_.ofInst i
  readyTokens (dropLoads s fun y => y.inst == i) i

/-- A queue's tag is one that a queue-level reset names. -/
def Reset.names (r : Reset) (queue : Nat) : Bool :=
  r.table.isNone && queue != 0 && (queue - 1) / 8 == r.tenant * 4 + r.cls && bit r.diemask ((queue - 1) % 8)

/-- What is in flight of the queue's instances that arrived before the reset (step 3 of R116) is dropped too. -/
def dropQueue (s : State) (r : Reset) : State :=
  let gone := fun (i queue : Nat) => r.names queue && (s.inst? i).isNone
  let old := s.recs.filter fun (x : Nat × Rec) => gone x.2.inst x.2.queue
  let s := old.foldl (fun s (x : Nat × Rec) => dropRecord s x.1 x.2 true) s
  dropLoads { s with outb := s.outb.filter fun o => !gone o.inst o.queue } fun y => gone y.inst y.queue

/-- The instances of a reset launch that were never placed arrive with QUEUE_RESET (step 4). -/
def resetUnplaced (s : State) (k : Nat) : State :=
  match aget k s.launches with
  | none => s
  | some l =>
    let left := instances l.words - l.next
    let s := if recOnce l.words then s else arriveTimes s l 0x29 left
    let s := s.modLaunch k fun l =>
      { (if recOnce l.words then l.merge 8 0 0x29 else l) with next := instances l.words, faulted := true }
    checkFinished s k l.die

/-- The report to a context that issued or joined (R278): RESETSTAT and the RESET event; a saved one receives both at its
restore (R396). -/
def reportReset (s : State) (serial i : Nat) : State :=
  let more := s.resets.any fun r => r.serial != serial && r.issuers.contains i
  let v := BitVec.ofNat 64 ((if more then 2 ^ 63 else 0) + serial)
  let s := match s.inst? i with
    | some n => if n.life = .saved then s.modInst i fun n => { n with kept := n.kept ++ [.report v] }
                else s.modCtl i fun c => { c with resetStat := v }
    | none => s
  postEvent s i evReset

/-- Every instance that a reset covers has stopped. -/
def resetStopped (s : State) (r : Reset) : Bool :=
  r.insts.all fun i => match s.inst? i with
    | some n => n.over
    | none => true

/-- QUEUE_RESET_COMPLETE (R116, steps 3 to 5; R374), once every covered context has stopped: one whose bound block has
committed meanwhile stops now. -/
def execQueueResetComplete (serial : Nat) (s : State) : Host.Outcome State Fault Refusal :=
  match s.resets.find? fun r => r.serial == serial with
  | none => .next s
  | some r =>
    let s := r.insts.foldl resetInst s
    if !resetStopped s r then .next s
    else
    let s := dropQueue (r.insts.foldl dropInFlight s) r
    let s := r.insts.foldl arriveInst s
    let s := r.launches.foldl resetUnplaced s
    let s := (r.issuers.dedup).foldl (fun s i => reportReset s serial i) s
    let s := { s with resets := s.resets.filter fun x => x.serial != serial }
    .next (match r.table with
      | some e => tablePush { s with table := amod e (fun x => { x with replace := false }) s.table } e
      | none => s)

/-! ## The launch table (R372 to R374) -/

/-- The first k whose T_k is at or after a time. -/
def LtEntry.firstK (e : LtEntry) (now : Nat) : Nat :=
  if now ≤ e.start.toNat then 0
  else if e.period = 0 then 1
  else ceilDiv (now - e.start.toNat) e.period.toNat

/-- The entry with the fields of a written W3 (RO and RSV fields aside). -/
def LtEntry.fields (e : LtEntry) (w3 : Word) : LtEntry :=
  let w := w3.toNat
  { e with rule := BitVec.ofNat 2 (bits w 62 61), cls := BitVec.ofNat 2 (bits w 59 58), ctx := BitVec.ofNat 8 (bits w 55 48)
           die := BitVec.ofNat 3 (bits w 47 45) }

/-- W0 to W2 written while the entry is not armed (R372); a write to the reserved bits of W2 has no effect (R9). -/
def LtEntry.setWord (e : LtEntry) (k : Nat) (v : Word) : LtEntry :=
  if e.valid then e
  else match k with
    | 0 => { e with start := v }
    | 1 => { e with period := v }
    | _ => { e with record := top58 v }

/-- The arming is refused (R372): a reserved field of the written word is nonzero, or RULE or PERIOD is not allowed. -/
def armBad (e : LtEntry) (w3 : Word) : Bool :=
  let w := w3.toNat
  bits w 57 56 != 0 || bits w 44 32 != 0 || bits w 62 61 == 3 || (1 ≤ e.period.toNat && e.period.toNat ≤ 9999)

/-- W3 written with VALID = 1 (R372, R430). -/
def armEntry (s : State) (entry : Nat) (w3 : Word) : State :=
  let e := (agetD LtEntry.fresh entry s.table).fields w3
  if armBad e w3 then
    { s with table := aset entry { e with valid := false, deferred := false } s.table }.logFault 0xF5 e.ctx.toNat
      (s.tenantOf e.ctx.toNat) 0 0 0 entry w3.toNat
  else { s with table := aset entry { e with valid := true, deferred := false, skips := 0, nextK := e.firstK s.now, jump := none } s.table }

/-- W3 written with VALID = 0 (R372). -/
def disarmEntry (s : State) (entry : Nat) (w3 : Word) : State :=
  { s with table := aset entry { ((agetD LtEntry.fresh entry s.table).fields w3) with valid := false, deferred := false } s.table }

/-- A running entry's launch can be reset now (R402). -/
def mayReplace (s : State) (e : Nat) : Bool :=
  match (entryLaunch s e).bind fun k => aget k s.launches with
  | some l => canCommand s (leavesOf s l.live)
  | none => true

/-- The reset of a running launch's instances alone (R374). -/
def replaceReset (s : State) (e : Nat) : State :=
  match entryLaunch s e with
  | none => s
  | some k => match aget k s.launches with
    | none => s
    | some l =>
      let s := { s with table := amod e (fun x => { x with replace := true }) s.table }
      (beginReset s l.tenant l.cls 0 [] l.live (if l.waiting then [k] else []) (some e)).1

/-- An overrun at T_k (R374); REPLACE while its reset runs adds nothing (log 45). -/
def overrun (s : State) (e : Nat) (x : LtEntry) : State :=
  let s := s.raiseMsix 1
  match x.rule.toNat with
  | 0 => { s with table := amod e (fun x => { x with skips := x.skips + 1 }) s.table }
  | 1 => { s with table := amod e (fun x => if x.deferred then { x with skips := x.skips + 1 } else { x with deferred := true }) s.table }
  | _ => if x.replace then s else replaceReset s e

/-- An entry once its next T_k has been served: those that the step at first lock passed over are left out (R373). -/
def LtEntry.passed (e : LtEntry) : LtEntry :=
  match e.jump with
  | some (a, b) => if e.nextK + 1 = a then { e with nextK := b, jump := none } else { e with nextK := e.nextK + 1 }
  | none => { e with nextK := e.nextK + 1 }

/-- LAUNCH_TABLE_FIRE (R373, R374): NOW has reached the entry's next T_k. -/
def execLaunchTableFire (entry : Nat) (s : State) : Host.Outcome State Fault Refusal :=
  match aget entry s.table with
  | none => .next s
  | some x =>
    let replaces := entryRuns s entry && x.rule == 2 && !x.replace
    if schedPaused s || !x.valid || (x.period == 0 && x.nextK != 0) || s.now < x.at x.nextK || (replaces && !mayReplace s entry) then .next s
    else
      let s := { s with table := aset entry x.passed s.table }
      .next (if entryRuns s entry then overrun s entry x else tablePush s entry)

end Sys2Proof.Machine
end

