-- ==== Sys2Proof/Machine/Firmware.lean ====
section
/-! DEFINITION. Firmware (R13, R66, R129, R369 to R371, R387, R401 to R406, R416): bring-up, contexts, grants, tables, the
packet calendar, the scheduler's heartbeat, its standby, and the commands to the leaf controllers. -/

namespace Sys2Proof.Machine

open Sys2Proof.Bits

/-! ## Bring-up (R405, R406) -/

/-- The boot ROM runs an image: both signatures verify and its version is not below the fused counter (R405). -/
def imageOk (rollback : Nat) (x : FwImage) : Bool := x.rsaOk && x.slhOk && rollback ≤ x.version

/-- The images that bring-up needs (R405). -/
def fwRoles : List FwRole := [.scheduler, .leaf, .hbmTraining, .ucieTraining, .timeBase]

/-- Every image is there and runs (R405). -/
def firmwareOk (b : BringUpInput) : Bool :=
  b.images.all (imageOk b.rollback) && fwRoles.all fun r => b.images.any fun x => x.role == r

/-- Physical columns of a cluster that hold a defective FE (R2). -/
def badColumns (defects : List Nat) (core : Nat) : List Nat :=
  (List.range 9).filter fun c => (List.range 8).any fun w => defects.contains ((core * 9 + c) * 8 + w)

/-- The physical column that a cluster leaves out: the one with a defective FE, the spare column 8 with none. With several,
one of them (DESIGN CHOICE, log 123). -/
def sparedColumn (defects : List Nat) (core : Nat) : Nat :=
  match badColumns defects core with
  | [] => 8
  | [c] => c
  | cs => cs.getD (Config.spareChoice core cs % cs.length) 8

/-- The logical defect map (R2, R406): the columns past the one left out shift by one. -/
def logicalDefects (b : BringUpInput) : List Nat :=
  (b.defects.filterMap fun x =>
    let core := x / 72
    let c := x / 8 % 9
    let spared := sparedColumn b.defects core
    if 768 ≤ core ∨ c = spared then none
    else
      let k := if c < spared then c else c - 1
      some (feIndex (dieOfCore core % 4 * 96 + core % 96 % 12 * 8 + k) (dieOfCore core / 4 * 64 + core % 96 / 12 * 8 + x % 8))).dedup

/-- A boundary module after its training (R144, R406). -/
def trainLink (s : State) (x : Nat × BitVec 64) : State :=
  if linkExists x.1 then
    let (w, half) := widthAfter LinkDir.fresh x.2
    let put := fun (d : LinkDir) => { d with width := w, half }
    (s.modLink x.1 put).modLink (linkBack x.1) put
  else s

/-- The module after step 7: memory and tables cleared, the defect map and the links as found. -/
def broughtUp (s : State) (b : BringUpInput) : State :=
  let t : State := { State.reset with
    agenda := s.agenda, cur := s.cur, fresh := s.fresh, bringup := .up, cycle := s.cycle, time := s.time
    defects := logicalDefects b
    fw := { State.reset.fw with lastBeat := s.cycle, rollback := b.rollback } }
  b.links.foldl trainLink t

/-- BRING_UP (R405, R406): an image that is missing or does not verify stops it at step 1. -/
def execBringUp (b : BringUpInput) (s : State) : Host.Outcome State Fault Refusal :=
  if s.bringup ≠ .off then .next s
  else if firmwareOk b then .next (broughtUp s b)
  else .next { s with bringup := .failed 1 }

/-! ## Contexts (R13, R14, R66, R129) -/

/-- A window of a die's cabinets covers nothing of their reserves (R14, R65), and no slice in retention, or entering or
leaving it (R52). -/
def windowOk (s : State) (die : Nat) (w : BitVec 6 × BitVec 6) : Bool :=
  let top := w.1.toNat + w.2.toNat
  top ≤ 32 && (List.range 96).all fun c =>
    let core := die * 96 + c
    (w.2 == 0 || top * 0x10000 + s.reserveSize false core ≤ 0x200000)
      && !(List.range 4).any fun sl => w.2 != 0 && w.1.toNat < 8 * sl + 8 && 8 * sl < top
        && s.retention.any fun r => r.1 == .cabSlice core sl

/-- A descriptor that R14 allows: a window for each die, inside the cabinet. -/
def descOk (s : State) (d : CtxDesc) : Bool :=
  d.windows.length == 8 && (indexed 0 d.windows).all fun w => windowOk s w.1 w.2

/-- CONTEXT_CREATE (R13, R14, R30, R416): no TLB entry of an earlier context of the number stays. -/
def execContextCreate (ctx : BitVec 8) (d : CtxDesc) (s : State) : Host.Outcome State Fault Refusal :=
  let c := ctx.toNat
  .next (if descOk s d then { s with
      contexts := aset c ⟨d, 0, ((aget c s.contexts).map fun x => x.serial).getD 1⟩ s.contexts
      tlb := s.tlb.filter fun t => t.ctx != c
      fw := { s.fw with configured := true } } else s)

/-- No instance, launch or push of a context is left. -/
def ctxIdle (s : State) (ctx : Nat) : Bool :=
  !(s.insts.any fun (x : Nat × Inst) => x.2.ctx == ctx) && !(s.launches.any fun (x : Nat × Launch) => x.2.ctx == ctx)
    && !s.pushes.any fun p => p.ctx == ctx

/-- What the module keeps by context number is forgotten. -/
def forgetCtx (s : State) (ctx : Nat) : State :=
  let c := BitVec.ofNat 8 ctx
  { s with
    contexts := adel ctx s.contexts
    tlb := s.tlb.filter fun t => t.ctx != ctx
    store := s.store.filter fun x => x.ctx != ctx
    cores := s.cores.map fun (x : Nat × Core) => (x.1, { x.2 with
      blocks := x.2.blocks.filter fun b => b.1 / 2 != ctx
      sems := x.2.sems.map fun (y : Nat × Sem) => (y.1, if y.2.owner = some c then ⟨0, none, [], []⟩
        else { y.2 with grants := y.2.grants.filter fun g => g != c }) }) }

/-- CONTEXT_DESTROY (R66, R129): its channels are destroyed, its transfers abandoned without a signal, with every token of
theirs that has not performed, those of records that have completed too. Firmware destroys a context that runs nothing
(log 49). -/
def execContextDestroy (ctx : BitVec 8) (s : State) : Host.Outcome State Fault Refusal :=
  let c := ctx.toNat
  if (aget c s.contexts).isNone || !ctxIdle s c then .next s
  else
    let s := (s.chans.filter fun (x : Nat × Chan) => x.2.ctx == c).foldl (fun s (x : Nat × Chan) => destroyChan s x.1) s
    let s := (s.recs.filter fun (x : Nat × Rec) => x.2.ctx == c).foldl (fun s (x : Nat × Rec) => dropRecord s x.1 x.2 true) s
    let s := { s with outb := s.outb.filter fun o => !(offCluster o.agent && o.ctx == c) }
    .next (forgetCtx (dropLoads s fun y => y.ctx == c) c)

/-! ## Grants (R29, R65, R261, R275, R282, R359, R364, R366, R369, R376, R398, R416) -/

/-- The sum of the leave pools that the module's budget allows, in units of 0.25 mW: eight times 245 W (R376). -/
def leaveBudget : Nat := 8 * 980000

/-- The sum of the leave pools. -/
def poolSum (s : State) : Nat := (List.range 8).foldl (fun n d => n + (s.die d).pool) 0

/-- A wardrobe page that firmware may allocate: outside the die's reserve (R65), and its slice not in retention, nor
entering or leaving it (R52). -/
def pageOk (s : State) (die dpage : Nat) : Bool :=
  (dpage + 1) * 0x100000 + s.reserveSize true die ≤ 0x8000000 && !s.asleep (warKey die dpage 0)

/-- An entry of the wardrobe allocation table written by firmware (R29). Every cached copy of the entry goes with it (DESIGN
CHOICE, log 118). -/
def watWrite (s : State) (ctx page : Nat) (w : Bool) (die dpage : Nat) : State :=
  let e := 2 ^ 15 + (if w then 2 ^ 14 else 0) + die * 2 ^ 7 + dpage
  let s := homeWrite s (watAddr s ctx page) (leBytes 2 e)
  { s with tlb := s.tlb.filter fun x => !(x.war && x.ctx == ctx && x.base == page * 0x100000) }

/-- A lane group before firmware assigns it. -/
def laneFresh : LaneGroup := ⟨none, 0, [], []⟩

/-- The size of a buffer reserve set: whole units, once, at bring-up, before the first context is created; it stays until
the next bring-up (R65). -/
def setReserve (s : State) (key size unit cap : Nat) : State :=
  if size % unit = 0 ∧ size ≤ cap ∧ !s.fw.configured ∧ (aget key s.reserves).isNone ∧ size ≠ 0 then
    { s with reserves := aset key size s.reserves }
  else s

/-- A grant that the rules allow. -/
def grantOk (s : State) : Grant → Bool
  | .semaphore core sem owner => core < 768 && sem < 64 && (aget owner.toNat s.contexts).isSome && (s.sem core sem).owner.isNone
  | .semGrant core sem ctx => match (s.sem core sem).owner with
    | some o => s.tenantOf o.toNat == s.tenantOf ctx.toNat
        && s.insts.any fun (x : Nat × Inst) => x.2.ctx == ctx.toNat && x.2.cluster == core && x.2.holds
    | none => false
  | .laneGroup die group _ => die < 8 && group < 2
  | .clusterCounters c _ => c < 768
  | .dieCounters d _ => d < 8
  | .wardrobePage ctx _ _ die dpage => (aget ctx.toNat s.contexts).isSome && pageOk s die.toNat dpage.toNat
  | .vecBase _ _ => true
  | .weight _ _ die w => 1 ≤ w && w ≤ 255 && die < 8
  | .quota _ _ => true
  | .reserve _ r => r.col0 + r.w ≤ 384 && r.row0 + r.h ≤ 128
  | .signPolicy _ _ _ => true
  | .watchdogLimit _ us => 1000 ≤ us && us ≤ 60000000
  | .leavePool die units => die < 8 && poolSum s - (s.die die).pool + units ≤ leaveBudget
  | .calendar slot _ => slot < 64
  | .bufferReserve die cluster _ _ => die < 8 && cluster < 96
  | .ringReserve chan pages => ((aget chan s.chans).map fun c => decide (c.ringmax < pages.toNat)).getD false

/-- A grant made. -/
def grant (s : State) : Grant → State
  | .semaphore core sem owner => s.modSem core sem fun _ => { Sem.fresh with owner := some owner }
  | .semGrant core sem ctx => s.modSem core sem fun m => { m with grants := ctx :: m.grants.filter fun g => g != ctx }
  | .laneGroup die group tenant =>
    { s with lanes := aset (die * 2 + group) { agetD laneFresh (die * 2 + group) s.lanes with tenant := some tenant } s.lanes }
  | .clusterCounters c tenant => s.modCore c fun x => { x with ctenant := some tenant }
  | .dieCounters d tenant => s.modDie d fun x => { x with dtenant := some tenant }
  | .wardrobePage ctx page w die dpage => watWrite s ctx.toNat page.toNat w die.toNat dpage.toNat
  | .vecBase ctx addr => { s with contexts := amod ctx.toNat (fun c => { c with vecDefault := top58 addr }) s.contexts }
  | .weight tenant cls die w => s.modTenant tenant.toNat fun t => { t with weights := aset (queueKey die cls.toNat) w t.weights }
  | .quota tenant n => s.modTenant tenant.toNat fun t => { t with quota0 := n }
  | .reserve tenant r => s.modTenant tenant.toNat fun t => { t with reserved := some r, borrowed := [] }
  | .signPolicy tenant req keys => s.modTenant tenant.toNat fun t => { t with signed := req, keys }
  | .watchdogLimit tenant us => s.modTenant tenant.toNat fun t => { t with watchdogUs := us }
  | .leavePool die units => s.modDie die fun d => { d with pool := units }
  | .calendar slot e => { s with calendar := s.calendar.setIfInBounds slot (e &&& 0x8F#8) }
  | .bufferReserve die cluster cab war =>
    setReserve (setReserve s (die * 96 + cluster) cab 0x10000 0x200000) (768 + die) war 0x100000 0x8000000
  | .ringReserve chan pages => s.modChan chan fun c => { c with ringmax := pages.toNat }

/-- FIRMWARE_GRANT: what firmware grants stands in the journal first (R403); what the rules forbid changes nothing. -/
def execFirmwareGrant (g : Grant) (s : State) : Host.Outcome State Fault Refusal :=
  .next (if grantOk s g then grant (s.note (.firmware g)) g else s)

/-- An aperture entry as it is written: a write to a reserved field has no effect (R9, R149). -/
def Aperture.of (w0 w1 w2 : Word) : Aperture := ⟨w0 &&& 0x80FFE00000000000#64, w1, w2⟩

/-- A peer-table entry as it is written (R9, R156). -/
def PeerEntry.of (w0 w1 : Word) : PeerEntry := ⟨w0 &&& 0x8FFFFFFFFFFFFFFF#64, w1 &&& 0xF#64, false⟩

/-- FIRMWARE_TABLE_WRITE (R149, R153, R154, R156, R158): a rewritten peer entry is no longer down. -/
def execFirmwareTableWrite (t : TableWrite) (s : State) : Host.Outcome State Fault Refusal :=
  match t with
  | .peer entry w0 w1 => .next (if entry < 1024 then { s with peers := aset entry (PeerEntry.of w0 w1) s.peers } else s)
  | .aperture port k w0 w1 w2 =>
    .next (if port < 2 ∧ k < 16 then s.modPort port fun p => { p with apertures := aset k (Aperture.of w0 w1 w2) p.apertures } else s)
  | .ingress port k w0 w1 w2 =>
    .next (if port < 2 ∧ k < 16 then s.modPort port fun p => { p with ingress := aset k (Aperture.of w0 w1 w2) p.ingress } else s)
  | .window port k ctx =>
    .next (if port < 2 ∧ k < 16 then s.modPort port fun p => { p with
        windows := aset k { agetD ⟨none, 0, 0⟩ k p.windows with ctx := some ctx } p.windows } else s)
  | .launch entry k v =>
    .next (if entry < 256 ∧ k < 3 then { s with table := aset entry ((agetD LtEntry.fresh entry s.table).setWord k v) s.table } else s)

/-- FE_MARK_DEFECTIVE (R387). -/
def execFeMarkDefective (col row : Nat) (s : State) : Host.Outcome State Fault Refusal :=
  .next (if col < 384 ∧ row < 128 ∧ !s.defects.contains (feIndex col row) then { s with defects := feIndex col row :: s.defects } else s)

/-! ## The packet calendar (R369 to R371) -/

/-- Number of the slot that the calendars serve: a slot lasts 4 control cycles. -/
def slotNumber (s : State) : Nat := s.cycle / 4

/-- The owner of a slot. -/
def slotOwner (e : BitVec 8) : Option (BitVec 4) := if e.getLsbD 7 then some (e.setWidth 4) else none

/-- The packet that goes first: class 0 first, and otherwise the oldest. -/
def firstPacket (ps : List Packet) : Option Packet :=
  let zero := ps.filter fun p => p.cls == 0
  ((if zero.isEmpty then ps else zero).foldl (fun (b : Option Packet) p => match b with
    | some q => if q.age < p.age then some p else some q
    | none => some p) none)

/-- A packet's place in the rotation: its tenant, or 16 for firmware. -/
def lendKey (p : Packet) : Nat := if p.firmware then 16 else p.tenant.toNat

/-- Who borrows a slot: the next in the fixed rotation with a packet ready. -/
def lendTo (next : Nat) (ps : List Packet) : Option Nat :=
  ((List.range 17).map fun k => (next + k) % 17).find? fun t => ps.any fun p => lendKey p == t

/-- CALENDAR_SLOT (R370, R378): one router output or memory port of a die, in the current slot, with the packets ready there.
A slot that the power manager holds back from lending is lent to none. -/
def execCalendarSlot (die port : Nat) (ready : List Packet) (s : State) : Host.Outcome State Fault Refusal :=
  let d := s.die die
  let now := slotNumber s
  if 8 ≤ die || now < agetD 0 port d.served then .next s
  else
    let used := fun (s : State) (p : Packet) => s.modDie die fun d => { d with forwarded := some (port, p), served := aset port (now + 1) d.served }
    let mine := match slotOwner (s.calendar.toList.getD (now % 64) 0) with
      | some t => firstPacket (ready.filter fun p => !p.firmware && p.tenant == t)
      | none => none
    match mine with
    | some p => .next (used s p)
    | none => match lendTo (agetD 0 port d.rotation) (if d.paced.contains port then [] else ready) with
      | none => .next s
      | some t => match firstPacket (ready.filter fun p => lendKey p == t) with
        | some p => .next ((used (s.modDie die fun d => { d with rotation := aset port ((t + 1) % 17) d.rotation }) p).countDie die 0x070 1)
        | none => .next s

/-! ## Scheduler, standby, leaf controllers (R401 to R404) -/

/-- HEARTBEAT (R404): every 2,048 control cycles; a scheduler declared lost is fenced off. -/
def execHeartbeat (s : State) : Host.Outcome State Fault Refusal :=
  .next (if !schedPaused s && s.fw.lastBeat + 2048 ≤ s.cycle then { s with fw := { s.fw with lastBeat := s.cycle } } else s)

/-- STANDBY_TAKEOVER (R404): the standby replays the journal, commands the leaves from here on, and resends what is not
acknowledged. -/
def execStandbyTakeover (s : State) : Host.Outcome State Fault Refusal :=
  if !schedPaused s then .next s
  else
    let s := readJournal s
    let fw := { s.fw with
      sched := .standby, standby := false, lastBeat := s.cycle
      leaves := s.fw.leaves.map fun (x : Nat × LeafState) => (x.1, x.2.resent) }
    .next (((({ s with fw }).raiseMsix 2).logEvent 0xFA 0 0 0 (s.cycle - s.fw.lastBeat)).logEvent 0xFB 0 0 0 0)

/-- LEAF_COMMAND (R402, R404): the leaf controller of a cluster takes the command at the head of its link; with none there
and a permit left, the scheduler sends one to which R401 gives no effect of its own. The commands that place, stop, restore
and save, and those for retention, act in the events they belong to (log 68). -/
def execLeafCommand (cluster : Nat) (s : State) : Host.Outcome State Fault Refusal :=
  let l := s.leaf cluster
  if 768 ≤ cluster then .next s
  else if l.wire.isEmpty then .next (if canCommand s [cluster] then command .other s cluster else s)
  else .next (s.setLeaf cluster l.take)

/-- LEAF_ACK (R402): the first acknowledgement of a command returns its permit; a repeated one returns nothing. -/
def execLeafAck (cluster : Nat) (s : State) : Host.Outcome State Fault Refusal :=
  let l := s.leaf cluster
  match l.acks with
  | [] => .next s
  | q :: rest =>
    let l := { l with acks := rest }
    let l := if l.sent.contains q then { l with permits := l.permits + 1, sent := l.sent.filter fun x => x != q } else l
    let l := if l.wire.contains q || l.acks.contains q then l else { l with acted := l.acted.filter fun x => x != q }
    .next (s.setLeaf cluster l)

end Sys2Proof.Machine
end

