-- ==== Sys2Proof/Machine/HostPorts.lean ====
section
/-! DEFINITION. The host ports and peer ports (R112, R147 to R158, R407): inbound writes and reads through apertures, the
registers of BAR 0, outbound reads and writes, attestation, and the transport to peers. -/

namespace Sys2Proof.Machine

open Sys2Proof.Bits

/-! ## Apertures (R149, R150) -/

/-- Bytes of a BAR 2 aperture. -/
def apertureSize (p : HostPort) : Nat := 2 ^ (p.bar2log - 4)

/-- An entry that may be used: VALID, a SPACE that exists, MODE 0 at a peer port. -/
def apertureOk (e : Aperture) (peer : Bool) : Bool :=
  let w := e.w0.toNat
  bit w 63 && (bits w 47 46 == 0 || bits w 47 46 == 2) && !(peer && bit w 45)

/-- The target of offset `o` (R150). -/
def apertureTarget (e : Aperture) (o : Nat) : Word :=
  if bit e.w0.toNat 45 then
    let n := o / 64
    let side := (List.range 6).foldl (fun c k => c + (if bit n k then 1 else 0)) 0 % 2
    (if side = 0 then e.w1 else e.w2) + BitVec.ofNat 64 (n / 2 * 64 + o % 64)
  else e.w1 + BitVec.ofNat 64 o

/-- The compute die beside a port's I/O die (R141). -/
def portDie (port : Nat) : Nat := if port = 0 then 0 else 3

/-- Translation of one line of an aperture for its context at level S (R150, R151): ORDINARY memory only. -/
def apertureXlate (s : State) (port : Nat) (e : Aperture) (o n : Nat) (w : Bool) : State × Xlate :=
  let a := apertureTarget e o
  xlate s none 0 (portDie port) (bits e.w0.toNat 55 48) (if bits e.w0.toNat 47 46 = 2 then .war else .virt) a n 64 1
    (moduleAccess w) true

/-- A dropped or refused access logged (R151, R430). An entry that is invalid, or whose values are reserved, names no
context. -/
def logAperture (s : State) (e : Option Aperture) (index o code : Nat) (peer read : Bool) : State :=
  let e := if code = 0 then none else e
  let ctx := e.elim 0xFF fun e => bits e.w0.toNat 55 48
  s.logFault 0xF6 ctx (if e.isSome then s.tenantOf ctx else 0) 0 0 0 o
    (code + index % 16 * 2 ^ 8 + (if peer then 2 ^ 12 else 0) + (if read then 2 ^ 13 else 0))

/-- An access of `n` bytes at an offset as (offset, bytes) lines of 64. -/
def linesOf (off n : Nat) : List (Nat × Nat) := tokensOf off n 64

/-! ## Inbound writes (R112, R150 to R152, R157) -/

/-- Requester under which a peer's node stands. -/
def peerRid (node : Nat) : Nat := 65536 + node

/-- A line put at its port, held or forwarded. -/
def putLine (s : State) (port wr rid : Nat) (forwarded poisoned : Bool) (key : Nat) (data : List Byte) : State :=
  let (id, s) := s.takeFresh
  s.modPort port fun p => { p with lines := p.lines ++ [⟨id, wr, rid, forwarded, key, data, poisoned⟩] }

/-- One line of a write, through an entry. A line that faults is dropped and logged, and its route acknowledges it at
once; none while its walk waits for a walker (R31). -/
def writeLine (s : State) (port wr rid : Nat) (forwarded poisoned peer : Bool) (e : Option Aperture) (index o : Nat) (data : List Byte) :
    Option State :=
  match e with
  | none => some (logAperture s none index o 0 peer false)
  | some a =>
    if !apertureOk a peer then some (logAperture s (some a) index o 0 peer false)
    else match apertureXlate s port a o data.length true with
      | (s, .ok ps) => some (ps.foldl (fun (x : State × List Byte) p =>
          (putLine x.1 port wr rid forwarded poisoned p.key (x.2.take p.n), x.2.drop p.n)) (s, data)).1
      | (s, .fault c _) => some (logAperture s (some a) index o c peer false)
      | (_, .miss _ _) => none

/-- A requester's lines that are not acknowledged, other than those of write `wr`. -/
def earlierLines (s : State) (port rid wr : Nat) : Bool := (s.port port).lines.any fun l => l.rid == rid && l.wr < wr

/-- The lines of a write in turn, each through its entry. -/
def writeLines (port wr rid : Nat) (forwarded poisoned peer : Bool) (entry : Nat → Option Aperture × Nat × Nat) :
    State → List (Nat × Nat) → List Byte → Option State
  | s, [], _ => some s
  | s, l :: ls, data =>
    let e := entry l.1
    match writeLine s port wr rid forwarded poisoned peer e.1 e.2.1 e.2.2 (data.take l.2) with
    | some s => writeLines port wr rid forwarded poisoned peer entry s ls (data.drop l.2)
    | none => none

/-- A posted write of lines: relaxed it is forwarded at once; otherwise it is held until every earlier write of the
requester has been acknowledged (R112). While a walk of it waits for a walker, it has not arrived (R31). -/
def postedWrite (s : State) (port rid : Nat) (ro poisoned peer : Bool) (entry : Nat → Option Aperture × Nat × Nat) (off : Nat)
    (data : List Byte) : State :=
  let (wr, t) := s.takeFresh
  (writeLines port wr rid (ro || !earlierLines t port rid wr) poisoned peer entry t (linesOf off data.length) data).getD s

/-- The BAR 2 aperture of an offset: its entry, its index, the offset inside. -/
def barEntry (p : HostPort) (off : Nat) : Option Aperture × Nat × Nat :=
  let a := off / apertureSize p
  (if a < 16 then some (agetD ⟨0, 0, 0⟩ a p.apertures) else none, a, off % apertureSize p)

/-- Lines an ordering point may hold forwarded and not acknowledged (R152). -/
def forwardCap : Nat := 1024

/-- Forwarded lines of the host that are not acknowledged. -/
def forwardedLines (p : HostPort) : Nat := (p.lines.filter fun l => l.forwarded && l.rid < 65536).length

/-- HOST_POSTED_WRITE (R112, R150 to R152): a posted write to BAR 2. When its lines would pass the 1,024 that a port keeps
forwarded and not acknowledged, the port has returned no credit for it, and it does not arrive yet. -/
def execHostPostedWrite (port rid off : Nat) (data : List Byte) (ro poisoned : Bool) (s : State) : Host.Outcome State Fault Refusal :=
  let p := s.port port
  if 2 ≤ port || 65536 ≤ rid || 512 < data.length
      || forwardCap < forwardedLines p + (linesOf off data.length).length then .next s
  else .next (postedWrite s port rid ro poisoned false (barEntry p) off data)

/-- Held lines forwarded while `room` lasts, those of peers without it: a line goes when `all` holds no line of an earlier
write of its requester. -/
def forwardLines (all : List HostLine) : Nat → List HostLine → List HostLine
  | _, [] => []
  | room, l :: ls =>
    let may := !l.forwarded && !all.any (fun k => k.rid == l.rid && k.wr < l.wr) && (65536 ≤ l.rid || 0 < room)
    { l with forwarded := l.forwarded || may } :: forwardLines all (if may && l.rid < 65536 then room - 1 else room) ls

/-- Lines and reads let go: a held write is forwarded when no earlier write of its requester is left, as far as the
ordering point keeps lines (R152), a held read when no earlier write is. -/
def forwardHeld (s : State) (port : Nat) : State :=
  s.modPort port fun p => { p with
    lines := forwardLines p.lines (forwardCap - forwardedLines p) p.lines
    reads := p.reads.map fun r => { r with forwarded := r.forwarded || !p.lines.any fun k => k.rid == r.rid && k.wr < r.id } }

/-- HOST_LINE_ACK (R112): every event of a forwarded line has performed, and its route acknowledges it. -/
def execHostLineAck (port line : Nat) (s : State) : Host.Outcome State Fault Refusal :=
  match (s.port port).lines.find? fun l => l.id == line with
  | some l =>
    if l.forwarded && l.data.isEmpty then
      .next (forwardHeld (s.modPort port fun p => { p with lines := p.lines.filter fun l => l.id != line }) port)
    else .next s
  | none => .next s

/-- The next event of line `id`: up to the next 8-byte boundary (R112), in the requester's program order (R91). -/
def performLine (s : State) (port rid id : Nat) : State :=
  let ls := (s.port port).lines
  match ls.find? fun l => l.id == id && l.rid == rid with
  | none => s
  | some l =>
    let bs := l.data.take (8 - l.key % 8)
    let before := (ls.takeWhile fun k => k.id != id).any fun k => k.rid == rid && overlap k.key k.data.length l.key bs.length
    if !l.forwarded || bs.isEmpty || before || s.asleep l.key then s
    else
      let s := homeWrite s l.key bs
      let s := if l.poisoned then poisonRun s l.key bs.length else s
      s.modPort port fun p => { p with lines := p.lines.map fun k =>
        if k.id = id then { k with key := k.key + bs.length, data := k.data.drop bs.length } else k }

/-! ## Inbound reads (R112, R150, R151, R157) -/

/-- An answer to an inbound read. -/
def complete (s : State) (port : Nat) (c : Completion) : State := s.modPort port fun p => { p with completions := p.completions ++ [c] }

/-- The pieces of a read, all its lines translated; the first line that cannot be read otherwise, or no line where a walk waits
for a walker (R31). -/
def readPieces (port : Nat) (peer : Bool) (entry : Nat → Option Aperture × Nat × Nat) :
    State → List (Nat × Nat) → List Piece → State × Except (Option (Option Aperture × Nat × Nat × Nat)) (List Piece)
  | s, [], acc => (s, .ok acc)
  | s, l :: ls, acc =>
    match entry l.1 with
    | (none, index, o) => (s, .error (some (none, index, o, 0)))
    | (some a, index, o) =>
      if !apertureOk a peer then (s, .error (some (some a, index, o, 0)))
      else match apertureXlate s port a o l.2 false with
        | (s, .ok ps) => readPieces port peer entry s ls (acc ++ ps)
        | (s, .fault c _) => (s, .error (some (some a, index, o, c)))
        | (s, .miss _ _) => (s, .error none)

/-- An inbound read taken: Unsupported Request when a line cannot be read, otherwise forwarded or held. -/
def inboundRead (s : State) (port rid tag : Nat) (ro peer : Bool) (entry : Nat → Option Aperture × Nat × Nat) (off n : Nat) : State :=
  let (id, t) := s.takeFresh
  match readPieces port peer entry t (linesOf off n) [] with
  | (_, .error none) => s
  | (s, .error (some (e, index, o, c))) => complete (logAperture s e index o c peer true) port (.unsupported rid tag)
  | (s, .ok ps) =>
    let go := ro || !earlierLines s port rid id
    s.modPort port fun p => { p with reads := p.reads ++ [⟨id, rid, tag, ro, go, ps, [], false⟩] }

/-! ## Reads of BAR 0 (R149, R153 to R159, R372, R408, R409) -/

/-- A word of a launch window's page; LAUNCH is write-only and reads zero (R154). -/
def windowWord (s : State) (port w o : Nat) : Word :=
  let x := agetD ⟨none, 0, 0⟩ w (s.port port).windows
  match o with
  | 0x08 => x.accepted
  | 0x10 => x.refused
  | 0x18 => match x.ctx with
    | some c => BitVec.ofNat 64 (2 ^ 63 + s.tenantOf c.toNat * 256 + c.toNat)
    | none => 0
  | _ => 0

/-- Word `k` of an aperture's entry; W3 is reserved (R149). -/
def Aperture.word (a : Aperture) : Nat → Word
  | 0 => a.w0 | 1 => a.w1 | 2 => a.w2 | _ => 0

/-- A time-base register (R159). -/
def timeWord (s : State) : Nat → Word
  | 0x00 => BitVec.ofNat 64 s.now
  | 0x08 => s.time.src.setWidth 64
  | 0x10 => BitVec.ofNat 64 ((if s.time.everlock then 4 else 0) + (if s.time.holdover then 2 else 0) + (if s.time.locked then 1 else 0))
  | 0x18 => s.time.offset
  | 0x20 => s.time.ptmoff
  | _ => 0

/-- W3 of a launch-table entry (R372). -/
def LtEntry.w3 (e : LtEntry) : Word :=
  BitVec.ofNat 64 ((if e.valid then 2 ^ 63 else 0) + e.rule.toNat * 2 ^ 61 + (if e.deferred then 2 ^ 60 else 0)
    + e.cls.toNat * 2 ^ 58 + e.ctx.toNat * 2 ^ 48 + e.die.toNat * 2 ^ 45 + e.skips.toNat)

/-- Word `k` of a launch-table entry. -/
def LtEntry.word (e : LtEntry) : Nat → Word
  | 0 => e.start | 1 => e.period | 2 => e.record | _ => e.w3

/-- Word `k` of a fault-log record (R408). -/
def LogRec.word (r : LogRec) : Nat → Word
  | 0 => BitVec.ofNat 64 r.time
  | 1 => BitVec.ofNat 64 (r.code % 256 * 2 ^ 56 + r.ctx % 256 * 2 ^ 48 + r.tenant % 16 * 2 ^ 44 + r.die % 8 * 2 ^ 41
      + r.cluster % 128 * 2 ^ 34 + r.inst % 2 ^ 24)
  | 2 => BitVec.ofNat 64 r.addr
  | _ => BitVec.ofNat 64 r.detail

/-- A word of the fault-log region (R408). -/
def logWord (s : State) (o : Nat) : Word :=
  match o with
  | 0x00 => BitVec.ofNat 64 s.log.head
  | 0x08 => BitVec.ofNat 64 s.log.tail
  | 0x10 => BitVec.ofNat 64 s.log.lost
  | _ => if o < 0x40 then 0
         else match aget ((o - 0x40) / 32) s.log.recs with
           | some r => r.word ((o - 0x40) % 32 / 8)
           | none => 0

/-- An event counter by its number (R409). -/
def counterWord (s : State) (c : Nat) : Word :=
  if c < 256 then ((s.die (c / 32)).dcnt.toList.getD (c % 32) 0).setWidth 64
  else if c < 256 + 6144 then ((s.core ((c - 256) / 8)).ccnt.toList.getD ((c - 256) % 8) 0).setWidth 64
  else 0

/-- A word of the identification region (R153), which reports the step at which bring-up failed (R405; log 50). -/
def identWord (s : State) (port o : Nat) : Word :=
  match s.bringup with
  | .failed k => if o = Config.failedStepWord % 512 * 8 then BitVec.ofNat 64 k else Config.identification port o
  | _ => Config.identification port o

/-- The 8-byte word at an offset of BAR 0; where no region lies it is zero (R153). -/
def barWord (s : State) (port o : Nat) : Word :=
  if o < 0x1000 then identWord s port o
  else if 0x10000 ≤ o ∧ o < 0x20000 then windowWord s port ((o - 0x10000) / 0x1000) (o % 0x1000)
  else if 0x20000 ≤ o ∧ o < 0x20200 then (agetD ⟨0, 0, 0⟩ ((o - 0x20000) / 32) (s.port port).apertures).word (o % 32 / 8)
  else if 0x20200 ≤ o ∧ o < 0x20400 then (agetD ⟨0, 0, 0⟩ ((o - 0x20200) / 32) (s.port port).ingress).word (o % 32 / 8)
  else if 0x30000 ≤ o ∧ o < 0x30040 then timeWord s (o - 0x30000)
  else if 0x40000 ≤ o ∧ o < 0x42000 then (agetD LtEntry.fresh ((o - 0x40000) / 32) s.table).word (o % 32 / 8)
  else if 0x80000 ≤ o ∧ o < 0x100000 then logWord s (o - 0x80000)
  else if 0x100000 ≤ o ∧ o < 0x200000 then counterWord s (Config.counterAt ((o - 0x100000) / 8))
  else if 0x200000 ≤ o ∧ o < 0x200200 then (s.port port).msixWord ((o - 0x200000) / 8)
  else if o = 0x201000 then (s.port port).msixPending.setWidth 64
  else if 0x300000 ≤ o ∧ o < 0x304000 then
    let e := agetD ⟨0, 0, false⟩ ((o - 0x300000) / 16) s.peers
    if o % 16 = 0 then e.w0 else e.w1
  else 0

/-- A read of BAR 0: 1, 2, 4 or 8 bytes naturally aligned, otherwise Unsupported Request (R153). -/
def bar0Read (s : State) (port rid off n tag : Nat) : State :=
  if [1, 2, 4, 8].contains n && off % n == 0 then
    complete s port (.data rid tag (((leBytes 8 (barWord s port (off - off % 8)).toNat).drop (off % 8)).take n) false)
  else complete s port (.unsupported rid tag)

/-- A requester's posted write or line that its port has not seen acknowledged. -/
def barHeld (s : State) (port rid : Nat) : Bool := (s.port port).lines.any fun l => l.rid == rid

/-- A read of a requester with Relaxed Ordering clear that has not performed, of those before read `id`. -/
def inboundBefore (s : State) (port rid id : Nat) : Bool := (s.port port).reads.any fun r => r.rid == rid && !r.ro && r.id < id

/-- A read of a requester with Relaxed Ordering clear has not performed (R421). -/
def inboundHeld (s : State) (port rid : Nat) : Bool := (s.port port).reads.any fun r => r.rid == rid && !r.ro

/-- HOST_READ (R112, R149 to R151, R153, R421): through an aperture of BAR 2, or of a register of BAR 0, which with Relaxed
Ordering clear waits until every earlier posted write of its requester has been acknowledged and every such read has
performed. -/
def execHostRead (port rid : Nat) (bar0 : Bool) (off n : Nat) (ro : Bool) (tag : Nat) (s : State) : Host.Outcome State Fault Refusal :=
  if 2 ≤ port || 65536 ≤ rid || 4096 < n || n = 0 then .next s
  else if bar0 then .next (if !ro && (barHeld s port rid || inboundHeld s port rid) then s else bar0Read s port rid off n tag)
  else .next (inboundRead s port rid tag ro false (barEntry (s.port port)) off n)

/-- The writes of a requester that its read follows, as (key, bytes). -/
def lineWrites (s : State) (port rid id : Nat) : List (Nat × List Byte) :=
  ((s.port port).lines.filter fun l => l.rid == rid && l.wr < id).map fun l => (l.key, l.data)

/-- What is left of the piece in which byte `got` of a read lies. -/
def restPiece : List Piece → Nat → Option Piece
  | [], _ => none
  | p :: ps, got => if got < p.n then some ⟨p.key + got, p.n - got, p.cache⟩ else restPiece ps (got - p.n)

/-- The next 8-byte event of inbound read `id`, those of earlier reads of its requester first where Relaxed Ordering is clear
(R421); with the last the read is answered (R89, R151). -/
def performInbound (s : State) (port rid id : Nat) : State :=
  match (s.port port).reads.find? fun r => r.id == id && r.rid == rid with
  | none => s
  | some r => match restPiece r.pieces r.got.length with
    | none => s
    | some p =>
      let key := p.key
      let k := min (8 - key % 8) p.n
      if !r.forwarded || s.asleep key || (!r.ro && inboundBefore s port rid id) then s
      else
        let t := readHome s (lineWrites s port rid id) ⟨key, k, false⟩
        let got := r.got ++ t.bytes
        let pois := r.poisoned || t.poisoned
        if got.length < piecesLen r.pieces then
          t.s.modPort port fun q => { q with reads := q.reads.map fun x => if x.id = id then { x with got := got, poisoned := pois } else x }
        else complete (t.s.modPort port fun q => { q with reads := q.reads.filter fun x => x.id != id }) port (.data rid r.tag got pois)

/-- HOST_ATOMICOP (R147): Unsupported Request. -/
def execHostAtomicop (by_ : Requester) (tag : Nat) (s : State) : Host.Outcome State Fault Refusal :=
  if 2 ≤ by_.port then .next s else .next (complete s by_.port (.unsupported by_.rid tag))

/-! ## Outbound reads (R148, R158) -/

/-- Bytes of a DEVICE load arrive, those of one piece: with the last the slot is answered (R36, R107). -/
def deviceArrives (s : State) (i k : Nat) (bs : List Byte) : State :=
  match (s.inst? i).bind fun n => n.ctl.blk with
  | some b => match b.req, Layout.slot b.words k with
    | some ⟨k', .device ps none, _⟩, some (_, .m f, _) =>
      if k' ≠ k then s
      else
        let got := (b.rec_ k).got ++ bs
        if piecesLen ps ≤ got.length then answer s i k (some (loadValue f got))
        else (s.modSlot i k fun r => { r with got }).modBlk i fun b => { b with req := some ⟨k, .device ps none, false⟩ }
    | _, _ => s
  | none => s

/-- The data of an outbound read arrives: at the DEVICE load that waits for it, or at its record. -/
def readArrives (s : State) (q : OutRead) (bs : List Byte) : State :=
  let s := { s with outReads := s.outReads.filter fun x => x.tag != q.tag }
  match q.for_ with
  | .engine r t => engineInput s r t (bs.map Stages.clean)
  | .words r k => { s with recs := amod r (fun x => { x with fetched := aset k bs x.fetched }) s.recs }
  | .image g => imageInput s g bs
  | .slot i k => deviceArrives s i k bs

/-- What an outbound read is for, as the fault log names it (R430): context, die, cluster of it and instance serial. -/
def readOwner (s : State) : ReadFor → Nat × Nat × Nat × Nat
  | .slot i _ => match s.inst? i with
    | some n => (n.ctx, dieOfCore n.cluster, n.cluster % 96, n.serial)
    | none => (0xFF, 0, 0, 0)
  | .engine r _ => recOwner r
  | .words r _ => recOwner r
  | .image g => match ((aget g s.lanes).bind fun l => l.loads.head?) with
    | some y => (y.ctx, g / 2, 0, serialOf y.inst)
    | none => (0xFF, 0, 0, 0)
where
  serialOf (i : Nat) : Nat := ((s.inst? i).map fun n => n.serial).getD 0
  recOwner (r : Nat) : Nat × Nat × Nat × Nat := match aget r s.recs with
    | some x => (x.ctx, x.die, 0, serialOf x.inst)
    | none => (0xFF, 0, 0, 0)

/-- A failed host read: 0xFF in every byte, and a record in the fault log (R148, R430). -/
def hostReadFails (s : State) (q : OutRead) (why : Nat) : State :=
  let o := readOwner s q.for_
  let t := s.logFault 0xF7 o.1 (if o.1 = 0xFF then 0 else s.tenantOf o.1) o.2.1 o.2.2.1 o.2.2.2 q.pa why
  readArrives t q (List.replicate q.n 0xFF)

/-- HOST_READ_COMPLETION (R148). -/
def execHostReadCompletion (tag : Nat) (status : ReadStatus) (data : List Byte) (s : State) : Host.Outcome State Fault Refusal :=
  match s.outReads.find? fun q => q.tag == tag && homeOf q.pa == .host with
  | none => .next s
  | some q => match status with
    | .ok => .next (if data.length = q.n then readArrives s q data else s)
    | .unsupported => .next (hostReadFails s q 1)
    | .aborted => .next (hostReadFails s q 2)

/-- Control cycles in 50 ms. -/
def hostReadCycles : Nat := 50000 * cyclesPerUs

/-- HOST_READ_TIMEOUT (R148): 50 ms without a completion. -/
def execHostReadTimeout (tag : Nat) (s : State) : Host.Outcome State Fault Refusal :=
  match s.outReads.find? fun q => q.tag == tag && homeOf q.pa == .host with
  | none => .next s
  | some q => .next (if q.since + hostReadCycles ≤ s.cycle then hostReadFails s q 3 else s)

/-! ## BAR 0 (R152 to R155, R372, R408) -/

/-- A write to BAR 0 takes effect at its port (R152, R153): 1, 2, 4 or 8 bytes, naturally aligned, otherwise it is an
Unsupported Request; and a release, once every earlier posted write of its requester has been acknowledged. -/
def barTakes (s : State) (port rid at_ size : Nat) : Bool :=
  port < 2 && rid < 65536 && [1, 2, 4, 8].contains size && at_ % size == 0 && !barHeld s port rid

/-- LAUNCH_WINDOW_WRITE (R152, R154): a write to LAUNCH of window `w`. -/
def execLaunchWindowWrite (port rid window : Nat) (value : Word) (size : Nat) (s : State) : Host.Outcome State Fault Refusal :=
  if 16 ≤ window || !barTakes s port rid 0 size then .next s
  else
    let x := agetD ⟨none, 0, 0⟩ window (s.port port).windows
    let put := fun (s : State) (y : Window154) => s.modPort port fun p => { p with windows := aset window y p.windows }
    match x.ctx with
    | some c =>
      if size < 8 || value.toNat % 64 != 0 then .next (put s { x with refused := x.refused + 1 })
      else .next { put s { x with accepted := x.accepted + 1 } with
        pushes := s.pushes ++ [⟨.window port window, c.toNat, value, false, 0⟩] }
    | none => .next (put s { x with refused := x.refused + 1 })

/-- A word with `size` bytes at byte `at_` replaced by the low bytes of a value. -/
def mergeBytes (old value : Word) (at_ size : Nat) : Word :=
  BitVec.ofNat 64 (leNat (overlay 0 (leBytes 8 old.toNat) at_ (leBytes size value.toNat)))

/-- Bytes of W0 to W2 of a launch-table entry written (R372). -/
def tableWord (e : LtEntry) (k : Nat) (value : Word) (at_ size : Nat) : LtEntry :=
  e.setWord k (mergeBytes (e.word k) value at_ size)

/-- TAIL of the fault log written: what lies before it has been read (R408; log 24). -/
def FaultLog.readTo (l : FaultLog) (tail : Nat) : FaultLog :=
  let t := tail % logCap
  let step := (t + logCap - l.tail) % logCap
  { l with tail := t, used := if step ≤ l.used then l.used - step else (l.head + logCap - t) % logCap }

/-- A word of the MSI-X table written: a vector unmasked with its pending bit set sends its message (log 88). -/
def HostPort.msixWrite (p : HostPort) (k : Nat) (value : Word) (at_ size : Nat) : HostPort :=
  let p := { p with msixTable := aset k (mergeBytes (p.msixWord k) value at_ size) p.msixTable }
  if p.msixPending.getLsbD (k / 2) && !bit (p.msixWord (k / 2 * 2 + 1)).toNat 32 then p.signal (k / 2) else p

/-- A write to a register of BAR 0 that has no row of its own: stored where software may write, dropped elsewhere. -/
def barWrite0 (s : State) (port off size : Nat) (value : Word) : State :=
  let at_ := off % 8
  if 0x800 ≤ off ∧ off < 0x820 then
    let k := (off - 0x800) / 8
    { s with fw := { s.fw with nonce := aset k (mergeBytes (agetD 0 k s.fw.nonce) value at_ size) s.fw.nonce } }
  else if 0x40000 ≤ off ∧ off < 0x42000 then
    let e := (off - 0x40000) / 32
    let k := (off - 0x40000) % 32 / 8
    if k = 3 then s else { s with table := aset e (tableWord (agetD LtEntry.fresh e s.table) k value at_ size) s.table }
  else if 0x80008 ≤ off ∧ off < 0x80010 then
    { s with log := s.log.readTo (mergeBytes (BitVec.ofNat 64 s.log.tail) value at_ size).toNat }
  else if 0x200000 ≤ off ∧ off < 0x200200 then s.modPort port fun p => p.msixWrite ((off - 0x200000) / 8) value at_ size
  else s

/-- BAR0_REGISTER_WRITE (R152, R153): wider than 8 bytes or not naturally aligned, it is refused. -/
def execBar0RegisterWrite (port rid off size : Nat) (value : Word) (s : State) : Host.Outcome State Fault Refusal :=
  if !barTakes s port rid off size then .next s
  else .next (barWrite0 s port off size value)

/-- TIMEBASE_SRC_WRITE (R152, R153, R159): a write of SRC's register. -/
def execTimebaseSrcWrite (w : RegWrite) (s : State) : Host.Outcome State Fault Refusal :=
  .next (if barTakes s w.port w.rid w.at_ w.size then timebaseSrc s (mergeBytes (s.time.src.setWidth 64) w.value w.at_ w.size) else s)

/-- PTMOFF_WRITE (R152, R153, R375): a write of PTMOFF. -/
def execPtmoffWrite (w : RegWrite) (s : State) : Host.Outcome State Fault Refusal :=
  .next (if barTakes s w.port w.rid w.at_ w.size then ptmoffWrite s (mergeBytes s.time.ptmoff w.value w.at_ w.size) else s)

/-- HOST_RESET_COMMAND (R116, R152). -/
def execHostResetCommand (by_ : Requester) (tenant : BitVec 4) (cls : BitVec 2) (diemask : BitVec 8) (s : State) :
    Host.Outcome State Fault Refusal :=
  let may := mayReset s tenant.toNat cls.toNat (fullMask diemask.toNat) none
  .next (if barTakes s by_.port by_.rid 0 8 && may then (startReset s tenant.toNat cls.toNat (fullMask diemask.toNat) none).1 else s)

/-- A write of W3 of a launch-table entry takes effect: a host's as a BAR 0 write, firmware's whole (R152, R153, R372). -/
def tableTakes (s : State) (entry : Nat) (w : EntryWrite) : Bool :=
  entry < 256 && match w.by_ with
    | .host port rid => barTakes s port rid w.at_ w.size
    | .firmware => w.at_ == 0 && w.size == 8

/-- W3 of an entry under a write of some of its bytes. -/
def writtenW3 (s : State) (entry : Nat) (w : EntryWrite) : Word :=
  mergeBytes (agetD LtEntry.fresh entry s.table).w3 w.value w.at_ w.size

/-- LAUNCH_TABLE_ARM (R372, R430): a write that leaves VALID set. -/
def execLaunchTableArm (entry : Nat) (w : EntryWrite) (s : State) : Host.Outcome State Fault Refusal :=
  let w3 := writtenW3 s entry w
  .next (if tableTakes s entry w && bit w3.toNat 63 then armEntry s entry w3 else s)

/-- LAUNCH_TABLE_DISARM (R372): a write that leaves VALID clear. -/
def execLaunchTableDisarm (entry : Nat) (w : EntryWrite) (s : State) : Host.Outcome State Fault Refusal :=
  let w3 := writtenW3 s entry w
  .next (if tableTakes s entry w && !bit w3.toNat 63 then disarmEntry s entry w3 else s)

/-! ## Attestation (R407) -/

/-- ATTESTATION_REQUEST: the 8-byte write of the report address; a later request replaces a pending one. An address that is
not 64-byte aligned starts nothing. -/
def execAttestationRequest (port rid : Nat) (addr : Word) (s : State) : Host.Outcome State Fault Refusal :=
  if !barTakes s port rid 0 8 || addr.toNat % 64 != 0 then .next s
  else .next { s with fw := { s.fw with reportTo := some (port, addr) } }

/-- First physical address of a port's host window (R148). -/
def hostBase (port : Nat) : Nat := if port = 0 then 0x8000000000000 else 0xA000000000000

/-- Bytes of a report (R407). -/
def reportSize : Nat := 16896

/-- Bytes of the report that are free by their offset (log 6). -/
def freeReport (lo hi : Nat) : List Byte := (List.range (hi - lo)).map fun k => Config.reportByte (lo + k)

/-- Bytes 8 to 0xFF of the report: serial, nonce, TAI, digests of the firmware and of the logical defect map, anti-rollback
counter. -/
def reportHead (s : State) : List Byte :=
  freeReport 0x08 0x10 ++ (List.range 4).flatMap (fun k => leBytes 8 (agetD 0 k s.fw.nonce).toNat) ++ leBytes 8 s.now
    ++ freeReport 0x38 0xC8 ++ (List.range 48).map (Config.defectDigest s.defects) ++ leBytes 8 s.fw.rollback

/-- The signature block of the report (R359, R407): its first word, the key identifiers, zero, and the two signatures over
bytes 0 to 0xFF with MAGIC read as zero. -/
def reportBlock (s : State) : List Byte :=
  leBytes 4 0x47534942 ++ leBytes 4 0x4100 ++ freeReport 0x108 0x118 ++ leBytes 8 0
    ++ (List.range (reportSize - 0x120)).map (Config.reportSignature (leBytes 8 0 ++ reportHead s) s.fresh)

/-- Bytes 8 to the end of the report. -/
def reportBytes (s : State) : List Byte := reportHead s ++ reportBlock s

/-- A write to the host by firmware. -/
def fwWrite (s : State) (key : Nat) (data : List Byte) (ordered : Bool) : State := deviceWrite s key data ordered

/-- ATTESTATION_REPORT_WRITE (R147, R407): the report's bytes in writes of the maximum payload, and MAGIC last with Relaxed
Ordering clear. -/
def execAttestationReportWrite (s : State) : Host.Outcome State Fault Refusal :=
  match s.fw.reportTo with
  | none => .next s
  | some (port, addr) =>
    let base := hostBase port + addr.toNat % 2 ^ 49
    let bs := reportBytes s
    let s := (tokensOf (base + 8) bs.length 512).foldl (fun s p => fwWrite s p.1 ((bs.drop (p.1 - base - 8)).take p.2) false) s
    let s := fwWrite s base (leBytes 8 0x5450455254415441) true
    .next { s with fresh := s.fresh + 1, fw := { s.fw with reportTo := none } }

/-! ## Peers (R156 to R158) -/

/-- The ingress aperture that a peer's operation names. -/
def peerEntry (p : HostPort) (aper : Nat) (off : Nat) : Option Aperture × Nat × Nat :=
  (if aper < 16 then some (agetD ⟨0, 0, 0⟩ aper p.ingress) else none, aper, off)

/-- PEER_READ (R157): an arriving READ is served through its ingress aperture. -/
def execPeerRead (port node aper off n tag : Nat) (s : State) : Host.Outcome State Fault Refusal :=
  if 2 ≤ port || n = 0 then .next s
  else .next (inboundRead s port (peerRid node) tag true true (peerEntry (s.port port) aper) off n)

/-- PEER_WRITE (R157): an arriving WRITE is forwarded. -/
def execPeerWrite (port node aper off : Nat) (data : List Byte) (s : State) : Host.Outcome State Fault Refusal :=
  if 2 ≤ port then .next s
  else .next (postedWrite s port (peerRid node) true false true (peerEntry (s.port port) aper) off data)

/-- PEER_WRITE_ORD (R157): held until every earlier write of the node has been acknowledged. -/
def execPeerWriteOrd (port node aper off : Nat) (data : List Byte) (s : State) : Host.Outcome State Fault Refusal :=
  if 2 ≤ port then .next s
  else .next (postedWrite s port (peerRid node) false false true (peerEntry (s.port port) aper) off data)

/-- LLYNRAM_RESEND (R158): a pending operation is transmitted again. -/
def execLlynramResend (op : Nat) (s : State) : Host.Outcome State Fault Refusal :=
  .next { s with
    outWrites := s.outWrites.map fun w => if w.id = op ∧ w.via.isSome then { w with sends := w.sends + 1 } else w
    outReads := s.outReads.map fun r =>
      if r.tag = op ∧ homeOf r.pa = .peer ∧ r.via.isSome then { r with sends := r.sends + 1 } else r }

/-- PEER_ACKNOWLEDGEMENT (R158): the target's acknowledgement ends an operation; a READ's brings its data. What no port of
the entry may carry (R156) never reaches the target. -/
def execPeerAcknowledgement (op : Nat) (data : List Byte) (s : State) : Host.Outcome State Fault Refusal :=
  match s.outReads.find? fun r => r.tag == op && homeOf r.pa == .peer && r.via.isSome with
  | some r => .next (if data.length = r.n then readArrives s r data else s)
  | none => .next { s with outWrites := s.outWrites.filter fun w => !(w.id == op && w.via.isSome) }

/-- Control cycles in 10 ms. -/
def peerCycles : Nat := 10000 * cyclesPerUs

/-- PEER_UNREACHABLE (R155, R158): an operation to the entry has waited 10 ms. Every pending one is dropped, reads get 0xFF,
and the entry stays down until firmware rewrites it. -/
def execPeerUnreachable (entry : Nat) (s : State) : Host.Outcome State Fault Refusal :=
  let mine := fun (pa : Nat) => homeOf pa == .peer && (peerEntryOf pa).1 == entry
  let late := s.outWrites.any (fun w => mine w.pa && w.since + peerCycles ≤ s.cycle)
    || s.outReads.any fun r => mine r.pa && r.since + peerCycles ≤ s.cycle
  if !late then .next s
  else
    let e := agetD ⟨0, 0, false⟩ entry s.peers
    let reads := s.outReads.filter fun r => mine r.pa
    let s := { s with peers := aset entry { e with down := true } s.peers, outWrites := s.outWrites.filter fun w => !mine w.pa }
    let s := reads.foldl (fun s r => readArrives s r (List.replicate r.n 0xFF)) s
    .next ((s.logEvent 0xF9 0 0 entry (bits e.w0.toNat 23 0)).raiseMsix 4)

end Sys2Proof.Machine
end

