-- ==== Sys2Proof/Machine/Perform.lean ====
section
/-! DEFINITION. READ_PERFORM and WRITE_PERFORM (R89 to R92, R97, R106, R107): the next event of an agent's read or write. -/

namespace Sys2Proof.Machine

open Sys2Proof.Bits

/-! ## DEVICE accesses of a control context (R36, R106, R208) -/

/-- The access that a slot's memory instruction makes: LSID, ordering code, scope. -/
def memFields (b : Block) (k : Nat) : Option MOp :=
  match Layout.slot b.words k with
  | some (_, .m f, _) => some f
  | _ => none

/-- The next event of a load that touches a DEVICE page: its next piece, in ascending order (R107). The block binds at the
first. A DEVICE piece is accepted at its port, and its bytes are on their way (R36, R106); an ORDINARY one is read at its
home, or in the data cache, as by any load (R89, R96). It waits while every tag is taken. -/
def performDeviceLoad (s : State) (i k : Nat) (n : Inst) (b : Block) (f : MOp) (p : Piece) : State :=
  if !sideReady s i b k || !readMay s i b k f.lsid.toNat p || s.asleep p.key then s
  else
    let acq := fun (s : State) => if isAcq f.ord then acquire s n.cluster f.scope else s
    if isDeviceKey p.key then match deviceRead (bindBlock s i) p.key p.n (.slot i k) with
      | none => s
      | some (s, out) =>
        let s := acq s
        match out with
        | some bs => deviceArrives s i k bs
        | none => s.modBlk i fun b => { b with req := b.req.map fun q => { q with registered := true } }
    else
      let own := ctlOwn s i b f.lsid.toNat
      let t := if p.cache && f.ord == .plain then readCached s n.cluster own p else readPast s n.cluster own p
      if t.poisoned then refuseEither t.s i k b codePoison (memAddrOf b k + BitVec.ofNat 64 (b.rec_ k).got.length)
      else deviceArrives (acq (bindBlock t.s i)) i k t.bytes

/-- The next event of a store that touches a DEVICE page: its next piece, in ascending order (R107), once its order lets it;
the block binds in that step, or before it when its own held stores keep it back (log 28). -/
def performDeviceStore (s : State) (i k : Nat) (b : Block) (ps : List Piece) (data : List Byte) (f : MOp) : State :=
  match ps with
  | [] => s
  | p :: rest =>
    if !sideReady s i b k || s.asleep p.key then s
    else match objectTurn s i b p.key p.n (isRel f.ord) f.scope (f.ord == .sc) false with
      | .wait s => s
      | .poison s => s
      | .go s =>
        let s := if isDeviceKey p.key then deviceWrite s p.key (data.take p.n) true else ctlWrite s i p.key (data.take p.n)
        if rest.isEmpty then answer s i k none
        else s.modBlk i fun b => { b with req := some ⟨k, .device rest (some (data.drop p.n)), false⟩ }

/-- READ_PERFORM of a control context: the next piece of a load that touches a DEVICE page, or the read of slot `k`. -/
def readOfCtl (s : State) (i k : Nat) : State :=
  match s.inst? i with
  | none => s
  | some n => match n.ctl.blk with
    | none => s
    | some b => match b.req, memFields b k with
      | some ⟨k', .device ps none, reg⟩, some f =>
        if k' ≠ k then readCtl s i k
        else if reg then s
        else match dropBytes (b.rec_ k).got.length ps with
          | p :: _ => performDeviceLoad s i k n b f p
          | [] => s
      | _, _ => readCtl s i k

/-- A store of a control context's block that touches a DEVICE page. -/
def deviceStoreOf (s : State) (i : Nat) : State :=
  match (s.inst? i).bind fun n => n.ctl.blk with
  | none => s
  | some b => match b.req with
    | some ⟨k, .device ps (some data), _⟩ => match memFields b k with
      | some f => performDeviceStore s i k b ps data f
      | none => s
    | _ => s

/-- READ_PERFORM (R89): the next event of read `n` of an agent. A peer's node stands at either port. -/
def execReadPerform (a : Agent) (n : Nat) (s : State) : Host.Outcome State Fault Refusal :=
  match a with
  | .ctl i => .next (readOfCtl s i n)
  | .region i => .next (readRegion s i n)
  | .engine r => .next (readEngine s r n)
  | .host port rid => .next (if port < 2 ∧ rid < 65536 then performInbound s port rid n else s)
  | .peer node => .next (performInbound (performInbound s 0 (peerRid node) n) 1 (peerRid node) n)

/-! ## Writes (R90) -/

/-- The release of a region's committed tokens performs: they are receivable in their channel (R72, R92). -/
def releaseTokens (s : State) (o : Outb) (inst : Nat) : State :=
  let k := o.key - tokenKey 0
  settleChan (s.modChan k fun c => { c with
    late := c.late.map fun t => if t.inst = inst ∧ t.id = o.id then { t with ready := true } else t }) k

/-- One write of an outbound set performs: it leaves the set and joins the coherence order at its home (R90). -/
def performWrite (s : State) (o : Outb) : State :=
  match o.agent with
  | .ctl i =>
    let s := ctlWrite (dropOutb s o.id) i o.key o.data
    if o.poisoned then poisonRun s o.key o.data.length else s
  | .engine r => if isDeviceKey o.key then dropOutb (engineDeviceWrite s r o) o.id else engineWrite (dropOutb s o.id) r o
  | .region i =>
    if tokenKey 0 ≤ o.key then releaseTokens (dropOutb s o.id) o i
    else homeWrite (dropOutb s o.id) o.key o.data
  | _ =>
    if isDeviceKey o.key then deviceWrite (dropOutb s o.id) o.key o.data true
    else homeWrite (dropOutb s o.id) o.key o.data

/-- Entry `n` of an agent's outbound set, when its order lets it perform. -/
def performOutb (s : State) (a : Agent) (n : Nat) : State :=
  match (s.outbOf a).find? fun o => o.id == n with
  | none => s
  | some o => match o.fence with
    | some (k, sc) => performMarker s o k sc
    | none => if writeMay s o then performWrite s o else s

/-- WRITE_PERFORM (R90 to R92, R97, R106): entry `n` of an agent's outbound set; for a control context 0 names the DEVICE
store of its block; for a host or peer requester `n` names a line. -/
def execWritePerform (a : Agent) (n : Nat) (s : State) : Host.Outcome State Fault Refusal :=
  match a with
  | .ctl i => .next (if n = 0 then deviceStoreOf s i else performOutb s a n)
  | .region _ => .next (performOutb s a n)
  | .engine _ => .next (performOutb s a n)
  | .host port rid => .next (if port < 2 ∧ rid < 65536 then performLine s port rid n else s)
  | .peer node => .next (performLine (performLine s 0 (peerRid node) n) 1 (peerRid node) n)

end Sys2Proof.Machine
end

