-- ==== Sys2Proof/Machine/Preempt.lean ====
section
/-! DEFINITION. Pre-emption, saving, restoring, watchdogs, and power leave as it is granted or denied (R365, R367, R376,
R377, R389 to R399, R428). -/

namespace Sys2Proof.Machine

open Sys2Proof.Bits

/-! ## The stop order (R365, R367, R389) -/

/-- What a stop order does at once: the block is discarded when it is unbound and no request of it has left the core. -/
def discardFree (s : State) (i : Nat) : State :=
  match (s.inst? i).bind fun n => n.ctl.blk with
  | some b => if b.bound || undecided s i b then s else discardBlock s i
  | none => s

/-- An instance is ordered to stop (R389), in the mode of its launch record, or as under DISCARD when forced (R367), once
each of its leaves can be commanded (R402). -/
def stopOrder (s : State) (i : Nat) (forced : Bool) : State :=
  match s.inst? i with
  | none => s
  | some n =>
    if !canCommand s n.leaves then s
    else
      let s := commandAll (s.note (.preempt i)) n.leaves (.stop i)
      discardFree (s.modInst i fun x => { x with
        life := .stopping, discard := forced || recDiscard (recordOf s n), regDone := n.reg.isNone, saveFrom := s.cycle }) i

/-- BORROW_LIMIT (R367): the borrowers of a tenant's reserved rectangle stop in DISCARD mode once 1 ms of the trailing
10 ms has been borrowed. -/
def execBorrowLimit (tenant : BitVec 4) (s : State) : Host.Outcome State Fault Refusal :=
  match (s.tenant tenant.toNat).reserved with
  | none => .next s
  | some r =>
    if borrowedTime s tenant.toNat < borrowLimitCycles then .next s
    else
      let out := s.insts.filterMap fun (x : Nat × Inst) =>
        if x.2.life == .running && !x.2.completed && s.tenantOf x.2.ctx != tenant.toNat && (x.2.rect.map fun o => rectMeets o r).getD false then some x.1
        else none
      .next (out.foldl (fun s i => stopOrder s i true) s)

/-! ## The region stops (R390) -/

/-- A region stopped for a save: what is in flight is rolled back, leave is returned, the nest stays where it is. -/
def stopForSave (s : State) (i : Nat) : State :=
  (returnLeave (rollback s i) i).modInst i fun n => { n with regDone := true }

/-- REGION_STOP_DISCARD (R390). -/
def execRegionStopDiscard (i : Nat) (s : State) : Host.Outcome State Fault Refusal :=
  match s.inst? i with
  | none => .next s
  | some n => .next (if n.life == .stopping && n.discard && !n.regDone then stopForSave s i else s)

/-- REGION_STOP_FINISH (R390): no new iteration has started, and those in flight have committed or been discarded. -/
def execRegionStopFinish (i : Nat) (s : State) : Host.Outcome State Fault Refusal :=
  match s.inst? i with
  | none => .next s
  | some n =>
    let empty := (n.reg.map fun r => r.iters.isEmpty).getD true
    .next (if n.life == .stopping && !n.discard && !n.regDone && empty then stopForSave s i else s)

/-! ## The save of a control context (R389, R392 to R396) -/

/-- The module's write into an instance's save area; none when it faults: then the save stalls (R392). -/
def saveWrite (s : State) (n : Inst) (off : Nat) (bs : List Byte) : Option State :=
  match writeVirt s (dieOfCore n.cluster) n.ctx (saveBase (recordOf s n) n.pos + BitVec.ofNat 64 off) bs with
  | (s, none) => some s
  | (_, some _) => none

/-- STATE of the header written; a write that faults is dropped and logged (log 39). -/
def saveState (s : State) (n : Inst) (st : Nat) : State :=
  writeRecord s n.ctx (saveBase (recordOf s n) n.pos + 0x0F) [BitVec.ofNat 8 st]

/-- The context stands at a boundary with nothing due (R389): no block, no trap, no wait but that of HALT or YIELD. -/
def Ctl.savable (c : Ctl) : Bool :=
  c.blk.isNone && c.due.isNone && (c.async.isEmpty || c.cur)
    && c.wait.all fun w => match w with
      | .halted => true
      | .yield .. => true
      | _ => false

/-- What of a region stays with the module over a save: the marks of its status, its watchdog, what its iterations to start
again carry, and the faults that hold it (log 46). -/
def Region.shell (r : Region) : Region :=
  { Region.fresh r.rect r.variant r.setoff r.routes with
    retries := r.retries, retried := r.retried, dataErr := r.dataErr, watch := r.watch, expired := r.expired, marks := r.marks
    replayed := r.replayed, remarks := r.remarks, ksets := r.ksets, heldBy := r.heldBy }

/-- Semaphores of the context at its core go with it: they are free there, and grants lapse (R397; log 47). -/
def freeSems (s : State) (core ctx : Nat) : State :=
  (ownedSems s core ctx).foldl (fun s k => s.modSem core k fun _ => Sem.fresh) s

/-- The FEs of a stopped region are parked: they keep what they hold (R391). -/
def parkFes (s : State) (i : Nat) (n : Inst) : State :=
  (fesOf s i n).foldl (fun s x => s.modFe x fun f => { f with parkedFor := some i, claimedAt := none }) s

/-- The saved state stands in the area: the context slot is free, the FEs are parked. -/
def becomeSaved (s : State) (i : Nat) (n : Inst) : State :=
  let owned := ownedSems s n.cluster n.ctx
  let s := freeSems (parkFes (endBorrow s n) i n) n.cluster n.ctx
  s.modInst i fun n => { n with
    life := .saved, bytes := 0x1000, reg := n.reg.map Region.shell, slot := 4, sems := owned
    ctl := { Ctl.fresh 0 0 with
      async := n.ctl.async, wait := n.ctl.wait, acq := n.ctl.acq, watch := n.ctl.watch, expired := n.ctl.expired, inHalt := n.ctl.inHalt, traps := n.ctl.traps } }

/-- CONTEXT_PREEMPT (R389): the order goes to a victim; then the block is discarded or commits, the area's header says
saving, and the registers and nest state are written. -/
def execContextPreempt (i : Nat) (s : State) : Host.Outcome State Fault Refusal :=
  match s.inst? i with
  | none => .next s
  | some n =>
    let ws := recordOf s n
    if underReset s i then .next s
    else match n.life with
    | .running => .next (if isVictim s i then stopOrder s i false else s)
    | .stopping =>
      if n.completed then .next s
      else if n.ctl.blk.isSome then .next (discardFree s i)
      else if !n.ctl.savable || !n.regDone then .next s
      else match saveWrite s n 0 (headerBytes s n ws 0x01 0x100) with
        | some s => .next (s.modInst i fun n => { n with life := .saving, bytes := 0x100 })
        | none => .next s
    | .saving =>
      match saveWrite s n 0 (headerBytes s n ws 0x02 0x1000 ++ ctlBytes s n ++ nestBytes n) with
      | some s => .next (becomeSaved s i n)
      | none => .next s
    | _ => .next s

/-! ## A lost context (R397, R399) -/

/-- A context lost: STATE 0x04, a record in the fault log, and the instance arrives FAULTED with LASTFAULT 0x28 (R399). -/
def loseInst (s : State) (i : Nat) (n : Inst) : State :=
  let s := saveState s n 0x04
  let s := if n.life = .saved then releaseFes s (fesOf s i n) else rollback (discardBlock s i) i
  let s := (dropRestore (returnLeave s i) i).modInst i fun x =>
    let x := if n.life = .saved then x.vacate else x
    { x with life := .ended, faultEnd := some codeWatchdog, kept := []
             ctl := { x.ctl with blk := none, due := none, async := [], wait := [] } }
  s.logInst n codeWatchdog (saveBase (recordOf s n) n.pos).toNat 0

/-- Control cycles of the save bound, 2 ms. -/
def saveBound : Nat := 2000 * cyclesPerUs

/-- A claim on a parked FE of the instance is older than the bound. -/
def claimLate (s : State) (i : Nat) : Bool :=
  s.fes.any fun (x : Nat × Fe) => x.2.parkedFor == some i && match x.2.claimedAt with
    | some t => t + saveBound ≤ s.cycle
    | none => false

/-- SAVE_TIMEOUT (R399). A block that has bound, or whose request is not decided, is waited for (R82, R424). -/
def execSaveTimeout (i : Nat) (s : State) : Host.Outcome State Fault Refusal :=
  match s.inst? i with
  | none => .next s
  | some n =>
    let late := ((n.life == .stopping || n.life == .saving) && n.saveFrom + saveBound ≤ s.cycle) || (n.life == .saved && claimLate s i)
    .next (if late && !underReset s i && n.settled s i then loseInst s i n else s)

/-! ## Where a restore goes (R397) -/

/-- A saved instance stands at the head of its queue and its turn has come, as far as it finds a place (R364, R390). -/
def restoreTurn (s : State) (i : Nat) (n : Inst) : Bool :=
  match aget n.launch s.launches with
  | none => false
  | some l => (savedOf s l.tenant l.cls).head? == some i
      && (!restorable s i || turnOk s (boardOf s true fun _ => false) l.tenant l.die l.cls)

/-- Parked FEs that the restore of `i` needs saved first: its own, when it goes to another rectangle (R428), and those of
others that it claims (R391). -/
def restoreNeeds (s : State) (i : Nat) : List Nat :=
  match s.inst? i with
  | none => []
  | some n =>
    if n.life != .saved || !restoreTurn s i n then []
    else match readArea s n with
      | (_, .error _) => []
      | (_, .ok area) => match restoreSpot s i n area with
        | none => []
        | some (p, claims) =>
          let mine := s.fes.filterMap fun (x : Nat × Fe) => if x.2.parkedFor == some i then some x.1 else none
          let cells := ((p.rect.map rectCells).getD []).map fun c => feIndex c.1 c.2
          (if p.rect == n.rect then [] else mine)
            ++ (if claims then cells.filter fun x => (s.fe x).parkedFor.isSome && (s.fe x).parkedFor != some i else [])

/-- A parked FE has to be saved: a launch or a restore claims it, or it was claimed before. -/
def mustSave (s : State) (x : Nat) : Bool :=
  (s.fe x).claimedAt.isSome || claimed s x || s.insts.any fun (y : Nat × Inst) => (restoreNeeds s y.1).contains x

/-- A shelf copied from or to its image in the save area, token by token (R391, R397). -/
def copyShelf (s : State) (x : Nat) (ps : List Piece) (save : Bool) : State :=
  (ps.foldl (fun (a : State × Nat) p =>
    (if save then copyRun a.1 (shelfKey x a.2) p.key p.n else copyRun a.1 p.key (shelfKey x a.2) p.n, a.2 + p.n)) (s, 0)).1

/-- The shelf of an FE written into its image in the area; none when that faults: the save stalls (R392). -/
def saveShelf (s : State) (n : Inst) (off x : Nat) : Option State :=
  match xlateNow s (dieOfCore n.cluster) n.ctx (saveBase (recordOf s n) n.pos + BitVec.ofNat 64 off) 0x8000 1 (moduleAccess true) with
  | (s, .ok ps) => some (copyShelf s x ps true)
  | _ => none

/-- Those FEs that no claim has named yet. -/
def unclaimed (s : State) (xs : List Nat) : List Nat := xs.filter fun x => (s.fe x).claimedAt.isNone

/-- The leaves that a claim of these FEs commands. -/
def claimLeaves (s : State) (xs : List Nat) : List Nat := ((unclaimed s xs).map leafOfFe).dedup

/-- Parked FEs claimed in one step (R391, R428), and their leaves commanded to save them (R402). -/
def claimAll (s : State) (xs : List Nat) : State :=
  let new := unclaimed s xs
  let t := new.foldl (fun s x => (s.note (.claim ((s.fe x).parkedFor.getD 0) x)).modFe x fun f => { f with claimedAt := some s.cycle }) s
  commandAll t (claimLeaves s xs) (.save new)

/-- FE_LAZY_SAVE (R391, R392, R428): the FE is claimed; then, out of retention (R52), its shelf, its record and its extension
go into the area, and it is released. -/
def execFeLazySave (i : Nat) (fe : FeAt) (s : State) : Host.Outcome State Fault Refusal :=
  match s.inst? i, s.feOf i fe with
  | some n, some x =>
    let f := s.fe x
    if n.life != .saved || f.parkedFor != some i || !mustSave s x then .next s
    else if f.claimedAt.isNone then .next (if canCommand s [leafOfFe x] then claimAll s [x] else s)
    else if s.asleep (shelfKey x 0) then .next s
    else
      let ext := extensionBytes f
      let bs := feRecord f ++ ext
      let total := n.bytes + 0x8000 + bs.length
      let off := feSlotOff (recordOf s n) fe.c fe.w
      match ((saveShelf s n off x).bind fun t => saveWrite t n (off + 0x8000) bs).bind fun t => saveWrite t n 0x38 (leBytes 8 total) with
      | none => .next s
      | some t => .next (releaseFes (t.modInst i fun n => { n with bytes := total }) [x])
  | _, _ => .next s

/-! ## RESTORE (R397) -/

/-- The nest of a restored region, from the block at NESTBLK (R394): none when that is 0; an error when the block cannot be
fetched or is no nest block. -/
def restoredNest (s : State) (n : Inst) (area : List Byte) : State × Except (Nat × Word) (Option Nest) :=
  let a := areaWord area 0x18
  if a = 0 then (s, .ok none)
  else match fetchWords s n true a with
    | (s, .fault c fa) => (s, .error (c, fa))
    | (s, .miss _) => (s, .error (codeWait, 0))
    | (s, .ok ws) =>
      if (decodeCheck ws true true).isSome || !Layout.isNest ws then (s, .error (codeIllegal, 0))
      else
        let f := numAt area 0xE58 1
        (s, .ok (some { blk := a, loop := Layout.loop ws, binds := (List.range (Layout.nbind ws)).map (Layout.binding ws)
                        ctxset := Layout.ctxset ws, bound := Layout.budget ws, draw := Layout.draw ws, run := bit f 1, after := 0
                        resume := false, started := bit f 0, failed := bit f 2, loaded := [] }))

/-- Context slot `k` of an FE filled again with the context that its record names; a bad one leaves it empty. -/
def restoredSlot (n : Inst) (core : Nat) (record : List Byte) (x : State × Fe) (k : Nat) : State × Fe :=
  let id := numAt record (2 * k) 2
  if id = 0 then x
  else match storeItem x.1 n core 0 id with
    | (s, .found ws) => (s, if Cfg.bad ws then x.2 else { x.2 with slots := x.2.slots.set k ws })
    | (s, _) => (s, x.2)

/-- Contexts of a record's slots, loaded again from the image by identifier (R395). -/
def restoredSlots (s : State) (n : Inst) (core : Nat) (record : List Byte) (f : Fe) : State × Fe :=
  let (s, f) := (List.range 8).foldl (restoredSlot n core record) (s, f)
  let f := { f with run := recordRun record }
  if Cfg.ring f.ctxWords = 0 then (s, f)
  else match storeItem s n core 2 (Cfg.ring f.ctxWords) with
    | (s, .found ws) => (s, { f with ring := Cfg.ringOf ws })
    | (s, _) => (s, f)

/-- One FE of the new rectangle: kept in place when it is still parked there, else copied from the area (R397, step 2).
None when the area cannot be read. -/
def restoreFe (s : State) (i : Nat) (n : Inst) (ws : List Word) (r : Rect) (c w : Nat) : Option State :=
  let x := rectFe r c w
  if (s.fe x).parkedFor = some i then some (s.modFe x fun f => { f with parkedFor := none, claimedAt := none })
  else
    let base := saveBase ws n.pos + BitVec.ofNat 64 (feSlotOff ws c w)
    match xlateNow s (dieOfCore n.cluster) n.ctx base 0x8000 1 (moduleAccess false) with
    | (s, .ok ps) => match readVirt s (dieOfCore n.cluster) n.ctx (base + 0x8000) 0x4600 1 (moduleAccess false) with
      | (_, .error _) => none
      | (s, .ok bs) =>
        let record := bs.take 0x800
        let (s, f) := restoredSlots s n (rectCore r c w) record (readFe record (bs.drop 0x800))
        some { copyShelf s x ps false with fes := aset x f s.fes }
    | _ => none

/-- All FEs of the new rectangle. -/
def restoreFes (i : Nat) (n : Inst) (ws : List Word) (r : Rect) : State → List (Nat × Nat) → Option State
  | s, [] => some s
  | s, x :: xs =>
    match restoreFe s i n ws r x.1 x.2 with
    | some s => restoreFes i n ws r s xs
    | none => none

/-- Kept deliveries applied, in arrival order (R396; R397, step 3). -/
def applyKept (s : State) (i : Nat) (k : Kept) : State :=
  match k with
  | .token reg v rel => s.modCtl i fun c => c.setToken reg v rel
  | .semaphore sem => match s.inst? i with
    | some n => semAdd s n.cluster sem 1
    | none => s
  | .ecstate ec v => s.modCtl i fun c => { c with ecstate := c.ecstate.setIfInBounds ec v }
  | .event b => postEvent s i b
  | .report v => s.modCtl i fun c => { c with resetStat := v }
  | .async t => postAsync s i t

/-- The region of a restored instance in its new place; with no leave it is stopped, and LEAVE_DENIED was raised (log 48). -/
def restoredRegion (n : Inst) (p : Spot) (routes : List Word) (area : List Byte) (nest : Option Nest) (leave : Option Nat) (stop : Bool) :
    Option Region :=
  match n.reg, p.rect with
  | some old, some rect =>
    let r := readNest area (Region.fresh rect p.variant p.setoff routes)
    let code := bits (numAt area 8 8) 41 40
    let going := (code == 1 || code == 2) && !stop && nest.isSome
    let vec := if (nest.map fun x => x.started).getD false then some (readVec area) else none
    some { r with
      retries := old.retries, retried := old.retried, dataErr := old.dataErr, watch := old.watch, expired := old.expired
      marks := old.marks, replayed := old.replayed, remarks := old.remarks, ksets := old.ksets, heldBy := if going && code == 2 then old.heldBy else [], leave
      phase := if !going then .idle else if code = 1 then .running else .held
      nextVec := if going then vec else none
      nest := nest.map fun x => if going then { x with started := false, resume := x.started, loaded := [] } else x }
  | _, _ => none

/-- The semaphores of a restored context, owned again at its new core (R397). -/
def restoreSems (s : State) (n : Inst) (core ctx : Nat) (area : List Byte) : State :=
  (savedSems n area).foldl (fun s k => s.modSem core k fun _ =>
    { Sem.fresh with count := BitVec.ofNat 32 (readSemCount area k), owner := some (BitVec.ofNat 8 ctx) }) s

/-- The units of leave that a restored region needs; none when its nest neither runs nor is held. -/
def restoreDraw (area : List Byte) (nest : Option Nest) (p : Spot) : Option Nat :=
  let code := bits (numAt area 8 8) 41 40
  match nest, p.rect with
  | some x, some r => if code = 1 ∨ code = 2 then some (x.draw * (r.w * r.h)) else none
  | _, _ => none

/-- LEAVE_DENIED stands among the kept faults of a restore. -/
def restoreDenied (n : Inst) : Bool := n.kept.any fun k => match k with
  | .async t => t.code == codeLeaveDenied && t.slot == 0xC0
  | _ => false

/-- A region fault kept for a context that is being restored. -/
def keepFault (s : State) (i code : Nat) (addr : Word) (vec : List Nat) : State :=
  s.modInst i fun n => { n with
    kept := n.kept ++ [.async ⟨code, 0, 0xC0, addr, some (regionArg 0 0 0 0 0), some vec, 0⟩] }

/-- The restore itself, with its place, its nest and its leave settled. -/
def performRestore (s : State) (i : Nat) (n : Inst) (p : Spot) (area : List Byte) (nest : Option Nest) (stop : Bool) : Option State :=
  if !canCommand s (leavesAt p.core p.rect) then none
  else
  let ws := recordOf s n
  let s := commandAll s (leavesAt p.core p.rect) (.restore i)
  let cells := match p.rect with
    | some r => relCells r
    | none => []
  match restoreFes i n ws (p.rect.getD ⟨0, 0, 0, 0⟩) s cells with
  | none => none
  | some s =>
    match saveWrite s n 0x0F [0x03] with
    | none => none
    | some s =>
      let leave := n.reg.bind fun r => r.leave
      let routes := routesOf (s.imageOf n) p
      let s := sendSets s { n with cluster := p.core } (s.imageOf n) p
      let s := s.modInst i fun n => { n with
        life := .running, cluster := p.core, slot := p.slot, regDone := false, discard := false, placedAt := s.cycle, kept := []
        ctl := savedCtl area n.ctl, reg := restoredRegion n p routes area nest leave stop }
      let s := restoreSems s n p.core n.ctx area
      let s := s.modCore p.core fun c => { c with cache := [] }
      let s := n.kept.foldl (fun s k => applyKept s i k) s
      match aget n.launch s.launches with
      | some l => some ((serve s l.tenant l.die l.cls 1).note (.place (placeRec s i n.serial n.ctx l.cls p)))
      | none => some s

/-- Leave for a restore: asked for at the die of the chosen core, and waited for (R377, R390). -/
def restoreWithLeave (s : State) (i : Nat) (n : Inst) (p : Spot) (area : List Byte) (nest : Option Nest) (units : Nat) : State :=
  let held := n.reg.bind fun r => r.leave
  if s.leaves.any fun (q : Nat × LeaveReq) => q.2.for_ == .restore i then s
  else if restoreDenied n then (performRestore s i n p area nest true).getD s
  else if held = some units ∧ dieOfCore n.cluster = dieOfCore p.core then (performRestore s i n p area nest false).getD s
  else
    let s := (returnLeave s i).modInst i fun n => { n with cluster := p.core }
    match askLeave s (.restore i) (dieOfCore p.core) (s.classOf n) units with
    | some s => s
    | none => keepFault s i codeLeaveDenied 0 (readVec area)

/-- A restore for which no rectangle could ever qualify is refused (R170, R223, R397): STATE of its launch record and the status
of its DONE barrier say so. The instance stays saved, so that it does not arrive (log 67). -/
def refuseRestore (s : State) (n : Inst) : State :=
  match aget n.launch s.launches with
  | none => s
  | some l =>
    let s := (writeState s l.ctx l.addr 0x42).logInst n 0x42 l.addr.toNat 0
    if recOnce l.words then s.modLaunch n.launch fun l => l.merge 8 0 0x42 else doneStatus s l 8 0 0x42

/-- The restore once its header agrees. -/
def restoreFrom (s : State) (i : Nat) (n : Inst) (area : List Byte) : State :=
  let ws := recordOf s n
  match restoreSpot s i n area with
  | none => match liveFes s i n ws with
    | some live =>
      if (findSpot s .empty { restoreAsk s n ws live area true with coreOk := fun _ => true } .module).isSome then s
      else refuseRestore s n
    | none => s
  | some (p, claims) =>
    let asleep := ((p.rect.map rectCells).getD []).any fun x => s.asleep (shelfKey (feIndex x.1 x.2) 0)
    let needs := restoreNeeds s i
    if claims || (p.rect != n.rect && s.fes.any fun (x : Nat × Fe) => x.2.parkedFor == some i) then
      (if canCommand s (claimLeaves s needs) then claimAll s needs else s)
    else if asleep then s
    else match restoredNest s n area with
      | (t, .error (c, fa)) =>
        if c = codeWait then s
        else
          let t := keepFault t i c fa (readVec area)
          match t.inst? i with
          | some n => (performRestore t i n p area none true).getD s
          | none => t
      | (s, .ok nest) => match restoreDraw area nest p with
        | some units => restoreWithLeave s i n p area nest units
        | none => (performRestore s i n p area nest false).getD s

/-- RESTORE (R395, R397): the saved instance at the head of its queue, once every write of it has performed. -/
def execRestore (i : Nat) (s : State) : Host.Outcome State Fault Refusal :=
  match s.inst? i with
  | none => .next s
  | some n =>
    if schedPaused s || n.life != .saved || !outboundEmpty s i || !restoreTurn s i n then .next s
    else match readArea s n with
      | (_, .error _) => .next s
      | (t, .ok area) =>
        .next (if headerAgrees t n (recordOf t n) area then restoreFrom t i n area else loseInst t i n)

/-! ## Watchdogs (R398) -/

/-- Control cycles of a tenant's watchdog limit. -/
def watchLimit (s : State) (n : Inst) : Nat := (s.tenant (s.tenantOf n.ctx)).watchdogUs * cyclesPerUs

/-- The watchdog's fault (R382): FAULTARG 0 for the control context, 1 for the region. -/
def watchFault (arg : Nat) (vec : Option (List Nat)) : TrapInfo := ⟨codeWatchdog, 0, 0xC4, 0, some (BitVec.ofNat 64 arg), vec, 0⟩

/-- The control context's watchdog. A second expiry ends the instance once its block has not bound and no request of it is
undecided (R82, R424; DESIGN CHOICE, log 121). -/
def watchCtl (s : State) (i : Nat) (n : Inst) : State :=
  if n.ctl.watch < watchLimit s n then s
  else if n.ctl.expired then (if n.settled s i then endInstance s i codeWatchdog else s)
  else postAsync (s.modCtl i fun c => { c with expired := true, watch := 0 }) i (watchFault 0 none)

/-- The region's watchdog: an expiry stops the region. Its count returns to zero at an iteration commit alone, over stops and
starts of nests too (DEDUCED, log 100), and at the expiry. -/
def watchRegion (s : State) (i : Nat) (n : Inst) (r : Region) : State :=
  if r.watch < watchLimit s n then s
  else if r.expired then (if n.settled s i then endInstance s i codeWatchdog else s)
  else
    let vec := regionVec r none
    (stopRegion (postAsync s i (watchFault 1 (some vec))) i).modReg i fun r => { r with expired := true, watch := 0 }

/-- WATCHDOG (R398): of the control context, or of the region while its nest runs. -/
def execWatchdog (i : Nat) (ofRegion : Bool) (s : State) : Host.Outcome State Fault Refusal :=
  match s.inst? i with
  | none => .next s
  | some n =>
    if n.life != .running || n.completed then .next s
    else if ofRegion then match n.reg with
      | some r => .next (if r.phase == .running then watchRegion s i n r else s)
      | none => .next s
    else .next (watchCtl s i n)

/-! ## Leave granted and denied (R376, R377) -/

/-- The grant reaches who asked. -/
def grantTo (s : State) (r : LeaveReq) : State :=
  match r.for_ with
  | .frun i => grantFrun s i r.units
  | .record k => match aget k s.recs with
    | some x => let x := { x with leave := some r.units }; activate { s with recs := aset k x s.recs } k x
    | none => s
  | .restore i => s.modReg i fun g => { g with leave := some r.units }

/-- A grant has somebody to reach: FRUN's block takes none while an asynchronous fault stands before its context, which
discards it (R417). -/
def LeaveReq.open (s : State) (r : LeaveReq) : Bool :=
  match r.for_ with
  | .frun i => match s.inst? i with
    | some n => !n.ctl.asyncDue
    | none => true
  | _ => true

/-- LEAVE_GRANT (R377, R404): request `q`, when it may be granted now and the scheduler runs. -/
def execLeaveGrant (q : Nat) (s : State) : Host.Outcome State Fault Refusal :=
  match aget q s.leaves with
  | none => .next s
  | some r => .next (if !schedPaused s && leaveMay s q r && r.open s then grantTo ((takeLeave s q r).note (.grant q)) r else s)

/-- LEAVE_DENIED reaches who asked. -/
def denyTo (s : State) (r : LeaveReq) : State :=
  match r.for_ with
  | .frun i => match frunSlot s i with
    | some k => raise s i codeLeaveDenied k 0
    | none => s
  | .record k => match aget k s.recs with
    | some x => recordFault s k x codeLeaveDenied x.addr
    | none => s
  | .restore i => match (s.inst? i).map fun n => readArea s n with
    | some (s, .ok area) => keepFault s i codeLeaveDenied 0 (readVec area)
    | _ => keepFault s i codeLeaveDenied 0 [0, 0, 0, 0, 0, 0]

/-- LEAVE_TIMEOUT (R306, R377): a request that has waited 200 µs. -/
def execLeaveTimeout (q : Nat) (s : State) : Host.Outcome State Fault Refusal :=
  match aget q s.leaves with
  | none => .next s
  | some r => .next (if r.since + leaveCycles ≤ s.cycle then denyTo { s with leaves := adel q s.leaves } r else s)

end Sys2Proof.Machine
end

