-- ==== Sys2Proof/Machine/Stoch.lean ====
section
/-! DEFINITION. The stochastic element operations (R328 to R343): each fires an FE in stochastic mode. -/

namespace Sys2Proof.Machine

open Sys2Proof.Machine.Elements

/-- SGEN (R337). -/
def execSgen (i : Nat) (fe : FeAt) (s : State) : Host.Outcome State Fault Refusal :=
  fireFe 0x20 sgenFire false i fe s

/-- SAND (R335). -/
def execSand (i : Nat) (fe : FeAt) (s : State) : Host.Outcome State Fault Refusal :=
  fireFe 0x21 (disjointFire fun a b => a &&& b) false i fe s

/-- SOR (R335). -/
def execSor (i : Nat) (fe : FeAt) (s : State) : Host.Outcome State Fault Refusal :=
  fireFe 0x22 (disjointFire fun a b => a ||| b) false i fe s

/-- SMUX (R335). -/
def execSmux (i : Nat) (fe : FeAt) (s : State) : Host.Outcome State Fault Refusal :=
  fireFe 0x23 smuxFire false i fe s

/-- SNOT (R335). -/
def execSnot (i : Nat) (fe : FeAt) (s : State) : Host.Outcome State Fault Refusal :=
  fireFe 0x24 snotFire false i fe s

/-- SMINC (R335). -/
def execSminc (i : Nat) (fe : FeAt) (s : State) : Host.Outcome State Fault Refusal :=
  fireFe 0x25 (sameFire fun a b => a &&& b) false i fe s

/-- SMAXC (R335). -/
def execSmaxc (i : Nat) (fe : FeAt) (s : State) : Host.Outcome State Fault Refusal :=
  fireFe 0x26 (sameFire fun a b => a ||| b) false i fe s

/-- SXOR (R335). -/
def execSxor (i : Nat) (fe : FeAt) (s : State) : Host.Outcome State Fault Refusal :=
  fireFe 0x27 (sameFire fun a b => a ^^^ b) false i fe s

/-- SCNT (R339). -/
def execScnt (i : Nat) (fe : FeAt) (s : State) : Host.Outcome State Fault Refusal :=
  fireFe 0x28 scntFire false i fe s

/-- SREGEN (R340). -/
def execSregen (i : Nat) (fe : FeAt) (s : State) : Host.Outcome State Fault Refusal :=
  fireFe 0x29 sregenFire false i fe s

/-- SFSM (R341). -/
def execSfsm (i : Nat) (fe : FeAt) (s : State) : Host.Outcome State Fault Refusal :=
  fireFe 0x2A sfsmFire false i fe s

end Sys2Proof.Machine
end

