-- ==== Sys2Proof/Machine/Dispatch.lean ====
section
/-! DEFINITION. The one match over the instructions: each arm is one direct call of the instruction's meaning. -/

namespace Sys2Proof.Machine

def exec (i : Instr) (s : State) : Host.Outcome State Fault Refusal :=
  match i with
  | .bringUp b => Sys2Proof.Machine.execBringUp b s
  | .contextCreate ctx d => Sys2Proof.Machine.execContextCreate ctx d s
  | .contextDestroy ctx => Sys2Proof.Machine.execContextDestroy ctx s
  | .channelDestroy handle => Sys2Proof.Machine.execChannelDestroy handle s
  | .firmwareGrant g => Sys2Proof.Machine.execFirmwareGrant g s
  | .blockFetch q => Sys2Proof.Machine.execBlockFetch q s
  | .blockStart q => Sys2Proof.Machine.execBlockStart q s
  | .blockCommit q => Sys2Proof.Machine.execBlockCommit q s
  | .blockStall q => Sys2Proof.Machine.execBlockStall q s
  | .trapEntry q => Sys2Proof.Machine.execTrapEntry q s
  | .fan f => Sys2Proof.Machine.execFan f s
  | .null f => Sys2Proof.Machine.execNull f s
  | .movi f => Sys2Proof.Machine.execMovi f s
  | .appi f => Sys2Proof.Machine.execAppi f s
  | .add f => Sys2Proof.Machine.execAdd f s
  | .sub f => Sys2Proof.Machine.execSub f s
  | .mul f => Sys2Proof.Machine.execMul f s
  | .mulh f => Sys2Proof.Machine.execMulh f s
  | .mulhu f => Sys2Proof.Machine.execMulhu f s
  | .div f => Sys2Proof.Machine.execDiv f s
  | .divu f => Sys2Proof.Machine.execDivu f s
  | .rem f => Sys2Proof.Machine.execRem f s
  | .remu f => Sys2Proof.Machine.execRemu f s
  | .and f => Sys2Proof.Machine.execAnd f s
  | .or f => Sys2Proof.Machine.execOr f s
  | .xor f => Sys2Proof.Machine.execXor f s
  | .andn f => Sys2Proof.Machine.execAndn f s
  | .shl f => Sys2Proof.Machine.execShl f s
  | .shr f => Sys2Proof.Machine.execShr f s
  | .sra f => Sys2Proof.Machine.execSra f s
  | .rol f => Sys2Proof.Machine.execRol f s
  | .ror f => Sys2Proof.Machine.execRor f s
  | .min f => Sys2Proof.Machine.execMin f s
  | .max f => Sys2Proof.Machine.execMax f s
  | .minu f => Sys2Proof.Machine.execMinu f s
  | .maxu f => Sys2Proof.Machine.execMaxu f s
  | .adds f => Sys2Proof.Machine.execAdds f s
  | .subs f => Sys2Proof.Machine.execSubs f s
  | .addus f => Sys2Proof.Machine.execAddus f s
  | .subus f => Sys2Proof.Machine.execSubus f s
  | .clz f => Sys2Proof.Machine.execClz f s
  | .ctz f => Sys2Proof.Machine.execCtz f s
  | .popc f => Sys2Proof.Machine.execPopc f s
  | .bswap f => Sys2Proof.Machine.execBswap f s
  | .sext f => Sys2Proof.Machine.execSext f s
  | .zext f => Sys2Proof.Machine.execZext f s
  | .neg f => Sys2Proof.Machine.execNeg f s
  | .not f => Sys2Proof.Machine.execNot f s
  | .abs f => Sys2Proof.Machine.execAbs f s
  | .bfx f => Sys2Proof.Machine.execBfx f s
  | .bfi f => Sys2Proof.Machine.execBfi f s
  | .teq f => Sys2Proof.Machine.execTeq f s
  | .tne f => Sys2Proof.Machine.execTne f s
  | .tlt f => Sys2Proof.Machine.execTlt f s
  | .tltu f => Sys2Proof.Machine.execTltu f s
  | .tle f => Sys2Proof.Machine.execTle f s
  | .tleu f => Sys2Proof.Machine.execTleu f s
  | .tgt f => Sys2Proof.Machine.execTgt f s
  | .tgtu f => Sys2Proof.Machine.execTgtu f s
  | .tge f => Sys2Proof.Machine.execTge f s
  | .tgeu f => Sys2Proof.Machine.execTgeu f s
  | .tbs f => Sys2Proof.Machine.execTbs f s
  | .tbc f => Sys2Proof.Machine.execTbc f s
  | .sel f => Sys2Proof.Machine.execSel f s
  | .wid f => Sys2Proof.Machine.execWid f s
  | .time f => Sys2Proof.Machine.execTime f s
  | .cyc f => Sys2Proof.Machine.execCyc f s
  | .ctx f => Sys2Proof.Machine.execCtx f s
  | .ld f => Sys2Proof.Machine.execLd f s
  | .st f => Sys2Proof.Machine.execSt f s
  | .pft f => Sys2Proof.Machine.execPft f s
  | .aadd f => Sys2Proof.Machine.execAadd f s
  | .aand f => Sys2Proof.Machine.execAand f s
  | .aor f => Sys2Proof.Machine.execAor f s
  | .axor f => Sys2Proof.Machine.execAxor f s
  | .amin f => Sys2Proof.Machine.execAmin f s
  | .amax f => Sys2Proof.Machine.execAmax f s
  | .aminu f => Sys2Proof.Machine.execAminu f s
  | .amaxu f => Sys2Proof.Machine.execAmaxu f s
  | .aswp f => Sys2Proof.Machine.execAswp f s
  | .acas f => Sys2Proof.Machine.execAcas f s
  | .fence f => Sys2Proof.Machine.execFence f s
  | .chsend f => Sys2Proof.Machine.execChsend f s
  | .chrecv f => Sys2Proof.Machine.execChrecv f s
  | .chtry f => Sys2Proof.Machine.execChtry f s
  | .chlen f => Sys2Proof.Machine.execChlen f s
  | .chclose f => Sys2Proof.Machine.execChclose f s
  | .semwait f => Sys2Proof.Machine.execSemwait f s
  | .sempost f => Sys2Proof.Machine.execSempost f s
  | .semread f => Sys2Proof.Machine.execSemread f s
  | .barinit f => Sys2Proof.Machine.execBarinit f s
  | .bararr f => Sys2Proof.Machine.execBararr f s
  | .barwait f => Sys2Proof.Machine.execBarwait f s
  | .cpy f => Sys2Proof.Machine.execCpy f s
  | .cpyc f => Sys2Proof.Machine.execCpyc f s
  | .cpyt f => Sys2Proof.Machine.execCpyt f s
  | .xtload f => Sys2Proof.Machine.execXtload f s
  | .xstat f => Sys2Proof.Machine.execXstat f s
  | .launch f => Sys2Proof.Machine.execLaunch f s
  | .qreset f => Sys2Proof.Machine.execQreset f s
  | .yield f => Sys2Proof.Machine.execYield f s
  | .yieldTimeout q => Sys2Proof.Machine.execYieldTimeout q s
  | .br f => Sys2Proof.Machine.execBr f s
  | .bri f => Sys2Proof.Machine.execBri f s
  | .call f => Sys2Proof.Machine.execCall f s
  | .calli f => Sys2Proof.Machine.execCalli f s
  | .halt f => Sys2Proof.Machine.execHalt f s
  | .trap f => Sys2Proof.Machine.execTrap f s
  | .sysr f => Sys2Proof.Machine.execSysr f s
  | .sysw f => Sys2Proof.Machine.execSysw f s
  | .tlbinv f => Sys2Proof.Machine.execTlbinv f s
  | .tlbinvDone q => Sys2Proof.Machine.execTlbinvDone q s
  | .bcinv f => Sys2Proof.Machine.execBcinv f s
  | .bcinvDone q => Sys2Proof.Machine.execBcinvDone q s
  | .eret f => Sys2Proof.Machine.execEret f s
  | .waitev f => Sys2Proof.Machine.execWaitev f s
  | .waitevTimeout q => Sys2Proof.Machine.execWaitevTimeout q s
  | .src f => Sys2Proof.Machine.execSrc f s
  | .snk f => Sys2Proof.Machine.execSnk f s
  | .accr f => Sys2Proof.Machine.execAccr f s
  | .accd f => Sys2Proof.Machine.execAccd f s
  | .kset f => Sys2Proof.Machine.execKset f s
  | .mark f => Sys2Proof.Machine.execMark f s
  | .fmtw f => Sys2Proof.Machine.execFmtw f s
  | .scalew f => Sys2Proof.Machine.execScalew f s
  | .genseed f => Sys2Proof.Machine.execGenseed f s
  | .fwait f => Sys2Proof.Machine.execFwait f s
  | .fwaitTimeout q => Sys2Proof.Machine.execFwaitTimeout q s
  | .fcnt f => Sys2Proof.Machine.execFcnt f s
  | .fstop f => Sys2Proof.Machine.execFstop f s
  | .frun f => Sys2Proof.Machine.execFrun f s
  | .readPerform a n => Sys2Proof.Machine.execReadPerform a n s
  | .writePerform a n => Sys2Proof.Machine.execWritePerform a n s
  | .cacheLineDrop core line => Sys2Proof.Machine.execCacheLineDrop core line s
  | .eccWriteback key => Sys2Proof.Machine.execEccWriteback key s
  | .homeAtomicPerform q => Sys2Proof.Machine.execHomeAtomicPerform q s
  | .barrierOpPerform q => Sys2Proof.Machine.execBarrierOpPerform q s
  | .barwaitPoll q => Sys2Proof.Machine.execBarwaitPoll q s
  | .pageWalk n => Sys2Proof.Machine.execPageWalk n s
  | .wardrobeEntryFill cluster ctx page => Sys2Proof.Machine.execWardrobeEntryFill cluster ctx page s
  | .retentionEntry a => Sys2Proof.Machine.execRetentionEntry a s
  | .retentionExit a => Sys2Proof.Machine.execRetentionExit a s
  | .retentionExitDone a => Sys2Proof.Machine.execRetentionExitDone a s
  | .channelRequest q => Sys2Proof.Machine.execChannelRequest q s
  | .channelSpill h => Sys2Proof.Machine.execChannelSpill h s
  | .channelRefill h => Sys2Proof.Machine.execChannelRefill h s
  | .spillRetry h => Sys2Proof.Machine.execSpillRetry h s
  | .blockedReport q => Sys2Proof.Machine.execBlockedReport q s
  | .deadlockDetector q => Sys2Proof.Machine.execDeadlockDetector q s
  | .growthCopyDone h => Sys2Proof.Machine.execGrowthCopyDone h s
  | .regionSourceAccess q b => Sys2Proof.Machine.execRegionSourceAccess q b s
  | .regionSinkWrite q b => Sys2Proof.Machine.execRegionSinkWrite q b s
  | .iterationStart q => Sys2Proof.Machine.execIterationStart q s
  | .iterationCommit q => Sys2Proof.Machine.execIterationCommit q s
  | .iterationDiscard q => Sys2Proof.Machine.execIterationDiscard q s
  | .iterOverrun q => Sys2Proof.Machine.execIterOverrun q s
  | .configFill q fe => Sys2Proof.Machine.execConfigFill q fe s
  | .configMulticast sel slot image deltas => Sys2Proof.Machine.execConfigMulticast sel slot image deltas s
  | .markerPass q fe inp => Sys2Proof.Machine.execMarkerPass q fe inp s
  | .pass q fe => Sys2Proof.Machine.execPass q fe s
  | .dot q fe upset => Sys2Proof.Machine.execDot q fe upset s
  | .dots q fe upset => Sys2Proof.Machine.execDots q fe upset s
  | .redadd q fe => Sys2Proof.Machine.execRedadd q fe s
  | .redmax q fe => Sys2Proof.Machine.execRedmax q fe s
  | .redmin q fe => Sys2Proof.Machine.execRedmin q fe s
  | .eopAdd q fe => Sys2Proof.Machine.execEopAdd q fe s
  | .mule q fe upset => Sys2Proof.Machine.execMule q fe upset s
  | .scale q fe => Sys2Proof.Machine.execScale q fe s
  | .quant q fe => Sys2Proof.Machine.execQuant q fe s
  | .deq q fe => Sys2Proof.Machine.execDeq q fe s
  | .cvt q fe => Sys2Proof.Machine.execCvt q fe s
  | .bfly q fe => Sys2Proof.Machine.execBfly q fe s
  | .split3 q fe => Sys2Proof.Machine.execSplit3 q fe s
  | .lut6 q fe => Sys2Proof.Machine.execLut6 q fe s
  | .fsm q fe => Sys2Proof.Machine.execFsm q fe s
  | .table q fe => Sys2Proof.Machine.execTable q fe s
  | .cmpsel q fe => Sys2Proof.Machine.execCmpsel q fe s
  | .shiftv q fe => Sys2Proof.Machine.execShiftv q fe s
  | .cnt q fe => Sys2Proof.Machine.execCnt q fe s
  | .sgen q fe => Sys2Proof.Machine.execSgen q fe s
  | .sand q fe => Sys2Proof.Machine.execSand q fe s
  | .sor q fe => Sys2Proof.Machine.execSor q fe s
  | .smux q fe => Sys2Proof.Machine.execSmux q fe s
  | .snot q fe => Sys2Proof.Machine.execSnot q fe s
  | .sminc q fe => Sys2Proof.Machine.execSminc q fe s
  | .smaxc q fe => Sys2Proof.Machine.execSmaxc q fe s
  | .sxor q fe => Sys2Proof.Machine.execSxor q fe s
  | .scnt q fe => Sys2Proof.Machine.execScnt q fe s
  | .sregen q fe => Sys2Proof.Machine.execSregen q fe s
  | .sfsm q fe => Sys2Proof.Machine.execSfsm q fe s
  | .launchAccept n => Sys2Proof.Machine.execLaunchAccept n s
  | .imageLoad l => Sys2Proof.Machine.execImageLoad l s
  | .instancePlace l => Sys2Proof.Machine.execInstancePlace l s
  | .doneArrival q => Sys2Proof.Machine.execDoneArrival q s
  | .recordAccept q engine => Sys2Proof.Machine.execRecordAccept q engine s
  | .engineRecordStart r => Sys2Proof.Machine.execEngineRecordStart r s
  | .recordComplete r => Sys2Proof.Machine.execRecordComplete r s
  | .chunkDecode r chunk => Sys2Proof.Machine.execChunkDecode r chunk s
  | .xtloadTakeEffect group => Sys2Proof.Machine.execXtloadTakeEffect group s
  | .leaveGrant q => Sys2Proof.Machine.execLeaveGrant q s
  | .leaveTimeout q => Sys2Proof.Machine.execLeaveTimeout q s
  | .flitSend l kind load => Sys2Proof.Machine.execFlitSend l kind load s
  | .flitReceive l errors => Sys2Proof.Machine.execFlitReceive l errors s
  | .nakReceive l => Sys2Proof.Machine.execNakReceive l s
  | .replayTimeout l => Sys2Proof.Machine.execReplayTimeout l s
  | .retrainDone l failing => Sys2Proof.Machine.execRetrainDone l failing s
  | .hostPostedWrite port rid off data ro poisoned => Sys2Proof.Machine.execHostPostedWrite port rid off data ro poisoned s
  | .hostRead port rid bar0 off n ro tag => Sys2Proof.Machine.execHostRead port rid bar0 off n ro tag s
  | .hostLineAck port line => Sys2Proof.Machine.execHostLineAck port line s
  | .hostAtomicop by_ tag => Sys2Proof.Machine.execHostAtomicop by_ tag s
  | .hostReadCompletion tag status data => Sys2Proof.Machine.execHostReadCompletion tag status data s
  | .hostReadTimeout tag => Sys2Proof.Machine.execHostReadTimeout tag s
  | .hostResetCommand by_ tenant cls diemask => Sys2Proof.Machine.execHostResetCommand by_ tenant cls diemask s
  | .queueResetComplete serial => Sys2Proof.Machine.execQueueResetComplete serial s
  | .launchWindowWrite port rid window value size => Sys2Proof.Machine.execLaunchWindowWrite port rid window value size s
  | .launchTableArm entry w => Sys2Proof.Machine.execLaunchTableArm entry w s
  | .launchTableDisarm entry w => Sys2Proof.Machine.execLaunchTableDisarm entry w s
  | .launchTableFire entry => Sys2Proof.Machine.execLaunchTableFire entry s
  | .timebaseSrcWrite w => Sys2Proof.Machine.execTimebaseSrcWrite w s
  | .ptmoffWrite w => Sys2Proof.Machine.execPtmoffWrite w s
  | .bar0RegisterWrite port rid off size value => Sys2Proof.Machine.execBar0RegisterWrite port rid off size value s
  | .attestationRequest port rid addr => Sys2Proof.Machine.execAttestationRequest port rid addr s
  | .attestationReportWrite => Sys2Proof.Machine.execAttestationReportWrite s
  | .peerRead port node aper off n tag => Sys2Proof.Machine.execPeerRead port node aper off n tag s
  | .peerWrite port node aper off data => Sys2Proof.Machine.execPeerWrite port node aper off data s
  | .peerWriteOrd port node aper off data => Sys2Proof.Machine.execPeerWriteOrd port node aper off data s
  | .llynramResend op => Sys2Proof.Machine.execLlynramResend op s
  | .peerUnreachable entry => Sys2Proof.Machine.execPeerUnreachable entry s
  | .ptpMessage tai => Sys2Proof.Machine.execPtpMessage tai s
  | .ptmExchange port ptm => Sys2Proof.Machine.execPtmExchange port ptm s
  | .timebaseSourceLost => Sys2Proof.Machine.execTimebaseSourceLost s
  | .calendarSlot die port ready => Sys2Proof.Machine.execCalendarSlot die port ready s
  | .borrowLimit tenant => Sys2Proof.Machine.execBorrowLimit tenant s
  | .contextPreempt q => Sys2Proof.Machine.execContextPreempt q s
  | .regionStopDiscard q => Sys2Proof.Machine.execRegionStopDiscard q s
  | .regionStopFinish q => Sys2Proof.Machine.execRegionStopFinish q s
  | .feLazySave q fe => Sys2Proof.Machine.execFeLazySave q fe s
  | .restore q => Sys2Proof.Machine.execRestore q s
  | .saveTimeout q => Sys2Proof.Machine.execSaveTimeout q s
  | .watchdog q ofRegion => Sys2Proof.Machine.execWatchdog q ofRegion s
  | .heartbeat => Sys2Proof.Machine.execHeartbeat s
  | .standbyTakeover => Sys2Proof.Machine.execStandbyTakeover s
  | .leafCommand cluster => Sys2Proof.Machine.execLeafCommand cluster s
  | .leafAck cluster => Sys2Proof.Machine.execLeafAck cluster s
  | .retentionEntryDone a => Sys2Proof.Machine.execRetentionEntryDone a s
  | .peerAcknowledgement op data => Sys2Proof.Machine.execPeerAcknowledgement op data s
  | .feMarkDefective col row => Sys2Proof.Machine.execFeMarkDefective col row s
  | .firmwareTableWrite t => Sys2Proof.Machine.execFirmwareTableWrite t s

end Sys2Proof.Machine
end

