-- ==== Sys2Proof/Machine/Moves.lean ====
section
/-! DEFINITION. Moves (log 2): the passing of control cycles, the firing of a slot, an event; and how one instruction
stands where the next step runs it. -/

namespace Sys2Proof.Machine

open Sys2Proof.Bits

/-! ## The passing of time -/

/-- A slot waits in CHSEND, CHRECV, SEMWAIT or BARWAIT, or for power leave: cycles that R210 excludes. -/
def excludedWait (s : State) (i : Nat) (b : Block) : Bool :=
  (match b.req with
    | some ⟨k, .chan .send .., _⟩ => (b.rec_ k).since != 0
    | some ⟨k, .chan .recv .., _⟩ => (b.rec_ k).since != 0
    | some ⟨_, .barrier .wait .., _⟩ => true
    | _ => false)
  || (Layout.slots b.words).any (fun x => x.2.1.opc == 0x80 && (b.rec_ x.1).st == .blocked)
  || s.leaves.any fun (q : Nat × LeaveReq) => q.2.for_ == .frun i

/-- A context waits in CHSEND or CHRECV: time that its watchdog excludes (R398). -/
def channelWait (n : Inst) : Bool := !(ctlWaits n).isEmpty

/-- The iterations of a running region that wait on channels do not count (R398). -/
def Region.advance (r : Region) (n : Nat) (paused : Bool) : Region :=
  if r.phase = .running ∧ r.blockedFrom.isNone ∧ !paused then { r with watch := r.watch + n }
  else { r with iters := r.iters.map fun it => if it.since = 0 then it else { it with excluded := it.excluded + n } }

/-- An instance `n` cycles later: its resident count (R238), its block's excluded waits (R210), its watchdogs (R398). -/
def Inst.advance (s : State) (i n : Nat) (x : Inst) : Inst :=
  let inSlot := x.life == .running || x.life == .stopping || x.life == .saving
  let paused := x.life != .running
  let blk := x.ctl.blk.map fun b =>
    if b.started && (paused || excludedWait s i b) then { b with excluded := b.excluded + n } else b
  let c := { x.ctl with blk, resident := if inSlot then x.ctl.resident + n else x.ctl.resident
                        watch := if paused || channelWait x || x.reg.any (fun r => r.phase == .held) then x.ctl.watch else x.ctl.watch + n }
  { x with ctl := c, reg := x.reg.map fun r => r.advance n paused }

/-- `n` control cycles pass (R159, R238, R409). -/
def advance (s : State) (n : Nat) : State :=
  { s with
    cycle := s.cycle + n
    time := s.time.advance s.cycle n
    insts := s.insts.map fun (x : Nat × Inst) => (x.1, x.2.advance s x.1 n)
    cores := s.cores.map fun (x : Nat × Core) => (x.1, { x.2 with ccnt := bumpCounters 1 n x.2.csel x.2.ccnt })
    dies := s.dies.map fun (x : Nat × DieState) => (x.1, { x.2 with dcnt := bumpCounters 1 n x.2.dsel x.2.dcnt }) }

/-! ## Slots -/

/-- The word of slot `k` of instance `i`'s block. -/
def slotWordOf (s : State) (i k : Nat) : Option Word :=
  match (s.inst? i).bind fun n => n.ctl.blk with
  | some b => if k < Layout.nslot b.words then some (Layout.slotWord b.words k) else none
  | none => none

/-- State of slot `k` of instance `i`'s block. -/
def slotStOf (s : State) (i k : Nat) : Option SlotSt :=
  ((s.inst? i).bind fun n => n.ctl.blk).map fun b => (b.rec_ k).st

/-- A slot has issued: it was waiting, and its firing has begun (R279). -/
def hasIssued (s t : State) (i k : Nat) : Bool := slotStOf s i k == some .waiting && slotStOf t i k != some .waiting

/-- The state in which slot `k` of instance `i` is the firing one. -/
def State.at (s : State) (i k : Nat) : State := { s with cur := (i, k) }

/-- The turn of slot `k` of instance `i`: its word is decoded and executed. -/
def runSlot (s : State) (i k : Nat) : Host.Outcome State Fault Refusal :=
  match slotWordOf s i k with
  | none => .next s
  | some w => match decodeSlot w with
    | .error _ => .fault (.notAnInstruction w)
    | .ok instr => match exec instr (s.at i k) with
      | .next t => .next (if hasIssued s t i k then noteIssue t i else t)
      | .fault f => .fault f
      | .refused r => .refused r

/-- A read of the identification region of BAR 0 (R153). -/
def identifies : Instr → Bool
  | .hostRead _ _ true off n _ _ => off + n ≤ 0x1000
  | _ => false

/-- A transaction of the host at BAR 0 or BAR 2, or of a peer at the ingress apertures. -/
def atHostLink : Instr → Bool
  | .hostPostedWrite _ _ _ _ _ _ => true
  | .hostRead _ _ _ _ _ _ _ => true
  | .hostAtomicop _ _ => true
  | .hostResetCommand _ _ _ _ => true
  | .launchWindowWrite _ _ _ _ _ => true
  | .launchTableArm _ w => w.by_ != .firmware
  | .launchTableDisarm _ w => w.by_ != .firmware
  | .timebaseSrcWrite _ => true
  | .ptmoffWrite _ => true
  | .bar0RegisterWrite _ _ _ _ _ => true
  | .attestationRequest _ _ _ => true
  | .peerRead _ _ _ _ _ _ => true
  | .peerWrite _ _ _ _ _ => true
  | .peerWriteOrd _ _ _ _ _ => true
  | _ => false

/-- BAR 0 and BAR 2 accept transactions from step 7 of bring-up on (R406); after one that failed the module is absent but for
the identification region (R405). -/
def linkAccepts (s : State) (e : Instr) : Bool :=
  match s.bringup with
  | .up => true
  | .off => !atHostLink e
  | .failed _ => !atHostLink e || identifies e

/-- An event; a control opcode is no event. -/
def runEvent (s : State) (e : Instr) : Host.Outcome State Fault Refusal :=
  if e.slotFields.isSome || !linkAccepts s e then .next s else exec e s

/-! ## What befalls the module -/

/-- An accumulator with bit `k` wrong: of its value below 48, of its parity above (R55). -/
def Acc.flip (a : Acc) (k : Nat) : Acc :=
  if k < 48 then { a with v := a.v ^^^ BitVec.twoPow 48 k } else { a with parity := a.parity ^^^ BitVec.twoPow 3 (k - 48) }

/-- A stored bit of an accumulator of an FE goes wrong (R55). -/
def upsetAcc (s : State) (fe acc k : Nat) : State :=
  if fe < 384 * 128 ∧ k < 51 then
    s.modFe fe fun f => { f with core := { f.core with acc := f.core.acc.setIfInBounds acc ((f.core.acc.toList.getD acc ⟨0, 0⟩).flip k) } }
  else s

/-- The host resizes BAR 2 of a port: a power of two from 1 GiB to 1 TiB (R147). -/
def resizeBar (s : State) (port log : Nat) : State :=
  if port < 2 ∧ 30 ≤ log ∧ log ≤ 40 then s.modPort port fun p => { p with bar2log := log } else s

/-- A die's power manager holds the lent slots of a router output or memory port back, or no longer (R378). -/
def paceLending (s : State) (die port : Nat) (on : Bool) : State :=
  if die < 8 then s.modDie die fun d => { d with paced := if on then (port :: d.paced).dedup else d.paced.filter fun p => p != port } else s

/-- One move. -/
def runMove (s : State) : Move → Host.Outcome State Fault Refusal
  | .tick n => .next (advance s n)
  | .slot i k => runSlot s i k
  | .event e => runEvent s e
  | .upset key errs => .next (upset s key errs)
  | .accUpset fe acc k => .next (upsetAcc s fe acc k)
  | .barSize port log => .next (resizeBar s port log)
  | .pace die port on => .next (paceLending s die port on)

/-- What a failed bring-up leaves: a free move's read of the identification region is answered, and no other move is made
(R405; log 2). -/
def identRead (s : State) : State :=
  let t := { s with fresh := s.fresh + 1 }
  match Config.nextMove s.fresh with
  | .event (.hostRead port rid true off n _ tag) => if port < 2 ∧ rid < 65536 ∧ off + n ≤ 0x1000 then bar0Read t port rid off n tag else t
  | _ => t

/-- The next move: the head of the agenda; before bring-up BRING_UP; after a failed bring-up time, beside reads of the
identification region (R405); otherwise a free one (log 2). -/
def nextMove (s : State) : Move × State :=
  match s.agenda with
  | m :: rest => (m, { s with agenda := rest })
  | [] => match s.bringup with
    | .off => (.event (.bringUp Config.bringUpInput), s)
    | .failed _ => (.tick 1, identRead s)
    | .up => (Config.nextMove s.fresh, { s with fresh := s.fresh + 1 })

/-! ## One instruction placed for the next step -/

/-- The words of a block of one slot, header first, in one 64-byte unit. -/
def oneSlotBlock (w : Word) : List Word := [0, 0, w, 0, 0, 0, 0, 0]

/-- The record of a slot whose operands have all arrived. -/
def fedSlot (pr : Pred) : SlotRec :=
  { SlotRec.empty with l := some (.val 0), r := some (.val 0), p := some (.val (if pr = .ifFalse then 0 else 1)) }

/-- PR of a slot word, as its format places it. -/
def wordPred (w : Word) : Pred :=
  match decodeFull w with
  | .ok (_, f, _) => Rows.predOf f
  | .error _ => .always

/-- A block of one slot, started, its operands delivered. -/
def placedBlock (w : Word) : Block :=
  { addr := 0, words := oneSlotBlock w, started := true, bound := false, slots := [fedSlot (wordPred w)], writes := [],
    exit := none, held := [], req := none, acts := [], divZero := false, runFrom := 0, excluded := 0 }

/-- An instance in slot 0 of cluster 0 that stands in that block. -/
def placedInst (w : Word) : Inst :=
  { serial := 0, ctx := 0, launch := 0, pos := 0, wid := 0, cluster := 0, slot := 0, life := .running,
    ctl := { Ctl.fresh 0 0 with blk := some (placedBlock w) }, reg := none, faultEnd := none, discard := false, regDone := false, saveFrom := 0, bytes := 0,
    placedAt := 0, kept := [] }

end Sys2Proof.Machine
end

