-- ==== Sys2Proof/Machine/Step.lean ====
section
/-! DEFINITION. One step of the module, and one instruction stored where the next step runs it. -/

namespace Sys2Proof.Machine

/-- One step: the next move is made. -/
def step (s : State) : Host.Outcome State Fault Refusal := runMove (nextMove s).2 (nextMove s).1

/-- The state with one slot word as the next firing: it stands for the launch and the fetch of a block that holds it
(log 2). -/
def State.withFetchWord (s : State) (nbits w : Nat) : State :=
  { s with agenda := [.slot 0 0], insts := aset 0 (placedInst (BitVec.ofNat 64 (w % 2 ^ nbits))) s.insts }

end Sys2Proof.Machine
end

