-- ==== Sys2Proof/Safety.lean ====
section
/-! DEFINITION. The terms in which claims speak of a run: a slot that fires with values, what a step may touch, and the
readings of a word at an operation width. -/

namespace Sys2Proof.Machine

open Sys2Proof.Bits Sys2Proof.Rows

/-! ## Firing -/

/-- A slot of this opcode, ST or an atomic, may translate its address ahead of its firing (R204, R251). -/
def translatesAhead (opc : Nat) : Bool := opc == 0x61 || (0x68 ≤ opc && opc ≤ 0x71)

/-- The slot has not fired: it waits, or it has only translated its address ahead. -/
def unfired (opc : Nat) (r : SlotRec) : Bool := r.st == .waiting || (translatesAhead opc && r.st == .translated)

/-- The slot named by `cur` stands there under instruction `x`, has not fired, and fires now with values: every operand
that its word awaits holds a value and its predicate lets it (R202, R203). -/
def firing (x : Instr) (s : State) : Option Firing :=
  match x.slotFields, s.curSlot with
  | some (opc, f), some (n, b, r) =>
    match rowOf opc with
    | some row =>
      if unfired opc r && fate (needsOf row f b.words s.cur.2 r) (predOf f) r.p == .go then
        some ⟨s.cur.1, s.cur.2, n, b, r, valWord r.l, valWord r.r, valWord r.p⟩
      else none
    | none => none
  | _, _ => none

/-- The slot named by `cur`, under instruction `x`, when it has not fired yet: with its context, its block, and the
operands it awaits with what they hold. -/
def waitingSlot (x : Instr) (s : State) : Option (Inst × Block × SlotRec × List (Bool × Option Val)) :=
  match x.slotFields, s.curSlot with
  | some (opc, f), some (n, b, r) =>
    match rowOf opc with
    | some row => if unfired opc r then some (n, b, r, needsOf row f b.words s.cur.2 r) else none
    | none => none
  | _, _ => none

/-- The block in flight of instance `i`. -/
def State.blk? (s : State) (i : Nat) : Option Block := (s.inst? i).bind fun n => n.ctl.blk

/-- Slot `k` of that block. -/
def State.slot? (s : State) (i k : Nat) : Option SlotRec := (s.blk? i).bind fun b => b.slots[k]?

/-- The fault due at instance `i`'s boundary. -/
def State.due? (s : State) (i : Nat) : Option TrapInfo := (s.inst? i).bind fun n => n.ctl.due

/-! ## What a step touches -/

/-- `t` is `s` but for the block in flight of instance `i` and the fault that is due at its boundary: every register,
special register, flag and byte of memory stands as before. -/
def SlotOnly (i : Nat) (s t : State) : Prop :=
  ∃ (b : Ctl → Option Block) (d : Ctl → Option TrapInfo), t = s.modCtl i fun c => { c with blk := b c, due := d c }

/-- Every byte of memory reads as before. -/
def SameMem (s t : State) : Prop := ∀ a, t.mem.read a = s.mem.read a

/-- Every byte of memory outside a run of bytes reads as before. -/
def SameMemBut (s t : State) (key n : Nat) : Prop := ∀ a, a < key ∨ key + n ≤ a → t.mem.read a = s.mem.read a

/-- The leaves that the translation of a virtual access may set bits in, page by page (R24, R30): the leaf of the TLB entry
that serves it, and the one at which the walk ends that a failed compare restarts. -/
def leavesUsed (core : Option Nat) (die ctx : Nat) (a : Access) : State → List (Nat × Nat) → List Nat
  | _, [] => []
  | s, (va, _) :: rest =>
    let va := va % 2 ^ 64
    let here := match tlbLookup s core die ctx va with
      | some x =>
        let u := meetFlaws (countMiss s core die (some x.place)) x.leaf 8
        x.leaf :: (match walkLevels va (if x.size = 29 then [1, 2] else [2]) { u with tlb := u.tlb.filter fun y => y != x }
            (x.leaf - x.leaf % 65536) with
          | (_, .leaf _ addr _) => [addr]
          | _ => [])
      | none => []
    here ++ leavesUsed core die ctx a (lookVirt s core die ctx va a).1 rest

/-- The leaves that the firing slot's access of the virtual space may set bits in; none in another space. -/
def accessLeaves (f : MOp) (a : Inst → Access) (s : State) : List Nat :=
  match f.as, s.curSlot with
  | .virt, some (n, _, r) => leavesUsed (some n.cluster) (dieOfCore n.cluster) n.ctx (a n) s
      (tokensOf (memAddr f (valWord r.l)).toNat (sizeBytes f.sz) 8)
  | _, _ => []

/-- Memory reads as before but for the A and D bits of the page-table leaves `ls`, which may have become 1 (R24), and for
what a row or line holds whose stored error its code neither corrects nor detects (R47). -/
def SameMemButLeaves (s t : State) (ls : List Nat) : Prop :=
  ∀ a, t.mem.read a = s.mem.read a
    ∨ (a ∈ ls ∧ ∃ m ∈ [(0x10 : Byte), 0x20, 0x30], t.mem.read a = s.mem.read a ||| m)
    ∨ ∃ f ∈ s.flaws, f.key ≤ a ∧ a < f.key + granule f.key

/-- `t` is `s` but for the block of instance `i` and what translating an access in it leaves: walks asked for, TLB
entries, the A and D bits of the leaves `ls`, stored errors that its table reads met, the counters of cores and dies, and records
of the fault log with their interrupt. -/
def Translating (i : Nat) (s t : State) (ls : List Nat) : Prop :=
  (∃ (b : Ctl → Option Block) (d : Ctl → Option TrapInfo),
    t = { s.modCtl i (fun c => { c with blk := b c, due := d c }) with
      mem := t.mem, poison := t.poison, flaws := t.flaws, writebacks := t.writebacks, tlb := t.tlb, walks := t.walks,
      cores := t.cores, dies := t.dies, log := t.log, ports := t.ports, fresh := t.fresh })
  ∧ SameMemButLeaves s t ls
  ∧ (∀ c, t.core c = { s.core c with ccnt := (t.core c).ccnt }) ∧ (∀ d, t.die d = { s.die d with dcnt := (t.die d).dcnt })
  ∧ ∀ p, t.port p = { s.port p with msixPending := (t.port p).msixPending, msixSent := (t.port p).msixSent }

/-! ## Numbers (R183) -/

/-- A finite number in units of 2^q; 0 for a NaN or an infinity. -/
def unitsOf (q : Int) : Num → Int
  | .fin neg m e => (if neg then -(m : Int) else m) * 2 ^ (e - q).toNat
  | _ => 0

/-- A finite number whose exponent is at least `q`. -/
def finiteAbove (q : Int) : Num → Prop
  | .fin _ _ e => q ≤ e
  | _ => False

/-- Bits `lo` to `lo + n − 1` of a beat, as a number. -/
def fieldOf (b : Beat) (lo n : Nat) : Nat := b.data.toNat / 2 ^ lo % 2 ^ n

/-! ## Atomics -/

/-- What an atomic writes, on `m` bits: `a` the old value, `v` the operand (R252). -/
def atomicWrites (op : AtomicOp) {m : Nat} (a v : BitVec m) : BitVec m :=
  match op with
  | .add => a + v
  | .and => a &&& v
  | .or => a ||| v
  | .xor => a ^^^ v
  | .min => if a.sle v then a else v
  | .max => if a.sle v then v else a
  | .minu => if a.ule v then a else v
  | .maxu => if a.ule v then v else a
  | .swp => v
  | .cas => v

/-! ## Words at an operation width (R224) -/

/-- The right value of a G slot (R224). -/
def rightVal (f : GOp) (r : Word) : Word := if f.i then f.imm.signExtend 64 else r

/-- The low 32 bits. -/
def low32 (v : Word) : BitVec 32 := v.setWidth 32

/-- A result by WIDTH: the 64-bit one, or the 32-bit one sign- or zero-extended (R224). -/
def byWidth (w : Width) (v64 : BitVec 64) (v32 : BitVec 32) : Word :=
  match w with
  | .d => v64
  | .ws => v32.signExtend 64
  | .wz => v32.setWidth 64

/-- The result of an operation on two words by WIDTH. -/
def atWidth (w : Width) (op64 : BitVec 64 → BitVec 64 → BitVec 64) (op32 : BitVec 32 → BitVec 32 → BitVec 32)
    (a b : Word) : Word :=
  byWidth w (op64 a b) (op32 (low32 a) (low32 b))

/-- An instruction's slot delivers `v` to its two targets: the next state, when it fires. -/
def Delivers (x : Instr) (ts : List Target) (v : Firing → Word) : Prop :=
  ∀ (s : State) (fr : Firing), firing x s = some fr → exec x s = .next (fr.done s ts (v fr))

/-- A two-operand G instruction delivers an operation's result by WIDTH. -/
def Computes (mk : GOp → Instr) (op64 : BitVec 64 → BitVec 64 → BitVec 64) (op32 : BitVec 32 → BitVec 32 → BitVec 32) :
    Prop :=
  ∀ f : GOp, Delivers (mk f) [f.t1, f.t2] fun fr => atWidth f.w op64 op32 fr.l (rightVal f fr.r)

/-- A test delivers 1 or 0 by a condition on the operands at WIDTH. -/
def Tests (mk : GOp → Instr) (c : (n : Nat) → BitVec n → BitVec n → Bool) : Prop :=
  ∀ f : GOp, Delivers (mk f) [f.t1, f.t2] fun fr =>
    if (match f.w with
        | .d => c 64 fr.l (rightVal f fr.r)
        | _ => c 32 (low32 fr.l) (low32 (rightVal f fr.r))) then 1 else 0

end Sys2Proof.Machine
end

