-- ==== Sys2Proof/Certificates/Slice0/Obligations.lean ====
section
/-! DEFINITION. The statements for the provers, from the numbered rules of the spec. -/

open Sys2Proof Sys2Proof.Machine Sys2Proof.Bits Sys2Proof.Rows

/-! ## Encoding (R211 to R218, R245) -/

/-- R212 to R217: slot words written out from the encodings decode to the instructions they stand for, at least one of
each format. -/
def Obligations.SlotWordsDecode : Prop :=
  decodeSlot 0x0100_0202_0000_1810 = .ok (.fan ⟨false, .d, .always, .opnd 1 .L, .opnd 2 .L, 0x1810⟩)
  ∧ decodeSlot 0x1180_0182_0000_0001 = .ok (.sub ⟨true, .d, .always, .write 0, .opnd 2 .L, 1⟩)
  ∧ decodeSlot 0x0202_05FF_C000_0000 = .ok (.null ⟨false, .d, .ifFalse, .write 2, .none, 0⟩)
  ∧ decodeSlot 0x6044_4000_C000_0040 = .ok (.ld ⟨.w, false, .cab, 2, .always, .plain, .core, .opnd 3 .L, 0x40⟩)
  ∧ decodeSlot 0x6160_229F_F000_0008 = .ok (.st ⟨.d, false, .virt, 1, .always, .rel, .module, .none, 8⟩)
  ∧ decodeSlot 0x7140_2461_0000_0000 = .ok (.acas ⟨.w, false, .virt, 1, .always, .sc, .die, .opnd 4 .L, 0⟩)
  ∧ decodeSlot 0x850C_067F_C000_0000 = .ok (.bararr ⟨.virt, false, .die, .always, .opnd 3 .L, .none, 0, 0⟩)
  ∧ decodeSlot 0xA000_FF80_0000_0002 = .ok (.br ⟨.always, .none, 2⟩)
  ∧ decodeSlot 0xA200_0780_00FF_FFD8 = .ok (.call ⟨.always, .write 3, 0xFFFFD8⟩)
  ∧ decodeSlot 0xA401_FF80_0000_0000 = .ok (.halt ⟨.ifTrue, .none, 0⟩)
  ∧ decodeSlot 0xC000_FFFF_C200_0005 = .ok (.src ⟨.virt, false, .core, .always, .none, .none, 2, 5⟩)
  ∧ decodeSlot 0xC900_01FF_C000_0001 = .ok (.fwait ⟨.virt, false, .core, .always, .write 0, .none, 0, 1⟩)

/-- R211 to R217: a slot word decodes to an instruction exactly when it is that instruction's own word and the instruction
is well formed: every operand at every value comes back, no bit of a word is dropped, and no reserved bit may be set. -/
def Obligations.DecodeAndEncodeAgree : Prop :=
  ∀ (i : Instr) (w : Word), decodeSlot w = .ok i ↔ i.wf = true ∧ encode i = some w

/-- R218, R245: a word whose opcode is 0xA6 is BRK whatever its other bits hold, and a word whose opcode the map does not
list is no instruction. -/
def Obligations.BreakAndUnlistedRefused : Prop :=
  ∀ w : Word,
    (w.toNat / 2 ^ 56 = 0xA6 → decodeSlot w = .error .brk)
    ∧ (w.toNat / 2 ^ 56 ∈ [0x00, 0x2A, 0x2B, 0x83, 0x87, 0xCD, 0xFF] ++ (List.range 11).map (0x05 + ·)
        ++ (List.range 9).map (0x37 + ·) ++ (List.range 3).map (0x4D + ·) ++ (List.range 12).map (0x54 + ·)
        ++ (List.range 5).map (0x63 + ·) ++ (List.range 2).map (0x72 + ·) ++ (List.range 3).map (0x75 + ·)
        ++ (List.range 3).map (0x7D + ·) ++ (List.range 9).map (0x87 + ·) ++ (List.range 3).map (0x95 + ·)
        ++ (List.range 5).map (0x9B + ·) ++ (List.range 9).map (0xA7 + ·) ++ (List.range 10).map (0xB6 + ·)
        ++ (List.range 51).map (0xCD + ·) →
      decodeSlot w = .error .unlisted)

/-! ## The step, reset and the whole machine -/

/-- R202, log 2: when a step's move is the firing of a slot whose word decodes, the step is `exec` of that instruction
with the slot as the firing one; and when the slot thereby leaves the state in which it waits to fire, the YIELDs that
wait for its context are told so (R279). -/
def Obligations.StepRunsDecodedSlot : Prop :=
  ∀ (s u : State) (i k : Nat) (w : Word) (x : Instr), nextMove s = (.slot i k, u) →
    slotWordOf u i k = some w → decodeSlot w = .ok x →
    ∃ t, exec x (u.at i k) = .next t
      ∧ step s = .next (if slotStOf u i k = some .waiting ∧ slotStOf t i k ≠ some .waiting then noteIssue t i else t)

/-- Log 2, R405, R406: a step whose move is an event is `exec` of that event; only a transaction of the host or of a peer that
the module does not accept, before bring-up has ended or after it failed, changes nothing. A step whose move is the passing of
time moves the module's cycle counter on and changes no byte of memory. The move is the agenda's first; with nothing on the
agenda the first step from power-on is BRING_UP, after a failed bring-up time passes (beside reads of the identification region),
and once the module is up the move is a free one. -/
def Obligations.StepRunsEventsAndTime : Prop :=
  ∀ (s u : State) (m : Move) (rest : List Move),
    (∀ e, nextMove s = (.event e, u) → e.slotFields = none →
        (linkAccepts u e = true → step s = exec e u) ∧ (linkAccepts u e = false → step s = .next u)
        ∧ (linkAccepts u e = true ↔ u.bringup = .up ∨ atHostLink e = false ∨ identifies e = true ∧ ∃ k, u.bringup = .failed k))
    ∧ (∀ n, nextMove s = (.tick n, u) →
        ∃ t, step s = .next t ∧ t.cycle = u.cycle + n ∧ t.mem = u.mem ∧ t.insts.map (·.1) = u.insts.map (·.1))
    ∧ (s.agenda = m :: rest → nextMove s = (m, { s with agenda := rest }))
    ∧ (s.agenda = [] → s.bringup = .off → step s = exec (.bringUp Config.bringUpInput) s)
    ∧ (∀ k, s.agenda = [] → s.bringup = .failed k → ∃ t, step s = .next t ∧ t.cycle = s.cycle + 1 ∧ t.bringup = .failed k)
    ∧ (s.agenda = [] → s.bringup = .up → nextMove s = (Config.nextMove s.fresh, { s with fresh := s.fresh + 1 }))

/-- Every step goes on: it answers a next state, but for a step whose move names a slot whose word decodes to nothing,
which no fetched block holds (R211). No instruction is refused. -/
def Obligations.StepStopsOnlyOnUndecodable : Prop :=
  ∀ s : State, (∃ t, step s = .next t)
    ∨ ∃ i k w, (nextMove s).1 = .slot i k ∧ slotWordOf (nextMove s).2 i k = some w ∧ (∀ x, decodeSlot w ≠ .ok x)
        ∧ step s = .fault (.notAnInstruction w)

/-- R211, R202: the block that BLOCK_FETCH leaves with a context holds only slots that decode, so no slot of it can stop
the machine. -/
def Obligations.FetchedBlocksDecode : Prop :=
  ∀ (s t : State) (i k : Nat) (b : Block), s.blk? i = none → exec (.blockFetch i) s = .next t → t.blk? i = some b →
    k < Layout.nslot b.words → ∃ x, decodeSlot (Layout.slotWord b.words k) = .ok x

/-- Log 2: State.reset is the module when power is applied. Nothing is listed: no context, no instance; memory has its
canonical form, every byte reading what bring-up will clear it to; the fault log and the time base stand at 0; each FE has the seeds and the indices of R331 and the
scales of R309; and a step from there is BRING_UP. -/
def Obligations.ResetState : Prop :=
  State.reset.bringup = .off ∧ State.reset.contexts = [] ∧ State.reset.insts = [] ∧ State.reset.launches = []
  ∧ State.reset.mem.wf = true ∧ (∀ a, State.reset.mem.read a = 0) ∧ State.reset.log.used = 0 ∧ State.reset.log.lost = 0
  ∧ State.reset.time.eighths = 0 ∧ State.reset.cycle = 0
  ∧ (∀ x k, k < 16 → (State.reset.fe x).core.seed[k]? = some (BitVec.ofNat 12 k) ∧ (State.reset.fe x).core.idx[k]? = some 0)
  ∧ (∀ x k, k < 32 → (State.reset.fe x).bs[k]? = some 0x7F7F7F7F)
  ∧ step State.reset = exec (.bringUp Config.bringUpInput) State.reset

/-- Every step keeps memory in its canonical form: addresses strictly rising and no entry equal to what an unlisted
address reads as; so equal memories are equal data, whatever was written in whatever order. -/
def Obligations.StepKeepsMemoryForm : Prop :=
  ∀ s t : State, s.mem.wf = true → step s = .next t → t.mem.wf = true

/-! ## Firing, null, squash and delivery (R200 to R205) -/

/-- R202: a slot whose predicate does not squash it and that awaits an operand which holds nothing yet does nothing: the
state stays. (An ST or atomic may meanwhile translate its address, once that and its predicate are there, R251.) -/
def Obligations.SlotWaitsForItsOperands : Prop :=
  ∀ (x : Instr) (opc : Nat) (f : Fields) (s : State) (n : Inst) (b : Block) (r : SlotRec) (needs : List (Bool × Option Val)),
    x.slotFields = some (opc, f) → waitingSlot x s = some (n, b, r, needs) →
    (predOf f = .always ∨ r.p = none) → (true, none) ∈ needs →
    (translatesAhead opc = true →
      (∀ v, r.l ≠ some (.val v)) ∨ r.st = .translated ∨ (predOf f ≠ .always ∧ r.p = none)) →
    exec x s = .next s

/-- R203: a predicated slot whose condition has the other value, or arrives as null, is squashed: it performs nothing,
delivers nothing and raises no fault; when it was the last exit of its block left, the block has none (R246). R204: an unsquashed slot whose operands have all arrived, one of them null, is nullified: it performs nothing,
raises no fault and delivers null to every target (a CALLI too, log 72: the model's reading); an exit does not fire, and when it
was the last of its block left, the block has none (R246). -/
def Obligations.SquashAndNull : Prop :=
  (∀ (x : Instr) (opc : Nat) (f : Fields) (row : Row) (s : State) (n : Inst) (b : Block) (r : SlotRec)
     (needs : List (Bool × Option Val)),
     x.slotFields = some (opc, f) → rowOf opc = some row → waitingSlot x s = some (n, b, r, needs) →
     (predOf f = .ifTrue ∧ (r.p = some (.val 0) ∨ r.p = some .null)
       ∨ predOf f = .ifFalse ∧ (r.p = some .null ∨ ∃ v, v ≠ 0 ∧ r.p = some (.val v))) →
     let t := s.modSlot s.cur.1 s.cur.2 fun r => { r with st := .squashed }
     exec x s = .next (if isExit row then exitCheck t s.cur.1 else t))
  ∧ (∀ (x : Instr) (opc : Nat) (f : Fields) (row : Row) (s : State) (n : Inst) (b : Block) (r : SlotRec)
     (needs : List (Bool × Option Val)),
     x.slotFields = some (opc, f) → rowOf opc = some row → x.wf = true → waitingSlot x s = some (n, b, r, needs) →
     (predOf f = .always ∨ predOf f = .ifTrue ∧ (∃ v, v ≠ 0 ∧ r.p = some (.val v)) ∨ predOf f = .ifFalse ∧ r.p = some (.val 0)) →
     (true, none) ∉ needs → (true, some .null) ∈ needs →
     let t := s.modSlot s.cur.1 s.cur.2 fun r => { r with st := .nullified }
     exec x s = .next (deliverNull (if isExit row then exitCheck t s.cur.1 else t) s.cur.1 (targets row f)))

/-- R201, R205: the first delivery to an operand reaches it and no other operand or write entry; the first delivery to a
write entry reaches it and nothing else; the absent target receives nothing. R205, R382: a second delivery to an operand or write entry raises BLOCK_FORMAT when it arrives, with FAULTSLOT the
receiving slot, or 0xA0 plus the number of the write entry, and FAULTADDR 0 (at a slot the model's choice, log 119); the first
value stays. -/
def Obligations.DeliveryReachesItsTargetOnce : Prop :=
  (∀ (s : State) (i : Nat) (b : Block) (v : Val), s.blk? i = some b →
     (∀ (k : BitVec 7) (o : Opnd) (r : SlotRec), b.slots[k.toNat]? = some r → r.opnd o = none →
       ∃ b', (deliver s i (.opnd k o) v).blk? i = some b' ∧ b'.writes = b.writes ∧ b'.slots.length = b.slots.length
         ∧ (deliver s i (.opnd k o) v).due? i = s.due? i
         ∧ (∀ r', b'.slots[k.toNat]? = some r' → r'.opnd o = some v ∧ (∀ o', o' ≠ o → r'.opnd o' = r.opnd o') ∧ r'.st = r.st)
         ∧ ∀ j, j ≠ k.toNat → b'.slots[j]? = b.slots[j]?)
     ∧ (∀ k : BitVec 7, b.writes[k.toNat]? = some none →
       ∃ b', (deliver s i (.write k) v).blk? i = some b' ∧ b'.slots = b.slots ∧ b'.writes.length = b.writes.length
         ∧ (deliver s i (.write k) v).due? i = s.due? i
         ∧ b'.writes[k.toNat]? = some (some v) ∧ ∀ j, j ≠ k.toNat → b'.writes[j]? = b.writes[j]?)
     ∧ deliver s i .none v = s)
  ∧ (∀ (s : State) (i : Nat) (b : Block) (v w : Val), s.blk? i = some b → s.due? i = none →
     (∀ (k : BitVec 7) (o : Opnd) (r : SlotRec), b.slots[k.toNat]? = some r → r.opnd o = some w →
       (deliver s i (.opnd k o) v).due? i = some ⟨0x05, b.addr, k.toNat, 0, none, none, 0⟩
         ∧ ∃ b', (deliver s i (.opnd k o) v).blk? i = some b' ∧ b'.slots = b.slots ∧ b'.writes = b.writes)
     ∧ (∀ k : BitVec 7, b.writes[k.toNat]? = some (some w) →
       (deliver s i (.write k) v).due? i = some ⟨0x05, b.addr, 0xA0 + k.toNat, 0, none, none, 0⟩
         ∧ ∃ b', (deliver s i (.write k) v).blk? i = some b' ∧ b'.slots = b.slots ∧ b'.writes = b.writes))

/-! ## Values, comparison and selection (format G) -/

/-- R224, R226, R227, R228: FAN delivers its operand under WIDTH to its four targets; NULL delivers null to its two; MOVI
delivers its sign-extended immediate, APPI its operand moved up 24 bits with the immediate below. -/
def Obligations.ConstantAndFanOutResults : Prop :=
  ∀ f : GOp,
    (∀ (s : State) (fr : Firing), firing (.fan f) s = some fr → exec (.fan f) s =
      .next (fr.done s [f.t1, f.t2, targetOf (f.imm.toNat / 512 % 512), targetOf (f.imm.toNat % 512)]
        (byWidth f.w fr.l (low32 fr.l))))
    ∧ (∀ (s : State) (fr : Firing), firing (.null f) s = some fr →
        exec (.null f) s = .next (fr.doneAll s [(f.t1, .null), (f.t2, .null)]))
    ∧ Delivers (.movi f) [f.t1, f.t2] (fun _ => byWidth f.w (f.imm.signExtend 64) (f.imm.signExtend 32))
    ∧ Delivers (.appi f) [f.t1, f.t2] (fun fr =>
        byWidth f.w ((fr.l <<< 24) ||| f.imm.setWidth 64) ((low32 fr.l <<< 24) ||| f.imm.setWidth 32))

/-- R224, R229: ADD, SUB, MUL, MULH, MULHU, AND, OR, XOR, ANDN, MIN, MAX, MINU and MAXU at both widths. -/
def Obligations.ArithmeticAndLogicResults : Prop :=
  Computes .add (fun a b => a + b) (fun a b => a + b)
  ∧ Computes .sub (fun a b => a - b) (fun a b => a - b)
  ∧ Computes .mul (fun a b => a * b) (fun a b => a * b)
  ∧ Computes .mulh (fun a b => ((a.signExtend 128 * b.signExtend 128) >>> 64).setWidth 64)
      (fun a b => ((a.signExtend 64 * b.signExtend 64) >>> 32).setWidth 32)
  ∧ Computes .mulhu (fun a b => ((a.setWidth 128 * b.setWidth 128) >>> 64).setWidth 64)
      (fun a b => ((a.setWidth 64 * b.setWidth 64) >>> 32).setWidth 32)
  ∧ Computes .and (fun a b => a &&& b) (fun a b => a &&& b)
  ∧ Computes .or (fun a b => a ||| b) (fun a b => a ||| b)
  ∧ Computes .xor (fun a b => a ^^^ b) (fun a b => a ^^^ b)
  ∧ Computes .andn (fun a b => a &&& ~~~b) (fun a b => a &&& ~~~b)
  ∧ Computes .min (fun a b => if a.slt b then a else b) (fun a b => if a.slt b then a else b)
  ∧ Computes .max (fun a b => if a.slt b then b else a) (fun a b => if a.slt b then b else a)
  ∧ Computes .minu (fun a b => if a.ult b then a else b) (fun a b => if a.ult b then a else b)
  ∧ Computes .maxu (fun a b => if a.ult b then b else a) (fun a b => if a.ult b then b else a)

/-- R224, R230: DIV, DIVU, REM and REMU deliver the truncating quotient and its remainder, 0 and the dividend for a zero
divisor, and the wrapped quotient for the most negative dividend by -1; a zero divisor, and nothing else, notes DZ for
the commit of the block. -/
def Obligations.DivisionResults : Prop :=
  ∀ f : GOp,
    let zero := fun (fr : Firing) => (match f.w with
      | .d => rightVal f fr.r == 0
      | _ => low32 (rightVal f fr.r) == 0)
    let noted := fun (s : State) (fr : Firing) => if zero fr then s.modBlk fr.i fun b => { b with divZero := true } else s
    let gives := fun (x : Instr) (op64 : BitVec 64 → BitVec 64 → BitVec 64) (op32 : BitVec 32 → BitVec 32 → BitVec 32) =>
      ∀ (s : State) (fr : Firing), firing x s = some fr →
        exec x s = .next (fr.done (noted s fr) [f.t1, f.t2] (atWidth f.w op64 op32 fr.l (rightVal f fr.r)))
    gives (.div f) BitVec.sdiv BitVec.sdiv ∧ gives (.divu f) BitVec.udiv BitVec.udiv
      ∧ gives (.rem f) BitVec.srem BitVec.srem ∧ gives (.remu f) BitVec.umod BitVec.umod

/-- R231: ADDS, SUBS, ADDUS and SUBUS clamp the exact result to the range of the operation width, and nothing but the
delivery records it. -/
def Obligations.SaturatingResults : Prop :=
  Computes .adds (fun a b => BitVec.ofInt 64 (max (-(2 ^ 63)) (min (2 ^ 63 - 1) (a.toInt + b.toInt))))
      (fun a b => BitVec.ofInt 32 (max (-(2 ^ 31)) (min (2 ^ 31 - 1) (a.toInt + b.toInt))))
  ∧ Computes .subs (fun a b => BitVec.ofInt 64 (max (-(2 ^ 63)) (min (2 ^ 63 - 1) (a.toInt - b.toInt))))
      (fun a b => BitVec.ofInt 32 (max (-(2 ^ 31)) (min (2 ^ 31 - 1) (a.toInt - b.toInt))))
  ∧ Computes .addus (fun a b => BitVec.ofNat 64 (min (2 ^ 64 - 1) (a.toNat + b.toNat)))
      (fun a b => BitVec.ofNat 32 (min (2 ^ 32 - 1) (a.toNat + b.toNat)))
  ∧ Computes .subus (fun a b => BitVec.ofNat 64 (a.toNat - b.toNat)) (fun a b => BitVec.ofNat 32 (a.toNat - b.toNat))

/-- R232, R233: SHL, SHR, SRA, ROL and ROR by the amount modulo the operation width; CLZ, CTZ, POPC, BSWAP, NEG, NOT and
ABS of the operand alone. -/
def Obligations.ShiftAndUnaryResults : Prop :=
  Computes .shl (fun a b => a <<< (b.toNat % 64)) (fun a b => a <<< (b.toNat % 32))
  ∧ Computes .shr (fun a b => a >>> (b.toNat % 64)) (fun a b => a >>> (b.toNat % 32))
  ∧ Computes .sra (fun a b => a.sshiftRight (b.toNat % 64)) (fun a b => a.sshiftRight (b.toNat % 32))
  ∧ Computes .rol (fun a b => a.rotateLeft (b.toNat % 64)) (fun a b => a.rotateLeft (b.toNat % 32))
  ∧ Computes .ror (fun a b => a.rotateRight (b.toNat % 64)) (fun a b => a.rotateRight (b.toNat % 32))
  ∧ Computes .clz (fun a _ => a.clz) (fun a _ => a.clz)
  ∧ Computes .ctz (fun a _ => a.ctz) (fun a _ => a.ctz)
  ∧ Computes .popc (fun a _ => BitVec.ofNat 64 ((List.range 64).countP fun k => a.getLsbD k))
      (fun a _ => BitVec.ofNat 32 ((List.range 32).countP fun k => a.getLsbD k))
  ∧ Computes .bswap
      (fun a _ => a.extractLsb' 0 8 ++ a.extractLsb' 8 8 ++ a.extractLsb' 16 8 ++ a.extractLsb' 24 8
        ++ a.extractLsb' 32 8 ++ a.extractLsb' 40 8 ++ a.extractLsb' 48 8 ++ a.extractLsb' 56 8)
      (fun a _ => a.extractLsb' 0 8 ++ a.extractLsb' 8 8 ++ a.extractLsb' 16 8 ++ a.extractLsb' 24 8)
  ∧ Computes .neg (fun a _ => -a) (fun a _ => -a)
  ∧ Computes .not (fun a _ => ~~~a) (fun a _ => ~~~a)
  ∧ Computes .abs (fun a _ => if a.slt 0 then -a else a) (fun a _ => if a.slt 0 then -a else a)

/-- R234: SEXT, ZEXT, BFX and BFI read all 64 bits of the operand and apply WIDTH to the result; BFX and BFI for a field
that a legal slot names (`lo + len` at most 64). -/
def Obligations.BitFieldResults : Prop :=
  ∀ f : GOp,
    let lo := f.imm.toNat % 64
    let len := f.imm.toNat / 64 % 64 + 1
    let put := fun (v : Word) => byWidth f.w v (low32 v)
    Delivers (.sext f) [f.t1, f.t2] (fun fr => put ((fr.l.setWidth (lo + 1)).signExtend 64))
    ∧ Delivers (.zext f) [f.t1, f.t2] (fun fr => put ((fr.l.setWidth (lo + 1)).setWidth 64))
    ∧ (lo + len ≤ 64 → Delivers (.bfx f) [f.t1, f.t2] fun fr =>
        put (if f.imm.getLsbD 12 then (fr.l.extractLsb' lo len).signExtend 64 else (fr.l.extractLsb' lo len).setWidth 64))
    ∧ (f.i = false → lo + len ≤ 64 → Delivers (.bfi f) [f.t1, f.t2] fun fr =>
        let mk := (BitVec.allOnes len).setWidth 64 <<< lo
        put ((fr.l &&& ~~~mk) ||| ((fr.r <<< lo) &&& mk)))

/-- R235, R236: the twelve tests deliver 1 when their condition holds at the operation width and 0 otherwise; SEL delivers
its right value under WIDTH to T1 and null to T2 when its left operand is nonzero at that width, and the other way round
when it is zero. -/
def Obligations.TestAndSelectResults : Prop :=
  (Tests .teq (fun _ a b => a == b) ∧ Tests .tne (fun _ a b => a != b)
   ∧ Tests .tlt (fun _ a b => a.slt b) ∧ Tests .tltu (fun _ a b => a.ult b)
   ∧ Tests .tle (fun _ a b => a.sle b) ∧ Tests .tleu (fun _ a b => a.ule b)
   ∧ Tests .tgt (fun _ a b => b.slt a) ∧ Tests .tgtu (fun _ a b => b.ult a)
   ∧ Tests .tge (fun _ a b => b.sle a) ∧ Tests .tgeu (fun _ a b => b.ule a)
   ∧ Tests .tbs (fun n a b => a.getLsbD (b.toNat % n)) ∧ Tests .tbc (fun n a b => !a.getLsbD (b.toNat % n)))
  ∧ (∀ (f : GOp) (s : State) (fr : Firing), firing (.sel f) s = some fr →
     let v := byWidth f.w (rightVal f fr.r) (low32 (rightVal f fr.r))
     let nonzero := (match f.w with
       | .d => fr.l != 0
       | _ => low32 fr.l != 0)
     exec (.sel f) s = .next (if nonzero then fr.doneAll s [(f.t1, .val v), (f.t2, .null)]
                              else fr.doneAll s [(f.t1, .null), (f.t2, .val v)]))

/-- R237, R238, R239: WID delivers the field, count, work identifier or argument that its immediate selects; TIME the
TAI time; CYC the module's cycle count or the resident count of the context; CTX what its immediate selects. -/
def Obligations.IdentityAndClockResults : Prop :=
  ∀ f : GOp,
    let put := fun (v : Nat) => byWidth f.w (BitVec.ofNat 64 v) (BitVec.ofNat 32 v)
    (∀ (s : State) (fr : Firing), firing (.wid f) s = some fr →
      let sel := f.imm.toNat % 8
      let v := if f.imm.getLsbD 3 then countOf (s.launchWord fr.n) sel
        else if sel = 6 then fr.n.wid
        else if sel = 7 then s.launchWord fr.n 6
        else widField (s.launchWord fr.n 2) fr.n.wid sel
      exec (.wid f) s = .next (fr.done s [f.t1, f.t2] (put v)))
    ∧ (∀ (s : State) (fr : Firing), firing (.time f) s = some fr →
      exec (.time f) s = .next (fr.done s [f.t1, f.t2] (put (s.time.eighths / 8 % 2 ^ 64))))
    ∧ (∀ (s : State) (fr : Firing), firing (.cyc f) s = some fr →
      exec (.cyc f) s = .next (fr.done s [f.t1, f.t2]
        (put (if f.imm.getLsbD 0 then fr.n.ctl.resident else s.cycle % 2 ^ 64))))
    ∧ (∀ (s : State) (fr : Firing), firing (.ctx f) s = some fr →
      let v := (match f.imm.toNat % 8 with
        | 0 => fr.n.ctx
        | 1 => s.tenantOf fr.n.ctx
        | 2 => s.classOf fr.n
        | 3 => if fr.n.ctl.cur then 1 else 0
        | 4 => fr.n.serial
        | 5 => fr.n.cluster / 96 * 1024 + fr.n.cluster % 96 * 8 + fr.n.slot
        | _ => match fr.n.reg with
          | some r => r.rect.h * 2 ^ 48 + r.rect.w * 2 ^ 32 + r.rect.row0 * 2 ^ 16 + r.rect.col0
          | none => 0)
      exec (.ctx f) s = .next (fr.done s [f.t1, f.t2] (put v)))

/-! ## Memory and atomics (formats M and A) -/

/-- R28 to R30, R214, R247 to R250: an LD that fires stands translated to the bytes at its address (its read comes later); an ST
holds the low bytes of R until commit with its release, and its slot is done, at the bytes that it translated ahead when it
did (R251). So in the cabinet space; for a page or allocation entry that a TLB holds, inside one aligned 8 bytes; and wherever the
access translates. A PFT of a cabinet address is dropped; of a page that a TLB holds, ORDINARY and DEFAULT, it asks for its line,
and READ_PERFORM of one places the line, with the value at its home, in the core's data cache. No byte of memory changes. -/
def Obligations.CabinetAccessesFire : Prop :=
  ∀ (f : MOp) (s : State) (fr : Firing) (key : Nat),
    let addr := fr.l + f.off.signExtend 64
    let n := sizeBytes f.sz
    let ps := (tokensOf key n 8).map fun t => (⟨t.1, t.2, false⟩ : Piece)
    let die := dieOfCore fr.n.cluster
    let holds := fun (u : State) (qs : List Piece) =>
      (u.modSlot fr.i fr.k fun r => { r with st := .done, pieces := qs }).modBlk fr.i fun b =>
        { b with held := b.held ++ [{ lsid := f.lsid.toNat, slot := fr.k, pieces := qs, data := leBytes n fr.r.toNat,
                                       rel := if isRel f.ord then some f.scope else none, fence := none }] }
    let stands := fun (u : State) (qs : List Piece) => u.modSlot fr.i fr.k fun r => { r with st := .translated, pieces := qs }
    (f.as = .cab → walkPending s fr.i fr.k = false → lookCab s fr.n.cluster fr.n.ctx addr.toNat n = .ok key →
      (firing (.ld f) s = some fr →
        exec (.ld f) s = .next (stands s ps))
      ∧ (firing (.st f) s = some fr → fr.rec_.st ≠ .translated → exec (.st f) s = .next (holds s ps))
      ∧ (firing (.pft f) s = some fr → exec (.pft f) s = .next (s.modSlot fr.i fr.k fun r => { r with st := .done })))
    ∧ (firing (.st f) s = some fr → fr.rec_.st = .translated → devicePieces fr.rec_.pieces = false →
      exec (.st f) s = .next (holds s fr.rec_.pieces))
    ∧ (∀ u qs, slotXlate s fr f.as addr n 1 (loadAccess fr.n) = .ok u qs → devicePieces qs = false → firing (.ld f) s = some fr →
      exec (.ld f) s = .next (stands u qs))
    ∧ (∀ u qs, slotXlate s fr f.as addr n 1 (storeAccess fr.n) = .ok u qs → devicePieces qs = false → firing (.st f) s = some fr →
      fr.rec_.st ≠ .translated → exec (.st f) s = .next (holds u qs))
    ∧ (∀ x : TlbEntry, f.as = .virt → walkPending s fr.i fr.k = false → canonical addr.toNat = true →
      canonical ((addr.toNat + n - 1) % 2 ^ 64) = true → addr.toNat % 8 + n ≤ 8 →
      tlbLookup s (some fr.n.cluster) die fr.n.ctx addr.toNat = some x →
      let pa := x.phys + addr.toNat % 2 ^ x.size
      let u := countMiss s (some fr.n.cluster) die (some x.place)
      let q : Piece := ⟨pa, n, bits x.pte 9 8 == 0 && pa < hbmEnd⟩
      (firing (.ld f) s = some fr → checkLeaf x.pte pa (loadAccess fr.n) = none → isDeviceKey pa = false →
        exec (.ld f) s = .next (stands u [q]))
      ∧ (firing (.st f) s = some fr → fr.rec_.st ≠ .translated → checkLeaf x.pte pa (storeAccess fr.n) = none →
        bit x.pte 5 = true → isDeviceKey pa = false → exec (.st f) s = .next (holds u [q]))
      ∧ (firing (.pft f) s = some fr → checkLeaf x.pte pa ⟨.prefetch, true, false, false, fr.n.ctl.cur⟩ = none →
        bits x.pte 9 8 = 0 → exec (.pft f) s = .next (stands u [⟨pa - pa % 64, 64, true⟩])))
    ∧ (∀ (x : TlbEntry) (key : Nat), f.as = .war → walkPending s fr.i fr.k = false → addr.toNat < 2 ^ 30 →
      addr.toNat % 8 + n ≤ 8 → watFind s (some fr.n.cluster) die fr.n.ctx (addr.toNat / 0x100000) = some x →
      isDeviceKey key = false →
      let u := countMiss s (some fr.n.cluster) die (some x.place)
      (firing (.ld f) s = some fr → checkWat x.pte addr.toNat (loadAccess fr.n) = .ok key →
        exec (.ld f) s = .next (stands u [⟨key, n, false⟩]))
      ∧ (firing (.st f) s = some fr → fr.rec_.st ≠ .translated → checkWat x.pte addr.toNat (storeAccess fr.n) = .ok key →
        exec (.st f) s = .next (holds u [⟨key, n, false⟩])))
    ∧ (∀ (i k : Nat) (m : Inst) (b : Block) (r : SlotRec) (row : Row) (w : Instr) (p : Piece), s.inst? i = some m →
      m.ctl.blk = some b → m.canFire = true → b.slots[k]? = some r → b.req = none → Layout.slot b.words k = some (row, .m f, w) →
      row.opc = 0x62 → r.st = .translated → r.pieces = [p] → r.got = [] → p.n = 64 → s.asleep p.key = false → s.flaws = [] →
      poisonedIn s.poison p.key 64 = false →
      exec (.readPerform (.ctl i) k) s = .next ((s.modSlot i k fun r => { r with st := .done }).modCore m.cluster fun c =>
        { c with cache := aset p.key (s.bytes p.key 64) c.cache }))

/-- R254, R255: a FENCE whose block's loads with lower LSID have performed is done and holds its marker at its LSID; one
that names LL alone at CLUSTER scope or wider invalidates the core's data cache. -/
def Obligations.FenceHoldsItsMarker : Prop :=
  ∀ (f : MOp) (s : State) (fr : Firing), firing (.fence f) s = some fr → loadsBelowDone fr.b f.lsid.toNat = true →
    let kinds : BitVec 4 := f.off.setWidth 4
    let h : Held := { lsid := f.lsid.toNat, slot := fr.k, pieces := [], data := [], rel := none, fence := some (kinds, f.scope) }
    let t := if kinds = 1 ∧ clusterUp f.scope = true then s.modCore fr.n.cluster fun c => { c with cache := [] } else s
    exec (.fence f) s = .next ((t.modSlot fr.i fr.k fun r => { r with st := .done }).modBlk fr.i fun b =>
      { b with held := b.held ++ [h] })

/-- R84, R89, R93, R96, R248: the read of a translated LD of one piece, with no write of its own agent and no held store of
its block, no stored error and no order that holds it, delivers the bytes it takes, little-endian, sign- or
zero-extended; no byte of memory changes. A plain LD of a DEFAULT line takes them from the core's copy of the line; with no copy,
from the home, and the line is placed in the cache in that step (log 54, DEDUCED). Any other LD takes them from the home, renewing the copy that the
cache holds, and an acquire then invalidates the cache. -/
def Obligations.LoadDeliversItsBytes : Prop :=
  ∀ (s : State) (i k : Nat) (n : Inst) (b : Block) (r : SlotRec) (row : Row) (f : MOp) (w : Instr) (p : Piece),
    s.inst? i = some n → n.ctl.blk = some b → n.canFire = true → b.slots[k]? = some r → b.req = none →
    Layout.slot b.words k = some (row, .m f, w) → row.opc = 0x60 → r.st = .translated → r.pieces = [p] → r.got = [] →
    p.n = sizeBytes f.sz → s.outb = [] → b.held = [] → s.flaws = [] → readMay s i b k f.lsid.toNat p = true →
    let v := fun (g : Nat → Byte) => (match f.sz with
      | .b => if f.sg then (g 0).signExtend 64 else (g 0).setWidth 64
      | .h => if f.sg then (g 1 ++ g 0).signExtend 64 else (g 1 ++ g 0).setWidth 64
      | .w => if f.sg then (g 3 ++ g 2 ++ g 1 ++ g 0).signExtend 64 else (g 3 ++ g 2 ++ g 1 ++ g 0).setWidth 64
      | .d => g 7 ++ g 6 ++ g 5 ++ g 4 ++ g 3 ++ g 2 ++ g 1 ++ g 0 : Word)
    let line := p.key - p.key % 64
    let delivers := fun (t : State) (got : List Byte) (g : Nat → Byte) =>
      exec (.readPerform (.ctl i) k) s = .next (deliver (t.modSlot i k fun r => { r with got, st := .done }) i f.t1 (.val (v g)))
    (p.cache = false ∨ f.ord ≠ .plain → poisonedIn s.poison p.key p.n = false →
      let u := refreshLine s n.cluster p.key
      delivers (if f.ord = .acq then acquire u n.cluster f.scope else u) (s.bytes p.key p.n) fun j => s.mem.read (p.key + j))
    ∧ (p.cache = true → f.ord = .plain → aget line (s.core n.cluster).cache = none →
      poisonedIn s.poison p.key p.n = false →
      delivers (s.modCore n.cluster fun c => { c with cache := aset line (s.bytes line 64) c.cache }) (s.bytes p.key p.n)
        fun j => s.mem.read (p.key + j))
    ∧ (p.cache = true → f.ord = .plain → p.key % 64 + p.n ≤ 64 → ∀ bs, aget line (s.core n.cluster).cache = some bs →
      bs.length = 64 → delivers s ((bs.drop (p.key % 64)).take p.n) fun j => bs.getD (p.key % 64 + j) 0)

/-- R90, R96, R100: a write of a control context's outbound set that its order lets perform leaves the set and joins the
coherence order at its home: its bytes read back, every other byte and every register stands as before. (It touches no
live barrier, which R114 would break, and is not poisoned.) -/
def Obligations.OutboundWritePerforms : Prop :=
  ∀ (s : State) (i : Nat) (o : Outb), s.mem.wf = true → o ∈ s.outb → o.agent = .ctl i → o.id ≠ 0 →
    (∀ x ∈ s.outb, x.id = o.id → x = o) → o.fence = none → o.poisoned = false → writeMay s o = true →
    barrierWaiters s o.key o.data.length = [] →
    ∃ t, exec (.writePerform (.ctl i) o.id) s = .next t
      ∧ t.bytes o.key o.data.length = o.data ∧ SameMemBut s t o.key o.data.length
      ∧ t.outb = s.outb.filter (fun x => x.id != o.id) ∧ t.insts = s.insts
      ∧ ∀ c, (t.core c).sems = (s.core c).sems

/-- R208, R214, R252, R424: an atomic of the cabinet space that fires in a block without another request is put at its
home: its slot is queued, and the request carries the operation, the bytes, the operands and the order. R28, R263: a barrier instruction of the cabinet space that fires in a block without another request is put at the
home of its 16-byte object, its slot queued. -/
def Obligations.AtomicsAndBarriersAreRequested : Prop :=
  (∀ (f : MOp) (s : State) (fr : Firing) (key : Nat) (x : Instr) (op : AtomicOp),
     (x, op) ∈ [(Instr.aadd f, AtomicOp.add), (.aand f, .and), (.aor f, .or), (.axor f, .xor), (.amin f, .min),
       (.amax f, .max), (.aminu f, .minu), (.amaxu f, .maxu), (.aswp f, .swp), (.acas f, .cas)] →
     let addr := fr.l + f.off.signExtend 64
     let n := sizeBytes f.sz
     let asks := fun (p : Piece) => (s.modSlot fr.i fr.k fun r => { r with st := .queued }).modBlk fr.i fun b =>
       { b with req := some ⟨fr.k, .atomic op p fr.r fr.p f.ord f.scope, false⟩ }
     firing x s = some fr → fr.b.req = none →
     (fr.rec_.st ≠ .translated → f.as = .cab → walkPending s fr.i fr.k = false → addr.toNat % n = 0 →
       lookCab s fr.n.cluster fr.n.ctx addr.toNat n = .ok key → exec x s = .next (asks ⟨key, n, false⟩))
     ∧ (∀ p rest, fr.rec_.st = .translated → fr.rec_.pieces = p :: rest → exec x s = .next (asks ⟨p.key, n, p.cache⟩)))
  ∧ (∀ (f : EOp) (s : State) (fr : Firing) (key : Nat) (x : Instr) (op : BarOp),
     (x, op) ∈ [(Instr.barinit f, BarOp.init), (.bararr f, .arrive), (.barwait f, .wait)] →
     firing x s = some fr → f.as = .cab → walkPending s fr.i fr.k = false → fr.l.toNat % 16 = 0 →
     lookCab s fr.n.cluster fr.n.ctx fr.l.toNat 16 = .ok key → fr.b.req = none →
     exec x s = .next ((s.modSlot fr.i fr.k fun r => { r with st := .queued }).modBlk fr.i fun b =>
       { b with req := some ⟨fr.k, .barrier op key f.scope fr.r, false⟩ }))

/-- R101, R252: the home performs an atomic that its block and its agent's order let perform in one step, in which its block
binds: it writes the new value (an ACAS only when the old value is the one compared with), leaves every other byte
alone, and answers the old value, zero-extended. Of a poisoned line or row (but for one that the block's own held stores
replace whole, log 28) nothing is read or written: it is refused (R252, R424). -/
def Obligations.HomePerformsAtomic : Prop :=
  ∀ (s : State) (i k : Nat) (b : Block) (op : AtomicOp) (p : Piece) (v c : Word) (ord : MemOrd) (sc : Scope) (reg : Bool),
    s.blk? i = some b → b.req = some ⟨k, .atomic op p v c ord sc, reg⟩ → sideReady s i b k = true →
    s.asleep p.key = false → s.flaws = [] →
    objectMay (bindBlock s i) i p.key p.n (isRel ord) sc (ord == .sc) = true →
    (poisonLeft s b p.key p.n = true →
      exec (.homeAtomicPerform i) s = .next (refuseEither s i k b codePoison (memAddrOf b k)))
    ∧ (poisonLeft s b p.key p.n = false → s.mem.wf = true → (p.n = 4 ∨ p.n = 8) →
      barrierWaiters (bindBlock s i) p.key p.n = [] →
      let old := s.bytes p.key p.n
      let a := BitVec.ofNat (8 * p.n) (leNat old)
      let w := atomicWrites op a (v.setWidth (8 * p.n))
      ∃ t, exec (.homeAtomicPerform i) s = .next t
        ∧ t.bytes p.key p.n = (if op = .cas ∧ a ≠ c.setWidth (8 * p.n) then old else leBytes p.n w.toNat)
        ∧ SameMemBut s t p.key p.n
        ∧ ∃ u, u.insts = (bindBlock s i).insts ∧ t = answer u i k (some (a.setWidth 64)))

/-- R248 to R254: LD, ST, PFT and FENCE, and the ten atomics, change nothing but their block, what translating leaves,
and, for a FENCE, the data cache: no register, no special register, no other context, and no byte of memory but the A
and D bits of the leaves that the translation of the access goes through; an LD, a PFT and a FENCE change none at all, and a PFT
that meets no stored error its slot and the miss counters alone. -/
def Obligations.MemoryOpcodesFrame : Prop :=
  ∀ (f : MOp) (s t : State),
    (∀ x ∈ [Instr.ld f, .pft f], exec x s = .next t → Translating s.cur.1 s t [])
    ∧ (exec (.st f) s = .next t → Translating s.cur.1 s t (accessLeaves f storeAccess s))
    ∧ (∀ x ∈ [Instr.aadd f, .aand f, .aor f, .axor f, .amin f, .amax f, .aminu f, .amaxu f, .aswp f, .acas f],
        exec x s = .next t → Translating s.cur.1 s t (accessLeaves f atomicAccess s))
    ∧ (exec (.ld f) s = .next t → SameMem s t)
    ∧ (s.flaws = [] → exec (.pft f) s = .next t → SameMem s t ∧ ∃ u, SlotOnly s.cur.1 s u ∧ t = { u with cores := t.cores, dies := t.dies })
    ∧ (exec (.fence f) s = .next t → ∃ u c, SlotOnly s.cur.1 s u ∧ (t = u ∨ t = u.modCore c fun x => { x with cache := [] }))

/-! ## The memory system's own steps -/

/-- R17, R24, R30 to R32: the walk of a request that has a walker, when it finds a leaf, serves every request for that page
from that die, sets A in the leaf it ended at (that leaf alone, and before its checks: the model's choices, logs 77 and 78) and installs it, so set, in the TLB of the cluster and that of the die; no instance
changes and, where no stored error is met, no byte of memory but the leaf's. R17, R31, R33: one that meets an invalid entry raises PAGE_ABSENT,
and one that reads a poisoned table POISON, at the slot that asked, its address in FAULTADDR; a slot that has not fired
is not faulted (R204), unless it waits for a load that stands behind it and so can never fire. R29 to R31: the fill of a valid wardrobe allocation entry reads its two bytes at the home, installs it in both TLBs and
serves every request for it. -/
def Obligations.WalksAndFills : Prop :=
  (∀ (s u : State) (j : Nat) (w : WalkReq) (e addr lg : Nat), s.walks[j]? = some w → w.as_ = .virt → w.run = true →
     walk (endWalks s w) w.ctx w.va = (u, .leaf e addr lg) →
     ∃ t, exec (.pageWalk j) s = .next t ∧ t.insts = s.insts ∧ (∀ x ∈ t.walks, sameWalk w x = false)
       ∧ (∀ p ∈ [TlbPlace.cluster w.cluster, .die (dieOfCore w.cluster)], ∃ x ∈ t.tlb, x.place = p ∧ x.ctx = w.ctx
           ∧ x.war = false ∧ x.pte = e ||| 16 ∧ x.leaf = addr ∧ (x.size = lg ∨ lg = 16 ∧ bit e 12 = true ∧ x.size = 21)
           ∧ x.base = w.va % 2 ^ 55 / 2 ^ x.size * 2 ^ x.size)
       ∧ (s.flaws = [] → s.mem.wf = true → t.num8 addr = e ||| 16 ∧ SameMemBut s t addr 8))
  ∧ (∀ (s u : State) (i k c : Nat) (w : WalkReq) (b : Block) (x : Walk), s.walks = [w] → w.by_ = .slot i k → w.as_ = .virt →
     w.run = true → s.blk? i = some b → s.due? i = none → (x = .absent ∧ c = 0x01) ∨ (x = .poisoned ∧ c = 0x21) →
     walk (endWalks s w) w.ctx w.va = (u, x) →
     ∃ t, exec (.pageWalk 0) s = .next t ∧ t.walks = []
       ∧ t.due? i = if (b.rec_ k).st = .waiting ∧ waitsForLoad b k = false then none
           else some ⟨c, b.addr, k, BitVec.ofNat 64 w.va, none, none, 0⟩)
  ∧ (∀ (s : State) (cluster page : Nat) (ctx : BitVec 8) (w : WalkReq) (e : Nat), w ∈ s.walks → w.as_ = .war →
     w.ctx = ctx.toNat → dieOfCore w.cluster = dieOfCore cluster → w.va / 0x100000 = page → page < 1024 → s.flaws = [] →
     watAddr s ctx.toNat page + 1 < hbmEnd → poisonedIn s.poison (watAddr s ctx.toNat page) 2 = false →
     e = (s.mem.read (watAddr s ctx.toNat page)).toNat + 256 * (s.mem.read (watAddr s ctx.toNat page + 1)).toNat →
     bit e 15 = true → bits e 13 10 = 0 →
     ∃ t, exec (.wardrobeEntryFill cluster ctx page) s = .next t ∧ t.mem = s.mem ∧ t.insts = s.insts
       ∧ (∀ p ∈ [TlbPlace.cluster cluster, .die (dieOfCore cluster)], ∃ x ∈ t.tlb, x.place = p ∧ x.war = true
           ∧ x.ctx = ctx.toNat ∧ x.base = page * 0x100000 ∧ x.pte = e)
       ∧ ∀ x ∈ t.walks, ¬ (x.as_ = .war ∧ x.ctx = ctx.toNat ∧ dieOfCore x.cluster = dieOfCore cluster ∧ x.va / 0x100000 = page))

/-- R48, R51 to R53, R96: a copy leaves the data cache at any step; a waiting write-back is made; an unused array enters
retention, is retained once its rows have entered, leaves it when asked and is awake once they have left: an exit takes
as long as the entry, and one asked for during the entry converts back the rows re-encoded so far. (No stored error
waits in it, which an entry or exit would meet, R52.) -/
def Obligations.CacheAndRetentionSteps : Prop :=
  ∀ (s : State) (core line key : Nat) (a : ArrayId),
    (exec (.cacheLineDrop core line) s = .next { s with
      cores := aset core { s.core core with cache := adel line (s.core core).cache } s.cores })
    ∧ (exec (.eccWriteback key) s = .next { s with writebacks := s.writebacks.erase key })
    ∧ (arrayUnused s a = true → (∀ r ∈ s.retention, r.1 ≠ a) → canCommand s (leafOfArray a) = true →
      exec (.retentionEntry a) s = .next { commandAll s (leafOfArray a) (.sleep a) with retention := s.retention ++ [(a, .entering s.cycle)] })
    ∧ (∀ t₀, (a, .entering t₀) ∈ s.retention → t₀ + retentionCycles a ≤ s.cycle → s.flaws = [] →
      exec (.retentionEntryDone a) s =
        .next { s with retention := s.retention.map fun r => if r.1 = a then (a, .retained) else r })
    ∧ (s.retention = [(a, .retained)] → s.flaws = [] → canCommand s (leafOfArray a) = true →
      exec (.retentionExit a) s = .next { commandAll s (leafOfArray a) (.wake a) with retention := [(a, .leaving (s.cycle + retentionCycles a) (bankRows a))] })
    ∧ (∀ t₀, s.retention = [(a, .entering t₀)] → s.flaws = [] → canCommand s (leafOfArray a) = true →
      let rows := min ((s.cycle - t₀) / rowCycles a) (bankRows a)
      exec (.retentionExit a) s = .next { commandAll s (leafOfArray a) (.wake a) with
        retention := [(a, .leaving (s.cycle + rows * rowCycles a) rows)] })
    ∧ (∀ t₀ rows, s.retention = [(a, .leaving t₀ rows)] → t₀ ≤ s.cycle → s.flaws = [] →
      exec (.retentionExitDone a) s = .next { s with retention := [] })

/-! ## Semaphores and barriers (R261 to R266) -/

/-- R261, R262 (FAULTADDR 0 of a refusal is the model's choice, log 119): SEMREAD delivers the count of a semaphore that its context owns or was granted; SEMWAIT, first in turn and
with enough count, subtracts its count, binds its block, is an acquire at its scope and delivers what is left; SEMPOST,
its release clear, binds its block and adds, saturating at 2^32 - 1. R261: a semaphore instruction of a context that neither owns the semaphore nor was granted it raises PAGE_DENIED and
does nothing else. -/
def Obligations.SemaphoreResults : Prop :=
  (∀ (f : EOp) (s : State) (fr : Firing),
     let core := fr.n.cluster
     let k := f.sel.toNat
     let m := s.sem core k
     m.allows fr.n.ctx = true →
     (firing (.semread f) s = some fr → exec (.semread f) s = .next (fr.done s [f.t1] (m.count.setWidth 64)))
     ∧ (firing (.semwait f) s = some fr → sideReady s fr.i fr.b fr.k = true → m.waiters = [] → f.imm.toNat ≤ m.count.toNat →
       ∃ t, exec (.semwait f) s = .next t ∧ t.mem = s.mem ∧ (t.sem core k).count.toNat = m.count.toNat - f.imm.toNat
         ∧ (∀ c j, c ≠ core ∨ j ≠ k → t.sem c j = s.sem c j) ∧ (clusterUp f.scope = true → (t.core core).cache = [])
         ∧ ∃ u, u.insts = (bindBlock s fr.i).insts ∧ t = fr.done u [f.t1] (BitVec.ofNat 64 (m.count.toNat - f.imm.toNat)))
     ∧ (firing (.sempost f) s = some fr → sideReady s fr.i fr.b fr.k = true →
       ctlReleaseClear (bindBlock s fr.i) fr.i f.scope = true →
       ∃ t, exec (.sempost f) s = .next t ∧ t.mem = s.mem
         ∧ (t.sem core k).count.toNat = min (m.count.toNat + f.imm.toNat) (2 ^ 32 - 1)
         ∧ (∀ c j, c ≠ core ∨ j ≠ k → t.sem c j = s.sem c j)
         ∧ ∃ u, u.insts = (bindBlock s fr.i).insts ∧ t = fr.doneAll u []))
  ∧ (∀ (f : EOp) (s : State) (fr : Firing), (s.sem fr.n.cluster f.sel.toNat).allows fr.n.ctx = false →
     ∀ x ∈ [Instr.semread f, .semwait f, .sempost f], firing x s = some fr →
       exec x s = .next (raise s fr.i 0x02 fr.k 0))

/-- R101, R263 to R266: at the home, for a request that its block and its agent's order let perform, on an object that no
BARWAIT waits at and that is neither poisoned nor BROKEN (a BROKEN one answers bit 63 with the phase): BARINIT with a count of 1 to 1,048,575 writes phase 0 and that count twice; BARARR that is not the
last takes one from REMAIN, the last starts the next phase with REMAIN at N, and both answer the phase, with bit 62 for
the last; BARWAIT for a phase that has ended answers the phase, and otherwise registers. No other byte changes. R104, R266: a registered BARWAIT whose phase has ended performs with its
result, an acquire at its scope. R266: a BARWAIT that polls, 1 µs after its last look at an object that is neither poisoned nor BROKEN, is answered
the phase when the one it waits for has ended, and otherwise polls on. -/
def Obligations.BarrierObjectSteps : Prop :=
  (∀ (s : State) (i k key : Nat) (b : Block) (op : BarOp) (sc : Scope) (arg : Word),
     s.mem.wf = true → s.blk? i = some b → s.due? i = none → b.req = some ⟨k, .barrier op key sc arg, false⟩ →
     sideReady s i b k = true → (b.rec_ k).st = .queued → s.asleep key = false → s.flaws = [] →
     poisonedIn s.poison key 16 = false → hbmEnd ≤ key →
     let v := if op = .wait then s else bindBlock s i
     objectMay v i key 16 (op != .wait) sc false = true → barrierWaiters v key 16 = [] →
     let w0 := leNat (s.bytes key 8)
     let phase := w0 / 2 ^ 40
     let n := w0 / 2 ^ 20 % 2 ^ 20
     let remain := w0 % 2 ^ 20
     let status := leNat (s.bytes (key + 8) 8)
     (op = .init → 1 ≤ arg.toNat → arg.toNat ≤ 1048575 →
       ∃ t, exec (.barrierOpPerform i) s = .next t ∧ SameMemBut s t key 16
         ∧ leNat (t.bytes key 8) = arg.toNat * 2 ^ 20 + arg.toNat ∧ leNat (t.bytes (key + 8) 8) = 0)
     ∧ (op = .arrive → status / 4 % 2 = 0 → 1 < remain → remain ≤ n →
       ∃ t, exec (.barrierOpPerform i) s = .next t ∧ SameMemBut s t key 16
         ∧ leNat (t.bytes key 8) = phase * 2 ^ 40 + n * 2 ^ 20 + (remain - 1)
         ∧ ∃ u, u.insts = v.insts ∧ t = answer u i k (some (BitVec.ofNat 64 phase)))
     ∧ (op = .arrive → status / 4 % 2 = 0 → remain = 1 → 1 ≤ n →
       ∃ t, exec (.barrierOpPerform i) s = .next t ∧ SameMemBut s t key 16
         ∧ leNat (t.bytes key 8) = (phase + 1) % 2 ^ 24 * 2 ^ 40 + n * 2 ^ 20 + n
         ∧ ∃ u, u.insts = v.insts ∧ t = answer u i k (some (BitVec.ofNat 64 (2 ^ 62 + phase))))
     ∧ (op ≠ .init → status / 4 % 2 = 1 →
       ∃ t, exec (.barrierOpPerform i) s = .next t ∧ t.mem = s.mem
         ∧ t.insts = (answer s i k (some (BitVec.ofNat 64 (2 ^ 63 + phase)))).insts)
     ∧ (op = .wait → status / 4 % 2 = 0 → phase ≠ arg.toNat % 2 ^ 24 →
       ∃ t, exec (.barrierOpPerform i) s = .next t ∧ t.mem = s.mem
         ∧ t.insts = (answer s i k (some (BitVec.ofNat 64 phase))).insts)
     ∧ (op = .wait → status / 4 % 2 = 0 → phase = arg.toNat % 2 ^ 24 → canRegister s key = true →
       exec (.barrierOpPerform i) s = .next (s.modBlk i fun b => { b with req := some ⟨k, .barrier op key sc arg, true⟩ })))
  ∧ (∀ (s : State) (i k key : Nat) (b : Block) (sc : Scope) (arg : Word), s.blk? i = some b →
     b.req = some ⟨k, .barrier .wait key sc arg, true⟩ → (b.rec_ k).got ≠ [] →
     ∃ t, exec (.barrierOpPerform i) s = .next t ∧ t.mem = s.mem
       ∧ t.insts = (answer s i k (some (BitVec.ofNat 64 (leNat (b.rec_ k).got)))).insts
       ∧ ∀ n, s.inst? i = some n → clusterUp sc = true → (t.core n.cluster).cache = [])
  ∧ (∀ (s : State) (i k key : Nat) (b : Block) (sc : Scope) (arg : Word),
     s.blk? i = some b → b.req = some ⟨k, .barrier .wait key sc arg, false⟩ → (b.rec_ k).st = .blocked →
     (b.rec_ k).since + 1600 ≤ s.cycle → s.asleep key = false → s.flaws = [] → poisonedIn s.poison key 16 = false →
     leNat (s.bytes (key + 8) 8) / 4 % 2 = 0 →
     let phase := leNat (s.bytes key 8) / 2 ^ 40
     ∃ t, exec (.barwaitPoll i) s = .next t ∧ t.mem = s.mem
       ∧ (phase ≠ arg.toNat % 2 ^ 24 → t.insts = (answer s i k (some (BitVec.ofNat 64 phase))).insts)
       ∧ (phase = arg.toNat % 2 ^ 24 → t = s.modSlot i k fun r => { r with since := s.cycle }))

/-! ## Channels (R60 to R82, R256 to R260) -/

/-- R60, R71, R72, R257, R259: in a block without another request, CHSEND of a register token by the writer, CHRECV and
CHTRY on the register path, and CHCLOSE, put their request to the controller, their slot queued; CHLEN delivers the
number of untaken tokens of head, ring and tail to either endpoint. R60, R71: a handle that names no channel of the context raises CH_WRITER for a CHSEND and CH_READER for a CHLEN, and
nothing else happens; FAULTADDR is 0 then (the model's choice, log 84). -/
def Obligations.ChannelOpcodesFire : Prop :=
  (∀ (f : EOp) (s : State) (fr : Firing), fr.b.req = none →
     let asked := fun (q : Req) => (s.modSlot fr.i fr.k fun r => { r with st := .queued }).modBlk fr.i fun b =>
       { b with req := some ⟨fr.k, q, false⟩ }
     (∀ key c, firing (.chsend f) s = some fr → chanQuery s fr.n.ctx (.ctl fr.i) fr.l true = .ok (key, c) → c.width = 8 →
       exec (.chsend f) s = .next (asked (.chan .send fr.l (leBytes 8 fr.r.toNat) [])))
     ∧ (firing (.chrecv f) s = some fr → fr.rec_.r = none → exec (.chrecv f) s = .next (asked (.chan .recv fr.l [] [])))
     ∧ (firing (.chtry f) s = some fr → fr.rec_.r = none → exec (.chtry f) s = .next (asked (.chan .tryRecv fr.l [] [])))
     ∧ (firing (.chclose f) s = some fr → exec (.chclose f) s = .next (asked (.chan .close fr.l [] [])))
     ∧ (∀ key c, firing (.chlen f) s = some fr → chanOf s fr.n.ctx fr.l = some (key, c) →
       (c.writer = .ctl fr.i ∨ c.reader = .ctl fr.i) →
       exec (.chlen f) s = .next (fr.done s [f.t1]
         (BitVec.ofNat 64 (c.head.countP (fun t => !t.taken) + c.ring.countP (fun e => !e.pad) + c.tail.length)))))
  ∧ (∀ (f : EOp) (s : State) (fr : Firing), chanOf s fr.n.ctx fr.l = none →
     (firing (.chsend f) s = some fr → exec (.chsend f) s = .next (raise s fr.i 0x10 fr.k 0))
     ∧ (firing (.chlen f) s = some fr → exec (.chlen f) s = .next (raise s fr.i 0x11 fr.k 0)))

/-- R72, R73, R101, R257, R258: the controller's step for a request that its block lets perform; the block binds in it. A send
that fits reserves its entry and its token joins at commit; a receive takes the head's first token, when its buffer row is
good, and delivers its low 8 bytes; a CHTRY on an empty, open channel delivers null and 1; a close of an open channel, its release
clear, closes it. No byte of memory changes. -/
def Obligations.ChannelRequestSteps : Prop :=
  ∀ (s : State) (i k key : Nat) (n : Inst) (b : Block) (c : Chan) (op : ChanOp) (h : Word) (data : List Byte),
    s.inst? i = some n → n.ctl.blk = some b → sideReady s i b k = true → n.ctl.due = none →
    b.req = some ⟨k, .chan op h data [], false⟩ →
    (op = .send → chanQuery s n.ctx (.ctl i) h true = .ok (key, c) → c.state = .opened → c.fits (c.entry data) = true →
      ∃ t, exec (.channelRequest i) s = .next t ∧ t.mem = s.mem
        ∧ aget key t.chans = some { c with writer := .ctl i, resv := c.resv ++ [(i, c.entry data)], comp := c.above }
        ∧ (∀ j, j ≠ key → aget j t.chans = aget j s.chans)
        ∧ ∃ b', t.blk? i = some b' ∧ b'.req = none ∧ b'.acts = b.acts ++ [.token key data])
    ∧ (∀ tok rest, op = .recv → chanQuery s n.ctx (.ctl i) h false = .ok (key, c) → c.head = tok :: rest → tok.taken = false →
      tok.lost = false → s.flaws = [] → s.poisonedPieces (c.headPieces tok) = false → c.ring = [] → c.tail = [] → c.late = [] →
      ∃ t, exec (.channelRequest i) s = .next t ∧ t.mem = s.mem
        ∧ (∃ c', aget key t.chans = some c' ∧ c'.head = rest ∧ c'.reader = .ctl i)
        ∧ t.insts = (answer s i k (some (BitVec.ofNat 64 (leNat (tok.data.take 8))))).insts)
    ∧ (∀ t1 t2, op = .tryRecv → chanQuery s n.ctx (.ctl i) h false = .ok (key, c) → c.head = [] → c.state ≠ .ended →
      slotTargets s i k = [t1, t2] →
      ∃ t, exec (.channelRequest i) s = .next t ∧ t.mem = s.mem
        ∧ t.insts = (deliver (deliver (answer s i k none) i t1 .null) i t2 (.val 1)).insts)
    ∧ (op = .close → chanQuery s n.ctx (.ctl i) h true = .ok (key, c) → c.state = .opened →
      ctlReleaseClear (bindBlock s i) i c.scope = true →
      ∃ t, exec (.channelRequest i) s = .next t ∧ t.mem = s.mem ∧ t.insts = (answer s i k none).insts
        ∧ ∃ c', aget key t.chans = some c' ∧ c'.writer = .ctl i ∧ (c'.state = .closed ∨ c'.state = .ended))

/-- R67, R70, R74, R75: a spill that performs, or a stalled one that is retried and performs, moves the tail's oldest
entry to the ring: its stored bytes reach the pages it translates to, and the channel is not stalled. A refill moves the
ring's oldest entry to the head, into the next slot of its buffer. The growth copy of a ring that does not wrap doubles
the ring and changes no byte; where slots and buffers lie is the model's choice (log 81). (Nothing is poisoned, and no committed token waits for room.) R66: a channel destroyed by its handle leaves the table, its entry's generation moves on, and no other channel
changes. -/
def Obligations.ChannelSegmentMoves : Prop :=
  (∀ (s : State) (key off : Nat) (c c' : Chan) (e : Ent) (p : Piece), s.mem.wf = true → aget key s.chans = some c → c.valid = true →
     c.late = [] → s.flaws = [] → s.poison = [] →
     (c.spillOne = some (off, e, c') → c.grow = false → c.stallRead = false → (entBytes e).length = p.n →
       xlateNow s (key / 4096) c.ctx (c.rbase + BitVec.ofNat 64 off) e.size 8 (chanAccess true) = (s, .ok [p]) →
       (c.stall = false → sendWaits s key c = true →
         ∃ t, exec (.channelSpill key) s = .next t ∧ t.bytes p.key p.n = entBytes e ∧ SameMemBut s t p.key p.n
           ∧ t.insts = s.insts ∧ aget key t.chans = some (Chan.rested { c' with stall := false }))
       ∧ (c.stall = true →
         ∃ t, exec (.spillRetry key) s = .next t ∧ t.bytes p.key p.n = entBytes e ∧ SameMemBut s t p.key p.n
           ∧ t.insts = s.insts ∧ aget key t.chans = some (Chan.rested { c' with stall := false })))
     ∧ (∀ rest, c.ring = e :: rest → e.pad = false → e.lost = false → c.grow = false → c.stallRead = false →
       c.head.length < c.hcap → c.tail = [] →
       xlateNow s (key / 4096) c.ctx (c.rbase + BitVec.ofNat 64 c.rdoff) e.size 8 (chanAccess false) = (s, .ok [p]) →
       let row := c.headKey (c.nextSlot * c.width)
       ∃ t, exec (.channelRefill key) s = .next t ∧ t.insts = s.insts
         ∧ t.bytes row e.data.length = e.data ∧ SameMemBut s t row e.data.length
         ∧ aget key t.chans = some (Chan.rested { c with
             ring := rest, rdoff := c.wrap (c.rdoff + e.size), stallRead := false,
             head := c.head ++ [⟨e.data, false, false, c.nextSlot⟩] }))
     ∧ (c.grow = true → c.stall = false → (c.ring = [] ∧ c.tail = [] ∨ c.ring ≠ [] ∧ c.rdoff < c.wroff) →
       ∃ t, exec (.growthCopyDone key) s = .next t ∧ t.mem = s.mem ∧ t.insts = s.insts
         ∧ ∃ g, aget key t.chans = some g ∧ g.ringpg = 2 * c.ringpg ∧ g.grow = false))
  ∧ (∀ (s : State) (h : BitVec 32) (key : Nat) (c : Chan), chanKey (h.setWidth 64) = some key →
     Assoc.rising none s.chans = true → aget key s.chans = some c → c.valid = true → chanHandle key c = h.setWidth 64 →
     ∃ t, exec (.channelDestroy h) s = .next t ∧ t.mem = s.mem ∧ t.insts = s.insts ∧ aget key t.chans = none
       ∧ aget key t.gens = some (c.gen + 1) ∧ ∀ j, j ≠ key → aget j t.chans = aget j s.chans)

/-- R77, R78: an instance blocked on channels for 50 µs is reported; the detector, run for a report from which no cycle
leads, uses the report up and changes nothing else; run for an instance that waits in a cycle of its own on a full ring
that may grow, it starts the growth. -/
def Obligations.BlockedReportAndDetector : Prop :=
  ∀ (s : State) (i t₀ key : Nat) (c : Chan),
    (blockedSince s i = some t₀ → t₀ + 80000 ≤ s.cycle →
      exec (.blockedReport i) s = .next { s with reports := s.reports.filter (fun j => j != i) ++ [i],
                                                 detect := s.detect.filter (fun j => j != i) ++ [i] })
    ∧ (i ∈ s.detect →
      let s₁ := { s with reports := s.reports.filter (fun j => !(waitsOf s j).isEmpty), detect := s.detect.erase i }
      (findCycle s₁ i = none →
        ∃ t, exec (.deadlockDetector i) s = .next t ∧ t.detect = s.detect.erase i ∧ t.mem = s.mem ∧ t.insts = s.insts
          ∧ t.chans = s.chans)
      ∧ (findCycle s₁ i = some [⟨i, [key]⟩] → aget key s.chans = some c → c.rfull = true → 2 * c.ringpg ≤ c.ringmax →
        ∃ t, exec (.deadlockDetector i) s = .next t ∧ t.detect = s.detect.erase i ∧ t.mem = s.mem ∧ t.insts = s.insts
          ∧ aget key t.chans = some { c with grow := true }))

/-! ## The life of a block: fetch, start, exits, commit, stall, traps -/

/-- R206, R211, R382: BLOCK_FETCH at a boundary installs the block at the context's address, nothing of it started, when
its words pass the checks; a failed check is a fault due with FAULTBLK that address and no block in flight. Among the
checks of the slots, BRK raises BREAK, a word that is no instruction ILLEGAL, and a privileged opcode at level U PRIV,
each with FAULTSLOT its slot; FAULTADDR is 0 (the model's choice, log 119). -/
def Obligations.BlockFetchAndItsChecks : Prop :=
  (∀ (s : State) (i x : Nat) (n : Inst) (ws : List Word), s.inst? i = some n → n.life = .running → n.ctl.blk = none →
    n.ctl.due = none → n.ctl.async = [] → n.ctl.wait = [] → (∀ w ∈ s.walks, w.by_ ≠ .fetch i) →
    (s.core n.cluster).blocks.find? (fun b => b.1 == cacheCtx n && b.2.1 == n.ctl.next) = some (x, n.ctl.next, ws) →
    (decodeCheck ws n.ctl.cur n.reg.isSome = none →
      exec (.blockFetch i) s = .next (s.modCtl i fun c => { c with blk := some (Block.fresh c.next ws) }))
    ∧ (∀ c k, decodeCheck ws n.ctl.cur n.reg.isSome = some (c, k) →
      exec (.blockFetch i) s = .next (s.modCtl i fun x => { x with due := some ⟨c, n.ctl.next, k, 0, none, none, 0⟩ })))
  ∧ (∀ (ws : List Word) (sup region : Bool) (k : Nat), headerBad ws = false → entriesBad ws = false →
    k < Layout.nslot ws → slotsCheck ws sup region [] (List.range k) = none →
    (decodeSlot (Layout.slotWord ws k) = .error .brk → decodeCheck ws sup region = some (0x09, k))
    ∧ (∀ e, e ≠ .brk → decodeSlot (Layout.slotWord ws k) = .error e → decodeCheck ws sup region = some (0x06, k))
    ∧ (∀ f, sup = false → decodeSlot (Layout.slotWord ws k) ∈ [.ok (.qreset f), .ok (.tlbinv f), .ok (.bcinv f), .ok (.eret f)] →
        decodeCheck ws sup region = some (0x07, k)))

/-- R95, R200, R202, R270: BLOCK_START delivers each read entry's register, as it stands before the block, to both of its
targets, and waits while a register that it reads or writes is pending. The read of a token register of a record with REL
is an acquire: the core's data cache is invalidated; other reads leave it. -/
def Obligations.BlockStartDeliversItsRegisters : Prop :=
  ∀ (s : State) (i : Nat) (n : Inst) (b : Block), s.inst? i = some n → n.ctl.blk = some b → n.life = .running →
    n.ctl.due = none → b.started = false →
    ((∃ k, k < Layout.nread b.words ∧ n.ctl.isPending (Layout.readEntry b.words k).1 = true
        ∨ k < Layout.nwrite b.words ∧ n.ctl.isPending (Layout.writeReg b.words k) = true) →
      exec (.blockStart i) s = .next s)
    ∧ (n.ctl.pending = 0 →
      let u := acquireTokens s i n b.words
      exec (.blockStart i) s = .next ((List.range (Layout.nread b.words)).foldl (fun t k =>
        let e := Layout.readEntry b.words k
        let v := if e.1 = 0 then 0 else n.ctl.regs.toList.getD e.1 0
        deliver (deliver t i e.2.1 (.val v)) i e.2.2 (.val v))
          ({ u with fresh := u.fresh + 1 }.modBlk i fun b => { b with started := true, runFrom := s.cycle, id := u.fresh + 1 })))
    ∧ (n.ctl.pending = 0 → ∃ t, exec (.blockStart i) s = .next t ∧ t.mem = s.mem
        ∧ ((∃ k, k < Layout.nread b.words ∧ n.ctl.acq.getLsbD (Layout.readEntry b.words k).1 = true) → (t.core n.cluster).cache = [])
        ∧ ((∀ k, k < Layout.nread b.words → n.ctl.acq.getLsbD (Layout.readEntry b.words k).1 = false) → t.cores = s.cores))

/-- R240 to R246, R286: an exit that fires first is done and chooses what follows its block: BR and CALL the block OFF
64-byte units away, BRI and CALLI the block at L, HALT a stop, TRAP its argument, ERET a return; CALL and CALLI deliver
the address after their own block. R242, R246: BRI and CALLI raise MISALIGN for an address whose bits 5:0 are not zero; an
exit that fires when another of its block has fired raises MULTI_EXIT and is named, of exits that fire in one control cycle
the highest (what is one cycle is log 26, DEDUCED); FAULTADDR is 0 then (the model's choice, log 119). -/
def Obligations.ExitsChooseWhatFollows : Prop :=
  (∀ (f : BOp) (e : EOp) (s : State) (fr : Firing), fr.b.exit = none →
     let away := fr.b.addr + f.off.signExtend 64 * 64
     let after := fr.b.addr + BitVec.ofNat 64 (Layout.extent fr.b.words)
     let chosen := fun (x : ExitTo) =>
       (s.modSlot fr.i fr.k fun r => { r with st := .done, since := s.cycle + 1 }).modBlk fr.i fun b =>
         { b with exit := some (fr.k, x) }
     let called := fun (x : ExitTo) => deliver (chosen x) fr.i f.t1 (.val after)
     (firing (.br f) s = some fr → exec (.br f) s = .next (chosen (.block away)))
     ∧ (firing (.bri f) s = some fr → fr.l.toNat % 64 = 0 → exec (.bri f) s = .next (chosen (.block fr.l)))
     ∧ (firing (.call f) s = some fr → exec (.call f) s = .next (called (.block away)))
     ∧ (firing (.calli f) s = some fr → fr.l.toNat % 64 = 0 → exec (.calli f) s = .next (called (.block fr.l)))
     ∧ (firing (.halt f) s = some fr → exec (.halt f) s = .next (chosen .halt))
     ∧ (firing (.trap f) s = some fr → exec (.trap f) s = .next (chosen (.trap f.off.toNat)))
     ∧ (firing (.eret e) s = some fr → exec (.eret e) s = .next (chosen .eret)))
  ∧ (∀ (f : BOp) (s : State) (fr : Firing), ∀ x ∈ [Instr.bri f, .calli f], firing x s = some fr → fr.l.toNat % 64 ≠ 0 →
       exec x s = .next (raise s fr.i 0x04 fr.k fr.l))
  ∧ (∀ (f : BOp) (e : EOp) (s : State) (fr : Firing) (j : Nat) (other : ExitTo), fr.b.exit = some (j, other) →
     let named := (readyExits fr.b).foldl max (if (fr.b.rec_ j).since = s.cycle + 1 then max j fr.k else fr.k)
     let met := raise (s.modSlot fr.i fr.k fun r => { r with st := .done, since := s.cycle + 1 }) fr.i 0x0B named 0
     (∀ x ∈ [Instr.br f, .halt f, .trap f, .eret e], firing x s = some fr → exec x s = .next met)
     ∧ (firing (.bri f) s = some fr → fr.l.toNat % 64 = 0 → exec (.bri f) s = .next met)
     ∧ (∀ x ∈ [Instr.call f, .calli f], firing x s = some fr → (x = .calli f → fr.l.toNat % 64 = 0) →
       exec x s = .next (deliver met fr.i f.t1 (.val (fr.b.addr + BitVec.ofNat 64 (Layout.extent fr.b.words))))))

/-- R100, R200, R204, R206, R230, R240, R388: the commit of a block that branches writes each register whose write entry
holds a value, leaves the others, x0 reading 0; puts its held stores into the outbound set; goes to the exit's block; and
makes a STEP trap due at level U when STATUS.STEP is set. No byte of memory and no other context changes. -/
def Obligations.CommitWritesItsRegisters : Prop :=
  ∀ (s : State) (i k : Nat) (n : Inst) (b : Block) (a : Word), s.inst? i = some n → n.ctl.blk = some b →
    committable s i n b = true → b.acts = [] → Layout.isNest b.words = false → b.exit = some (k, .block a) →
    ((List.range (Layout.nwrite b.words)).map (Layout.writeReg b.words)).Nodup → b.writes.length = Layout.nwrite b.words →
    ∃ t n', exec (.blockCommit i) s = .next t ∧ t.inst? i = some n' ∧ t.mem = s.mem ∧ (∀ j, j ≠ i → t.inst? j = s.inst? j)
      ∧ (∀ j v, b.writes[j]? = some (some (.val v)) → Layout.writeReg b.words j ≠ 0 →
          n'.ctl.reg (Layout.writeReg b.words j) = v ∧ n'.ctl.acq.getLsbD (Layout.writeReg b.words j) = false)
      ∧ (∀ r, (∀ j v, b.writes[j]? = some (some (.val v)) → Layout.writeReg b.words j ≠ r) →
          n'.ctl.reg r = n.ctl.reg r ∧ n'.ctl.acq.getLsbD r = n.ctl.acq.getLsbD r)
      ∧ n'.ctl.reg 0 = 0
      ∧ n'.ctl = { n.ctl with
          regs := n'.ctl.regs, acq := n'.ctl.acq, blk := none, next := a, dz := n.ctl.dz || b.divZero, watch := 0, expired := false,
          due := if n.ctl.step && !n.ctl.cur then some ⟨0x0A, a, 0xC2, 0, none, none, 0⟩ else none }
      ∧ (b.held = [] → t.outb = s.outb)
      ∧ (∀ h p, b.held = [h] → h.fence = none → h.pieces = [p] → h.lsid < 33 →
          ∃ o, t.outb = s.outb ++ [o] ∧ o.agent = .ctl i ∧ o.key = p.key ∧ o.data = h.data.take p.n ∧ o.rel = h.rel)

/-- R243, R244, R286, R383, R385: at commit HALT leaves the context waiting with no block to come; TRAP at level U makes
TRAP due, FAULTBLK the block after its own and FAULTADDR its argument, and at level S ends the instance; ERET goes to
FAULTBLK at level PREV, with PREV then 0, and a region that the trap left alone held runs again; one that another fault holds
stays held (which trap an ERET leaves is log 59, DEDUCED). -/
def Obligations.CommitEndsWithItsExit : Prop :=
  ∀ (s : State) (i k : Nat) (n : Inst) (b : Block), s.inst? i = some n → n.ctl.blk = some b →
    committable s i n b = true → b.acts = [] → Layout.isNest b.words = false → n.ctl.step = false →
    let after := b.addr + BitVec.ofNat 64 (Layout.extent b.words)
    (b.exit = some (k, .halt) →
      ∃ t n', exec (.blockCommit i) s = .next t ∧ t.inst? i = some n' ∧ t.mem = s.mem ∧ n'.ctl.blk = none
        ∧ n'.ctl.wait = n.ctl.wait ++ [.halted] ∧ n'.ctl.due = none ∧ n'.ctl.next = 0)
    ∧ (∀ arg, b.exit = some (k, .trap arg) → n.ctl.cur = false →
      ∃ t n', exec (.blockCommit i) s = .next t ∧ t.inst? i = some n' ∧ t.mem = s.mem ∧ n'.ctl.blk = none
        ∧ n'.ctl.next = after ∧ n'.ctl.due = some ⟨0x08, after, k, BitVec.ofNat 64 arg, none, none, 0⟩)
    ∧ (∀ arg, b.exit = some (k, .trap arg) → n.ctl.cur = true →
      ∃ t n', exec (.blockCommit i) s = .next t ∧ t.inst? i = some n' ∧ n'.life = .ended
        ∧ n'.faultEnd = some (if n.ctl.faultCode = 0 then 0x08 else n.ctl.faultCode.toNat))
    ∧ (b.exit = some (k, .eret) → n.ctl.traps = [] → n.ctl.inHalt = false →
      ∃ t n', exec (.blockCommit i) s = .next t ∧ t.inst? i = some n' ∧ t.mem = s.mem ∧ n'.ctl.blk = none
        ∧ n'.ctl.next = n'.ctl.faultBlk ∧ n'.ctl.faultBlk = n.ctl.faultBlk ∧ n'.ctl.cur = n.ctl.prev ∧ n'.ctl.prev = false)
    ∧ (∀ tr rest r nest, b.exit = some (k, .eret) → n.ctl.traps = tr :: rest → tr.hold ≠ 0 →
      n.reg = some r → r.phase = .held → r.heldBy = [tr.hold] → r.nest = some nest → nest.run = true →
      ∃ t n' r', exec (.blockCommit i) s = .next t ∧ t.inst? i = some n' ∧ n'.reg = some r' ∧ r'.phase = .running
        ∧ n'.ctl.traps = rest)
    ∧ (∀ tr rest r, b.exit = some (k, .eret) → n.ctl.traps = tr :: rest → n.reg = some r → r.phase = .held →
      (∃ j ∈ r.heldBy, j ≠ tr.hold) →
      ∃ t n' r', exec (.blockCommit i) s = .next t ∧ t.inst? i = some n' ∧ n'.reg = some r' ∧ r'.phase = .held
        ∧ n'.ctl.traps = rest)

/-- R210, R382: the timer of an unbound block that has run for four times its BUDGET, or 1,048,576 cycles when it gives
none, raises BLOCK_STALL with FAULTSLOT 0xC5, and a request of it that earlier writes keep in the core (SER) goes no
further; FAULTADDR is 0. Before that, once the block is bound, or while a request of it that has
left is not decided (R424), it does nothing. -/
def Obligations.BlockStallTimer : Prop :=
  ∀ (s : State) (i : Nat) (n : Inst) (b : Block), s.inst? i = some n → n.ctl.blk = some b → n.life = .running →
    n.ctl.due = none → b.started = true →
    let limit := if Layout.isFabric b.words = true ∨ Layout.budget b.words = 0 then 1048576 else 4 * Layout.budget b.words
    let ran := s.cycle - b.runFrom - b.excluded
    let kept := if Layout.ser b.words = true ∧ (∃ o ∈ s.outb, o.agent = .ctl i) then { b with req := none } else b
    (b.bound = false → undecided s i b = false → limit ≤ ran →
      exec (.blockStall i) s =
        .next (s.modCtl i fun c => { c with due := some ⟨0x0C, b.addr, 0xC5, 0, none, none, 0⟩, blk := some kept }))
    ∧ (b.bound = true ∨ undecided s i b = true ∨ ran < limit → exec (.blockStall i) s = .next s)

/-- R209, R380, R381, R383: a fault due at a boundary, or over a block that has not bound and is discarded, is taken: the
fault registers name it, PREV takes the level and CUR is S, and the handler's address is read at VECBASE plus eight times
the code; no general register changes. With VECBASE 0 the instance ends with that code instead. An asynchronous fault is
not taken at level S. (No reset has taken the instance, R400.) -/
def Obligations.TrapEntryTakesTheFault : Prop :=
  ∀ (s : State) (i : Nat) (n : Inst) (tr : TrapInfo), s.inst? i = some n → n.life = .running → underReset s i = false →
    (n.ctl.blk = none ∨ ∃ b, n.ctl.blk = some b ∧ b.bound = false ∧ undecided s i b = false) →
    let s₀ := if n.ctl.blk = none then s else discardBlock s i
    let s₁ := s₀.modCtl i fun c => { c with
      inHalt := c.inHalt || n.ctl.wait.contains .halted, wait := c.wait.filter fun w => w != .halted }
    let s₂ := (dropWalks s₁ fun w => w.by_ == .fetch i).modCtl i fun c => c.enterTrap tr
    (∀ u p, n.ctl.due = some tr → n.ctl.vecbase ≠ 0 →
      xlate s₂ (some n.cluster) n.cluster (dieOfCore n.cluster) n.ctx .virt (n.ctl.vecbase + BitVec.ofNat 64 (tr.code * 8))
        8 8 1 ⟨.core, true, false, false, true⟩ true = (u, .ok [p]) →
      u.insts = s₂.insts → p.n = 8 → u.flaws = [] → u.poison = [] → isDeviceKey p.key = false →
      let h := BitVec.ofNat 64 (leNat (u.bytes p.key 8))
      h ≠ 0 → h.toNat % 64 = 0 →
      ∃ t n', exec (.trapEntry i) s = .next t ∧ t.inst? i = some n' ∧ n'.ctl.regs = n.ctl.regs ∧ n'.ctl.blk = none
        ∧ n'.ctl.due = none ∧ n'.ctl.faultCode = BitVec.ofNat 8 tr.code ∧ n'.ctl.faultBlk = tr.blk
        ∧ n'.ctl.faultSlot = BitVec.ofNat 8 tr.slot ∧ n'.ctl.faultAddr = tr.addr
        ∧ n'.ctl.prev = n.ctl.cur ∧ n'.ctl.cur = true ∧ n'.ctl.next = h)
    ∧ (n.ctl.due = some tr → n.ctl.vecbase = 0 →
      ∃ t n', exec (.trapEntry i) s = .next t ∧ t.inst? i = some n' ∧ n'.life = .ended ∧ n'.faultEnd = some tr.code)
    ∧ (n.ctl.due = none → n.ctl.async ≠ [] → n.ctl.cur = true → exec (.trapEntry i) s = .next s)
    ∧ (∀ rest, n.ctl.due = none → n.ctl.async = tr :: rest → n.ctl.cur = false → n.ctl.vecbase = 0 →
      ∃ t n', exec (.trapEntry i) s = .next t ∧ t.inst? i = some n' ∧ n'.life = .ended ∧ n'.faultEnd = some tr.code)

/-! ## Engines and launches asked for, system registers, invalidation, waits (format E) -/

/-- R271, R273, R275 to R278: a transfer slot whose record has translated puts its request: CPY and CPYT to the engines
of its own or the destination's die, CPYC with its channel register and semaphore, LAUNCH to the scheduler; XTLOAD joins
its lane group's loads and makes SEL pending; XSTAT reads the group; QRESET of a well-formed word, when no reset of the
queue runs and every leaf that it stops something at can be commanded (R402), takes the next serial, and of a malformed word
answers bit 63 alone. -/
def Obligations.TransfersAreAsked : Prop :=
  ∀ (f : EOp) (s u : State) (fr : Firing) (ps : List Piece), fr.b.req = none →
    let asked := fun (u : State) (q : Req) => (u.modSlot fr.i fr.k fun r => { r with st := .queued }).modBlk fr.i fun b =>
      { b with req := some ⟨fr.k, q, false⟩ }
    let sem := f.imm.toNat % 64
    let g := dieOfCore fr.n.cluster * 2 + f.imm.toNat / 256 % 2
    let lg := agetD LaneGroup.fresh g s.lanes
    let mine := lg.tenant = some (BitVec.ofNat 4 (s.tenantOf fr.n.ctx))
    let xl := fun (n align : Nat) => slotXlate s fr .virt fr.l n align (loadAccess fr.n) = .ok u ps
    (firing (.cpy f) s = some fr → xl 64 64 → exec (.cpy f) s = .next (asked u (.record fr.l false)))
    ∧ (firing (.cpyt f) s = some fr → xl 64 64 → exec (.cpyt f) s = .next (asked u (.record fr.l true)))
    ∧ (firing (.cpyc f) s = some fr → (s.sem fr.n.cluster sem).allows fr.n.ctx = true → xl 64 64 →
        exec (.cpyc f) s = .next (asked u (.chain fr.l (f.sel.toNat % 16) sem)))
    ∧ (firing (.launch f) s = some fr → xl 128 64 →
        exec (.launch f) s = .next { asked u (.launch fr.l) with
          pushes := u.pushes ++ [(⟨.ctl fr.i, fr.n.ctx, fr.l, fr.n.ctl.cur, dieOfCore fr.n.cluster⟩ : Push)] })
    ∧ (firing (.xtload f) s = some fr → mine → xl 8 8 → sideReady u fr.i fr.b fr.k = true →
        let v := bindBlock u fr.i
        exec (.xtload f) s = .next (fr.doneAll (({ v with lanes := aset g { lg with
            loads := lg.loads ++ [(⟨fr.i, v.queueOf fr.n, f.sel.toNat, fr.n.ctx, fr.n.ctl.cur, fr.l, f.imm.toNat % 256, []⟩ : XtLoad)] } v.lanes }).modCtl fr.i
              fun c => { c with pending := c.pending ||| BitVec.twoPow 64 f.sel.toNat }) []))
    ∧ (firing (.xstat f) s = some fr →
        let id := f.imm.toNat % 256
        let users := (s.recs.filter fun (x : Nat × Rec) => x.2.group == some g && x.2.phase != .accepted).length
        let held := if lg.xtid ≠ 0 ∧ (id = 0 ∨ lg.xtid = id) then 2 ^ 63 else 0
        let busy := if lg.loads = [] then 0 else 2 ^ 62
        (mine → exec (.xstat f) s =
          .next (fr.done s [f.t1] (BitVec.ofNat 64 (held + busy + 2 ^ 61 + lg.xtid * 2 ^ 48 + users))))
        ∧ (¬ mine → exec (.xstat f) s = .next (fr.done s [f.t1] 0)))
    ∧ (firing (.qreset f) s = some fr → sideReady s fr.i fr.b fr.k = true →
        let w := fr.l.toNat
        let bad := w / 2 ^ 16 ≠ 0 ∨ w / 4 % 4 ≠ 0 ∨ w / 16 % 16 ≠ s.tenantOf fr.n.ctx
        (bad → exec (.qreset f) s = .next (fr.done (bindBlock s fr.i) [f.t1] (BitVec.twoPow 64 63)))
        ∧ (¬ bad → s.resets = [] → mayReset s (w / 16 % 16) (w % 4) (fullMask (w / 256 % 256)) (some fr.i) = true → ∃ t v, exec (.qreset f) s = .next t
            ∧ t = fr.done v [f.t1] (BitVec.ofNat 64 ((s.resetSerial + 1) % 2 ^ 32))
            ∧ v.resetSerial = (s.resetSerial + 1) % 2 ^ 32))

/-- R278, R281, R282: SYSR delivers the register its IMM24 names, the privileged ones at level S only, and a counter's only
to the tenant it is granted to; where it may not read it raises PRIV, with FAULTADDR 0 (the model's choice, log 119). A RESETSTAT that shows a serial is the report's
acquire: the core's data cache is invalidated. -/
def Obligations.SystemRegisterReads : Prop :=
  ∀ (f : EOp) (s : State) (fr : Firing), firing (.sysr f) s = some fr →
    let c := fr.n.ctl
    let core := s.core fr.n.cluster
    let die := s.die (dieOfCore fr.n.cluster)
    let t : BitVec 4 := BitVec.ofNat 4 (s.tenantOf fr.n.ctx)
    let gives := fun (v : Word) => exec (.sysr f) s = .next (fr.done s [f.t1] v)
    let denied := exec (.sysr f) s = .next (raise s fr.i 0x07 fr.k 0)
    let b := fun (x : Bool) => if x then 1 else 0
    (f.imm = 0x00 → gives (BitVec.ofNat 64 (2 * b c.step + b c.dz)))
    ∧ (f.imm = 0x01 → gives (BitVec.ofNat 64 fr.n.ctx))
    ∧ (f.imm = 0x02 → gives (BitVec.ofNat 64 (s.tenantOf fr.n.ctx)))
    ∧ (f.imm = 0x03 → gives (BitVec.ofNat 64 (s.classOf fr.n)))
    ∧ (f.imm = 0x04 → gives (BitVec.ofNat 64 (2 * b c.prev + b c.cur)))
    ∧ (f.imm = 0x20 → gives (BitVec.ofNat 64 s.cycle)) ∧ (f.imm = 0x21 → gives (BitVec.ofNat 64 c.resident))
    ∧ (f.imm = 0x29 → gives (c.evpend.setWidth 64))
    ∧ (∀ k, k < 16 → f.imm.toNat = 0x30 + k → ∀ v, c.ecstate[k]? = some v → gives v)
    ∧ (c.cur = true →
        (f.imm = 0x05 → gives c.vecbase) ∧ (f.imm = 0x10 → gives (c.faultCode.setWidth 64))
        ∧ (f.imm = 0x11 → gives c.faultBlk) ∧ (f.imm = 0x12 → gives (c.faultSlot.setWidth 64))
        ∧ (f.imm = 0x13 → gives c.faultAddr) ∧ (f.imm = 0x14 → gives c.faultArg)
        ∧ (f.imm = 0x28 → c.resetStat.setWidth 32 = (0 : BitVec 32) → gives c.resetStat)
        ∧ (f.imm = 0x28 → c.resetStat.setWidth 32 ≠ (0 : BitVec 32) → exec (.sysr f) s =
            .next (fr.done (s.modCore fr.n.cluster fun x => { x with cache := [] }) [f.t1] c.resetStat))
        ∧ (∀ k, k < 6 → f.imm.toNat = 0x18 + k → ∀ v, c.faultIter[k]? = some v → gives (v.setWidth 64))
        ∧ (∀ k, k < 8 → core.ctenant = some t →
            (f.imm.toNat = 0x40 + k → ∀ v, core.csel[k]? = some v → gives (v.setWidth 64))
            ∧ (f.imm.toNat = 0x48 + k → ∀ v, core.ccnt[k]? = some v → gives (v.setWidth 64)))
        ∧ (∀ k, k < 32 → die.dtenant = some t →
            (f.imm.toNat = 0x60 + k → ∀ v, die.dsel[k]? = some v → gives (v.setWidth 64))
            ∧ (f.imm.toNat = 0x80 + k → ∀ v, die.dcnt[k]? = some v → gives (v.setWidth 64)))
        ∧ (0x40 ≤ f.imm.toNat → f.imm.toNat ≤ 0x4F → core.ctenant ≠ some t → denied)
        ∧ (0x60 ≤ f.imm.toNat → f.imm.toNat ≤ 0x9F → die.dtenant ≠ some t → denied))
    ∧ (c.cur = false → (f.imm.toNat ∈ [0x05, 0x10, 0x11, 0x12, 0x13, 0x14, 0x28] ∨ 0x18 ≤ f.imm.toNat ∧ f.imm.toNat ≤ 0x1D
        ∨ 0x40 ≤ f.imm.toNat ∧ f.imm.toNat ≤ 0x4F ∨ 0x60 ≤ f.imm.toNat ∧ f.imm.toNat ≤ 0x9F) → denied)

/-- R279, R281, R284, R285, R305, R307, R320 to R322: these instructions fire by noting what their block's commit step
does, and are done: SYSW (STATUS at either level, the rest at level S), YIELD, TLBINV, BCINV, SRC, SNK, KSET, MARK, FMTW,
SCALEW, GENSEED and FSTOP. A SYSW of another register at level U raises PRIV, with FAULTADDR 0 (the model's choice, log 119). -/
def Obligations.CommitEffectsAreNoted : Prop :=
  ∀ (f : EOp) (s : State) (fr : Firing),
    let imm := f.imm.toNat
    let sel := f.sel.toNat
    let notes := fun (x : Instr) (a : CommitAct) => firing x s = some fr →
      exec x s = .next ((s.modSlot fr.i fr.k fun r => { r with st := .done }).modBlk fr.i fun b => { b with acts := b.acts ++ [a] })
    let granted := ¬ (0x40 ≤ imm ∧ imm ≤ 0x4F) ∧ ¬ (0x60 ≤ imm ∧ imm ≤ 0x9F)
    (imm = 0 ∨ fr.n.ctl.cur = true ∧ granted → notes (.sysw f) (.sysw imm fr.l))
    ∧ (firing (.sysw f) s = some fr → imm ≠ 0 → fr.n.ctl.cur = false → exec (.sysw f) s = .next (raise s fr.i 0x07 fr.k 0))
    ∧ notes (.yield f) .yield ∧ notes (.tlbinv f) (.tlbinv (imm % 4) fr.l) ∧ notes (.bcinv f) (.bcinv fr.l)
    ∧ notes (.src f) (.attach sel (imm % 256) fr.l f.as f.ch) ∧ notes (.snk f) (.attach (32 + sel) (imm % 256) fr.l f.as f.ch)
    ∧ notes (.kset f) (.kset sel fr.l fr.r (imm % 16)) ∧ notes (.mark f) (.mark sel (imm % 16))
    ∧ notes (.fmtw f) (.fmtw sel fr.l (imm % 32)) ∧ notes (.scalew f) (.scalew sel fr.l fr.r)
    ∧ notes (.genseed f) (.genseed sel fr.l fr.r) ∧ notes (.fstop f) .fstop

/-- R281 to R283, R409: a SYSW at its block's commit writes the fields of its register that software may write, and no
other register; a counter select's write clears its counter (a cluster counter that selects the committed blocks then counts
this block's commit) and no other select changes. STEP is written at level S alone. -/
def Obligations.SystemRegisterWrites : Prop :=
  ∀ (s : State) (i k reg : Nat) (n : Inst) (b : Block) (a v : Word), s.inst? i = some n → n.ctl.blk = some b →
    committable s i n b = true → b.acts = [.sysw reg v] → b.writes = [] → b.held = [] → b.divZero = false →
    Layout.isNest b.words = false → b.exit = some (k, .block a) → n.ctl.step = false →
    ∃ t n', exec (.blockCommit i) s = .next t ∧ t.inst? i = some n' ∧ t.mem = s.mem ∧
      let c := { n.ctl with blk := none, next := a, watch := 0, expired := false }
      let top := v &&& 0xFFFFFFFFFFFFFFC0
      (reg = 0x00 → n'.ctl = { c with dz := v.getLsbD 0, step := if n.ctl.cur then v.getLsbD 1 else false })
      ∧ (reg = 0x04 → n'.ctl = { c with prev := v.getLsbD 1 })
      ∧ (reg = 0x05 → n'.ctl = { c with vecbase := top })
      ∧ (reg = 0x10 → n'.ctl = { c with faultCode := v.setWidth 8 })
      ∧ (reg = 0x11 → n'.ctl = { c with faultBlk := top })
      ∧ (reg = 0x12 → n'.ctl = { c with faultSlot := v.setWidth 8 })
      ∧ (reg = 0x13 → n'.ctl = { c with faultAddr := v })
      ∧ (reg = 0x14 → n'.ctl = { c with faultArg := v })
      ∧ (∀ j (h : j < 6), reg = 0x18 + j → n'.ctl = { c with faultIter := n.ctl.faultIter.set j (v.setWidth 32) h })
      ∧ (∀ j, j < 8 → reg = 0x40 + j → n'.ctl = c ∧ (t.core n.cluster).csel[j]? = some (v.setWidth 10)
          ∧ (t.core n.cluster).ccnt[j]? = some (if (v.setWidth 10 : BitVec 10) = 0x010 then 1 else 0)
          ∧ (∀ l, l ≠ j → (t.core n.cluster).csel[l]? = (s.core n.cluster).csel[l]?
              ∧ ((s.core n.cluster).csel[l]? ≠ some 0x010 → (t.core n.cluster).ccnt[l]? = (s.core n.cluster).ccnt[l]?))
          ∧ (∀ x, x ≠ n.cluster → (t.core x).csel = (s.core x).csel) ∧ t.dies = s.dies)
      ∧ (∀ j, j < 32 → reg = 0x60 + j → n'.ctl = c ∧ (t.die (dieOfCore n.cluster)).dsel[j]? = some (v.setWidth 10)
          ∧ (t.die (dieOfCore n.cluster)).dcnt[j]? = some 0
          ∧ (∀ l, l ≠ j → (t.die (dieOfCore n.cluster)).dsel[l]? = (s.die (dieOfCore n.cluster)).dsel[l]?
              ∧ (t.die (dieOfCore n.cluster)).dcnt[l]? = (s.die (dieOfCore n.cluster)).dcnt[l]?)
          ∧ (∀ x, x ≠ dieOfCore n.cluster → t.die x = s.die x) ∧ ∀ x, (t.core x).csel = (s.core x).csel)
      ∧ (¬ (0x40 ≤ reg ∧ reg ≤ 0x47) → ¬ (0x60 ≤ reg ∧ reg ≤ 0x7F) → t.dies = s.dies ∧ ∀ x, (t.core x).csel = (s.core x).csel)

/-- R284, R285: after a committed TLBINV, once the context's writes have performed, its walks have ended and no reduce
record holds a translation of the range, every TLB entry of the context that meets the range is gone and no other, its
wardrobe allocation entries with the whole context alone; after a BCINV, every block-cache copy of the context's blocks
in the 4 KiB range, on every core, and its blocks there that have been fetched and not started are fetched anew. Then
the next block waits for it no more. -/
def Obligations.InvalidationsComplete : Prop :=
  ∀ (s : State) (i : Nat) (n : Inst) (addr : Word), s.inst? i = some n →
    s.outb.filter (fun o => o.agent == .ctl i) = [] →
    (∀ e rest, n.ctl.wait.filterMap CtlWait.tlb = (e, addr, none) :: rest → (∀ w ∈ s.walks, w.ctx ≠ n.ctx) → s.recs = [] →
      let va := addr.toNat % 2 ^ 55
      let lg := (match e with
        | 0 => 16
        | 1 => 21
        | _ => 29)
      let lo := va / 2 ^ lg * 2 ^ lg
      ∃ t, exec (.tlbinvDone i) s = .next t ∧ t.mem = s.mem
        ∧ (e < 3 → t.tlb = s.tlb.filter fun x =>
            !(x.ctx = n.ctx ∧ x.war = false ∧ x.base < lo + 2 ^ lg ∧ lo < x.base + 2 ^ x.size))
        ∧ (e = 3 → t.tlb = s.tlb.filter fun x => !(x.ctx = n.ctx))
        ∧ t.insts = (s.modCtl i fun c => { c with wait := c.wait.erase (.tlbinv e addr none) }).insts)
    ∧ (∀ rest, n.ctl.wait.filterMap CtlWait.bc = addr :: rest →
      let again := fun (c : Ctl) => (match c.blk with
        | some b => if b.started = false ∧ b.addr.toNat / 4096 = addr.toNat / 4096 then { c with blk := none } else c
        | none => c)
      ∃ t, exec (.bcinvDone i) s = .next t ∧ t.mem = s.mem ∧ t.tlb = s.tlb
        ∧ t.insts = ({ s with insts := s.insts.map fun (x : Nat × Inst) =>
            (x.1, if x.2.ctx = n.ctx then { x.2 with ctl := again x.2.ctl } else x.2) }.modCtl i
              fun c => { c with wait := c.wait.erase (.bcinv addr) }).insts
        ∧ ∀ core, (t.core core).blocks = (s.core core).blocks.filter fun b =>
            !(b.1 / 2 = n.ctx ∧ b.2.1.toNat / 4096 = addr.toNat / 4096))

/-- R279, R287, R323: a wait that has lasted its limit ends: YIELD's after 64 control cycles; WAITEV's and FWAIT's after
65,536, with the events met then, none as a rule. WAITEV with an event pending delivers the events that are pending and that it
names, and clears them at commit, those that come meanwhile not; with none it waits. -/
def Obligations.WaitsEnd : Prop :=
  ∀ (f : EOp) (s : State) (fr : Firing) (i k : Nat) (n : Inst) (b : Block) (row : Row) (x : Fields), 
    let sent := fun (u : State) (v : Word) => deliverAll u i (((slotTargets s i k).take 1).map fun t => (t, .val v))
    let done := s.modSlot i k fun r => { r with st := .done }
    let events := fun (met : BitVec 4) => sent (done.modBlk i fun b =>
      { b with acts := b.acts ++ [.clearEvents met.toNat], evLate := b.evLate &&& ~~~met }) (met.setWidth 64)
    let fabric := fun (met : BitVec 4) (r : Region) => sent (done.modBlk i fun b =>
      { b with acts := b.acts ++ [.clearFabricEvents met.toNat], fabLate := b.fabLate &&& ~~~met })
        (BitVec.ofNat 64 (min r.committed (2 ^ 32 - 1) * 2 ^ 32 + met.toNat))
    let timedOutAt := fun (opc : Nat) => s.inst? i = some n ∧ n.ctl.blk = some b ∧ n.canFire = true
      ∧ (Layout.slots b.words).filter (fun y => y.2.1.opc == opc) = [(k, row, x)] ∧ row.opc = opc
      ∧ (b.rec_ k).st = .blocked ∧ (b.rec_ k).since + 65536 ≤ s.cycle
    (∀ t₀ rest, s.inst? i = some n → n.ctl.wait.filterMap CtlWait.yielded = t₀ :: rest →
      (t₀ + 64 ≤ s.cycle →
        exec (.yieldTimeout i) s = .next (s.modCtl i fun c => { c with wait := c.wait.filter fun w => w.yielded.isNone }))
      ∧ (s.cycle < t₀ + 64 → exec (.yieldTimeout i) s = .next s))
    ∧ (∀ e, timedOutAt 0xB5 → x = .e e →
        let met := n.ctl.evpend &&& e.imm.setWidth 4
        (met = 0 → exec (.waitevTimeout i) s = .next (events 0))
        ∧ ∃ t, exec (.waitevTimeout i) s = .next t ∧ t.insts = (events met).insts ∧ t.mem = s.mem)
    ∧ (∀ r e, timedOutAt 0xC9 → x = .e e → n.reg = some r →
        let met := fabricEvents s i r &&& e.imm.setWidth 4
        (met = 0 → exec (.fwaitTimeout i) s = .next (fabric 0 r))
        ∧ ∃ t, exec (.fwaitTimeout i) s = .next t ∧ t.insts = (fabric met r).insts ∧ t.mem = s.mem)
    ∧ (firing (.waitev f) s = some fr → i = fr.i → k = fr.k →
        let met := fr.n.ctl.evpend &&& f.imm.setWidth 4
        (met = 2 → exec (.waitev f) s = .next (events 2))
        ∧ (met ≠ 0 → ∃ t, exec (.waitev f) s = .next t ∧ t.insts = (events met).insts ∧ t.mem = s.mem)
        ∧ (met = 0 → exec (.waitev f) s = .next (s.modSlot i k fun r => { r with st := .blocked, since := s.cycle })))

/-- R205, R231, R279, R281, R284 to R286, R240 to R244, R276, R305, R307, R320 to R324: the G opcodes and the control
opcodes that name no memory change nothing but the block they stand in and the fault due at its boundary: every register,
special register and byte of memory stands as before, until the commit. A SYSR of RESETSTAT may invalidate its core's data
cache as well (R278). -/
def Obligations.SlotOnlyOpcodesFrame : Prop :=
  ∀ (f : GOp) (b : BOp) (e : EOp) (x : Instr), x ∈ [Instr.fan f, .null f, .movi f, .appi f, .add f, .sub f, .mul f, .mulh f,
      .mulhu f, .div f, .divu f, .rem f, .remu f, .and f, .or f, .xor f, .andn f, .shl f, .shr f, .sra f, .rol f, .ror f,
      .min f, .max f, .minu f, .maxu f, .adds f, .subs f, .addus f, .subus f, .clz f, .ctz f, .popc f, .bswap f, .sext f,
      .zext f, .neg f, .not f, .abs f, .bfx f, .bfi f, .teq f, .tne f, .tlt f, .tltu f, .tle f, .tleu f, .tgt f, .tgtu f,
      .tge f, .tgeu f, .tbs f, .tbc f, .sel f, .wid f, .time f, .cyc f, .ctx f]
      ++ [.br b, .bri b, .call b, .calli b, .halt b, .trap b, .eret e, .sysw e, .yield e, .tlbinv e, .bcinv e,
        .xstat e, .chlen e, .semread e, .src e, .snk e, .kset e, .mark e, .fmtw e, .scalew e, .genseed e, .fcnt e, .fstop e] →
    ∀ s t : State, (exec x s = .next t → SlotOnly s.cur.1 s t)
      ∧ (exec (.sysr e) s = .next t → ∃ u c, SlotOnly s.cur.1 s u
          ∧ (t = u ∨ e.imm = 0x28 ∧ t = u.modCore c fun y => { y with cache := [] }))

/-! ## Fabric instructions and the region's steps (R291 to R326, R335) -/

/-- R292, R306, R323 to R325, R376: in a block of a context with a region. ACCR of an idle region delivers the completed
accumulator of its element, INT48 sign-extended, FP32 and a count zero-extended; ACCD notes its group's writes for the
commit; FWAIT delivers the conditions met with the count of committed iterations, or waits; FCNT delivers its port's
count; FRUN waits for an idle region, then asks the leave of its DRAW on every FE (of the die of the region's origin: log 25, DEDUCED), and a draw above the launch's DRAWCLS raises
LEAVE_DENIED (FAULTADDR 0 there and at a parity error is the model's choice, log 119). -/
def Obligations.FabricOpcodesFire : Prop :=
  ∀ (f : EOp) (s : State) (fr : Firing) (r : Region), fr.n.reg = some r →
    let code := f.imm.toNat
    let waits := fun (u : State) => u.modSlot fr.i fr.k fun x => { x with st := .blocked, since := u.cycle }
    (∀ g w a, firing (.accr f) s = some fr → r.phase = .idle → groupBinding fr.b.words f.sel.toNat = some g →
      groupAcc s r g (code % 65536) = some (w, a) →
      (Elements.Acc.good a = true → exec (.accr f) s = .next (fr.done s [f.t1]
        (if Cfg.acc w = 1 then (a.v.setWidth 32).setWidth 64 else if Cfg.acc w = 2 then a.v.setWidth 64 else a.v.signExtend 64)))
      ∧ (Elements.Acc.good a = false →
        ∃ t, exec (.accr f) s = .next t ∧ t = (raise s fr.i 0x20 fr.k 0).modReg fr.i fun r => { r with dataErr := true }))
    ∧ (∀ g u ps, firing (.accd f) s = some fr → r.phase = .idle → groupBinding fr.b.words f.sel.toNat = some g →
      slotXlate s fr f.as fr.l (groupSize g * drainSize code) 1 ⟨.port, false, true, false, fr.n.ctl.cur⟩ = .ok u ps →
      (∀ e w a, e < groupSize g → groupAcc u r g e = some (w, a) → Elements.Acc.good a = true) →
      ∃ t ws, exec (.accd f) s = .next t ∧ t.mem = u.mem
        ∧ t.insts = ((u.modSlot fr.i fr.k fun x => { x with st := .done }).modBlk fr.i fun b => { b with acts := b.acts ++ [.drain ws] }).insts)
    ∧ (firing (.fwait f) s = some fr →
      let idle : BitVec 4 := if r.phase = .idle ∧ regionWrites s fr.i false = false then 1 else 0
      let drained : BitVec 4 := if regionWrites s fr.i true = false then 4 else 0
      let met := ((r.events &&& 0b1010) ||| idle ||| drained) &&& f.imm.setWidth 4
      let v : Word := BitVec.ofNat 64 (min r.committed (2 ^ 32 - 1) * 2 ^ 32 + met.toNat)
      (met = 0 → exec (.fwait f) s = .next (waits s))
      ∧ (met ≠ 0 → ∃ t, exec (.fwait f) s = .next t ∧ t.mem = s.mem
          ∧ t.insts = (deliverAll ((s.modSlot fr.i fr.k fun x => { x with st := .done }).modBlk fr.i fun b =>
              { b with acts := b.acts ++ [.clearFabricEvents met.toNat], fabLate := b.fabLate &&& ~~~met }) fr.i
                (((slotTargets s fr.i fr.k).take 1).map fun t => (t, .val v))).insts))
    ∧ (firing (.fcnt f) s = some fr →
      exec (.fcnt f) s = .next (fr.done s [f.t1] (BitVec.ofNat 64 (agetD 0 f.sel.toNat r.fcnt))))
    ∧ (firing (.frun f) s = some fr → (∀ q ∈ s.leaves, q.2.for_ ≠ .frun fr.i) → (fr.n.ctl.async = [] ∨ fr.n.ctl.cur = true) →
      let draw := Layout.draw fr.b.words
      let die := dieOfCore fr.n.cluster
      let units := draw * (r.rect.w * r.rect.h)
      (r.phase = .idle → drawcls s fr.n < draw → exec (.frun f) s = .next (raise s fr.i 0x2A fr.k 0))
      ∧ (r.phase ≠ .idle → exec (.frun f) s = .next (waits s))
      ∧ (draw ≤ drawcls s fr.n → r.phase = .idle → leaveNever s die (s.classOf fr.n) units = false →
          exec (.frun f) s = .next (waits { s with
            fresh := s.fresh + 1
            leaves := aset (s.fresh + 1) ⟨.frun fr.i, die, s.classOf fr.n, units, s.cycle⟩ s.leaves })))

/-- R176, R178 to R180, R296, R297, R320, R321, R386: the steps of a region. A sequencer loads its FE's context, and a
multicast its image into every FE selected; the next iteration enters flight at the next vector; a marker writes the
pending constants of its tag and goes on; a source forms its next beat: a memory source reads the bytes at the address of its
stream, a channel source takes the head's token tentatively; a sink holds the bytes of its next beat for the address of its
stream, or its channel's next token; a marker at a sink raises SINKMARK; the oldest
iteration, its passes done and drained, commits and counts, or waits for the room that its tokens do not find; one whose check failed is rolled back and replayed from its
vector; one that outruns ITERBOUND stops the region with ITER_OVERRUN. (The model's choices: which FEs a multicast leaves alone,
log 30; the order of fence tokens and what they hold, logs 52 and 62; that a sink finds a refused send as it holds the beat, and the
order of two sinks on one port, log 87.) -/
def Obligations.RegionSteps : Prop :=
  (∀ (s u : State) (i : Nat) (fe : FeAt) (n : Inst) (r : Region) (nest : Nest) (f : Fe) (slot : Option Nat) (ring : List (Nat × Nat)),
    s.inst? i = some n → n.life = .running → n.ctl.blk = none → n.reg = some r → r.nest = some nest → fe.c < r.rect.w →
    fe.w < r.rect.h → nest.started = false → nest.failed = false → r.phase ≠ .held →
    fe.w * r.rect.w + fe.c ∉ nest.loaded → loadFe s n r nest.ctxset fe.c fe.w none = (u, .ok f slot ring) →
    exec (.configFill i fe) s = .next (maybeStart (({ u with fes := aset (rectFe r.rect fe.c fe.w) (f.runCtx slot ring) u.fes }).modReg i
      fun r => { r with nest := r.nest.map fun (y : Nest) => { y with loaded := (fe.w * r.rect.w + fe.c) :: y.loaded } }) i))
  ∧ (∀ (s : State) (sel : Word) (slot : BitVec 3) (image : List Word), (∀ x ∈ s.insts, x.2.reg = none) → image.length = 8 →
      Cfg.bad image = false →
      ∃ t, exec (.configMulticast sel slot image []) s = .next t ∧ t.mem = s.mem ∧ t.insts = s.insts
        ∧ ∀ col row, col < 384 → row < 128 →
          (Descr.selects sel.toNat col row = true →
            (t.fe (feIndex col row)).slots = (s.fe (feIndex col row)).slots.set slot.toNat image)
          ∧ (Descr.selects sel.toNat col row = false → t.fe (feIndex col row) = s.fe (feIndex col row)))
  ∧ (∀ (s : State) (i : Nat) (n : Inst) (r : Region) (nest : Nest), runningNest s i = some (n, r, nest) →
    (∀ v, r.nextVec = some v → n.life = .running → r.iters.length < 2 →
        (∀ it ∈ r.iters, sourcesFormed r nest it = true ∧ ∀ x ∈ r.reads, x.iter ≠ it.n) → roomForNext s r nest = true →
      let it : Iter := { n := r.nextN, vec := v, pos := [], sinkPos := [], beats := [], takes := [], holds := [], undo := [],
                         marks := agetD [] r.nextN r.remarks ++ r.marks, since := 0, excluded := 0, replays := agetD 0 r.nextN r.replayed, checkFailed := none }
      exec (.iterationStart i) s = .next ((insertMarkers s r nest r.nextN).modReg i fun r => { r with
        iters := r.iters ++ [it], nextN := r.nextN + 1, nextVec := Descr.nextVec nest.loop v, marks := [],
        replayed := adel r.nextN r.replayed, remarks := adel r.nextN r.remarks }))
    ∧ (∀ fe inp x m rest, s.feOf i fe = some x →
      (match inp with | .ia => (s.fe x).qa | .ib => (s.fe x).qb | .ic => (s.fe x).qc) = m :: rest → m.isMarker = true →
      outRoom s r nest fe (s.fe x).ctxWords = true → s.flaws = [] →
      (∀ y ∈ r.ksets, ¬ (y.c = fe.c ∧ y.w = fe.w ∧ y.tag = m.data.toNat % 16)) →
      let f := (enterIter s x m.iter).fe x
      let seen := f.snaps.map fun (y : Nat × Snap) => (y.1, { y.2 with passed := y.2.passed ++ [m.data.toNat % 16] })
      ∃ u, exec (.markerPass i fe inp) s =
          .next ((outputs (s.fe x).ctxWords).foldl (fun v io => emitBeat v i r nest (netOf u r) fe io m) u)
        ∧ u.mem = s.mem ∧ u.fe x = (match inp with
          | .ia => { f with qa := rest, snaps := seen }
          | .ib => { f with qb := rest, snaps := seen }
          | .ic => { f with qc := rest, snaps := seen }).applyMarker (m.data.toNat % 16))
    ∧ (∀ b w it, nest.binds[b]? = some w → frunClear s i nest = true → Descr.isSource w = true → Descr.kind w ≠ 5 →
      walked r nest b = true → r.iters.find? (fun it => it.at b < nest.pass) = some it → fencesPlaced nest it (it.at b) = true →
      exec (.regionSourceAccess i b) s = .next (formBeat s i n r nest b w it (it.at b))
      ∧ ∀ port, Descr.kind w = 0 → aget b r.att = some port →
        let p := agetD ⟨0, .virt, false⟩ port r.ports
        let core := bindCore r w
        let vec := Descr.vecAt nest.loop it.vec (it.at b)
        (∀ (a : Int) (u : State) (ps : List Piece), p.ch = false → Descr.addrAt w p.base.toInt vec = some a → ps ≠ [] →
          0 < Descr.nbytes w → (∀ y ∈ r.reads, y.bind ≠ b) → u.insts = s.insts →
          xlate { s with fresh := s.fresh + 1 } (some core) core (dieOfCore core) n.ctx p.as (BitVec.ofInt 64 a) (Descr.nbytes w) 64 1
            ⟨.port, true, false, false, false⟩ false = (u, .ok ps) →
          let x : RRead := { id := s.fresh + 1, bind := b, iter := it.n, pos := it.at b, pieces := ps, got := [], fence := none,
                             zero := false, parked := false, missed := false, va := BitVec.ofInt 64 a, size := Descr.nbytes w,
                             marks := BitVec.ofNat 6 (Descr.marksAt nest.loop vec) }
          exec (.regionSourceAccess i b) s = .next (u.modReg i fun r =>
            { r with reads := r.reads ++ [x], blockedFrom := none }.modIter it.n fun y => { y with pos := aset b (y.at b + 1) y.pos }))
        ∧ (∀ (key : Nat) (c : Chan) (t : Tok) (rest : List Tok), p.ch = true → sourceHeld s i n r nest b it (it.at b) = false →
          chanQuery s n.ctx (.port i port) p.base false = .ok (key, c) → c.head = t :: rest → t.taken = false → t.lost = false →
          s.flaws = [] → s.poison = [] →
          ∃ v, exec (.regionSourceAccess i b) s = .next v ∧ v.mem = s.mem
            ∧ aget key v.chans = some { c with reader := .port i port, head := { t with taken := true } :: rest }))
    ∧ (∀ b w it, nest.binds[b]? = some w → frunClear s i nest = true → Descr.kind w = 5 →
      r.iters.find? (fun it => it.at b < fencesTo nest.loop (Descr.fdim w) it (nest.pass - 1)) = some it →
      fenceReady r nest w b it = true → exec (.regionSourceAccess i b) s = .next (placeFence s i nest b w it))
    ∧ (∀ b w port beat rest, agetD [] b r.sinks = beat :: rest → nest.binds[b]? = some w → aget b r.att = some port →
      parkedSink s i r b = none →
      (beat.isMarker = true →
        ∃ t r', exec (.regionSinkWrite i b) s = .next t ∧ t.mem = s.mem ∧ (t.inst? i).bind (fun n => n.reg) = some r'
          ∧ r' = { r with sinks := aset b rest r.sinks, events := r.events ||| 8 })
      ∧ (∀ it a, beat.isMarker = false → r.iters.find? (fun it => it.n == beat.iter) = some it → it.sinkAt b < nest.pass →
          (agetD ⟨0, .virt, false⟩ port r.ports).ch = false →
          Descr.addrAt w (agetD ⟨0, .virt, false⟩ port r.ports).base.toInt (Descr.vecAt nest.loop it.vec (it.sinkAt b)) = some a →
          exec (.regionSinkWrite i b) s =
            .next (memSink s i n r b w port it beat (BitVec.ofInt 64 a)))
      ∧ (∀ it, beat.isMarker = false → r.iters.find? (fun it => it.n == beat.iter) = some it → it.sinkAt b < nest.pass →
          (agetD ⟨0, .virt, false⟩ port r.ports).ch = true →
          exec (.regionSinkWrite i b) s =
            .next (chanSink s i n r b w port it.n beat))
      ∧ (∀ it, beat.isMarker = false → r.iters.find? (fun it => it.n == beat.iter) = some it → it.sinkAt b < nest.pass →
        let p := agetD ⟨0, .virt, false⟩ port r.ports
        let core := bindCore r w
        let holds := fun (u : State) (h : HoldItem) =>
          let v := u.modReg i fun r => takeSinkBeat r b it.n port fun y => { y with holds := y.holds ++ [h] }
          if 262144 < heldBytes v core then bindFault v i 0x1C 0 w it.n false else v
        (∀ (a : Int) (u : State) (ps : List Piece), p.ch = false →
          Descr.addrAt w p.base.toInt (Descr.vecAt nest.loop it.vec (it.sinkAt b)) = some a →
          xlate { s with fresh := s.fresh + 1 } (some core) core (dieOfCore core) n.ctx p.as (BitVec.ofInt 64 a) (Descr.nbytes w) 64 1
            ⟨.port, false, true, false, false⟩ false = (u, .ok ps) →
          exec (.regionSinkWrite i b) s = .next (holds u (.write (s.fresh + 1) b (it.sinkAt b)
            (if Descr.rel w then some ((scopeOf (Descr.scope w)).getD .system) else none) (BitVec.ofInt 64 a) (some ps)
            (leBytes (Descr.nbytes w) beat.data.toNat) core)))
        ∧ (∀ key c, p.ch = true → chanQuery s n.ctx (.port i (port % 32)) p.base true = .ok (key, c) → c.state = .opened →
          exec (.regionSinkWrite i b) s =
            .next (holds s (.token b port p.base (leBytes c.width beat.data.toNat) core)))))
    ∧ (∀ it rest, r.iters = it :: rest → it.checkFailed = none → passesDone r nest it = true → drained s r it.n = true →
      tokenRefused s i n nest it = none →
      (lastIter r = true → closeRefused s n (sentBefore i it) (closeAts i r nest) = none ∧ closeFails s r = none) →
      (fullChans s n it = [] → n.ctl.step = false →
        ∃ t n' r', exec (.iterationCommit i) s = .next t ∧ t.inst? i = some n' ∧ n'.reg = some r'
          ∧ n'.ctl = { n.ctl with blk := n.ctl.blk.map fun y => { y with fabLate := y.fabLate ||| 2 } }
          ∧ r'.iters = rest ∧ r'.committed = min (r.committed + 1) (2 ^ 32 - 1) ∧ r'.events = r.events ||| 2
          ∧ (r'.phase = if rest = [] ∧ r.nextVec = none then .idle else .running)
          ∧ (it.takes = [] → heldHandles it = [] → (lastIter r = true → closeAts i r nest = []) → t.mem = s.mem))
      ∧ (∀ k ks, fullChans s n it = k :: ks → exec (.iterationCommit i) s = .next (waitForRoom s i (k :: ks))))
    ∧ (∀ it rest fc, r.iters = it :: rest → it.checkFailed = some fc →
      (it.replays = 0 →
        ∃ t n' r', exec (.iterationDiscard i) s = .next t ∧ t.inst? i = some n' ∧ n'.reg = some r' ∧ n'.ctl = n.ctl
          ∧ r'.iters = [] ∧ r'.nextVec = some it.vec ∧ r'.nextN = it.n ∧ agetD 0 it.n r'.replayed = 1 ∧ r'.phase = .running)
      ∧ (it.replays ≠ 0 →
        exec (.iterationDiscard i) s = .next (regionFault s i 0x20 0 (feArg s i fc.1 fc.2) (some it.n) false)))
    ∧ (∀ it, r.iters.find? (fun it => it.since != 0
        && (if nest.bound = 0 then 65536 else nest.bound) ≤ (s.cycle + 1 - it.since - it.excluded) / 2) = some it →
      ∃ t n' r', exec (.iterOverrun i) s = .next t ∧ t.inst? i = some n' ∧ n'.reg = some r' ∧ r'.phase = .idle ∧ r'.iters = []
        ∧ (n.ctl.async.length < 16 → n'.ctl.async = n.ctl.async ++ [⟨0x1B, 0, 0xC0, 0, some 0, some (regionVec r (some it.n)), 0⟩])))

/-- R173, R293, R294, R311, R319, R335: an FE of a running nest whose running context names an element operation, whose
declared tokens are all there, whose output links have room, and whose shelf is awake, fires: it consumes them, keeps the state that the operation computes, and sends out its
beats, scalar tokens, stream registers and shelf writes; a firing that meets a fault, and no other FE in a lower place that
faults in the same cycle (R336; what is one cycle is log 122, DEDUCED), is a fault of the region, FMT_UNBOUND holding it. So for each of the 31 element operations. -/
def Obligations.ElementOperationsFire : Prop :=
  ∀ (s : State) (i x k : Nat) (fe : FeAt) (up : Bool) (n : Inst) (r : Region) (nest : Nest) (inp : Elements.FireIn)
    (op : Nat × Bool × Instr × (List Word → Fe → Elements.FireIn → Except Elements.FireFault Elements.FireOut)),
    op ∈ [(0x01, false, Instr.pass i fe, Elements.passFire), (0x02, up, .dot i fe up, Elements.dotFire),
      (0x03, up, .dots i fe up, Elements.dotFire), (0x04, false, .redadd i fe, Elements.redFire),
      (0x05, false, .redmax i fe, Elements.redFire), (0x06, false, .redmin i fe, Elements.redFire),
      (0x07, false, .eopAdd i fe, Elements.mapFire), (0x08, up, .mule i fe up, Elements.mapFire),
      (0x09, false, .scale i fe, Elements.mapFire), (0x0A, false, .quant i fe, Elements.quantFire),
      (0x0B, false, .deq i fe, Elements.deqFire), (0x0C, false, .cvt i fe, Elements.mapFire),
      (0x0D, false, .bfly i fe, Elements.bflyFire), (0x0E, false, .split3 i fe, Elements.split3Fire),
      (0x0F, false, .lut6 i fe, Elements.lut6Fire), (0x10, false, .fsm i fe, Elements.fsmFire),
      (0x11, false, .table i fe, Elements.tableFire), (0x12, false, .cmpsel i fe, Elements.mapFire),
      (0x13, false, .shiftv i fe, Elements.mapFire), (0x14, false, .cnt i fe, Elements.cntFire),
      (0x20, false, .sgen i fe, Elements.sgenFire), (0x21, false, .sand i fe, Elements.disjointFire fun a b => a &&& b),
      (0x22, false, .sor i fe, Elements.disjointFire fun a b => a ||| b), (0x23, false, .smux i fe, Elements.smuxFire),
      (0x24, false, .snot i fe, Elements.snotFire), (0x25, false, .sminc i fe, Elements.sameFire fun a b => a &&& b),
      (0x26, false, .smaxc i fe, Elements.sameFire fun a b => a ||| b), (0x27, false, .sxor i fe, Elements.sameFire fun a b => a ^^^ b),
      (0x28, false, .scnt i fe, Elements.scntFire), (0x29, false, .sregen i fe, Elements.sregenFire),
      (0x2A, false, .sfsm i fe, Elements.sfsmFire)] →
    runningNest s i = some (n, r, nest) → s.feOf i fe = some x → Cfg.eop (s.fe x).ctxWords = op.1 →
    fireInputs s x (s.fe x) (s.fe x).ctxWords op.2.1 = some (inp, k) → s.asleep (shelfKey x 0) = false →
    outRoom s r nest fe (s.fe x).ctxWords = true → s.flaws = [] → s.poison = [] →
    let c := (s.fe x).ctxWords
    let f := (enterIter s x k).fe x
    (∀ out, op.2.2.2 c f inp = .ok out →
      ∃ u, exec op.2.2.1 s = .next (spreadOut u i r nest fe x k c out)
        ∧ u.fe x = { out.fe with
            qa := out.fe.qa.drop (Cfg.nia c), qb := out.fe.qb.drop (Cfg.nib c), qc := out.fe.qc.drop (Cfg.nic c),
            si := if Cfg.kreg c = 15 then out.fe.si.drop 1 else out.fe.si, live := out.fe.live || Cfg.carry c }
        ∧ u.mem = s.mem ∧ u.poison = [] ∧ u.outb = s.outb ∧ u.cores = s.cores)
    ∧ (∀ e, op.2.2.2 c f inp = .error e → firstFault s r nest fe = none →
      ∃ u arg, exec op.2.2.1 s = .next (regionFault u i e.code 0 arg (some k) (e.code == 0x19))
        ∧ u.mem = s.mem ∧ u.outb = s.outb ∧ u.cores = s.cores)

/-- What the operations of the FE compute. R183 to R195, R309 to R318: on decoded elements, the sums, products and scalings are
exact, what is emitted is each value rounded once to OFMT (a window is its terms aligned to the largest and floored at 2^(E − 41));
DOT and DOTS of exact integers, of windows of 32 products and of LNS terms, REDADD, REDMAX, REDMIN, CNT, ADD, MULE, SCALE, CVT,
CMPSEL, SHIFTV, QUANT, DEQ, BFLY, SPLIT3, LUT6, FSM and TABLE give the values, beats and accumulators stated here. R330 to R332,
R335, R337, R339 to R341, R343: the stream operations on registers of the context's length, their masks as kept: SAND and
SOR of operands of disjoint classes, SMINC, SMAXC and SXOR of operands of one class, SMUX with a select disjoint from
both, SNOT, SREGEN of class k and SFSM write the bits and the mask given here to st(SD); operands of other classes raise
SCORR with both masks; SGEN writes NSTR streams and SCNT counts. (A product of an FP32X3 element with another format is left out:
the model leaves it free, log 8.) -/
def Obligations.StreamResults : Prop :=
  (∀ (p q : Int) (a b : Machine.Num), finiteAbove p a → finiteAbove p b → finiteAbove q b →
    unitsOf p (NumFmt.add a b) = unitsOf p a + unitsOf p b ∧ unitsOf (p + q) (NumFmt.mul a b) = unitsOf p a * unitsOf q b
    ∧ (NumFmt.lt a b = true ↔ unitsOf p a < unitsOf p b)
    ∧ ∀ k : Int, unitsOf (p + k) (NumFmt.scale2 a k) = unitsOf p a)
  ∧ (∀ row ∈ [(1, (⟨8, 23, 127⟩ : NumFmt.Flt)), (2, ⟨8, 7, 127⟩), (3, ⟨5, 10, 15⟩), (4, ⟨4, 3, 7⟩), (5, ⟨5, 2, 15⟩), (6, ⟨3, 2, 3⟩),
      (7, ⟨2, 3, 1⟩), (8, ⟨2, 1, 1⟩)], ∀ n s e m : Nat, s < 2 → e < 2 ^ row.2.eb → m < 2 ^ row.2.mb →
    let v := NumFmt.decode row.1 n ((s * 2 ^ row.2.eb + e) * 2 ^ row.2.mb + m)
    let top := 2 ^ row.2.eb - 1
    (row.1 ∈ [1, 2, 3, 5] → e = top → v = if m = 0 then .inf (s == 1) else .nan)
    ∧ (row.1 = 4 → e = top → m = 7 → v = .nan)
    ∧ (¬ (row.1 ∈ [1, 2, 3, 5] ∧ e = top) → ¬ (row.1 = 4 ∧ e = top ∧ m = 7) →
        v = .fin (s == 1) (if e = 0 then m else 2 ^ row.2.mb + m) ((max e 1 : Nat) - row.2.bias - row.2.mb)))
  ∧ (∀ (r : NumFmt.Rnd) (neg : Bool) (m d : Nat) (e : Int), r.mode < 4 → let u := NumFmt.roundAt r neg m e (e + d)
    let up := (r.mode = 2 ∧ neg = true) ∨ (r.mode = 3 ∧ neg = false)
    (r.mode = 0 → 2 * m ≤ (2 * u + 1) * 2 ^ d ∧ 2 * u * 2 ^ d ≤ 2 * m + 2 ^ d
        ∧ (2 * m = (2 * u + 1) * 2 ^ d ∨ 2 * u * 2 ^ d = 2 * m + 2 ^ d → u % 2 = 0))
    ∧ (r.mode ≠ 0 → up → m ≤ u * 2 ^ d ∧ u * 2 ^ d < m + 2 ^ d) ∧ (r.mode ≠ 0 → ¬ up → u * 2 ^ d ≤ m ∧ m < (u + 1) * 2 ^ d))
  ∧ (∀ (i : Int) (n : Nat) (r : NumFmt.Rnd), 0 < n → (NumFmt.encodeNum 0x0B n r (NumFmt.ofInt i) : Int) =
        (max (-(2 ^ (n - 1))) (min (2 ^ (n - 1) - 1) i)) % 2 ^ n
      ∧ (NumFmt.encodeNum 0x0C n r (NumFmt.ofInt i) : Int) = max 0 (min (2 ^ n - 1) i))
  ∧ (∀ (ps : List Machine.Num) (sa sb : Nat) (q top : Int), (∀ v ∈ ps, finiteAbove q v) → sa < 255 → sb < 255 → q ≤ top - 41 →
      (∀ g m e, Machine.Num.fin g m e ∈ ps → m ≠ 0 → NumFmt.ilog2 m e ≤ top) →
      (∃ g m e, Machine.Num.fin g m e ∈ ps ∧ m ≠ 0 ∧ NumFmt.ilog2 m e = top) →
      NumFmt.windowSum ps sa sb = NumFmt.ofScaled ((ps.map fun v => (unitsOf q v).fdiv (2 ^ (top - 41 - q).toNat)).sum)
        (top - 41 + ((sa : Int) - 127) + ((sb : Int) - 127)))
  ∧ (∀ a b : Machine.Num, NumFmt.isNan a = false → NumFmt.isNan b = false →
      (∀ v ∈ [a, b], NumFmt.lt (NumFmt.redMax a b) v = false ∧ NumFmt.lt v (NumFmt.redMin a b) = false)
      ∧ NumFmt.redMax a b ∈ [a, b] ∧ NumFmt.redMin a b ∈ [a, b])
  ∧ (∀ (c : List Word) (f : Fe) (vs : List Machine.Num) (marks : List (BitVec 6)) (bad : Bool),
      let per := NumFmt.elemsPerBeat (Cfg.ofmt c) (Cfg.outWidth c)
      let eb := NumFmt.elemBits (Cfg.ofmt c) (Cfg.outWidth c)
      1 ≤ Cfg.ofmt c → Cfg.ofmt c ≤ 0x0C → Cfg.rnd c ≠ 4 → vs.length ≤ Cfg.noa c * per → 0 < eb → eb ≤ 64 →
      ∃ bs, Elements.emitWith c f vs marks bad = .ok ⟨f, bs, [], bad⟩ ∧ bs.length = Cfg.noa c
        ∧ ∀ (j : Nat) (o : Beat), bs[j]? = some o → o.marks = marks.getD j 0 ∧ o.tag.toNat = Cfg.otag c % 32 ∧ o.side = 0x7F7F7F7F
          ∧ ∀ (k : Nat) (v : Machine.Num), k < per → vs[per * j + k]? = some v →
            fieldOf o (eb * k) eb = NumFmt.encodeNum (Cfg.ofmt c) (Cfg.outWidth c) ⟨Cfg.rnd c, 0, 12⟩ v % 2 ^ eb)
  ∧ (∀ (c : List Word) (f g h : Fe) (x : Elements.FireIn) (a b : List Elements.Elem), Elements.decodeBeats c false f x.a = .ok (a, g) →
      Elements.decodeBeats c true g x.b = .ok (b, h) →
      let kv := Elements.constant c f x
      let at_ := fun (k : Nat) => Elements.valueAt b k
      let maps := fun (y : Fe) (v : Nat → Elements.Elem → Machine.Num) => ∃ vs, Elements.mapFire c f x = Elements.emitVals c y x vs x.upset
        ∧ vs.length = a.length ∧ ∀ k e, a[k]? = some e → vs[k]? = some (v k e)
      (Cfg.eop c = 0x07 → maps h fun k e => NumFmt.add e.value (at_ k))
      ∧ (Cfg.eop c = 0x08 → Cfg.mode c = 0 → maps h fun k e => NumFmt.ofInt (unitsOf 0 e.value * unitsOf 0 (at_ k)))
      ∧ (Cfg.eop c = 0x08 → Cfg.mode c = 1 → (∀ e ∈ a, e.code ≠ 0x0E ∧ e.code ≠ 0x09) → (∀ e ∈ b, e.code ≠ 0x0E) →
          maps h fun k e => NumFmt.mul e.value (at_ k))
      ∧ (Cfg.eop c = 0x09 → maps g fun _ e =>
          NumFmt.add (NumFmt.mul e.value (NumFmt.f32 (kv % 2 ^ 32))) (NumFmt.f32 (kv / 2 ^ 32)))
      ∧ (Cfg.eop c = 0x0C → maps g fun _ e => e.value)
      ∧ (Cfg.eop c = 0x12 → ∃ y, maps y fun k e =>
          let half := fun (w : Nat) => if e.code = 0x0B ∨ e.code = 0x0C then NumFmt.ofInt (BitVec.ofNat 32 w).toInt else NumFmt.f32 (w % 2 ^ 32)
          let w := half kv
          let less := NumFmt.lt e.value w
          let more := NumFmt.lt w e.value
          let equal := NumFmt.eq e.value w
          let holds := match Cfg.cmp c with
            | 0 => less
            | 1 => less || equal
            | 2 => equal
            | 3 => !equal
            | 4 => more || equal
            | _ => more
          if holds then e.value else if 0 < Cfg.nib c then at_ k else half (kv / 2 ^ 32))
      ∧ (Cfg.eop c = 0x13 → ∃ y, maps y fun k e => NumFmt.scale2 e.value
          (if 0 < Cfg.nib c then (BitVec.ofInt 8 (unitsOf 0 (at_ k))).toInt else (BitVec.ofNat 8 kv).toInt))
      ∧ Elements.deqFire c f x = Elements.emitVals c g x (a.map fun e =>
          if 4 ≤ e.code ∧ e.code ≤ 9 then (if e.scale = 255 then .nan else NumFmt.scale2 e.num ((e.scale : Int) - 127)) else e.num) false)
  ∧ (∀ (c : List Word) (f g h : Fe) (x : Elements.FireIn) (a b : List Elements.Elem), Elements.decodeBeats c false f x.a = .ok (a, g) →
      Elements.decodeBeats c true g x.b = .ok (b, h) → h.core.wins = [] → Cfg.nout c ≤ 64 → (∀ e ∈ a ++ b, e.code ≠ 0x0E) →
      let ended := x.a.any fun y => y.marks.getLsbD (Cfg.rdim c)
      let core := Elements.openRun h.core false
      let old := fun (o : Nat) => (Elements.accAt core (Elements.runBase core + o)).v
      let ia := fun (o k : Nat) => (o >>> Cfg.ash c) * Cfg.rlen c + k
      let ib := fun (o k : Nat) => (o &&& Cfg.bmsk c) * Cfg.rlen c + k
      let gives := fun (total : Nat → BitVec 48) =>
        (ended = false → ∃ y bad, Elements.dotFire c f x = Elements.emitNone y bad ∧ y.core.bank = core.bank
          ∧ ∀ o, o < Cfg.nout c → (Elements.accAt y.core (Elements.runBase core + o)).v = total o)
        ∧ (ended = true → ∃ y bad vs, Elements.dotFire c f x = Elements.emitWith c y vs (Elements.endMarks c x.a) bad
          ∧ y.core.bank = !core.bank ∧ y.core.taken = 0 ∧ vs.length = Cfg.nout c
          ∧ ∀ o, o < Cfg.nout c → vs[o]? = some (let v := Elements.accNum c (total o)
              if Cfg.eop c = 3 then NumFmt.mul v (NumFmt.f32 (Elements.constant c f x % 2 ^ 32)) else v))
      (Cfg.mode c = 0 → gives fun o => old o + BitVec.ofInt 48 (((List.range (Cfg.rlen c)).map fun k =>
          unitsOf 0 (Elements.valueAt a (ia o k)) * unitsOf 0 (Elements.valueAt b (ib o k))).sum))
      ∧ (Cfg.mode c = 1 → Cfg.rlen c = 32 → gives fun o => BitVec.ofNat 48 (NumFmt.toF32 (NumFmt.add (NumFmt.f32 ((old o).toNat % 2 ^ 32))
          (NumFmt.windowSum ((List.range 32).map fun k => match a[ia o k]?, b[ib o k]? with
              | some y, some z => NumFmt.mul y.num z.num
              | _, _ => NumFmt.zero false)
            (Elements.scaleOf a[ia o 0]?) (Elements.scaleOf b[ib o 0]?)))))
      ∧ (Cfg.mode c = 2 → Cfg.rlen c = 32 → Cfg.acc c = 0 → gives fun o => old o + BitVec.ofInt 48 (((List.range 32).map fun k =>
          match a[ia o k]?, b[ib o k]? with
            | some y, some z => NumFmt.lnsTerm y.pat z.pat
            | _, _ => 0).sum)))
  ∧ (∀ (c : List Word) (f g : Fe) (b : Beat) (es : List Elements.Elem), Elements.decodeBeat c false f b = .ok (es, g) → es.length ≤ 128 →
      let n := es.length
      let core := Elements.openRun g.core (decide (64 < n))
      let base := if 64 < n then 0 else Elements.runBase core
      let first := fun (k : Nat) => core.taken ≤ k
      let total := fun (k : Nat) (e : Elements.Elem) =>
        let old := (Elements.accAt core (base + k)).v
        let o := NumFmt.f32 (old.toNat % 2 ^ 32)
        let i := unitsOf 0 e.value
        if Cfg.acc c = 1 then BitVec.ofNat 48 (NumFmt.toF32 (if Cfg.eop c = 4 then NumFmt.add o e.value
          else if first k then e.value else if Cfg.eop c = 5 then NumFmt.redMax o e.value else NumFmt.redMin o e.value))
        else if Cfg.eop c = 4 then old + BitVec.ofInt 48 i
        else if first k then BitVec.ofInt 48 i
        else if Cfg.eop c = 5 then (if old.toInt < i then BitVec.ofInt 48 i else old) else if i < old.toInt then BitVec.ofInt 48 i else old
      ∃ y bad, Elements.redBeat c f b = .ok (y, n, bad)
        ∧ (∀ k e, es[k]? = some e → (Elements.accAt y.core (base + k)).v = total k e)
        ∧ ∀ x : Elements.FireIn, x.a = [b] → (if b.marks.getLsbD (Cfg.rdim c)
          then ∃ z vs, Elements.redFire c f x = Elements.emitWith c z vs (Elements.endMarks c [b]) bad
            ∧ vs.length = (if 64 < n then 128 else 64) ∧ ∀ k e, es[k]? = some e → vs[k]? = some (Elements.accNum c (total k e))
          else Elements.redFire c f x = Elements.emitNone y bad))
  ∧ (∀ (c : List Word) (f : Fe) (x : Elements.FireIn) (b : Beat), x.a = [b] →
      let core := Elements.openRun f.core false
      let total := fun (l : Nat) => (Elements.accAt core (Elements.runBase core + l)).v
        + BitVec.ofNat 48 ((List.range 16).countP fun t => b.data.getLsbD (16 * l + t))
      if b.marks.getLsbD (Cfg.rdim c) then ∃ y bad, Elements.cntFire c f x = Elements.emitWith c y
          ((List.range 64).map fun l => NumFmt.ofInt (total l).toNat) (Elements.endMarks c [b]) bad ∧ y.core.bank = !core.bank
      else ∃ y bad, Elements.cntFire c f x = Elements.emitNone y bad
        ∧ ∀ l, l < 64 → (Elements.accAt y.core (Elements.runBase core + l)).v = total l)
  ∧ (∀ (code : Nat) (xs : List Machine.Num), code ∈ [4, 5, 6, 7, 8, 9] →
      let emax : Int := [8, 15, 4, 2, 2, 0].getD (code - 4) 0
      (Machine.Num.nan ∈ xs → NumFmt.groupScale code xs = 255)
      ∧ (Machine.Num.nan ∉ xs → (∀ g m e, Machine.Num.fin g m e ∈ xs → m = 0) → NumFmt.groupScale code xs = 127)
      ∧ (Machine.Num.nan ∉ xs → ∀ top : Int, (∃ g m e, Machine.Num.fin g m e ∈ xs ∧ m ≠ 0 ∧ NumFmt.ilog2 m e = top) →
          (∀ g m e, Machine.Num.fin g m e ∈ xs → m ≠ 0 → NumFmt.ilog2 m e ≤ top) →
          (NumFmt.groupScale code xs : Int) = max 0 (min 254 (top - emax + 127))))
  ∧ (∀ (c : List Word) (f g : Fe) (x : Elements.FireIn) (a : List Elements.Elem), Elements.decodeBeats c false f x.a = .ok (a, g) →
      let n := 2 ^ Cfg.bstg c
      let group := fun (q : Nat) => ((a.drop (32 * q)).take 32).map fun e => e.num
      (a.length = 128 → (Cfg.nia c = 4 ∧ (∀ e ∈ a, e.code = 1) ∨ Cfg.nia c = 2 ∧ ∀ e ∈ a, e.code = 2) → Cfg.noa c = 1 →
        Cfg.ofmt c ∈ [4, 5, 6, 7, 8, 9] → Cfg.rnd c ≠ 4 →
        ∃ o, Elements.quantFire c f x = .ok ⟨g, [o], [], false⟩
          ∧ ∀ (q k : Nat) (v : Machine.Num), q < 4 → (group q)[k]? = some v →
            let s := NumFmt.groupScale (Cfg.ofmt c) (group q)
            let eb := NumFmt.elemBits (Cfg.ofmt c) 0
            o.side.toNat / 2 ^ (8 * q) % 256 = s ∧ fieldOf o (eb * (32 * q + k)) eb =
              (NumFmt.encodeNum (Cfg.ofmt c) (Cfg.outWidth c) ⟨Cfg.rnd c, 0, 12⟩
                (if s = 255 then NumFmt.zero false else NumFmt.scale2 v (127 - (s : Int)))) % 2 ^ eb)
      ∧ (a.length % n = 0 → Elements.bflyFire c f x = Elements.emitVals c g x (((List.range (a.length / n)).flatMap fun j =>
          (List.range (Cfg.bstg c)).foldl Elements.bflyStage (((a.map fun e => NumFmt.toF32 e.num).drop (n * j)).take n)).map
            NumFmt.f32) false)
      ∧ (∃ bs, Elements.split3Fire c f x = .ok ⟨g, bs, [], false⟩ ∧ bs.length = Cfg.noa c
        ∧ ∀ (j q : Nat) (o : Beat) (e : Elements.Elem), bs[j]? = some o → q < 21 → a[32 * j + q]? = some e →
          fieldOf o (48 * q) 48 = NumFmt.split3 e.pat % 2 ^ 48)
      ∧ (NumFmt.elemBits (Cfg.ofmt c) (Cfg.outWidth c) = 8 → 1 ≤ Cfg.ofmt c → Cfg.ofmt c ≤ 0x0C → a.length ≤ Cfg.noa c * 128 →
        ∃ bs, Elements.tableFire c f x = .ok ⟨g, bs, [], false⟩ ∧ bs.length = Cfg.noa c
        ∧ ∀ (j k : Nat) (o : Beat) (e : Elements.Elem), bs[j]? = some o → k < 128 → a[128 * j + k]? = some e →
          fieldOf o (8 * k) 8 = (x.shelf.read (x.base + (Elements.constant c f x % 2 ^ 15 + e.pat) % 0x8000)).toNat))
  ∧ (∀ (v : List Nat) (s i : Nat), i.testBit s = false → i + 2 ^ s < v.length →
      let a := NumFmt.f32 (v.getD i 0)
      let b := NumFmt.f32 (v.getD (i + 2 ^ s) 0)
      (Elements.bflyStage v s)[i]? = some (NumFmt.toF32 (NumFmt.add a b))
      ∧ (Elements.bflyStage v s)[i + 2 ^ s]? = some (NumFmt.toF32 (NumFmt.add a (NumFmt.neg b))))
  ∧ (∀ p : Nat, p < 2 ^ 32 → let x := NumFmt.f32 p
      (x = .nan → NumFmt.split3 p = 0x7FC0) ∧ (∀ g, x = .inf g → NumFmt.split3 p = p / 2 ^ 16)
      ∧ (∀ g m e, x = .fin g m e →
        let rest := NumFmt.toF32 (NumFmt.add x (NumFmt.neg (NumFmt.f32 (p / 2 ^ 16 * 2 ^ 16))))
        NumFmt.split3 p % 2 ^ 16 = p / 2 ^ 16 ∧ NumFmt.split3 p / 2 ^ 16 % 2 ^ 16 = rest / 2 ^ 16 % 2 ^ 16))
  ∧ (∀ (c : List Word) (f : Fe) (x : Elements.FireIn),
      (∃ bs, Elements.lut6Fire c f x = .ok ⟨f, bs, [], false⟩ ∧ bs.length = Cfg.noa c
        ∧ ∀ (j t : Nat) (b o : Beat), x.a[j]? = some b → bs[j]? = some o → t < 1024 →
          let e := f.ring.getD (t % 96) (0, 0)
          o.data.getLsbD t = e.1.testBit (((List.range 6).map fun q =>
            if b.data.getLsbD ((t + e.2 / 2 ^ (10 * q) % 1024) % 1024) then 2 ^ q else 0).sum))
      ∧ (∀ b, x.a = [b] → Cfg.noa c = 1 → ∃ o y, Elements.fsmFire c f x = .ok ⟨y, [o], [], false⟩
        ∧ ∀ r, r < 16 → ∃ st : Nat → Nat, st 0 = (f.core.fsm.toList.getD r 0).toNat ∧ (∀ k, st k < 32)
          ∧ (∀ k, k < 64 →
            let idx := (if b.data.getLsbD (64 * r + k) then 32 else 0) + st k
            o.data.getLsbD (64 * r + k) = (f.ring.getD (6 * r + 5) (0, 0)).1.testBit idx
            ∧ ∀ j, j < 5 → (st (k + 1)).testBit j = (f.ring.getD (6 * r + j) (0, 0)).1.testBit idx)
          ∧ (y.core.fsm.toList.getD r 0).toNat = if b.marks.getLsbD (Cfg.rdim c) then 0 else st 64))
  ∧ (∀ (c : List Word) (e : Elements.Elem), let l := Cfg.len c
      let xq := Elements.quantiseStream c e
      (e.value = .nan → xq = 0) ∧ (e.value = .inf false → xq = l) ∧ (e.value = .inf true → xq = 0)
      ∧ (e.code = 0x0B ∨ e.code = 0x0C → ∀ i, e.value = NumFmt.ofInt i → (xq : Int) = max 0 (min (l : Int) i))
      ∧ (e.code ≠ 0x0B → e.code ≠ 0x0C → Cfg.bip c = false → ∀ g m q, e.value = .fin g m q →
          (xq : Int) = if g then 0 else min l (NumFmt.roundAt ⟨Cfg.rnd c, 0, 12⟩ g m (q + Cfg.lenLog c) 0)))
  ∧ (∀ (c : List Word) (f g : Fe) (x : Elements.FireIn) (es : List Elements.Elem), Elements.decodeBeats c false f x.a = .ok (es, g) →
      Cfg.nstr c ≤ es.length → ∃ outs, Elements.sgenFire c f x = .ok ⟨g, [], outs, false⟩ ∧ outs.length = Cfg.nstr c
        ∧ ∀ (j : Nat) (e : Elements.Elem), j < Cfg.nstr c → es[j]? = some e →
          let k := if Cfg.cinc c then (Cfg.gcls c + j) % 16 else Cfg.gcls c
          ∃ v, outs[j]? = some ⟨Cfg.sd c + j, v, 2 ^ k⟩ ∧ ∀ t, t < Cfg.len c → v.testBit t =
            decide (bitrev (Cfg.lenLog c) (((2 * k + 1) * t + (g.core.seed.toList.getD k 0).toNat) % 2 ^ Cfg.lenLog c)
              < Elements.quantiseStream c e))
  ∧ (∀ (c : List Word) (f : Fe) (x : Elements.FireIn), Cfg.istr c = false →
      let n := (List.range (Cfg.len c)).countP fun j => (Elements.streamReg c x (Cfg.srA c)).testBit j
      let core := Elements.openRun f.core false
      ∃ y bad, Elements.scntFire c f x = (if Cfg.noa c = 0 then Elements.emitNone y bad else Elements.emitVals c y x [Elements.cntNum c n] bad)
        ∧ (Elements.accAt y.core (Elements.runBase core)).v = (Elements.accAt core (Elements.runBase core)).v + BitVec.ofNat 48 n
        ∧ y.core.bank = (core.bank != x.a.any fun b => b.marks.getLsbD (Cfg.rdim c))
        ∧ (Cfg.ofmt c = 0x0C → Elements.cntNum c n = NumFmt.ofInt n)
        ∧ (Cfg.ofmt c = 0x0B → Elements.cntNum c n = NumFmt.ofInt (if Cfg.bip c then 2 * (n : Int) - Cfg.len c else n))
        ∧ (Cfg.ofmt c < 0x0B → Elements.cntNum c n =
            NumFmt.ofScaled (if Cfg.bip c then 2 * (n : Int) - Cfg.len c else n) (-(Cfg.lenLog c : Int))))
  ∧ ∀ (c : List Word) (f : Fe) (x : Elements.FireIn), Cfg.istr c = false → Cfg.noa c = 0 →
    let reg := Elements.streamReg c x
    let mask := Elements.regMask c f
    let a := Cfg.srA c
    let b := Cfg.srB c
    let d := Cfg.srC c
    let gives := fun (fire : List Word → Fe → Elements.FireIn → Except Elements.FireFault Elements.FireOut) (v m : Nat) =>
      fire c f x = .ok ⟨f, [], [⟨Cfg.sd c, v, m⟩], false⟩
    let scorr := fun (fire : List Word → Fe → Elements.FireIn → Except Elements.FireFault Elements.FireOut) (ma mb : Nat) =>
      fire c f x = .error ⟨0x18, ma, mb⟩
    let one := fun (m : Nat) => (List.range 16).countP (fun j => m.testBit j) = 1
    (∀ op ∈ [(fun p q : Nat => p &&& q), fun p q => p ||| q],
      (mask a &&& mask b = 0 → gives (Elements.disjointFire op) (op (reg a) (reg b)) (mask a ||| mask b))
      ∧ (mask a &&& mask b ≠ 0 → scorr (Elements.disjointFire op) (mask a) (mask b)))
    ∧ (∀ op ∈ [(fun p q : Nat => p &&& q), (fun p q => p ||| q), fun p q => p ^^^ q],
      (mask a = mask b → one (mask a) → gives (Elements.sameFire op) (op (reg a) (reg b)) (mask a))
      ∧ (¬ (mask a = mask b ∧ one (mask a)) → scorr (Elements.sameFire op) (mask a) (mask b)))
    ∧ (mask d &&& (mask a ||| mask b) = 0 →
      ∃ v, gives Elements.smuxFire v (mask a ||| mask b ||| mask d)
        ∧ ∀ t, t < Cfg.len c → v.testBit t = if (reg d).testBit t then (reg b).testBit t else (reg a).testBit t)
    ∧ (mask d &&& (mask a ||| mask b) ≠ 0 → scorr Elements.smuxFire (mask a ||| mask b) (mask d))
    ∧ (∃ v, gives Elements.snotFire v (mask a) ∧ ∀ t, t < Cfg.len c → v.testBit t = !(reg a).testBit t)
    ∧ (∃ v, gives Elements.sregenFire v (2 ^ Cfg.gcls c)
        ∧ ∀ t, t < Cfg.len c → v.testBit t =
          decide (Elements.gen f (Cfg.gcls c) t (Cfg.lenLog c) < (List.range (Cfg.len c)).countP fun j => (reg a).testBit j))
    ∧ (∃ v, gives Elements.sfsmFire v (mask a) ∧ ∃ st : Nat → Nat, st 0 = 2 ^ Cfg.klog c / 2
        ∧ ∀ t, t < Cfg.len c → st (t + 1) = (if (reg a).testBit t then min (st t + 1) (2 ^ Cfg.klog c - 1) else st t - 1)
          ∧ v.testBit t = decide (2 ^ Cfg.klog c / 2 ≤ st (t + 1)))

/-! ## Engines, tables and leave as they proceed -/

/-- R101, R271, R273: an engine of the chosen die with room takes a record whose start makes no release: it stands accepted
for that engine, and SEL is pending, or the channel register busy with its address. R120, R123: a well-formed record without tile,
table or reduce, and without leave to ask, starts when its engine has a place, and its tenant's turn moves on. R124, R125: what it has written done, its
signals come in order: the engine's next number at COMPL, OWN cleared once no write of its own to the record is on its way,
the completion value at its token register with the COPY event; a chain walks to NEXT, seals a NEXT of 0 and ends, or ends when NEXT is 1. R134, R138: a chunk of a well-formed stream decodes, a bad one
counted. R107, R136, R275: the oldest load of a group takes its image in token by token; once it is whole and good and no
record uses the table, it takes effect and delivers its length. R306, R376, R377: leave that may be granted leaves the line, counts against its pool and reaches who asked; after
200 µs LEAVE_DENIED does. (The model's choices: leave reaches no FRUN whose context has an asynchronous fault due, log 124;
that poison in a stream's first 16 bytes makes every chunk bad, log 113.) -/
def Obligations.EngineSteps : Prop :=
  (∀ (s : State) (i k engine : Nat) (n : Inst) (b : Block) (addr : Word) (q : Req) (w : Bool), s.inst? i = some n →
     n.ctl.blk = some b → b.req = some ⟨k, q, w⟩ → sideReady s i b k = true → engine < 64 → queuedRecords s (engine / 8) < 256 →
     startReleases s i n b addr = [] → (s.classOf n = 0 ∨ class0Waits s i (engine / 8) = false) →
     (∀ remote, q = .record addr remote → engine / 8 = recordDie s n addr remote →
       ∃ t r n', exec (.recordAccept i engine) s = .next t
         ∧ aget r t.recs = some (Rec.fresh s i n engine addr (.token (slotSel b k))
             (remote && recordInDevice s (dieOfCore n.cluster) n addr)) ∧ t.mem = s.mem
         ∧ t.inst? i = some n' ∧ n'.ctl.pending.getLsbD (slotSel b k) = true)
     ∧ (∀ ec sem, q = .chain addr ec sem → engine / 8 = dieOfCore n.cluster → ec < 16 → n.life = .running →
       (n.ctl.ecstate.toList.getD ec 0).getLsbD 0 = false →
       ∃ t r n', exec (.recordAccept i engine) s = .next t
         ∧ aget r t.recs = some (Rec.fresh s i n engine addr (.chain ec sem) false) ∧ t.mem = s.mem
         ∧ t.inst? i = some n' ∧ n'.ctl.ecstate.toList[ec]? = some (BitVec.ofNat 64 (addr.toNat / 64 * 64 + 1))))
  ∧ (∀ (s u : State) (r reg : Nat) (x : Rec) (bs : List Byte), aget r s.recs = some x → x.phase = .accepted →
     x.target = .token reg → engineFree s x = true → recIssued s x = true → takeWords s r x 0 x.addr 64 = (u, .bytes bs) →
     x.toDst = false → startReleased u r x (wordsOf bs) = true →
     let ws := wordsOf bs
     let y := { x with words := ws, tile := [], input := [], chunks := [], issued := [], pages := [], group := none }
     (recMisaligned ws false = true → exec (.engineRecordStart r) s = .next (recordFault u r y 0x04 x.addr))
     ∧ (recMisaligned ws false = false → recIllegal ws = true →
         exec (.engineRecordStart r) s = .next (recordFault u r y 0x06 x.addr))
     ∧ (recMisaligned ws false = false → recIllegal ws = false → Stages.hasTile ws = false → Stages.reduces ws = false →
         tileIllegal ws [] = false → Stages.xtid ws = 0 → 0 < Stages.len ws → x.total + Stages.len ws ≤ 2 ^ 20 →
         exec (.engineRecordStart r) s = .next (tookPlace { u with recs := aset r { y with phase := .active } u.recs } r x)))
  ∧ (∀ (s u : State) (r : Nat) (x : Rec) (p : Piece), aget r s.recs = some x →
     let phase := fun (t : State) (k : Nat) => { t with recs := amod r (fun y => { y with phase := .signal k }) t.recs }
     let word := fun (off : Nat) => heldXlate s x recordPage off (x.addr + BitVec.ofNat 64 off) 8 = (u, .ok [p])
       ∧ isDeviceKey p.key = false ∧ ownPending u r p.key 8 = false ∧ u.flaws = [] ∧ poisonedIn u.poison p.key 8 = false
     (x.phase = .active → allIssued x = true → Stages.reduces x.words = false → (Stages.bcl x.words).toNat = 0 →
       exec (.recordComplete r) s = .next (phase s 0))
     ∧ (x.phase = .signal 0 → signalMay s r x = true → (Stages.compl x.words).toNat = 0 →
       ∃ t, exec (.recordComplete r) s = .next t ∧ t.mem = s.mem ∧ t.recs = (phase s 1).recs
         ∧ (t.die (x.engine / 8)).engSeq = (s.die (x.engine / 8)).engSeq.setIfInBounds (x.engine % 8)
             ((s.die (x.engine / 8)).engSeq.toList.getD (x.engine % 8) 0 + 1))
     ∧ (x.phase = .signal 1 → signalMay s r x = true → word 24 →
       exec (.recordComplete r) s = .next (phase (homeWrite u p.key (leBytes 8 (u.num8 p.key &&& (2 ^ 63 - 1)))) 2))
     ∧ (∀ reg n, x.phase = .signal 2 → signalMay s r x = true → x.target = .token reg → x.leave = none →
         s.inst? x.inst = some n → n.life = .running →
       ∃ t n', exec (.recordComplete r) s = .next t ∧ t.mem = s.mem ∧ t.recs = adel r s.recs ∧ t.inst? x.inst = some n'
         ∧ n'.ctl = { (n.ctl.setToken reg (completionValue x) (Stages.rel x.words)) with evpend := n.ctl.evpend ||| 1 })
     ∧ (∀ ec sem, x.phase = .signal 3 → x.target = .chain ec sem → word 0 →
       (u.num8 p.key = 0 → exec (.recordComplete r) s = .next (endChain (homeWrite u p.key (leBytes 8 1)) r x ec true))
       ∧ (u.num8 p.key = 1 → exec (.recordComplete r) s = .next (endChain u r x ec false))
       ∧ (1 < u.num8 p.key → u.num8 p.key % 64 = 0 →
         let a := BitVec.ofNat 64 (u.num8 p.key)
         exec (.recordComplete r) s = .next (setEc { u with
           recs := amod r (fun y => { y with addr := a, walked := true, seq := y.seq + 1, phase := .accepted, fetched := [],
                                             pages := [], pois := false }) u.recs }
           x.inst ec (ecValue a false false true)))))
  ∧ (∀ (s : State) (r c : Nat) (x : Rec) (d : Stages.ChunkDir), aget r s.recs = some x → x.phase = .active → Stages.expands x.words = true →
     allRead x = true → aget c x.chunks = none → Stages.dirPoisoned (sourceBytes x) c = false → Stages.streamBad (sourceBytes x) = false →
     Stages.dequants x.words = false → (Stages.dirOf (sourceBytes x))[c]? = some d → Stages.xtid x.words = 0 →
     let out := Stages.decodeChunk none (sourceBytes x) d
     let u := if out = none then s.countDie (x.engine / 8) 0x051 1 else s
     exec (.chunkDecode r c) s = .next (issueReady { u with
       recs := amod r (fun y => { y with chunks := aset c out y.chunks }) s.recs } r))
  ∧ (∀ (s u : State) (g : Nat) (l : LaneGroup) (ld : XtLoad) (rest : List XtLoad) (bs : List Byte),
     aget g s.lanes = some l → l.loads = ld :: rest → issuerCommitted s ld.inst ld.reg = true →
     (ld.got.length < 16 → readImage s g ld 16 = (u, .bytes bs) →
       exec (.xtloadTakeEffect g) s = .next (imageInput u g bs))
     ∧ (16 ≤ ld.got.length → Stages.headBad ld.got = false → Stages.imageLen ld.got = ld.got.length → Stages.imageBad ld.got = false → laneUsers s g = 0 →
       exec (.xtloadTakeEffect g) s = .next (deliverToken { s with
         lanes := amod g (fun y => { y with xtid := ld.xtid, table := ld.got, loads := y.loads.drop 1 }) s.lanes }
         ld.inst ld.reg (BitVec.ofNat 64 ld.got.length) 3 false)))
  ∧ (∀ (s : State) (q : Nat) (r : LeaveReq), aget q s.leaves = some r →
     (schedPaused s = false → leaveMay s q r = true → r.open s = true → ∀ i n g, r.for_ = .restore i ∨ r.for_ = .frun i ∧ (frunSlot s i).isSome = true →
       s.inst? i = some n → n.reg = some g →
       ∃ t n' g', exec (.leaveGrant q) s = .next t ∧ t.leaves = adel q s.leaves ∧ t.mem = s.mem
         ∧ (t.die r.die).granted = (s.die r.die).granted + r.units
         ∧ t.inst? i = some n' ∧ n'.reg = some g' ∧ g'.leave = some r.units)
     ∧ (r.since + 320000 ≤ s.cycle →
       (∀ i k, r.for_ = .frun i → frunSlot s i = some k →
         exec (.leaveTimeout q) s = .next (raise { s with leaves := adel q s.leaves } i 0x2A k 0))
       ∧ (∀ k x, r.for_ = .record k → aget k s.recs = some x →
         exec (.leaveTimeout q) s = .next (recordFault { s with leaves := adel q s.leaves } k x 0x2A x.addr))))

/-! ## Launches, resets and the launch table -/

/-- R164, R165, R277: the push of a successor whose record is well formed, with room in its queue, is accepted: the
record enters the queue of its class under the next SEQ and the context's next serial that is not taken (the numbering is
the model's choice, log 42), and nothing of it is placed or loaded. A LAUNCH whose block may bind is answered SEQ in bits 63:32
and INST0 in bits 31:8, or 0x04 in bits 7:0 of a malformed record. R361: an image that loads, for a record still well
formed, is marked loaded with what the load found. R103, R168, R169: a launch at the head of its queue whose turn has
come and whose unit of one finds a place without FEs starts there: a running context with its serial, WID, entry point
and vector base (its other registers 0: the model's choice, log 1), the core's cache invalidated. R58, R103, R172: one that has halted with its outbound sets empty
arrives at DONE and is gone, its FEs empty (that they keep no context is log 64, DEDUCED). -/
def Obligations.LaunchSteps : Prop :=
  (∀ (s u : State) (n : Nat) (p : Push) (ws : List Word), s.pushes[n]? = some p → p.from_ = .succ →
     schedPaused s = false → readWaits s p = false →
     readRecord { s with pushes := removeAt n s.pushes } p.ctx p.addr p.sup = (u, .ok ws) →
     recordBad u (u.tenantOf p.ctx) ws = false → queueLength u p.die (recCls ws) < 16384 →
     ∃ t, exec (.launchAccept n) s = .next t ∧ t.launchSeq = (u.launchSeq + 1) % 2 ^ 32
       ∧ ∃ k l, aget k t.launches = some l ∧ l.words = ws ∧ l.addr = p.addr ∧ l.ctx = p.ctx ∧ l.die = p.die
           ∧ l.cls = recCls ws ∧ l.seq = t.launchSeq ∧ l.inst0 = freeSerial u p.ctx (((aget p.ctx u.contexts).map fun c => c.serial).getD 1)
           ∧ l.next = 0 ∧ l.loaded = false ∧ l.live = [])
  ∧ (∀ (s u : State) (n i k : Nat) (p : Push) (b : Block) (addr : Word) (w : Bool) (ws : List Word),
     s.pushes[n]? = some p → p.from_ = .ctl i → s.blk? i = some b → b.req = some ⟨k, .launch addr, w⟩ →
     schedPaused s = false → readWaits s p = false → sideReady s i b k = true → readRecord s p.ctx addr p.sup = (u, .ok ws) →
     ctlReleaseClear (bindBlock u i) i .system = true →
     let v := bindBlock u i
     let inst0 := freeSerial v p.ctx (((aget p.ctx v.contexts).map fun c => c.serial).getD 1)
     (recordBad v (v.tenantOf p.ctx) ws = false → ∃ x, exec (.launchAccept n) s =
       .next (answer x i k (some (BitVec.ofNat 64 ((v.launchSeq + 1) % 2 ^ 32 * 2 ^ 32 + inst0 * 2 ^ 8)))))
     ∧ (recordBad v (v.tenantOf p.ctx) ws = true → ∃ x a : _, exec (.launchAccept n) s = .next (answer x i k (some a))
         ∧ (a : Word).setWidth 8 = (0x04 : BitVec 8)))
  ∧ (∀ (s u : State) (l : Nat) (x : Launch) (ws : List Word) (info : ImageInfo), aget l s.launches = some x →
     schedPaused s = false → x.loaded = false → x.next < instances x.words → loadImage s schedDie x.ctx x.tenant x.addr x.words = (u, ws, .ok info) →
     recordBad u x.tenant ws = false →
     exec (.imageLoad l) s = .next (u.modLaunch l fun y => { y with words := ws, loaded := true, info := info }))
  ∧ (∀ (s : State) (l : Nat) (x : Launch) (p : Spot), aget l s.launches = some x → x.loaded = true →
     x.next < instances x.words → headLaunch s x.tenant x.cls = some l → savedOf s x.tenant x.cls = [] →
     schedPaused s = false → s.resets = [] → neverStatus s x = none → turnOk s (boardOf s false fun _ => false) x.tenant x.die x.cls = true →
     findUnit s (boardOf s false fun _ => false) (askOf x false) = some [p] → canCommand s [p.core] = true → p.rect = none → x.info.chans = [] → 0 < x.next →
     ∃ t i n, exec (.instancePlace l) s = .next t ∧ t.inst? i = some n ∧ n.life = .running ∧ n.ctx = x.ctx ∧ n.launch = l
       ∧ n.serial = freeSerial s x.ctx (serialAt x.inst0 x.next) ∧ n.wid = widAt x.words x.next ∧ n.cluster = p.core ∧ n.slot = p.slot
       ∧ n.ctl = Ctl.fresh (recEntry x.words) (vecDefault s x.ctx) ∧ n.reg = none ∧ (t.core p.core).cache = []
       ∧ aget l t.launches = some { x with next := x.next + 1, live := x.live ++ [i] } ∧ t.mem = s.mem)
  ∧ (∀ (s : State) (i : Nat) (n : Inst) (l : Launch), s.inst? i = some n → n.over = true → outboundEmpty s i = true →
     s.resets = [] → Assoc.rising none s.insts = true → aget n.launch s.launches = some l → n.faultEnd = none →
     recOnce l.words = false → (∃ j ∈ l.live, j ≠ i) →
     ∃ t, exec (.doneArrival i) s = .next t ∧ t.inst? i = none
       ∧ t.mem = (doneArrive s l (instFlags n) ((n.reg.map fun r => r.retries).getD 0) 0).mem
       ∧ aget n.launch t.launches = some { l with live := l.live.filter fun j => j != i }
       ∧ ∀ x ∈ fesOf s i n, (t.fe x).slots = List.replicate 8 [] ∧ (t.fe x).run = none ∧ (t.fe x).live = false)

/-- R116: the host's reset command for a queue on which none runs takes the next serial, covers that queue, and ends at
once every context of it with QUEUE_RESET, but for one whose block is bound, which stops when that has committed (R82);
the reset completes once all have stopped: what it covers is gone, and each context that issued it gets the report. R152
to R154: a write to LAUNCH of a window that has a context, 8 bytes and 64-byte aligned, is counted as accepted and pushed;
another is counted as refused, and one of another size than R153 allows does nothing. R372 to R374: arming makes a
well-formed entry valid, with its next T_k the first not before NOW, and a malformed one invalid, logged; disarming makes it
invalid; at T_k a valid entry that does not run pushes its record, and one that runs does what its OVERRUN rule says: SKIP
counts, DEFER keeps one instance back, REPLACE resets the running launch, and none while that reset runs (the model's choice,
log 45); vector 1 is signalled. -/
def Obligations.ResetAndTableSteps : Prop :=
  (∀ (s : State) (port rid : Nat) (tenant : BitVec 4) (cls : BitVec 2) (mask : BitVec 8), port < 2 → rid < 65536 →
     barHeld s port rid = false → s.resets = [] →
     let m := if mask = 0 then 0xFF else mask.toNat
     mayReset s tenant.toNat cls.toNat m none = true →
     ∃ t, exec (.hostResetCommand ⟨port, rid⟩ tenant cls mask) s = .next t ∧ t.resetSerial = (s.resetSerial + 1) % 2 ^ 32
       ∧ t.resets = [(⟨(s.resetSerial + 1) % 2 ^ 32, tenant.toNat, cls.toNat, m, [],
           resetCovers s tenant.toNat cls.toNat m none, resetLaunches s tenant.toNat cls.toNat m, none⟩ : Reset)]
       ∧ ∀ i ∈ resetCovers s tenant.toNat cls.toNat m none, ∀ n, s.inst? i = some n → n.over = false →
           ∃ n', t.inst? i = some n' ∧ (n'.life = .ended ∨ n'.life = .stopping)
             ∧ ((∀ x ∈ s.insts, x.2.life ≠ .saved ∧ x.2.life ≠ .saving) →
                 ((∀ b, n.ctl.blk = some b → b.bound = false ∧ b.req = none) → n'.life = .ended ∧ n'.faultEnd = some 0x29 ∧ n'.ctl.blk = none ∧ n'.ctl.due = none
                   ∧ n'.ctl.async = [])
                 ∧ (n.blockBound = true → n'.life = .stopping ∧ n'.discard = true ∧ n'.ctl.blk = n.ctl.blk)))
  ∧ (∀ (s : State) (serial : Nat) (r : Reset), s.resets.find? (fun r => r.serial == serial) = some r →
     Assoc.rising none s.insts = true →
     (∀ i ∈ r.insts, ∀ n, s.inst? i = some n → n.over = false → n.blockBound = true →
       ∃ t, exec (.queueResetComplete serial) s = .next t ∧ t.resets = s.resets
         ∧ ∃ n', t.inst? i = some n' ∧ n'.life = .stopping ∧ n'.blockBound = true)
     ∧ (resetStopped s r = true →
       ∃ t, exec (.queueResetComplete serial) s = .next t ∧ t.resets = s.resets.filter (fun x => x.serial != serial)
         ∧ (∀ i ∈ r.insts, t.inst? i = none)
         ∧ ∀ i n, i ∈ r.issuers → i ∉ r.insts → s.inst? i = some n →
             let v := BitVec.ofNat 64 ((if ∃ x ∈ s.resets, x.serial ≠ serial ∧ i ∈ x.issuers then 2 ^ 63 else 0) + serial)
             ∃ n', t.inst? i = some n' ∧ (n.life ≠ .saved → n'.ctl.resetStat = v) ∧ (n.life = .saved → .report v ∈ n'.kept)))
  ∧ (∀ (s : State) (port rid w size : Nat) (value : Word), port < 2 → rid < 65536 → w < 16 → barHeld s port rid = false →
     let x := agetD ⟨none, 0, 0⟩ w (s.port port).windows
     (size ∉ [1, 2, 4, 8] → exec (.launchWindowWrite port rid w value size) s = .next s)
     ∧ (size ∈ [1, 2, 4, 8] →
       ∃ t, exec (.launchWindowWrite port rid w value size) s = .next t ∧ t.mem = s.mem ∧ t.launches = s.launches
         ∧ (∀ c, x.ctx = some c → size = 8 → value.toNat % 64 = 0 →
             t.pushes = s.pushes ++ [(⟨.window port w, c.toNat, value, false, 0⟩ : Push)]
             ∧ aget w (t.port port).windows = some { x with accepted := x.accepted + 1 })
         ∧ (x.ctx = none ∨ size < 8 ∨ value.toNat % 64 ≠ 0 →
             t.pushes = s.pushes ∧ aget w (t.port port).windows = some { x with refused := x.refused + 1 })))
  ∧ (∀ (s : State) (entry : Nat) (w : EntryWrite), tableTakes s entry w = true →
     let w3 := writtenW3 s entry w
     let e := (agetD LtEntry.fresh entry s.table).fields w3
     let disarmed := { s with table := aset entry { e with valid := false, deferred := false } s.table }
     (w.at_ = 0 → w.size = 8 → w3 = w.value)
     ∧ (w3.getLsbD 63 = true → armBad e w3 = false → exec (.launchTableArm entry w) s = .next { s with
       table := aset entry { e with valid := true, deferred := false, skips := 0, nextK := e.firstK s.now, jump := none } s.table })
     ∧ (w3.getLsbD 63 = true → armBad e w3 = true →
       exec (.launchTableArm entry w) s = .next (disarmed.logFault 0xF5 e.ctx.toNat (s.tenantOf e.ctx.toNat) 0 0 0 entry w3.toNat))
     ∧ (w3.getLsbD 63 = false → exec (.launchTableDisarm entry w) s = .next disarmed))
  ∧ (∀ (s : State) (entry : Nat) (x : LtEntry), aget entry s.table = some x → x.valid = true →
     schedPaused s = false → (x.period ≠ 0 ∨ x.nextK = 0) → x.at x.nextK ≤ s.now → x.jump = none →
     let y := { x with nextK := x.nextK + 1 }
     let signals := fun (t : State) => ∀ port, port < 2 →
       let p := s.port port
       if (p.msixWord 3).getLsbD 32 then (t.port port).msixPending.getLsbD 1 = true
       else (t.port port).msixSent = p.msixSent ++ [(1, p.msixWord 2, (p.msixWord 3).toNat % 2 ^ 32)]
     (entryRuns s entry = false → exec (.launchTableFire entry) s = .next { s with
       table := aset entry y s.table
       pushes := s.pushes ++ [(⟨.table entry, x.ctx.toNat, x.record, false, x.die.toNat⟩ : Push)] })
     ∧ (∀ k l, entryRuns s entry = true → x.rule = 2 → x.replace = false → mayReplace s entry = true →
         entryLaunch s entry = some k → aget k s.launches = some l →
         ∃ u t z, exec (.launchTableFire entry) s = .next t ∧ signals u ∧ u.insts = s.insts ∧ u.pushes = s.pushes
           ∧ t = (beginReset u l.tenant l.cls 0 [] l.live (if l.next < instances l.words then [k] else []) (some entry)).1
           ∧ t.resetSerial = (s.resetSerial + 1) % 2 ^ 32 ∧ t.resets = s.resets ++ [(⟨(s.resetSerial + 1) % 2 ^ 32, l.tenant, l.cls, 0, [], l.live,
               if l.next < instances l.words then [k] else [], some entry⟩ : Reset)]
           ∧ aget entry t.table = some z ∧ z.replace = true ∧ z.nextK = x.nextK + 1)
     ∧ (entryRuns s entry = true → (x.rule = 2 → x.replace = true) → ∃ t, exec (.launchTableFire entry) s = .next t
         ∧ (x.rule = 2 → t.pushes = s.pushes ∧ t.resets = s.resets ∧ aget entry t.table = some y)
         ∧ signals t
         ∧ (x.rule = 0 → t.pushes = s.pushes ∧ aget entry t.table = some { y with skips := x.skips + 1 })
         ∧ (x.rule = 1 → x.deferred = false → t.pushes = s.pushes ∧ aget entry t.table = some { y with deferred := true })
         ∧ (x.rule = 1 → x.deferred = true → t.pushes = s.pushes ∧ aget entry t.table = some { y with skips := x.skips + 1 })))

/-! ## The die-to-die links -/

/-- R142, R143: a direction that is up sends a new DATA flit under its next SEQ, held until it is acknowledged, with the number
last accepted the other way and its place in its track or link, whose order the boundary restores on arrival, an IDLE flit that is not held, and first the flits of a replay, the fourth replay of one starting
retraining; a flit that meets no error is read back whole, and DATA with the expected SEQ is delivered once; one whose CRC
fails is dropped, and a NAK of the expected number goes back. A NAK, or 256 ns without an acknowledgement, replays the held flits.
R144: a tested module resumes at 64 lanes, falls back to the half that works, or is retired; the event is
logged. (SEQ's start and the CRC's bit order are the model's choice, log 19; when the log is full is log 24, DEDUCED.) -/
def Obligations.LinkSteps : Prop :=
  (∀ (s : State) (l stream : Nat) (payload : List Byte), linkExists l = true → (s.link l).width ≠ 0 → (s.link l).retraining = false →
     let d := s.link l
     let ack := (s.link (linkBack l)).expected - 1
     (d.toSend = [] → d.moved = [] → d.held.length < 64 →
       ∃ t f, exec (.flitSend l .data ⟨stream, payload⟩) s = .next t ∧ f.seq = d.nextSeq ∧ f.kind = 1 ∧ f.nakv = false
         ∧ f.payload = (payload ++ List.replicate 244 0).take 244 ∧ (t.link l).held = d.held ++ [f]
         ∧ (t.link l).wire = d.wire ++ [{ f with ackseq := ack }] ∧ (t.link l).nextSeq = d.nextSeq + 1
         ∧ f.stream = stream ∧ f.ord = agetD 0 stream (s.bound (boundOf l)).sent
         ∧ (t.bound (boundOf l)).sent = aset stream (f.ord + 1) (s.bound (boundOf l)).sent)
     ∧ (∀ m rest, d.toSend = [] → d.moved = m :: rest → d.held.length < 64 →
       ∃ t f, exec (.flitSend l .data ⟨stream, payload⟩) s = .next t ∧ f.seq = d.nextSeq ∧ f.stream = m.stream ∧ f.ord = m.ord
         ∧ f.payload = (m.payload ++ List.replicate 244 0).take 244 ∧ (t.link l).held = d.held ++ [f]
         ∧ (t.link l).moved = rest ∧ (t.link l).wire = d.wire ++ [{ f with ackseq := ack }] ∧ t.bounds = s.bounds)
     ∧ (d.toSend = [] →
       ∃ t f, exec (.flitSend l .idle ⟨stream, payload⟩) s = .next t ∧ f.kind = 0 ∧ f.nakv = false ∧ f.ackseq = ack
         ∧ (t.link l).wire = d.wire ++ [f] ∧ (t.link l).held = d.held ∧ (t.link l).nextSeq = d.nextSeq)
     ∧ (∀ f rest kind, d.toSend = f :: rest → agetD 0 f.seq.toNat d.replays < 3 →
       ∃ t, exec (.flitSend l kind ⟨stream, payload⟩) s = .next t ∧ (t.link l).toSend = rest
         ∧ (t.link l).wire = d.wire ++ [{ f with ackseq := ack }] ∧ (t.link l).held = d.held)
     ∧ (∀ f rest kind, d.toSend = f :: rest → agetD 0 f.seq.toNat d.replays = 3 →
       ∃ t, exec (.flitSend l kind ⟨stream, payload⟩) s = .next t ∧ (t.link l).retraining = true ∧ (t.link (linkBack l)).retraining = true
         ∧ (t.link l).wire = [] ∧ (t.link l).held = d.held))
  ∧ (∀ (s : State) (l : Nat) (f : Flit) (rest : List Flit) (es : List (Nat × Byte)), (s.link l).retraining = false →
     (s.link l).wire = f :: rest →
     let d := s.link l
     (f.payload.length = 244 → f.kind = 1 → f.seq = d.expected →
       ∃ t, exec (.flitReceive l []) s = .next t ∧ (t.link l).wire = rest ∧ (t.link l).delivered = d.delivered ++ [f.payload]
         ∧ (t.link l).expected = d.expected + 1
         ∧ ∀ b, s.bound (boundOf l) = b → b.early = [] →
             (f.ord = agetD 0 f.stream b.due → (t.bound (boundOf l)).out = b.out ++ [(f.stream, f.payload)])
             ∧ (f.ord ≠ agetD 0 f.stream b.due → (t.bound (boundOf l)).out = b.out))
     ∧ (readFlit (withErrors f.bytes es) = none → d.fails = [] → d.nakOut = false →
       ∃ t g, exec (.flitReceive l es) s = .next t ∧ (t.link l).wire = rest ∧ (t.link l).delivered = d.delivered
         ∧ (t.link l).expected = d.expected ∧ (t.link (linkBack l)).wire = (s.link (linkBack l)).wire ++ [g]
         ∧ g.nakv = true ∧ g.nakseq = d.expected))
  ∧ (∀ (s : State) (l : Nat), let d := s.link l
     (∀ n, d.nakSeen = some n → exec (.nakReceive l) s =
       .next (s.modLink l fun d => { d with nakSeen := none, toSend := d.held.dropWhile fun f => f.seq != n }))
     ∧ (d.held ≠ [] → d.retraining = false → d.lastAck + 410 ≤ s.cycle →
       exec (.replayTimeout l) s = .next (s.modLink l fun d => { d with toSend := d.held, lastAck := s.cycle }))
     ∧ (∀ failing : BitVec 64, d.retraining = true → d.width = 64 →
       ∃ t, exec (.retrainDone l failing) s = .next t ∧ (t.link l).retraining = false ∧ (t.link (linkBack l)).retraining = false
         ∧ (failing = 0 → (t.link l).width = 64 ∧ (t.link l).toSend = d.held)
         ∧ (failing ≠ 0 → failing.setWidth 32 = (0 : BitVec 32) →
             (t.link l).width = 32 ∧ (t.link l).half = false ∧ (t.link l).toSend = d.held)
         ∧ (failing.setWidth 32 ≠ (0 : BitVec 32) → failing >>> 32 = 0 →
             (t.link l).width = 32 ∧ (t.link l).half = true ∧ (t.link l).toSend = d.held)
         ∧ (failing.setWidth 32 ≠ (0 : BitVec 32) → failing >>> 32 ≠ 0 →
             (t.link l).width = 0 ∧ (t.link (linkBack l)).width = 0 ∧ (t.link l).held = [])
         ∧ (s.log.used < 16382 → ∃ r, t.log.used = s.log.used + 1 ∧ aget s.log.head t.log.recs = some r
             ∧ r.code = (if (t.link l).width = 64 then 0xF0 else if (t.link l).width = 32 then 0xF1 else 0xF2))))

/-! ## Host ports and peers -/

/-- R112, R147 to R151, R153, R156 to R158, R407: an inbound write whose one line its aperture lets through joins its
port's lines, held behind the earlier writes of its requester unless it is relaxed (a peer's WRITE always is, its WRITE_ORD never); the
acknowledgement of a performed line lets go what waited for it alone, as far as the port keeps 1,024 lines forwarded. A register read of BAR 0 that is naturally aligned returns
the register's bytes, another Unsupported Request, as an inbound AtomicOp does; a read through an aperture is forwarded as
writes are. Data for an engine's outbound read reaches its engine; a read that fails, or has waited 50 ms, gives 0xFF. The
registers of the time base, the launch table and attestation take what is written (that a new SRC clears LOCKED is the
model's choice, log 96); a report is writes of at most 512 bytes, MAGIC last and
ordered; the identification region reports the step at which bring-up failed, in a word that the model leaves free (log 50). A peer operation is sent again, acknowledged, or, after 10 ms, makes its entry unreachable; R155: vector 4 is then
sent, or pending while it is masked (the table's layout is PRESUMED, log 88). -/
def Obligations.HostAndPeerSteps : Prop :=
  (∀ (s v : State) (port off : Nat) (data : List Byte) (poisoned : Bool) (e : Aperture) (p : Piece), port < 2 →
     0 < data.length → off % 64 + data.length ≤ 64 → p.n = data.length →
     let joins := fun (entry : Option Aperture × Nat × Nat) (peer : Bool) (rid : Nat) (ro poisoned : Bool) (x : Instr) =>
       ∀ index o, entry = (some e, index, o) → apertureOk e peer = true →
       apertureXlate { s with fresh := s.fresh + 1 } port e o data.length true = (v, .ok [p]) →
       ∃ t id, exec x s = .next t ∧ t.mem = v.mem
         ∧ (t.port port).lines = (v.port port).lines ++ [(⟨id, s.fresh + 1, rid,
             ro || !earlierLines s port rid (s.fresh + 1), p.key, data, poisoned⟩ : HostLine)]
     (∀ rid ro, rid < 65536 → ((s.port port).lines.filter fun l => l.forwarded && l.rid < 65536).length < 1024 →
       joins (barEntry (s.port port) off) false rid ro poisoned (.hostPostedWrite port rid off data ro poisoned))
     ∧ (∀ node aper, joins (peerEntry (s.port port) aper off) true (peerRid node) true false (.peerWrite port node aper off data))
     ∧ (∀ node aper, joins (peerEntry (s.port port) aper off) true (peerRid node) false false (.peerWriteOrd port node aper off data)))
  ∧ (∀ (s : State) (port line : Nat) (l : HostLine), (s.port port).lines.find? (fun l => l.id == line) = some l →
     l.forwarded = true → l.data = [] →
     let left := (s.port port).lines.filter fun l => l.id != line
     ∃ t, exec (.hostLineAck port line) s = .next t ∧ t.mem = s.mem
       ∧ (t.port port).lines = forwardLines left (1024 - (left.filter fun l => l.forwarded && l.rid < 65536).length) left
       ∧ (left.length ≤ 1024 → (t.port port).lines = left.map (fun l => { l with
           forwarded := l.forwarded || !left.any fun k => k.rid == l.rid && k.wr < l.wr }))
       ∧ (t.port port).reads = (s.port port).reads.map fun r => { r with
           forwarded := r.forwarded || !left.any fun k => k.rid == r.rid && k.wr < r.id })
  ∧ (∀ (s v : State) (port off n tag : Nat) (ps : List Piece), port < 2 → 0 < n → n ≤ 4096 →
     let answers := fun (t : State) (c : Completion) => t = s.modPort port fun p => { p with completions := p.completions ++ [c] }
     let takes := fun (peer : Bool) (entry : Nat → Option Aperture × Nat × Nat) (rid : Nat) (ro : Bool) (x : Instr) =>
       readPieces port peer entry { s with fresh := s.fresh + 1 } (linesOf off n) [] = (v, .ok ps) →
       exec x s = .next (v.modPort port fun p => { p with reads := p.reads ++ [(⟨s.fresh + 1, rid, tag,
         ro, ro || !earlierLines v port rid (s.fresh + 1), ps, [], false⟩ : HostReadReq)] })
     (∀ rid ro, rid < 65536 → (ro = true ∨ barHeld s port rid = false ∧ inboundHeld s port rid = false) →
       ∃ t, exec (.hostRead port rid true off n ro tag) s = .next t
         ∧ (n ∈ [1, 2, 4, 8] → off % n = 0 → answers t (.data rid tag
             (((leBytes 8 (barWord s port (off - off % 8)).toNat).drop (off % 8)).take n) false))
         ∧ (n ∉ [1, 2, 4, 8] ∨ off % n ≠ 0 → answers t (.unsupported rid tag)))
     ∧ (∀ k, s.bringup = .failed k → barWord s port (Config.failedStepWord % 512 * 8) = BitVec.ofNat 64 k)
     ∧ (∀ rid, ∃ t, exec (.hostAtomicop ⟨port, rid⟩ tag) s = .next t ∧ answers t (.unsupported rid tag))
     ∧ (∀ rid ro, rid < 65536 → takes false (barEntry (s.port port)) rid ro (.hostRead port rid false off n ro tag))
     ∧ (∀ node aper, takes true (peerEntry (s.port port) aper) (peerRid node) true (.peerRead port node aper off n tag)))
  ∧ (∀ (s : State) (tag r k : Nat) (q : OutRead) (data : List Byte), q.for_ = .engine r k →
     let gone := fun (t : State) => { t with outReads := t.outReads.filter fun x => x.tag != q.tag }
     let logged := fun (why : Nat) => match aget r s.recs with
       | some x => s.logFault 0xF7 x.ctx (if x.ctx = 0xFF then 0 else s.tenantOf x.ctx) x.die 0
           (((s.inst? x.inst).map fun n => n.serial).getD 0) q.pa why
       | none => s.logFault 0xF7 0xFF 0 0 0 0 q.pa why
     (s.outReads.find? (fun q => q.tag == tag && homeOf q.pa == .host) = some q →
       (data.length = q.n → exec (.hostReadCompletion tag .ok data) s = .next (engineInput (gone s) r k (data.map Stages.clean)))
       ∧ (∃ u, exec (.hostReadCompletion tag .unsupported data) s = .next (engineInput (gone u) r k (List.replicate q.n (Stages.clean 0xFF)))
           ∧ u = logged 1)
       ∧ (q.since + 80000000 ≤ s.cycle → ∃ u, exec (.hostReadTimeout tag) s =
           .next (engineInput (gone u) r k (List.replicate q.n (Stages.clean 0xFF))) ∧ u = logged 3))
     ∧ (s.outReads.find? (fun q => q.tag == tag && homeOf q.pa == .peer && q.via.isSome) = some q → data.length = q.n →
       exec (.peerAcknowledgement tag data) s = .next (engineInput (gone s) r k (data.map Stages.clean))))
  ∧ (∀ (s : State) (op : Nat) (data : List Byte),
     (s.outReads = [] → exec (.peerAcknowledgement op data) s =
       .next { s with outWrites := s.outWrites.filter fun w => !(w.id == op && w.via.isSome) })
     ∧ ∃ t, exec (.llynramResend op) s = .next t ∧ t.mem = s.mem ∧ t.outWrites.length = s.outWrites.length
         ∧ ∀ (j : Nat) (w : OutWrite), s.outWrites[j]? = some w → t.outWrites[j]? = some (if w.id = op ∧ w.via.isSome then { w with sends := w.sends + 1 } else w))
  ∧ (∀ (s : State) (entry : Nat) (w : OutWrite),
     let mine := fun (pa : Nat) => homeOf pa == .peer && (peerEntryOf pa).1 == entry
     w ∈ s.outWrites → mine w.pa = true → w.since + 16000000 ≤ s.cycle → (∀ r ∈ s.outReads, mine r.pa = false) →
     ∃ t e, exec (.peerUnreachable entry) s = .next t ∧ aget entry t.peers = some e ∧ e.down = true
       ∧ t.outWrites = s.outWrites.filter (fun w => !mine w.pa) ∧ t.mem = s.mem
       ∧ ∀ port, port < 2 →
           let p := s.port port
           if (p.msixWord 9).getLsbD 32 then (t.port port).msixPending.getLsbD 4 = true
           else (t.port port).msixSent.getLast? = some (4, p.msixWord 8, (p.msixWord 9).toNat % 2 ^ 32))
  ∧ (∀ (s : State) (port rid : Nat) (value addr : Word), port < 2 → rid < 65536 → barHeld s port rid = false →
     (∀ e, e < 256 → (agetD LtEntry.fresh e s.table).valid = false →
       exec (.bar0RegisterWrite port rid (0x40000 + 32 * e) 8 value) s = .next { s with
         table := aset e { agetD LtEntry.fresh e s.table with start := value } s.table })
     ∧ (∀ k, k < 4 → exec (.bar0RegisterWrite port rid (0x800 + 8 * k) 8 value) s = .next { s with
         fw := { s.fw with nonce := aset k value s.fw.nonce } })
     ∧ (∃ t, exec (.timebaseSrcWrite ⟨port, rid, 0, 8, value⟩) s = .next t ∧ t.time.src = value.setWidth 2 ∧ t.now = s.now
         ∧ (value.setWidth 2 = s.time.src → t = s)
         ∧ (value.setWidth 2 ≠ s.time.src → t.time.locked = false))
     ∧ exec (.ptmoffWrite ⟨port, rid, 0, 8, value⟩) s = .next { s with time := { s.time with ptmoff := value } }
     ∧ (addr.toNat % 64 = 0 →
         exec (.attestationRequest port rid addr) s = .next { s with fw := { s.fw with reportTo := some (port, addr) } })
     ∧ (s.fw.reportTo = some (port, addr) → addr.toNat % 64 = 0 → addr.toNat % 2 ^ 49 + 16896 ≤ 2 ^ 49 →
         let base := (if port = 0 then 0x8000000000000 else 0xA000000000000) + addr.toNat % 2 ^ 49
         ∃ t ws b, exec .attestationReportWrite s = .next t ∧ t.fw.reportTo = none ∧ t.mem = s.mem
           ∧ t.hostSeen = s.hostSeen ++ ws ++ [b] ∧ ws.map (fun w => (w.pa, w.data.length)) = tokensOf (base + 8) 16888 512
           ∧ (∀ w ∈ ws, w.data.length ≤ 512 ∧ w.ordered = false)
           ∧ (let bs := ws.flatMap fun w => w.data
              let field := fun (off n : Nat) => (bs.drop (off - 8)).take n
              bs.length = 16888 ∧ (∀ k, k < 4 → field (0x10 + 8 * k) 8 = leBytes 8 (agetD 0 k s.fw.nonce).toNat)
                ∧ field 0x30 8 = leBytes 8 s.now ∧ field 0xF8 8 = leBytes 8 s.fw.rollback
                ∧ field 0x100 4 = leBytes 4 0x47534942 ∧ field 0x104 4 = leBytes 4 0x4100)
           ∧ b.pa = base ∧ b.data = leBytes 8 0x5450455254415441 ∧ b.ordered = true))

/-! ## Pre-emption, saving and restoring, watchdogs -/

/-- R389: a running victim is ordered to stop; stopped at a boundary with its region done it starts its save, and when
the registers and the nest are written it is saved; an instance under a queue reset is left to that. R390: a region under the order stops, at once under DISCARD and
otherwise with no iteration in flight. R391, R392: a parked FE that must be saved is claimed, then written to its
place in the area and released. R397: a context without a region, its area good and its turn come, runs again in the
place found, with the registers of its area (the BYTES of the header at each stage are the model's choice, log 46).
R399: a save that has taken 2 ms is lost with LASTFAULT 0x28. R398: a watchdog that reaches its limit raises its
fault, and at a second expiry ends what it watches, once no block of it is bound or undecided (the model's choice of that moment, logs
28 and 121). R402, R403: the orders to stop and to save go as commands, a permit for each leaf, after their records in the
journal (when a command is acted on is the model's choice, log 68). -/
def Obligations.PreemptionSteps : Prop :=
  (∀ (s : State) (i : Nat) (n : Inst), s.inst? i = some n → n.life = .running → isVictim s i = true → underReset s i = false →
     canCommand s n.leaves = true →
     ∃ t n', exec (.contextPreempt i) s = .next t ∧ t.inst? i = some n' ∧ n'.life = .stopping
       ∧ n'.discard = recDiscard (recordOf s n) ∧ n'.saveFrom = s.cycle ∧ t.mem = s.mem
       ∧ (s.fw.journal.length + 1 + n.leaves.length ≤ 65536 → t.fw.journal.map (fun j => j.what) =
           s.fw.journal.map (fun j => j.what) ++ Decision.preempt i ::
             n.leaves.map fun l => .command l (s.leaf l).nextSeq (.stop i)))
  ∧ (∀ (s u : State) (i : Nat) (n : Inst), s.inst? i = some n → n.life = .stopping → n.ctl.blk = none →
     n.completed = false → n.ctl.savable = true → n.regDone = true → underReset s i = false →
     saveWrite s n 0 (headerBytes s n (recordOf s n) 0x01 0x100) = some u →
     exec (.contextPreempt i) s = .next (u.modInst i fun n => { n with life := .saving, bytes := 0x100 }))
  ∧ (∀ (s u : State) (i : Nat) (n m : Inst), s.inst? i = some n → n.life = .saving → underReset s i = false →
     saveWrite s n 0 (headerBytes s n (recordOf s n) 0x02 0x1000 ++ ctlBytes s n ++ nestBytes n) = some u →
     u.inst? i = some m →
     ∃ t n', exec (.contextPreempt i) s = .next t ∧ t.mem = u.mem ∧ t.inst? i = some n' ∧ n'.life = .saved
       ∧ n'.bytes = 0x1000 ∧ n'.slot = 4 ∧ ∀ x ∈ fesOf u i n, (t.fe x).parkedFor = some i)
  ∧ (∀ (s : State) (i : Nat) (n : Inst) (r : Region), s.inst? i = some n → n.life = .stopping → n.regDone = false →
     n.reg = some r →
     let stopped := fun (x : Instr) => ∃ t n' r', exec x s = .next t ∧ t.inst? i = some n' ∧ n'.regDone = true
       ∧ n'.reg = some r' ∧ r'.leave = none ∧ r'.iters = [] ∧ r'.nest = r.nest ∧ n'.ctl = n.ctl
     (n.discard = true → stopped (.regionStopDiscard i)) ∧ (n.discard = false → r.iters = [] → stopped (.regionStopFinish i)))
  ∧ (∀ (s : State) (i x : Nat) (n : Inst) (fe : FeAt), s.inst? i = some n → s.feOf i fe = some x → n.life = .saved →
     (s.fe x).parkedFor = some i → mustSave s x = true →
     ((s.fe x).claimedAt = none → canCommand s [leafOfFe x] = true →
       ∃ t, exec (.feLazySave i fe) s = .next t ∧ (t.fe x).claimedAt = some s.cycle ∧ t.mem = s.mem
         ∧ (s.fw.journal.length + 2 ≤ 65536 → t.fw.journal.map (fun j => j.what) = s.fw.journal.map (fun j => j.what) ++
             [Decision.claim i x, .command (leafOfFe x) (s.leaf (leafOfFe x)).nextSeq (.save [x])]))
     ∧ (∀ (q u v : State) (t₀ : Nat) (ps : List Piece), (s.fe x).claimedAt = some t₀ → s.asleep (shelfKey x 0) = false →
         let off := feSlotOff (recordOf s n) fe.c fe.w
         let bs := feRecord (s.fe x) ++ extensionBytes (s.fe x)
         let copied := copyShelf q x ps true
         xlateNow s (dieOfCore n.cluster) n.ctx (saveBase (recordOf s n) n.pos + BitVec.ofNat 64 off) 0x8000 1
           (moduleAccess true) = (q, .ok ps) →
         saveWrite copied n (off + 0x8000) bs = some u →
         saveWrite u n 0x38 (leBytes 8 (n.bytes + 0x8000 + bs.length)) = some v →
         ((∀ p ∈ ps, barrierWaiters q p.key p.n = []) → copied.mem = (ps.foldl (fun (a : Memory × Nat) p =>
             (a.1.writeN p.key (a.1.readN (shelfKey x a.2) p.n), a.2 + p.n)) (q.mem, 0)).1)
         ∧ ∃ t, exec (.feLazySave i fe) s = .next t ∧ t.mem = v.mem ∧ (t.fe x).parkedFor = none ∧ (t.fe x).run = none))
  ∧ (∀ (s u w : State) (i : Nat) (n m : Inst) (p : Spot) (area : List Byte), s.inst? i = some n → n.life = .saved →
     schedPaused s = false → outboundEmpty s i = true → restoreTurn s i n = true → readArea s n = (u, .ok area) →
     headerAgrees u n (recordOf u n) area = true → restoreSpot u i n area = some (p, false) → n.reg = none → p.rect = none →
     n.kept = [] → areaWord area 0x18 = 0 → canCommand u [p.core] = true →
     saveWrite (command (.restore i) u p.core) n 0x0F [0x03] = some w → w.inst? i = some m → m.reg = none →
     ∃ t n', exec (.restore i) s = .next t ∧ t.mem = w.mem ∧ t.inst? i = some n' ∧ n'.life = .running
       ∧ n'.cluster = p.core ∧ n'.slot = p.slot ∧ n'.ctl = savedCtl area m.ctl ∧ n'.kept = [] ∧ (t.core p.core).cache = [])
  ∧ (∀ (s : State) (i : Nat) (n : Inst), s.inst? i = some n → (n.life = .stopping ∨ n.life = .saving) →
     n.saveFrom + 3200000 ≤ s.cycle → underReset s i = false → n.settled s i = true →
     ∃ t n', exec (.saveTimeout i) s = .next t ∧ t.inst? i = some n' ∧ n'.life = .ended ∧ n'.faultEnd = some 0x28
       ∧ n'.ctl.blk = none)
  ∧ (∀ (s : State) (i : Nat) (n : Inst), s.inst? i = some n → n.life = .running → n.completed = false →
     (watchLimit s n ≤ n.ctl.watch → n.ctl.expired = false → n.ctl.async.length < 16 →
       ∃ t n', exec (.watchdog i false) s = .next t ∧ t.mem = s.mem ∧ t.inst? i = some n' ∧ n'.life = .running
         ∧ n'.ctl = { n.ctl with expired := true, watch := 0, async := n.ctl.async ++ [(⟨0x28, 0, 0xC4, 0, some 0, none, 0⟩ : TrapInfo)] })
     ∧ (∀ r, n.reg = some r → r.phase = .running → watchLimit s n ≤ r.watch → r.expired = false →
       ∃ t n' r', exec (.watchdog i true) s = .next t ∧ t.inst? i = some n' ∧ n'.reg = some r' ∧ r'.phase = .idle
         ∧ r'.expired = true ∧ r'.leave = none ∧ n'.life = .running)
     ∧ (watchLimit s n ≤ n.ctl.watch → n.ctl.expired = true → n.settled s i = true →
       ∃ t n', exec (.watchdog i false) s = .next t ∧ t.inst? i = some n' ∧ n'.life = .ended ∧ n'.faultEnd = some 0x28))

/-! ## Firmware, the time base and the calendar -/

/-- R405, R406: bring-up whose images all verify leaves the module up with no context and every byte reading 0; one that does
not verify, or is missing, stops it at step 1. R2, R406: of a cluster's nine physical columns the logical eight leave out
the one with a defective FE (with several, one of them: the model's choice, log 123). R13, R129: a context is created with its descriptor; one that runs nothing is destroyed, and
nothing stays under its number. R261, R275, R282, R364, R366, R376, R387, R416: what firmware grants, assigns or marks stands
where the rule says; the leave pools keep to the module's budget. R159, R160, R375: before the first lock a measurement ahead
steps NOW to the source and locks; afterwards NOW is slewed; a source lost gives HOLDOVER, and vector 3 when it had a lock (R155). R367: past its limit the borrowers of a reserved rectangle stop.
R369, R370: a slot's owner sends first; else the slot is lent in rotation (which packets are ready is log 57, DEDUCED; the
layout of the MSI-X table is log 88, PRESUMED; when the log is full, log 24, DEDUCED). R402 to R404: the heartbeat, the takeover by the
standby, a command, journalled first and acted on once (in the same step: the model's choice, log 68), and its
acknowledgement. -/
def Obligations.FirmwareSteps : Prop :=
  (∀ (s : State) (b : BringUpInput), s.bringup = .off →
     (firmwareOk b = true → ∃ t, exec (.bringUp b) s = .next t ∧ t.bringup = .up ∧ t.contexts = []
       ∧ t.insts = [] ∧ t.launches = [] ∧ t.chans = [] ∧ (∀ a, t.mem.read a = 0) ∧ t.fw.rollback = b.rollback
       ∧ ∀ c w, c < 384 → w < 128 →
           let spared := sparedColumn b.defects (coreOfFe c w)
           let column := if c % 8 < spared then c % 8 else c % 8 + 1
           (feIndex c w ∈ t.defects ↔ (coreOfFe c w * 9 + column) * 8 + w % 8 ∈ b.defects))
     ∧ (firmwareOk b = false → exec (.bringUp b) s = .next { s with bringup := .failed 1 }))
  ∧ (∀ (s : State) (ctx : BitVec 8) (d : CtxDesc),
     (descOk s d = true → ∃ t c, exec (.contextCreate ctx d) s = .next t ∧ aget ctx.toNat t.contexts = some c ∧ c.desc = d
       ∧ t.mem = s.mem ∧ (∀ x ∈ t.tlb, x.ctx ≠ ctx.toNat) ∧ ∀ k, k ≠ ctx.toNat → aget k t.contexts = aget k s.contexts)
     ∧ ((aget ctx.toNat s.contexts).isSome = true → ctxIdle s ctx.toNat = true →
       ∃ t, exec (.contextDestroy ctx) s = .next t ∧ t.contexts = adel ctx.toNat s.contexts
         ∧ (∀ x ∈ t.tlb, x.ctx ≠ ctx.toNat) ∧ (∀ x ∈ t.store, x.ctx ≠ ctx.toNat) ∧ t.insts.map (·.1) = s.insts.map (·.1)))
  ∧ (∀ s : State,
     (∀ core sem owner, core < 768 → sem < 64 → (aget (owner : BitVec 8).toNat s.contexts).isSome = true →
       (s.sem core sem).owner = none → ∃ t, exec (.firmwareGrant (.semaphore core sem owner)) s = .next t
         ∧ t.sem core sem = { Sem.fresh with owner := some owner } ∧ t.mem = s.mem
         ∧ ∀ c j, c ≠ core ∨ j ≠ sem → t.sem c j = s.sem c j)
     ∧ (∀ die g tenant, die < 8 → g < 2 → ∃ t l, exec (.firmwareGrant (.laneGroup die g tenant)) s = .next t
         ∧ aget (die * 2 + g) t.lanes = some l ∧ l.tenant = some tenant ∧ t.mem = s.mem)
     ∧ (∀ c tenant, c < 768 → ∃ t, exec (.firmwareGrant (.clusterCounters c tenant)) s = .next t
         ∧ t.core c = { s.core c with ctenant := some tenant })
     ∧ (∀ d units, d < 8 → poolSum s - (s.die d).pool + units ≤ 7840000 →
         ∃ t, exec (.firmwareGrant (.leavePool d units)) s = .next t ∧ t.die d = { s.die d with pool := units })
     ∧ (∀ d units, 7840000 < poolSum s - (s.die d).pool + units → exec (.firmwareGrant (.leavePool d units)) s = .next s)
     ∧ (∀ tenant n, ∃ t, exec (.firmwareGrant (.quota tenant n)) s = .next t
         ∧ t.tenant tenant.toNat = { s.tenant tenant.toNat with quota0 := n })
     ∧ (∀ col row, col < 384 → row < 128 → ∃ t, exec (.feMarkDefective col row) s = .next t ∧ feIndex col row ∈ t.defects
         ∧ t.mem = s.mem ∧ t.insts = s.insts)
     ∧ (∀ e w0 w1, e < 1024 → exec (.firmwareTableWrite (.peer e w0 w1)) s =
         .next { s with peers := aset e ⟨w0 &&& 0x8FFFFFFFFFFFFFFF, w1 &&& 0xF, false⟩ s.peers })
     ∧ (∀ port k w0 w1 w2, port < 2 → k < 16 → ∃ t, exec (.firmwareTableWrite (.aperture port k w0 w1 w2)) s = .next t
         ∧ aget k (t.port port).apertures = some ⟨w0 &&& 0x80FFE00000000000, w1, w2⟩ ∧ t.mem = s.mem))
  ∧ (∀ (s : State) (tai ptm : Word) (port : Nat) (x : Instr),
     (x = .ptpMessage tai ∧ s.time.src = 1
       ∨ x = .ptmExchange port ptm ∧ tai = ptm + s.time.ptmoff ∧ (s.time.src = 2 ∧ port = 0 ∨ s.time.src = 3 ∧ port = 1)) →
     let off := (tai - BitVec.ofNat 64 s.now).toInt
     (s.time.everlock = false → 0 ≤ off → ∃ t, exec x s = .next t ∧ t.now = tai.toNat ∧ t.time.locked = true
       ∧ t.time.everlock = true ∧ t.time.slew = 0 ∧ t.mem = s.mem)
     ∧ (s.time.everlock = true → ∃ t, exec x s = .next t ∧ t.now = s.now ∧ t.time.slew = 8 * off
       ∧ t.time.locked = (decide (-100 ≤ off) && decide (off ≤ 100)) ∧ t.table = s.table ∧ t.mem = s.mem))
  ∧ (∀ s : State, s.time.everlock = true → s.time.src ≠ 0 → s.time.holdover = false →
     ∃ t, exec .timebaseSourceLost s = .next t ∧ t.time = { s.time with holdover := true, locked := false, slew := 0 }
       ∧ ∀ port, port < 2 →
           let p := s.port port
           if s.time.locked = false then (t.port port).msixSent = p.msixSent ∧ (t.port port).msixPending = p.msixPending
           else if (p.msixWord 7).getLsbD 32 then (t.port port).msixPending.getLsbD 3 = true
           else (t.port port).msixSent = p.msixSent ++ [(3, p.msixWord 6, (p.msixWord 7).toNat % 2 ^ 32)])
  ∧ (∀ (s : State) (tenant : BitVec 4) (r o : Rect) (i : Nat) (n : Inst), (s.tenant tenant.toNat).reserved = some r →
     borrowLimitCycles ≤ borrowedTime s tenant.toNat → s.inst? i = some n → n.life = .running →
     s.tenantOf n.ctx ≠ tenant.toNat → n.rect = some o → rectMeets o r = true → n.completed = false →
     canCommand s n.leaves = true → (∀ x ∈ s.insts, x.2.life = .running → x.1 ≠ i → ∀ l ∈ x.2.leaves, l ∉ n.leaves) →
     ∃ t n', exec (.borrowLimit tenant) s = .next t ∧ t.inst? i = some n' ∧ n'.life = .stopping ∧ n'.discard = true)
  ∧ (∀ (s : State) (die port : Nat) (ready : List Packet) (p : Packet), die < 8 →
     agetD 0 port (s.die die).served ≤ s.cycle / 4 →
     let e := s.calendar.toList.getD (s.cycle / 4 % 64) 0
     let own := ready.filter fun p => e.getLsbD 7 && !p.firmware && p.tenant == e.setWidth 4
     (firstPacket own = some p → ∃ t, exec (.calendarSlot die port ready) s = .next t
       ∧ (t.die die).forwarded = some (port, p) ∧ agetD 0 port (t.die die).served = s.cycle / 4 + 1
       ∧ (t.die die).rotation = (s.die die).rotation)
     ∧ (∀ k, own = [] → (s.die die).paced.contains port = false → lendTo (agetD 0 port (s.die die).rotation) ready = some k →
       firstPacket (ready.filter fun p => lendKey p == k) = some p →
       ∃ t, exec (.calendarSlot die port ready) s = .next t ∧ (t.die die).forwarded = some (port, p)
         ∧ agetD 0 port (t.die die).served = s.cycle / 4 + 1 ∧ agetD 0 port (t.die die).rotation = (k + 1) % 17))
  ∧ (∀ s : State,
     (schedPaused s = false → s.fw.lastBeat + 2048 ≤ s.cycle → exec .heartbeat s = .next { s with fw := { s.fw with lastBeat := s.cycle } })
     ∧ (s.fw.standby = true → s.fw.lastBeat + 32768 ≤ s.cycle → ∃ t, exec .standbyTakeover s = .next t
         ∧ t.fw.sched = .standby ∧ t.fw.standby = false ∧ t.fw.lastBeat = s.cycle ∧ (s.flaws = [] → t.mem = s.mem)
         ∧ (∀ c l, aget c s.fw.leaves = some l → aget c t.fw.leaves = some { l with wire := l.sent })
         ∧ (s.flaws = [] → s.log.used + 2 ≤ 16382 → t.log.used = s.log.used + 2)))
  ∧ (∀ (s : State) (c : Nat), c < 768 →
     let l := agetD LeafState.fresh c s.fw.leaves
     (l.wire = [] → canCommand s [c] = true → ∃ t l', exec (.leafCommand c) s = .next t ∧ aget c t.fw.leaves = some l'
       ∧ l'.permits = l.permits - 1 ∧ l'.nextSeq = l.nextSeq + 1 ∧ l'.sent = l.sent ++ [l.nextSeq] ∧ l'.wire = []
       ∧ l'.acks = l.acks ++ [l.nextSeq] ∧ l.nextSeq ∈ l'.acted
       ∧ (s.fw.journal.length < 65536 →
           t.fw.journal.map (fun j => j.what) = s.fw.journal.map (fun j => j.what) ++ [Decision.command c l.nextSeq .other]))
     ∧ (∀ q rest, l.wire = q :: rest → ∃ t, exec (.leafCommand c) s = .next t ∧ aget c t.fw.leaves = some { l with
         wire := rest, acks := l.acks ++ [q], acted := if q ∈ l.acted then l.acted else l.acted ++ [q] })
     ∧ (∀ q rest, l.acks = q :: rest → ∃ t l', exec (.leafAck c) s = .next t ∧ aget c t.fw.leaves = some l' ∧ l'.acks = rest
         ∧ l'.permits = (if q ∈ l.sent then l.permits + 1 else l.permits) ∧ l'.sent = l.sent.filter (fun x => x != q)))
end

