-- ==== Sys2Proof/Laws/Memory.lean ====
section
/-! SUPPORT. Laws of tables by key and of memory: read after write, and the canonical form that every memory operation
keeps. -/

namespace Sys2Proof.Machine

/-! ## Tables -/

@[simp] theorem aget_nil {α : Type} (k : Nat) : aget k ([] : Assoc α) = none := rfl

/-- A table set at a key holds that value there. -/
@[simp] theorem aget_aset_self {α : Type} (k : Nat) (a : α) (m : Assoc α) : aget k (aset k a m) = some a := by
  induction m with
  | nil => simp [aset, aget]
  | cons x m ih =>
    obtain ⟨j, b⟩ := x
    simp only [aset]
    split
    · simp [aget]
    · split
      · simp [aget]
      · rename_i h1 h2
        simp [aget, Ne.symm h2, ih]

/-- A table set at a key is unchanged at every other key. -/
theorem aget_aset_ne {α : Type} (k l : Nat) (a : α) (m : Assoc α) (h : l ≠ k) : aget l (aset k a m) = aget l m := by
  induction m with
  | nil => simp [aset, aget, Ne.symm h]
  | cons x m ih =>
    obtain ⟨j, b⟩ := x
    simp only [aset]
    split
    · simp [aget, Ne.symm h]
    · split
      · rename_i h1 h2
        subst h2
        simp [aget, Ne.symm h]
      · simp only [aget, ih]

/-- A table changed at a key. -/
theorem aget_amod {α : Type} (k l : Nat) (f : α → α) (m : Assoc α) :
    aget l (amod k f m) = if l = k then (aget k m).map f else aget l m := by
  induction m with
  | nil => simp [amod, aget]
  | cons x m ih =>
    obtain ⟨j, b⟩ := x
    simp only [amod]
    split
    · rename_i h
      subst h
      by_cases hl : l = j
      · simp [aget, hl]
      · simp [aget, hl, Ne.symm hl]
    · rename_i h
      by_cases hl : l = k
      · subst hl
        simp only [aget, ih]
        simp [h]
      · simp only [aget, ih]
        simp [hl]

@[simp] theorem aget_amod_self {α : Type} (k : Nat) (f : α → α) (m : Assoc α) :
    aget k (amod k f m) = (aget k m).map f := by simp [aget_amod]

/-- A table deleted at a key is unchanged at every other key. -/
theorem aget_adel_ne {α : Type} (k l : Nat) (m : Assoc α) (h : l ≠ k) : aget l (adel k m) = aget l m := by
  induction m with
  | nil => rfl
  | cons x m ih =>
    obtain ⟨j, b⟩ := x
    simp only [adel]
    split
    · rename_i hj
      subst hj
      simp [aget, Ne.symm h]
    · simp only [aget, ih]

/-- Keys that rise from a higher floor rise from a lower one. -/
theorem rising_weaken {α : Type} (lo lo' : Nat) (m : Assoc α) (h : lo ≤ lo') (hr : Assoc.rising (some lo') m = true) :
    Assoc.rising (some lo) m = true := by
  cases m with
  | nil => rfl
  | cons x m =>
    obtain ⟨j, b⟩ := x
    simp only [Assoc.rising, Bool.and_eq_true, decide_eq_true_eq] at hr ⊢
    exact ⟨by omega, hr.2⟩

/-- Keys below the floor of a rising table are not listed. -/
theorem aget_rising {α : Type} (lo k : Nat) (m : Assoc α) (h : k ≤ lo) (hr : Assoc.rising (some lo) m = true) :
    aget k m = none := by
  induction m generalizing lo with
  | nil => rfl
  | cons x m ih =>
    obtain ⟨j, b⟩ := x
    simp only [Assoc.rising, Bool.and_eq_true, decide_eq_true_eq] at hr
    simp only [aget]
    rw [if_neg (by omega)]
    exact ih j (by omega) hr.2

theorem rising_aset {α : Type} (k : Nat) (a : α) (m : Assoc α) (lo : Nat) (h : lo < k)
    (hr : Assoc.rising (some lo) m = true) : Assoc.rising (some lo) (aset k a m) = true := by
  induction m generalizing lo with
  | nil => simp [aset, Assoc.rising, h]
  | cons x m ih =>
    obtain ⟨j, b⟩ := x
    simp only [Assoc.rising, Bool.and_eq_true, decide_eq_true_eq] at hr
    simp only [aset]
    split
    · rename_i hk
      simp [Assoc.rising, h, hk, hr.2]
    · split
      · rename_i hk
        subst hk
        simp [Assoc.rising, h, hr.2]
      · rename_i h1 h2
        simp [Assoc.rising, hr.1, ih j (by omega) hr.2]

theorem rising_adel {α : Type} (k : Nat) (m : Assoc α) (lo : Nat) (hr : Assoc.rising (some lo) m = true) :
    Assoc.rising (some lo) (adel k m) = true := by
  induction m generalizing lo with
  | nil => rfl
  | cons x m ih =>
    obtain ⟨j, b⟩ := x
    simp only [Assoc.rising, Bool.and_eq_true, decide_eq_true_eq] at hr
    simp only [adel]
    split
    · exact rising_weaken lo j m (by omega) hr.2
    · simp [Assoc.rising, hr.1, ih j hr.2]

theorem rising_filter {α : Type} (p : Nat × α → Bool) (m : Assoc α) (lo : Nat) (hr : Assoc.rising (some lo) m = true) :
    Assoc.rising (some lo) (m.filter p) = true := by
  induction m generalizing lo with
  | nil => rfl
  | cons x m ih =>
    obtain ⟨j, b⟩ := x
    simp only [Assoc.rising, Bool.and_eq_true, decide_eq_true_eq] at hr
    by_cases hp : p (j, b)
    · simp [List.filter, hp, Assoc.rising, hr.1, ih j hr.2]
    · simp only [List.filter, hp]
      exact rising_weaken lo j _ (by omega) (ih j hr.2)

/-- A table that rises from no floor: each operation on tables keeps it. -/
theorem rising_none {α : Type} (m : Assoc α) :
    Assoc.rising none m = match m with
      | [] => true
      | (k, _) :: m => Assoc.rising (some k) m := by
  cases m with
  | nil => rfl
  | cons x m => rfl

theorem rising_none_aset {α : Type} (k : Nat) (a : α) (m : Assoc α) (hr : Assoc.rising none m = true) :
    Assoc.rising none (aset k a m) = true := by
  cases m with
  | nil => rfl
  | cons x m =>
    obtain ⟨j, b⟩ := x
    simp only [aset]
    split
    · rename_i h
      simpa [Assoc.rising, h] using hr
    · split
      · rename_i h
        subst h
        simpa [Assoc.rising] using hr
      · rename_i h1 h2
        exact rising_aset k a m j (by omega) (by simpa [Assoc.rising] using hr)

theorem rising_none_adel {α : Type} (k : Nat) (m : Assoc α) (hr : Assoc.rising none m = true) :
    Assoc.rising none (adel k m) = true := by
  cases m with
  | nil => rfl
  | cons x m =>
    obtain ⟨j, b⟩ := x
    simp only [adel]
    split
    · cases m with
      | nil => rfl
      | cons y m =>
        obtain ⟨l, c⟩ := y
        simp only [Assoc.rising, Bool.and_eq_true, decide_eq_true_eq] at hr ⊢
        exact hr.2
    · exact rising_adel k m j (by simpa [Assoc.rising] using hr)

theorem rising_none_filter {α : Type} (p : Nat × α → Bool) (m : Assoc α) (hr : Assoc.rising none m = true) :
    Assoc.rising none (m.filter p) = true := by
  induction m with
  | nil => rfl
  | cons x m ih =>
    obtain ⟨j, b⟩ := x
    have hj : Assoc.rising (some j) m = true := by simpa [Assoc.rising] using hr
    have hm : Assoc.rising none m = true := by
      cases m with
      | nil => rfl
      | cons y m =>
        obtain ⟨l, c⟩ := y
        simp only [Assoc.rising, Bool.and_eq_true, decide_eq_true_eq] at hj ⊢
        exact hj.2
    by_cases hp : p (j, b)
    · simp only [List.filter, hp, Assoc.rising]
      exact rising_filter p m j hj
    · simp only [List.filter, hp]
      exact ih hm

/-! ## Memory -/

/-- A byte written is read back. -/
@[simp] theorem Memory.read_write_self (m : Memory) (a : Nat) (b : Byte) (h : m.wf = true) : (m.write a b).read a = b := by
  simp only [Memory.write]
  split
  · rename_i hb
    subst hb
    simp only [Memory.read, agetD]
    suffices aget a (adel a m) = none by simp [this]
    have hr : Assoc.rising none m = true := by
      simp only [Memory.wf, Bool.and_eq_true] at h
      exact h.1
    clear h
    induction m with
    | nil => rfl
    | cons x m ih =>
      obtain ⟨j, c⟩ := x
      have hj : Assoc.rising (some j) m = true := by simpa [Assoc.rising] using hr
      simp only [adel]
      split
      · rename_i hja
        exact aget_rising j a m (by omega) hj
      · rename_i hja
        simp only [aget, hja, if_false]
        apply ih
        cases m with
        | nil => rfl
        | cons y m =>
          obtain ⟨l, d⟩ := y
          simp only [Assoc.rising, Bool.and_eq_true, decide_eq_true_eq] at hj ⊢
          exact hj.2
  · simp [Memory.read, agetD]

/-- Every other byte reads as before. -/
theorem Memory.read_write_ne (m : Memory) (a a' : Nat) (b : Byte) (h : a' ≠ a) : (m.write a b).read a' = m.read a' := by
  simp only [Memory.write]
  split
  · simp [Memory.read, agetD, aget_adel_ne a a' m h]
  · simp [Memory.read, agetD, aget_aset_ne a a' b m h]

theorem all_adel {α : Type} (p : Nat × α → Bool) (k : Nat) (m : Assoc α) (h : m.all p = true) : (adel k m).all p = true := by
  induction m with
  | nil => rfl
  | cons x m ih =>
    obtain ⟨j, b⟩ := x
    simp only [List.all_cons, Bool.and_eq_true] at h
    simp only [adel]
    split
    · exact h.2
    · simp [List.all_cons, h.1, ih h.2]

theorem all_aset {α : Type} (p : Nat × α → Bool) (k : Nat) (a : α) (m : Assoc α) (ha : p (k, a) = true)
    (h : m.all p = true) : (aset k a m).all p = true := by
  induction m with
  | nil => simp [aset, ha]
  | cons x m ih =>
    obtain ⟨j, b⟩ := x
    simp only [List.all_cons, Bool.and_eq_true] at h
    simp only [aset]
    split
    · simp [List.all_cons, ha, h.1, h.2]
    · split
      · simp [List.all_cons, ha, h.2]
      · simp [List.all_cons, h.1, ih h.2]

/-- A byte's write keeps the canonical form. -/
theorem Memory.wf_write (m : Memory) (a : Nat) (b : Byte) (h : m.wf = true) : (m.write a b).wf = true := by
  simp only [Memory.wf, Bool.and_eq_true] at h
  simp only [Memory.write]
  split
  · simp only [Memory.wf, Bool.and_eq_true]
    exact ⟨rising_none_adel a m h.1, all_adel _ a m h.2⟩
  · rename_i hb
    simp only [Memory.wf, Bool.and_eq_true]
    exact ⟨rising_none_aset a b m h.1, all_aset _ a b m (by simpa using hb) h.2⟩

/-- A run's write keeps the canonical form. -/
theorem Memory.wf_writeN (m : Memory) (a : Nat) (bs : List Byte) (h : m.wf = true) : (m.writeN a bs).wf = true := by
  induction bs generalizing m a with
  | nil => exact h
  | cons b bs ih => exact ih _ _ (Memory.wf_write m a b h)

/-- Cells left out keep the canonical form. -/
theorem Memory.wf_filter (m : Memory) (p : Host.Cell → Bool) (h : m.wf = true) : Memory.wf (m.filter p) = true := by
  simp only [Memory.wf, Bool.and_eq_true] at h ⊢
  refine ⟨rising_none_filter p m h.1, ?_⟩
  simp only [List.all_eq_true, List.mem_filter] at h ⊢
  exact fun x hx => h.2 x hx.1

/-- Cells written one after another keep the canonical form. -/
theorem Memory.wf_foldl {α : Type} (f : α → Nat × Byte) (l : List α) (m : Memory) (h : m.wf = true) :
    Memory.wf (l.foldl (fun m c => Memory.write m (f c).1 (f c).2) m) = true := by
  induction l generalizing m with
  | nil => exact h
  | cons c l ih => exact ih _ (Memory.wf_write m _ _ h)

/-- A byte outside a run's write reads as before. -/
theorem Memory.read_writeN_outside (m : Memory) (a a' : Nat) (bs : List Byte) (h : a' < a ∨ a + bs.length ≤ a') :
    (m.writeN a bs).read a' = m.read a' := by
  induction bs generalizing m a with
  | nil => rfl
  | cons b bs ih =>
    simp only [List.length_cons] at h
    simp only [Memory.writeN]
    rw [ih _ _ (by omega), Memory.read_write_ne _ _ _ _ (by omega)]

/-- A run written reads back. -/
theorem Memory.readN_writeN (m : Memory) (a : Nat) (bs : List Byte) (h : m.wf = true) :
    (m.writeN a bs).readN a bs.length = bs := by
  induction bs generalizing m a with
  | nil => rfl
  | cons b bs ih =>
    simp only [List.length_cons, Memory.writeN, Memory.readN]
    rw [ih _ _ (Memory.wf_write m a b h), Memory.read_writeN_outside _ _ _ _ (by omega), Memory.read_write_self m a b h]

/-- Memory at reset is canonical. -/
theorem reset_wf : Memory.wf State.reset.mem = true := rfl

end Sys2Proof.Machine
end

