-- ==== Sys2Proof/Laws/State.lean ====
section
/-! SUPPORT. What each named update of State leaves alone, one lemma a field, and what reading the updated table gives. -/

namespace Sys2Proof.Machine

/-! ## State.modInst -/

@[simp] theorem State.modInst_agenda (s : State) (i : Nat) (f : Inst → Inst) : (s.modInst i f).agenda = s.agenda := rfl
@[simp] theorem State.modInst_cur (s : State) (i : Nat) (f : Inst → Inst) : (s.modInst i f).cur = s.cur := rfl
@[simp] theorem State.modInst_fresh (s : State) (i : Nat) (f : Inst → Inst) : (s.modInst i f).fresh = s.fresh := rfl
@[simp] theorem State.modInst_bringup (s : State) (i : Nat) (f : Inst → Inst) : (s.modInst i f).bringup = s.bringup := rfl
@[simp] theorem State.modInst_cycle (s : State) (i : Nat) (f : Inst → Inst) : (s.modInst i f).cycle = s.cycle := rfl
@[simp] theorem State.modInst_mem (s : State) (i : Nat) (f : Inst → Inst) : (s.modInst i f).mem = s.mem := rfl
@[simp] theorem State.modInst_poison (s : State) (i : Nat) (f : Inst → Inst) : (s.modInst i f).poison = s.poison := rfl
@[simp] theorem State.modInst_flaws (s : State) (i : Nat) (f : Inst → Inst) : (s.modInst i f).flaws = s.flaws := rfl
@[simp] theorem State.modInst_writebacks (s : State) (i : Nat) (f : Inst → Inst) : (s.modInst i f).writebacks = s.writebacks := rfl
@[simp] theorem State.modInst_retention (s : State) (i : Nat) (f : Inst → Inst) : (s.modInst i f).retention = s.retention := rfl
@[simp] theorem State.modInst_defects (s : State) (i : Nat) (f : Inst → Inst) : (s.modInst i f).defects = s.defects := rfl
@[simp] theorem State.modInst_contexts (s : State) (i : Nat) (f : Inst → Inst) : (s.modInst i f).contexts = s.contexts := rfl
@[simp] theorem State.modInst_gens (s : State) (i : Nat) (f : Inst → Inst) : (s.modInst i f).gens = s.gens := rfl
@[simp] theorem State.modInst_tenants (s : State) (i : Nat) (f : Inst → Inst) : (s.modInst i f).tenants = s.tenants := rfl
@[simp] theorem State.modInst_tlb (s : State) (i : Nat) (f : Inst → Inst) : (s.modInst i f).tlb = s.tlb := rfl
@[simp] theorem State.modInst_walks (s : State) (i : Nat) (f : Inst → Inst) : (s.modInst i f).walks = s.walks := rfl
@[simp] theorem State.modInst_outb (s : State) (i : Nat) (f : Inst → Inst) : (s.modInst i f).outb = s.outb := rfl
@[simp] theorem State.modInst_cores (s : State) (i : Nat) (f : Inst → Inst) : (s.modInst i f).cores = s.cores := rfl
@[simp] theorem State.modInst_launches (s : State) (i : Nat) (f : Inst → Inst) : (s.modInst i f).launches = s.launches := rfl
@[simp] theorem State.modInst_pushes (s : State) (i : Nat) (f : Inst → Inst) : (s.modInst i f).pushes = s.pushes := rfl
@[simp] theorem State.modInst_resets (s : State) (i : Nat) (f : Inst → Inst) : (s.modInst i f).resets = s.resets := rfl
@[simp] theorem State.modInst_resetSerial (s : State) (i : Nat) (f : Inst → Inst) : (s.modInst i f).resetSerial = s.resetSerial := rfl
@[simp] theorem State.modInst_launchSeq (s : State) (i : Nat) (f : Inst → Inst) : (s.modInst i f).launchSeq = s.launchSeq := rfl
@[simp] theorem State.modInst_fes (s : State) (i : Nat) (f : Inst → Inst) : (s.modInst i f).fes = s.fes := rfl
@[simp] theorem State.modInst_store (s : State) (i : Nat) (f : Inst → Inst) : (s.modInst i f).store = s.store := rfl
@[simp] theorem State.modInst_chans (s : State) (i : Nat) (f : Inst → Inst) : (s.modInst i f).chans = s.chans := rfl
@[simp] theorem State.modInst_reports (s : State) (i : Nat) (f : Inst → Inst) : (s.modInst i f).reports = s.reports := rfl
@[simp] theorem State.modInst_detect (s : State) (i : Nat) (f : Inst → Inst) : (s.modInst i f).detect = s.detect := rfl
@[simp] theorem State.modInst_reserves (s : State) (i : Nat) (f : Inst → Inst) : (s.modInst i f).reserves = s.reserves := rfl
@[simp] theorem State.modInst_recs (s : State) (i : Nat) (f : Inst → Inst) : (s.modInst i f).recs = s.recs := rfl
@[simp] theorem State.modInst_lanes (s : State) (i : Nat) (f : Inst → Inst) : (s.modInst i f).lanes = s.lanes := rfl
@[simp] theorem State.modInst_leaves (s : State) (i : Nat) (f : Inst → Inst) : (s.modInst i f).leaves = s.leaves := rfl
@[simp] theorem State.modInst_dies (s : State) (i : Nat) (f : Inst → Inst) : (s.modInst i f).dies = s.dies := rfl
@[simp] theorem State.modInst_time (s : State) (i : Nat) (f : Inst → Inst) : (s.modInst i f).time = s.time := rfl
@[simp] theorem State.modInst_table (s : State) (i : Nat) (f : Inst → Inst) : (s.modInst i f).table = s.table := rfl
@[simp] theorem State.modInst_calendar (s : State) (i : Nat) (f : Inst → Inst) : (s.modInst i f).calendar = s.calendar := rfl
@[simp] theorem State.modInst_links (s : State) (i : Nat) (f : Inst → Inst) : (s.modInst i f).links = s.links := rfl
@[simp] theorem State.modInst_bounds (s : State) (i : Nat) (f : Inst → Inst) : (s.modInst i f).bounds = s.bounds := rfl
@[simp] theorem State.modInst_ports (s : State) (i : Nat) (f : Inst → Inst) : (s.modInst i f).ports = s.ports := rfl
@[simp] theorem State.modInst_peers (s : State) (i : Nat) (f : Inst → Inst) : (s.modInst i f).peers = s.peers := rfl
@[simp] theorem State.modInst_outReads (s : State) (i : Nat) (f : Inst → Inst) : (s.modInst i f).outReads = s.outReads := rfl
@[simp] theorem State.modInst_outWrites (s : State) (i : Nat) (f : Inst → Inst) : (s.modInst i f).outWrites = s.outWrites := rfl
@[simp] theorem State.modInst_hostSeen (s : State) (i : Nat) (f : Inst → Inst) : (s.modInst i f).hostSeen = s.hostSeen := rfl
@[simp] theorem State.modInst_log (s : State) (i : Nat) (f : Inst → Inst) : (s.modInst i f).log = s.log := rfl
@[simp] theorem State.modInst_fw (s : State) (i : Nat) (f : Inst → Inst) : (s.modInst i f).fw = s.fw := rfl

/-! ## State.modCtl -/

@[simp] theorem State.modCtl_agenda (s : State) (i : Nat) (f : Ctl → Ctl) : (s.modCtl i f).agenda = s.agenda := rfl
@[simp] theorem State.modCtl_cur (s : State) (i : Nat) (f : Ctl → Ctl) : (s.modCtl i f).cur = s.cur := rfl
@[simp] theorem State.modCtl_fresh (s : State) (i : Nat) (f : Ctl → Ctl) : (s.modCtl i f).fresh = s.fresh := rfl
@[simp] theorem State.modCtl_bringup (s : State) (i : Nat) (f : Ctl → Ctl) : (s.modCtl i f).bringup = s.bringup := rfl
@[simp] theorem State.modCtl_cycle (s : State) (i : Nat) (f : Ctl → Ctl) : (s.modCtl i f).cycle = s.cycle := rfl
@[simp] theorem State.modCtl_mem (s : State) (i : Nat) (f : Ctl → Ctl) : (s.modCtl i f).mem = s.mem := rfl
@[simp] theorem State.modCtl_poison (s : State) (i : Nat) (f : Ctl → Ctl) : (s.modCtl i f).poison = s.poison := rfl
@[simp] theorem State.modCtl_flaws (s : State) (i : Nat) (f : Ctl → Ctl) : (s.modCtl i f).flaws = s.flaws := rfl
@[simp] theorem State.modCtl_writebacks (s : State) (i : Nat) (f : Ctl → Ctl) : (s.modCtl i f).writebacks = s.writebacks := rfl
@[simp] theorem State.modCtl_retention (s : State) (i : Nat) (f : Ctl → Ctl) : (s.modCtl i f).retention = s.retention := rfl
@[simp] theorem State.modCtl_defects (s : State) (i : Nat) (f : Ctl → Ctl) : (s.modCtl i f).defects = s.defects := rfl
@[simp] theorem State.modCtl_contexts (s : State) (i : Nat) (f : Ctl → Ctl) : (s.modCtl i f).contexts = s.contexts := rfl
@[simp] theorem State.modCtl_gens (s : State) (i : Nat) (f : Ctl → Ctl) : (s.modCtl i f).gens = s.gens := rfl
@[simp] theorem State.modCtl_tenants (s : State) (i : Nat) (f : Ctl → Ctl) : (s.modCtl i f).tenants = s.tenants := rfl
@[simp] theorem State.modCtl_tlb (s : State) (i : Nat) (f : Ctl → Ctl) : (s.modCtl i f).tlb = s.tlb := rfl
@[simp] theorem State.modCtl_walks (s : State) (i : Nat) (f : Ctl → Ctl) : (s.modCtl i f).walks = s.walks := rfl
@[simp] theorem State.modCtl_outb (s : State) (i : Nat) (f : Ctl → Ctl) : (s.modCtl i f).outb = s.outb := rfl
@[simp] theorem State.modCtl_cores (s : State) (i : Nat) (f : Ctl → Ctl) : (s.modCtl i f).cores = s.cores := rfl
@[simp] theorem State.modCtl_launches (s : State) (i : Nat) (f : Ctl → Ctl) : (s.modCtl i f).launches = s.launches := rfl
@[simp] theorem State.modCtl_pushes (s : State) (i : Nat) (f : Ctl → Ctl) : (s.modCtl i f).pushes = s.pushes := rfl
@[simp] theorem State.modCtl_resets (s : State) (i : Nat) (f : Ctl → Ctl) : (s.modCtl i f).resets = s.resets := rfl
@[simp] theorem State.modCtl_resetSerial (s : State) (i : Nat) (f : Ctl → Ctl) : (s.modCtl i f).resetSerial = s.resetSerial := rfl
@[simp] theorem State.modCtl_launchSeq (s : State) (i : Nat) (f : Ctl → Ctl) : (s.modCtl i f).launchSeq = s.launchSeq := rfl
@[simp] theorem State.modCtl_fes (s : State) (i : Nat) (f : Ctl → Ctl) : (s.modCtl i f).fes = s.fes := rfl
@[simp] theorem State.modCtl_store (s : State) (i : Nat) (f : Ctl → Ctl) : (s.modCtl i f).store = s.store := rfl
@[simp] theorem State.modCtl_chans (s : State) (i : Nat) (f : Ctl → Ctl) : (s.modCtl i f).chans = s.chans := rfl
@[simp] theorem State.modCtl_reports (s : State) (i : Nat) (f : Ctl → Ctl) : (s.modCtl i f).reports = s.reports := rfl
@[simp] theorem State.modCtl_detect (s : State) (i : Nat) (f : Ctl → Ctl) : (s.modCtl i f).detect = s.detect := rfl
@[simp] theorem State.modCtl_reserves (s : State) (i : Nat) (f : Ctl → Ctl) : (s.modCtl i f).reserves = s.reserves := rfl
@[simp] theorem State.modCtl_recs (s : State) (i : Nat) (f : Ctl → Ctl) : (s.modCtl i f).recs = s.recs := rfl
@[simp] theorem State.modCtl_lanes (s : State) (i : Nat) (f : Ctl → Ctl) : (s.modCtl i f).lanes = s.lanes := rfl
@[simp] theorem State.modCtl_leaves (s : State) (i : Nat) (f : Ctl → Ctl) : (s.modCtl i f).leaves = s.leaves := rfl
@[simp] theorem State.modCtl_dies (s : State) (i : Nat) (f : Ctl → Ctl) : (s.modCtl i f).dies = s.dies := rfl
@[simp] theorem State.modCtl_time (s : State) (i : Nat) (f : Ctl → Ctl) : (s.modCtl i f).time = s.time := rfl
@[simp] theorem State.modCtl_table (s : State) (i : Nat) (f : Ctl → Ctl) : (s.modCtl i f).table = s.table := rfl
@[simp] theorem State.modCtl_calendar (s : State) (i : Nat) (f : Ctl → Ctl) : (s.modCtl i f).calendar = s.calendar := rfl
@[simp] theorem State.modCtl_links (s : State) (i : Nat) (f : Ctl → Ctl) : (s.modCtl i f).links = s.links := rfl
@[simp] theorem State.modCtl_bounds (s : State) (i : Nat) (f : Ctl → Ctl) : (s.modCtl i f).bounds = s.bounds := rfl
@[simp] theorem State.modCtl_ports (s : State) (i : Nat) (f : Ctl → Ctl) : (s.modCtl i f).ports = s.ports := rfl
@[simp] theorem State.modCtl_peers (s : State) (i : Nat) (f : Ctl → Ctl) : (s.modCtl i f).peers = s.peers := rfl
@[simp] theorem State.modCtl_outReads (s : State) (i : Nat) (f : Ctl → Ctl) : (s.modCtl i f).outReads = s.outReads := rfl
@[simp] theorem State.modCtl_outWrites (s : State) (i : Nat) (f : Ctl → Ctl) : (s.modCtl i f).outWrites = s.outWrites := rfl
@[simp] theorem State.modCtl_hostSeen (s : State) (i : Nat) (f : Ctl → Ctl) : (s.modCtl i f).hostSeen = s.hostSeen := rfl
@[simp] theorem State.modCtl_log (s : State) (i : Nat) (f : Ctl → Ctl) : (s.modCtl i f).log = s.log := rfl
@[simp] theorem State.modCtl_fw (s : State) (i : Nat) (f : Ctl → Ctl) : (s.modCtl i f).fw = s.fw := rfl

/-! ## State.modBlk -/

@[simp] theorem State.modBlk_agenda (s : State) (i : Nat) (f : Block → Block) : (s.modBlk i f).agenda = s.agenda := rfl
@[simp] theorem State.modBlk_cur (s : State) (i : Nat) (f : Block → Block) : (s.modBlk i f).cur = s.cur := rfl
@[simp] theorem State.modBlk_fresh (s : State) (i : Nat) (f : Block → Block) : (s.modBlk i f).fresh = s.fresh := rfl
@[simp] theorem State.modBlk_bringup (s : State) (i : Nat) (f : Block → Block) : (s.modBlk i f).bringup = s.bringup := rfl
@[simp] theorem State.modBlk_cycle (s : State) (i : Nat) (f : Block → Block) : (s.modBlk i f).cycle = s.cycle := rfl
@[simp] theorem State.modBlk_mem (s : State) (i : Nat) (f : Block → Block) : (s.modBlk i f).mem = s.mem := rfl
@[simp] theorem State.modBlk_poison (s : State) (i : Nat) (f : Block → Block) : (s.modBlk i f).poison = s.poison := rfl
@[simp] theorem State.modBlk_flaws (s : State) (i : Nat) (f : Block → Block) : (s.modBlk i f).flaws = s.flaws := rfl
@[simp] theorem State.modBlk_writebacks (s : State) (i : Nat) (f : Block → Block) : (s.modBlk i f).writebacks = s.writebacks := rfl
@[simp] theorem State.modBlk_retention (s : State) (i : Nat) (f : Block → Block) : (s.modBlk i f).retention = s.retention := rfl
@[simp] theorem State.modBlk_defects (s : State) (i : Nat) (f : Block → Block) : (s.modBlk i f).defects = s.defects := rfl
@[simp] theorem State.modBlk_contexts (s : State) (i : Nat) (f : Block → Block) : (s.modBlk i f).contexts = s.contexts := rfl
@[simp] theorem State.modBlk_gens (s : State) (i : Nat) (f : Block → Block) : (s.modBlk i f).gens = s.gens := rfl
@[simp] theorem State.modBlk_tenants (s : State) (i : Nat) (f : Block → Block) : (s.modBlk i f).tenants = s.tenants := rfl
@[simp] theorem State.modBlk_tlb (s : State) (i : Nat) (f : Block → Block) : (s.modBlk i f).tlb = s.tlb := rfl
@[simp] theorem State.modBlk_walks (s : State) (i : Nat) (f : Block → Block) : (s.modBlk i f).walks = s.walks := rfl
@[simp] theorem State.modBlk_outb (s : State) (i : Nat) (f : Block → Block) : (s.modBlk i f).outb = s.outb := rfl
@[simp] theorem State.modBlk_cores (s : State) (i : Nat) (f : Block → Block) : (s.modBlk i f).cores = s.cores := rfl
@[simp] theorem State.modBlk_launches (s : State) (i : Nat) (f : Block → Block) : (s.modBlk i f).launches = s.launches := rfl
@[simp] theorem State.modBlk_pushes (s : State) (i : Nat) (f : Block → Block) : (s.modBlk i f).pushes = s.pushes := rfl
@[simp] theorem State.modBlk_resets (s : State) (i : Nat) (f : Block → Block) : (s.modBlk i f).resets = s.resets := rfl
@[simp] theorem State.modBlk_resetSerial (s : State) (i : Nat) (f : Block → Block) : (s.modBlk i f).resetSerial = s.resetSerial := rfl
@[simp] theorem State.modBlk_launchSeq (s : State) (i : Nat) (f : Block → Block) : (s.modBlk i f).launchSeq = s.launchSeq := rfl
@[simp] theorem State.modBlk_fes (s : State) (i : Nat) (f : Block → Block) : (s.modBlk i f).fes = s.fes := rfl
@[simp] theorem State.modBlk_store (s : State) (i : Nat) (f : Block → Block) : (s.modBlk i f).store = s.store := rfl
@[simp] theorem State.modBlk_chans (s : State) (i : Nat) (f : Block → Block) : (s.modBlk i f).chans = s.chans := rfl
@[simp] theorem State.modBlk_reports (s : State) (i : Nat) (f : Block → Block) : (s.modBlk i f).reports = s.reports := rfl
@[simp] theorem State.modBlk_detect (s : State) (i : Nat) (f : Block → Block) : (s.modBlk i f).detect = s.detect := rfl
@[simp] theorem State.modBlk_reserves (s : State) (i : Nat) (f : Block → Block) : (s.modBlk i f).reserves = s.reserves := rfl
@[simp] theorem State.modBlk_recs (s : State) (i : Nat) (f : Block → Block) : (s.modBlk i f).recs = s.recs := rfl
@[simp] theorem State.modBlk_lanes (s : State) (i : Nat) (f : Block → Block) : (s.modBlk i f).lanes = s.lanes := rfl
@[simp] theorem State.modBlk_leaves (s : State) (i : Nat) (f : Block → Block) : (s.modBlk i f).leaves = s.leaves := rfl
@[simp] theorem State.modBlk_dies (s : State) (i : Nat) (f : Block → Block) : (s.modBlk i f).dies = s.dies := rfl
@[simp] theorem State.modBlk_time (s : State) (i : Nat) (f : Block → Block) : (s.modBlk i f).time = s.time := rfl
@[simp] theorem State.modBlk_table (s : State) (i : Nat) (f : Block → Block) : (s.modBlk i f).table = s.table := rfl
@[simp] theorem State.modBlk_calendar (s : State) (i : Nat) (f : Block → Block) : (s.modBlk i f).calendar = s.calendar := rfl
@[simp] theorem State.modBlk_links (s : State) (i : Nat) (f : Block → Block) : (s.modBlk i f).links = s.links := rfl
@[simp] theorem State.modBlk_bounds (s : State) (i : Nat) (f : Block → Block) : (s.modBlk i f).bounds = s.bounds := rfl
@[simp] theorem State.modBlk_ports (s : State) (i : Nat) (f : Block → Block) : (s.modBlk i f).ports = s.ports := rfl
@[simp] theorem State.modBlk_peers (s : State) (i : Nat) (f : Block → Block) : (s.modBlk i f).peers = s.peers := rfl
@[simp] theorem State.modBlk_outReads (s : State) (i : Nat) (f : Block → Block) : (s.modBlk i f).outReads = s.outReads := rfl
@[simp] theorem State.modBlk_outWrites (s : State) (i : Nat) (f : Block → Block) : (s.modBlk i f).outWrites = s.outWrites := rfl
@[simp] theorem State.modBlk_hostSeen (s : State) (i : Nat) (f : Block → Block) : (s.modBlk i f).hostSeen = s.hostSeen := rfl
@[simp] theorem State.modBlk_log (s : State) (i : Nat) (f : Block → Block) : (s.modBlk i f).log = s.log := rfl
@[simp] theorem State.modBlk_fw (s : State) (i : Nat) (f : Block → Block) : (s.modBlk i f).fw = s.fw := rfl

/-! ## State.modSlot -/

@[simp] theorem State.modSlot_agenda (s : State) (i k : Nat) (f : SlotRec → SlotRec) : (s.modSlot i k f).agenda = s.agenda := rfl
@[simp] theorem State.modSlot_cur (s : State) (i k : Nat) (f : SlotRec → SlotRec) : (s.modSlot i k f).cur = s.cur := rfl
@[simp] theorem State.modSlot_fresh (s : State) (i k : Nat) (f : SlotRec → SlotRec) : (s.modSlot i k f).fresh = s.fresh := rfl
@[simp] theorem State.modSlot_bringup (s : State) (i k : Nat) (f : SlotRec → SlotRec) : (s.modSlot i k f).bringup = s.bringup := rfl
@[simp] theorem State.modSlot_cycle (s : State) (i k : Nat) (f : SlotRec → SlotRec) : (s.modSlot i k f).cycle = s.cycle := rfl
@[simp] theorem State.modSlot_mem (s : State) (i k : Nat) (f : SlotRec → SlotRec) : (s.modSlot i k f).mem = s.mem := rfl
@[simp] theorem State.modSlot_poison (s : State) (i k : Nat) (f : SlotRec → SlotRec) : (s.modSlot i k f).poison = s.poison := rfl
@[simp] theorem State.modSlot_flaws (s : State) (i k : Nat) (f : SlotRec → SlotRec) : (s.modSlot i k f).flaws = s.flaws := rfl
@[simp] theorem State.modSlot_writebacks (s : State) (i k : Nat) (f : SlotRec → SlotRec) : (s.modSlot i k f).writebacks = s.writebacks := rfl
@[simp] theorem State.modSlot_retention (s : State) (i k : Nat) (f : SlotRec → SlotRec) : (s.modSlot i k f).retention = s.retention := rfl
@[simp] theorem State.modSlot_defects (s : State) (i k : Nat) (f : SlotRec → SlotRec) : (s.modSlot i k f).defects = s.defects := rfl
@[simp] theorem State.modSlot_contexts (s : State) (i k : Nat) (f : SlotRec → SlotRec) : (s.modSlot i k f).contexts = s.contexts := rfl
@[simp] theorem State.modSlot_gens (s : State) (i k : Nat) (f : SlotRec → SlotRec) : (s.modSlot i k f).gens = s.gens := rfl
@[simp] theorem State.modSlot_tenants (s : State) (i k : Nat) (f : SlotRec → SlotRec) : (s.modSlot i k f).tenants = s.tenants := rfl
@[simp] theorem State.modSlot_tlb (s : State) (i k : Nat) (f : SlotRec → SlotRec) : (s.modSlot i k f).tlb = s.tlb := rfl
@[simp] theorem State.modSlot_walks (s : State) (i k : Nat) (f : SlotRec → SlotRec) : (s.modSlot i k f).walks = s.walks := rfl
@[simp] theorem State.modSlot_outb (s : State) (i k : Nat) (f : SlotRec → SlotRec) : (s.modSlot i k f).outb = s.outb := rfl
@[simp] theorem State.modSlot_cores (s : State) (i k : Nat) (f : SlotRec → SlotRec) : (s.modSlot i k f).cores = s.cores := rfl
@[simp] theorem State.modSlot_launches (s : State) (i k : Nat) (f : SlotRec → SlotRec) : (s.modSlot i k f).launches = s.launches := rfl
@[simp] theorem State.modSlot_pushes (s : State) (i k : Nat) (f : SlotRec → SlotRec) : (s.modSlot i k f).pushes = s.pushes := rfl
@[simp] theorem State.modSlot_resets (s : State) (i k : Nat) (f : SlotRec → SlotRec) : (s.modSlot i k f).resets = s.resets := rfl
@[simp] theorem State.modSlot_resetSerial (s : State) (i k : Nat) (f : SlotRec → SlotRec) : (s.modSlot i k f).resetSerial = s.resetSerial := rfl
@[simp] theorem State.modSlot_launchSeq (s : State) (i k : Nat) (f : SlotRec → SlotRec) : (s.modSlot i k f).launchSeq = s.launchSeq := rfl
@[simp] theorem State.modSlot_fes (s : State) (i k : Nat) (f : SlotRec → SlotRec) : (s.modSlot i k f).fes = s.fes := rfl
@[simp] theorem State.modSlot_store (s : State) (i k : Nat) (f : SlotRec → SlotRec) : (s.modSlot i k f).store = s.store := rfl
@[simp] theorem State.modSlot_chans (s : State) (i k : Nat) (f : SlotRec → SlotRec) : (s.modSlot i k f).chans = s.chans := rfl
@[simp] theorem State.modSlot_reports (s : State) (i k : Nat) (f : SlotRec → SlotRec) : (s.modSlot i k f).reports = s.reports := rfl
@[simp] theorem State.modSlot_detect (s : State) (i k : Nat) (f : SlotRec → SlotRec) : (s.modSlot i k f).detect = s.detect := rfl
@[simp] theorem State.modSlot_reserves (s : State) (i k : Nat) (f : SlotRec → SlotRec) : (s.modSlot i k f).reserves = s.reserves := rfl
@[simp] theorem State.modSlot_recs (s : State) (i k : Nat) (f : SlotRec → SlotRec) : (s.modSlot i k f).recs = s.recs := rfl
@[simp] theorem State.modSlot_lanes (s : State) (i k : Nat) (f : SlotRec → SlotRec) : (s.modSlot i k f).lanes = s.lanes := rfl
@[simp] theorem State.modSlot_leaves (s : State) (i k : Nat) (f : SlotRec → SlotRec) : (s.modSlot i k f).leaves = s.leaves := rfl
@[simp] theorem State.modSlot_dies (s : State) (i k : Nat) (f : SlotRec → SlotRec) : (s.modSlot i k f).dies = s.dies := rfl
@[simp] theorem State.modSlot_time (s : State) (i k : Nat) (f : SlotRec → SlotRec) : (s.modSlot i k f).time = s.time := rfl
@[simp] theorem State.modSlot_table (s : State) (i k : Nat) (f : SlotRec → SlotRec) : (s.modSlot i k f).table = s.table := rfl
@[simp] theorem State.modSlot_calendar (s : State) (i k : Nat) (f : SlotRec → SlotRec) : (s.modSlot i k f).calendar = s.calendar := rfl
@[simp] theorem State.modSlot_links (s : State) (i k : Nat) (f : SlotRec → SlotRec) : (s.modSlot i k f).links = s.links := rfl
@[simp] theorem State.modSlot_bounds (s : State) (i k : Nat) (f : SlotRec → SlotRec) : (s.modSlot i k f).bounds = s.bounds := rfl
@[simp] theorem State.modSlot_ports (s : State) (i k : Nat) (f : SlotRec → SlotRec) : (s.modSlot i k f).ports = s.ports := rfl
@[simp] theorem State.modSlot_peers (s : State) (i k : Nat) (f : SlotRec → SlotRec) : (s.modSlot i k f).peers = s.peers := rfl
@[simp] theorem State.modSlot_outReads (s : State) (i k : Nat) (f : SlotRec → SlotRec) : (s.modSlot i k f).outReads = s.outReads := rfl
@[simp] theorem State.modSlot_outWrites (s : State) (i k : Nat) (f : SlotRec → SlotRec) : (s.modSlot i k f).outWrites = s.outWrites := rfl
@[simp] theorem State.modSlot_hostSeen (s : State) (i k : Nat) (f : SlotRec → SlotRec) : (s.modSlot i k f).hostSeen = s.hostSeen := rfl
@[simp] theorem State.modSlot_log (s : State) (i k : Nat) (f : SlotRec → SlotRec) : (s.modSlot i k f).log = s.log := rfl
@[simp] theorem State.modSlot_fw (s : State) (i k : Nat) (f : SlotRec → SlotRec) : (s.modSlot i k f).fw = s.fw := rfl

/-! ## State.modReg -/

@[simp] theorem State.modReg_agenda (s : State) (i : Nat) (f : Region → Region) : (s.modReg i f).agenda = s.agenda := rfl
@[simp] theorem State.modReg_cur (s : State) (i : Nat) (f : Region → Region) : (s.modReg i f).cur = s.cur := rfl
@[simp] theorem State.modReg_fresh (s : State) (i : Nat) (f : Region → Region) : (s.modReg i f).fresh = s.fresh := rfl
@[simp] theorem State.modReg_bringup (s : State) (i : Nat) (f : Region → Region) : (s.modReg i f).bringup = s.bringup := rfl
@[simp] theorem State.modReg_cycle (s : State) (i : Nat) (f : Region → Region) : (s.modReg i f).cycle = s.cycle := rfl
@[simp] theorem State.modReg_mem (s : State) (i : Nat) (f : Region → Region) : (s.modReg i f).mem = s.mem := rfl
@[simp] theorem State.modReg_poison (s : State) (i : Nat) (f : Region → Region) : (s.modReg i f).poison = s.poison := rfl
@[simp] theorem State.modReg_flaws (s : State) (i : Nat) (f : Region → Region) : (s.modReg i f).flaws = s.flaws := rfl
@[simp] theorem State.modReg_writebacks (s : State) (i : Nat) (f : Region → Region) : (s.modReg i f).writebacks = s.writebacks := rfl
@[simp] theorem State.modReg_retention (s : State) (i : Nat) (f : Region → Region) : (s.modReg i f).retention = s.retention := rfl
@[simp] theorem State.modReg_defects (s : State) (i : Nat) (f : Region → Region) : (s.modReg i f).defects = s.defects := rfl
@[simp] theorem State.modReg_contexts (s : State) (i : Nat) (f : Region → Region) : (s.modReg i f).contexts = s.contexts := rfl
@[simp] theorem State.modReg_gens (s : State) (i : Nat) (f : Region → Region) : (s.modReg i f).gens = s.gens := rfl
@[simp] theorem State.modReg_tenants (s : State) (i : Nat) (f : Region → Region) : (s.modReg i f).tenants = s.tenants := rfl
@[simp] theorem State.modReg_tlb (s : State) (i : Nat) (f : Region → Region) : (s.modReg i f).tlb = s.tlb := rfl
@[simp] theorem State.modReg_walks (s : State) (i : Nat) (f : Region → Region) : (s.modReg i f).walks = s.walks := rfl
@[simp] theorem State.modReg_outb (s : State) (i : Nat) (f : Region → Region) : (s.modReg i f).outb = s.outb := rfl
@[simp] theorem State.modReg_cores (s : State) (i : Nat) (f : Region → Region) : (s.modReg i f).cores = s.cores := rfl
@[simp] theorem State.modReg_launches (s : State) (i : Nat) (f : Region → Region) : (s.modReg i f).launches = s.launches := rfl
@[simp] theorem State.modReg_pushes (s : State) (i : Nat) (f : Region → Region) : (s.modReg i f).pushes = s.pushes := rfl
@[simp] theorem State.modReg_resets (s : State) (i : Nat) (f : Region → Region) : (s.modReg i f).resets = s.resets := rfl
@[simp] theorem State.modReg_resetSerial (s : State) (i : Nat) (f : Region → Region) : (s.modReg i f).resetSerial = s.resetSerial := rfl
@[simp] theorem State.modReg_launchSeq (s : State) (i : Nat) (f : Region → Region) : (s.modReg i f).launchSeq = s.launchSeq := rfl
@[simp] theorem State.modReg_fes (s : State) (i : Nat) (f : Region → Region) : (s.modReg i f).fes = s.fes := rfl
@[simp] theorem State.modReg_store (s : State) (i : Nat) (f : Region → Region) : (s.modReg i f).store = s.store := rfl
@[simp] theorem State.modReg_chans (s : State) (i : Nat) (f : Region → Region) : (s.modReg i f).chans = s.chans := rfl
@[simp] theorem State.modReg_reports (s : State) (i : Nat) (f : Region → Region) : (s.modReg i f).reports = s.reports := rfl
@[simp] theorem State.modReg_detect (s : State) (i : Nat) (f : Region → Region) : (s.modReg i f).detect = s.detect := rfl
@[simp] theorem State.modReg_reserves (s : State) (i : Nat) (f : Region → Region) : (s.modReg i f).reserves = s.reserves := rfl
@[simp] theorem State.modReg_recs (s : State) (i : Nat) (f : Region → Region) : (s.modReg i f).recs = s.recs := rfl
@[simp] theorem State.modReg_lanes (s : State) (i : Nat) (f : Region → Region) : (s.modReg i f).lanes = s.lanes := rfl
@[simp] theorem State.modReg_leaves (s : State) (i : Nat) (f : Region → Region) : (s.modReg i f).leaves = s.leaves := rfl
@[simp] theorem State.modReg_dies (s : State) (i : Nat) (f : Region → Region) : (s.modReg i f).dies = s.dies := rfl
@[simp] theorem State.modReg_time (s : State) (i : Nat) (f : Region → Region) : (s.modReg i f).time = s.time := rfl
@[simp] theorem State.modReg_table (s : State) (i : Nat) (f : Region → Region) : (s.modReg i f).table = s.table := rfl
@[simp] theorem State.modReg_calendar (s : State) (i : Nat) (f : Region → Region) : (s.modReg i f).calendar = s.calendar := rfl
@[simp] theorem State.modReg_links (s : State) (i : Nat) (f : Region → Region) : (s.modReg i f).links = s.links := rfl
@[simp] theorem State.modReg_bounds (s : State) (i : Nat) (f : Region → Region) : (s.modReg i f).bounds = s.bounds := rfl
@[simp] theorem State.modReg_ports (s : State) (i : Nat) (f : Region → Region) : (s.modReg i f).ports = s.ports := rfl
@[simp] theorem State.modReg_peers (s : State) (i : Nat) (f : Region → Region) : (s.modReg i f).peers = s.peers := rfl
@[simp] theorem State.modReg_outReads (s : State) (i : Nat) (f : Region → Region) : (s.modReg i f).outReads = s.outReads := rfl
@[simp] theorem State.modReg_outWrites (s : State) (i : Nat) (f : Region → Region) : (s.modReg i f).outWrites = s.outWrites := rfl
@[simp] theorem State.modReg_hostSeen (s : State) (i : Nat) (f : Region → Region) : (s.modReg i f).hostSeen = s.hostSeen := rfl
@[simp] theorem State.modReg_log (s : State) (i : Nat) (f : Region → Region) : (s.modReg i f).log = s.log := rfl
@[simp] theorem State.modReg_fw (s : State) (i : Nat) (f : Region → Region) : (s.modReg i f).fw = s.fw := rfl

/-! ## State.modCore -/

@[simp] theorem State.modCore_agenda (s : State) (c : Nat) (f : Core → Core) : (s.modCore c f).agenda = s.agenda := rfl
@[simp] theorem State.modCore_cur (s : State) (c : Nat) (f : Core → Core) : (s.modCore c f).cur = s.cur := rfl
@[simp] theorem State.modCore_fresh (s : State) (c : Nat) (f : Core → Core) : (s.modCore c f).fresh = s.fresh := rfl
@[simp] theorem State.modCore_bringup (s : State) (c : Nat) (f : Core → Core) : (s.modCore c f).bringup = s.bringup := rfl
@[simp] theorem State.modCore_cycle (s : State) (c : Nat) (f : Core → Core) : (s.modCore c f).cycle = s.cycle := rfl
@[simp] theorem State.modCore_mem (s : State) (c : Nat) (f : Core → Core) : (s.modCore c f).mem = s.mem := rfl
@[simp] theorem State.modCore_poison (s : State) (c : Nat) (f : Core → Core) : (s.modCore c f).poison = s.poison := rfl
@[simp] theorem State.modCore_flaws (s : State) (c : Nat) (f : Core → Core) : (s.modCore c f).flaws = s.flaws := rfl
@[simp] theorem State.modCore_writebacks (s : State) (c : Nat) (f : Core → Core) : (s.modCore c f).writebacks = s.writebacks := rfl
@[simp] theorem State.modCore_retention (s : State) (c : Nat) (f : Core → Core) : (s.modCore c f).retention = s.retention := rfl
@[simp] theorem State.modCore_defects (s : State) (c : Nat) (f : Core → Core) : (s.modCore c f).defects = s.defects := rfl
@[simp] theorem State.modCore_contexts (s : State) (c : Nat) (f : Core → Core) : (s.modCore c f).contexts = s.contexts := rfl
@[simp] theorem State.modCore_gens (s : State) (c : Nat) (f : Core → Core) : (s.modCore c f).gens = s.gens := rfl
@[simp] theorem State.modCore_tenants (s : State) (c : Nat) (f : Core → Core) : (s.modCore c f).tenants = s.tenants := rfl
@[simp] theorem State.modCore_tlb (s : State) (c : Nat) (f : Core → Core) : (s.modCore c f).tlb = s.tlb := rfl
@[simp] theorem State.modCore_walks (s : State) (c : Nat) (f : Core → Core) : (s.modCore c f).walks = s.walks := rfl
@[simp] theorem State.modCore_outb (s : State) (c : Nat) (f : Core → Core) : (s.modCore c f).outb = s.outb := rfl
@[simp] theorem State.modCore_insts (s : State) (c : Nat) (f : Core → Core) : (s.modCore c f).insts = s.insts := rfl
@[simp] theorem State.modCore_launches (s : State) (c : Nat) (f : Core → Core) : (s.modCore c f).launches = s.launches := rfl
@[simp] theorem State.modCore_pushes (s : State) (c : Nat) (f : Core → Core) : (s.modCore c f).pushes = s.pushes := rfl
@[simp] theorem State.modCore_resets (s : State) (c : Nat) (f : Core → Core) : (s.modCore c f).resets = s.resets := rfl
@[simp] theorem State.modCore_resetSerial (s : State) (c : Nat) (f : Core → Core) : (s.modCore c f).resetSerial = s.resetSerial := rfl
@[simp] theorem State.modCore_launchSeq (s : State) (c : Nat) (f : Core → Core) : (s.modCore c f).launchSeq = s.launchSeq := rfl
@[simp] theorem State.modCore_fes (s : State) (c : Nat) (f : Core → Core) : (s.modCore c f).fes = s.fes := rfl
@[simp] theorem State.modCore_store (s : State) (c : Nat) (f : Core → Core) : (s.modCore c f).store = s.store := rfl
@[simp] theorem State.modCore_chans (s : State) (c : Nat) (f : Core → Core) : (s.modCore c f).chans = s.chans := rfl
@[simp] theorem State.modCore_reports (s : State) (c : Nat) (f : Core → Core) : (s.modCore c f).reports = s.reports := rfl
@[simp] theorem State.modCore_detect (s : State) (c : Nat) (f : Core → Core) : (s.modCore c f).detect = s.detect := rfl
@[simp] theorem State.modCore_reserves (s : State) (c : Nat) (f : Core → Core) : (s.modCore c f).reserves = s.reserves := rfl
@[simp] theorem State.modCore_recs (s : State) (c : Nat) (f : Core → Core) : (s.modCore c f).recs = s.recs := rfl
@[simp] theorem State.modCore_lanes (s : State) (c : Nat) (f : Core → Core) : (s.modCore c f).lanes = s.lanes := rfl
@[simp] theorem State.modCore_leaves (s : State) (c : Nat) (f : Core → Core) : (s.modCore c f).leaves = s.leaves := rfl
@[simp] theorem State.modCore_dies (s : State) (c : Nat) (f : Core → Core) : (s.modCore c f).dies = s.dies := rfl
@[simp] theorem State.modCore_time (s : State) (c : Nat) (f : Core → Core) : (s.modCore c f).time = s.time := rfl
@[simp] theorem State.modCore_table (s : State) (c : Nat) (f : Core → Core) : (s.modCore c f).table = s.table := rfl
@[simp] theorem State.modCore_calendar (s : State) (c : Nat) (f : Core → Core) : (s.modCore c f).calendar = s.calendar := rfl
@[simp] theorem State.modCore_links (s : State) (c : Nat) (f : Core → Core) : (s.modCore c f).links = s.links := rfl
@[simp] theorem State.modCore_bounds (s : State) (c : Nat) (f : Core → Core) : (s.modCore c f).bounds = s.bounds := rfl
@[simp] theorem State.modCore_ports (s : State) (c : Nat) (f : Core → Core) : (s.modCore c f).ports = s.ports := rfl
@[simp] theorem State.modCore_peers (s : State) (c : Nat) (f : Core → Core) : (s.modCore c f).peers = s.peers := rfl
@[simp] theorem State.modCore_outReads (s : State) (c : Nat) (f : Core → Core) : (s.modCore c f).outReads = s.outReads := rfl
@[simp] theorem State.modCore_outWrites (s : State) (c : Nat) (f : Core → Core) : (s.modCore c f).outWrites = s.outWrites := rfl
@[simp] theorem State.modCore_hostSeen (s : State) (c : Nat) (f : Core → Core) : (s.modCore c f).hostSeen = s.hostSeen := rfl
@[simp] theorem State.modCore_log (s : State) (c : Nat) (f : Core → Core) : (s.modCore c f).log = s.log := rfl
@[simp] theorem State.modCore_fw (s : State) (c : Nat) (f : Core → Core) : (s.modCore c f).fw = s.fw := rfl

/-! ## State.modDie -/

@[simp] theorem State.modDie_agenda (s : State) (d : Nat) (f : DieState → DieState) : (s.modDie d f).agenda = s.agenda := rfl
@[simp] theorem State.modDie_cur (s : State) (d : Nat) (f : DieState → DieState) : (s.modDie d f).cur = s.cur := rfl
@[simp] theorem State.modDie_fresh (s : State) (d : Nat) (f : DieState → DieState) : (s.modDie d f).fresh = s.fresh := rfl
@[simp] theorem State.modDie_bringup (s : State) (d : Nat) (f : DieState → DieState) : (s.modDie d f).bringup = s.bringup := rfl
@[simp] theorem State.modDie_cycle (s : State) (d : Nat) (f : DieState → DieState) : (s.modDie d f).cycle = s.cycle := rfl
@[simp] theorem State.modDie_mem (s : State) (d : Nat) (f : DieState → DieState) : (s.modDie d f).mem = s.mem := rfl
@[simp] theorem State.modDie_poison (s : State) (d : Nat) (f : DieState → DieState) : (s.modDie d f).poison = s.poison := rfl
@[simp] theorem State.modDie_flaws (s : State) (d : Nat) (f : DieState → DieState) : (s.modDie d f).flaws = s.flaws := rfl
@[simp] theorem State.modDie_writebacks (s : State) (d : Nat) (f : DieState → DieState) : (s.modDie d f).writebacks = s.writebacks := rfl
@[simp] theorem State.modDie_retention (s : State) (d : Nat) (f : DieState → DieState) : (s.modDie d f).retention = s.retention := rfl
@[simp] theorem State.modDie_defects (s : State) (d : Nat) (f : DieState → DieState) : (s.modDie d f).defects = s.defects := rfl
@[simp] theorem State.modDie_contexts (s : State) (d : Nat) (f : DieState → DieState) : (s.modDie d f).contexts = s.contexts := rfl
@[simp] theorem State.modDie_gens (s : State) (d : Nat) (f : DieState → DieState) : (s.modDie d f).gens = s.gens := rfl
@[simp] theorem State.modDie_tenants (s : State) (d : Nat) (f : DieState → DieState) : (s.modDie d f).tenants = s.tenants := rfl
@[simp] theorem State.modDie_tlb (s : State) (d : Nat) (f : DieState → DieState) : (s.modDie d f).tlb = s.tlb := rfl
@[simp] theorem State.modDie_walks (s : State) (d : Nat) (f : DieState → DieState) : (s.modDie d f).walks = s.walks := rfl
@[simp] theorem State.modDie_outb (s : State) (d : Nat) (f : DieState → DieState) : (s.modDie d f).outb = s.outb := rfl
@[simp] theorem State.modDie_cores (s : State) (d : Nat) (f : DieState → DieState) : (s.modDie d f).cores = s.cores := rfl
@[simp] theorem State.modDie_insts (s : State) (d : Nat) (f : DieState → DieState) : (s.modDie d f).insts = s.insts := rfl
@[simp] theorem State.modDie_launches (s : State) (d : Nat) (f : DieState → DieState) : (s.modDie d f).launches = s.launches := rfl
@[simp] theorem State.modDie_pushes (s : State) (d : Nat) (f : DieState → DieState) : (s.modDie d f).pushes = s.pushes := rfl
@[simp] theorem State.modDie_resets (s : State) (d : Nat) (f : DieState → DieState) : (s.modDie d f).resets = s.resets := rfl
@[simp] theorem State.modDie_resetSerial (s : State) (d : Nat) (f : DieState → DieState) : (s.modDie d f).resetSerial = s.resetSerial := rfl
@[simp] theorem State.modDie_launchSeq (s : State) (d : Nat) (f : DieState → DieState) : (s.modDie d f).launchSeq = s.launchSeq := rfl
@[simp] theorem State.modDie_fes (s : State) (d : Nat) (f : DieState → DieState) : (s.modDie d f).fes = s.fes := rfl
@[simp] theorem State.modDie_store (s : State) (d : Nat) (f : DieState → DieState) : (s.modDie d f).store = s.store := rfl
@[simp] theorem State.modDie_chans (s : State) (d : Nat) (f : DieState → DieState) : (s.modDie d f).chans = s.chans := rfl
@[simp] theorem State.modDie_reports (s : State) (d : Nat) (f : DieState → DieState) : (s.modDie d f).reports = s.reports := rfl
@[simp] theorem State.modDie_detect (s : State) (d : Nat) (f : DieState → DieState) : (s.modDie d f).detect = s.detect := rfl
@[simp] theorem State.modDie_reserves (s : State) (d : Nat) (f : DieState → DieState) : (s.modDie d f).reserves = s.reserves := rfl
@[simp] theorem State.modDie_recs (s : State) (d : Nat) (f : DieState → DieState) : (s.modDie d f).recs = s.recs := rfl
@[simp] theorem State.modDie_lanes (s : State) (d : Nat) (f : DieState → DieState) : (s.modDie d f).lanes = s.lanes := rfl
@[simp] theorem State.modDie_leaves (s : State) (d : Nat) (f : DieState → DieState) : (s.modDie d f).leaves = s.leaves := rfl
@[simp] theorem State.modDie_time (s : State) (d : Nat) (f : DieState → DieState) : (s.modDie d f).time = s.time := rfl
@[simp] theorem State.modDie_table (s : State) (d : Nat) (f : DieState → DieState) : (s.modDie d f).table = s.table := rfl
@[simp] theorem State.modDie_calendar (s : State) (d : Nat) (f : DieState → DieState) : (s.modDie d f).calendar = s.calendar := rfl
@[simp] theorem State.modDie_links (s : State) (d : Nat) (f : DieState → DieState) : (s.modDie d f).links = s.links := rfl
@[simp] theorem State.modDie_bounds (s : State) (d : Nat) (f : DieState → DieState) : (s.modDie d f).bounds = s.bounds := rfl
@[simp] theorem State.modDie_ports (s : State) (d : Nat) (f : DieState → DieState) : (s.modDie d f).ports = s.ports := rfl
@[simp] theorem State.modDie_peers (s : State) (d : Nat) (f : DieState → DieState) : (s.modDie d f).peers = s.peers := rfl
@[simp] theorem State.modDie_outReads (s : State) (d : Nat) (f : DieState → DieState) : (s.modDie d f).outReads = s.outReads := rfl
@[simp] theorem State.modDie_outWrites (s : State) (d : Nat) (f : DieState → DieState) : (s.modDie d f).outWrites = s.outWrites := rfl
@[simp] theorem State.modDie_hostSeen (s : State) (d : Nat) (f : DieState → DieState) : (s.modDie d f).hostSeen = s.hostSeen := rfl
@[simp] theorem State.modDie_log (s : State) (d : Nat) (f : DieState → DieState) : (s.modDie d f).log = s.log := rfl
@[simp] theorem State.modDie_fw (s : State) (d : Nat) (f : DieState → DieState) : (s.modDie d f).fw = s.fw := rfl

/-! ## State.modFe -/

@[simp] theorem State.modFe_agenda (s : State) (x : Nat) (f : Fe → Fe) : (s.modFe x f).agenda = s.agenda := rfl
@[simp] theorem State.modFe_cur (s : State) (x : Nat) (f : Fe → Fe) : (s.modFe x f).cur = s.cur := rfl
@[simp] theorem State.modFe_fresh (s : State) (x : Nat) (f : Fe → Fe) : (s.modFe x f).fresh = s.fresh := rfl
@[simp] theorem State.modFe_bringup (s : State) (x : Nat) (f : Fe → Fe) : (s.modFe x f).bringup = s.bringup := rfl
@[simp] theorem State.modFe_cycle (s : State) (x : Nat) (f : Fe → Fe) : (s.modFe x f).cycle = s.cycle := rfl
@[simp] theorem State.modFe_mem (s : State) (x : Nat) (f : Fe → Fe) : (s.modFe x f).mem = s.mem := rfl
@[simp] theorem State.modFe_poison (s : State) (x : Nat) (f : Fe → Fe) : (s.modFe x f).poison = s.poison := rfl
@[simp] theorem State.modFe_flaws (s : State) (x : Nat) (f : Fe → Fe) : (s.modFe x f).flaws = s.flaws := rfl
@[simp] theorem State.modFe_writebacks (s : State) (x : Nat) (f : Fe → Fe) : (s.modFe x f).writebacks = s.writebacks := rfl
@[simp] theorem State.modFe_retention (s : State) (x : Nat) (f : Fe → Fe) : (s.modFe x f).retention = s.retention := rfl
@[simp] theorem State.modFe_defects (s : State) (x : Nat) (f : Fe → Fe) : (s.modFe x f).defects = s.defects := rfl
@[simp] theorem State.modFe_contexts (s : State) (x : Nat) (f : Fe → Fe) : (s.modFe x f).contexts = s.contexts := rfl
@[simp] theorem State.modFe_gens (s : State) (x : Nat) (f : Fe → Fe) : (s.modFe x f).gens = s.gens := rfl
@[simp] theorem State.modFe_tenants (s : State) (x : Nat) (f : Fe → Fe) : (s.modFe x f).tenants = s.tenants := rfl
@[simp] theorem State.modFe_tlb (s : State) (x : Nat) (f : Fe → Fe) : (s.modFe x f).tlb = s.tlb := rfl
@[simp] theorem State.modFe_walks (s : State) (x : Nat) (f : Fe → Fe) : (s.modFe x f).walks = s.walks := rfl
@[simp] theorem State.modFe_outb (s : State) (x : Nat) (f : Fe → Fe) : (s.modFe x f).outb = s.outb := rfl
@[simp] theorem State.modFe_cores (s : State) (x : Nat) (f : Fe → Fe) : (s.modFe x f).cores = s.cores := rfl
@[simp] theorem State.modFe_insts (s : State) (x : Nat) (f : Fe → Fe) : (s.modFe x f).insts = s.insts := rfl
@[simp] theorem State.modFe_launches (s : State) (x : Nat) (f : Fe → Fe) : (s.modFe x f).launches = s.launches := rfl
@[simp] theorem State.modFe_pushes (s : State) (x : Nat) (f : Fe → Fe) : (s.modFe x f).pushes = s.pushes := rfl
@[simp] theorem State.modFe_resets (s : State) (x : Nat) (f : Fe → Fe) : (s.modFe x f).resets = s.resets := rfl
@[simp] theorem State.modFe_resetSerial (s : State) (x : Nat) (f : Fe → Fe) : (s.modFe x f).resetSerial = s.resetSerial := rfl
@[simp] theorem State.modFe_launchSeq (s : State) (x : Nat) (f : Fe → Fe) : (s.modFe x f).launchSeq = s.launchSeq := rfl
@[simp] theorem State.modFe_store (s : State) (x : Nat) (f : Fe → Fe) : (s.modFe x f).store = s.store := rfl
@[simp] theorem State.modFe_chans (s : State) (x : Nat) (f : Fe → Fe) : (s.modFe x f).chans = s.chans := rfl
@[simp] theorem State.modFe_reports (s : State) (x : Nat) (f : Fe → Fe) : (s.modFe x f).reports = s.reports := rfl
@[simp] theorem State.modFe_detect (s : State) (x : Nat) (f : Fe → Fe) : (s.modFe x f).detect = s.detect := rfl
@[simp] theorem State.modFe_reserves (s : State) (x : Nat) (f : Fe → Fe) : (s.modFe x f).reserves = s.reserves := rfl
@[simp] theorem State.modFe_recs (s : State) (x : Nat) (f : Fe → Fe) : (s.modFe x f).recs = s.recs := rfl
@[simp] theorem State.modFe_lanes (s : State) (x : Nat) (f : Fe → Fe) : (s.modFe x f).lanes = s.lanes := rfl
@[simp] theorem State.modFe_leaves (s : State) (x : Nat) (f : Fe → Fe) : (s.modFe x f).leaves = s.leaves := rfl
@[simp] theorem State.modFe_dies (s : State) (x : Nat) (f : Fe → Fe) : (s.modFe x f).dies = s.dies := rfl
@[simp] theorem State.modFe_time (s : State) (x : Nat) (f : Fe → Fe) : (s.modFe x f).time = s.time := rfl
@[simp] theorem State.modFe_table (s : State) (x : Nat) (f : Fe → Fe) : (s.modFe x f).table = s.table := rfl
@[simp] theorem State.modFe_calendar (s : State) (x : Nat) (f : Fe → Fe) : (s.modFe x f).calendar = s.calendar := rfl
@[simp] theorem State.modFe_links (s : State) (x : Nat) (f : Fe → Fe) : (s.modFe x f).links = s.links := rfl
@[simp] theorem State.modFe_bounds (s : State) (x : Nat) (f : Fe → Fe) : (s.modFe x f).bounds = s.bounds := rfl
@[simp] theorem State.modFe_ports (s : State) (x : Nat) (f : Fe → Fe) : (s.modFe x f).ports = s.ports := rfl
@[simp] theorem State.modFe_peers (s : State) (x : Nat) (f : Fe → Fe) : (s.modFe x f).peers = s.peers := rfl
@[simp] theorem State.modFe_outReads (s : State) (x : Nat) (f : Fe → Fe) : (s.modFe x f).outReads = s.outReads := rfl
@[simp] theorem State.modFe_outWrites (s : State) (x : Nat) (f : Fe → Fe) : (s.modFe x f).outWrites = s.outWrites := rfl
@[simp] theorem State.modFe_hostSeen (s : State) (x : Nat) (f : Fe → Fe) : (s.modFe x f).hostSeen = s.hostSeen := rfl
@[simp] theorem State.modFe_log (s : State) (x : Nat) (f : Fe → Fe) : (s.modFe x f).log = s.log := rfl
@[simp] theorem State.modFe_fw (s : State) (x : Nat) (f : Fe → Fe) : (s.modFe x f).fw = s.fw := rfl

/-! ## State.modTenant -/

@[simp] theorem State.modTenant_agenda (s : State) (t : Nat) (f : Tenant → Tenant) : (s.modTenant t f).agenda = s.agenda := rfl
@[simp] theorem State.modTenant_cur (s : State) (t : Nat) (f : Tenant → Tenant) : (s.modTenant t f).cur = s.cur := rfl
@[simp] theorem State.modTenant_fresh (s : State) (t : Nat) (f : Tenant → Tenant) : (s.modTenant t f).fresh = s.fresh := rfl
@[simp] theorem State.modTenant_bringup (s : State) (t : Nat) (f : Tenant → Tenant) : (s.modTenant t f).bringup = s.bringup := rfl
@[simp] theorem State.modTenant_cycle (s : State) (t : Nat) (f : Tenant → Tenant) : (s.modTenant t f).cycle = s.cycle := rfl
@[simp] theorem State.modTenant_mem (s : State) (t : Nat) (f : Tenant → Tenant) : (s.modTenant t f).mem = s.mem := rfl
@[simp] theorem State.modTenant_poison (s : State) (t : Nat) (f : Tenant → Tenant) : (s.modTenant t f).poison = s.poison := rfl
@[simp] theorem State.modTenant_flaws (s : State) (t : Nat) (f : Tenant → Tenant) : (s.modTenant t f).flaws = s.flaws := rfl
@[simp] theorem State.modTenant_writebacks (s : State) (t : Nat) (f : Tenant → Tenant) : (s.modTenant t f).writebacks = s.writebacks := rfl
@[simp] theorem State.modTenant_retention (s : State) (t : Nat) (f : Tenant → Tenant) : (s.modTenant t f).retention = s.retention := rfl
@[simp] theorem State.modTenant_defects (s : State) (t : Nat) (f : Tenant → Tenant) : (s.modTenant t f).defects = s.defects := rfl
@[simp] theorem State.modTenant_contexts (s : State) (t : Nat) (f : Tenant → Tenant) : (s.modTenant t f).contexts = s.contexts := rfl
@[simp] theorem State.modTenant_gens (s : State) (t : Nat) (f : Tenant → Tenant) : (s.modTenant t f).gens = s.gens := rfl
@[simp] theorem State.modTenant_tlb (s : State) (t : Nat) (f : Tenant → Tenant) : (s.modTenant t f).tlb = s.tlb := rfl
@[simp] theorem State.modTenant_walks (s : State) (t : Nat) (f : Tenant → Tenant) : (s.modTenant t f).walks = s.walks := rfl
@[simp] theorem State.modTenant_outb (s : State) (t : Nat) (f : Tenant → Tenant) : (s.modTenant t f).outb = s.outb := rfl
@[simp] theorem State.modTenant_cores (s : State) (t : Nat) (f : Tenant → Tenant) : (s.modTenant t f).cores = s.cores := rfl
@[simp] theorem State.modTenant_insts (s : State) (t : Nat) (f : Tenant → Tenant) : (s.modTenant t f).insts = s.insts := rfl
@[simp] theorem State.modTenant_launches (s : State) (t : Nat) (f : Tenant → Tenant) : (s.modTenant t f).launches = s.launches := rfl
@[simp] theorem State.modTenant_pushes (s : State) (t : Nat) (f : Tenant → Tenant) : (s.modTenant t f).pushes = s.pushes := rfl
@[simp] theorem State.modTenant_resets (s : State) (t : Nat) (f : Tenant → Tenant) : (s.modTenant t f).resets = s.resets := rfl
@[simp] theorem State.modTenant_resetSerial (s : State) (t : Nat) (f : Tenant → Tenant) : (s.modTenant t f).resetSerial = s.resetSerial := rfl
@[simp] theorem State.modTenant_launchSeq (s : State) (t : Nat) (f : Tenant → Tenant) : (s.modTenant t f).launchSeq = s.launchSeq := rfl
@[simp] theorem State.modTenant_fes (s : State) (t : Nat) (f : Tenant → Tenant) : (s.modTenant t f).fes = s.fes := rfl
@[simp] theorem State.modTenant_store (s : State) (t : Nat) (f : Tenant → Tenant) : (s.modTenant t f).store = s.store := rfl
@[simp] theorem State.modTenant_chans (s : State) (t : Nat) (f : Tenant → Tenant) : (s.modTenant t f).chans = s.chans := rfl
@[simp] theorem State.modTenant_reports (s : State) (t : Nat) (f : Tenant → Tenant) : (s.modTenant t f).reports = s.reports := rfl
@[simp] theorem State.modTenant_detect (s : State) (t : Nat) (f : Tenant → Tenant) : (s.modTenant t f).detect = s.detect := rfl
@[simp] theorem State.modTenant_reserves (s : State) (t : Nat) (f : Tenant → Tenant) : (s.modTenant t f).reserves = s.reserves := rfl
@[simp] theorem State.modTenant_recs (s : State) (t : Nat) (f : Tenant → Tenant) : (s.modTenant t f).recs = s.recs := rfl
@[simp] theorem State.modTenant_lanes (s : State) (t : Nat) (f : Tenant → Tenant) : (s.modTenant t f).lanes = s.lanes := rfl
@[simp] theorem State.modTenant_leaves (s : State) (t : Nat) (f : Tenant → Tenant) : (s.modTenant t f).leaves = s.leaves := rfl
@[simp] theorem State.modTenant_dies (s : State) (t : Nat) (f : Tenant → Tenant) : (s.modTenant t f).dies = s.dies := rfl
@[simp] theorem State.modTenant_time (s : State) (t : Nat) (f : Tenant → Tenant) : (s.modTenant t f).time = s.time := rfl
@[simp] theorem State.modTenant_table (s : State) (t : Nat) (f : Tenant → Tenant) : (s.modTenant t f).table = s.table := rfl
@[simp] theorem State.modTenant_calendar (s : State) (t : Nat) (f : Tenant → Tenant) : (s.modTenant t f).calendar = s.calendar := rfl
@[simp] theorem State.modTenant_links (s : State) (t : Nat) (f : Tenant → Tenant) : (s.modTenant t f).links = s.links := rfl
@[simp] theorem State.modTenant_bounds (s : State) (t : Nat) (f : Tenant → Tenant) : (s.modTenant t f).bounds = s.bounds := rfl
@[simp] theorem State.modTenant_ports (s : State) (t : Nat) (f : Tenant → Tenant) : (s.modTenant t f).ports = s.ports := rfl
@[simp] theorem State.modTenant_peers (s : State) (t : Nat) (f : Tenant → Tenant) : (s.modTenant t f).peers = s.peers := rfl
@[simp] theorem State.modTenant_outReads (s : State) (t : Nat) (f : Tenant → Tenant) : (s.modTenant t f).outReads = s.outReads := rfl
@[simp] theorem State.modTenant_outWrites (s : State) (t : Nat) (f : Tenant → Tenant) : (s.modTenant t f).outWrites = s.outWrites := rfl
@[simp] theorem State.modTenant_hostSeen (s : State) (t : Nat) (f : Tenant → Tenant) : (s.modTenant t f).hostSeen = s.hostSeen := rfl
@[simp] theorem State.modTenant_log (s : State) (t : Nat) (f : Tenant → Tenant) : (s.modTenant t f).log = s.log := rfl
@[simp] theorem State.modTenant_fw (s : State) (t : Nat) (f : Tenant → Tenant) : (s.modTenant t f).fw = s.fw := rfl

/-! ## State.modPort -/

@[simp] theorem State.modPort_agenda (s : State) (p : Nat) (f : HostPort → HostPort) : (s.modPort p f).agenda = s.agenda := rfl
@[simp] theorem State.modPort_cur (s : State) (p : Nat) (f : HostPort → HostPort) : (s.modPort p f).cur = s.cur := rfl
@[simp] theorem State.modPort_fresh (s : State) (p : Nat) (f : HostPort → HostPort) : (s.modPort p f).fresh = s.fresh := rfl
@[simp] theorem State.modPort_bringup (s : State) (p : Nat) (f : HostPort → HostPort) : (s.modPort p f).bringup = s.bringup := rfl
@[simp] theorem State.modPort_cycle (s : State) (p : Nat) (f : HostPort → HostPort) : (s.modPort p f).cycle = s.cycle := rfl
@[simp] theorem State.modPort_mem (s : State) (p : Nat) (f : HostPort → HostPort) : (s.modPort p f).mem = s.mem := rfl
@[simp] theorem State.modPort_poison (s : State) (p : Nat) (f : HostPort → HostPort) : (s.modPort p f).poison = s.poison := rfl
@[simp] theorem State.modPort_flaws (s : State) (p : Nat) (f : HostPort → HostPort) : (s.modPort p f).flaws = s.flaws := rfl
@[simp] theorem State.modPort_writebacks (s : State) (p : Nat) (f : HostPort → HostPort) : (s.modPort p f).writebacks = s.writebacks := rfl
@[simp] theorem State.modPort_retention (s : State) (p : Nat) (f : HostPort → HostPort) : (s.modPort p f).retention = s.retention := rfl
@[simp] theorem State.modPort_defects (s : State) (p : Nat) (f : HostPort → HostPort) : (s.modPort p f).defects = s.defects := rfl
@[simp] theorem State.modPort_contexts (s : State) (p : Nat) (f : HostPort → HostPort) : (s.modPort p f).contexts = s.contexts := rfl
@[simp] theorem State.modPort_gens (s : State) (p : Nat) (f : HostPort → HostPort) : (s.modPort p f).gens = s.gens := rfl
@[simp] theorem State.modPort_tenants (s : State) (p : Nat) (f : HostPort → HostPort) : (s.modPort p f).tenants = s.tenants := rfl
@[simp] theorem State.modPort_tlb (s : State) (p : Nat) (f : HostPort → HostPort) : (s.modPort p f).tlb = s.tlb := rfl
@[simp] theorem State.modPort_walks (s : State) (p : Nat) (f : HostPort → HostPort) : (s.modPort p f).walks = s.walks := rfl
@[simp] theorem State.modPort_outb (s : State) (p : Nat) (f : HostPort → HostPort) : (s.modPort p f).outb = s.outb := rfl
@[simp] theorem State.modPort_cores (s : State) (p : Nat) (f : HostPort → HostPort) : (s.modPort p f).cores = s.cores := rfl
@[simp] theorem State.modPort_insts (s : State) (p : Nat) (f : HostPort → HostPort) : (s.modPort p f).insts = s.insts := rfl
@[simp] theorem State.modPort_launches (s : State) (p : Nat) (f : HostPort → HostPort) : (s.modPort p f).launches = s.launches := rfl
@[simp] theorem State.modPort_pushes (s : State) (p : Nat) (f : HostPort → HostPort) : (s.modPort p f).pushes = s.pushes := rfl
@[simp] theorem State.modPort_resets (s : State) (p : Nat) (f : HostPort → HostPort) : (s.modPort p f).resets = s.resets := rfl
@[simp] theorem State.modPort_resetSerial (s : State) (p : Nat) (f : HostPort → HostPort) : (s.modPort p f).resetSerial = s.resetSerial := rfl
@[simp] theorem State.modPort_launchSeq (s : State) (p : Nat) (f : HostPort → HostPort) : (s.modPort p f).launchSeq = s.launchSeq := rfl
@[simp] theorem State.modPort_fes (s : State) (p : Nat) (f : HostPort → HostPort) : (s.modPort p f).fes = s.fes := rfl
@[simp] theorem State.modPort_store (s : State) (p : Nat) (f : HostPort → HostPort) : (s.modPort p f).store = s.store := rfl
@[simp] theorem State.modPort_chans (s : State) (p : Nat) (f : HostPort → HostPort) : (s.modPort p f).chans = s.chans := rfl
@[simp] theorem State.modPort_reports (s : State) (p : Nat) (f : HostPort → HostPort) : (s.modPort p f).reports = s.reports := rfl
@[simp] theorem State.modPort_detect (s : State) (p : Nat) (f : HostPort → HostPort) : (s.modPort p f).detect = s.detect := rfl
@[simp] theorem State.modPort_reserves (s : State) (p : Nat) (f : HostPort → HostPort) : (s.modPort p f).reserves = s.reserves := rfl
@[simp] theorem State.modPort_recs (s : State) (p : Nat) (f : HostPort → HostPort) : (s.modPort p f).recs = s.recs := rfl
@[simp] theorem State.modPort_lanes (s : State) (p : Nat) (f : HostPort → HostPort) : (s.modPort p f).lanes = s.lanes := rfl
@[simp] theorem State.modPort_leaves (s : State) (p : Nat) (f : HostPort → HostPort) : (s.modPort p f).leaves = s.leaves := rfl
@[simp] theorem State.modPort_dies (s : State) (p : Nat) (f : HostPort → HostPort) : (s.modPort p f).dies = s.dies := rfl
@[simp] theorem State.modPort_time (s : State) (p : Nat) (f : HostPort → HostPort) : (s.modPort p f).time = s.time := rfl
@[simp] theorem State.modPort_table (s : State) (p : Nat) (f : HostPort → HostPort) : (s.modPort p f).table = s.table := rfl
@[simp] theorem State.modPort_calendar (s : State) (p : Nat) (f : HostPort → HostPort) : (s.modPort p f).calendar = s.calendar := rfl
@[simp] theorem State.modPort_links (s : State) (p : Nat) (f : HostPort → HostPort) : (s.modPort p f).links = s.links := rfl
@[simp] theorem State.modPort_bounds (s : State) (p : Nat) (f : HostPort → HostPort) : (s.modPort p f).bounds = s.bounds := rfl
@[simp] theorem State.modPort_peers (s : State) (p : Nat) (f : HostPort → HostPort) : (s.modPort p f).peers = s.peers := rfl
@[simp] theorem State.modPort_outReads (s : State) (p : Nat) (f : HostPort → HostPort) : (s.modPort p f).outReads = s.outReads := rfl
@[simp] theorem State.modPort_outWrites (s : State) (p : Nat) (f : HostPort → HostPort) : (s.modPort p f).outWrites = s.outWrites := rfl
@[simp] theorem State.modPort_hostSeen (s : State) (p : Nat) (f : HostPort → HostPort) : (s.modPort p f).hostSeen = s.hostSeen := rfl
@[simp] theorem State.modPort_log (s : State) (p : Nat) (f : HostPort → HostPort) : (s.modPort p f).log = s.log := rfl
@[simp] theorem State.modPort_fw (s : State) (p : Nat) (f : HostPort → HostPort) : (s.modPort p f).fw = s.fw := rfl

/-! ## State.putBytes -/

@[simp] theorem State.putBytes_agenda (s : State) (key : Nat) (bs : List Byte) : (s.putBytes key bs).agenda = s.agenda := rfl
@[simp] theorem State.putBytes_cur (s : State) (key : Nat) (bs : List Byte) : (s.putBytes key bs).cur = s.cur := rfl
@[simp] theorem State.putBytes_fresh (s : State) (key : Nat) (bs : List Byte) : (s.putBytes key bs).fresh = s.fresh := rfl
@[simp] theorem State.putBytes_bringup (s : State) (key : Nat) (bs : List Byte) : (s.putBytes key bs).bringup = s.bringup := rfl
@[simp] theorem State.putBytes_cycle (s : State) (key : Nat) (bs : List Byte) : (s.putBytes key bs).cycle = s.cycle := rfl
@[simp] theorem State.putBytes_retention (s : State) (key : Nat) (bs : List Byte) : (s.putBytes key bs).retention = s.retention := rfl
@[simp] theorem State.putBytes_defects (s : State) (key : Nat) (bs : List Byte) : (s.putBytes key bs).defects = s.defects := rfl
@[simp] theorem State.putBytes_contexts (s : State) (key : Nat) (bs : List Byte) : (s.putBytes key bs).contexts = s.contexts := rfl
@[simp] theorem State.putBytes_gens (s : State) (key : Nat) (bs : List Byte) : (s.putBytes key bs).gens = s.gens := rfl
@[simp] theorem State.putBytes_tenants (s : State) (key : Nat) (bs : List Byte) : (s.putBytes key bs).tenants = s.tenants := rfl
@[simp] theorem State.putBytes_tlb (s : State) (key : Nat) (bs : List Byte) : (s.putBytes key bs).tlb = s.tlb := rfl
@[simp] theorem State.putBytes_walks (s : State) (key : Nat) (bs : List Byte) : (s.putBytes key bs).walks = s.walks := rfl
@[simp] theorem State.putBytes_outb (s : State) (key : Nat) (bs : List Byte) : (s.putBytes key bs).outb = s.outb := rfl
@[simp] theorem State.putBytes_cores (s : State) (key : Nat) (bs : List Byte) : (s.putBytes key bs).cores = s.cores := rfl
@[simp] theorem State.putBytes_insts (s : State) (key : Nat) (bs : List Byte) : (s.putBytes key bs).insts = s.insts := rfl
@[simp] theorem State.putBytes_launches (s : State) (key : Nat) (bs : List Byte) : (s.putBytes key bs).launches = s.launches := rfl
@[simp] theorem State.putBytes_pushes (s : State) (key : Nat) (bs : List Byte) : (s.putBytes key bs).pushes = s.pushes := rfl
@[simp] theorem State.putBytes_resets (s : State) (key : Nat) (bs : List Byte) : (s.putBytes key bs).resets = s.resets := rfl
@[simp] theorem State.putBytes_resetSerial (s : State) (key : Nat) (bs : List Byte) : (s.putBytes key bs).resetSerial = s.resetSerial := rfl
@[simp] theorem State.putBytes_launchSeq (s : State) (key : Nat) (bs : List Byte) : (s.putBytes key bs).launchSeq = s.launchSeq := rfl
@[simp] theorem State.putBytes_fes (s : State) (key : Nat) (bs : List Byte) : (s.putBytes key bs).fes = s.fes := rfl
@[simp] theorem State.putBytes_store (s : State) (key : Nat) (bs : List Byte) : (s.putBytes key bs).store = s.store := rfl
@[simp] theorem State.putBytes_chans (s : State) (key : Nat) (bs : List Byte) : (s.putBytes key bs).chans = s.chans := rfl
@[simp] theorem State.putBytes_reports (s : State) (key : Nat) (bs : List Byte) : (s.putBytes key bs).reports = s.reports := rfl
@[simp] theorem State.putBytes_detect (s : State) (key : Nat) (bs : List Byte) : (s.putBytes key bs).detect = s.detect := rfl
@[simp] theorem State.putBytes_reserves (s : State) (key : Nat) (bs : List Byte) : (s.putBytes key bs).reserves = s.reserves := rfl
@[simp] theorem State.putBytes_recs (s : State) (key : Nat) (bs : List Byte) : (s.putBytes key bs).recs = s.recs := rfl
@[simp] theorem State.putBytes_lanes (s : State) (key : Nat) (bs : List Byte) : (s.putBytes key bs).lanes = s.lanes := rfl
@[simp] theorem State.putBytes_leaves (s : State) (key : Nat) (bs : List Byte) : (s.putBytes key bs).leaves = s.leaves := rfl
@[simp] theorem State.putBytes_dies (s : State) (key : Nat) (bs : List Byte) : (s.putBytes key bs).dies = s.dies := rfl
@[simp] theorem State.putBytes_time (s : State) (key : Nat) (bs : List Byte) : (s.putBytes key bs).time = s.time := rfl
@[simp] theorem State.putBytes_table (s : State) (key : Nat) (bs : List Byte) : (s.putBytes key bs).table = s.table := rfl
@[simp] theorem State.putBytes_calendar (s : State) (key : Nat) (bs : List Byte) : (s.putBytes key bs).calendar = s.calendar := rfl
@[simp] theorem State.putBytes_links (s : State) (key : Nat) (bs : List Byte) : (s.putBytes key bs).links = s.links := rfl
@[simp] theorem State.putBytes_bounds (s : State) (key : Nat) (bs : List Byte) : (s.putBytes key bs).bounds = s.bounds := rfl
@[simp] theorem State.putBytes_ports (s : State) (key : Nat) (bs : List Byte) : (s.putBytes key bs).ports = s.ports := rfl
@[simp] theorem State.putBytes_peers (s : State) (key : Nat) (bs : List Byte) : (s.putBytes key bs).peers = s.peers := rfl
@[simp] theorem State.putBytes_outReads (s : State) (key : Nat) (bs : List Byte) : (s.putBytes key bs).outReads = s.outReads := rfl
@[simp] theorem State.putBytes_outWrites (s : State) (key : Nat) (bs : List Byte) : (s.putBytes key bs).outWrites = s.outWrites := rfl
@[simp] theorem State.putBytes_hostSeen (s : State) (key : Nat) (bs : List Byte) : (s.putBytes key bs).hostSeen = s.hostSeen := rfl
@[simp] theorem State.putBytes_log (s : State) (key : Nat) (bs : List Byte) : (s.putBytes key bs).log = s.log := rfl
@[simp] theorem State.putBytes_fw (s : State) (key : Nat) (bs : List Byte) : (s.putBytes key bs).fw = s.fw := rfl

/-! ## What the updated tables read -/

theorem aget_amod_ne {α : Type} {k j : Nat} (f : α → α) (m : Assoc α) (h : j ≠ k) : aget k (amod j f m) = aget k m := by
  induction m with
  | nil => rfl
  | cons x m ih =>
    obtain ⟨a, b⟩ := x
    simp only [amod]
    split
    · rename_i e; subst e; simp [aget, h]
    · simp only [aget, ih]

theorem amod_amod {α : Type} (k : Nat) (f g : α → α) (m : Assoc α) :
    amod k g (amod k f m) = amod k (fun a => g (f a)) m := by
  induction m with
  | nil => rfl
  | cons x m ih =>
    obtain ⟨a, b⟩ := x
    simp only [amod]
    split
    · rename_i e; subst e; simp [amod]
    · rename_i e; simp only [amod, if_neg e, ih]

theorem amod_id {α : Type} (k : Nat) (m : Assoc α) : amod k (fun a => a) m = m := by
  induction m with
  | nil => rfl
  | cons x m ih => simp only [amod, ih]; split <;> rfl

@[simp] theorem State.inst_modInst_self (s : State) (i : Nat) (f : Inst → Inst) :
    (s.modInst i f).inst? i = (s.inst? i).map f := aget_amod_self i f s.insts

theorem State.inst_modInst_ne (s : State) {i j : Nat} (f : Inst → Inst) (h : i ≠ j) :
    (s.modInst i f).inst? j = s.inst? j := aget_amod_ne f s.insts h

@[simp] theorem State.inst_modCtl_self (s : State) (i : Nat) (f : Ctl → Ctl) :
    (s.modCtl i f).inst? i = (s.inst? i).map fun n => { n with ctl := f n.ctl } := aget_amod_self i _ s.insts

theorem State.inst_modCtl_ne (s : State) {i j : Nat} (f : Ctl → Ctl) (h : i ≠ j) :
    (s.modCtl i f).inst? j = s.inst? j := aget_amod_ne _ s.insts h

theorem State.modInst_modInst (s : State) (i : Nat) (f g : Inst → Inst) :
    (s.modInst i f).modInst i g = s.modInst i fun n => g (f n) := by
  simp only [State.modInst, amod_amod]

theorem State.modCtl_modCtl (s : State) (i : Nat) (f g : Ctl → Ctl) :
    (s.modCtl i f).modCtl i g = s.modCtl i fun c => g (f c) := by
  simp only [State.modCtl, State.modInst_modInst]

theorem State.modCtl_id (s : State) (i : Nat) : (s.modCtl i fun c => c) = s := by
  simp only [State.modCtl, State.modInst, amod_id]

@[simp] theorem State.core_modCore_self (s : State) (c : Nat) (f : Core → Core) : (s.modCore c f).core c = f (s.core c) := by
  simp [State.core, State.modCore, agetD, aget_aset_self]

@[simp] theorem State.die_modDie_self (s : State) (d : Nat) (f : DieState → DieState) : (s.modDie d f).die d = f (s.die d) := by
  simp [State.die, State.modDie, agetD, aget_aset_self]

@[simp] theorem State.fe_modFe_self (s : State) (x : Nat) (f : Fe → Fe) : (s.modFe x f).fe x = f (s.fe x) := by
  simp [State.fe, State.modFe, agetD, aget_aset_self]

theorem State.fe_modFe_ne (s : State) {x y : Nat} (f : Fe → Fe) (h : x ≠ y) : (s.modFe x f).fe y = s.fe y := by
  simp [State.fe, State.modFe, agetD, aget_aset_ne x y _ _ (Ne.symm h)]

@[simp] theorem State.tenant_modTenant_self (s : State) (t : Nat) (f : Tenant → Tenant) :
    (s.modTenant t f).tenant t = f (s.tenant t) := by
  simp [State.tenant, State.modTenant, agetD, aget_aset_self]

@[simp] theorem State.port_modPort_self (s : State) (p : Nat) (f : HostPort → HostPort) :
    (s.modPort p f).port p = f (s.port p) := by
  simp [State.port, State.modPort, agetD, aget_aset_self]

end Sys2Proof.Machine
end

