-- ==== Sys2Proof/Laws/Ops.lean ====
section
/-! SUPPORT. What the shared slot operations do: firing, delivery, faults, exits and commit actions. -/

namespace Sys2Proof.Machine

open Sys2Proof.Bits Sys2Proof.Rows

/-! ## Firing -/

/-- A slot that fires does what its meaning says of a firing with values. -/
theorem fireOp_of_firing {x : Instr} {opc : Nat} {f : Fields} {s : State} {fr : Firing} (go : Firing → State)
    (hx : x.slotFields = some (opc, f)) (ha : translatesAhead opc = false) (h : firing x s = some fr) :
    fireOp opc f s go = .next (go fr) := by
  unfold firing at h
  rw [hx] at h
  unfold fireOp
  split at h
  · rename_i hc
    rename_i n b r o g
    split at h
    · rename_i hr
      split at h
      · rename_i hw
        cases h
        cases g
        rw [hc, hr]
        simp only [unfired, ha, Bool.false_and, Bool.or_false, Bool.and_eq_true, beq_iff_eq] at hw
        simp only [hw.1, hw.2]
      · cases h
    · cases h
  · cases h

/-- An ST or atomic that fires with values goes on with the pieces it has translated ahead, or translates now. -/
theorem fireMem_of_firing {x : Instr} {opc align : Nat} {f : MOp} {s : State} {fr : Firing} {a : Inst → Access}
    (go early : Firing → State → List Piece → State) (hx : x.slotFields = some (opc, .m f)) (h : firing x s = some fr) :
    fireMem opc f s align a go early = .next (if fr.rec_.st = .translated then go fr s fr.rec_.pieces
      else match slotXlate s fr f.as (memAddr f fr.l) (sizeBytes f.sz) align (a fr.n) true with
        | .stop s => s
        | .ok s ps => go fr s ps) := by
  unfold firing at h
  rw [hx] at h
  unfold fireMem
  split at h
  · rename_i hc
    rename_i n b r g
    split at h
    · rename_i hr
      split at h
      · rename_i hw
        cases h
        cases g
        rw [hc, hr]
        simp only [unfired, Bool.and_eq_true, Bool.or_eq_true, beq_iff_eq] at hw
        have hs : r.st = .waiting ∨ r.st = .walking ∨ r.st = .translated := by
          rcases hw.1 with h | ⟨_, h⟩
          · exact .inl h
          · exact .inr (.inr h)
        dsimp only
        rw [if_pos hs]
        have hf := hw.2
        simp only [predOf] at hf
        rw [hf]
        dsimp only
        split
        · rfl
        · split <;> (rename_i hx; first | rw [hx] | rfl)
      · cases h
    · cases h
  · cases h

/-! ## What slot operations touch -/

theorem SlotOnly.of_modCtl {i : Nat} {s : State} (g : Ctl → Ctl)
    (hg : ∀ c, g c = { c with blk := (g c).blk, due := (g c).due }) : SlotOnly i s (s.modCtl i g) :=
  ⟨fun c => (g c).blk, fun c => (g c).due, by congr 1; exact funext hg⟩

theorem SlotOnly.refl (i : Nat) (s : State) : SlotOnly i s s :=
  ⟨fun c => c.blk, fun c => c.due, (State.modCtl_id s i).symm⟩

theorem SlotOnly.trans {i : Nat} {s t u : State} (h : SlotOnly i s t) (k : SlotOnly i t u) : SlotOnly i s u := by
  obtain ⟨b, d, rfl⟩ := h
  obtain ⟨b', d', rfl⟩ := k
  rw [State.modCtl_modCtl]
  exact SlotOnly.of_modCtl _ fun _ => rfl

theorem SlotOnly.ite {i : Nat} {s a b : State} (c : Prop) [Decidable c] (ha : SlotOnly i s a) (hb : SlotOnly i s b) :
    SlotOnly i s (if c then a else b) := by
  split
  · exact ha
  · exact hb

theorem SlotOnly.modBlk (i : Nat) (s : State) (f : Block → Block) : SlotOnly i s (s.modBlk i f) :=
  SlotOnly.of_modCtl _ fun _ => rfl

theorem SlotOnly.modSlot (i k : Nat) (s : State) (f : SlotRec → SlotRec) : SlotOnly i s (s.modSlot i k f) :=
  SlotOnly.modBlk i s _

theorem SlotOnly.raise (s : State) (i code slot : Nat) (addr : Word) : SlotOnly i s (raise s i code slot addr) := by
  unfold Machine.raise
  dsimp only
  refine SlotOnly.of_modCtl _ fun c => ?_
  split <;> rfl

theorem SlotOnly.deliver (s : State) (i : Nat) (t : Target) (v : Val) : SlotOnly i s (deliver s i t v) := by
  unfold Machine.deliver
  repeat' (first
    | exact SlotOnly.refl i s
    | exact SlotOnly.raise _ _ _ _ _
    | exact SlotOnly.modSlot _ _ _ _
    | exact SlotOnly.modBlk _ _ _
    | split
    | dsimp only)

theorem SlotOnly.deliverAll (s : State) (i : Nat) (ds : List (Target × Val)) : SlotOnly i s (deliverAll s i ds) := by
  unfold Machine.deliverAll
  induction ds generalizing s with
  | nil => exact SlotOnly.refl i s
  | cons d ds ih => exact (SlotOnly.deliver s i d.1 d.2).trans (ih _)

theorem SlotOnly.done (fr : Firing) (s : State) (ts : List Target) (v : Word) : SlotOnly fr.i s (fr.done s ts v) :=
  (SlotOnly.modSlot _ _ _ _).trans (SlotOnly.deliverAll _ _ _)

theorem SlotOnly.doneAll (fr : Firing) (s : State) (ds : List (Target × Val)) : SlotOnly fr.i s (fr.doneAll s ds) :=
  (SlotOnly.modSlot _ _ _ _).trans (SlotOnly.deliverAll _ _ _)

theorem SlotOnly.fault (fr : Firing) (s : State) (code : Nat) (addr : Word) : SlotOnly fr.i s (fr.fault s code addr) :=
  SlotOnly.raise _ _ _ _ _

theorem SlotOnly.exit (fr : Firing) (s : State) (e : ExitTo) : SlotOnly fr.i s (fr.exit s e) := by
  unfold Firing.exit
  dsimp only
  split
  · exact (SlotOnly.modSlot fr.i fr.k s _).trans (SlotOnly.raise _ _ _ _ _)
  · exact (SlotOnly.modSlot fr.i fr.k s _).trans (SlotOnly.modBlk _ _ _)

theorem SlotOnly.note (fr : Firing) (s : State) (a : CommitAct) : SlotOnly fr.i s (fr.note s a) :=
  (SlotOnly.modSlot _ _ _ _).trans (SlotOnly.modBlk _ _ _)

theorem SlotOnly.exitCheck (s : State) (i : Nat) : SlotOnly i s (exitCheck s i) := by
  unfold Machine.exitCheck
  repeat' (first
    | exact SlotOnly.refl i s
    | exact SlotOnly.raise _ _ _ _ _
    | split
    | dsimp only)

/-- A slot operation touches what a firing of it with values touches, and otherwise its block alone: `R` is any
relation between states that holds of a slot-only change. -/
theorem fireOp_frame {opc : Nat} {f : Fields} {s t : State} {go : Firing → State} (R : State → State → Prop)
    (hR : ∀ u, SlotOnly s.cur.1 s u → R s u) (hgo : ∀ fr : Firing, fr.i = s.cur.1 → fr.k = s.cur.2 → R s (go fr))
    (h : fireOp opc f s go = .next t) : R s t := by
  unfold fireOp at h
  split at h
  · rename_i n b r row hc hr
    dsimp only at h
    split at h
    · split at h
      · cases h; exact hR _ (SlotOnly.refl _ _)
      · cases h
        apply hR
        split
        · exact (SlotOnly.modSlot _ _ _ _).trans (SlotOnly.exitCheck _ _)
        · exact SlotOnly.modSlot _ _ _ _
      · cases h
        apply hR
        split
        · exact ((SlotOnly.modSlot _ _ _ _).trans (SlotOnly.exitCheck _ _)).trans (SlotOnly.deliverAll _ _ _)
        · exact (SlotOnly.modSlot _ _ _ _).trans (SlotOnly.deliverAll _ _ _)
      · cases h; exact hgo _ rfl rfl
    · cases h; exact hgo _ rfl rfl
    · cases h; exact hgo _ rfl rfl
    · cases h; exact hR _ (SlotOnly.refl _ _)
  · cases h; exact hR _ (SlotOnly.refl _ _)

/-- The frame of a slot operation whose firings touch their block alone. -/
theorem fireOp_slotOnly {opc : Nat} {f : Fields} {s t : State} {go : Firing → State}
    (hgo : ∀ fr : Firing, SlotOnly fr.i s (go fr)) (h : fireOp opc f s go = .next t) : SlotOnly s.cur.1 s t :=
  fireOp_frame (SlotOnly s.cur.1) (fun _ hu => hu) (fun fr hi _ => hi ▸ hgo fr) h

end Sys2Proof.Machine
end

