-- ==== Sys2Proof/Laws/Alu.lean ====
section
/-! SUPPORT. The readings of a word at an operation width (R224) as bit vectors of that width, and WIDTH's masking as
truncation with extension. -/

namespace Sys2Proof.Machine

open Sys2Proof.Bits Sys2Proof.Rows

theorem sextI_toInt {n : Nat} (v : BitVec n) : sextI v.toNat n = v.toInt := by
  unfold sextI
  simp only [Nat.mod_eq_of_lt v.isLt]
  rcases Nat.eq_zero_or_pos n with rfl | hn
  · simp [BitVec.toInt, Subsingleton.elim v 0]
  · rw [BitVec.toInt_eq_msb_cond, BitVec.msb_eq_getLsbD_last]
    simp only [BitVec.getLsbD, ne_eq, Nat.pos_iff_ne_zero.mp hn, not_false_eq_true, true_and]

theorem sextI_mod (v n : Nat) : sextI v n = (BitVec.ofNat n v).toInt := by
  rw [← sextI_toInt, BitVec.toNat_ofNat]
  unfold sextI
  simp

@[simp] theorem uOf_64 (v : Word) : uOf 64 v = v.toNat := Nat.mod_eq_of_lt v.isLt
@[simp] theorem uOf_32 (v : Word) : uOf 32 v = (low32 v).toNat := by simp [uOf, low32, BitVec.toNat_setWidth]
@[simp] theorem sOf_64 (v : Word) : sOf 64 v = v.toInt := sextI_toInt v
@[simp] theorem sOf_32 (v : Word) : sOf 32 v = (low32 v).toInt := by
  rw [sOf, sextI_mod, low32]
  congr 1

/-- WIDTH's masking of a result (R221, R224). -/
theorem maskToWidth_eq (v : Int) (w : Width) : maskToWidth v w = byWidth w (BitVec.ofInt 64 v) (BitVec.ofInt 32 v) := by
  have h : (v % 2 ^ 32).toNat = (BitVec.ofInt 32 v).toNat := by simp [BitVec.toNat_ofInt]
  cases w with
  | d => rfl
  | ws =>
    simp only [maskToWidth, byWidth, h, sextI_toInt]
    rfl
  | wz =>
    simp only [maskToWidth, byWidth, h]
    exact BitVec.eq_of_toNat_eq (by simp [BitVec.toNat_setWidth])

/-- The right value of a G slot (R224). -/
theorem rightOf_eq (f : GOp) (r : Word) : rightOf f r = rightVal f r := by
  unfold rightOf rightVal sext
  rw [sextI_toInt]
  rfl

/-- A computing G slot touches its block alone. -/
theorem aluOp_slotOnly {opc : Nat} {f : GOp} {s t : State} {res : Nat → Word → Word → Int}
    (h : aluOp opc f s res = .next t) : SlotOnly s.cur.1 s t :=
  fireOp_slotOnly (fun _ => SlotOnly.done _ _ _ _) h

/-- A dividing slot touches its block alone. -/
theorem divOp_slotOnly {opc : Nat} {f : GOp} {s t : State} {signed : Bool} {pick : Int × Int × Bool → Int}
    (h : divOp opc f s signed pick = .next t) : SlotOnly s.cur.1 s t := by
  refine fireOp_slotOnly (fun fr => ?_) h
  dsimp only
  exact (SlotOnly.ite _ (SlotOnly.modBlk _ _ _) (SlotOnly.refl _ _)).trans (SlotOnly.done _ _ _ _)

end Sys2Proof.Machine
end

