-- ==== Sys2Proof/Laws/Dispatch.lean ====
section
/-! SUPPORT. Which meaning each constructor of Instr has. -/

namespace Sys2Proof.Machine

theorem exec_bringUp (b : BringUpInput) (s : State) : exec (.bringUp b) s = execBringUp b s := rfl
theorem exec_contextCreate (ctx : BitVec 8) (d : CtxDesc) (s : State) : exec (.contextCreate ctx d) s = execContextCreate ctx d s := rfl
theorem exec_contextDestroy (ctx : BitVec 8) (s : State) : exec (.contextDestroy ctx) s = execContextDestroy ctx s := rfl
theorem exec_channelDestroy (handle : BitVec 32) (s : State) : exec (.channelDestroy handle) s = execChannelDestroy handle s := rfl
theorem exec_firmwareGrant (g : Grant) (s : State) : exec (.firmwareGrant g) s = execFirmwareGrant g s := rfl
theorem exec_blockFetch (i : Nat) (s : State) : exec (.blockFetch i) s = execBlockFetch i s := rfl
theorem exec_blockStart (i : Nat) (s : State) : exec (.blockStart i) s = execBlockStart i s := rfl
theorem exec_blockCommit (i : Nat) (s : State) : exec (.blockCommit i) s = execBlockCommit i s := rfl
theorem exec_blockStall (i : Nat) (s : State) : exec (.blockStall i) s = execBlockStall i s := rfl
theorem exec_trapEntry (i : Nat) (s : State) : exec (.trapEntry i) s = execTrapEntry i s := rfl
theorem exec_fan (f : GOp) (s : State) : exec (.fan f) s = execFan f s := rfl
theorem exec_null (f : GOp) (s : State) : exec (.null f) s = execNull f s := rfl
theorem exec_movi (f : GOp) (s : State) : exec (.movi f) s = execMovi f s := rfl
theorem exec_appi (f : GOp) (s : State) : exec (.appi f) s = execAppi f s := rfl
theorem exec_add (f : GOp) (s : State) : exec (.add f) s = execAdd f s := rfl
theorem exec_sub (f : GOp) (s : State) : exec (.sub f) s = execSub f s := rfl
theorem exec_mul (f : GOp) (s : State) : exec (.mul f) s = execMul f s := rfl
theorem exec_mulh (f : GOp) (s : State) : exec (.mulh f) s = execMulh f s := rfl
theorem exec_mulhu (f : GOp) (s : State) : exec (.mulhu f) s = execMulhu f s := rfl
theorem exec_div (f : GOp) (s : State) : exec (.div f) s = execDiv f s := rfl
theorem exec_divu (f : GOp) (s : State) : exec (.divu f) s = execDivu f s := rfl
theorem exec_rem (f : GOp) (s : State) : exec (.rem f) s = execRem f s := rfl
theorem exec_remu (f : GOp) (s : State) : exec (.remu f) s = execRemu f s := rfl
theorem exec_and (f : GOp) (s : State) : exec (.and f) s = execAnd f s := rfl
theorem exec_or (f : GOp) (s : State) : exec (.or f) s = execOr f s := rfl
theorem exec_xor (f : GOp) (s : State) : exec (.xor f) s = execXor f s := rfl
theorem exec_andn (f : GOp) (s : State) : exec (.andn f) s = execAndn f s := rfl
theorem exec_shl (f : GOp) (s : State) : exec (.shl f) s = execShl f s := rfl
theorem exec_shr (f : GOp) (s : State) : exec (.shr f) s = execShr f s := rfl
theorem exec_sra (f : GOp) (s : State) : exec (.sra f) s = execSra f s := rfl
theorem exec_rol (f : GOp) (s : State) : exec (.rol f) s = execRol f s := rfl
theorem exec_ror (f : GOp) (s : State) : exec (.ror f) s = execRor f s := rfl
theorem exec_min (f : GOp) (s : State) : exec (.min f) s = execMin f s := rfl
theorem exec_max (f : GOp) (s : State) : exec (.max f) s = execMax f s := rfl
theorem exec_minu (f : GOp) (s : State) : exec (.minu f) s = execMinu f s := rfl
theorem exec_maxu (f : GOp) (s : State) : exec (.maxu f) s = execMaxu f s := rfl
theorem exec_adds (f : GOp) (s : State) : exec (.adds f) s = execAdds f s := rfl
theorem exec_subs (f : GOp) (s : State) : exec (.subs f) s = execSubs f s := rfl
theorem exec_addus (f : GOp) (s : State) : exec (.addus f) s = execAddus f s := rfl
theorem exec_subus (f : GOp) (s : State) : exec (.subus f) s = execSubus f s := rfl
theorem exec_clz (f : GOp) (s : State) : exec (.clz f) s = execClz f s := rfl
theorem exec_ctz (f : GOp) (s : State) : exec (.ctz f) s = execCtz f s := rfl
theorem exec_popc (f : GOp) (s : State) : exec (.popc f) s = execPopc f s := rfl
theorem exec_bswap (f : GOp) (s : State) : exec (.bswap f) s = execBswap f s := rfl
theorem exec_sext (f : GOp) (s : State) : exec (.sext f) s = execSext f s := rfl
theorem exec_zext (f : GOp) (s : State) : exec (.zext f) s = execZext f s := rfl
theorem exec_neg (f : GOp) (s : State) : exec (.neg f) s = execNeg f s := rfl
theorem exec_not (f : GOp) (s : State) : exec (.not f) s = execNot f s := rfl
theorem exec_abs (f : GOp) (s : State) : exec (.abs f) s = execAbs f s := rfl
theorem exec_bfx (f : GOp) (s : State) : exec (.bfx f) s = execBfx f s := rfl
theorem exec_bfi (f : GOp) (s : State) : exec (.bfi f) s = execBfi f s := rfl
theorem exec_teq (f : GOp) (s : State) : exec (.teq f) s = execTeq f s := rfl
theorem exec_tne (f : GOp) (s : State) : exec (.tne f) s = execTne f s := rfl
theorem exec_tlt (f : GOp) (s : State) : exec (.tlt f) s = execTlt f s := rfl
theorem exec_tltu (f : GOp) (s : State) : exec (.tltu f) s = execTltu f s := rfl
theorem exec_tle (f : GOp) (s : State) : exec (.tle f) s = execTle f s := rfl
theorem exec_tleu (f : GOp) (s : State) : exec (.tleu f) s = execTleu f s := rfl
theorem exec_tgt (f : GOp) (s : State) : exec (.tgt f) s = execTgt f s := rfl
theorem exec_tgtu (f : GOp) (s : State) : exec (.tgtu f) s = execTgtu f s := rfl
theorem exec_tge (f : GOp) (s : State) : exec (.tge f) s = execTge f s := rfl
theorem exec_tgeu (f : GOp) (s : State) : exec (.tgeu f) s = execTgeu f s := rfl
theorem exec_tbs (f : GOp) (s : State) : exec (.tbs f) s = execTbs f s := rfl
theorem exec_tbc (f : GOp) (s : State) : exec (.tbc f) s = execTbc f s := rfl
theorem exec_sel (f : GOp) (s : State) : exec (.sel f) s = execSel f s := rfl
theorem exec_wid (f : GOp) (s : State) : exec (.wid f) s = execWid f s := rfl
theorem exec_time (f : GOp) (s : State) : exec (.time f) s = execTime f s := rfl
theorem exec_cyc (f : GOp) (s : State) : exec (.cyc f) s = execCyc f s := rfl
theorem exec_ctx (f : GOp) (s : State) : exec (.ctx f) s = execCtx f s := rfl
theorem exec_ld (f : MOp) (s : State) : exec (.ld f) s = execLd f s := rfl
theorem exec_st (f : MOp) (s : State) : exec (.st f) s = execSt f s := rfl
theorem exec_pft (f : MOp) (s : State) : exec (.pft f) s = execPft f s := rfl
theorem exec_aadd (f : MOp) (s : State) : exec (.aadd f) s = execAadd f s := rfl
theorem exec_aand (f : MOp) (s : State) : exec (.aand f) s = execAand f s := rfl
theorem exec_aor (f : MOp) (s : State) : exec (.aor f) s = execAor f s := rfl
theorem exec_axor (f : MOp) (s : State) : exec (.axor f) s = execAxor f s := rfl
theorem exec_amin (f : MOp) (s : State) : exec (.amin f) s = execAmin f s := rfl
theorem exec_amax (f : MOp) (s : State) : exec (.amax f) s = execAmax f s := rfl
theorem exec_aminu (f : MOp) (s : State) : exec (.aminu f) s = execAminu f s := rfl
theorem exec_amaxu (f : MOp) (s : State) : exec (.amaxu f) s = execAmaxu f s := rfl
theorem exec_aswp (f : MOp) (s : State) : exec (.aswp f) s = execAswp f s := rfl
theorem exec_acas (f : MOp) (s : State) : exec (.acas f) s = execAcas f s := rfl
theorem exec_fence (f : MOp) (s : State) : exec (.fence f) s = execFence f s := rfl
theorem exec_chsend (f : EOp) (s : State) : exec (.chsend f) s = execChsend f s := rfl
theorem exec_chrecv (f : EOp) (s : State) : exec (.chrecv f) s = execChrecv f s := rfl
theorem exec_chtry (f : EOp) (s : State) : exec (.chtry f) s = execChtry f s := rfl
theorem exec_chlen (f : EOp) (s : State) : exec (.chlen f) s = execChlen f s := rfl
theorem exec_chclose (f : EOp) (s : State) : exec (.chclose f) s = execChclose f s := rfl
theorem exec_semwait (f : EOp) (s : State) : exec (.semwait f) s = execSemwait f s := rfl
theorem exec_sempost (f : EOp) (s : State) : exec (.sempost f) s = execSempost f s := rfl
theorem exec_semread (f : EOp) (s : State) : exec (.semread f) s = execSemread f s := rfl
theorem exec_barinit (f : EOp) (s : State) : exec (.barinit f) s = execBarinit f s := rfl
theorem exec_bararr (f : EOp) (s : State) : exec (.bararr f) s = execBararr f s := rfl
theorem exec_barwait (f : EOp) (s : State) : exec (.barwait f) s = execBarwait f s := rfl
theorem exec_cpy (f : EOp) (s : State) : exec (.cpy f) s = execCpy f s := rfl
theorem exec_cpyc (f : EOp) (s : State) : exec (.cpyc f) s = execCpyc f s := rfl
theorem exec_cpyt (f : EOp) (s : State) : exec (.cpyt f) s = execCpyt f s := rfl
theorem exec_xtload (f : EOp) (s : State) : exec (.xtload f) s = execXtload f s := rfl
theorem exec_xstat (f : EOp) (s : State) : exec (.xstat f) s = execXstat f s := rfl
theorem exec_launch (f : EOp) (s : State) : exec (.launch f) s = execLaunch f s := rfl
theorem exec_qreset (f : EOp) (s : State) : exec (.qreset f) s = execQreset f s := rfl
theorem exec_yield (f : EOp) (s : State) : exec (.yield f) s = execYield f s := rfl
theorem exec_yieldTimeout (i : Nat) (s : State) : exec (.yieldTimeout i) s = execYieldTimeout i s := rfl
theorem exec_br (f : BOp) (s : State) : exec (.br f) s = execBr f s := rfl
theorem exec_bri (f : BOp) (s : State) : exec (.bri f) s = execBri f s := rfl
theorem exec_call (f : BOp) (s : State) : exec (.call f) s = execCall f s := rfl
theorem exec_calli (f : BOp) (s : State) : exec (.calli f) s = execCalli f s := rfl
theorem exec_halt (f : BOp) (s : State) : exec (.halt f) s = execHalt f s := rfl
theorem exec_trap (f : BOp) (s : State) : exec (.trap f) s = execTrap f s := rfl
theorem exec_sysr (f : EOp) (s : State) : exec (.sysr f) s = execSysr f s := rfl
theorem exec_sysw (f : EOp) (s : State) : exec (.sysw f) s = execSysw f s := rfl
theorem exec_tlbinv (f : EOp) (s : State) : exec (.tlbinv f) s = execTlbinv f s := rfl
theorem exec_tlbinvDone (i : Nat) (s : State) : exec (.tlbinvDone i) s = execTlbinvDone i s := rfl
theorem exec_bcinv (f : EOp) (s : State) : exec (.bcinv f) s = execBcinv f s := rfl
theorem exec_bcinvDone (i : Nat) (s : State) : exec (.bcinvDone i) s = execBcinvDone i s := rfl
theorem exec_eret (f : EOp) (s : State) : exec (.eret f) s = execEret f s := rfl
theorem exec_waitev (f : EOp) (s : State) : exec (.waitev f) s = execWaitev f s := rfl
theorem exec_waitevTimeout (i : Nat) (s : State) : exec (.waitevTimeout i) s = execWaitevTimeout i s := rfl
theorem exec_src (f : EOp) (s : State) : exec (.src f) s = execSrc f s := rfl
theorem exec_snk (f : EOp) (s : State) : exec (.snk f) s = execSnk f s := rfl
theorem exec_accr (f : EOp) (s : State) : exec (.accr f) s = execAccr f s := rfl
theorem exec_accd (f : EOp) (s : State) : exec (.accd f) s = execAccd f s := rfl
theorem exec_kset (f : EOp) (s : State) : exec (.kset f) s = execKset f s := rfl
theorem exec_mark (f : EOp) (s : State) : exec (.mark f) s = execMark f s := rfl
theorem exec_fmtw (f : EOp) (s : State) : exec (.fmtw f) s = execFmtw f s := rfl
theorem exec_scalew (f : EOp) (s : State) : exec (.scalew f) s = execScalew f s := rfl
theorem exec_genseed (f : EOp) (s : State) : exec (.genseed f) s = execGenseed f s := rfl
theorem exec_fwait (f : EOp) (s : State) : exec (.fwait f) s = execFwait f s := rfl
theorem exec_fwaitTimeout (i : Nat) (s : State) : exec (.fwaitTimeout i) s = execFwaitTimeout i s := rfl
theorem exec_fcnt (f : EOp) (s : State) : exec (.fcnt f) s = execFcnt f s := rfl
theorem exec_fstop (f : EOp) (s : State) : exec (.fstop f) s = execFstop f s := rfl
theorem exec_frun (f : EOp) (s : State) : exec (.frun f) s = execFrun f s := rfl
theorem exec_readPerform (a : Agent) (n : Nat) (s : State) : exec (.readPerform a n) s = execReadPerform a n s := rfl
theorem exec_writePerform (a : Agent) (n : Nat) (s : State) : exec (.writePerform a n) s = execWritePerform a n s := rfl
theorem exec_cacheLineDrop (core line : Nat) (s : State) : exec (.cacheLineDrop core line) s = execCacheLineDrop core line s := rfl
theorem exec_eccWriteback (key : Nat) (s : State) : exec (.eccWriteback key) s = execEccWriteback key s := rfl
theorem exec_homeAtomicPerform (i : Nat) (s : State) : exec (.homeAtomicPerform i) s = execHomeAtomicPerform i s := rfl
theorem exec_barrierOpPerform (i : Nat) (s : State) : exec (.barrierOpPerform i) s = execBarrierOpPerform i s := rfl
theorem exec_barwaitPoll (i : Nat) (s : State) : exec (.barwaitPoll i) s = execBarwaitPoll i s := rfl
theorem exec_pageWalk (n : Nat) (s : State) : exec (.pageWalk n) s = execPageWalk n s := rfl
theorem exec_wardrobeEntryFill (cluster : Nat) (ctx : BitVec 8) (page : Nat) (s : State) : exec (.wardrobeEntryFill cluster ctx page) s = execWardrobeEntryFill cluster ctx page s := rfl
theorem exec_retentionEntry (a : ArrayId) (s : State) : exec (.retentionEntry a) s = execRetentionEntry a s := rfl
theorem exec_retentionExit (a : ArrayId) (s : State) : exec (.retentionExit a) s = execRetentionExit a s := rfl
theorem exec_retentionExitDone (a : ArrayId) (s : State) : exec (.retentionExitDone a) s = execRetentionExitDone a s := rfl
theorem exec_channelRequest (i : Nat) (s : State) : exec (.channelRequest i) s = execChannelRequest i s := rfl
theorem exec_channelSpill (h : Nat) (s : State) : exec (.channelSpill h) s = execChannelSpill h s := rfl
theorem exec_channelRefill (h : Nat) (s : State) : exec (.channelRefill h) s = execChannelRefill h s := rfl
theorem exec_spillRetry (h : Nat) (s : State) : exec (.spillRetry h) s = execSpillRetry h s := rfl
theorem exec_blockedReport (i : Nat) (s : State) : exec (.blockedReport i) s = execBlockedReport i s := rfl
theorem exec_deadlockDetector (i : Nat) (s : State) : exec (.deadlockDetector i) s = execDeadlockDetector i s := rfl
theorem exec_growthCopyDone (h : Nat) (s : State) : exec (.growthCopyDone h) s = execGrowthCopyDone h s := rfl
theorem exec_regionSourceAccess (i b : Nat) (s : State) : exec (.regionSourceAccess i b) s = execRegionSourceAccess i b s := rfl
theorem exec_regionSinkWrite (i b : Nat) (s : State) : exec (.regionSinkWrite i b) s = execRegionSinkWrite i b s := rfl
theorem exec_iterationStart (i : Nat) (s : State) : exec (.iterationStart i) s = execIterationStart i s := rfl
theorem exec_iterationCommit (i : Nat) (s : State) : exec (.iterationCommit i) s = execIterationCommit i s := rfl
theorem exec_iterationDiscard (i : Nat) (s : State) : exec (.iterationDiscard i) s = execIterationDiscard i s := rfl
theorem exec_iterOverrun (i : Nat) (s : State) : exec (.iterOverrun i) s = execIterOverrun i s := rfl
theorem exec_configFill (i : Nat) (fe : FeAt) (s : State) : exec (.configFill i fe) s = execConfigFill i fe s := rfl
theorem exec_configMulticast (sel : Word) (slot : BitVec 3) (image : List Word) (deltas : List (Word × Word)) (s : State) : exec (.configMulticast sel slot image deltas) s = execConfigMulticast sel slot image deltas s := rfl
theorem exec_markerPass (i : Nat) (fe : FeAt) (inp : FeIn) (s : State) : exec (.markerPass i fe inp) s = execMarkerPass i fe inp s := rfl
theorem exec_pass (i : Nat) (fe : FeAt) (s : State) : exec (.pass i fe) s = execPass i fe s := rfl
theorem exec_dot (i : Nat) (fe : FeAt) (upset : Bool) (s : State) : exec (.dot i fe upset) s = execDot i fe upset s := rfl
theorem exec_dots (i : Nat) (fe : FeAt) (upset : Bool) (s : State) : exec (.dots i fe upset) s = execDots i fe upset s := rfl
theorem exec_redadd (i : Nat) (fe : FeAt) (s : State) : exec (.redadd i fe) s = execRedadd i fe s := rfl
theorem exec_redmax (i : Nat) (fe : FeAt) (s : State) : exec (.redmax i fe) s = execRedmax i fe s := rfl
theorem exec_redmin (i : Nat) (fe : FeAt) (s : State) : exec (.redmin i fe) s = execRedmin i fe s := rfl
theorem exec_eopAdd (i : Nat) (fe : FeAt) (s : State) : exec (.eopAdd i fe) s = execEopAdd i fe s := rfl
theorem exec_mule (i : Nat) (fe : FeAt) (upset : Bool) (s : State) : exec (.mule i fe upset) s = execMule i fe upset s := rfl
theorem exec_scale (i : Nat) (fe : FeAt) (s : State) : exec (.scale i fe) s = execScale i fe s := rfl
theorem exec_quant (i : Nat) (fe : FeAt) (s : State) : exec (.quant i fe) s = execQuant i fe s := rfl
theorem exec_deq (i : Nat) (fe : FeAt) (s : State) : exec (.deq i fe) s = execDeq i fe s := rfl
theorem exec_cvt (i : Nat) (fe : FeAt) (s : State) : exec (.cvt i fe) s = execCvt i fe s := rfl
theorem exec_bfly (i : Nat) (fe : FeAt) (s : State) : exec (.bfly i fe) s = execBfly i fe s := rfl
theorem exec_split3 (i : Nat) (fe : FeAt) (s : State) : exec (.split3 i fe) s = execSplit3 i fe s := rfl
theorem exec_lut6 (i : Nat) (fe : FeAt) (s : State) : exec (.lut6 i fe) s = execLut6 i fe s := rfl
theorem exec_fsm (i : Nat) (fe : FeAt) (s : State) : exec (.fsm i fe) s = execFsm i fe s := rfl
theorem exec_table (i : Nat) (fe : FeAt) (s : State) : exec (.table i fe) s = execTable i fe s := rfl
theorem exec_cmpsel (i : Nat) (fe : FeAt) (s : State) : exec (.cmpsel i fe) s = execCmpsel i fe s := rfl
theorem exec_shiftv (i : Nat) (fe : FeAt) (s : State) : exec (.shiftv i fe) s = execShiftv i fe s := rfl
theorem exec_cnt (i : Nat) (fe : FeAt) (s : State) : exec (.cnt i fe) s = execCnt i fe s := rfl
theorem exec_sgen (i : Nat) (fe : FeAt) (s : State) : exec (.sgen i fe) s = execSgen i fe s := rfl
theorem exec_sand (i : Nat) (fe : FeAt) (s : State) : exec (.sand i fe) s = execSand i fe s := rfl
theorem exec_sor (i : Nat) (fe : FeAt) (s : State) : exec (.sor i fe) s = execSor i fe s := rfl
theorem exec_smux (i : Nat) (fe : FeAt) (s : State) : exec (.smux i fe) s = execSmux i fe s := rfl
theorem exec_snot (i : Nat) (fe : FeAt) (s : State) : exec (.snot i fe) s = execSnot i fe s := rfl
theorem exec_sminc (i : Nat) (fe : FeAt) (s : State) : exec (.sminc i fe) s = execSminc i fe s := rfl
theorem exec_smaxc (i : Nat) (fe : FeAt) (s : State) : exec (.smaxc i fe) s = execSmaxc i fe s := rfl
theorem exec_sxor (i : Nat) (fe : FeAt) (s : State) : exec (.sxor i fe) s = execSxor i fe s := rfl
theorem exec_scnt (i : Nat) (fe : FeAt) (s : State) : exec (.scnt i fe) s = execScnt i fe s := rfl
theorem exec_sregen (i : Nat) (fe : FeAt) (s : State) : exec (.sregen i fe) s = execSregen i fe s := rfl
theorem exec_sfsm (i : Nat) (fe : FeAt) (s : State) : exec (.sfsm i fe) s = execSfsm i fe s := rfl
theorem exec_launchAccept (n : Nat) (s : State) : exec (.launchAccept n) s = execLaunchAccept n s := rfl
theorem exec_imageLoad (l : Nat) (s : State) : exec (.imageLoad l) s = execImageLoad l s := rfl
theorem exec_instancePlace (l : Nat) (s : State) : exec (.instancePlace l) s = execInstancePlace l s := rfl
theorem exec_doneArrival (i : Nat) (s : State) : exec (.doneArrival i) s = execDoneArrival i s := rfl
theorem exec_recordAccept (i engine : Nat) (s : State) : exec (.recordAccept i engine) s = execRecordAccept i engine s := rfl
theorem exec_engineRecordStart (r : Nat) (s : State) : exec (.engineRecordStart r) s = execEngineRecordStart r s := rfl
theorem exec_recordComplete (r : Nat) (s : State) : exec (.recordComplete r) s = execRecordComplete r s := rfl
theorem exec_chunkDecode (r chunk : Nat) (s : State) : exec (.chunkDecode r chunk) s = execChunkDecode r chunk s := rfl
theorem exec_xtloadTakeEffect (group : Nat) (s : State) : exec (.xtloadTakeEffect group) s = execXtloadTakeEffect group s := rfl
theorem exec_leaveGrant (q : Nat) (s : State) : exec (.leaveGrant q) s = execLeaveGrant q s := rfl
theorem exec_leaveTimeout (q : Nat) (s : State) : exec (.leaveTimeout q) s = execLeaveTimeout q s := rfl
theorem exec_flitSend (l : Nat) (kind : FlitKind) (load : LinkLoad) (s : State) : exec (.flitSend l kind load) s = execFlitSend l kind load s := rfl
theorem exec_flitReceive (l : Nat) (errors : List (Nat × Byte)) (s : State) : exec (.flitReceive l errors) s = execFlitReceive l errors s := rfl
theorem exec_nakReceive (l : Nat) (s : State) : exec (.nakReceive l) s = execNakReceive l s := rfl
theorem exec_replayTimeout (l : Nat) (s : State) : exec (.replayTimeout l) s = execReplayTimeout l s := rfl
theorem exec_retrainDone (l : Nat) (failing : BitVec 64) (s : State) : exec (.retrainDone l failing) s = execRetrainDone l failing s := rfl
theorem exec_hostPostedWrite (port rid off : Nat) (data : List Byte) (ro poisoned : Bool) (s : State) : exec (.hostPostedWrite port rid off data ro poisoned) s = execHostPostedWrite port rid off data ro poisoned s := rfl
theorem exec_hostRead (port rid : Nat) (bar0 : Bool) (off n : Nat) (ro : Bool) (tag : Nat) (s : State) : exec (.hostRead port rid bar0 off n ro tag) s = execHostRead port rid bar0 off n ro tag s := rfl
theorem exec_hostLineAck (port line : Nat) (s : State) : exec (.hostLineAck port line) s = execHostLineAck port line s := rfl
theorem exec_hostAtomicop (by_ : Requester) (tag : Nat) (s : State) : exec (.hostAtomicop by_ tag) s = execHostAtomicop by_ tag s := rfl
theorem exec_hostReadCompletion (tag : Nat) (status : ReadStatus) (data : List Byte) (s : State) : exec (.hostReadCompletion tag status data) s = execHostReadCompletion tag status data s := rfl
theorem exec_hostReadTimeout (tag : Nat) (s : State) : exec (.hostReadTimeout tag) s = execHostReadTimeout tag s := rfl
theorem exec_hostResetCommand (by_ : Requester) (tenant : BitVec 4) (cls : BitVec 2) (diemask : BitVec 8) (s : State) : exec (.hostResetCommand by_ tenant cls diemask) s = execHostResetCommand by_ tenant cls diemask s := rfl
theorem exec_queueResetComplete (serial : Nat) (s : State) : exec (.queueResetComplete serial) s = execQueueResetComplete serial s := rfl
theorem exec_launchWindowWrite (port rid window : Nat) (value : Word) (size : Nat) (s : State) : exec (.launchWindowWrite port rid window value size) s = execLaunchWindowWrite port rid window value size s := rfl
theorem exec_launchTableArm (entry : Nat) (w : EntryWrite) (s : State) : exec (.launchTableArm entry w) s = execLaunchTableArm entry w s := rfl
theorem exec_launchTableDisarm (entry : Nat) (w : EntryWrite) (s : State) : exec (.launchTableDisarm entry w) s = execLaunchTableDisarm entry w s := rfl
theorem exec_launchTableFire (entry : Nat) (s : State) : exec (.launchTableFire entry) s = execLaunchTableFire entry s := rfl
theorem exec_timebaseSrcWrite (w : RegWrite) (s : State) : exec (.timebaseSrcWrite w) s = execTimebaseSrcWrite w s := rfl
theorem exec_ptmoffWrite (w : RegWrite) (s : State) : exec (.ptmoffWrite w) s = execPtmoffWrite w s := rfl
theorem exec_bar0RegisterWrite (port rid off size : Nat) (value : Word) (s : State) : exec (.bar0RegisterWrite port rid off size value) s = execBar0RegisterWrite port rid off size value s := rfl
theorem exec_attestationRequest (port rid : Nat) (addr : Word) (s : State) : exec (.attestationRequest port rid addr) s = execAttestationRequest port rid addr s := rfl
theorem exec_attestationReportWrite (s : State) : exec (.attestationReportWrite) s = execAttestationReportWrite s := rfl
theorem exec_peerRead (port node aper off n tag : Nat) (s : State) : exec (.peerRead port node aper off n tag) s = execPeerRead port node aper off n tag s := rfl
theorem exec_peerWrite (port node aper off : Nat) (data : List Byte) (s : State) : exec (.peerWrite port node aper off data) s = execPeerWrite port node aper off data s := rfl
theorem exec_peerWriteOrd (port node aper off : Nat) (data : List Byte) (s : State) : exec (.peerWriteOrd port node aper off data) s = execPeerWriteOrd port node aper off data s := rfl
theorem exec_llynramResend (op : Nat) (s : State) : exec (.llynramResend op) s = execLlynramResend op s := rfl
theorem exec_peerUnreachable (entry : Nat) (s : State) : exec (.peerUnreachable entry) s = execPeerUnreachable entry s := rfl
theorem exec_ptpMessage (tai : Word) (s : State) : exec (.ptpMessage tai) s = execPtpMessage tai s := rfl
theorem exec_ptmExchange (port : Nat) (ptm : Word) (s : State) : exec (.ptmExchange port ptm) s = execPtmExchange port ptm s := rfl
theorem exec_timebaseSourceLost (s : State) : exec (.timebaseSourceLost) s = execTimebaseSourceLost s := rfl
theorem exec_calendarSlot (die port : Nat) (ready : List Packet) (s : State) : exec (.calendarSlot die port ready) s = execCalendarSlot die port ready s := rfl
theorem exec_borrowLimit (tenant : BitVec 4) (s : State) : exec (.borrowLimit tenant) s = execBorrowLimit tenant s := rfl
theorem exec_contextPreempt (i : Nat) (s : State) : exec (.contextPreempt i) s = execContextPreempt i s := rfl
theorem exec_regionStopDiscard (i : Nat) (s : State) : exec (.regionStopDiscard i) s = execRegionStopDiscard i s := rfl
theorem exec_regionStopFinish (i : Nat) (s : State) : exec (.regionStopFinish i) s = execRegionStopFinish i s := rfl
theorem exec_feLazySave (i : Nat) (fe : FeAt) (s : State) : exec (.feLazySave i fe) s = execFeLazySave i fe s := rfl
theorem exec_restore (i : Nat) (s : State) : exec (.restore i) s = execRestore i s := rfl
theorem exec_saveTimeout (i : Nat) (s : State) : exec (.saveTimeout i) s = execSaveTimeout i s := rfl
theorem exec_watchdog (i : Nat) (ofRegion : Bool) (s : State) : exec (.watchdog i ofRegion) s = execWatchdog i ofRegion s := rfl
theorem exec_heartbeat (s : State) : exec (.heartbeat) s = execHeartbeat s := rfl
theorem exec_standbyTakeover (s : State) : exec (.standbyTakeover) s = execStandbyTakeover s := rfl
theorem exec_leafCommand (cluster : Nat) (s : State) : exec (.leafCommand cluster) s = execLeafCommand cluster s := rfl
theorem exec_leafAck (cluster : Nat) (s : State) : exec (.leafAck cluster) s = execLeafAck cluster s := rfl
theorem exec_retentionEntryDone (a : ArrayId) (s : State) : exec (.retentionEntryDone a) s = execRetentionEntryDone a s := rfl
theorem exec_peerAcknowledgement (op : Nat) (data : List Byte) (s : State) : exec (.peerAcknowledgement op data) s = execPeerAcknowledgement op data s := rfl
theorem exec_feMarkDefective (col row : Nat) (s : State) : exec (.feMarkDefective col row) s = execFeMarkDefective col row s := rfl
theorem exec_firmwareTableWrite (t : TableWrite) (s : State) : exec (.firmwareTableWrite t) s = execFirmwareTableWrite t s := rfl

end Sys2Proof.Machine
end

