-- ==== Sys2Proof/Laws/Keep1.lean ====
section
/-! SUPPORT. The operations and meanings of Machine/Basics, Machine/Homes, Machine/Mmu, Machine/Leaf, Machine/Ops, Machine/Operands keep memory in its canonical
form: `f_wf` for an operation that answers a state, or a state with a value. -/

set_option maxRecDepth 4000
set_option linter.unusedTactic false
set_option linter.unreachableTactic false
set_option linter.unusedSimpArgs false
set_option linter.unusedVariables false

namespace Sys2Proof.Machine

open Sys2Proof.Bits Sys2Proof.Rows

theorem foldl_wf {α : Type} (f : State → α → State) (l : List α) (s : State) (h : s.mem.wf = true)
    (hf : ∀ s a, s.mem.wf = true → (f s a).mem.wf = true) : (l.foldl f s).mem.wf = true := by
  induction l generalizing s with
  | nil => exact h
  | cons a l ih => exact ih _ (hf _ _ h)
def NextWf (o : Host.Outcome State Fault Refusal) : Prop :=
  match o with
  | .next t => t.mem.wf = true
  | _ => True
theorem nextWf_next (s : State) (h : s.mem.wf = true) : NextWf (.next s) := h
theorem nextWf_when (b : Bool) (s t : State) (hs : s.mem.wf = true) (ht : t.mem.wf = true) : NextWf (if b then .next s else .next t) := by
  split
  · exact hs
  · exact ht
theorem foldl_fst_wf {α β : Type} (f : State × β → α → State × β) (l : List α) (x : State × β) (h : x.1.mem.wf = true)
    (hf : ∀ x a, x.1.mem.wf = true → (f x a).1.mem.wf = true) : (l.foldl f x).1.mem.wf = true := by
  induction l generalizing x with
  | nil => exact h
  | cons a l ih => exact ih _ (hf _ _ h)
theorem getD_wf (o : Option State) (s : State) (h : s.mem.wf = true) (ho : ∀ t, o = some t → t.mem.wf = true) :
    (o.getD s).mem.wf = true := by
  cases o with
  | none => exact h
  | some t => exact ho t rfl
theorem ite_wf (c : Prop) [Decidable c] (s t : State) (hs : s.mem.wf = true) (ht : t.mem.wf = true) :
    (if c then s else t).mem.wf = true := by
  split
  · exact hs
  · exact ht

theorem State.putBytes_wf (s : State) (key : Nat) (bs : List Byte) (h : s.mem.wf = true) :
    (s.putBytes key bs).mem.wf = true := Memory.wf_writeN _ _ _ h

theorem State.repoison_wf (a0 : State) (a1 : List ℕ) (h0 : a0.mem.wf = true) :
    (State.repoison a0 a1).mem.wf = true := by
  unfold State.repoison
  repeat' (first
    | assumption)

theorem State.modInst_wf (a0 : State) (a1 : ℕ) (a2 : Inst → Inst) (h0 : a0.mem.wf = true) :
    (State.modInst a0 a1 a2).mem.wf = true := by
  unfold State.modInst
  repeat' (first
    | assumption)

theorem State.modCtl_wf (a0 : State) (a1 : ℕ) (a2 : Ctl → Ctl) (h0 : a0.mem.wf = true) :
    (State.modCtl a0 a1 a2).mem.wf = true := by
  unfold State.modCtl
  repeat' (first
    | assumption)

theorem State.modBlk_wf (a0 : State) (a1 : ℕ) (a2 : Block → Block) (h0 : a0.mem.wf = true) :
    (State.modBlk a0 a1 a2).mem.wf = true := by
  unfold State.modBlk
  repeat' (first
    | assumption)

theorem State.modSlot_wf (a0 : State) (a1 : ℕ) (a2 : ℕ) (a3 : SlotRec → SlotRec) (h0 : a0.mem.wf = true) :
    (State.modSlot a0 a1 a2 a3).mem.wf = true := by
  unfold State.modSlot
  repeat' (first
    | assumption)

theorem State.modReg_wf (a0 : State) (a1 : ℕ) (a2 : Region → Region) (h0 : a0.mem.wf = true) :
    (State.modReg a0 a1 a2).mem.wf = true := by
  unfold State.modReg
  repeat' (first
    | assumption)

theorem State.modCore_wf (a0 : State) (a1 : ℕ) (a2 : Core → Core) (h0 : a0.mem.wf = true) :
    (State.modCore a0 a1 a2).mem.wf = true := by
  unfold State.modCore
  repeat' (first
    | assumption)

theorem State.modDie_wf (a0 : State) (a1 : ℕ) (a2 : DieState → DieState) (h0 : a0.mem.wf = true) :
    (State.modDie a0 a1 a2).mem.wf = true := by
  unfold State.modDie
  repeat' (first
    | assumption)

theorem State.modFe_wf (a0 : State) (a1 : ℕ) (a2 : Fe → Fe) (h0 : a0.mem.wf = true) :
    (State.modFe a0 a1 a2).mem.wf = true := by
  unfold State.modFe
  repeat' (first
    | assumption)

theorem State.modTenant_wf (a0 : State) (a1 : ℕ) (a2 : Tenant → Tenant) (h0 : a0.mem.wf = true) :
    (State.modTenant a0 a1 a2).mem.wf = true := by
  unfold State.modTenant
  repeat' (first
    | assumption)

theorem State.modPort_wf (a0 : State) (a1 : ℕ) (a2 : HostPort → HostPort) (h0 : a0.mem.wf = true) :
    (State.modPort a0 a1 a2).mem.wf = true := by
  unfold State.modPort
  repeat' (first
    | assumption)

theorem State.takeFresh_wf {s : State} {t} {y} (e : s.takeFresh = (y, t)) (h : s.mem.wf = true) : (State.mem t).wf = true := by
  simp only [State.takeFresh, Prod.mk.injEq] at e
  rw [← e.2]
  exact h
theorem State.takeFresh_wf2 (a0 : State) (h0 : a0.mem.wf = true) :
    (State.takeFresh a0).2.mem.wf = true := State.takeFresh_wf (t := (State.takeFresh a0).2) (y := (State.takeFresh a0).1) rfl h0

theorem State.modChan_wf (a0 : State) (a1 : ℕ) (a2 : Chan → Chan) (h0 : a0.mem.wf = true) :
    (State.modChan a0 a1 a2).mem.wf = true := by
  unfold State.modChan
  repeat' (first
    | assumption)

theorem State.modHandle_wf (a0 : State) (a1 : ℕ) (a2 : Word) (a3 : Chan → Chan) (h0 : a0.mem.wf = true) :
    (State.modHandle a0 a1 a2 a3).mem.wf = true := by
  unfold State.modHandle
  repeat' (first
    | assumption
    | intro _
    | (apply_assumption; done)
    | with_reducible exact True.intro
    | with_reducible apply State.modChan_wf
    | with_reducible apply foldl_wf
    | with_reducible apply nextWf_next
    | with_reducible apply nextWf_when
    | split)

theorem State.countCore_wf (a0 : State) (a1 : ℕ) (a2 : ℕ) (a3 : ℕ) (h0 : a0.mem.wf = true) :
    (State.countCore a0 a1 a2 a3).mem.wf = true := by
  unfold State.countCore
  repeat' (first
    | assumption
    | intro _
    | (apply_assumption; done)
    | with_reducible exact True.intro
    | with_reducible apply State.modCore_wf
    | with_reducible apply foldl_wf
    | with_reducible apply nextWf_next
    | with_reducible apply nextWf_when
    | split)

theorem State.countDie_wf (a0 : State) (a1 : ℕ) (a2 : ℕ) (a3 : ℕ) (h0 : a0.mem.wf = true) :
    (State.countDie a0 a1 a2 a3).mem.wf = true := by
  unfold State.countDie
  repeat' (first
    | assumption
    | intro _
    | (apply_assumption; done)
    | with_reducible exact True.intro
    | with_reducible apply State.modDie_wf
    | with_reducible apply foldl_wf
    | with_reducible apply nextWf_next
    | with_reducible apply nextWf_when
    | split)

theorem State.raiseMsix_wf (a0 : State) (a1 : ℕ) (h0 : a0.mem.wf = true) :
    (State.raiseMsix a0 a1).mem.wf = true := by
  unfold State.raiseMsix
  repeat' (first
    | assumption)

theorem State.logFault_wf (a0 : State) (a1 : ℕ) (a2 : ℕ) (a3 : ℕ) (a4 : ℕ) (a5 : ℕ) (a6 : ℕ) (a7 : ℕ) (a8 : ℕ) (h0 : a0.mem.wf = true) :
    (State.logFault a0 a1 a2 a3 a4 a5 a6 a7 a8).mem.wf = true := by
  unfold State.logFault
  repeat' (first
    | assumption
    | intro _
    | (apply_assumption; done)
    | with_reducible exact True.intro
    | with_reducible apply State.raiseMsix_wf
    | with_reducible apply foldl_wf
    | with_reducible apply nextWf_next
    | with_reducible apply nextWf_when
    | split)

theorem State.logEvent_wf (a0 : State) (a1 : ℕ) (a2 : ℕ) (a3 : ℕ) (a4 : ℕ) (a5 : ℕ) (h0 : a0.mem.wf = true) :
    (State.logEvent a0 a1 a2 a3 a4 a5).mem.wf = true := by
  unfold State.logEvent
  repeat' (first
    | assumption
    | intro _
    | (apply_assumption; done)
    | with_reducible exact True.intro
    | with_reducible apply State.logFault_wf)

theorem State.countHome_wf (a0 : State) (a1 : Home) (a2 : ℕ) (h0 : a0.mem.wf = true) :
    (State.countHome a0 a1 a2).mem.wf = true := by
  unfold State.countHome
  repeat' (first
    | assumption
    | intro _
    | (apply_assumption; done)
    | with_reducible exact True.intro
    | with_reducible apply State.countDie_wf
    | with_reducible apply foldl_wf
    | with_reducible apply nextWf_next
    | with_reducible apply nextWf_when
    | split)

theorem poisonGranule_wf (a0 : State) (a1 : ℕ) (h0 : a0.mem.wf = true) :
    (poisonGranule a0 a1).mem.wf = true := by
  unfold poisonGranule
  repeat' (first
    | assumption
    | intro _
    | (apply_assumption; done)
    | with_reducible exact True.intro
    | with_reducible apply State.logEvent_wf
    | with_reducible apply State.countHome_wf)

theorem freeGranule_wf (s : State) (key : Nat) (h : s.mem.wf = true) : (freeGranule s key).mem.wf = true :=
  Memory.wf_writeN _ _ _ h

theorem meetFlaw_wf (a0 : Bool) (a1 : State) (a2 : Flaw) (h1 : a1.mem.wf = true) :
    (meetFlaw a0 a1 a2).mem.wf = true := by
  unfold meetFlaw
  repeat' (first
    | assumption
    | intro _
    | (apply_assumption; done)
    | with_reducible exact True.intro
    | with_reducible apply State.countHome_wf
    | with_reducible apply poisonGranule_wf
    | with_reducible apply freeGranule_wf
    | with_reducible apply foldl_wf
    | with_reducible apply nextWf_next
    | with_reducible apply nextWf_when
    | split
    | dsimp only)

theorem meetWhere_wf (a0 : Bool) (a1 : State) (a2 : Flaw → Bool) (h1 : a1.mem.wf = true) :
    (meetWhere a0 a1 a2).mem.wf = true := by
  unfold meetWhere
  repeat' (first
    | assumption
    | intro _
    | (apply_assumption; done)
    | with_reducible exact True.intro
    | with_reducible apply meetFlaw_wf
    | with_reducible apply foldl_wf)

theorem meetFlaws_wf (a0 : State) (a1 : ℕ) (a2 : ℕ) (h0 : a0.mem.wf = true) :
    (meetFlaws a0 a1 a2).mem.wf = true := by
  unfold meetFlaws
  repeat' (first
    | assumption
    | intro _
    | (apply_assumption; done)
    | with_reducible exact True.intro
    | with_reducible apply meetWhere_wf)

theorem upset_wf (a0 : State) (a1 : ℕ) (a2 : ℕ) (h0 : a0.mem.wf = true) :
    (upset a0 a1 a2).mem.wf = true := by
  unfold upset
  repeat' (first
    | assumption
    | intro _
    | (apply_assumption; done)
    | with_reducible exact True.intro
    | with_reducible apply meetWhere_wf
    | with_reducible apply foldl_wf
    | with_reducible apply nextWf_next
    | with_reducible apply nextWf_when
    | split
    | dsimp only)

theorem walkLevels_wf {va : Nat} {ls : List Nat} {s : State} {table : Nat} {t} {y} (e : walkLevels va ls s table = (t, y))
    (h : s.mem.wf = true) : (State.mem t).wf = true := by
  induction ls generalizing s table with
  | nil => cases e; exact h
  | cons lv rest ih =>
    have hm := meetFlaws_wf s (table + vaIndex va lv * 8) 8 h
    unfold walkLevels at e
    dsimp only at e
    repeat' split at e
    all_goals first | (cases e; assumption) | exact ih e hm
theorem walkLevels_wf1 (a0 : ℕ) (a1 : List ℕ) (a2 : State) (a3 : ℕ) (h2 : a2.mem.wf = true) :
    (walkLevels a0 a1 a2 a3).1.mem.wf = true := walkLevels_wf (t := (walkLevels a0 a1 a2 a3).1) (y := (walkLevels a0 a1 a2 a3).2) rfl h2

theorem walk_wf {a0 : State} {a1 : ℕ} {a2 : ℕ} {t} {y} (e : walk a0 a1 a2 = (t, y)) (h0 : a0.mem.wf = true) :
    (State.mem t).wf = true := by
  unfold walk at e
  repeat' (first
    | assumption
    | intro _
    | (apply_assumption; done)
    | with_reducible exact True.intro
    | with_reducible refine walkLevels_wf (by with_reducible assumption) ?_
    | with_reducible apply walkLevels_wf1
    | with_reducible apply foldl_wf
    | with_reducible apply nextWf_next
    | with_reducible apply nextWf_when
    | (split at e)
    | (simp only [Prod.mk.injEq, Option.some.injEq, reduceCtorEq, and_false, false_and] at e)
    | (obtain ⟨rfl, _⟩ := e))
theorem walk_wf1 (a0 : State) (a1 : ℕ) (a2 : ℕ) (h0 : a0.mem.wf = true) :
    (walk a0 a1 a2).1.mem.wf = true := walk_wf (t := (walk a0 a1 a2).1) (y := (walk a0 a1 a2).2) rfl h0

theorem installLeaf_wf {a0 : State} {a1 : Option ℕ} {a2 : ℕ} {a3 : ℕ} {a4 : ℕ} {a5 : ℕ} {a6 : ℕ} {a7 : ℕ} {a8 : Bool} {t} {y} (e : installLeaf a0 a1 a2 a3 a4 a5 a6 a7 a8 = (t, y)) (h0 : a0.mem.wf = true) :
    (State.mem t).wf = true := by
  unfold installLeaf at e
  repeat' (first
    | assumption
    | intro _
    | (apply_assumption; done)
    | with_reducible exact True.intro
    | with_reducible apply State.putBytes_wf
    | with_reducible apply State.countDie_wf
    | with_reducible apply meetFlaws_wf
    | with_reducible apply foldl_wf
    | with_reducible apply nextWf_next
    | with_reducible apply nextWf_when
    | (split at e)
    | (simp only [Prod.mk.injEq, Option.some.injEq, reduceCtorEq, and_false, false_and] at e)
    | (obtain ⟨rfl, _⟩ := e))
theorem installLeaf_wf1 (a0 : State) (a1 : Option ℕ) (a2 : ℕ) (a3 : ℕ) (a4 : ℕ) (a5 : ℕ) (a6 : ℕ) (a7 : ℕ) (a8 : Bool) (h0 : a0.mem.wf = true) :
    (installLeaf a0 a1 a2 a3 a4 a5 a6 a7 a8).1.mem.wf = true := installLeaf_wf (t := (installLeaf a0 a1 a2 a3 a4 a5 a6 a7 a8).1) (y := (installLeaf a0 a1 a2 a3 a4 a5 a6 a7 a8).2) rfl h0

theorem enterLeaf_wf {a0 : State} {a1 : Option ℕ} {a2 : ℕ} {a3 : ℕ} {a4 : ℕ} {a5 : ℕ} {a6 : ℕ} {a7 : ℕ} {a8 : Access} {t} {y} (e : enterLeaf a0 a1 a2 a3 a4 a5 a6 a7 a8 = (t, y)) (h0 : a0.mem.wf = true) :
    (State.mem t).wf = true := by
  unfold enterLeaf at e
  repeat' (first
    | assumption
    | intro _
    | (apply_assumption; done)
    | with_reducible exact True.intro
    | with_reducible refine installLeaf_wf (by with_reducible assumption) ?_
    | with_reducible apply installLeaf_wf1
    | with_reducible apply Firing.fault_wf
    | with_reducible apply foldl_wf
    | with_reducible apply nextWf_next
    | with_reducible apply nextWf_when
    | (split at e)
    | (simp only [Prod.mk.injEq, Option.some.injEq, reduceCtorEq, and_false, false_and] at e)
    | (obtain ⟨rfl, _⟩ := e))
theorem enterLeaf_wf1 (a0 : State) (a1 : Option ℕ) (a2 : ℕ) (a3 : ℕ) (a4 : ℕ) (a5 : ℕ) (a6 : ℕ) (a7 : ℕ) (a8 : Access) (h0 : a0.mem.wf = true) :
    (enterLeaf a0 a1 a2 a3 a4 a5 a6 a7 a8).1.mem.wf = true := enterLeaf_wf (t := (enterLeaf a0 a1 a2 a3 a4 a5 a6 a7 a8).1) (y := (enterLeaf a0 a1 a2 a3 a4 a5 a6 a7 a8).2) rfl h0

theorem endWalk_wf {a0 : State × Walk} {a1 : Option ℕ} {a2 : ℕ} {a3 : ℕ} {a4 : ℕ} {a5 : Access} {t} {y} (e : endWalk a0 a1 a2 a3 a4 a5 = (t, y)) (h0 : a0.1.mem.wf = true) :
    (State.mem t).wf = true := by
  unfold endWalk at e
  repeat' (first
    | assumption
    | intro _
    | (apply_assumption; done)
    | with_reducible exact True.intro
    | with_reducible refine enterLeaf_wf (by with_reducible assumption) ?_
    | with_reducible apply enterLeaf_wf1
    | with_reducible apply Firing.fault_wf
    | with_reducible apply foldl_wf
    | with_reducible apply nextWf_next
    | with_reducible apply nextWf_when
    | (split at e)
    | (simp only [Prod.mk.injEq, Option.some.injEq, reduceCtorEq, and_false, false_and] at e)
    | (obtain ⟨rfl, _⟩ := e))
theorem endWalk_wf1 (a0 : State × Walk) (a1 : Option ℕ) (a2 : ℕ) (a3 : ℕ) (a4 : ℕ) (a5 : Access) (h0 : a0.1.mem.wf = true) :
    (endWalk a0 a1 a2 a3 a4 a5).1.mem.wf = true := endWalk_wf (t := (endWalk a0 a1 a2 a3 a4 a5).1) (y := (endWalk a0 a1 a2 a3 a4 a5).2) rfl h0

theorem throughEntry_wf {s : State} {x : TlbEntry} {core : Option Nat} {die ctx va : Nat} {a : Access} {t} {y}
    (e : throughEntry s x core die ctx va a = (t, y)) (h : s.mem.wf = true) : (State.mem t).wf = true := by
  have hm := meetFlaws_wf s x.leaf 8 h
  unfold throughEntry at e
  generalize leBytes 8 (x.pte + 32) = bs at e
  dsimp only at e
  split at e
  · cases e; exact h
  · split at e
    · split at e
      · cases e; exact State.putBytes_wf _ _ _ hm
      · exact endWalk_wf e (walkLevels_wf (t := (walkLevels _ _ _ _).1) (y := (walkLevels _ _ _ _).2) rfl hm)
    · cases e; exact h
theorem throughEntry_wf1 (a0 : State) (a1 : TlbEntry) (a2 : Option ℕ) (a3 : ℕ) (a4 : ℕ) (a5 : ℕ) (a6 : Access) (h0 : a0.mem.wf = true) :
    (throughEntry a0 a1 a2 a3 a4 a5 a6).1.mem.wf = true := throughEntry_wf (t := (throughEntry a0 a1 a2 a3 a4 a5 a6).1) (y := (throughEntry a0 a1 a2 a3 a4 a5 a6).2) rfl h0

theorem countMiss_wf (a0 : State) (a1 : Option ℕ) (a2 : ℕ) (a3 : Option TlbPlace) (h0 : a0.mem.wf = true) :
    (countMiss a0 a1 a2 a3).mem.wf = true := by
  unfold countMiss
  repeat' (first
    | assumption
    | intro _
    | (apply_assumption; done)
    | with_reducible exact True.intro
    | with_reducible apply State.countCore_wf
    | with_reducible apply State.countDie_wf
    | with_reducible apply foldl_wf
    | with_reducible apply nextWf_next
    | with_reducible apply nextWf_when
    | split)

theorem lookVirt_wf {a0 : State} {a1 : Option ℕ} {a2 : ℕ} {a3 : ℕ} {a4 : ℕ} {a5 : Access} {t} {y} (e : lookVirt a0 a1 a2 a3 a4 a5 = (t, y)) (h0 : a0.mem.wf = true) :
    (State.mem t).wf = true := by
  unfold lookVirt at e
  repeat' (first
    | assumption
    | intro _
    | (apply_assumption; done)
    | with_reducible exact True.intro
    | with_reducible refine throughEntry_wf (by with_reducible assumption) ?_
    | with_reducible apply throughEntry_wf1
    | with_reducible apply countMiss_wf
    | with_reducible apply foldl_wf
    | with_reducible apply nextWf_next
    | with_reducible apply nextWf_when
    | (split at e)
    | (simp only [Prod.mk.injEq, Option.some.injEq, reduceCtorEq, and_false, false_and] at e)
    | (obtain ⟨rfl, _⟩ := e))
theorem lookVirt_wf1 (a0 : State) (a1 : Option ℕ) (a2 : ℕ) (a3 : ℕ) (a4 : ℕ) (a5 : Access) (h0 : a0.mem.wf = true) :
    (lookVirt a0 a1 a2 a3 a4 a5).1.mem.wf = true := lookVirt_wf (t := (lookVirt a0 a1 a2 a3 a4 a5).1) (y := (lookVirt a0 a1 a2 a3 a4 a5).2) rfl h0

theorem askWalk_wf (a0 : State) (a1 : WalkReq) (h0 : a0.mem.wf = true) :
    (askWalk a0 a1).mem.wf = true := by
  unfold askWalk
  repeat' (first
    | assumption)

theorem endWalks_wf (a0 : State) (a1 : WalkReq) (h0 : a0.mem.wf = true) :
    (endWalks a0 a1).mem.wf = true := by
  unfold endWalks
  repeat' (first
    | assumption)

theorem dropWalks_wf (a0 : State) (a1 : WalkReq → Bool) (h0 : a0.mem.wf = true) :
    (dropWalks a0 a1).mem.wf = true := by
  unfold dropWalks
  repeat' (first
    | assumption
    | intro _
    | (apply_assumption; done)
    | with_reducible exact True.intro
    | with_reducible apply foldl_wf
    | with_reducible apply nextWf_next
    | with_reducible apply nextWf_when
    | split)

theorem findVirt_wf {a0 : State} {a1 : Option ℕ} {a2 : ℕ} {a3 : ℕ} {a4 : ℕ} {a5 : Access} {t} {y} (e : findVirt a0 a1 a2 a3 a4 a5 = (t, y)) (h0 : a0.mem.wf = true) :
    (State.mem t).wf = true := by
  unfold findVirt at e
  repeat' (first
    | assumption
    | intro _
    | (apply_assumption; done)
    | with_reducible exact True.intro
    | with_reducible refine walk_wf (by with_reducible assumption) ?_
    | with_reducible apply walk_wf1
    | with_reducible refine endWalk_wf (by with_reducible assumption) ?_
    | with_reducible apply endWalk_wf1
    | with_reducible refine lookVirt_wf (by with_reducible assumption) ?_
    | with_reducible apply lookVirt_wf1
    | with_reducible apply foldl_wf
    | with_reducible apply nextWf_next
    | with_reducible apply nextWf_when
    | (split at e)
    | (simp only [Prod.mk.injEq, Option.some.injEq, reduceCtorEq, and_false, false_and] at e)
    | (obtain ⟨rfl, _⟩ := e))
theorem findVirt_wf1 (a0 : State) (a1 : Option ℕ) (a2 : ℕ) (a3 : ℕ) (a4 : ℕ) (a5 : Access) (h0 : a0.mem.wf = true) :
    (findVirt a0 a1 a2 a3 a4 a5).1.mem.wf = true := findVirt_wf (t := (findVirt a0 a1 a2 a3 a4 a5).1) (y := (findVirt a0 a1 a2 a3 a4 a5).2) rfl h0

theorem watFill_wf {a0 : State} {a1 : Option ℕ} {a2 : ℕ} {a3 : ℕ} {a4 : ℕ} {t} {y} (e : watFill a0 a1 a2 a3 a4 = (t, y)) (h0 : a0.mem.wf = true) :
    (State.mem t).wf = true := by
  unfold watFill at e
  repeat' (first
    | assumption
    | intro _
    | (apply_assumption; done)
    | with_reducible exact True.intro
    | with_reducible apply meetFlaws_wf
    | with_reducible apply foldl_wf
    | with_reducible apply nextWf_next
    | with_reducible apply nextWf_when
    | (split at e)
    | (simp only [Prod.mk.injEq, Option.some.injEq, reduceCtorEq, and_false, false_and] at e)
    | (obtain ⟨rfl, _⟩ := e))
theorem watFill_wf1 (a0 : State) (a1 : Option ℕ) (a2 : ℕ) (a3 : ℕ) (a4 : ℕ) (h0 : a0.mem.wf = true) :
    (watFill a0 a1 a2 a3 a4).1.mem.wf = true := watFill_wf (t := (watFill a0 a1 a2 a3 a4).1) (y := (watFill a0 a1 a2 a3 a4).2) rfl h0

theorem xlateVirt_wf {find : State → Nat → State × Look} {s : State} {ts : List (Nat × Nat)} {acc : List Piece} {t} {y}
    (e : xlateVirt find s ts acc = (t, y))
    (hf : ∀ s va t y, find s va = (t, y) → s.mem.wf = true → (State.mem t).wf = true) (h : s.mem.wf = true) :
    (State.mem t).wf = true := by
  induction ts generalizing s acc with
  | nil => simp only [xlateVirt, Prod.mk.injEq] at e; exact e.1 ▸ h
  | cons x ts ih =>
    obtain ⟨a, n⟩ := x
    simp only [xlateVirt] at e
    split at e
    · rename_i hh; cases e; exact hf _ _ _ _ hh h
    · rename_i hh; cases e; exact hf _ _ _ _ hh h
    · rename_i hh; exact ih e (hf _ _ _ _ hh h)
theorem xlateVirt_wf1 (a0 : State → ℕ → State × Look) (a1 : State) (a2 : List (ℕ × ℕ)) (a3 : List Piece) (h0 : ∀ x0 x1 t y, a0 x0 x1 = (t, y) → x0.mem.wf = true → (State.mem t).wf = true) (h1 : a1.mem.wf = true) :
    (xlateVirt a0 a1 a2 a3).1.mem.wf = true := xlateVirt_wf (t := (xlateVirt a0 a1 a2 a3).1) (y := (xlateVirt a0 a1 a2 a3).2) rfl h0 h1

theorem findWat_wf {a0 : State} {a1 : Option ℕ} {a2 : ℕ} {a3 : ℕ} {a4 : ℕ} {a5 : Bool} {t} {y} (e : findWat a0 a1 a2 a3 a4 a5 = (t, y)) (h0 : a0.mem.wf = true) :
    (State.mem t).wf = true := by
  unfold findWat at e
  repeat' (first
    | assumption
    | intro _
    | (apply_assumption; done)
    | with_reducible exact True.intro
    | with_reducible apply countMiss_wf
    | with_reducible refine watFill_wf (by with_reducible assumption) ?_
    | with_reducible apply watFill_wf1
    | with_reducible apply foldl_wf
    | with_reducible apply nextWf_next
    | with_reducible apply nextWf_when
    | (split at e)
    | (simp only [Prod.mk.injEq, Option.some.injEq, reduceCtorEq, and_false, false_and] at e)
    | (obtain ⟨rfl, _⟩ := e))
theorem findWat_wf1 (a0 : State) (a1 : Option ℕ) (a2 : ℕ) (a3 : ℕ) (a4 : ℕ) (a5 : Bool) (h0 : a0.mem.wf = true) :
    (findWat a0 a1 a2 a3 a4 a5).1.mem.wf = true := findWat_wf (t := (findWat a0 a1 a2 a3 a4 a5).1) (y := (findWat a0 a1 a2 a3 a4 a5).2) rfl h0

theorem xlateWar_wf {core : Option Nat} {die ctx : Nat} {a : Access} {fill : Bool} {s : State} {ts : List (Nat × Nat)}
    {acc : List Piece} {t} {y} (e : xlateWar core die ctx a fill s ts acc = (t, y)) (h : s.mem.wf = true) :
    (State.mem t).wf = true := by
  induction ts generalizing s acc with
  | nil => simp only [xlateWar, Prod.mk.injEq] at e; exact e.1 ▸ h
  | cons x ts ih =>
    obtain ⟨ad, n⟩ := x
    simp only [xlateWar] at e
    split at e
    · cases e; exact h
    · split at e
      · rename_i hx; cases e; exact findWat_wf hx h
      · rename_i hx; cases e; exact findWat_wf hx h
      · rename_i hx
        split at e
        · cases e; exact findWat_wf hx h
        · exact ih e (findWat_wf hx h)
theorem xlateWar_wf1 (a0 : Option ℕ) (a1 : ℕ) (a2 : ℕ) (a3 : Access) (a4 : Bool) (a5 : State) (a6 : List (ℕ × ℕ)) (a7 : List Piece) (h5 : a5.mem.wf = true) :
    (xlateWar a0 a1 a2 a3 a4 a5 a6 a7).1.mem.wf = true := xlateWar_wf (t := (xlateWar a0 a1 a2 a3 a4 a5 a6 a7).1) (y := (xlateWar a0 a1 a2 a3 a4 a5 a6 a7).2) rfl h5

theorem xlate_wf {a0 : State} {a1 : Option ℕ} {a2 : ℕ} {a3 : ℕ} {a4 : ℕ} {a5 : Space} {a6 : Word} {a7 : ℕ} {a8 : ℕ} {a9 : ℕ} {a10 : Access} {a11 : Bool} {t} {y} (e : xlate a0 a1 a2 a3 a4 a5 a6 a7 a8 a9 a10 a11 = (t, y)) (h0 : a0.mem.wf = true) :
    (State.mem t).wf = true := by
  unfold xlate at e
  repeat' (first
    | assumption
    | intro _
    | (apply_assumption; done)
    | with_reducible exact True.intro
    | with_reducible refine lookVirt_wf (by with_reducible assumption) ?_
    | with_reducible apply lookVirt_wf1
    | with_reducible refine findVirt_wf (by with_reducible assumption) ?_
    | with_reducible apply findVirt_wf1
    | with_reducible refine xlateVirt_wf (by with_reducible assumption) ?_ ?_
    | with_reducible apply xlateVirt_wf1
    | with_reducible refine xlateWar_wf (by with_reducible assumption) ?_
    | with_reducible apply xlateWar_wf1
    | with_reducible apply Firing.fault_wf
    | with_reducible apply foldl_wf
    | with_reducible apply nextWf_next
    | with_reducible apply nextWf_when
    | (split at e)
    | (simp only [Prod.mk.injEq, Option.some.injEq, reduceCtorEq, and_false, false_and] at e)
    | (obtain ⟨rfl, _⟩ := e))
theorem xlate_wf1 (a0 : State) (a1 : Option ℕ) (a2 : ℕ) (a3 : ℕ) (a4 : ℕ) (a5 : Space) (a6 : Word) (a7 : ℕ) (a8 : ℕ) (a9 : ℕ) (a10 : Access) (a11 : Bool) (h0 : a0.mem.wf = true) :
    (xlate a0 a1 a2 a3 a4 a5 a6 a7 a8 a9 a10 a11).1.mem.wf = true := xlate_wf (t := (xlate a0 a1 a2 a3 a4 a5 a6 a7 a8 a9 a10 a11).1) (y := (xlate a0 a1 a2 a3 a4 a5 a6 a7 a8 a9 a10 a11).2) rfl h0

theorem xlateNow_wf {a0 : State} {a1 : ℕ} {a2 : ℕ} {a3 : Word} {a4 : ℕ} {a5 : ℕ} {a6 : Access} {t} {y} (e : xlateNow a0 a1 a2 a3 a4 a5 a6 = (t, y)) (h0 : a0.mem.wf = true) :
    (State.mem t).wf = true := by
  unfold xlateNow at e
  repeat' (first
    | assumption
    | intro _
    | (apply_assumption; done)
    | with_reducible exact True.intro
    | with_reducible refine xlate_wf (by with_reducible assumption) ?_)
theorem xlateNow_wf1 (a0 : State) (a1 : ℕ) (a2 : ℕ) (a3 : Word) (a4 : ℕ) (a5 : ℕ) (a6 : Access) (h0 : a0.mem.wf = true) :
    (xlateNow a0 a1 a2 a3 a4 a5 a6).1.mem.wf = true := xlateNow_wf (t := (xlateNow a0 a1 a2 a3 a4 a5 a6).1) (y := (xlateNow a0 a1 a2 a3 a4 a5 a6).2) rfl h0

theorem State.meetPieces_wf (a0 : State) (a1 : List Piece) (h0 : a0.mem.wf = true) :
    (State.meetPieces a0 a1).mem.wf = true := by
  unfold State.meetPieces
  repeat' (first
    | assumption
    | intro _
    | (apply_assumption; done)
    | with_reducible exact True.intro
    | with_reducible apply meetFlaws_wf
    | with_reducible apply foldl_wf)

theorem State.scatter_wf (s : State) (ps : List Piece) (bs : List Byte) (h : s.mem.wf = true) :
    (s.scatter ps bs).mem.wf = true := by
  induction ps generalizing s bs with
  | nil => exact h
  | cons p ps ih => exact ih _ _ (State.putBytes_wf _ _ _ h)

theorem journalWrite_wf (a0 : State) (a1 : ℕ) (h0 : a0.mem.wf = true) :
    (journalWrite a0 a1).mem.wf = true := by
  unfold journalWrite
  repeat' (first
    | assumption)

theorem State.note_wf (a0 : State) (a1 : Decision) (h0 : a0.mem.wf = true) :
    (State.note a0 a1).mem.wf = true := by
  unfold State.note
  repeat' (first
    | assumption)

theorem readJournal_wf (a0 : State) (h0 : a0.mem.wf = true) :
    (readJournal a0).mem.wf = true := by
  unfold readJournal
  repeat' (first
    | assumption
    | intro _
    | (apply_assumption; done)
    | with_reducible exact True.intro
    | with_reducible apply meetWhere_wf
    | with_reducible apply meetFlaws_wf
    | with_reducible apply foldl_wf)

theorem State.setLeaf_wf (a0 : State) (a1 : ℕ) (a2 : LeafState) (h0 : a0.mem.wf = true) :
    (State.setLeaf a0 a1 a2).mem.wf = true := by
  unfold State.setLeaf
  repeat' (first
    | assumption)

theorem command_wf (a0 : LeafAct) (a1 : State) (a2 : ℕ) (h1 : a1.mem.wf = true) :
    (command a0 a1 a2).mem.wf = true := by
  unfold command
  repeat' (first
    | assumption)

theorem commandAll_wf (a0 : State) (a1 : List ℕ) (a2 : LeafAct) (h0 : a0.mem.wf = true) :
    (commandAll a0 a1 a2).mem.wf = true := by
  unfold commandAll
  repeat' (first
    | assumption
    | intro _
    | (apply_assumption; done)
    | with_reducible exact True.intro
    | with_reducible apply command_wf
    | with_reducible apply foldl_wf)

theorem when__wf (a0 : Bool) (a1 : State) (a2 : State) (h1 : a1.mem.wf = true) (h2 : a2.mem.wf = true) :
    NextWf (when_ a0 a1 a2) := by
  unfold when_
  repeat' (first
    | assumption
    | intro _
    | (apply_assumption; done)
    | with_reducible exact True.intro
    | with_reducible apply foldl_wf
    | with_reducible apply nextWf_next
    | with_reducible apply nextWf_when
    | split)

theorem whenThen_wf (a0 : Bool) (a1 : State) (a2 : State) (h1 : a1.mem.wf = true) (h2 : a2.mem.wf = true) :
    NextWf (when_ a0 a1 a2) := by
  unfold when_
  repeat' (first
    | assumption
    | intro _
    | (apply_assumption; done)
    | with_reducible exact True.intro
    | with_reducible apply foldl_wf
    | with_reducible apply nextWf_next
    | with_reducible apply nextWf_when
    | split)
theorem State.logInst_wf (a0 : State) (a1 : Inst) (a2 : ℕ) (a3 : ℕ) (a4 : ℕ) (h0 : a0.mem.wf = true) :
    (State.logInst a0 a1 a2 a3 a4).mem.wf = true := by
  unfold State.logInst
  repeat' (first
    | assumption
    | intro _
    | (apply_assumption; done)
    | with_reducible exact True.intro
    | with_reducible apply State.logFault_wf)

theorem State.meetStreams_wf (a0 : State) (a1 : ℕ) (h0 : a0.mem.wf = true) :
    (State.meetStreams a0 a1).mem.wf = true := by
  unfold State.meetStreams
  repeat' (first
    | assumption
    | intro _
    | (apply_assumption; done)
    | with_reducible exact True.intro
    | with_reducible apply meetFlaws_wf)

theorem State.restoreStreams_wf (s : State) (x : Nat) (cells : List Byte) (bad : List Nat) (h : s.mem.wf = true) :
    (s.restoreStreams x cells bad).mem.wf = true := State.repoison_wf _ _ (State.putBytes_wf _ _ _ h)

theorem rollbackFe_wf (a0 : State) (a1 : ℕ) (a2 : ℕ) (h0 : a0.mem.wf = true) :
    (rollbackFe a0 a1 a2).mem.wf = true := by
  unfold rollbackFe
  repeat' (first
    | assumption
    | intro _
    | (apply_assumption; done)
    | with_reducible exact True.intro
    | with_reducible apply State.modFe_wf
    | with_reducible apply State.restoreStreams_wf
    | with_reducible apply foldl_wf
    | with_reducible apply nextWf_next
    | with_reducible apply nextWf_when
    | split
    | dsimp only)

theorem undoWrites_wf (s : State) (undo : List (Nat × Nat × List Byte × Bool)) (h : s.mem.wf = true) :
    (undoWrites s undo).mem.wf = true := by
  unfold undoWrites
  refine foldl_wf _ _ _ h fun s u h => ?_
  dsimp only
  split
  · exact State.repoison_wf _ _ (State.putBytes_wf _ _ _ h)
  · exact State.putBytes_wf _ _ _ h

theorem untake_wf (a0 : State) (a1 : ℕ) (a2 : List Word) (h0 : a0.mem.wf = true) :
    (untake a0 a1 a2).mem.wf = true := by
  unfold untake
  repeat' (first
    | assumption
    | intro _
    | (apply_assumption; done)
    | with_reducible exact True.intro
    | with_reducible apply State.modHandle_wf
    | with_reducible apply foldl_wf)

theorem rollback_wf (a0 : State) (a1 : ℕ) (h0 : a0.mem.wf = true) :
    (rollback a0 a1).mem.wf = true := by
  unfold rollback
  repeat' (first
    | assumption
    | intro _
    | (apply_assumption; done)
    | with_reducible exact True.intro
    | with_reducible apply State.modReg_wf
    | with_reducible apply rollbackFe_wf
    | with_reducible apply undoWrites_wf
    | with_reducible apply untake_wf
    | with_reducible apply foldl_wf
    | with_reducible apply nextWf_next
    | with_reducible apply nextWf_when
    | split)

theorem giveLeave_wf (a0 : State) (a1 : ℕ) (a2 : ℕ) (a3 : ℕ) (h0 : a0.mem.wf = true) :
    (giveLeave a0 a1 a2 a3).mem.wf = true := by
  unfold giveLeave
  repeat' (first
    | assumption)

theorem returnLeave_wf (a0 : State) (a1 : ℕ) (h0 : a0.mem.wf = true) :
    (returnLeave a0 a1).mem.wf = true := by
  unfold returnLeave
  repeat' (first
    | assumption
    | intro _
    | (apply_assumption; done)
    | with_reducible exact True.intro
    | with_reducible apply State.modReg_wf
    | with_reducible apply giveLeave_wf
    | with_reducible apply foldl_wf
    | with_reducible apply nextWf_next
    | with_reducible apply nextWf_when
    | split)

theorem stopRegion_wf (a0 : State) (a1 : ℕ) (h0 : a0.mem.wf = true) :
    (stopRegion a0 a1).mem.wf = true := by
  unfold stopRegion
  repeat' (first
    | assumption
    | intro _
    | (apply_assumption; done)
    | with_reducible exact True.intro
    | with_reducible apply State.modReg_wf
    | with_reducible apply rollback_wf
    | with_reducible apply returnLeave_wf)

theorem holdRegion_wf (a0 : State) (a1 : ℕ) (a2 : ℕ) (h0 : a0.mem.wf = true) :
    (holdRegion a0 a1 a2).mem.wf = true := by
  unfold holdRegion
  repeat' (first
    | assumption
    | intro _
    | (apply_assumption; done)
    | with_reducible exact True.intro
    | with_reducible apply State.modReg_wf
    | with_reducible apply rollback_wf)

theorem postAsync_wf (a0 : State) (a1 : ℕ) (a2 : TrapInfo) (h0 : a0.mem.wf = true) :
    (postAsync a0 a1 a2).mem.wf = true := by
  unfold postAsync
  repeat' (first
    | assumption
    | intro _
    | (apply_assumption; done)
    | with_reducible exact True.intro
    | with_reducible apply State.modInst_wf
    | with_reducible apply State.modCtl_wf
    | with_reducible apply State.logInst_wf
    | with_reducible apply foldl_wf
    | with_reducible apply nextWf_next
    | with_reducible apply nextWf_when
    | split)

theorem logDataErr_wf (a0 : State) (a1 : Inst) (a2 : Region) (a3 : Word) (h0 : a0.mem.wf = true) :
    (logDataErr a0 a1 a2 a3).mem.wf = true := by
  unfold logDataErr
  repeat' (first
    | assumption
    | intro _
    | (apply_assumption; done)
    | with_reducible exact True.intro
    | with_reducible apply State.logFault_wf)

theorem pickFresh_wf {p : Prop} [Decidable p] {s t : State} {y z : Nat} (e : (if p then s.takeFresh else (z, s)) = (y, t))
    (h : s.mem.wf = true) : t.mem.wf = true := by
  split at e
  · exact State.takeFresh_wf e h
  · cases e; exact h

theorem pickFresh_wf' {p : Prop} [Decidable p] {s t : State} {y z : Nat} (e : (if p then (z, s) else s.takeFresh) = (y, t))
    (h : s.mem.wf = true) : t.mem.wf = true := by
  split at e
  · cases e; exact h
  · exact State.takeFresh_wf e h

theorem regionFault_wf (a0 : State) (a1 : ℕ) (a2 : ℕ) (a3 : Word) (a4 : Word) (a5 : Option ℕ) (a6 : Bool) (h0 : a0.mem.wf = true) :
    (regionFault a0 a1 a2 a3 a4 a5 a6).mem.wf = true := by
  unfold regionFault
  repeat' (first
    | assumption
    | (exact pickFresh_wf (by assumption) h0)
    | with_reducible apply State.modReg_wf
    | with_reducible apply stopRegion_wf
    | with_reducible apply holdRegion_wf
    | with_reducible apply postAsync_wf
    | with_reducible apply logDataErr_wf
    | split)

theorem postEvent_wf (a0 : State) (a1 : ℕ) (a2 : ℕ) (h0 : a0.mem.wf = true) :
    (postEvent a0 a1 a2).mem.wf = true := by
  unfold postEvent
  repeat' (first
    | assumption
    | intro _
    | (apply_assumption; done)
    | with_reducible exact True.intro
    | with_reducible apply State.modInst_wf
    | with_reducible apply State.modCtl_wf
    | with_reducible apply foldl_wf
    | with_reducible apply nextWf_next
    | with_reducible apply nextWf_when
    | split)

theorem postFabric_wf (a0 : State) (a1 : ℕ) (a2 : BitVec 4) (h0 : a0.mem.wf = true) :
    (postFabric a0 a1 a2).mem.wf = true := by
  unfold postFabric
  repeat' (first
    | assumption)

theorem discardBlock_wf (a0 : State) (a1 : ℕ) (h0 : a0.mem.wf = true) :
    (discardBlock a0 a1).mem.wf = true := by
  unfold discardBlock
  repeat' (first
    | assumption
    | intro _
    | (apply_assumption; done)
    | with_reducible exact True.intro
    | with_reducible apply State.modCtl_wf
    | with_reducible apply State.modCore_wf
    | with_reducible apply State.countCore_wf
    | with_reducible apply dropWalks_wf
    | with_reducible apply returnLeave_wf
    | with_reducible apply foldl_wf
    | with_reducible apply nextWf_next
    | with_reducible apply nextWf_when
    | split)

theorem endInstance_wf (a0 : State) (a1 : ℕ) (a2 : ℕ) (h0 : a0.mem.wf = true) :
    (endInstance a0 a1 a2).mem.wf = true := by
  unfold endInstance
  repeat' (first
    | assumption
    | intro _
    | (apply_assumption; done)
    | with_reducible exact True.intro
    | with_reducible apply State.modInst_wf
    | with_reducible apply State.logInst_wf
    | with_reducible apply stopRegion_wf
    | with_reducible apply discardBlock_wf
    | with_reducible apply foldl_wf
    | with_reducible apply nextWf_next
    | with_reducible apply nextWf_when
    | split)

theorem readVector_wf {a0 : State} {a1 : Inst} {a2 : ℕ} {t} {y} (e : readVector a0 a1 a2 = (t, y)) (h0 : a0.mem.wf = true) :
    (State.mem t).wf = true := by
  unfold readVector at e
  repeat' (first
    | assumption
    | intro _
    | (apply_assumption; done)
    | with_reducible exact True.intro
    | with_reducible refine xlate_wf (by with_reducible assumption) ?_
    | with_reducible apply xlate_wf1
    | with_reducible apply State.meetPieces_wf
    | with_reducible apply Firing.fault_wf
    | with_reducible apply foldl_wf
    | with_reducible apply nextWf_next
    | with_reducible apply nextWf_when
    | (split at e)
    | (simp only [Prod.mk.injEq, Option.some.injEq, reduceCtorEq, and_false, false_and] at e)
    | (obtain ⟨rfl, _⟩ := e))
theorem readVector_wf1 (a0 : State) (a1 : Inst) (a2 : ℕ) (h0 : a0.mem.wf = true) :
    (readVector a0 a1 a2).1.mem.wf = true := readVector_wf (t := (readVector a0 a1 a2).1) (y := (readVector a0 a1 a2).2) rfl h0

theorem takeTrap_wf {a0 : State} {a1 : ℕ} {a2 : TrapInfo} {t : State} (e : takeTrap a0 a1 a2 = some t) (h0 : a0.mem.wf = true) :
    (State.mem t).wf = true := by
  unfold takeTrap at e
  repeat' (first
    | assumption
    | intro _
    | (apply_assumption; done)
    | with_reducible exact True.intro
    | with_reducible apply State.modCtl_wf
    | with_reducible apply dropWalks_wf
    | with_reducible apply endInstance_wf
    | with_reducible refine readVector_wf (by with_reducible assumption) ?_
    | with_reducible apply readVector_wf1
    | with_reducible apply foldl_wf
    | with_reducible apply nextWf_next
    | with_reducible apply nextWf_when
    | (split at e)
    | (simp only [Prod.mk.injEq, Option.some.injEq, reduceCtorEq, and_false, false_and] at e)
    | (obtain ⟨rfl, _⟩ := e))

theorem releaseHeld_wf (a0 : State) (a1 : ℕ) (a2 : ℕ) (h0 : a0.mem.wf = true) :
    (releaseHeld a0 a1 a2).mem.wf = true := by
  unfold releaseHeld
  repeat' (first
    | assumption
    | intro _
    | (apply_assumption; done)
    | with_reducible exact True.intro
    | with_reducible apply State.modReg_wf
    | with_reducible apply foldl_wf
    | with_reducible apply nextWf_next
    | with_reducible apply nextWf_when
    | split)

theorem returnTrap_wf (a0 : State) (a1 : ℕ) (h0 : a0.mem.wf = true) :
    (returnTrap a0 a1).mem.wf = true := by
  unfold returnTrap
  repeat' (first
    | assumption
    | intro _
    | (apply_assumption; done)
    | with_reducible exact True.intro
    | with_reducible apply State.modCtl_wf
    | with_reducible apply releaseHeld_wf
    | with_reducible apply foldl_wf
    | with_reducible apply nextWf_next
    | with_reducible apply nextWf_when
    | split)

theorem raise_wf (a0 : State) (a1 : ℕ) (a2 : ℕ) (a3 : ℕ) (a4 : Word) (h0 : a0.mem.wf = true) :
    (raise a0 a1 a2 a3 a4).mem.wf = true := by
  unfold raise
  repeat' (first
    | assumption)

theorem deliver_wf (a0 : State) (a1 : ℕ) (a2 : Target) (a3 : Val) (h0 : a0.mem.wf = true) :
    (deliver a0 a1 a2 a3).mem.wf = true := by
  unfold deliver
  repeat' (first
    | assumption
    | intro _
    | (apply_assumption; done)
    | with_reducible exact True.intro
    | with_reducible apply State.modBlk_wf
    | with_reducible apply State.modSlot_wf
    | with_reducible apply raise_wf
    | with_reducible apply foldl_wf
    | with_reducible apply nextWf_next
    | with_reducible apply nextWf_when
    | split
    | dsimp only)

theorem deliverAll_wf (a0 : State) (a1 : ℕ) (a2 : List (Target × Val)) (h0 : a0.mem.wf = true) :
    (deliverAll a0 a1 a2).mem.wf = true := by
  unfold deliverAll
  repeat' (first
    | assumption
    | intro _
    | (apply_assumption; done)
    | with_reducible exact True.intro
    | with_reducible apply deliver_wf
    | with_reducible apply foldl_wf)

theorem deliverVal_wf (a0 : State) (a1 : ℕ) (a2 : List Target) (a3 : Word) (h0 : a0.mem.wf = true) :
    (deliverVal a0 a1 a2 a3).mem.wf = true := by
  unfold deliverVal
  repeat' (first
    | assumption
    | intro _
    | (apply_assumption; done)
    | with_reducible exact True.intro
    | with_reducible apply deliverAll_wf)

theorem deliverNull_wf (a0 : State) (a1 : ℕ) (a2 : List Target) (h0 : a0.mem.wf = true) :
    (deliverNull a0 a1 a2).mem.wf = true := by
  unfold deliverNull
  repeat' (first
    | assumption
    | intro _
    | (apply_assumption; done)
    | with_reducible exact True.intro
    | with_reducible apply deliverAll_wf)

theorem exitCheck_wf (a0 : State) (a1 : ℕ) (h0 : a0.mem.wf = true) :
    (exitCheck a0 a1).mem.wf = true := by
  unfold exitCheck
  repeat' (first
    | assumption
    | intro _
    | (apply_assumption; done)
    | with_reducible exact True.intro
    | with_reducible apply raise_wf
    | with_reducible apply foldl_wf
    | with_reducible apply nextWf_next
    | with_reducible apply nextWf_when
    | split
    | dsimp only)

theorem fireOp_wf (a0 : ℕ) (a1 : Rows.Fields) (a2 : State) (a3 : Firing → State) (h2 : a2.mem.wf = true) (h3 : ∀ x0, (a3 x0).mem.wf = true) :
    NextWf (fireOp a0 a1 a2 a3) := by
  unfold fireOp
  repeat' (first
    | assumption
    | intro _
    | (apply_assumption; done)
    | with_reducible exact True.intro
    | with_reducible apply State.modSlot_wf
    | with_reducible apply deliverNull_wf
    | with_reducible apply exitCheck_wf
    | with_reducible apply h3
    | with_reducible apply foldl_wf
    | with_reducible apply nextWf_next
    | with_reducible apply nextWf_when
    | split
    | dsimp only)

theorem Firing.done_wf (a0 : Firing) (a1 : State) (a2 : List Target) (a3 : Word) (h1 : a1.mem.wf = true) :
    (Firing.done a0 a1 a2 a3).mem.wf = true := by
  unfold Firing.done
  repeat' (first
    | assumption
    | intro _
    | (apply_assumption; done)
    | with_reducible exact True.intro
    | with_reducible apply State.modSlot_wf
    | with_reducible apply deliverVal_wf)

theorem Firing.doneAll_wf (a0 : Firing) (a1 : State) (a2 : List (Target × Val)) (h1 : a1.mem.wf = true) :
    (Firing.doneAll a0 a1 a2).mem.wf = true := by
  unfold Firing.doneAll
  repeat' (first
    | assumption
    | intro _
    | (apply_assumption; done)
    | with_reducible exact True.intro
    | with_reducible apply State.modSlot_wf
    | with_reducible apply deliverAll_wf)

theorem Firing.fault_wf (a0 : Firing) (a1 : State) (a2 : ℕ) (a3 : Word) (h1 : a1.mem.wf = true) :
    (Firing.fault a0 a1 a2 a3).mem.wf = true := by
  unfold Firing.fault
  repeat' (first
    | assumption)

theorem Firing.exit_wf (a0 : Firing) (a1 : State) (a2 : ExitTo) (h1 : a1.mem.wf = true) :
    (Firing.exit a0 a1 a2).mem.wf = true := by
  unfold Firing.exit
  repeat' (first
    | assumption
    | intro _
    | (apply_assumption; done)
    | with_reducible exact True.intro
    | with_reducible apply State.modBlk_wf
    | with_reducible apply State.modSlot_wf
    | with_reducible apply raise_wf
    | with_reducible apply Firing.done_wf
    | with_reducible apply foldl_wf
    | with_reducible apply nextWf_next
    | with_reducible apply nextWf_when
    | split)

theorem Firing.note_wf (a0 : Firing) (a1 : State) (a2 : CommitAct) (h1 : a1.mem.wf = true) :
    (Firing.note a0 a1 a2).mem.wf = true := by
  unfold Firing.note
  repeat' (first
    | assumption)


end Sys2Proof.Machine
end

