-- ==== Sys2Proof/Laws/Keep2.lean ====
section
/-! SUPPORT. The operations and meanings of Machine/Flags, Machine/Alu, Machine/Order, Machine/Fetch, Machine/MemOps keep memory in its canonical
form: `f_wf` for an operation that answers a state, or a state with a value. -/

set_option maxRecDepth 4000
set_option linter.unusedTactic false
set_option linter.unreachableTactic false
set_option linter.unusedSimpArgs false
set_option linter.unusedVariables false

namespace Sys2Proof.Machine

open Sys2Proof.Bits Sys2Proof.Rows

theorem aluOp_wf (a0 : ℕ) (a1 : GOp) (a2 : State) (a3 : ℕ → Word → Word → ℤ) (h2 : a2.mem.wf = true) :
    NextWf (aluOp a0 a1 a2 a3) := by
  unfold aluOp
  repeat' (first
    | assumption
    | intro _
    | (apply_assumption; done)
    | with_reducible exact True.intro
    | with_reducible apply fireOp_wf
    | with_reducible apply Firing.done_wf)

theorem divOp_wf (a0 : ℕ) (a1 : GOp) (a2 : State) (a3 : Bool) (a4 : ℤ × ℤ × Bool → ℤ) (h2 : a2.mem.wf = true) :
    NextWf (divOp a0 a1 a2 a3 a4) := by
  unfold divOp
  repeat' (first
    | assumption
    | intro _
    | (apply_assumption; done)
    | with_reducible exact True.intro
    | with_reducible apply State.modBlk_wf
    | with_reducible apply fireOp_wf
    | with_reducible apply Firing.done_wf
    | with_reducible apply foldl_wf
    | with_reducible apply nextWf_next
    | with_reducible apply nextWf_when
    | split)

theorem execFan_wf (a0 : GOp) (a1 : State) (h1 : a1.mem.wf = true) :
    NextWf (execFan a0 a1) := by
  unfold execFan
  repeat' (first
    | assumption
    | intro _
    | (apply_assumption; done)
    | with_reducible exact True.intro
    | with_reducible apply fireOp_wf
    | with_reducible apply Firing.done_wf)

theorem execNull_wf (a0 : GOp) (a1 : State) (h1 : a1.mem.wf = true) :
    NextWf (execNull a0 a1) := by
  unfold execNull
  repeat' (first
    | assumption
    | intro _
    | (apply_assumption; done)
    | with_reducible exact True.intro
    | with_reducible apply fireOp_wf
    | with_reducible apply Firing.doneAll_wf)

theorem execMovi_wf (a0 : GOp) (a1 : State) (h1 : a1.mem.wf = true) :
    NextWf (execMovi a0 a1) := by
  unfold execMovi
  repeat' (first
    | assumption
    | intro _
    | (apply_assumption; done)
    | with_reducible exact True.intro
    | with_reducible apply aluOp_wf)

theorem execAppi_wf (a0 : GOp) (a1 : State) (h1 : a1.mem.wf = true) :
    NextWf (execAppi a0 a1) := by
  unfold execAppi
  repeat' (first
    | assumption
    | intro _
    | (apply_assumption; done)
    | with_reducible exact True.intro
    | with_reducible apply aluOp_wf)

theorem execAdd_wf (a0 : GOp) (a1 : State) (h1 : a1.mem.wf = true) :
    NextWf (execAdd a0 a1) := by
  unfold execAdd
  repeat' (first
    | assumption
    | intro _
    | (apply_assumption; done)
    | with_reducible exact True.intro
    | with_reducible apply aluOp_wf)

theorem execSub_wf (a0 : GOp) (a1 : State) (h1 : a1.mem.wf = true) :
    NextWf (execSub a0 a1) := by
  unfold execSub
  repeat' (first
    | assumption
    | intro _
    | (apply_assumption; done)
    | with_reducible exact True.intro
    | with_reducible apply aluOp_wf)

theorem execMul_wf (a0 : GOp) (a1 : State) (h1 : a1.mem.wf = true) :
    NextWf (execMul a0 a1) := by
  unfold execMul
  repeat' (first
    | assumption
    | intro _
    | (apply_assumption; done)
    | with_reducible exact True.intro
    | with_reducible apply aluOp_wf)

theorem execMulh_wf (a0 : GOp) (a1 : State) (h1 : a1.mem.wf = true) :
    NextWf (execMulh a0 a1) := by
  unfold execMulh
  repeat' (first
    | assumption
    | intro _
    | (apply_assumption; done)
    | with_reducible exact True.intro
    | with_reducible apply aluOp_wf)

theorem execMulhu_wf (a0 : GOp) (a1 : State) (h1 : a1.mem.wf = true) :
    NextWf (execMulhu a0 a1) := by
  unfold execMulhu
  repeat' (first
    | assumption
    | intro _
    | (apply_assumption; done)
    | with_reducible exact True.intro
    | with_reducible apply aluOp_wf)

theorem execDiv_wf (a0 : GOp) (a1 : State) (h1 : a1.mem.wf = true) :
    NextWf (execDiv a0 a1) := by
  unfold execDiv
  repeat' (first
    | assumption
    | intro _
    | (apply_assumption; done)
    | with_reducible exact True.intro
    | with_reducible apply divOp_wf)

theorem execDivu_wf (a0 : GOp) (a1 : State) (h1 : a1.mem.wf = true) :
    NextWf (execDivu a0 a1) := by
  unfold execDivu
  repeat' (first
    | assumption
    | intro _
    | (apply_assumption; done)
    | with_reducible exact True.intro
    | with_reducible apply divOp_wf)

theorem execRem_wf (a0 : GOp) (a1 : State) (h1 : a1.mem.wf = true) :
    NextWf (execRem a0 a1) := by
  unfold execRem
  repeat' (first
    | assumption
    | intro _
    | (apply_assumption; done)
    | with_reducible exact True.intro
    | with_reducible apply divOp_wf)

theorem execRemu_wf (a0 : GOp) (a1 : State) (h1 : a1.mem.wf = true) :
    NextWf (execRemu a0 a1) := by
  unfold execRemu
  repeat' (first
    | assumption
    | intro _
    | (apply_assumption; done)
    | with_reducible exact True.intro
    | with_reducible apply divOp_wf)

theorem execAnd_wf (a0 : GOp) (a1 : State) (h1 : a1.mem.wf = true) :
    NextWf (execAnd a0 a1) := by
  unfold execAnd
  repeat' (first
    | assumption
    | intro _
    | (apply_assumption; done)
    | with_reducible exact True.intro
    | with_reducible apply aluOp_wf)

theorem execOr_wf (a0 : GOp) (a1 : State) (h1 : a1.mem.wf = true) :
    NextWf (execOr a0 a1) := by
  unfold execOr
  repeat' (first
    | assumption
    | intro _
    | (apply_assumption; done)
    | with_reducible exact True.intro
    | with_reducible apply aluOp_wf)

theorem execXor_wf (a0 : GOp) (a1 : State) (h1 : a1.mem.wf = true) :
    NextWf (execXor a0 a1) := by
  unfold execXor
  repeat' (first
    | assumption
    | intro _
    | (apply_assumption; done)
    | with_reducible exact True.intro
    | with_reducible apply aluOp_wf)

theorem execAndn_wf (a0 : GOp) (a1 : State) (h1 : a1.mem.wf = true) :
    NextWf (execAndn a0 a1) := by
  unfold execAndn
  repeat' (first
    | assumption
    | intro _
    | (apply_assumption; done)
    | with_reducible exact True.intro
    | with_reducible apply aluOp_wf)

theorem execShl_wf (a0 : GOp) (a1 : State) (h1 : a1.mem.wf = true) :
    NextWf (execShl a0 a1) := by
  unfold execShl
  repeat' (first
    | assumption
    | intro _
    | (apply_assumption; done)
    | with_reducible exact True.intro
    | with_reducible apply aluOp_wf)

theorem execShr_wf (a0 : GOp) (a1 : State) (h1 : a1.mem.wf = true) :
    NextWf (execShr a0 a1) := by
  unfold execShr
  repeat' (first
    | assumption
    | intro _
    | (apply_assumption; done)
    | with_reducible exact True.intro
    | with_reducible apply aluOp_wf)

theorem execSra_wf (a0 : GOp) (a1 : State) (h1 : a1.mem.wf = true) :
    NextWf (execSra a0 a1) := by
  unfold execSra
  repeat' (first
    | assumption
    | intro _
    | (apply_assumption; done)
    | with_reducible exact True.intro
    | with_reducible apply aluOp_wf)

theorem execRol_wf (a0 : GOp) (a1 : State) (h1 : a1.mem.wf = true) :
    NextWf (execRol a0 a1) := by
  unfold execRol
  repeat' (first
    | assumption
    | intro _
    | (apply_assumption; done)
    | with_reducible exact True.intro
    | with_reducible apply aluOp_wf)

theorem execRor_wf (a0 : GOp) (a1 : State) (h1 : a1.mem.wf = true) :
    NextWf (execRor a0 a1) := by
  unfold execRor
  repeat' (first
    | assumption
    | intro _
    | (apply_assumption; done)
    | with_reducible exact True.intro
    | with_reducible apply aluOp_wf)

theorem execMin_wf (a0 : GOp) (a1 : State) (h1 : a1.mem.wf = true) :
    NextWf (execMin a0 a1) := by
  unfold execMin
  repeat' (first
    | assumption
    | intro _
    | (apply_assumption; done)
    | with_reducible exact True.intro
    | with_reducible apply aluOp_wf)

theorem execMax_wf (a0 : GOp) (a1 : State) (h1 : a1.mem.wf = true) :
    NextWf (execMax a0 a1) := by
  unfold execMax
  repeat' (first
    | assumption
    | intro _
    | (apply_assumption; done)
    | with_reducible exact True.intro
    | with_reducible apply aluOp_wf)

theorem execMinu_wf (a0 : GOp) (a1 : State) (h1 : a1.mem.wf = true) :
    NextWf (execMinu a0 a1) := by
  unfold execMinu
  repeat' (first
    | assumption
    | intro _
    | (apply_assumption; done)
    | with_reducible exact True.intro
    | with_reducible apply aluOp_wf)

theorem execMaxu_wf (a0 : GOp) (a1 : State) (h1 : a1.mem.wf = true) :
    NextWf (execMaxu a0 a1) := by
  unfold execMaxu
  repeat' (first
    | assumption
    | intro _
    | (apply_assumption; done)
    | with_reducible exact True.intro
    | with_reducible apply aluOp_wf)

theorem execAdds_wf (a0 : GOp) (a1 : State) (h1 : a1.mem.wf = true) :
    NextWf (execAdds a0 a1) := by
  unfold execAdds
  repeat' (first
    | assumption
    | intro _
    | (apply_assumption; done)
    | with_reducible exact True.intro
    | with_reducible apply aluOp_wf)

theorem execSubs_wf (a0 : GOp) (a1 : State) (h1 : a1.mem.wf = true) :
    NextWf (execSubs a0 a1) := by
  unfold execSubs
  repeat' (first
    | assumption
    | intro _
    | (apply_assumption; done)
    | with_reducible exact True.intro
    | with_reducible apply aluOp_wf)

theorem execAddus_wf (a0 : GOp) (a1 : State) (h1 : a1.mem.wf = true) :
    NextWf (execAddus a0 a1) := by
  unfold execAddus
  repeat' (first
    | assumption
    | intro _
    | (apply_assumption; done)
    | with_reducible exact True.intro
    | with_reducible apply aluOp_wf)

theorem execSubus_wf (a0 : GOp) (a1 : State) (h1 : a1.mem.wf = true) :
    NextWf (execSubus a0 a1) := by
  unfold execSubus
  repeat' (first
    | assumption
    | intro _
    | (apply_assumption; done)
    | with_reducible exact True.intro
    | with_reducible apply aluOp_wf)

theorem execClz_wf (a0 : GOp) (a1 : State) (h1 : a1.mem.wf = true) :
    NextWf (execClz a0 a1) := by
  unfold execClz
  repeat' (first
    | assumption
    | intro _
    | (apply_assumption; done)
    | with_reducible exact True.intro
    | with_reducible apply aluOp_wf)

theorem execCtz_wf (a0 : GOp) (a1 : State) (h1 : a1.mem.wf = true) :
    NextWf (execCtz a0 a1) := by
  unfold execCtz
  repeat' (first
    | assumption
    | intro _
    | (apply_assumption; done)
    | with_reducible exact True.intro
    | with_reducible apply aluOp_wf)

theorem execPopc_wf (a0 : GOp) (a1 : State) (h1 : a1.mem.wf = true) :
    NextWf (execPopc a0 a1) := by
  unfold execPopc
  repeat' (first
    | assumption
    | intro _
    | (apply_assumption; done)
    | with_reducible exact True.intro
    | with_reducible apply aluOp_wf)

theorem execBswap_wf (a0 : GOp) (a1 : State) (h1 : a1.mem.wf = true) :
    NextWf (execBswap a0 a1) := by
  unfold execBswap
  repeat' (first
    | assumption
    | intro _
    | (apply_assumption; done)
    | with_reducible exact True.intro
    | with_reducible apply aluOp_wf)

theorem execSext_wf (a0 : GOp) (a1 : State) (h1 : a1.mem.wf = true) :
    NextWf (execSext a0 a1) := by
  unfold execSext
  repeat' (first
    | assumption
    | intro _
    | (apply_assumption; done)
    | with_reducible exact True.intro
    | with_reducible apply aluOp_wf)

theorem execZext_wf (a0 : GOp) (a1 : State) (h1 : a1.mem.wf = true) :
    NextWf (execZext a0 a1) := by
  unfold execZext
  repeat' (first
    | assumption
    | intro _
    | (apply_assumption; done)
    | with_reducible exact True.intro
    | with_reducible apply aluOp_wf)

theorem execNeg_wf (a0 : GOp) (a1 : State) (h1 : a1.mem.wf = true) :
    NextWf (execNeg a0 a1) := by
  unfold execNeg
  repeat' (first
    | assumption
    | intro _
    | (apply_assumption; done)
    | with_reducible exact True.intro
    | with_reducible apply aluOp_wf)

theorem execNot_wf (a0 : GOp) (a1 : State) (h1 : a1.mem.wf = true) :
    NextWf (execNot a0 a1) := by
  unfold execNot
  repeat' (first
    | assumption
    | intro _
    | (apply_assumption; done)
    | with_reducible exact True.intro
    | with_reducible apply aluOp_wf)

theorem execAbs_wf (a0 : GOp) (a1 : State) (h1 : a1.mem.wf = true) :
    NextWf (execAbs a0 a1) := by
  unfold execAbs
  repeat' (first
    | assumption
    | intro _
    | (apply_assumption; done)
    | with_reducible exact True.intro
    | with_reducible apply aluOp_wf)

theorem execBfx_wf (a0 : GOp) (a1 : State) (h1 : a1.mem.wf = true) :
    NextWf (execBfx a0 a1) := by
  unfold execBfx
  repeat' (first
    | assumption
    | intro _
    | (apply_assumption; done)
    | with_reducible exact True.intro
    | with_reducible apply aluOp_wf)

theorem execBfi_wf (a0 : GOp) (a1 : State) (h1 : a1.mem.wf = true) :
    NextWf (execBfi a0 a1) := by
  unfold execBfi
  repeat' (first
    | assumption
    | intro _
    | (apply_assumption; done)
    | with_reducible exact True.intro
    | with_reducible apply aluOp_wf)

theorem execTeq_wf (a0 : GOp) (a1 : State) (h1 : a1.mem.wf = true) :
    NextWf (execTeq a0 a1) := by
  unfold execTeq
  repeat' (first
    | assumption
    | intro _
    | (apply_assumption; done)
    | with_reducible exact True.intro
    | with_reducible apply aluOp_wf)

theorem execTne_wf (a0 : GOp) (a1 : State) (h1 : a1.mem.wf = true) :
    NextWf (execTne a0 a1) := by
  unfold execTne
  repeat' (first
    | assumption
    | intro _
    | (apply_assumption; done)
    | with_reducible exact True.intro
    | with_reducible apply aluOp_wf)

theorem execTlt_wf (a0 : GOp) (a1 : State) (h1 : a1.mem.wf = true) :
    NextWf (execTlt a0 a1) := by
  unfold execTlt
  repeat' (first
    | assumption
    | intro _
    | (apply_assumption; done)
    | with_reducible exact True.intro
    | with_reducible apply aluOp_wf)

theorem execTltu_wf (a0 : GOp) (a1 : State) (h1 : a1.mem.wf = true) :
    NextWf (execTltu a0 a1) := by
  unfold execTltu
  repeat' (first
    | assumption
    | intro _
    | (apply_assumption; done)
    | with_reducible exact True.intro
    | with_reducible apply aluOp_wf)

theorem execTle_wf (a0 : GOp) (a1 : State) (h1 : a1.mem.wf = true) :
    NextWf (execTle a0 a1) := by
  unfold execTle
  repeat' (first
    | assumption
    | intro _
    | (apply_assumption; done)
    | with_reducible exact True.intro
    | with_reducible apply aluOp_wf)

theorem execTleu_wf (a0 : GOp) (a1 : State) (h1 : a1.mem.wf = true) :
    NextWf (execTleu a0 a1) := by
  unfold execTleu
  repeat' (first
    | assumption
    | intro _
    | (apply_assumption; done)
    | with_reducible exact True.intro
    | with_reducible apply aluOp_wf)

theorem execTgt_wf (a0 : GOp) (a1 : State) (h1 : a1.mem.wf = true) :
    NextWf (execTgt a0 a1) := by
  unfold execTgt
  repeat' (first
    | assumption
    | intro _
    | (apply_assumption; done)
    | with_reducible exact True.intro
    | with_reducible apply aluOp_wf)

theorem execTgtu_wf (a0 : GOp) (a1 : State) (h1 : a1.mem.wf = true) :
    NextWf (execTgtu a0 a1) := by
  unfold execTgtu
  repeat' (first
    | assumption
    | intro _
    | (apply_assumption; done)
    | with_reducible exact True.intro
    | with_reducible apply aluOp_wf)

theorem execTge_wf (a0 : GOp) (a1 : State) (h1 : a1.mem.wf = true) :
    NextWf (execTge a0 a1) := by
  unfold execTge
  repeat' (first
    | assumption
    | intro _
    | (apply_assumption; done)
    | with_reducible exact True.intro
    | with_reducible apply aluOp_wf)

theorem execTgeu_wf (a0 : GOp) (a1 : State) (h1 : a1.mem.wf = true) :
    NextWf (execTgeu a0 a1) := by
  unfold execTgeu
  repeat' (first
    | assumption
    | intro _
    | (apply_assumption; done)
    | with_reducible exact True.intro
    | with_reducible apply aluOp_wf)

theorem execTbs_wf (a0 : GOp) (a1 : State) (h1 : a1.mem.wf = true) :
    NextWf (execTbs a0 a1) := by
  unfold execTbs
  repeat' (first
    | assumption
    | intro _
    | (apply_assumption; done)
    | with_reducible exact True.intro
    | with_reducible apply aluOp_wf)

theorem execTbc_wf (a0 : GOp) (a1 : State) (h1 : a1.mem.wf = true) :
    NextWf (execTbc a0 a1) := by
  unfold execTbc
  repeat' (first
    | assumption
    | intro _
    | (apply_assumption; done)
    | with_reducible exact True.intro
    | with_reducible apply aluOp_wf)

theorem execSel_wf (a0 : GOp) (a1 : State) (h1 : a1.mem.wf = true) :
    NextWf (execSel a0 a1) := by
  unfold execSel
  repeat' (first
    | assumption
    | intro _
    | (apply_assumption; done)
    | with_reducible exact True.intro
    | with_reducible apply fireOp_wf
    | with_reducible apply Firing.doneAll_wf
    | with_reducible apply foldl_wf
    | with_reducible apply nextWf_next
    | with_reducible apply nextWf_when
    | split
    | dsimp only)

theorem execWid_wf (a0 : GOp) (a1 : State) (h1 : a1.mem.wf = true) :
    NextWf (execWid a0 a1) := by
  unfold execWid
  repeat' (first
    | assumption
    | intro _
    | (apply_assumption; done)
    | with_reducible exact True.intro
    | with_reducible apply fireOp_wf
    | with_reducible apply Firing.done_wf)

theorem execTime_wf (a0 : GOp) (a1 : State) (h1 : a1.mem.wf = true) :
    NextWf (execTime a0 a1) := by
  unfold execTime
  repeat' (first
    | assumption
    | intro _
    | (apply_assumption; done)
    | with_reducible exact True.intro
    | with_reducible apply fireOp_wf
    | with_reducible apply Firing.done_wf)

theorem execCyc_wf (a0 : GOp) (a1 : State) (h1 : a1.mem.wf = true) :
    NextWf (execCyc a0 a1) := by
  unfold execCyc
  repeat' (first
    | assumption
    | intro _
    | (apply_assumption; done)
    | with_reducible exact True.intro
    | with_reducible apply fireOp_wf
    | with_reducible apply Firing.done_wf)

theorem execCtx_wf (a0 : GOp) (a1 : State) (h1 : a1.mem.wf = true) :
    NextWf (execCtx a0 a1) := by
  unfold execCtx
  repeat' (first
    | assumption
    | intro _
    | (apply_assumption; done)
    | with_reducible exact True.intro
    | with_reducible apply fireOp_wf
    | with_reducible apply Firing.done_wf)

theorem acquire_wf (a0 : State) (a1 : ℕ) (a2 : Scope) (h0 : a0.mem.wf = true) :
    (acquire a0 a1 a2).mem.wf = true := by
  unfold acquire
  repeat' (first
    | assumption
    | intro _
    | (apply_assumption; done)
    | with_reducible exact True.intro
    | with_reducible apply State.modCore_wf
    | with_reducible apply foldl_wf
    | with_reducible apply nextWf_next
    | with_reducible apply nextWf_when
    | split)

theorem enterWrite_wf (s : State) (a : Agent) (ps : List Piece) (data : List Byte) (rel : Option Scope) (po : Bool)
    (ser : Nat) (red : Option Nat) (seq inst queue ctx : Nat)
    (h : s.mem.wf = true) : (enterWrite s a ps data rel po ser red seq inst queue ctx).mem.wf = true := by
  unfold enterWrite
  dsimp only
  generalize s.fresh + 1 = grp
  suffices ∀ x : State × List Byte, x.1.mem.wf = true → (List.foldl (fun (x : State × List Byte) p =>
      let (id, s) := x.1.takeFresh
      ({ s with outb := s.outb ++ [{ id, grp, agent := a, key := p.key, data := x.2.take p.n, rel, fence := none,
                                     poisoned := po, red, seq, inst, queue, ctx, ser }] }, x.2.drop p.n)) x ps).1.mem.wf = true
      from this (s, data) h
  induction ps with
  | nil => exact fun x hx => hx
  | cons p ps ih => exact fun x hx => ih _ hx

theorem enterFence_wf (a0 : State) (a1 : Agent) (a2 : BitVec 4) (a3 : Scope) (h0 : a0.mem.wf = true) :
    (enterFence a0 a1 a2 a3).mem.wf = true := by
  unfold enterFence
  repeat' (first
    | assumption)

theorem enterHeld_wf (a0 : State) (a1 : ℕ) (a2 : ℕ) (a3 : Held) (h0 : a0.mem.wf = true) :
    (enterHeld a0 a1 a2 a3).mem.wf = true := by
  unfold enterHeld
  repeat' (first
    | assumption
    | intro _
    | (apply_assumption; done)
    | with_reducible exact True.intro
    | with_reducible apply enterWrite_wf
    | with_reducible apply enterFence_wf
    | with_reducible apply foldl_wf
    | with_reducible apply nextWf_next
    | with_reducible apply nextWf_when
    | split)

theorem enterBelow_wf (a0 : State) (a1 : ℕ) (a2 : ℕ) (h0 : a0.mem.wf = true) :
    (enterBelow a0 a1 a2).mem.wf = true := by
  unfold enterBelow
  repeat' (first
    | assumption
    | intro _
    | (apply_assumption; done)
    | with_reducible exact True.intro
    | with_reducible apply State.modBlk_wf
    | with_reducible apply enterHeld_wf
    | with_reducible apply foldl_wf
    | with_reducible apply nextWf_next
    | with_reducible apply nextWf_when
    | split)

theorem bindBlock_wf (a0 : State) (a1 : ℕ) (h0 : a0.mem.wf = true) :
    (bindBlock a0 a1).mem.wf = true := by
  unfold bindBlock
  repeat' (first
    | assumption
    | intro _
    | (apply_assumption; done)
    | with_reducible exact True.intro
    | with_reducible apply State.modBlk_wf
    | with_reducible apply enterBelow_wf
    | with_reducible apply foldl_wf
    | with_reducible apply nextWf_next
    | with_reducible apply nextWf_when
    | split)

theorem refreshLine_wf (a0 : State) (a1 : ℕ) (a2 : ℕ) (h0 : a0.mem.wf = true) :
    (refreshLine a0 a1 a2).mem.wf = true := by
  unfold refreshLine
  repeat' (first
    | assumption
    | intro _
    | (apply_assumption; done)
    | with_reducible exact True.intro
    | with_reducible apply State.modCore_wf
    | with_reducible apply foldl_wf
    | with_reducible apply nextWf_next
    | with_reducible apply nextWf_when
    | split)

theorem answer_wf (a0 : State) (a1 : ℕ) (a2 : ℕ) (a3 : Option Word) (h0 : a0.mem.wf = true) :
    (answer a0 a1 a2 a3).mem.wf = true := by
  unfold answer
  repeat' (first
    | assumption
    | intro _
    | (apply_assumption; done)
    | with_reducible exact True.intro
    | with_reducible apply State.modBlk_wf
    | with_reducible apply State.modSlot_wf
    | with_reducible apply deliver_wf
    | with_reducible apply Firing.done_wf
    | with_reducible apply bindBlock_wf
    | with_reducible apply foldl_wf
    | with_reducible apply nextWf_next
    | with_reducible apply nextWf_when
    | split
    | dsimp only)

theorem releaseWaiter_wf (a0 : State) (a1 : Word) (a2 : ℕ × ℕ × ℕ × Scope) (h0 : a0.mem.wf = true) :
    (releaseWaiter a0 a1 a2).mem.wf = true := by
  unfold releaseWaiter
  repeat' (first
    | assumption
    | intro _
    | (apply_assumption; done)
    | with_reducible exact True.intro
    | with_reducible apply acquire_wf
    | with_reducible apply answer_wf
    | with_reducible apply foldl_wf
    | with_reducible apply nextWf_next
    | with_reducible apply nextWf_when
    | split
    | dsimp only)

theorem readHome_wf (s : State) (own : List (Nat × List Byte)) (p : Piece) (h : s.mem.wf = true) :
    (readHome s own p).s.mem.wf = true := by
  unfold readHome
  split
  · exact h
  · exact meetFlaws_wf _ _ _ h
theorem readCached_wf (s : State) (core : Nat) (own : List (Nat × List Byte)) (p : Piece) (h : s.mem.wf = true) :
    (readCached s core own p).s.mem.wf = true := by
  unfold readCached
  dsimp only
  split
  · exact h
  · split
    · exact readHome_wf _ _ _ h
    · exact State.modCore_wf _ _ _ (readHome_wf _ _ _ h)
theorem readPast_wf (s : State) (core : Nat) (own : List (Nat × List Byte)) (p : Piece) (h : s.mem.wf = true) :
    (readPast s core own p).s.mem.wf = true := by
  unfold readPast
  dsimp only
  split
  · exact readHome_wf _ _ _ h
  · exact refreshLine_wf _ _ _ (readHome_wf _ _ _ h)
theorem breakBarriers_wf (s : State) (key n : Nat) (h : s.mem.wf = true) : (breakBarriers s key n).mem.wf = true := by
  unfold breakBarriers
  refine foldl_wf _ _ _ h fun s x hs => ?_
  dsimp only
  exact releaseWaiter_wf _ _ _ (Memory.wf_writeN _ _ _ hs)

theorem homeWrite_wf (a0 : State) (a1 : ℕ) (a2 : List Byte) (h0 : a0.mem.wf = true) :
    (homeWrite a0 a1 a2).mem.wf = true := by
  unfold homeWrite
  repeat' (first
    | assumption
    | intro _
    | (apply_assumption; done)
    | with_reducible exact True.intro
    | with_reducible apply State.putBytes_wf
    | with_reducible apply breakBarriers_wf)

theorem copyRun_wf (a0 : State) (a1 : ℕ) (a2 : ℕ) (a3 : ℕ) (h0 : a0.mem.wf = true) :
    (copyRun a0 a1 a2 a3).mem.wf = true := by
  unfold copyRun
  repeat' (first
    | assumption
    | intro _
    | (apply_assumption; done)
    | with_reducible exact True.intro
    | with_reducible apply State.repoison_wf
    | with_reducible apply meetFlaws_wf
    | with_reducible apply homeWrite_wf)

theorem updateCache_wf (a0 : State) (a1 : ℕ) (a2 : ℕ) (a3 : List Byte) (h0 : a0.mem.wf = true) :
    (updateCache a0 a1 a2 a3).mem.wf = true := by
  unfold updateCache
  repeat' (first
    | assumption)

theorem ctlWrite_wf (a0 : State) (a1 : ℕ) (a2 : ℕ) (a3 : List Byte) (h0 : a0.mem.wf = true) :
    (ctlWrite a0 a1 a2 a3).mem.wf = true := by
  unfold ctlWrite
  repeat' (first
    | assumption
    | intro _
    | (apply_assumption; done)
    | with_reducible exact True.intro
    | with_reducible apply homeWrite_wf
    | with_reducible apply updateCache_wf
    | with_reducible apply foldl_wf
    | with_reducible apply nextWf_next
    | with_reducible apply nextWf_when
    | split
    | dsimp only)

theorem fetchUnit_wf {a0 : State} {a1 : Inst} {a2 : Bool} {a3 : Word} {t} {y} (e : fetchUnit a0 a1 a2 a3 = (t, y)) (h0 : a0.mem.wf = true) :
    (State.mem t).wf = true := by
  unfold fetchUnit at e
  repeat' (first
    | assumption
    | intro _
    | (apply_assumption; done)
    | with_reducible exact True.intro
    | with_reducible refine xlate_wf (by with_reducible assumption) ?_
    | with_reducible apply xlate_wf1
    | with_reducible apply State.meetPieces_wf
    | with_reducible apply Firing.fault_wf
    | with_reducible apply foldl_wf
    | with_reducible apply nextWf_next
    | with_reducible apply nextWf_when
    | (split at e)
    | (simp only [Prod.mk.injEq, Option.some.injEq, reduceCtorEq, and_false, false_and] at e)
    | (obtain ⟨rfl, _⟩ := e))
theorem fetchUnit_wf1 (a0 : State) (a1 : Inst) (a2 : Bool) (a3 : Word) (h0 : a0.mem.wf = true) :
    (fetchUnit a0 a1 a2 a3).1.mem.wf = true := fetchUnit_wf (t := (fetchUnit a0 a1 a2 a3).1) (y := (fetchUnit a0 a1 a2 a3).2) rfl h0

theorem fetchUnits_wf {s : State} {n : Inst} {fill : Bool} {addr : Word} {k m : Nat} {ws : List Word} {t} {y}
    (e : fetchUnits s n fill addr k m ws = (t, y)) (h : s.mem.wf = true) : (State.mem t).wf = true := by
  induction m generalizing s k ws with
  | zero => cases e; exact h
  | succ m ih =>
    unfold fetchUnits at e
    split at e
    · rename_i hx; exact ih e (fetchUnit_wf hx h)
    · exact fetchUnit_wf e h
theorem fetchUnits_wf1 (a0 : State) (a1 : Inst) (a2 : Bool) (a3 : Word) (a4 : ℕ) (a5 : ℕ) (a6 : List Word) (h0 : a0.mem.wf = true) :
    (fetchUnits a0 a1 a2 a3 a4 a5 a6).1.mem.wf = true := fetchUnits_wf (t := (fetchUnits a0 a1 a2 a3 a4 a5 a6).1) (y := (fetchUnits a0 a1 a2 a3 a4 a5 a6).2) rfl h0

theorem fetchWords_wf {a0 : State} {a1 : Inst} {a2 : Bool} {a3 : Word} {t} {y} (e : fetchWords a0 a1 a2 a3 = (t, y)) (h0 : a0.mem.wf = true) :
    (State.mem t).wf = true := by
  unfold fetchWords at e
  repeat' (first
    | assumption
    | intro _
    | (apply_assumption; done)
    | with_reducible exact True.intro
    | with_reducible refine fetchUnit_wf (by with_reducible assumption) ?_
    | with_reducible apply fetchUnit_wf1
    | with_reducible refine fetchUnits_wf (by with_reducible assumption) ?_
    | with_reducible apply fetchUnits_wf1
    | with_reducible apply foldl_wf
    | with_reducible apply nextWf_next
    | with_reducible apply nextWf_when
    | (split at e))
theorem fetchWords_wf1 (a0 : State) (a1 : Inst) (a2 : Bool) (a3 : Word) (h0 : a0.mem.wf = true) :
    (fetchWords a0 a1 a2 a3).1.mem.wf = true := fetchWords_wf (t := (fetchWords a0 a1 a2 a3).1) (y := (fetchWords a0 a1 a2 a3).2) rfl h0

theorem blockWords_wf {a0 : State} {a1 : Inst} {a2 : Word} {t} {y} (e : blockWords a0 a1 a2 = (t, y)) (h0 : a0.mem.wf = true) :
    (State.mem t).wf = true := by
  unfold blockWords at e
  repeat' (first
    | assumption
    | intro _
    | (apply_assumption; done)
    | with_reducible exact True.intro
    | with_reducible apply State.modCore_wf
    | with_reducible apply State.countCore_wf
    | with_reducible apply Firing.fault_wf
    | with_reducible refine fetchWords_wf (by with_reducible assumption) ?_
    | with_reducible apply fetchWords_wf1
    | with_reducible apply foldl_wf
    | with_reducible apply nextWf_next
    | with_reducible apply nextWf_when
    | (split at e)
    | (simp only [Prod.mk.injEq, Option.some.injEq, reduceCtorEq, and_false, false_and] at e)
    | (obtain ⟨rfl, _⟩ := e))
theorem blockWords_wf1 (a0 : State) (a1 : Inst) (a2 : Word) (h0 : a0.mem.wf = true) :
    (blockWords a0 a1 a2).1.mem.wf = true := blockWords_wf (t := (blockWords a0 a1 a2).1) (y := (blockWords a0 a1 a2).2) rfl h0

theorem fetchFault_wf (a0 : State) (a1 : ℕ) (a2 : ℕ) (a3 : ℕ) (a4 : Word) (h0 : a0.mem.wf = true) :
    (fetchFault a0 a1 a2 a3 a4).mem.wf = true := by
  unfold fetchFault
  repeat' (first
    | assumption)

theorem execBlockFetch_wf (a0 : ℕ) (a1 : State) (h1 : a1.mem.wf = true) :
    NextWf (execBlockFetch a0 a1) := by
  unfold execBlockFetch
  repeat' (first
    | assumption
    | intro _
    | (apply_assumption; done)
    | with_reducible exact True.intro
    | with_reducible apply State.modCtl_wf
    | with_reducible apply askWalk_wf
    | with_reducible apply Firing.fault_wf
    | with_reducible refine blockWords_wf (by with_reducible assumption) ?_
    | with_reducible apply blockWords_wf1
    | with_reducible apply fetchFault_wf
    | with_reducible apply foldl_wf
    | with_reducible apply nextWf_next
    | with_reducible apply nextWf_when
    | split)

theorem acquireTokens_wf (a0 : State) (a1 : ℕ) (a2 : Inst) (a3 : List Word) (h0 : a0.mem.wf = true) :
    (acquireTokens a0 a1 a2 a3).mem.wf = true := by
  unfold acquireTokens
  repeat' (first
    | assumption
    | intro _
    | (apply_assumption; done)
    | with_reducible exact True.intro
    | with_reducible apply State.modCtl_wf
    | with_reducible apply State.modCore_wf
    | with_reducible apply foldl_wf
    | with_reducible apply nextWf_next
    | with_reducible apply nextWf_when
    | split
    | dsimp only)

theorem execBlockStart_wf (a0 : ℕ) (a1 : State) (h1 : a1.mem.wf = true) :
    NextWf (execBlockStart a0 a1) := by
  unfold execBlockStart
  repeat' (first
    | assumption
    | intro _
    | (apply_assumption; done)
    | with_reducible exact True.intro
    | with_reducible apply State.modBlk_wf
    | with_reducible refine State.takeFresh_wf (by with_reducible assumption) ?_
    | with_reducible apply State.takeFresh_wf2
    | with_reducible apply deliverAll_wf
    | with_reducible apply acquireTokens_wf
    | with_reducible apply foldl_wf
    | with_reducible apply nextWf_next
    | with_reducible apply nextWf_when
    | split)

theorem deviceRequest_wf (a0 : State) (a1 : Firing) (a2 : Word) (a3 : List Piece) (a4 : Option (List Byte)) (h0 : a0.mem.wf = true) :
    (deviceRequest a0 a1 a2 a3 a4).mem.wf = true := by
  unfold deviceRequest
  repeat' (first
    | assumption
    | intro _
    | (apply_assumption; done)
    | with_reducible exact True.intro
    | with_reducible apply State.modBlk_wf
    | with_reducible apply State.modSlot_wf
    | with_reducible apply Firing.fault_wf
    | with_reducible apply foldl_wf
    | with_reducible apply nextWf_next
    | with_reducible apply nextWf_when
    | split)

theorem slotXlate_ok {s : State} {fr as_ addr n align a f t ps} (e : slotXlate s fr as_ addr n align a f = .ok t ps)
    (h : s.mem.wf = true) : (State.mem t).wf = true := by
  unfold slotXlate at e
  split at e
  · cases e
  · split at e
    · rename_i hx; cases e; exact xlate_wf hx h
    · cases e
    · cases e
theorem slotXlate_stop {s : State} {fr as_ addr n align a f t} (e : slotXlate s fr as_ addr n align a f = .stop t)
    (h : s.mem.wf = true) : (State.mem t).wf = true := by
  unfold slotXlate at e
  split at e
  · cases e; exact h
  · split at e
    · cases e
    · rename_i hx; cases e; exact Firing.fault_wf _ _ _ _ (xlate_wf hx h)
    · rename_i hx; cases e; exact State.modSlot_wf _ _ _ _ (askWalk_wf _ _ (xlate_wf hx h))
theorem execLd_wf (a0 : MOp) (a1 : State) (h1 : a1.mem.wf = true) :
    NextWf (execLd a0 a1) := by
  unfold execLd
  repeat' (first
    | assumption
    | intro _
    | (apply_assumption; done)
    | with_reducible exact True.intro
    | with_reducible apply State.modSlot_wf
    | with_reducible apply fireOp_wf
    | with_reducible apply deviceRequest_wf
    | with_reducible refine slotXlate_ok (e := by with_reducible assumption) ?_
    | with_reducible refine slotXlate_stop (e := by with_reducible assumption) ?_
    | with_reducible apply foldl_wf
    | with_reducible apply nextWf_next
    | with_reducible apply nextWf_when
    | split
    | dsimp only)

theorem holdStore_wf (a0 : State) (a1 : Firing) (a2 : MOp) (a3 : Word) (a4 : List Piece) (h0 : a0.mem.wf = true) :
    (holdStore a0 a1 a2 a3 a4).mem.wf = true := by
  unfold holdStore
  repeat' (first
    | assumption
    | intro _
    | (apply_assumption; done)
    | with_reducible exact True.intro
    | with_reducible apply State.modBlk_wf
    | with_reducible apply State.modSlot_wf
    | with_reducible apply Firing.done_wf
    | with_reducible apply deviceRequest_wf
    | with_reducible apply foldl_wf
    | with_reducible apply nextWf_next
    | with_reducible apply nextWf_when
    | split)

theorem fireMem_wf (a0 : ℕ) (a1 : MOp) (a2 : State) (a3 : ℕ) (a4 : Inst → Access) (a5 : Firing → State → List Piece → State) (a6 : Firing → State → List Piece → State) (h2 : a2.mem.wf = true) (h5 : ∀ x0 x1 x2, x1.mem.wf = true → (a5 x0 x1 x2).mem.wf = true) (h6 : ∀ x0 x1 x2, x1.mem.wf = true → (a6 x0 x1 x2).mem.wf = true) :
    NextWf (fireMem a0 a1 a2 a3 a4 a5 a6) := by
  unfold fireMem
  repeat' (first
    | assumption
    | intro _
    | (apply_assumption; done)
    | with_reducible exact True.intro
    | with_reducible apply State.modSlot_wf
    | with_reducible apply deliverNull_wf
    | with_reducible refine slotXlate_ok (e := by with_reducible assumption) ?_
    | with_reducible refine slotXlate_stop (e := by with_reducible assumption) ?_
    | with_reducible apply h5
    | with_reducible apply h6
    | with_reducible apply foldl_wf
    | with_reducible apply nextWf_next
    | with_reducible apply nextWf_when
    | split
    | dsimp only)

theorem Firing.ahead_wf (a0 : Firing) (a1 : State) (a2 : List Piece) (h1 : a1.mem.wf = true) :
    (Firing.ahead a0 a1 a2).mem.wf = true := by
  unfold Firing.ahead
  repeat' (first
    | assumption)

theorem execSt_wf (a0 : MOp) (a1 : State) (h1 : a1.mem.wf = true) :
    NextWf (execSt a0 a1) := by
  unfold execSt
  repeat' (first
    | assumption
    | intro _
    | (apply_assumption; done)
    | with_reducible exact True.intro
    | with_reducible apply Firing.fault_wf
    | with_reducible apply holdStore_wf
    | with_reducible apply fireMem_wf
    | with_reducible apply Firing.ahead_wf
    | with_reducible apply foldl_wf
    | with_reducible apply nextWf_next
    | with_reducible apply nextWf_when
    | split)

theorem prefetchPa_wf {a0 : State} {a1 : Firing} {a2 : MOp} {t} {y} (e : prefetchPa a0 a1 a2 = (t, y)) (h0 : a0.mem.wf = true) :
    (State.mem t).wf = true := by
  unfold prefetchPa at e
  repeat' (first
    | assumption
    | intro _
    | (apply_assumption; done)
    | with_reducible exact True.intro
    | with_reducible refine walk_wf (by with_reducible assumption) ?_
    | with_reducible apply walk_wf1
    | with_reducible apply countMiss_wf
    | with_reducible apply foldl_wf
    | with_reducible apply nextWf_next
    | with_reducible apply nextWf_when
    | (split at e)
    | (simp only [Prod.mk.injEq, Option.some.injEq, reduceCtorEq, and_false, false_and] at e)
    | (obtain ⟨rfl, _⟩ := e))
theorem prefetchPa_wf1 (a0 : State) (a1 : Firing) (a2 : MOp) (h0 : a0.mem.wf = true) :
    (prefetchPa a0 a1 a2).1.mem.wf = true := prefetchPa_wf (t := (prefetchPa a0 a1 a2).1) (y := (prefetchPa a0 a1 a2).2) rfl h0

theorem execPft_wf (a0 : MOp) (a1 : State) (h1 : a1.mem.wf = true) :
    NextWf (execPft a0 a1) := by
  unfold execPft
  repeat' (first
    | assumption
    | intro _
    | (apply_assumption; done)
    | with_reducible exact True.intro
    | with_reducible apply State.modSlot_wf
    | with_reducible apply fireOp_wf
    | with_reducible apply Firing.done_wf
    | with_reducible refine prefetchPa_wf (by with_reducible assumption) ?_
    | with_reducible apply prefetchPa_wf1
    | with_reducible apply foldl_wf
    | with_reducible apply nextWf_next
    | with_reducible apply nextWf_when
    | split
    | dsimp only)

theorem execFence_wf (a0 : MOp) (a1 : State) (h1 : a1.mem.wf = true) :
    NextWf (execFence a0 a1) := by
  unfold execFence
  repeat' (first
    | assumption
    | intro _
    | (apply_assumption; done)
    | with_reducible exact True.intro
    | with_reducible apply State.modBlk_wf
    | with_reducible apply State.modSlot_wf
    | with_reducible apply fireOp_wf
    | with_reducible apply Firing.done_wf
    | with_reducible apply acquire_wf
    | with_reducible apply foldl_wf
    | with_reducible apply nextWf_next
    | with_reducible apply nextWf_when
    | split)

theorem performLoad_wf (a0 : State) (a1 : ℕ) (a2 : ℕ) (a3 : Inst) (a4 : Block) (a5 : SlotRec) (a6 : MOp) (a7 : Piece) (h0 : a0.mem.wf = true) :
    (performLoad a0 a1 a2 a3 a4 a5 a6 a7).mem.wf = true := by
  unfold performLoad
  repeat' (first
    | assumption
    | intro _
    | (apply_assumption; done)
    | with_reducible exact True.intro
    | with_reducible apply State.modSlot_wf
    | with_reducible apply raise_wf
    | with_reducible apply deliver_wf
    | with_reducible apply Firing.done_wf
    | with_reducible apply acquire_wf
    | with_reducible apply readCached_wf
    | with_reducible apply readPast_wf
    | with_reducible apply foldl_wf
    | with_reducible apply nextWf_next
    | with_reducible apply nextWf_when
    | split
    | dsimp only)

theorem performPrefetch_wf (a0 : State) (a1 : ℕ) (a2 : ℕ) (a3 : Inst) (a4 : Piece) (h0 : a0.mem.wf = true) :
    (performPrefetch a0 a1 a2 a3 a4).mem.wf = true := by
  unfold performPrefetch
  repeat' (first
    | assumption
    | intro _
    | (apply_assumption; done)
    | with_reducible exact True.intro
    | with_reducible apply State.modSlot_wf
    | with_reducible apply State.modCore_wf
    | with_reducible apply Firing.done_wf
    | with_reducible apply readHome_wf
    | with_reducible apply foldl_wf
    | with_reducible apply nextWf_next
    | with_reducible apply nextWf_when
    | split
    | dsimp only)

theorem performToken_wf (a0 : State) (a1 : ℕ) (a2 : ℕ) (a3 : ℕ) (a4 : Block) (a5 : SlotRec) (a6 : Piece) (h0 : a0.mem.wf = true) :
    (performToken a0 a1 a2 a3 a4 a5 a6).mem.wf = true := by
  unfold performToken
  repeat' (first
    | assumption
    | intro _
    | (apply_assumption; done)
    | with_reducible exact True.intro
    | with_reducible apply State.modBlk_wf
    | with_reducible apply State.modSlot_wf
    | with_reducible apply raise_wf
    | with_reducible apply readPast_wf
    | with_reducible apply foldl_wf
    | with_reducible apply nextWf_next
    | with_reducible apply nextWf_when
    | split
    | dsimp only)

theorem readCtl_wf (a0 : State) (a1 : ℕ) (a2 : ℕ) (h0 : a0.mem.wf = true) :
    (readCtl a0 a1 a2).mem.wf = true := by
  unfold readCtl
  repeat' (first
    | assumption
    | intro _
    | (apply_assumption; done)
    | with_reducible exact True.intro
    | with_reducible apply performLoad_wf
    | with_reducible apply performPrefetch_wf
    | with_reducible apply performToken_wf
    | with_reducible apply foldl_wf
    | with_reducible apply nextWf_next
    | with_reducible apply nextWf_when
    | split
    | dsimp only)

theorem putRequest_wf (a0 : State) (a1 : Firing) (a2 : Req) (h0 : a0.mem.wf = true) :
    (putRequest a0 a1 a2).mem.wf = true := by
  unfold putRequest
  repeat' (first
    | assumption
    | intro _
    | (apply_assumption; done)
    | with_reducible exact True.intro
    | with_reducible apply State.modBlk_wf
    | with_reducible apply State.modSlot_wf
    | with_reducible apply Firing.fault_wf
    | with_reducible apply foldl_wf
    | with_reducible apply nextWf_next
    | with_reducible apply nextWf_when
    | split)

theorem refuse_wf (a0 : State) (a1 : ℕ) (a2 : ℕ) (a3 : ℕ) (a4 : Word) (h0 : a0.mem.wf = true) :
    (refuse a0 a1 a2 a3 a4).mem.wf = true := by
  unfold refuse
  repeat' (first
    | assumption)

theorem atomicOp_wf (a0 : ℕ) (a1 : AtomicOp) (a2 : MOp) (a3 : State) (h3 : a3.mem.wf = true) :
    NextWf (atomicOp a0 a1 a2 a3) := by
  unfold atomicOp
  repeat' (first
    | assumption
    | intro _
    | (apply_assumption; done)
    | with_reducible exact True.intro
    | with_reducible apply fireMem_wf
    | with_reducible apply Firing.ahead_wf
    | with_reducible apply putRequest_wf)

theorem execAadd_wf (a0 : MOp) (a1 : State) (h1 : a1.mem.wf = true) :
    NextWf (execAadd a0 a1) := by
  unfold execAadd
  repeat' (first
    | assumption
    | intro _
    | (apply_assumption; done)
    | with_reducible exact True.intro
    | with_reducible apply atomicOp_wf)

theorem execAand_wf (a0 : MOp) (a1 : State) (h1 : a1.mem.wf = true) :
    NextWf (execAand a0 a1) := by
  unfold execAand
  repeat' (first
    | assumption
    | intro _
    | (apply_assumption; done)
    | with_reducible exact True.intro
    | with_reducible apply atomicOp_wf)

theorem execAor_wf (a0 : MOp) (a1 : State) (h1 : a1.mem.wf = true) :
    NextWf (execAor a0 a1) := by
  unfold execAor
  repeat' (first
    | assumption
    | intro _
    | (apply_assumption; done)
    | with_reducible exact True.intro
    | with_reducible apply atomicOp_wf)

theorem execAxor_wf (a0 : MOp) (a1 : State) (h1 : a1.mem.wf = true) :
    NextWf (execAxor a0 a1) := by
  unfold execAxor
  repeat' (first
    | assumption
    | intro _
    | (apply_assumption; done)
    | with_reducible exact True.intro
    | with_reducible apply atomicOp_wf)

theorem execAmin_wf (a0 : MOp) (a1 : State) (h1 : a1.mem.wf = true) :
    NextWf (execAmin a0 a1) := by
  unfold execAmin
  repeat' (first
    | assumption
    | intro _
    | (apply_assumption; done)
    | with_reducible exact True.intro
    | with_reducible apply atomicOp_wf)

theorem execAmax_wf (a0 : MOp) (a1 : State) (h1 : a1.mem.wf = true) :
    NextWf (execAmax a0 a1) := by
  unfold execAmax
  repeat' (first
    | assumption
    | intro _
    | (apply_assumption; done)
    | with_reducible exact True.intro
    | with_reducible apply atomicOp_wf)

theorem execAminu_wf (a0 : MOp) (a1 : State) (h1 : a1.mem.wf = true) :
    NextWf (execAminu a0 a1) := by
  unfold execAminu
  repeat' (first
    | assumption
    | intro _
    | (apply_assumption; done)
    | with_reducible exact True.intro
    | with_reducible apply atomicOp_wf)

theorem execAmaxu_wf (a0 : MOp) (a1 : State) (h1 : a1.mem.wf = true) :
    NextWf (execAmaxu a0 a1) := by
  unfold execAmaxu
  repeat' (first
    | assumption
    | intro _
    | (apply_assumption; done)
    | with_reducible exact True.intro
    | with_reducible apply atomicOp_wf)

theorem execAswp_wf (a0 : MOp) (a1 : State) (h1 : a1.mem.wf = true) :
    NextWf (execAswp a0 a1) := by
  unfold execAswp
  repeat' (first
    | assumption
    | intro _
    | (apply_assumption; done)
    | with_reducible exact True.intro
    | with_reducible apply atomicOp_wf)

theorem execAcas_wf (a0 : MOp) (a1 : State) (h1 : a1.mem.wf = true) :
    NextWf (execAcas a0 a1) := by
  unfold execAcas
  repeat' (first
    | assumption
    | intro _
    | (apply_assumption; done)
    | with_reducible exact True.intro
    | with_reducible apply atomicOp_wf)

theorem performAtomic_wf (a0 : State) (a1 : ℕ) (a2 : ℕ) (a3 : AtomicOp) (a4 : Piece) (a5 : Word) (a6 : Word) (a7 : MemOrd) (a8 : Scope) (h0 : a0.mem.wf = true) :
    (performAtomic a0 a1 a2 a3 a4 a5 a6 a7 a8).mem.wf = true := by
  unfold performAtomic
  repeat' (first
    | assumption
    | intro _
    | (apply_assumption; done)
    | with_reducible exact True.intro
    | with_reducible apply acquire_wf
    | with_reducible apply refreshLine_wf
    | with_reducible apply answer_wf
    | with_reducible apply ctlWrite_wf
    | with_reducible apply foldl_wf
    | with_reducible apply nextWf_next
    | with_reducible apply nextWf_when
    | split)

theorem refuseEither_wf (a0 : State) (a1 : ℕ) (a2 : ℕ) (a3 : Block) (a4 : ℕ) (a5 : Word) (h0 : a0.mem.wf = true) :
    (refuseEither a0 a1 a2 a3 a4 a5).mem.wf = true := by
  unfold refuseEither
  repeat' (first
    | assumption
    | intro _
    | (apply_assumption; done)
    | with_reducible exact True.intro
    | with_reducible apply State.modBlk_wf
    | with_reducible apply State.modSlot_wf
    | with_reducible apply raise_wf
    | with_reducible apply Firing.done_wf
    | with_reducible apply refuse_wf
    | with_reducible apply foldl_wf
    | with_reducible apply nextWf_next
    | with_reducible apply nextWf_when
    | split)

theorem objectTurn_wf {s : State} {i b key n rel sc isSc reads} (h : s.mem.wf = true) :
    (match objectTurn s i b key n rel sc isSc reads with | .go t => t | .wait t => t | .poison t => t).mem.wf = true := by
  have hm := ite_wf (reads = true) _ _ (meetFlaws_wf s key n h) h
  unfold objectTurn
  dsimp only
  by_cases h1 : (objectMay (bindBlock s i) i key n rel sc isSc || (!b.bound && objectMay s i key n rel sc isSc)) = true
  · rw [if_pos h1]
    by_cases h2 : (reads && poisonLeft (if reads = true then meetFlaws s key n else s) b key n) = true
    · rw [if_pos h2]; exact hm
    · rw [if_neg h2]
      by_cases h3 : objectMay (bindBlock s i) i key n rel sc isSc = true
      · rw [if_pos h3]; exact bindBlock_wf _ _ hm
      · rw [if_neg h3]; exact bindBlock_wf _ _ hm
  · rw [if_neg h1]; exact h
theorem objectTurn_go {s : State} {i b key n rel sc isSc reads t} (e : objectTurn s i b key n rel sc isSc reads = .go t)
    (h : s.mem.wf = true) : (State.mem t).wf = true := by
  have := objectTurn_wf (i := i) (b := b) (key := key) (n := n) (rel := rel) (sc := sc) (isSc := isSc) (reads := reads) h
  rwa [e] at this
theorem objectTurn_wait {s : State} {i b key n rel sc isSc reads t} (e : objectTurn s i b key n rel sc isSc reads = .wait t)
    (h : s.mem.wf = true) : (State.mem t).wf = true := by
  have := objectTurn_wf (i := i) (b := b) (key := key) (n := n) (rel := rel) (sc := sc) (isSc := isSc) (reads := reads) h
  rwa [e] at this
theorem objectTurn_poison {s : State} {i b key n rel sc isSc reads t} (e : objectTurn s i b key n rel sc isSc reads = .poison t)
    (h : s.mem.wf = true) : (State.mem t).wf = true := by
  have := objectTurn_wf (i := i) (b := b) (key := key) (n := n) (rel := rel) (sc := sc) (isSc := isSc) (reads := reads) h
  rwa [e] at this
theorem execHomeAtomicPerform_wf (a0 : ℕ) (a1 : State) (h1 : a1.mem.wf = true) :
    NextWf (execHomeAtomicPerform a0 a1) := by
  unfold execHomeAtomicPerform
  repeat' (first
    | assumption
    | intro _
    | (apply_assumption; done)
    | with_reducible exact True.intro
    | with_reducible apply performAtomic_wf
    | with_reducible apply refuseEither_wf
    | with_reducible refine objectTurn_go (e := by with_reducible assumption) ?_
    | with_reducible refine objectTurn_wait (e := by with_reducible assumption) ?_
    | with_reducible refine objectTurn_poison (e := by with_reducible assumption) ?_
    | with_reducible apply foldl_wf
    | with_reducible apply nextWf_next
    | with_reducible apply nextWf_when
    | split)

theorem portWalkFault_wf (a0 : State) (a1 : ℕ) (a2 : ℕ) (a3 : ℕ) (a4 : ℕ) (h0 : a0.mem.wf = true) :
    (portWalkFault a0 a1 a2 a3 a4).mem.wf = true := by
  unfold portWalkFault
  repeat' (first
    | assumption
    | intro _
    | (apply_assumption; done)
    | with_reducible exact True.intro
    | with_reducible apply regionFault_wf)

theorem walkFault_wf (a0 : State) (a1 : WalkReq) (a2 : ℕ) (a3 : ℕ) (h0 : a0.mem.wf = true) :
    (walkFault a0 a1 a2 a3).mem.wf = true := by
  unfold walkFault
  repeat' (first
    | assumption
    | intro _
    | (apply_assumption; done)
    | with_reducible exact True.intro
    | with_reducible apply raise_wf
    | with_reducible apply fetchFault_wf
    | with_reducible apply portWalkFault_wf
    | with_reducible apply foldl_wf
    | with_reducible apply nextWf_next
    | with_reducible apply nextWf_when
    | split
    | dsimp only)

theorem execPageWalk_wf (a0 : ℕ) (a1 : State) (h1 : a1.mem.wf = true) :
    NextWf (execPageWalk a0 a1) := by
  unfold execPageWalk
  repeat' (first
    | assumption
    | intro _
    | (apply_assumption; done)
    | with_reducible exact True.intro
    | with_reducible refine walk_wf (by with_reducible assumption) ?_
    | with_reducible apply walk_wf1
    | with_reducible refine installLeaf_wf (by with_reducible assumption) ?_
    | with_reducible apply installLeaf_wf1
    | with_reducible apply endWalks_wf
    | with_reducible apply walkFault_wf
    | with_reducible apply foldl_wf
    | with_reducible apply nextWf_next
    | with_reducible apply nextWf_when
    | split)

theorem execWardrobeEntryFill_wf (a0 : ℕ) (a1 : BitVec 8) (a2 : ℕ) (a3 : State) (h3 : a3.mem.wf = true) :
    NextWf (execWardrobeEntryFill a0 a1 a2 a3) := by
  unfold execWardrobeEntryFill
  repeat' (first
    | assumption
    | intro _
    | (apply_assumption; done)
    | with_reducible exact True.intro
    | with_reducible apply endWalks_wf
    | with_reducible refine watFill_wf (by with_reducible assumption) ?_
    | with_reducible apply watFill_wf1
    | with_reducible apply walkFault_wf
    | with_reducible apply foldl_wf
    | with_reducible apply nextWf_next
    | with_reducible apply nextWf_when
    | split
    | dsimp only)

theorem execCacheLineDrop_wf (a0 : ℕ) (a1 : ℕ) (a2 : State) (h2 : a2.mem.wf = true) :
    NextWf (execCacheLineDrop a0 a1 a2) := by
  unfold execCacheLineDrop
  repeat' (first
    | assumption)

theorem execEccWriteback_wf (a0 : ℕ) (a1 : State) (h1 : a1.mem.wf = true) :
    NextWf (execEccWriteback a0 a1) := by
  unfold execEccWriteback
  repeat' (first
    | assumption)

theorem execRetentionEntry_wf (a0 : ArrayId) (a1 : State) (h1 : a1.mem.wf = true) :
    NextWf (execRetentionEntry a0 a1) := by
  unfold execRetentionEntry
  repeat' (first
    | assumption
    | intro _
    | (apply_assumption; done)
    | with_reducible exact True.intro
    | with_reducible apply commandAll_wf
    | with_reducible apply when__wf)

theorem reencode_wf (a0 : State) (a1 : ArrayId) (h0 : a0.mem.wf = true) :
    (reencode a0 a1).mem.wf = true := by
  unfold reencode
  repeat' (first
    | assumption
    | intro _
    | (apply_assumption; done)
    | with_reducible exact True.intro
    | with_reducible apply meetWhere_wf)

theorem execRetentionEntryDone_wf (a0 : ArrayId) (a1 : State) (h1 : a1.mem.wf = true) :
    NextWf (execRetentionEntryDone a0 a1) := by
  unfold execRetentionEntryDone
  repeat' (first
    | assumption
    | intro _
    | (apply_assumption; done)
    | with_reducible exact True.intro
    | with_reducible apply when__wf
    | with_reducible apply Firing.done_wf
    | with_reducible apply reencode_wf)

theorem execRetentionExit_wf (a0 : ArrayId) (a1 : State) (h1 : a1.mem.wf = true) :
    NextWf (execRetentionExit a0 a1) := by
  unfold execRetentionExit
  repeat' (first
    | assumption
    | intro _
    | (apply_assumption; done)
    | with_reducible exact True.intro
    | with_reducible apply commandAll_wf
    | with_reducible apply when__wf
    | with_reducible apply Firing.exit_wf
    | with_reducible apply reencode_wf)

theorem exitFlaws_wf (a0 : State) (a1 : ArrayId) (h0 : a0.mem.wf = true) :
    (exitFlaws a0 a1).mem.wf = true := by
  unfold exitFlaws
  repeat' (first
    | assumption
    | intro _
    | (apply_assumption; done)
    | with_reducible exact True.intro
    | with_reducible apply meetWhere_wf)

theorem execRetentionExitDone_wf (a0 : ArrayId) (a1 : State) (h1 : a1.mem.wf = true) :
    NextWf (execRetentionExitDone a0 a1) := by
  unfold execRetentionExitDone
  repeat' (first
    | assumption
    | intro _
    | (apply_assumption; done)
    | with_reducible exact True.intro
    | with_reducible apply when__wf
    | with_reducible apply Firing.done_wf
    | with_reducible apply exitFlaws_wf)

theorem dropOutb_wf (a0 : State) (a1 : ℕ) (h0 : a0.mem.wf = true) :
    (dropOutb a0 a1).mem.wf = true := by
  unfold dropOutb
  repeat' (first
    | assumption)

theorem performMarker_wf (a0 : State) (a1 : Outb) (a2 : BitVec 4) (a3 : Scope) (h0 : a0.mem.wf = true) :
    (performMarker a0 a1 a2 a3).mem.wf = true := by
  unfold performMarker
  repeat' (first
    | assumption
    | intro _
    | (apply_assumption; done)
    | with_reducible exact True.intro
    | with_reducible apply acquire_wf
    | with_reducible apply dropOutb_wf
    | with_reducible apply foldl_wf
    | with_reducible apply nextWf_next
    | with_reducible apply nextWf_when
    | split
    | dsimp only)


end Sys2Proof.Machine
end

