-- ==== Sys2Proof/Laws/Keep3.lean ====
section
/-! SUPPORT. The operations and meanings of Machine/Sync, Machine/Channels, Machine/Leave keep memory in its canonical
form: `f_wf` for an operation that answers a state, or a state with a value. -/

set_option maxRecDepth 4000
set_option linter.unusedTactic false
set_option linter.unreachableTactic false
set_option linter.unusedSimpArgs false
set_option linter.unusedVariables false

namespace Sys2Proof.Machine

open Sys2Proof.Bits Sys2Proof.Rows

theorem State.modSem_wf (a0 : State) (a1 : ℕ) (a2 : ℕ) (a3 : Sem → Sem) (h0 : a0.mem.wf = true) :
    (State.modSem a0 a1 a2 a3).mem.wf = true := by
  unfold State.modSem
  repeat' (first
    | assumption)

theorem semAdd_wf (a0 : State) (a1 : ℕ) (a2 : ℕ) (a3 : ℕ) (h0 : a0.mem.wf = true) :
    (semAdd a0 a1 a2 a3).mem.wf = true := by
  unfold semAdd
  repeat' (first
    | assumption
    | intro _
    | (apply_assumption; done)
    | with_reducible exact True.intro
    | with_reducible apply State.countDie_wf
    | with_reducible apply State.modSem_wf
    | with_reducible apply foldl_wf
    | with_reducible apply nextWf_next
    | with_reducible apply nextWf_when
    | split
    | dsimp only)

theorem execSemwait_wf (a0 : EOp) (a1 : State) (h1 : a1.mem.wf = true) :
    NextWf (execSemwait a0 a1) := by
  unfold execSemwait
  repeat' (first
    | assumption
    | intro _
    | (apply_assumption; done)
    | with_reducible exact True.intro
    | with_reducible apply State.modSlot_wf
    | with_reducible apply fireOp_wf
    | with_reducible apply Firing.done_wf
    | with_reducible apply Firing.fault_wf
    | with_reducible apply acquire_wf
    | with_reducible apply bindBlock_wf
    | with_reducible apply State.modSem_wf
    | with_reducible apply foldl_wf
    | with_reducible apply nextWf_next
    | with_reducible apply nextWf_when
    | split
    | dsimp only)

theorem execSempost_wf (a0 : EOp) (a1 : State) (h1 : a1.mem.wf = true) :
    NextWf (execSempost a0 a1) := by
  unfold execSempost
  repeat' (first
    | assumption
    | intro _
    | (apply_assumption; done)
    | with_reducible exact True.intro
    | with_reducible apply State.modSlot_wf
    | with_reducible apply fireOp_wf
    | with_reducible apply Firing.doneAll_wf
    | with_reducible apply Firing.fault_wf
    | with_reducible apply bindBlock_wf
    | with_reducible apply semAdd_wf
    | with_reducible apply foldl_wf
    | with_reducible apply nextWf_next
    | with_reducible apply nextWf_when
    | split
    | dsimp only)

theorem execSemread_wf (a0 : EOp) (a1 : State) (h1 : a1.mem.wf = true) :
    NextWf (execSemread a0 a1) := by
  unfold execSemread
  repeat' (first
    | assumption
    | intro _
    | (apply_assumption; done)
    | with_reducible exact True.intro
    | with_reducible apply fireOp_wf
    | with_reducible apply Firing.done_wf
    | with_reducible apply Firing.fault_wf
    | with_reducible apply foldl_wf
    | with_reducible apply nextWf_next
    | with_reducible apply nextWf_when
    | split
    | dsimp only)

theorem barWrite_wf (a0 : State) (a1 : ℕ) (a2 : ℕ) (a3 : ℕ) (h0 : a0.mem.wf = true) :
    (barWrite a0 a1 a2 a3).mem.wf = true := by
  unfold barWrite
  repeat' (first
    | assumption
    | intro _
    | (apply_assumption; done)
    | with_reducible exact True.intro
    | with_reducible apply State.putBytes_wf)

theorem releaseAll_wf (a0 : State) (a1 : ℕ) (a2 : Word) (h0 : a0.mem.wf = true) :
    (releaseAll a0 a1 a2).mem.wf = true := by
  unfold releaseAll
  repeat' (first
    | assumption
    | intro _
    | (apply_assumption; done)
    | with_reducible exact True.intro
    | with_reducible apply releaseWaiter_wf
    | with_reducible apply foldl_wf)

theorem satisfyAll_wf (a0 : State) (a1 : ℕ) (a2 : Word) (h0 : a0.mem.wf = true) :
    (satisfyAll a0 a1 a2).mem.wf = true := by
  unfold satisfyAll
  repeat' (first
    | assumption
    | intro _
    | (apply_assumption; done)
    | with_reducible exact True.intro
    | with_reducible apply State.modSlot_wf
    | with_reducible apply foldl_wf)

theorem barArrive_wf {s : State} {key : Nat} {t y} (e : barArrive s key = (t, y)) (h : s.mem.wf = true) :
    (State.mem t).wf = true := by
  have e' := congrArg (fun x : State × Word => x.1.mem.wf) e
  dsimp only at e'
  rw [← e']
  unfold barArrive
  dsimp only
  split
  · exact h
  · split
    · exact releaseAll_wf _ _ _ (barWrite_wf _ _ _ _ h)
    · split
      · exact satisfyAll_wf _ _ _ (barWrite_wf _ _ _ _ h)
      · exact barWrite_wf _ _ _ _ h
theorem barArrive_wf1 (a0 : State) (a1 : ℕ) (h0 : a0.mem.wf = true) :
    (barArrive a0 a1).1.mem.wf = true := barArrive_wf (t := (barArrive a0 a1).1) (y := (barArrive a0 a1).2) rfl h0

theorem barInit_wf (s : State) (key n : Nat) (h : s.mem.wf = true) : (barInit s key n).mem.wf = true := by
  have hb := fun w st => barWrite_wf s key w st h
  unfold barInit
  generalize barMake 0 n n = w
  dsimp only
  refine releaseAll_wf _ _ _ ?_
  split
  · exact hb _ _
  · exact hb _ _

theorem barrierOp_wf (a0 : ℕ) (a1 : BarOp) (a2 : EOp) (a3 : State) (h3 : a3.mem.wf = true) :
    NextWf (barrierOp a0 a1 a2 a3) := by
  unfold barrierOp
  repeat' (first
    | assumption
    | intro _
    | (apply_assumption; done)
    | with_reducible exact True.intro
    | with_reducible apply fireOp_wf
    | with_reducible apply putRequest_wf
    | with_reducible refine slotXlate_ok (e := by with_reducible assumption) ?_
    | with_reducible refine slotXlate_stop (e := by with_reducible assumption) ?_
    | with_reducible apply foldl_wf
    | with_reducible apply nextWf_next
    | with_reducible apply nextWf_when
    | split)

theorem execBarinit_wf (a0 : EOp) (a1 : State) (h1 : a1.mem.wf = true) :
    NextWf (execBarinit a0 a1) := by
  unfold execBarinit
  repeat' (first
    | assumption
    | intro _
    | (apply_assumption; done)
    | with_reducible exact True.intro
    | with_reducible apply barrierOp_wf)

theorem execBararr_wf (a0 : EOp) (a1 : State) (h1 : a1.mem.wf = true) :
    NextWf (execBararr a0 a1) := by
  unfold execBararr
  repeat' (first
    | assumption
    | intro _
    | (apply_assumption; done)
    | with_reducible exact True.intro
    | with_reducible apply barrierOp_wf)

theorem execBarwait_wf (a0 : EOp) (a1 : State) (h1 : a1.mem.wf = true) :
    NextWf (execBarwait a0 a1) := by
  unfold execBarwait
  repeat' (first
    | assumption
    | intro _
    | (apply_assumption; done)
    | with_reducible exact True.intro
    | with_reducible apply barrierOp_wf)

theorem answerWait_wf (a0 : State) (a1 : ℕ) (a2 : ℕ) (a3 : ℕ) (a4 : Scope) (a5 : Word) (h0 : a0.mem.wf = true) :
    (answerWait a0 a1 a2 a3 a4 a5).mem.wf = true := by
  unfold answerWait
  repeat' (first
    | assumption
    | intro _
    | (apply_assumption; done)
    | with_reducible exact True.intro
    | with_reducible apply acquire_wf
    | with_reducible apply refreshLine_wf
    | with_reducible apply answer_wf
    | with_reducible apply foldl_wf
    | with_reducible apply nextWf_next
    | with_reducible apply nextWf_when
    | split
    | dsimp only)

theorem barCache_wf (a0 : State) (a1 : ℕ) (a2 : ℕ) (h0 : a0.mem.wf = true) :
    (barCache a0 a1 a2).mem.wf = true := by
  unfold barCache
  repeat' (first
    | assumption
    | intro _
    | (apply_assumption; done)
    | with_reducible exact True.intro
    | with_reducible apply updateCache_wf
    | with_reducible apply foldl_wf
    | with_reducible apply nextWf_next
    | with_reducible apply nextWf_when
    | split)

theorem performBar_wf (a0 : State) (a1 : ℕ) (a2 : ℕ) (a3 : BarOp) (a4 : ℕ) (a5 : Word) (h0 : a0.mem.wf = true) :
    (performBar a0 a1 a2 a3 a4 a5).mem.wf = true := by
  unfold performBar
  repeat' (first
    | assumption
    | intro _
    | (apply_assumption; done)
    | with_reducible exact True.intro
    | with_reducible apply answer_wf
    | with_reducible refine barArrive_wf (by with_reducible assumption) ?_
    | with_reducible apply barArrive_wf1
    | with_reducible apply barInit_wf
    | with_reducible apply barCache_wf
    | with_reducible apply foldl_wf
    | with_reducible apply nextWf_next
    | with_reducible apply nextWf_when
    | split)

theorem performWait_wf (a0 : State) (a1 : ℕ) (a2 : ℕ) (a3 : ℕ) (a4 : Scope) (a5 : Word) (h0 : a0.mem.wf = true) :
    (performWait a0 a1 a2 a3 a4 a5).mem.wf = true := by
  unfold performWait
  repeat' (first
    | assumption
    | intro _
    | (apply_assumption; done)
    | with_reducible exact True.intro
    | with_reducible apply State.modBlk_wf
    | with_reducible apply State.modSlot_wf
    | with_reducible apply answerWait_wf
    | with_reducible apply foldl_wf
    | with_reducible apply nextWf_next
    | with_reducible apply nextWf_when
    | split)

theorem execBarrierOpPerform_wf (a0 : ℕ) (a1 : State) (h1 : a1.mem.wf = true) :
    NextWf (execBarrierOpPerform a0 a1) := by
  unfold execBarrierOpPerform
  repeat' (first
    | assumption
    | intro _
    | (apply_assumption; done)
    | with_reducible exact True.intro
    | with_reducible apply meetFlaws_wf
    | with_reducible apply refuse_wf
    | with_reducible apply refuseEither_wf
    | with_reducible apply answerWait_wf
    | with_reducible apply performBar_wf
    | with_reducible apply performWait_wf
    | with_reducible refine objectTurn_go (e := by with_reducible assumption) ?_
    | with_reducible refine objectTurn_wait (e := by with_reducible assumption) ?_
    | with_reducible refine objectTurn_poison (e := by with_reducible assumption) ?_
    | with_reducible apply foldl_wf
    | with_reducible apply nextWf_next
    | with_reducible apply nextWf_when
    | split
    | dsimp only)

theorem execBarwaitPoll_wf (a0 : ℕ) (a1 : State) (h1 : a1.mem.wf = true) :
    NextWf (execBarwaitPoll a0 a1) := by
  unfold execBarwaitPoll
  repeat' (first
    | assumption
    | intro _
    | (apply_assumption; done)
    | with_reducible exact True.intro
    | with_reducible apply State.modSlot_wf
    | with_reducible apply meetFlaws_wf
    | with_reducible apply refuse_wf
    | with_reducible apply answerWait_wf
    | with_reducible apply foldl_wf
    | with_reducible apply nextWf_next
    | with_reducible apply nextWf_when
    | split
    | dsimp only)

theorem bufferBad_wf {a0 : State} {a1 : List Piece} {t} {y} (e : bufferBad a0 a1 = (t, y)) (h0 : a0.mem.wf = true) :
    (State.mem t).wf = true := by
  unfold bufferBad at e
  repeat' (first
    | assumption
    | intro _
    | (apply_assumption; done)
    | with_reducible exact True.intro
    | with_reducible apply State.meetPieces_wf
    | with_reducible apply foldl_wf
    | with_reducible apply nextWf_next
    | with_reducible apply nextWf_when
    | (split at e)
    | (simp only [Prod.mk.injEq, Option.some.injEq, reduceCtorEq, and_false, false_and] at e)
    | (obtain ⟨rfl, _⟩ := e))
theorem bufferBad_wf1 (a0 : State) (a1 : List Piece) (h0 : a0.mem.wf = true) :
    (bufferBad a0 a1).1.mem.wf = true := bufferBad_wf (t := (bufferBad a0 a1).1) (y := (bufferBad a0 a1).2) rfl h0

theorem pushHead_wf (a0 : State) (a1 : ℕ) (a2 : Chan) (a3 : List Byte) (a4 : Bool) (h0 : a0.mem.wf = true) :
    (pushHead a0 a1 a2 a3 a4).mem.wf = true := by
  unfold pushHead
  repeat' (first
    | assumption
    | intro _
    | (apply_assumption; done)
    | with_reducible exact True.intro
    | with_reducible apply State.putBytes_wf
    | with_reducible apply State.modChan_wf
    | with_reducible apply foldl_wf
    | with_reducible apply nextWf_next
    | with_reducible apply nextWf_when
    | split)

theorem pushTail_wf (a0 : State) (a1 : ℕ) (a2 : Chan) (a3 : Ent) (h0 : a0.mem.wf = true) :
    (pushTail a0 a1 a2 a3).mem.wf = true := by
  unfold pushTail
  repeat' (first
    | assumption
    | intro _
    | (apply_assumption; done)
    | with_reducible exact True.intro
    | with_reducible apply State.modChan_wf
    | with_reducible apply State.scatter_wf)

theorem pullOne_wf {a0 : State} {a1 : ℕ} {a2 : Chan} {t : State} (e : pullOne a0 a1 a2 = some t) (h0 : a0.mem.wf = true) :
    (State.mem t).wf = true := by
  unfold pullOne at e
  repeat' (first
    | assumption
    | intro _
    | (apply_assumption; done)
    | with_reducible exact True.intro
    | with_reducible apply State.modChan_wf
    | with_reducible refine bufferBad_wf (by with_reducible assumption) ?_
    | with_reducible apply bufferBad_wf1
    | with_reducible apply pushHead_wf
    | with_reducible apply foldl_wf
    | with_reducible apply nextWf_next
    | with_reducible apply nextWf_when
    | (split at e)
    | (simp only [Prod.mk.injEq, Option.some.injEq, reduceCtorEq, and_false, false_and] at e)
    | (obtain ⟨rfl, _⟩ := e))

theorem enterOne_wf {a0 : State} {a1 : ℕ} {a2 : Chan} {t : State} (e : enterOne a0 a1 a2 = some t) (h0 : a0.mem.wf = true) :
    (State.mem t).wf = true := by
  unfold enterOne at e
  repeat' (first
    | assumption
    | intro _
    | (apply_assumption; done)
    | with_reducible exact True.intro
    | with_reducible apply State.modChan_wf
    | with_reducible apply pushTail_wf
    | with_reducible apply foldl_wf
    | with_reducible apply nextWf_next
    | with_reducible apply nextWf_when
    | (split at e)
    | (simp only [Prod.mk.injEq, Option.some.injEq, reduceCtorEq, and_false, false_and] at e)
    | (obtain ⟨rfl, _⟩ := e))

theorem settleSteps_wf (k fuel : Nat) (s : State) (h : s.mem.wf = true) : (settleSteps k fuel s).mem.wf = true := by
  induction fuel generalizing s with
  | zero => exact h
  | succ m ih =>
    unfold settleSteps
    split
    · exact h
    · split
      · rename_i hx; exact ih _ (pullOne_wf hx h)
      · split
        · rename_i hx; exact ih _ (enterOne_wf hx h)
        · exact h

theorem settleChan_wf (a0 : State) (a1 : ℕ) (h0 : a0.mem.wf = true) :
    (settleChan a0 a1).mem.wf = true := by
  unfold settleChan
  repeat' (first
    | assumption
    | intro _
    | (apply_assumption; done)
    | with_reducible exact True.intro
    | with_reducible apply State.modChan_wf
    | with_reducible apply settleSteps_wf
    | with_reducible apply foldl_wf
    | with_reducible apply nextWf_next
    | with_reducible apply nextWf_when
    | split)

theorem chSpill_wf (a0 : State) (a1 : ℕ) (a2 : Chan) (a3 : Endpoint) (a4 : Word) (h0 : a0.mem.wf = true) :
    (chSpill a0 a1 a2 a3 a4).mem.wf = true := by
  unfold chSpill
  repeat' (first
    | assumption
    | intro _
    | (apply_assumption; done)
    | with_reducible exact True.intro
    | with_reducible apply State.logFault_wf
    | with_reducible apply postAsync_wf
    | with_reducible apply foldl_wf
    | with_reducible apply nextWf_next
    | with_reducible apply nextWf_when
    | split)

theorem spill_wf (a0 : State) (a1 : ℕ) (a2 : Chan) (h0 : a0.mem.wf = true) :
    (spill a0 a1 a2).mem.wf = true := by
  unfold spill
  repeat' (first
    | assumption
    | intro _
    | (apply_assumption; done)
    | with_reducible exact True.intro
    | with_reducible apply State.modChan_wf
    | with_reducible refine xlateNow_wf (by with_reducible assumption) ?_
    | with_reducible apply xlateNow_wf1
    | with_reducible apply State.scatter_wf
    | with_reducible apply Firing.fault_wf
    | with_reducible refine bufferBad_wf (by with_reducible assumption) ?_
    | with_reducible apply bufferBad_wf1
    | with_reducible apply settleChan_wf
    | with_reducible apply chSpill_wf
    | with_reducible apply foldl_wf
    | with_reducible apply nextWf_next
    | with_reducible apply nextWf_when
    | split
    | dsimp only)

theorem refill_wf (a0 : State) (a1 : ℕ) (a2 : Chan) (h0 : a0.mem.wf = true) :
    (refill a0 a1 a2).mem.wf = true := by
  unfold refill
  repeat' (first
    | assumption
    | intro _
    | (apply_assumption; done)
    | with_reducible exact True.intro
    | with_reducible apply State.modChan_wf
    | with_reducible refine xlateNow_wf (by with_reducible assumption) ?_
    | with_reducible apply xlateNow_wf1
    | with_reducible apply Firing.fault_wf
    | with_reducible refine bufferBad_wf (by with_reducible assumption) ?_
    | with_reducible apply bufferBad_wf1
    | with_reducible apply pushHead_wf
    | with_reducible apply settleChan_wf
    | with_reducible apply chSpill_wf
    | with_reducible apply foldl_wf
    | with_reducible apply nextWf_next
    | with_reducible apply nextWf_when
    | split
    | dsimp only)

theorem execChannelSpill_wf (a0 : ℕ) (a1 : State) (h1 : a1.mem.wf = true) :
    NextWf (execChannelSpill a0 a1) := by
  unfold execChannelSpill
  repeat' (first
    | assumption
    | intro _
    | (apply_assumption; done)
    | with_reducible exact True.intro
    | with_reducible apply spill_wf
    | with_reducible apply foldl_wf
    | with_reducible apply nextWf_next
    | with_reducible apply nextWf_when
    | split)

theorem execChannelRefill_wf (a0 : ℕ) (a1 : State) (h1 : a1.mem.wf = true) :
    NextWf (execChannelRefill a0 a1) := by
  unfold execChannelRefill
  repeat' (first
    | assumption
    | intro _
    | (apply_assumption; done)
    | with_reducible exact True.intro
    | with_reducible apply refill_wf
    | with_reducible apply foldl_wf
    | with_reducible apply nextWf_next
    | with_reducible apply nextWf_when
    | split)

theorem copyPieces_wf (a0 : State) (a1 : List Piece) (a2 : List Piece) (h0 : a0.mem.wf = true) :
    (copyPieces a0 a1 a2).mem.wf = true := by
  unfold copyPieces
  repeat' (first
    | assumption
    | intro _
    | (apply_assumption; done)
    | with_reducible exact True.intro
    | with_reducible apply copyRun_wf
    | with_reducible apply foldl_wf)

theorem growthCopy_wf (a0 : State) (a1 : ℕ) (a2 : Chan) (h0 : a0.mem.wf = true) :
    (growthCopy a0 a1 a2).mem.wf = true := by
  unfold growthCopy
  repeat' (first
    | assumption
    | intro _
    | (apply_assumption; done)
    | with_reducible exact True.intro
    | with_reducible apply State.modChan_wf
    | with_reducible apply State.logFault_wf
    | with_reducible refine xlateNow_wf (by with_reducible assumption) ?_
    | with_reducible apply xlateNow_wf1
    | with_reducible apply Firing.fault_wf
    | with_reducible apply settleChan_wf
    | with_reducible apply chSpill_wf
    | with_reducible apply copyPieces_wf
    | with_reducible apply foldl_wf
    | with_reducible apply nextWf_next
    | with_reducible apply nextWf_when
    | split
    | dsimp only)

theorem execGrowthCopyDone_wf (a0 : ℕ) (a1 : State) (h1 : a1.mem.wf = true) :
    NextWf (execGrowthCopyDone a0 a1) := by
  unfold execGrowthCopyDone
  repeat' (first
    | assumption
    | intro _
    | (apply_assumption; done)
    | with_reducible exact True.intro
    | with_reducible apply growthCopy_wf
    | with_reducible apply foldl_wf
    | with_reducible apply nextWf_next
    | with_reducible apply nextWf_when
    | split)

theorem execSpillRetry_wf (a0 : ℕ) (a1 : State) (h1 : a1.mem.wf = true) :
    NextWf (execSpillRetry a0 a1) := by
  unfold execSpillRetry
  repeat' (first
    | assumption
    | intro _
    | (apply_assumption; done)
    | with_reducible exact True.intro
    | with_reducible apply spill_wf
    | with_reducible apply refill_wf
    | with_reducible apply growthCopy_wf
    | with_reducible apply foldl_wf
    | with_reducible apply nextWf_next
    | with_reducible apply nextWf_when
    | split
    | dsimp only)

theorem tokenXlate_ok {s : State} {fr as_ addr w a t ps} (e : tokenXlate s fr as_ addr w a = .ok t ps)
    (h : s.mem.wf = true) : (State.mem t).wf = true := by
  unfold tokenXlate at e
  split at e
  · rename_i hx
    split at e
    · cases e
    · cases e; exact slotXlate_ok hx h
  · exact slotXlate_ok e h
theorem tokenXlate_stop {s : State} {fr as_ addr w a t} (e : tokenXlate s fr as_ addr w a = .stop t)
    (h : s.mem.wf = true) : (State.mem t).wf = true := by
  unfold tokenXlate at e
  split at e
  · rename_i hx
    split at e
    · cases e; exact Firing.fault_wf _ _ _ _ (slotXlate_ok hx h)
    · cases e
  · exact slotXlate_stop e h
theorem execChsend_wf (a0 : EOp) (a1 : State) (h1 : a1.mem.wf = true) :
    NextWf (execChsend a0 a1) := by
  unfold execChsend
  repeat' (first
    | assumption
    | intro _
    | (apply_assumption; done)
    | with_reducible exact True.intro
    | with_reducible apply State.modSlot_wf
    | with_reducible apply fireOp_wf
    | with_reducible apply Firing.fault_wf
    | with_reducible apply putRequest_wf
    | with_reducible refine tokenXlate_ok (e := by with_reducible assumption) ?_
    | with_reducible refine tokenXlate_stop (e := by with_reducible assumption) ?_
    | with_reducible apply foldl_wf
    | with_reducible apply nextWf_next
    | with_reducible apply nextWf_when
    | split)

theorem receiveOp_wf (a0 : ℕ) (a1 : ChanOp) (a2 : EOp) (a3 : State) (h3 : a3.mem.wf = true) :
    NextWf (receiveOp a0 a1 a2 a3) := by
  unfold receiveOp
  repeat' (first
    | assumption
    | intro _
    | (apply_assumption; done)
    | with_reducible exact True.intro
    | with_reducible apply fireOp_wf
    | with_reducible apply Firing.fault_wf
    | with_reducible apply putRequest_wf
    | with_reducible refine tokenXlate_ok (e := by with_reducible assumption) ?_
    | with_reducible refine tokenXlate_stop (e := by with_reducible assumption) ?_
    | with_reducible apply foldl_wf
    | with_reducible apply nextWf_next
    | with_reducible apply nextWf_when
    | split)

theorem execChrecv_wf (a0 : EOp) (a1 : State) (h1 : a1.mem.wf = true) :
    NextWf (execChrecv a0 a1) := by
  unfold execChrecv
  repeat' (first
    | assumption
    | intro _
    | (apply_assumption; done)
    | with_reducible exact True.intro
    | with_reducible apply receiveOp_wf)

theorem execChtry_wf (a0 : EOp) (a1 : State) (h1 : a1.mem.wf = true) :
    NextWf (execChtry a0 a1) := by
  unfold execChtry
  repeat' (first
    | assumption
    | intro _
    | (apply_assumption; done)
    | with_reducible exact True.intro
    | with_reducible apply receiveOp_wf)

theorem execChlen_wf (a0 : EOp) (a1 : State) (h1 : a1.mem.wf = true) :
    NextWf (execChlen a0 a1) := by
  unfold execChlen
  repeat' (first
    | assumption
    | intro _
    | (apply_assumption; done)
    | with_reducible exact True.intro
    | with_reducible apply fireOp_wf
    | with_reducible apply Firing.done_wf
    | with_reducible apply Firing.fault_wf
    | with_reducible apply foldl_wf
    | with_reducible apply nextWf_next
    | with_reducible apply nextWf_when
    | split)

theorem execChclose_wf (a0 : EOp) (a1 : State) (h1 : a1.mem.wf = true) :
    NextWf (execChclose a0 a1) := by
  unfold execChclose
  repeat' (first
    | assumption
    | intro _
    | (apply_assumption; done)
    | with_reducible exact True.intro
    | with_reducible apply fireOp_wf
    | with_reducible apply putRequest_wf)

theorem startWait_wf (a0 : State) (a1 : ℕ) (a2 : ℕ) (h0 : a0.mem.wf = true) :
    (startWait a0 a1 a2).mem.wf = true := by
  unfold startWait
  repeat' (first
    | assumption)

theorem holdToken_wf (a0 : State) (a1 : ℕ) (a2 : ℕ) (a3 : List Piece) (a4 : List Byte) (h0 : a0.mem.wf = true) :
    (holdToken a0 a1 a2 a3 a4).mem.wf = true := by
  unfold holdToken
  repeat' (first
    | assumption)

theorem received_wf (a0 : State) (a1 : ℕ) (a2 : ℕ) (a3 : ℕ) (a4 : Chan) (a5 : Bool) (a6 : List Piece) (a7 : List Byte) (h0 : a0.mem.wf = true) :
    (received a0 a1 a2 a3 a4 a5 a6 a7).mem.wf = true := by
  unfold received
  repeat' (first
    | assumption
    | intro _
    | (apply_assumption; done)
    | with_reducible exact True.intro
    | with_reducible apply deliver_wf
    | with_reducible apply acquire_wf
    | with_reducible apply answer_wf
    | with_reducible apply holdToken_wf
    | with_reducible apply foldl_wf
    | with_reducible apply nextWf_next
    | with_reducible apply nextWf_when
    | split
    | dsimp only)

theorem triedEmpty_wf (a0 : State) (a1 : ℕ) (a2 : ℕ) (a3 : ℕ) (a4 : Chan) (h0 : a0.mem.wf = true) :
    (triedEmpty a0 a1 a2 a3 a4).mem.wf = true := by
  unfold triedEmpty
  repeat' (first
    | assumption
    | intro _
    | (apply_assumption; done)
    | with_reducible exact True.intro
    | with_reducible apply deliver_wf
    | with_reducible apply acquire_wf
    | with_reducible apply answer_wf
    | with_reducible apply foldl_wf
    | with_reducible apply nextWf_next
    | with_reducible apply nextWf_when
    | split
    | dsimp only)

theorem takeHead_wf {s : State} {key : Nat} {c : Chan} {k : Nat} {tok : Tok} {f : Chan → Chan} {t} {y}
    (e : takeHead s key c k tok f = (t, y)) (h : s.mem.wf = true) : (State.mem t).wf = true := by
  have hb : (if tok.lost = true then (s, false) else bufferBad s (c.headPieces tok)).1.mem.wf = true := by
    split
    · exact h
    · exact bufferBad_wf (y := (bufferBad s (c.headPieces tok)).2) rfl h
  unfold takeHead at e
  generalize (if tok.lost = true then (s, false) else bufferBad s (c.headPieces tok)) = q at e hb
  cases e
  exact settleChan_wf _ _ (State.modChan_wf _ _ _ hb)
theorem takeHead_wf1 (a0 : State) (a1 : ℕ) (a2 : Chan) (a3 : ℕ) (a4 : Tok) (a5 : Chan → Chan) (h0 : a0.mem.wf = true) :
    (takeHead a0 a1 a2 a3 a4 a5).1.mem.wf = true := takeHead_wf (t := (takeHead a0 a1 a2 a3 a4 a5).1) (y := (takeHead a0 a1 a2 a3 a4 a5).2) rfl h0

theorem requestReceive_wf (a0 : State) (a1 : ℕ) (a2 : ℕ) (a3 : Inst) (a4 : Word) (a5 : Bool) (a6 : List Piece) (h0 : a0.mem.wf = true) :
    (requestReceive a0 a1 a2 a3 a4 a5 a6).mem.wf = true := by
  unfold requestReceive
  repeat' (first
    | assumption
    | intro _
    | (apply_assumption; done)
    | with_reducible exact True.intro
    | with_reducible apply State.modChan_wf
    | with_reducible apply acquire_wf
    | with_reducible apply refuse_wf
    | with_reducible apply startWait_wf
    | with_reducible apply received_wf
    | with_reducible apply triedEmpty_wf
    | with_reducible refine takeHead_wf (by with_reducible assumption) ?_
    | with_reducible apply takeHead_wf1
    | with_reducible apply foldl_wf
    | with_reducible apply nextWf_next
    | with_reducible apply nextWf_when
    | split)

theorem requestSend_wf (a0 : State) (a1 : ℕ) (a2 : ℕ) (a3 : Inst) (a4 : Word) (a5 : List Byte) (h0 : a0.mem.wf = true) :
    (requestSend a0 a1 a2 a3 a4 a5).mem.wf = true := by
  unfold requestSend
  repeat' (first
    | assumption
    | intro _
    | (apply_assumption; done)
    | with_reducible exact True.intro
    | with_reducible apply State.modBlk_wf
    | with_reducible apply State.modChan_wf
    | with_reducible apply answer_wf
    | with_reducible apply refuse_wf
    | with_reducible apply startWait_wf
    | with_reducible apply foldl_wf
    | with_reducible apply nextWf_next
    | with_reducible apply nextWf_when
    | split
    | dsimp only)

theorem requestClose_wf (a0 : State) (a1 : ℕ) (a2 : ℕ) (a3 : Inst) (a4 : Block) (a5 : Word) (h0 : a0.mem.wf = true) :
    (requestClose a0 a1 a2 a3 a4 a5).mem.wf = true := by
  unfold requestClose
  repeat' (first
    | assumption
    | intro _
    | (apply_assumption; done)
    | with_reducible exact True.intro
    | with_reducible apply State.modChan_wf
    | with_reducible apply bindBlock_wf
    | with_reducible apply answer_wf
    | with_reducible apply refuse_wf
    | with_reducible apply foldl_wf
    | with_reducible apply nextWf_next
    | with_reducible apply nextWf_when
    | split
    | dsimp only)

theorem execChannelRequest_wf (a0 : ℕ) (a1 : State) (h1 : a1.mem.wf = true) :
    NextWf (execChannelRequest a0 a1) := by
  unfold execChannelRequest
  repeat' (first
    | assumption
    | intro _
    | (apply_assumption; done)
    | with_reducible exact True.intro
    | with_reducible apply requestReceive_wf
    | with_reducible apply requestSend_wf
    | with_reducible apply requestClose_wf
    | with_reducible apply foldl_wf
    | with_reducible apply nextWf_next
    | with_reducible apply nextWf_when
    | split)

theorem enterToken_wf (a0 : State) (a1 : ℕ) (a2 : ℕ) (h0 : a0.mem.wf = true) :
    (enterToken a0 a1 a2).mem.wf = true := by
  unfold enterToken
  repeat' (first
    | assumption
    | intro _
    | (apply_assumption; done)
    | with_reducible exact True.intro
    | with_reducible apply State.modChan_wf
    | with_reducible apply pushTail_wf
    | with_reducible apply settleChan_wf
    | with_reducible apply foldl_wf
    | with_reducible apply nextWf_next
    | with_reducible apply nextWf_when
    | split)

theorem destroyChan_wf (a0 : State) (a1 : ℕ) (h0 : a0.mem.wf = true) :
    (destroyChan a0 a1).mem.wf = true := by
  unfold destroyChan
  repeat' (first
    | assumption
    | intro _
    | (apply_assumption; done)
    | with_reducible exact True.intro
    | with_reducible apply foldl_wf
    | with_reducible apply nextWf_next
    | with_reducible apply nextWf_when
    | split)

theorem execChannelDestroy_wf (a0 : BitVec 32) (a1 : State) (h1 : a1.mem.wf = true) :
    NextWf (execChannelDestroy a0 a1) := by
  unfold execChannelDestroy
  repeat' (first
    | assumption
    | intro _
    | (apply_assumption; done)
    | with_reducible exact True.intro
    | with_reducible apply destroyChan_wf
    | with_reducible apply foldl_wf
    | with_reducible apply nextWf_next
    | with_reducible apply nextWf_when
    | split)

theorem askLeave_wf {a0 : State} {a1 : LeaveFor} {a2 : ℕ} {a3 : ℕ} {a4 : ℕ} {t : State} (e : askLeave a0 a1 a2 a3 a4 = some t) (h0 : a0.mem.wf = true) :
    (State.mem t).wf = true := by
  unfold askLeave at e
  repeat' (first
    | assumption
    | intro _
    | (apply_assumption; done)
    | with_reducible exact True.intro
    | with_reducible refine State.takeFresh_wf (by with_reducible assumption) ?_
    | with_reducible apply State.takeFresh_wf2
    | with_reducible apply foldl_wf
    | with_reducible apply nextWf_next
    | with_reducible apply nextWf_when
    | (split at e)
    | (simp only [Prod.mk.injEq, Option.some.injEq, reduceCtorEq, and_false, false_and] at e)
    | (obtain ⟨rfl, _⟩ := e)
    | subst e
    | contradiction
    | split
    | dsimp only)

theorem takeLeave_wf (a0 : State) (a1 : ℕ) (a2 : LeaveReq) (h0 : a0.mem.wf = true) :
    (takeLeave a0 a1 a2).mem.wf = true := by
  unfold takeLeave
  repeat' (first
    | assumption)

theorem deliverToken_wf (a0 : State) (a1 : ℕ) (a2 : ℕ) (a3 : Word) (a4 : ℕ) (a5 : Bool) (h0 : a0.mem.wf = true) :
    (deliverToken a0 a1 a2 a3 a4 a5).mem.wf = true := by
  unfold deliverToken
  repeat' (first
    | assumption
    | intro _
    | (apply_assumption; done)
    | with_reducible exact True.intro
    | with_reducible apply State.modInst_wf
    | with_reducible apply State.modCtl_wf
    | with_reducible apply postEvent_wf
    | with_reducible apply foldl_wf
    | with_reducible apply nextWf_next
    | with_reducible apply nextWf_when
    | split)

theorem deviceWrite_wf (a0 : State) (a1 : ℕ) (a2 : List Byte) (a3 : Bool) (h0 : a0.mem.wf = true) :
    (deviceWrite a0 a1 a2 a3).mem.wf = true := by
  unfold deviceWrite
  repeat' (first
    | assumption
    | intro _
    | (apply_assumption; done)
    | with_reducible exact True.intro
    | with_reducible refine State.takeFresh_wf (by with_reducible assumption) ?_
    | with_reducible apply State.takeFresh_wf2
    | with_reducible apply State.logEvent_wf
    | with_reducible apply foldl_wf
    | with_reducible apply nextWf_next
    | with_reducible apply nextWf_when
    | split
    | dsimp only)

theorem deviceRead_wf {a0 : State} {a1 : ℕ} {a2 : ℕ} {a3 : ReadFor} {t} {y} (e : deviceRead a0 a1 a2 a3 = some (t, y)) (h0 : a0.mem.wf = true) :
    (State.mem t).wf = true := by
  unfold deviceRead at e
  repeat' (first
    | assumption
    | intro _
    | (apply_assumption; done)
    | with_reducible exact True.intro
    | with_reducible refine State.takeFresh_wf (by with_reducible assumption) ?_
    | with_reducible apply State.takeFresh_wf2
    | with_reducible apply State.logEvent_wf
    | with_reducible apply foldl_wf
    | with_reducible apply nextWf_next
    | with_reducible apply nextWf_when
    | (split at e)
    | (simp only [Prod.mk.injEq, Option.some.injEq, reduceCtorEq, and_false, false_and] at e)
    | (obtain ⟨rfl, _⟩ := e))

theorem poisonRun_wf (a0 : State) (a1 : ℕ) (a2 : ℕ) (h0 : a0.mem.wf = true) :
    (poisonRun a0 a1 a2).mem.wf = true := by
  unfold poisonRun
  repeat' (first
    | assumption)


end Sys2Proof.Machine
end

