-- ==== Sys2Proof/Laws/Keep4.lean ====
section
/-! SUPPORT. The operations and meanings of Machine/Region, Machine/Engines keep memory in its canonical
form: `f_wf` for an operation that answers a state, or a state with a value. -/

set_option maxRecDepth 4000
set_option linter.unusedTactic false
set_option linter.unreachableTactic false
set_option linter.unusedSimpArgs false
set_option linter.unusedVariables false

namespace Sys2Proof.Machine

open Sys2Proof.Bits Sys2Proof.Rows

theorem bindFault_wf (a0 : State) (a1 : ℕ) (a2 : ℕ) (a3 : Word) (a4 : List Word) (a5 : ℕ) (a6 : Bool) (h0 : a0.mem.wf = true) :
    (bindFault a0 a1 a2 a3 a4 a5 a6).mem.wf = true := by
  unfold bindFault
  repeat' (first
    | assumption
    | intro _
    | (apply_assumption; done)
    | with_reducible exact True.intro
    | with_reducible apply regionFault_wf)

theorem fillWords_wf {a0 : State} {a1 : Access} {a2 : Inst} {a3 : Word} {a4 : ℕ} {t} {y} (e : fillWords a0 a1 a2 a3 a4 = (t, y)) (h0 : a0.mem.wf = true) :
    (State.mem t).wf = true := by
  unfold fillWords at e
  repeat' (first
    | assumption
    | intro _
    | (apply_assumption; done)
    | with_reducible exact True.intro
    | with_reducible apply meetFlaws_wf
    | with_reducible refine xlateNow_wf (by with_reducible assumption) ?_
    | with_reducible apply xlateNow_wf1
    | with_reducible apply Firing.fault_wf
    | with_reducible apply foldl_wf
    | with_reducible apply nextWf_next
    | with_reducible apply nextWf_when
    | (split at e)
    | (simp only [Prod.mk.injEq, Option.some.injEq, reduceCtorEq, and_false, false_and] at e)
    | (obtain ⟨rfl, _⟩ := e))
theorem fillWords_wf1 (a0 : State) (a1 : Access) (a2 : Inst) (a3 : Word) (a4 : ℕ) (h0 : a0.mem.wf = true) :
    (fillWords a0 a1 a2 a3 a4).1.mem.wf = true := fillWords_wf (t := (fillWords a0 a1 a2 a3 a4).1) (y := (fillWords a0 a1 a2 a3 a4).2) rfl h0

theorem fillItem_wf {a0 : State} {a1 : Access} {a2 : Inst} {a3 : ℕ} {a4 : Word} {t} {y} (e : fillItem a0 a1 a2 a3 a4 = (t, y)) (h0 : a0.mem.wf = true) :
    (State.mem t).wf = true := by
  unfold fillItem at e
  repeat' (first
    | assumption
    | intro _
    | (apply_assumption; done)
    | with_reducible exact True.intro
    | with_reducible apply Firing.fault_wf
    | with_reducible refine fillWords_wf (by with_reducible assumption) ?_
    | with_reducible apply fillWords_wf1
    | with_reducible apply foldl_wf
    | with_reducible apply nextWf_next
    | with_reducible apply nextWf_when
    | (split at e)
    | (simp only [Prod.mk.injEq, Option.some.injEq, reduceCtorEq, and_false, false_and] at e)
    | (obtain ⟨rfl, _⟩ := e))
theorem fillItem_wf1 (a0 : State) (a1 : Access) (a2 : Inst) (a3 : ℕ) (a4 : Word) (h0 : a0.mem.wf = true) :
    (fillItem a0 a1 a2 a3 a4).1.mem.wf = true := fillItem_wf (t := (fillItem a0 a1 a2 a3 a4).1) (y := (fillItem a0 a1 a2 a3 a4).2) rfl h0

theorem searchDir_wf {s : State} {a : Access} {n : Inst} {base : Word} {kind id fuel k : Nat} {t} {y}
    (e : searchDir s a n base kind id fuel k = (t, y)) (h : s.mem.wf = true) : (State.mem t).wf = true := by
  induction fuel generalizing s k with
  | zero => cases e; exact h
  | succ m ih =>
    unfold searchDir at e
    split at e
    · rename_i hx; cases e; exact fillWords_wf hx h
    · rename_i hx
      dsimp only at e
      split at e
      · cases e; exact fillWords_wf hx h
      · split at e
        · cases e; exact fillWords_wf hx h
        · exact ih e (fillWords_wf hx h)
theorem searchDir_wf1 (a0 : State) (a1 : Access) (a2 : Inst) (a3 : Word) (a4 : ℕ) (a5 : ℕ) (a6 : ℕ) (a7 : ℕ) (h0 : a0.mem.wf = true) :
    (searchDir a0 a1 a2 a3 a4 a5 a6 a7).1.mem.wf = true := searchDir_wf (t := (searchDir a0 a1 a2 a3 a4 a5 a6 a7).1) (y := (searchDir a0 a1 a2 a3 a4 a5 a6 a7).2) rfl h0

theorem itemAddr_wf {s : State} {a : Access} {n : Inst} {kind id : Nat} {l : List (Word × Nat)} {t} {y}
    (e : itemAddr s a n kind id l = (t, y)) (h : s.mem.wf = true) : (State.mem t).wf = true := by
  induction l generalizing s with
  | nil => cases e; exact h
  | cons x l ih =>
    unfold itemAddr at e
    split at e
    · rename_i hx; exact ih e (searchDir_wf hx h)
    · exact searchDir_wf e h
theorem itemAddr_wf1 (a0 : State) (a1 : Access) (a2 : Inst) (a3 : ℕ) (a4 : ℕ) (a5 : List (Word × ℕ)) (h0 : a0.mem.wf = true) :
    (itemAddr a0 a1 a2 a3 a4 a5).1.mem.wf = true := itemAddr_wf (t := (itemAddr a0 a1 a2 a3 a4 a5).1) (y := (itemAddr a0 a1 a2 a3 a4 a5).2) rfl h0

theorem searchSecs_wf {a0 : State} {a1 : Access} {a2 : Inst} {a3 : ℕ} {a4 : ℕ} {a5 : List (Word × ℕ)} {t} {y} (e : searchSecs a0 a1 a2 a3 a4 a5 = (t, y)) (h0 : a0.mem.wf = true) :
    (State.mem t).wf = true := by
  unfold searchSecs at e
  repeat' (first
    | assumption
    | intro _
    | (apply_assumption; done)
    | with_reducible exact True.intro
    | with_reducible apply Firing.fault_wf
    | with_reducible refine fillItem_wf (by with_reducible assumption) ?_
    | with_reducible apply fillItem_wf1
    | with_reducible refine itemAddr_wf (by with_reducible assumption) ?_
    | with_reducible apply itemAddr_wf1
    | with_reducible apply foldl_wf
    | with_reducible apply nextWf_next
    | with_reducible apply nextWf_when
    | (split at e)
    | (simp only [Prod.mk.injEq, Option.some.injEq, reduceCtorEq, and_false, false_and] at e)
    | (obtain ⟨rfl, _⟩ := e))
theorem searchSecs_wf1 (a0 : State) (a1 : Access) (a2 : Inst) (a3 : ℕ) (a4 : ℕ) (a5 : List (Word × ℕ)) (h0 : a0.mem.wf = true) :
    (searchSecs a0 a1 a2 a3 a4 a5).1.mem.wf = true := searchSecs_wf (t := (searchSecs a0 a1 a2 a3 a4 a5).1) (y := (searchSecs a0 a1 a2 a3 a4 a5).2) rfl h0

theorem keepItem_wf (a0 : State) (a1 : ℕ) (a2 : ℕ) (a3 : ℕ) (a4 : ℕ) (a5 : List Word) (h0 : a0.mem.wf = true) :
    (keepItem a0 a1 a2 a3 a4 a5).mem.wf = true := by
  unfold keepItem
  repeat' (first
    | assumption
    | intro _
    | (apply_assumption; done)
    | with_reducible exact True.intro
    | with_reducible apply State.putBytes_wf
    | with_reducible apply foldl_wf
    | with_reducible apply nextWf_next
    | with_reducible apply nextWf_when
    | split
    | dsimp only)

theorem readItem_wf {a0 : State} {a1 : StoreItem} {t} {y} (e : readItem a0 a1 = (t, y)) (h0 : a0.mem.wf = true) :
    (State.mem t).wf = true := by
  unfold readItem at e
  repeat' (first
    | assumption
    | intro _
    | (apply_assumption; done)
    | with_reducible exact True.intro
    | with_reducible apply meetFlaws_wf
    | with_reducible apply Firing.fault_wf
    | with_reducible apply foldl_wf
    | with_reducible apply nextWf_next
    | with_reducible apply nextWf_when
    | (split at e)
    | (simp only [Prod.mk.injEq, Option.some.injEq, reduceCtorEq, and_false, false_and] at e)
    | (obtain ⟨rfl, _⟩ := e))
theorem readItem_wf1 (a0 : State) (a1 : StoreItem) (h0 : a0.mem.wf = true) :
    (readItem a0 a1).1.mem.wf = true := readItem_wf (t := (readItem a0 a1).1) (y := (readItem a0 a1).2) rfl h0

theorem storeItem_wf {a0 : State} {a1 : Inst} {a2 : ℕ} {a3 : ℕ} {a4 : ℕ} {t} {y} (e : storeItem a0 a1 a2 a3 a4 = (t, y)) (h0 : a0.mem.wf = true) :
    (State.mem t).wf = true := by
  unfold storeItem at e
  repeat' (first
    | assumption
    | intro _
    | (apply_assumption; done)
    | with_reducible exact True.intro
    | with_reducible refine searchSecs_wf (by with_reducible assumption) ?_
    | with_reducible apply searchSecs_wf1
    | with_reducible apply keepItem_wf
    | with_reducible refine readItem_wf (by with_reducible assumption) ?_
    | with_reducible apply readItem_wf1
    | with_reducible apply foldl_wf
    | with_reducible apply nextWf_next
    | with_reducible apply nextWf_when
    | (split at e)
    | (simp only [Prod.mk.injEq, Option.some.injEq, reduceCtorEq, and_false, false_and] at e)
    | (obtain ⟨rfl, _⟩ := e))
theorem storeItem_wf1 (a0 : State) (a1 : Inst) (a2 : ℕ) (a3 : ℕ) (a4 : ℕ) (h0 : a0.mem.wf = true) :
    (storeItem a0 a1 a2 a3 a4).1.mem.wf = true := storeItem_wf (t := (storeItem a0 a1 a2 a3 a4).1) (y := (storeItem a0 a1 a2 a3 a4).2) rfl h0

theorem loadRing_wf {a0 : State} {a1 : Inst} {a2 : ℕ} {a3 : Fe} {a4 : ℕ} {a5 : List Word} {t} {y} (e : loadRing a0 a1 a2 a3 a4 a5 = (t, y)) (h0 : a0.mem.wf = true) :
    (State.mem t).wf = true := by
  unfold loadRing at e
  repeat' (first
    | assumption
    | intro _
    | (apply_assumption; done)
    | with_reducible exact True.intro
    | with_reducible apply Firing.fault_wf
    | with_reducible refine storeItem_wf (by with_reducible assumption) ?_
    | with_reducible apply storeItem_wf1
    | with_reducible apply foldl_wf
    | with_reducible apply nextWf_next
    | with_reducible apply nextWf_when
    | (split at e)
    | (simp only [Prod.mk.injEq, Option.some.injEq, reduceCtorEq, and_false, false_and] at e)
    | (obtain ⟨rfl, _⟩ := e))
theorem loadRing_wf1 (a0 : State) (a1 : Inst) (a2 : ℕ) (a3 : Fe) (a4 : ℕ) (a5 : List Word) (h0 : a0.mem.wf = true) :
    (loadRing a0 a1 a2 a3 a4 a5).1.mem.wf = true := loadRing_wf (t := (loadRing a0 a1 a2 a3 a4 a5).1) (y := (loadRing a0 a1 a2 a3 a4 a5).2) rfl h0

theorem loadFe_wf {a0 : State} {a1 : Inst} {a2 : Region} {a3 : ℕ} {a4 : ℕ} {a5 : ℕ} {a6 : Option ℕ} {t} {y} (e : loadFe a0 a1 a2 a3 a4 a5 a6 = (t, y)) (h0 : a0.mem.wf = true) :
    (State.mem t).wf = true := by
  unfold loadFe at e
  repeat' (first
    | assumption
    | intro _
    | (apply_assumption; done)
    | with_reducible exact True.intro
    | with_reducible apply Firing.fault_wf
    | with_reducible refine storeItem_wf (by with_reducible assumption) ?_
    | with_reducible apply storeItem_wf1
    | with_reducible refine loadRing_wf (by with_reducible assumption) ?_
    | with_reducible apply loadRing_wf1
    | with_reducible apply foldl_wf
    | with_reducible apply nextWf_next
    | with_reducible apply nextWf_when
    | (split at e)
    | (simp only [Prod.mk.injEq, Option.some.injEq, reduceCtorEq, and_false, false_and] at e)
    | (obtain ⟨rfl, _⟩ := e))
theorem loadFe_wf1 (a0 : State) (a1 : Inst) (a2 : Region) (a3 : ℕ) (a4 : ℕ) (a5 : ℕ) (a6 : Option ℕ) (h0 : a0.mem.wf = true) :
    (loadFe a0 a1 a2 a3 a4 a5 a6).1.mem.wf = true := loadFe_wf (t := (loadFe a0 a1 a2 a3 a4 a5 a6).1) (y := (loadFe a0 a1 a2 a3 a4 a5 a6).2) rfl h0

theorem enterModes_wf (a0 : State) (a1 : ℕ) (a2 : ℕ) (h0 : a0.mem.wf = true) :
    (enterModes a0 a1 a2).mem.wf = true := by
  unfold enterModes
  repeat' (first
    | assumption
    | intro _
    | (apply_assumption; done)
    | with_reducible exact True.intro
    | with_reducible apply State.modFe_wf
    | with_reducible apply foldl_wf
    | with_reducible apply nextWf_next
    | with_reducible apply nextWf_when
    | split)

theorem enterRelease_wf (a0 : State) (a1 : ℕ) (a2 : ℕ) (a3 : Chan) (a4 : List (ℕ × Option (List Byte))) (h0 : a0.mem.wf = true) :
    (enterRelease a0 a1 a2 a3 a4).mem.wf = true := by
  unfold enterRelease
  repeat' (first
    | assumption
    | intro _
    | (apply_assumption; done)
    | with_reducible exact True.intro
    | with_reducible refine State.takeFresh_wf (by with_reducible assumption) ?_
    | with_reducible apply State.takeFresh_wf2
    | with_reducible apply State.modChan_wf
    | with_reducible apply settleChan_wf
    | with_reducible apply foldl_wf
    | with_reducible apply nextWf_next
    | with_reducible apply nextWf_when
    | split
    | dsimp only)

theorem closeSinks_wf (a0 : State) (a1 : ℕ) (a2 : Inst) (a3 : List CloseAt) (h0 : a0.mem.wf = true) :
    (closeSinks a0 a1 a2 a3).mem.wf = true := by
  unfold closeSinks
  repeat' (first
    | assumption
    | intro _
    | (apply_assumption; done)
    | with_reducible exact True.intro
    | with_reducible apply State.modChan_wf
    | with_reducible apply enterRelease_wf
    | with_reducible apply foldl_wf
    | with_reducible apply nextWf_next
    | with_reducible apply nextWf_when
    | split)

theorem endNest_wf (a0 : State) (a1 : ℕ) (h0 : a0.mem.wf = true) :
    (endNest a0 a1).mem.wf = true := by
  unfold endNest
  repeat' (first
    | assumption
    | intro _
    | (apply_assumption; done)
    | with_reducible exact True.intro
    | with_reducible apply State.modReg_wf
    | with_reducible apply State.modFe_wf
    | with_reducible apply returnLeave_wf
    | with_reducible apply closeSinks_wf
    | with_reducible apply foldl_wf
    | with_reducible apply nextWf_next
    | with_reducible apply nextWf_when
    | split)

theorem endEmpty_wf (a0 : State) (a1 : ℕ) (a2 : Inst) (a3 : Region) (a4 : Nest) (h0 : a0.mem.wf = true) :
    (endEmpty a0 a1 a2 a3 a4).mem.wf = true := by
  unfold endEmpty
  repeat' (first
    | assumption
    | intro _
    | (apply_assumption; done)
    | with_reducible exact True.intro
    | with_reducible apply bindFault_wf
    | with_reducible apply endNest_wf
    | with_reducible apply foldl_wf
    | with_reducible apply nextWf_next
    | with_reducible apply nextWf_when
    | split)

theorem startNest_wf (a0 : State) (a1 : ℕ) (a2 : Inst) (a3 : Region) (a4 : Nest) (h0 : a0.mem.wf = true) :
    (startNest a0 a1 a2 a3 a4).mem.wf = true := by
  unfold startNest
  repeat' (first
    | assumption
    | intro _
    | (apply_assumption; done)
    | with_reducible exact True.intro
    | with_reducible apply State.modReg_wf
    | with_reducible apply State.modFe_wf
    | with_reducible apply bindFault_wf
    | with_reducible apply endEmpty_wf
    | with_reducible apply foldl_wf
    | with_reducible apply nextWf_next
    | with_reducible apply nextWf_when
    | split
    | dsimp only)

theorem maybeStart_wf (a0 : State) (a1 : ℕ) (h0 : a0.mem.wf = true) :
    (maybeStart a0 a1).mem.wf = true := by
  unfold maybeStart
  repeat' (first
    | assumption
    | intro _
    | (apply_assumption; done)
    | with_reducible exact True.intro
    | with_reducible apply State.modReg_wf
    | with_reducible apply startNest_wf
    | with_reducible apply foldl_wf
    | with_reducible apply nextWf_next
    | with_reducible apply nextWf_when
    | split)

theorem fillForNest_wf (a0 : State) (a1 : ℕ) (a2 : Inst) (a3 : Region) (a4 : Nest) (a5 : FeAt) (h0 : a0.mem.wf = true) :
    (fillForNest a0 a1 a2 a3 a4 a5).mem.wf = true := by
  unfold fillForNest
  repeat' (first
    | assumption
    | intro _
    | (apply_assumption; done)
    | with_reducible exact True.intro
    | with_reducible apply State.modReg_wf
    | with_reducible apply regionFault_wf
    | with_reducible apply Firing.fault_wf
    | with_reducible refine loadFe_wf (by with_reducible assumption) ?_
    | with_reducible apply loadFe_wf1
    | with_reducible apply maybeStart_wf
    | with_reducible apply foldl_wf
    | with_reducible apply nextWf_next
    | with_reducible apply nextWf_when
    | split
    | dsimp only)

theorem fillAhead_wf (a0 : State) (a1 : Inst) (a2 : Region) (a3 : Block) (a4 : FeAt) (h0 : a0.mem.wf = true) :
    (fillAhead a0 a1 a2 a3 a4).mem.wf = true := by
  unfold fillAhead
  repeat' (first
    | assumption
    | intro _
    | (apply_assumption; done)
    | with_reducible exact True.intro
    | with_reducible apply Firing.fault_wf
    | with_reducible refine loadFe_wf (by with_reducible assumption) ?_
    | with_reducible apply loadFe_wf1
    | with_reducible apply foldl_wf
    | with_reducible apply nextWf_next
    | with_reducible apply nextWf_when
    | split
    | dsimp only)

theorem execConfigFill_wf (a0 : ℕ) (a1 : FeAt) (a2 : State) (h2 : a2.mem.wf = true) :
    NextWf (execConfigFill a0 a1 a2) := by
  unfold execConfigFill
  repeat' (first
    | assumption
    | intro _
    | (apply_assumption; done)
    | with_reducible exact True.intro
    | with_reducible apply Firing.ahead_wf
    | with_reducible apply fillForNest_wf
    | with_reducible apply fillAhead_wf
    | with_reducible apply foldl_wf
    | with_reducible apply nextWf_next
    | with_reducible apply nextWf_when
    | split)

theorem execConfigMulticast_wf (a0 : Word) (a1 : BitVec 3) (a2 : List Word) (a3 : List (Word × Word)) (a4 : State) (h4 : a4.mem.wf = true) :
    NextWf (execConfigMulticast a0 a1 a2 a3 a4) := by
  unfold execConfigMulticast
  repeat' (first
    | assumption
    | intro _
    | (apply_assumption; done)
    | with_reducible exact True.intro
    | with_reducible apply State.modFe_wf
    | with_reducible apply foldl_wf
    | with_reducible apply nextWf_next
    | with_reducible apply nextWf_when
    | split
    | dsimp only)

theorem pushBeat_wf (a0 : State) (a1 : ℕ) (a2 : ℕ) (a3 : Beat) (h0 : a0.mem.wf = true) :
    (pushBeat a0 a1 a2 a3).mem.wf = true := by
  unfold pushBeat
  repeat' (first
    | assumption)

theorem feedBeat_wf (a0 : State) (a1 : Region) (a2 : List Word) (a3 : Beat) (h0 : a0.mem.wf = true) :
    (feedBeat a0 a1 a2 a3).mem.wf = true := by
  unfold feedBeat
  repeat' (first
    | assumption
    | intro _
    | (apply_assumption; done)
    | with_reducible exact True.intro
    | with_reducible apply pushBeat_wf
    | with_reducible apply foldl_wf
    | with_reducible apply nextWf_next
    | with_reducible apply nextWf_when
    | split
    | dsimp only)

theorem insertMarkers_wf (a0 : State) (a1 : Region) (a2 : Nest) (a3 : ℕ) (h0 : a0.mem.wf = true) :
    (insertMarkers a0 a1 a2 a3).mem.wf = true := by
  unfold insertMarkers
  repeat' (first
    | assumption
    | intro _
    | (apply_assumption; done)
    | with_reducible exact True.intro
    | with_reducible apply feedBeat_wf
    | with_reducible apply foldl_wf
    | with_reducible apply nextWf_next
    | with_reducible apply nextWf_when
    | split)

theorem execIterationStart_wf (a0 : ℕ) (a1 : State) (h1 : a1.mem.wf = true) :
    NextWf (execIterationStart a0 a1) := by
  unfold execIterationStart
  repeat' (first
    | assumption
    | intro _
    | (apply_assumption; done)
    | with_reducible exact True.intro
    | with_reducible apply State.modReg_wf
    | with_reducible apply insertMarkers_wf
    | with_reducible apply foldl_wf
    | with_reducible apply nextWf_next
    | with_reducible apply nextWf_when
    | split)

theorem recordOp_wf (a0 : ℕ) (a1 : EOp) (a2 : Word → Req) (a3 : State) (h3 : a3.mem.wf = true) :
    NextWf (recordOp a0 a1 a2 a3) := by
  unfold recordOp
  repeat' (first
    | assumption
    | intro _
    | (apply_assumption; done)
    | with_reducible exact True.intro
    | with_reducible apply fireOp_wf
    | with_reducible apply putRequest_wf
    | with_reducible refine slotXlate_ok (e := by with_reducible assumption) ?_
    | with_reducible refine slotXlate_stop (e := by with_reducible assumption) ?_
    | with_reducible apply foldl_wf
    | with_reducible apply nextWf_next
    | with_reducible apply nextWf_when
    | split)

theorem execCpy_wf (a0 : EOp) (a1 : State) (h1 : a1.mem.wf = true) :
    NextWf (execCpy a0 a1) := by
  unfold execCpy
  repeat' (first
    | assumption
    | intro _
    | (apply_assumption; done)
    | with_reducible exact True.intro
    | with_reducible apply recordOp_wf)

theorem execCpyt_wf (a0 : EOp) (a1 : State) (h1 : a1.mem.wf = true) :
    NextWf (execCpyt a0 a1) := by
  unfold execCpyt
  repeat' (first
    | assumption
    | intro _
    | (apply_assumption; done)
    | with_reducible exact True.intro
    | with_reducible apply recordOp_wf)

theorem execCpyc_wf (a0 : EOp) (a1 : State) (h1 : a1.mem.wf = true) :
    NextWf (execCpyc a0 a1) := by
  unfold execCpyc
  repeat' (first
    | assumption
    | intro _
    | (apply_assumption; done)
    | with_reducible exact True.intro
    | with_reducible apply fireOp_wf
    | with_reducible apply Firing.fault_wf
    | with_reducible apply putRequest_wf
    | with_reducible refine slotXlate_ok (e := by with_reducible assumption) ?_
    | with_reducible refine slotXlate_stop (e := by with_reducible assumption) ?_
    | with_reducible apply foldl_wf
    | with_reducible apply nextWf_next
    | with_reducible apply nextWf_when
    | split
    | dsimp only)

theorem setEc_wf (a0 : State) (a1 : ℕ) (a2 : ℕ) (a3 : Word) (h0 : a0.mem.wf = true) :
    (setEc a0 a1 a2 a3).mem.wf = true := by
  unfold setEc
  repeat' (first
    | assumption
    | intro _
    | (apply_assumption; done)
    | with_reducible exact True.intro
    | with_reducible apply State.modInst_wf
    | with_reducible apply State.modCtl_wf
    | with_reducible apply foldl_wf
    | with_reducible apply nextWf_next
    | with_reducible apply nextWf_when
    | split)

theorem acceptRecord_wf (a0 : State) (a1 : ℕ) (a2 : ℕ) (a3 : ℕ) (a4 : Inst) (a5 : Block) (a6 : Word) (a7 : Bool) (a8 : Option (ℕ × ℕ)) (h0 : a0.mem.wf = true) :
    (acceptRecord a0 a1 a2 a3 a4 a5 a6 a7 a8).mem.wf = true := by
  unfold acceptRecord
  repeat' (first
    | assumption
    | intro _
    | (apply_assumption; done)
    | with_reducible exact True.intro
    | with_reducible apply State.modCtl_wf
    | with_reducible refine State.takeFresh_wf (by with_reducible assumption) ?_
    | with_reducible apply State.takeFresh_wf2
    | with_reducible apply bindBlock_wf
    | with_reducible apply answer_wf
    | with_reducible apply setEc_wf
    | with_reducible apply foldl_wf
    | with_reducible apply nextWf_next
    | with_reducible apply nextWf_when
    | split
    | dsimp only)

theorem offerRecord_wf (a0 : State) (a1 : ℕ) (a2 : ℕ) (a3 : Inst) (a4 : Block) (a5 : ℕ) (a6 : Word) (a7 : Bool) (a8 : Option (ℕ × ℕ)) (h0 : a0.mem.wf = true) :
    (offerRecord a0 a1 a2 a3 a4 a5 a6 a7 a8).mem.wf = true := by
  unfold offerRecord
  repeat' (first
    | assumption
    | intro _
    | (apply_assumption; done)
    | with_reducible exact True.intro
    | with_reducible apply bindBlock_wf
    | with_reducible apply acceptRecord_wf
    | with_reducible apply foldl_wf
    | with_reducible apply nextWf_next
    | with_reducible apply nextWf_when
    | split
    | dsimp only)

theorem execRecordAccept_wf (a0 : ℕ) (a1 : ℕ) (a2 : State) (h2 : a2.mem.wf = true) :
    NextWf (execRecordAccept a0 a1 a2) := by
  unfold execRecordAccept
  repeat' (first
    | assumption
    | intro _
    | (apply_assumption; done)
    | with_reducible exact True.intro
    | with_reducible apply offerRecord_wf
    | with_reducible apply foldl_wf
    | with_reducible apply nextWf_next
    | with_reducible apply nextWf_when
    | split)

theorem recordLeave_wf (a0 : State) (a1 : ℕ) (a2 : Rec) (h0 : a0.mem.wf = true) :
    (recordLeave a0 a1 a2).mem.wf = true := by
  unfold recordLeave
  repeat' (first
    | assumption
    | intro _
    | (apply_assumption; done)
    | with_reducible exact True.intro
    | with_reducible apply giveLeave_wf
    | with_reducible apply foldl_wf
    | with_reducible apply nextWf_next
    | with_reducible apply nextWf_when
    | split)

theorem dropRecord_wf (a0 : State) (a1 : ℕ) (a2 : Rec) (a3 : Bool) (h0 : a0.mem.wf = true) :
    (dropRecord a0 a1 a2 a3).mem.wf = true := by
  unfold dropRecord
  repeat' (first
    | assumption
    | intro _
    | (apply_assumption; done)
    | with_reducible exact True.intro
    | with_reducible apply recordLeave_wf)

theorem recordFault_wf (a0 : State) (a1 : ℕ) (a2 : Rec) (a3 : ℕ) (a4 : Word) (h0 : a0.mem.wf = true) :
    (recordFault a0 a1 a2 a3 a4).mem.wf = true := by
  unfold recordFault
  repeat' (first
    | assumption
    | intro _
    | (apply_assumption; done)
    | with_reducible exact True.intro
    | with_reducible apply postAsync_wf
    | with_reducible apply postEvent_wf
    | with_reducible apply deliverToken_wf
    | with_reducible apply setEc_wf
    | with_reducible apply dropRecord_wf
    | with_reducible apply foldl_wf
    | with_reducible apply nextWf_next
    | with_reducible apply nextWf_when
    | split)

theorem endChain_wf (a0 : State) (a1 : ℕ) (a2 : Rec) (a3 : ℕ) (a4 : Bool) (h0 : a0.mem.wf = true) :
    (endChain a0 a1 a2 a3 a4).mem.wf = true := by
  unfold endChain
  repeat' (first
    | assumption
    | intro _
    | (apply_assumption; done)
    | with_reducible exact True.intro
    | with_reducible apply postEvent_wf
    | with_reducible apply setEc_wf
    | with_reducible apply dropRecord_wf)

theorem recXlate_wf {a0 : State} {a1 : Rec} {a2 : Space} {a3 : Word} {a4 : ℕ} {a5 : ℕ} {a6 : Bool} {t} {y} (e : recXlate a0 a1 a2 a3 a4 a5 a6 = (t, y)) (h0 : a0.mem.wf = true) :
    (State.mem t).wf = true := by
  unfold recXlate at e
  repeat' (first
    | assumption
    | intro _
    | (apply_assumption; done)
    | with_reducible exact True.intro
    | with_reducible refine xlate_wf (by with_reducible assumption) ?_)
theorem recXlate_wf1 (a0 : State) (a1 : Rec) (a2 : Space) (a3 : Word) (a4 : ℕ) (a5 : ℕ) (a6 : Bool) (h0 : a0.mem.wf = true) :
    (recXlate a0 a1 a2 a3 a4 a5 a6).1.mem.wf = true := recXlate_wf (t := (recXlate a0 a1 a2 a3 a4 a5 a6).1) (y := (recXlate a0 a1 a2 a3 a4 a5 a6).2) rfl h0

theorem heldXlate_wf {a0 : State} {a1 : Rec} {a2 : ℕ} {a3 : ℕ} {a4 : Word} {a5 : ℕ} {t} {y} (e : heldXlate a0 a1 a2 a3 a4 a5 = (t, y)) (h0 : a0.mem.wf = true) :
    (State.mem t).wf = true := by
  unfold heldXlate at e
  repeat' (first
    | assumption
    | intro _
    | (apply_assumption; done)
    | with_reducible exact True.intro
    | with_reducible refine recXlate_wf (by with_reducible assumption) ?_
    | with_reducible apply recXlate_wf1
    | with_reducible apply foldl_wf
    | with_reducible apply nextWf_next
    | with_reducible apply nextWf_when
    | (split at e)
    | (simp only [Prod.mk.injEq, Option.some.injEq, reduceCtorEq, and_false, false_and] at e)
    | (obtain ⟨rfl, _⟩ := e))
theorem heldXlate_wf1 (a0 : State) (a1 : Rec) (a2 : ℕ) (a3 : ℕ) (a4 : Word) (a5 : ℕ) (h0 : a0.mem.wf = true) :
    (heldXlate a0 a1 a2 a3 a4 a5).1.mem.wf = true := heldXlate_wf (t := (heldXlate a0 a1 a2 a3 a4 a5).1) (y := (heldXlate a0 a1 a2 a3 a4 a5).2) rfl h0

theorem freeOverlap_wf {a0 : State} {a1 : Rec} {a2 : List Piece} {a3 : List Stages.PByte} {t} {y} (e : freeOverlap a0 a1 a2 a3 = (t, y)) (h0 : a0.mem.wf = true) :
    (State.mem t).wf = true := by
  unfold freeOverlap at e
  repeat' (first
    | assumption
    | intro _
    | (apply_assumption; done)
    | with_reducible exact True.intro
    | with_reducible apply foldl_wf
    | with_reducible apply nextWf_next
    | with_reducible apply nextWf_when
    | (split at e)
    | (simp only [Prod.mk.injEq, Option.some.injEq, reduceCtorEq, and_false, false_and] at e)
    | (obtain ⟨rfl, _⟩ := e))
theorem freeOverlap_wf1 (a0 : State) (a1 : Rec) (a2 : List Piece) (a3 : List Stages.PByte) (h0 : a0.mem.wf = true) :
    (freeOverlap a0 a1 a2 a3).1.mem.wf = true := freeOverlap_wf (t := (freeOverlap a0 a1 a2 a3).1) (y := (freeOverlap a0 a1 a2 a3).2) rfl h0

theorem issueToken_wf (s : State) (r : Nat) (x : Rec) (t off : Nat) (bs : List Stages.PByte) (h : s.mem.wf = true) :
    (issueToken s r x t off bs).mem.wf = true := by
  have hw : ∀ (s : State) (ps : List Piece), s.mem.wf = true → (enterWrite (freeOverlap s x ps bs).1 (.engine r) ps
      ((freeOverlap s x ps bs).2.map fun b => b.1) none ((freeOverlap s x ps bs).2.any fun b => b.2)
      (red := if Stages.reduces x.words then some (Stages.rfmt x.words) else none) (seq := x.seq) (inst := x.inst)
      (queue := x.queue) (ctx := x.ctx)).mem.wf = true :=
    fun s ps h => enterWrite_wf _ _ _ _ _ _ _ _ _ _ _ _ (freeOverlap_wf1 _ _ _ _ h)
  unfold issueToken
  dsimp only
  split
  · rename_i hx
    split at hx
    · cases hx; exact hw _ _ h
    · exact hw _ _ (recXlate_wf hx h)
  · rename_i hx
    split at hx
    · cases hx
    · exact recordFault_wf _ _ _ _ _ (recXlate_wf hx h)
  · rename_i hx
    split at hx
    · cases hx
    · exact recXlate_wf hx h

theorem issueList_wf (r : Nat) (get : Rec → Nat → Option Stages.PByte) (s : State) (l : List (Nat × Nat × Nat))
    (h : s.mem.wf = true) : (issueList r get s l).mem.wf = true := by
  induction l generalizing s with
  | nil => exact h
  | cons x l ih =>
    unfold issueList
    split
    · exact h
    · split
      · exact ih _ h
      · dsimp only
        split
        · exact ih _ (issueToken_wf _ _ _ _ _ _ h)
        · exact ih _ h

theorem issueReady_wf (a0 : State) (a1 : ℕ) (h0 : a0.mem.wf = true) :
    (issueReady a0 a1).mem.wf = true := by
  unfold issueReady
  repeat' (first
    | assumption
    | intro _
    | (apply_assumption; done)
    | with_reducible exact True.intro
    | with_reducible apply issueList_wf
    | with_reducible apply foldl_wf
    | with_reducible apply nextWf_next
    | with_reducible apply nextWf_when
    | split)

theorem readPoison_wf {a0 : State} {a1 : ℕ} {a2 : Piece} {t} {y} (e : readPoison a0 a1 a2 = (t, y)) (h0 : a0.mem.wf = true) :
    (State.mem t).wf = true := by
  unfold readPoison at e
  repeat' (first
    | assumption
    | intro _
    | (apply_assumption; done)
    | with_reducible exact True.intro
    | with_reducible apply readHome_wf
    | with_reducible apply foldl_wf
    | with_reducible apply nextWf_next
    | with_reducible apply nextWf_when
    | (split at e)
    | (simp only [Prod.mk.injEq, Option.some.injEq, reduceCtorEq, and_false, false_and] at e)
    | (obtain ⟨rfl, _⟩ := e))
theorem readPoison_wf1 (a0 : State) (a1 : ℕ) (a2 : Piece) (h0 : a0.mem.wf = true) :
    (readPoison a0 a1 a2).1.mem.wf = true := readPoison_wf (t := (readPoison a0 a1 a2).1) (y := (readPoison a0 a1 a2).2) rfl h0

theorem takeWords_wf {a0 : State} {a1 : ℕ} {a2 : Rec} {a3 : ℕ} {a4 : Word} {a5 : ℕ} {t} {y} (e : takeWords a0 a1 a2 a3 a4 a5 = (t, y)) (h0 : a0.mem.wf = true) :
    (State.mem t).wf = true := by
  unfold takeWords at e
  repeat' (first
    | assumption
    | intro _
    | (apply_assumption; done)
    | with_reducible exact True.intro
    | with_reducible apply Firing.fault_wf
    | with_reducible refine deviceRead_wf (by with_reducible assumption) ?_
    | with_reducible refine recXlate_wf (by with_reducible assumption) ?_
    | with_reducible apply recXlate_wf1
    | with_reducible refine readPoison_wf (by with_reducible assumption) ?_
    | with_reducible apply readPoison_wf1
    | with_reducible apply foldl_wf
    | with_reducible apply nextWf_next
    | with_reducible apply nextWf_when
    | (split at e)
    | (simp only [Prod.mk.injEq, Option.some.injEq, reduceCtorEq, and_false, false_and] at e)
    | (obtain ⟨rfl, _⟩ := e))
theorem takeWords_wf1 (a0 : State) (a1 : ℕ) (a2 : Rec) (a3 : ℕ) (a4 : Word) (a5 : ℕ) (h0 : a0.mem.wf = true) :
    (takeWords a0 a1 a2 a3 a4 a5).1.mem.wf = true := takeWords_wf (t := (takeWords a0 a1 a2 a3 a4 a5).1) (y := (takeWords a0 a1 a2 a3 a4 a5).2) rfl h0

theorem askPage_wf {a0 : State} {a1 : Rec} {a2 : PageAsk} {a3 : Bool} {t} {y} (e : askPage a0 a1 a2 a3 = (t, y)) (h0 : a0.mem.wf = true) :
    (State.mem t).wf = true := by
  unfold askPage at e
  repeat' (first
    | assumption
    | intro _
    | (apply_assumption; done)
    | with_reducible exact True.intro
    | with_reducible apply Firing.fault_wf
    | with_reducible refine recXlate_wf (by with_reducible assumption) ?_
    | with_reducible apply recXlate_wf1
    | with_reducible apply foldl_wf
    | with_reducible apply nextWf_next
    | with_reducible apply nextWf_when
    | (split at e)
    | (simp only [Prod.mk.injEq, Option.some.injEq, reduceCtorEq, and_false, false_and] at e)
    | (obtain ⟨rfl, _⟩ := e))
theorem askPage_wf1 (a0 : State) (a1 : Rec) (a2 : PageAsk) (a3 : Bool) (h0 : a0.mem.wf = true) :
    (askPage a0 a1 a2 a3).1.mem.wf = true := askPage_wf (t := (askPage a0 a1 a2 a3).1) (y := (askPage a0 a1 a2 a3).2) rfl h0

theorem holdPages_wf {x : Rec} {s : State} {l : List PageAsk} {acc : Assoc (List Piece)} {t} {y}
    (e : holdPages x s l acc = (t, y)) (h : s.mem.wf = true) : (State.mem t).wf = true := by
  have ha : ∀ (c : Bool) (s : State) (q : PageAsk) (w : Bool) (d : List Piece), s.mem.wf = true →
      (if c = true then askPage s x q w else (s, .ok d)).1.mem.wf = true := by
    intro c s q w d h
    split
    · exact askPage_wf1 _ _ _ _ h
    · exact h
  induction l generalizing s acc with
  | nil => cases e; exact h
  | cons q l ih =>
    simp only [holdPages] at e
    have h1 := ha q.read s q false [] h
    generalize (if q.read = true then askPage s x q false else (s, .ok [])) = u at h1 e
    obtain ⟨u, ru⟩ := u
    cases ru with
    | error c => cases e; exact h1
    | ok ps =>
      dsimp only at e h1
      have h2 := ha q.write u q true ps h1
      generalize (if q.write = true then askPage u x q true else (u, .ok ps)) = v at h2 e
      obtain ⟨v, rv⟩ := v
      cases rv with
      | error c => cases e; exact h2
      | ok ps => exact ih e h2
theorem holdPages_wf1 (a0 : Rec) (a1 : State) (a2 : List PageAsk) (a3 : Assoc (List Piece)) (h1 : a1.mem.wf = true) :
    (holdPages a0 a1 a2 a3).1.mem.wf = true := holdPages_wf (t := (holdPages a0 a1 a2 a3).1) (y := (holdPages a0 a1 a2 a3).2) rfl h1

theorem activate_wf (s : State) (r : Nat) (x : Rec) (h : s.mem.wf = true) : (activate s r x).mem.wf = true := by
  unfold activate
  split
  · split
    · rename_i hx; have hp := holdPages_wf hx h; exact issueReady_wf _ _ hp
    · rename_i hx
      split
      · exact h
      · exact recordFault_wf _ _ _ _ _ (holdPages_wf hx h)
  · exact issueReady_wf _ _ h

theorem startOrAsk_wf (a0 : State) (a1 : ℕ) (a2 : Rec) (h0 : a0.mem.wf = true) :
    (startOrAsk a0 a1 a2).mem.wf = true := by
  unfold startOrAsk
  repeat' (first
    | assumption
    | intro _
    | (apply_assumption; done)
    | with_reducible exact True.intro
    | with_reducible refine askLeave_wf (by with_reducible assumption) ?_
    | with_reducible apply recordFault_wf
    | with_reducible apply activate_wf
    | with_reducible apply foldl_wf
    | with_reducible apply nextWf_next
    | with_reducible apply nextWf_when
    | split
    | dsimp only)

theorem checkTile_wf (a0 : State) (a1 : ℕ) (a2 : Rec) (a3 : List Word) (h0 : a0.mem.wf = true) :
    (checkTile a0 a1 a2 a3).mem.wf = true := by
  unfold checkTile
  repeat' (first
    | assumption
    | intro _
    | (apply_assumption; done)
    | with_reducible exact True.intro
    | with_reducible apply recordFault_wf
    | with_reducible apply startOrAsk_wf
    | with_reducible apply foldl_wf
    | with_reducible apply nextWf_next
    | with_reducible apply nextWf_when
    | split
    | dsimp only)

theorem checkRecord_wf (s : State) (r : Nat) (x : Rec) (ws : List Word) (h : s.mem.wf = true) :
    (checkRecord s r x ws).mem.wf = true := by
  unfold checkRecord
  generalize ({ x with words := ws, tile := [], input := [], chunks := [], issued := [], pages := [], group := none } : Rec) = x'
  dsimp only
  refine ite_wf _ _ _ (recordFault_wf _ _ _ _ _ h) (ite_wf _ _ _ (recordFault_wf _ _ _ _ _ h) (ite_wf _ _ _ ?_ (checkTile_wf _ _ _ _ h)))
  split
  · rename_i hx; exact checkTile_wf _ _ _ _ (takeWords_wf hx h)
  · rename_i hx; exact recordFault_wf _ _ _ _ _ (takeWords_wf hx h)
  · rename_i hx
    have hq := takeWords_wf hx h
    exact hq

theorem tookPlace_wf (a0 : State) (a1 : ℕ) (a2 : Rec) (h0 : a0.mem.wf = true) :
    (tookPlace a0 a1 a2).mem.wf = true := by
  unfold tookPlace
  repeat' (first
    | assumption
    | intro _
    | (apply_assumption; done)
    | with_reducible exact True.intro
    | with_reducible apply State.modDie_wf
    | with_reducible apply foldl_wf
    | with_reducible apply nextWf_next
    | with_reducible apply nextWf_when
    | split)

theorem startRecord_wf (a0 : State) (a1 : ℕ) (a2 : Rec) (a3 : List Word) (h0 : a0.mem.wf = true) :
    (startRecord a0 a1 a2 a3).mem.wf = true := by
  unfold startRecord
  repeat' (first
    | assumption
    | intro _
    | (apply_assumption; done)
    | with_reducible exact True.intro
    | with_reducible apply endChain_wf
    | with_reducible apply checkRecord_wf
    | with_reducible apply tookPlace_wf
    | with_reducible apply foldl_wf
    | with_reducible apply nextWf_next
    | with_reducible apply nextWf_when
    | split)

theorem execEngineRecordStart_wf (a0 : ℕ) (a1 : State) (h1 : a1.mem.wf = true) :
    NextWf (execEngineRecordStart a0 a1) := by
  unfold execEngineRecordStart
  repeat' (first
    | assumption
    | intro _
    | (apply_assumption; done)
    | with_reducible exact True.intro
    | with_reducible apply Firing.fault_wf
    | with_reducible apply recordFault_wf
    | with_reducible refine takeWords_wf (by with_reducible assumption) ?_
    | with_reducible apply takeWords_wf1
    | with_reducible apply startRecord_wf
    | with_reducible apply foldl_wf
    | with_reducible apply nextWf_next
    | with_reducible apply nextWf_when
    | split)

theorem engineInput_wf (a0 : State) (a1 : ℕ) (a2 : ℕ) (a3 : List Stages.PByte) (h0 : a0.mem.wf = true) :
    (engineInput a0 a1 a2 a3).mem.wf = true := by
  unfold engineInput
  repeat' (first
    | assumption
    | intro _
    | (apply_assumption; done)
    | with_reducible exact True.intro
    | with_reducible apply issueReady_wf)

theorem unitPieces_wf {a0 : State} {a1 : Rec} {a2 : ℕ} {a3 : Word} {a4 : ℕ} {t} {y} (e : unitPieces a0 a1 a2 a3 a4 = (t, y)) (h0 : a0.mem.wf = true) :
    (State.mem t).wf = true := by
  unfold unitPieces at e
  repeat' (first
    | assumption
    | intro _
    | (apply_assumption; done)
    | with_reducible exact True.intro
    | with_reducible refine recXlate_wf (by with_reducible assumption) ?_
    | with_reducible apply recXlate_wf1
    | with_reducible apply foldl_wf
    | with_reducible apply nextWf_next
    | with_reducible apply nextWf_when
    | (split at e)
    | (simp only [Prod.mk.injEq, Option.some.injEq, reduceCtorEq, and_false, false_and] at e)
    | (obtain ⟨rfl, _⟩ := e))
theorem unitPieces_wf1 (a0 : State) (a1 : Rec) (a2 : ℕ) (a3 : Word) (a4 : ℕ) (h0 : a0.mem.wf = true) :
    (unitPieces a0 a1 a2 a3 a4).1.mem.wf = true := unitPieces_wf (t := (unitPieces a0 a1 a2 a3 a4).1) (y := (unitPieces a0 a1 a2 a3 a4).2) rfl h0

theorem readEngine_wf (s : State) (r n : Nat) (h : s.mem.wf = true) : (readEngine s r n).mem.wf = true := by
  unfold readEngine
  split
  · exact h
  · refine ite_wf _ _ _ h ?_
    split
    · exact h
    · split
      · rename_i hx; exact recordFault_wf _ _ _ _ _ (unitPieces_wf hx h)
      · rename_i hx; exact unitPieces_wf hx h
      · rename_i hx; exact unitPieces_wf hx h
      · rename_i hx
        have hq := unitPieces_wf hx h
        refine ite_wf _ _ _ hq (ite_wf _ _ _ (ite_wf _ _ _ hq ?_) (engineInput_wf _ _ _ _ (readPoison_wf1 _ _ _ hq)))
        split
        · rename_i hd; exact engineInput_wf _ _ _ _ (deviceRead_wf hd hq)
        · rename_i hd; exact deviceRead_wf hd hq
        · exact hq

theorem execChunkDecode_wf (r chunk : Nat) (s : State) (h : s.mem.wf = true) : NextWf (execChunkDecode r chunk s) := by
  unfold execChunkDecode
  split
  · exact h
  · split
    · exact h
    · dsimp only
      split
      · exact recordFault_wf _ _ _ _ _ h
      · split
        · exact recordFault_wf _ _ _ _ _ h
        · split
          · exact issueReady_wf _ _ h
          · exact issueReady_wf _ _ (ite_wf _ _ _ (State.countDie_wf _ _ _ _ h) h)

theorem poisonToken_wf (s : State) (r key : Nat) (h : s.mem.wf = true) : (poisonToken s r key).mem.wf = true := by
  have hp := poisonRun_wf s (key - key % 64) 64 h
  unfold poisonToken
  generalize poisonRun s (key - key % 64) 64 = u at hp ⊢
  exact hp

theorem engineWrite_wf (a0 : State) (a1 : ℕ) (a2 : Outb) (h0 : a0.mem.wf = true) :
    (engineWrite a0 a1 a2).mem.wf = true := by
  unfold engineWrite
  repeat' (first
    | assumption
    | intro _
    | (apply_assumption; done)
    | with_reducible exact True.intro
    | with_reducible apply meetFlaws_wf
    | with_reducible apply homeWrite_wf
    | with_reducible apply poisonRun_wf
    | with_reducible apply poisonToken_wf
    | with_reducible apply foldl_wf
    | with_reducible apply nextWf_next
    | with_reducible apply nextWf_when
    | split
    | dsimp only)

theorem engineDeviceWrite_wf (a0 : State) (a1 : ℕ) (a2 : Outb) (h0 : a0.mem.wf = true) :
    (engineDeviceWrite a0 a1 a2).mem.wf = true := by
  unfold engineDeviceWrite
  repeat' (first
    | assumption
    | intro _
    | (apply_assumption; done)
    | with_reducible exact True.intro
    | with_reducible apply deviceWrite_wf)

theorem writeBad_wf (x : Rec) (r : Nat) (ws : List (Word × Nat)) (a : State × Option (Nat × Word)) (h : a.1.mem.wf = true) :
    (ws.foldl (fun (a : State × Option (Nat × Word)) w => match a.2 with
        | some _ => a
        | none => match recXlate a.1 x .virt w.1 4 4 true with
          | (s, .ok ps) => (enterWrite s (.engine r) ps (leBytes 4 w.2) none false (seq := x.seq) (inst := x.inst) (queue := x.queue)
              (ctx := x.ctx), none)
          | (s, .fault c fa) => (s, some (c, fa))
          | (s, .miss _ _) => (s, some (codeWait, w.1))) a).1.mem.wf = true := by
  refine foldl_fst_wf _ _ _ h fun a w h => ?_
  split
  · exact h
  · split
    · rename_i hx; exact enterWrite_wf _ _ _ _ _ _ _ _ _ _ _ _ (recXlate_wf hx h)
    · rename_i hx; exact recXlate_wf hx h
    · rename_i hx; exact recXlate_wf hx h
theorem writeBadList_wf (s : State) (r : Nat) (x : Rec) (h : s.mem.wf = true) : (writeBadList s r x).mem.wf = true := by
  unfold writeBadList
  dsimp only
  split
  · exact h
  · split
    · rename_i hx
      have hp := fun l => writeBad_wf x r l (_, none) (takeWords_wf hx h)
      split
      · split
        · exact h
        · exact recordFault_wf _ _ _ _ _ (hp _)
      · exact hp _
    · rename_i hx; exact recordFault_wf _ _ _ _ _ (takeWords_wf hx h)
    · rename_i hx; exact takeWords_wf hx h

theorem signalCompl_wf (a0 : State) (a1 : ℕ) (a2 : Rec) (h0 : a0.mem.wf = true) :
    (signalCompl a0 a1 a2).mem.wf = true := by
  unfold signalCompl
  repeat' (first
    | assumption
    | intro _
    | (apply_assumption; done)
    | with_reducible exact True.intro
    | with_reducible apply State.modDie_wf
    | with_reducible apply Firing.fault_wf
    | with_reducible apply homeWrite_wf
    | with_reducible apply deviceWrite_wf
    | with_reducible apply recordFault_wf
    | with_reducible refine heldXlate_wf (by with_reducible assumption) ?_
    | with_reducible apply heldXlate_wf1
    | with_reducible apply foldl_wf
    | with_reducible apply nextWf_next
    | with_reducible apply nextWf_when
    | split)

theorem recordKey_wf {a0 : State} {a1 : ℕ} {a2 : Rec} {a3 : ℕ} {t} {y} (e : recordKey a0 a1 a2 a3 = (t, y)) (h0 : a0.mem.wf = true) :
    (State.mem t).wf = true := by
  unfold recordKey at e
  repeat' (first
    | assumption
    | intro _
    | (apply_assumption; done)
    | with_reducible exact True.intro
    | with_reducible apply meetFlaws_wf
    | with_reducible apply Firing.fault_wf
    | with_reducible refine heldXlate_wf (by with_reducible assumption) ?_
    | with_reducible apply heldXlate_wf1
    | with_reducible apply foldl_wf
    | with_reducible apply nextWf_next
    | with_reducible apply nextWf_when
    | (split at e)
    | (simp only [Prod.mk.injEq, Option.some.injEq, reduceCtorEq, and_false, false_and] at e)
    | (obtain ⟨rfl, _⟩ := e))
theorem recordKey_wf1 (a0 : State) (a1 : ℕ) (a2 : Rec) (a3 : ℕ) (h0 : a0.mem.wf = true) :
    (recordKey a0 a1 a2 a3).1.mem.wf = true := recordKey_wf (t := (recordKey a0 a1 a2 a3).1) (y := (recordKey a0 a1 a2 a3).2) rfl h0

theorem signalOwn_wf (a0 : State) (a1 : ℕ) (a2 : Rec) (h0 : a0.mem.wf = true) :
    (signalOwn a0 a1 a2).mem.wf = true := by
  unfold signalOwn
  repeat' (first
    | assumption
    | intro _
    | (apply_assumption; done)
    | with_reducible exact True.intro
    | with_reducible apply homeWrite_wf
    | with_reducible apply recordFault_wf
    | with_reducible refine recordKey_wf (by with_reducible assumption) ?_
    | with_reducible apply recordKey_wf1
    | with_reducible apply foldl_wf
    | with_reducible apply nextWf_next
    | with_reducible apply nextWf_when
    | split)

theorem engineIncrement_wf (a0 : State) (a1 : ℕ) (a2 : ℕ) (a3 : ℕ) (h0 : a0.mem.wf = true) :
    (engineIncrement a0 a1 a2 a3).mem.wf = true := by
  unfold engineIncrement
  repeat' (first
    | assumption
    | intro _
    | (apply_assumption; done)
    | with_reducible exact True.intro
    | with_reducible apply State.modInst_wf
    | with_reducible apply semAdd_wf
    | with_reducible apply foldl_wf
    | with_reducible apply nextWf_next
    | with_reducible apply nextWf_when
    | split)

theorem signalDone_wf (a0 : State) (a1 : ℕ) (a2 : Rec) (h0 : a0.mem.wf = true) :
    (signalDone a0 a1 a2).mem.wf = true := by
  unfold signalDone
  repeat' (first
    | assumption
    | intro _
    | (apply_assumption; done)
    | with_reducible exact True.intro
    | with_reducible apply State.countDie_wf
    | with_reducible apply deliverToken_wf
    | with_reducible apply dropRecord_wf
    | with_reducible apply engineIncrement_wf
    | with_reducible apply foldl_wf
    | with_reducible apply nextWf_next
    | with_reducible apply nextWf_when
    | split)

theorem chainNext_wf (s : State) (r : Nat) (x : Rec) (ec : Nat) (h : s.mem.wf = true) : (chainNext s r x ec).mem.wf = true := by
  unfold chainNext
  cases hr : recordKey s r x 0 with
  | mk s' res =>
    have hp := recordKey_wf hr h
    cases res with
    | ok key =>
      dsimp only
      generalize s'.num8 key = v
      exact ite_wf _ _ _ (endChain_wf _ _ _ _ _ (homeWrite_wf _ _ _ hp)) (ite_wf _ _ _ (endChain_wf _ _ _ _ _ hp)
        (ite_wf _ _ _ (recordFault_wf _ _ _ _ _ hp) (setEc_wf _ _ _ _ hp)))
    | error c => exact ite_wf _ _ _ h (recordFault_wf _ _ _ _ _ hp)

theorem execRecordComplete_wf (a0 : ℕ) (a1 : State) (h1 : a1.mem.wf = true) :
    NextWf (execRecordComplete a0 a1) := by
  unfold execRecordComplete
  repeat' (first
    | assumption
    | intro _
    | (apply_assumption; done)
    | with_reducible exact True.intro
    | with_reducible apply writeBadList_wf
    | with_reducible apply signalCompl_wf
    | with_reducible apply signalOwn_wf
    | with_reducible apply signalDone_wf
    | with_reducible apply chainNext_wf
    | with_reducible apply foldl_wf
    | with_reducible apply nextWf_next
    | with_reducible apply nextWf_when
    | split)

theorem execXtload_wf (a0 : EOp) (a1 : State) (h1 : a1.mem.wf = true) :
    NextWf (execXtload a0 a1) := by
  unfold execXtload
  repeat' (first
    | assumption
    | intro _
    | (apply_assumption; done)
    | with_reducible exact True.intro
    | with_reducible apply State.modCtl_wf
    | with_reducible apply State.modSlot_wf
    | with_reducible apply fireOp_wf
    | with_reducible apply Firing.doneAll_wf
    | with_reducible apply Firing.fault_wf
    | with_reducible apply bindBlock_wf
    | with_reducible refine slotXlate_ok (e := by with_reducible assumption) ?_
    | with_reducible refine slotXlate_stop (e := by with_reducible assumption) ?_
    | with_reducible apply foldl_wf
    | with_reducible apply nextWf_next
    | with_reducible apply nextWf_when
    | split
    | dsimp only)

theorem execXstat_wf (a0 : EOp) (a1 : State) (h1 : a1.mem.wf = true) :
    NextWf (execXstat a0 a1) := by
  unfold execXstat
  repeat' (first
    | assumption
    | intro _
    | (apply_assumption; done)
    | with_reducible exact True.intro
    | with_reducible apply fireOp_wf
    | with_reducible apply Firing.done_wf)

theorem readImage_wf {a0 : State} {a1 : ℕ} {a2 : XtLoad} {a3 : ℕ} {t} {y} (e : readImage a0 a1 a2 a3 = (t, y)) (h0 : a0.mem.wf = true) :
    (State.mem t).wf = true := by
  unfold readImage at e
  repeat' (first
    | assumption
    | intro _
    | (apply_assumption; done)
    | with_reducible exact True.intro
    | with_reducible refine xlate_wf (by with_reducible assumption) ?_
    | with_reducible apply xlate_wf1
    | with_reducible apply Firing.fault_wf
    | with_reducible refine deviceRead_wf (by with_reducible assumption) ?_
    | with_reducible apply readHome_wf
    | with_reducible apply foldl_wf
    | with_reducible apply nextWf_next
    | with_reducible apply nextWf_when
    | (split at e)
    | (simp only [Prod.mk.injEq, Option.some.injEq, reduceCtorEq, and_false, false_and] at e)
    | (obtain ⟨rfl, _⟩ := e))
theorem readImage_wf1 (a0 : State) (a1 : ℕ) (a2 : XtLoad) (a3 : ℕ) (h0 : a0.mem.wf = true) :
    (readImage a0 a1 a2 a3).1.mem.wf = true := readImage_wf (t := (readImage a0 a1 a2 a3).1) (y := (readImage a0 a1 a2 a3).2) rfl h0

theorem imageInput_wf (a0 : State) (a1 : ℕ) (a2 : List Byte) (h0 : a0.mem.wf = true) :
    (imageInput a0 a1 a2).mem.wf = true := by
  unfold imageInput
  repeat' (first
    | assumption)

theorem endLoad_wf (a0 : State) (a1 : ℕ) (a2 : XtLoad) (a3 : Word) (h0 : a0.mem.wf = true) :
    (endLoad a0 a1 a2 a3).mem.wf = true := by
  unfold endLoad
  repeat' (first
    | assumption
    | intro _
    | (apply_assumption; done)
    | with_reducible exact True.intro
    | with_reducible apply deliverToken_wf)

theorem loadReads_wf (a0 : State) (a1 : ℕ) (a2 : XtLoad) (a3 : ℕ) (h0 : a0.mem.wf = true) :
    (loadReads a0 a1 a2 a3).mem.wf = true := by
  unfold loadReads
  repeat' (first
    | assumption
    | intro _
    | (apply_assumption; done)
    | with_reducible exact True.intro
    | with_reducible apply postAsync_wf
    | with_reducible apply Firing.fault_wf
    | with_reducible refine readImage_wf (by with_reducible assumption) ?_
    | with_reducible apply readImage_wf1
    | with_reducible apply imageInput_wf
    | with_reducible apply endLoad_wf
    | with_reducible apply foldl_wf
    | with_reducible apply nextWf_next
    | with_reducible apply nextWf_when
    | split)

theorem execXtloadTakeEffect_wf (a0 : ℕ) (a1 : State) (h1 : a1.mem.wf = true) :
    NextWf (execXtloadTakeEffect a0 a1) := by
  unfold execXtloadTakeEffect
  repeat' (first
    | assumption
    | intro _
    | (apply_assumption; done)
    | with_reducible exact True.intro
    | with_reducible apply endLoad_wf
    | with_reducible apply loadReads_wf
    | with_reducible apply foldl_wf
    | with_reducible apply nextWf_next
    | with_reducible apply nextWf_when
    | split)


end Sys2Proof.Machine
end

