-- ==== Sys2Proof/Laws/Keep5.lean ====
section
/-! SUPPORT. The operations and meanings of Machine/System, Machine/Fabric, Machine/Exits, Machine/Commit, Machine/Ports keep memory in its canonical
form: `f_wf` for an operation that answers a state, or a state with a value. -/

set_option maxRecDepth 4000
set_option linter.unusedTactic false
set_option linter.unreachableTactic false
set_option linter.unusedSimpArgs false
set_option linter.unusedVariables false

namespace Sys2Proof.Machine

open Sys2Proof.Bits Sys2Proof.Rows

theorem execSysr_wf (a0 : EOp) (a1 : State) (h1 : a1.mem.wf = true) :
    NextWf (execSysr a0 a1) := by
  unfold execSysr
  repeat' (first
    | assumption
    | intro _
    | (apply_assumption; done)
    | with_reducible exact True.intro
    | with_reducible apply fireOp_wf
    | with_reducible apply Firing.done_wf
    | with_reducible apply Firing.fault_wf
    | with_reducible apply acquire_wf
    | with_reducible apply foldl_wf
    | with_reducible apply nextWf_next
    | with_reducible apply nextWf_when
    | split
    | dsimp only)

theorem execSysw_wf (a0 : EOp) (a1 : State) (h1 : a1.mem.wf = true) :
    NextWf (execSysw a0 a1) := by
  unfold execSysw
  repeat' (first
    | assumption
    | intro _
    | (apply_assumption; done)
    | with_reducible exact True.intro
    | with_reducible apply State.note_wf
    | with_reducible apply fireOp_wf
    | with_reducible apply Firing.fault_wf
    | with_reducible apply Firing.note_wf
    | with_reducible apply foldl_wf
    | with_reducible apply nextWf_next
    | with_reducible apply nextWf_when
    | split
    | dsimp only)

theorem applySysw_wf (a0 : State) (a1 : ℕ) (a2 : ℕ) (a3 : Word) (h0 : a0.mem.wf = true) :
    (applySysw a0 a1 a2 a3).mem.wf = true := by
  unfold applySysw
  repeat' (first
    | assumption
    | intro _
    | (apply_assumption; done)
    | with_reducible exact True.intro
    | with_reducible apply State.modCtl_wf
    | with_reducible apply State.modCore_wf
    | with_reducible apply State.modDie_wf
    | with_reducible apply foldl_wf
    | with_reducible apply nextWf_next
    | with_reducible apply nextWf_when
    | split)

theorem execYield_wf (a0 : EOp) (a1 : State) (h1 : a1.mem.wf = true) :
    NextWf (execYield a0 a1) := by
  unfold execYield
  repeat' (first
    | assumption
    | intro _
    | (apply_assumption; done)
    | with_reducible exact True.intro
    | with_reducible apply State.note_wf
    | with_reducible apply fireOp_wf)

theorem noteIssue_wf (a0 : State) (a1 : ℕ) (h0 : a0.mem.wf = true) :
    (noteIssue a0 a1).mem.wf = true := by
  unfold noteIssue
  repeat' (first
    | assumption)

theorem execYieldTimeout_wf (a0 : ℕ) (a1 : State) (h1 : a1.mem.wf = true) :
    NextWf (execYieldTimeout a0 a1) := by
  unfold execYieldTimeout
  repeat' (first
    | assumption
    | intro _
    | (apply_assumption; done)
    | with_reducible exact True.intro
    | with_reducible apply State.modCtl_wf
    | with_reducible apply when__wf
    | with_reducible apply foldl_wf
    | with_reducible apply nextWf_next
    | with_reducible apply nextWf_when
    | split)

theorem execTlbinv_wf (a0 : EOp) (a1 : State) (h1 : a1.mem.wf = true) :
    NextWf (execTlbinv a0 a1) := by
  unfold execTlbinv
  repeat' (first
    | assumption
    | intro _
    | (apply_assumption; done)
    | with_reducible exact True.intro
    | with_reducible apply State.note_wf
    | with_reducible apply fireOp_wf)

theorem invalidate_wf (a0 : State) (a1 : ℕ) (a2 : Option (ℕ × ℕ)) (h0 : a0.mem.wf = true) :
    (invalidate a0 a1 a2).mem.wf = true := by
  unfold invalidate
  repeat' (first
    | assumption)

theorem execTlbinvDone_wf (a0 : ℕ) (a1 : State) (h1 : a1.mem.wf = true) :
    NextWf (execTlbinvDone a0 a1) := by
  unfold execTlbinvDone
  repeat' (first
    | assumption
    | intro _
    | (apply_assumption; done)
    | with_reducible exact True.intro
    | with_reducible apply State.modCtl_wf
    | with_reducible apply invalidate_wf
    | with_reducible apply foldl_wf
    | with_reducible apply nextWf_next
    | with_reducible apply nextWf_when
    | split)

theorem execBcinv_wf (a0 : EOp) (a1 : State) (h1 : a1.mem.wf = true) :
    NextWf (execBcinv a0 a1) := by
  unfold execBcinv
  repeat' (first
    | assumption
    | intro _
    | (apply_assumption; done)
    | with_reducible exact True.intro
    | with_reducible apply State.note_wf
    | with_reducible apply fireOp_wf)

theorem execBcinvDone_wf (a0 : ℕ) (a1 : State) (h1 : a1.mem.wf = true) :
    NextWf (execBcinvDone a0 a1) := by
  unfold execBcinvDone
  repeat' (first
    | assumption
    | intro _
    | (apply_assumption; done)
    | with_reducible exact True.intro
    | with_reducible apply State.modCtl_wf
    | with_reducible apply when__wf
    | with_reducible apply foldl_wf
    | with_reducible apply nextWf_next
    | with_reducible apply nextWf_when
    | split)

theorem waitevDone_wf (a0 : State) (a1 : ℕ) (a2 : ℕ) (a3 : ℕ) (a4 : BitVec 4) (h0 : a0.mem.wf = true) :
    (waitevDone a0 a1 a2 a3 a4).mem.wf = true := by
  unfold waitevDone
  repeat' (first
    | assumption
    | intro _
    | (apply_assumption; done)
    | with_reducible exact True.intro
    | with_reducible apply State.modBlk_wf
    | with_reducible apply State.modSlot_wf
    | with_reducible apply deliverVal_wf
    | with_reducible apply Firing.done_wf
    | with_reducible apply acquire_wf
    | with_reducible apply foldl_wf
    | with_reducible apply nextWf_next
    | with_reducible apply nextWf_when
    | split)

theorem execWaitev_wf (a0 : EOp) (a1 : State) (h1 : a1.mem.wf = true) :
    NextWf (execWaitev a0 a1) := by
  unfold execWaitev
  repeat' (first
    | assumption
    | intro _
    | (apply_assumption; done)
    | with_reducible exact True.intro
    | with_reducible apply State.modSlot_wf
    | with_reducible apply fireOp_wf
    | with_reducible apply waitevDone_wf
    | with_reducible apply foldl_wf
    | with_reducible apply nextWf_next
    | with_reducible apply nextWf_when
    | split
    | dsimp only)

theorem execWaitevTimeout_wf (a0 : ℕ) (a1 : State) (h1 : a1.mem.wf = true) :
    NextWf (execWaitevTimeout a0 a1) := by
  unfold execWaitevTimeout
  repeat' (first
    | assumption
    | intro _
    | (apply_assumption; done)
    | with_reducible exact True.intro
    | with_reducible apply waitevDone_wf
    | with_reducible apply foldl_wf
    | with_reducible apply nextWf_next
    | with_reducible apply nextWf_when
    | split)

theorem execSrc_wf (a0 : EOp) (a1 : State) (h1 : a1.mem.wf = true) :
    NextWf (execSrc a0 a1) := by
  unfold execSrc
  repeat' (first
    | assumption
    | intro _
    | (apply_assumption; done)
    | with_reducible exact True.intro
    | with_reducible apply State.note_wf
    | with_reducible apply fireOp_wf)

theorem execSnk_wf (a0 : EOp) (a1 : State) (h1 : a1.mem.wf = true) :
    NextWf (execSnk a0 a1) := by
  unfold execSnk
  repeat' (first
    | assumption
    | intro _
    | (apply_assumption; done)
    | with_reducible exact True.intro
    | with_reducible apply State.note_wf
    | with_reducible apply fireOp_wf)

theorem Firing.block_wf (a0 : Firing) (a1 : State) (h1 : a1.mem.wf = true) :
    (Firing.block a0 a1).mem.wf = true := by
  unfold Firing.block
  repeat' (first
    | assumption)

theorem Firing.parity_wf (a0 : Firing) (a1 : State) (h1 : a1.mem.wf = true) :
    (Firing.parity a0 a1).mem.wf = true := by
  unfold Firing.parity
  repeat' (first
    | assumption)

theorem execAccr_wf (a0 : EOp) (a1 : State) (h1 : a1.mem.wf = true) :
    NextWf (execAccr a0 a1) := by
  unfold execAccr
  repeat' (first
    | assumption
    | intro _
    | (apply_assumption; done)
    | with_reducible exact True.intro
    | with_reducible apply fireOp_wf
    | with_reducible apply Firing.done_wf
    | with_reducible apply Firing.block_wf
    | with_reducible apply Firing.parity_wf
    | with_reducible apply foldl_wf
    | with_reducible apply nextWf_next
    | with_reducible apply nextWf_when
    | split)

theorem execAccd_wf (a0 : EOp) (a1 : State) (h1 : a1.mem.wf = true) :
    NextWf (execAccd a0 a1) := by
  unfold execAccd
  repeat' (first
    | assumption
    | intro _
    | (apply_assumption; done)
    | with_reducible exact True.intro
    | with_reducible apply State.note_wf
    | with_reducible apply fireOp_wf
    | with_reducible apply Firing.note_wf
    | with_reducible apply Firing.block_wf
    | with_reducible apply Firing.parity_wf
    | with_reducible refine slotXlate_ok (e := by with_reducible assumption) ?_
    | with_reducible refine slotXlate_stop (e := by with_reducible assumption) ?_
    | with_reducible apply foldl_wf
    | with_reducible apply nextWf_next
    | with_reducible apply nextWf_when
    | split
    | dsimp only)

theorem execKset_wf (a0 : EOp) (a1 : State) (h1 : a1.mem.wf = true) :
    NextWf (execKset a0 a1) := by
  unfold execKset
  repeat' (first
    | assumption
    | intro _
    | (apply_assumption; done)
    | with_reducible exact True.intro
    | with_reducible apply State.note_wf
    | with_reducible apply fireOp_wf)

theorem execMark_wf (a0 : EOp) (a1 : State) (h1 : a1.mem.wf = true) :
    NextWf (execMark a0 a1) := by
  unfold execMark
  repeat' (first
    | assumption
    | intro _
    | (apply_assumption; done)
    | with_reducible exact True.intro
    | with_reducible apply State.note_wf
    | with_reducible apply fireOp_wf)

theorem execFmtw_wf (a0 : EOp) (a1 : State) (h1 : a1.mem.wf = true) :
    NextWf (execFmtw a0 a1) := by
  unfold execFmtw
  repeat' (first
    | assumption
    | intro _
    | (apply_assumption; done)
    | with_reducible exact True.intro
    | with_reducible apply State.note_wf
    | with_reducible apply fireOp_wf)

theorem execScalew_wf (a0 : EOp) (a1 : State) (h1 : a1.mem.wf = true) :
    NextWf (execScalew a0 a1) := by
  unfold execScalew
  repeat' (first
    | assumption
    | intro _
    | (apply_assumption; done)
    | with_reducible exact True.intro
    | with_reducible apply State.note_wf
    | with_reducible apply fireOp_wf)

theorem execGenseed_wf (a0 : EOp) (a1 : State) (h1 : a1.mem.wf = true) :
    NextWf (execGenseed a0 a1) := by
  unfold execGenseed
  repeat' (first
    | assumption
    | intro _
    | (apply_assumption; done)
    | with_reducible exact True.intro
    | with_reducible apply State.note_wf
    | with_reducible apply fireOp_wf)

theorem onSelected_wf (a0 : State) (a1 : ℕ) (a2 : Word) (a3 : Fe → Fe) (h0 : a0.mem.wf = true) :
    (onSelected a0 a1 a2 a3).mem.wf = true := by
  unfold onSelected
  repeat' (first
    | assumption
    | intro _
    | (apply_assumption; done)
    | with_reducible exact True.intro
    | with_reducible apply State.modFe_wf
    | with_reducible apply foldl_wf
    | with_reducible apply nextWf_next
    | with_reducible apply nextWf_when
    | split)

theorem dropLate_wf (a0 : State) (a1 : ℕ) (a2 : ℕ) (a3 : ℕ) (a4 : Word) (h0 : a0.mem.wf = true) :
    (dropLate a0 a1 a2 a3 a4).mem.wf = true := by
  unfold dropLate
  repeat' (first
    | assumption
    | intro _
    | (apply_assumption; done)
    | with_reducible exact True.intro
    | with_reducible apply State.modReg_wf
    | with_reducible apply foldl_wf
    | with_reducible apply nextWf_next
    | with_reducible apply nextWf_when
    | split)

theorem fwaitDone_wf (a0 : State) (a1 : ℕ) (a2 : ℕ) (a3 : ℕ) (a4 : Region) (a5 : BitVec 4) (h0 : a0.mem.wf = true) :
    (fwaitDone a0 a1 a2 a3 a4 a5).mem.wf = true := by
  unfold fwaitDone
  repeat' (first
    | assumption
    | intro _
    | (apply_assumption; done)
    | with_reducible exact True.intro
    | with_reducible apply State.modBlk_wf
    | with_reducible apply State.modSlot_wf
    | with_reducible apply deliverVal_wf
    | with_reducible apply Firing.done_wf
    | with_reducible apply acquire_wf
    | with_reducible apply foldl_wf
    | with_reducible apply nextWf_next
    | with_reducible apply nextWf_when
    | split)

theorem execFwait_wf (a0 : EOp) (a1 : State) (h1 : a1.mem.wf = true) :
    NextWf (execFwait a0 a1) := by
  unfold execFwait
  repeat' (first
    | assumption
    | intro _
    | (apply_assumption; done)
    | with_reducible exact True.intro
    | with_reducible apply fireOp_wf
    | with_reducible apply Firing.block_wf
    | with_reducible apply fwaitDone_wf
    | with_reducible apply foldl_wf
    | with_reducible apply nextWf_next
    | with_reducible apply nextWf_when
    | split
    | dsimp only)

theorem execFwaitTimeout_wf (a0 : ℕ) (a1 : State) (h1 : a1.mem.wf = true) :
    NextWf (execFwaitTimeout a0 a1) := by
  unfold execFwaitTimeout
  repeat' (first
    | assumption
    | intro _
    | (apply_assumption; done)
    | with_reducible exact True.intro
    | with_reducible apply fwaitDone_wf
    | with_reducible apply foldl_wf
    | with_reducible apply nextWf_next
    | with_reducible apply nextWf_when
    | split)

theorem execFcnt_wf (a0 : EOp) (a1 : State) (h1 : a1.mem.wf = true) :
    NextWf (execFcnt a0 a1) := by
  unfold execFcnt
  repeat' (first
    | assumption
    | intro _
    | (apply_assumption; done)
    | with_reducible exact True.intro
    | with_reducible apply fireOp_wf
    | with_reducible apply Firing.done_wf)

theorem execFstop_wf (a0 : EOp) (a1 : State) (h1 : a1.mem.wf = true) :
    NextWf (execFstop a0 a1) := by
  unfold execFstop
  repeat' (first
    | assumption
    | intro _
    | (apply_assumption; done)
    | with_reducible exact True.intro
    | with_reducible apply State.note_wf
    | with_reducible apply fireOp_wf)

theorem execFrun_wf (a0 : EOp) (a1 : State) (h1 : a1.mem.wf = true) :
    NextWf (execFrun a0 a1) := by
  unfold execFrun
  repeat' (first
    | assumption
    | intro _
    | (apply_assumption; done)
    | with_reducible exact True.intro
    | with_reducible apply fireOp_wf
    | with_reducible apply Firing.fault_wf
    | with_reducible refine askLeave_wf (by with_reducible assumption) ?_
    | with_reducible apply Firing.block_wf
    | with_reducible apply foldl_wf
    | with_reducible apply nextWf_next
    | with_reducible apply nextWf_when
    | split)

theorem grantFrun_wf (a0 : State) (a1 : ℕ) (a2 : ℕ) (h0 : a0.mem.wf = true) :
    (grantFrun a0 a1 a2).mem.wf = true := by
  unfold grantFrun
  repeat' (first
    | assumption
    | intro _
    | (apply_assumption; done)
    | with_reducible exact True.intro
    | with_reducible apply State.modBlk_wf
    | with_reducible apply State.modSlot_wf
    | with_reducible apply State.modReg_wf
    | with_reducible apply Firing.done_wf
    | with_reducible apply foldl_wf
    | with_reducible apply nextWf_next
    | with_reducible apply nextWf_when
    | split)

theorem execBr_wf (a0 : BOp) (a1 : State) (h1 : a1.mem.wf = true) :
    NextWf (execBr a0 a1) := by
  unfold execBr
  repeat' (first
    | assumption
    | intro _
    | (apply_assumption; done)
    | with_reducible exact True.intro
    | with_reducible apply fireOp_wf
    | with_reducible apply Firing.exit_wf)

theorem execBri_wf (a0 : BOp) (a1 : State) (h1 : a1.mem.wf = true) :
    NextWf (execBri a0 a1) := by
  unfold execBri
  repeat' (first
    | assumption
    | intro _
    | (apply_assumption; done)
    | with_reducible exact True.intro
    | with_reducible apply fireOp_wf
    | with_reducible apply Firing.fault_wf
    | with_reducible apply Firing.exit_wf
    | with_reducible apply Firing.block_wf
    | with_reducible apply foldl_wf
    | with_reducible apply nextWf_next
    | with_reducible apply nextWf_when
    | split)

theorem execCall_wf (a0 : BOp) (a1 : State) (h1 : a1.mem.wf = true) :
    NextWf (execCall a0 a1) := by
  unfold execCall
  repeat' (first
    | assumption
    | intro _
    | (apply_assumption; done)
    | with_reducible exact True.intro
    | with_reducible apply deliver_wf
    | with_reducible apply fireOp_wf
    | with_reducible apply Firing.exit_wf)

theorem execCalli_wf (a0 : BOp) (a1 : State) (h1 : a1.mem.wf = true) :
    NextWf (execCalli a0 a1) := by
  unfold execCalli
  repeat' (first
    | assumption
    | intro _
    | (apply_assumption; done)
    | with_reducible exact True.intro
    | with_reducible apply deliver_wf
    | with_reducible apply fireOp_wf
    | with_reducible apply Firing.fault_wf
    | with_reducible apply Firing.exit_wf
    | with_reducible apply Firing.block_wf
    | with_reducible apply foldl_wf
    | with_reducible apply nextWf_next
    | with_reducible apply nextWf_when
    | split)

theorem execHalt_wf (a0 : BOp) (a1 : State) (h1 : a1.mem.wf = true) :
    NextWf (execHalt a0 a1) := by
  unfold execHalt
  repeat' (first
    | assumption
    | intro _
    | (apply_assumption; done)
    | with_reducible exact True.intro
    | with_reducible apply fireOp_wf
    | with_reducible apply Firing.exit_wf)

theorem execTrap_wf (a0 : BOp) (a1 : State) (h1 : a1.mem.wf = true) :
    NextWf (execTrap a0 a1) := by
  unfold execTrap
  repeat' (first
    | assumption
    | intro _
    | (apply_assumption; done)
    | with_reducible exact True.intro
    | with_reducible apply fireOp_wf
    | with_reducible apply Firing.exit_wf)

theorem execEret_wf (a0 : EOp) (a1 : State) (h1 : a1.mem.wf = true) :
    NextWf (execEret a0 a1) := by
  unfold execEret
  repeat' (first
    | assumption
    | intro _
    | (apply_assumption; done)
    | with_reducible exact True.intro
    | with_reducible apply fireOp_wf
    | with_reducible apply Firing.exit_wf)

theorem frunRegion_wf (a0 : State) (a1 : ℕ) (h0 : a0.mem.wf = true) :
    (frunRegion a0 a1).mem.wf = true := by
  unfold frunRegion
  repeat' (first
    | assumption)

theorem enterDrain_wf (a0 : State) (a1 : ℕ) (a2 : List (ℕ × List Byte)) (h0 : a0.mem.wf = true) :
    (enterDrain a0 a1 a2).mem.wf = true := by
  unfold enterDrain
  repeat' (first
    | assumption
    | intro _
    | (apply_assumption; done)
    | with_reducible exact True.intro
    | with_reducible refine State.takeFresh_wf (by with_reducible assumption) ?_
    | with_reducible apply State.takeFresh_wf2
    | with_reducible apply foldl_wf)

theorem applyAct_wf (a0 : State) (a1 : ℕ) (a2 : CommitAct) (h0 : a0.mem.wf = true) :
    (applyAct a0 a1 a2).mem.wf = true := by
  unfold applyAct
  repeat' (first
    | assumption
    | intro _
    | (apply_assumption; done)
    | with_reducible exact True.intro
    | with_reducible apply State.modCtl_wf
    | with_reducible apply State.modReg_wf
    | with_reducible apply stopRegion_wf
    | with_reducible apply enterToken_wf
    | with_reducible apply maybeStart_wf
    | with_reducible apply applySysw_wf
    | with_reducible apply onSelected_wf
    | with_reducible apply dropLate_wf
    | with_reducible apply frunRegion_wf
    | with_reducible apply enterDrain_wf
    | with_reducible apply foldl_wf
    | with_reducible apply nextWf_next
    | with_reducible apply nextWf_when
    | split)

theorem installNest_wf (a0 : State) (a1 : ℕ) (a2 : List Word) (h0 : a0.mem.wf = true) :
    (installNest a0 a1 a2).mem.wf = true := by
  unfold installNest
  repeat' (first
    | assumption
    | intro _
    | (apply_assumption; done)
    | with_reducible exact True.intro
    | with_reducible apply State.modReg_wf
    | with_reducible apply enterModes_wf
    | with_reducible apply foldl_wf
    | with_reducible apply nextWf_next
    | with_reducible apply nextWf_when
    | split)

theorem takeExit_wf (a0 : State) (a1 : ℕ) (a2 : Block) (h0 : a0.mem.wf = true) :
    (takeExit a0 a1 a2).mem.wf = true := by
  unfold takeExit
  repeat' (first
    | assumption
    | intro _
    | (apply_assumption; done)
    | with_reducible exact True.intro
    | with_reducible apply State.modCtl_wf
    | with_reducible apply endInstance_wf
    | with_reducible apply returnTrap_wf
    | with_reducible apply Firing.exit_wf
    | with_reducible apply Firing.block_wf
    | with_reducible apply foldl_wf
    | with_reducible apply nextWf_next
    | with_reducible apply nextWf_when
    | split)

theorem stepDue_wf (a0 : State) (a1 : ℕ) (a2 : Ctl) (a3 : Block) (h0 : a0.mem.wf = true) :
    (stepDue a0 a1 a2 a3).mem.wf = true := by
  unfold stepDue
  repeat' (first
    | assumption
    | intro _
    | (apply_assumption; done)
    | with_reducible exact True.intro
    | with_reducible apply State.modCtl_wf
    | with_reducible apply Firing.exit_wf
    | with_reducible apply Firing.block_wf
    | with_reducible apply step_wf
    | with_reducible apply foldl_wf
    | with_reducible apply nextWf_next
    | with_reducible apply nextWf_when
    | split)

theorem commitBlock_wf (a0 : State) (a1 : ℕ) (a2 : Inst) (a3 : Block) (h0 : a0.mem.wf = true) :
    (commitBlock a0 a1 a2 a3).mem.wf = true := by
  unfold commitBlock
  repeat' (first
    | assumption
    | intro _
    | (apply_assumption; done)
    | with_reducible exact True.intro
    | with_reducible apply State.modCtl_wf
    | with_reducible apply State.countCore_wf
    | with_reducible apply enterBelow_wf
    | with_reducible apply applyAct_wf
    | with_reducible apply installNest_wf
    | with_reducible apply takeExit_wf
    | with_reducible apply stepDue_wf
    | with_reducible apply foldl_wf)

theorem execBlockCommit_wf (a0 : ℕ) (a1 : State) (h1 : a1.mem.wf = true) :
    NextWf (execBlockCommit a0 a1) := by
  unfold execBlockCommit
  repeat' (first
    | assumption
    | intro _
    | (apply_assumption; done)
    | with_reducible exact True.intro
    | with_reducible apply commitBlock_wf
    | with_reducible apply foldl_wf
    | with_reducible apply nextWf_next
    | with_reducible apply nextWf_when
    | split)

theorem execBlockStall_wf (a0 : ℕ) (a1 : State) (h1 : a1.mem.wf = true) :
    NextWf (execBlockStall a0 a1) := by
  unfold execBlockStall
  repeat' (first
    | assumption
    | intro _
    | (apply_assumption; done)
    | with_reducible exact True.intro
    | with_reducible apply raise_wf
    | with_reducible apply foldl_wf
    | with_reducible apply nextWf_next
    | with_reducible apply nextWf_when
    | split)

theorem endBound_wf (a0 : State) (a1 : ℕ) (a2 : Inst) (a3 : Block) (h0 : a0.mem.wf = true) :
    (endBound a0 a1 a2 a3).mem.wf = true := by
  unfold endBound
  repeat' (first
    | assumption
    | intro _
    | (apply_assumption; done)
    | with_reducible exact True.intro
    | with_reducible apply State.modCtl_wf
    | with_reducible apply State.countCore_wf
    | with_reducible apply applyAct_wf
    | with_reducible apply installNest_wf
    | with_reducible apply foldl_wf)

theorem clearBlock_wf {a0 : State} {a1 : ℕ} {a2 : Inst} {a3 : Bool} {t : State} (e : clearBlock a0 a1 a2 a3 = some t) (h0 : a0.mem.wf = true) :
    (State.mem t).wf = true := by
  unfold clearBlock at e
  repeat' (first
    | assumption
    | intro _
    | (apply_assumption; done)
    | with_reducible exact True.intro
    | with_reducible apply discardBlock_wf
    | with_reducible apply endBound_wf
    | with_reducible apply foldl_wf
    | with_reducible apply nextWf_next
    | with_reducible apply nextWf_when
    | (split at e)
    | (simp only [Prod.mk.injEq, Option.some.injEq, reduceCtorEq, and_false, false_and] at e)
    | (obtain ⟨rfl, _⟩ := e))

theorem takeAsync_wf (s0 : State) (i : Nat) (n : Inst) (t : TrapInfo) (rest : List TrapInfo) (h : s0.mem.wf = true) :
    (takeAsync s0 i n t rest).mem.wf = true := by
  unfold takeAsync
  split
  · exact h
  · rename_i hx
    exact getD_wf _ _ h fun _ e => takeTrap_wf e (State.modCtl_wf _ _ _ (clearBlock_wf hx h))

theorem execTrapEntry_wf (i : Nat) (s : State) (h : s.mem.wf = true) : NextWf (execTrapEntry i s) := by
  unfold execTrapEntry
  split
  · exact h
  · split
    · exact h
    · split
      · split
        · rename_i hx
          exact getD_wf _ _ h fun _ e => takeTrap_wf e (State.modCtl_wf _ _ _ (clearBlock_wf hx h))
        · exact h
      · split
        · exact ite_wf _ _ _ h (takeAsync_wf _ _ _ _ _ h)
        · exact h

theorem deliverRead_wf (a0 : State) (a1 : ℕ) (a2 : Region) (a3 : ℕ) (a4 : List Word) (a5 : RRead) (h0 : a0.mem.wf = true) :
    (deliverRead a0 a1 a2 a3 a4 a5).mem.wf = true := by
  unfold deliverRead
  repeat' (first
    | assumption
    | intro _
    | (apply_assumption; done)
    | with_reducible exact True.intro
    | with_reducible apply State.modReg_wf
    | with_reducible apply feedBeat_wf)

theorem deliverReads_wf (s : State) (i b : Nat) (w : List Word) (fuel : Nat) (h : s.mem.wf = true) :
    (deliverReads s i b w fuel).mem.wf = true := by
  induction fuel generalizing s with
  | zero => exact h
  | succ m ih =>
    unfold deliverReads
    split
    · exact h
    · split
      · split
        · exact ih _ (deliverRead_wf _ _ _ _ _ _ h)
        · exact h
      · exact h

theorem enterRead_wf (a0 : State) (a1 : ℕ) (a2 : ℕ) (a3 : List Word) (a4 : RRead) (h0 : a0.mem.wf = true) :
    (enterRead a0 a1 a2 a3 a4).mem.wf = true := by
  unfold enterRead
  repeat' (first
    | assumption
    | intro _
    | (apply_assumption; done)
    | with_reducible exact True.intro
    | with_reducible apply State.modReg_wf
    | with_reducible apply deliverReads_wf)

theorem askPortWalk_wf (a0 : State) (a1 : Inst) (a2 : WalkFor) (a3 : Space) (a4 : ℕ) (a5 : ℕ) (h0 : a0.mem.wf = true) :
    (askPortWalk a0 a1 a2 a3 a4 a5).mem.wf = true := by
  unfold askPortWalk
  repeat' (first
    | assumption)

theorem memSource_wf (a0 : State) (a1 : ℕ) (a2 : Inst) (a3 : Region) (a4 : ℕ) (a5 : List Word) (a6 : RRead) (a7 : Word) (h0 : a0.mem.wf = true) :
    (memSource a0 a1 a2 a3 a4 a5 a6 a7).mem.wf = true := by
  unfold memSource
  repeat' (first
    | assumption
    | intro _
    | (apply_assumption; done)
    | with_reducible exact True.intro
    | with_reducible refine xlate_wf (by with_reducible assumption) ?_
    | with_reducible apply xlate_wf1
    | with_reducible apply Firing.fault_wf
    | with_reducible apply bindFault_wf
    | with_reducible apply enterRead_wf
    | with_reducible apply askPortWalk_wf
    | with_reducible apply foldl_wf
    | with_reducible apply nextWf_next
    | with_reducible apply nextWf_when
    | split
    | dsimp only)

theorem chanSource_wf (s : State) (i : Nat) (n : Inst) (b : Nat) (w : List Word) (port : Nat) (p : Port) (x : RRead)
    (h : s.mem.wf = true) : (chanSource s i n b w port p x).mem.wf = true := by
  unfold chanSource
  split
  · exact bindFault_wf _ _ _ _ _ _ _ h
  · dsimp only
    split
    · rename_i key c _ _ k t _
      have hb : (if t.lost = true then (s, true) else bufferBad s (c.headPieces t)).1.mem.wf = true := by
        split
        · exact h
        · exact bufferBad_wf1 _ _ h
      generalize (if t.lost = true then (s, true) else bufferBad s (c.headPieces t)) = q at hb
      split
      · exact bindFault_wf _ _ _ _ _ _ _ (takeHead_wf1 _ _ _ _ _ _ h)
      · exact enterRead_wf _ _ _ _ _ (State.modReg_wf _ _ _ (State.modChan_wf _ _ _ hb))
    · exact ite_wf _ _ _ (bindFault_wf _ _ _ _ _ _ _ h) (State.modReg_wf _ _ _ h)

theorem shelfSource_wf (a0 : State) (a1 : ℕ) (a2 : Region) (a3 : ℕ) (a4 : List Word) (a5 : RRead) (a6 : ℕ) (h0 : a0.mem.wf = true) :
    (shelfSource a0 a1 a2 a3 a4 a5 a6).mem.wf = true := by
  unfold shelfSource
  repeat' (first
    | assumption
    | intro _
    | (apply_assumption; done)
    | with_reducible exact True.intro
    | with_reducible apply meetFlaws_wf
    | with_reducible apply bindFault_wf
    | with_reducible apply enterRead_wf
    | with_reducible apply foldl_wf
    | with_reducible apply nextWf_next
    | with_reducible apply nextWf_when
    | split
    | dsimp only)

theorem formBeat_wf (a0 : State) (a1 : ℕ) (a2 : Inst) (a3 : Region) (a4 : Nest) (a5 : ℕ) (a6 : List Word) (a7 : Iter) (a8 : ℕ) (h0 : a0.mem.wf = true) :
    (formBeat a0 a1 a2 a3 a4 a5 a6 a7 a8).mem.wf = true := by
  unfold formBeat
  repeat' (first
    | assumption
    | intro _
    | (apply_assumption; done)
    | with_reducible exact True.intro
    | with_reducible refine State.takeFresh_wf (by with_reducible assumption) ?_
    | with_reducible apply State.takeFresh_wf2
    | with_reducible apply enterRead_wf
    | with_reducible apply memSource_wf
    | with_reducible apply chanSource_wf
    | with_reducible apply shelfSource_wf
    | with_reducible apply foldl_wf
    | with_reducible apply nextWf_next
    | with_reducible apply nextWf_when
    | split
    | dsimp only)

theorem placeFence_wf (a0 : State) (a1 : ℕ) (a2 : Nest) (a3 : ℕ) (a4 : List Word) (a5 : Iter) (h0 : a0.mem.wf = true) :
    (placeFence a0 a1 a2 a3 a4 a5).mem.wf = true := by
  unfold placeFence
  repeat' (first
    | assumption)

theorem execRegionSourceAccess_wf (a0 : ℕ) (a1 : ℕ) (a2 : State) (h2 : a2.mem.wf = true) :
    NextWf (execRegionSourceAccess a0 a1 a2) := by
  unfold execRegionSourceAccess
  repeat' (first
    | assumption
    | intro _
    | (apply_assumption; done)
    | with_reducible exact True.intro
    | with_reducible apply formBeat_wf
    | with_reducible apply placeFence_wf
    | with_reducible apply State.at_wf
    | with_reducible apply foldl_wf
    | with_reducible apply nextWf_next
    | with_reducible apply nextWf_when
    | split)

theorem unpark_wf (a0 : State) (a1 : ℕ) (a2 : Inst) (a3 : Region) (a4 : List Word) (a5 : RRead) (h0 : a0.mem.wf = true) :
    (unpark a0 a1 a2 a3 a4 a5).mem.wf = true := by
  unfold unpark
  repeat' (first
    | assumption
    | intro _
    | (apply_assumption; done)
    | with_reducible exact True.intro
    | with_reducible apply State.modReg_wf
    | with_reducible refine xlate_wf (by with_reducible assumption) ?_
    | with_reducible apply xlate_wf1
    | with_reducible apply Firing.fault_wf
    | with_reducible apply bindFault_wf
    | with_reducible apply askPortWalk_wf
    | with_reducible apply foldl_wf
    | with_reducible apply nextWf_next
    | with_reducible apply nextWf_when
    | split
    | dsimp only)

theorem readRegion_wf (a0 : State) (a1 : ℕ) (a2 : ℕ) (h0 : a0.mem.wf = true) :
    (readRegion a0 a1 a2).mem.wf = true := by
  unfold readRegion
  repeat' (first
    | assumption
    | intro _
    | (apply_assumption; done)
    | with_reducible exact True.intro
    | with_reducible apply State.modReg_wf
    | with_reducible apply bindFault_wf
    | with_reducible apply deliverReads_wf
    | with_reducible apply unpark_wf
    | with_reducible apply readHome_wf
    | with_reducible apply foldl_wf
    | with_reducible apply nextWf_next
    | with_reducible apply nextWf_when
    | split
    | dsimp only)

theorem holdItem_wf (a0 : State) (a1 : ℕ) (a2 : ℕ) (a3 : List Word) (a4 : ℕ) (a5 : ℕ) (a6 : ℕ) (a7 : HoldItem) (h0 : a0.mem.wf = true) :
    (holdItem a0 a1 a2 a3 a4 a5 a6 a7).mem.wf = true := by
  unfold holdItem
  repeat' (first
    | assumption
    | intro _
    | (apply_assumption; done)
    | with_reducible exact True.intro
    | with_reducible apply State.modReg_wf
    | with_reducible apply bindFault_wf
    | with_reducible apply foldl_wf
    | with_reducible apply nextWf_next
    | with_reducible apply nextWf_when
    | split
    | dsimp only)

theorem skipBeat_wf (a0 : State) (a1 : ℕ) (a2 : ℕ) (a3 : ℕ) (a4 : ℕ) (h0 : a0.mem.wf = true) :
    (skipBeat a0 a1 a2 a3 a4).mem.wf = true := by
  unfold skipBeat
  repeat' (first
    | assumption)

theorem memSink_wf (a0 : State) (a1 : ℕ) (a2 : Inst) (a3 : Region) (a4 : ℕ) (a5 : List Word) (a6 : ℕ) (a7 : Iter) (a8 : Beat) (a9 : Word) (h0 : a0.mem.wf = true) :
    (memSink a0 a1 a2 a3 a4 a5 a6 a7 a8 a9).mem.wf = true := by
  unfold memSink
  repeat' (first
    | assumption
    | intro _
    | (apply_assumption; done)
    | with_reducible exact True.intro
    | with_reducible refine State.takeFresh_wf (by with_reducible assumption) ?_
    | with_reducible apply State.takeFresh_wf2
    | with_reducible refine xlate_wf (by with_reducible assumption) ?_
    | with_reducible apply xlate_wf1
    | with_reducible apply Firing.fault_wf
    | with_reducible apply bindFault_wf
    | with_reducible apply askPortWalk_wf
    | with_reducible apply holdItem_wf
    | with_reducible apply foldl_wf
    | with_reducible apply nextWf_next
    | with_reducible apply nextWf_when
    | split
    | dsimp only)

theorem unparkSink_wf (a0 : State) (a1 : ℕ) (a2 : Inst) (a3 : Region) (a4 : ℕ) (a5 : List Word) (a6 : Iter) (a7 : ℕ) (a8 : Word) (a9 : ℕ) (h0 : a0.mem.wf = true) :
    (unparkSink a0 a1 a2 a3 a4 a5 a6 a7 a8 a9).mem.wf = true := by
  unfold unparkSink
  repeat' (first
    | assumption
    | intro _
    | (apply_assumption; done)
    | with_reducible exact True.intro
    | with_reducible apply State.modReg_wf
    | with_reducible refine xlate_wf (by with_reducible assumption) ?_
    | with_reducible apply xlate_wf1
    | with_reducible apply Firing.fault_wf
    | with_reducible apply bindFault_wf
    | with_reducible apply askPortWalk_wf
    | with_reducible apply foldl_wf
    | with_reducible apply nextWf_next
    | with_reducible apply nextWf_when
    | split
    | dsimp only)

theorem chanSink_wf (a0 : State) (a1 : ℕ) (a2 : Inst) (a3 : Region) (a4 : ℕ) (a5 : List Word) (a6 : ℕ) (a7 : ℕ) (a8 : Beat) (h0 : a0.mem.wf = true) :
    (chanSink a0 a1 a2 a3 a4 a5 a6 a7 a8).mem.wf = true := by
  unfold chanSink
  repeat' (first
    | assumption
    | intro _
    | (apply_assumption; done)
    | with_reducible exact True.intro
    | with_reducible apply bindFault_wf
    | with_reducible apply holdItem_wf
    | with_reducible apply foldl_wf
    | with_reducible apply nextWf_next
    | with_reducible apply nextWf_when
    | split
    | dsimp only)

theorem sinkBeat_wf (a0 : State) (a1 : ℕ) (a2 : Inst) (a3 : Region) (a4 : Nest) (a5 : ℕ) (a6 : List Word) (a7 : ℕ) (a8 : Beat) (h0 : a0.mem.wf = true) :
    (sinkBeat a0 a1 a2 a3 a4 a5 a6 a7 a8).mem.wf = true := by
  unfold sinkBeat
  repeat' (first
    | assumption
    | intro _
    | (apply_assumption; done)
    | with_reducible exact True.intro
    | with_reducible apply State.modReg_wf
    | with_reducible apply postFabric_wf
    | with_reducible apply skipBeat_wf
    | with_reducible apply memSink_wf
    | with_reducible apply chanSink_wf
    | with_reducible apply foldl_wf
    | with_reducible apply nextWf_next
    | with_reducible apply nextWf_when
    | split)

theorem execRegionSinkWrite_wf (a0 : ℕ) (a1 : ℕ) (a2 : State) (h2 : a2.mem.wf = true) :
    NextWf (execRegionSinkWrite a0 a1 a2) := by
  unfold execRegionSinkWrite
  repeat' (first
    | assumption
    | intro _
    | (apply_assumption; done)
    | with_reducible exact True.intro
    | with_reducible apply unparkSink_wf
    | with_reducible apply sinkBeat_wf
    | with_reducible apply foldl_wf
    | with_reducible apply nextWf_next
    | with_reducible apply nextWf_when
    | split)


end Sys2Proof.Machine
end

