-- ==== Sys2Proof/Laws/Keep6.lean ====
section
/-! SUPPORT. The operations and meanings of Machine/Firing, Machine/Detector, Machine/Eops, Machine/Place, Machine/Links, Machine/Image, Machine/Queue, Machine/TimeBase keep memory in its canonical
form: `f_wf` for an operation that answers a state, or a state with a value. -/

set_option maxRecDepth 4000
set_option linter.unusedTactic false
set_option linter.unreachableTactic false
set_option linter.unusedSimpArgs false
set_option linter.unusedVariables false

namespace Sys2Proof.Machine

open Sys2Proof.Bits Sys2Proof.Rows

theorem enterIter_wf (a0 : State) (a1 : ℕ) (a2 : ℕ) (h0 : a0.mem.wf = true) :
    (enterIter a0 a1 a2).mem.wf = true := by
  unfold enterIter
  repeat' (first
    | assumption
    | intro _
    | (apply_assumption; done)
    | with_reducible exact True.intro
    | with_reducible apply State.modFe_wf
    | with_reducible apply State.meetStreams_wf
    | with_reducible apply foldl_wf
    | with_reducible apply nextWf_next
    | with_reducible apply nextWf_when
    | split
    | dsimp only)

theorem markFirst_wf (a0 : State) (a1 : ℕ) (a2 : ℕ) (h0 : a0.mem.wf = true) :
    (markFirst a0 a1 a2).mem.wf = true := by
  unfold markFirst
  repeat' (first
    | assumption)

theorem shelfRun_wf (a0 : State) (a1 : ℕ) (a2 : ℕ) (a3 : List Byte) (h0 : a0.mem.wf = true) :
    (shelfRun a0 a1 a2 a3).mem.wf = true := by
  unfold shelfRun
  repeat' (first
    | assumption
    | intro _
    | (apply_assumption; done)
    | with_reducible exact True.intro
    | with_reducible apply State.putBytes_wf
    | with_reducible apply State.modFe_wf
    | with_reducible apply foldl_wf
    | with_reducible apply nextWf_next
    | with_reducible apply nextWf_when
    | split
    | dsimp only)

theorem shelfWrite_wf (a0 : State) (a1 : ℕ) (a2 : ℕ) (a3 : List Byte) (h0 : a0.mem.wf = true) :
    (shelfWrite a0 a1 a2 a3).mem.wf = true := by
  unfold shelfWrite
  repeat' (first
    | assumption
    | intro _
    | (apply_assumption; done)
    | with_reducible exact True.intro
    | with_reducible apply shelfRun_wf
    | with_reducible apply foldl_wf
    | with_reducible apply nextWf_next
    | with_reducible apply nextWf_when
    | split
    | dsimp only)

theorem undoOf_wf {a0 : State} {a1 : ℕ} {a2 : ℕ} {a3 : ℕ} {t} {y} (e : undoOf a0 a1 a2 a3 = (t, y)) (h0 : a0.mem.wf = true) :
    (State.mem t).wf = true := by
  unfold undoOf at e
  repeat' (first
    | assumption
    | intro _
    | (apply_assumption; done)
    | with_reducible exact True.intro
    | with_reducible apply meetFlaws_wf
    | with_reducible apply foldl_wf
    | with_reducible apply nextWf_next
    | with_reducible apply nextWf_when
    | (split at e)
    | (simp only [Prod.mk.injEq, Option.some.injEq, reduceCtorEq, and_false, false_and] at e)
    | (obtain ⟨rfl, _⟩ := e))
theorem undoOf_wf1 (a0 : State) (a1 : ℕ) (a2 : ℕ) (a3 : ℕ) (h0 : a0.mem.wf = true) :
    (undoOf a0 a1 a2 a3).1.mem.wf = true := undoOf_wf (t := (undoOf a0 a1 a2 a3).1) (y := (undoOf a0 a1 a2 a3).2) rfl h0

theorem shelfSink_wf (a0 : State) (a1 : ℕ) (a2 : ℕ) (a3 : List Word) (a4 : Nest) (a5 : ℕ) (a6 : ℕ) (a7 : Beat) (h0 : a0.mem.wf = true) :
    (shelfSink a0 a1 a2 a3 a4 a5 a6 a7).mem.wf = true := by
  unfold shelfSink
  repeat' (first
    | assumption
    | intro _
    | (apply_assumption; done)
    | with_reducible exact True.intro
    | with_reducible apply State.modReg_wf
    | with_reducible apply shelfWrite_wf
    | with_reducible refine undoOf_wf (by with_reducible assumption) ?_
    | with_reducible apply undoOf_wf1
    | with_reducible apply foldl_wf
    | with_reducible apply nextWf_next
    | with_reducible apply nextWf_when
    | split
    | dsimp only)

theorem emitBeat_wf (a0 : State) (a1 : ℕ) (a2 : Region) (a3 : Nest) (a4 : Cfg.Net) (a5 : FeAt) (a6 : ℕ) (a7 : Beat) (h0 : a0.mem.wf = true) :
    (emitBeat a0 a1 a2 a3 a4 a5 a6 a7).mem.wf = true := by
  unfold emitBeat
  repeat' (first
    | assumption
    | intro _
    | (apply_assumption; done)
    | with_reducible exact True.intro
    | with_reducible apply State.modReg_wf
    | with_reducible apply pushBeat_wf
    | with_reducible apply foldl_wf
    | with_reducible apply nextWf_next
    | with_reducible apply nextWf_when
    | split)

theorem writeStream_wf (a0 : State) (a1 : List Word) (a2 : ℕ) (a3 : Elements.StreamOut) (h0 : a0.mem.wf = true) :
    (writeStream a0 a1 a2 a3).mem.wf = true := by
  unfold writeStream
  repeat' (first
    | assumption
    | intro _
    | (apply_assumption; done)
    | with_reducible exact True.intro
    | with_reducible apply State.putBytes_wf
    | with_reducible apply State.modFe_wf)

theorem spreadOut_wf (a0 : State) (a1 : ℕ) (a2 : Region) (a3 : Nest) (a4 : FeAt) (a5 : ℕ) (a6 : ℕ) (a7 : List Word) (a8 : Elements.FireOut) (h0 : a0.mem.wf = true) :
    (spreadOut a0 a1 a2 a3 a4 a5 a6 a7 a8).mem.wf = true := by
  unfold spreadOut
  repeat' (first
    | assumption
    | intro _
    | (apply_assumption; done)
    | with_reducible exact True.intro
    | with_reducible apply State.modFe_wf
    | with_reducible apply regionFault_wf
    | with_reducible apply shelfSink_wf
    | with_reducible apply emitBeat_wf
    | with_reducible apply writeStream_wf
    | with_reducible apply foldl_wf
    | with_reducible apply nextWf_next
    | with_reducible apply nextWf_when
    | split
    | dsimp only)

theorem fireFault_wf (a0 : State) (a1 : ℕ) (a2 : FeAt) (a3 : ℕ) (a4 : ℕ) (a5 : Elements.FireFault) (h0 : a0.mem.wf = true) :
    (fireFault a0 a1 a2 a3 a4 a5).mem.wf = true := by
  unfold fireFault
  repeat' (first
    | assumption
    | intro _
    | (apply_assumption; done)
    | with_reducible exact True.intro
    | with_reducible apply regionFault_wf)

theorem fireResult_wf {a0 : State} {a1 : ℕ} {a2 : Elements.FireIn} {a3 : List Word →   Fe →     Elements.FireIn → Except Elements.FireFault Elements.FireOut} {t} {y} (e : fireResult a0 a1 a2 a3 = (t, y)) (h0 : a0.mem.wf = true) :
    (State.mem t).wf = true := by
  unfold fireResult at e
  repeat' (first
    | assumption
    | intro _
    | (apply_assumption; done)
    | with_reducible exact True.intro
    | with_reducible apply meetFlaws_wf
    | with_reducible apply foldl_wf
    | with_reducible apply nextWf_next
    | with_reducible apply nextWf_when
    | (split at e)
    | (simp only [Prod.mk.injEq, Option.some.injEq, reduceCtorEq, and_false, false_and] at e)
    | (obtain ⟨rfl, _⟩ := e))
theorem fireResult_wf1 (a0 : State) (a1 : ℕ) (a2 : Elements.FireIn) (a3 : List Word →   Fe →     Elements.FireIn → Except Elements.FireFault Elements.FireOut) (h0 : a0.mem.wf = true) :
    (fireResult a0 a1 a2 a3).1.mem.wf = true := fireResult_wf (t := (fireResult a0 a1 a2 a3).1) (y := (fireResult a0 a1 a2 a3).2) rfl h0

theorem fireNow_wf (a0 : State) (a1 : ℕ) (a2 : Region) (a3 : Nest) (a4 : FeAt) (a5 : ℕ) (a6 : ℕ) (a7 : Elements.FireIn) (a8 : List Word →   Fe →     Elements.FireIn → Except Elements.FireFault Elements.FireOut) (h0 : a0.mem.wf = true) :
    (fireNow a0 a1 a2 a3 a4 a5 a6 a7 a8).mem.wf = true := by
  unfold fireNow
  repeat' (first
    | assumption
    | intro _
    | (apply_assumption; done)
    | with_reducible exact True.intro
    | with_reducible apply State.modReg_wf
    | with_reducible apply enterIter_wf
    | with_reducible apply markFirst_wf
    | with_reducible apply spreadOut_wf
    | with_reducible apply fireFault_wf
    | with_reducible refine fireResult_wf (by with_reducible assumption) ?_
    | with_reducible apply fireResult_wf1
    | with_reducible apply foldl_wf
    | with_reducible apply nextWf_next
    | with_reducible apply nextWf_when
    | split
    | dsimp only)

theorem fireFe_wf (a0 : ℕ) (a1 : List Word →   Fe →     Elements.FireIn → Except Elements.FireFault Elements.FireOut) (a2 : Bool) (a3 : ℕ) (a4 : FeAt) (a5 : State) (h5 : a5.mem.wf = true) :
    NextWf (fireFe a0 a1 a2 a3 a4 a5) := by
  unfold fireFe
  repeat' (first
    | assumption
    | intro _
    | (apply_assumption; done)
    | with_reducible exact True.intro
    | with_reducible apply upset_wf
    | with_reducible apply fireNow_wf
    | with_reducible apply foldl_wf
    | with_reducible apply nextWf_next
    | with_reducible apply nextWf_when
    | split
    | dsimp only)

theorem notePass_wf (a0 : State) (a1 : ℕ) (a2 : Region) (a3 : FeAt) (a4 : ℕ) (h0 : a0.mem.wf = true) :
    (notePass a0 a1 a2 a3 a4).mem.wf = true := by
  unfold notePass
  repeat' (first
    | assumption
    | intro _
    | (apply_assumption; done)
    | with_reducible exact True.intro
    | with_reducible apply State.modReg_wf
    | with_reducible apply State.modFe_wf
    | with_reducible apply foldl_wf)

theorem execMarkerPass_wf (a0 : ℕ) (a1 : FeAt) (a2 : FeIn) (a3 : State) (h3 : a3.mem.wf = true) :
    NextWf (execMarkerPass a0 a1 a2 a3) := by
  unfold execMarkerPass
  repeat' (first
    | assumption
    | intro _
    | (apply_assumption; done)
    | with_reducible exact True.intro
    | with_reducible apply State.modFe_wf
    | with_reducible apply enterIter_wf
    | with_reducible apply emitBeat_wf
    | with_reducible apply notePass_wf
    | with_reducible apply foldl_wf
    | with_reducible apply nextWf_next
    | with_reducible apply nextWf_when
    | split
    | dsimp only)

theorem waitForRoom_wf (a0 : State) (a1 : ℕ) (a2 : List ℕ) (h0 : a0.mem.wf = true) :
    (waitForRoom a0 a1 a2).mem.wf = true := by
  unfold waitForRoom
  repeat' (first
    | assumption
    | intro _
    | (apply_assumption; done)
    | with_reducible exact True.intro
    | with_reducible apply State.modReg_wf
    | with_reducible apply State.modChan_wf
    | with_reducible apply foldl_wf)

theorem releaseHolds_wf (a0 : State) (a1 : ℕ) (a2 : Inst) (a3 : Nest) (a4 : Iter) (h0 : a0.mem.wf = true) :
    (releaseHolds a0 a1 a2 a3 a4).mem.wf = true := by
  unfold releaseHolds
  repeat' (first
    | assumption
    | intro _
    | (apply_assumption; done)
    | with_reducible exact True.intro
    | with_reducible apply State.modChan_wf
    | with_reducible apply enterWrite_wf
    | with_reducible apply enterFence_wf
    | with_reducible apply enterRelease_wf
    | with_reducible apply foldl_wf
    | with_reducible apply nextWf_next
    | with_reducible apply nextWf_when
    | split)

theorem freeTaken_wf (a0 : State) (a1 : ℕ) (a2 : List Word) (h0 : a0.mem.wf = true) :
    (freeTaken a0 a1 a2).mem.wf = true := by
  unfold freeTaken
  repeat' (first
    | assumption
    | intro _
    | (apply_assumption; done)
    | with_reducible exact True.intro
    | with_reducible apply State.modChan_wf
    | with_reducible apply settleChan_wf
    | with_reducible apply foldl_wf
    | with_reducible apply nextWf_next
    | with_reducible apply nextWf_when
    | split)

theorem afterCommit_wf (a0 : State) (a1 : ℕ) (a2 : Iter) (a3 : Bool) (h0 : a0.mem.wf = true) :
    (afterCommit a0 a1 a2 a3).mem.wf = true := by
  unfold afterCommit
  repeat' (first
    | assumption
    | (exact pickFresh_wf' (by assumption) h0)
    | with_reducible apply holdRegion_wf
    | with_reducible apply postAsync_wf
    | with_reducible apply endNest_wf
    | split)

theorem commitIter_wf (a0 : State) (a1 : ℕ) (a2 : Inst) (a3 : Region) (a4 : Nest) (a5 : Iter) (h0 : a0.mem.wf = true) :
    (commitIter a0 a1 a2 a3 a4 a5).mem.wf = true := by
  unfold commitIter
  repeat' (first
    | assumption
    | intro _
    | (apply_assumption; done)
    | with_reducible exact True.intro
    | with_reducible apply State.modReg_wf
    | with_reducible apply State.modFe_wf
    | with_reducible apply State.countCore_wf
    | with_reducible apply postFabric_wf
    | with_reducible apply releaseHolds_wf
    | with_reducible apply freeTaken_wf
    | with_reducible apply afterCommit_wf
    | with_reducible apply foldl_wf)

theorem execIterationCommit_wf (a0 : ℕ) (a1 : State) (h1 : a1.mem.wf = true) :
    NextWf (execIterationCommit a0 a1) := by
  unfold execIterationCommit
  repeat' (first
    | assumption
    | intro _
    | (apply_assumption; done)
    | with_reducible exact True.intro
    | with_reducible apply State.modReg_wf
    | with_reducible apply bindFault_wf
    | with_reducible apply waitForRoom_wf
    | with_reducible apply commitIter_wf
    | with_reducible apply foldl_wf
    | with_reducible apply nextWf_next
    | with_reducible apply nextWf_when
    | split
    | dsimp only)

theorem execIterationDiscard_wf (a0 : ℕ) (a1 : State) (h1 : a1.mem.wf = true) :
    NextWf (execIterationDiscard a0 a1) := by
  unfold execIterationDiscard
  repeat' (first
    | assumption
    | intro _
    | (apply_assumption; done)
    | with_reducible exact True.intro
    | with_reducible apply State.modReg_wf
    | with_reducible apply State.countCore_wf
    | with_reducible apply rollback_wf
    | with_reducible apply regionFault_wf
    | with_reducible apply foldl_wf
    | with_reducible apply nextWf_next
    | with_reducible apply nextWf_when
    | split)

theorem execIterOverrun_wf (a0 : ℕ) (a1 : State) (h1 : a1.mem.wf = true) :
    NextWf (execIterOverrun a0 a1) := by
  unfold execIterOverrun
  repeat' (first
    | assumption
    | intro _
    | (apply_assumption; done)
    | with_reducible exact True.intro
    | with_reducible apply regionFault_wf
    | with_reducible apply foldl_wf
    | with_reducible apply nextWf_next
    | with_reducible apply nextWf_when
    | split)

theorem execBlockedReport_wf (a0 : ℕ) (a1 : State) (h1 : a1.mem.wf = true) :
    NextWf (execBlockedReport a0 a1) := by
  unfold execBlockedReport
  repeat' (first
    | assumption
    | intro _
    | (apply_assumption; done)
    | with_reducible exact True.intro
    | with_reducible apply when__wf)

theorem chDeadlock_wf (a0 : State) (a1 : ℕ) (a2 : ℕ) (a3 : Chan) (h0 : a0.mem.wf = true) :
    (chDeadlock a0 a1 a2 a3).mem.wf = true := by
  unfold chDeadlock
  repeat' (first
    | assumption
    | intro _
    | (apply_assumption; done)
    | with_reducible exact True.intro
    | with_reducible refine State.takeFresh_wf (by with_reducible assumption) ?_
    | with_reducible apply State.takeFresh_wf2
    | with_reducible apply holdRegion_wf
    | with_reducible apply postAsync_wf
    | with_reducible apply discardBlock_wf
    | with_reducible apply foldl_wf
    | with_reducible apply nextWf_next
    | with_reducible apply nextWf_when
    | split)

theorem breakCycle_wf (a0 : State) (a1 : List Hop) (h0 : a0.mem.wf = true) :
    (breakCycle a0 a1).mem.wf = true := by
  unfold breakCycle
  repeat' (first
    | assumption
    | intro _
    | (apply_assumption; done)
    | with_reducible exact True.intro
    | with_reducible apply State.modChan_wf
    | with_reducible apply chDeadlock_wf
    | with_reducible apply foldl_wf
    | with_reducible apply nextWf_next
    | with_reducible apply nextWf_when
    | split
    | dsimp only)

theorem execDeadlockDetector_wf (a0 : ℕ) (a1 : State) (h1 : a1.mem.wf = true) :
    NextWf (execDeadlockDetector a0 a1) := by
  unfold execDeadlockDetector
  repeat' (first
    | assumption
    | intro _
    | (apply_assumption; done)
    | with_reducible exact True.intro
    | with_reducible apply breakCycle_wf
    | with_reducible apply foldl_wf
    | with_reducible apply nextWf_next
    | with_reducible apply nextWf_when
    | split)

theorem execPass_wf (a0 : ℕ) (a1 : FeAt) (a2 : State) (h2 : a2.mem.wf = true) :
    NextWf (execPass a0 a1 a2) := by
  unfold execPass
  repeat' (first
    | assumption
    | intro _
    | (apply_assumption; done)
    | with_reducible exact True.intro
    | with_reducible apply fireFe_wf)

theorem execDot_wf (a0 : ℕ) (a1 : FeAt) (a2 : Bool) (a3 : State) (h3 : a3.mem.wf = true) :
    NextWf (execDot a0 a1 a2 a3) := by
  unfold execDot
  repeat' (first
    | assumption
    | intro _
    | (apply_assumption; done)
    | with_reducible exact True.intro
    | with_reducible apply upset_wf
    | with_reducible apply fireFe_wf)

theorem execDots_wf (a0 : ℕ) (a1 : FeAt) (a2 : Bool) (a3 : State) (h3 : a3.mem.wf = true) :
    NextWf (execDots a0 a1 a2 a3) := by
  unfold execDots
  repeat' (first
    | assumption
    | intro _
    | (apply_assumption; done)
    | with_reducible exact True.intro
    | with_reducible apply upset_wf
    | with_reducible apply fireFe_wf)

theorem execRedadd_wf (a0 : ℕ) (a1 : FeAt) (a2 : State) (h2 : a2.mem.wf = true) :
    NextWf (execRedadd a0 a1 a2) := by
  unfold execRedadd
  repeat' (first
    | assumption
    | intro _
    | (apply_assumption; done)
    | with_reducible exact True.intro
    | with_reducible apply fireFe_wf)

theorem execRedmax_wf (a0 : ℕ) (a1 : FeAt) (a2 : State) (h2 : a2.mem.wf = true) :
    NextWf (execRedmax a0 a1 a2) := by
  unfold execRedmax
  repeat' (first
    | assumption
    | intro _
    | (apply_assumption; done)
    | with_reducible exact True.intro
    | with_reducible apply fireFe_wf)

theorem execRedmin_wf (a0 : ℕ) (a1 : FeAt) (a2 : State) (h2 : a2.mem.wf = true) :
    NextWf (execRedmin a0 a1 a2) := by
  unfold execRedmin
  repeat' (first
    | assumption
    | intro _
    | (apply_assumption; done)
    | with_reducible exact True.intro
    | with_reducible apply fireFe_wf)

theorem execEopAdd_wf (a0 : ℕ) (a1 : FeAt) (a2 : State) (h2 : a2.mem.wf = true) :
    NextWf (execEopAdd a0 a1 a2) := by
  unfold execEopAdd
  repeat' (first
    | assumption
    | intro _
    | (apply_assumption; done)
    | with_reducible exact True.intro
    | with_reducible apply fireFe_wf)

theorem execMule_wf (a0 : ℕ) (a1 : FeAt) (a2 : Bool) (a3 : State) (h3 : a3.mem.wf = true) :
    NextWf (execMule a0 a1 a2 a3) := by
  unfold execMule
  repeat' (first
    | assumption
    | intro _
    | (apply_assumption; done)
    | with_reducible exact True.intro
    | with_reducible apply upset_wf
    | with_reducible apply fireFe_wf)

theorem execScale_wf (a0 : ℕ) (a1 : FeAt) (a2 : State) (h2 : a2.mem.wf = true) :
    NextWf (execScale a0 a1 a2) := by
  unfold execScale
  repeat' (first
    | assumption
    | intro _
    | (apply_assumption; done)
    | with_reducible exact True.intro
    | with_reducible apply fireFe_wf)

theorem execQuant_wf (a0 : ℕ) (a1 : FeAt) (a2 : State) (h2 : a2.mem.wf = true) :
    NextWf (execQuant a0 a1 a2) := by
  unfold execQuant
  repeat' (first
    | assumption
    | intro _
    | (apply_assumption; done)
    | with_reducible exact True.intro
    | with_reducible apply fireFe_wf)

theorem execDeq_wf (a0 : ℕ) (a1 : FeAt) (a2 : State) (h2 : a2.mem.wf = true) :
    NextWf (execDeq a0 a1 a2) := by
  unfold execDeq
  repeat' (first
    | assumption
    | intro _
    | (apply_assumption; done)
    | with_reducible exact True.intro
    | with_reducible apply fireFe_wf)

theorem execCvt_wf (a0 : ℕ) (a1 : FeAt) (a2 : State) (h2 : a2.mem.wf = true) :
    NextWf (execCvt a0 a1 a2) := by
  unfold execCvt
  repeat' (first
    | assumption
    | intro _
    | (apply_assumption; done)
    | with_reducible exact True.intro
    | with_reducible apply fireFe_wf)

theorem execBfly_wf (a0 : ℕ) (a1 : FeAt) (a2 : State) (h2 : a2.mem.wf = true) :
    NextWf (execBfly a0 a1 a2) := by
  unfold execBfly
  repeat' (first
    | assumption
    | intro _
    | (apply_assumption; done)
    | with_reducible exact True.intro
    | with_reducible apply fireFe_wf)

theorem execSplit3_wf (a0 : ℕ) (a1 : FeAt) (a2 : State) (h2 : a2.mem.wf = true) :
    NextWf (execSplit3 a0 a1 a2) := by
  unfold execSplit3
  repeat' (first
    | assumption
    | intro _
    | (apply_assumption; done)
    | with_reducible exact True.intro
    | with_reducible apply fireFe_wf)

theorem execLut6_wf (a0 : ℕ) (a1 : FeAt) (a2 : State) (h2 : a2.mem.wf = true) :
    NextWf (execLut6 a0 a1 a2) := by
  unfold execLut6
  repeat' (first
    | assumption
    | intro _
    | (apply_assumption; done)
    | with_reducible exact True.intro
    | with_reducible apply fireFe_wf)

theorem execFsm_wf (a0 : ℕ) (a1 : FeAt) (a2 : State) (h2 : a2.mem.wf = true) :
    NextWf (execFsm a0 a1 a2) := by
  unfold execFsm
  repeat' (first
    | assumption
    | intro _
    | (apply_assumption; done)
    | with_reducible exact True.intro
    | with_reducible apply fireFe_wf)

theorem execTable_wf (a0 : ℕ) (a1 : FeAt) (a2 : State) (h2 : a2.mem.wf = true) :
    NextWf (execTable a0 a1 a2) := by
  unfold execTable
  repeat' (first
    | assumption
    | intro _
    | (apply_assumption; done)
    | with_reducible exact True.intro
    | with_reducible apply fireFe_wf)

theorem execCmpsel_wf (a0 : ℕ) (a1 : FeAt) (a2 : State) (h2 : a2.mem.wf = true) :
    NextWf (execCmpsel a0 a1 a2) := by
  unfold execCmpsel
  repeat' (first
    | assumption
    | intro _
    | (apply_assumption; done)
    | with_reducible exact True.intro
    | with_reducible apply fireFe_wf)

theorem execShiftv_wf (a0 : ℕ) (a1 : FeAt) (a2 : State) (h2 : a2.mem.wf = true) :
    NextWf (execShiftv a0 a1 a2) := by
  unfold execShiftv
  repeat' (first
    | assumption
    | intro _
    | (apply_assumption; done)
    | with_reducible exact True.intro
    | with_reducible apply fireFe_wf)

theorem execCnt_wf (a0 : ℕ) (a1 : FeAt) (a2 : State) (h2 : a2.mem.wf = true) :
    NextWf (execCnt a0 a1 a2) := by
  unfold execCnt
  repeat' (first
    | assumption
    | intro _
    | (apply_assumption; done)
    | with_reducible exact True.intro
    | with_reducible apply fireFe_wf)

theorem asAccepted_wf (a0 : State) (a1 : Launch) (h0 : a0.mem.wf = true) :
    (asAccepted a0 a1).mem.wf = true := by
  unfold asAccepted
  repeat' (first
    | assumption)

theorem countReplay_wf (a0 : State) (a1 : ℕ) (h0 : a0.mem.wf = true) :
    (countReplay a0 a1).mem.wf = true := by
  unfold countReplay
  repeat' (first
    | assumption
    | intro _
    | (apply_assumption; done)
    | with_reducible exact True.intro
    | with_reducible apply State.countDie_wf
    | with_reducible apply foldl_wf
    | with_reducible apply nextWf_next
    | with_reducible apply nextWf_when
    | split)

theorem State.modLink_wf (a0 : State) (a1 : ℕ) (a2 : LinkDir → LinkDir) (h0 : a0.mem.wf = true) :
    (State.modLink a0 a1 a2).mem.wf = true := by
  unfold State.modLink
  repeat' (first
    | assumption)

theorem State.modBound_wf (a0 : State) (a1 : ℕ) (a2 : Bound → Bound) (h0 : a0.mem.wf = true) :
    (State.modBound a0 a1 a2).mem.wf = true := by
  unfold State.modBound
  repeat' (first
    | assumption)

theorem beginRetrain_wf (a0 : State) (a1 : ℕ) (h0 : a0.mem.wf = true) :
    (beginRetrain a0 a1).mem.wf = true := by
  unfold beginRetrain
  repeat' (first
    | assumption)

theorem putFlit_wf (a0 : State) (a1 : ℕ) (a2 : Flit) (h0 : a0.mem.wf = true) :
    (putFlit a0 a1 a2).mem.wf = true := by
  unfold putFlit
  repeat' (first
    | assumption)

theorem replayFlit_wf (s : State) (l : Nat) (f : Flit) (h : s.mem.wf = true) : (replayFlit s l f).mem.wf = true := by
  unfold replayFlit
  dsimp only
  generalize agetD 0 f.seq.toNat (s.link l).replays + 1 = n
  have hp := putFlit_wf _ l f (countReplay_wf _ l (State.modLink_wf s l
    (fun d => { d with toSend := d.toSend.drop 1, replays := aset f.seq.toNat n d.replays }) h))
  split
  · exact beginRetrain_wf _ _ hp
  · exact hp

theorem sendData_wf (a0 : State) (a1 : ℕ) (a2 : ℕ) (a3 : ℕ) (a4 : List Byte) (h0 : a0.mem.wf = true) :
    (sendData a0 a1 a2 a3 a4).mem.wf = true := by
  unfold sendData
  repeat' (first
    | assumption)

theorem sendStream_wf (a0 : State) (a1 : ℕ) (a2 : ℕ) (a3 : List Byte) (h0 : a0.mem.wf = true) :
    (sendStream a0 a1 a2 a3).mem.wf = true := by
  unfold sendStream
  repeat' (first
    | assumption)

theorem execFlitSend_wf (a0 : ℕ) (a1 : FlitKind) (a2 : LinkLoad) (a3 : State) (h3 : a3.mem.wf = true) :
    NextWf (execFlitSend a0 a1 a2 a3) := by
  unfold execFlitSend
  repeat' (first
    | assumption
    | intro _
    | (apply_assumption; done)
    | with_reducible exact True.intro
    | with_reducible apply State.modLink_wf
    | with_reducible apply putFlit_wf
    | with_reducible apply replayFlit_wf
    | with_reducible apply sendData_wf
    | with_reducible apply sendStream_wf
    | with_reducible apply foldl_wf
    | with_reducible apply nextWf_next
    | with_reducible apply nextWf_when
    | split
    | dsimp only)

theorem sendNak_wf (a0 : State) (a1 : ℕ) (h0 : a0.mem.wf = true) :
    (sendNak a0 a1).mem.wf = true := by
  unfold sendNak
  repeat' (first
    | assumption
    | intro _
    | (apply_assumption; done)
    | with_reducible exact True.intro
    | with_reducible apply State.modLink_wf
    | with_reducible apply putFlit_wf
    | with_reducible apply foldl_wf
    | with_reducible apply nextWf_next
    | with_reducible apply nextWf_when
    | split)

theorem crcFailed_wf (s : State) (l : Nat) (h : s.mem.wf = true) : (crcFailed s l).mem.wf = true := by
  have hp := State.modLink_wf s l (fun d => { d with fails := s.cycle :: d.fails.filter fun t => s.cycle < t + 1600 }) h
  unfold crcFailed
  generalize s.modLink l (fun d => { d with fails := s.cycle :: d.fails.filter fun t => s.cycle < t + 1600 }) = u at hp ⊢
  dsimp only
  split
  · exact beginRetrain_wf _ _ hp
  · exact sendNak_wf _ _ hp

theorem backward_wf (a0 : State) (a1 : ℕ) (a2 : Flit) (h0 : a0.mem.wf = true) :
    (backward a0 a1 a2).mem.wf = true := by
  unfold backward
  repeat' (first
    | assumption)

theorem goodFlit_wf (a0 : State) (a1 : ℕ) (a2 : Flit) (h0 : a0.mem.wf = true) :
    (goodFlit a0 a1 a2).mem.wf = true := by
  unfold goodFlit
  repeat' (first
    | assumption
    | intro _
    | (apply_assumption; done)
    | with_reducible exact True.intro
    | with_reducible apply State.modLink_wf
    | with_reducible apply State.modBound_wf
    | with_reducible apply backward_wf
    | with_reducible apply foldl_wf
    | with_reducible apply nextWf_next
    | with_reducible apply nextWf_when
    | split
    | dsimp only)

theorem execFlitReceive_wf (a0 : ℕ) (a1 : List (ℕ × Byte)) (a2 : State) (h2 : a2.mem.wf = true) :
    NextWf (execFlitReceive a0 a1 a2) := by
  unfold execFlitReceive
  repeat' (first
    | assumption
    | intro _
    | (apply_assumption; done)
    | with_reducible exact True.intro
    | with_reducible apply State.modLink_wf
    | with_reducible apply sendNak_wf
    | with_reducible apply crcFailed_wf
    | with_reducible apply goodFlit_wf
    | with_reducible apply foldl_wf
    | with_reducible apply nextWf_next
    | with_reducible apply nextWf_when
    | split
    | dsimp only)

theorem execNakReceive_wf (a0 : ℕ) (a1 : State) (h1 : a1.mem.wf = true) :
    NextWf (execNakReceive a0 a1) := by
  unfold execNakReceive
  repeat' (first
    | assumption
    | intro _
    | (apply_assumption; done)
    | with_reducible exact True.intro
    | with_reducible apply State.modLink_wf
    | with_reducible apply foldl_wf
    | with_reducible apply nextWf_next
    | with_reducible apply nextWf_when
    | split)

theorem execReplayTimeout_wf (a0 : ℕ) (a1 : State) (h1 : a1.mem.wf = true) :
    NextWf (execReplayTimeout a0 a1) := by
  unfold execReplayTimeout
  repeat' (first
    | assumption
    | intro _
    | (apply_assumption; done)
    | with_reducible exact True.intro
    | with_reducible apply State.modLink_wf
    | with_reducible apply foldl_wf
    | with_reducible apply nextWf_next
    | with_reducible apply nextWf_when)

theorem retireDir_wf (a0 : State) (a1 : ℕ) (h0 : a0.mem.wf = true) :
    (retireDir a0 a1).mem.wf = true := by
  unfold retireDir
  repeat' (first
    | assumption
    | intro _
    | (apply_assumption; done)
    | with_reducible exact True.intro
    | with_reducible apply State.modLink_wf
    | with_reducible apply foldl_wf
    | with_reducible apply nextWf_next
    | with_reducible apply nextWf_when
    | split
    | dsimp only)

theorem execRetrainDone_wf (a0 : ℕ) (a1 : BitVec 64) (a2 : State) (h2 : a2.mem.wf = true) :
    NextWf (execRetrainDone a0 a1 a2) := by
  unfold execRetrainDone
  repeat' (first
    | assumption
    | intro _
    | (apply_assumption; done)
    | with_reducible exact True.intro
    | with_reducible apply State.countDie_wf
    | with_reducible apply State.raiseMsix_wf
    | with_reducible apply State.logEvent_wf
    | with_reducible apply State.modLink_wf
    | with_reducible apply retireDir_wf
    | with_reducible apply foldl_wf
    | with_reducible apply nextWf_next
    | with_reducible apply nextWf_when
    | split)

theorem readVirt_wf {a0 : State} {a1 : ℕ} {a2 : ℕ} {a3 : Word} {a4 : ℕ} {a5 : ℕ} {a6 : Access} {t} {y} (e : readVirt a0 a1 a2 a3 a4 a5 a6 = (t, y)) (h0 : a0.mem.wf = true) :
    (State.mem t).wf = true := by
  unfold readVirt at e
  repeat' (first
    | assumption
    | intro _
    | (apply_assumption; done)
    | with_reducible exact True.intro
    | with_reducible apply meetFlaws_wf
    | with_reducible refine xlateNow_wf (by with_reducible assumption) ?_
    | with_reducible apply xlateNow_wf1
    | with_reducible apply Firing.fault_wf
    | with_reducible apply foldl_wf
    | with_reducible apply nextWf_next
    | with_reducible apply nextWf_when
    | (split at e)
    | (simp only [Prod.mk.injEq, Option.some.injEq, reduceCtorEq, and_false, false_and] at e)
    | (obtain ⟨rfl, _⟩ := e))
theorem readVirt_wf1 (a0 : State) (a1 : ℕ) (a2 : ℕ) (a3 : Word) (a4 : ℕ) (a5 : ℕ) (a6 : Access) (h0 : a0.mem.wf = true) :
    (readVirt a0 a1 a2 a3 a4 a5 a6).1.mem.wf = true := readVirt_wf (t := (readVirt a0 a1 a2 a3 a4 a5 a6).1) (y := (readVirt a0 a1 a2 a3 a4 a5 a6).2) rfl h0

theorem writeVirt_wf {s : State} {die ctx : Nat} {addr : Word} {bs : List Byte} {t} {y}
    (e : writeVirt s die ctx addr bs = (t, y)) (h : s.mem.wf = true) : (State.mem t).wf = true := by
  unfold writeVirt at e
  split at e
  · rename_i hx
    cases e
    exact foldl_fst_wf _ _ _ (xlateNow_wf hx h) fun a p ha => homeWrite_wf _ _ _ ha
  · rename_i hx; cases e; exact xlateNow_wf hx h
  · rename_i hx; cases e; exact xlateNow_wf hx h
theorem writeVirt_wf1 (a0 : State) (a1 : ℕ) (a2 : ℕ) (a3 : Word) (a4 : List Byte) (h0 : a0.mem.wf = true) :
    (writeVirt a0 a1 a2 a3 a4).1.mem.wf = true := writeVirt_wf (t := (writeVirt a0 a1 a2 a3 a4).1) (y := (writeVirt a0 a1 a2 a3 a4).2) rfl h0

theorem relocate_wf {s : State} {die ctx : Nat} {image : Word} {l : List (Nat × Nat)} {t} {y}
    (e : relocate s die ctx image l = (t, y)) (h : s.mem.wf = true) : (State.mem t).wf = true := by
  induction l generalizing s with
  | nil => cases e; exact h
  | cons x l ih =>
    unfold relocate at e
    split at e
    · rename_i hx; exact ih e (writeVirt_wf hx h)
    · rename_i hx; cases e; exact writeVirt_wf hx h
theorem relocate_wf1 (a0 : State) (a1 : ℕ) (a2 : ℕ) (a3 : Word) (a4 : List (ℕ × ℕ)) (h0 : a0.mem.wf = true) :
    (relocate a0 a1 a2 a3 a4).1.mem.wf = true := relocate_wf (t := (relocate a0 a1 a2 a3 a4).1) (y := (relocate a0 a1 a2 a3 a4).2) rfl h0

theorem readPages_wf {s : State} {die ctx : Nat} {image : Word} {size : Nat} {rs : List (Nat × Nat)} {strict : Bool} {k m : Nat}
    {acc : List Byte} {t} {y} (e : readPages s die ctx image size rs strict k m acc = (t, y)) (h : s.mem.wf = true) :
    (State.mem t).wf = true := by
  induction m generalizing s k acc with
  | zero => cases e; exact h
  | succ m ih =>
    unfold readPages at e
    dsimp only at e
    split at e
    · exact ih e h
    · split at e
      · rename_i hx; exact ih e (readVirt_wf hx h)
      · rename_i hx
        split at e
        · cases e; exact readVirt_wf hx h
        · exact ih e (readVirt_wf hx h)
theorem readPages_wf1 (a0 : State) (a1 : ℕ) (a2 : ℕ) (a3 : Word) (a4 : ℕ) (a5 : List (ℕ × ℕ)) (a6 : Bool) (a7 : ℕ) (a8 : ℕ) (a9 : List Byte) (h0 : a0.mem.wf = true) :
    (readPages a0 a1 a2 a3 a4 a5 a6 a7 a8 a9).1.mem.wf = true := readPages_wf (t := (readPages a0 a1 a2 a3 a4 a5 a6 a7 a8 a9).1) (y := (readPages a0 a1 a2 a3 a4 a5 a6 a7 a8 a9).2) rfl h0

theorem readPart_wf {a0 : State} {a1 : ℕ} {a2 : ℕ} {a3 : Word} {a4 : List Byte} {a5 : List (ℕ × ℕ)} {a6 : Bool} {t} {y} (e : readPart a0 a1 a2 a3 a4 a5 a6 = (t, y)) (h0 : a0.mem.wf = true) :
    (State.mem t).wf = true := by
  unfold readPart at e
  repeat' (first
    | assumption
    | intro _
    | (apply_assumption; done)
    | with_reducible exact True.intro
    | with_reducible refine readPages_wf (by with_reducible assumption) ?_)
theorem readPart_wf1 (a0 : State) (a1 : ℕ) (a2 : ℕ) (a3 : Word) (a4 : List Byte) (a5 : List (ℕ × ℕ)) (a6 : Bool) (h0 : a0.mem.wf = true) :
    (readPart a0 a1 a2 a3 a4 a5 a6).1.mem.wf = true := readPart_wf (t := (readPart a0 a1 a2 a3 a4 a5 a6).1) (y := (readPart a0 a1 a2 a3 a4 a5 a6).2) rfl h0

theorem readHeader_wf {a0 : State} {a1 : ℕ} {a2 : ℕ} {a3 : Word} {t} {y} (e : readHeader a0 a1 a2 a3 = (t, y)) (h0 : a0.mem.wf = true) :
    (State.mem t).wf = true := by
  unfold readHeader at e
  repeat' (first
    | assumption
    | intro _
    | (apply_assumption; done)
    | with_reducible exact True.intro
    | with_reducible refine readVirt_wf (by with_reducible assumption) ?_
    | with_reducible apply readVirt_wf1
    | with_reducible apply foldl_wf
    | with_reducible apply nextWf_next
    | with_reducible apply nextWf_when
    | (split at e)
    | (simp only [Prod.mk.injEq, Option.some.injEq, reduceCtorEq, and_false, false_and] at e)
    | (obtain ⟨rfl, _⟩ := e))
theorem readHeader_wf1 (a0 : State) (a1 : ℕ) (a2 : ℕ) (a3 : Word) (h0 : a0.mem.wf = true) :
    (readHeader a0 a1 a2 a3).1.mem.wf = true := readHeader_wf (t := (readHeader a0 a1 a2 a3).1) (y := (readHeader a0 a1 a2 a3).2) rfl h0

theorem readTables_wf {a0 : State} {a1 : ℕ} {a2 : ℕ} {a3 : Word} {t} {y} (e : readTables a0 a1 a2 a3 = (t, y)) (h0 : a0.mem.wf = true) :
    (State.mem t).wf = true := by
  unfold readTables at e
  repeat' (first
    | assumption
    | intro _
    | (apply_assumption; done)
    | with_reducible exact True.intro
    | with_reducible refine readPart_wf (by with_reducible assumption) ?_
    | with_reducible apply readPart_wf1
    | with_reducible refine readHeader_wf (by with_reducible assumption) ?_
    | with_reducible apply readHeader_wf1
    | with_reducible apply foldl_wf
    | with_reducible apply nextWf_next
    | with_reducible apply nextWf_when
    | (split at e))
theorem readTables_wf1 (a0 : State) (a1 : ℕ) (a2 : ℕ) (a3 : Word) (h0 : a0.mem.wf = true) :
    (readTables a0 a1 a2 a3).1.mem.wf = true := readTables_wf (t := (readTables a0 a1 a2 a3).1) (y := (readTables a0 a1 a2 a3).2) rfl h0

theorem relocateImage_wf {a0 : State} {a1 : ℕ} {a2 : ℕ} {a3 : Word} {a4 : List Byte} {a5 : ImageInfo} {t} {y} (e : relocateImage a0 a1 a2 a3 a4 a5 = (t, y)) (h0 : a0.mem.wf = true) :
    (State.mem t).wf = true := by
  unfold relocateImage at e
  repeat' (first
    | assumption
    | intro _
    | (apply_assumption; done)
    | with_reducible exact True.intro
    | with_reducible refine writeVirt_wf (by with_reducible assumption) ?_
    | with_reducible apply writeVirt_wf1
    | with_reducible refine relocate_wf (by with_reducible assumption) ?_
    | with_reducible apply relocate_wf1
    | with_reducible apply foldl_wf
    | with_reducible apply nextWf_next
    | with_reducible apply nextWf_when
    | (split at e)
    | (simp only [Prod.mk.injEq, Option.some.injEq, reduceCtorEq, and_false, false_and] at e)
    | (obtain ⟨rfl, _⟩ := e))
theorem relocateImage_wf1 (a0 : State) (a1 : ℕ) (a2 : ℕ) (a3 : Word) (a4 : List Byte) (a5 : ImageInfo) (h0 : a0.mem.wf = true) :
    (relocateImage a0 a1 a2 a3 a4 a5).1.mem.wf = true := relocateImage_wf (t := (relocateImage a0 a1 a2 a3 a4 a5).1) (y := (relocateImage a0 a1 a2 a3 a4 a5).2) rfl h0

theorem firstLoad_fst (s : State) (die ctx tenant : Nat) (image rec_ : Word) (ws : List Word) (tabs : List Byte)
    (h : s.mem.wf = true) : (firstLoad s die ctx tenant image rec_ ws tabs).1.mem.wf = true := by
  unfold firstLoad
  dsimp only
  split
  · rename_i hx; exact readPart_wf hx h
  · rename_i u img hx
    have hu := readPart_wf hx h
    split
    · exact hu
    · have ha : (if (u.tenant tenant).signed = true then readPart u die ctx image tabs [(0, imgSize tabs)] true
          else (u, .ok img)).1.mem.wf = true := by
        split
        · exact readPart_wf1 _ _ _ _ _ _ _ hu
        · exact hu
      generalize (if (u.tenant tenant).signed = true then readPart u die ctx image tabs [(0, imgSize tabs)] true
          else (u, .ok img)) = q at ha
      split
      · exact ha
      · split
        · exact ha
        · split
          · rename_i hy; exact readPart_wf hy ha
          · rename_i hy
            have hv := readPart_wf hy ha
            split
            · exact hv
            · split
              · exact relocateImage_wf1 _ _ _ _ _ _ hv
              · exact hv
theorem firstLoad_wf {s : State} {die ctx tenant : Nat} {image rec_ : Word} {ws : List Word} {tabs : List Byte} {t} {y}
    (e : firstLoad s die ctx tenant image rec_ ws tabs = (t, y)) (h : s.mem.wf = true) : (State.mem t).wf = true := by
  have := firstLoad_fst s die ctx tenant image rec_ ws tabs h
  rwa [e] at this
theorem firstLoad_wf1 (a0 : State) (a1 : ℕ) (a2 : ℕ) (a3 : ℕ) (a4 : Word) (a5 : Word) (a6 : List Word) (a7 : List Byte) (h0 : a0.mem.wf = true) :
    (firstLoad a0 a1 a2 a3 a4 a5 a6 a7).1.mem.wf = true := firstLoad_wf (t := (firstLoad a0 a1 a2 a3 a4 a5 a6 a7).1) (y := (firstLoad a0 a1 a2 a3 a4 a5 a6 a7).2) rfl h0

theorem loadImage_wf {a0 : State} {a1 : ℕ} {a2 : ℕ} {a3 : ℕ} {a4 : Word} {a5 : List Word} {t} {y} (e : loadImage a0 a1 a2 a3 a4 a5 = (t, y)) (h0 : a0.mem.wf = true) :
    (State.mem t).wf = true := by
  unfold loadImage at e
  repeat' (first
    | assumption
    | intro _
    | (apply_assumption; done)
    | with_reducible exact True.intro
    | with_reducible refine readPart_wf (by with_reducible assumption) ?_
    | with_reducible apply readPart_wf1
    | with_reducible refine readHeader_wf (by with_reducible assumption) ?_
    | with_reducible apply readHeader_wf1
    | with_reducible refine firstLoad_wf (by with_reducible assumption) ?_
    | with_reducible apply firstLoad_wf1
    | with_reducible apply foldl_wf
    | with_reducible apply nextWf_next
    | with_reducible apply nextWf_when
    | (split at e)
    | (simp only [Prod.mk.injEq, Option.some.injEq, reduceCtorEq, and_false, false_and] at e)
    | (obtain ⟨rfl, _⟩ := e))
theorem loadImage_wf1 (a0 : State) (a1 : ℕ) (a2 : ℕ) (a3 : ℕ) (a4 : Word) (a5 : List Word) (h0 : a0.mem.wf = true) :
    (loadImage a0 a1 a2 a3 a4 a5).1.mem.wf = true := loadImage_wf (t := (loadImage a0 a1 a2 a3 a4 a5).1) (y := (loadImage a0 a1 a2 a3 a4 a5).2) rfl h0

theorem readArea_wf {a0 : State} {a1 : Inst} {t} {y} (e : readArea a0 a1 = (t, y)) (h0 : a0.mem.wf = true) :
    (State.mem t).wf = true := by
  unfold readArea at e
  repeat' (first
    | assumption
    | intro _
    | (apply_assumption; done)
    | with_reducible exact True.intro
    | with_reducible refine readVirt_wf (by with_reducible assumption) ?_)
theorem readArea_wf1 (a0 : State) (a1 : Inst) (h0 : a0.mem.wf = true) :
    (readArea a0 a1).1.mem.wf = true := readArea_wf (t := (readArea a0 a1).1) (y := (readArea a0 a1).2) rfl h0

theorem serve_wf (a0 : State) (a1 : ℕ) (a2 : ℕ) (a3 : ℕ) (a4 : ℕ) (h0 : a0.mem.wf = true) :
    (serve a0 a1 a2 a3 a4).mem.wf = true := by
  unfold serve
  repeat' (first
    | assumption)

theorem measureTime_wf (a0 : State) (a1 : Word) (h0 : a0.mem.wf = true) :
    (measureTime a0 a1).mem.wf = true := by
  unfold measureTime
  repeat' (first
    | assumption
    | intro _
    | (apply_assumption; done)
    | with_reducible exact True.intro
    | with_reducible apply State.raiseMsix_wf
    | with_reducible apply foldl_wf
    | with_reducible apply nextWf_next
    | with_reducible apply nextWf_when
    | split
    | dsimp only)

theorem execPtpMessage_wf (a0 : Word) (a1 : State) (h1 : a1.mem.wf = true) :
    NextWf (execPtpMessage a0 a1) := by
  unfold execPtpMessage
  repeat' (first
    | assumption
    | intro _
    | (apply_assumption; done)
    | with_reducible exact True.intro
    | with_reducible apply when__wf
    | with_reducible apply measureTime_wf)

theorem execPtmExchange_wf (a0 : ℕ) (a1 : Word) (a2 : State) (h2 : a2.mem.wf = true) :
    NextWf (execPtmExchange a0 a1 a2) := by
  unfold execPtmExchange
  repeat' (first
    | assumption
    | intro _
    | (apply_assumption; done)
    | with_reducible exact True.intro
    | with_reducible apply when__wf
    | with_reducible apply measureTime_wf)

theorem execTimebaseSourceLost_wf (a0 : State) (h0 : a0.mem.wf = true) :
    NextWf (execTimebaseSourceLost a0) := by
  unfold execTimebaseSourceLost
  repeat' (first
    | assumption
    | intro _
    | (apply_assumption; done)
    | with_reducible exact True.intro
    | with_reducible apply State.raiseMsix_wf
    | with_reducible apply when__wf
    | with_reducible apply foldl_wf
    | with_reducible apply nextWf_next
    | with_reducible apply nextWf_when
    | split)

theorem timebaseSrc_wf (a0 : State) (a1 : Word) (h0 : a0.mem.wf = true) :
    (timebaseSrc a0 a1).mem.wf = true := by
  unfold timebaseSrc
  repeat' (first
    | assumption
    | intro _
    | (apply_assumption; done)
    | with_reducible exact True.intro
    | with_reducible apply State.raiseMsix_wf
    | with_reducible apply foldl_wf
    | with_reducible apply nextWf_next
    | with_reducible apply nextWf_when
    | split
    | dsimp only)

theorem ptmoffWrite_wf (a0 : State) (a1 : Word) (h0 : a0.mem.wf = true) :
    (ptmoffWrite a0 a1).mem.wf = true := by
  unfold ptmoffWrite
  repeat' (first
    | assumption)


end Sys2Proof.Machine
end

