-- ==== Sys2Proof/Laws/Keep7.lean ====
section
/-! SUPPORT. The operations and meanings of Machine/Sched, Machine/Firmware, Machine/HostPorts keep memory in its canonical
form: `f_wf` for an operation that answers a state, or a state with a value. -/

set_option maxRecDepth 4000
set_option linter.unusedTactic false
set_option linter.unreachableTactic false
set_option linter.unusedSimpArgs false
set_option linter.unusedVariables false

namespace Sys2Proof.Machine

open Sys2Proof.Bits Sys2Proof.Rows

theorem readRecord_wf {a0 : State} {a1 : ℕ} {a2 : Word} {a3 : Bool} {t} {y} (e : readRecord a0 a1 a2 a3 = (t, y)) (h0 : a0.mem.wf = true) :
    (State.mem t).wf = true := by
  unfold readRecord at e
  repeat' (first
    | assumption
    | intro _
    | (apply_assumption; done)
    | with_reducible exact True.intro
    | with_reducible refine readVirt_wf (by with_reducible assumption) ?_
    | with_reducible apply readVirt_wf1
    | with_reducible apply foldl_wf
    | with_reducible apply nextWf_next
    | with_reducible apply nextWf_when
    | (split at e)
    | (simp only [Prod.mk.injEq, Option.some.injEq, reduceCtorEq, and_false, false_and] at e)
    | (obtain ⟨rfl, _⟩ := e))
theorem readRecord_wf1 (a0 : State) (a1 : ℕ) (a2 : Word) (a3 : Bool) (h0 : a0.mem.wf = true) :
    (readRecord a0 a1 a2 a3).1.mem.wf = true := readRecord_wf (t := (readRecord a0 a1 a2 a3).1) (y := (readRecord a0 a1 a2 a3).2) rfl h0

theorem unqueued_wf {α : Type} {s : State} {f : State → State × α} {t} {y} (e : unqueued s f = (t, y)) (h : s.mem.wf = true)
    (hf : ∀ s t y, f s = (t, y) → s.mem.wf = true → (State.mem t).wf = true) : (State.mem t).wf = true := by
  have := hf { s with walks := [] } (f { s with walks := [] }).1 (f { s with walks := [] }).2 rfl h
  unfold unqueued at e
  simp only [Prod.mk.injEq] at e
  rw [← e.1]
  exact this

theorem writeRecord_wf (a0 : State) (a1 : ℕ) (a2 : Word) (a3 : List Byte) (h0 : a0.mem.wf = true) :
    (writeRecord a0 a1 a2 a3).mem.wf = true := by
  unfold writeRecord
  repeat' (first
    | assumption
    | intro _
    | (apply_assumption; done)
    | with_reducible exact True.intro
    | with_reducible apply State.logFault_wf
    | with_reducible refine writeVirt_wf (by with_reducible assumption) ?_
    | with_reducible apply writeVirt_wf1
    | with_reducible refine unqueued_wf (by with_reducible assumption) ?_ ?_
    | with_reducible apply foldl_wf
    | with_reducible apply nextWf_next
    | with_reducible apply nextWf_when
    | split)

theorem writeState_wf (a0 : State) (a1 : ℕ) (a2 : Word) (a3 : ℕ) (h0 : a0.mem.wf = true) :
    (writeState a0 a1 a2 a3).mem.wf = true := by
  unfold writeState
  repeat' (first
    | assumption
    | intro _
    | (apply_assumption; done)
    | with_reducible exact True.intro
    | with_reducible apply writeRecord_wf)

theorem State.modLaunch_wf (a0 : State) (a1 : ℕ) (a2 : Launch → Launch) (h0 : a0.mem.wf = true) :
    (State.modLaunch a0 a1 a2).mem.wf = true := by
  unfold State.modLaunch
  repeat' (first
    | assumption)

theorem doneEvent_wf (a0 : State) (a1 : Launch) (a2 : ℕ) (a3 : ℕ) (a4 : ℕ) (a5 : Bool) (h0 : a0.mem.wf = true) :
    (doneEvent a0 a1 a2 a3 a4 a5).mem.wf = true := by
  unfold doneEvent
  repeat' (first
    | assumption
    | intro _
    | (apply_assumption; done)
    | with_reducible exact True.intro
    | with_reducible apply State.putBytes_wf
    | with_reducible apply State.logFault_wf
    | with_reducible apply meetFlaws_wf
    | with_reducible refine xlateNow_wf (by with_reducible assumption) ?_
    | with_reducible apply xlateNow_wf1
    | with_reducible apply Firing.fault_wf
    | with_reducible refine barArrive_wf (by with_reducible assumption) ?_
    | with_reducible apply barArrive_wf1
    | with_reducible refine unqueued_wf (by with_reducible assumption) ?_ ?_
    | with_reducible apply foldl_wf
    | with_reducible apply nextWf_next
    | with_reducible apply nextWf_when
    | split
    | dsimp only)

theorem doneArrive_wf (a0 : State) (a1 : Launch) (a2 : ℕ) (a3 : ℕ) (a4 : ℕ) (h0 : a0.mem.wf = true) :
    (doneArrive a0 a1 a2 a3 a4).mem.wf = true := by
  unfold doneArrive
  repeat' (first
    | assumption
    | intro _
    | (apply_assumption; done)
    | with_reducible exact True.intro
    | with_reducible apply doneEvent_wf)

theorem doneStatus_wf (a0 : State) (a1 : Launch) (a2 : ℕ) (a3 : ℕ) (a4 : ℕ) (h0 : a0.mem.wf = true) :
    (doneStatus a0 a1 a2 a3 a4).mem.wf = true := by
  unfold doneStatus
  repeat' (first
    | assumption
    | intro _
    | (apply_assumption; done)
    | with_reducible exact True.intro
    | with_reducible apply doneEvent_wf)

theorem arriveTimes_wf (s : State) (l : Launch) (code n : Nat) (h : s.mem.wf = true) : (arriveTimes s l code n).mem.wf = true := by
  induction n generalizing s with
  | zero => exact h
  | succ n ih => exact ih _ (doneArrive_wf _ _ _ _ _ h)

theorem tablePush_wf (a0 : State) (a1 : ℕ) (h0 : a0.mem.wf = true) :
    (tablePush a0 a1).mem.wf = true := by
  unfold tablePush
  repeat' (first
    | assumption
    | intro _
    | (apply_assumption; done)
    | with_reducible exact True.intro
    | with_reducible apply foldl_wf
    | with_reducible apply nextWf_next
    | with_reducible apply nextWf_when
    | split)

theorem deferredPush_wf (a0 : State) (a1 : ℕ) (h0 : a0.mem.wf = true) :
    (deferredPush a0 a1).mem.wf = true := by
  unfold deferredPush
  repeat' (first
    | assumption
    | intro _
    | (apply_assumption; done)
    | with_reducible exact True.intro
    | with_reducible apply tablePush_wf
    | with_reducible apply foldl_wf
    | with_reducible apply nextWf_next
    | with_reducible apply nextWf_when
    | split)

theorem settleEntry_wf (s : State) (e : Nat) (h : s.mem.wf = true) : (settleEntry s e).mem.wf = true := by
  unfold settleEntry
  split
  · exact h
  · exact deferredPush_wf s e h

theorem finishLaunch_wf (s : State) (k : Nat) (l : Launch) (die : Nat) (h : s.mem.wf = true) :
    (finishLaunch s k l die).mem.wf = true := by
  unfold finishLaunch
  have h1 := ite_wf (recOnce l.words = true) _ _ (doneArrive_wf s l l.status.toNat l.retries l.lastFault h) h
  generalize (if recOnce l.words = true then doneArrive s l l.status.toNat l.retries l.lastFault else s) = s1 at h1 ⊢
  dsimp only
  have h2 := ite_wf ((!l.faulted && recSucc l.words != 0) = true)
    { s1 with pushes := s1.pushes ++ [⟨.succ, l.ctx, recSucc l.words, false, die⟩] } s1 h1 h1
  generalize (if (!l.faulted && recSucc l.words != 0) = true then
    { s1 with pushes := s1.pushes ++ [⟨.succ, l.ctx, recSucc l.words, false, die⟩] } else s1) = s2 at h2 ⊢
  have h3 := ite_wf (l.refused = true) _ _ h2 (writeState_wf s2 l.ctx l.addr (if l.faulted then 0x03 else 0x02) h2)
  generalize (if l.refused = true then s2 else writeState s2 l.ctx l.addr (if l.faulted then 0x03 else 0x02)) = s3 at h3 ⊢
  cases l.table with
  | none => exact h3
  | some e => exact ite_wf _ _ _ h3 (deferredPush_wf _ _ h3)

theorem checkFinished_wf (a0 : State) (a1 : ℕ) (a2 : ℕ) (h0 : a0.mem.wf = true) :
    (checkFinished a0 a1 a2).mem.wf = true := by
  unfold checkFinished
  repeat' (first
    | assumption
    | intro _
    | (apply_assumption; done)
    | with_reducible exact True.intro
    | with_reducible apply finishLaunch_wf
    | with_reducible apply foldl_wf
    | with_reducible apply nextWf_next
    | with_reducible apply nextWf_when
    | split)

theorem refuseLaunch_wf (s : State) (k status : Nat) (h : s.mem.wf = true) : (refuseLaunch s k status).mem.wf = true := by
  unfold refuseLaunch
  split
  · exact h
  · rename_i l _
    have h1 := writeState_wf s l.ctx l.addr status h
    dsimp only
    generalize writeState s l.ctx l.addr status = s1 at h1 ⊢
    generalize instances l.words - l.next = left
    have h2 : (if 0x40 ≤ status ∧ status ≠ 0x43 then s1.logFault status l.ctx l.tenant l.die 0 l.inst0 l.addr.toNat 0
        else s1).mem.wf = true := by
      split
      · exact State.logFault_wf _ _ _ _ _ _ _ _ _ h1
      · exact h1
    generalize (if 0x40 ≤ status ∧ status ≠ 0x43 then s1.logFault status l.ctx l.tenant l.die 0 l.inst0 l.addr.toNat 0
        else s1) = s2 at h2 ⊢
    have h3 : (if recOnce l.words then s2 else arriveTimes s2 l status left).mem.wf = true := by
      split
      · exact h2
      · exact arriveTimes_wf _ _ _ _ h2
    generalize (if recOnce l.words then s2 else arriveTimes s2 l status left) = s3 at h3 ⊢
    refine checkFinished_wf _ _ _ ?_
    split
    · exact deferredPush_wf _ _ (State.modLaunch_wf _ _ _ h3)
    · exact State.modLaunch_wf _ _ _ h3

theorem queueRecord_wf {s : State} {ctx : Nat} {addr : Word} {die : Nat} {ws : List Word} {table : Option Nat} {t} {y}
    (e : queueRecord s ctx addr die ws table = (t, y)) (h : s.mem.wf = true) : (State.mem t).wf = true := by
  have e' := congrArg (fun x : State × Nat × Nat => x.1.mem.wf) e
  dsimp only at e'
  rw [← e']
  unfold queueRecord
  have h1 : s.takeFresh.2.mem.wf = true := h
  generalize s.takeFresh = p at h1 ⊢
  dsimp only
  have hw := fun a bs u hu => writeRecord_wf (State.note u (.accept p.1)) ctx a bs (State.note_wf u _ hu)
  exact ite_wf _ _ _ (refuseLaunch_wf _ _ _ (hw _ _ _ h1)) (hw _ _ _ h1)
theorem queueRecord_wf1 (a0 : State) (a1 : ℕ) (a2 : Word) (a3 : ℕ) (a4 : List Word) (a5 : Option ℕ) (h0 : a0.mem.wf = true) :
    (queueRecord a0 a1 a2 a3 a4 a5).1.mem.wf = true := queueRecord_wf (t := (queueRecord a0 a1 a2 a3 a4 a5).1) (y := (queueRecord a0 a1 a2 a3 a4 a5).2) rfl h0

theorem acceptRecordWords_wf {a0 : State} {a1 : ℕ} {a2 : Word} {a3 : ℕ} {a4 : List Word} {a5 : Option ℕ} {a6 : Option ℕ} {t} {y} (e : acceptRecordWords a0 a1 a2 a3 a4 a5 a6 = (t, y)) (h0 : a0.mem.wf = true) :
    (State.mem t).wf = true := by
  unfold acceptRecordWords at e
  repeat' (first
    | assumption
    | intro _
    | (apply_assumption; done)
    | with_reducible exact True.intro
    | with_reducible apply writeState_wf
    | with_reducible refine queueRecord_wf (by with_reducible assumption) ?_
    | with_reducible apply queueRecord_wf1
    | with_reducible apply foldl_wf
    | with_reducible apply nextWf_next
    | with_reducible apply nextWf_when
    | (split at e)
    | (simp only [Prod.mk.injEq, Option.some.injEq, reduceCtorEq, and_false, false_and] at e)
    | (obtain ⟨rfl, _⟩ := e))
theorem acceptRecordWords_wf1 (a0 : State) (a1 : ℕ) (a2 : Word) (a3 : ℕ) (a4 : List Word) (a5 : Option ℕ) (a6 : Option ℕ) (h0 : a0.mem.wf = true) :
    (acceptRecordWords a0 a1 a2 a3 a4 a5 a6).1.mem.wf = true := acceptRecordWords_wf (t := (acceptRecordWords a0 a1 a2 a3 a4 a5 a6).1) (y := (acceptRecordWords a0 a1 a2 a3 a4 a5 a6).2) rfl h0

theorem acceptPush_wf (a0 : State) (a1 : Push) (h0 : a0.mem.wf = true) :
    (acceptPush a0 a1).mem.wf = true := by
  unfold acceptPush
  repeat' (first
    | assumption
    | intro _
    | (apply_assumption; done)
    | with_reducible exact True.intro
    | with_reducible apply State.logFault_wf
    | with_reducible refine readRecord_wf (by with_reducible assumption) ?_
    | with_reducible apply readRecord_wf1
    | with_reducible apply settleEntry_wf
    | with_reducible refine acceptRecordWords_wf (by with_reducible assumption) ?_
    | with_reducible apply acceptRecordWords_wf1
    | with_reducible apply foldl_wf
    | with_reducible apply nextWf_next
    | with_reducible apply nextWf_when
    | split)

theorem acceptCtl_wf (a0 : State) (a1 : ℕ) (a2 : ℕ) (a3 : Push) (h0 : a0.mem.wf = true) :
    (acceptCtl a0 a1 a2 a3).mem.wf = true := by
  unfold acceptCtl
  repeat' (first
    | assumption
    | intro _
    | (apply_assumption; done)
    | with_reducible exact True.intro
    | with_reducible apply bindBlock_wf
    | with_reducible apply answer_wf
    | with_reducible apply refuseEither_wf
    | with_reducible refine readRecord_wf (by with_reducible assumption) ?_
    | with_reducible apply readRecord_wf1
    | with_reducible refine acceptRecordWords_wf (by with_reducible assumption) ?_
    | with_reducible apply acceptRecordWords_wf1
    | with_reducible apply foldl_wf
    | with_reducible apply nextWf_next
    | with_reducible apply nextWf_when
    | split
    | dsimp only)

theorem execLaunchAccept_wf (a0 : ℕ) (a1 : State) (h1 : a1.mem.wf = true) :
    NextWf (execLaunchAccept a0 a1) := by
  unfold execLaunchAccept
  repeat' (first
    | assumption
    | intro _
    | (apply_assumption; done)
    | with_reducible exact True.intro
    | with_reducible apply acceptPush_wf
    | with_reducible apply acceptCtl_wf
    | with_reducible apply foldl_wf
    | with_reducible apply nextWf_next
    | with_reducible apply nextWf_when
    | split)

theorem execLaunch_wf (a0 : EOp) (a1 : State) (h1 : a1.mem.wf = true) :
    NextWf (execLaunch a0 a1) := by
  unfold execLaunch
  repeat' (first
    | assumption
    | intro _
    | (apply_assumption; done)
    | with_reducible exact True.intro
    | with_reducible apply fireOp_wf
    | with_reducible apply putRequest_wf
    | with_reducible refine slotXlate_ok (e := by with_reducible assumption) ?_
    | with_reducible refine slotXlate_stop (e := by with_reducible assumption) ?_
    | with_reducible apply foldl_wf
    | with_reducible apply nextWf_next
    | with_reducible apply nextWf_when
    | split)

theorem execImageLoad_wf (a0 : ℕ) (a1 : State) (h1 : a1.mem.wf = true) :
    NextWf (execImageLoad a0 a1) := by
  unfold execImageLoad
  repeat' (first
    | assumption
    | intro _
    | (apply_assumption; done)
    | with_reducible exact True.intro
    | with_reducible apply State.logFault_wf
    | with_reducible refine loadImage_wf (by with_reducible assumption) ?_
    | with_reducible apply loadImage_wf1
    | with_reducible apply State.modLaunch_wf
    | with_reducible apply refuseLaunch_wf
    | with_reducible apply step_wf
    | with_reducible apply foldl_wf
    | with_reducible apply nextWf_next
    | with_reducible apply nextWf_when
    | split)

theorem createChan_wf {s : State} {i ctx core : Nat} {d : Word × List Word} {t} {y}
    (e : createChan s i ctx core d = some (t, y)) (h : s.mem.wf = true) : (State.mem t).wf = true := by
  unfold createChan at e
  dsimp only at e
  split at e
  · cases e
  · rw [Option.map_eq_some_iff] at e
    obtain ⟨c, -, hc⟩ := e
    cases hc
    exact h

theorem createChans_wf {i ctx core : Nat} {s : State} {l : List (Word × List Word)} {t : State}
    (e : createChans i ctx core s l = some t) (h : s.mem.wf = true) : (State.mem t).wf = true := by
  unfold createChans at e
  suffices ∀ o : Option State, (∀ u, o = some u → u.mem.wf = true) → ∀ u,
      l.foldl (fun o d => o.bind fun s => (createChan s i ctx core d).map fun x =>
        writeRecord x.1 ctx d.1 (Bits.leBytes 8 x.2.toNat)) o = some u → u.mem.wf = true by
    exact this (some s) (fun u hu => Option.some.inj hu ▸ h) t e
  clear e
  induction l with
  | nil => exact fun o ho u hu => ho u hu
  | cons d l ih =>
    intro o ho u hu
    refine ih _ ?_ u hu
    intro v hv
    cases o with
    | none => cases hv
    | some w =>
      simp only [Option.bind_some, Option.map_eq_some_iff] at hv
      obtain ⟨q, hq, rfl⟩ := hv
      exact writeRecord_wf _ _ _ _ (createChan_wf (t := q.1) (y := q.2) hq (ho w rfl))

theorem freshFes_wf (a0 : State) (a1 : Rect) (h0 : a0.mem.wf = true) :
    (freshFes a0 a1).mem.wf = true := by
  unfold freshFes
  repeat' (first
    | assumption
    | intro _
    | (apply_assumption; done)
    | with_reducible exact True.intro
    | with_reducible apply State.modFe_wf
    | with_reducible apply foldl_wf)

theorem sendItem_wf (s : State) (n : Inst) (info : ImageInfo) (core kind id : Nat) (h : s.mem.wf = true) :
    (sendItem s n info core kind id).mem.wf = true := by
  unfold sendItem
  split
  · rename_i hx; exact keepItem_wf _ _ _ _ _ _ (searchSecs_wf hx h)
  · rename_i hx; exact searchSecs_wf hx h

theorem sendSet_wf (s : State) (n : Inst) (info : ImageInfo) (r : Rect) (id : Nat) (h : s.mem.wf = true) :
    (sendSet s n info r id).mem.wf = true := by
  unfold sendSet
  split
  · rename_i hx
    have h1 := itemAddr_wf hx h
    split
    · rename_i hy
      refine foldl_wf _ _ _ (fillItem_wf hy h1) fun s core hs => ?_
      split
      · exact hs
      · exact foldl_wf _ _ _ (keepItem_wf _ _ _ _ _ _ hs) fun s c hs => sendItem_wf _ _ _ _ _ _ hs
    · rename_i hy; exact fillItem_wf hy h1
  · rename_i hx; exact itemAddr_wf hx h

theorem sendSets_wf (a0 : State) (a1 : Inst) (a2 : ImageInfo) (a3 : Spot) (h0 : a0.mem.wf = true) :
    (sendSets a0 a1 a2 a3).mem.wf = true := by
  unfold sendSets
  repeat' (first
    | assumption
    | intro _
    | (apply_assumption; done)
    | with_reducible exact True.intro
    | with_reducible apply sendSet_wf
    | with_reducible apply foldl_wf
    | with_reducible apply nextWf_next
    | with_reducible apply nextWf_when
    | split)

theorem startInst_wf {a0 : State} {a1 : ℕ} {a2 : Launch} {a3 : ℕ} {a4 : Spot} {t : State} (e : startInst a0 a1 a2 a3 a4 = some t) (h0 : a0.mem.wf = true) :
    (State.mem t).wf = true := by
  unfold startInst at e
  repeat' (first
    | assumption
    | intro _
    | (apply_assumption; done)
    | with_reducible exact True.intro
    | with_reducible apply State.modCore_wf
    | with_reducible refine State.takeFresh_wf (by with_reducible assumption) ?_
    | with_reducible apply State.takeFresh_wf2
    | with_reducible apply State.note_wf
    | with_reducible apply Firing.note_wf
    | with_reducible apply State.modLaunch_wf
    | with_reducible refine createChans_wf (by with_reducible assumption) ?_
    | with_reducible apply freshFes_wf
    | with_reducible apply sendSets_wf
    | with_reducible apply foldl_wf
    | with_reducible apply nextWf_next
    | with_reducible apply nextWf_when
    | (split at e))

theorem startUnit_wf {k : Nat} {l : Launch} {s : State} {q : Nat} {ps : List Spot} {t : State}
    (e : startUnit k l s q ps = some t) (h : s.mem.wf = true) : (State.mem t).wf = true := by
  induction ps generalizing s q with
  | nil => cases e; exact h
  | cons p ps ih =>
    unfold startUnit at e
    split at e
    · cases e
    · rename_i hx; exact ih e (startInst_wf hx h)

theorem placeUnit_wf (a0 : State) (a1 : ℕ) (a2 : Launch) (h0 : a0.mem.wf = true) :
    (placeUnit a0 a1 a2).mem.wf = true := by
  unfold placeUnit
  repeat' (first
    | assumption
    | intro _
    | (apply_assumption; done)
    | with_reducible exact True.intro
    | with_reducible apply commandAll_wf
    | with_reducible apply serve_wf
    | with_reducible apply writeState_wf
    | with_reducible apply refuseLaunch_wf
    | with_reducible refine startUnit_wf (by with_reducible assumption) ?_
    | with_reducible apply foldl_wf
    | with_reducible apply nextWf_next
    | with_reducible apply nextWf_when
    | split
    | dsimp only)

theorem execInstancePlace_wf (a0 : ℕ) (a1 : State) (h1 : a1.mem.wf = true) :
    NextWf (execInstancePlace a0 a1) := by
  unfold execInstancePlace
  repeat' (first
    | assumption
    | intro _
    | (apply_assumption; done)
    | with_reducible exact True.intro
    | with_reducible apply placeUnit_wf
    | with_reducible apply foldl_wf
    | with_reducible apply nextWf_next
    | with_reducible apply nextWf_when
    | split)

theorem releaseFes_wf (a0 : State) (a1 : List ℕ) (h0 : a0.mem.wf = true) :
    (releaseFes a0 a1).mem.wf = true := by
  unfold releaseFes
  repeat' (first
    | assumption
    | intro _
    | (apply_assumption; done)
    | with_reducible exact True.intro
    | with_reducible apply State.modFe_wf
    | with_reducible apply foldl_wf)

theorem endBorrow_wf (a0 : State) (a1 : Inst) (h0 : a0.mem.wf = true) :
    (endBorrow a0 a1).mem.wf = true := by
  unfold endBorrow
  repeat' (first
    | assumption
    | intro _
    | (apply_assumption; done)
    | with_reducible exact True.intro
    | with_reducible apply foldl_wf
    | with_reducible apply nextWf_next
    | with_reducible apply nextWf_when
    | split)

theorem removeInst_wf (a0 : State) (a1 : ℕ) (a2 : Inst) (h0 : a0.mem.wf = true) :
    (removeInst a0 a1 a2).mem.wf = true := by
  unfold removeInst
  repeat' (first
    | assumption
    | intro _
    | (apply_assumption; done)
    | with_reducible exact True.intro
    | with_reducible apply releaseFes_wf
    | with_reducible apply endBorrow_wf
    | with_reducible apply foldl_wf
    | with_reducible apply nextWf_next
    | with_reducible apply nextWf_when
    | split)

theorem arriveInst_wf (a0 : State) (a1 : ℕ) (h0 : a0.mem.wf = true) :
    (arriveInst a0 a1).mem.wf = true := by
  unfold arriveInst
  repeat' (first
    | assumption
    | intro _
    | (apply_assumption; done)
    | with_reducible exact True.intro
    | with_reducible apply State.modLaunch_wf
    | with_reducible apply doneArrive_wf
    | with_reducible apply checkFinished_wf
    | with_reducible apply removeInst_wf
    | with_reducible apply foldl_wf
    | with_reducible apply nextWf_next
    | with_reducible apply nextWf_when
    | split)

theorem execDoneArrival_wf (a0 : ℕ) (a1 : State) (h1 : a1.mem.wf = true) :
    NextWf (execDoneArrival a0 a1) := by
  unfold execDoneArrival
  repeat' (first
    | assumption
    | intro _
    | (apply_assumption; done)
    | with_reducible exact True.intro
    | with_reducible apply arriveInst_wf
    | with_reducible apply foldl_wf
    | with_reducible apply nextWf_next
    | with_reducible apply nextWf_when
    | split)

theorem dropRequests_wf (a0 : State) (a1 : ℕ) (h0 : a0.mem.wf = true) :
    (dropRequests a0 a1).mem.wf = true := by
  unfold dropRequests
  repeat' (first
    | assumption)

theorem dropRestore_wf (a0 : State) (a1 : ℕ) (h0 : a0.mem.wf = true) :
    (dropRestore a0 a1).mem.wf = true := by
  unfold dropRestore
  repeat' (first
    | assumption)

theorem resetHeader_wf (a0 : State) (a1 : Inst) (h0 : a0.mem.wf = true) :
    (resetHeader a0 a1).mem.wf = true := by
  unfold resetHeader
  repeat' (first
    | assumption
    | intro _
    | (apply_assumption; done)
    | with_reducible exact True.intro
    | with_reducible apply writeRecord_wf
    | with_reducible apply foldl_wf
    | with_reducible apply nextWf_next
    | with_reducible apply nextWf_when
    | split)

theorem resetInst_wf (a0 : State) (a1 : ℕ) (h0 : a0.mem.wf = true) :
    (resetInst a0 a1).mem.wf = true := by
  unfold resetInst
  repeat' (first
    | assumption
    | intro _
    | (apply_assumption; done)
    | with_reducible exact True.intro
    | with_reducible apply State.modInst_wf
    | with_reducible apply stopRegion_wf
    | with_reducible apply discardBlock_wf
    | with_reducible apply releaseFes_wf
    | with_reducible apply dropRequests_wf
    | with_reducible apply dropRestore_wf
    | with_reducible apply resetHeader_wf
    | with_reducible apply foldl_wf
    | with_reducible apply nextWf_next
    | with_reducible apply nextWf_when
    | split
    | dsimp only)

theorem beginReset_wf {a0 : State} {a1 : ℕ} {a2 : ℕ} {a3 : ℕ} {a4 : List ℕ} {a5 : List ℕ} {a6 : List ℕ} {a7 : Option ℕ} {t} {y} (e : beginReset a0 a1 a2 a3 a4 a5 a6 a7 = (t, y)) (h0 : a0.mem.wf = true) :
    (State.mem t).wf = true := by
  unfold beginReset at e
  repeat' (first
    | assumption
    | intro _
    | (apply_assumption; done)
    | with_reducible exact True.intro
    | with_reducible apply State.note_wf
    | with_reducible apply commandAll_wf
    | with_reducible apply Firing.note_wf
    | with_reducible apply resetInst_wf
    | with_reducible apply foldl_wf
    | with_reducible apply nextWf_next
    | with_reducible apply nextWf_when
    | (split at e)
    | (simp only [Prod.mk.injEq, Option.some.injEq, reduceCtorEq, and_false, false_and] at e)
    | (obtain ⟨rfl, _⟩ := e))
theorem beginReset_wf1 (a0 : State) (a1 : ℕ) (a2 : ℕ) (a3 : ℕ) (a4 : List ℕ) (a5 : List ℕ) (a6 : List ℕ) (a7 : Option ℕ) (h0 : a0.mem.wf = true) :
    (beginReset a0 a1 a2 a3 a4 a5 a6 a7).1.mem.wf = true := beginReset_wf (t := (beginReset a0 a1 a2 a3 a4 a5 a6 a7).1) (y := (beginReset a0 a1 a2 a3 a4 a5 a6 a7).2) rfl h0

theorem startReset_wf {a0 : State} {a1 : ℕ} {a2 : ℕ} {a3 : ℕ} {a4 : Option ℕ} {t} {y} (e : startReset a0 a1 a2 a3 a4 = (t, y)) (h0 : a0.mem.wf = true) :
    (State.mem t).wf = true := by
  unfold startReset at e
  repeat' (first
    | assumption
    | intro _
    | (apply_assumption; done)
    | with_reducible exact True.intro
    | with_reducible refine beginReset_wf (by with_reducible assumption) ?_
    | with_reducible apply beginReset_wf1
    | with_reducible apply foldl_wf
    | with_reducible apply nextWf_next
    | with_reducible apply nextWf_when
    | (split at e)
    | (simp only [Prod.mk.injEq, Option.some.injEq, reduceCtorEq, and_false, false_and] at e)
    | (obtain ⟨rfl, _⟩ := e))
theorem startReset_wf1 (a0 : State) (a1 : ℕ) (a2 : ℕ) (a3 : ℕ) (a4 : Option ℕ) (h0 : a0.mem.wf = true) :
    (startReset a0 a1 a2 a3 a4).1.mem.wf = true := startReset_wf (t := (startReset a0 a1 a2 a3 a4).1) (y := (startReset a0 a1 a2 a3 a4).2) rfl h0

theorem execQreset_wf (a0 : EOp) (a1 : State) (h1 : a1.mem.wf = true) :
    NextWf (execQreset a0 a1) := by
  unfold execQreset
  repeat' (first
    | assumption
    | intro _
    | (apply_assumption; done)
    | with_reducible exact True.intro
    | with_reducible apply State.modCtl_wf
    | with_reducible apply State.modSlot_wf
    | with_reducible apply fireOp_wf
    | with_reducible apply Firing.done_wf
    | with_reducible apply bindBlock_wf
    | with_reducible refine startReset_wf (by with_reducible assumption) ?_
    | with_reducible apply startReset_wf1
    | with_reducible apply foldl_wf
    | with_reducible apply nextWf_next
    | with_reducible apply nextWf_when
    | split
    | dsimp only)

theorem readyTokens_wf (a0 : State) (a1 : ℕ) (h0 : a0.mem.wf = true) :
    (readyTokens a0 a1).mem.wf = true := by
  unfold readyTokens
  repeat' (first
    | assumption
    | intro _
    | (apply_assumption; done)
    | with_reducible exact True.intro
    | with_reducible apply State.modChan_wf
    | with_reducible apply settleChan_wf
    | with_reducible apply foldl_wf)

theorem dropLoads_wf (a0 : State) (a1 : XtLoad → Bool) (h0 : a0.mem.wf = true) :
    (dropLoads a0 a1).mem.wf = true := by
  unfold dropLoads
  repeat' (first
    | assumption)

theorem dropInFlight_wf (a0 : State) (a1 : ℕ) (h0 : a0.mem.wf = true) :
    (dropInFlight a0 a1).mem.wf = true := by
  unfold dropInFlight
  repeat' (first
    | assumption
    | intro _
    | (apply_assumption; done)
    | with_reducible exact True.intro
    | with_reducible apply dropWalks_wf
    | with_reducible apply dropRecord_wf
    | with_reducible apply readyTokens_wf
    | with_reducible apply dropLoads_wf
    | with_reducible apply foldl_wf)

theorem dropQueue_wf (a0 : State) (a1 : Reset) (h0 : a0.mem.wf = true) :
    (dropQueue a0 a1).mem.wf = true := by
  unfold dropQueue
  repeat' (first
    | assumption
    | intro _
    | (apply_assumption; done)
    | with_reducible exact True.intro
    | with_reducible apply dropRecord_wf
    | with_reducible apply dropLoads_wf
    | with_reducible apply foldl_wf)

theorem resetUnplaced_wf (a0 : State) (a1 : ℕ) (h0 : a0.mem.wf = true) :
    (resetUnplaced a0 a1).mem.wf = true := by
  unfold resetUnplaced
  repeat' (first
    | assumption
    | intro _
    | (apply_assumption; done)
    | with_reducible exact True.intro
    | with_reducible apply State.modLaunch_wf
    | with_reducible apply arriveTimes_wf
    | with_reducible apply checkFinished_wf
    | with_reducible apply foldl_wf
    | with_reducible apply nextWf_next
    | with_reducible apply nextWf_when
    | split)

theorem reportReset_wf (a0 : State) (a1 : ℕ) (a2 : ℕ) (h0 : a0.mem.wf = true) :
    (reportReset a0 a1 a2).mem.wf = true := by
  unfold reportReset
  repeat' (first
    | assumption
    | intro _
    | (apply_assumption; done)
    | with_reducible exact True.intro
    | with_reducible apply State.modInst_wf
    | with_reducible apply State.modCtl_wf
    | with_reducible apply postEvent_wf
    | with_reducible apply foldl_wf
    | with_reducible apply nextWf_next
    | with_reducible apply nextWf_when
    | split)

theorem execQueueResetComplete_wf (a0 : ℕ) (a1 : State) (h1 : a1.mem.wf = true) :
    NextWf (execQueueResetComplete a0 a1) := by
  unfold execQueueResetComplete
  repeat' (first
    | assumption
    | intro _
    | (apply_assumption; done)
    | with_reducible exact True.intro
    | with_reducible apply tablePush_wf
    | with_reducible apply arriveInst_wf
    | with_reducible apply resetInst_wf
    | with_reducible apply dropInFlight_wf
    | with_reducible apply dropQueue_wf
    | with_reducible apply resetUnplaced_wf
    | with_reducible apply reportReset_wf
    | with_reducible apply foldl_wf
    | with_reducible apply nextWf_next
    | with_reducible apply nextWf_when
    | split)

theorem armEntry_wf (a0 : State) (a1 : ℕ) (a2 : Word) (h0 : a0.mem.wf = true) :
    (armEntry a0 a1 a2).mem.wf = true := by
  unfold armEntry
  repeat' (first
    | assumption
    | intro _
    | (apply_assumption; done)
    | with_reducible exact True.intro
    | with_reducible apply State.logFault_wf
    | with_reducible apply foldl_wf
    | with_reducible apply nextWf_next
    | with_reducible apply nextWf_when
    | split
    | dsimp only)

theorem disarmEntry_wf (a0 : State) (a1 : ℕ) (a2 : Word) (h0 : a0.mem.wf = true) :
    (disarmEntry a0 a1 a2).mem.wf = true := by
  unfold disarmEntry
  repeat' (first
    | assumption)

theorem replaceReset_wf (a0 : State) (a1 : ℕ) (h0 : a0.mem.wf = true) :
    (replaceReset a0 a1).mem.wf = true := by
  unfold replaceReset
  repeat' (first
    | assumption
    | intro _
    | (apply_assumption; done)
    | with_reducible exact True.intro
    | with_reducible refine beginReset_wf (by with_reducible assumption) ?_
    | with_reducible apply beginReset_wf1
    | with_reducible apply foldl_wf
    | with_reducible apply nextWf_next
    | with_reducible apply nextWf_when
    | split)

theorem overrun_wf (a0 : State) (a1 : ℕ) (a2 : LtEntry) (h0 : a0.mem.wf = true) :
    (overrun a0 a1 a2).mem.wf = true := by
  unfold overrun
  repeat' (first
    | assumption
    | intro _
    | (apply_assumption; done)
    | with_reducible exact True.intro
    | with_reducible apply State.raiseMsix_wf
    | with_reducible apply replaceReset_wf
    | with_reducible apply foldl_wf
    | with_reducible apply nextWf_next
    | with_reducible apply nextWf_when
    | split)

theorem execLaunchTableFire_wf (a0 : ℕ) (a1 : State) (h1 : a1.mem.wf = true) :
    NextWf (execLaunchTableFire a0 a1) := by
  unfold execLaunchTableFire
  repeat' (first
    | assumption
    | intro _
    | (apply_assumption; done)
    | with_reducible exact True.intro
    | with_reducible apply tablePush_wf
    | with_reducible apply overrun_wf
    | with_reducible apply State.at_wf
    | with_reducible apply foldl_wf
    | with_reducible apply nextWf_next
    | with_reducible apply nextWf_when
    | split)

theorem trainLink_wf (a0 : State) (a1 : ℕ × BitVec 64) (h0 : a0.mem.wf = true) :
    (trainLink a0 a1).mem.wf = true := by
  unfold trainLink
  repeat' (first
    | assumption
    | intro _
    | (apply_assumption; done)
    | with_reducible exact True.intro
    | with_reducible apply State.modLink_wf
    | with_reducible apply foldl_wf
    | with_reducible apply nextWf_next
    | with_reducible apply nextWf_when
    | split)

theorem broughtUp_wf (a0 : State) (a1 : BringUpInput) (h0 : a0.mem.wf = true) :
    (broughtUp a0 a1).mem.wf = true := by
  unfold broughtUp
  repeat' (first
    | assumption
    | intro _
    | (apply_assumption; done)
    | with_reducible exact True.intro
    | with_reducible apply rollback_wf
    | with_reducible apply trainLink_wf
    | with_reducible apply foldl_wf)

theorem execBringUp_wf (a0 : BringUpInput) (a1 : State) (h1 : a1.mem.wf = true) :
    NextWf (execBringUp a0 a1) := by
  unfold execBringUp
  repeat' (first
    | assumption
    | intro _
    | (apply_assumption; done)
    | with_reducible exact True.intro
    | with_reducible apply broughtUp_wf
    | with_reducible apply foldl_wf
    | with_reducible apply nextWf_next
    | with_reducible apply nextWf_when
    | split)

theorem execContextCreate_wf (a0 : BitVec 8) (a1 : CtxDesc) (a2 : State) (h2 : a2.mem.wf = true) :
    NextWf (execContextCreate a0 a1 a2) := by
  unfold execContextCreate
  repeat' (first
    | assumption
    | intro _
    | (apply_assumption; done)
    | with_reducible exact True.intro
    | with_reducible apply foldl_wf
    | with_reducible apply nextWf_next
    | with_reducible apply nextWf_when
    | split)

theorem forgetCtx_wf (a0 : State) (a1 : ℕ) (h0 : a0.mem.wf = true) :
    (forgetCtx a0 a1).mem.wf = true := by
  unfold forgetCtx
  repeat' (first
    | assumption)

theorem execContextDestroy_wf (a0 : BitVec 8) (a1 : State) (h1 : a1.mem.wf = true) :
    NextWf (execContextDestroy a0 a1) := by
  unfold execContextDestroy
  repeat' (first
    | assumption
    | intro _
    | (apply_assumption; done)
    | with_reducible exact True.intro
    | with_reducible apply destroyChan_wf
    | with_reducible apply dropRecord_wf
    | with_reducible apply dropLoads_wf
    | with_reducible apply forgetCtx_wf
    | with_reducible apply foldl_wf
    | with_reducible apply nextWf_next
    | with_reducible apply nextWf_when)

theorem watWrite_wf (a0 : State) (a1 : ℕ) (a2 : ℕ) (a3 : Bool) (a4 : ℕ) (a5 : ℕ) (h0 : a0.mem.wf = true) :
    (watWrite a0 a1 a2 a3 a4 a5).mem.wf = true := by
  unfold watWrite
  repeat' (first
    | assumption
    | intro _
    | (apply_assumption; done)
    | with_reducible exact True.intro
    | with_reducible apply homeWrite_wf)

theorem setReserve_wf (a0 : State) (a1 : ℕ) (a2 : ℕ) (a3 : ℕ) (a4 : ℕ) (h0 : a0.mem.wf = true) :
    (setReserve a0 a1 a2 a3 a4).mem.wf = true := by
  unfold setReserve
  repeat' (first
    | assumption
    | intro _
    | (apply_assumption; done)
    | with_reducible exact True.intro
    | with_reducible apply foldl_wf
    | with_reducible apply nextWf_next
    | with_reducible apply nextWf_when
    | split)

theorem grant_wf (a0 : State) (a1 : Grant) (h0 : a0.mem.wf = true) :
    (grant a0 a1).mem.wf = true := by
  unfold grant
  repeat' (first
    | assumption
    | intro _
    | (apply_assumption; done)
    | with_reducible exact True.intro
    | with_reducible apply State.modCore_wf
    | with_reducible apply State.modDie_wf
    | with_reducible apply State.modTenant_wf
    | with_reducible apply State.modChan_wf
    | with_reducible apply State.modSem_wf
    | with_reducible apply watWrite_wf
    | with_reducible apply setReserve_wf
    | with_reducible apply foldl_wf
    | with_reducible apply nextWf_next
    | with_reducible apply nextWf_when
    | split)

theorem execFirmwareGrant_wf (a0 : Grant) (a1 : State) (h1 : a1.mem.wf = true) :
    NextWf (execFirmwareGrant a0 a1) := by
  unfold execFirmwareGrant
  repeat' (first
    | assumption
    | intro _
    | (apply_assumption; done)
    | with_reducible exact True.intro
    | with_reducible apply State.note_wf
    | with_reducible apply Firing.note_wf
    | with_reducible apply grant_wf
    | with_reducible apply foldl_wf
    | with_reducible apply nextWf_next
    | with_reducible apply nextWf_when
    | split)

theorem execFirmwareTableWrite_wf (a0 : TableWrite) (a1 : State) (h1 : a1.mem.wf = true) :
    NextWf (execFirmwareTableWrite a0 a1) := by
  unfold execFirmwareTableWrite
  repeat' (first
    | assumption
    | intro _
    | (apply_assumption; done)
    | with_reducible exact True.intro
    | with_reducible apply State.modPort_wf
    | with_reducible apply foldl_wf
    | with_reducible apply nextWf_next
    | with_reducible apply nextWf_when
    | split)

theorem execFeMarkDefective_wf (a0 : ℕ) (a1 : ℕ) (a2 : State) (h2 : a2.mem.wf = true) :
    NextWf (execFeMarkDefective a0 a1 a2) := by
  unfold execFeMarkDefective
  repeat' (first
    | assumption
    | intro _
    | (apply_assumption; done)
    | with_reducible exact True.intro
    | with_reducible apply foldl_wf
    | with_reducible apply nextWf_next
    | with_reducible apply nextWf_when
    | split)

theorem execCalendarSlot_wf (a0 : ℕ) (a1 : ℕ) (a2 : List Packet) (a3 : State) (h3 : a3.mem.wf = true) :
    NextWf (execCalendarSlot a0 a1 a2 a3) := by
  unfold execCalendarSlot
  repeat' (first
    | assumption
    | intro _
    | (apply_assumption; done)
    | with_reducible exact True.intro
    | with_reducible apply State.modDie_wf
    | with_reducible apply State.countDie_wf
    | with_reducible apply foldl_wf
    | with_reducible apply nextWf_next
    | with_reducible apply nextWf_when
    | split
    | dsimp only)

theorem execHeartbeat_wf (a0 : State) (h0 : a0.mem.wf = true) :
    NextWf (execHeartbeat a0) := by
  unfold execHeartbeat
  repeat' (first
    | assumption
    | intro _
    | (apply_assumption; done)
    | with_reducible exact True.intro
    | with_reducible apply foldl_wf
    | with_reducible apply nextWf_next
    | with_reducible apply nextWf_when
    | split)

theorem execStandbyTakeover_wf (a0 : State) (h0 : a0.mem.wf = true) :
    NextWf (execStandbyTakeover a0) := by
  unfold execStandbyTakeover
  repeat' (first
    | assumption
    | intro _
    | (apply_assumption; done)
    | with_reducible exact True.intro
    | with_reducible apply State.raiseMsix_wf
    | with_reducible apply State.logEvent_wf
    | with_reducible apply readJournal_wf
    | with_reducible apply foldl_wf
    | with_reducible apply nextWf_next
    | with_reducible apply nextWf_when)

theorem execLeafCommand_wf (a0 : ℕ) (a1 : State) (h1 : a1.mem.wf = true) :
    NextWf (execLeafCommand a0 a1) := by
  unfold execLeafCommand
  repeat' (first
    | assumption
    | intro _
    | (apply_assumption; done)
    | with_reducible exact True.intro
    | with_reducible apply State.setLeaf_wf
    | with_reducible apply command_wf
    | with_reducible apply foldl_wf
    | with_reducible apply nextWf_next
    | with_reducible apply nextWf_when
    | split)

theorem execLeafAck_wf (a0 : ℕ) (a1 : State) (h1 : a1.mem.wf = true) :
    NextWf (execLeafAck a0 a1) := by
  unfold execLeafAck
  repeat' (first
    | assumption
    | intro _
    | (apply_assumption; done)
    | with_reducible exact True.intro
    | with_reducible apply State.setLeaf_wf
    | with_reducible apply foldl_wf
    | with_reducible apply nextWf_next
    | with_reducible apply nextWf_when
    | split
    | dsimp only)

theorem apertureXlate_wf {a0 : State} {a1 : ℕ} {a2 : Aperture} {a3 : ℕ} {a4 : ℕ} {a5 : Bool} {t} {y} (e : apertureXlate a0 a1 a2 a3 a4 a5 = (t, y)) (h0 : a0.mem.wf = true) :
    (State.mem t).wf = true := by
  unfold apertureXlate at e
  repeat' (first
    | assumption
    | intro _
    | (apply_assumption; done)
    | with_reducible exact True.intro
    | with_reducible refine xlate_wf (by with_reducible assumption) ?_)
theorem apertureXlate_wf1 (a0 : State) (a1 : ℕ) (a2 : Aperture) (a3 : ℕ) (a4 : ℕ) (a5 : Bool) (h0 : a0.mem.wf = true) :
    (apertureXlate a0 a1 a2 a3 a4 a5).1.mem.wf = true := apertureXlate_wf (t := (apertureXlate a0 a1 a2 a3 a4 a5).1) (y := (apertureXlate a0 a1 a2 a3 a4 a5).2) rfl h0

theorem logAperture_wf (a0 : State) (a1 : Option Aperture) (a2 : ℕ) (a3 : ℕ) (a4 : ℕ) (a5 : Bool) (a6 : Bool) (h0 : a0.mem.wf = true) :
    (logAperture a0 a1 a2 a3 a4 a5 a6).mem.wf = true := by
  unfold logAperture
  repeat' (first
    | assumption
    | intro _
    | (apply_assumption; done)
    | with_reducible exact True.intro
    | with_reducible apply State.logFault_wf)

theorem putLine_wf (a0 : State) (a1 : ℕ) (a2 : ℕ) (a3 : ℕ) (a4 : Bool) (a5 : Bool) (a6 : ℕ) (a7 : List Byte) (h0 : a0.mem.wf = true) :
    (putLine a0 a1 a2 a3 a4 a5 a6 a7).mem.wf = true := by
  unfold putLine
  repeat' (first
    | assumption)

theorem writeLine_wf {s : State} {port wr rid : Nat} {fo po pe : Bool} {e : Option Aperture} {index o : Nat} {data : List Byte}
    {t : State} (hw : writeLine s port wr rid fo po pe e index o data = some t) (h : s.mem.wf = true) : (State.mem t).wf = true := by
  unfold writeLine at hw
  split at hw
  · cases hw; exact logAperture_wf _ _ _ _ _ _ _ h
  · split at hw
    · cases hw; exact logAperture_wf _ _ _ _ _ _ _ h
    · split at hw
      · rename_i hx
        cases hw
        exact foldl_fst_wf _ _ _ (apertureXlate_wf hx h) fun x p hx => putLine_wf _ _ _ _ _ _ _ _ hx
      · rename_i hx; cases hw; exact logAperture_wf _ _ _ _ _ _ _ (apertureXlate_wf hx h)
      · cases hw

theorem writeLines_wf {port wr rid : Nat} {fo po pe : Bool} {entry : Nat → Option Aperture × Nat × Nat} {s : State}
    {ls : List (Nat × Nat)} {data : List Byte} {t : State} (e : writeLines port wr rid fo po pe entry s ls data = some t)
    (h : s.mem.wf = true) : (State.mem t).wf = true := by
  induction ls generalizing s data with
  | nil => cases e; exact h
  | cons l ls ih =>
    unfold writeLines at e
    dsimp only at e
    split at e
    · rename_i hx; exact ih e (writeLine_wf hx h)
    · cases e

theorem postedWrite_wf (s : State) (port rid : Nat) (ro po pe : Bool) (entry : Nat → Option Aperture × Nat × Nat) (off : Nat)
    (data : List Byte) (h : s.mem.wf = true) : (postedWrite s port rid ro po pe entry off data).mem.wf = true := by
  unfold postedWrite
  exact getD_wf _ _ h fun _ e => writeLines_wf e (State.takeFresh_wf2 _ h)

theorem execHostPostedWrite_wf (a0 : ℕ) (a1 : ℕ) (a2 : ℕ) (a3 : List Byte) (a4 : Bool) (a5 : Bool) (a6 : State) (h6 : a6.mem.wf = true) :
    NextWf (execHostPostedWrite a0 a1 a2 a3 a4 a5 a6) := by
  unfold execHostPostedWrite
  repeat' (first
    | assumption
    | intro _
    | (apply_assumption; done)
    | with_reducible exact True.intro
    | with_reducible apply postedWrite_wf
    | with_reducible apply foldl_wf
    | with_reducible apply nextWf_next
    | with_reducible apply nextWf_when)

theorem forwardHeld_wf (a0 : State) (a1 : ℕ) (h0 : a0.mem.wf = true) :
    (forwardHeld a0 a1).mem.wf = true := by
  unfold forwardHeld
  repeat' (first
    | assumption)

theorem execHostLineAck_wf (a0 : ℕ) (a1 : ℕ) (a2 : State) (h2 : a2.mem.wf = true) :
    NextWf (execHostLineAck a0 a1 a2) := by
  unfold execHostLineAck
  repeat' (first
    | assumption
    | intro _
    | (apply_assumption; done)
    | with_reducible exact True.intro
    | with_reducible apply State.modPort_wf
    | with_reducible apply forwardHeld_wf
    | with_reducible apply foldl_wf
    | with_reducible apply nextWf_next
    | with_reducible apply nextWf_when
    | split)

theorem performLine_wf (a0 : State) (a1 : ℕ) (a2 : ℕ) (a3 : ℕ) (h0 : a0.mem.wf = true) :
    (performLine a0 a1 a2 a3).mem.wf = true := by
  unfold performLine
  repeat' (first
    | assumption
    | intro _
    | (apply_assumption; done)
    | with_reducible exact True.intro
    | with_reducible apply State.modPort_wf
    | with_reducible apply homeWrite_wf
    | with_reducible apply poisonRun_wf
    | with_reducible apply foldl_wf
    | with_reducible apply nextWf_next
    | with_reducible apply nextWf_when
    | split
    | dsimp only)

theorem complete_wf (a0 : State) (a1 : ℕ) (a2 : Completion) (h0 : a0.mem.wf = true) :
    (complete a0 a1 a2).mem.wf = true := by
  unfold complete
  repeat' (first
    | assumption)

theorem readPieces_wf {port : Nat} {peer : Bool} {entry : Nat → Option Aperture × Nat × Nat} {s : State} {l : List (Nat × Nat)}
    {acc : List Piece} {t} {y} (e : readPieces port peer entry s l acc = (t, y)) (h : s.mem.wf = true) :
    (State.mem t).wf = true := by
  induction l generalizing s acc with
  | nil => cases e; exact h
  | cons x l ih =>
    unfold readPieces at e
    split at e
    · cases e; exact h
    · split at e
      · cases e; exact h
      · split at e
        · rename_i hx; exact ih e (apertureXlate_wf hx h)
        · rename_i hx; cases e; exact apertureXlate_wf hx h
        · rename_i hx; cases e; exact apertureXlate_wf hx h
theorem readPieces_wf1 (a0 : ℕ) (a1 : Bool) (a2 : ℕ → Option Aperture × ℕ × ℕ) (a3 : State) (a4 : List (ℕ × ℕ)) (a5 : List Piece) (h3 : a3.mem.wf = true) :
    (readPieces a0 a1 a2 a3 a4 a5).1.mem.wf = true := readPieces_wf (t := (readPieces a0 a1 a2 a3 a4 a5).1) (y := (readPieces a0 a1 a2 a3 a4 a5).2) rfl h3

theorem inboundRead_wf (a0 : State) (a1 : ℕ) (a2 : ℕ) (a3 : ℕ) (a4 : Bool) (a5 : Bool) (a6 : ℕ → Option Aperture × ℕ × ℕ) (a7 : ℕ) (a8 : ℕ) (h0 : a0.mem.wf = true) :
    (inboundRead a0 a1 a2 a3 a4 a5 a6 a7 a8).mem.wf = true := by
  unfold inboundRead
  repeat' (first
    | assumption
    | intro _
    | (apply_assumption; done)
    | with_reducible exact True.intro
    | with_reducible apply State.modPort_wf
    | with_reducible refine State.takeFresh_wf (by with_reducible assumption) ?_
    | with_reducible apply State.takeFresh_wf2
    | with_reducible apply logAperture_wf
    | with_reducible apply complete_wf
    | with_reducible refine readPieces_wf (by with_reducible assumption) ?_
    | with_reducible apply readPieces_wf1
    | with_reducible apply foldl_wf
    | with_reducible apply nextWf_next
    | with_reducible apply nextWf_when
    | split)

theorem bar0Read_wf (a0 : State) (a1 : ℕ) (a2 : ℕ) (a3 : ℕ) (a4 : ℕ) (a5 : ℕ) (h0 : a0.mem.wf = true) :
    (bar0Read a0 a1 a2 a3 a4 a5).mem.wf = true := by
  unfold bar0Read
  repeat' (first
    | assumption
    | intro _
    | (apply_assumption; done)
    | with_reducible exact True.intro
    | with_reducible apply complete_wf
    | with_reducible apply foldl_wf
    | with_reducible apply nextWf_next
    | with_reducible apply nextWf_when
    | split)

theorem execHostRead_wf (a0 : ℕ) (a1 : ℕ) (a2 : Bool) (a3 : ℕ) (a4 : ℕ) (a5 : Bool) (a6 : ℕ) (a7 : State) (h7 : a7.mem.wf = true) :
    NextWf (execHostRead a0 a1 a2 a3 a4 a5 a6 a7) := by
  unfold execHostRead
  repeat' (first
    | assumption
    | intro _
    | (apply_assumption; done)
    | with_reducible exact True.intro
    | with_reducible apply inboundRead_wf
    | with_reducible apply bar0Read_wf
    | with_reducible apply foldl_wf
    | with_reducible apply nextWf_next
    | with_reducible apply nextWf_when
    | split)

theorem performInbound_wf (a0 : State) (a1 : ℕ) (a2 : ℕ) (a3 : ℕ) (h0 : a0.mem.wf = true) :
    (performInbound a0 a1 a2 a3).mem.wf = true := by
  unfold performInbound
  repeat' (first
    | assumption
    | intro _
    | (apply_assumption; done)
    | with_reducible exact True.intro
    | with_reducible apply State.modPort_wf
    | with_reducible apply complete_wf
    | with_reducible apply readHome_wf
    | with_reducible apply foldl_wf
    | with_reducible apply nextWf_next
    | with_reducible apply nextWf_when
    | split
    | dsimp only)

theorem execHostAtomicop_wf (a0 : Requester) (a1 : ℕ) (a2 : State) (h2 : a2.mem.wf = true) :
    NextWf (execHostAtomicop a0 a1 a2) := by
  unfold execHostAtomicop
  repeat' (first
    | assumption
    | intro _
    | (apply_assumption; done)
    | with_reducible exact True.intro
    | with_reducible apply complete_wf
    | with_reducible apply foldl_wf
    | with_reducible apply nextWf_next
    | with_reducible apply nextWf_when
    | split)

theorem deviceArrives_wf (a0 : State) (a1 : ℕ) (a2 : ℕ) (a3 : List Byte) (h0 : a0.mem.wf = true) :
    (deviceArrives a0 a1 a2 a3).mem.wf = true := by
  unfold deviceArrives
  repeat' (first
    | assumption
    | intro _
    | (apply_assumption; done)
    | with_reducible exact True.intro
    | with_reducible apply State.modBlk_wf
    | with_reducible apply State.modSlot_wf
    | with_reducible apply answer_wf
    | with_reducible apply foldl_wf
    | with_reducible apply nextWf_next
    | with_reducible apply nextWf_when
    | split
    | dsimp only)

theorem readArrives_wf (a0 : State) (a1 : OutRead) (a2 : List Byte) (h0 : a0.mem.wf = true) :
    (readArrives a0 a1 a2).mem.wf = true := by
  unfold readArrives
  repeat' (first
    | assumption
    | intro _
    | (apply_assumption; done)
    | with_reducible exact True.intro
    | with_reducible apply engineInput_wf
    | with_reducible apply imageInput_wf
    | with_reducible apply deviceArrives_wf
    | with_reducible apply foldl_wf
    | with_reducible apply nextWf_next
    | with_reducible apply nextWf_when
    | split)

theorem hostReadFails_wf (a0 : State) (a1 : OutRead) (a2 : ℕ) (h0 : a0.mem.wf = true) :
    (hostReadFails a0 a1 a2).mem.wf = true := by
  unfold hostReadFails
  repeat' (first
    | assumption
    | intro _
    | (apply_assumption; done)
    | with_reducible exact True.intro
    | with_reducible apply State.logFault_wf
    | with_reducible apply readArrives_wf)

theorem execHostReadCompletion_wf (a0 : ℕ) (a1 : ReadStatus) (a2 : List Byte) (a3 : State) (h3 : a3.mem.wf = true) :
    NextWf (execHostReadCompletion a0 a1 a2 a3) := by
  unfold execHostReadCompletion
  repeat' (first
    | assumption
    | intro _
    | (apply_assumption; done)
    | with_reducible exact True.intro
    | with_reducible apply readArrives_wf
    | with_reducible apply hostReadFails_wf
    | with_reducible apply foldl_wf
    | with_reducible apply nextWf_next
    | with_reducible apply nextWf_when
    | split)

theorem execHostReadTimeout_wf (a0 : ℕ) (a1 : State) (h1 : a1.mem.wf = true) :
    NextWf (execHostReadTimeout a0 a1) := by
  unfold execHostReadTimeout
  repeat' (first
    | assumption
    | intro _
    | (apply_assumption; done)
    | with_reducible exact True.intro
    | with_reducible apply hostReadFails_wf
    | with_reducible apply foldl_wf
    | with_reducible apply nextWf_next
    | with_reducible apply nextWf_when
    | split)

theorem execLaunchWindowWrite_wf (a0 : ℕ) (a1 : ℕ) (a2 : ℕ) (a3 : Word) (a4 : ℕ) (a5 : State) (h5 : a5.mem.wf = true) :
    NextWf (execLaunchWindowWrite a0 a1 a2 a3 a4 a5) := by
  unfold execLaunchWindowWrite
  repeat' (first
    | assumption
    | intro _
    | (apply_assumption; done)
    | with_reducible exact True.intro
    | with_reducible apply State.modPort_wf
    | with_reducible apply foldl_wf
    | with_reducible apply nextWf_next
    | with_reducible apply nextWf_when
    | split
    | dsimp only)

theorem barWrite0_wf (s : State) (port off size : Nat) (value : Word) (h : s.mem.wf = true) :
    (barWrite0 s port off size value).mem.wf = true := by
  unfold barWrite0
  dsimp only
  split
  · exact h
  · split
    · split
      · exact h
      · exact h
    · split
      · exact h
      · split
        · exact State.modPort_wf _ _ _ h
        · exact h

theorem execBar0RegisterWrite_wf (a0 : ℕ) (a1 : ℕ) (a2 : ℕ) (a3 : ℕ) (a4 : Word) (a5 : State) (h5 : a5.mem.wf = true) :
    NextWf (execBar0RegisterWrite a0 a1 a2 a3 a4 a5) := by
  unfold execBar0RegisterWrite
  repeat' (first
    | assumption
    | intro _
    | (apply_assumption; done)
    | with_reducible exact True.intro
    | with_reducible apply barWrite0_wf
    | with_reducible apply foldl_wf
    | with_reducible apply nextWf_next
    | with_reducible apply nextWf_when)

theorem execTimebaseSrcWrite_wf (w : RegWrite) (s : State) (h : s.mem.wf = true) :
    NextWf (execTimebaseSrcWrite w s) := by
  unfold execTimebaseSrcWrite
  split
  · exact timebaseSrc_wf _ _ h
  · exact h

theorem execPtmoffWrite_wf (w : RegWrite) (s : State) (h : s.mem.wf = true) :
    NextWf (execPtmoffWrite w s) := by
  unfold execPtmoffWrite
  split
  · exact ptmoffWrite_wf _ _ h
  · exact h

theorem execHostResetCommand_wf (a0 : Requester) (a1 : BitVec 4) (a2 : BitVec 2) (a3 : BitVec 8) (a4 : State) (h4 : a4.mem.wf = true) :
    NextWf (execHostResetCommand a0 a1 a2 a3 a4) := by
  unfold execHostResetCommand
  repeat' (first
    | assumption
    | intro _
    | (apply_assumption; done)
    | with_reducible exact True.intro
    | with_reducible refine startReset_wf (by with_reducible assumption) ?_
    | with_reducible apply startReset_wf1
    | with_reducible apply foldl_wf
    | with_reducible apply nextWf_next
    | with_reducible apply nextWf_when
    | split)

theorem execLaunchTableArm_wf (a0 : ℕ) (a1 : EntryWrite) (a2 : State) (h2 : a2.mem.wf = true) :
    NextWf (execLaunchTableArm a0 a1 a2) := by
  unfold execLaunchTableArm
  repeat' (first
    | assumption
    | intro _
    | (apply_assumption; done)
    | with_reducible exact True.intro
    | with_reducible apply armEntry_wf
    | with_reducible apply foldl_wf
    | with_reducible apply nextWf_next
    | with_reducible apply nextWf_when
    | split)

theorem execLaunchTableDisarm_wf (a0 : ℕ) (a1 : EntryWrite) (a2 : State) (h2 : a2.mem.wf = true) :
    NextWf (execLaunchTableDisarm a0 a1 a2) := by
  unfold execLaunchTableDisarm
  repeat' (first
    | assumption
    | intro _
    | (apply_assumption; done)
    | with_reducible exact True.intro
    | with_reducible apply disarmEntry_wf
    | with_reducible apply foldl_wf
    | with_reducible apply nextWf_next
    | with_reducible apply nextWf_when
    | split)

theorem execAttestationRequest_wf (a0 : ℕ) (a1 : ℕ) (a2 : Word) (a3 : State) (h3 : a3.mem.wf = true) :
    NextWf (execAttestationRequest a0 a1 a2 a3) := by
  unfold execAttestationRequest
  repeat' (first
    | assumption
    | intro _
    | (apply_assumption; done)
    | with_reducible exact True.intro
    | with_reducible apply foldl_wf
    | with_reducible apply nextWf_next
    | with_reducible apply nextWf_when)

theorem fwWrite_wf (a0 : State) (a1 : ℕ) (a2 : List Byte) (a3 : Bool) (h0 : a0.mem.wf = true) :
    (fwWrite a0 a1 a2 a3).mem.wf = true := by
  unfold fwWrite
  repeat' (first
    | assumption
    | intro _
    | (apply_assumption; done)
    | with_reducible exact True.intro
    | with_reducible apply deviceWrite_wf)

theorem execAttestationReportWrite_wf (a0 : State) (h0 : a0.mem.wf = true) :
    NextWf (execAttestationReportWrite a0) := by
  unfold execAttestationReportWrite
  repeat' (first
    | assumption
    | intro _
    | (apply_assumption; done)
    | with_reducible exact True.intro
    | with_reducible apply fwWrite_wf
    | with_reducible apply foldl_wf
    | with_reducible apply nextWf_next
    | with_reducible apply nextWf_when
    | split)

theorem execPeerRead_wf (a0 : ℕ) (a1 : ℕ) (a2 : ℕ) (a3 : ℕ) (a4 : ℕ) (a5 : ℕ) (a6 : State) (h6 : a6.mem.wf = true) :
    NextWf (execPeerRead a0 a1 a2 a3 a4 a5 a6) := by
  unfold execPeerRead
  repeat' (first
    | assumption
    | intro _
    | (apply_assumption; done)
    | with_reducible exact True.intro
    | with_reducible apply inboundRead_wf
    | with_reducible apply foldl_wf
    | with_reducible apply nextWf_next
    | with_reducible apply nextWf_when)

theorem execPeerWrite_wf (a0 : ℕ) (a1 : ℕ) (a2 : ℕ) (a3 : ℕ) (a4 : List Byte) (a5 : State) (h5 : a5.mem.wf = true) :
    NextWf (execPeerWrite a0 a1 a2 a3 a4 a5) := by
  unfold execPeerWrite
  repeat' (first
    | assumption
    | intro _
    | (apply_assumption; done)
    | with_reducible exact True.intro
    | with_reducible apply postedWrite_wf
    | with_reducible apply foldl_wf
    | with_reducible apply nextWf_next
    | with_reducible apply nextWf_when
    | split)

theorem execPeerWriteOrd_wf (a0 : ℕ) (a1 : ℕ) (a2 : ℕ) (a3 : ℕ) (a4 : List Byte) (a5 : State) (h5 : a5.mem.wf = true) :
    NextWf (execPeerWriteOrd a0 a1 a2 a3 a4 a5) := by
  unfold execPeerWriteOrd
  repeat' (first
    | assumption
    | intro _
    | (apply_assumption; done)
    | with_reducible exact True.intro
    | with_reducible apply postedWrite_wf
    | with_reducible apply foldl_wf
    | with_reducible apply nextWf_next
    | with_reducible apply nextWf_when
    | split)

theorem execLlynramResend_wf (a0 : ℕ) (a1 : State) (h1 : a1.mem.wf = true) :
    NextWf (execLlynramResend a0 a1) := by
  unfold execLlynramResend
  repeat' (first
    | assumption)

theorem execPeerAcknowledgement_wf (a0 : ℕ) (a1 : List Byte) (a2 : State) (h2 : a2.mem.wf = true) :
    NextWf (execPeerAcknowledgement a0 a1 a2) := by
  unfold execPeerAcknowledgement
  repeat' (first
    | assumption
    | intro _
    | (apply_assumption; done)
    | with_reducible exact True.intro
    | with_reducible apply readArrives_wf
    | with_reducible apply foldl_wf
    | with_reducible apply nextWf_next
    | with_reducible apply nextWf_when
    | split)

theorem execPeerUnreachable_wf (a0 : ℕ) (a1 : State) (h1 : a1.mem.wf = true) :
    NextWf (execPeerUnreachable a0 a1) := by
  unfold execPeerUnreachable
  repeat' (first
    | assumption
    | intro _
    | (apply_assumption; done)
    | with_reducible exact True.intro
    | with_reducible apply State.raiseMsix_wf
    | with_reducible apply State.logEvent_wf
    | with_reducible apply readArrives_wf
    | with_reducible apply foldl_wf
    | with_reducible apply nextWf_next
    | with_reducible apply nextWf_when)


end Sys2Proof.Machine
end

