-- ==== Sys2Proof/Laws/Keep8.lean ====
section
/-! SUPPORT. The operations and meanings of Machine/Perform, Machine/Preempt, Machine/Stoch, Machine/Moves, Machine/Step keep memory in its canonical
form: `f_wf` for an operation that answers a state, or a state with a value. -/

set_option maxRecDepth 4000
set_option linter.unusedTactic false
set_option linter.unreachableTactic false
set_option linter.unusedSimpArgs false
set_option linter.unusedVariables false

namespace Sys2Proof.Machine

open Sys2Proof.Bits Sys2Proof.Rows

theorem performDeviceLoad_wf (a0 : State) (a1 : ℕ) (a2 : ℕ) (a3 : Inst) (a4 : Block) (a5 : MOp) (a6 : Piece) (h0 : a0.mem.wf = true) :
    (performDeviceLoad a0 a1 a2 a3 a4 a5 a6).mem.wf = true := by
  unfold performDeviceLoad
  repeat' (first
    | assumption
    | intro _
    | (apply_assumption; done)
    | with_reducible exact True.intro
    | with_reducible apply State.modBlk_wf
    | with_reducible apply acquire_wf
    | with_reducible apply bindBlock_wf
    | with_reducible apply refuseEither_wf
    | with_reducible refine deviceRead_wf (by with_reducible assumption) ?_
    | with_reducible apply deviceArrives_wf
    | with_reducible apply readCached_wf
    | with_reducible apply readPast_wf
    | with_reducible apply foldl_wf
    | with_reducible apply nextWf_next
    | with_reducible apply nextWf_when
    | split
    | dsimp only)

theorem performDeviceStore_wf (a0 : State) (a1 : ℕ) (a2 : ℕ) (a3 : Block) (a4 : List Piece) (a5 : List Byte) (a6 : MOp) (h0 : a0.mem.wf = true) :
    (performDeviceStore a0 a1 a2 a3 a4 a5 a6).mem.wf = true := by
  unfold performDeviceStore
  repeat' (first
    | assumption
    | intro _
    | (apply_assumption; done)
    | with_reducible exact True.intro
    | with_reducible apply State.modBlk_wf
    | with_reducible apply answer_wf
    | with_reducible apply ctlWrite_wf
    | with_reducible apply deviceWrite_wf
    | with_reducible refine objectTurn_go (e := by with_reducible assumption) ?_
    | with_reducible refine objectTurn_wait (e := by with_reducible assumption) ?_
    | with_reducible refine objectTurn_poison (e := by with_reducible assumption) ?_
    | with_reducible apply foldl_wf
    | with_reducible apply nextWf_next
    | with_reducible apply nextWf_when
    | split)

theorem readOfCtl_wf (a0 : State) (a1 : ℕ) (a2 : ℕ) (h0 : a0.mem.wf = true) :
    (readOfCtl a0 a1 a2).mem.wf = true := by
  unfold readOfCtl
  repeat' (first
    | assumption
    | intro _
    | (apply_assumption; done)
    | with_reducible exact True.intro
    | with_reducible apply readCtl_wf
    | with_reducible apply performDeviceLoad_wf
    | with_reducible apply foldl_wf
    | with_reducible apply nextWf_next
    | with_reducible apply nextWf_when
    | split)

theorem deviceStoreOf_wf (a0 : State) (a1 : ℕ) (h0 : a0.mem.wf = true) :
    (deviceStoreOf a0 a1).mem.wf = true := by
  unfold deviceStoreOf
  repeat' (first
    | assumption
    | intro _
    | (apply_assumption; done)
    | with_reducible exact True.intro
    | with_reducible apply performDeviceStore_wf
    | with_reducible apply foldl_wf
    | with_reducible apply nextWf_next
    | with_reducible apply nextWf_when
    | split)

theorem execReadPerform_wf (a0 : Agent) (a1 : ℕ) (a2 : State) (h2 : a2.mem.wf = true) :
    NextWf (execReadPerform a0 a1 a2) := by
  unfold execReadPerform
  repeat' (first
    | assumption
    | intro _
    | (apply_assumption; done)
    | with_reducible exact True.intro
    | with_reducible apply readEngine_wf
    | with_reducible apply readRegion_wf
    | with_reducible apply performInbound_wf
    | with_reducible apply readOfCtl_wf
    | with_reducible apply foldl_wf
    | with_reducible apply nextWf_next
    | with_reducible apply nextWf_when
    | split)

theorem releaseTokens_wf (a0 : State) (a1 : Outb) (a2 : ℕ) (h0 : a0.mem.wf = true) :
    (releaseTokens a0 a1 a2).mem.wf = true := by
  unfold releaseTokens
  repeat' (first
    | assumption
    | intro _
    | (apply_assumption; done)
    | with_reducible exact True.intro
    | with_reducible apply State.modChan_wf
    | with_reducible apply settleChan_wf)

theorem performWrite_wf (a0 : State) (a1 : Outb) (h0 : a0.mem.wf = true) :
    (performWrite a0 a1).mem.wf = true := by
  unfold performWrite
  repeat' (first
    | assumption
    | intro _
    | (apply_assumption; done)
    | with_reducible exact True.intro
    | with_reducible apply homeWrite_wf
    | with_reducible apply ctlWrite_wf
    | with_reducible apply dropOutb_wf
    | with_reducible apply deviceWrite_wf
    | with_reducible apply poisonRun_wf
    | with_reducible apply engineWrite_wf
    | with_reducible apply engineDeviceWrite_wf
    | with_reducible apply releaseTokens_wf
    | with_reducible apply foldl_wf
    | with_reducible apply nextWf_next
    | with_reducible apply nextWf_when
    | split)

theorem performOutb_wf (a0 : State) (a1 : Agent) (a2 : ℕ) (h0 : a0.mem.wf = true) :
    (performOutb a0 a1 a2).mem.wf = true := by
  unfold performOutb
  repeat' (first
    | assumption
    | intro _
    | (apply_assumption; done)
    | with_reducible exact True.intro
    | with_reducible apply performMarker_wf
    | with_reducible apply performWrite_wf
    | with_reducible apply foldl_wf
    | with_reducible apply nextWf_next
    | with_reducible apply nextWf_when
    | split)

theorem execWritePerform_wf (a0 : Agent) (a1 : ℕ) (a2 : State) (h2 : a2.mem.wf = true) :
    NextWf (execWritePerform a0 a1 a2) := by
  unfold execWritePerform
  repeat' (first
    | assumption
    | intro _
    | (apply_assumption; done)
    | with_reducible exact True.intro
    | with_reducible apply performLine_wf
    | with_reducible apply deviceStoreOf_wf
    | with_reducible apply performOutb_wf
    | with_reducible apply foldl_wf
    | with_reducible apply nextWf_next
    | with_reducible apply nextWf_when
    | split)

theorem discardFree_wf (a0 : State) (a1 : ℕ) (h0 : a0.mem.wf = true) :
    (discardFree a0 a1).mem.wf = true := by
  unfold discardFree
  repeat' (first
    | assumption
    | intro _
    | (apply_assumption; done)
    | with_reducible exact True.intro
    | with_reducible apply discardBlock_wf
    | with_reducible apply foldl_wf
    | with_reducible apply nextWf_next
    | with_reducible apply nextWf_when
    | split)

theorem stopOrder_wf (a0 : State) (a1 : ℕ) (a2 : Bool) (h0 : a0.mem.wf = true) :
    (stopOrder a0 a1 a2).mem.wf = true := by
  unfold stopOrder
  repeat' (first
    | assumption
    | intro _
    | (apply_assumption; done)
    | with_reducible exact True.intro
    | with_reducible apply State.modInst_wf
    | with_reducible apply State.note_wf
    | with_reducible apply commandAll_wf
    | with_reducible apply Firing.note_wf
    | with_reducible apply discardFree_wf
    | with_reducible apply foldl_wf
    | with_reducible apply nextWf_next
    | with_reducible apply nextWf_when
    | split)

theorem execBorrowLimit_wf (a0 : BitVec 4) (a1 : State) (h1 : a1.mem.wf = true) :
    NextWf (execBorrowLimit a0 a1) := by
  unfold execBorrowLimit
  repeat' (first
    | assumption
    | intro _
    | (apply_assumption; done)
    | with_reducible exact True.intro
    | with_reducible apply stopOrder_wf
    | with_reducible apply foldl_wf
    | with_reducible apply nextWf_next
    | with_reducible apply nextWf_when
    | split)

theorem stopForSave_wf (a0 : State) (a1 : ℕ) (h0 : a0.mem.wf = true) :
    (stopForSave a0 a1).mem.wf = true := by
  unfold stopForSave
  repeat' (first
    | assumption
    | intro _
    | (apply_assumption; done)
    | with_reducible exact True.intro
    | with_reducible apply State.modInst_wf
    | with_reducible apply rollback_wf
    | with_reducible apply returnLeave_wf)

theorem execRegionStopDiscard_wf (a0 : ℕ) (a1 : State) (h1 : a1.mem.wf = true) :
    NextWf (execRegionStopDiscard a0 a1) := by
  unfold execRegionStopDiscard
  repeat' (first
    | assumption
    | intro _
    | (apply_assumption; done)
    | with_reducible exact True.intro
    | with_reducible apply stopForSave_wf
    | with_reducible apply foldl_wf
    | with_reducible apply nextWf_next
    | with_reducible apply nextWf_when
    | split)

theorem execRegionStopFinish_wf (a0 : ℕ) (a1 : State) (h1 : a1.mem.wf = true) :
    NextWf (execRegionStopFinish a0 a1) := by
  unfold execRegionStopFinish
  repeat' (first
    | assumption
    | intro _
    | (apply_assumption; done)
    | with_reducible exact True.intro
    | with_reducible apply stopForSave_wf
    | with_reducible apply foldl_wf
    | with_reducible apply nextWf_next
    | with_reducible apply nextWf_when
    | split)

theorem saveWrite_wf {a0 : State} {a1 : Inst} {a2 : ℕ} {a3 : List Byte} {t : State} (e : saveWrite a0 a1 a2 a3 = some t) (h0 : a0.mem.wf = true) :
    (State.mem t).wf = true := by
  unfold saveWrite at e
  repeat' (first
    | assumption
    | intro _
    | (apply_assumption; done)
    | with_reducible exact True.intro
    | with_reducible refine writeVirt_wf (by with_reducible assumption) ?_
    | with_reducible apply writeVirt_wf1
    | with_reducible apply foldl_wf
    | with_reducible apply nextWf_next
    | with_reducible apply nextWf_when
    | (split at e)
    | (simp only [Prod.mk.injEq, Option.some.injEq, reduceCtorEq, and_false, false_and] at e)
    | (obtain ⟨rfl, _⟩ := e))

theorem saveState_wf (a0 : State) (a1 : Inst) (a2 : ℕ) (h0 : a0.mem.wf = true) :
    (saveState a0 a1 a2).mem.wf = true := by
  unfold saveState
  repeat' (first
    | assumption
    | intro _
    | (apply_assumption; done)
    | with_reducible exact True.intro
    | with_reducible apply writeRecord_wf)

theorem freeSems_wf (a0 : State) (a1 : ℕ) (a2 : ℕ) (h0 : a0.mem.wf = true) :
    (freeSems a0 a1 a2).mem.wf = true := by
  unfold freeSems
  repeat' (first
    | assumption
    | intro _
    | (apply_assumption; done)
    | with_reducible exact True.intro
    | with_reducible apply State.modSem_wf
    | with_reducible apply foldl_wf)

theorem parkFes_wf (a0 : State) (a1 : ℕ) (a2 : Inst) (h0 : a0.mem.wf = true) :
    (parkFes a0 a1 a2).mem.wf = true := by
  unfold parkFes
  repeat' (first
    | assumption
    | intro _
    | (apply_assumption; done)
    | with_reducible exact True.intro
    | with_reducible apply State.modFe_wf
    | with_reducible apply foldl_wf)

theorem becomeSaved_wf (a0 : State) (a1 : ℕ) (a2 : Inst) (h0 : a0.mem.wf = true) :
    (becomeSaved a0 a1 a2).mem.wf = true := by
  unfold becomeSaved
  repeat' (first
    | assumption
    | intro _
    | (apply_assumption; done)
    | with_reducible exact True.intro
    | with_reducible apply State.modInst_wf
    | with_reducible apply endBorrow_wf
    | with_reducible apply freeSems_wf
    | with_reducible apply parkFes_wf)

theorem execContextPreempt_wf (a0 : ℕ) (a1 : State) (h1 : a1.mem.wf = true) :
    NextWf (execContextPreempt a0 a1) := by
  unfold execContextPreempt
  repeat' (first
    | assumption
    | intro _
    | (apply_assumption; done)
    | with_reducible exact True.intro
    | with_reducible apply State.modInst_wf
    | with_reducible apply discardFree_wf
    | with_reducible apply stopOrder_wf
    | with_reducible refine saveWrite_wf (by with_reducible assumption) ?_
    | with_reducible apply becomeSaved_wf
    | with_reducible apply foldl_wf
    | with_reducible apply nextWf_next
    | with_reducible apply nextWf_when
    | split
    | dsimp only)

theorem loseInst_wf (s : State) (i : Nat) (n : Inst) (h : s.mem.wf = true) : (loseInst s i n).mem.wf = true := by
  unfold loseInst
  have h1 := saveState_wf s n 0x04 h
  generalize saveState s n 0x04 = s1 at h1 ⊢
  have h2 : (if n.life = .saved then releaseFes s1 (fesOf s1 i n) else rollback (discardBlock s1 i) i).mem.wf = true := by
    split
    · exact releaseFes_wf _ _ h1
    · exact rollback_wf _ _ (discardBlock_wf _ _ h1)
  exact State.logInst_wf _ _ _ _ _ (State.modInst_wf _ _ _ (dropRestore_wf _ _ (returnLeave_wf _ _ h2)))

theorem execSaveTimeout_wf (a0 : ℕ) (a1 : State) (h1 : a1.mem.wf = true) :
    NextWf (execSaveTimeout a0 a1) := by
  unfold execSaveTimeout
  repeat' (first
    | assumption
    | intro _
    | (apply_assumption; done)
    | with_reducible exact True.intro
    | with_reducible apply loseInst_wf
    | with_reducible apply foldl_wf
    | with_reducible apply nextWf_next
    | with_reducible apply nextWf_when
    | split)

theorem copyShelf_wf (s : State) (x : Nat) (ps : List Piece) (save : Bool) (h : s.mem.wf = true) :
    (copyShelf s x ps save).mem.wf = true := by
  unfold copyShelf
  exact foldl_fst_wf _ _ _ h fun a p ha => ite_wf _ _ _ (copyRun_wf _ _ _ _ ha) (copyRun_wf _ _ _ _ ha)

theorem saveShelf_wf {a0 : State} {a1 : Inst} {a2 : ℕ} {a3 : ℕ} {t : State} (e : saveShelf a0 a1 a2 a3 = some t) (h0 : a0.mem.wf = true) :
    (State.mem t).wf = true := by
  unfold saveShelf at e
  repeat' (first
    | assumption
    | intro _
    | (apply_assumption; done)
    | with_reducible exact True.intro
    | with_reducible refine xlateNow_wf (by with_reducible assumption) ?_
    | with_reducible apply xlateNow_wf1
    | with_reducible apply copyShelf_wf
    | with_reducible apply foldl_wf
    | with_reducible apply nextWf_next
    | with_reducible apply nextWf_when
    | (split at e)
    | (simp only [Prod.mk.injEq, Option.some.injEq, reduceCtorEq, and_false, false_and] at e)
    | (obtain ⟨rfl, _⟩ := e))

theorem claimAll_wf (a0 : State) (a1 : List ℕ) (h0 : a0.mem.wf = true) :
    (claimAll a0 a1).mem.wf = true := by
  unfold claimAll
  repeat' (first
    | assumption
    | intro _
    | (apply_assumption; done)
    | with_reducible exact True.intro
    | with_reducible apply State.modFe_wf
    | with_reducible apply State.note_wf
    | with_reducible apply commandAll_wf
    | with_reducible apply Firing.note_wf
    | with_reducible apply foldl_wf)

theorem execFeLazySave_wf (i : Nat) (fe : FeAt) (s : State) (h : s.mem.wf = true) : NextWf (execFeLazySave i fe s) := by
  unfold execFeLazySave
  split
  · dsimp only
    split
    · exact h
    · split
      · exact ite_wf _ _ _ (claimAll_wf _ _ h) h
      · split
        · exact h
        · split
          · exact h
          · rename_i hx
            rw [Option.bind_eq_some_iff] at hx
            obtain ⟨u, hu, hx⟩ := hx
            rw [Option.bind_eq_some_iff] at hu
            obtain ⟨v, hv, hu⟩ := hu
            exact releaseFes_wf _ _ (State.modInst_wf _ _ _ (saveWrite_wf hx (saveWrite_wf hu (saveShelf_wf hv h))))
  · exact h

theorem restoredNest_wf {a0 : State} {a1 : Inst} {a2 : List Byte} {t} {y} (e : restoredNest a0 a1 a2 = (t, y)) (h0 : a0.mem.wf = true) :
    (State.mem t).wf = true := by
  unfold restoredNest at e
  repeat' (first
    | assumption
    | intro _
    | (apply_assumption; done)
    | with_reducible exact True.intro
    | with_reducible apply Firing.fault_wf
    | with_reducible refine fetchWords_wf (by with_reducible assumption) ?_
    | with_reducible apply fetchWords_wf1
    | with_reducible apply foldl_wf
    | with_reducible apply nextWf_next
    | with_reducible apply nextWf_when
    | (split at e)
    | (simp only [Prod.mk.injEq, Option.some.injEq, reduceCtorEq, and_false, false_and] at e)
    | (obtain ⟨rfl, _⟩ := e))
theorem restoredNest_wf1 (a0 : State) (a1 : Inst) (a2 : List Byte) (h0 : a0.mem.wf = true) :
    (restoredNest a0 a1 a2).1.mem.wf = true := restoredNest_wf (t := (restoredNest a0 a1 a2).1) (y := (restoredNest a0 a1 a2).2) rfl h0

theorem restoredSlot_fst (n : Inst) (core : Nat) (record : List Byte) (x : State × Fe) (k : Nat) (h : x.1.mem.wf = true) :
    (restoredSlot n core record x k).1.mem.wf = true := by
  unfold restoredSlot
  dsimp only
  split
  · exact h
  · split
    · rename_i hy; exact storeItem_wf hy h
    · rename_i hy; exact storeItem_wf hy h

theorem restoredSlots_wf {s : State} {n : Inst} {core : Nat} {record : List Byte} {f : Fe} {t} {y}
    (e : restoredSlots s n core record f = (t, y)) (h : s.mem.wf = true) : (State.mem t).wf = true := by
  unfold restoredSlots at e
  have h1 := foldl_fst_wf (restoredSlot n core record) (List.range 8) (s, f) h fun x k hk =>
    restoredSlot_fst n core record x k hk
  generalize (List.range 8).foldl (restoredSlot n core record) (s, f) = q at h1 e
  dsimp only at e
  split at e
  · cases e; exact h1
  · split at e
    · rename_i hy; cases e; exact storeItem_wf hy h1
    · rename_i hy; cases e; exact storeItem_wf hy h1
theorem restoredSlots_wf1 (a0 : State) (a1 : Inst) (a2 : ℕ) (a3 : List Byte) (a4 : Fe) (h0 : a0.mem.wf = true) :
    (restoredSlots a0 a1 a2 a3 a4).1.mem.wf = true := restoredSlots_wf (t := (restoredSlots a0 a1 a2 a3 a4).1) (y := (restoredSlots a0 a1 a2 a3 a4).2) rfl h0

theorem restoreFe_wf {s : State} {i : Nat} {n : Inst} {ws : List Word} {r : Rect} {c w : Nat} {t : State}
    (e : restoreFe s i n ws r c w = some t) (h : s.mem.wf = true) : (State.mem t).wf = true := by
  unfold restoreFe at e
  dsimp only at e
  split at e
  · cases e; exact State.modFe_wf _ _ _ h
  · split at e
    · rename_i ps hx
      have h1 := xlateNow_wf hx h
      split at e
      · cases e
      · rename_i u bs hy
        have h2 := readVirt_wf hy h1
        have h3 := restoredSlots_wf1 u n (rectCore r c w) (bs.take 0x800) (readFe (bs.take 0x800) (bs.drop 0x800)) h2
        generalize restoredSlots u n (rectCore r c w) (bs.take 0x800) (readFe (bs.take 0x800) (bs.drop 0x800)) = q at h3 e
        have h4 := copyShelf_wf q.1 (rectFe r c w) ps false h3
        rw [← Option.some.inj e]
        exact h4
    · cases e

theorem restoreFes_wf {i : Nat} {n : Inst} {ws : List Word} {r : Rect} {s : State} {l : List (Nat × Nat)} {t : State}
    (e : restoreFes i n ws r s l = some t) (h : s.mem.wf = true) : (State.mem t).wf = true := by
  induction l generalizing s with
  | nil => cases e; exact h
  | cons x l ih =>
    unfold restoreFes at e
    split at e
    · rename_i hx; exact ih e (restoreFe_wf hx h)
    · cases e

theorem applyKept_wf (a0 : State) (a1 : ℕ) (a2 : Kept) (h0 : a0.mem.wf = true) :
    (applyKept a0 a1 a2).mem.wf = true := by
  unfold applyKept
  repeat' (first
    | assumption
    | intro _
    | (apply_assumption; done)
    | with_reducible exact True.intro
    | with_reducible apply State.modCtl_wf
    | with_reducible apply postAsync_wf
    | with_reducible apply postEvent_wf
    | with_reducible apply semAdd_wf
    | with_reducible apply foldl_wf
    | with_reducible apply nextWf_next
    | with_reducible apply nextWf_when
    | split)

theorem restoreSems_wf (a0 : State) (a1 : Inst) (a2 : ℕ) (a3 : ℕ) (a4 : List Byte) (h0 : a0.mem.wf = true) :
    (restoreSems a0 a1 a2 a3 a4).mem.wf = true := by
  unfold restoreSems
  repeat' (first
    | assumption
    | intro _
    | (apply_assumption; done)
    | with_reducible exact True.intro
    | with_reducible apply State.modSem_wf
    | with_reducible apply foldl_wf)

theorem keepFault_wf (a0 : State) (a1 : ℕ) (a2 : ℕ) (a3 : Word) (a4 : List ℕ) (h0 : a0.mem.wf = true) :
    (keepFault a0 a1 a2 a3 a4).mem.wf = true := by
  unfold keepFault
  repeat' (first
    | assumption)

theorem performRestore_wf {a0 : State} {a1 : ℕ} {a2 : Inst} {a3 : Spot} {a4 : List Byte} {a5 : Option Nest} {a6 : Bool} {t : State} (e : performRestore a0 a1 a2 a3 a4 a5 a6 = some t) (h0 : a0.mem.wf = true) :
    (State.mem t).wf = true := by
  unfold performRestore at e
  repeat' (first
    | assumption
    | intro _
    | (apply_assumption; done)
    | with_reducible exact True.intro
    | with_reducible apply State.modInst_wf
    | with_reducible apply State.modCore_wf
    | with_reducible apply State.note_wf
    | with_reducible apply commandAll_wf
    | with_reducible apply Firing.note_wf
    | with_reducible apply serve_wf
    | with_reducible apply sendSets_wf
    | with_reducible refine saveWrite_wf (by with_reducible assumption) ?_
    | with_reducible refine restoreFes_wf (by with_reducible assumption) ?_
    | with_reducible apply applyKept_wf
    | with_reducible apply restoreSems_wf
    | with_reducible apply foldl_wf
    | with_reducible apply nextWf_next
    | with_reducible apply nextWf_when
    | (split at e)
    | (simp only [Prod.mk.injEq, Option.some.injEq, reduceCtorEq, and_false, false_and] at e)
    | (obtain ⟨rfl, _⟩ := e))

theorem restoreWithLeave_wf (s : State) (i : Nat) (n : Inst) (p : Spot) (area : List Byte) (nest : Option Nest) (units : Nat)
    (h : s.mem.wf = true) : (restoreWithLeave s i n p area nest units).mem.wf = true := by
  unfold restoreWithLeave
  dsimp only
  split
  · exact h
  · split
    · exact getD_wf _ _ h fun t ht => performRestore_wf ht h
    · split
      · exact getD_wf _ _ h fun t ht => performRestore_wf ht h
      · split
        · rename_i hx; exact askLeave_wf hx (State.modInst_wf _ _ _ (returnLeave_wf _ _ h))
        · exact keepFault_wf _ _ _ _ _ (State.modInst_wf _ _ _ (returnLeave_wf _ _ h))

theorem refuseRestore_wf (s : State) (n : Inst) (h : s.mem.wf = true) : (refuseRestore s n).mem.wf = true := by
  unfold refuseRestore
  split
  · exact h
  · rename_i l _
    have h1 := State.logInst_wf _ n 0x42 l.addr.toNat 0 (writeState_wf s l.ctx l.addr 0x42 h)
    exact ite_wf _ _ _ (State.modLaunch_wf _ _ _ h1) (doneStatus_wf _ _ _ _ _ h1)

theorem restoreFrom_wf (s : State) (i : Nat) (n : Inst) (area : List Byte) (h : s.mem.wf = true) :
    (restoreFrom s i n area).mem.wf = true := by
  unfold restoreFrom
  dsimp only
  split
  · split
    · split
      · exact h
      · exact refuseRestore_wf _ _ h
    · exact h
  · split
    · exact ite_wf _ _ _ (claimAll_wf _ _ h) h
    · split
      · exact h
      · split
        · rename_i s' c fa hx
          have hk := keepFault_wf s' i c fa (readVec area) (restoredNest_wf hx h)
          split
          · exact h
          · split
            · exact getD_wf _ _ h fun t ht => performRestore_wf ht hk
            · exact hk
        · rename_i hx
          have hk := restoredNest_wf hx h
          split
          · exact restoreWithLeave_wf _ _ _ _ _ _ _ hk
          · exact getD_wf _ _ hk fun t ht => performRestore_wf ht hk

theorem execRestore_wf (a0 : ℕ) (a1 : State) (h1 : a1.mem.wf = true) :
    NextWf (execRestore a0 a1) := by
  unfold execRestore
  repeat' (first
    | assumption
    | intro _
    | (apply_assumption; done)
    | with_reducible exact True.intro
    | with_reducible refine readArea_wf (by with_reducible assumption) ?_
    | with_reducible apply readArea_wf1
    | with_reducible apply loseInst_wf
    | with_reducible apply restoreFrom_wf
    | with_reducible apply foldl_wf
    | with_reducible apply nextWf_next
    | with_reducible apply nextWf_when
    | split)

theorem watchCtl_wf (a0 : State) (a1 : ℕ) (a2 : Inst) (h0 : a0.mem.wf = true) :
    (watchCtl a0 a1 a2).mem.wf = true := by
  unfold watchCtl
  repeat' (first
    | assumption
    | intro _
    | (apply_assumption; done)
    | with_reducible exact True.intro
    | with_reducible apply State.modCtl_wf
    | with_reducible apply postAsync_wf
    | with_reducible apply endInstance_wf
    | with_reducible apply foldl_wf
    | with_reducible apply nextWf_next
    | with_reducible apply nextWf_when
    | split)

theorem watchRegion_wf (a0 : State) (a1 : ℕ) (a2 : Inst) (a3 : Region) (h0 : a0.mem.wf = true) :
    (watchRegion a0 a1 a2 a3).mem.wf = true := by
  unfold watchRegion
  repeat' (first
    | assumption
    | intro _
    | (apply_assumption; done)
    | with_reducible exact True.intro
    | with_reducible apply State.modReg_wf
    | with_reducible apply stopRegion_wf
    | with_reducible apply postAsync_wf
    | with_reducible apply endInstance_wf
    | with_reducible apply foldl_wf
    | with_reducible apply nextWf_next
    | with_reducible apply nextWf_when
    | split)

theorem execWatchdog_wf (a0 : ℕ) (a1 : Bool) (a2 : State) (h2 : a2.mem.wf = true) :
    NextWf (execWatchdog a0 a1 a2) := by
  unfold execWatchdog
  repeat' (first
    | assumption
    | intro _
    | (apply_assumption; done)
    | with_reducible exact True.intro
    | with_reducible apply watchCtl_wf
    | with_reducible apply watchRegion_wf
    | with_reducible apply foldl_wf
    | with_reducible apply nextWf_next
    | with_reducible apply nextWf_when
    | split)

theorem grantTo_wf (a0 : State) (a1 : LeaveReq) (h0 : a0.mem.wf = true) :
    (grantTo a0 a1).mem.wf = true := by
  unfold grantTo
  repeat' (first
    | assumption
    | intro _
    | (apply_assumption; done)
    | with_reducible exact True.intro
    | with_reducible apply State.modReg_wf
    | with_reducible apply activate_wf
    | with_reducible apply grantFrun_wf
    | with_reducible apply foldl_wf
    | with_reducible apply nextWf_next
    | with_reducible apply nextWf_when
    | split)

theorem execLeaveGrant_wf (a0 : ℕ) (a1 : State) (h1 : a1.mem.wf = true) :
    NextWf (execLeaveGrant a0 a1) := by
  unfold execLeaveGrant
  repeat' (first
    | assumption
    | intro _
    | (apply_assumption; done)
    | with_reducible exact True.intro
    | with_reducible apply State.note_wf
    | with_reducible apply Firing.note_wf
    | with_reducible apply takeLeave_wf
    | with_reducible apply grant_wf
    | with_reducible apply grantTo_wf
    | with_reducible apply foldl_wf
    | with_reducible apply nextWf_next
    | with_reducible apply nextWf_when
    | split)

theorem denyTo_wf (s : State) (r : LeaveReq) (h : s.mem.wf = true) : (denyTo s r).mem.wf = true := by
  unfold denyTo
  split
  · split
    · exact raise_wf _ _ _ _ _ h
    · exact h
  · split
    · exact recordFault_wf _ _ _ _ _ h
    · exact h
  · split
    · rename_i hx
      rw [Option.map_eq_some_iff] at hx
      obtain ⟨n, -, hn⟩ := hx
      exact keepFault_wf _ _ _ _ _ (readArea_wf hn h)
    · exact keepFault_wf _ _ _ _ _ h

theorem execLeaveTimeout_wf (a0 : ℕ) (a1 : State) (h1 : a1.mem.wf = true) :
    NextWf (execLeaveTimeout a0 a1) := by
  unfold execLeaveTimeout
  repeat' (first
    | assumption
    | intro _
    | (apply_assumption; done)
    | with_reducible exact True.intro
    | with_reducible apply denyTo_wf
    | with_reducible apply foldl_wf
    | with_reducible apply nextWf_next
    | with_reducible apply nextWf_when
    | split)

theorem execSgen_wf (a0 : ℕ) (a1 : FeAt) (a2 : State) (h2 : a2.mem.wf = true) :
    NextWf (execSgen a0 a1 a2) := by
  unfold execSgen
  repeat' (first
    | assumption
    | intro _
    | (apply_assumption; done)
    | with_reducible exact True.intro
    | with_reducible apply fireFe_wf)

theorem execSand_wf (a0 : ℕ) (a1 : FeAt) (a2 : State) (h2 : a2.mem.wf = true) :
    NextWf (execSand a0 a1 a2) := by
  unfold execSand
  repeat' (first
    | assumption
    | intro _
    | (apply_assumption; done)
    | with_reducible exact True.intro
    | with_reducible apply fireFe_wf)

theorem execSor_wf (a0 : ℕ) (a1 : FeAt) (a2 : State) (h2 : a2.mem.wf = true) :
    NextWf (execSor a0 a1 a2) := by
  unfold execSor
  repeat' (first
    | assumption
    | intro _
    | (apply_assumption; done)
    | with_reducible exact True.intro
    | with_reducible apply fireFe_wf)

theorem execSmux_wf (a0 : ℕ) (a1 : FeAt) (a2 : State) (h2 : a2.mem.wf = true) :
    NextWf (execSmux a0 a1 a2) := by
  unfold execSmux
  repeat' (first
    | assumption
    | intro _
    | (apply_assumption; done)
    | with_reducible exact True.intro
    | with_reducible apply fireFe_wf)

theorem execSnot_wf (a0 : ℕ) (a1 : FeAt) (a2 : State) (h2 : a2.mem.wf = true) :
    NextWf (execSnot a0 a1 a2) := by
  unfold execSnot
  repeat' (first
    | assumption
    | intro _
    | (apply_assumption; done)
    | with_reducible exact True.intro
    | with_reducible apply fireFe_wf)

theorem execSminc_wf (a0 : ℕ) (a1 : FeAt) (a2 : State) (h2 : a2.mem.wf = true) :
    NextWf (execSminc a0 a1 a2) := by
  unfold execSminc
  repeat' (first
    | assumption
    | intro _
    | (apply_assumption; done)
    | with_reducible exact True.intro
    | with_reducible apply fireFe_wf)

theorem execSmaxc_wf (a0 : ℕ) (a1 : FeAt) (a2 : State) (h2 : a2.mem.wf = true) :
    NextWf (execSmaxc a0 a1 a2) := by
  unfold execSmaxc
  repeat' (first
    | assumption
    | intro _
    | (apply_assumption; done)
    | with_reducible exact True.intro
    | with_reducible apply fireFe_wf)

theorem execSxor_wf (a0 : ℕ) (a1 : FeAt) (a2 : State) (h2 : a2.mem.wf = true) :
    NextWf (execSxor a0 a1 a2) := by
  unfold execSxor
  repeat' (first
    | assumption
    | intro _
    | (apply_assumption; done)
    | with_reducible exact True.intro
    | with_reducible apply fireFe_wf)

theorem execScnt_wf (a0 : ℕ) (a1 : FeAt) (a2 : State) (h2 : a2.mem.wf = true) :
    NextWf (execScnt a0 a1 a2) := by
  unfold execScnt
  repeat' (first
    | assumption
    | intro _
    | (apply_assumption; done)
    | with_reducible exact True.intro
    | with_reducible apply fireFe_wf)

theorem execSregen_wf (a0 : ℕ) (a1 : FeAt) (a2 : State) (h2 : a2.mem.wf = true) :
    NextWf (execSregen a0 a1 a2) := by
  unfold execSregen
  repeat' (first
    | assumption
    | intro _
    | (apply_assumption; done)
    | with_reducible exact True.intro
    | with_reducible apply fireFe_wf)

theorem execSfsm_wf (a0 : ℕ) (a1 : FeAt) (a2 : State) (h2 : a2.mem.wf = true) :
    NextWf (execSfsm a0 a1 a2) := by
  unfold execSfsm
  repeat' (first
    | assumption
    | intro _
    | (apply_assumption; done)
    | with_reducible exact True.intro
    | with_reducible apply fireFe_wf)

theorem advance_wf (a0 : State) (a1 : ℕ) (h0 : a0.mem.wf = true) :
    (advance a0 a1).mem.wf = true := by
  unfold advance
  repeat' (first
    | assumption)

theorem State.at_wf (a0 : State) (a1 : ℕ) (a2 : ℕ) (h0 : a0.mem.wf = true) :
    (State.at a0 a1 a2).mem.wf = true := by
  unfold State.at
  repeat' (first
    | assumption)

theorem upsetAcc_wf (a0 : State) (a1 : ℕ) (a2 : ℕ) (a3 : ℕ) (h0 : a0.mem.wf = true) :
    (upsetAcc a0 a1 a2 a3).mem.wf = true := by
  unfold upsetAcc
  repeat' (first
    | assumption
    | intro _
    | (apply_assumption; done)
    | with_reducible exact True.intro
    | with_reducible apply State.modFe_wf
    | with_reducible apply foldl_wf
    | with_reducible apply nextWf_next
    | with_reducible apply nextWf_when
    | split)

theorem resizeBar_wf (a0 : State) (a1 : ℕ) (a2 : ℕ) (h0 : a0.mem.wf = true) :
    (resizeBar a0 a1 a2).mem.wf = true := by
  unfold resizeBar
  repeat' (first
    | assumption
    | intro _
    | (apply_assumption; done)
    | with_reducible exact True.intro
    | with_reducible apply State.modPort_wf
    | with_reducible apply foldl_wf
    | with_reducible apply nextWf_next
    | with_reducible apply nextWf_when
    | split)

theorem paceLending_wf (a0 : State) (a1 : ℕ) (a2 : ℕ) (a3 : Bool) (h0 : a0.mem.wf = true) :
    (paceLending a0 a1 a2 a3).mem.wf = true := by
  unfold paceLending
  repeat' (first
    | assumption
    | intro _
    | (apply_assumption; done)
    | with_reducible exact True.intro
    | with_reducible apply State.modDie_wf
    | with_reducible apply foldl_wf
    | with_reducible apply nextWf_next
    | with_reducible apply nextWf_when
    | split)

theorem identRead_wf (a0 : State) (h0 : a0.mem.wf = true) :
    (identRead a0).mem.wf = true := by
  unfold identRead
  repeat' (first
    | assumption
    | intro _
    | (apply_assumption; done)
    | with_reducible exact True.intro
    | with_reducible apply bar0Read_wf
    | with_reducible refine nextMove_wf (by with_reducible assumption) ?_
    | with_reducible apply nextMove_wf2
    | with_reducible apply foldl_wf
    | with_reducible apply nextWf_next
    | with_reducible apply nextWf_when
    | split)

theorem State.withFetchWord_wf (a0 : State) (a1 : ℕ) (a2 : ℕ) (h0 : a0.mem.wf = true) :
    (State.withFetchWord a0 a1 a2).mem.wf = true := by
  unfold State.withFetchWord
  repeat' (first
    | assumption)


end Sys2Proof.Machine
end

