-- ==== Sys2Proof/Laws/Slots.lean ====
section
/-! SUPPORT. Every control opcode is one firing of its slot, ST and the atomics with their address translated ahead, and
what a slot does that does not fire. -/

namespace Sys2Proof.Machine

open Sys2Proof.Bits Sys2Proof.Rows

/-- Every control opcode but ST and the atomics is a firing of its slot under its opcode. -/
theorem exec_slot {x : Instr} {opc : Nat} {f : Fields} (s : State) (hx : x.slotFields = some (opc, f)) (ho : translatesAhead opc = false) :
    ∃ go, exec x s = fireOp opc f s go := by
  cases x
  case fan => cases hx; rw [exec_fan]; unfold execFan; exact ⟨_, rfl⟩
  case null => cases hx; rw [exec_null]; unfold execNull; exact ⟨_, rfl⟩
  case movi => cases hx; rw [exec_movi]; unfold execMovi aluOp; exact ⟨_, rfl⟩
  case appi => cases hx; rw [exec_appi]; unfold execAppi aluOp; exact ⟨_, rfl⟩
  case add => cases hx; rw [exec_add]; unfold execAdd aluOp; exact ⟨_, rfl⟩
  case sub => cases hx; rw [exec_sub]; unfold execSub aluOp; exact ⟨_, rfl⟩
  case mul => cases hx; rw [exec_mul]; unfold execMul aluOp; exact ⟨_, rfl⟩
  case mulh => cases hx; rw [exec_mulh]; unfold execMulh aluOp; exact ⟨_, rfl⟩
  case mulhu => cases hx; rw [exec_mulhu]; unfold execMulhu aluOp; exact ⟨_, rfl⟩
  case div => cases hx; rw [exec_div]; unfold execDiv divOp; exact ⟨_, rfl⟩
  case divu => cases hx; rw [exec_divu]; unfold execDivu divOp; exact ⟨_, rfl⟩
  case rem => cases hx; rw [exec_rem]; unfold execRem divOp; exact ⟨_, rfl⟩
  case remu => cases hx; rw [exec_remu]; unfold execRemu divOp; exact ⟨_, rfl⟩
  case and => cases hx; rw [exec_and]; unfold execAnd aluOp; exact ⟨_, rfl⟩
  case or => cases hx; rw [exec_or]; unfold execOr aluOp; exact ⟨_, rfl⟩
  case xor => cases hx; rw [exec_xor]; unfold execXor aluOp; exact ⟨_, rfl⟩
  case andn => cases hx; rw [exec_andn]; unfold execAndn aluOp; exact ⟨_, rfl⟩
  case shl => cases hx; rw [exec_shl]; unfold execShl aluOp; exact ⟨_, rfl⟩
  case shr => cases hx; rw [exec_shr]; unfold execShr aluOp; exact ⟨_, rfl⟩
  case sra => cases hx; rw [exec_sra]; unfold execSra aluOp; exact ⟨_, rfl⟩
  case rol => cases hx; rw [exec_rol]; unfold execRol aluOp; exact ⟨_, rfl⟩
  case ror => cases hx; rw [exec_ror]; unfold execRor aluOp; exact ⟨_, rfl⟩
  case min => cases hx; rw [exec_min]; unfold execMin aluOp; exact ⟨_, rfl⟩
  case max => cases hx; rw [exec_max]; unfold execMax aluOp; exact ⟨_, rfl⟩
  case minu => cases hx; rw [exec_minu]; unfold execMinu aluOp; exact ⟨_, rfl⟩
  case maxu => cases hx; rw [exec_maxu]; unfold execMaxu aluOp; exact ⟨_, rfl⟩
  case adds => cases hx; rw [exec_adds]; unfold execAdds aluOp; exact ⟨_, rfl⟩
  case subs => cases hx; rw [exec_subs]; unfold execSubs aluOp; exact ⟨_, rfl⟩
  case addus => cases hx; rw [exec_addus]; unfold execAddus aluOp; exact ⟨_, rfl⟩
  case subus => cases hx; rw [exec_subus]; unfold execSubus aluOp; exact ⟨_, rfl⟩
  case clz => cases hx; rw [exec_clz]; unfold execClz aluOp; exact ⟨_, rfl⟩
  case ctz => cases hx; rw [exec_ctz]; unfold execCtz aluOp; exact ⟨_, rfl⟩
  case popc => cases hx; rw [exec_popc]; unfold execPopc aluOp; exact ⟨_, rfl⟩
  case bswap => cases hx; rw [exec_bswap]; unfold execBswap aluOp; exact ⟨_, rfl⟩
  case sext => cases hx; rw [exec_sext]; unfold execSext aluOp; exact ⟨_, rfl⟩
  case zext => cases hx; rw [exec_zext]; unfold execZext aluOp; exact ⟨_, rfl⟩
  case neg => cases hx; rw [exec_neg]; unfold execNeg aluOp; exact ⟨_, rfl⟩
  case not => cases hx; rw [exec_not]; unfold execNot aluOp; exact ⟨_, rfl⟩
  case abs => cases hx; rw [exec_abs]; unfold execAbs aluOp; exact ⟨_, rfl⟩
  case bfx => cases hx; rw [exec_bfx]; unfold execBfx aluOp; exact ⟨_, rfl⟩
  case bfi => cases hx; rw [exec_bfi]; unfold execBfi aluOp; exact ⟨_, rfl⟩
  case teq => cases hx; rw [exec_teq]; unfold execTeq aluOp; exact ⟨_, rfl⟩
  case tne => cases hx; rw [exec_tne]; unfold execTne aluOp; exact ⟨_, rfl⟩
  case tlt => cases hx; rw [exec_tlt]; unfold execTlt aluOp; exact ⟨_, rfl⟩
  case tltu => cases hx; rw [exec_tltu]; unfold execTltu aluOp; exact ⟨_, rfl⟩
  case tle => cases hx; rw [exec_tle]; unfold execTle aluOp; exact ⟨_, rfl⟩
  case tleu => cases hx; rw [exec_tleu]; unfold execTleu aluOp; exact ⟨_, rfl⟩
  case tgt => cases hx; rw [exec_tgt]; unfold execTgt aluOp; exact ⟨_, rfl⟩
  case tgtu => cases hx; rw [exec_tgtu]; unfold execTgtu aluOp; exact ⟨_, rfl⟩
  case tge => cases hx; rw [exec_tge]; unfold execTge aluOp; exact ⟨_, rfl⟩
  case tgeu => cases hx; rw [exec_tgeu]; unfold execTgeu aluOp; exact ⟨_, rfl⟩
  case tbs => cases hx; rw [exec_tbs]; unfold execTbs aluOp; exact ⟨_, rfl⟩
  case tbc => cases hx; rw [exec_tbc]; unfold execTbc aluOp; exact ⟨_, rfl⟩
  case sel => cases hx; rw [exec_sel]; unfold execSel; exact ⟨_, rfl⟩
  case wid => cases hx; rw [exec_wid]; unfold execWid; exact ⟨_, rfl⟩
  case time => cases hx; rw [exec_time]; unfold execTime; exact ⟨_, rfl⟩
  case cyc => cases hx; rw [exec_cyc]; unfold execCyc; exact ⟨_, rfl⟩
  case ctx => cases hx; rw [exec_ctx]; unfold execCtx; exact ⟨_, rfl⟩
  case ld => cases hx; rw [exec_ld]; unfold execLd; exact ⟨_, rfl⟩
  case st => cases hx; exact absurd ho (by decide)
  case pft => cases hx; rw [exec_pft]; unfold execPft; exact ⟨_, rfl⟩
  case aadd => cases hx; exact absurd ho (by decide)
  case aand => cases hx; exact absurd ho (by decide)
  case aor => cases hx; exact absurd ho (by decide)
  case axor => cases hx; exact absurd ho (by decide)
  case amin => cases hx; exact absurd ho (by decide)
  case amax => cases hx; exact absurd ho (by decide)
  case aminu => cases hx; exact absurd ho (by decide)
  case amaxu => cases hx; exact absurd ho (by decide)
  case aswp => cases hx; exact absurd ho (by decide)
  case acas => cases hx; exact absurd ho (by decide)
  case fence => cases hx; rw [exec_fence]; unfold execFence; exact ⟨_, rfl⟩
  case chsend => cases hx; rw [exec_chsend]; unfold execChsend; exact ⟨_, rfl⟩
  case chrecv => cases hx; rw [exec_chrecv]; unfold execChrecv receiveOp; exact ⟨_, rfl⟩
  case chtry => cases hx; rw [exec_chtry]; unfold execChtry receiveOp; exact ⟨_, rfl⟩
  case chlen => cases hx; rw [exec_chlen]; unfold execChlen; exact ⟨_, rfl⟩
  case chclose => cases hx; rw [exec_chclose]; unfold execChclose; exact ⟨_, rfl⟩
  case semwait => cases hx; rw [exec_semwait]; unfold execSemwait; exact ⟨_, rfl⟩
  case sempost => cases hx; rw [exec_sempost]; unfold execSempost; exact ⟨_, rfl⟩
  case semread => cases hx; rw [exec_semread]; unfold execSemread; exact ⟨_, rfl⟩
  case barinit => cases hx; rw [exec_barinit]; unfold execBarinit barrierOp; exact ⟨_, rfl⟩
  case bararr => cases hx; rw [exec_bararr]; unfold execBararr barrierOp; exact ⟨_, rfl⟩
  case barwait => cases hx; rw [exec_barwait]; unfold execBarwait barrierOp; exact ⟨_, rfl⟩
  case cpy => cases hx; rw [exec_cpy]; unfold execCpy recordOp; exact ⟨_, rfl⟩
  case cpyc => cases hx; rw [exec_cpyc]; unfold execCpyc; exact ⟨_, rfl⟩
  case cpyt => cases hx; rw [exec_cpyt]; unfold execCpyt recordOp; exact ⟨_, rfl⟩
  case xtload => cases hx; rw [exec_xtload]; unfold execXtload; exact ⟨_, rfl⟩
  case xstat => cases hx; rw [exec_xstat]; unfold execXstat; exact ⟨_, rfl⟩
  case launch => cases hx; rw [exec_launch]; unfold execLaunch; exact ⟨_, rfl⟩
  case qreset => cases hx; rw [exec_qreset]; unfold execQreset; exact ⟨_, rfl⟩
  case yield => cases hx; rw [exec_yield]; unfold execYield; exact ⟨_, rfl⟩
  case br => cases hx; rw [exec_br]; unfold execBr; exact ⟨_, rfl⟩
  case bri => cases hx; rw [exec_bri]; unfold execBri; exact ⟨_, rfl⟩
  case call => cases hx; rw [exec_call]; unfold execCall; exact ⟨_, rfl⟩
  case calli => cases hx; rw [exec_calli]; unfold execCalli; exact ⟨_, rfl⟩
  case halt => cases hx; rw [exec_halt]; unfold execHalt; exact ⟨_, rfl⟩
  case trap => cases hx; rw [exec_trap]; unfold execTrap; exact ⟨_, rfl⟩
  case sysr => cases hx; rw [exec_sysr]; unfold execSysr; exact ⟨_, rfl⟩
  case sysw => cases hx; rw [exec_sysw]; unfold execSysw; exact ⟨_, rfl⟩
  case tlbinv => cases hx; rw [exec_tlbinv]; unfold execTlbinv; exact ⟨_, rfl⟩
  case bcinv => cases hx; rw [exec_bcinv]; unfold execBcinv; exact ⟨_, rfl⟩
  case eret => cases hx; rw [exec_eret]; unfold execEret; exact ⟨_, rfl⟩
  case waitev => cases hx; rw [exec_waitev]; unfold execWaitev; exact ⟨_, rfl⟩
  case src => cases hx; rw [exec_src]; unfold execSrc; exact ⟨_, rfl⟩
  case snk => cases hx; rw [exec_snk]; unfold execSnk; exact ⟨_, rfl⟩
  case accr => cases hx; rw [exec_accr]; unfold execAccr; exact ⟨_, rfl⟩
  case accd => cases hx; rw [exec_accd]; unfold execAccd; exact ⟨_, rfl⟩
  case kset => cases hx; rw [exec_kset]; unfold execKset; exact ⟨_, rfl⟩
  case mark => cases hx; rw [exec_mark]; unfold execMark; exact ⟨_, rfl⟩
  case fmtw => cases hx; rw [exec_fmtw]; unfold execFmtw; exact ⟨_, rfl⟩
  case scalew => cases hx; rw [exec_scalew]; unfold execScalew; exact ⟨_, rfl⟩
  case genseed => cases hx; rw [exec_genseed]; unfold execGenseed; exact ⟨_, rfl⟩
  case fwait => cases hx; rw [exec_fwait]; unfold execFwait; exact ⟨_, rfl⟩
  case fcnt => cases hx; rw [exec_fcnt]; unfold execFcnt; exact ⟨_, rfl⟩
  case fstop => cases hx; rw [exec_fstop]; unfold execFstop; exact ⟨_, rfl⟩
  case frun => cases hx; rw [exec_frun]; unfold execFrun; exact ⟨_, rfl⟩
  all_goals cases hx

/-- ST and the atomics fire through `fireMem`. -/
theorem exec_ahead {x : Instr} {opc : Nat} {f : Fields} (s : State) (hx : x.slotFields = some (opc, f))
    (ho : translatesAhead opc = true) : ∃ m align a go early, f = .m m ∧ exec x s = fireMem opc m s align a go early := by
  cases x
  case st => cases hx; rw [exec_st]; unfold execSt; exact ⟨_, _, _, _, _, rfl, rfl⟩
  case aadd => cases hx; rw [exec_aadd]; unfold execAadd atomicOp; exact ⟨_, _, _, _, _, rfl, rfl⟩
  case aand => cases hx; rw [exec_aand]; unfold execAand atomicOp; exact ⟨_, _, _, _, _, rfl, rfl⟩
  case aor => cases hx; rw [exec_aor]; unfold execAor atomicOp; exact ⟨_, _, _, _, _, rfl, rfl⟩
  case axor => cases hx; rw [exec_axor]; unfold execAxor atomicOp; exact ⟨_, _, _, _, _, rfl, rfl⟩
  case amin => cases hx; rw [exec_amin]; unfold execAmin atomicOp; exact ⟨_, _, _, _, _, rfl, rfl⟩
  case amax => cases hx; rw [exec_amax]; unfold execAmax atomicOp; exact ⟨_, _, _, _, _, rfl, rfl⟩
  case aminu => cases hx; rw [exec_aminu]; unfold execAminu atomicOp; exact ⟨_, _, _, _, _, rfl, rfl⟩
  case amaxu => cases hx; rw [exec_amaxu]; unfold execAmaxu atomicOp; exact ⟨_, _, _, _, _, rfl, rfl⟩
  case aswp => cases hx; rw [exec_aswp]; unfold execAswp atomicOp; exact ⟨_, _, _, _, _, rfl, rfl⟩
  case acas => cases hx; rw [exec_acas]; unfold execAcas atomicOp; exact ⟨_, _, _, _, _, rfl, rfl⟩
  all_goals first | cases hx; done | (cases hx; exact absurd ho (by decide))

/-- A slot that awaits an operand still does nothing. -/
theorem fireOp_wait {x : Instr} {opc : Nat} {f : Fields} {s : State} {n : Inst} {b : Block} {r : SlotRec}
    {needs : List (Bool × Option Val)} (go : Firing → State) (hx : x.slotFields = some (opc, f)) (ha : translatesAhead opc = false)
    (h : waitingSlot x s = some (n, b, r, needs)) (hf : fate needs (predOf f) r.p = .wait) : fireOp opc f s go = .next s := by
  unfold waitingSlot at h
  rw [hx] at h
  unfold fireOp
  split at h
  · rename_i g hc
    split at h
    · rename_i hr
      split at h
      · rename_i hw
        cases h
        cases g
        rw [hc, hr]
        simp only [unfired, ha, Bool.false_and, Bool.or_false, beq_iff_eq] at hw
        simp only [hw, hf]
      · cases h
    · cases h
  · cases h

/-- A squashed slot is marked, and an exit's block looks whether an exit is left (R203, R246). -/
theorem fireOp_squash {x : Instr} {opc : Nat} {f : Fields} {row : Row} {s : State} {n : Inst} {b : Block} {r : SlotRec}
    {needs : List (Bool × Option Val)} (go : Firing → State) (hx : x.slotFields = some (opc, f)) (ha : translatesAhead opc = false) (hrow : rowOf opc = some row)
    (h : waitingSlot x s = some (n, b, r, needs)) (hf : fate needs (predOf f) r.p = .squash) :
    fireOp opc f s go = .next (if isExit row then
      exitCheck (s.modSlot s.cur.1 s.cur.2 fun r => { r with st := .squashed }) s.cur.1
      else s.modSlot s.cur.1 s.cur.2 fun r => { r with st := .squashed }) := by
  unfold waitingSlot at h
  rw [hx] at h
  unfold fireOp
  split at h
  · rename_i g hc
    split at h
    · rename_i hr
      split at h
      · rename_i hw
        cases h
        cases g
        rw [hc, hr]
        rw [hr] at hrow
        cases hrow
        simp only [unfired, ha, Bool.false_and, Bool.or_false, beq_iff_eq] at hw
        simp only [hw, hf]
      · cases h
    · cases h
  · cases h

/-- A nullified slot delivers null to its targets (R204). -/
theorem fireOp_nullify {x : Instr} {opc : Nat} {f : Fields} {row : Row} {s : State} {n : Inst} {b : Block} {r : SlotRec}
    {needs : List (Bool × Option Val)} (go : Firing → State) (hx : x.slotFields = some (opc, f)) (ha : translatesAhead opc = false) (hrow : rowOf opc = some row)
    (h : waitingSlot x s = some (n, b, r, needs)) (hf : fate needs (predOf f) r.p = .nullify) :
    fireOp opc f s go = .next (deliverNull (if isExit row then
      exitCheck (s.modSlot s.cur.1 s.cur.2 fun r => { r with st := .nullified }) s.cur.1
      else s.modSlot s.cur.1 s.cur.2 fun r => { r with st := .nullified }) s.cur.1 (targets row f)) := by
  unfold waitingSlot at h
  rw [hx] at h
  unfold fireOp
  split at h
  · rename_i g hc
    split at h
    · rename_i hr
      split at h
      · rename_i hw
        cases h
        cases g
        rw [hc, hr]
        rw [hr] at hrow
        cases hrow
        simp only [unfired, ha, Bool.false_and, Bool.or_false, beq_iff_eq] at hw
        simp only [hw, hf]
      · cases h
    · cases h
  · cases h

/-- What an ST or atomic that does not fire does: nothing without its address or before its predicate; squashed or
nullified as any other slot (R203, R204). -/
theorem fireMem_unfired {x : Instr} {opc align : Nat} {f : MOp} {row : Row} {s : State} {n : Inst} {b : Block} {r : SlotRec}
    {needs : List (Bool × Option Val)} {a : Inst → Access} (go early : Firing → State → List Piece → State)
    (hx : x.slotFields = some (opc, .m f)) (hrow : rowOf opc = some row) (h : waitingSlot x s = some (n, b, r, needs)) :
    (fate needs f.pr r.p = .wait → ((∀ v, r.l ≠ some (.val v)) ∨ (f.pr ≠ .always ∧ r.p = none)) →
      fireMem opc f s align a go early = .next s)
    ∧ (fate needs f.pr r.p = .squash →
      fireMem opc f s align a go early = .next (s.modSlot s.cur.1 s.cur.2 fun r => { r with st := .squashed }))
    ∧ (fate needs f.pr r.p = .nullify → fireMem opc f s align a go early =
      .next (deliverNull (s.modSlot s.cur.1 s.cur.2 fun r => { r with st := .nullified }) s.cur.1 (targets row (.m f)))) := by
  unfold waitingSlot at h
  rw [hx] at h
  unfold fireMem
  split at h
  · rename_i g hc
    split at h
    · rename_i hr
      split at h
      · rename_i hw
        cases h
        cases g
        rw [hr] at hrow
        cases hrow
        rw [hc, hr]
        simp only [unfired, Bool.and_eq_true, Bool.or_eq_true, beq_iff_eq] at hw
        have hs : r.st = .waiting ∨ r.st = .walking ∨ r.st = .translated := by
          rcases hw with h | ⟨_, h⟩
          · exact .inl h
          · exact .inr (.inr h)
        dsimp only
        rw [if_pos hs]
        refine ⟨fun hf hl => ?_, fun hf => ?_, fun hf => ?_⟩
        · rw [hf]
          dsimp only
          split
          · rename_i v hv
            rcases hl with hl | hl
            · exact absurd hv (hl v)
            · rw [if_pos (Or.inr ⟨hl.1, by rw [hl.2]; rfl⟩)]
          · rfl
        · rw [hf]
        · rw [hf]
      · cases h
    · cases h
  · cases h

end Sys2Proof.Machine
end

