-- ==== Sys2Proof/Tests/Slice0.lean ====
section
/-! SUPPORT. Tests of the model: the refusals of WellFormed, decoding of words written out from the spec, the spec's worked
examples, and for every statement of Obligations.lean states that meet its hypotheses. -/

namespace Sys2Proof.Tests

set_option Elab.async false

open Sys2Proof Sys2Proof.Machine Sys2Proof.Bits Sys2Proof.Rows

/-! ## States to test on -/

/-- A context of tenant 1 that may use all of every cabinet. -/
def desc1 : CtxDesc := ⟨1, 0, 0, 0, 0, List.replicate 8 (0, 32)⟩

/-- The module up, with context 0. -/
def up : State := { State.reset with bringup := .up, contexts := [(0, ⟨desc1, 0x40, 1⟩)] }

/-- A context on cluster 0 in a block of one slot with this word, its operands delivered; the slot is the firing one. -/
def put (w : Word) (s : State) : State := { s.withFetchWord 64 w.toNat with agenda := [] }

/-- The same for an instruction's own word. -/
def puts (x : Instr) (s : State) : State := put ((encode x).getD 0) s

/-- The instruction fires there: some `fr` has `firing x s = some fr`. -/
def fires (x : Instr) (s : State) : Bool := (firing x (puts x s)).isSome

/-- The state with the operands of the slot at given words. -/
def opnds (l r p : Word) (s : State) : State :=
  s.modSlot 0 0 fun q => { q with l := some (.val l), r := some (.val r), p := some (.val p) }

def g0 : GOp := ⟨false, .d, .always, .none, .none, 0⟩
def m0 : MOp := ⟨.d, false, .cab, 0, .always, .plain, .core, .none, 0⟩
def b0 : BOp := ⟨.always, .none, 0⟩
def e0 : EOp := ⟨.virt, false, .core, .always, .none, .none, 0, 0⟩

/-- What a step answers, read by a Boolean. -/
def after (s : State) (p : State → Bool) : Bool :=
  match step s with
  | .next t => p t
  | _ => false

/-- What an instruction answers, read by a Boolean. -/
def gives (x : Instr) (s : State) (p : State → Bool) : Bool :=
  match exec x s with
  | .next t => p t
  | _ => false

/-- Register-like reading of the first write entry of context 0's block. -/
def out0 (s : State) : Option Val := ((s.blk? 0).bind fun b => b.writes[0]?).join

/-! ## Well-formedness: each check refuses a term -/

/-- R213: with I = 0, IMM24 is not used by ADD. -/
theorem test_wf_imm_unused : (Instr.add { g0 with imm := 1 }).wf = false := by decide +kernel
/-- R213: FAN has no immediate form. -/
theorem test_wf_no_immediate : (Instr.fan { g0 with i := true }).wf = false := by decide +kernel
/-- R227: NULL has WIDTH 0. -/
theorem test_wf_null_width : (Instr.null { g0 with w := .ws }).wf = false := by decide +kernel
/-- R234: the field of BFX reaches past bit 63: lo 1, len 64. -/
theorem test_wf_field_past_top : (Instr.bfx { g0 with imm := 0xFC1 }).wf = false := by decide +kernel
/-- R237: WID has no selector 14. -/
theorem test_wf_wid : (Instr.wid { g0 with imm := 14 }).wf = false := by decide +kernel
/-- R239: CTX has no selector 7. -/
theorem test_wf_ctx : (Instr.ctx { g0 with imm := 7 }).wf = false := by decide +kernel
/-- R248: LD is PLAIN or ACQ. -/
theorem test_wf_load_order : (Instr.ld { m0 with ord := .rel }).wf = false := by decide +kernel
/-- R249: ST has no target. -/
theorem test_wf_store_target : (Instr.st { m0 with t1 := .opnd 1 .L }).wf = false := by decide +kernel
/-- R250: PFT has SZ 0. -/
theorem test_wf_prefetch_size : (Instr.pft { m0 with sz := .w }).wf = false := by decide +kernel
/-- R254: a FENCE names some kind. -/
theorem test_wf_fence_kinds : (Instr.fence { m0 with sz := .b, as := .virt, ord := .acqrel, off := 0 }).wf = false := by decide +kernel
/-- R215: atomics are of 4 or 8 bytes. -/
theorem test_wf_atomic_size : (Instr.aadd { m0 with sz := .h }).wf = false := by decide +kernel
/-- R203: ACAS has PR 00. -/
theorem test_wf_cas_predicate : (Instr.acas { m0 with pr := .ifTrue }).wf = false := by decide +kernel
/-- R216: BR has no target. -/
theorem test_wf_exit_target : (Instr.br { b0 with t1 := .write 0 }).wf = false := by decide +kernel
/-- R261: SEMPOST adds at least 1. -/
theorem test_wf_post_zero : (Instr.sempost { e0 with scope := .core, imm := 0 }).wf = false := by decide +kernel
/-- R281: no system register has the number 0xFFFFFF. -/
theorem test_wf_system_register : (Instr.sysr { e0 with imm := 0xFFFFFF }).wf = false := by decide +kernel
/-- R281: CYC is read only. -/
theorem test_wf_read_only : (Instr.sysw { e0 with imm := 0x20 }).wf = false := by decide +kernel
/-- R201: no write entry has the number 127; those bits are the absent target. -/
theorem test_wf_target : (Instr.add { g0 with t1 := .write 127 }).wf = false := by decide +kernel
/-- R322: ACCD takes at most format code 4. -/
theorem test_wf_accd : (Instr.accd { e0 with imm := 5 }).wf = false := by decide +kernel

/-! ## Decoding: words written out from R212 to R217, a field at a time from bit 63 down -/

/-- ADD: OPC 0x10, I 0, 00, WIDTH 01, PR 00, T1 slot 5 L (000010100), T2 absent, 6 zeros, IMM24 0. -/
theorem test_decode_add : decodeSlot (0x10#8 ++ 0b0#1 ++ 0b00#2 ++ 0b001#3 ++ 0b00#2 ++ 0b000010100#9 ++ 0b111111111#9 ++ 0#6 ++ 0#24)
    = .ok (.add { g0 with w := .ws, t1 := .opnd 5 .L }) := by decide +kernel
/-- DIVU with an immediate, true on P, to write entry 1 (000000111) and slot 3 P (000001110). -/
theorem test_decode_divu : decodeSlot (0x16#8 ++ 0b1#1 ++ 0b00#2 ++ 0b000#3 ++ 0b01#2 ++ 0b000000111#9 ++ 0b000001110#9 ++ 0#6 ++ 7#24)
    = .ok (.divu ⟨true, .d, .ifTrue, .write 1, .opnd 3 .P, 7⟩) := by decide +kernel
/-- A reserved bit of format G is set. -/
theorem test_decode_reserved : decodeSlot (0x10#8 ++ 0b0#1 ++ 0b01#2 ++ 0b000#3 ++ 0b00#2 ++ 511#9 ++ 511#9 ++ 0#6 ++ 0#24)
    = .error .field := by decide +kernel
/-- LD: SZ 01, SG 1, AS 00, LSID 3, PR 00, ORD 001, SCOPE 011, T1 slot 2 R, 4 zeros, OFF -8. -/
theorem test_decode_ld : decodeSlot (0x60#8 ++ 0b001#3 ++ 0b1#1 ++ 0b00#2 ++ 3#5 ++ 0b00#2 ++ 0b001#3 ++ 0b011#3 ++ 0b000001001#9 ++ 0#4 ++ 0xFFFFF8#24)
    = .ok (.ld ⟨.h, true, .virt, 3, .always, .acq, .die, .opnd 2 .R, 0xFFFFF8⟩) := by decide +kernel
/-- AMAXU of 8 bytes, ORD 010, SCOPE 101, OFF 16. -/
theorem test_decode_amaxu : decodeSlot (0x6F#8 ++ 0b011#3 ++ 0b0#1 ++ 0b10#2 ++ 31#5 ++ 0b10#2 ++ 0b010#3 ++ 0b101#3 ++ 511#9 ++ 0#4 ++ 16#24)
    = .ok (.amaxu ⟨.d, false, .war, 31, .ifFalse, .rel, .system, .none, 16⟩) := by decide +kernel
/-- CALLI: OPC 0xA3, 6 zeros, PR 10, T1 write entry 2, 15 zeros, OFF24. -/
theorem test_decode_calli : decodeSlot (0xA3#8 ++ 0#6 ++ 0b10#2 ++ 0b000001011#9 ++ 0#15 ++ 0#24)
    = .ok (.calli ⟨.ifFalse, .write 2, 0⟩) := by decide +kernel
/-- CHSEND: AS 00, CH 1, SCOPE 000, PR 00, T1 and T2 absent, SEL 0, IMM24 0. -/
theorem test_decode_chsend : decodeSlot (0x78#8 ++ 0b00#2 ++ 0b0#1 ++ 0b000#3 ++ 0b00#2 ++ 511#9 ++ 511#9 ++ 0#6 ++ 0#24)
    = .ok (.chsend e0) := by decide +kernel
/-- CPYC: SEL 9, IMM24 5. -/
theorem test_decode_cpyc : decodeSlot (0x91#8 ++ 0b00#2 ++ 0b0#1 ++ 0b000#3 ++ 0b00#2 ++ 511#9 ++ 511#9 ++ 9#6 ++ 5#24)
    = .ok (.cpyc { e0 with sel := 9, imm := 5 }) := by decide +kernel
/-- SYSR of CYC (0x20) to slot 1 L. -/
theorem test_decode_sysr : decodeSlot (0xB0#8 ++ 0b00#2 ++ 0b0#1 ++ 0b000#3 ++ 0b00#2 ++ 0b000000100#9 ++ 511#9 ++ 0#6 ++ 0x20#24)
    = .ok (.sysr { e0 with t1 := .opnd 1 .L, imm := 0x20 }) := by decide +kernel
/-- FWAIT for FMARK alone. -/
theorem test_decode_fwait : decodeSlot (0xC9#8 ++ 0b00#2 ++ 0b0#1 ++ 0b000#3 ++ 0b00#2 ++ 0b000000100#9 ++ 511#9 ++ 0#6 ++ 1#24)
    = .ok (.fwait { e0 with t1 := .opnd 1 .L, imm := 1 }) := by decide +kernel

/-- A table word is read as the slot it is, and it is what the next step runs. -/
theorem test_table_word : decodeTableWord 64 0x1000FFFFC0000000 = some (.add g0) := by decide +kernel
theorem test_first_step : after (up.withFetchWord 64 0x1000FFFFC0000000) (fun t => slotStOf t 0 0 == some .done) = true := by decide +kernel

/-! ## The spec's worked examples: slot images, and one step each -/

/-- The slot images of R213, R215, R226, R227, R232, R234, R237 and R254. -/
theorem test_image_add : decodeSlot 0x10800A00C0000008 = .ok (.add ⟨true, .d, .always, .opnd 5 .L, .write 0, 8⟩) := by decide +kernel
theorem test_image_ld : decodeSlot 0x605061A380000010 = .ok (.ld ⟨.w, true, .virt, 3, .always, .acq, .system, .opnd 14 .L, 16⟩) := by decide +kernel
theorem test_image_fan : decodeSlot 0x0100020200001810 = .ok (.fan ⟨false, .d, .always, .opnd 1 .L, .opnd 2 .L, 0x1810⟩) := by decide +kernel
theorem test_image_null : decodeSlot 0x020205FFC0000000 = .ok (.null ⟨false, .d, .ifFalse, .write 2, .none, 0⟩) := by decide +kernel
theorem test_image_sra : decodeSlot 0x1F8401FFC0000004 = .ok (.sra ⟨true, .ws, .always, .write 0, .none, 4⟩) := by decide +kernel
theorem test_image_bfx : decodeSlot 0x3500047FC00012C8 = .ok (.bfx ⟨false, .d, .always, .opnd 2 .L, .none, 0x12C8⟩) := by decide +kernel
theorem test_image_wid : decodeSlot 0x500003FFC0000002 = .ok (.wid ⟨false, .d, .always, .write 1, .none, 2⟩) := by decide +kernel
theorem test_image_fence : decodeSlot 0x7400439FF000000A
    = .ok (.fence ⟨.b, false, .virt, 2, .always, .acqrel, .module, .none, 0xA⟩) := by decide +kernel

/-- Images of the tables of chapters 10 to 14, each beside its canonical statement there. -/
theorem test_images : ([
    (0x0300027FC0000123, .movi ⟨false, .d, .always, .opnd 1 .L, .none, 0x123⟩), (0x0400047FC0456789, .appi ⟨false, .d, .always, .opnd 2 .L, .none, 0x456789⟩),
    (0xA000FF8000000002, .br ⟨.always, .none, 2⟩), (0xA100FF8000000000, .bri ⟨.always, .none, 0⟩),
    (0xA200078000FFFFD8, .call ⟨.always, .write 3, -40⟩), (0xA401FF8000000000, .halt ⟨.ifTrue, .none, 0⟩),
    (0xA500FF8000000042, .trap ⟨.always, .none, 0x42⟩),
    (0x60444000C0000040, .ld ⟨.w, false, .cab, 2, .always, .plain, .core, .opnd 3 .L, 0x40⟩),
    (0x6160229FF0000008, .st ⟨.d, false, .virt, 1, .always, .rel, .module, .none, 8⟩),
    (0x6200A01FF0000000, .pft ⟨.b, false, .virt, 5, .always, .plain, .core, .none, 0⟩),
    (0x6860038070000000, .aadd ⟨.d, false, .virt, 0, .always, .acqrel, .module, .write 1, 0⟩),
    (0x7140246100000000, .acas ⟨.w, false, .virt, 1, .always, .sc, .die, .opnd 4 .L, 0⟩),
    (0x794001FFC0000000, .chrecv { e0 with as := .cab, t1 := .write 0 }), (0x7A000181C0000000, .chtry { e0 with t1 := .write 0, t2 := .write 1 }),
    (0x800805FFC5000001, .semwait { e0 with scope := .cluster, t1 := .write 2, sel := 5, imm := 1 }),
    (0x8110FFFFC5000003, .sempost { e0 with scope := .module, sel := 5, imm := 3 }),
    (0x850C067FC0000000, .bararr { e0 with scope := .die, t1 := .opnd 3 .L }), (0x860C01FFC0000000, .barwait { e0 with scope := .die, t1 := .write 0 }),
    (0x9000FFFFC7000000, .cpy { e0 with sel := 7 }), (0x9300FFFFCC000107, .xtload { e0 with sel := 12, imm := 0x107 }),
    (0x980001FFC0000000, .launch { e0 with t1 := .write 0 }), (0x9A00FFFFC0000000, .yield e0),
    (0xB00001FFC0000013, .sysr { e0 with t1 := .write 0, imm := 0x13 }), (0xB200FFFFC0000003, .tlbinv { e0 with imm := 3 }),
    (0xB400FFFFC0000000, .eret e0), (0xB50001FFC0000001, .waitev { e0 with t1 := .write 0, imm := 1 }),
    (0xC020FFFFC3000001, .src { e0 with ch := true, sel := 3, imm := 1 }), (0xC200 * 2 ^ 48 + 0x01FFC4000009, .accr { e0 with t1 := .write 0, sel := 4, imm := 9 }),
    (0xC600FFFFC100000C, .fmtw { e0 with sel := 1, imm := 0xC }), (0xCA0001FFE0000000, .fcnt { e0 with t1 := .write 0, sel := 32 }),
    (0xCC00FFFFC0000000, .frun e0)] : List (Word × Instr)).all (fun x =>
      (match decodeSlot x.1 with | .ok i => i == x.2 | _ => false) && encode x.2 == some x.1) = true := by decide +kernel

/-- The blocks written out in chapters 10 to 13 pass every check of R211 for an S context with no region. -/
theorem test_blocks : ([
    [0x0084100000080000, 0, 0x000000001001FF00, 0x1400, 0x108001FFC0000008, 0xA000FF8000000001, 0, 0],
    [0x020C200000300000, 0, 0x1409FF001001FF00, 0x00000000180BFF00, 0x000000001C001000, 0x1180018200000001, 0x150003FFC0000000,
     0x4180070480000000, 0xA001FF8000000000, 0xA002FF8000000002, 0, 0, 0, 0, 0, 0],
    [0x0208004000000000, 0, 0x000DFF002809FF00, 0x030002FFC0000001, 0x7160018080000000, 0x4080070480000000, 0xA001FF8000000001,
     0xA002FF8000000000],
    [0x0084004000000000, 0, 0x000000005001FF00, 0x9000FFFFC7000000, 0xA000FF8000000001, 0, 0, 0]] : List (List Word)).all
      (fun ws => decodeCheck ws true false == none) = true := by decide +kernel

/-- The word that a G slot of these operands writes to write entry 0 of its block. -/
def result (c : GOp → Instr) (f : GOp) (l r : Word) : Option Val :=
  let x := c { f with t1 := .write 0 }
  match exec x ((opnds l r 1 (puts x up)).modBlk 0 fun b => { b with writes := [none] }) with
  | .next t => out0 t
  | _ => none

/-- The table of R232. -/
theorem test_div_lowest : result .div g0 0x8000000000000000 (-1) = some (.val 0x8000000000000000) := by decide +kernel
theorem test_rem_lowest : result .rem g0 0x8000000000000000 (-1) = some (.val 0) := by decide +kernel
theorem test_div_zero : result .div g0 7 0 = some (.val 0) := by decide +kernel
theorem test_rem_zero : result .rem g0 7 0 = some (.val 7) := by decide +kernel
theorem test_remu_zero : result .remu { g0 with w := .ws } 0xFFFFFFFF80000005 0 = some (.val 0xFFFFFFFF80000005) := by decide +kernel
theorem test_div_ws : result .div { g0 with w := .ws } (-7) 2 = some (.val (-3)) := by decide +kernel
theorem test_rem_ws : result .rem { g0 with w := .ws } (-7) 2 = some (.val (-1)) := by decide +kernel
theorem test_adds_ws : result .adds { g0 with w := .ws } 0x7FFFFFFF 1 = some (.val 0x7FFFFFFF) := by decide +kernel
theorem test_adds_wz : result .adds { g0 with w := .wz } 0x80000000 0xFFFFFFFF = some (.val 0x80000000) := by decide +kernel
theorem test_subus : result .subus g0 3 5 = some (.val 0) := by decide +kernel
theorem test_mulh : result .mulh g0 0x8000000000000000 2 = some (.val 0xFFFFFFFFFFFFFFFF) := by decide +kernel
theorem test_shl_past_width : result .shl g0 1 65 = some (.val 2) := by decide +kernel
/-- R232: SRA.ws #4; R233: BSWAP.wz; R234: the signed field at bits 19:8. -/
theorem test_sra_ws : result .sra { g0 with i := true, w := .ws, imm := 4 } 0x80000040 0 = some (.val 0xFFFFFFFFF8000004) := by decide +kernel
theorem test_bswap_wz : result .bswap { g0 with w := .wz } 0x1122334455667788 0 = some (.val 0x88776655) := by decide +kernel
theorem test_bfx_signed : result .bfx { g0 with imm := 0x12C8 } 0xFFF00 0 = some (.val (-1)) := by decide +kernel

/-! ## Witnesses: states and operands that meet the hypotheses of each statement

`(firing x s).isSome`, `(s.inst? i).isSome` and the like stand for the value that a hypothesis names; a hypothesis
`f = (u, .ok v)` is met where `f` answers `.ok`. -/

/-- An `Except` that is a value. -/
def isOk {α β : Type} : Except α β → Bool
  | .ok _ => true
  | .error _ => false

theorem wit_BreakAndUnlistedRefused : (0xA600000000000001 : Word).toNat / 2 ^ 56 = 0xA6 ∧ (0xFF00000000000000 : Word).toNat / 2 ^ 56 = 0xFF := by decide +kernel

/-- StepRunsDecodedSlot: the first firing after reset. -/
theorem wit_StepRunsDecodedSlot :
    let s := up.withFetchWord 64 0x1000FFFFC0000000
    (nextMove s).1 = .slot 0 0 ∧ slotWordOf (nextMove s).2 0 0 = some 0x1000FFFFC0000000
      ∧ isOk (decodeSlot 0x1000FFFFC0000000) = true := by decide +kernel

theorem wit_StepRunsEventsAndTime :
    (nextMove { up with agenda := [.event .heartbeat] }).1 = .event .heartbeat ∧ Instr.heartbeat.slotFields = none
      ∧ (nextMove { up with agenda := [.tick 5] }).1 = .tick 5 ∧ State.reset.agenda = [] ∧ State.reset.bringup = .off
      ∧ ({ up with bringup := .failed 1 } : State).agenda = [] ∧ up.agenda = [] ∧ up.bringup = .up
      ∧ linkAccepts up .heartbeat = true
      ∧ linkAccepts { up with bringup := .failed 1 } (.hostRead 0 0 true 0xFF8 8 false 0) = true
      ∧ linkAccepts { up with bringup := .failed 1 } (.hostRead 0 0 true 0x1000 8 false 0) = false
      ∧ linkAccepts State.reset (.hostAtomicop ⟨0, 0⟩ 0) = false := by decide +kernel

/-- The block of one HALT, at address 0 of the cabinet window of a context that fetches there, is fetched. -/
theorem wit_StepKeepsMemoryForm : up.mem.wf = true ∧ after (up.withFetchWord 64 0x1000FFFFC0000000) (fun _ => true) = true := by decide +kernel

/-- SlotWaitsForItsOperands: an ADD whose right operand has not arrived. -/
theorem wit_SlotWaitsForItsOperands :
    let s := (puts (.add g0) up).modSlot 0 0 fun r => { r with r := none }
    (Instr.add g0).slotFields = some (0x10, .g g0) ∧ (match waitingSlot (.add g0) s with
      | some (_, _, _, needs) => needs.contains (true, none)
      | none => false) = true ∧ predOf (.g g0) = .always := by decide +kernel

/-- SquashAndNull: a true-predicated ADD with the condition 0; a false-predicated HALT with the condition 1; one whose
condition is null; an ADD with a null left operand, alone and under a true condition. -/
theorem wit_SquashAndNull :
    (let x := Instr.add { g0 with pr := .ifTrue }
     (waitingSlot x (opnds 1 2 0 (puts x up))).isSome = true ∧ (rowOf 0x10).isSome = true)
    ∧ (let x := Instr.halt { b0 with pr := .ifFalse }
       (waitingSlot x (opnds 1 2 1 (puts x up))).isSome = true ∧ (rowOf 0xA4).isSome = true)
    ∧ (let x := Instr.add { g0 with pr := .ifFalse }
       (waitingSlot x ((puts x up).modSlot 0 0 fun r => { r with p := some .null })).isSome = true)
    ∧ (∀ pr ∈ [Pred.always, .ifTrue], let x := Instr.add { g0 with pr }
       x.wf = true ∧ (match waitingSlot x ((puts x up).modSlot 0 0 fun r => { r with l := some .null }) with
         | some (_, _, _, needs) => !needs.contains (true, none) && needs.contains (true, some .null)
         | none => false) = true) := by decide +kernel

/-- A block with one empty and one filled operand and write entry. -/
def delivered : State :=
  (puts (.add g0) up).modBlk 0 fun b => { b with slots := [SlotRec.empty, fedSlot .always], writes := [none, some (.val 1)] }

theorem wit_DeliveryReachesItsTargetOnce :
    (delivered.blk? 0).isSome = true ∧ delivered.due? 0 = none
      ∧ (delivered.blk? 0).map (fun b => (b.slots.map fun r => r.l, b.writes))
        = some ([none, some (.val 0)], [none, some (.val 1)]) := by decide +kernel

/-- The G opcodes. -/
def gOps : List (GOp → Instr) :=
  [.fan, .null, .movi, .appi, .add, .sub, .mul, .mulh, .mulhu, .div, .divu, .rem, .remu, .and, .or, .xor, .andn, .shl, .shr, .sra,
   .rol, .ror, .min, .max, .minu, .maxu, .adds, .subs, .addus, .subus, .clz, .ctz, .popc, .bswap, .sext, .zext, .neg, .not,
   .abs, .bfx, .bfi, .teq, .tne, .tlt, .tltu, .tle, .tleu, .tgt, .tgtu, .tge, .tgeu, .tbs, .tbc, .sel, .wid, .time, .cyc,
   .ctx]

/-- Every statement about a G opcode: it fires. -/
theorem wit_g : gOps.all (fun c => fires (c g0) up) = true := by decide +kernel

/-- BitFieldResults: the widest fields at each end, lo 0 with len 64 and lo 63 with len 1. -/
theorem wit_BitFieldResults : fires (.bfx { g0 with imm := 0xFC0 }) up = true ∧ fires (.bfi { g0 with imm := 63 }) up = true := by
  decide +kernel

/-! ### Blocks -/

/-- A page of 512 MiB at address 0 that everything may use, translated as itself, in the TLBs of cluster 0 and die 0. -/
def mapped : State :=
  { up with tlb := [⟨.cluster 0, false, 0, 0, 29, 0x3F, 0x1000, 0⟩, ⟨.die 0, false, 0, 0, 29, 0x3F, 0x1000, 0⟩] }

/-- A context at a boundary, its next block at 0x80. -/
def idle : Inst := { placedInst 0 with ctl := Ctl.fresh 0x80 0 }

/-- The state with context 0 as given. -/
def solo (s : State) (n : Inst) : State := { s with insts := [(0, n)] }

/-- The word of HALT. -/
def haltWord : Word := 0xA400FF8000000000

/-- A block of these words stands in core 0's block cache for `idle`. -/
def cached (ws : List Word) : State := (solo up idle).modCore 0 fun c => { c with blocks := [(0, 0x80, ws)] }

/-- FetchedBlocksDecode and BlockFetchAndItsChecks: a good block from the block cache, and one with BRK. -/
theorem wit_FetchedBlocksDecode :
    (cached (oneSlotBlock haltWord)).blk? 0 = none ∧ gives (.blockFetch 0) (cached (oneSlotBlock haltWord)) (fun t =>
      ((t.blk? 0).map fun b => decide (0 < Layout.nslot b.words)) == some true) = true := by decide +kernel

theorem wit_BlockFetchAndItsChecks :
    (cached []).walks = [] ∧ (((cached []).inst? 0).map fun n => (n.life == .running && n.ctl.blk.isNone && n.ctl.due.isNone && n.ctl.async.isEmpty
        && n.ctl.wait.isEmpty)) = some true
    ∧ (((cached (oneSlotBlock haltWord)).core 0).blocks.find? fun b => b.1 == cacheCtx idle && b.2.1 == idle.ctl.next)
        = some (0, 0x80, oneSlotBlock haltWord)
    ∧ decodeCheck (oneSlotBlock haltWord) false false = none
    ∧ (decodeCheck (oneSlotBlock 0xA6FFFFFFFFFFFFFF) false false).isSome = true
    ∧ ([(0xA600000000000000 : Word), 0, (encode (.tlbinv { e0 with imm := 3 })).getD 0].all fun w =>
        !headerBad (oneSlotBlock w) && !entriesBad (oneSlotBlock w) && decide (0 < Layout.nslot (oneSlotBlock w))
          && (slotsCheck (oneSlotBlock w) false false [] (List.range 0)).isNone) = true
    ∧ decodeSlot (Layout.slotWord (oneSlotBlock 0) 0) = .error .unlisted
    ∧ decodeSlot (Layout.slotWord (oneSlotBlock ((encode (.tlbinv { e0 with imm := 3 })).getD 0)) 0)
        = .ok (.tlbinv { e0 with imm := 3 }) := by decide +kernel

/-- A block with one read entry, x5 to write entry 0, that entry for x6, and the slots MOVI and HALT. -/
def rwBlock : List Word :=
  [0x0084100000000000, 0, 0x000000001407FF00, 0x1800, (encode (.movi { g0 with i := true, imm := 1 })).getD 0, haltWord, 0, 0]

/-- A block not yet started, in context 0. -/
def unstarted (c : Ctl) (ws : List Word) : State := solo up { idle with ctl := { c with blk := some (Block.fresh 0x80 ws) } }

/-- BlockStartDeliversItsRegisters: a register that the block reads is pending; none is. -/
theorem wit_BlockStartDeliversItsRegisters :
    Layout.nread rwBlock = 1 ∧ Layout.nwrite rwBlock = 1
      ∧ ((Ctl.fresh 0x80 0).setPending (Layout.readEntry rwBlock 0).1 true).isPending (Layout.readEntry rwBlock 0).1 = true
      ∧ ((Ctl.fresh 0x80 0).setPending (Layout.writeReg rwBlock 0) true).isPending (Layout.writeReg rwBlock 0) = true
      ∧ ((unstarted (Ctl.fresh 0x80 0) rwBlock).blk? 0).map (fun b => b.started) = some false
      ∧ (Ctl.fresh 0x80 0).pending = 0 := by decide +kernel

/-- ExitsChooseWhatFollows: each exit fires, BRI and CALLI at an aligned and at an unaligned address, with another exit
fired before or not. -/
theorem wit_ExitsChooseWhatFollows :
    ([.br b0, .bri b0, .call b0, .calli b0, .halt b0, .trap b0, .eret e0].all fun x => fires x up) = true
    ∧ ([(0x40 : Word), 0x41].all fun l => [Instr.bri b0, .calli b0].all fun x =>
        (firing x (opnds l 0 1 (puts x up))).map (fun fr => fr.l) == some l) = true
    ∧ (∀ x ∈ [Instr.br b0, .halt b0, .trap b0],
        (firing x ((puts x up).modBlk 0 fun b => { b with exit := some (3, .halt) })).map (fun fr => fr.b.exit.isSome) = some true) := by
  decide +kernel

/-- A block of two write entries, its slots done and its exit chosen, that may commit. -/
def closing (ws : List Word) (writes : List (Option Val)) (e : ExitTo) (c : Ctl) : Inst :=
  { idle with ctl := { c with blk := some { Block.fresh 0x80 ws with
      started := true, writes, slots := List.replicate (Layout.nslot ws) { SlotRec.empty with st := .done }, exit := some (0, e) } } }

/-- Whether the context's block may commit with what CommitWritesItsRegisters and CommitEndsWithItsExit ask besides. -/
def ready (n : Inst) : Bool :=
  match n.ctl.blk with
  | some b => committable (solo up n) 0 n b && b.acts.isEmpty && !Layout.isNest b.words
      && decide (((List.range (Layout.nwrite b.words)).map (Layout.writeReg b.words)).Nodup)
      && b.writes.length == Layout.nwrite b.words
  | none => false

/-- CommitWritesItsRegisters: a value for x6, and no value; with a held store. -/
theorem wit_CommitWritesItsRegisters :
    (∀ v ∈ [Val.val 7, .null], ready (closing rwBlock [some v] (.block 0x40) (Ctl.fresh 0x80 0)) = true)
    ∧ Layout.writeReg rwBlock 0 = 6
    ∧ (let n := closing rwBlock [some .null] (.block 0x40) (Ctl.fresh 0x80 0)
       let n := { n with ctl := { n.ctl with blk := n.ctl.blk.map fun b => { b with
         held := [⟨32, 0, [⟨0x100, 8, false⟩], List.replicate 8 1, none, none⟩] } } }
       ready n = true ∧ (n.ctl.blk.map fun b => b.held.length) = some 1) := by decide +kernel

/-- A region that a trap held, with a nest that was asked to run. -/
def heldRegion : Region :=
  { Region.fresh ⟨0, 0, 4, 4⟩ 0 0 [] with
    phase := .held, heldBy := [1], nest := some ⟨0, [], [], 0, 0, 0, true, 0, false, true, false, []⟩ }

/-- CommitEndsWithItsExit: HALT, TRAP at either level, ERET with and without a region to run again. -/
theorem wit_CommitEndsWithItsExit :
    (∀ e ∈ [ExitTo.halt, .trap 0, .trap 0xFFFFFF, .eret], ∀ sup ∈ [false, true],
      ready (closing (oneSlotBlock haltWord) [] e { Ctl.fresh 0x80 0 with cur := sup }) = true)
    ∧ (let n := closing (oneSlotBlock haltWord) [] .eret { Ctl.fresh 0x80 0 with
         cur := true, traps := [⟨0x20, 0, 0xC0, 0, none, some [], 1⟩] }
       [[1], [1, 2]].all (fun by_ => ready { n with reg := some { heldRegion with heldBy := by_ } }) = true) := by decide +kernel

/-- BlockStallTimer: at the limit, one cycle before it, and bound. -/
theorem wit_BlockStallTimer :
    (∀ c ∈ [(1048575 : Nat), 1048576], ∀ bound ∈ [false, true],
      let s := { (puts (.halt b0) up).modBlk 0 (fun b => { b with bound }) with cycle := c }
      ((s.inst? 0).map fun n => (n.life == .running && n.ctl.due.isNone)) = some true
        ∧ (s.blk? 0).map (fun b => (b.started, b.bound)) = some (true, bound)) := by decide +kernel

/-- A handler's address 0x100 stands at 0x40 + 8 · 9, the vector of BREAK, and at that of an asynchronous DATA_ERR. -/
def vectors : State := { mapped with mem := (mapped.mem.writeN 0x88 (leBytes 8 0x100)).writeN 0x140 (leBytes 8 0x100) }

/-- A context with a BREAK due and a vector base of 0x40, in the state where its trap is taken. -/
def broken : Inst := { idle with ctl := { idle.ctl with vecbase := 0x40, due := some ⟨0x09, 0x80, 3, 0, none, none, 0⟩ } }

theorem wit_TrapEntryTakesTheFault :
    (let s := (solo vectors broken).modCtl 0 fun c => c.enterTrap ⟨0x09, 0x80, 3, 0, none, none, 0⟩
     (match xlate s (some 0) 0 0 0 .virt 0x88 8 8 1 ⟨.core, true, false, false, true⟩ true with
      | (u, .ok [p]) => u.insts == s.insts && p.n == 8 && u.poison == [] && !isDeviceKey p.key && leNat (u.bytes p.key 8) == 0x100
      | _ => false) = true)
    ∧ broken.life = .running ∧ underReset (solo vectors broken) 0 = false ∧ broken.ctl.blk = none ∧ broken.ctl.due.isSome = true
    ∧ (let s := puts (.halt b0) up
       ((s.blk? 0).map fun b => (b.bound, undecided s 0 b)) = some (false, false))
    ∧ ({ idle.ctl with async := [⟨0x20, 0, 0xC1, 0, none, none, 0⟩], cur := true } : Ctl).due = none := by decide +kernel

/-! ### Memory -/

/-- An address of the LOCAL cabinet, offset 0x100. -/
def cabAddr : Word := 0x80000100

/-- CabinetAccessesFire: the widest and the narrowest access, at the last bytes of the window; a prefetch. -/
theorem wit_CabinetAccessesFire :
    ([(Instr.ld m0, 8), (.st m0, 8), (.ld { m0 with sz := .b }, 1), (.pft { m0 with sz := .b }, 1)].all fun x =>
      let s := opnds cabAddr 5 1 (puts x.1 up)
      (firing x.1 s).isSome && !walkPending s 0 0
        && (match lookCab s 0 0 cabAddr.toNat x.2 with | .ok k => k == cabKey 0 0x100 | .error _ => false)) = true
    ∧ (match lookCab up 0 0 0x801FFFF8 8 with | .ok k => k == cabKey 0 0x1FFFF8 | .error _ => false) = true := by decide +kernel

/-- The last page of context 0's wardrobe, readable and writable, in the TLB of cluster 0. -/
def slice : State := { mapped with tlb := ⟨.cluster 0, true, 0, 1023 * 0x100000, 20, 0xC001, 0x1000, 0⟩ :: mapped.tlb }

/-- CabinetAccessesFire: a page and an allocation entry that a TLB holds, the access at the end of an aligned 8 bytes. -/
theorem wit_CabinetAccessesFire_cached :
    ([(Instr.ld { m0 with as := .virt }, 0x1038), (.st { m0 with as := .virt, sz := .w }, 0x103C),
      (.pft { m0 with as := .virt, sz := .b }, 0x103F)].all fun (x : Instr × Nat) =>
      let s := opnds (BitVec.ofNat 64 x.2) 5 1 (puts x.1 mapped)
      (firing x.1 s).any fun fr => !walkPending s fr.i fr.k && canonical x.2 && fr.rec_.st != .translated
        && (tlbLookup s (some fr.n.cluster) 0 fr.n.ctx x.2).any fun e => (checkLeaf e.pte x.2 (loadAccess fr.n)).isNone
          && (checkLeaf e.pte x.2 (storeAccess fr.n)).isNone && (checkLeaf e.pte x.2 ⟨.prefetch, true, false, false, fr.n.ctl.cur⟩).isNone
          && bit e.pte 5 && bits e.pte 9 8 == 0 && !isDeviceKey (e.phys + x.2)) = true
    ∧ ([Instr.ld { m0 with as := .war }, .st { m0 with as := .war }].all fun x =>
      let s := opnds 0x3FFFFFF8 5 1 (puts x slice)
      (firing x s).any fun fr => !walkPending s fr.i fr.k
        && (watFind s (some fr.n.cluster) 0 fr.n.ctx 1023).any fun e => match checkWat e.pte 0x3FFFFFF8 (storeAccess fr.n) with
          | .ok k => k == warKey 0 1 0xFFFF8 && !isDeviceKey k
          | _ => false) = true
    ∧ ([loadAccess, storeAccess].all fun a => let x := Instr.st { m0 with as := .virt }
      let s := opnds 0x1039 5 1 (puts x mapped)
      (firing x s).any fun fr => match slotXlate s fr .virt 0x1039 8 1 (a fr.n) with
        | .ok _ ps => !devicePieces ps && ps.length == 2
        | _ => false) = true
    ∧ (let s := (puts (.pft { m0 with as := .virt, sz := .b }) mapped).modSlot 0 0 fun r =>
        { r with st := .translated, pieces := [⟨0x1000, 64, true⟩] }
      (s.inst? 0).any (fun n => n.canFire) && (s.blk? 0).any fun b => b.req.isNone && (Layout.slot b.words 0).any (fun y => y.1.opc == 0x62)
        && (b.slots[0]?).any fun r => r.st == .translated && r.pieces == [⟨0x1000, 64, true⟩] && r.got.isEmpty) = true := by decide +kernel

/-- FenceHoldsItsMarker: LL alone at CLUSTER, and every kind at CORE. -/
theorem wit_FenceHoldsItsMarker :
    ([(1, Scope.cluster), (15, .core)].all fun (x : Nat × Scope) =>
      let f := { m0 with sz := .b, as := .virt, ord := .acqrel, off := BitVec.ofNat 24 x.1, scope := x.2 }
      match firing (.fence f) (puts (.fence f) up) with
      | some fr => loadsBelowDone fr.b f.lsid.toNat
      | none => false) = true := by decide +kernel

/-- LoadDeliversItsBytes: a load of each size that has translated to cabinet bytes. -/
theorem wit_LoadDeliversItsBytes :
    ([Size.b, .h, .w, .d].all fun sz =>
      let x := Instr.ld { m0 with sz }
      let p : Piece := ⟨cabKey 0 0x100, sizeBytes sz, false⟩
      let s := (opnds cabAddr 0 1 (puts x up)).modSlot 0 0 fun r => { r with st := .translated, pieces := [p] }
      match s.inst? 0, s.blk? 0 with
      | some n, some b => n.canFire && (b.slots[0]?.map fun r => r.st) == some .translated && b.req.isNone && b.held.isEmpty
          && (((Layout.slot b.words 0).map fun y => y.1.opc) == some 0x60) && s.outb.isEmpty && s.flaws.isEmpty
          && !poisonedIn s.poison p.key p.n && readMay s 0 b 0 0 p
      | _, _ => false) = true := by decide +kernel

/-- A write in context 0's outbound set. -/
def outWrite : Outb :=
  { id := 1, grp := 1, agent := .ctl 0, key := cabKey 0 0x100, data := [1, 2, 3, 4], rel := none, fence := none, poisoned := false }

theorem wit_OutboundWritePerforms :
    (let s := { puts (.halt b0) up with outb := [outWrite] }
     s.mem.wf && s.outb.contains outWrite && outWrite.id != 0 && writeMay s outWrite
       && (barrierWaiters s outWrite.key outWrite.data.length).isEmpty) = true := by decide +kernel

/-- AtomicsAndBarriersAreRequested: each fires at an aligned address of the cabinet space. -/
theorem wit_AtomicsAndBarriersAreRequested :
    ((([.aadd, .aand, .aor, .axor, .amin, .amax, .aminu, .amaxu, .aswp, .acas] : List (MOp → Instr)).all fun c =>
      let s := opnds cabAddr 0 1 (puts (c m0) up)
      (firing (c m0) s).isSome && !walkPending s 0 0 && cabAddr.toNat % 8 == 0 && isOk (lookCab s 0 0 cabAddr.toNat 8)
        && ((s.blk? 0).map fun b => b.req.isNone) == some true))
    && (([.barinit, .bararr, .barwait] : List (EOp → Instr)).all fun c =>
      let x := c { e0 with as := .cab, scope := .cluster }
      let s := opnds cabAddr 1 1 (puts x up)
      (firing x s).isSome && !walkPending s 0 0 && cabAddr.toNat % 16 == 0 && isOk (lookCab s 0 0 cabAddr.toNat 16)) = true := by
  decide +kernel

/-- Context 0's block bound, with a request of its slot 0. -/
def asking (x : Instr) (q : Req) (st : SlotSt) (s : State) : State :=
  (puts x s).modBlk 0 fun b => { b with
    bound := true, req := some ⟨0, q, false⟩, slots := [{ fedSlot .always with st, since := 1 }] }

/-- HomePerformsAtomic: a swap of 4 bytes, and a compare-and-swap of 8, sequentially consistent. -/
theorem wit_HomePerformsAtomic :
    ([(4, AtomicOp.swp, MemOrd.plain), (8, .cas, .sc)].all fun (x : Nat × AtomicOp × MemOrd) =>
      let p : Piece := ⟨cabKey 0 0x100, x.1, false⟩
      let s := asking (.aswp m0) (.atomic x.2.1 p 7 0 x.2.2 .die) .queued up
      s.mem.wf && ((s.blk? 0).map fun b => b.bound) == some true && !s.asleep p.key && s.flaws.isEmpty
        && objectMay s 0 p.key p.n (isRel x.2.2) .die (x.2.2 == .sc) && (barrierWaiters s p.key p.n).isEmpty) = true := by
  decide +kernel

theorem wit_MemoryOpcodesFrame :
    ([.ld m0, .st m0, .pft { m0 with sz := .b }, .aadd m0, .fence { m0 with sz := .b, as := .virt, ord := .acqrel, off := 1 }].all fun x =>
      gives x (opnds cabAddr 0 1 (puts x up)) fun _ => true) = true := by decide +kernel

/-- A context whose root table, at frame 1, has one table below it, at frame 2, with one leaf of 512 MiB, D set and A not. -/
def tables : State :=
  { up with
    contexts := [(0, ⟨{ desc1 with root := 1, wat := 0x40 }, 0x40, 1⟩)]
    mem := ((State.reset.mem.writeN 0x10000 (leBytes 8 0x20001)).writeN 0x20000 (leBytes 8 0x2F)).writeN 0x20000 (leBytes 8 0x2F) }

/-- WalksAndFills: the walk finds the leaf; a walk meets nothing, or a poisoned table; an allocation entry is valid. -/
theorem wit_WalksAndFills :
    (let w : WalkReq := { by_ := .slot 0 0, ctx := 0, as_ := .virt, va := 0x1000, cluster := 95, run := true }
     let s := { puts (.ld m0) tables with walks := [w] }
     (walk (endWalks s w) w.ctx w.va).2 = .leaf 0x2F 0x20000 29 ∧ s.flaws = []
       ∧ s.mem.wf = true ∧ bit 0x2F 4 = false)
    ∧ ([(0x20000000, [], Walk.absent), (0x1000, [0x10000], .poisoned)].all fun (x : Nat × List Nat × Walk) =>
       let w : WalkReq := { by_ := .slot 0 0, ctx := 0, as_ := .virt, va := x.1, cluster := 0, run := true }
       let s := { puts (.ld m0) tables with walks := [w], poison := x.2.1 }
       (walk (endWalks s w) w.ctx w.va).2 == x.2.2 && (s.blk? 0).isSome && (s.due? 0).isNone)
    ∧ (let s := { tables with mem := tables.mem.writeN 0x207FE [0x85, 0x83],
                              walks := [{ by_ := .slot 0 0, ctx := 0, as_ := .war, va := 1023 * 0x100000, cluster := 0 }] }
       watAddr s 0 1023 = 0x207FE ∧ watAddr s 0 1023 + 1 < hbmEnd ∧ s.flaws = [] ∧ poisonedIn s.poison 0x207FE 2 = false
         ∧ (s.mem.read 0x207FE).toNat + 256 * (s.mem.read 0x207FF).toNat = 0x8385 ∧ bit 0x8385 15 = true ∧ bits 0x8385 13 10 = 0
         ∧ dieOfCore 0 = dieOfCore 95) := by decide +kernel

theorem wit_CacheAndRetentionSteps :
    arrayUnused up (.shelf 5) = true ∧ canCommand up (leafOfArray (.shelf 5)) = true ∧ retentionCycles (.shelf 5) ≤ ({ up with cycle := retentionCycles (.shelf 5) } : State).cycle := by
  decide +kernel

/-! ### Semaphores and barriers -/

/-- Semaphore 3 of core 0 belongs to context 0. -/
def withSem (count : BitVec 32) (s : State) : State := s.modSem 0 3 fun _ => ⟨count, some 0, [], []⟩

def sem3 : EOp := { e0 with sel := 3, imm := 4 }

/-- SemaphoreResults: a count of just enough; a post to a count near the top; a semaphore of another context. -/
theorem wit_SemaphoreResults :
    (let s := withSem 4 up
     (s.sem 0 3).allows 0 && (s.sem 0 3).waiters.isEmpty && decide (sem3.imm.toNat ≤ (s.sem 0 3).count.toNat)
       && (firing (.semwait sem3) (puts (.semwait sem3) s)).isSome
       && (firing (.semread { e0 with sel := 3 }) (puts (.semread { e0 with sel := 3 }) s)).isSome)
    && (let s := puts (.sempost sem3) (withSem 0xFFFFFFFE up)
        match firing (.sempost sem3) s with
        | some fr => sideReady s fr.i fr.b fr.k && ctlReleaseClear (bindBlock s fr.i) fr.i sem3.scope
        | none => false)
    && (!(up.sem 0 3).allows 0 && [Instr.semwait sem3, .sempost sem3].all fun x => fires x up) = true := by decide +kernel

/-- A barrier object of 16 bytes in cabinet 0, with its two words. -/
def barAt (w0 w1 : Nat) (s : State) : State :=
  { s with mem := (s.mem.writeN (cabKey 0 0x200) (leBytes 8 w0)).writeN (cabKey 0 0x208) (leBytes 8 w1) }

/-- BarrierObjectSteps, its steps at the home: INIT of 1 and 1,048,575; an arrival that is not last, the last, at a BROKEN
one; waits for an ended phase and for this one; and a poll. -/
theorem wit_BarrierObjectSteps :
    ([(BarOp.init, 0, 0), (.init, 0, 0), (.arrive, 3 * 2 ^ 40 + 2 * 2 ^ 20 + 2, 0), (.arrive, 3 * 2 ^ 40 + 2 * 2 ^ 20 + 1, 0),
      (.arrive, 3 * 2 ^ 40, 4), (.wait, 3 * 2 ^ 40, 0)].all fun (x : BarOp × Nat × Nat) =>
      let key := cabKey 0 0x200
      let s := barAt x.2.1 x.2.2 (asking (.barwait { e0 with as := .cab }) (.barrier x.1 key .die 3) .queued up)
      s.mem.wf && ((s.blk? 0).map fun b => (b.rec_ 0).st) == some .queued && !s.asleep key && s.flaws.isEmpty
        && objectMay s 0 key 16 (x.1 != .wait) .die false && (barrierWaiters s key 16).isEmpty && decide (hbmEnd ≤ key)
        && canRegister s key && leNat (s.bytes key 8) == x.2.1 && leNat (s.bytes (key + 8) 8) == x.2.2)
    && (let key := cabKey 0 0x200
        let s := { barAt (3 * 2 ^ 40) 0 (asking (.barwait { e0 with as := .cab }) (.barrier .wait key .die 3) .blocked up) with cycle := 1601 }
        ((s.blk? 0).map fun b => ((b.rec_ 0).st, (b.rec_ 0).since)) == some (.blocked, 1) && !s.asleep key && s.flaws.isEmpty
          && !poisonedIn s.poison key 16 && leNat (s.bytes (key + 8) 8) / 4 % 2 == 0) = true := by decide +kernel

/-! ### Channels -/

/-- An open channel of context 0 with tokens of 8 bytes, a head and a tail of one token and a ring of one page. -/
def chan0 : Chan :=
  { valid := true, state := .opened, stall := false, stallRead := false, rfull := false, grow := false, comp := false, gen := 0
    ctx := 0, scope := .core, width := 8, thresh := 0, lost := 0, writer := .opened, reader := .opened, hcap := 1, tcap := 1
    hwar := false, twar := false, hclu := 0, tclu := 0, hbase := 0x1F0000, tbase := 0x1F0008, rbase := 0x10000, ringpg := 1, ringmax := 2, head := [], ring := []
    tail := [], resv := [], late := [], rdoff := 0, wroff := 0 }

def ent8 : Ent := ⟨leBytes 8 7, 8, false, false, false, 0⟩

/-- The state with channel 0, whose handle is 0, and its ring's page in die 0's TLB. -/
def chans (c : Chan) (s : State) : State := { s with chans := [(0, c)], tlb := [⟨.die 0, false, 0, 0, 29, 0x7F, 0x1000, 0⟩] }

theorem wit_ChannelOpcodesFire :
    ([Instr.chsend e0, .chrecv e0, .chtry e0, .chclose e0, .chlen e0].all fun x =>
      let s := (opnds 0 5 1 (puts x (chans chan0 up)))
      let s := if x == .chrecv e0 || x == .chtry e0 then s.modSlot 0 0 fun r => { r with r := none } else s
      match firing x s with
      | some fr => fr.b.req.isNone && isOk (chanQuery s 0 (.ctl 0) fr.l true)
          && (fr.rec_.r.isNone == (x == .chrecv e0 || x == .chtry e0))
      | none => false)
    && (((chanOf (chans { chan0 with writer := .ctl 0 } up) 0 0).map fun x => x.2.writer) == some (.ctl 0))
    && (chanOf (chans { chan0 with gen := 1 } up) 0 0).isNone && fires (.chsend e0) (chans { chan0 with gen := 1 } up)
    && fires (.chlen e0) (chans { chan0 with gen := 1 } up) = true := by decide +kernel

theorem wit_ChannelRequestSteps :
    (let s := fun c op => chans c (asking (.chsend e0) (.chan op 0 (leBytes 8 7) []) .queued up)
     let ok := fun (c : Chan) (op : ChanOp) (w : Bool) => ((s c op).due? 0).isNone && ((s c op).blk? 0).isSome
       && (match chanQuery (s c op) 0 (.ctl 0) 0 w with | .ok x => x == (0, c) | .error _ => false)
     ok chan0 .send true && chan0.fits (chan0.entry (leBytes 8 7))
       && ok { chan0 with head := [⟨leBytes 8 9, false, false, 0⟩] } .recv false
       && ok chan0 .tryRecv false
       && ((slotTargets (chans chan0 (asking (.chtry e0) (.chan .tryRecv 0 [] []) .queued up)) 0 0).length == 2)
       && ok chan0 .close true && ctlReleaseClear (s chan0 .close) 0 .core) = true := by decide +kernel

theorem wit_ChannelSegmentMoves :
    (let full := { chan0 with tail := [ent8] }
     let s := chans full ((asking (.chsend e0) (.chan .send 0 (leBytes 8 9) []) .queued up).modBlk 0 fun b => { b with bound := false })
     let at_ := fun (c : Chan) (o : Nat) (w : Bool) => match xlateNow s 0 0 (c.rbase + BitVec.ofNat 64 o) 8 8 (chanAccess w) with
       | (u, .ok [p]) => u == s && p.n == 8
       | _ => false
     s.mem.wf && (full.spillOne.map fun x => (x.1, x.2.1)) == some (0, ent8) && (entBytes ent8).length == 8 && at_ full 0 true
       && sendWaits s 0 full && at_ { chan0 with ring := [ent8] } 0 false && decide (chan0.head.length < chan0.hcap))
    && (chanKey ((0 : BitVec 32).setWidth 64) == some 0) && Assoc.rising none (chans chan0 up).chans
    && (chanHandle 0 chan0 == (0 : BitVec 32).setWidth 64) = true := by decide +kernel

theorem wit_BlockedReportAndDetector :
    (let wait := (asking (.chsend e0) (.chan .send 0 (leBytes 8 9) []) .queued up).modBlk 0 fun b => { b with bound := false }
     let own := { chan0 with tail := [ent8], rfull := true, reader := .ctl 0, writer := .ctl 0 }
     let s := chans own { wait with cycle := 80000, detect := [0], reports := [0] }
     let s₁ := { s with reports := s.reports.filter (fun j => !(waitsOf s j).isEmpty), detect := s.detect.erase 0 }
     blockedSince s 0 == some 0 && s.detect.contains 0 && findCycle s₁ 0 == some [⟨0, [0]⟩]
       && decide (2 * own.ringpg ≤ own.ringmax)
       && (findCycle { (chans chan0 wait) with reports := [0], detect := [] } 0).isNone) = true := by decide +kernel

/-! ### Transfers, system registers, invalidation, waits -/

/-- The state with context 0's operands at given words, in `mapped`, whose slot runs `x` at level S or U. -/
def sys (x : Instr) (l : Word) (sup : Bool) (s : State) : State :=
  (opnds l 1 1 (puts x s)).modCtl 0 fun c => { c with cur := sup }

/-- A slot's address translates. -/
def slotOk (x : Instr) (s : State) (n align : Nat) : Bool :=
  match firing x s with
  | some fr => match slotXlate s fr .virt fr.l n align (loadAccess fr.n) with
    | .ok _ _ => true
    | .stop _ => false
  | none => false

/-- TransfersAreAsked: each fires at an aligned record; CPYC with a semaphore that the context owns; QRESET of the word
that names its tenant and of one with a reserved bit. -/
theorem wit_TransfersAreAsked :
    ([(Instr.cpy e0, 64, 64), (.cpyt e0, 64, 64), (.launch e0, 128, 64)].all fun (x : Instr × Nat × Nat) =>
      let s := sys x.1 0x1000 true mapped
      slotOk x.1 s x.2.1 x.2.2 && (s.blk? 0).all fun b => b.req.isNone) = true
    ∧ (let x := Instr.cpyc { e0 with sel := 15, imm := 63 }
       let s := sys x 0x1000 false (mapped.modSem 0 63 fun _ => ⟨0, some 0, [], []⟩)
       slotOk x s 64 64 && (s.sem 0 63).allows 0) = true
    ∧ (let x := Instr.xtload { e0 with sel := 5, imm := 0x1FF }
       let s := sys x 0x1000 false { mapped with lanes := [(1, { LaneGroup.fresh with tenant := some 1 })] }
       slotOk x s 8 8 && (firing x s).all fun fr => sideReady s fr.i fr.b fr.k && BitVec.ofNat 4 (s.tenantOf fr.n.ctx) == 1) = true
    ∧ (let x := Instr.xstat { e0 with imm := 0x1FF }
       (firing x (sys x 0 false { mapped with lanes := [(1, { LaneGroup.fresh with tenant := some 1 })] })).isSome
         && (firing x (sys x 0 false mapped)).isSome) = true
    ∧ (let x := Instr.qreset e0
       [(0x0010 : Word), 0xFF13, 0x10010, 0x0014, 0x0020].all fun w => let s := sys x w true mapped
         (firing x s).any fun fr => fr.l == w && sideReady s fr.i fr.b fr.k && s.resets.isEmpty && mayReset s 1 0 0xFF (some fr.i)) = true := by decide +kernel

/-- SystemRegisterReads: each register named by SYSR, at both levels, its counters granted to the tenant or not. -/
theorem wit_SystemRegisterReads :
    ([(0x00 : Nat), 0x01, 0x02, 0x03, 0x04, 0x05, 0x10, 0x11, 0x12, 0x13, 0x14, 0x18, 0x1D, 0x20, 0x21, 0x28, 0x29, 0x30, 0x3F, 0x40, 0x47,
      0x48, 0x4F, 0x60, 0x7F, 0x80, 0x9F].all fun k => [false, true].all fun sup =>
        let x := Instr.sysr { e0 with t1 := .opnd 0 .L, imm := BitVec.ofNat 24 k }
        (firing x (sys x 0 sup up)).isSome
          && (firing x (sys x 0 sup ((up.modCore 0 fun c => { c with ctenant := some 1 }).modDie 0 fun d => { d with dtenant := some 1 }))).isSome)
      = true := by decide +kernel

/-- CommitEffectsAreNoted: every one of them fires, at either level. -/
theorem wit_CommitEffectsAreNoted :
    (([.sysw e0, .yield e0, .tlbinv e0, .bcinv e0, .src e0, .snk e0, .kset e0, .mark e0, .fmtw e0, .scalew e0, .genseed e0,
       .fstop e0] : List Instr).all fun x => (firing x (sys x 0 false up)).isSome) = true
    ∧ ([(0x04 : BitVec 24), 0x05, 0x10, 0x1D].all fun k => let x := Instr.sysw { e0 with imm := k }
        (firing x (sys x 0 true up)).isSome && (firing x (sys x 0 false up)).isSome) = true := by decide +kernel

/-- SystemRegisterWrites: a block with a SYSW noted, at its commit. -/
theorem wit_SystemRegisterWrites :
    ([(0x00 : Nat), 0x04, 0x05, 0x10, 0x11, 0x12, 0x13, 0x14, 0x18, 0x1D, 0x40, 0x47, 0x60, 0x7F].all fun reg => [false, true].all fun sup =>
      let n := closing (oneSlotBlock haltWord) [] (.block 0x80) { Ctl.fresh 0x80 0 with cur := sup }
      let n := { n with ctl := { n.ctl with blk := n.ctl.blk.map fun (b : Block) => { b with acts := [.sysw reg 0xFFFFFFFFFFFFFFFF] } } }
      match n.ctl.blk with
      | some b => committable (solo up n) 0 n b && b.writes.isEmpty && b.held.isEmpty && !b.divZero && !Layout.isNest b.words && !n.ctl.step
      | none => false) = true := by decide +kernel

/-- InvalidationsComplete: each extent, and BCINV, of a context at a boundary. -/
theorem wit_InvalidationsComplete :
    ([CtlWait.tlbinv 0 0x12345 none, .tlbinv 1 0 none, .tlbinv 2 0xFFFFFFFFFFFFFFFF none, .tlbinv 3 0 none, .bcinv 0x80].all fun w =>
      let s := (solo mapped idle).modCtl 0 fun c => { c with wait := [w] }
      (s.inst? 0).any fun n => n.ctl.wait == [w] && (s.outb.filter fun o => o.agent == .ctl 0).isEmpty && s.walks.isEmpty
        && s.recs.isEmpty) = true := by decide +kernel

/-- WaitsEnd: YIELD at its limit and before it; WAITEV and FWAIT blocked since cycle 1, at the limit; WAITEV with each
set of events. -/
theorem wit_WaitsEnd :
    ([(73 : Nat), 74].all fun c => let s := { (solo up idle).modCtl 0 fun c => { c with wait := [.yield [3] 10] } with cycle := c }
      (s.inst? 0).any fun n => n.ctl.wait.filterMap CtlWait.yielded == [10]) = true
    ∧ ([(Instr.waitev { e0 with imm := 1 }, 0xB5), (.fwait { e0 with imm := 1 }, 0xC9)].all fun (x : Instr × Nat) =>
        let s := (puts x.1 up).modSlot 0 0 fun r => { r with st := .blocked, since := 1 }
        let s := { s.modInst 0 (fun n => { n with reg := some heldRegion }) with cycle := 65537 }
        match s.inst? 0, s.blk? 0 with
        | some n, some b => n.canFire && (b.rec_ 0).st == .blocked && decide ((b.rec_ 0).since + 65536 ≤ s.cycle) && n.reg.isSome
            && ((Layout.slots b.words).filter (fun y => y.2.1.opc == x.2)).map (fun y => (y.1, y.2.1.opc)) == [(0, x.2)]
        | _, _ => false) = true
    ∧ ([(0 : BitVec 4), 1, 2, 15].all fun p => let x := Instr.waitev { e0 with imm := 15 }
        (firing x ((puts x up).modCtl 0 fun c => { c with evpend := p })).any fun fr => fr.n.ctl.evpend == p) = true := by
  decide +kernel

/-- SlotOnlyOpcodesFrame: an instruction of each list answers a next state. -/
theorem wit_SlotOnlyOpcodesFrame :
    gives (.divu g0) (puts (.divu g0) up) (fun _ => true) = true ∧ gives (.fcnt e0) (puts (.fcnt e0) up) (fun _ => true) = true := by
  decide +kernel
def beat1 (iter : Nat) : Beat := ⟨0x0102030405060708, 0x7F7F7F7F, 0, 1, iter⟩

/-- An FE that runs a context of these first three words, its tag 0 bound to `code`, one beat at each input. -/
def feWith (w0 w1 w2 : Word) (code : BitVec 5) : Fe :=
  { Fe.fresh with
    vc := Vector.replicate 32 code, slots := [w0, w1, w2, 0, 0, 0, 0, 0] :: List.replicate 7 [], run := some 0
    qa := [beat1 0, beat1 0, beat1 0, beat1 0], qb := [beat1 0], qc := [beat1 0] }


/-! ### The fabric -/

/-- An idle region of one FE, and a running one with this nest. -/
def region1 : Region := Region.fresh ⟨0, 0, 1, 1⟩ 0 0 []

/-- A loop of one dimension of count 2, every iteration one vector. -/
def loop1 : List Word := [0, 2, 0, 0]

def nest1 (binds : List (List Word)) : Nest := ⟨0, loop1, binds, 0, 0, 0, true, 0, false, true, false, [0]⟩

/-- The binding with this word 0, port 0 at address 0x100. -/
def bind1 (w0 : Word) : List Word := [w0, 0, 0, 0, 0, 0, 0, 0]

def running (binds : List (List Word)) (its : List Iter) : Region :=
  { region1 with phase := .running, nest := some (nest1 binds), iters := its, nextVec := some [1], nextN := 1
                 ports := [(0, ⟨0x100, .virt, false⟩), (32, ⟨0x100, .virt, false⟩)], att := [(0, 0), (1, 32)] }

/-- Iteration 0, at its first vector. -/
def iter0 : Iter := ⟨0, [0], [], [], [], [], [], [], [], 1, 0, 0, none⟩

/-- Context 0 at a boundary, with this region. -/
def nested (r : Region) : State := solo mapped { idle with reg := some r }

/-- A slot of an instance with this region. -/
def onFabric (x : Instr) (r : Region) (s : State) : State := (puts x s).modInst 0 fun n => { n with reg := some r }

/-- The block's words with one binding, an accumulator group of one FE and one output: KIND 4, AG 0; GW 1, GH 1, NO 1. -/
def grouped (s : State) : State :=
  s.modBlk 0 fun b => { b with words := [0, 0x80100] ++ b.words.drop 2 ++ [0x4000000000000000, 0, 0, 0, 0x0080010000000000, 0, 0, 0] }

/-- FabricOpcodesFire: ACCR and ACCD of an accumulator with good and with bad parity; FWAIT with and without a condition
met; FCNT; FRUN denied, waiting, and asking. -/
theorem wit_FabricOpcodesFire :
    ([(0 : BitVec 3), 1].all fun par =>
      let base := { mapped with fes := [(0, { Fe.fresh with core := { FeCore.fresh with acc := Vector.replicate 128 ⟨0, par⟩ } })] }
      let acc := fun (x : Instr) => grouped (onFabric x region1 base)
      let x := Instr.accr { e0 with imm := 0 }
      let y := Instr.accd { e0 with imm := 4 }
      let good := fun (s : State) => (firing x s).isSome || (firing y s).isSome
      let group := fun (s : State) => match (s.blk? 0).bind fun b => groupBinding b.words 0 with
        | some g => groupSize g == 1 && (groupAcc s region1 g 0).any fun a => Elements.Acc.good a.2 == (par == 0)
        | none => false
      good (acc x) && good (acc y) && group (acc x) && group (acc y)
        && match firing y (acc y) with
          | some fr => match slotXlate (acc y) fr .virt 0 2 1 ⟨.port, false, true, false, false⟩ with
            | .ok _ _ => true
            | .stop _ => false
          | none => false) = true
    ∧ ([region1, running [] [iter0]].all fun r => let x := Instr.fwait { e0 with imm := 1 }
        (firing x (onFabric x r up)).isSome && regionWrites (onFabric x r up) 0 false == false && !r.events.getLsbD 1) = true
    ∧ (let x := Instr.fcnt { e0 with sel := 63 }; (firing x (onFabric x region1 up)).isSome) = true
    ∧ ([(0 : Word), 1].all fun draw => [region1, running [] [iter0]].all fun r => let x := Instr.frun e0
        let s := (onFabric x r up).modBlk 0 fun b => { b with words := b.words.set 1 draw }
        match firing x s with
        | some fr => s.leaves.isEmpty && fr.n.ctl.async.isEmpty && Layout.draw fr.b.words == draw.toNat && drawcls s fr.n == 0 && !leaveNever s 0 0 0
        | none => false) = true := by decide +kernel

/-- RegionSteps, its first two parts: a context that a set does not name, from the configuration store; an idle
context for every FE. -/
theorem wit_RegionSteps_load :
    (let r := { region1 with phase := .running, nest := some { nest1 [] with started := false, loaded := [] } }
     let s := { nested r with store := [⟨0, 0, 1, 0, 0, 16⟩], mem := mapped.mem.writeN (storeKey 0 0) (leBytes 8 (2 ^ 32)) }
     match s.inst? 0 with
     | some n => n.life == .running && n.ctl.blk.isNone && match loadFe s n r 0 0 0 none with
       | (_, .ok _ _ _) => true
       | _ => false
     | none => false) = true
    ∧ (∀ x ∈ up.insts, x.2.reg = none) ∧ Cfg.bad Cfg.idle = false ∧ Cfg.idle.length = 8 := by decide +kernel

/-- RegionSteps, the next iteration and a marker at an input. -/
theorem wit_RegionSteps_start :
    (let r := running [] [iter0]
     (runningNest (nested r) 0).isSome && r.nextVec == some [1] && sourcesFormed r (nest1 []) iter0 && r.reads.isEmpty
       && roomForNext (nested r) r (nest1 [])) = true
    ∧ ([FeIn.ia, .ib, .ic].all fun inp =>
        let m := markerBeat 15 0
        let s := { nested (running [] [iter0]) with fes := [(0, { Fe.fresh with qa := [m], qb := [m], qc := [m] })] }
        s.feOf 0 ⟨0, 0⟩ == some 0 && (runningNest s 0).isSome
          && ((match inp with | .ia => (s.fe 0).qa | .ib => (s.fe 0).qb | .ic => (s.fe 0).qc).map fun (b : Beat) => b.isMarker) == [true]) = true := by
  decide +kernel

/-- RegionSteps, sources, fences and sinks: the first beat of a source; a fence of dimension 0; a marker, a memory write
and a channel token at a sink. -/
theorem wit_RegionSteps_bindings :
    (let nest := nest1 [bind1 0, bind1 0x1000000000000000, bind1 0x5000000000000000]
     let r := { running nest.binds [{ iter0 with pos := [(2, 1)] }] with sinks := [(1, [markerBeat 0 0, beat1 0])] }
     let s := nested r
     (runningNest s 0).isSome && frunClear s 0 nest && walked r nest 0
       && (r.iters.find? fun it => it.at 0 < nest.pass).any (fun it => fencesPlaced nest it (it.at 0))
       && ((r.iters.map fun it => { it with pos := [] }).find? fun it => it.at 2 < fencesTo nest.loop 0 it (nest.pass - 1)).any
            (fun it => fenceReady r nest (bind1 0x5000000000000000) 2 it)
       && aget 1 r.att == some 32 && (agetD [] 1 r.sinks).map (fun b => b.isMarker) == [true, false]
       && (r.iters.find? fun it => it.n == 0).any (fun it => it.sinkAt 1 < nest.pass)
       && Descr.addrAt (bind1 0x1000000000000000) 0x100 (Descr.vecAt loop1 [0] 0) == some 0x100) = true
    ∧ (agetD ⟨0, .virt, false⟩ 32 ({ running [] [iter0] with ports := [(32, ⟨0, .virt, true⟩)] } : Region).ports).ch = true := by
  decide +kernel

/-- RegionSteps, the ends of an iteration: one that may commit, with and without one after it; one whose check failed,
for the first time and again; one that outran its bound. -/
theorem wit_RegionSteps_ends :
    ([([iter0] : List Iter), [iter0, { iter0 with n := 1, vec := [1] }]].all fun its =>
      let r := { running [] its with nextVec := none }
      let s := nested r
      (runningNest s 0).isSome && passesDone r (nest1 []) iter0 && drained s r 0
       && (s.inst? 0).any fun n => tokenRefused s 0 n (nest1 []) iter0 == none && fullChans s n iter0 == [] && !n.ctl.step
         && (!lastIter r || closeRefused s n (sentBefore 0 iter0) (closeAts 0 r (nest1 [])) == none && closeFails s r == none)) = true
    ∧ ([0, 1].all fun k => (runningNest (nested (running [] [{ iter0 with checkFailed := some (0, 0), replays := k }])) 0).isSome) = true
    ∧ (let s := { nested (running [] [iter0]) with cycle := 131072 }
       (runningNest s 0).isSome && decide (iter0.since ≠ 0 ∧ 65536 ≤ (s.cycle + 1 - iter0.since - iter0.excluded) / 2)) = true := by
  decide +kernel

/-- Word 0, word 1 and word 2 of a context of this operation and FCW: this many beats at A, four beats out in this
format, CARRY. -/
def ctxOf (eop fcw nia ofmt w2 : Nat) : Word × Word × Word :=
  (BitVec.ofNat 64 (eop * 2 ^ 42 + fcw), BitVec.ofNat 64 (nia * 2 ^ 60 + 2 ^ 50 + ofmt * 2 ^ 39 + 2 ^ 6), BitVec.ofNat 64 w2)

/-- An FCW of mode ADD and of mode STOCH. -/
def add5 : Nat := 5 * 2 ^ 29
def sto : Nat := 3 * 2 ^ 29

/-- The FE of a running nest with that context, tag 0 bound to `code`, the registers' masks 1, 2 and 4. -/
def onFe (eop fcw nia ofmt w2 : Nat) (code : BitVec 5) (masks : Bool) : State :=
  let (a, b, c) := ctxOf eop fcw nia ofmt w2
  let f := feWith a b c code
  { nested (running [] [iter0]) with fes := [(0, if masks then
      { f with core := { f.core with mask := #v[1, 2, 4, 0, 0, 0, 0, 0, 0, 0, 0, 0, 0, 0, 0, 0], ltag := Vector.replicate 16 0 } } else f)] }

/-- The operation fires on it and answers a result, or a fault. -/
def elementGives (ok : Bool) (eop fcw nia ofmt w2 : Nat) (code : BitVec 5) (masks : Bool)
    (fire : List Word → Fe → Elements.FireIn → Except Elements.FireFault Elements.FireOut) : Bool :=
  let s := onFe eop fcw nia ofmt w2 code masks
  (runningNest s 0).isSome && s.feOf 0 ⟨0, 0⟩ == some 0 && Cfg.eop (s.fe 0).ctxWords == eop
    && match fireInputs s 0 (s.fe 0) (s.fe 0).ctxWords false with
      | some (x, k) => isOk (fire (s.fe 0).ctxWords ((enterIter s 0 k).fe 0) x) == ok
      | none => false

/-- ElementOperationsFire: every operation has inputs on which it answers a result. -/
theorem wit_ElementOperationsFire_arith :
    elementGives true 0x01 add5 1 1 0 1 false Elements.passFire = true ∧ elementGives true 0x02 0 1 4 0 12 false Elements.dotFire = true
    ∧ elementGives true 0x03 0 1 4 0 12 false Elements.dotFire = true
    ∧ ([0x04, 0x05, 0x06].all fun e => elementGives true e (add5 + 2 ^ 17) 1 1 0 1 false Elements.redFire) = true
    ∧ elementGives true 0x14 add5 1 12 0 12 false Elements.cntFire = true := by decide +kernel

theorem wit_ElementOperationsFire_maps :
    ([0x07, 0x09, 0x0C, 0x12].all fun e => elementGives true e add5 1 1 0 1 false Elements.mapFire) = true
    ∧ elementGives true 0x08 0 1 4 0 12 false Elements.mapFire = true ∧ elementGives true 0x13 add5 1 4 0 12 false Elements.mapFire = true
    ∧ elementGives true 0x0A add5 4 4 0 1 false Elements.quantFire = true ∧ elementGives true 0x0B add5 1 1 0 5 false Elements.deqFire = true
    ∧ elementGives true 0x0D (4 * 2 ^ 29) 1 1 0 1 false Elements.bflyFire = true
    ∧ elementGives true 0x0E add5 1 1 0 1 false Elements.split3Fire = true
    ∧ elementGives true 0x0F add5 1 1 0 1 false Elements.lut6Fire = true ∧ elementGives true 0x10 add5 1 1 0 1 false Elements.fsmFire = true
    ∧ elementGives true 0x11 add5 1 4 0 12 false Elements.tableFire = true := by decide +kernel

theorem wit_ElementOperationsFire_streams :
    elementGives true 0x20 sto 1 4 0 1 true Elements.sgenFire = true ∧ elementGives true 0x24 sto 1 4 0 1 true Elements.snotFire = true
    ∧ elementGives true 0x21 sto 1 4 (2 ^ 36) 1 true (Elements.disjointFire fun a b => a &&& b) = true
    ∧ elementGives true 0x22 sto 1 4 (2 ^ 36) 1 true (Elements.disjointFire fun a b => a ||| b) = true
    ∧ elementGives true 0x23 sto 1 4 (2 ^ 36 + 2 ^ 33) 1 true Elements.smuxFire = true
    ∧ elementGives true 0x25 sto 1 4 0 1 true (Elements.sameFire fun a b => a &&& b) = true
    ∧ elementGives true 0x26 sto 1 4 0 1 true (Elements.sameFire fun a b => a ||| b) = true
    ∧ elementGives true 0x27 sto 1 4 0 1 true (Elements.sameFire fun a b => a ^^^ b) = true
    ∧ elementGives true 0x28 sto 1 4 0 1 true Elements.scntFire = true ∧ elementGives true 0x29 sto 1 4 0 1 true Elements.sregenFire = true
    ∧ elementGives true 0x2A sto 1 4 0 1 true Elements.sfsmFire = true := by decide +kernel

/-- ElementOperationsFire: a tag that is not bound, and correlated operands. -/
theorem wit_ElementOperationsFire_faults :
    elementGives false 0x07 add5 1 1 0 0 false Elements.mapFire = true
    ∧ elementGives false 0x21 sto 1 4 0 1 true (Elements.disjointFire fun a b => a &&& b) = true := by decide +kernel

/-- StreamResults: a context of register operands, masks disjoint, one class, and not. -/
theorem wit_StreamResults :
    (let f := (onFe 0x21 sto 1 4 (2 ^ 36 + 2 ^ 33) 1 true).fe 0
     let c := f.ctxWords
     let m := Elements.regMask c f
     Cfg.istr c = false ∧ m (Cfg.srA c) &&& m (Cfg.srB c) = 0 ∧ m (Cfg.srC c) &&& (m (Cfg.srA c) ||| m (Cfg.srB c)) = 0
       ∧ ¬ m (Cfg.srA c) = m (Cfg.srB c) ∧ (List.range 16).countP (fun j => (m (Cfg.srA c)).testBit j) = 1)
    ∧ (let f := (onFe 0x21 sto 1 4 0 1 true).fe 0
       let c := f.ctxWords
       let m := Elements.regMask c f
       m (Cfg.srA c) = m (Cfg.srB c) ∧ m (Cfg.srA c) &&& m (Cfg.srB c) ≠ 0 ∧ m (Cfg.srC c) &&& (m (Cfg.srA c) ||| m (Cfg.srB c)) ≠ 0)
    ∧ Cfg.noa [0, 0, 0, 0, 0, 0, 0, 0] = 0 := by decide +kernel

/-! ### Engines and leave -/

/-- A record of context 0 at address 0x1000, asked for by slot 0 of `idle`, on engine 7. -/
def rec0 (t : RecTarget) : Rec := Rec.fresh (solo mapped idle) 0 idle 7 0x1000 t false

/-- The state with this record under the name 5, its eight words in memory too. -/
def withRec (x : Rec) (ws : List Word) : State :=
  { solo mapped idle with recs := [(5, { x with words := ws })], mem := mapped.mem.writeN 0x1000 (ws.flatMap fun w => leBytes 8 w.toNat) }

/-- A plain copy of 64 bytes from 0x2000 to 0x3000. -/
def copy64 : List Word := [0, 0x2000, 0x3000, 0x8000000000000040, 0, 0, 0, 0]

/-- EngineSteps, a record accepted: by each instruction, at the first and the last engine of its die. -/
theorem wit_EngineSteps_accept :
    ([(0 : Nat), 7].all fun engine => [Req.record 0x1000 false, .record 0x1000 true, .chain 0x1000 15 63].all fun q =>
      let s := (puts (.cpy e0) mapped).modBlk 0 fun b => { b with req := some ⟨0, q, false⟩ }
      match s.inst? 0, s.blk? 0 with
      | some n, some b => sideReady s 0 b 0 && decide (engine < 64) && decide (queuedRecords s 0 < 256)
          && startReleases s 0 n b 0x1000 == [] && !class0Waits s 0 0 && recordDie s n 0x1000 false == engine / 8 && recordDie s n 0x1000 true == engine / 8
          && dieOfCore n.cluster == engine / 8 && n.life == .running && !(n.ctl.ecstate.toList.getD 15 0).getLsbD 0
      | _, _ => false) = true := by decide +kernel

/-- EngineSteps, a record started: MISALIGN of its COMPL, ILLEGAL of its word 7, and one of 64 bytes that starts. -/
theorem wit_EngineSteps_start :
    ([(copy64.set 6 4, true, false), (copy64.set 7 1, false, true), (copy64, false, false)].all fun (x : List Word × Bool × Bool) =>
      let r := rec0 (.token 63)
      let s := withRec { r with words := [] } x.1
      engineFree s r && recIssued s r && !r.toDst && (match takeWords s 5 r 0 r.addr 64 with
        | (u, .bytes bs) => wordsOf bs == x.1 && startReleased u 5 r x.1
        | _ => false)
        && recMisaligned x.1 false == x.2.1 && (x.2.1 || recIllegal x.1 == x.2.2)
        && (x.2.1 || x.2.2 || !Stages.hasTile x.1 && !Stages.reduces x.1 && !tileIllegal x.1 [] && Stages.xtid x.1 == 0
          && decide (0 < Stages.len x.1 ∧ r.total + Stages.len x.1 ≤ 2 ^ 20))) = true := by decide +kernel

/-- EngineSteps, a record's completion: all written; each signal; a chain at its end and at a next record. -/
theorem wit_EngineSteps_complete :
    (let r := { rec0 (.token 63) with words := copy64, phase := .active }
     let r := { r with issued := (dstTokens r 64).map fun t => t.1 }
     outputLen r == some 64 && allIssued r && !Stages.reduces r.words && (Stages.bcl r.words).toNat == 0
       && signalMay (withRec r copy64) 5 r && (Stages.compl copy64).toNat == 0) = true
    ∧ ([(0 : Word), 1, 0x40].all fun nxt =>
        let r := { rec0 (.chain 0 0) with words := copy64.set 0 nxt, phase := .signal 3 }
        let s := withRec r r.words
        match heldXlate s r recordPage 0 r.addr 8 with
        | (u, .ok [p]) => u.num8 p.key == nxt.toNat && !isDeviceKey p.key && !ownPending u 5 p.key 8 && u.flaws.isEmpty && !poisonedIn u.poison p.key 8
        | _ => false) = true
    ∧ (let r := { rec0 (.token 0) with words := copy64, phase := .signal 1 }
       match heldXlate (withRec r copy64) r recordPage 24 (r.addr + 24) 8 with
       | (u, .ok [p]) => r.leave.isNone && !ownPending u 5 p.key 8 && idle.life == .running && !isDeviceKey p.key && u.flaws.isEmpty && !poisonedIn u.poison p.key 8
       | _ => false) = true := by decide +kernel

/-- An expand of a stream of one chunk, which is bad, its 32 bytes read. -/
def expand1 : Rec :=
  { rec0 (.token 0) with
    words := [0, 0x2000, 0x3000, 0x8012000000000020, 0, 0, 0, 0], phase := .active
    input := [(0, ([1, 0, 0, 0, 0, 0, 0, 0, 0, 0, 0, 0, 0, 0, 0, 0, 32, 0, 0, 0, 0, 0, 0, 0, 0, 0, 0, 0, 0, 0, 0, 0] : List Byte).map Stages.clean)] }

theorem wit_EngineSteps_decode :
    Stages.expands expand1.words = true ∧ allRead expand1 = true ∧ Stages.dirPoisoned (sourceBytes expand1) 0 = false
    ∧ Stages.streamBad (sourceBytes expand1) = false ∧ Stages.dequants expand1.words = false
    ∧ ((Stages.dirOf (sourceBytes expand1))[0]?).isSome = true ∧ Stages.xtid expand1.words = 0 := by decide +kernel

/-- A load of the smallest table image, of one state and one entry, at 0x2000. -/
def loadOf (got : List Byte) : XtLoad := ⟨0, 0, 63, 0, false, 0x2000, 255, got⟩

theorem wit_EngineSteps_table :
    (let s := { solo mapped idle with lanes := [(1, ⟨some 1, 0, [], [loadOf []]⟩)], mem := mapped.mem.writeN 0x2000 [0x54, 0x58, 1, 0, 1, 0, 0, 0] }
     issuerCommitted s 0 63 && match readImage s 1 (loadOf []) 16 with
       | (_, .bytes bs) => bs.take 5 == [0x54, 0x58, 1, 0, 1]
       | _ => false) = true
    ∧ (let img : List Byte := [0x54, 0x58, 1, 0, 1, 0, 0, 0] ++ List.replicate 276 0
       Stages.headBad img = false ∧ Stages.imageLen img = img.length ∧ Stages.imageBad img = false
         ∧ laneUsers { solo mapped idle with lanes := [(1, ⟨some 1, 0, [], [loadOf img]⟩)] } 1 = 0) := by decide +kernel

/-- EngineSteps, leave: for a restore and for an FRUN that waits, at the whole pool; a wait of 200 µs, of an FRUN and of a record. -/
theorem wit_EngineSteps_leave :
    ([LeaveFor.restore 0, .frun 0].all fun f =>
      let q : LeaveReq := ⟨f, 0, 0, 980000, 0⟩
      let s := { (onFabric (.frun e0) region1 up).modSlot 0 0 (fun r => { r with st := .blocked }) with leaves := [(3, q)] }
      leaveMay s 3 q && q.open s && !schedPaused s && frunSlot s 0 == some 0) = true
    ∧ (let s := { withRec (rec0 (.token 0)) copy64 with leaves := [(3, ⟨.record 5, 0, 3, 1, 0⟩)], cycle := 320000 }
       (aget 5 s.recs).isSome = true ∧ (0 : Nat) + 320000 ≤ s.cycle) := by decide +kernel

/-! ### Launches, resets and the launch table -/

/-- A launch record of two instances without FEs: image at 0x10000, entry 0x10080, DONE at 0x4000, tenant 1, class 1. -/
def record2 : List Word :=
  [0x10000, 0x10080, 1, 0x100000002, 0x100000001, 0x100000001, 0, 0, 0x4000, 0x10001, 0, 0, 0, 0, 0, 0]

/-- An image of 256 bytes with one code section over all of it, not loaded yet. -/
def image1 : List Byte :=
  leBytes 8 0x0001000131464F42 ++ leBytes 8 0x100 ++ leBytes 8 0x0000000100000080 ++ List.replicate 104 0
    ++ leBytes 8 0x0000100000000000 ++ leBytes 8 0 ++ leBytes 8 0x100

/-- The record at 0x1000 and the image stand in memory. -/
def withImage : State :=
  { mapped with mem := (mapped.mem.writeN 0x1000 (record2.flatMap fun w => leBytes 8 w.toNat)).writeN 0x10000 image1 }

/-- A record is read as these words and passes its checks or not. -/
def reads (s : State) (ws : List Word) (bad : Bool) : Bool :=
  match readRecord s 0 0x1000 false with
  | (u, .ok x) => x == ws && recordBad u (u.tenantOf 0) x == bad && decide (queueLength u 0 (recCls x) < 16384)
  | _ => false

/-- LaunchSteps, the first two: a successor's push, and a LAUNCH of a good and of a malformed record. -/
theorem wit_LaunchSteps_accept :
    (let p : Push := ⟨.succ, 0, 0x1000, false, 0⟩
     let s := { withImage with pushes := [p] }
     s.pushes[0]? == some p && !schedPaused s && !readWaits s p && reads { s with pushes := removeAt 0 s.pushes } record2 false) = true
    ∧ ([(record2, false), (record2.set 13 1, true)].all fun (x : List Word × Bool) =>
        let p : Push := ⟨.ctl 0, 0, 0x1000, false, 0⟩
        let m := { withImage with mem := mapped.mem.writeN 0x1000 (x.1.flatMap fun w => leBytes 8 w.toNat), pushes := [p] }
        let s := (puts (.launch e0) m).modBlk 0 fun b => { b with req := some ⟨0, .launch 0x1000, false⟩ }
        match s.blk? 0 with
        | some b => sideReady s 0 b 0 && !schedPaused s && !readWaits s p && reads s x.1 x.2 && match readRecord s 0 0x1000 false with
          | (u, .ok ws) => ctlReleaseClear (bindBlock u 0) 0 .system && recordBad (bindBlock u 0) ((bindBlock u 0).tenantOf 0) ws == x.2
          | _ => false
        | none => false) = true := by decide +kernel

/-- The launch of that record, its first instance placed as instance 0. -/
def launch2 : Launch :=
  { addr := 0x1000, ctx := 0, tenant := 1, cls := 1, die := 0, words := record2, seq := 1, inst0 := 1, loaded := true, next := 1
    live := [0], status := 0, retries := 0, lastFault := 0, faulted := false, refused := false, table := none
    defects0 := [], reserved0 := [], info := ImageInfo.none }

theorem wit_LaunchSteps_load :
    (match loadImage { withImage with launches := [(4, { launch2 with loaded := false, next := 0 })] } schedDie 0 1 0x1000 record2 with
     | (u, ws, .ok _) => ws == record2 && !recordBad u 1 ws && decide (0 < instances record2)
     | _ => false) = true := by decide +kernel

theorem wit_LaunchSteps_place :
    (let x := launch2
     let s := { solo withImage { idle with launch := 4 } with launches := [(4, x)] }
     let b := boardOf s false fun _ => false
     !schedPaused s && decide (x.next < instances x.words) && headLaunch s 1 1 == some 4 && savedOf s 1 1 == [] && s.resets.isEmpty
       && neverStatus s x == none && turnOk s b 1 0 1 && match findUnit s b (askOf x false) with
         | some [p] => p.rect.isNone && canCommand s [p.core]
         | _ => false) = true := by decide +kernel

theorem wit_LaunchSteps_done :
    (let n := { idle with launch := 4, ctl := { idle.ctl with wait := [.halted] } }
     let s := { solo withImage n with launches := [(4, { launch2 with next := 2, live := [0, 1] })] }
     n.over && outboundEmpty s 0 && s.resets.isEmpty && Assoc.rising none s.insts && n.faultEnd.isNone && !recOnce record2
       && [0, 1].any fun j => j != 0) = true := by decide +kernel

/-- A reset of instance 0 alone, asked for by instance 1, beside another of the same issuer. -/
def reset7 : Reset := ⟨7, 1, 1, 0xFF, [1], [0], [], none⟩

theorem wit_ResetAndTableSteps :
    (let s := { mapped with insts := [(0, idle), (1, idle)], resets := [reset7, { reset7 with serial := 8, insts := [] }] }
     (s.resets.find? fun r => r.serial == 7) = some reset7 ∧ Assoc.rising none s.insts = true ∧ (s.inst? 1).isSome = true)
    ∧ up.resets = [] ∧ mayReset up 15 3 0xFF none = true ∧ barHeld up 1 0 = false
    ∧ (agetD ⟨none, 0, 0⟩ 15 (({ mapped with ports := [(1, { HostPort.fresh with windows := [(15, ⟨some 0, 0, 0⟩)] })] } : State).port 1).windows).ctx
        = some 0
    ∧ armBad ((agetD LtEntry.fresh 255 up.table).fields 0x8000000000000000) 0x8000000000000000 = false
    ∧ armBad ((agetD LtEntry.fresh 0 up.table).fields 0x6000000000000000) 0x6000000000000000 = true
    ∧ ([(0 : BitVec 2), 1, 2].all fun rule => [false, true].all fun d =>
        let x := { LtEntry.fresh with valid := true, rule := rule, deferred := d, replace := d, record := 0x1000 }
        let s := { withImage with table := [(0, x)], pushes := [⟨.table 0, 0, 0x1000, false, 0⟩] }
        entryRuns s 0 && !entryRuns { s with pushes := [] } 0 && decide (x.at x.nextK ≤ s.now) && x.nextK == 0
          && x.jump.isNone && !schedPaused s) = true
    ∧ (let s := { solo withImage { idle with launch := 4 } with
         table := [(0, { LtEntry.fresh with valid := true, rule := 2, record := 0x1000 })], launches := [(4, { launch2 with table := some 0 })] }
       entryRuns s 0 && mayReplace s 0 && entryLaunch s 0 == some 4) = true := by
  decide +kernel

/-! ### Links, host ports and peers -/

/-- A DATA flit. -/
def flit0 : Flit := ⟨0, 0xFF, 0, 1, false, List.replicate 244 0x5A, 3, 0⟩

/-- The state with a direction of module 0 of boundary 0 as given. -/
def linked (d : LinkDir) : State := { up with links := [(0, d)] }

theorem wit_LinkSteps :
    linkExists 0 = true ∧ (up.link 0).toSend = [] ∧ (up.link 0).moved = [] ∧ (up.link 0).held = [] ∧ (up.link 0).width = 64
    ∧ ([(2 : Nat), 3].all fun k =>
        let s := linked { LinkDir.fresh with held := [flit0], toSend := [flit0], replays := [(0, k)] }
        agetD 0 flit0.seq.toNat (s.link 0).replays == k) = true
    ∧ (let s := linked { LinkDir.fresh with wire := [flit0], fails := [], lastAck := 0, held := [flit0] }
       (s.link 0).wire = [flit0] ∧ flit0.payload.length = 244 ∧ flit0.seq = (s.link 0).expected
         ∧ (s.link 0).nakOut = false)
    ∧ ((linked { LinkDir.fresh with nakSeen := some 0xFF }).link 0).nakSeen = some 0xFF
    ∧ ((linked { LinkDir.fresh with retraining := true }).link 0).retraining = true
    ∧ (0x00000000FFFFFFFF : BitVec 64).setWidth 32 ≠ (0 : BitVec 32) ∧ (0x00000000FFFFFFFF : BitVec 64) >>> 32 = 0
    ∧ (0xFFFFFFFF00000000 : BitVec 64).setWidth 32 = (0 : BitVec 32) ∧ (up.log.used < 16382) := by decide +kernel

/-- An all-zero flit with one error in its CRC. -/
theorem wit_LinkSteps_error : readFlit (withErrors (Flit.bytes ⟨0, 0, 0, 0, false, [], 0, 0⟩) [(255, 1)]) = none := by
  have zeros : ∀ n, crc64 (List.replicate n 0) = 0 := by
    intro n
    induction n with
    | zero => rfl
    | succ n ih => rw [List.replicate_succ, crc64, List.foldl_cons, show crc64Byte 0 (0 : Byte).toNat = 0 from by decide +kernel]; exact ih
  have body : Flit.body ⟨0, 0, 0, 0, false, [], 0, 0⟩ = List.replicate 248 0 := by decide +kernel
  have bytes : withErrors (List.replicate 248 0 ++ leBytes 8 0) [(255, 1)] = List.replicate 255 0 ++ [1] := by decide +kernel
  have head : (List.replicate 255 (0 : Byte) ++ [1]).take 248 = List.replicate 248 0 := by decide +kernel
  rw [Flit.bytes, body, zeros, bytes, readFlit, head, zeros, if_pos (by decide +kernel)]

/-- Aperture 1 of port 0, in BAR 2 and for peers: context 0, VIRT, at address 0. -/
def apertures : State :=
  { mapped with ports := [(0, { HostPort.fresh with
      apertures := [(1, ⟨0x8000000000000000, 0, 0⟩)], ingress := [(1, ⟨0x8000000000000000, 0, 0⟩)] })] }

theorem wit_HostAndPeerSteps_lines :
    ([barEntry (apertures.port 0) (2 ^ 26 + 63), peerEntry (apertures.port 0) 1 63].all fun x => match x with
      | (some e, _, o) => apertureOk e true && o == 63 && match apertureXlate { apertures with fresh := 1 } 0 e o 1 true with
        | (_, .ok [p]) => p.n == 1
        | _ => false
      | _ => false) = true
    ∧ ([(1 : Nat), 128].all fun n => isOk (readPieces 0 false (barEntry (apertures.port 0)) { apertures with fresh := 1 } (linesOf (2 ^ 26) n) []).2
        && isOk (readPieces 0 true (peerEntry (apertures.port 0) 1) { apertures with fresh := 1 } (linesOf 0 n) []).2) = true
    ∧ (let l : HostLine := ⟨9, 1, 5, true, 0x100, [], false⟩
       (([l, { l with id := 10, wr := 2 }] : List HostLine).find? fun l => l.id == 9) = some l)
    ∧ barHeld up 0 65535 = false ∧ inboundHeld up 0 65535 = false
    ∧ ({ up with bringup := .failed 1 } : State).bringup = .failed 1 := by decide +kernel

theorem wit_HostAndPeerSteps_outbound :
    (let q : OutRead := ⟨255, 0x8000000000000, 64, .engine 5 0, none, 0, 1⟩
     (([q] : List OutRead).find? fun q => q.tag == 255 && homeOf q.pa == .host) = some q ∧ q.since + 80000000 ≤ 80000000)
    ∧ (let q : OutRead := ⟨7, 0xC000000000000, 64, .engine 5 0, some 35, 0, 1⟩
       (([q] : List OutRead).find? fun q => q.tag == 7 && homeOf q.pa == .peer && q.via.isSome) = some q)
    ∧ (let w : OutWrite := ⟨1, 0xC000000000000 + 1023 * 2 ^ 40, [1], true, some 0, 0, 1⟩
       (homeOf w.pa == .peer && (peerEntryOf w.pa).1 == 1023) = true ∧ w.since + 16000000 ≤ 16000000) := by decide +kernel

theorem wit_HostAndPeerSteps_registers :
    (agetD LtEntry.fresh 255 up.table).valid = false ∧ barHeld up 1 0 = false ∧ (0x40 : Word).toNat % 64 = 0
      ∧ (0x1FFFFFFFFBE00 : Word).toNat % 64 = 0 ∧ (0x1FFFFFFFFBE00 : Word).toNat % 2 ^ 49 + 16896 ≤ 2 ^ 49
      ∧ ({ up with fw := { up.fw with reportTo := some (1, 0x40) } } : State).fw.reportTo = some (1, 0x40) := by decide +kernel

/-! ### Pre-emption and restoring -/

/-- A record of class 0 for 4 by 4 FEs inside its tenant's reserved rectangle, and the launch that waits with it, one variant
of no defect. -/
def urgent : Launch :=
  { launch2 with
    cls := 0, words := (((record2.set 9 0x10004).set 10 0x00040004).set 2 0x1B6DB000000000).set 3 0x100000001, seq := 2, next := 0, live := []
    info := { ImageInfo.none with variants := [⟨signature 4 4 [0, 0], 4, 4, 0, 0⟩] } }

/-- The rectangle of 4 by 4 FEs at the origin. -/
def square : Rect := ⟨0, 0, 4, 4⟩

/-- Context 0 runs in class 3 on the rectangle that its tenant reserved, and `urgent` waits. -/
def crowded : State :=
  { solo mapped { idle with launch := 5, reg := some (Region.fresh square 0 0 []) } with
    launches := [(4, urgent), (5, { launch2 with cls := 3, next := 2 })]
    tenants := [(1, { Tenant.fresh with quota0 := 1, reserved := some square })] }

/-- Outside the reserved rectangle `urgent` finds no place, and none at the origin where an FE is held. -/
theorem urgent_nowhere (s : State) (b : Board) (h : (s.tenant 1).reserved = some square)
    (h₀ : b.freeRect s.defects square = false) : findUnit s b (askOf urgent false) = none := by
  have out : ∀ c w, ¬ (c = 0 ∧ w = 0) → reservedOk s 1 0 true false ⟨c, w, 4, 4⟩ = false := by
    intro c w hc
    simp only [reservedOk, h, rectWithin, square]
    have : ¬ (c + 4 ≤ 0 + 4 ∧ w + 4 ≤ 0 + 4) := by omega
    simp only [Bool.not_true, Bool.false_or, Bool.and_eq_false_iff, decide_eq_false_iff_not]
    tauto
  have spot : ∀ o ∈ origins, spotAt s b (askOf urgent false) .module o.1 o.2 = none := by
    rintro ⟨c, w⟩ -
    have hw : recW (askOf urgent false).ws = 4 := by decide +kernel
    have hh : recH (askOf urgent false).ws = 4 := by decide +kernel
    have ht : (askOf urgent false).tenant = 1 := rfl
    have hc : recCls (askOf urgent false).ws = 0 := by decide +kernel
    have hr : recRsv (askOf urgent false).ws = true := by decide +kernel
    have hj : (askOf urgent false).judge = false := rfl
    by_cases h' : c = 0 ∧ w = 0
    · obtain ⟨rfl, rfl⟩ := h'
      simp only [square] at h₀
      simp only [spotAt, hw, hh, h₀, Bool.not_false, Bool.or_true, Bool.true_or, if_true, ite_self]
    · simp only [spotAt, hw, hh, ht, hc, hr, hj, out c w h', Bool.not_false, Bool.or_true, Bool.true_or, if_true, ite_self]
  have none_ : findSpot s b (askOf urgent false) .module = none := by
    have hw : recW (askOf urgent false).ws = 4 := by decide +kernel
    rw [findSpot, tryAt, if_neg (by rw [hw]; decide)]
    exact List.findSome?_eq_none_iff.mpr fun o ho => by rw [spot o ho]; rfl
  have lvl : unitLevel (askOf urgent false).ws = 7 := by decide +kernel
  simp only [findUnit, lvl, none_, if_true, Option.map_none]

/-- Instance 0 is a victim: it alone stands where the head of class 0 must go. -/
theorem wit_PreemptionSteps_victim : isVictim crowded 0 = true := by
  have now : findUnit crowded (boardWithout crowded []) (askOf urgent false) = none :=
    urgent_nowhere _ _ rfl (by decide +kernel)
  have victim : victimFor crowded urgent = some 0 := by
    unfold victimFor
    dsimp only
    rw [now]
    decide +kernel
  have head : (savedOf crowded 1 0).isEmpty = true ∧ (headLaunch crowded 1 0).bind (fun l => aget l crowded.launches) = some urgent := by
    decide +kernel
  simp only [isVictim, List.any_eq_true]
  refine ⟨0, by simp, 1, by simp, ?_⟩
  rw [head.1, head.2]
  simp only [victim]
  decide

/-- The same FEs parked for instance 0, saved; its first FE claimed or not. -/
def parkedThere (claim : Option Nat) : State :=
  { crowded with
    insts := [(0, { idle with launch := 5, life := .saved, reg := some (Region.fresh square 0 0 []), slot := 4 })]
    fes := [(0, { Fe.fresh with parkedFor := some 0, claimedAt := claim })] }

theorem wit_PreemptionSteps_claim : (parkedThere none).feOf 0 ⟨0, 0⟩ = some 0 ∧ mustSave (parkedThere none) 0 = true := by
  refine ⟨by decide +kernel, ?_⟩
  have now : findUnit (parkedThere none) (boardOf (parkedThere none) false fun _ => false) (askOf urgent false) = none :=
    urgent_nowhere _ _ rfl (by decide +kernel)
  have head : (savedOf (parkedThere none) 1 0).isEmpty = true
      ∧ (headLaunch (parkedThere none) 1 0).bind (fun l => aget l (parkedThere none).launches) = some urgent := by decide +kernel
  have claim : claimed (parkedThere none) 0 = true := by
    simp only [claimed, List.any_eq_true]
    refine ⟨0, by simp, 1, by simp, ?_⟩
    rw [head.1, head.2]
    dsimp only
    rw [now]
    decide +kernel
  simp only [mustSave, claim, Bool.or_true, Bool.true_or]

/-- A save writes whatever bytes it is given, where their translation succeeds. -/
theorem saveWrite_written (s : State) (n : Inst) (off k : Nat) (bs : List Byte) (hk : bs.length = k)
    (h : (match (xlateNow s (dieOfCore n.cluster) n.ctx (saveBase (recordOf s n) n.pos + BitVec.ofNat 64 off) k 1 (moduleAccess true)).2 with
      | .ok _ => true
      | _ => false) = true) : (saveWrite s n off bs).isSome = true := by
  unfold saveWrite writeVirt
  rw [hk]
  revert h
  rcases xlateNow s (dieOfCore n.cluster) n.ctx (saveBase (recordOf s n) n.pos + BitVec.ofNat 64 off) k 1 (moduleAccess true) with ⟨u, x⟩
  cases x <;> simp

theorem fitTo_length (n : Nat) (bs : List Byte) : (fitTo n bs).length = n := by
  simp only [fitTo, zeros, List.length_take, List.length_append, List.length_replicate]
  omega

/-- Instance 0 of a launch with its save area at 0x20000. -/
def stopping (l : Life) : State :=
  { solo mapped { idle with launch := 5, life := l, regDone := true } with
    launches := [(5, { launch2 with words := record2.set 11 0x20000, next := 2 })] }

theorem wit_PreemptionSteps_save :
    idle.ctl.savable = true ∧ idle.completed = false ∧ idle.settled up 0 = true
    ∧ (∀ n ∈ (stopping .stopping).inst? 0, (saveWrite (stopping .stopping) n 0 (headerBytes (stopping .stopping) n
        (recordOf (stopping .stopping) n) 0x01 0x100)).isSome = true)
    ∧ (∀ n ∈ (stopping .saving).inst? 0, (saveWrite (stopping .saving) n 0 (headerBytes (stopping .saving) n
        (recordOf (stopping .saving) n) 0x02 0x1000 ++ ctlBytes (stopping .saving) n ++ nestBytes n)).isSome = true) := by
  refine ⟨by decide, by decide, by decide +kernel, ?_, ?_⟩
  · intro n hn
    obtain rfl : n = { idle with launch := 5, life := .stopping, regDone := true } := by simpa [stopping, solo, State.inst?, aget] using hn.symm
    exact saveWrite_written _ _ _ 0x100 _ (fitTo_length _ _) (by decide +kernel)
  · intro n hn
    obtain rfl : n = { idle with launch := 5, life := .saving, regDone := true } := by simpa [stopping, solo, State.inst?, aget] using hn.symm
    exact saveWrite_written _ _ _ 0x1000 _ (by
      rw [List.length_append, List.length_append, headerBytes, fitTo_length, ctlBytes, fitTo_length]
      simp only [nestBytes, zeros, idle, placedInst, List.length_replicate]) (by decide +kernel)

/-- An instance of launch 5 saved, its area good. -/
def savedThere : State :=
  let s := stopping .saved
  let n := { idle with launch := 5, life := .saved, regDone := true, slot := 4 }
  { solo s n with mem := s.mem.writeN 0x20000 (headerBytes s n (recordOf s n) 0x02 0x1000) }

theorem wit_PreemptionSteps_restore :
    (match savedThere.inst? 0 with
     | some n => n.life == .saved && outboundEmpty savedThere 0 && restoreTurn savedThere 0 n && match readArea savedThere n with
       | (u, .ok area) => headerAgrees u n (recordOf u n) area && areaWord area 0x18 == 0
           && ((restoreSpot u 0 n area).any fun p => p.1.rect.isNone && !p.2 && canCommand u [p.1.core]
             && (saveWrite (command (.restore 0) u p.1.core) n 0x0F [0x03]).isSome)
       | _ => false
     | none => false) = true := by decide +kernel

/-- PreemptionSteps: the watchdog's limit, reached by the context and by a region. -/
theorem wit_PreemptionSteps_watchdog :
    watchLimit up idle ≤ 1600000000 ∧ idle.ctl.async.length < 16 ∧ idle.life = .running
      ∧ (running [] [iter0]).phase = .running ∧ ({ running [] [iter0] with watch := 1600000000 } : Region).expired = false := by
  decide +kernel

/-! ### Firmware, the time base and the calendar -/

theorem wit_FirmwareSteps :
    State.reset.bringup = .off ∧ firmwareOk ⟨fwRoles.map fun r => ⟨r, true, true, 3⟩, 3, [], []⟩ = true
    ∧ firmwareOk ⟨fwRoles.map fun r => ⟨r, true, true, 2⟩, 3, [], []⟩ = false ∧ firmwareOk ⟨[], 0, [], []⟩ = false
    ∧ descOk up desc1 = true ∧ (aget 0 up.contexts).isSome = true ∧ ctxIdle up 0 = true ∧ (up.sem 767 63).owner = none
    ∧ poolSum up - (up.die 7).pool + 980000 ≤ 7840000 ∧ 7840000 < poolSum up - (up.die 7).pool + 980001
    ∧ (let s := { up with cycle := 1600000, tenants := [(2, { Tenant.fresh with reserved := some square, borrowed := [(0, 1600000)] })] }
       let n := { idle with reg := some (Region.fresh square 0 0 []) }
       borrowLimitCycles ≤ borrowedTime s 2 ∧ s.tenantOf 0 ≠ 2 ∧ n.rect = some square ∧ rectMeets square square = true)
    ∧ (let p : Packet := ⟨3, 0, 9, false⟩
       let e : BitVec 8 := 0x83
       firstPacket (([p] : List Packet).filter fun p => e.getLsbD 7 && !p.firmware && p.tenant == e.setWidth 4) = some p
         ∧ lendTo 16 [p] = some 3 ∧ lendTo 16 [{ p with firmware := true }] = some 16)
    ∧ idle.completed = false ∧ canCommand up idle.leaves = true ∧ canCommand up [767] = true ∧ (up.die 7).paced = []
    ∧ (0 : Nat) + 2048 ≤ 2048 ∧ State.reset.fw.standby = true ∧ (agetD LeafState.fresh 767 up.fw.leaves).permits ≠ 0
    ∧ (agetD LeafState.fresh 0 [(0, { LeafState.fresh with wire := [(0xFFFF : BitVec 16)], acks := [0xFFFF] })]).acks = [0xFFFF] := by
  decide +kernel

/-- FirmwareSteps, the time base: unlocked and locked, each source. -/
theorem wit_FirmwareSteps_time :
    (0 : Int) ≤ ((0x1000 : Word) - BitVec.ofNat 64 up.now).toInt ∧ up.time.everlock = false
    ∧ ({ up.time with src := 1, everlock := true } : TimeBase).holdover = false
    ∧ (0x1000 : Word) = (0xFF0 : Word) + ({ up.time with ptmoff := 0x10 } : TimeBase).ptmoff := by decide +kernel

/-- The same with a save area. -/
def parkedSaved : State :=
  { parkedThere (some 9) with launches := [(4, urgent), (5, { launch2 with cls := 3, words := (record2.set 11 0x20000).set 10 0x00040004, next := 2 })] }

/-- The state with other bytes, poison and write-backs. -/
def rewritten (s : State) (x : Memory × List Nat × List Nat) : State := { s with mem := x.1, poison := x.2.1, writebacks := x.2.2 }

/-- A write, or a copy, where no error waits and no block is in flight, changes nothing but these. -/
theorem homeWrite_rewritten (s : State) (key : Nat) (bs : List Byte) (hf : s.flaws = []) (hb : ∀ x ∈ s.insts, x.2.ctl.blk = none) :
    ∃ x, homeWrite s key bs = rewritten s x := by
  have hw : barrierWaiters (s.putBytes key bs) key bs.length = [] := by
    rw [barrierWaiters, List.filterMap_eq_nil_iff]
    intro x hx
    rw [hb x hx]
  refine ⟨(s.mem.writeN key bs, clearPoison s.poison key bs.length, s.writebacks.filter fun g => !overlap g (granule g) key bs.length), ?_⟩
  rw [homeWrite, breakBarriers, hw]
  simp only [List.foldl_nil, State.putBytes, rewritten, hf, List.filter_nil]

theorem copyRun_rewritten (s : State) (a b k : Nat) (hf : s.flaws = []) (hb : ∀ x ∈ s.insts, x.2.ctl.blk = none) :
    ∃ x, copyRun s a b k = rewritten s x := by
  have hm : meetFlaws s a k = s := by
    simp only [meetFlaws, meetWhere, hf, List.filter_nil, List.foldl_nil]
    cases s
    cases hf
    rfl
  obtain ⟨x, hx⟩ := homeWrite_rewritten s b (s.bytes a k) hf hb
  exact ⟨(x.1, _, x.2.2), by rw [copyRun, hm, hx]; rfl⟩

theorem copyShelf_rewritten (s : State) (f : Nat) (ps : List Piece) (hf : s.flaws = []) (hb : ∀ x ∈ s.insts, x.2.ctl.blk = none) :
    ∃ x, copyShelf s f ps true = rewritten s x := by
  have go : ∀ (ps : List Piece) (x : Memory × List Nat × List Nat) (k : Nat), ∃ y, (ps.foldl (fun (a : State × Nat) p =>
      (if true then copyRun a.1 (shelfKey f a.2) p.key p.n else copyRun a.1 p.key (shelfKey f a.2) p.n, a.2 + p.n))
        (rewritten s x, k)).1 = rewritten s y := by
    intro ps
    induction ps with
    | nil => exact fun x _ => ⟨x, rfl⟩
    | cons p ps ih =>
      intro x k
      obtain ⟨y, hy⟩ := copyRun_rewritten (rewritten s x) (shelfKey f k) p.key p.n hf hb
      rw [List.foldl_cons, if_pos rfl, hy]
      exact ih y _
  exact go ps (s.mem, s.poison, s.writebacks) 0

/-- The saved instance, the place of its first FE in the area, and what its record holds. -/
def lazyInst : Inst := { idle with launch := 5, life := .saved, reg := some (Region.fresh square 0 0 []), slot := 4 }
def lazyOff : Nat := feSlotOff (recordOf parkedSaved lazyInst) 0 0
def lazyBytes : List Byte := feRecord (parkedSaved.fe 0) ++ extensionBytes (parkedSaved.fe 0)

/-- A write into the area goes through wherever its translation does. -/
theorem saveWrite_rewritten (s : State) (n : Inst) (off k : Nat) (bs : List Byte) (hf : s.flaws = []) (hb : ∀ x ∈ s.insts, x.2.ctl.blk = none)
    (hk : bs.length = k) (x : Memory × List Nat × List Nat)
    (h : ∃ ps, xlateNow (rewritten s x) (dieOfCore n.cluster) n.ctx (saveBase (recordOf (rewritten s x) n) n.pos + BitVec.ofNat 64 off) k 1
      (moduleAccess true) = (rewritten s x, .ok ps)) :
    ∃ y, saveWrite (rewritten s x) n off bs = some (rewritten s y) := by
  obtain ⟨ps, h⟩ := h
  have go : ∀ (ps : List Piece) (x : Memory × List Nat × List Nat) (bs : List Byte), ∃ y, (ps.foldl (fun (x : State × List Byte) p =>
      (homeWrite x.1 p.key (x.2.take p.n), x.2.drop p.n)) (rewritten s x, bs)).1 = rewritten s y := by
    intro ps
    induction ps with
    | nil => exact fun x _ => ⟨x, rfl⟩
    | cons p ps ih =>
      intro x bs
      obtain ⟨y, hy⟩ := homeWrite_rewritten (rewritten s x) p.key (bs.take p.n) hf hb
      rw [List.foldl_cons, hy]
      exact ih y _
  obtain ⟨y, hy⟩ := go ps x bs
  exact ⟨y, by rw [saveWrite, writeVirt, hk, h]; dsimp only; rw [hy]⟩

/-- Everything below 512 MiB translates through the one entry of `mapped`'s die TLB. -/
theorem parked_hit (x : Memory × List Nat × List Nat) (va : Nat) (hv : va < 2 ^ 29) :
    ∃ pa po, findVirt (rewritten parkedSaved x) none 0 0 va (moduleAccess true) = (rewritten parkedSaved x, .hit pa po) := by
  have h0 : va % 36028797018963968 / 536870912 = 0 := by omega
  have hl : tlbLookup (rewritten parkedSaved x) none 0 0 va = some ⟨.die 0, false, 0, 0, 29, 0x3F, 0x1000, 0⟩ := by
    simp [tlbLookup, lookupPlaces, tlbFind, tlbCovering, rewritten, parkedSaved, parkedThere, crowded, solo, mapped, List.filter_cons, h0]
  have hc : checkLeaf 0x3F (0 + va % 2 ^ 29) (moduleAccess true) = none := by
    have : 0 + va % 2 ^ 29 < hbmEnd := by
      have : va % 2 ^ 29 < 2 ^ 29 := Nat.mod_lt _ (by decide)
      have : 2 ^ 29 ≤ hbmEnd := by decide +kernel
      omega
    rw [checkLeaf, if_pos this]
    rfl
  refine ⟨0 + va % 2 ^ 29, bits 0x3F 9 8, ?_⟩
  rw [findVirt, lookVirt, hl]
  dsimp only
  rw [throughEntry, hc]
  rfl


theorem canonical_low (v : Nat) (hv : v < 2 ^ 29) : canonical v = true := by
  have h1 : v / 2 ^ 55 = 0 := by omega
  have h2 : v.testBit 54 = false := Nat.testBit_lt_two_pow (by omega)
  rw [canonical, bits, bit, h2, Nat.shiftRight_eq_div_pow, h1]
  rfl

theorem tokensOf_low (a k : Nat) (hk : 0 < k) (h : a + k < 2 ^ 29) (t : Nat × Nat) (ht : t ∈ tokensOf a k 64) : t.1 < 2 ^ 29 := by
  rw [tokensOf, if_neg (by omega), List.mem_map] at ht
  obtain ⟨j, hj, rfl⟩ := ht
  rw [List.mem_range] at hj
  show max a ((a / 64 + j) * 64) < 2 ^ 29
  omega

theorem xlateVirt_hits (find : State → Nat → State × Look) (s : State) (hf : ∀ va, va < 2 ^ 29 → ∃ pa po, find s va = (s, .hit pa po))
    (ts : List (Nat × Nat)) (acc : List Piece) (h : ∀ t ∈ ts, t.1 < 2 ^ 29) : ∃ ps, xlateVirt find s ts acc = (s, .ok ps) := by
  induction ts generalizing acc with
  | nil => exact ⟨_, by rw [xlateVirt]⟩
  | cons t ts ih =>
    obtain ⟨pa, po, hp⟩ := hf (t.1 % 2 ^ 64) (by have := h t (.head _); omega)
    rw [xlateVirt, hp]
    exact ih _ fun u hu => h u (.tail _ hu)

theorem xlateNow_virt (s : State) (a : Word) (k : Nat) (ha : a.toNat + k < 2 ^ 29) :
    xlateNow s 0 0 a k 1 (moduleAccess true)
      = xlateVirt (fun s va => findVirt s none 0 0 va (moduleAccess true)) s (tokensOf a.toNat k 64) [] := by
  rw [xlateNow, xlate, if_neg (by omega)]
  simp only [canonical_low a.toNat (by omega), canonical_low ((a.toNat + k - 1) % 2 ^ 64) (by omega), Bool.not_true, if_true]
  rfl

/-- So does a run below it. -/
theorem parked_run (x : Memory × List Nat × List Nat) (a : Word) (k : Nat) (ha : a.toNat + k < 2 ^ 29) (hk : 0 < k) :
    ∃ ps, xlateNow (rewritten parkedSaved x) 0 0 a k 1 (moduleAccess true) = (rewritten parkedSaved x, .ok ps) := by
  rw [xlateNow_virt _ a k ha]
  exact xlateVirt_hits _ _ (parked_hit x) _ [] (tokensOf_low _ k hk ha)

/-- PreemptionSteps, a claimed FE's lazy save: where its shelf goes, and the writes of its record and of BYTES. -/
theorem wit_PreemptionSteps_lazy :
    ∃ q ps u v, parkedSaved.inst? 0 = some lazyInst ∧ (parkedSaved.fe 0).claimedAt = some 9 ∧ parkedSaved.asleep (shelfKey 0 0) = false
      ∧ xlateNow parkedSaved (dieOfCore lazyInst.cluster) lazyInst.ctx (saveBase (recordOf parkedSaved lazyInst) lazyInst.pos + BitVec.ofNat 64 lazyOff) 0x8000 1
          (moduleAccess true) = (q, .ok ps)
      ∧ saveWrite (copyShelf q 0 ps true) lazyInst (lazyOff + 0x8000) lazyBytes = some u
      ∧ saveWrite u lazyInst 0x38 (leBytes 8 (lazyInst.bytes + 0x8000 + lazyBytes.length)) = some v := by
  have hb : ∀ x ∈ parkedSaved.insts, x.2.ctl.blk = none := by decide +kernel
  have ha : ∀ x : Memory × List Nat × List Nat, saveBase (recordOf (rewritten parkedSaved x) lazyInst) lazyInst.pos = 0x20000 := fun _ => rfl
  have hd : dieOfCore lazyInst.cluster = 0 ∧ lazyInst.ctx = 0 ∧ lazyOff = 0x10000 := by decide +kernel
  obtain ⟨ps, hx⟩ := parked_run (parkedSaved.mem, parkedSaved.poison, parkedSaved.writebacks) 0x30000 0x8000 (by decide) (by decide)
  obtain ⟨x, hs⟩ := copyShelf_rewritten parkedSaved 0 ps rfl hb
  obtain ⟨y, hu⟩ := saveWrite_rewritten parkedSaved lazyInst (lazyOff + 0x8000) 2048 lazyBytes rfl hb (by decide +kernel) x (by
    rw [ha, hd.1, hd.2.1, hd.2.2]; exact parked_run x 0x38000 2048 (by decide) (by decide))
  obtain ⟨z, hv⟩ := saveWrite_rewritten parkedSaved lazyInst 0x38 8 (leBytes 8 (lazyInst.bytes + 0x8000 + lazyBytes.length)) rfl hb
    (by simp [leBytes]) y (by rw [ha, hd.1, hd.2.1]; exact parked_run y 0x20038 8 (by decide) (by decide))
  refine ⟨parkedSaved, ps, _, _, rfl, rfl, rfl, ?_, by rw [hs]; exact hu, hv⟩
  have h : saveBase (recordOf parkedSaved lazyInst) lazyInst.pos = 0x20000 := ha (parkedSaved.mem, parkedSaved.poison, parkedSaved.writebacks)
  rw [h, hd.1, hd.2.1, hd.2.2]
  exact hx

/-! ### States for the further clauses of the statements above -/

/-- CabinetAccessesFire, AtomicsAndBarriersAreRequested: an ST and an atomic whose address has translated ahead. -/
theorem wit_translated_ahead :
    ([Instr.st m0, .aadd m0].all fun x =>
      let s := (opnds cabAddr 5 1 (puts x up)).modSlot 0 0 fun r => { r with st := .translated, pieces := [⟨cabKey 0 0x100, 8, false⟩] }
      (firing x s).any fun fr => fr.rec_.st == .translated && !devicePieces fr.rec_.pieces && fr.b.req.isNone) = true := by decide +kernel

/-- LoadDeliversItsBytes: the last 8 bytes of a line of DEFAULT memory, the core holding a copy of it or none; an acquire. -/
theorem wit_LoadDeliversItsBytes_cached :
    ([([] : List (Nat × List Byte)), [(0x1000, List.replicate 64 1)]].all fun copies => [MemOrd.plain, .acq].all fun ord =>
      let x := Instr.ld { m0 with ord }
      let p : Piece := ⟨0x1038, 8, true⟩
      let s := ((opnds 0x1038 0 1 (puts x up)).modSlot 0 0 fun r => { r with st := .translated, pieces := [p] }).modCore 0
        fun c => { c with cache := copies }
      ((s.blk? 0).any fun b => readMay s 0 b 0 0 p && b.held.isEmpty && b.req.isNone) && aget 0x1000 (s.core 0).cache == (copies.head?.map fun c => c.2)
        && s.outb.isEmpty && s.flaws.isEmpty && !poisonedIn s.poison p.key 8) = true := by decide +kernel

/-- HomePerformsAtomic: its block may bind, on a good row and on a poisoned one. -/
theorem wit_HomePerformsAtomic_sides :
    ([([] : List Nat), [cabKey 0 0x100]].all fun poison =>
      let p : Piece := ⟨cabKey 0 0x100, 8, false⟩
      let s := { (asking (.aswp m0) (.atomic .swp p 7 0 .plain .die) .queued up).modBlk 0 (fun b => { b with bound := false }) with poison }
      ((s.blk? 0).any fun b => sideReady s 0 b 0) && !s.asleep p.key && objectMay (bindBlock s 0) 0 p.key p.n false .die false
        && (barrierWaiters (bindBlock s 0) p.key p.n).isEmpty && poisonedIn s.poison p.key p.n == !poison.isEmpty) = true := by
  decide +kernel

/-- CacheAndRetentionSteps: a shelf that has entered retention, leaves it, is interrupted on its way in, and is awake. -/
theorem wit_CacheAndRetentionSteps_arrays :
    (let s := fun r t => { up with retention := [(ArrayId.shelf 5, r)], cycle := t }
     gives (.retentionEntryDone (.shelf 5)) (s (.entering 0) 512) (fun t => t.retention == [(.shelf 5, .retained)])
       && gives (.retentionExit (.shelf 5)) (s .retained 600) (fun t => (t.retention.map fun r => r.1) == [.shelf 5])
       && gives (.retentionExit (.shelf 5)) (s (.entering 0) 256) (fun t => (t.retention.map fun r => r.1) == [.shelf 5])
       && gives (.retentionExitDone (.shelf 5)) (s (.leaving 512 (bankRows (.shelf 5))) 512) (fun t => t.retention.isEmpty)
       && retentionCycles (.shelf 5) == 512) = true := by decide +kernel

/-- BarrierObjectSteps: the block may bind; a BARWAIT that is registered and has its answer. -/
theorem wit_BarrierObjectSteps_sides :
    ([BarOp.init, .arrive, .wait].all fun op => let key := cabKey 0 0x200
      let s := (asking (.barwait { e0 with as := .cab }) (.barrier op key .die 3) .queued up).modBlk 0 fun b => { b with bound := false }
      ((s.blk? 0).any fun b => sideReady s 0 b 0) && (s.due? 0).isNone) = true
    ∧ (let s := (puts (.barwait e0) up).modBlk 0 fun b => { b with
         req := some ⟨0, .barrier .wait 0x1000 .cluster 3, true⟩, slots := [{ fedSlot .always with got := [4] }] }
       (s.blk? 0).any fun b => (b.rec_ 0).got == [4]) = true := by decide +kernel

/-- ChannelRequestSteps: the block may bind, and the head's row is good. -/
theorem wit_ChannelRequestSteps_sides :
    ([ChanOp.send, .recv, .tryRecv, .close].all fun op =>
      let s := (asking (.chsend e0) (.chan op 0 (leBytes 8 7) []) .queued up).modBlk 0 fun b => { b with bound := false }
      let s := chans { chan0 with head := [⟨leBytes 8 9, false, false, 0⟩] } s
      ((s.blk? 0).any fun b => sideReady s 0 b 0) && s.flaws.isEmpty
        && !s.poisonedPieces (chan0.headPieces ⟨leBytes 8 9, false, false, 0⟩)) = true := by decide +kernel

/-- ChannelSegmentMoves: a spill retried; a ring grown, empty and with an entry. -/
theorem wit_ChannelSegmentMoves_more :
    (let s := chans { chan0 with tail := [ent8], stall := true } up
     gives (.spillRetry 0) s (fun t => (aget 0 t.chans).any fun c => !c.stall && c.ring.length == 1)) = true
    ∧ ([([] : List Ent), [ent8]].all fun ring =>
        let c := { chan0 with grow := true, ring, wroff := 8 * ring.length }
        (c.ring.isEmpty && c.tail.isEmpty || decide (c.rdoff < c.wroff)) && gives (.growthCopyDone 0) (chans c up) (fun t =>
          (aget 0 t.chans).any fun g => g.ringpg == 2)) = true := by decide +kernel

/-- BlockStartDeliversItsRegisters: the register that the block reads came as a token with REL. -/
theorem wit_BlockStartDeliversItsRegisters_acquire :
    (Layout.readEntry rwBlock 0).1 = 5
      ∧ ({ Ctl.fresh 0x80 0 with acq := 32 } : Ctl).acq.getLsbD 5 = true ∧ ({ Ctl.fresh 0x80 0 with acq := 32 } : Ctl).pending = 0 := by
  decide +kernel

/-- ExitsChooseWhatFollows: another exit fired in this control cycle, or in an earlier one. -/
theorem wit_ExitsChooseWhatFollows_second :
    ([(1 : Nat), 0].all fun since => [Instr.br b0, .bri b0, .call b0, .calli b0, .halt b0, .trap b0, .eret e0].all fun x =>
      let s := (opnds 0x40 0 1 (puts x up)).modBlk 0 fun b => { b with
        exit := some (1, .halt), slots := b.slots ++ [{ SlotRec.empty with st := .done, since }] }
      (firing x s).any fun fr => (fr.b.exit.map fun e => e.1) == some 1 && ((fr.b.rec_ 1).since == s.cycle + 1) == (since == 1)) = true := by
  decide +kernel

/-- BlockStallTimer: an atomic that a store of an earlier block keeps in the core (SER), and one that has left. -/
theorem wit_BlockStallTimer_requests :
    (let s := { (asking (.aswp m0) (.atomic .swp ⟨cabKey 0 0x100, 8, false⟩ 7 0 .plain .die) .queued up) with outb := [outWrite] }
     (s.blk? 0).any fun b => b.started && (s.outb.any fun o => o.agent == .ctl 0)) = true
    ∧ (let s := (asking (.aswp m0) (.atomic .swp ⟨cabKey 0 0x100, 8, false⟩ 7 0 .plain .die) .queued up).modBlk 0 fun b => { b with bound := false }
       (s.blk? 0).any fun b => undecided s 0 b) = true := by decide +kernel

/-- RegionSteps: an iteration that waits for the room of its token; the output of the context has room. -/
theorem wit_RegionSteps_room :
    (let it := { iter0 with holds := [.token 1 32 0 (leBytes 8 9) 0] }
     fullChans (chans { chan0 with tail := [ent8], ring := List.replicate 8192 ent8 } (nested (running [] [it]))) idle it == [0]) = true
    ∧ (let s := onFe 0x01 add5 1 1 0 1 false
       (runningNest s 0).any fun x => outRoom s x.2.1 x.2.2 ⟨0, 0⟩ (s.fe 0).ctxWords && (parkedSink s 0 x.2.1 1).isNone) = true
    ∧ (up.asleep (shelfKey 0 0) = false ∧ up.flaws = [] ∧ up.poison = []) := by decide +kernel

/-- LinkSteps: a payload taken over from a retired module; a payload in its turn, and one before its turn. -/
theorem wit_LinkSteps_streams :
    ((linked { LinkDir.fresh with moved := [flit0] }).link 0).moved = [flit0]
    ∧ (up.bound (boundOf 0)).early = [] ∧ flit0.ord = agetD 0 flit0.stream (up.bound (boundOf 0)).due
    ∧ ({ flit0 with ord := 1 } : Flit).ord ≠ agetD 0 flit0.stream (up.bound (boundOf 0)).due := by decide +kernel

/-- HostAndPeerSteps: vector 4 masked, and not. -/
theorem wit_HostAndPeerSteps_vector :
    ((HostPort.fresh.msixWrite 9 0x100000000 0 8).msixWord 9).getLsbD 32 = true
      ∧ ((HostPort.fresh.msixWrite 9 0 0 8).msixWord 9).getLsbD 32 = false := by decide +kernel

/-- PreemptionSteps, FirmwareSteps: no queue reset runs, and the scheduler is at work, or its standby has just taken over. -/
theorem wit_PreemptionSteps_scheduler :
    underReset crowded 0 = false ∧ (crowded.inst? 0).any (fun n => canCommand crowded n.leaves) = true
      ∧ canCommand (parkedThere none) [leafOfFe 0] = true ∧ schedPaused savedThere = false ∧ schedPaused up = false
      ∧ schedPaused { mapped with resets := [reset7] } = false := by decide +kernel

/-- ResetAndTableSteps: a reset that covers a live instance, unbound and bound, and one that has stopped; the sizes of a
launch window's write; a table write of each writer, arming and disarming. -/
theorem wit_ResetAndTableSteps_more :
    ([false, true].all fun bound =>
      let l := { launch2 with cls := 1 }
      let s := { (puts (.halt b0) up).modBlk 0 (fun b => { b with bound }) with launches := [(0, l)] }
      resetCovers s 1 1 0xFF none == [0] && mayReset s 1 1 0xFF none && (s.inst? 0).any fun n => !n.over && n.blockBound == bound
        && n.ctl.blk.any fun b => b.req.isNone) = true
    ∧ (let s := { mapped with insts := [(1, { idle with life := .ended })], resets := [reset7] }
       resetStopped s reset7 = true)
    ∧ ([(1 : Nat), 8].all fun n => [1, 2, 4, 8].contains n) = true ∧ (16 ∈ [1, 2, 4, 8]) = False
    ∧ ([Writer.host 1 0, .firmware].all fun w => [(0x8000000000000000 : Word), 0].all fun v =>
        tableTakes up 255 ⟨w, 0, 8, v⟩ && writtenW3 up 255 ⟨w, 0, 8, v⟩ == v) = true := by decide +kernel

/-- RegionSteps: a memory source and a channel source at their next beat, and a memory and a channel sink with a beat there. -/
theorem wit_RegionSteps_beats :
    (let nest := nest1 [bind1 0x0004000000000000, bind1 0x1004000000000000]
     let r := { running nest.binds [iter0] with sinks := [(1, [beat1 0])] }
     let s := nested r
     (runningNest s 0).isSome && [0, 32].all fun port =>
       let p := agetD ⟨0, .virt, false⟩ port r.ports
       let w := nest.binds.getD (port / 32) []
       !p.ch && Descr.addrAt w p.base.toInt (Descr.vecAt loop1 [0] 0) == some 0x100 && decide (0 < Descr.nbytes w)
         && match xlate { s with fresh := s.fresh + 1 } (some (bindCore r w)) (bindCore r w) (dieOfCore (bindCore r w)) 0 p.as 0x100 (Descr.nbytes w) 64 1
             ⟨.port, port == 0, port == 32, false, false⟩ false with
           | (u, .ok ps) => !ps.isEmpty && u.insts == s.insts
           | _ => false) = true
    ∧ (let nest := nest1 [bind1 0, bind1 0x1000000000000000]
       let r := { running nest.binds [iter0] with ports := [(0, ⟨0, .virt, true⟩), (32, ⟨0, .virt, true⟩)], sinks := [(1, [beat1 0])] }
       let c := { chan0 with head := [⟨leBytes 8 9, false, false, 0⟩] }
       let s := chans c (nested r)
       (runningNest s 0).isSome && !sourceHeld s 0 { idle with reg := some r } r nest 0 iter0 0 && s.flaws.isEmpty && s.poison.isEmpty
         && (match chanQuery s 0 (.port 0 0) 0 false with | .ok x => x.2.head == c.head | .error _ => false)
         && (match chanQuery s 0 (.port 0 0) 0 true with | .ok x => x.2.state == .opened | .error _ => false)) = true := by
  decide +kernel

/-- ElementOperationsFire: no FE in a lower place faults in the same cycle. RegionSteps: no late KSET waits there. -/
theorem wit_ElementOperationsFire_first :
    (let s := onFe 0x07 add5 1 1 0 0 false
     (runningNest s 0).any fun x => (firstFault s x.2.1 x.2.2 ⟨0, 0⟩).isNone && x.2.1.ksets.isEmpty) = true := by decide +kernel

/-- WaitsEnd: events that stand at the end of a wait, and none; ITER alone at a WAITEV. -/
theorem wit_WaitsEnd_met :
    ([(0 : BitVec 4), 2].all fun p =>
      let s := (((puts (.waitev { e0 with imm := 2 }) up).modSlot 0 0 fun r => { r with st := .blocked, since := 1 }).modCtl 0
        fun c => { c with evpend := p })
      (({ s with cycle := 65537 } : State).inst? 0).any fun n => n.ctl.evpend &&& 2 == p && n.canFire) = true
    ∧ ([(0 : BitVec 4), 2].all fun ev =>
      let r := { heldRegion with events := ev }
      let s := (puts (.fwait { e0 with imm := 2 }) up).modInst 0 fun n => { n with reg := some r }
      fabricEvents s 0 r &&& 2 == ev) = true := by decide +kernel

/-- Beats decode at tag 0 bound to `code`, and what the context of these words does with them has the elements that it needs. -/
def decodesW (onB : Bool) (w0 w1 w2 : Nat) (code : BitVec 5) (p : List Word → List Elements.Elem → Bool) : Bool :=
  let f := feWith (BitVec.ofNat 64 w0) (BitVec.ofNat 64 w1) (BitVec.ofNat 64 w2) code
  match Elements.decodeBeats f.ctxWords onB f ((if onB then f.qb else f.qa).take (Cfg.nia f.ctxWords)) with
  | .ok (a, _) => p f.ctxWords a
  | .error _ => false

def decodes (onB : Bool) (eop fcw nia ofmt w2 : Nat) (code : BitVec 5) (p : List Word → List Elements.Elem → Bool) : Bool :=
  decodesW onB (eop * 2 ^ 42 + fcw) (nia * 2 ^ 60 + 2 ^ 50 + ofmt * 2 ^ 39 + 2 ^ 6) w2 code p

/-- StreamResults, numbers: a finite one; a window whose largest term has exponent 0; values in range of a format. -/
theorem wit_StreamResults_numbers :
    finiteAbove (-3) (NumFmt.ofScaled (-5) (-3)) ∧ NumFmt.ilog2 1 0 = 0 ∧ NumFmt.isNan (NumFmt.ofInt 0) = false
    ∧ (NumFmt.rne.mode < 4) ∧ Machine.Num.nan ∈ [Machine.Num.nan] ∧ Machine.Num.nan ∉ [NumFmt.ofInt 0, NumFmt.ofInt (-2)]
    ∧ (let c := (onFe 0x07 add5 1 1 0 1 false).fe 0 |>.ctxWords
       1 ≤ Cfg.ofmt c ∧ Cfg.ofmt c ≤ 0x0C ∧ Cfg.rnd c ≠ 4 ∧ 0 < NumFmt.elemBits (Cfg.ofmt c) (Cfg.outWidth c)) := by
  refine ⟨?_, ?_⟩
  · show (-3 : Int) ≤ -3
    decide
  · decide +kernel

/-- StreamResults, element operations: the inputs of each decode, at the lengths and formats that it asks. -/
theorem wit_StreamResults_elements :
    ([0x07, 0x09, 0x0C, 0x12].all fun e => decodes false e add5 1 1 0 1 fun c a => Cfg.eop c == e && !a.isEmpty) = true
    ∧ ([0x08, 0x02, 0x03].all fun e => decodes false e 0 1 4 0 12 (fun c a => Cfg.mode c == 0 && decide (Cfg.nout c ≤ 64) && a.all fun y => y.code != 0x0E)
        && decodes true e 0 1 4 0 12 fun _ b => b.all fun y => y.code != 0x0E) = true
    ∧ decodes false 0x13 add5 1 4 0 12 (fun c a => Cfg.eop c == 0x13 && !a.isEmpty) = true
    ∧ ([0x04, 0x05, 0x06].all fun e => decodes false e (add5 + 2 ^ 17) 1 1 0 1 fun c a => decide (a.length ≤ 128) && Cfg.acc c == 1) = true
    ∧ decodesW false (0x0A * 2 ^ 42 + add5) (4 * 2 ^ 60 + 2 ^ 48 + 4 * 2 ^ 39) 0 1 (fun c a => a.length == 128 && Cfg.nia c == 4
        && a.all (fun y => y.code == 1) && Cfg.noa c == 1 && Cfg.ofmt c == 4 && Cfg.rnd c != 4) = true
    ∧ decodes false 0x0D (4 * 2 ^ 29) 1 1 0 1 (fun c a => a.length % 2 ^ Cfg.bstg c == 0) = true
    ∧ decodes false 0x11 add5 1 4 0 12 (fun c a => NumFmt.elemBits (Cfg.ofmt c) (Cfg.outWidth c) == 8 && decide (a.length ≤ Cfg.noa c * 128)) = true
    ∧ decodes false 0x20 sto 1 4 0 1 (fun c a => decide (Cfg.nstr c ≤ a.length)) = true := by decide +kernel

/-- StreamResults, windows: a FLOAT and an LNS context of 32 products for each output, in 8 gangs of 8, no window open. -/
theorem wit_StreamResults_windows :
    ([(1, (4 : BitVec 5)), (2, 10)].all fun (x : Nat × BitVec 5) =>
      [false, true].all fun onB =>
      decodesW onB (0x02 * 2 ^ 42 + x.1 * 2 ^ 29 + 3 * 2 ^ 26 + 3 * 2 ^ 23 + 8 * 2 ^ 12 + 7 * 2 ^ 6) (2 ^ 60 + 2 ^ 48 + 2 ^ 39 + 31 * 2 ^ 15) 0 x.2
        fun c es => Cfg.mode c == x.1 && Cfg.rlen c == 32 && Cfg.nout c == 2 && Cfg.acc c == 0 && !es.isEmpty
          && es.all fun e => e.code != 0x0E) = true := by decide +kernel

/-- FirmwareSteps, the limit of a reserved rectangle: a borrower beside another whose clusters are others. -/
theorem wit_FirmwareSteps_borrow :
    (let n := { idle with reg := some (Region.fresh square 0 0 []) }
     n.leaves == [0] && ({ n with cluster := 5, reg := some (Region.fresh ⟨40, 0, 4, 4⟩ 0 0 []) } : Inst).leaves.all fun l => !n.leaves.contains l) = true := by
  decide +kernel

end Sys2Proof.Tests
end

section
/-! PROOFS. What a stop order does to the instances and the command links, what BORROW_LIMIT does with it (R367), and the
instance table in which that clause of O60 fails. -/

namespace Sys2Proof.Machine

/-! ## Tables whose keys rise -/

/-- Keys that rise from a floor lie above it. -/
theorem lt_of_mem_rising {α : Type} {lo : Nat} {m : Assoc α} (h : Assoc.rising (some lo) m = true) :
    ∀ x ∈ m, lo < x.1 := by
  induction m generalizing lo with
  | nil => exact fun _ hx => nomatch hx
  | cons y m ih =>
    simp only [Assoc.rising, Bool.and_eq_true, decide_eq_true_eq] at h
    intro x hx
    rcases List.mem_cons.mp hx with rfl | hx
    · exact h.1
    · exact h.1.trans (ih h.2 x hx)

/-- Keys that rise rise from their second on. -/
theorem rising_none_tail {α : Type} {x : Nat × α} {m : Assoc α} (h : Assoc.rising none (x :: m) = true) :
    Assoc.rising none m = true := by
  cases m with
  | nil => rfl
  | cons y m =>
    simp only [Assoc.rising, Bool.and_eq_true] at h
    exact h.2

/-- Keys that rise are listed once. -/
theorem rising_keys_nodup {α : Type} {m : Assoc α} (h : Assoc.rising none m = true) : (m.map fun x => x.1).Nodup := by
  induction m with
  | nil => exact .nil
  | cons x m ih =>
    refine List.nodup_cons.mpr ⟨fun hx => ?_, ih (rising_none_tail h)⟩
    obtain ⟨y, hy, hxy⟩ := List.mem_map.mp hx
    exact (lt_of_mem_rising h y hy).ne' hxy

/-- What a key is looked up to is listed under it. -/
theorem mem_of_aget {α : Type} {k : Nat} {a : α} {m : Assoc α} (h : aget k m = some a) : (k, a) ∈ m := by
  induction m with
  | nil => cases h
  | cons x m ih =>
    rw [aget] at h
    split at h
    · rename_i hk
      cases h
      exact hk ▸ .head _
    · exact .tail _ (ih h)

/-- Where keys are listed once, what is listed under a key is what it is looked up to. -/
theorem aget_of_mem {α : Type} {k : Nat} {a : α} {m : Assoc α} (hm : (m.map fun x => x.1).Nodup) (h : (k, a) ∈ m) :
    aget k m = some a := by
  induction m with
  | nil => cases h
  | cons x m ih =>
    obtain ⟨hx, hm⟩ := List.nodup_cons.mp hm
    rw [aget]
    rcases List.mem_cons.mp h with rfl | h
    · exact if_pos rfl
    · rw [if_neg fun hk => hx (List.mem_map.mpr ⟨_, h, hk.symm⟩)]
      exact ih hm h

/-! ## Commands (R402, R403) -/

/-- Whether leaves can be commanded rests on the scheduler's pause and on their own permits. -/
theorem canCommand_congr {s t : State} {ls : List Nat} (hp : schedPaused t = schedPaused s)
    (hl : ∀ l ∈ ls, t.leaf l = s.leaf l) : canCommand t ls = canCommand s ls := by
  simp only [canCommand, hp]
  congr 1
  rw [Bool.eq_iff_iff, List.all_eq_true, List.all_eq_true]
  exact forall₂_congr fun l h => by rw [hl l h]

theorem command_inst (act : LeafAct) (s : State) (l i : Nat) : (command act s l).inst? i = s.inst? i := rfl

theorem command_schedPaused (act : LeafAct) (s : State) (l : Nat) : schedPaused (command act s l) = schedPaused s := rfl

/-- A command to a leaf leaves the other leaves' links alone. -/
theorem command_leaf_ne (act : LeafAct) (s : State) {l c : Nat} (h : c ≠ l) : (command act s l).leaf c = s.leaf c :=
  congrArg (fun x => x.getD LeafState.fresh) (aget_aset_ne l c _ s.fw.leaves h)

theorem commandAll_inst (s : State) (ls : List Nat) (act : LeafAct) (i : Nat) :
    (commandAll s ls act).inst? i = s.inst? i := by
  induction ls generalizing s with
  | nil => rfl
  | cons l ls ih => exact (ih (command act s l)).trans (command_inst act s l i)

theorem commandAll_schedPaused (s : State) (ls : List Nat) (act : LeafAct) :
    schedPaused (commandAll s ls act) = schedPaused s := by
  induction ls generalizing s with
  | nil => rfl
  | cons l ls ih => exact (ih (command act s l)).trans (command_schedPaused act s l)

theorem commandAll_leaf_of_notMem (s : State) {ls : List Nat} (act : LeafAct) {c : Nat} (h : c ∉ ls) :
    (commandAll s ls act).leaf c = s.leaf c := by
  induction ls generalizing s with
  | nil => rfl
  | cons l ls ih =>
    obtain ⟨hl, hls⟩ := List.ne_and_not_mem_of_not_mem_cons h
    exact (ih (command act s l) hls).trans (command_leaf_ne act s hl)

/-! ## Discarding a block (R209, R389) -/

/-- What changes instance `j` alone among the instances, and neither whether it is ordered to stop nor the scheduler's pause
and links. -/
structure TouchesBlockOf (j : Nat) (s t : State) : Prop where
  others : ∀ i, i ≠ j → t.inst? i = s.inst? i
  order : (t.inst? j).map (fun n => (n.life, n.discard)) = (s.inst? j).map fun n => (n.life, n.discard)
  fw : t.fw = s.fw
  cycle : t.cycle = s.cycle

theorem TouchesBlockOf.of_insts {j : Nat} {s t : State} (hi : t.insts = s.insts) (hf : t.fw = s.fw)
    (hc : t.cycle = s.cycle) : TouchesBlockOf j s t :=
  ⟨fun i _ => congrArg (aget i) hi, congrArg _ (congrArg (aget j) hi), hf, hc⟩

theorem TouchesBlockOf.refl (j : Nat) (s : State) : TouchesBlockOf j s s := .of_insts rfl rfl rfl

theorem TouchesBlockOf.trans {j : Nat} {s t u : State} (h : TouchesBlockOf j s t) (k : TouchesBlockOf j t u) :
    TouchesBlockOf j s u :=
  ⟨fun i hi => (k.others i hi).trans (h.others i hi), k.order.trans h.order, k.fw.trans h.fw, k.cycle.trans h.cycle⟩

theorem TouchesBlockOf.ite {j : Nat} {s t u : State} (c : Prop) [Decidable c] (ht : TouchesBlockOf j s t)
    (hu : TouchesBlockOf j s u) : TouchesBlockOf j s (if c then t else u) := by
  split
  · exact ht
  · exact hu

theorem touchesBlockOf_modInst (j : Nat) (s : State) {f : Inst → Inst}
    (hf : ∀ n, ((f n).life, (f n).discard) = (n.life, n.discard)) : TouchesBlockOf j s (s.modInst j f) :=
  ⟨fun _ hi => s.inst_modInst_ne f hi.symm, by
    rw [State.inst_modInst_self, Option.map_map]
    exact congrArg (fun g => (s.inst? j).map g) (funext hf), rfl, rfl⟩

theorem dropWalks_insts (s : State) (p : WalkReq → Bool) : (dropWalks s p).insts = s.insts := by
  rw [dropWalks]
  split <;> rfl

theorem dropWalks_fw (s : State) (p : WalkReq → Bool) : (dropWalks s p).fw = s.fw := by
  rw [dropWalks]
  split <;> rfl

theorem dropWalks_cycle (s : State) (p : WalkReq → Bool) : (dropWalks s p).cycle = s.cycle := by
  rw [dropWalks]
  split <;> rfl

theorem touchesBlockOf_countCore (j : Nat) (s : State) (core code n : Nat) :
    TouchesBlockOf j s (s.countCore core code n) :=
  .ite _ (.of_insts rfl rfl rfl) (.refl j s)

theorem touchesBlockOf_returnLeave (j : Nat) (s : State) : TouchesBlockOf j s (returnLeave s j) := by
  unfold returnLeave
  split
  · exact .refl j s
  · split
    · exact .refl j s
    · split
      · exact .refl j s
      · rename_i n _ _ _ _ _ u _
        have given : TouchesBlockOf j s (giveLeave s (leaveDie n) (s.classOf n) u) := .of_insts rfl rfl rfl
        exact given.trans (touchesBlockOf_modInst j _ fun _ => rfl)

theorem touchesBlockOf_discardBlock (j : Nat) (s : State) : TouchesBlockOf j s (discardBlock s j) := by
  unfold discardBlock
  split
  · exact .refl j s
  · split
    · exact .refl j s
    · rename_i n _ _ b _
      have returned (u : State) (h : TouchesBlockOf j s u) :
          TouchesBlockOf j s (if b.acts.contains .frun then returnLeave u j else u) :=
        .ite _ (h.trans (touchesBlockOf_returnLeave j u)) h
      have counted (u : State) (h : TouchesBlockOf j s u) :
          TouchesBlockOf j s (if b.started then u.countCore n.cluster 0x011 1 else u) :=
        .ite _ (h.trans (touchesBlockOf_countCore j u _ _ _)) h
      refine counted _ ((returned _ (.of_insts ?_ ?_ ?_)).trans (touchesBlockOf_modInst j _ fun _ => rfl))
      · exact dropWalks_insts _ _
      · exact dropWalks_fw _ _
      · exact dropWalks_cycle _ _

/-- What a stop order discards at once is the instance's own block. -/
theorem touchesBlockOf_discardFree (j : Nat) (s : State) : TouchesBlockOf j s (discardFree s j) := by
  unfold discardFree
  split
  · exact .ite _ (.refl j s) (touchesBlockOf_discardBlock j s)
  · exact .refl j s

/-! ## The stop order (R389) -/

/-- An instance is ordered to stop in DISCARD mode. -/
def OrderedOff (s : State) (i : Nat) : Prop := (s.inst? i).map (fun n => (n.life, n.discard)) = some (.stopping, true)

/-- A stop order in DISCARD mode does nothing, or commands the instance's leaves and changes that instance alone, which is
then ordered off. -/
theorem stopOrder_cases (s : State) (j : Nat) :
    (stopOrder s j true = s ∧ ∀ n, s.inst? j = some n → canCommand s n.leaves = false)
    ∨ ∃ n, s.inst? j = some n ∧ canCommand s n.leaves = true ∧ ∃ f : Inst → Inst, (∀ m, ((f m).life, (f m).discard) = (.stopping, true))
        ∧ TouchesBlockOf j ((commandAll (s.note (.preempt j)) n.leaves (.stop j)).modInst j f) (stopOrder s j true) := by
  unfold stopOrder
  split
  · rename_i hn
    exact .inl ⟨rfl, fun n h => nomatch hn.symm.trans h⟩
  · rename_i n hn
    cases hc : canCommand s n.leaves with
    | false => exact .inl ⟨rfl, fun m hm => by rw [← Option.some.inj (hn.symm.trans hm), hc]⟩
    | true => exact .inr ⟨n, hn, hc, _, fun m => rfl, touchesBlockOf_discardFree j _⟩

theorem stopOrder_inst_ne (s : State) {i j : Nat} (h : i ≠ j) : (stopOrder s j true).inst? i = s.inst? i := by
  obtain ⟨hs, -⟩ | ⟨n, -, -, f, -, touch⟩ := stopOrder_cases s j
  · rw [hs]
  · rw [touch.others i h, State.inst_modInst_ne _ f h.symm, commandAll_inst]
    rfl

theorem stopOrder_schedPaused (s : State) (j : Nat) : schedPaused (stopOrder s j true) = schedPaused s := by
  obtain ⟨hs, -⟩ | ⟨n, -, -, f, -, touch⟩ := stopOrder_cases s j
  · rw [hs]
  · rw [schedPaused, touch.fw, touch.cycle]
    exact commandAll_schedPaused (s.note (.preempt j)) n.leaves (.stop j)

/-- A stop order commands the leaves of its own instance alone. -/
theorem stopOrder_leaf (s : State) {j l : Nat} (h : ∀ n, s.inst? j = some n → l ∉ n.leaves) :
    (stopOrder s j true).leaf l = s.leaf l := by
  obtain ⟨hs, -⟩ | ⟨n, hn, -, f, -, touch⟩ := stopOrder_cases s j
  · rw [hs]
  · rw [State.leaf, touch.fw]
    exact commandAll_leaf_of_notMem (s.note (.preempt j)) (.stop j) (h n hn)

theorem stopOrder_orders {s : State} {i : Nat} {n : Inst} (hn : s.inst? i = some n) (hc : canCommand s n.leaves = true) :
    OrderedOff (stopOrder s i true) i := by
  obtain ⟨-, hno⟩ | ⟨m, hm, -, f, hf, touch⟩ := stopOrder_cases s i
  · exact absurd hc (by simp [hno n hn])
  · have there : ((s.note (.preempt i)).inst? i) = some m := hm
    rw [OrderedOff, touch.order, State.inst_modInst_self, commandAll_inst, there]
    exact congrArg some (hf m)

theorem stopOrder_keeps_orderedOff {s : State} {i : Nat} (j : Nat) (h : OrderedOff s i) :
    OrderedOff (stopOrder s j true) i := by
  by_cases hij : i = j
  · subst hij
    cases hn : s.inst? i with
    | none => simp [OrderedOff, hn] at h
    | some n =>
      cases hc : canCommand s n.leaves with
      | true => exact stopOrder_orders hn hc
      | false =>
        obtain ⟨hs, -⟩ | ⟨m, hm, hm', -⟩ := stopOrder_cases s i
        · rwa [hs]
        · rw [← Option.some.inj (hn.symm.trans hm), hc] at hm'
          cases hm'
  · rwa [OrderedOff, stopOrder_inst_ne s hij]

/-- Stop orders one after another. -/
def stopAll (s : State) (js : List Nat) : State := js.foldl (fun s i => stopOrder s i true) s

theorem stopAll_keeps_orderedOff {s : State} {i : Nat} (js : List Nat) (h : OrderedOff s i) :
    OrderedOff (stopAll s js) i := by
  induction js generalizing s with
  | nil => exact h
  | cons j js ih => exact ih (stopOrder_keeps_orderedOff j h)

/-- An instance among those ordered to stop, each once, is ordered off when its leaves can be commanded and no other of
them has a leaf with it. -/
theorem stopAll_orders {s : State} {i : Nat} {n : Inst} {js : List Nat} (hi : i ∈ js) (hjs : js.Nodup)
    (hn : s.inst? i = some n) (hc : canCommand s n.leaves = true)
    (hd : ∀ j ∈ js, j ≠ i → ∀ m, s.inst? j = some m → ∀ l ∈ m.leaves, l ∉ n.leaves) : OrderedOff (stopAll s js) i := by
  induction js generalizing s with
  | nil => cases hi
  | cons j js ih =>
    obtain ⟨hj, hjs⟩ := List.nodup_cons.mp hjs
    by_cases hij : i = j
    · subst hij
      exact stopAll_keeps_orderedOff js (stopOrder_orders hn hc)
    · have links : ∀ l ∈ n.leaves, (stopOrder s j true).leaf l = s.leaf l := fun l hl =>
        stopOrder_leaf s fun m hm hlm => hd j (.head _) (Ne.symm hij) m hm l hlm hl
      refine ih ((List.mem_cons.mp hi).resolve_left hij) hjs ((stopOrder_inst_ne s hij).trans hn)
        ((canCommand_congr (stopOrder_schedPaused s j) links).trans hc) fun k hk hki m hm => ?_
      have hkj : k ≠ j := fun h => hj (h ▸ hk)
      exact hd k (.tail _ hk) hki m ((stopOrder_inst_ne s hkj).symm.trans hm)

/-! ## BORROW_LIMIT (R367) -/

/-- An instance borrows of a tenant's reserved rectangle, and has not completed. -/
def borrows (s : State) (t : Nat) (r : Rect) (n : Inst) : Bool :=
  n.life == .running && !n.completed && s.tenantOf n.ctx != t && (n.rect.map fun o => rectMeets o r).getD false

/-- The keys of the instances that borrow, in the table's order. -/
def borrowers (s : State) (t : Nat) (r : Rect) : List Nat :=
  s.insts.filterMap fun x => if borrows s t r x.2 then some x.1 else none

theorem mem_borrowers {s : State} {t i : Nat} {r : Rect} :
    i ∈ borrowers s t r ↔ ∃ n, (i, n) ∈ s.insts ∧ borrows s t r n = true := by
  simp only [borrowers, List.mem_filterMap, Option.ite_none_right_eq_some, Option.some.injEq, Prod.exists]
  constructor
  · rintro ⟨i, n, hm, hb, rfl⟩
    exact ⟨n, hm, hb⟩
  · rintro ⟨n, hm, hb⟩
    exact ⟨i, n, hm, hb, rfl⟩

theorem borrowers_nodup {s : State} (t : Nat) (r : Rect) (h : (s.insts.map fun x => x.1).Nodup) :
    (borrowers s t r).Nodup := by
  rw [List.Nodup, borrowers, List.pairwise_filterMap]
  refine (List.pairwise_map.mp h).imp fun {x y} hxy b hb c hc => ?_
  simp only [Option.ite_none_right_eq_some, Option.some.injEq] at hb hc
  rw [← hb.2, ← hc.2]
  exact hxy

/-- Past its limit the borrowers are ordered to stop, one after another. -/
theorem exec_borrowLimit_of_limit {s : State} {tenant : BitVec 4} {r : Rect}
    (hr : (s.tenant tenant.toNat).reserved = some r) (hl : borrowLimitCycles ≤ borrowedTime s tenant.toNat) :
    exec (.borrowLimit tenant) s = .next (stopAll s (borrowers s tenant.toNat r)) := by
  rw [exec_borrowLimit, execBorrowLimit, hr]
  exact if_neg (by omega)

/-- The clause of O60 on R367 in an instance table whose keys rise, as the type of the table says: past the limit a borrower
stops in DISCARD mode. -/
theorem borrowLimit_stops_borrower {s : State} {tenant : BitVec 4} {r o : Rect} {i : Nat} {n : Inst}
    (rising : Assoc.rising none s.insts = true) (hr : (s.tenant tenant.toNat).reserved = some r)
    (hl : borrowLimitCycles ≤ borrowedTime s tenant.toNat) (hn : s.inst? i = some n) (hlife : n.life = .running)
    (ht : s.tenantOf n.ctx ≠ tenant.toNat) (ho : n.rect = some o) (hmeet : rectMeets o r = true)
    (hdone : n.completed = false) (hc : canCommand s n.leaves = true)
    (hd : ∀ x ∈ s.insts, x.2.life = .running → x.1 ≠ i → ∀ l ∈ x.2.leaves, l ∉ n.leaves) :
    ∃ t n', exec (.borrowLimit tenant) s = .next t ∧ t.inst? i = some n' ∧ n'.life = .stopping ∧ n'.discard = true := by
  have once := rising_keys_nodup rising
  have borrowing : i ∈ borrowers s tenant.toNat r :=
    mem_borrowers.mpr ⟨n, mem_of_aget hn, by simp [borrows, hlife, ht, ho, hmeet, hdone]⟩
  have ordered : OrderedOff (stopAll s (borrowers s tenant.toNat r)) i := by
    refine stopAll_orders borrowing (borrowers_nodup _ r once) hn hc fun j hj hji m hm => ?_
    obtain ⟨k, hk, hb⟩ := mem_borrowers.mp hj
    obtain rfl : m = k := Option.some.inj (hm.symm.trans (aget_of_mem once hk))
    have running : m.life = .running := by
      simp only [borrows, Bool.and_eq_true, beq_iff_eq] at hb
      exact hb.1.1.1
    exact hd (j, m) hk running hji
  obtain ⟨n', hn', h⟩ := Option.map_eq_some_iff.mp ordered
  exact ⟨_, n', exec_borrowLimit_of_limit hr hl, hn', congrArg Prod.fst h, congrArg Prod.snd h⟩

/-! ## The table that the statement admits and its type does not -/

/-- An instance at a boundary on a core, its idle region on a rectangle. -/
def instOn (core : Nat) (r : Rect) (life : Life) : Inst :=
  { placedInst 0 with ctl := Ctl.fresh 0x80 0, cluster := core, life, reg := some (Region.fresh r 0 0 []) }

/-- The borrower that BORROW_LIMIT should stop: its only leaf is that of cluster 0. -/
def lastBorrower : Inst := instOn 0 ⟨0, 0, 4, 4⟩ .running

/-- The module after 1 ms with these instances, which have held FEs of tenant 2's rectangle of 16 by 4; one permit is left on
the command link of cluster 0. -/
def borrowedBy (insts : Assoc Inst) : State :=
  { State.reset with
    bringup := .up, cycle := 1600000, insts
    tenants := [(2, { Tenant.fresh with reserved := some ⟨0, 0, 16, 4⟩ })]
    fw := { State.reset.fw with lastBeat := 1600000, leaves := [(0, { LeafState.fresh with permits := 1 })] } }

/-- Two borrowers under keys that rise. -/
def listedOnce : State := borrowedBy [(0, instOn 1 ⟨8, 0, 4, 4⟩ .running), (1, lastBorrower)]

/-- The same with key 0 listed before as well, for an instance that is stopping on cluster 0. -/
def listedTwice : State := borrowedBy ((0, instOn 0 ⟨0, 0, 4, 4⟩ .stopping) :: listedOnce.insts)

/-- Intervals that are all one are as long together as that one. -/
theorem unionLength_replicate (c k : Nat) : unionLength 0 (List.replicate (k + 1) (0, c)) = c := by
  have rest (k : Nat) : (List.replicate k (0, c)).foldl (fun (a : Nat × Nat) x => (a.1 + (x.2 - max a.2 x.1), max a.2 x.2)) (c, c)
      = (c, c) := by
    induction k with
    | zero => rfl
    | succ k ih => simpa [List.replicate_succ] using ih
  rw [unionLength, List.mergeSort_of_pairwise (List.pairwise_replicate.mpr (.inr (by simp))), List.replicate_succ, List.foldl_cons]
  simpa using congrArg Prod.fst (rest k)

/-- Regions that have held an FE of the rectangle from cycle 0 on have borrowed it for 1 ms. -/
theorem borrowedBy_borrowedTime {insts : Assoc Inst} (k : Nat)
    (h : (insts.filterMap fun x => if x.2.holds && (borrowedBy insts).tenantOf x.2.ctx != 2
        && (x.2.rect.map fun o => rectMeets o ⟨0, 0, 16, 4⟩).getD false then some (x.2.placedAt, 1600000) else none)
      = List.replicate (k + 1) (0, 1600000)) : borrowedTime (borrowedBy insts) 2 = borrowLimitCycles := by
  have start : (borrowedBy insts).cycle - borrowWindow = 0 := Nat.sub_eq_zero_of_le (show 1600000 ≤ 16000000 by decide)
  rw [borrowedTime, start]
  exact (congrArg (unionLength 0) h).trans (unionLength_replicate borrowLimitCycles k)

/-- What the statement asks of the state and of instance 1 holds in both tables. -/
theorem lastBorrower_meets_hypotheses : ∀ s ∈ [listedOnce, listedTwice],
    (s.tenant 2).reserved = some ⟨0, 0, 16, 4⟩ ∧ s.inst? 1 = some lastBorrower ∧ s.tenantOf lastBorrower.ctx ≠ 2
      ∧ lastBorrower.completed = false ∧ canCommand s lastBorrower.leaves = true
      ∧ ∀ x ∈ s.insts, x.2.life = .running → x.1 ≠ 1 → ∀ l ∈ x.2.leaves, l ∉ lastBorrower.leaves := by
  decide +kernel

theorem lastBorrower_limit : ∀ s ∈ [listedOnce, listedTwice], borrowLimitCycles ≤ borrowedTime s 2 := by
  rintro s (_ | ⟨_, _ | ⟨_, ⟨⟩⟩⟩)
  · exact (borrowedBy_borrowedTime 1 (by decide +kernel)).ge
  · exact (borrowedBy_borrowedTime 2 (by decide +kernel)).ge

/-- Under keys that rise the borrower stops. -/
theorem listedOnce_stops : ∃ t n', exec (.borrowLimit 2) listedOnce = .next t ∧ t.inst? 1 = some n' ∧ n'.life = .stopping
    ∧ n'.discard = true := by
  obtain ⟨hr, hn, ht, hdone, hc, hd⟩ := lastBorrower_meets_hypotheses listedOnce (by simp)
  exact borrowLimit_stops_borrower (by decide +kernel) hr (lastBorrower_limit _ (by simp)) hn rfl ht rfl (by decide) hdone hc hd

/-- With key 0 listed twice its stop order reaches the entry that is stopping already and spends the permit of cluster 0:
instance 1 cannot be commanded any more and runs on. -/
theorem listedTwice_runs_on :
    ((stopAll listedTwice (borrowers listedTwice (2 : BitVec 4).toNat ⟨0, 0, 16, 4⟩)).inst? 1).map (fun n => n.life)
      = some .running := by decide +kernel

/-- Refutes O60 by its clause on R367, which does not ask that the keys of the instance table rise: where a key is listed
twice, BORROW_LIMIT spends a permit on the wrong entry and leaves a borrower running. -/
theorem not_firmwareSteps : ¬ Obligations.FirmwareSteps := by
  unfold Obligations.FirmwareSteps
  rintro ⟨-, -, -, -, -, borrow, -⟩
  obtain ⟨hr, hn, ht, hdone, hc, hd⟩ := lastBorrower_meets_hypotheses listedTwice (by simp)
  have hl := lastBorrower_limit listedTwice (by simp)
  obtain ⟨t, n, exec_t, hn', stops, -⟩ :=
    borrow listedTwice 2 _ ⟨0, 0, 4, 4⟩ 1 lastBorrower hr hl hn rfl ht rfl (by decide) hdone hc hd
  rw [exec_borrowLimit_of_limit hr hl] at exec_t
  cases exec_t
  have runs := listedTwice_runs_on
  rw [hn', Option.map_some, stops] at runs
  cases runs

end Sys2Proof.Machine
end

section
/-! PROOFS. How the access of a slot translates where it is the cabinet's or a TLB holds what it needs (R28 to R30), and what
LD, ST, PFT, the atomics and the barrier instructions do with the bytes that it gives (O21, O25). -/

namespace Sys2Proof.Machine

open Sys2Proof.Bits Sys2Proof.Rows

/-! ## Tokens of an access (R107) -/

theorem sizeBytes_pos (z : Size) : 0 < sizeBytes z := by cases z <;> decide

/-- The address of an M or A slot as a sum of words (R214). -/
theorem memAddr_eq (f : MOp) (l : Word) : memAddr f l = l + f.off.signExtend 64 := by
  rw [memAddr, sext, sextI_toInt, BitVec.signExtend]

/-- A run inside one token is one piece. -/
theorem tokensOf_within {addr n tok : Nat} (hn : 0 < n) (h : addr % tok + n ≤ tok) : tokensOf addr n tok = [(addr, n)] := by
  have lo : addr / tok * tok ≤ addr := Nat.div_mul_le_self addr tok
  have hi : addr + n ≤ (addr / tok + 1) * tok := by
    have := Nat.div_add_mod' addr tok
    rw [Nat.add_mul, Nat.one_mul]
    omega
  have hlast : (addr + n - 1) / tok = addr / tok := Nat.div_eq_of_lt_le (by omega) (by omega)
  simp [tokensOf, hn.ne', hlast, max_eq_left lo, min_eq_left hi]

/-- The first token of a run begins at the run's first byte. -/
theorem tokensOf_head {addr n tok : Nat} (hn : 0 < n) : ((tokensOf addr n tok).head?).map Prod.fst = some addr := by
  have hle : addr / tok ≤ (addr + n - 1) / tok := Nat.div_le_div_right (by omega)
  have hlo : addr / tok * tok ≤ addr := Nat.div_mul_le_self addr tok
  obtain ⟨k, hk⟩ := Nat.exists_eq_add_of_le hle
  rw [tokensOf, if_neg hn.ne', hk, show addr / tok + k + 1 - addr / tok = k + 1 by omega, List.range_succ_eq_map]
  simp [max_eq_left hlo]

theorem le_of_mem_tokensOf {addr n tok : Nat} {t : Nat × Nat} (h : t ∈ tokensOf addr n tok) : addr ≤ t.1 := by
  unfold tokensOf at h
  split at h
  · cases h
  · obtain ⟨k, -, rfl⟩ := List.mem_map.mp h
    exact le_max_left _ _

/-! ## The cabinet space (R28) -/

/-- The pieces of a run of a cabinet, token by token. -/
def cabPieces (key n : Nat) : List Piece := (tokensOf key n 8).map fun t => ⟨t.1, t.2, false⟩

/-- What the cabinet space gives is a cabinet's byte. -/
theorem cabBase_le_of_lookCab {s : State} {core ctx addr n key : Nat} (h : lookCab s core ctx addr n = .ok key) :
    cabBase ≤ key := by
  unfold lookCab at h
  rcases ite_eq_iff.mp h with ⟨-, h⟩ | ⟨-, h⟩
  · cases h
  · rcases ite_eq_iff.mp h with ⟨-, h⟩ | ⟨-, h⟩
    · cases h
    · cases h
      exact (Nat.le_add_right _ _).trans (Nat.le_add_right _ _)

/-- No piece of a cabinet is behind a DEVICE page. -/
theorem cabPieces_not_device {key : Nat} (n : Nat) (h : cabBase ≤ key) : devicePieces (cabPieces key n) = false := by
  simp only [devicePieces, cabPieces, List.any_map, List.any_eq_false]
  intro t ht
  have := le_of_mem_tokensOf ht
  simp [isDeviceKey, show ¬ t.1 < cabBase by omega]

theorem firstKey_cabPieces {n : Nat} (key : Nat) (hn : 0 < n) : firstKey (cabPieces key n) = key := by
  have := tokensOf_head (addr := key) (tok := 8) hn
  cases h : tokensOf key n 8 with
  | nil => simp [h] at this
  | cons t ts => simpa [h, firstKey, cabPieces] using this

/-- The data cache serves no piece of a cabinet. -/
theorem head_cache_cabPieces (key n : Nat) : (((cabPieces key n).head?).map fun p => p.cache).getD false = false := by
  rw [cabPieces, List.head?_map]
  cases (tokensOf key n 8).head? <;> rfl

/-! ## A slot's translation (R28 to R30) -/

section Translation

variable {s u : State} {fr : Firing} {as_ : Space} {addr : Word} {n align : Nat} {a : Access}

/-- A slot for which no walk is asked gets what its translation gives. -/
theorem slotXlate_of_xlate {ps : List Piece} (fired : Bool) (hw : walkPending s fr.i fr.k = false)
    (hx : xlate s (some fr.n.cluster) fr.n.cluster (dieOfCore fr.n.cluster) fr.n.ctx as_ addr n 8 align a false
      = (u, .ok ps)) : slotXlate s fr as_ addr n align a fired = .ok u ps := by
  rw [slotXlate, hw, hx]
  rfl

/-- An aligned access of the cabinet space leaves the state as it is. -/
theorem slotXlate_cab {key : Nat} (fired : Bool) (hw : walkPending s fr.i fr.k = false) (ha : addr.toNat % align = 0)
    (hk : lookCab s fr.n.cluster fr.n.ctx addr.toNat n = .ok key) :
    slotXlate s fr .cab addr n align a fired = .ok s (cabPieces key n) := by
  refine slotXlate_of_xlate fired hw ?_
  simp only [xlate, ha, ne_eq, not_true_eq_false, if_false, hk]
  rfl

/-- The piece that a TLB's entry gives of a virtual run inside one token (R22, R30). -/
def TlbEntry.piece (x : TlbEntry) (va n : Nat) : Piece :=
  let pa := x.phys + va % 2 ^ x.size
  ⟨pa, n, bits x.pte 9 8 == 0 && pa < hbmEnd⟩

/-- An access through an entry whose checks it passes, D being set where it writes, changes nothing (R24, R30). -/
theorem throughEntry_ok {x : TlbEntry} (core : Option Nat) (die ctx va : Nat)
    (hc : checkLeaf x.pte (x.phys + va % 2 ^ x.size) a = none) (hd : (a.w && !bit x.pte 5) = false) :
    throughEntry s x core die ctx va a = (s, .hit (x.phys + va % 2 ^ x.size) (bits x.pte 9 8)) := by
  simp only [throughEntry, hc, hd]
  rfl

/-- An access of the virtual space inside one token, of a page that a TLB holds, counts the misses before the hit. -/
theorem slotXlate_tlb {x : TlbEntry} (fired : Bool) (hw : walkPending s fr.i fr.k = false)
    (h0 : canonical addr.toNat = true) (h1 : canonical ((addr.toNat + n - 1) % 2 ^ 64) = true) (hn : 0 < n)
    (h8 : addr.toNat % 8 + n ≤ 8)
    (hx : tlbLookup s (some fr.n.cluster) (dieOfCore fr.n.cluster) fr.n.ctx addr.toNat = some x)
    (hc : checkLeaf x.pte (x.phys + addr.toNat % 2 ^ x.size) a = none) (hd : (a.w && !bit x.pte 5) = false) :
    slotXlate s fr .virt addr n 1 a fired = .ok (countMiss s (some fr.n.cluster) (dieOfCore fr.n.cluster) (some x.place))
      [x.piece addr.toNat n] := by
  refine slotXlate_of_xlate fired hw ?_
  have hlt : addr.toNat % 2 ^ 64 = addr.toNat := Nat.mod_eq_of_lt addr.isLt
  simp only [xlate, Nat.mod_one, ne_eq, not_true_eq_false, if_false, h0, h1, Bool.not_true, Bool.or_self,
    tokensOf_within hn h8, xlateVirt, hlt, lookVirt, hx, throughEntry_ok _ _ _ _ hc hd, Bool.false_eq_true]
  rfl

/-- An access of the wardrobe inside one token, of a page whose allocation entry a TLB holds (R29, R30). -/
theorem slotXlate_war {x : TlbEntry} {key : Nat} (fired : Bool) (hw : walkPending s fr.i fr.k = false)
    (h30 : addr.toNat < 2 ^ 30) (hn : 0 < n) (h8 : addr.toNat % 8 + n ≤ 8)
    (hx : watFind s (some fr.n.cluster) (dieOfCore fr.n.cluster) fr.n.ctx (addr.toNat / 0x100000) = some x)
    (hc : checkWat x.pte addr.toNat a = .ok key) :
    slotXlate s fr .war addr n 1 a fired = .ok (countMiss s (some fr.n.cluster) (dieOfCore fr.n.cluster) (some x.place))
      [⟨key, n, false⟩] := by
  refine slotXlate_of_xlate fired hw ?_
  simp only [xlate, Nat.mod_one, ne_eq, not_true_eq_false, if_false, tokensOf_within hn h8, xlateWar,
    if_neg (Nat.not_le.mpr h30), findWat, hx, hc]
  rfl

end Translation

/-! ## LD, ST and PFT (R248 to R250) -/

/-- A slot that fires and cannot translate ahead was waiting. -/
theorem firing_waiting {x : Instr} {opc : Nat} {f : Fields} {s : State} {fr : Firing} (hx : x.slotFields = some (opc, f))
    (ha : translatesAhead opc = false) (h : firing x s = some fr) : fr.rec_.st = .waiting := by
  unfold firing at h
  rw [hx] at h
  split at h
  · rename_i n b r g _
    split at h
    · split at h
      · rename_i hw
        cases g
        cases h
        simp only [unfired, ha, Bool.false_and, Bool.or_false, Bool.and_eq_true, beq_iff_eq] at hw
        exact hw.1
      · cases h
    · cases h
  · cases h

/-- The slot is done and its block holds the low bytes of R until commit, with the release that ORD asks for (R249). -/
def Firing.hold (fr : Firing) (f : MOp) (s : State) (ps : List Piece) : State :=
  (s.modSlot fr.i fr.k fun r => { r with st := .done, pieces := ps }).modBlk fr.i fun b =>
    { b with held := b.held ++ [{ lsid := f.lsid.toNat, slot := fr.k, pieces := ps, data := leBytes (sizeBytes f.sz) fr.r.toNat,
                                   rel := if isRel f.ord then some f.scope else none, fence := none }] }

theorem holdStore_eq_hold (fr : Firing) (f : MOp) (s : State) (addr : Word) {ps : List Piece} (hd : devicePieces ps = false) :
    holdStore s fr f addr ps = fr.hold f s ps := by
  simp only [holdStore, hd]
  rfl

section Access

variable {f : MOp} {s u : State} {fr : Firing} {ps : List Piece}

/-- An LD that translates to bytes of no DEVICE page stands translated to them. -/
theorem exec_ld_of_slotXlate (h : firing (.ld f) s = some fr)
    (hx : slotXlate s fr f.as (memAddr f fr.l) (sizeBytes f.sz) 1 (loadAccess fr.n) = .ok u ps)
    (hd : devicePieces ps = false) : exec (.ld f) s = .next (fr.ahead u ps) := by
  rw [exec_ld, execLd, fireOp_of_firing _ rfl rfl h]
  simp only [hx, hd]
  rfl

/-- An ST that translates to bytes of no DEVICE page as it fires is held at them. -/
theorem exec_st_of_slotXlate (h : firing (.st f) s = some fr) (ht : fr.rec_.st ≠ .translated)
    (hx : slotXlate s fr f.as (memAddr f fr.l) (sizeBytes f.sz) 1 (storeAccess fr.n) = .ok u ps)
    (hd : devicePieces ps = false) : exec (.st f) s = .next (fr.hold f u ps) := by
  rw [exec_st, execSt, fireMem_of_firing _ _ rfl h, if_neg ht, hx]
  exact congrArg _ (holdStore_eq_hold fr f u _ hd)

/-- An ST that has translated ahead is held at the bytes it translated to (R251). -/
theorem exec_st_of_translated (h : firing (.st f) s = some fr) (ht : fr.rec_.st = .translated)
    (hd : devicePieces fr.rec_.pieces = false) : exec (.st f) s = .next (fr.hold f s fr.rec_.pieces) := by
  rw [exec_st, execSt, fireMem_of_firing _ _ rfl h, if_pos ht]
  exact congrArg _ (holdStore_eq_hold fr f s _ hd)

/-- A PFT of another space than the virtual one is dropped (R250). -/
theorem exec_pft_dropped (h : firing (.pft f) s = some fr) (ha : f.as ≠ .virt) :
    exec (.pft f) s = .next (s.modSlot fr.i fr.k fun r => { r with st := .done }) := by
  have hv : (f.as == .virt) = false := beq_false_of_ne ha
  rw [exec_pft, execPft, fireOp_of_firing _ rfl rfl h]
  simp [prefetchPa, hv, bne]

/-- A PFT of a page that a TLB holds, readable, ORDINARY and DEFAULT, asks for its line (R22, R35). -/
theorem exec_pft_tlb {x : TlbEntry} (h : firing (.pft f) s = some fr) (ha : f.as = .virt)
    (h0 : canonical (memAddr f fr.l).toNat = true)
    (hx : tlbLookup s (some fr.n.cluster) (dieOfCore fr.n.cluster) fr.n.ctx (memAddr f fr.l).toNat = some x)
    (hc : checkLeaf x.pte (x.phys + (memAddr f fr.l).toNat % 2 ^ x.size) ⟨.prefetch, true, false, false, fr.n.ctl.cur⟩ = none)
    (hp : bits x.pte 9 8 = 0) :
    let pa := x.phys + (memAddr f fr.l).toNat % 2 ^ x.size
    exec (.pft f) s = .next (fr.ahead (countMiss s (some fr.n.cluster) (dieOfCore fr.n.cluster) (some x.place))
      [⟨pa - pa % 64, 64, true⟩]) := by
  rw [exec_pft, execPft, fireOp_of_firing _ rfl rfl h]
  simp [prefetchPa, ha, h0, hx, hc, hp, Firing.ahead]

end Access

/-! ## The read of a PFT's line (R250) -/

/-- Where no stored error waits, a read meets none. -/
theorem meetFlaws_of_no_flaws {s : State} (h : s.flaws = []) (key n : Nat) : meetFlaws s key n = s := by
  cases s
  cases h
  rfl

/-- A read of some bytes with no write of its own agent takes them from the home. -/
theorem readHome_of_no_writes {s : State} {p : Piece} (hn : 0 < p.n) (h : s.flaws = []) :
    readHome s [] p = ⟨s, s.bytes p.key p.n, poisonedIn s.poison p.key p.n⟩ := by
  have hc : coveredBy p.key p.n [] = false := by
    rw [coveredBy, List.all_eq_false]
    exact ⟨0, List.mem_range.mpr hn, by simp⟩
  simp [readHome, hc, meetFlaws_of_no_flaws h]

/-- The read of a line without stored errors and poison places it in the core's data cache. -/
theorem performPrefetch_places {s : State} {p : Piece} (i k : Nat) (m : Inst) (hn : 0 < p.n) (h : s.flaws = [])
    (hp : poisonedIn s.poison p.key p.n = false) :
    performPrefetch s i k m p = (s.modSlot i k fun r => { r with st := .done }).modCore m.cluster fun c =>
      { c with cache := aset p.key (s.bytes p.key p.n) c.cache } := by
  simp [performPrefetch, readHome_of_no_writes hn h, hp]

/-- READ_PERFORM of a PFT's slot that stands translated to one piece is that piece's read. -/
theorem exec_readPerform_pft {s : State} {i k : Nat} {m : Inst} {b : Block} {r : SlotRec} {row : Row} {f : MOp} {w : Instr}
    {p : Piece} (hm : s.inst? i = some m) (hb : m.ctl.blk = some b) (hf : m.canFire = true) (hr : b.slots[k]? = some r)
    (hq : b.req = none) (hs : Layout.slot b.words k = some (row, .m f, w)) (ho : row.opc = 0x62) (ht : r.st = .translated)
    (hp : r.pieces = [p]) (hg : r.got = []) (hn : 0 < p.n) (ha : s.asleep p.key = false) :
    exec (.readPerform (.ctl i) k) s = .next (performPrefetch s i k m p) := by
  have hrec : b.rec_ k = r := by rw [Block.rec_, List.getD, hr]; rfl
  have hnext : nextPiece r = some p := by simp [nextPiece, nextPiece.go, hp, hg, hn]
  simp [exec_readPerform, execReadPerform, readOfCtl, readCtl, hm, hb, hq, hs, hrec, hnext, hf, ht, ho, ha]

/-! ## O21 -/

/-- Settles O21: each access translates to the bytes named, and LD, ST and PFT do with them what their rules say. -/
theorem cabinetAccessesFire : Obligations.CabinetAccessesFire := by
  unfold Obligations.CabinetAccessesFire
  intro f s fr key
  simp only [← memAddr_eq]
  have hn := sizeBytes_pos f.sz
  refine ⟨fun ha hw hk => ?_, fun h ht hd => exec_st_of_translated h ht hd,
    fun u qs hx hd h => exec_ld_of_slotXlate h hx hd, fun u qs hx hd h ht => exec_st_of_slotXlate h ht hx hd,
    fun x ha hw h0 h1 h8 hx => ?_, fun x key ha hw h30 h8 hx hk => ?_, ?_⟩
  · have hd := cabPieces_not_device (sizeBytes f.sz) (cabBase_le_of_lookCab hk)
    exact ⟨fun h => exec_ld_of_slotXlate h (ha ▸ slotXlate_cab _ hw (Nat.mod_one _) hk) hd,
      fun h ht => exec_st_of_slotXlate h ht (ha ▸ slotXlate_cab _ hw (Nat.mod_one _) hk) hd,
      fun h => exec_pft_dropped h (by simp [ha])⟩
  · have device {pa : Nat} {c : Bool} (hd : isDeviceKey pa = false) : devicePieces [⟨pa, sizeBytes f.sz, c⟩] = false := by
      simp [devicePieces, hd]
    exact ⟨fun h hc hd => exec_ld_of_slotXlate h (ha ▸ slotXlate_tlb _ hw h0 h1 hn h8 hx hc rfl) (device hd),
      fun h ht hc hD hd => exec_st_of_slotXlate h ht (ha ▸ slotXlate_tlb _ hw h0 h1 hn h8 hx hc (by simp [hD])) (device hd),
      fun h hc hp => exec_pft_tlb h ha h0 hx hc hp⟩
  · have hd : devicePieces [⟨key, sizeBytes f.sz, false⟩] = false := by simp [devicePieces, hk]
    exact ⟨fun h hc => exec_ld_of_slotXlate h (ha ▸ slotXlate_war _ hw h30 hn h8 hx hc) hd,
      fun h ht hc => exec_st_of_slotXlate h ht (ha ▸ slotXlate_war _ hw h30 hn h8 hx hc) hd⟩
  · intro i k m b r row w p hm hb hf hr hq hs ho ht hp hg hp64 ha hflaws hpoison
    have hpos : 0 < p.n := by omega
    rw [← hp64] at hpoison ⊢
    rw [exec_readPerform_pft hm hb hf hr hq hs ho ht hp hg hpos ha, performPrefetch_places i k m hpos hflaws hpoison]

/-! ## Atomics and barrier instructions (R252, R263) -/

/-- The slot is queued and its request stands at the object (R208, R424). -/
def Firing.ask (fr : Firing) (s : State) (q : Req) : State :=
  (s.modSlot fr.i fr.k fun r => { r with st := .queued }).modBlk fr.i fun b => { b with req := some ⟨fr.k, q, false⟩ }

/-- In a block without another request a side effect puts its own. -/
theorem putRequest_eq_ask {fr : Firing} (s : State) (q : Req) (h : fr.b.req = none) : putRequest s fr q = fr.ask s q := by
  simp only [putRequest, h]
  rfl

/-- The ten atomics with their operations. -/
def atomicsOf (f : MOp) : List (Instr × AtomicOp) :=
  [(.aadd f, .add), (.aand f, .and), (.aor f, .or), (.axor f, .xor), (.amin f, .min),
    (.amax f, .max), (.aminu f, .minu), (.amaxu f, .maxu), (.aswp f, .swp), (.acas f, .cas)]

/-- Each atomic is `atomicOp` of its operation under its own opcode. -/
theorem exec_of_mem_atomicsOf {f : MOp} {x : Instr} {op : AtomicOp} (h : (x, op) ∈ atomicsOf f) :
    ∃ opc, x.slotFields = some (opc, .m f) ∧ ∀ s, exec x s = atomicOp opc op f s := by
  simp only [atomicsOf, List.mem_cons, Prod.mk.injEq, List.not_mem_nil, or_false] at h
  rcases h with h | h | h | h | h | h | h | h | h | h
  all_goals
    obtain ⟨rfl, rfl⟩ := h
    exact ⟨_, rfl, fun _ => rfl⟩

/-- The barrier instructions with their operations. -/
def barriersOf (f : EOp) : List (Instr × BarOp) := [(.barinit f, .init), (.bararr f, .arrive), (.barwait f, .wait)]

/-- Each barrier instruction is `barrierOp` of its operation under its own opcode, and translates nothing ahead. -/
theorem exec_of_mem_barriersOf {f : EOp} {x : Instr} {op : BarOp} (h : (x, op) ∈ barriersOf f) :
    ∃ opc, x.slotFields = some (opc, .e f) ∧ translatesAhead opc = false ∧ ∀ s, exec x s = barrierOp opc op f s := by
  simp only [barriersOf, List.mem_cons, Prod.mk.injEq, List.not_mem_nil, or_false] at h
  rcases h with h | h | h
  all_goals
    obtain ⟨rfl, rfl⟩ := h
    exact ⟨_, rfl, rfl, fun _ => rfl⟩

section Requests

variable {x : Instr} {opc : Nat} {s u : State} {fr : Firing}

/-- An atomic that translates as it fires asks at the first of its bytes. -/
theorem atomicOp_of_slotXlate {f : MOp} {ps : List Piece} (op : AtomicOp)
    (hx : x.slotFields = some (opc, .m f)) (h : firing x s = some fr) (hq : fr.b.req = none) (ht : fr.rec_.st ≠ .translated)
    (ho : slotXlate s fr f.as (memAddr f fr.l) (sizeBytes f.sz) (sizeBytes f.sz) (atomicAccess fr.n) = .ok u ps) :
    atomicOp opc op f s = .next (fr.ask u (.atomic op
      ⟨firstKey ps, sizeBytes f.sz, (ps.head?.map fun p => p.cache).getD false⟩ fr.r fr.p f.ord f.scope)) := by
  rw [atomicOp, fireMem_of_firing _ _ hx h, if_neg ht, ho]
  exact congrArg _ (putRequest_eq_ask u _ hq)

/-- An atomic that has translated ahead asks at the first of the bytes it translated to (R251). -/
theorem atomicOp_of_translated {f : MOp} {p : Piece} {rest : List Piece} (op : AtomicOp) (hx : x.slotFields = some (opc, .m f))
    (h : firing x s = some fr) (hq : fr.b.req = none) (ht : fr.rec_.st = .translated) (hp : fr.rec_.pieces = p :: rest) :
    atomicOp opc op f s = .next (fr.ask s (.atomic op ⟨p.key, sizeBytes f.sz, p.cache⟩ fr.r fr.p f.ord f.scope)) := by
  rw [atomicOp, fireMem_of_firing _ _ hx h, if_pos ht, hp]
  exact congrArg _ (putRequest_eq_ask s _ hq)

/-- A barrier instruction that translates as it fires asks at its 16-byte object (R263). -/
theorem barrierOp_of_slotXlate {f : EOp} {ps : List Piece} (op : BarOp) (hx : x.slotFields = some (opc, .e f))
    (ha : translatesAhead opc = false) (h : firing x s = some fr) (hq : fr.b.req = none)
    (ho : slotXlate s fr f.as fr.l 16 16 (atomicAccess fr.n) = .ok u ps) :
    barrierOp opc op f s = .next (fr.ask u (.barrier op (firstKey ps) f.scope fr.r)) := by
  rw [barrierOp, fireOp_of_firing _ hx ha h]
  simp only [firing_waiting hx ha h, ho]
  exact congrArg _ (putRequest_eq_ask u _ hq)

end Requests

/-- Settles O25: a request goes to the first byte of what its access translates to, which in the cabinet space is the key. -/
theorem atomicsAndBarriersAreRequested : Obligations.AtomicsAndBarriersAreRequested := by
  unfold Obligations.AtomicsAndBarriersAreRequested
  constructor
  · intro f s fr key x op hmem
    simp only [← memAddr_eq]
    intro h hq
    obtain ⟨opc, hx, hexec⟩ := exec_of_mem_atomicsOf hmem
    refine ⟨fun ht ha hw hal hk => ?_, fun p rest ht hp => ?_⟩
    · have ho := slotXlate_cab (a := atomicAccess fr.n) true hw hal hk
      rw [hexec, atomicOp_of_slotXlate op hx h hq ht (ha ▸ ho), firstKey_cabPieces key (sizeBytes_pos f.sz),
        head_cache_cabPieces]
      rfl
    · rw [hexec, atomicOp_of_translated op hx h hq ht hp]
      rfl
  · intro f s fr key x op hmem h ha hw hal hk hq
    obtain ⟨opc, hx, hahead, hexec⟩ := exec_of_mem_barriersOf hmem
    have ho := slotXlate_cab (a := atomicAccess fr.n) true hw hal hk
    rw [hexec, barrierOp_of_slotXlate op hx hahead h hq (ha ▸ ho), firstKey_cabPieces key (by decide)]
    rfl

end Sys2Proof.Machine
end

section
/-! PROOFS. Table walks and the fill of a wardrobe allocation entry: what they leave alone, what they install, and whom they
fault (O28). -/

namespace Sys2Proof.Machine

open Sys2Proof.Bits Sys2Proof.Rows

/-! ## Little-endian numbers (R8) -/

theorem leNat_lt (bs : List Byte) : leNat bs < 256 ^ bs.length := by
  induction bs with
  | nil => decide
  | cons b bs ih =>
    rw [leNat, List.length_cons, Nat.pow_succ]
    omega

theorem leNat_leBytes (n v : Nat) : leNat (leBytes n v) = v % 256 ^ n := by
  induction n generalizing v with
  | zero => rw [Nat.pow_zero, Nat.mod_one]; rfl
  | succ n ih =>
    rw [leBytes, leNat, ih, Nat.pow_succ', Nat.mod_mul, BitVec.toNat_ofNat]

theorem length_leBytes (n v : Nat) : (leBytes n v).length = n := by
  induction n generalizing v with
  | zero => rfl
  | succ n ih => rw [leBytes, List.length_cons, ih]

theorem Memory.length_readN (m : Memory) (a n : Nat) : (m.readN a n).length = n := by
  induction n generalizing a with
  | zero => rfl
  | succ n ih => rw [Memory.readN, List.length_cons, ih]

theorem State.num8_lt (s : State) (key : Nat) : s.num8 key < 2 ^ 64 := by
  have := leNat_lt (s.bytes key 8)
  rwa [State.bytes, Memory.length_readN] at this

/-! ## What reading tables leaves alone -/

/-- The contexts' instances and the walks asked for stand as before. -/
structure KeepsAskers (s t : State) : Prop where
  insts : t.insts = s.insts
  walks : t.walks = s.walks

namespace KeepsAskers

theorem refl (s : State) : KeepsAskers s s := ⟨rfl, rfl⟩

theorem trans {s t u : State} (h : KeepsAskers s t) (k : KeepsAskers t u) : KeepsAskers s u :=
  ⟨k.insts.trans h.insts, k.walks.trans h.walks⟩

theorem ite {s t u : State} (c : Prop) [Decidable c] (ht : KeepsAskers s t) (hu : KeepsAskers s u) :
    KeepsAskers s (if c then t else u) := by
  split
  · exact ht
  · exact hu

theorem foldl {α : Type} {f : State → α → State} (hf : ∀ s a, KeepsAskers s (f s a)) (l : List α) (s : State) :
    KeepsAskers s (l.foldl f s) := by
  induction l generalizing s with
  | nil => exact refl s
  | cons a l ih => exact (hf s a).trans (ih (f s a))

theorem countDie (s : State) (die code n : Nat) : KeepsAskers s (s.countDie die code n) :=
  ite _ ⟨rfl, rfl⟩ (refl s)

theorem countHome (s : State) (h : Home) (code : Nat) : KeepsAskers s (s.countHome h code) := by
  unfold State.countHome
  split
  · exact refl s
  · exact countDie s _ _ _

theorem logEvent (s : State) (code die cluster addr detail : Nat) : KeepsAskers s (s.logEvent code die cluster addr detail) :=
  ite _ ⟨rfl, rfl⟩ ⟨rfl, rfl⟩

theorem poisonGranule (s : State) (key : Nat) : KeepsAskers s (poisonGranule s key) := by
  have poisoned : KeepsAskers s { s with
      poison := if s.poison.contains (granuleOf key) then s.poison else granuleOf key :: s.poison } := ⟨rfl, rfl⟩
  exact (poisoned.trans (logEvent _ _ _ _ _ _)).trans (countHome _ _ _)

/-- A stored error met, whatever its code makes of it. -/
theorem meetFlaw (back : Bool) (s : State) (f : Flaw) : KeepsAskers s (meetFlaw back s f) := by
  have corrected := countHome s (homeOf f.key) 0x030
  exact ite _ (refl s) (ite _ (ite _ (corrected.trans ⟨rfl, rfl⟩) corrected)
    (ite _ (poisonGranule s f.key) ⟨rfl, rfl⟩))

theorem meetFlaws (s : State) (key n : Nat) : KeepsAskers s (meetFlaws s key n) := by
  have taken (p : Flaw → Bool) : KeepsAskers s { s with flaws := s.flaws.filter p } := ⟨rfl, rfl⟩
  exact (taken _).trans (foldl (meetFlaw true) _ _)

theorem walkLevels (va : Nat) (ls : List Nat) (s : State) (table : Nat) : KeepsAskers s (walkLevels va ls s table).1 := by
  induction ls generalizing s table with
  | nil => exact refl s
  | cons lv rest ih =>
    have met := meetFlaws s (table + vaIndex va lv * 8) 8
    unfold Machine.walkLevels
    dsimp only
    split
    · exact refl s
    · split
      · exact met
      · split
        · exact met
        · split
          · exact met.trans (ih _ _)
          · exact met

theorem walk (s : State) (ctx va : Nat) : KeepsAskers s (walk s ctx va).1 := by
  unfold Machine.walk
  split
  · exact refl s
  · exact walkLevels _ _ _ _

theorem putBytes (s : State) (key : Nat) (bs : List Byte) : KeepsAskers s (s.putBytes key bs) := ⟨rfl, rfl⟩

end KeepsAskers

/-! ## Walkers (R31, R32) -/

theorem sameWalk_refl (w : WalkReq) : sameWalk w w = true := by simp [sameWalk]

/-- Whether walks are the same does not rest on who has a walker. -/
theorem sameWalk_run (w x : WalkReq) (r : Bool) : sameWalk w { x with run := r } = sameWalk w x := rfl

/-- Starting walks asks for no walk that none of the requests was for. -/
theorem startWalks_not_sameWalk {w : WalkReq} {ws : List WalkReq} (die : Nat) (h : ∀ x ∈ ws, sameWalk w x = false) :
    ∀ x ∈ startWalks ws die, sameWalk w x = false := by
  unfold startWalks
  generalize (List.range 4).flatMap _ = waiting
  induction waiting generalizing ws with
  | nil => exact h
  | cons y waiting ih =>
    rw [List.foldl_cons]
    refine ih ?_
    split
    · intro x hx
      obtain ⟨z, hz, rfl⟩ := List.mem_map.mp hx
      split
      · exact h z hz
      · exact h z hz
    · exact h

/-- The requests that a walk has served have left. -/
theorem endWalks_not_sameWalk (s : State) (w : WalkReq) : ∀ x ∈ (endWalks s w).walks, sameWalk w x = false :=
  startWalks_not_sameWalk _ fun x hx => by simpa using (List.mem_filter.mp hx).2

/-- Once the only request is served, none is left. -/
theorem endWalks_walks_of_only {s : State} {w : WalkReq} (h : s.walks = [w]) : (endWalks s w).walks = [] := by
  have none_left : s.walks.filter (fun x => !sameWalk w x) = [] := by simp [h, sameWalk_refl]
  rw [endWalks, none_left]
  rfl

/-! ## Installing an entry (R30) -/

theorem mem_tlbInsert_self (t : List TlbEntry) (e : TlbEntry) : e ∈ tlbInsert t e := by
  unfold tlbInsert
  dsimp only
  split
  · split <;> simp
  · simp

/-- A full TLB drops an entry of its own: those of other places stay. -/
theorem mem_tlbInsert_of_place_ne {t : List TlbEntry} {e x : TlbEntry} (hx : x ∈ t) (hp : x.place ≠ e.place) :
    x ∈ tlbInsert t e := by
  have kept : x ∈ t.filter fun x => !(x.place == e.place && x.war == e.war && x.ctx == e.ctx && x.base == e.base
      && x.size == e.size) := List.mem_filter.mpr ⟨hx, by simp [hp]⟩
  unfold tlbInsert
  dsimp only
  split
  · rename_i o rest here
    have ho : o.place = e.place := by
      have : o ∈ o :: rest := List.mem_cons_self
      rw [← here] at this
      simpa using (List.mem_filter.mp this).2
    have hne : x ≠ o := fun h => hp (h ▸ ho)
    split
    · exact List.mem_append_left _ ((List.mem_erase_of_ne hne).mpr kept)
    · exact List.mem_append_left _ kept
  · exact List.mem_append_left _ kept

/-- An entry installed in the TLB of a cluster and in that of a die stands in both. -/
theorem mem_foldl_tlbInsert {g : TlbPlace → TlbEntry} (hg : ∀ p, (g p).place = p) (t : List TlbEntry) (c die : Nat) :
    ∀ p ∈ [TlbPlace.cluster c, .die die],
      g p ∈ (lookupPlaces (some c) die).foldl (fun t p => tlbInsert t (g p)) t := by
  have first : g (.cluster c) ∈ tlbInsert (tlbInsert t (g (.cluster c))) (g (.die die)) :=
    mem_tlbInsert_of_place_ne (mem_tlbInsert_self _ _) (by simp [hg])
  have second : g (.die die) ∈ tlbInsert (tlbInsert t (g (.cluster c))) (g (.die die)) := mem_tlbInsert_self _ _
  simpa [lookupPlaces] using ⟨first, second⟩

/-! ## Walks that read no stored error (R17) -/

/-- Where no stored error waits, a walk changes nothing, and the leaf that it finds is the number at its address. -/
theorem walkLevels_leaf {va e addr lg : Nat} {ls : List Nat} {s u : State} {table : Nat} (hs : s.flaws = [])
    (h : walkLevels va ls s table = (u, .leaf e addr lg)) : u = s ∧ s.num8 addr = e := by
  induction ls generalizing table with
  | nil => cases h
  | cons lv rest ih =>
    simp only [walkLevels, meetFlaws_of_no_flaws hs] at h
    split at h
    · cases h
    · split at h
      · cases h
      · split at h
        · cases h
        · split at h
          · exact ih h
          · cases h
            exact ⟨rfl, rfl⟩

theorem walk_leaf {ctx va e addr lg : Nat} {s u : State} (hs : s.flaws = [])
    (h : walk s ctx va = (u, .leaf e addr lg)) : u = s ∧ s.num8 addr = e := by
  unfold walk at h
  split at h
  · cases h
  · exact walkLevels_leaf hs h

/-! ## The leaf that a walk installs (R20, R24, R30) -/

theorem installLeaf_keepsAskers (s : State) (core : Option Nat) (die ctx va e addr lg : Nat) (dirty : Bool) :
    KeepsAskers s (installLeaf s core die ctx va e addr lg dirty).1 := by
  have read (c : Bool) : KeepsAskers s (if c then meetFlaws s (addr - addr % 256) 256 else s) :=
    .ite _ (.meetFlaws s _ _) (.refl s)
  have counted (c : Bool) (t : State) : KeepsAskers t (if c then t.countDie die 0x022 1 else t) :=
    .ite _ (.countDie t _ _ _) (.refl t)
  have swapped (c : Prop) [Decidable c] (v : Nat) (t : State) : KeepsAskers t (if c then t else t.putBytes addr (leBytes 8 v)) :=
    .ite _ (.refl t) (.putBytes t _ _)
  exact (((read _).trans (counted _ _)).trans (swapped _ _ _)).trans ⟨rfl, rfl⟩

/-- A leaf that no write found is in both TLBs with A set, alone or, with CONTIG, as its group's run. -/
theorem installLeaf_tlb (s : State) (c die ctx va e addr lg : Nat) :
    ∃ run : Option Nat, (run.isSome = true → lg = 16 ∧ bit e 12 = true) ∧ ∀ p ∈ [TlbPlace.cluster c, .die die],
      leafEntry p ctx va (e ||| 16) addr lg run ∈ (installLeaf s (some c) die ctx va e addr lg false).1.tlb := by
  simp only [installLeaf, Bool.false_eq_true, if_false, Nat.or_zero]
  refine ⟨_, fun hrun => ?_,
    mem_foldl_tlbInsert (g := fun p => leafEntry p ctx va (e ||| 16) addr lg _) (fun _ => rfl) _ c die⟩
  split at hrun
  · rename_i hg
    simpa using hg
  · cases hrun

/-- Where no stored error waits, the leaf's bytes alone are written, with A set. -/
theorem installLeaf_mem {s : State} (hs : s.flaws = []) (core : Option Nat) (die ctx va e addr lg : Nat) :
    (installLeaf s core die ctx va e addr lg false).1.mem
      = if e ||| 16 = e then s.mem else s.mem.writeN addr (leBytes 8 (e ||| 16)) := by
  have counted (c : Bool) (t : State) : (if c then t.countDie die 0x022 1 else t).mem = t.mem := by
    split
    · exact (apply_ite State.mem _ _ _).trans (ite_self _)
    · rfl
  simp only [installLeaf, meetFlaws_of_no_flaws hs, ite_self, Bool.false_eq_true, if_false, Nat.or_zero]
  rw [apply_ite State.mem]
  simp only [State.putBytes, counted]

/-- A leaf read at its address holds its A bit there afterwards, and no other byte has changed. -/
theorem installLeaf_sets_accessed {s : State} (hs : s.flaws = []) (hwf : s.mem.wf = true) (core : Option Nat)
    (die ctx va lg : Nat) {e addr : Nat} (he : s.num8 addr = e) :
    (installLeaf s core die ctx va e addr lg false).1.num8 addr = e ||| 16
      ∧ SameMemBut s (installLeaf s core die ctx va e addr lg false).1 addr 8 := by
  rw [SameMemBut, State.num8, State.bytes, installLeaf_mem hs]
  by_cases hA : e ||| 16 = e
  · rw [if_pos hA]
    exact ⟨he.trans hA.symm, fun _ _ => rfl⟩
  · rw [if_neg hA]
    have hlen := length_leBytes 8 (e ||| 16)
    have hlt : e ||| 16 < 256 ^ 8 := Nat.or_lt_two_pow (n := 64) (he ▸ s.num8_lt addr) (by decide)
    constructor
    · have hread := s.mem.readN_writeN addr (leBytes 8 (e ||| 16)) hwf
      rw [hlen] at hread
      rw [hread, leNat_leBytes, Nat.mod_eq_of_lt hlt]
    · exact fun a ha => s.mem.read_writeN_outside addr a _ (by rwa [hlen])

/-! ## PAGE_WALK (R17, R31, R33) -/

section PageWalk

variable {s u : State} {j : Nat} {w : WalkReq}

/-- The walk of a request that has a walker installs the leaf it finds. -/
theorem exec_pageWalk_leaf {e addr lg : Nat} (hw : s.walks[j]? = some w) (hv : w.as_ = .virt) (hr : w.run = true)
    (h : walk (endWalks s w) w.ctx w.va = (u, .leaf e addr lg)) :
    exec (.pageWalk j) s
      = .next (installLeaf u (some w.cluster) (dieOfCore w.cluster) w.ctx w.va e addr lg false).1 := by
  simp [exec_pageWalk, execPageWalk, hw, hv, hr, h]

/-- Codes of a walk that finds no leaf: of a slot, and of a region's port. -/
def walkCodes : Walk → Option (Nat × Nat)
  | .absent => some (codePageAbsent, codePageAbsent)
  | .poisoned => some (codePoison, codeDataErr)
  | .leaf .. => none

/-- The walk of the only request faults who asked when it finds no leaf. -/
theorem exec_pageWalk_fault {x : Walk} {core port : Nat} (hw : s.walks = [w]) (hv : w.as_ = .virt) (hr : w.run = true)
    (hx : walkCodes x = some (core, port)) (h : walk (endWalks s w) w.ctx w.va = (u, x)) :
    exec (.pageWalk 0) s = .next (walkFault u w core port) := by
  have mine : s.walks.filter (sameWalk w) = [w] := by simp [hw, sameWalk_refl]
  have first : s.walks[0]? = some w := by rw [hw]; rfl
  cases x with
  | absent =>
    cases hx
    simp [exec_pageWalk, execPageWalk, first, hv, hr, h, mine]
  | poisoned =>
    cases hx
    simp [exec_pageWalk, execPageWalk, first, hv, hr, h, mine]
  | leaf => cases hx

theorem raise_walks (s : State) (i code slot : Nat) (addr : Word) : (raise s i code slot addr).walks = s.walks := rfl

/-- The first fault of a block stands at its context's boundary. -/
theorem raise_due {s : State} {i : Nat} {b : Block} (hb : s.blk? i = some b) (hd : s.due? i = none) (code slot : Nat)
    (addr : Word) : (raise s i code slot addr).due? i = some ⟨code, b.addr, slot, addr, none, none, 0⟩ := by
  obtain ⟨n, hn, hblk⟩ := Option.bind_eq_some_iff.mp hb
  have hdue : n.ctl.due = none := by rw [State.due?, hn] at hd; exact hd
  simp [State.due?, raise, hn, hdue, hblk]

/-- A walk's fault for a slot leaves the other requests. -/
theorem walkFault_slot_walks {i k : Nat} (core port : Nat) (hby : w.by_ = .slot i k) :
    (walkFault s w core port).walks = s.walks := by
  simp only [walkFault, hby]
  split
  · exact raise_walks _ _ _ _ _
  · rfl

/-- A walk's fault is due at a slot that has fired, or that waits for a load behind it (R204, R251). -/
theorem walkFault_slot_due {i k : Nat} {b : Block} (core port : Nat) (hby : w.by_ = .slot i k) (hb : s.blk? i = some b)
    (hd : s.due? i = none) : (walkFault s w core port).due? i = if (b.rec_ k).st = .waiting ∧ waitsForLoad b k = false then none
      else some ⟨core, b.addr, k, BitVec.ofNat 64 w.va, none, none, 0⟩ := by
  have hblk : (s.inst? i).bind (fun n => n.ctl.blk) = some b := hb
  simp only [walkFault, hby, hblk, Option.map_some, Option.getD_some]
  by_cases hk : (b.rec_ k).st = .waiting ∧ waitsForLoad b k = false
  · rw [if_pos hk, if_neg (by simp [hk.1, hk.2]), hd]
  · rw [if_neg hk, if_pos (by simpa [imp_iff_not_or] using hk), raise_due hb hd]

end PageWalk

/-! ## WARDROBE_ENTRY_FILL (R29 to R31) -/

/-- The request that a fill of an allocation entry serves. -/
def fillReq (cluster ctx page : Nat) : WalkReq := { by_ := .fetch 0, ctx, as_ := .war, va := page * 0x100000, cluster }

/-- It is that of every request for the entry from the die. -/
theorem sameWalk_fillReq {cluster ctx page : Nat} {x : WalkReq} : sameWalk (fillReq cluster ctx page) x = true
    ↔ x.as_ = .war ∧ x.ctx = ctx ∧ dieOfCore x.cluster = dieOfCore cluster ∧ x.va / 0x100000 = page := by
  have war : (Space.war == Space.virt) = false := rfl
  simp only [sameWalk, fillReq, war, Bool.false_eq_true, if_false, Nat.mul_div_left page (show 0 < 0x100000 by decide),
    Bool.and_eq_true, beq_iff_eq]
  tauto

/-- A valid allocation entry that no stored error or poison touches is installed in both TLBs and changes nothing else (R31). -/
theorem watFill_valid {s : State} {c die ctx page e : Nat} (hs : s.flaws = []) (ha : watAddr s ctx page + 1 < hbmEnd)
    (hp : poisonedIn s.poison (watAddr s ctx page) 2 = false) (he : leNat (s.bytes (watAddr s ctx page) 2) = e)
    (hv : bit e 15 = true) (hz : bits e 13 10 = 0) :
    watFill s (some c) die ctx page = ({ s with
      tlb := (lookupPlaces (some c) die).foldl (fun t p => tlbInsert t (watEntry p ctx page e (watAddr s ctx page)))
        s.tlb }, some e) := by
  simp [watFill, Nat.not_le.mpr ha, meetFlaws_of_no_flaws hs, hp, he, hv, hz]

/-- The fill of an entry that is asked for and valid ends with what `watFill` leaves. -/
theorem exec_wardrobeEntryFill_valid {s t : State} {cluster page e : Nat} {ctx : BitVec 8} {w : WalkReq} (hw : w ∈ s.walks)
    (hsame : sameWalk (fillReq cluster ctx.toNat page) w = true) (hpage : page < 1024)
    (h : watFill (endWalks s (fillReq cluster ctx.toNat page)) (some cluster) (dieOfCore cluster) ctx.toNat page = (t, some e))
    (hv : bit e 15 = true) (hz : bits e 13 10 = 0) : exec (.wardrobeEntryFill cluster ctx page) s = .next t := by
  have asked : (s.walks.filter (sameWalk (fillReq cluster ctx.toNat page))).isEmpty = false := by
    rw [List.isEmpty_eq_false_iff]
    exact List.ne_nil_of_mem (List.mem_filter.mpr ⟨hw, hsame⟩)
  rw [fillReq] at asked h
  simp [exec_wardrobeEntryFill, execWardrobeEntryFill, asked, Nat.not_le.mpr hpage, h, hv, hz]

/-! ## O28 -/

/-- A walk that finds a leaf: the first part of O28. -/
theorem pageWalk_installs {s u : State} {j : Nat} {w : WalkReq} {e addr lg : Nat} (hw : s.walks[j]? = some w)
    (hv : w.as_ = .virt) (hr : w.run = true) (h : walk (endWalks s w) w.ctx w.va = (u, .leaf e addr lg)) :
    ∃ t, exec (.pageWalk j) s = .next t ∧ t.insts = s.insts ∧ (∀ x ∈ t.walks, sameWalk w x = false)
      ∧ (∀ p ∈ [TlbPlace.cluster w.cluster, .die (dieOfCore w.cluster)], ∃ x ∈ t.tlb, x.place = p ∧ x.ctx = w.ctx
          ∧ x.war = false ∧ x.pte = e ||| 16 ∧ x.leaf = addr ∧ (x.size = lg ∨ lg = 16 ∧ bit e 12 = true ∧ x.size = 21)
          ∧ x.base = w.va % 2 ^ 55 / 2 ^ x.size * 2 ^ x.size)
      ∧ (s.flaws = [] → s.mem.wf = true → t.num8 addr = e ||| 16 ∧ SameMemBut s t addr 8) := by
  have walked : KeepsAskers (endWalks s w) u := by
    have := KeepsAskers.walk (endWalks s w) w.ctx w.va
    rwa [h] at this
  have kept := walked.trans (installLeaf_keepsAskers u (some w.cluster) (dieOfCore w.cluster) w.ctx w.va e addr lg false)
  refine ⟨_, exec_pageWalk_leaf hw hv hr h, kept.insts, kept.walks ▸ endWalks_not_sameWalk s w, fun p hp => ?_, fun hs hwf => ?_⟩
  · obtain ⟨run, hrun, hmem⟩ := installLeaf_tlb u w.cluster (dieOfCore w.cluster) w.ctx w.va e addr lg
    refine ⟨_, hmem p hp, rfl, rfl, rfl, rfl, rfl, ?_, rfl⟩
    cases run with
    | none => exact .inl rfl
    | some f => exact .inr ⟨(hrun rfl).1, (hrun rfl).2, rfl⟩
  · obtain ⟨rfl, he⟩ := walk_leaf (s := endWalks s w) hs h
    exact installLeaf_sets_accessed (s := endWalks s w) hs hwf (some w.cluster) (dieOfCore w.cluster) w.ctx w.va lg he

/-- A walk that finds no leaf: the second part of O28. -/
theorem pageWalk_faults {s u : State} {i k core port : Nat} {w : WalkReq} {b : Block} {x : Walk} (hw : s.walks = [w])
    (hby : w.by_ = .slot i k) (hv : w.as_ = .virt) (hr : w.run = true) (hb : s.blk? i = some b) (hd : s.due? i = none)
    (hx : walkCodes x = some (core, port)) (h : walk (endWalks s w) w.ctx w.va = (u, x)) :
    ∃ t, exec (.pageWalk 0) s = .next t ∧ t.walks = []
      ∧ t.due? i = if (b.rec_ k).st = .waiting ∧ waitsForLoad b k = false then none
          else some ⟨core, b.addr, k, BitVec.ofNat 64 w.va, none, none, 0⟩ := by
  have kept : KeepsAskers (endWalks s w) u := by
    have := KeepsAskers.walk (endWalks s w) w.ctx w.va
    rwa [h] at this
  have insts : u.insts = s.insts := kept.insts
  have hb' : u.blk? i = some b := by rwa [State.blk?, State.inst?, insts]
  have hd' : u.due? i = none := by rwa [State.due?, State.inst?, insts]
  exact ⟨_, exec_pageWalk_fault hw hv hr hx h,
    (walkFault_slot_walks core port hby).trans (kept.walks.trans (endWalks_walks_of_only hw)),
    walkFault_slot_due core port hby hb' hd'⟩

/-- Settles O28: a walk that finds a leaf installs it, one that finds none faults who asked, and the fill of a valid entry is
`watFill`. -/
theorem walksAndFills : Obligations.WalksAndFills := by
  unfold Obligations.WalksAndFills
  refine ⟨fun s u j w e addr lg hw hv hr h => pageWalk_installs hw hv hr h, ?_, ?_⟩
  · rintro s u i k c w b x hw hby hv hr hb hd (⟨rfl, rfl⟩ | ⟨rfl, rfl⟩) h
    · exact pageWalk_faults hw hby hv hr hb hd rfl h
    · exact pageWalk_faults hw hby hv hr hb hd rfl h
  · intro s cluster page ctx w e hw has hctx hdie hva hpage hs ha hp he hv hz
    have hsame : sameWalk (fillReq cluster ctx.toNat page) w = true := sameWalk_fillReq.mpr ⟨has, hctx, hdie, hva⟩
    have hread : leNat (s.bytes (watAddr s ctx.toNat page) 2) = e := by simp [State.bytes, Memory.readN, leNat, he]
    have filled := watFill_valid (s := endWalks s (fillReq cluster ctx.toNat page)) (c := cluster) (die := dieOfCore cluster)
      hs ha hp hread hv hz
    refine ⟨_, exec_wardrobeEntryFill_valid hw hsame hpage filled hv hz, rfl, rfl, fun p hp => ?_, fun x hx hask => ?_⟩
    · exact ⟨_, mem_foldl_tlbInsert (g := fun p => watEntry p ctx.toNat page e (watAddr s ctx.toNat page)) (fun _ => rfl)
        _ _ _ p hp, rfl, rfl, rfl, rfl, rfl⟩
    · have left := endWalks_not_sameWalk s (fillReq cluster ctx.toNat page) x hx
      rw [sameWalk_fillReq.mpr hask] at left
      cases left

end Sys2Proof.Machine
end

section
/-! PROOFS. Commands and re-encodings of an array where no stored error waits, and the steps of the data cache, the write-backs
and the arrays' retention (O29). -/

namespace Sys2Proof.Machine

/-! ## What commands leave alone (R402, R403) -/

/-- What no single command changes, commands to several leaves leave as it was. -/
theorem commandAll_keeps {α : Type} {read : State → α} (h : ∀ act s l, read (command act s l) = read s) (s : State)
    (ls : List Nat) (act : LeafAct) : read (commandAll s ls act) = read s := by
  induction ls generalizing s with
  | nil => rfl
  | cons l ls ih => exact (ih (command act s l)).trans (h act s l)

theorem commandAll_retention (s : State) (ls : List Nat) (act : LeafAct) :
    (commandAll s ls act).retention = s.retention :=
  commandAll_keeps (fun _ _ _ => rfl) s ls act

theorem commandAll_cycle (s : State) (ls : List Nat) (act : LeafAct) : (commandAll s ls act).cycle = s.cycle :=
  commandAll_keeps (fun _ _ _ => rfl) s ls act

/-- A command's journal record brings no stored error. -/
theorem commandAll_no_flaws {s : State} (h : s.flaws = []) (ls : List Nat) (act : LeafAct) :
    (commandAll s ls act).flaws = [] := by
  induction ls generalizing s with
  | nil => exact h
  | cons l ls ih => exact ih (by simp [command, State.setLeaf, State.note, journalWrite, h])

/-! ## Re-encoding an array without stored errors (R52) -/

theorem meetWhere_of_no_flaws {s : State} (h : s.flaws = []) (back : Bool) (p : Flaw → Bool) : meetWhere back s p = s := by
  cases s
  cases h
  rfl

theorem reencode_of_no_flaws {s : State} (h : s.flaws = []) (a : ArrayId) : reencode s a = s := meetWhere_of_no_flaws h _ _

theorem exitFlaws_of_no_flaws {s : State} (h : s.flaws = []) (a : ArrayId) : exitFlaws s a = s :=
  meetWhere_of_no_flaws h _ _

/-! ## Retention (R51 to R53) -/

section Retention

variable {s : State} {a : ArrayId}

/-- An unused array that is awake enters retention at its leaf's command. -/
theorem exec_retentionEntry_unused (hu : arrayUnused s a = true) (hawake : ∀ r ∈ s.retention, r.1 ≠ a)
    (hc : canCommand s (leafOfArray a) = true) : exec (.retentionEntry a) s = .next { commandAll s (leafOfArray a) (.sleep a) with
      retention := s.retention ++ [(a, .entering s.cycle)] } := by
  have awake : (s.retention.any fun r => r.1 == a) = false := by simpa using hawake
  rw [exec_retentionEntry, execRetentionEntry, hu, awake, hc]
  simp only [commandAll_retention, commandAll_cycle]
  rfl

/-- An array whose rows have all entered is retained. -/
theorem exec_retentionEntryDone_entered {t₀ : Nat} (hr : (a, .entering t₀) ∈ s.retention)
    (ht : t₀ + retentionCycles a ≤ s.cycle) (hs : s.flaws = []) : exec (.retentionEntryDone a) s =
      .next { s with retention := s.retention.map fun r => if r.1 = a then (a, .retained) else r } := by
  rw [exec_retentionEntryDone, execRetentionEntryDone, when_, if_pos, reencode_of_no_flaws (by exact hs)]
  · simp only [beq_iff_eq]
  · exact List.any_eq_true.mpr ⟨_, hr, by simpa using ht⟩

/-- How an exit begins: of an array that is retained, or on its way in (R53). -/
def exitOf (s : State) (a : ArrayId) : Retention → Retention
  | .entering t =>
    let rows := min ((s.cycle - t) / rowCycles a) (bankRows a)
    .leaving (s.cycle + rows * rowCycles a) rows
  | .retained => .leaving (s.cycle + retentionCycles a) (bankRows a)
  | .leaving t k => .leaving t k

/-- The only array in retention or entering it leaves it at its leaf's command. -/
theorem exec_retentionExit_only {r : Retention} (hr : s.retention = [(a, r)]) (hl : ∀ t k, r ≠ .leaving t k)
    (hs : s.flaws = []) (hc : canCommand s (leafOfArray a) = true) : exec (.retentionExit a) s = .next {
      commandAll s (leafOfArray a) (.wake a) with retention := [(a, exitOf s a r)] } := by
  have wakes : mayWake s a = true := by
    cases r with
    | leaving t k => exact absurd rfl (hl t k)
    | entering t => simp [mayWake, hr]
    | retained => simp [mayWake, hr]
  rw [exec_retentionExit, execRetentionExit, wakes, hc, reencode_of_no_flaws (commandAll_no_flaws hs _ _)]
  simp only [commandAll_retention, hr]
  cases r <;> simp [when_, exitOf]

/-- The only array that leaves retention is awake once its rows have left. -/
theorem exec_retentionExitDone_only {t₀ rows : Nat} (hr : s.retention = [(a, .leaving t₀ rows)]) (ht : t₀ ≤ s.cycle)
    (hs : s.flaws = []) : exec (.retentionExitDone a) s = .next { s with retention := [] } := by
  rw [exec_retentionExitDone, execRetentionExitDone, exitFlaws_of_no_flaws hs]
  simp [when_, hr, ht, hs]

end Retention

/-- Settles O29: the cache, write-back and retention steps do what their rules say; an array's re-encoding meets no stored
error where none waits. -/
theorem cacheAndRetentionSteps : Obligations.CacheAndRetentionSteps := by
  unfold Obligations.CacheAndRetentionSteps
  intro s core line key a
  refine ⟨rfl, rfl, exec_retentionEntry_unused, fun _ => exec_retentionEntryDone_entered, fun hr hs hc => ?_,
    fun _ hr hs hc => ?_, fun _ _ => exec_retentionExitDone_only⟩
  · exact exec_retentionExit_only hr (by simp) hs hc
  · exact exec_retentionExit_only hr (by simp) hs hc

end Sys2Proof.Machine
end

section
/-! PROOFS. What accesses to memory leave alone, barriers that they meet included: the scheduler's queues, the FEs, and which
instances there are. -/

namespace Sys2Proof.Machine

open Sys2Proof.Bits

/-! ## The queues -/

/-- The queues of the scheduler with their numbering, the FEs, and the keys of the instances. -/
structure Queues where
  launches : Assoc Launch
  launchSeq : Nat
  fes : Assoc Fe
  keys : List Nat

def State.queues (s : State) : Queues := ⟨s.launches, s.launchSeq, s.fes, s.insts.map fun x => x.1⟩

theorem launches_of_queues {s t : State} (h : t.queues = s.queues) : t.launches = s.launches :=
  congrArg Queues.launches h

theorem launchSeq_of_queues {s t : State} (h : t.queues = s.queues) : t.launchSeq = s.launchSeq :=
  congrArg Queues.launchSeq h

theorem fes_of_queues {s t : State} (h : t.queues = s.queues) : t.fes = s.fes := congrArg Queues.fes h

theorem keys_of_queues {s t : State} (h : t.queues = s.queues) :
    (t.insts.map fun x => x.1) = s.insts.map fun x => x.1 := congrArg Queues.keys h

theorem queues_ite {s t u : State} (c : Prop) [Decidable c] (ht : t.queues = s.queues) (hu : u.queues = s.queues) :
    (if c then t else u).queues = s.queues := by
  split
  · exact ht
  · exact hu

theorem queues_foldl {α : Type} {f : State → α → State} (hf : ∀ s a, (f s a).queues = s.queues) (l : List α) (s : State) :
    (l.foldl f s).queues = s.queues := by
  induction l generalizing s with
  | nil => rfl
  | cons a l ih => exact (ih (f s a)).trans (hf s a)

theorem queues_foldl_fst {α β : Type} {f : State × β → α → State × β} (hf : ∀ x a, (f x a).1.queues = x.1.queues)
    (l : List α) (x : State × β) : (l.foldl f x).1.queues = x.1.queues := by
  induction l generalizing x with
  | nil => rfl
  | cons a l ih => exact (ih (f x a)).trans (hf x a)

/-! ## Counters, log, codes on stored data (R47 to R50, R408, R409) -/

theorem countDie_queues (s : State) (die code n : Nat) : (s.countDie die code n).queues = s.queues := queues_ite _ rfl rfl

theorem countCore_queues (s : State) (core code n : Nat) : (s.countCore core code n).queues = s.queues :=
  queues_ite _ rfl rfl

theorem countHome_queues (s : State) (h : Home) (code : Nat) : (s.countHome h code).queues = s.queues := by
  unfold State.countHome
  split
  · rfl
  · exact countDie_queues s _ _ _

theorem logFault_queues (s : State) (code ctx tenant die cluster inst addr detail : Nat) :
    (s.logFault code ctx tenant die cluster inst addr detail).queues = s.queues := queues_ite _ rfl rfl

theorem poisonGranule_queues (s : State) (key : Nat) : (poisonGranule s key).queues = s.queues :=
  (countHome_queues _ _ _).trans (logFault_queues _ _ _ _ _ _ _ _ _)

theorem meetFlaw_queues (back : Bool) (s : State) (f : Flaw) : (meetFlaw back s f).queues = s.queues := by
  have corrected := countHome_queues s (homeOf f.key) 0x030
  exact queues_ite _ rfl (queues_ite _ (queues_ite _ corrected corrected) (queues_ite _ (poisonGranule_queues s f.key) rfl))

theorem meetFlaws_queues (s : State) (key n : Nat) : (meetFlaws s key n).queues = s.queues :=
  queues_foldl (meetFlaw_queues true) _ _

theorem putBytes_queues (s : State) (key : Nat) (bs : List Byte) : (s.putBytes key bs).queues = s.queues := rfl

/-! ## Translation with its walks (R17, R24, R30) -/

theorem walkLevels_queues (va : Nat) (ls : List Nat) (s : State) (table : Nat) :
    (walkLevels va ls s table).1.queues = s.queues := by
  induction ls generalizing s table with
  | nil => rfl
  | cons lv rest ih =>
    have met := meetFlaws_queues s (table + vaIndex va lv * 8) 8
    unfold walkLevels
    dsimp only
    split
    · rfl
    · split
      · exact met
      · split
        · exact met
        · split
          · exact (ih _ _).trans met
          · exact met

theorem walk_queues (s : State) (ctx va : Nat) : (walk s ctx va).1.queues = s.queues := by
  unfold walk
  split
  · rfl
  · exact walkLevels_queues _ _ _ _

theorem installLeaf_queues (s : State) (core : Option Nat) (die ctx va e addr lg : Nat) (dirty : Bool) :
    (installLeaf s core die ctx va e addr lg dirty).1.queues = s.queues := by
  have read (c : Bool) : (if c then meetFlaws s (addr - addr % 256) 256 else s).queues = s.queues :=
    queues_ite _ (meetFlaws_queues s _ _) rfl
  have counted (c : Bool) (t : State) : (if c then t.countDie die 0x022 1 else t).queues = t.queues :=
    queues_ite _ (countDie_queues t _ _ _) rfl
  have swapped (c : Prop) [Decidable c] (v : Nat) (t : State) :
      (if c then t else t.putBytes addr (leBytes 8 v)).queues = t.queues := queues_ite _ rfl rfl
  exact (swapped _ _ _).trans ((counted _ _).trans (read _))

theorem enterLeaf_queues (s : State) (core : Option Nat) (die ctx va e addr lg : Nat) (a : Access) :
    (enterLeaf s core die ctx va e addr lg a).1.queues = s.queues := by
  unfold enterLeaf
  dsimp only
  split <;> exact installLeaf_queues _ _ _ _ _ _ _ _ _

theorem endWalk_queues (w : State × Walk) (core : Option Nat) (die ctx va : Nat) (a : Access) :
    (endWalk w core die ctx va a).1.queues = w.1.queues := by
  obtain ⟨s, x⟩ := w
  cases x with
  | absent => rfl
  | poisoned => rfl
  | leaf e addr lg => exact enterLeaf_queues s core die ctx va e addr lg a

theorem throughEntry_queues (s : State) (x : TlbEntry) (core : Option Nat) (die ctx va : Nat) (a : Access) :
    (throughEntry s x core die ctx va a).1.queues = s.queues := by
  have met := meetFlaws_queues s x.leaf 8
  unfold throughEntry
  dsimp only
  split
  · rfl
  · split
    · split
      · exact met
      · exact (endWalk_queues _ _ _ _ _ _).trans ((walkLevels_queues _ _ _ _).trans met)
    · rfl

theorem countMiss_queues (s : State) (core : Option Nat) (die : Nat) (hit : Option TlbPlace) :
    (countMiss s core die hit).queues = s.queues := by
  unfold countMiss
  dsimp only
  refine (queues_ite _ (countDie_queues _ _ _ _) rfl).trans ?_
  split
  · rfl
  · exact countCore_queues _ _ _ _
  · rfl

theorem lookVirt_queues (s : State) (core : Option Nat) (die ctx va : Nat) (a : Access) :
    (lookVirt s core die ctx va a).1.queues = s.queues := by
  unfold lookVirt
  split
  · exact (throughEntry_queues _ _ _ _ _ _ _).trans (countMiss_queues _ _ _ _)
  · exact countMiss_queues _ _ _ _

theorem findVirt_queues (s : State) (core : Option Nat) (die ctx va : Nat) (a : Access) :
    (findVirt s core die ctx va a).1.queues = s.queues := by
  have looked := lookVirt_queues s core die ctx va a
  unfold findVirt
  split
  · rename_i u hu
    rw [hu] at looked
    split
    · exact (endWalk_queues _ _ _ _ _ _).trans ((walk_queues _ _ _).trans looked)
    · exact looked
  · exact looked

theorem xlateVirt_queues {find : State → Nat → State × Look} (hf : ∀ s va, (find s va).1.queues = s.queues)
    (ts : List (Nat × Nat)) (s : State) (acc : List Piece) : (xlateVirt find s ts acc).1.queues = s.queues := by
  induction ts generalizing s acc with
  | nil => rfl
  | cons t ts ih =>
    have found := hf s (t.1 % 2 ^ 64)
    unfold xlateVirt
    split <;> rename_i hu <;> rw [hu] at found
    · exact found
    · exact found
    · exact (ih _ _).trans found

theorem xlateNow_queues (s : State) (die ctx : Nat) (addr : Word) (n align : Nat) (a : Access) :
    (xlateNow s die ctx addr n align a).1.queues = s.queues := by
  unfold xlateNow xlate
  dsimp only
  split
  · rfl
  · split
    · rfl
    · exact xlateVirt_queues (fun s va => findVirt_queues s none die ctx va a) _ _ _

/-! ## Instances whose requests a write answers (R101, R114, R266) -/

theorem amod_keys {α : Type} (k : Nat) (f : α → α) (m : Assoc α) : ((amod k f m).map fun x => x.1) = m.map fun x => x.1 := by
  induction m with
  | nil => rfl
  | cons x m ih =>
    rw [amod]
    split
    · rfl
    · exact congrArg (x.1 :: ·) ih

theorem modInst_queues (s : State) (i : Nat) (f : Inst → Inst) : (s.modInst i f).queues = s.queues := by
  rw [State.queues, State.modInst, amod_keys]
  rfl

theorem modBlk_queues (s : State) (i : Nat) (f : Block → Block) : (s.modBlk i f).queues = s.queues := modInst_queues s i _

theorem modSlot_queues (s : State) (i k : Nat) (f : SlotRec → SlotRec) : (s.modSlot i k f).queues = s.queues :=
  modBlk_queues s i _

theorem SlotOnly.queues {i : Nat} {s t : State} (h : SlotOnly i s t) : t.queues = s.queues := by
  obtain ⟨b, d, rfl⟩ := h
  exact modInst_queues s i _

theorem enterHeld_queues (s : State) (i ser : Nat) (h : Held) : (enterHeld s i ser h).queues = s.queues := by
  unfold enterHeld
  split
  · rfl
  · refine queues_foldl_fst (fun _ _ => ?_) _ _
    rfl

theorem enterBelow_queues (s : State) (i limit : Nat) : (enterBelow s i limit).queues = s.queues := by
  unfold enterBelow
  split
  · rfl
  · exact (modBlk_queues _ _ _).trans (queues_foldl (fun s h => enterHeld_queues s i _ h) _ _)

theorem bindBlock_queues (s : State) (i : Nat) : (bindBlock s i).queues = s.queues := by
  unfold bindBlock
  split
  · rfl
  · exact queues_ite _ rfl ((modBlk_queues _ _ _).trans (enterBelow_queues s i _))

theorem answer_queues (s : State) (i k : Nat) (v : Option Word) : (answer s i k v).queues = s.queues := by
  have done := (modSlot_queues ((bindBlock s i).modBlk i fun b => { b with req := none }) i k
    fun r => { r with st := .done }).trans ((modBlk_queues _ i _).trans (bindBlock_queues s i))
  unfold answer
  dsimp only
  split
  · exact (SlotOnly.deliver _ _ _ _).queues.trans done
  · exact done

theorem releaseWaiter_queues (s : State) (v : Word) (x : Nat × Nat × Nat × Scope) :
    (releaseWaiter s v x).queues = s.queues := by
  have answered := answer_queues s x.1 x.2.1 (some v)
  unfold releaseWaiter
  dsimp only
  split
  · exact queues_ite _ answered answered
  · exact answered

theorem homeWrite_queues (s : State) (key : Nat) (bs : List Byte) : (homeWrite s key bs).queues = s.queues := by
  refine (queues_foldl (fun s x => ?_) _ _).trans (putBytes_queues s key bs)
  exact (releaseWaiter_queues _ _ x).trans (putBytes_queues s _ _)

/-- An arrival changes the barrier, and answers who waits there (R265). -/
theorem barArrive_queues (s : State) (key : Nat) : (barArrive s key).1.queues = s.queues := by
  unfold barArrive
  dsimp only
  split
  · rfl
  · split
    · exact queues_foldl (fun s x => releaseWaiter_queues s _ x) _ _
    · split
      · exact queues_foldl (fun s x => modSlot_queues s _ _ _) _ _
      · rfl

/-! ## The scheduler's own accesses (R58, R164) -/

theorem unqueued_queues {α : Type} {f : State → State × α} (hf : ∀ s, (f s).1.queues = s.queues) (s : State) :
    (unqueued s f).1.queues = s.queues := hf { s with walks := [] }

theorem writeVirt_queues (s : State) (die ctx : Nat) (addr : Word) (bs : List Byte) :
    (writeVirt s die ctx addr bs).1.queues = s.queues := by
  have found := xlateNow_queues s die ctx addr bs.length 1 (moduleAccess true)
  unfold writeVirt
  split <;> rename_i hu <;> rw [hu] at found
  · exact (queues_foldl_fst (fun _ _ => homeWrite_queues _ _ _) _ _).trans found
  · exact found
  · exact found

/-- A write into a launch record changes no queue. -/
theorem writeRecord_queues (s : State) (ctx : Nat) (addr : Word) (bs : List Byte) :
    (writeRecord s ctx addr bs).queues = s.queues := by
  have wrote := unqueued_queues (fun s => writeVirt_queues s schedDie ctx addr bs) s
  unfold writeRecord
  split <;> rename_i hu <;> rw [hu] at wrote
  · exact wrote
  · exact (logFault_queues _ _ _ _ _ _ _ _ _).trans wrote

/-- Nor does what happens to a launch's DONE barrier. -/
theorem doneEvent_queues (s : State) (l : Launch) (flags retries code : Nat) (arrives : Bool) :
    (doneEvent s l flags retries code arrives).queues = s.queues := by
  have found := unqueued_queues (fun s => xlateNow_queues s schedDie l.ctx (recDone l.words) 16 16 arrivalAccess) s
  unfold doneEvent
  dsimp only
  split
  · rfl
  · split <;> rename_i hu <;> rw [hu] at found
    · rename_i u ps
      have met : (meetFlaws u (firstKey ps) 16).queues = s.queues := (meetFlaws_queues _ _ _).trans found
      split
      · exact (logFault_queues _ _ _ _ _ _ _ _ _).trans met
      · split
        · exact (barArrive_queues _ _).trans ((putBytes_queues _ _ _).trans met)
        · exact (putBytes_queues _ _ _).trans met
    · exact (logFault_queues _ _ _ _ _ _ _ _ _).trans found
    · exact found

theorem doneArrive_queues (s : State) (l : Launch) (flags retries code : Nat) :
    (doneArrive s l flags retries code).queues = s.queues := doneEvent_queues s l flags retries code true

end Sys2Proof.Machine
end

section
/-! PROOFS. The acceptance of launch records, the load of an image, the start of an instance without FEs, and the arrival of
one that has halted (O55). -/

namespace Sys2Proof.Machine

open Sys2Proof.Bits

/-! ## A record enters its queue (R164, R166, R277) -/

/-- The serial at which a context's next launch begins. -/
def nextSerial (s : State) (ctx : Nat) : Nat := freeSerial s ctx (((aget ctx s.contexts).map fun c => c.serial).getD 1)

/-- The SEQ of the next launch. -/
def nextSeq (s : State) : Nat := (s.launchSeq + 1) % 2 ^ 32

/-- A record as it enters its queue: nothing of it is loaded or placed. -/
def newLaunch (s : State) (ctx : Nat) (addr : Word) (die : Nat) (ws : List Word) (table : Option Nat) : Launch :=
  { addr, ctx, tenant := s.tenantOf ctx, cls := recCls ws, die, words := ws, seq := nextSeq s, inst0 := nextSerial s ctx
    loaded := false, next := 0, live := [], status := 0, retries := 0, lastFault := 0, faulted := false, refused := false
    table, defects0 := s.defects
    reserved0 := s.tenants.filterMap fun (x : Nat × Tenant) => x.2.reserved.map fun r => (x.1, r)
    info := ImageInfo.none }

section Acceptance

variable {s : State} {ctx die : Nat} {addr : Word} {ws : List Word} {table : Option Nat}

/-- A record for which its queue has room enters it under the next SEQ. -/
theorem queueRecord_queues (room : queueLength s die (recCls ws) < 16384) :
    (queueRecord s ctx addr die ws table).1.queues
      = { s.queues with launches := aset (s.fresh + 1) (newLaunch s ctx addr die ws table) s.launches
                        launchSeq := nextSeq s } := by
  refine (congrArg State.queues (if_neg ?_)).trans (writeRecord_queues _ _ _ _)
  exact Nat.not_le.mpr room

/-- A well-formed record is queued, and answered SEQ and INST0. -/
theorem acceptRecordWords_good (good : recordBad s (s.tenantOf ctx) ws = false) :
    acceptRecordWords s ctx addr die ws table none
      = ((queueRecord s ctx addr die ws table).1, BitVec.ofNat 64 (nextSeq s * 2 ^ 32 + nextSerial s ctx * 2 ^ 8)) := by
  simp only [acceptRecordWords, good]
  rfl

/-- A malformed record is answered 0x04 in bits 7:0 (R165). -/
theorem acceptRecordWords_bad (bad : recordBad s (s.tenantOf ctx) ws = true) :
    (acceptRecordWords s ctx addr die ws table none).2.setWidth 8 = (0x04 : BitVec 8) := by
  simp only [acceptRecordWords, bad, Bool.true_or, if_true]
  apply BitVec.eq_of_toNat_eq
  simp only [BitVec.toNat_setWidth, BitVec.toNat_ofNat]
  change _ = 4
  omega

end Acceptance

section Pushes

variable {s u : State} {n : Nat} {p : Push} {ws : List Word}

/-- A successor's push, once its record is read, is accepted at its die. -/
theorem exec_launchAccept_succ (hp : s.pushes[n]? = some p) (hf : p.from_ = .succ) (hpause : schedPaused s = false)
    (hw : readWaits s p = false)
    (hr : readRecord { s with pushes := removeAt n s.pushes } p.ctx p.addr p.sup = (u, .ok ws)) :
    exec (.launchAccept n) s = .next (acceptRecordWords u p.ctx p.addr p.die ws none none).1 := by
  simp only [exec_launchAccept, execLaunchAccept, hp, hpause, hw, Bool.or_self, Bool.false_eq_true, if_false, hf, acceptPush,
    hr]

/-- A LAUNCH whose block may bind is answered what its record's acceptance gives, the block bound first (R277). -/
theorem exec_launchAccept_ctl {i k : Nat} {b : Block} {addr : Word} {w : Bool} (hp : s.pushes[n]? = some p)
    (hf : p.from_ = .ctl i) (hb : s.blk? i = some b) (hq : b.req = some ⟨k, .launch addr, w⟩)
    (hpause : schedPaused s = false) (hw : readWaits s p = false) (hside : sideReady s i b k = true)
    (hr : readRecord s p.ctx addr p.sup = (u, .ok ws)) (hclear : ctlReleaseClear (bindBlock u i) i .system = true) :
    let v := { bindBlock u i with pushes := removeAt n (bindBlock u i).pushes }
    let accepted := acceptRecordWords v p.ctx addr p.die ws none none
    exec (.launchAccept n) s = .next (answer accepted.1 i k (some accepted.2)) := by
  have hblk : ((s.inst? i).bind fun x => x.ctl.blk) = some b := hb
  simp only [exec_launchAccept, execLaunchAccept, hp, hpause, hw, Bool.or_self, Bool.false_eq_true, if_false, hf, acceptCtl,
    hblk, hq, hside, Bool.not_true, hr, hclear, if_true]

/-- A LAUNCH of a well-formed record is answered SEQ in bits 63:32 and INST0 in bits 31:8. -/
theorem exec_launchAccept_ctl_good {i k : Nat} {b : Block} {addr : Word} {w : Bool} (hp : s.pushes[n]? = some p)
    (hf : p.from_ = .ctl i) (hb : s.blk? i = some b) (hq : b.req = some ⟨k, .launch addr, w⟩)
    (hpause : schedPaused s = false) (hw : readWaits s p = false) (hside : sideReady s i b k = true)
    (hr : readRecord s p.ctx addr p.sup = (u, .ok ws)) (hclear : ctlReleaseClear (bindBlock u i) i .system = true)
    (good : recordBad (bindBlock u i) ((bindBlock u i).tenantOf p.ctx) ws = false) :
    ∃ x, exec (.launchAccept n) s = .next (answer x i k
      (some (BitVec.ofNat 64 (nextSeq (bindBlock u i) * 2 ^ 32 + nextSerial (bindBlock u i) p.ctx * 2 ^ 8)))) := by
  rw [exec_launchAccept_ctl hp hf hb hq hpause hw hside hr hclear, acceptRecordWords_good (by exact good)]
  exact ⟨_, rfl⟩

end Pushes

/-! ## The load of an image (R360, R361) -/

theorem modLaunch_modLaunch (s : State) (l : Nat) (f g : Launch → Launch) :
    (s.modLaunch l f).modLaunch l g = s.modLaunch l fun x => g (f x) := by
  simp only [State.modLaunch, amod_amod]

/-- An image that loads is kept, and the record as relocated with it, when the record still passes its checks. -/
theorem exec_imageLoad_ok {s u : State} {l : Nat} {x : Launch} {ws : List Word} {info : ImageInfo}
    (hx : aget l s.launches = some x) (hpause : schedPaused s = false) (hl : x.loaded = false)
    (hwait : x.next < instances x.words) (h : loadImage s schedDie x.ctx x.tenant x.addr x.words = (u, ws, .ok info))
    (good : recordBad u x.tenant ws = false) : exec (.imageLoad l) s
      = .next (u.modLaunch l fun y => { y with words := ws, loaded := true, info := info }) := by
  have waits : x.waiting = true := decide_eq_true hwait
  have still : recordBad (u.modLaunch l fun y => { y with words := ws }) x.tenant ws = false := good
  simp only [exec_imageLoad, execImageLoad, hx, hpause, hl, waits, Bool.not_true, Bool.or_self, Bool.false_eq_true, if_false,
    h, still, modLaunch_modLaunch]

/-! ## An instance starts (R103, R166, R171) -/

theorem commandAll_insts (s : State) (ls : List Nat) (act : LeafAct) : (commandAll s ls act).insts = s.insts :=
  commandAll_keeps (fun _ _ _ => rfl) s ls act

theorem commandAll_launches (s : State) (ls : List Nat) (act : LeafAct) : (commandAll s ls act).launches = s.launches :=
  commandAll_keeps (fun _ _ _ => rfl) s ls act

theorem commandAll_contexts (s : State) (ls : List Nat) (act : LeafAct) : (commandAll s ls act).contexts = s.contexts :=
  commandAll_keeps (fun _ _ _ => rfl) s ls act

theorem commandAll_mem (s : State) (ls : List Nat) (act : LeafAct) : (commandAll s ls act).mem = s.mem :=
  commandAll_keeps (fun _ _ _ => rfl) s ls act

theorem commandAll_chans (s : State) (ls : List Nat) (act : LeafAct) : (commandAll s ls act).chans = s.chans :=
  commandAll_keeps (fun _ _ _ => rfl) s ls act

/-- A key under which something is listed is found. -/
theorem aget_isNone_of_mem {α : Type} {m : Assoc α} {x : Nat × α} (h : x ∈ m) : (aget x.1 m).isNone = false := by
  induction m with
  | nil => cases h
  | cons y m ih =>
    rw [aget]
    split
    · rfl
    · rename_i hy
      rcases List.mem_cons.mp h with rfl | h
      · exact absurd rfl hy
      · exact ih h

/-- The serials that are taken rest on the instances and the launches. -/
theorem freeSerial_congr {s t : State} (hi : t.insts = s.insts) (hl : t.launches = s.launches) (ctx from_ : Nat) :
    freeSerial t ctx from_ = freeSerial s ctx from_ := by
  simp only [freeSerial, usedSerials, hi, hl]

/-- An instance that starts in a place without FEs. -/
def plainInst (s : State) (k : Nat) (l : Launch) (q : Nat) (p : Spot) : Inst :=
  { serial := if q = 0 then l.inst0 else freeSerial s l.ctx (serialAt l.inst0 q), ctx := l.ctx, launch := k, pos := q
    wid := widAt l.words q, cluster := p.core, slot := p.slot, life := .running
    ctl := Ctl.fresh (recEntry l.words) (vecDefault s l.ctx), reg := none, faultEnd := none, discard := false
    regDone := false, saveFrom := 0, bytes := 0, placedAt := s.cycle, kept := [] }

/-- The state in which that instance has started. -/
def startPlain (s : State) (k : Nat) (l : Launch) (q : Nat) (p : Spot) : State :=
  let i := s.fresh + 1
  let n := plainInst s k l q p
  ((({ s with fresh := i, insts := aset i n s.insts }).modCore p.core fun c => { c with cache := [] }).note
    (.place (placeRec s i n.serial l.ctx l.cls p))).modLaunch k fun l => { l with next := q + 1, live := l.live ++ [i] }

section Start

variable {s : State} {k q : Nat} {l : Launch} {p : Spot}

/-- Without FEs and channels nothing of the place or the image has to be made ready. -/
theorem startInst_plain (hp : p.rect = none) (hc : l.info.chans = []) :
    startInst s k l q p = some (startPlain s k l q p) := by
  simp only [startInst, State.takeFresh, hp, sendSets, regionAt, hc, createChans]
  rfl

theorem startPlain_inst : (startPlain s k l q p).inst? (s.fresh + 1) = some (plainInst s k l q p) := aget_aset_self _ _ _

/-- The start is an acquire: the core's data cache is empty (R103). -/
theorem startPlain_cache : ((startPlain s k l q p).core p.core).cache = [] :=
  congrArg Core.cache (State.core_modCore_self { s with fresh := s.fresh + 1 } p.core fun c => { c with cache := [] })

theorem startPlain_launch {x : Launch} (hx : aget k s.launches = some x) : aget k (startPlain s k l q p).launches
    = some { x with next := q + 1, live := x.live ++ [s.fresh + 1] } := by
  refine (aget_amod_self k _ s.launches).trans ?_
  rw [hx]
  rfl

theorem startPlain_mem : (startPlain s k l q p).mem = s.mem := rfl

theorem startPlain_chans : (startPlain s k l q p).chans = s.chans := rfl

/-- No array is granted to an instance without FEs that brings no channel. -/
theorem grantsAsleep_plain {t : State} (hp : p.rect = none) (ht : t.chans = s.chans) : grantsAsleep s t [p] = false := by
  simp only [grantsAsleep, ht, List.any_cons, List.any_nil, hp, Option.map_none, Option.getD_none, Bool.or_false,
    Bool.false_or, List.any_eq_false]
  intro x hx
  simp [aget_isNone_of_mem hx]

/-- The scheduler has counted a unit of one in its tenant's turn and commanded its leaf. -/
def dispatched (s : State) (k : Nat) (l : Launch) (p : Spot) : State :=
  commandAll (serve s l.tenant l.die l.cls 1) [p.core] (.place k)

/-- A unit of one that is not its launch's first starts in the place found for it, when that has no FEs. -/
theorem placeUnit_plain (hnever : neverStatus s l = none)
    (hturn : turnOk s (boardOf s false fun _ => false) l.tenant l.die l.cls = true)
    (hfind : findUnit s (boardOf s false fun _ => false) (askOf l false) = some [p]) (hc : canCommand s [p.core] = true)
    (hp : p.rect = none) (hchans : l.info.chans = []) (hnext : 0 < l.next) :
    placeUnit s k l = startPlain (dispatched s k l p) k l l.next p := by
  have leaf : ([p].flatMap fun p => leavesAt p.core p.rect).dedup = [p.core] := by simp [hp, leavesAt]
  have awake : grantsAsleep s (startPlain (dispatched s k l p) k l l.next p) [p] = false :=
    grantsAsleep_plain hp (startPlain_chans.trans (commandAll_chans _ _ _))
  rw [dispatched] at awake ⊢
  simp only [placeUnit, hnever, hturn, hfind, leaf, hc, Bool.not_true, Bool.false_eq_true, if_false, hnext.ne',
    List.length_singleton, startUnit, startInst_plain hp hchans, awake]

/-- What starts there, and what that leaves alone. -/
theorem startPlain_dispatched (hx : aget k s.launches = some l) (hnext : 0 < l.next) :
    let t := startPlain (dispatched s k l p) k l l.next p
    let i := (dispatched s k l p).fresh + 1
    ∃ n, t.inst? i = some n ∧ n.life = .running ∧ n.ctx = l.ctx ∧ n.launch = k
      ∧ n.serial = freeSerial s l.ctx (serialAt l.inst0 l.next) ∧ n.wid = widAt l.words l.next ∧ n.cluster = p.core
      ∧ n.slot = p.slot ∧ n.ctl = Ctl.fresh (recEntry l.words) (vecDefault s l.ctx) ∧ n.reg = none
      ∧ (t.core p.core).cache = [] ∧ aget k t.launches = some { l with next := l.next + 1, live := l.live ++ [i] }
      ∧ t.mem = s.mem := by
  have insts : (dispatched s k l p).insts = s.insts := commandAll_insts _ _ _
  have launches : (dispatched s k l p).launches = s.launches := commandAll_launches _ _ _
  have contexts : (dispatched s k l p).contexts = s.contexts := commandAll_contexts _ _ _
  refine ⟨_, startPlain_inst, rfl, rfl, rfl, ?_, rfl, rfl, rfl, ?_, rfl, startPlain_cache, startPlain_launch (launches ▸ hx),
    startPlain_mem.trans (commandAll_mem _ _ _)⟩
  · exact (if_neg hnext.ne').trans (freeSerial_congr insts launches _ _)
  · simp only [plainInst, vecDefault, contexts]

/-- A launch at the head of its queue is placed. -/
theorem exec_instancePlace_head (hx : aget k s.launches = some l) (hloaded : l.loaded = true)
    (hwait : l.next < instances l.words) (hhead : headLaunch s l.tenant l.cls = some k)
    (hsaved : savedOf s l.tenant l.cls = []) (hpause : schedPaused s = false) (hresets : s.resets = []) :
    exec (.instancePlace k) s = .next (placeUnit s k l) := by
  have waits : l.waiting = true := decide_eq_true hwait
  simp [exec_instancePlace, execInstancePlace, hx, hloaded, waits, hhead, hsaved, hpause, queueStopped, hresets]

end Start

/-! ## An instance arrives at DONE and is gone (R58, R103, R172) -/

/-- Where keys are listed once, a key that is deleted is not listed. -/
theorem aget_adel_self {α : Type} {k : Nat} {m : Assoc α} (h : (m.map fun x => x.1).Nodup) : aget k (adel k m) = none := by
  induction m with
  | nil => rfl
  | cons x m ih =>
    obtain ⟨hx, hm⟩ := List.nodup_cons.mp h
    rw [adel]
    split
    · rename_i hk
      refine Option.eq_none_iff_forall_ne_some.mpr fun a ha => hx ?_
      exact List.mem_map.mpr ⟨_, mem_of_aget ha, hk.symm⟩
    · rename_i hk
      rw [aget, if_neg hk]
      exact ih hm

/-- An FE that is given back. -/
def Fe.released (f : Fe) : Fe :=
  { f with slots := List.replicate 8 [], run := none, ring := [], qa := [], qb := [], qc := [], si := [], snaps := []
           live := false, stoch := false, parkedFor := none, claimedAt := none }

theorem releaseFes_cons (s : State) (c : Nat) (cs : List Nat) :
    releaseFes s (c :: cs) = releaseFes (s.modFe c Fe.released) cs := rfl

theorem releaseFes_eq (s : State) (cells : List Nat) : ∃ fes, releaseFes s cells = { s with fes } := by
  induction cells generalizing s with
  | nil => exact ⟨s.fes, rfl⟩
  | cons c cells ih => exact ih (s.modFe c Fe.released)

theorem releaseFes_fe_of_notMem (s : State) {cells : List Nat} {x : Nat} (h : x ∉ cells) :
    (releaseFes s cells).fe x = s.fe x := by
  induction cells generalizing s with
  | nil => rfl
  | cons c cells ih =>
    obtain ⟨hc, hcells⟩ := List.ne_and_not_mem_of_not_mem_cons h
    rw [releaseFes_cons, ih _ hcells]
    exact congrArg (fun o => o.getD Fe.fresh) (aget_aset_ne c x _ s.fes hc)

/-- Each FE that is given back is released. -/
theorem releaseFes_fe_of_mem (s : State) {cells : List Nat} {x : Nat} (h : x ∈ cells) :
    ∃ f, (releaseFes s cells).fe x = Fe.released f := by
  induction cells generalizing s with
  | nil => cases h
  | cons c cells ih =>
    rw [releaseFes_cons]
    by_cases hx : x ∈ cells
    · exact ih _ hx
    · obtain rfl : x = c := (List.mem_cons.mp h).resolve_right hx
      exact ⟨s.fe x, (releaseFes_fe_of_notMem _ hx).trans (State.fe_modFe_self s x _)⟩

theorem endBorrow_eq (s : State) (n : Inst) : ∃ tenants, endBorrow s n = { s with tenants } := by
  unfold endBorrow
  split
  · exact ⟨s.tenants, rfl⟩
  · exact ⟨_, rfl⟩

/-- The FEs that an instance holds or has parked rest on the table of FEs. -/
theorem fesOf_congr {s t : State} (h : t.fes = s.fes) (i : Nat) (n : Inst) : fesOf t i n = fesOf s i n := by
  simp only [fesOf, h]

section Remove

variable (s : State) (i : Nat) (n : Inst)

/-- What is gone with an instance: its entry, its FEs, its borrowed time and its reports. -/
theorem removeInst_eq : ∃ tenants fes reports detect,
    removeInst s i n = { s with tenants, fes, reports, detect, insts := adel i s.insts } := by
  have borrowed : ∃ tenants, (if n.life = .saved then s else endBorrow s n) = { s with tenants } := by
    split
    · exact ⟨s.tenants, rfl⟩
    · exact endBorrow_eq s n
  obtain ⟨tenants, hb⟩ := borrowed
  rw [removeInst, hb]
  obtain ⟨fes, hf⟩ := releaseFes_eq { s with tenants } (fesOf { s with tenants } i n)
  exact ⟨tenants, fes, _, _, by rw [hf]⟩

theorem removeInst_insts : (removeInst s i n).insts = adel i s.insts := by
  obtain ⟨_, _, _, _, h⟩ := removeInst_eq s i n
  rw [h]

theorem removeInst_launches : (removeInst s i n).launches = s.launches := by
  obtain ⟨_, _, _, _, h⟩ := removeInst_eq s i n
  rw [h]

theorem removeInst_mem : (removeInst s i n).mem = s.mem := by
  obtain ⟨_, _, _, _, h⟩ := removeInst_eq s i n
  rw [h]

theorem removeInst_fe {x : Nat} (hx : x ∈ fesOf s i n) : ∃ f, (removeInst s i n).fe x = Fe.released f := by
  have fes : (if n.life = .saved then s else endBorrow s n).fes = s.fes := by
    obtain ⟨_, h⟩ := endBorrow_eq s n
    split
    · rfl
    · rw [h]
  exact releaseFes_fe_of_mem _ (fesOf_congr fes i n ▸ hx)

end Remove

/-- A launch with live instances is not finished. -/
theorem checkFinished_of_live {s : State} {k : Nat} {l : Launch} (die : Nat) (hl : aget k s.launches = some l)
    (hlive : l.live ≠ []) : checkFinished s k die = s := by
  have live : l.live.isEmpty = false := List.isEmpty_eq_false_iff.mpr hlive
  simp [checkFinished, hl, live]

/-- A change of a table at a key rests on what stands there. -/
theorem amod_congr_of_aget {α : Type} {k : Nat} {a : α} {m : Assoc α} {f g : α → α} (h : aget k m = some a)
    (hfg : f a = g a) : amod k f m = amod k g m := by
  induction m with
  | nil => rfl
  | cons x m ih =>
    rw [aget] at h
    rw [amod, amod]
    split at h
    · rename_i hk
      cases h
      rw [if_pos hk, if_pos hk, hfg]
    · rename_i hk
      rw [if_neg hk, if_neg hk, ih h]

theorem modLaunch_congr {s : State} {k : Nat} {l : Launch} {f g : Launch → Launch} (hl : aget k s.launches = some l)
    (hfg : f l = g l) : s.modLaunch k f = s.modLaunch k g := by
  rw [State.modLaunch, State.modLaunch, amod_congr_of_aget hl hfg]

/-- An instance without a fault has arrived at its launch's DONE. -/
def atDone (s : State) (n : Inst) (l : Launch) : State :=
  doneArrive s l (instFlags n) ((n.reg.map fun r => r.retries).getD 0) 0

theorem atDone_queues (s : State) (n : Inst) (l : Launch) : (atDone s n l).queues = s.queues := doneArrive_queues _ _ _ _ _

/-- It stands no longer among its launch's live instances. -/
def arrivedAt (s : State) (i : Nat) (n : Inst) (l : Launch) : State :=
  (atDone s n l).modLaunch n.launch fun x => { x with live := x.live.filter fun j => j != i }

section Arrival

variable {s : State} {i : Nat} {n : Inst} {l : Launch}

theorem atDone_launch (hl : aget n.launch s.launches = some l) : aget n.launch (atDone s n l).launches = some l := by
  rw [launches_of_queues (atDone_queues s n l), hl]

theorem arrivedAt_launch (hl : aget n.launch s.launches = some l) :
    aget n.launch (arrivedAt s i n l).launches = some { l with live := l.live.filter fun j => j != i } := by
  refine (aget_amod_self n.launch _ (atDone s n l).launches).trans ?_
  rw [atDone_launch hl]
  rfl

/-- One of several live instances arrives and is removed. -/
theorem arriveInst_others (hn : s.inst? i = some n) (hl : aget n.launch s.launches = some l) (hfault : n.faultEnd = none)
    (honce : recOnce l.words = false) (hlive : ∃ j ∈ l.live, j ≠ i) :
    arriveInst s i = removeInst (arrivedAt s i n l) i n := by
  have others : (l.live.filter fun j => j != i) ≠ [] := by
    obtain ⟨j, hj, hji⟩ := hlive
    exact List.ne_nil_of_mem (List.mem_filter.mpr ⟨hj, by simpa using hji⟩)
  have unfinished : checkFinished (removeInst (arrivedAt s i n l) i n) n.launch (dieOfCore n.cluster)
      = removeInst (arrivedAt s i n l) i n :=
    checkFinished_of_live _ (by rw [removeInst_launches, arrivedAt_launch hl]) others
  have merged : arrivedAt s i n l = (atDone s n l).modLaunch n.launch fun x =>
      { (if recOnce x.words then x.merge (instFlags n) ((n.reg.map fun r => r.retries).getD 0) 0 else x) with
        live := x.live.filter fun j => j != i, faulted := x.faulted || false } :=
    modLaunch_congr (atDone_launch hl) (by simp [honce])
  rw [← unfinished, merged]
  simp [arriveInst, hn, hl, hfault, honce, atDone]

/-- What has halted or ended arrives once its outbound sets are empty and no reset runs (R103, R116). -/
theorem exec_doneArrival_over (hn : s.inst? i = some n) (hover : n.over = true) (hout : outboundEmpty s i = true)
    (hresets : s.resets = []) : exec (.doneArrival i) s = .next (arriveInst s i) := by
  simp [exec_doneArrival, execDoneArrival, hn, hover, hout, hresets]

/-- What the arrival of one of several live instances leaves: the fifth part of O55. -/
theorem doneArrival_arrives (hn : s.inst? i = some n) (hover : n.over = true) (hout : outboundEmpty s i = true)
    (hresets : s.resets = []) (hrising : Assoc.rising none s.insts = true) (hl : aget n.launch s.launches = some l)
    (hfault : n.faultEnd = none) (honce : recOnce l.words = false) (hlive : ∃ j ∈ l.live, j ≠ i) :
    ∃ t, exec (.doneArrival i) s = .next t ∧ t.inst? i = none ∧ t.mem = (atDone s n l).mem
      ∧ aget n.launch t.launches = some { l with live := l.live.filter fun j => j != i }
      ∧ ∀ x ∈ fesOf s i n, (t.fe x).slots = List.replicate 8 [] ∧ (t.fe x).run = none ∧ (t.fe x).live = false := by
  have once : ((arrivedAt s i n l).insts.map fun x => x.1).Nodup :=
    (keys_of_queues (atDone_queues s n l)).symm ▸ rising_keys_nodup hrising
  refine ⟨removeInst (arrivedAt s i n l) i n, ?_, ?_, removeInst_mem _ i n, ?_, fun x hx => ?_⟩
  · rw [exec_doneArrival_over hn hover hout hresets, arriveInst_others hn hl hfault honce hlive]
  · rw [State.inst?, removeInst_insts, aget_adel_self once]
  · rw [removeInst_launches, arrivedAt_launch hl]
  · rw [← fesOf_congr (fes_of_queues (atDone_queues s n l))] at hx
    obtain ⟨f, hf⟩ := removeInst_fe (arrivedAt s i n l) i n hx
    rw [hf]
    exact ⟨rfl, rfl, rfl⟩

end Arrival

/-! ## O55 -/

/-- Settles O55: a record is queued or refused by its checks, a loaded launch starts an instance at its place, and one that has
halted arrives and is removed. -/
theorem launchSteps : Obligations.LaunchSteps := by
  unfold Obligations.LaunchSteps
  refine ⟨fun s u n p ws hp hf hpause hw hr good room => ?_,
    fun s u n i k p b addr w ws hp hf hb hq hpause hw hside hr hclear => ?_,
    fun s u l x ws info hx hpause hl hwait h good => exec_imageLoad_ok hx hpause hl hwait h good,
    fun s l x p hx hl hwait hhead hsaved hpause hresets hnever hturn hfind hc hp hchans hnext => ?_,
    fun s i n l hn hover hout hresets hrising hl hfault honce hlive =>
      doneArrival_arrives hn hover hout hresets hrising hl hfault honce hlive⟩
  · have queued := queueRecord_queues (s := u) (ctx := p.ctx) (addr := p.addr) (table := none) room
    have launches := congrArg Queues.launches queued
    have seq : (queueRecord u p.ctx p.addr p.die ws none).1.launchSeq = nextSeq u := congrArg Queues.launchSeq queued
    refine ⟨_, (exec_launchAccept_succ hp hf hpause hw hr).trans (by rw [acceptRecordWords_good good]), seq, u.fresh + 1,
      newLaunch u p.ctx p.addr p.die ws none, ?_, rfl, rfl, rfl, rfl, rfl, seq.symm, rfl, rfl, rfl, rfl⟩
    exact (congrArg (aget (u.fresh + 1)) launches).trans (aget_aset_self _ _ _)
  · exact ⟨exec_launchAccept_ctl_good hp hf hb hq hpause hw hside hr hclear,
      fun bad => ⟨_, _, exec_launchAccept_ctl hp hf hb hq hpause hw hside hr hclear, acceptRecordWords_bad bad⟩⟩
  · have start := exec_instancePlace_head hx hl hwait hhead hsaved hpause hresets
    rw [placeUnit_plain hnever hturn hfind hc hp hchans hnext] at start
    obtain ⟨n, hn⟩ := startPlain_dispatched (p := p) hx hnext
    exact ⟨_, _, n, start, hn⟩

end Sys2Proof.Machine
end

section
/-! PROOFS. What the channel instructions put to the controller, whom it answers by what handle, and the reports and the detector
of blocked instances (O32, O35). -/

namespace Sys2Proof.Machine

open Sys2Proof.Bits Sys2Proof.Rows

/-! ## Handles (R60, R71) -/

/-- The channel that an operation is let at stands in the table under its key. -/
theorem aget_of_chanQuery {s : State} {ctx key : Nat} {me : Endpoint} {h : Word} {w : Bool} {c : Chan}
    (hq : chanQuery s ctx me h w = .ok (key, c)) : aget key s.chans = some c := by
  have found : chanOf s ctx h = some (key, c) := by
    unfold chanQuery at hq
    split at hq
    · cases hq
    · rename_i k d hc
      by_cases he : endpointOk (if w then d.writer else d.reader) me
      · rw [if_pos he] at hq
        cases hq
        exact hc
      · rw [if_neg he] at hq
        cases hq
  unfold chanOf at found
  split at found
  · cases found
  · split at found
    · rename_i hc
      split at found
      · cases found
        exact hc
      · cases found
    · cases found

/-- A handle that names no channel refuses a writer with CH_WRITER and a reader with CH_READER. -/
theorem chanQuery_of_stale {s : State} {ctx : Nat} {h : Word} (hc : chanOf s ctx h = none) (me : Endpoint) (w : Bool) :
    chanQuery s ctx me h w = .error (if w then codeChWriter else codeChReader) := by
  rw [chanQuery, hc]

/-! ## The instructions fire (R256 to R259) -/

section Fire

variable {f : EOp} {s : State} {fr : Firing}

/-- A CHSEND on a channel of 8-byte tokens asks with the low 8 bytes of R. -/
theorem exec_chsend_register {key : Nat} {c : Chan} (h : firing (.chsend f) s = some fr) (hreq : fr.b.req = none)
    (hq : chanQuery s fr.n.ctx (.ctl fr.i) fr.l true = .ok (key, c)) (hw : c.width = 8) :
    exec (.chsend f) s = .next (fr.ask s (.chan .send fr.l (leBytes 8 fr.r.toNat) [])) := by
  rw [exec_chsend, execChsend, fireOp_of_firing _ rfl rfl h]
  simp only [hq, hw, if_true, putRequest_eq_ask s _ hreq]

/-- A CHSEND by a stale handle. -/
theorem exec_chsend_stale (h : firing (.chsend f) s = some fr) (hc : chanOf s fr.n.ctx fr.l = none) :
    exec (.chsend f) s = .next (raise s fr.i codeChWriter fr.k 0) := by
  rw [exec_chsend, execChsend, fireOp_of_firing _ rfl rfl h]
  simp only [chanQuery_of_stale hc, Firing.fault, if_true]

/-- CHRECV and CHTRY without a destination ask at once: the register path makes no width query. -/
theorem receiveOp_register {x : Instr} {opc : Nat} (op : ChanOp) (hx : x.slotFields = some (opc, .e f))
    (ha : translatesAhead opc = false) (h : firing x s = some fr) (hreq : fr.b.req = none) (hr : fr.rec_.r = none) :
    receiveOp opc op f s = .next (fr.ask s (.chan op fr.l [] [])) := by
  rw [receiveOp, fireOp_of_firing _ hx ha h]
  simp only [hr, Option.isNone_none, if_true, putRequest_eq_ask s _ hreq]

theorem exec_chclose_asks (h : firing (.chclose f) s = some fr) (hreq : fr.b.req = none) :
    exec (.chclose f) s = .next (fr.ask s (.chan .close fr.l [] [])) := by
  rw [exec_chclose, execChclose, fireOp_of_firing _ rfl rfl h, putRequest_eq_ask s _ hreq]

/-- CHLEN by an endpoint delivers the tokens of head, ring and tail that are not taken. -/
theorem exec_chlen_endpoint {key : Nat} {c : Chan} (h : firing (.chlen f) s = some fr)
    (hc : chanOf s fr.n.ctx fr.l = some (key, c)) (he : c.writer = .ctl fr.i ∨ c.reader = .ctl fr.i) :
    exec (.chlen f) s = .next (fr.done s [f.t1]
      (BitVec.ofNat 64 ((c.head.filter fun t => !t.taken).length + c.queued))) := by
  have endpoint : (c.writer == .ctl fr.i || c.reader == .ctl fr.i) = true := by simpa using he
  rw [exec_chlen, execChlen, fireOp_of_firing _ rfl rfl h]
  simp only [hc, endpoint, if_true]

/-- A CHLEN by a stale handle. -/
theorem exec_chlen_stale (h : firing (.chlen f) s = some fr) (hc : chanOf s fr.n.ctx fr.l = none) :
    exec (.chlen f) s = .next (raise s fr.i codeChReader fr.k 0) := by
  rw [exec_chlen, execChlen, fireOp_of_firing _ rfl rfl h]
  simp only [hc, Firing.fault]

end Fire

/-- Settles O32: each instruction asks as its rule says, CHLEN counts, and a stale handle raises the code of its end. -/
theorem channelOpcodesFire : Obligations.ChannelOpcodesFire := by
  unfold Obligations.ChannelOpcodesFire
  constructor
  · intro f s fr hreq
    refine ⟨fun key c h hq hw => exec_chsend_register h hreq hq hw,
      fun h hr => receiveOp_register (x := .chrecv f) .recv rfl rfl h hreq hr,
      fun h hr => receiveOp_register (x := .chtry f) .tryRecv rfl rfl h hreq hr,
      fun h => exec_chclose_asks h hreq, fun key c h hc he => ?_⟩
    rw [exec_chlen_endpoint h hc he, Chan.queued, List.countP_eq_length_filter, List.countP_eq_length_filter, Nat.add_assoc]
  · exact fun f s fr hc => ⟨fun h => exec_chsend_stale h hc, fun h => exec_chlen_stale h hc⟩

/-! ## Blocked instances (R77, R78) -/

/-- The reports that still hold, and the one of `i` that the detector is run for used up (R77). -/
def detecting (s : State) (i : Nat) : State :=
  { s with reports := s.reports.filter (fun j => !(waitsOf s j).isEmpty), detect := s.detect.erase i }

/-- The reports of instances that are there and wait. -/
def reportsRenewed (s : State) : State :=
  { s with reports := s.reports.filter fun j => (s.inst? j).isSome && !(waitsOf s j).isEmpty }

/-- An instance blocked for 50 µs is reported, its report the newest. -/
theorem exec_blockedReport_due {s : State} {i t₀ : Nat} (hb : blockedSince s i = some t₀) (ht : t₀ + 80000 ≤ s.cycle) :
    exec (.blockedReport i) s = .next { s with reports := s.reports.filter (fun j => j != i) ++ [i],
                                               detect := s.detect.filter (fun j => j != i) ++ [i] } := by
  have due : decide (t₀ + 50 * cyclesPerUs ≤ s.cycle) = true := decide_eq_true ht
  rw [exec_blockedReport, execBlockedReport, hb]
  simp only [when_, due, if_true]

/-- The detector acts on the cycle that it finds, if it finds one. -/
theorem exec_deadlockDetector_reported {s : State} {i : Nat} {o : Option (List Hop)} (hi : i ∈ s.detect)
    (ho : findCycle (detecting s i) i = o) :
    exec (.deadlockDetector i) s = .next (reportsRenewed (o.elim (detecting s i) (breakCycle (detecting s i)))) := by
  have reported : s.detect.contains i = true := List.contains_iff_mem.mpr hi
  rw [exec_deadlockDetector, execDeadlockDetector, if_pos reported]
  change Host.Outcome.next (reportsRenewed (match findCycle (detecting s i) i with
    | some cy => breakCycle (detecting s i) cy
    | none => detecting s i)) = _
  rw [ho]
  cases o <;> rfl

/-- A cycle over one channel, whose ring is full and may double, starts that ring's growth. -/
theorem breakCycle_grows {s : State} {i key : Nat} {c : Chan} (hc : aget key s.chans = some c) (hf : c.rfull = true)
    (hg : 2 * c.ringpg ≤ c.ringmax) : breakCycle s [⟨i, [key]⟩] = s.modChan key fun c => { c with grow := true } := by
  have room : ¬ c.ringmax < 2 * c.ringpg := Nat.not_lt.mpr hg
  simp [breakCycle, hc, hf, room]

/-- Settles O35: the report, the detector without a cycle, and its growth of a full ring. -/
theorem blockedReportAndDetector : Obligations.BlockedReportAndDetector := by
  unfold Obligations.BlockedReportAndDetector
  refine fun s i t₀ key c => ⟨exec_blockedReport_due, fun hi => ⟨fun hnone => ?_, fun hcycle hc hf hg => ?_⟩⟩
  · exact ⟨reportsRenewed (detecting s i), exec_deadlockDetector_reported hi hnone, rfl, rfl, rfl, rfl⟩
  · refine ⟨reportsRenewed ((detecting s i).modChan key fun c => { c with grow := true }), ?_, rfl, rfl, rfl, ?_⟩
    · rw [exec_deadlockDetector_reported hi hcycle, Option.elim_some, breakCycle_grows (s := detecting s i) hc hf hg]
    · exact (aget_amod_self key _ s.chans).trans (congrArg _ hc)

end Sys2Proof.Machine
end

section
/-! PROOFS. A channel at rest, what a spill, a refill, a growth copy and a destruction of it leave where nothing is poisoned
(O34). -/

namespace Sys2Proof.Machine

open Sys2Proof.Bits Sys2Proof.Rows

/-! ## Bytes written at one piece -/

/-- Bytes written over one piece of their length. -/
theorem scatter_one (s : State) {p : Piece} {bs : List Byte} (h : bs.length = p.n) :
    s.scatter [p] bs = s.putBytes p.key bs := by
  rw [State.scatter, List.take_of_length_le h.le]
  rfl

/-- A state whose memory is another's with bytes written reads them there, and elsewhere what the other reads. -/
theorem bytes_of_writeN {s t : State} {key : Nat} {bs : List Byte} (hwf : s.mem.wf = true)
    (ht : t.mem = s.mem.writeN key bs) : t.bytes key bs.length = bs ∧ SameMemBut s t key bs.length := by
  refine ⟨?_, fun a ha => ?_⟩
  · rw [State.bytes, ht]
    exact Memory.readN_writeN s.mem key bs hwf
  · rw [ht]
    exact Memory.read_writeN_outside s.mem key a bs ha

/-- Where no stored error waits, pieces that are read meet none. -/
theorem meetPieces_of_no_flaws {s : State} (h : s.flaws = []) (ps : List Piece) : s.meetPieces ps = s := by
  unfold State.meetPieces
  induction ps with
  | nil => rfl
  | cons p ps ih => rw [List.foldl_cons, meetFlaws_of_no_flaws h, ih]

/-- Where no stored error waits, the read of a buffer's rows finds the poison that stands there. -/
theorem bufferBad_of_no_flaws {s : State} (h : s.flaws = []) (ps : List Piece) :
    bufferBad s ps = (s, s.poisonedPieces ps) := by
  rw [bufferBad, meetPieces_of_no_flaws h]

theorem poisonedPieces_of_no_poison {s : State} (h : s.poison = []) (ps : List Piece) : s.poisonedPieces ps = false := by
  simp [State.poisonedPieces, poisonedIn, h]

/-! ## The channel table -/

theorem aget_modChan_self (s : State) (k : Nat) (f : Chan → Chan) :
    aget k (s.modChan k f).chans = (aget k s.chans).map f := aget_amod_self k f s.chans

theorem modChan_modChan (s : State) (k : Nat) (f g : Chan → Chan) :
    (s.modChan k f).modChan k g = s.modChan k fun c => g (f c) := by
  simp only [State.modChan, amod_amod]

/-! ## A channel at rest (R67, R70, R73, R74) -/

/-- The end check may end a channel, and changes nothing else of it. -/
theorem endCheck_eq (c : Chan) : c.endCheck = { c with state := c.endCheck.state } := by
  unfold Chan.endCheck
  split <;> rfl

/-- What coming to rest may change: the offsets of an empty ring, RFULL and the state. -/
theorem rested_eq (c : Chan) : ∃ rdoff wroff rfull state, c.rested = { c with rdoff, wroff, rfull, state } := by
  unfold Chan.rested
  dsimp only
  rw [endCheck_eq]
  split <;> split <;> exact ⟨_, _, _, _, rfl⟩

/-- No move of R67 without a ring access is left: behind an empty ring the tail holds nothing, and no committed token waits to
enter. -/
def Chan.still (c : Chan) : Prop := (c.ring = [] → c.tail = []) ∧ c.late = []

theorem pullOne_of_still (s : State) (k : Nat) {c : Chan} (h : c.still) : pullOne s k c = none := by
  unfold pullOne
  split
  · rfl
  · rename_i ht
    have ring : c.ring.isEmpty = false := List.isEmpty_eq_false_iff.mpr fun hr => by simp [h.1 hr] at ht
    simp [ring]

theorem enterOne_of_still (s : State) (k : Nat) {c : Chan} (h : c.still) : enterOne s k c = none := by
  rw [enterOne, h.2]

/-- A channel that is still settles where it stands. -/
theorem settleChan_of_still {s : State} {k : Nat} {c : Chan} (hc : aget k s.chans = some c) (h : c.still) :
    settleChan s k = s.modChan k Chan.rested := by
  have steps (fuel : Nat) : settleSteps k (fuel + 1) s = s := by
    simp only [settleSteps, hc, pullOne_of_still s k h, enterOne_of_still s k h]
  simp only [settleChan, hc, steps]

/-- A channel that is replaced by one that is still comes to rest there. -/
theorem settleChan_modChan_of_still {s : State} {k : Nat} {c : Chan} {f : Chan → Chan} (hc : aget k s.chans = some c)
    (h : (f c).still) : settleChan (s.modChan k f) k = s.modChan k fun c => (f c).rested := by
  have placed : aget k (s.modChan k f).chans = some (f c) := by rw [aget_modChan_self, hc, Option.map_some]
  rw [settleChan_of_still placed h, modChan_modChan]

/-! ## Spill (R67, R70, R75) -/

/-- What a spill makes of the channel: its entry stands last in the ring. -/
theorem spillOne_moves {c c' : Chan} {off : Nat} {e : Ent} (h : c.spillOne = some (off, e, c')) :
    ∃ ring, c'.ring = ring ++ [e] ∧ c'.late = c.late := by
  unfold Chan.spillOne at h
  split at h
  · cases h
  · split at h
    · cases h
    · cases h
      exact ⟨_, rfl, rfl⟩

section Segments

variable {s : State} {key : Nat} {c : Chan} {e : Ent} {p : Piece}

/-- A spill that translates to one piece, where nothing is poisoned, stores its entry there; the channel comes to rest, not
stalled. -/
theorem spill_performs {off : Nat} {c' : Chan} (hc : aget key s.chans = some c) (hlate : c.late = []) (hflaws : s.flaws = [])
    (hpoison : s.poison = []) (hs : c.spillOne = some (off, e, c')) (hlen : (entBytes e).length = p.n)
    (hx : xlateNow s (key / 4096) c.ctx (c.rbase + BitVec.ofNat 64 off) e.size 8 (chanAccess true) = (s, .ok [p])) :
    spill s key c = (s.putBytes p.key (entBytes e)).modChan key fun _ => Chan.rested { c' with stall := false } := by
  obtain ⟨ring, hring, hl⟩ := spillOne_moves hs
  have moved : ({ c' with stall := false, ring := c'.ring.dropLast ++ [e] } : Chan) = { c' with stall := false } := by
    rw [hring, List.dropLast_concat, ← hring]
  have still : ({ c' with stall := false } : Chan).still := ⟨fun hr => by simp [hring] at hr, hl.trans hlate⟩
  have settled := settleChan_modChan_of_still (s := s.putBytes p.key (entBytes e)) (f := fun _ => { c' with stall := false })
    hc still
  simp only [spill, hs, hx, bufferBad_of_no_flaws hflaws, poisonedPieces_of_no_poison hpoison, Bool.false_eq_true, if_false,
    scatter_one s hlen, moved, settled]

/-- A spill step performs when a send waits for room and nothing holds the channel up. -/
theorem exec_channelSpill_performs (hc : aget key s.chans = some c) (hv : c.valid = true) (hs : c.stall = false)
    (hg : c.grow = false) (hw : sendWaits s key c = true) : exec (.channelSpill key) s = .next (spill s key c) := by
  simp [exec_channelSpill, execChannelSpill, hc, hv, hs, hg, hw]

/-- A retry of a stalled spill alone. -/
theorem exec_spillRetry_spill (hc : aget key s.chans = some c) (hv : c.valid = true) (hs : c.stall = true)
    (hr : c.stallRead = false) (hg : c.grow = false) : exec (.spillRetry key) s = .next (spill s key c) := by
  simp [exec_spillRetry, execSpillRetry, hc, hv, hs, hr, hg]

/-- What a spill that performs leaves. -/
theorem spill_leaves {off : Nat} {c' : Chan} (hwf : s.mem.wf = true) (hc : aget key s.chans = some c) (hlate : c.late = [])
    (hflaws : s.flaws = []) (hpoison : s.poison = []) (hs : c.spillOne = some (off, e, c')) (hlen : (entBytes e).length = p.n)
    (hx : xlateNow s (key / 4096) c.ctx (c.rbase + BitVec.ofNat 64 off) e.size 8 (chanAccess true) = (s, .ok [p])) :
    (spill s key c).bytes p.key p.n = entBytes e ∧ SameMemBut s (spill s key c) p.key p.n ∧ (spill s key c).insts = s.insts
      ∧ aget key (spill s key c).chans = some (Chan.rested { c' with stall := false }) := by
  rw [spill_performs hc hlate hflaws hpoison hs hlen hx, ← hlen]
  obtain ⟨stored, others⟩ := bytes_of_writeN (t := (s.putBytes p.key (entBytes e)).modChan key _) hwf rfl
  exact ⟨stored, others, rfl, (aget_modChan_self _ key _).trans (congrArg _ hc)⟩

/-! ## Refill (R67, R70) -/

/-- The channel whose ring has lost its oldest entry `e`, `rest` behind it. -/
def Chan.unqueued (c : Chan) (e : Ent) (rest : List Ent) : Chan :=
  { c with ring := rest, rdoff := c.wrap (c.rdoff + e.size), stallRead := false }

/-- The channel with a token in the next slot of its head's buffer. -/
def Chan.headed (c : Chan) (data : List Byte) : Chan := { c with head := c.head ++ [⟨data, false, false, c.nextSlot⟩] }

/-- A token that is not lost put into the head of a channel that has just been replaced. -/
theorem pushHead_replaced (s : State) (k : Nat) (c : Chan) (data : List Byte) :
    pushHead (s.modChan k fun _ => c) k c data false
      = (s.putBytes (c.headKey (c.nextSlot * c.width)) data).modChan k fun _ => c.headed data :=
  modChan_modChan (s.putBytes (c.headKey (c.nextSlot * c.width)) data) k (fun _ => c) _

/-- A refill that translates to one piece, where nothing is poisoned, puts its token in the next slot of the head's buffer. -/
theorem refill_performs {rest : List Ent} (hc : aget key s.chans = some c) (hlate : c.late = []) (hflaws : s.flaws = [])
    (hpoison : s.poison = []) (hring : c.ring = e :: rest) (hpad : e.pad = false) (hlost : e.lost = false) (htail : c.tail = [])
    (hx : xlateNow s (key / 4096) c.ctx (c.rbase + BitVec.ofNat 64 c.rdoff) e.size 8 (chanAccess false) = (s, .ok [p])) :
    refill s key c = (s.putBytes (c.headKey (c.nextSlot * c.width)) e.data).modChan key
      fun _ => ((c.unqueued e rest).headed e.data).rested := by
  have moved : refill s key c = settleChan (pushHead (s.modChan key fun _ => c.unqueued e rest) key (c.unqueued e rest)
      e.data false) key := by
    simp [refill, hring, hpad, hx, bufferBad_of_no_flaws hflaws, poisonedPieces_of_no_poison hpoison, hlost, Chan.unqueued]
  rw [moved, pushHead_replaced]
  exact settleChan_modChan_of_still (f := fun _ => (c.unqueued e rest).headed e.data) hc ⟨fun _ => htail, hlate⟩

/-- A refill step performs while the head has room. -/
theorem exec_channelRefill_performs (hc : aget key s.chans = some c) (hv : c.valid = true) (hr : c.stallRead = false)
    (hg : c.grow = false) (hh : c.head.length < c.hcap) : exec (.channelRefill key) s = .next (refill s key c) := by
  simp [exec_channelRefill, execChannelRefill, hc, hv, hr, hg, hh]

/-! ## Growth (R78) -/

/-- Growth leaves a channel still. -/
theorem grown_still {c : Chan} (h : c.still) : c.grown.still := by
  unfold Chan.grown
  dsimp only
  split <;> exact h

theorem grown_sizes (c : Chan) : c.grown.ringpg = 2 * c.ringpg ∧ c.grown.grow = false := ⟨rfl, rfl⟩

theorem logFault_mem (s : State) (code ctx tenant die cluster inst addr detail : Nat) :
    (s.logFault code ctx tenant die cluster inst addr detail).mem = s.mem := by
  unfold State.logFault
  split <;> rfl

theorem logFault_insts (s : State) (code ctx tenant die cluster inst addr detail : Nat) :
    (s.logFault code ctx tenant die cluster inst addr detail).insts = s.insts := by
  unfold State.logFault
  split <;> rfl

theorem logFault_chans (s : State) (code ctx tenant die cluster inst addr detail : Nat) :
    (s.logFault code ctx tenant die cluster inst addr detail).chans = s.chans := by
  unfold State.logFault
  split <;> rfl

/-- The growth of a ring that does not wrap copies nothing, and is logged. -/
theorem growthCopy_unwrapped (hc : aget key s.chans = some c) (hlate : c.late = [])
    (hwrap : c.ring = [] ∧ c.tail = [] ∨ c.ring ≠ [] ∧ c.rdoff < c.wroff) : ∃ tenant inst handle pages,
    growthCopy s key c = (s.modChan key fun c => c.grown.rested).logFault 0xF4 c.ctx tenant (key / 4096) 0 inst handle pages := by
  have still : c.still := by
    rcases hwrap with ⟨_, htail⟩ | ⟨hring, _⟩
    · exact ⟨fun _ => htail, hlate⟩
    · exact ⟨fun h => absurd h hring, hlate⟩
  have unwrapped : (c.wroff ≤ c.rdoff && !c.ring.isEmpty && c.wroff != 0) = false := by
    rcases hwrap with ⟨hring, _⟩ | ⟨_, hlt⟩
    · simp [hring]
    · simp [Nat.not_le.mpr hlt]
  have settled := settleChan_modChan_of_still (f := Chan.grown) hc (grown_still still)
  exact ⟨_, _, _, _, by simp only [growthCopy, unwrapped, Bool.false_eq_true, if_false, settled]; rfl⟩

theorem exec_growthCopyDone_performs (hc : aget key s.chans = some c) (hv : c.valid = true) (hg : c.grow = true)
    (hs : c.stall = false) : exec (.growthCopyDone key) s = .next (growthCopy s key c) := by
  simp [exec_growthCopyDone, execGrowthCopyDone, hc, hv, hg, hs]

/-- What the growth of a ring that does not wrap leaves. -/
theorem growthCopy_leaves (hc : aget key s.chans = some c) (hlate : c.late = [])
    (hwrap : c.ring = [] ∧ c.tail = [] ∨ c.ring ≠ [] ∧ c.rdoff < c.wroff) :
    (growthCopy s key c).mem = s.mem ∧ (growthCopy s key c).insts = s.insts
      ∧ ∃ g, aget key (growthCopy s key c).chans = some g ∧ g.ringpg = 2 * c.ringpg ∧ g.grow = false := by
  obtain ⟨_, _, _, _, copied⟩ := growthCopy_unwrapped hc hlate hwrap
  rw [copied]
  refine ⟨logFault_mem .., logFault_insts .., c.grown.rested, ?_, ?_⟩
  · rw [logFault_chans, aget_modChan_self, hc, Option.map_some]
  · obtain ⟨_, _, _, _, rested⟩ := rested_eq c.grown
    rw [rested]
    exact grown_sizes c

end Segments

/-! ## Destruction (R66) -/

/-- A channel destroyed by its handle is gone, its entry's generation moves on, and no other channel changes. -/
theorem destroyChan_leaves {s : State} {key : Nat} {c : Chan} (hr : Assoc.rising none s.chans = true)
    (hc : aget key s.chans = some c) :
    (destroyChan s key).mem = s.mem ∧ (destroyChan s key).insts = s.insts ∧ aget key (destroyChan s key).chans = none
      ∧ aget key (destroyChan s key).gens = some (c.gen + 1)
      ∧ ∀ j, j ≠ key → aget j (destroyChan s key).chans = aget j s.chans := by
  have destroyed : destroyChan s key = { s with chans := adel key s.chans, gens := aset key (c.gen + 1) s.gens } := by
    simp only [destroyChan, hc]
  rw [destroyed]
  exact ⟨rfl, rfl, aget_adel_self (rising_keys_nodup hr), aget_aset_self _ _ _, fun j hj => aget_adel_ne key j s.chans hj⟩

/-- A good handle destroys its channel. -/
theorem exec_channelDestroy_good {s : State} {h : BitVec 32} {key : Nat} {c : Chan} (hk : chanKey (h.setWidth 64) = some key)
    (hc : aget key s.chans = some c) (hv : c.valid = true) (hh : chanHandle key c = h.setWidth 64) :
    exec (.channelDestroy h) s = .next (destroyChan s key) := by
  simp [exec_channelDestroy, execChannelDestroy, hk, hc, hv, hh]

/-! ## O34 -/

/-- Settles O34: spill and retry, refill and growth move entries of a channel that then rests; a destroyed one is gone. -/
theorem channelSegmentMoves : Obligations.ChannelSegmentMoves := by
  unfold Obligations.ChannelSegmentMoves
  refine ⟨fun s key off c c' e p hwf hc hv hlate hflaws hpoison => ⟨fun hs hg hr hlen hx => ?_, ?_, fun hg hst hwrap => ?_⟩,
    fun s h key c hk hr hc hv hh => ⟨_, exec_channelDestroy_good hk hc hv hh, destroyChan_leaves hr hc⟩⟩
  · have leaves := spill_leaves hwf hc hlate hflaws hpoison hs hlen hx
    exact ⟨fun hst hw => ⟨_, exec_channelSpill_performs hc hv hst hg hw, leaves⟩,
      fun hst => ⟨_, exec_spillRetry_spill hc hv hst hr hg, leaves⟩⟩
  · intro rest hring hpad hlost hg hr hh htail hx
    have performs := refill_performs hc hlate hflaws hpoison hring hpad hlost htail hx
    obtain ⟨stored, others⟩ := bytes_of_writeN (t := refill s key c) hwf (congrArg State.mem performs)
    refine ⟨_, exec_channelRefill_performs hc hv hr hg hh, (congrArg State.insts performs :), stored, others, ?_⟩
    rw [performs, aget_modChan_self]
    exact congrArg _ hc
  · exact ⟨_, exec_growthCopyDone_performs hc hv hg hst, growthCopy_leaves hc hlate hwrap⟩
end Sys2Proof.Machine
end

section
/-! PROOFS. What binding and answering a block change, whatever else the state holds, and the controller's sends, receives,
tries and closes (O33). -/

namespace Sys2Proof.Machine

open Sys2Proof.Bits Sys2Proof.Rows

/-! ## What a binding block works on (R101, R208) -/

/-- The instances, the outbound sets and the counter that names their entries. -/
structure BindPart where
  insts : Assoc Inst
  outb : List Outb
  fresh : Nat

/-- That part of a state. -/
def State.bindPart (s : State) : BindPart := ⟨s.insts, s.outb, s.fresh⟩

/-- The state with that part as in another. -/
def State.withPartOf (s t : State) : State := { s with insts := t.insts, outb := t.outb, fresh := t.fresh }

/-- A change that reads and changes that part of a state alone. -/
def OnBindPart (f : State → State) : Prop := ∀ s t : State, f (s.withPartOf t) = s.withPartOf (f t)

/-- The block bound, its request gone and the request's slot done. -/
def performed (s : State) (i k : Nat) : State :=
  ((bindBlock s i).modBlk i fun b => { b with req := none }).modSlot i k fun r => { r with st := .done }

theorem answer_none (s : State) (i k : Nat) : answer s i k none = performed s i k := rfl

theorem answer_some (s : State) (i k : Nat) (v : Word) : answer s i k (some v)
    = (slotTargets (performed s i k) i k).head?.elim (performed s i k) fun t => deliver (performed s i k) i t (.val v) := by
  change (match some v, slotTargets (performed s i k) i k with
    | some v, t :: _ => deliver (performed s i k) i t (.val v)
    | _, _ => performed s i k) = _
  cases slotTargets (performed s i k) i k <;> rfl

namespace OnBindPart

variable {f g : State → State}

theorem comp (hf : OnBindPart f) (hg : OnBindPart g) : OnBindPart fun s => f (g s) := fun s t => by
  simp only [hg s t, hf s (g t)]

theorem foldl {α : Type} {f : State → α → State} (hf : ∀ a, OnBindPart fun s => f s a) (l : List α) :
    OnBindPart fun s => l.foldl f s := fun s t => by
  induction l generalizing t with
  | nil => rfl
  | cons a l ih => exact (congrArg (l.foldl f) (hf a s t)).trans (ih (f t a))

/-- A fold that carries something beside the state. -/
theorem foldl_fst {α β : Type} {f : State × β → α → State × β}
    (hf : ∀ a b (s t : State), f (s.withPartOf t, b) a = (s.withPartOf (f (t, b) a).1, (f (t, b) a).2)) (l : List α) (b : β) :
    OnBindPart fun s => (l.foldl f (s, b)).1 := fun s t => by
  induction l generalizing t b with
  | nil => rfl
  | cons a l ih =>
    dsimp only [List.foldl_cons]
    rw [hf a b s t]
    exact ih (f (t, b) a).2 (f (t, b) a).1

/-- What such a change leaves: every other part of the state. -/
theorem frame (hf : OnBindPart f) (s : State) : f s = s.withPartOf (f s) := hf s s

theorem mem (hf : OnBindPart f) (s : State) : (f s).mem = s.mem := (congrArg State.mem (hf.frame s) :)

theorem chans (hf : OnBindPart f) (s : State) : (f s).chans = s.chans := (congrArg State.chans (hf.frame s) :)

/-- Of two states with the same part, such a change makes two with the same part. -/
theorem congr (hf : OnBindPart f) {s t : State} (h : s.bindPart = t.bindPart) : (f s).bindPart = (f t).bindPart := by
  have same : s = s.withPartOf t := by
    cases s
    cases t
    cases h
    rfl
  rw [same, hf s t]
  rfl

theorem insts (hf : OnBindPart f) {s t : State} (h : s.bindPart = t.bindPart) : (f s).insts = (f t).insts :=
  congrArg BindPart.insts (hf.congr h)

theorem modCtl (i : Nat) (h : Ctl → Ctl) : OnBindPart fun s => s.modCtl i h := fun _ _ => rfl

theorem modBlk (i : Nat) (h : Block → Block) : OnBindPart fun s => s.modBlk i h := fun _ _ => rfl

theorem modSlot (i k : Nat) (h : SlotRec → SlotRec) : OnBindPart fun s => s.modSlot i k h := fun _ _ => rfl

theorem enterHeld (i ser : Nat) (h : Held) : OnBindPart fun s => enterHeld s i ser h := fun s t => by
  unfold Machine.enterHeld
  split
  · rfl
  · exact foldl_fst (fun _ _ _ _ => rfl) h.pieces h.data s t

theorem enterBelow (i limit : Nat) : OnBindPart fun s => enterBelow s i limit := fun s t => by
  have same : (s.withPartOf t).inst? i = t.inst? i := rfl
  simp only [Machine.enterBelow, same]
  split
  · rfl
  · rename_i b _
    exact congrArg (fun u => State.modBlk u i _) (foldl (fun h => enterHeld i _ h) _ s t)

theorem bindBlock (i : Nat) : OnBindPart fun s => bindBlock s i := fun s t => by
  have same : (s.withPartOf t).inst? i = t.inst? i := rfl
  simp only [Machine.bindBlock, same]
  split
  · rfl
  · split
    · rfl
    · exact congrArg (fun u => State.modBlk u i _) (enterBelow i _ s t)

theorem deliver (i : Nat) (x : Target) (v : Val) : OnBindPart fun s => deliver s i x v := fun s t => by
  have same : (s.withPartOf t).inst? i = t.inst? i := rfl
  simp only [Machine.deliver, same]
  repeat' split
  all_goals rfl

theorem performed (i k : Nat) : OnBindPart fun s => performed s i k :=
  comp (modSlot i k _) (comp (modBlk i _) (bindBlock i))

theorem answer (i k : Nat) (v : Option Word) : OnBindPart fun s => answer s i k v := fun s t => by
  have done := performed i k s t
  cases v with
  | none => exact done
  | some v =>
    dsimp only at done ⊢
    have same : slotTargets (s.withPartOf (Machine.performed t i k)) i k = slotTargets (Machine.performed t i k) i k := rfl
    rw [answer_some, answer_some, done, same]
    cases slotTargets (Machine.performed t i k) i k with
    | nil => rfl
    | cons x _ => exact deliver i x (.val v) s (Machine.performed t i k)

end OnBindPart

/-! ## A block that binds (R101, R208) -/

theorem State.blk_modBlk (s : State) (i : Nat) (f : Block → Block) : (s.modBlk i f).blk? i = (s.blk? i).map f := by
  cases h : s.inst? i <;> simp [State.blk?, State.modBlk, h]

theorem enterHeld_insts (s : State) (i ser : Nat) (h : Held) : (enterHeld s i ser h).insts = s.insts := by
  unfold enterHeld
  split
  · rfl
  · unfold enterWrite
    generalize h.data = data
    suffices ∀ x : State × List Byte, (h.pieces.foldl _ x).1.insts = x.1.insts from this (s, data)
    intro x
    induction h.pieces generalizing x with
    | nil => rfl
    | cons p ps ih => exact ih _

theorem foldl_enterHeld_insts (s : State) (i ser : Nat) (hs : List Held) :
    (hs.foldl (fun s h => enterHeld s i ser h) s).insts = s.insts := by
  induction hs generalizing s with
  | nil => rfl
  | cons h hs ih => exact (ih _).trans (enterHeld_insts s i ser h)

theorem blk_foldl_enterHeld (s : State) (i ser : Nat) (hs : List Held) :
    (hs.foldl (fun s h => enterHeld s i ser h) s).blk? i = s.blk? i := by
  simp only [State.blk?, State.inst?, foldl_enterHeld_insts]

/-- The entry of held stores below a limit takes them from the block and changes nothing else of the instances. -/
theorem enterBelow_blk {s : State} {i : Nat} {b : Block} (limit : Nat) (hb : s.blk? i = some b) :
    ∃ held, (enterBelow s i limit).blk? i = some { b with held } := by
  have block : (s.inst? i).bind (fun n => n.ctl.blk) = some b := hb
  simp only [enterBelow, block, State.blk_modBlk, blk_foldl_enterHeld, hb, Option.map_some]
  exact ⟨_, rfl⟩

/-- A block that binds keeps all but its held stores and its request's standing. -/
theorem bindBlock_blk {s : State} {i : Nat} {b : Block} (hb : s.blk? i = some b) :
    ∃ held, (bindBlock s i).blk? i = some { b with bound := true, held } := by
  have block : (s.inst? i).bind (fun n => n.ctl.blk) = some b := hb
  simp only [bindBlock, block]
  split
  · rename_i bound
    exact ⟨b.held, by rw [hb, ← bound]⟩
  · obtain ⟨held, entered⟩ := enterBelow_blk (sideLimit b) hb
    exact ⟨held, by rw [State.blk_modBlk, entered, Option.map_some]⟩

/-- A block that is bound binds no more. -/
theorem bindBlock_of_bound {s : State} {i : Nat} {b : Block} (hb : s.blk? i = some b) (bound : b.bound = true) :
    bindBlock s i = s := by
  have block : (s.inst? i).bind (fun n => n.ctl.blk) = some b := hb
  simp only [bindBlock, block, bound, if_true]

/-- The answer to a block that has bound is the answer that binds it. -/
theorem answer_bindBlock {s : State} {i : Nat} {b : Block} (hb : s.blk? i = some b) (k : Nat) (v : Option Word) :
    answer (bindBlock s i) i k v = answer s i k v := by
  obtain ⟨held, bound⟩ := bindBlock_blk hb
  simp only [answer, bindBlock_of_bound bound rfl]

/-- A request performed is gone, and what its block has noted for its commit stands. -/
theorem performed_blk {s : State} {i : Nat} {b : Block} (hb : s.blk? i = some b) (k : Nat) :
    ∃ b', (performed s i k).blk? i = some b' ∧ b'.req = none ∧ b'.acts = b.acts := by
  obtain ⟨held, bound⟩ := bindBlock_blk hb
  simp only [performed, State.modSlot, State.blk_modBlk, bound, Option.map_some]
  exact ⟨_, rfl, rfl, rfl⟩

/-! ## The controller decides (R71 to R73, R257, R258) -/

/-- An acquire changes data caches alone (R93). -/
theorem acquire_eq (s : State) (core : Nat) (sc : Scope) : ∃ cores, acquire s core sc = { s with cores } := by
  unfold acquire
  split
  · exact ⟨_, rfl⟩
  · exact ⟨s.cores, rfl⟩

/-- A token received without a destination in memory holds no store. -/
theorem holdToken_nil (s : State) (i k : Nat) (data : List Byte) : holdToken s i k [] data = s := by
  simp only [holdToken, List.foldl_nil, List.append_nil, State.modBlk, Option.map_id', State.modCtl_id]

/-- What the controller does with a request without a destination in memory, by its operation. -/
def decided (s : State) (i k : Nat) (n : Inst) (b : Block) (h : Word) (data : List Byte) : ChanOp → State
  | .send => requestSend s i k n h data
  | .recv => requestReceive s i k n h false []
  | .tryRecv => requestReceive s i k n h true []
  | .close => requestClose s i k n b h

section Requests

variable {s : State} {i k key : Nat} {n : Inst} {b : Block} {c : Chan} {h : Word} {data : List Byte}

/-- The controller decides the request of a block that lets its side effect perform and has no fault due. -/
theorem exec_channelRequest_decided {op : ChanOp} (hn : s.inst? i = some n) (hb : n.ctl.blk = some b)
    (hside : sideReady s i b k = true) (hdue : n.ctl.due = none) (hreq : b.req = some ⟨k, .chan op h data [], false⟩) :
    exec (.channelRequest i) s = .next (decided s i k n b h data op) := by
  have decides : decides s i n b ⟨k, .chan op h data [], false⟩ = true := by simp [decides, hside, hdue]
  rw [exec_channelRequest, execChannelRequest, hn]
  simp only [hb, hreq, decides]
  cases op <;> rfl

/-! ### Send -/

/-- The channel whose writer is `i`, an entry reserved for its token (R64, R72). -/
def Chan.reserve (i : Nat) (e : Ent) (c : Chan) : Chan :=
  { c with writer := .ctl i, resv := c.resv ++ [(i, e)], comp := c.above }

/-- A send that fits reserves its entry, and its block notes the token for its commit. -/
theorem requestSend_fits (hq : chanQuery s n.ctx (.ctl i) h true = .ok (key, c)) (ho : c.state = .opened)
    (hf : c.fits (c.entry data) = true) : requestSend s i k n h data
      = (performed (s.modChan key (Chan.reserve i (c.entry data))) i k).modBlk i fun b =>
          { b with acts := b.acts ++ [.token key data] } := by
  simp only [requestSend, hq, ho, hf, answer_none]
  rfl

/-- What a send that fits leaves. -/
theorem requestSend_leaves (hb : s.blk? i = some b) (hq : chanQuery s n.ctx (.ctl i) h true = .ok (key, c))
    (ho : c.state = .opened) (hf : c.fits (c.entry data) = true) :
    let t := requestSend s i k n h data
    t.mem = s.mem ∧ aget key t.chans = some (c.reserve i (c.entry data)) ∧ (∀ j, j ≠ key → aget j t.chans = aget j s.chans)
      ∧ ∃ b', t.blk? i = some b' ∧ b'.req = none ∧ b'.acts = b.acts ++ [.token key data] := by
  have done := OnBindPart.performed i k
  rw [requestSend_fits hq ho hf]
  refine ⟨done.mem _, ?_, fun j hj => ?_, ?_⟩
  · rw [State.modBlk_chans, done.chans, aget_modChan_self, aget_of_chanQuery hq, Option.map_some]
  · rw [State.modBlk_chans, done.chans]
    exact aget_amod_ne _ s.chans hj.symm
  · obtain ⟨b', hb', hreq, hacts⟩ := performed_blk (s := s.modChan key (Chan.reserve i (c.entry data))) hb k
    rw [State.blk_modBlk, hb', Option.map_some, ← hacts]
    exact ⟨_, rfl, hreq, rfl⟩

/-! ### Receive -/

/-- The channel without its head's first token. -/
def Chan.dequeued (c : Chan) : Chan := { c with head := removeAt 0 c.head }

/-- The channel with its head's first token taken by `i` and the rest settled (R64, R67). -/
def Chan.takenBy (i : Nat) (c : Chan) : Chan := { c.dequeued.rested with reader := .ctl i }

theorem takenBy_head (i : Nat) (c : Chan) : (c.takenBy i).head = removeAt 0 c.head ∧ (c.takenBy i).reader = .ctl i := by
  obtain ⟨_, _, _, _, rested⟩ := rested_eq c.dequeued
  rw [Chan.takenBy, rested]
  exact ⟨rfl, rfl⟩

/-- A token whose row is good leaves the head of a channel that is then still, and is not lost. -/
theorem takeHead_good {tok : Tok} (hc : aget key s.chans = some c) (hlost : tok.lost = false) (hflaws : s.flaws = [])
    (hgood : s.poisonedPieces (c.headPieces tok) = false) (hstill : c.still) :
    takeHead s key c 0 tok id = (s.modChan key fun c => c.dequeued.rested, false) := by
  have settled := settleChan_modChan_of_still (f := Chan.dequeued) hc hstill
  simp only [takeHead, hlost, bufferBad_of_no_flaws hflaws, hgood, ← settled]
  rfl

/-- A receive of such a token. -/
theorem requestReceive_takes {tok : Tok} {rest : List Tok} (hq : chanQuery s n.ctx (.ctl i) h false = .ok (key, c))
    (hhead : c.head = tok :: rest) (htaken : tok.taken = false) (hlost : tok.lost = false) (hflaws : s.flaws = [])
    (hgood : s.poisonedPieces (c.headPieces tok) = false) (hstill : c.still) :
    requestReceive s i k n h false [] = received (s.modChan key (Chan.takenBy i)) i k n.cluster c false [] tok.data := by
  have bound := modChan_modChan s key (fun c => c.dequeued.rested) fun c => { c with reader := .ctl i }
  simp only [requestReceive, hq, hhead, htaken, takeHead_good (aget_of_chanQuery hq) hlost hflaws hgood hstill, bound]
  rfl

/-- What that receive leaves. -/
theorem requestReceive_leaves {tok : Tok} {rest : List Tok} (hq : chanQuery s n.ctx (.ctl i) h false = .ok (key, c))
    (hhead : c.head = tok :: rest) (htaken : tok.taken = false) (hlost : tok.lost = false) (hflaws : s.flaws = [])
    (hgood : s.poisonedPieces (c.headPieces tok) = false) (hstill : c.still) :
    let t := requestReceive s i k n h false []
    t.mem = s.mem ∧ (∃ c', aget key t.chans = some c' ∧ c'.head = rest ∧ c'.reader = .ctl i)
      ∧ t.insts = (answer s i k (some (BitVec.ofNat 64 (leNat (tok.data.take 8))))).insts := by
  have answers := OnBindPart.answer i k (some (BitVec.ofNat 64 (leNat (tok.data.take 8))))
  obtain ⟨cores, acquired⟩ := acquire_eq (answer (s.modChan key (Chan.takenBy i)) i k
    (some (BitVec.ofNat 64 (leNat (tok.data.take 8))))) n.cluster c.scope
  obtain ⟨head, reader⟩ := takenBy_head i c
  rw [requestReceive_takes hq hhead htaken hlost hflaws hgood hstill]
  simp only [received, holdToken_nil, acquired]
  refine ⟨answers.mem _, ⟨c.takenBy i, ?_, ?_, reader⟩, answers.insts rfl⟩
  · rw [answers.chans, aget_modChan_self, aget_of_chanQuery hq, Option.map_some]
  · rw [head, hhead, removeAt]

/-! ### Try -/

/-- A try on an empty channel that has not ended takes nothing: null and the status 1. -/
theorem requestReceive_triedEmpty {t1 t2 : Target} (hq : chanQuery s n.ctx (.ctl i) h false = .ok (key, c))
    (hhead : c.head = []) (hended : c.state ≠ .ended) (ht : slotTargets s i k = [t1, t2]) :
    requestReceive s i k n h true []
      = deliver (deliver (answer (s.modChan key fun c => { c with reader := .ctl i }) i k none) i t1 .null) i t2 (.val 1) := by
  have targets : slotTargets (s.modChan key fun c => { c with reader := .ctl i }) i k = [t1, t2] := ht
  have unended : (c.state == .ended) = false := beq_false_of_ne hended
  simp only [requestReceive, hq, hhead, triedEmpty, targets, unended]
  rfl

/-! ### Close -/

/-- A channel closed by `i`, and ended when it holds nothing (R64, R73). -/
def Chan.closedBy (i : Nat) (c : Chan) : Chan := ({ c with writer := .ctl i, state := .closed } : Chan).endCheck

theorem closedBy_state (i : Nat) (c : Chan) :
    (c.closedBy i).writer = .ctl i ∧ ((c.closedBy i).state = .closed ∨ (c.closedBy i).state = .ended) := by
  unfold Chan.closedBy Chan.endCheck
  split
  · exact ⟨rfl, .inr rfl⟩
  · exact ⟨rfl, .inl rfl⟩

/-- A close of an open channel whose release is clear once its block has bound. -/
theorem requestClose_closes (hq : chanQuery s n.ctx (.ctl i) h true = .ok (key, c)) (ho : c.state = .opened)
    (hclear : ctlReleaseClear (bindBlock s i) i c.scope = true) :
    requestClose s i k n b h = answer ((bindBlock s i).modChan key (Chan.closedBy i)) i k none := by
  have clear : ctlReleaseClear ((bindBlock s i).modChan key fun c => { c with writer := .ctl i }) i c.scope = true := hclear
  simp only [requestClose, hq, ho, clear, modChan_modChan]
  rfl

/-- What that close leaves. -/
theorem requestClose_leaves (hb : s.blk? i = some b) (hq : chanQuery s n.ctx (.ctl i) h true = .ok (key, c))
    (ho : c.state = .opened) (hclear : ctlReleaseClear (bindBlock s i) i c.scope = true) :
    let t := requestClose s i k n b h
    t.mem = s.mem ∧ t.insts = (answer s i k none).insts
      ∧ ∃ c', aget key t.chans = some c' ∧ c'.writer = .ctl i ∧ (c'.state = .closed ∨ c'.state = .ended) := by
  have answers := OnBindPart.answer i k none
  have binds := OnBindPart.bindBlock i
  rw [requestClose_closes hq ho hclear, ← answer_bindBlock hb]
  refine ⟨(answers.mem _).trans (binds.mem s), answers.insts rfl, c.closedBy i, ?_, closedBy_state i c⟩
  rw [answers.chans, aget_modChan_self, binds.chans, aget_of_chanQuery hq, Option.map_some]

end Requests

/-! ## O33 -/

/-- Settles O33: a request that the block lets perform is decided by its operation, and each leaves what its rule says. -/
theorem channelRequestSteps : Obligations.ChannelRequestSteps := by
  unfold Obligations.ChannelRequestSteps
  intro s i k key n b c op h data hn hb hside hdue hreq
  have block : s.blk? i = some b := by rw [State.blk?, hn, Option.bind_some, hb]
  have decides := exec_channelRequest_decided hn hb hside hdue hreq
  refine ⟨fun hop hq ho hf => ?_, fun tok rest hop hq hhead htaken hlost hflaws hgood hring htail hlate => ?_,
    fun t1 t2 hop hq hhead hended ht => ?_, fun hop hq ho hclear => ?_⟩
  · subst hop
    exact ⟨_, decides, requestSend_leaves block hq ho hf⟩
  · subst hop
    exact ⟨_, decides, requestReceive_leaves hq hhead htaken hlost hflaws hgood ⟨fun _ => htail, hlate⟩⟩
  · subst hop
    have delivered := ((OnBindPart.deliver i t2 (.val 1)).comp (OnBindPart.deliver i t1 .null)).comp (OnBindPart.answer i k none)
    rw [decided, requestReceive_triedEmpty hq hhead hended ht] at decides
    exact ⟨_, decides, delivered.mem _, delivered.insts rfl⟩
  · subst hop
    exact ⟨_, decides, requestClose_leaves block hq ho hclear⟩

end Sys2Proof.Machine
end

section
/-! PROOFS. Every move of the module keeps memory in its canonical form: the meanings' `_wf` lemmas (Laws/Keep1 to Keep8), put
together over the one match of `exec` and over the moves. -/

namespace Sys2Proof.Machine

/-- Every instruction keeps memory in its canonical form. -/
theorem exec_keeps_wf (i : Instr) (s : State) (hs : s.mem.wf = true) : NextWf (exec i s) :=
  match i with
  | .bringUp b => execBringUp_wf b s hs
  | .contextCreate ctx d => execContextCreate_wf ctx d s hs
  | .contextDestroy ctx => execContextDestroy_wf ctx s hs
  | .channelDestroy handle => execChannelDestroy_wf handle s hs
  | .firmwareGrant g => execFirmwareGrant_wf g s hs
  | .blockFetch q => execBlockFetch_wf q s hs
  | .blockStart q => execBlockStart_wf q s hs
  | .blockCommit q => execBlockCommit_wf q s hs
  | .blockStall q => execBlockStall_wf q s hs
  | .trapEntry q => execTrapEntry_wf q s hs
  | .fan f => execFan_wf f s hs
  | .null f => execNull_wf f s hs
  | .movi f => execMovi_wf f s hs
  | .appi f => execAppi_wf f s hs
  | .add f => execAdd_wf f s hs
  | .sub f => execSub_wf f s hs
  | .mul f => execMul_wf f s hs
  | .mulh f => execMulh_wf f s hs
  | .mulhu f => execMulhu_wf f s hs
  | .div f => execDiv_wf f s hs
  | .divu f => execDivu_wf f s hs
  | .rem f => execRem_wf f s hs
  | .remu f => execRemu_wf f s hs
  | .and f => execAnd_wf f s hs
  | .or f => execOr_wf f s hs
  | .xor f => execXor_wf f s hs
  | .andn f => execAndn_wf f s hs
  | .shl f => execShl_wf f s hs
  | .shr f => execShr_wf f s hs
  | .sra f => execSra_wf f s hs
  | .rol f => execRol_wf f s hs
  | .ror f => execRor_wf f s hs
  | .min f => execMin_wf f s hs
  | .max f => execMax_wf f s hs
  | .minu f => execMinu_wf f s hs
  | .maxu f => execMaxu_wf f s hs
  | .adds f => execAdds_wf f s hs
  | .subs f => execSubs_wf f s hs
  | .addus f => execAddus_wf f s hs
  | .subus f => execSubus_wf f s hs
  | .clz f => execClz_wf f s hs
  | .ctz f => execCtz_wf f s hs
  | .popc f => execPopc_wf f s hs
  | .bswap f => execBswap_wf f s hs
  | .sext f => execSext_wf f s hs
  | .zext f => execZext_wf f s hs
  | .neg f => execNeg_wf f s hs
  | .not f => execNot_wf f s hs
  | .abs f => execAbs_wf f s hs
  | .bfx f => execBfx_wf f s hs
  | .bfi f => execBfi_wf f s hs
  | .teq f => execTeq_wf f s hs
  | .tne f => execTne_wf f s hs
  | .tlt f => execTlt_wf f s hs
  | .tltu f => execTltu_wf f s hs
  | .tle f => execTle_wf f s hs
  | .tleu f => execTleu_wf f s hs
  | .tgt f => execTgt_wf f s hs
  | .tgtu f => execTgtu_wf f s hs
  | .tge f => execTge_wf f s hs
  | .tgeu f => execTgeu_wf f s hs
  | .tbs f => execTbs_wf f s hs
  | .tbc f => execTbc_wf f s hs
  | .sel f => execSel_wf f s hs
  | .wid f => execWid_wf f s hs
  | .time f => execTime_wf f s hs
  | .cyc f => execCyc_wf f s hs
  | .ctx f => execCtx_wf f s hs
  | .ld f => execLd_wf f s hs
  | .st f => execSt_wf f s hs
  | .pft f => execPft_wf f s hs
  | .aadd f => execAadd_wf f s hs
  | .aand f => execAand_wf f s hs
  | .aor f => execAor_wf f s hs
  | .axor f => execAxor_wf f s hs
  | .amin f => execAmin_wf f s hs
  | .amax f => execAmax_wf f s hs
  | .aminu f => execAminu_wf f s hs
  | .amaxu f => execAmaxu_wf f s hs
  | .aswp f => execAswp_wf f s hs
  | .acas f => execAcas_wf f s hs
  | .fence f => execFence_wf f s hs
  | .chsend f => execChsend_wf f s hs
  | .chrecv f => execChrecv_wf f s hs
  | .chtry f => execChtry_wf f s hs
  | .chlen f => execChlen_wf f s hs
  | .chclose f => execChclose_wf f s hs
  | .semwait f => execSemwait_wf f s hs
  | .sempost f => execSempost_wf f s hs
  | .semread f => execSemread_wf f s hs
  | .barinit f => execBarinit_wf f s hs
  | .bararr f => execBararr_wf f s hs
  | .barwait f => execBarwait_wf f s hs
  | .cpy f => execCpy_wf f s hs
  | .cpyc f => execCpyc_wf f s hs
  | .cpyt f => execCpyt_wf f s hs
  | .xtload f => execXtload_wf f s hs
  | .xstat f => execXstat_wf f s hs
  | .launch f => execLaunch_wf f s hs
  | .qreset f => execQreset_wf f s hs
  | .yield f => execYield_wf f s hs
  | .yieldTimeout q => execYieldTimeout_wf q s hs
  | .br f => execBr_wf f s hs
  | .bri f => execBri_wf f s hs
  | .call f => execCall_wf f s hs
  | .calli f => execCalli_wf f s hs
  | .halt f => execHalt_wf f s hs
  | .trap f => execTrap_wf f s hs
  | .sysr f => execSysr_wf f s hs
  | .sysw f => execSysw_wf f s hs
  | .tlbinv f => execTlbinv_wf f s hs
  | .tlbinvDone q => execTlbinvDone_wf q s hs
  | .bcinv f => execBcinv_wf f s hs
  | .bcinvDone q => execBcinvDone_wf q s hs
  | .eret f => execEret_wf f s hs
  | .waitev f => execWaitev_wf f s hs
  | .waitevTimeout q => execWaitevTimeout_wf q s hs
  | .src f => execSrc_wf f s hs
  | .snk f => execSnk_wf f s hs
  | .accr f => execAccr_wf f s hs
  | .accd f => execAccd_wf f s hs
  | .kset f => execKset_wf f s hs
  | .mark f => execMark_wf f s hs
  | .fmtw f => execFmtw_wf f s hs
  | .scalew f => execScalew_wf f s hs
  | .genseed f => execGenseed_wf f s hs
  | .fwait f => execFwait_wf f s hs
  | .fwaitTimeout q => execFwaitTimeout_wf q s hs
  | .fcnt f => execFcnt_wf f s hs
  | .fstop f => execFstop_wf f s hs
  | .frun f => execFrun_wf f s hs
  | .readPerform a n => execReadPerform_wf a n s hs
  | .writePerform a n => execWritePerform_wf a n s hs
  | .cacheLineDrop core line => execCacheLineDrop_wf core line s hs
  | .eccWriteback key => execEccWriteback_wf key s hs
  | .homeAtomicPerform q => execHomeAtomicPerform_wf q s hs
  | .barrierOpPerform q => execBarrierOpPerform_wf q s hs
  | .barwaitPoll q => execBarwaitPoll_wf q s hs
  | .pageWalk n => execPageWalk_wf n s hs
  | .wardrobeEntryFill cluster ctx page => execWardrobeEntryFill_wf cluster ctx page s hs
  | .retentionEntry a => execRetentionEntry_wf a s hs
  | .retentionExit a => execRetentionExit_wf a s hs
  | .retentionExitDone a => execRetentionExitDone_wf a s hs
  | .channelRequest q => execChannelRequest_wf q s hs
  | .channelSpill h => execChannelSpill_wf h s hs
  | .channelRefill h => execChannelRefill_wf h s hs
  | .spillRetry h => execSpillRetry_wf h s hs
  | .blockedReport q => execBlockedReport_wf q s hs
  | .deadlockDetector q => execDeadlockDetector_wf q s hs
  | .growthCopyDone h => execGrowthCopyDone_wf h s hs
  | .regionSourceAccess q b => execRegionSourceAccess_wf q b s hs
  | .regionSinkWrite q b => execRegionSinkWrite_wf q b s hs
  | .iterationStart q => execIterationStart_wf q s hs
  | .iterationCommit q => execIterationCommit_wf q s hs
  | .iterationDiscard q => execIterationDiscard_wf q s hs
  | .iterOverrun q => execIterOverrun_wf q s hs
  | .configFill q fe => execConfigFill_wf q fe s hs
  | .configMulticast sel slot image deltas => execConfigMulticast_wf sel slot image deltas s hs
  | .markerPass q fe inp => execMarkerPass_wf q fe inp s hs
  | .pass q fe => execPass_wf q fe s hs
  | .dot q fe upset => execDot_wf q fe upset s hs
  | .dots q fe upset => execDots_wf q fe upset s hs
  | .redadd q fe => execRedadd_wf q fe s hs
  | .redmax q fe => execRedmax_wf q fe s hs
  | .redmin q fe => execRedmin_wf q fe s hs
  | .eopAdd q fe => execEopAdd_wf q fe s hs
  | .mule q fe upset => execMule_wf q fe upset s hs
  | .scale q fe => execScale_wf q fe s hs
  | .quant q fe => execQuant_wf q fe s hs
  | .deq q fe => execDeq_wf q fe s hs
  | .cvt q fe => execCvt_wf q fe s hs
  | .bfly q fe => execBfly_wf q fe s hs
  | .split3 q fe => execSplit3_wf q fe s hs
  | .lut6 q fe => execLut6_wf q fe s hs
  | .fsm q fe => execFsm_wf q fe s hs
  | .table q fe => execTable_wf q fe s hs
  | .cmpsel q fe => execCmpsel_wf q fe s hs
  | .shiftv q fe => execShiftv_wf q fe s hs
  | .cnt q fe => execCnt_wf q fe s hs
  | .sgen q fe => execSgen_wf q fe s hs
  | .sand q fe => execSand_wf q fe s hs
  | .sor q fe => execSor_wf q fe s hs
  | .smux q fe => execSmux_wf q fe s hs
  | .snot q fe => execSnot_wf q fe s hs
  | .sminc q fe => execSminc_wf q fe s hs
  | .smaxc q fe => execSmaxc_wf q fe s hs
  | .sxor q fe => execSxor_wf q fe s hs
  | .scnt q fe => execScnt_wf q fe s hs
  | .sregen q fe => execSregen_wf q fe s hs
  | .sfsm q fe => execSfsm_wf q fe s hs
  | .launchAccept n => execLaunchAccept_wf n s hs
  | .imageLoad l => execImageLoad_wf l s hs
  | .instancePlace l => execInstancePlace_wf l s hs
  | .doneArrival q => execDoneArrival_wf q s hs
  | .recordAccept q engine => execRecordAccept_wf q engine s hs
  | .engineRecordStart r => execEngineRecordStart_wf r s hs
  | .recordComplete r => execRecordComplete_wf r s hs
  | .chunkDecode r chunk => execChunkDecode_wf r chunk s hs
  | .xtloadTakeEffect group => execXtloadTakeEffect_wf group s hs
  | .leaveGrant q => execLeaveGrant_wf q s hs
  | .leaveTimeout q => execLeaveTimeout_wf q s hs
  | .flitSend l kind load => execFlitSend_wf l kind load s hs
  | .flitReceive l errors => execFlitReceive_wf l errors s hs
  | .nakReceive l => execNakReceive_wf l s hs
  | .replayTimeout l => execReplayTimeout_wf l s hs
  | .retrainDone l failing => execRetrainDone_wf l failing s hs
  | .hostPostedWrite port rid off data ro poisoned => execHostPostedWrite_wf port rid off data ro poisoned s hs
  | .hostRead port rid bar0 off n ro tag => execHostRead_wf port rid bar0 off n ro tag s hs
  | .hostLineAck port line => execHostLineAck_wf port line s hs
  | .hostAtomicop by_ tag => execHostAtomicop_wf by_ tag s hs
  | .hostReadCompletion tag status data => execHostReadCompletion_wf tag status data s hs
  | .hostReadTimeout tag => execHostReadTimeout_wf tag s hs
  | .hostResetCommand by_ tenant cls diemask => execHostResetCommand_wf by_ tenant cls diemask s hs
  | .queueResetComplete serial => execQueueResetComplete_wf serial s hs
  | .launchWindowWrite port rid window value size => execLaunchWindowWrite_wf port rid window value size s hs
  | .launchTableArm entry w => execLaunchTableArm_wf entry w s hs
  | .launchTableDisarm entry w => execLaunchTableDisarm_wf entry w s hs
  | .launchTableFire entry => execLaunchTableFire_wf entry s hs
  | .timebaseSrcWrite w => execTimebaseSrcWrite_wf w s hs
  | .ptmoffWrite w => execPtmoffWrite_wf w s hs
  | .bar0RegisterWrite port rid off size value => execBar0RegisterWrite_wf port rid off size value s hs
  | .attestationRequest port rid addr => execAttestationRequest_wf port rid addr s hs
  | .attestationReportWrite => execAttestationReportWrite_wf s hs
  | .peerRead port node aper off n tag => execPeerRead_wf port node aper off n tag s hs
  | .peerWrite port node aper off data => execPeerWrite_wf port node aper off data s hs
  | .peerWriteOrd port node aper off data => execPeerWriteOrd_wf port node aper off data s hs
  | .llynramResend op => execLlynramResend_wf op s hs
  | .peerUnreachable entry => execPeerUnreachable_wf entry s hs
  | .ptpMessage tai => execPtpMessage_wf tai s hs
  | .ptmExchange port ptm => execPtmExchange_wf port ptm s hs
  | .timebaseSourceLost => execTimebaseSourceLost_wf s hs
  | .calendarSlot die port ready => execCalendarSlot_wf die port ready s hs
  | .borrowLimit tenant => execBorrowLimit_wf tenant s hs
  | .contextPreempt q => execContextPreempt_wf q s hs
  | .regionStopDiscard q => execRegionStopDiscard_wf q s hs
  | .regionStopFinish q => execRegionStopFinish_wf q s hs
  | .feLazySave q fe => execFeLazySave_wf q fe s hs
  | .restore q => execRestore_wf q s hs
  | .saveTimeout q => execSaveTimeout_wf q s hs
  | .watchdog q ofRegion => execWatchdog_wf q ofRegion s hs
  | .heartbeat => execHeartbeat_wf s hs
  | .standbyTakeover => execStandbyTakeover_wf s hs
  | .leafCommand cluster => execLeafCommand_wf cluster s hs
  | .leafAck cluster => execLeafAck_wf cluster s hs
  | .retentionEntryDone a => execRetentionEntryDone_wf a s hs
  | .peerAcknowledgement op data => execPeerAcknowledgement_wf op data s hs
  | .feMarkDefective col row => execFeMarkDefective_wf col row s hs
  | .firmwareTableWrite t => execFirmwareTableWrite_wf t s hs

/-- Choosing the next move keeps it: after a failed bring-up a read of the identification region may be answered (R405). -/
theorem chooseMove_keeps_wf (s : State) (h : s.mem.wf = true) : (nextMove s).2.mem.wf = true := by
  unfold nextMove
  split
  · exact h
  · split
    · exact h
    · exact identRead_wf s h
    · exact h

/-- The turn of a slot keeps it, the note of its issue (R279) included. -/
theorem runSlot_keeps_wf (s : State) (i k : Nat) (h : s.mem.wf = true) : NextWf (runSlot s i k) := by
  unfold runSlot
  split
  · exact h
  · split
    · trivial
    · rename_i x _
      have fires := exec_keeps_wf x (s.at i k) h
      split
      · rename_i t ht
        rw [ht] at fires
        exact ite_wf _ _ _ (noteIssue_wf t i fires) fires
      · trivial
      · trivial

/-- An event keeps it. -/
theorem runEvent_keeps_wf (s : State) (e : Instr) (h : s.mem.wf = true) : NextWf (runEvent s e) := by
  unfold runEvent
  split
  · exact h
  · exact exec_keeps_wf e s h

/-- Every move keeps it. -/
theorem runMove_keeps_wf (s : State) (m : Move) (h : s.mem.wf = true) : NextWf (runMove s m) := by
  cases m with
  | tick n => exact advance_wf s n h
  | slot i k => exact runSlot_keeps_wf s i k h
  | event e => exact runEvent_keeps_wf s e h
  | upset key errs => exact upset_wf s key errs h
  | accUpset fe acc k => exact upsetAcc_wf s fe acc k h
  | barSize port log => exact resizeBar_wf s port log h
  | pace die port on => exact paceLending_wf s die port on h

/-! ## O9 -/

/-- Settles O9: a step makes the next move, and choosing it and making it each keep the canonical form. -/
theorem stepKeepsMemoryForm : Obligations.StepKeepsMemoryForm := by
  unfold Obligations.StepKeepsMemoryForm
  intro s t hs ht
  have moved := runMove_keeps_wf (nextMove s).2 (nextMove s).1 (chooseMove_keeps_wf s hs)
  rw [← step, ht] at moved
  exact moved

end Sys2Proof.Machine
end

section
/-! PROOFS. A write that joins the coherence order at its home: an outbound write of a control context (O24), and the atomic
that the home performs (O26). -/

namespace Sys2Proof.Machine

open Sys2Proof.Bits Sys2Proof.Rows

/-! ## What a core's accesses change of its caches (R93, R96) -/

/-- `t` is `s` but for what the cores hold beside their semaphores. -/
structure OnlyCaches (s t : State) : Prop where
  frame : t = { s with cores := t.cores }
  sems : ∀ c, (t.core c).sems = (s.core c).sems

theorem State.core_modCore_ne (s : State) {c d : Nat} (f : Core → Core) (h : d ≠ c) : (s.modCore c f).core d = s.core d := by
  simp only [State.core, State.modCore, agetD, aget_aset_ne c d _ _ h]

namespace OnlyCaches

theorem refl (s : State) : OnlyCaches s s := ⟨rfl, fun _ => rfl⟩

theorem trans {s t u : State} (h : OnlyCaches s t) (k : OnlyCaches t u) : OnlyCaches s u := by
  obtain ⟨ht, hsems⟩ := h
  obtain ⟨hu, ksems⟩ := k
  exact ⟨by rw [hu, ht], fun c => (ksems c).trans (hsems c)⟩

theorem modCache (s : State) (core : Nat) (f : Core → Assoc (List Byte)) :
    OnlyCaches s (s.modCore core fun c => { c with cache := f c }) := by
  refine ⟨rfl, fun c => ?_⟩
  by_cases hc : c = core
  · rw [hc, State.core_modCore_self]
  · rw [State.core_modCore_ne s _ hc]

theorem ite {s t u : State} (c : Prop) [Decidable c] (ht : OnlyCaches s t) (hu : OnlyCaches s u) :
    OnlyCaches s (if c then t else u) := by
  split
  · exact ht
  · exact hu

theorem acquire (s : State) (core : Nat) (sc : Scope) : OnlyCaches s (acquire s core sc) :=
  ite _ (modCache s core _) (refl s)

theorem refreshLine (s : State) (core key : Nat) : OnlyCaches s (refreshLine s core key) :=
  ite _ (modCache s core _) (refl s)

theorem updateCache (s : State) (core key : Nat) (bs : List Byte) : OnlyCaches s (updateCache s core key bs) :=
  modCache s core fun c => c.cache.map fun (x : Nat × List Byte) =>
    if overlap x.1 64 key bs.length then (x.1, overlay x.1 x.2 key bs) else x

theorem mem {s t : State} (h : OnlyCaches s t) : t.mem = s.mem := (congrArg State.mem h.frame :)

theorem insts {s t : State} (h : OnlyCaches s t) : t.insts = s.insts := (congrArg State.insts h.frame :)

theorem outb {s t : State} (h : OnlyCaches s t) : t.outb = s.outb := (congrArg State.outb h.frame :)

end OnlyCaches

/-! ## A write that touches no live barrier (R90, R114) -/

theorem homeWrite_of_no_waiters {s : State} {key : Nat} {bs : List Byte} (h : barrierWaiters s key bs.length = []) :
    homeWrite s key bs = s.putBytes key bs := by
  have waiters : barrierWaiters (s.putBytes key bs) key bs.length = [] := h
  rw [homeWrite, breakBarriers, waiters, List.foldl_nil]

theorem ctlWrite_of_no_waiters {s : State} {key : Nat} {bs : List Byte} (i : Nat)
    (h : barrierWaiters s key bs.length = []) : OnlyCaches (s.putBytes key bs) (ctlWrite s i key bs) := by
  rw [ctlWrite, homeWrite_of_no_waiters h]
  split
  · exact .ite _ (.updateCache _ _ _ _) (.refl _)
  · exact .refl _

/-! ## WRITE_PERFORM of a control context (R90) -/

/-- An entry that alone bears its name is the one that its agent's outbound set is searched for. -/
theorem find_outbOf {s : State} {a : Agent} {o : Outb} (ho : o ∈ s.outb) (ha : o.agent = a)
    (alone : ∀ x ∈ s.outb, x.id = o.id → x = o) : (s.outbOf a).find? (fun x => x.id == o.id) = some o := by
  have listed : o ∈ s.outbOf a := List.mem_filter.mpr ⟨ho, by simp [ha]⟩
  cases found : (s.outbOf a).find? fun x => x.id == o.id with
  | none =>
    have missed := List.find?_eq_none.mp found o listed
    simp at missed
  | some x =>
    have named : x.id = o.id := by simpa using List.find?_some found
    rw [alone x (List.mem_filter.mp (List.mem_of_find?_eq_some found)).1 named]

theorem exec_writePerform_ctl {s : State} {i : Nat} {o : Outb} (ho : o ∈ s.outb) (ha : o.agent = .ctl i) (hid : o.id ≠ 0)
    (alone : ∀ x ∈ s.outb, x.id = o.id → x = o) (hf : o.fence = none) (hp : o.poisoned = false)
    (may : writeMay s o = true) :
    exec (.writePerform (.ctl i) o.id) s = .next (ctlWrite (dropOutb s o.id) i o.key o.data) := by
  rw [exec_writePerform, execWritePerform]
  simp only [hid, if_false, performOutb, find_outbOf ho ha alone, hf, may, if_true, performWrite, ha, hp,
    Bool.false_eq_true]

/-! ## O24 -/

/-- Settles O24: the write is its agent's entry of that name, and at its home, where it meets no live barrier, its bytes are
put in place and its core's copy of the line renewed. -/
theorem outboundWritePerforms : Obligations.OutboundWritePerforms := by
  unfold Obligations.OutboundWritePerforms
  intro s i o hwf ho ha hid alone hf hp may hw
  have wrote : OnlyCaches _ (ctlWrite (dropOutb s o.id) i o.key o.data) := ctlWrite_of_no_waiters i hw
  obtain ⟨bytes, rest⟩ := bytes_of_writeN hwf wrote.mem
  exact ⟨_, exec_writePerform_ctl ho ha hid alone hf hp may, bytes, rest, wrote.outb, wrote.insts, wrote.sems⟩

/-! ## The home's turn (R101, R252) -/

section Turn

variable {s : State} {i k : Nat} {b : Block} {op : AtomicOp} {p : Piece} {v c : Word} {ord : MemOrd} {sc : Scope} {reg : Bool}

/-- The turn of an operation that its order lets perform, where no stored error waits: poison refuses it, or it goes. -/
theorem objectTurn_of_may {key n : Nat} {rel isSc : Bool} (hflaws : s.flaws = [])
    (may : objectMay (bindBlock s i) i key n rel sc isSc = true) :
    objectTurn s i b key n rel sc isSc true = if poisonLeft s b key n then .poison s else .go (bindBlock s i) := by
  simp only [objectTurn, may, Bool.true_or, if_true, meetFlaws_of_no_flaws hflaws, Bool.true_and]

/-- The home decides an atomic whose block and whose agent's order let it perform. -/
theorem exec_homeAtomicPerform_decided (hb : s.blk? i = some b) (hreq : b.req = some ⟨k, .atomic op p v c ord sc, reg⟩)
    (hside : sideReady s i b k = true) (hawake : s.asleep p.key = false) (hflaws : s.flaws = [])
    (may : objectMay (bindBlock s i) i p.key p.n (isRel ord) sc (ord == .sc) = true) :
    exec (.homeAtomicPerform i) s = .next (if poisonLeft s b p.key p.n then refuseEither s i k b codePoison (memAddrOf b k)
      else performAtomic (bindBlock s i) i k op p v c ord sc) := by
  have block : (s.inst? i).bind (fun n => n.ctl.blk) = some b := hb
  rw [exec_homeAtomicPerform, execHomeAtomicPerform, block]
  simp only [hreq, hside, hawake, objectTurn_of_may hflaws may]
  cases poisonLeft s b p.key p.n <;> rfl

end Turn

/-! ## The atomic's step (R252) -/

theorem leNat_bytes_lt (s : State) (key n : Nat) : leNat (s.bytes key n) < 2 ^ (8 * n) := by
  have := leNat_lt (s.bytes key n)
  rwa [State.bytes, Memory.length_readN, show (256 : Nat) = 2 ^ 8 from rfl, ← Nat.pow_mul] at this

/-- The new value of an atomic, of numbers of `m` bits. -/
theorem atomicNew_toNat (op : AtomicOp) {m : Nat} (a v : BitVec m) :
    atomicNew op m a.toNat v.toNat = (atomicWrites op a v).toNat := by
  cases op with
  | add => exact (BitVec.toNat_add a v).symm
  | and => exact (BitVec.toNat_and a v).symm
  | or => exact (BitVec.toNat_or a v).symm
  | xor => exact (BitVec.toNat_xor a v).symm
  | min => simp only [atomicNew, atomicWrites, sextI_toInt, BitVec.sle, decide_eq_true_eq, apply_ite BitVec.toNat]
  | max => simp only [atomicNew, atomicWrites, sextI_toInt, BitVec.sle, decide_eq_true_eq, apply_ite BitVec.toNat]
  | minu => simp only [atomicNew, atomicWrites, BitVec.ule, decide_eq_true_eq, apply_ite BitVec.toNat, Nat.min_def]
  | maxu => simp only [atomicNew, atomicWrites, BitVec.ule, decide_eq_true_eq, apply_ite BitVec.toNat, Nat.max_def]
  | swp => rfl
  | cas => rfl

/-- What an atomic's step writes, if anything: the bytes at its home, and no other (R252). -/
def atomicWritten (s : State) (i : Nat) (op : AtomicOp) (p : Piece) (v c : Word) : State :=
  let a := BitVec.ofNat (8 * p.n) (leNat (s.bytes p.key p.n))
  if op = .cas ∧ a ≠ c.setWidth (8 * p.n) then s
  else ctlWrite s i p.key (leBytes p.n (atomicWrites op a (v.setWidth (8 * p.n))).toNat)

/-- The step writes, renews its core's caches, and answers the old value. -/
theorem performAtomic_answers (s : State) (i k : Nat) (op : AtomicOp) (p : Piece) (v c : Word) (ord : MemOrd) (sc : Scope) :
    ∃ u, OnlyCaches (atomicWritten s i op p v c) u ∧ performAtomic s i k op p v c ord sc
      = answer u i k (some ((BitVec.ofNat (8 * p.n) (leNat (s.bytes p.key p.n))).setWidth 64)) := by
  have small := Nat.mod_eq_of_lt (leNat_bytes_lt s p.key p.n)
  have old : (BitVec.ofNat (8 * p.n) (leNat (s.bytes p.key p.n))).toNat = leNat (s.bytes p.key p.n) := by
    rw [BitVec.toNat_ofNat, small]
  have value : (BitVec.ofNat (8 * p.n) (leNat (s.bytes p.key p.n))).setWidth 64 = BitVec.ofNat 64 (leNat (s.bytes p.key p.n)) :=
    BitVec.eq_of_toNat_eq (by rw [BitVec.toNat_setWidth, old, BitVec.toNat_ofNat])
  have failed : (op == .cas && leNat (s.bytes p.key p.n) != c.toNat % 2 ^ (8 * p.n)) = true
      ↔ op = .cas ∧ BitVec.ofNat (8 * p.n) (leNat (s.bytes p.key p.n)) ≠ c.setWidth (8 * p.n) := by
    simp [← BitVec.toNat_inj, small]
  have written : (if op == .cas && leNat (s.bytes p.key p.n) != c.toNat % 2 ^ (8 * p.n) then s else
      ctlWrite s i p.key (leBytes p.n (atomicNew op (8 * p.n) (leNat (s.bytes p.key p.n)) (v.toNat % 2 ^ (8 * p.n)))))
      = atomicWritten s i op p v c := by
    have new := atomicNew_toNat op (BitVec.ofNat (8 * p.n) (leNat (s.bytes p.key p.n))) (v.setWidth (8 * p.n))
    rw [old, BitVec.toNat_setWidth] at new
    simp only [failed, new, atomicWritten]
  unfold performAtomic
  dsimp only
  rw [written, value]
  refine ⟨_, ?_, rfl⟩
  split
  · exact .ite _ ((OnlyCaches.refreshLine _ _ _).trans (.acquire _ _ _)) (.refreshLine _ _ _)
  · exact .refl _

/-- What the step leaves in memory where it meets no live barrier. -/
theorem atomicWritten_leaves {s : State} (i : Nat) (op : AtomicOp) {p : Piece} (v c : Word) (hwf : s.mem.wf = true)
    (hw : barrierWaiters s p.key p.n = []) :
    let old := s.bytes p.key p.n
    let a := BitVec.ofNat (8 * p.n) (leNat old)
    let t := atomicWritten s i op p v c
    t.bytes p.key p.n = (if op = .cas ∧ a ≠ c.setWidth (8 * p.n) then old
        else leBytes p.n (atomicWrites op a (v.setWidth (8 * p.n))).toNat)
      ∧ SameMemBut s t p.key p.n ∧ t.insts = s.insts := by
  dsimp only
  unfold atomicWritten
  dsimp only
  split
  · exact ⟨rfl, fun _ _ => rfl, rfl⟩
  · generalize hbs : leBytes p.n _ = bs
    have len : bs.length = p.n := by rw [← hbs, length_leBytes]
    rw [← len] at hw ⊢
    have wrote := ctlWrite_of_no_waiters i hw
    obtain ⟨bytes, rest⟩ := bytes_of_writeN hwf wrote.mem
    exact ⟨bytes, rest, wrote.insts⟩

/-! ## O26 -/

/-- Settles O26: the home's turn finds poison that is left and refuses, or the block binds and the atomic's step writes and
answers in it. -/
theorem homePerformsAtomic : Obligations.HomePerformsAtomic := by
  unfold Obligations.HomePerformsAtomic
  intro s i k b op p v c ord sc reg hb hreq hside hawake hflaws may
  have decided := exec_homeAtomicPerform_decided hb hreq hside hawake hflaws may
  refine ⟨fun poison => by rw [decided, if_pos poison], fun clean hwf _ hw => ?_⟩
  have binds := (OnBindPart.bindBlock i).mem s
  have same : (bindBlock s i).bytes p.key p.n = s.bytes p.key p.n := by rw [State.bytes, binds, State.bytes]
  obtain ⟨bytes, rest, insts⟩ := atomicWritten_leaves i op v c (by rw [binds]; exact hwf) hw
  obtain ⟨u, caches, answers⟩ := performAtomic_answers (bindBlock s i) i k op p v c ord sc
  rw [if_neg (by simp [clean]), answers] at decided
  have mem := ((OnBindPart.answer i k (some ((BitVec.ofNat (8 * p.n) (leNat ((bindBlock s i).bytes p.key p.n))).setWidth 64))).mem
    u).trans caches.mem
  rw [same] at bytes decided mem
  refine ⟨_, decided, ?_, fun a ha => ?_, u, caches.insts.trans insts, rfl⟩
  · rw [State.bytes, mem]
    exact bytes
  · rw [mem, rest a ha, binds]

end Sys2Proof.Machine
end

section
/-! PROOFS. The commit of a block that branches: its write entries, its held stores and the STEP trap (O39). -/

namespace Sys2Proof.Machine

open Sys2Proof.Bits Sys2Proof.Rows

/-! ## One register written (R200) -/

/-- A register written changes the registers and what tokens brought to them alone. -/
theorem setReg_frame (c : Ctl) (r : Nat) (v : Word) :
    c.setReg r v = { c with regs := (c.setReg r v).regs, acq := (c.setReg r v).acq } := by
  unfold Ctl.setReg
  split <;> rfl

theorem setReg_self (c : Ctl) {r : Nat} (v : Word) (h0 : r ≠ 0) (h : r < 64) :
    (c.setReg r v).reg r = v ∧ (c.setReg r v).acq.getLsbD r = false := by
  simp only [Ctl.setReg, Ctl.reg, h0, if_false]
  exact ⟨by simp [h], by simp [h]⟩

theorem setReg_ne (c : Ctl) {r q : Nat} (v : Word) (h : r ≠ q) :
    (c.setReg r v).reg q = c.reg q ∧ (c.setReg r v).acq.getLsbD q = c.acq.getLsbD q := by
  unfold Ctl.setReg
  split
  · exact ⟨rfl, rfl⟩
  · refine ⟨?_, ?_⟩
    · simp [Ctl.reg, List.getElem?_set_ne h]
    · by_cases hq : q < 64
      · simp [hq, h.symm]
      · rw [BitVec.getLsbD_of_ge _ _ (by omega), BitVec.getLsbD_of_ge _ _ (by omega)]

/-! ## The write entries (R200, R204) -/

/-- One write entry: its register takes the value that it holds, if it holds one. -/
def writeEntry (reg : Nat → Nat) (c : Ctl) (w : Nat × Option Val) : Ctl :=
  match w.2 with
  | some (.val v) => c.setReg (reg w.1) v
  | _ => c

theorem writeRegs_eq (b : Block) (c : Ctl) :
    writeRegs b c = (indexed 0 b.writes).foldl (writeEntry (Layout.writeReg b.words)) c := rfl

theorem writeEntry_frame (reg : Nat → Nat) (c : Ctl) (w : Nat × Option Val) :
    writeEntry reg c w = { c with regs := (writeEntry reg c w).regs, acq := (writeEntry reg c w).acq } := by
  unfold writeEntry
  split
  · exact setReg_frame c _ _
  · rfl

theorem writeEntries_frame (reg : Nat → Nat) (ws : List (Nat × Option Val)) (c : Ctl) :
    ∃ regs acq, ws.foldl (writeEntry reg) c = { c with regs, acq } := by
  induction ws generalizing c with
  | nil => exact ⟨c.regs, c.acq, rfl⟩
  | cons w ws ih =>
    obtain ⟨regs, acq, rest⟩ := ih (writeEntry reg c w)
    exact ⟨regs, acq, by rw [List.foldl_cons, rest, writeEntry_frame]⟩

theorem writeEntry_unwritten {reg : Nat → Nat} {w : Nat × Option Val} {r : Nat} (c : Ctl)
    (h : ∀ v, w.2 = some (.val v) → reg w.1 ≠ r) :
    (writeEntry reg c w).reg r = c.reg r ∧ (writeEntry reg c w).acq.getLsbD r = c.acq.getLsbD r := by
  unfold writeEntry
  split
  · exact setReg_ne c _ (h _ ‹_›)
  · exact ⟨rfl, rfl⟩

/-- A register that no entry with a value names stands as before. -/
theorem writeEntries_unwritten {reg : Nat → Nat} {ws : List (Nat × Option Val)} {r : Nat} (c : Ctl)
    (h : ∀ w ∈ ws, ∀ v, w.2 = some (.val v) → reg w.1 ≠ r) :
    (ws.foldl (writeEntry reg) c).reg r = c.reg r ∧ (ws.foldl (writeEntry reg) c).acq.getLsbD r = c.acq.getLsbD r := by
  induction ws generalizing c with
  | nil => exact ⟨rfl, rfl⟩
  | cons w ws ih =>
    obtain ⟨hw, hws⟩ := List.forall_mem_cons.mp h
    obtain ⟨regs, acqs⟩ := ih (writeEntry reg c w) hws
    obtain ⟨reg1, acq1⟩ := writeEntry_unwritten c hw
    exact ⟨regs.trans reg1, acqs.trans acq1⟩

/-- Of entries that name different registers, one with a value writes its own. -/
theorem writeEntries_written {reg : Nat → Nat} {ws : List (Nat × Option Val)} {w : Nat × Option Val} {v : Word} (c : Ctl)
    (distinct : (ws.map fun w => reg w.1).Nodup) (hw : w ∈ ws) (hv : w.2 = some (.val v)) (h0 : reg w.1 ≠ 0) (h : reg w.1 < 64) :
    (ws.foldl (writeEntry reg) c).reg (reg w.1) = v ∧ (ws.foldl (writeEntry reg) c).acq.getLsbD (reg w.1) = false := by
  induction ws generalizing c with
  | nil => cases hw
  | cons x ws ih =>
    obtain ⟨once, distinct⟩ := List.nodup_cons.mp distinct
    rcases List.mem_cons.mp hw with rfl | hw
    · have later : ∀ x ∈ ws, ∀ u, x.2 = some (.val u) → reg x.1 ≠ reg w.1 :=
        fun x hx _ _ same => once (List.mem_map.mpr ⟨x, hx, same⟩)
      obtain ⟨regs, acqs⟩ := writeEntries_unwritten (writeEntry reg c w) later
      have writes : writeEntry reg c w = c.setReg (reg w.1) v := by rw [writeEntry, hv]
      rw [List.foldl_cons, regs, acqs, writes]
      exact setReg_self c v h0 h
    · exact ih (writeEntry reg c x) distinct hw

/-! ## Entries with their numbers -/

theorem getElem?_indexed {α : Type} (k j : Nat) (l : List α) : (indexed k l)[j]? = l[j]?.map fun a => (k + j, a) := by
  induction l generalizing k j with
  | nil => rfl
  | cons a l ih =>
    cases j with
    | zero => rfl
    | succ j =>
      simp only [indexed, List.getElem?_cons_succ, ih]
      cases l[j]? <;> simp [Nat.add_assoc, Nat.add_comm 1]

theorem mem_indexed_zero {α : Type} {l : List α} {x : Nat × α} : x ∈ indexed 0 l ↔ l[x.1]? = some x.2 := by
  rw [List.mem_iff_getElem?]
  simp only [getElem?_indexed, Option.map_eq_some_iff, Nat.zero_add]
  constructor
  · rintro ⟨j, a, ha, rfl⟩
    exact ha
  · exact fun h => ⟨x.1, x.2, h, rfl⟩

theorem map_fst_indexed {α : Type} (k : Nat) (l : List α) : (indexed k l).map Prod.fst = List.range' k l.length := by
  induction l generalizing k with
  | nil => rfl
  | cons a l ih => simp only [indexed, List.map_cons, ih, List.length_cons, List.range'_succ]

theorem writeReg_lt (ws : List Word) (j : Nat) : Layout.writeReg ws j < 64 := by
  have width : 16 * (j % 4) + 15 + 1 - (16 * (j % 4) + 10) = 6 := by omega
  simp only [Layout.writeReg, bits, width]
  exact Nat.mod_lt _ (by decide)

/-- What the write entries of a block, whose registers differ, make of its context. -/
theorem writeRegs_leaves {b : Block} (c : Ctl)
    (distinct : ((List.range (Layout.nwrite b.words)).map (Layout.writeReg b.words)).Nodup)
    (len : b.writes.length = Layout.nwrite b.words) :
    let t := writeRegs b c
    (∃ regs acq, t = { c with regs, acq })
    ∧ (∀ j v, b.writes[j]? = some (some (.val v)) → Layout.writeReg b.words j ≠ 0 →
        t.reg (Layout.writeReg b.words j) = v ∧ t.acq.getLsbD (Layout.writeReg b.words j) = false)
    ∧ ∀ r, (∀ j v, b.writes[j]? = some (some (.val v)) → Layout.writeReg b.words j ≠ r) →
        t.reg r = c.reg r ∧ t.acq.getLsbD r = c.acq.getLsbD r := by
  dsimp only
  rw [writeRegs_eq]
  have entries : (indexed 0 b.writes).map (fun w => Layout.writeReg b.words w.1)
      = (List.range (Layout.nwrite b.words)).map (Layout.writeReg b.words) := by
    rw [← len, List.range_eq_range', ← map_fst_indexed, List.map_map]
    rfl
  refine ⟨writeEntries_frame _ _ c, fun j v hj h0 => ?_, fun r hr => ?_⟩
  · exact writeEntries_written (w := (j, some (.val v))) c (entries ▸ distinct) (mem_indexed_zero.mpr hj) rfl h0 (writeReg_lt _ j)
  · exact writeEntries_unwritten c fun w hw v hv => hr w.1 v ((mem_indexed_zero.mp hw).trans (congrArg some hv))

/-! ## Held stores enter the outbound set (R100) -/

theorem byLsid_nil : byLsid [] = [] := by simp [byLsid]

theorem byLsid_singleton {h : Held} (hl : h.lsid < 33) : byLsid [h] = [h] := by
  have upTo (n : Nat) : ((List.range n).flatMap fun l => [h].filter fun h => h.lsid == l) = if h.lsid < n then [h] else [] := by
    induction n with
    | zero => rfl
    | succ n ih =>
      rw [List.range_succ, List.flatMap_append, ih]
      rcases Nat.lt_trichotomy h.lsid n with hn | hn | hn
      · simp [hn, hn.ne, Nat.lt_succ_of_lt hn]
      · simp [hn]
      · simp [hn.ne', Nat.not_lt_of_lt hn, Nat.not_lt.mpr hn]
  rw [byLsid, upTo, if_pos hl]

/-- A block's held stores below a limit leave the block, and nothing else of the instances changes. -/
theorem enterBelow_insts {s : State} {i : Nat} {b : Block} (limit : Nat) (hb : s.blk? i = some b) :
    (enterBelow s i limit).insts
      = (s.modBlk i fun b => { b with held := b.held.filter fun h => !(h.lsid < limit) }).insts := by
  have block : (s.inst? i).bind (fun n => n.ctl.blk) = some b := hb
  simp only [enterBelow, block, State.modBlk, State.modCtl, State.modInst, foldl_enterHeld_insts]

theorem enterBelow_outb {s : State} {i : Nat} {b : Block} (limit : Nat) (hb : s.blk? i = some b) :
    (enterBelow s i limit).outb = ((byLsid (b.held.filter fun h => h.lsid < limit)).foldl
      (fun s h => enterHeld s i (if Layout.ser b.words then b.id + 1 else 0) h) s).outb := by
  have block : (s.inst? i).bind (fun n => n.ctl.blk) = some b := hb
  simp only [enterBelow, block, State.modBlk_outb]

/-- A held store of one piece enters as one write. -/
theorem enterHeld_one (s : State) (i ser : Nat) {h : Held} {p : Piece} (hf : h.fence = none) (hp : h.pieces = [p]) :
    ∃ o, (enterHeld s i ser h).outb = s.outb ++ [o] ∧ o.agent = .ctl i ∧ o.key = p.key ∧ o.data = h.data.take p.n
      ∧ o.rel = h.rel := by
  simp only [enterHeld, hf, enterWrite, hp, List.foldl_cons, List.foldl_nil]
  exact ⟨_, rfl, rfl, rfl, rfl, rfl⟩

/-! ## The commit of a block that branches (R206, R240, R388) -/

/-- What such a commit makes of its context, a STEP trap due or not, the block's held stores already entered. -/
def Ctl.branched (b : Block) (a : Word) (stepped : Bool) (c : Ctl) : Ctl :=
  let c := writeRegs b c
  { c with dz := c.dz || b.divZero, watch := 0, expired := false, blk := none, next := a
           due := if stepped then some ⟨codeStep, a, 0xC2, 0, none, none, 0⟩ else c.due }

/-- The state after such a commit. -/
def branchCommitted (s : State) (i : Nat) (n : Inst) (b : Block) (a : Word) : State :=
  ((enterBelow s i 33).modCtl i (Ctl.branched b a (n.ctl.step && !n.ctl.cur))).countCore n.cluster 0x010 1

section Branch

variable {s : State} {i k : Nat} {n : Inst} {b : Block} {a : Word}

theorem commitBlock_branches (hacts : b.acts = []) (hnest : Layout.isNest b.words = false) (hexit : b.exit = some (k, .block a)) :
    commitBlock s i n b = branchCommitted s i n b a := by
  have none_ranked : ranked [] = [] := rfl
  have counted (u : State) (f : Ctl → Ctl) :
      (u.countCore n.cluster 0x010 1).modCtl i f = (u.modCtl i f).countCore n.cluster 0x010 1 := rfl
  simp only [commitBlock, branchCommitted, installNest, hnest, hacts, none_ranked, takeExit, hexit, stepDue, counted,
    List.foldl_nil, Bool.false_eq_true, if_false, State.modCtl_modCtl]
  cases n.ctl.step && !n.ctl.cur <;> rfl

theorem exec_blockCommit_committable (hn : s.inst? i = some n) (hb : n.ctl.blk = some b) (hc : committable s i n b = true) :
    exec (.blockCommit i) s = .next (commitBlock s i n b) := by
  rw [exec_blockCommit, execBlockCommit, hn]
  simp only [hb, hc, if_true]

theorem due_of_committable (hc : committable s i n b = true) : n.ctl.due = none := by
  simp only [committable, Bool.and_eq_true, Option.isNone_iff_eq_none] at hc
  tauto

/-- The context that commits as its held stores leave it. -/
def Ctl.entered (c : Ctl) : Ctl :=
  { c with blk := c.blk.map fun b => { b with held := b.held.filter fun h => !(h.lsid < 33) } }

/-- What the commit leaves of the instances, of memory and of the outbound sets. -/
theorem commit_leaves (hn : s.inst? i = some n) (hb : n.ctl.blk = some b) :
    let t := branchCommitted s i n b a
    t.inst? i = some { n with ctl := n.ctl.entered.branched b a (n.ctl.step && !n.ctl.cur) } ∧ (∀ j, j ≠ i → t.inst? j = s.inst? j)
      ∧ t.mem = s.mem ∧ t.outb = (enterBelow s i 33).outb := by
  have block : s.blk? i = some b := by rw [State.blk?, hn, Option.bind_some, hb]
  have insts : (branchCommitted s i n b a).insts
      = (s.modCtl i fun c => c.entered.branched b a (n.ctl.step && !n.ctl.cur)).insts := by
    change amod i _ (enterBelow s i 33).insts = _
    rw [enterBelow_insts 33 block, State.modBlk, State.modCtl, State.modInst, amod_amod]
    rfl
  refine ⟨?_, fun j hj => ?_, (OnBindPart.enterBelow i 33).mem s, rfl⟩
  · rw [State.inst?, insts, ← State.inst?, State.inst_modCtl_self, hn, Option.map_some]
  · rw [State.inst?, insts, ← State.inst?, State.inst_modCtl_ne s _ hj.symm]

end Branch

/-! ## O39 -/

/-- Settles O39: a block that branches and has nothing else noted commits its held stores, its write entries and its exit. -/
theorem commitWritesItsRegisters : Obligations.CommitWritesItsRegisters := by
  unfold Obligations.CommitWritesItsRegisters
  intro s i k n b a hn hb hc hacts hnest hexit distinct len
  have block : s.blk? i = some b := by rw [State.blk?, hn, Option.bind_some, hb]
  have commits := exec_blockCommit_committable hn hb hc
  rw [commitBlock_branches hacts hnest hexit] at commits
  obtain ⟨inst, others, mem, outb⟩ := commit_leaves (a := a) hn hb
  obtain ⟨⟨regs, acq, frame⟩, written, unwritten⟩ := writeRegs_leaves n.ctl.entered distinct len
  refine ⟨_, _, commits, inst, mem, others, written, unwritten, rfl, ?_, fun held => ?_, fun h p held hf hp hl => ?_⟩
  · have due : n.ctl.entered.due = none := due_of_committable hc
    simp only [Ctl.branched]
    rw [frame, due]
    rfl
  · rw [outb, enterBelow_outb 33 block, held, List.filter_nil, byLsid_nil, List.foldl_nil]
  · rw [outb, enterBelow_outb 33 block, held, List.filter_singleton, decide_eq_true hl, cond_true, byLsid_singleton hl,
      List.foldl_cons, List.foldl_nil]
    exact enterHeld_one s i _ hf hp

end Sys2Proof.Machine
end

section
/-! PROOFS. The read of an LD: where its bytes come from, what it leaves in the core's data cache, and the value that it
delivers (O23). -/

namespace Sys2Proof.Machine

open Sys2Proof.Bits Sys2Proof.Rows

/-! ## The value of a load's bytes (R8, R248) -/

/-- The value of an LD whose byte `j` is `g j`: little-endian, sign- or zero-extended. -/
def valueOfBytes (f : MOp) (g : Nat → Byte) : Word :=
  match f.sz with
  | .b => if f.sg then (g 0).signExtend 64 else (g 0).setWidth 64
  | .h => if f.sg then (g 1 ++ g 0).signExtend 64 else (g 1 ++ g 0).setWidth 64
  | .w => if f.sg then (g 3 ++ g 2 ++ g 1 ++ g 0).signExtend 64 else (g 3 ++ g 2 ++ g 1 ++ g 0).setWidth 64
  | .d => g 7 ++ g 6 ++ g 5 ++ g 4 ++ g 3 ++ g 2 ++ g 1 ++ g 0

theorem valueOfBytes_congr {f : MOp} {g h : Nat → Byte} (same : ∀ j, j < sizeBytes f.sz → g j = h j) :
    valueOfBytes f g = valueOfBytes f h := by
  unfold valueOfBytes
  cases hz : f.sz <;> rw [hz] at same
  case b => simp only [same 0 (by decide)]
  case h => simp only [same 0 (by decide), same 1 (by decide)]
  case w => simp only [same 0 (by decide), same 1 (by decide), same 2 (by decide), same 3 (by decide)]
  case d => simp only [same 0 (by decide), same 1 (by decide), same 2 (by decide), same 3 (by decide), same 4 (by decide),
      same 5 (by decide), same 6 (by decide), same 7 (by decide)]

theorem sext_eq_signExtend (v n : Nat) : sext v n = (BitVec.ofNat n v).signExtend 64 := by
  rw [sext, sextI_mod]
  rfl

theorem zext_eq_setWidth (v n : Nat) : zext v n = (BitVec.ofNat n v).setWidth 64 :=
  BitVec.eq_of_toNat_eq (by simp [zext])

theorem ofNat_leNat_singleton (b : Byte) : BitVec.ofNat 8 (leNat [b]) = b := by simp [leNat]

/-- The first byte of a little-endian number stands lowest. -/
theorem ofNat_leNat_cons (n : Nat) (b : Byte) (bs : List Byte) :
    BitVec.ofNat (n + 8) (leNat (b :: bs)) = BitVec.ofNat n (leNat bs) ++ b := by
  have low : (b.toNat + 256 * leNat bs) % 256 = b.toNat := by have := b.isLt; omega
  have high : (b.toNat + 256 * leNat bs) / 256 = leNat bs := by have := b.isLt; omega
  apply BitVec.eq_of_toNat_eq
  rw [BitVec.toNat_append, BitVec.toNat_ofNat, BitVec.toNat_ofNat, ← Nat.shiftLeft_add_eq_or_of_lt b.isLt, leNat, Nat.pow_add,
    Nat.mul_comm (2 ^ n), show (2 : Nat) ^ 8 = 256 from rfl, Nat.mod_mul, low, high, Nat.shiftLeft_eq]
  omega

/-- The value that an LD gives its bytes. -/
theorem loadValue_eq {f : MOp} {bs : List Byte} (h : bs.length = sizeBytes f.sz) :
    loadValue f bs = valueOfBytes f fun j => bs.getD j 0 := by
  simp only [loadValue, valueOfBytes, sext_eq_signExtend, zext_eq_setWidth]
  cases hz : f.sz with
  | b =>
    rw [hz] at h
    match bs, h with
    | [b0], _ =>
      change (if f.sg = true then (BitVec.ofNat 8 _).signExtend 64 else (BitVec.ofNat 8 _).setWidth 64) = _
      rw [ofNat_leNat_singleton]
      rfl
  | h =>
    rw [hz] at h
    match bs, h with
    | [b0, b1], _ =>
      have bits : BitVec.ofNat (8 + 8) (leNat [b0, b1]) = b1 ++ b0 := by rw [ofNat_leNat_cons, ofNat_leNat_singleton]
      exact bits ▸ rfl
  | w =>
    rw [hz] at h
    match bs, h with
    | [b0, b1, b2, b3], _ =>
      have bits : BitVec.ofNat (8 + 8 + 8 + 8) (leNat [b0, b1, b2, b3]) = b3 ++ b2 ++ b1 ++ b0 := by
        rw [ofNat_leNat_cons, ofNat_leNat_cons, ofNat_leNat_cons, ofNat_leNat_singleton]
      exact bits ▸ rfl
  | d =>
    rw [hz] at h
    match bs, h with
    | [b0, b1, b2, b3, b4, b5, b6, b7], _ =>
      have bits : BitVec.ofNat (8 + 8 + 8 + 8 + 8 + 8 + 8 + 8) (leNat [b0, b1, b2, b3, b4, b5, b6, b7])
          = b7 ++ b6 ++ b5 ++ b4 ++ b3 ++ b2 ++ b1 ++ b0 := by
        rw [ofNat_leNat_cons, ofNat_leNat_cons, ofNat_leNat_cons, ofNat_leNat_cons, ofNat_leNat_cons, ofNat_leNat_cons,
          ofNat_leNat_cons, ofNat_leNat_singleton]
      change (if f.sg = true then (BitVec.ofNat (8 + 8 + 8 + 8 + 8 + 8 + 8 + 8) _).signExtend 64
        else (BitVec.ofNat (8 + 8 + 8 + 8 + 8 + 8 + 8 + 8) _).setWidth 64) = _
      rw [bits, BitVec.signExtend_eq, BitVec.setWidth_eq, ite_self]
      rfl

theorem Memory.getD_readN (m : Memory) (a : Nat) {n j : Nat} (h : j < n) : (m.readN a n).getD j 0 = m.read (a + j) := by
  induction n generalizing a j with
  | zero => omega
  | succ n ih =>
    cases j with
    | zero => rfl
    | succ j =>
      rw [Memory.readN, List.getD_cons_succ, ih (a + 1) (by omega)]
      congr 1
      omega

/-- The value of an LD that takes the bytes of a run. -/
theorem loadValue_bytes (s : State) (f : MOp) {p : Piece} (hn : p.n = sizeBytes f.sz) :
    loadValue f (s.bytes p.key p.n) = valueOfBytes f fun j => s.mem.read (p.key + j) := by
  rw [loadValue_eq (bs := s.bytes p.key p.n) ((Memory.length_readN _ _ _).trans hn)]
  exact valueOfBytes_congr fun j hj => Memory.getD_readN _ _ (hn ▸ hj)

/-- The value of an LD that takes part of a line. -/
theorem loadValue_slice {f : MOp} {bs : List Byte} {d n : Nat} (hn : n = sizeBytes f.sz) (fits : d + n ≤ bs.length) :
    loadValue f ((bs.drop d).take n) = valueOfBytes f fun j => bs.getD (d + j) 0 := by
  rw [loadValue_eq (by simp; omega)]
  refine valueOfBytes_congr fun j hj => ?_
  simp [List.getD_eq_getElem?_getD, hn ▸ hj]

/-! ## The reads of a core (R89, R96) -/

section Reads

variable {s : State} {p : Piece} {core : Nat}

theorem coveredBy_nil (key : Nat) {n : Nat} (hn : 0 < n) : coveredBy key n [] = false := by
  rw [coveredBy, List.all_eq_false]
  exact ⟨0, List.mem_range.mpr hn, by simp⟩

/-- A read past the data cache of what is not poisoned takes the home's bytes, and the cached copy is renewed. -/
theorem readPast_of_no_writes (hn : 0 < p.n) (hflaws : s.flaws = []) (clean : poisonedIn s.poison p.key p.n = false) :
    readPast s core [] p = ⟨refreshLine s core p.key, s.bytes p.key p.n, false⟩ := by
  simp only [readPast, readHome_of_no_writes hn hflaws, clean, coveredBy_nil _ hn, Bool.or_self, Bool.false_eq_true, if_false]

/-- With no copy of the line the home serves a read that may use the data cache, and the line is placed there. -/
theorem readCached_of_absent (hn : 0 < p.n) (hflaws : s.flaws = []) (clean : poisonedIn s.poison p.key p.n = false)
    (absent : aget (p.key - p.key % 64) (s.core core).cache = none) :
    readCached s core [] p = ⟨s.modCore core fun c =>
      { c with cache := aset (p.key - p.key % 64) (s.bytes (p.key - p.key % 64) 64) c.cache }, s.bytes p.key p.n, false⟩ := by
  simp only [readCached, absent, readHome_of_no_writes hn hflaws, clean, coveredBy_nil _ hn, Bool.or_self, Bool.false_eq_true,
    if_false]

/-- A present copy of the line serves it. -/
theorem readCached_of_present {bs : List Byte} (present : aget (p.key - p.key % 64) (s.core core).cache = some bs) :
    readCached s core [] p = ⟨s, (bs.drop (p.key % 64)).take p.n, false⟩ := by
  have offset : p.key - (p.key - p.key % 64) = p.key % 64 := by have := Nat.mod_le p.key 64; omega
  simp only [readCached, present, offset, List.foldl_nil]

end Reads

/-! ## The read of an LD (R248) -/

/-- What the read of an LD takes, with no write of its own agent before it. -/
def loadTakes (s : State) (core : Nat) (f : MOp) (p : Piece) : Taken :=
  if p.cache && f.ord == .plain then readCached s core [] p else readPast s core [] p

theorem loadTakes_past {s : State} {core : Nat} {f : MOp} {p : Piece} (h : p.cache = false ∨ f.ord ≠ .plain) :
    loadTakes s core f p = readPast s core [] p := by
  refine if_neg ?_
  rcases h with h | h <;> simp [h]

theorem loadTakes_cached {s : State} {core : Nat} {f : MOp} {p : Piece} (h : p.cache = true) (plain : f.ord = .plain) :
    loadTakes s core f p = readCached s core [] p :=
  if_pos (by simp [h, plain])

section Load

variable {s : State} {i k : Nat} {n : Inst} {b : Block} {r : SlotRec} {f : MOp} {p : Piece}

/-- An LD of one piece that performs on what it takes: unpoisoned, and as many bytes as its piece has. -/
theorem performLoad_delivers {u : State} {bs : List Byte} (own : ctlOwn s i b f.lsid.toNat = [])
    (takes : loadTakes s n.cluster f p = ⟨u, bs, false⟩)
    (hp : r.pieces = [p]) (hg : r.got = []) (len : bs.length = p.n) :
    performLoad s i k n b r f p = deliver ((if f.ord = .acq then acquire u n.cluster f.scope else u).modSlot i k fun r =>
      { r with got := bs, st := .done }) i f.t1 (.val (loadValue f bs)) := by
  rw [loadTakes] at takes
  have whole : ¬ bs.length < piecesLen [p] := by simp [piecesLen, len]
  simp only [performLoad, own, takes, hp, hg, List.nil_append, whole, Bool.false_eq_true, if_false, beq_iff_eq]

/-- READ_PERFORM of an LD's slot that stands translated to one piece is that piece's read. -/
theorem exec_readPerform_ld {row : Row} {w : Instr} (hn : s.inst? i = some n) (hb : n.ctl.blk = some b)
    (hf : n.canFire = true) (hr : b.slots[k]? = some r) (hq : b.req = none) (hs : Layout.slot b.words k = some (row, .m f, w))
    (ho : row.opc = 0x60) (ht : r.st = .translated) (hp : r.pieces = [p]) (hg : r.got = []) (h0 : 0 < p.n)
    (may : readMay s i b k f.lsid.toNat p = true) :
    exec (.readPerform (.ctl i) k) s = .next (performLoad s i k n b r f p) := by
  have hrec : b.rec_ k = r := by rw [Block.rec_, List.getD, hr]; rfl
  have hnext : nextPiece r = some p := by simp [nextPiece, nextPiece.go, hp, hg, h0]
  simp [exec_readPerform, execReadPerform, readOfCtl, readCtl, hn, hb, hq, hs, hrec, hnext, hf, ht, ho, may]

theorem ctlOwn_of_nothing_written (i lsid : Nat) (hout : s.outb = []) (hheld : b.held = []) : ctlOwn s i b lsid = [] := by
  simp [ctlOwn, State.ownWrites, State.outbOf, hout, hheld, byLsid]

end Load

/-! ## O23 -/

/-- Settles O23: an LD of one piece with nothing written before it takes its bytes past the data cache, or through it by the
copy that is there or placed there, and delivers their value. -/
theorem loadDeliversItsBytes : Obligations.LoadDeliversItsBytes := by
  unfold Obligations.LoadDeliversItsBytes
  intro s i k n b r row f w p hn hb hf hr hq hs ho ht hp hg size hout hheld hflaws may
  have h0 : 0 < p.n := size ▸ sizeBytes_pos f.sz
  have reads := exec_readPerform_ld hn hb hf hr hq hs ho ht hp hg h0 may
  have own := ctlOwn_of_nothing_written i f.lsid.toNat hout hheld
  have homeLen : (s.bytes p.key p.n).length = p.n := Memory.length_readN _ _ _
  have value := loadValue_bytes s f size
  refine ⟨fun past clean => ?_, fun cached plain absent clean => ?_, fun cached plain fits bs present len => ?_⟩
  · have takes := (loadTakes_past past).trans (readPast_of_no_writes (core := n.cluster) h0 hflaws clean)
    rw [reads, performLoad_delivers own takes hp hg homeLen, value]
    rfl
  · have takes := (loadTakes_cached cached plain).trans (readCached_of_absent h0 hflaws clean absent)
    rw [reads, performLoad_delivers own takes hp hg homeLen, value, plain]
    rfl
  · have takes := (loadTakes_cached cached plain).trans (readCached_of_present present)
    have cut : ((bs.drop (p.key % 64)).take p.n).length = p.n := by simp; omega
    rw [reads, performLoad_delivers own takes hp hg cut, loadValue_slice size (by omega), plain]
    rfl

end Sys2Proof.Machine
end

section
/-! PROOFS. What the last signal of a record with a token register makes of its context, and the clause of O54 on it that
fails. -/

namespace Sys2Proof.Machine

open Sys2Proof.Bits Sys2Proof.Rows

/-! ## The token register and the COPY event (R125, R287) -/

/-- A context that has seen the event of a bit of EVPEND: its block in flight keeps it apart from what a WAITEV delivered. -/
def Ctl.sawEvent (bit : Nat) (c : Ctl) : Ctl :=
  { c with
    evpend := c.evpend ||| BitVec.twoPow 4 bit
    blk := c.blk.map fun b => { b with evLate := b.evLate ||| BitVec.twoPow 4 bit } }

theorem postEvent_running {s : State} {i : Nat} {n : Inst} (bit : Nat) (hn : s.inst? i = some n) (hlife : n.life = .running) :
    postEvent s i bit = s.modCtl i (Ctl.sawEvent bit) := by
  simp only [postEvent, hn, hlife, reduceCtorEq, if_false]
  rfl

theorem deliverToken_running {s : State} {i : Nat} {n : Inst} (reg : Nat) (v : Word) (bit : Nat) (rel : Bool)
    (hn : s.inst? i = some n) (hlife : n.life = .running) :
    deliverToken s i reg v bit rel = s.modCtl i fun c => (c.setToken reg v rel).sawEvent bit := by
  have stands : (s.modCtl i fun c => c.setToken reg v rel).inst? i = some { n with ctl := n.ctl.setToken reg v rel } := by
    rw [State.inst_modCtl_self, hn, Option.map_some]
  simp only [deliverToken, hn, hlife, reduceCtorEq, if_false]
  rw [postEvent_running bit stands hlife, State.modCtl_modCtl]

theorem setToken_blk (c : Ctl) (reg : Nat) (v : Word) (rel : Bool) : (c.setToken reg v rel).blk = c.blk := by
  have kept : (c.setReg reg v).blk = c.blk := by
    unfold Ctl.setReg
    split <;> rfl
  unfold Ctl.setToken
  dsimp only
  split <;> exact kept

/-! ## The last signal of a record (R125) -/

theorem dropRecord_insts {s : State} {x : Rec} (r : Nat) (hleave : x.leave = none) : (dropRecord s r x false).insts = s.insts := by
  simp only [dropRecord, recordLeave, hleave]

section LastSignal

variable {s : State} {r reg : Nat} {x : Rec} {n : Inst}

/-- The last signal of a record with a token register: the register takes the completion value, and its context, the block
in flight included, sees the COPY event. -/
theorem exec_recordComplete_token (hx : aget r s.recs = some x) (hphase : x.phase = .signal 2) (may : signalMay s r x = true)
    (htarget : x.target = .token reg) (hleave : x.leave = none) (hn : s.inst? x.inst = some n) (hlife : n.life = .running) :
    ∃ t, exec (.recordComplete r) s = .next t ∧ t.inst? x.inst = some { n with
      ctl := (n.ctl.setToken reg (completionValue x) (Stages.rel x.words)).sawEvent evCopy } := by
  have stands : (dropRecord (s.countDie (x.engine / 8) 0x050 1) r x false).inst? x.inst = some n := by
    rw [State.inst?, dropRecord_insts r hleave, (KeepsAskers.countDie _ _ _ _).insts]
    exact hn
  rw [exec_recordComplete, execRecordComplete, hx]
  simp only [hphase, may, if_true, signalDone, htarget, deliverToken_running reg _ evCopy _ stands hlife]
  exact ⟨_, rfl, by rw [State.inst_modCtl_self, stands, Option.map_some]⟩

/-- So a block in flight is changed by it: the COPY event counts as arrived since the block's WAITEV delivered. -/
theorem sawEvent_setToken_blk (c : Ctl) (v : Word) (rel : Bool) (bit : Nat) : ((c.setToken reg v rel).sawEvent bit).blk
    = c.blk.map fun b => { b with evLate := b.evLate ||| BitVec.twoPow 4 bit } := by
  rw [Ctl.sawEvent, setToken_blk]

end LastSignal

/-! ## A record that completes while a block is in flight -/

/-- A context whose next block is in flight. -/
def atWork : Inst := placedInst 0

/-- Its copy of 64 bytes from 0x2000 to 0x3000, whose last signal, at x63, is still to come. -/
def copyOf64 : Rec :=
  { Rec.fresh { State.reset with insts := [(0, atWork)] } 0 atWork 7 0x1000 (.token 63) false with
    phase := .signal 2, words := [0, 0x2000, 0x3000, 0x8000000000000040, 0, 0, 0, 0], issued := [0] }

/-- The module with that context and that record. -/
def copyEnding : State := { State.reset with bringup := .up, insts := [(0, atWork)], recs := [(5, copyOf64)] }

/-- What the statement asks of the state holds. -/
theorem copyEnding_meets_hypotheses : aget 5 copyEnding.recs = some copyOf64 ∧ signalMay copyEnding 5 copyOf64 = true
    ∧ copyOf64.leave = none ∧ copyEnding.inst? copyOf64.inst = some atWork ∧ atWork.life = .running := by
  decide +kernel

/-- The event changes the block in flight. -/
theorem atWork_block_sees_event :
    atWork.ctl.blk.map (fun b => { b with evLate := b.evLate ||| BitVec.twoPow 4 evCopy }) ≠ atWork.ctl.blk := by
  decide +kernel

/-! ## O54 -/

/-- Refutes O54 by its clause on the completion value (R125), which gives the whole context after the step with its block as
before: where a block is in flight, the COPY event is noted in it as well (`evLate`, for R287's clearing at commit). -/
theorem not_engineSteps : ¬ Obligations.EngineSteps := by
  unfold Obligations.EngineSteps
  rintro ⟨-, -, complete, -⟩
  obtain ⟨hx, may, hleave, hn, hlife⟩ := copyEnding_meets_hypotheses
  obtain ⟨-, -, -, token, -⟩ := complete copyEnding copyEnding 5 copyOf64 ⟨0, 0, false⟩ hx
  obtain ⟨t, n', exec_t, -, -, inst_t, ctl_t⟩ := token 63 atWork rfl may rfl hleave hn hlife
  obtain ⟨u, exec_u, inst_u⟩ := exec_recordComplete_token hx rfl may rfl hleave hn hlife
  rw [exec_t] at exec_u
  cases exec_u
  rw [inst_t] at inst_u
  cases inst_u
  have same := congrArg Ctl.blk ctl_t
  rw [sawEvent_setToken_blk] at same
  exact atWork_block_sees_event (same.trans (setToken_blk _ _ _ _))

end Sys2Proof.Machine
end

section
/-! PROOFS. The ports of the host and of peers (O58): inbound lines and reads, outbound reads and writes that are answered or
wait too long, the registers of BAR 0 that are written, and the attestation report. -/

namespace Sys2Proof.Machine

open Sys2Proof.Bits

/-! ## Ports and their vectors (R155) -/

theorem State.port_modPort_ne (s : State) {p q : Nat} (f : HostPort → HostPort) (h : q ≠ p) : (s.modPort p f).port q = s.port q := by
  simp [State.port, State.modPort, agetD, aget_aset_ne p q _ _ h]

/-- A vector is raised at each of the two ports. -/
theorem raiseMsix_port (s : State) (v : Nat) {p : Nat} (hp : p < 2) : (s.raiseMsix v).port p = (s.port p).signal v := by
  obtain rfl | rfl : p = 0 ∨ p = 1 := by omega
  · rw [State.raiseMsix, State.port_modPort_ne _ _ (by decide), State.port_modPort_self]
  · rw [State.raiseMsix, State.port_modPort_self, State.port_modPort_ne _ _ (by decide)]

@[simp] theorem signal_msixTable (p : HostPort) (v : Nat) : (p.signal v).msixTable = p.msixTable := by
  unfold HostPort.signal
  dsimp only
  split <;> rfl

@[simp] theorem signal_msixWord (p : HostPort) (v k : Nat) : (p.signal v).msixWord k = p.msixWord k := by
  rw [HostPort.msixWord, signal_msixTable, HostPort.msixWord]

/-- A masked vector is pending. -/
theorem signal_masked {p : HostPort} {v : Nat} (hv : v < 32) (masked : (p.msixWord (2 * v + 1)).getLsbD 32 = true) :
    (p.signal v).msixPending.getLsbD v = true := by
  have masked' : bit (p.msixWord (2 * v + 1)).toNat 32 = true := masked
  simp [HostPort.signal, masked', hv]

/-- Another sends its message. -/
theorem signal_unmasked {p : HostPort} {v : Nat} (unmasked : ¬ (p.msixWord (2 * v + 1)).getLsbD 32 = true) :
    (p.signal v).msixSent = p.msixSent ++ [(v, p.msixWord (2 * v), (p.msixWord (2 * v + 1)).toNat % 2 ^ 32)] := by
  have unmasked' : ¬ bit (p.msixWord (2 * v + 1)).toNat 32 = true := unmasked
  simp [HostPort.signal, unmasked']

/-- A record of the fault log leaves the table of a port's vectors as it was. -/
theorem logFault_msixWord (s : State) (code ctx tenant die cluster inst addr detail : Nat) {p : Nat} (hp : p < 2) (k : Nat) :
    ((s.logFault code ctx tenant die cluster inst addr detail).port p).msixWord k = (s.port p).msixWord k := by
  unfold State.logFault
  split
  · rw [raiseMsix_port _ _ hp, signal_msixWord]
    rfl
  · rfl

/-- A record of the fault log changes the log and the ports alone. -/
theorem logFault_frame (s : State) (code ctx tenant die cluster inst addr detail : Nat) :
    s.logFault code ctx tenant die cluster inst addr detail = { s with
      log := (s.logFault code ctx tenant die cluster inst addr detail).log
      ports := (s.logFault code ctx tenant die cluster inst addr detail).ports } := by
  unfold State.logFault
  split <;> rfl

/-- What a raised vector leaves at each port. -/
theorem raiseMsix_signals (s : State) {v port : Nat} (hv : v < 32) (hport : port < 2) :
    if ((s.port port).msixWord (2 * v + 1)).getLsbD 32 then ((s.raiseMsix v).port port).msixPending.getLsbD v = true
    else ((s.raiseMsix v).port port).msixSent.getLast?
      = some (v, (s.port port).msixWord (2 * v), ((s.port port).msixWord (2 * v + 1)).toNat % 2 ^ 32) := by
  rw [raiseMsix_port s v hport]
  split
  · exact signal_masked hv ‹_›
  · rw [signal_unmasked ‹_›, List.getLast?_concat]

/-! ## Registers written whole (R153) -/

/-- A write over the whole of a run replaces it. -/
theorem overlay_whole (key : Nat) {bs w : List Byte} (h : w.length = bs.length) : overlay key bs key w = w := by
  apply List.ext_getElem?
  intro i
  rw [overlay, List.getElem?_map, getElem?_indexed, Option.map_map]
  by_cases hi : i < bs.length
  · simp [h, hi]
  · rw [List.getElem?_eq_none (by omega), List.getElem?_eq_none (by omega), Option.map_none]

theorem mergeBytes_whole (old value : Word) : mergeBytes old value 0 8 = value := by
  rw [mergeBytes, overlay_whole 0 (by rw [length_leBytes, length_leBytes]), leNat_leBytes,
    show 256 ^ 8 = 2 ^ 64 from rfl, Nat.mod_eq_of_lt value.isLt, BitVec.ofNat_toNat, BitVec.setWidth_eq]

/-- A whole register written by a requester that waits for nothing takes effect. -/
theorem barTakes_whole {s : State} {port rid at_ : Nat} (hport : port < 2) (hrid : rid < 65536) (free : barHeld s port rid = false)
    (aligned : at_ % 8 = 0) : barTakes s port rid at_ 8 = true := by
  simp [barTakes, hport, hrid, free, aligned]

/-! ## Inbound writes (R112, R150, R157) -/

theorem putLine_lines (s : State) (port wr rid : Nat) (forwarded poisoned : Bool) (key : Nat) (data : List Byte) :
    ((putLine s port wr rid forwarded poisoned key data).port port).lines
      = (s.port port).lines ++ [⟨s.fresh + 1, wr, rid, forwarded, key, data, poisoned⟩] := by
  rw [putLine, State.port_modPort_self]
  rfl

/-- A write of one line that its aperture lets through is put at its port, under the name that the write took. -/
theorem postedWrite_line {s v : State} {port off index o : Nat} {rid : Nat} {ro poisoned peer : Bool}
    {entry : Nat → Option Aperture × Nat × Nat} {data : List Byte} {e : Aperture} {p : Piece} (hdata : 0 < data.length)
    (inside : off % 64 + data.length ≤ 64) (hp : p.n = data.length) (hentry : entry off = (some e, index, o))
    (ok : apertureOk e peer = true)
    (there : apertureXlate { s with fresh := s.fresh + 1 } port e o data.length true = (v, .ok [p])) :
    postedWrite s port rid ro poisoned peer entry off data
      = putLine v port (s.fresh + 1) rid (ro || !earlierLines s port rid (s.fresh + 1)) poisoned p.key data := by
  simp only [postedWrite, State.takeFresh, linesOf, tokensOf_within hdata inside, writeLines, List.take_length, hentry,
    writeLine, ok, Bool.not_true, Bool.false_eq_true, if_false, there, List.foldl_cons, List.foldl_nil, hp, Option.getD_some]
  rfl

/-! ## Lines and reads let go (R112, R152) -/

/-- A line of the host that is not forwarded yet. -/
def HostLine.heldByHost (l : HostLine) : Bool := !l.forwarded && decide (l.rid < 65536)

/-- Where the ordering point has room for every held line of the host, a line goes exactly when no earlier write of its
requester is left. -/
theorem forwardLines_of_room (all : List HostLine) {room : Nat} {ls : List HostLine}
    (h : (ls.filter HostLine.heldByHost).length ≤ room) : forwardLines all room ls
      = ls.map fun l => { l with forwarded := l.forwarded || !all.any fun k => k.rid == l.rid && k.wr < l.wr } := by
  induction ls generalizing room with
  | nil => rfl
  | cons l ls ih =>
    have count : (if l.heldByHost then 1 else 0) + (ls.filter HostLine.heldByHost).length ≤ room := by
      rw [List.filter_cons] at h
      split at h
      · rw [if_pos ‹_›]
        rw [List.length_cons] at h
        omega
      · rw [if_neg ‹_›]
        omega
    simp only [HostLine.heldByHost] at count
    rw [forwardLines, List.map_cons]
    generalize (all.any fun k => k.rid == l.rid && k.wr < l.wr) = waits
    cases hf : l.forwarded with
    | true =>
      simp only [hf, Bool.not_true, Bool.false_and, Bool.false_eq_true, if_false, Nat.zero_add] at count
      simpa [hf] using ih count
    | false =>
      by_cases host : l.rid < 65536
      · simp only [hf, host, Bool.not_false, decide_true, Bool.and_self, if_true] at count
        have room_left : 0 < room := by omega
        cases waits with
        | true => simpa [hf] using ih (by omega)
        | false => simpa [hf, host, room_left] using ih (by omega)
      · simp only [host, decide_false, Bool.and_false, Bool.false_eq_true, if_false, Nat.zero_add] at count
        cases waits <;> simpa [hf, host, Nat.le_of_not_lt host] using ih count

/-- A port of no more lines than the ordering point keeps has room for those of its held lines that are the host's. -/
theorem heldByHost_le_room {p : HostPort} (h : p.lines.length ≤ forwardCap) :
    (p.lines.filter HostLine.heldByHost).length ≤ forwardCap - forwardedLines p := by
  have total := List.length_eq_length_filter_add (l := p.lines) fun l => l.forwarded && decide (l.rid < 65536)
  have held : (p.lines.filter HostLine.heldByHost).length
      ≤ (p.lines.filter fun l => !(l.forwarded && decide (l.rid < 65536))).length :=
    (List.monotone_filter_right p.lines fun l hl => by simp_all [HostLine.heldByHost]).length_le
  rw [forwardedLines]
  omega

theorem forwardHeld_port (s : State) (port : Nat) : (forwardHeld s port).port port = { s.port port with
    lines := forwardLines (s.port port).lines (forwardCap - forwardedLines (s.port port)) (s.port port).lines
    reads := (s.port port).reads.map fun r => { r with
      forwarded := r.forwarded || !(s.port port).lines.any fun k => k.rid == r.rid && k.wr < r.id } } := by
  rw [forwardHeld, State.port_modPort_self]

/-! ## Inbound reads (R112, R150, R153) -/

/-- A read whose every line can be read joins its port's reads. -/
theorem inboundRead_takes {s v : State} {port rid tag off n : Nat} {ro peer : Bool} {entry : Nat → Option Aperture × Nat × Nat}
    {ps : List Piece} (there : readPieces port peer entry { s with fresh := s.fresh + 1 } (linesOf off n) [] = (v, .ok ps)) :
    inboundRead s port rid tag ro peer entry off n = v.modPort port fun p => { p with reads := p.reads ++ [⟨s.fresh + 1, rid, tag,
      ro, ro || !earlierLines v port rid (s.fresh + 1), ps, [], false⟩] } := by
  simp only [inboundRead, State.takeFresh, there]

theorem bar0Read_aligned (s : State) (port rid : Nat) {off n : Nat} (tag : Nat) (hn : n ∈ [1, 2, 4, 8]) (aligned : off % n = 0) :
    bar0Read s port rid off n tag = complete s port (.data rid tag
      (((leBytes 8 (barWord s port (off - off % 8)).toNat).drop (off % 8)).take n) false) := by
  rw [bar0Read, if_pos (by simp only [List.contains_iff_mem.mpr hn, aligned, beq_self_eq_true, Bool.and_self])]

theorem bar0Read_unaligned (s : State) (port rid : Nat) {off n : Nat} (tag : Nat) (h : n ∉ [1, 2, 4, 8] ∨ off % n ≠ 0) :
    bar0Read s port rid off n tag = complete s port (.unsupported rid tag) := by
  rw [bar0Read, if_neg]
  rw [Bool.and_eq_true, List.contains_iff_mem, beq_iff_eq]
  tauto

/-- The word of the identification region that reports where bring-up failed (R405). -/
theorem barWord_failedStep {s : State} {k : Nat} (h : s.bringup = .failed k) (port : Nat) :
    barWord s port (Config.failedStepWord % 512 * 8) = BitVec.ofNat 64 k := by
  rw [barWord, if_pos (by omega), identWord, h]
  exact if_pos rfl

/-! ## Data of an engine's outbound read (R148, R157) -/

theorem readArrives_engine {s : State} {q : OutRead} {r k : Nat} (h : q.for_ = .engine r k) (bs : List Byte) :
    readArrives s q bs = engineInput { s with outReads := s.outReads.filter fun x => x.tag != q.tag } r k (bs.map Stages.clean) := by
  rw [readArrives, h]

/-- The fault-log record of an engine's failed read: it names the context, the die and the instance of the engine's record. -/
def loggedForRecord (s : State) (r pa why : Nat) : State :=
  match aget r s.recs with
  | some x => s.logFault 0xF7 x.ctx (if x.ctx = 0xFF then 0 else s.tenantOf x.ctx) x.die 0
      (((s.inst? x.inst).map fun n => n.serial).getD 0) pa why
  | none => s.logFault 0xF7 0xFF 0 0 0 0 pa why

theorem hostReadFails_engine {s : State} {q : OutRead} {r k : Nat} (h : q.for_ = .engine r k) (why : Nat) :
    hostReadFails s q why = engineInput { loggedForRecord s r q.pa why with
      outReads := (loggedForRecord s r q.pa why).outReads.filter fun x => x.tag != q.tag } r k
        (List.replicate q.n (Stages.clean 0xFF)) := by
  have owner : s.logFault 0xF7 (readOwner s q.for_).1 (if (readOwner s q.for_).1 = 0xFF then 0 else s.tenantOf (readOwner s q.for_).1)
      (readOwner s q.for_).2.1 (readOwner s q.for_).2.2.1 (readOwner s q.for_).2.2.2 q.pa why = loggedForRecord s r q.pa why := by
    rw [h, readOwner, readOwner.recOwner, loggedForRecord]
    cases aget r s.recs <;> rfl
  rw [hostReadFails, owner, readArrives_engine h, List.map_replicate]

/-! ## Peers that do not answer (R155, R158) -/

/-- An address at a peer behind an entry. -/
def behindEntry (entry pa : Nat) : Bool := homeOf pa == .peer && (peerEntryOf pa).1 == entry

/-- The state with an entry down and the writes behind it dropped. -/
def withEntryDown (s : State) (entry : Nat) : State :=
  { s with peers := aset entry { (agetD ⟨0, 0, false⟩ entry s.peers : PeerEntry) with down := true } s.peers
           outWrites := s.outWrites.filter fun w => !behindEntry entry w.pa }

/-- The state with an entry down (R158), logged (R430). -/
def entryDown (s : State) (entry : Nat) : State :=
  (withEntryDown s entry).logEvent 0xF9 0 0 entry (bits (agetD ⟨0, 0, false⟩ entry s.peers : PeerEntry).w0.toNat 23 0)

/-- An entry whose write has waited 10 ms goes down, where no read waits behind it. -/
theorem exec_peerUnreachable_writes {s : State} {entry : Nat} {w : OutWrite} (hw : w ∈ s.outWrites)
    (mine : behindEntry entry w.pa = true) (late : w.since + peerCycles ≤ s.cycle)
    (noReads : ∀ r ∈ s.outReads, behindEntry entry r.pa = false) :
    exec (.peerUnreachable entry) s = .next ((entryDown s entry).raiseMsix 4) := by
  have found : s.outWrites.any (fun w => behindEntry entry w.pa && decide (w.since + peerCycles ≤ s.cycle)) = true :=
    List.any_eq_true.mpr ⟨w, hw, by rw [mine, decide_eq_true late, Bool.and_self]⟩
  have dropped : s.outReads.filter (fun r => behindEntry entry r.pa) = [] :=
    List.filter_eq_nil_iff.mpr fun r hr => by simp [noReads r hr]
  rw [exec_peerUnreachable, execPeerUnreachable]
  simp only [behindEntry] at found dropped
  simp only [found, Bool.true_or, Bool.not_true, Bool.false_eq_true, if_false, dropped, List.foldl_nil]
  rfl

/-- The entry is down, what was pending to it is dropped, and no byte of memory changes. -/
theorem entryDown_frame (s : State) (entry : Nat) : let t := (entryDown s entry).raiseMsix 4
    aget entry t.peers = some { (agetD ⟨0, 0, false⟩ entry s.peers : PeerEntry) with down := true }
      ∧ t.outWrites = s.outWrites.filter (fun w => !behindEntry entry w.pa) ∧ t.mem = s.mem := by
  rw [entryDown, State.logEvent, logFault_frame]
  exact ⟨aget_aset_self _ _ _, rfl, rfl⟩

theorem entryDown_msixWord (s : State) (entry : Nat) {port : Nat} (hport : port < 2) (k : Nat) :
    ((entryDown s entry).port port).msixWord k = (s.port port).msixWord k :=
  logFault_msixWord _ _ _ _ _ _ _ _ _ hport k

/-- Then vector 4 leaves each port, or is pending there while it is masked (R155). -/
theorem entryDown_signals (s : State) (entry : Nat) {port : Nat} (hport : port < 2) :
    if ((s.port port).msixWord 9).getLsbD 32 then (((entryDown s entry).raiseMsix 4).port port).msixPending.getLsbD 4 = true
    else (((entryDown s entry).raiseMsix 4).port port).msixSent.getLast?
      = some (4, (s.port port).msixWord 8, ((s.port port).msixWord 9).toNat % 2 ^ 32) := by
  have signals := raiseMsix_signals (entryDown s entry) (v := 4) (by decide) hport
  simp only [entryDown_msixWord s entry hport] at signals
  exact signals

/-! ## The tokens of a run (R107) -/

theorem bounds_of_mem_tokensOf {addr n tok : Nat} {t : Nat × Nat} (h : t ∈ tokensOf addr n tok) :
    t.1 < addr + n ∧ t.1 + t.2 ≤ addr + n ∧ t.2 ≤ tok := by
  unfold tokensOf at h
  split at h
  · cases h
  · rename_i hn
    obtain ⟨k, hk, rfl⟩ := List.mem_map.mp h
    have hk : addr / tok + k ≤ (addr + n - 1) / tok := by have := List.mem_range.mp hk; omega
    have low : (addr / tok + k) * tok ≤ addr + n - 1 := (Nat.mul_le_mul_right _ hk).trans (Nat.div_mul_le_self _ _)
    rw [Nat.succ_mul (addr / tok + k)]
    dsimp only
    omega

/-- A token of a run has its bytes in it. -/
theorem length_token {α : Type} {bs : List α} {addr n tok : Nat} (hbs : bs.length = n) {t : Nat × Nat} (h : t ∈ tokensOf addr n tok) :
    ((bs.drop (t.1 - addr)).take t.2).length = t.2 := by
  have low := le_of_mem_tokensOf h
  obtain ⟨-, high, -⟩ := bounds_of_mem_tokensOf h
  rw [List.length_take, List.length_drop]
  omega

/-- Where token `k` of a run begins in the run; past its last token, where it ends. -/
def tokenStart (addr n tok k : Nat) : Nat := min n ((addr / tok + k) * tok - addr)

theorem tokenStart_mono (addr n tok k : Nat) : tokenStart addr n tok k ≤ tokenStart addr n tok (k + 1) := by
  rw [tokenStart, tokenStart, ← Nat.add_assoc, Nat.succ_mul]
  omega

theorem tokenStart_zero (addr n tok : Nat) : tokenStart addr n tok 0 = 0 := by
  have := Nat.div_mul_le_self addr tok
  rw [tokenStart, Nat.add_zero]
  omega

theorem tokenStart_end {addr n tok : Nat} (htok : 0 < tok) :
    tokenStart addr n tok ((addr + n - 1) / tok + 1 - addr / tok) = n := by
  have last := Nat.lt_div_mul_add htok (a := addr + n - 1)
  have ordered : addr / tok ≤ (addr + n - 1) / tok + 1 := by
    rcases Nat.eq_zero_or_pos n with rfl | hn
    · exact (Nat.div_le_div_right (by omega : addr ≤ addr + 0 - 1 + tok)).trans_eq (Nat.add_div_right _ htok)
    · exact Nat.le_succ_of_le (Nat.div_le_div_right (by omega))
  rw [tokenStart, Nat.add_sub_cancel' ordered, Nat.succ_mul]
  omega

/-- Address and length of token `k` by where tokens begin. -/
theorem token_eq_tokenStart {addr n tok k : Nat} (htok : 0 < tok) (hk : addr / tok + k ≤ (addr + n - 1) / tok) :
    max addr ((addr / tok + k) * tok) - addr = tokenStart addr n tok k
      ∧ min (addr + n) ((addr / tok + k + 1) * tok) - max addr ((addr / tok + k) * tok)
        = tokenStart addr n tok (k + 1) - tokenStart addr n tok k := by
  have low : (addr / tok + k) * tok ≤ addr + n - 1 := (Nat.mul_le_mul_right _ hk).trans (Nat.div_mul_le_self _ _)
  have high : addr < (addr / tok + k + 1) * tok := by
    have := Nat.lt_div_mul_add htok (a := addr)
    rw [Nat.succ_mul, Nat.add_mul]
    omega
  rw [tokenStart, tokenStart, ← Nat.add_assoc]
  generalize (addr / tok + k) * tok = lo at low
  generalize (addr / tok + k + 1) * tok = hi at high
  omega

/-- Successive cuts of a list put together. -/
theorem flatMap_cuts {α : Type} (bs : List α) {c : Nat → Nat} (zero : c 0 = 0) (mono : ∀ k, c k ≤ c (k + 1)) (m : Nat) :
    ((List.range m).flatMap fun k => (bs.drop (c k)).take (c (k + 1) - c k)) = bs.take (c m) := by
  induction m with
  | zero => simp [zero]
  | succ m ih =>
    rw [List.range_succ, List.flatMap_append, ih, List.flatMap_singleton, ← List.take_add, Nat.add_sub_cancel' (mono m)]

/-- The bytes of a run's tokens in turn are the bytes of the run. -/
theorem flatMap_tokensOf {α : Type} {bs : List α} {addr n tok : Nat} (htok : 0 < tok) (hbs : bs.length = n) :
    ((tokensOf addr n tok).flatMap fun p => (bs.drop (p.1 - addr)).take p.2) = bs := by
  have whole := flatMap_cuts bs (tokenStart_zero addr n tok) (tokenStart_mono addr n tok) ((addr + n - 1) / tok + 1 - addr / tok)
  rw [tokenStart_end htok, List.take_of_length_le hbs.le] at whole
  rw [tokensOf]
  split
  · exact (List.length_eq_zero_iff.mp (hbs.trans ‹n = 0›)).symm
  · rw [List.flatMap_map]
    refine (List.flatMap_congr fun k hk => ?_).trans whole
    have hk := List.mem_range.mp hk
    obtain ⟨start, length⟩ := token_eq_tokenStart (addr := addr) (n := n) (k := k) htok (by omega)
    dsimp only
    rw [start, length]

/-! ## Writes of firmware to the host (R147, R148) -/

theorem deviceWrite_host {s : State} {key : Nat} (h : homeOf key = .host) (data : List Byte) (ordered : Bool) :
    deviceWrite s key data ordered = { s with
      fresh := s.fresh + 1, hostSeen := s.hostSeen ++ [⟨s.fresh + 1, key, data, ordered, none, s.cycle, 1⟩] } := by
  simp only [deviceWrite, State.takeFresh, h]

theorem homeOf_hostWindow {port off : Nat} (hport : port < 2) (h : off < 2 ^ 49) : homeOf (hostBase port + off) = .host := by
  have : 2 ^ 51 ≤ hostBase port ∧ hostBase port + 2 ^ 49 ≤ 0xC000000000000 := by
    obtain rfl | rfl : port = 0 ∨ port = 1 := by omega
    all_goals decide
  rw [homeOf, if_neg (by omega), if_pos (by omega)]

/-- Relaxed writes to the host, one after another, with the bytes that `f` gives each. -/
theorem foldl_fwWrite_host (f : Nat × Nat → List Byte) {ps : List (Nat × Nat)} (host : ∀ p ∈ ps, homeOf p.1 = .host) (s : State) :
    ∃ ws, ps.foldl (fun s p => fwWrite s p.1 (f p) false) s
        = { s with fresh := s.fresh + ps.length, hostSeen := s.hostSeen ++ ws }
      ∧ ws.map (fun w => (w.pa, w.data)) = ps.map (fun p => (p.1, f p)) ∧ ∀ w ∈ ws, w.ordered = false := by
  induction ps generalizing s with
  | nil => exact ⟨[], by simp, rfl, fun _ h => nomatch h⟩
  | cons p ps ih =>
    obtain ⟨ws, run, sent, relaxed⟩ := ih (fun q hq => host q (.tail _ hq)) (fwWrite s p.1 (f p) false)
    refine ⟨⟨s.fresh + 1, p.1, f p, false, none, s.cycle, 1⟩ :: ws, ?_, by rw [List.map_cons, List.map_cons, sent],
      List.forall_mem_cons.mpr ⟨rfl, relaxed⟩⟩
    rw [List.foldl_cons, run, fwWrite, deviceWrite_host (host p (.head _))]
    simp [Nat.add_assoc, Nat.add_comm 1]

/-! ## The attestation report (R359, R407) -/

theorem length_freeReport (lo hi : Nat) : (freeReport lo hi).length = hi - lo := by
  rw [freeReport, List.length_map, List.length_range]

theorem length_nonce (f : Nat → Nat) (n : Nat) : ((List.range n).flatMap fun k => leBytes 8 (f k)).length = 8 * n := by
  simp [List.length_flatMap, length_leBytes, Nat.mul_comm]

theorem length_reportHead (s : State) : (reportHead s).length = 0xF8 := by
  simp only [reportHead, List.length_append, length_freeReport, length_nonce fun k => (agetD 0 k s.fw.nonce).toNat,
    length_leBytes, List.length_map, List.length_range]

theorem length_reportBlock (s : State) : (reportBlock s).length = reportSize - 0x100 := by
  simp only [reportBlock, List.length_append, length_freeReport, length_leBytes, List.length_map, List.length_range,
    reportSize]

theorem length_reportBytes (s : State) : (reportBytes s).length = 16888 := by
  rw [reportBytes, List.length_append, length_reportHead, length_reportBlock, reportSize]

/-- The bytes of a run behind `a`, where `f` stands between `a` and `c`. -/
theorem take_drop_middle {α : Type} {bs a f c : List α} {off n : Nat} (h : bs = a ++ (f ++ c)) (ha : a.length = off)
    (hf : f.length = n) : (bs.drop off).take n = f := by
  rw [h, ← ha, List.drop_left, ← hf, List.take_left]

/-- Piece `k` of pieces of 8 bytes. -/
theorem take_drop_pieces {f : Nat → List Byte} (hf : ∀ k, (f k).length = 8) {k n : Nat} (hk : k < n) (rest : List Byte) :
    (((List.range n).flatMap f ++ rest).drop (8 * k)).take 8 = f k := by
  obtain ⟨j, rfl⟩ := Nat.exists_eq_add_of_le hk
  have pieces : (List.range (k + 1 + j)).flatMap f ++ rest
      = (List.range k).flatMap f ++ (f k ++ (((List.range j).map (k + 1 + ·)).flatMap f ++ rest)) := by
    rw [List.range_add, List.range_succ, List.flatMap_append, List.flatMap_append, List.flatMap_singleton,
      List.append_assoc, List.append_assoc]
  exact take_drop_middle pieces (by simp [List.length_flatMap, hf, Nat.mul_comm]) (hf k)

/-- The report from its nonce on. -/
def reportFromNonce (s : State) : List Byte :=
  (List.range 4).flatMap (fun k => leBytes 8 (agetD 0 k s.fw.nonce).toNat) ++ (leBytes 8 s.now ++ (freeReport 0x38 0xC8
    ++ (List.range 48).map (Config.defectDigest s.defects) ++ leBytes 8 s.fw.rollback ++ reportBlock s))

theorem drop_reportBytes (s : State) : (reportBytes s).drop 8 = reportFromNonce s := by
  have serial : reportBytes s = freeReport 0x08 0x10 ++ reportFromNonce s := by
    simp only [reportBytes, reportHead, reportFromNonce, List.append_assoc]
  rw [serial]
  exact List.drop_left' (length_freeReport 0x08 0x10)

theorem report_nonce (s : State) {k : Nat} (hk : k < 4) :
    ((reportBytes s).drop (0x10 + 8 * k - 8)).take 8 = leBytes 8 (agetD 0 k s.fw.nonce).toNat := by
  rw [show 0x10 + 8 * k - 8 = 8 + 8 * k by omega, ← List.drop_drop, drop_reportBytes, reportFromNonce]
  exact take_drop_pieces (fun _ => length_leBytes _ _) hk _

theorem report_now (s : State) : ((reportBytes s).drop 0x28).take 8 = leBytes 8 s.now := by
  rw [show 0x28 = 8 + 32 from rfl, ← List.drop_drop, drop_reportBytes]
  exact take_drop_middle rfl (length_nonce _ _) (length_leBytes _ _)

theorem report_rollback (s : State) : ((reportBytes s).drop 0xF0).take 8 = leBytes 8 s.fw.rollback := by
  have head : (reportHead s).length = 0xF0 + 8 := length_reportHead s
  rw [reportHead, List.length_append, length_leBytes, Nat.add_right_cancel_iff] at head
  exact take_drop_middle (by rw [reportBytes, reportHead, List.append_assoc]) head (length_leBytes _ _)

theorem report_blockWords (s : State) : ((reportBytes s).drop 0xF8).take 4 = leBytes 4 0x47534942
    ∧ ((reportBytes s).drop 0xFC).take 4 = leBytes 4 0x4100 := by
  have block : reportBytes s = reportHead s ++ (leBytes 4 0x47534942 ++ (leBytes 4 0x4100 ++ (freeReport 0x108 0x118 ++ leBytes 8 0
      ++ (List.range (reportSize - 0x120)).map (Config.reportSignature (leBytes 8 0 ++ reportHead s) s.fresh)))) := by
    simp only [reportBytes, reportBlock, List.append_assoc]
  refine ⟨take_drop_middle block (length_reportHead s) (length_leBytes _ _), ?_⟩
  rw [← List.append_assoc] at block
  exact take_drop_middle block (by rw [List.length_append, length_reportHead, length_leBytes]) (length_leBytes _ _)

/-- The report is sent in its tokens, relaxed, and its first word last, ordered (R147, R407). -/
theorem exec_attestationReportWrite_sends {s : State} {port : Nat} {addr : Word} (asked : s.fw.reportTo = some (port, addr))
    (hport : port < 2) (fits : addr.toNat % 2 ^ 49 + 16896 ≤ 2 ^ 49) : ∃ t ws, ∃ b : OutWrite,
    exec .attestationReportWrite s = .next t ∧ t.fw.reportTo = none ∧ t.mem = s.mem ∧ t.hostSeen = s.hostSeen ++ ws ++ [b]
      ∧ ws.map (fun w => (w.pa, w.data.length)) = tokensOf (hostBase port + addr.toNat % 2 ^ 49 + 8) 16888 512
      ∧ (∀ w ∈ ws, w.ordered = false) ∧ (ws.flatMap fun w => w.data) = reportBytes s
      ∧ b.pa = hostBase port + addr.toNat % 2 ^ 49 ∧ b.data = leBytes 8 0x5450455254415441 ∧ b.ordered = true := by
  generalize hbase : hostBase port + addr.toNat % 2 ^ 49 = base
  have host : ∀ key, base ≤ key → key < base + 8 + 16888 → homeOf key = .host := fun key low high => by
    rw [show key = hostBase port + (addr.toNat % 2 ^ 49 + (key - base)) by omega]
    exact homeOf_hostWindow hport (by omega)
  have length := length_reportBytes s
  generalize hbs : reportBytes s = bs at length
  have token : ∀ p ∈ tokensOf (base + 8) 16888 512, homeOf p.1 = .host
      ∧ ((bs.drop (p.1 - base - 8)).take p.2).length = p.2 := by
    intro p hp
    have low := le_of_mem_tokensOf hp
    have high := (bounds_of_mem_tokensOf hp).1
    rw [Nat.sub_sub]
    exact ⟨host p.1 (by omega) high, length_token length hp⟩
  obtain ⟨ws, run, sent, relaxed⟩ := foldl_fwWrite_host (fun p => (bs.drop (p.1 - base - 8)).take p.2)
    (fun p hp => (token p hp).1) s
  have exec_s : exec .attestationReportWrite s = .next { s with
      fresh := s.fresh + (tokensOf (base + 8) 16888 512).length + 1 + 1
      hostSeen := s.hostSeen ++ ws ++ [⟨s.fresh + (tokensOf (base + 8) 16888 512).length + 1, base,
        leBytes 8 0x5450455254415441, true, none, s.cycle, 1⟩]
      fw := { s.fw with reportTo := none } } := by
    rw [exec_attestationReportWrite, execAttestationReportWrite, asked]
    simp only [hbase, hbs, length, run]
    rw [fwWrite, deviceWrite_host (host base le_rfl (by omega))]
  have lengths := congrArg (List.map fun x : Nat × List Byte => (x.1, x.2.length)) sent
  have datas := congrArg (List.flatMap fun x : Nat × List Byte => x.2) sent
  rw [List.map_map, List.map_map] at lengths
  rw [List.flatMap_map, List.flatMap_map] at datas
  refine ⟨_, ws, _, exec_s, rfl, rfl, rfl, lengths.trans ?_, relaxed, datas.trans ?_, rfl, rfl, rfl⟩
  · exact (List.map_congr_left fun p hp => congrArg (p.1, ·) (token p hp).2).trans (List.map_id _)
  · simp only [Nat.sub_sub]
    exact flatMap_tokensOf (by decide) length

/-! ## Registers of BAR 0 written (R153, R159, R372, R375, R407) -/

/-- W0 of a launch-table entry that is not armed. -/
theorem exec_bar0RegisterWrite_start {s : State} {port rid e : Nat} (hport : port < 2) (hrid : rid < 65536)
    (free : barHeld s port rid = false) (he : e < 256) (unarmed : (agetD LtEntry.fresh e s.table).valid = false) (value : Word) :
    exec (.bar0RegisterWrite port rid (0x40000 + 32 * e) 8 value) s = .next { s with
      table := aset e { agetD LtEntry.fresh e s.table with start := value } s.table } := by
  rw [exec_bar0RegisterWrite, execBar0RegisterWrite, barTakes_whole hport hrid free (by omega), barWrite0]
  simp only [Bool.not_true, Bool.false_eq_true, if_false]
  rw [if_neg (by omega), if_pos (by omega), if_neg (by omega), show (0x40000 + 32 * e - 0x40000) / 32 = e by omega,
    show (0x40000 + 32 * e - 0x40000) % 32 / 8 = 0 by omega, show (0x40000 + 32 * e) % 8 = 0 by omega]
  simp only [tableWord, mergeBytes_whole, LtEntry.setWord, unarmed, Bool.false_eq_true, if_false]

/-- A word of the nonce. -/
theorem exec_bar0RegisterWrite_nonce {s : State} {port rid k : Nat} (hport : port < 2) (hrid : rid < 65536)
    (free : barHeld s port rid = false) (hk : k < 4) (value : Word) :
    exec (.bar0RegisterWrite port rid (0x800 + 8 * k) 8 value) s = .next { s with
      fw := { s.fw with nonce := aset k value s.fw.nonce } } := by
  rw [exec_bar0RegisterWrite, execBar0RegisterWrite, barTakes_whole hport hrid free (by omega), barWrite0]
  simp only [Bool.not_true, Bool.false_eq_true, if_false]
  rw [if_pos (by omega), show (0x800 + 8 * k - 0x800) / 8 = k by omega, show (0x800 + 8 * k) % 8 = 0 by omega, mergeBytes_whole]

/-- SRC: another source clears LOCKED, the one that stands changes nothing (log 96). -/
theorem timebaseSrc_spec (s : State) (value : Word) :
    (timebaseSrc s value).time.src = value.setWidth 2 ∧ (timebaseSrc s value).now = s.now
      ∧ (value.setWidth 2 = s.time.src → timebaseSrc s value = s)
      ∧ (value.setWidth 2 ≠ s.time.src → (timebaseSrc s value).time.locked = false) := by
  have time : (timebaseSrc s value).time = s.time.choose (value.setWidth 2) := by
    unfold timebaseSrc
    dsimp only
    split <;> rfl
  rw [State.now, State.now, time]
  unfold TimeBase.choose
  split
  · rename_i same
    refine ⟨same.symm, rfl, fun _ => ?_, fun other => absurd same other⟩
    simp only [timebaseSrc, TimeBase.choose, same, if_true, beq_self_eq_true]
  · rename_i other
    exact ⟨rfl, rfl, fun same => absurd same other, fun _ => rfl⟩

theorem exec_timebaseSrcWrite_whole {s : State} {port rid : Nat} (hport : port < 2) (hrid : rid < 65536)
    (free : barHeld s port rid = false) (value : Word) :
    exec (.timebaseSrcWrite ⟨port, rid, 0, 8, value⟩) s = .next (timebaseSrc s value) := by
  rw [exec_timebaseSrcWrite, execTimebaseSrcWrite, if_pos (barTakes_whole hport hrid free rfl), mergeBytes_whole]

theorem exec_ptmoffWrite_whole {s : State} {port rid : Nat} (hport : port < 2) (hrid : rid < 65536)
    (free : barHeld s port rid = false) (value : Word) :
    exec (.ptmoffWrite ⟨port, rid, 0, 8, value⟩) s = .next { s with time := { s.time with ptmoff := value } } := by
  rw [exec_ptmoffWrite, execPtmoffWrite, if_pos (barTakes_whole hport hrid free rfl), mergeBytes_whole, ptmoffWrite]

theorem exec_attestationRequest_aligned {s : State} {port rid : Nat} {addr : Word} (hport : port < 2) (hrid : rid < 65536)
    (free : barHeld s port rid = false) (aligned : addr.toNat % 64 = 0) :
    exec (.attestationRequest port rid addr) s = .next { s with fw := { s.fw with reportTo := some (port, addr) } } := by
  rw [exec_attestationRequest, execAttestationRequest, barTakes_whole hport hrid free rfl, aligned]
  rfl

/-! ## The events of the ports (R112, R147, R148, R157) -/

/-- An engine's outbound read of the host answered (R148). -/
theorem exec_hostReadCompletion_ok {s : State} {tag r k : Nat} {q : OutRead} {data : List Byte}
    (hq : s.outReads.find? (fun q => q.tag == tag && homeOf q.pa == .host) = some q) (engine : q.for_ = .engine r k)
    (hdata : data.length = q.n) : exec (.hostReadCompletion tag .ok data) s = .next (engineInput
      { s with outReads := s.outReads.filter fun x => x.tag != q.tag } r k (data.map Stages.clean)) := by
  rw [exec_hostReadCompletion, execHostReadCompletion, hq]
  simp only [hdata, if_true, readArrives_engine engine]

theorem exec_hostReadCompletion_unsupported {s : State} {tag : Nat} {q : OutRead}
    (hq : s.outReads.find? (fun q => q.tag == tag && homeOf q.pa == .host) = some q) (data : List Byte) :
    exec (.hostReadCompletion tag .unsupported data) s = .next (hostReadFails s q 1) := by
  rw [exec_hostReadCompletion, execHostReadCompletion, hq]

theorem exec_hostReadTimeout_late {s : State} {tag : Nat} {q : OutRead}
    (hq : s.outReads.find? (fun q => q.tag == tag && homeOf q.pa == .host) = some q) (late : q.since + hostReadCycles ≤ s.cycle) :
    exec (.hostReadTimeout tag) s = .next (hostReadFails s q 3) := by
  rw [exec_hostReadTimeout, execHostReadTimeout, hq]
  simp only [late, if_true]

theorem exec_peerAcknowledgement_read {s : State} {tag r k : Nat} {q : OutRead} {data : List Byte}
    (hq : s.outReads.find? (fun q => q.tag == tag && homeOf q.pa == .peer && q.via.isSome) = some q) (engine : q.for_ = .engine r k)
    (hdata : data.length = q.n) : exec (.peerAcknowledgement tag data) s = .next (engineInput
      { s with outReads := s.outReads.filter fun x => x.tag != q.tag } r k (data.map Stages.clean)) := by
  rw [exec_peerAcknowledgement, execPeerAcknowledgement, hq]
  simp only [hdata, if_true, readArrives_engine engine]

theorem exec_hostLineAck_performed {s : State} {port line : Nat} {l : HostLine}
    (hl : (s.port port).lines.find? (fun l => l.id == line) = some l) (gone : l.forwarded = true) (done : l.data = []) :
    exec (.hostLineAck port line) s = .next (forwardHeld
      (s.modPort port fun p => { p with lines := p.lines.filter fun l => l.id != line }) port) := by
  rw [exec_hostLineAck, execHostLineAck, hl]
  simp only [gone, done, List.isEmpty_nil, Bool.and_self, if_true]

theorem exec_hostRead_register {s : State} {port rid n : Nat} {ro : Bool} (hport : port < 2) (hrid : rid < 65536) (hn : 0 < n)
    (hmax : n ≤ 4096) (free : ro = true ∨ barHeld s port rid = false ∧ inboundHeld s port rid = false) (off tag : Nat) :
    exec (.hostRead port rid true off n ro tag) s = .next (bar0Read s port rid off n tag) := by
  have goes : (!ro && (barHeld s port rid || inboundHeld s port rid)) = false := by
    rcases free with rfl | ⟨h, h'⟩
    · rfl
    · rw [h, h', Bool.or_self, Bool.and_false]
  rw [exec_hostRead, execHostRead, if_neg (by simp; omega), if_pos rfl, goes]
  rfl

theorem exec_hostRead_aperture {s : State} {port rid n : Nat} (hport : port < 2) (hrid : rid < 65536) (hn : 0 < n)
    (hmax : n ≤ 4096) (ro : Bool) (off tag : Nat) : exec (.hostRead port rid false off n ro tag) s
      = .next (inboundRead s port rid tag ro false (barEntry (s.port port)) off n) := by
  rw [exec_hostRead, execHostRead, if_neg (by simp; omega), if_neg Bool.false_ne_true]

theorem exec_peerRead_taken {s : State} {port n : Nat} (hport : port < 2) (hn : 0 < n) (node aper off tag : Nat) :
    exec (.peerRead port node aper off n tag) s
      = .next (inboundRead s port (peerRid node) tag true true (peerEntry (s.port port) aper) off n) := by
  rw [exec_peerRead, execPeerRead, if_neg (by simp; omega)]

/-- A write of one line that its aperture lets through joins its port's lines, whoever puts it. -/
theorem postedWrite_joins {s v : State} {port off index o rid : Nat} {ro poisoned peer : Bool}
    {entry : Nat → Option Aperture × Nat × Nat} {data : List Byte} {e : Aperture} {p : Piece} {x : Instr}
    (hx : exec x s = .next (postedWrite s port rid ro poisoned peer entry off data)) (hdata : 0 < data.length)
    (inside : off % 64 + data.length ≤ 64) (hp : p.n = data.length) (hentry : entry off = (some e, index, o))
    (ok : apertureOk e peer = true)
    (there : apertureXlate { s with fresh := s.fresh + 1 } port e o data.length true = (v, .ok [p])) :
    ∃ t id, exec x s = .next t ∧ t.mem = v.mem ∧ (t.port port).lines = (v.port port).lines ++ [(⟨id, s.fresh + 1, rid,
      ro || !earlierLines s port rid (s.fresh + 1), p.key, data, poisoned⟩ : HostLine)] := by
  rw [postedWrite_line hdata inside hp hentry ok there] at hx
  exact ⟨_, _, hx, rfl, putLine_lines _ _ _ _ _ _ _ _⟩

theorem exec_hostPostedWrite_room {s : State} {port rid off : Nat} {data : List Byte} (hport : port < 2) (hrid : rid < 65536)
    (hdata : 0 < data.length) (inside : off % 64 + data.length ≤ 64) (room : forwardedLines (s.port port) < forwardCap)
    (ro poisoned : Bool) : exec (.hostPostedWrite port rid off data ro poisoned) s
      = .next (postedWrite s port rid ro poisoned false (barEntry (s.port port)) off data) := by
  rw [exec_hostPostedWrite, execHostPostedWrite, linesOf, tokensOf_within hdata inside]
  exact if_neg (by simp; omega)

theorem exec_peerWrite_taken {s : State} {port : Nat} (hport : port < 2) (node aper off : Nat) (data : List Byte) :
    exec (.peerWrite port node aper off data) s
      = .next (postedWrite s port (peerRid node) true false true (peerEntry (s.port port) aper) off data) := by
  rw [exec_peerWrite, execPeerWrite, if_neg (by omega)]

theorem exec_peerWriteOrd_taken {s : State} {port : Nat} (hport : port < 2) (node aper off : Nat) (data : List Byte) :
    exec (.peerWriteOrd port node aper off data) s
      = .next (postedWrite s port (peerRid node) false false true (peerEntry (s.port port) aper) off data) := by
  rw [exec_peerWriteOrd, execPeerWriteOrd, if_neg (by omega)]

/-! ## O58 -/

/-- Settles O58: each clause is the step of one event, given by that event's lemma above. -/
theorem hostAndPeerSteps : Obligations.HostAndPeerSteps := by
  unfold Obligations.HostAndPeerSteps
  refine ⟨?lines, ?acks, ?reads, ?outbound, ?resends, ?unreachable, ?registers⟩
  case lines =>
    intro s v port off data poisoned e p hport hdata inside hp
    refine ⟨fun rid ro hrid room index o hentry ok there => ?_, fun node aper index o hentry ok there => ?_,
      fun node aper index o hentry ok there => ?_⟩
    · exact postedWrite_joins (exec_hostPostedWrite_room hport hrid hdata inside room ro poisoned) hdata inside hp hentry ok there
    · exact postedWrite_joins (exec_peerWrite_taken hport node aper off data) hdata inside hp hentry ok there
    · exact postedWrite_joins (exec_peerWriteOrd_taken hport node aper off data) hdata inside hp hentry ok there
  case acks =>
    intro s port line l hl gone done left
    have acked := forwardHeld_port (s.modPort port fun p => { p with lines := p.lines.filter fun l => l.id != line }) port
    rw [State.port_modPort_self] at acked
    refine ⟨_, exec_hostLineAck_performed hl gone done, rfl, ?_, fun few => ?_, ?_⟩
    · rw [acked]
      rfl
    · rw [acked]
      exact forwardLines_of_room left (heldByHost_le_room few)
    · rw [acked]
  case reads =>
    intro s v port off n tag ps hport hn hmax
    refine ⟨fun rid ro hrid free => ⟨_, exec_hostRead_register hport hrid hn hmax free off tag, bar0Read_aligned s port rid tag,
      bar0Read_unaligned s port rid tag⟩, fun k h => barWord_failedStep h port,
      fun rid => ⟨complete s port (.unsupported rid tag), ?_, rfl⟩, fun rid ro hrid there => ?_, fun node aper there => ?_⟩
    · rw [exec_hostAtomicop, execHostAtomicop, if_neg (show ¬ 2 ≤ port by omega)]
    · rw [exec_hostRead_aperture hport hrid hn hmax, inboundRead_takes there]
    · rw [exec_peerRead_taken hport hn, inboundRead_takes there]
  case outbound =>
    intro s tag r k q data engine
    refine ⟨fun hq => ⟨exec_hostReadCompletion_ok hq engine, ⟨_, ?_, rfl⟩, fun late => ⟨_, ?_, rfl⟩⟩,
      fun hq => exec_peerAcknowledgement_read hq engine⟩
    · rw [exec_hostReadCompletion_unsupported hq, hostReadFails_engine engine]
      rfl
    · rw [exec_hostReadTimeout_late hq late, hostReadFails_engine engine]
      rfl
  case resends =>
    intro s op data
    refine ⟨fun none => ?_, _, exec_llynramResend op s, rfl, List.length_map _, fun j w hw => ?_⟩
    · rw [exec_peerAcknowledgement, execPeerAcknowledgement, none, List.find?_nil]
    · exact (List.getElem?_map ..).trans (congrArg _ hw)
  case unreachable =>
    intro s entry w mine hw here late noReads
    obtain ⟨peers, outWrites, mem⟩ := entryDown_frame s entry
    exact ⟨_, _, exec_peerUnreachable_writes hw here late noReads, peers, rfl, outWrites, mem,
      fun port hport => entryDown_signals s entry hport⟩
  case registers =>
    intro s port rid value addr hport hrid free
    refine ⟨fun e he unarmed => exec_bar0RegisterWrite_start hport hrid free he unarmed value,
      fun k hk => exec_bar0RegisterWrite_nonce hport hrid free hk value,
      ⟨_, exec_timebaseSrcWrite_whole hport hrid free value, timebaseSrc_spec s value⟩,
      exec_ptmoffWrite_whole hport hrid free value, exec_attestationRequest_aligned hport hrid free, fun asked _ fits => ?_⟩
    obtain ⟨t, ws, b, exec_s, taken, mem, seen, tokens, relaxed, report, last⟩ := exec_attestationReportWrite_sends asked hport fits
    have short : ∀ w ∈ ws, w.data.length ≤ 512 := fun w hw => by
      obtain ⟨-, -, max⟩ := bounds_of_mem_tokensOf (tokens ▸ List.mem_map_of_mem hw)
      exact max
    refine ⟨t, ws, b, exec_s, taken, mem, seen, tokens, fun w hw => ⟨short w hw, relaxed w hw⟩, ?_, last⟩
    rw [report]
    exact ⟨length_reportBytes s, fun k hk => report_nonce s hk, report_now s, report_rollback s, report_blockWords s⟩

end Sys2Proof.Machine
end

section
/-! PROOFS. The running launch-table entry in which the last clause of O56 fails: RULE 3, which arming refuses (R372) and that
clause admits. -/

namespace Sys2Proof.Machine

open Sys2Proof.Bits

/-! ## A running entry of RULE 3 (R372, R374) -/

/-- A port whose vectors 0 and 1 are not masked. -/
def unmaskedPort : HostPort := { HostPort.fresh with msixTable := [(1, 0), (3, 0)] }

/-- A valid entry with the reserved RULE. -/
def reservedRule : LtEntry := { LtEntry.fresh with valid := true, rule := 3 }

/-- Its launch, of which instance 0 is left. -/
def ruledLaunch : Launch :=
  { addr := 0x1000, ctx := 0, tenant := 0, cls := 0, die := 0, words := List.replicate 16 0, seq := 0, inst0 := 1, loaded := true
    next := 1, live := [0], status := 0, retries := 0, lastFault := 0, faulted := false, refused := false, table := some 0
    defects0 := [], reserved0 := [], info := ImageInfo.none }

/-- The module in which that instance is saved, in an area that no page of its context maps. -/
def reservedRunning : State :=
  { State.reset with
    bringup := .up, insts := [(0, { placedInst 0 with launch := 4, life := .saved })], launches := [(4, ruledLaunch)]
    table := [(0, reservedRule)], ports := [(0, unmaskedPort)] }

/-- What the statement asks of the state and the entry holds. -/
theorem reservedRunning_meets_hypotheses : aget 0 reservedRunning.table = some reservedRule ∧ reservedRule.valid = true
    ∧ schedPaused reservedRunning = false ∧ reservedRule.nextK = 0 ∧ reservedRule.at reservedRule.nextK ≤ reservedRunning.now
    ∧ reservedRule.jump = none ∧ entryRuns reservedRunning 0 = true ∧ reservedRule.rule ≠ 2 := by
  decide +kernel

/-- Vectors 0 and 1 are not masked, and no message has left. -/
theorem reservedRunning_port : ((reservedRunning.port 0).msixWord 3).getLsbD 32 = false ∧ (reservedRunning.port 0).msixSent = [] := by
  decide +kernel

/-- The vectors whose messages have left port 0 by a step. -/
def vectorsSent : Host.Outcome State Fault Refusal → Option (List Nat)
  | .next t => some ((t.port 0).msixSent.map fun m => m.1)
  | _ => none

/-- The entry fires as with REPLACE: behind vector 1, the write of the save header faults, and its record raises vector 0. -/
theorem reservedRunning_fires : vectorsSent (exec (.launchTableFire 0) reservedRunning) = some [1, 0] := by decide +kernel

/-! ## O56 -/

/-- Refutes O56 by its last clause, which says of every RULE that at T_k of a running entry the message of vector 1 alone leaves
a port. That holds of SKIP, of DEFER and of REPLACE while its reset runs. The clause has no hypothesis that RULE is one of
these: the model's overrun treats the reserved RULE 3, which arming refuses, as REPLACE with no reset under way, and a fault
that this reset logs raises vector 0 in the same step (R408). -/
theorem not_resetAndTableSteps : ¬ Obligations.ResetAndTableSteps := by
  unfold Obligations.ResetAndTableSteps
  rintro ⟨-, -, -, -, fire⟩
  obtain ⟨entry, valid, atWork, first, due, noJump, runs, notReplace⟩ := reservedRunning_meets_hypotheses
  obtain ⟨unmasked, nothing⟩ := reservedRunning_port
  obtain ⟨-, -, overrun⟩ := fire reservedRunning 0 reservedRule entry valid atWork (.inr first) due noJump
  obtain ⟨t, exec_t, -, signals, -⟩ := overrun runs fun replace => absurd replace notReplace
  have sent := signals 0 (by decide)
  simp only [unmasked, Bool.false_eq_true, if_false, nothing, List.nil_append] at sent
  have vectors := reservedRunning_fires
  rw [exec_t, vectorsSent, sent] at vectors
  exact absurd vectors (by decide)

end Sys2Proof.Machine
end

section
/-! PROOFS. The modules of the die-to-die links (O57): what a step of one direction leaves of it and of the other, flits that are
read back from their bytes, sending and replay, receiving, and the end of retraining. -/

namespace Sys2Proof.Machine

open Sys2Proof.Bits

/-! ## The two directions of a module, and its boundary (R141) -/

theorem linkBack_ne (l : Nat) : linkBack l ≠ l := by
  unfold linkBack
  split <;> omega

@[simp] theorem linkBack_linkBack (l : Nat) : linkBack (linkBack l) = l := by
  unfold linkBack
  repeat' split
  all_goals omega

theorem linkBack_parity (l : Nat) : linkBack l % 2 ≠ l % 2 := by
  unfold linkBack
  split <;> omega

@[simp] theorem State.link_modLink_self (s : State) (l : Nat) (f : LinkDir → LinkDir) : (s.modLink l f).link l = f (s.link l) := by
  simp [State.link, State.modLink, agetD]

theorem State.link_modLink_ne (s : State) {k l : Nat} (f : LinkDir → LinkDir) (h : k ≠ l) : (s.modLink l f).link k = s.link k := by
  simp [State.link, State.modLink, agetD, aget_aset_ne l k _ _ h]

@[simp] theorem State.link_modLink_back (s : State) (l : Nat) (f : LinkDir → LinkDir) :
    (s.modLink (linkBack l) f).link l = s.link l := s.link_modLink_ne f (linkBack_ne l).symm

@[simp] theorem State.back_modLink_link (s : State) (l : Nat) (f : LinkDir → LinkDir) :
    (s.modLink l f).link (linkBack l) = s.link (linkBack l) := s.link_modLink_ne f (linkBack_ne l)

@[simp] theorem State.link_modBound (s : State) (k l : Nat) (f : Bound → Bound) : (s.modBound k f).link l = s.link l := rfl

@[simp] theorem State.bound_modLink (s : State) (k l : Nat) (f : LinkDir → LinkDir) : (s.modLink l f).bound k = s.bound k := rfl

@[simp] theorem State.bound_modBound_self (s : State) (k : Nat) (f : Bound → Bound) : (s.modBound k f).bound k = f (s.bound k) := by
  simp [State.bound, State.modBound, agetD]

/-! ## A flit's bytes (R142) -/

theorem crc64Step_lt {poly : Nat} (hpoly : poly < 2 ^ 64) (c : Nat) : crc64Step poly c < 2 ^ 64 := by
  have shifted : c * 2 % 2 ^ 64 < 2 ^ 64 := Nat.mod_lt _ (by decide)
  unfold crc64Step
  split
  · exact Nat.xor_lt_two_pow shifted hpoly
  · exact shifted

theorem crc64_lt (bs : List Byte) : crc64 bs < 2 ^ 64 :=
  List.foldlRecOn (motive := fun c => c < 2 ^ 64) bs _ (by decide) fun _ _ _ _ => crc64Step_lt (by decide) _

/-- The fields of a flit's first four bytes, as one number. -/
def Flit.header (f : Flit) : Nat :=
  f.seq.toNat + f.ackseq.toNat * 2 ^ 8 + f.nakseq.toNat * 2 ^ 16 + f.kind.toNat * 2 ^ 24 + (if f.nakv then 2 ^ 28 else 0)

theorem Flit.body_of_full {f : Flit} (full : f.payload.length = flitPayload) : f.body = leBytes 4 f.header ++ f.payload := by
  rw [Flit.body, ← full, List.take_left]
  rfl

/-- Each field of the header is read back. -/
theorem Flit.header_fields (f : Flit) : f.header < 2 ^ 32 ∧ bits f.header 7 0 = f.seq.toNat ∧ bits f.header 15 8 = f.ackseq.toNat
    ∧ bits f.header 23 16 = f.nakseq.toNat ∧ bits f.header 27 24 = f.kind.toNat ∧ bit f.header 28 = f.nakv := by
  have seq := f.seq.isLt
  have ackseq := f.ackseq.isLt
  have nakseq := f.nakseq.isLt
  have kind := f.kind.isLt
  simp only [bits, bit, Nat.shiftRight_eq_div_pow, Nat.testBit_eq_decide_div_mod_eq, Flit.header]
  cases f.nakv <;> simp <;> omega

/-- The flit that its bytes give: everything but the model's own note of the payload's place. -/
theorem readFlit_bytes {f : Flit} (full : f.payload.length = flitPayload) : readFlit f.bytes = some { f with stream := 0, ord := 0 } := by
  have body := Flit.body_of_full full
  have length : f.body.length = 248 := by rw [body, List.length_append, length_leBytes, full]; rfl
  have crc : (f.bytes.drop 248).take 8 = leBytes 8 (crc64 f.body) := by
    rw [Flit.bytes, ← length, List.drop_left, List.take_of_length_le (length_leBytes _ _).le]
  have fours : f.bytes = leBytes 4 f.header ++ (f.payload ++ leBytes 8 (crc64 f.body)) := by
    rw [Flit.bytes, body, List.append_assoc]
  have first : f.bytes.take 4 = leBytes 4 f.header := by rw [fours, List.take_left' (length_leBytes _ _)]
  have payload : (f.bytes.drop 4).take flitPayload = f.payload := by
    rw [fours, List.drop_left' (length_leBytes _ _), List.take_left' full]
  obtain ⟨small, seq, ackseq, nakseq, kind, nakv⟩ := f.header_fields
  have head : leNat (leBytes 4 f.header) = f.header := (leNat_leBytes _ _).trans (Nat.mod_eq_of_lt small)
  have sum : leNat (leBytes 8 (crc64 f.body)) = crc64 f.body := (leNat_leBytes _ _).trans (Nat.mod_eq_of_lt (crc64_lt _))
  rw [readFlit, show f.bytes.take 248 = f.body from List.take_left' length, crc, sum, if_neg (fun h => h rfl), first, payload, head]
  simp only [seq, ackseq, nakseq, kind, nakv, BitVec.ofNat_toNat, BitVec.setWidth_eq]

/-! ## A flit goes out (R142, R143) -/

/-- The number that a direction's flits acknowledge: the last one accepted from the other direction. -/
def State.ackOf (s : State) (l : Nat) : BitVec 8 := (s.link (linkBack l)).expected - 1

theorem putFlit_link (s : State) (l : Nat) (f : Flit) :
    (putFlit s l f).link l = { s.link l with wire := (s.link l).wire ++ [{ f with ackseq := s.ackOf l }] } :=
  s.link_modLink_self l _

/-- The DATA flit made of a payload, before it is given an ACKSEQ. -/
def dataFlit (d : LinkDir) (stream ord : Nat) (payload : List Byte) : Flit :=
  { seq := d.nextSeq, ackseq := 0, nakseq := 0, kind := 1, nakv := false, payload := (payload ++ zeros flitPayload).take flitPayload
    stream, ord }

theorem sendData_link (s : State) (l stream ord : Nat) (payload : List Byte) :
    (sendData s l stream ord payload).link l =
      let d := s.link l
      let f := dataFlit d stream ord payload
      { d with nextSeq := d.nextSeq + 1, held := d.held ++ [f], lastAck := if d.held.isEmpty then s.cycle else d.lastAck
               wire := d.wire ++ [{ f with ackseq := s.ackOf l }] } := by
  simp only [sendData, putFlit_link, State.link_modLink_self, State.ackOf, State.back_modLink_link]
  rfl

theorem sendData_bound (s : State) (l stream ord : Nat) (payload : List Byte) (k : Nat) :
    (sendData s l stream ord payload).bound k = s.bound k := rfl

theorem sendStream_link (s : State) (l stream : Nat) (payload : List Byte) : (sendStream s l stream payload).link l =
    (sendData s l stream (agetD 0 stream (s.bound (boundOf l)).sent) payload).link l := by
  rw [sendStream, sendData_link, sendData_link]
  rfl

theorem sendStream_sent (s : State) (l stream : Nat) (payload : List Byte) :
    ((sendStream s l stream payload).bound (boundOf l)).sent
      = aset stream (agetD 0 stream (s.bound (boundOf l)).sent + 1) (s.bound (boundOf l)).sent := by
  rw [sendStream, sendData_bound, State.bound_modBound_self]

section Up

variable {s : State} {l : Nat} (hl : linkExists l = true) (working : (s.link l).width ≠ 0) (running : (s.link l).retraining = false)
include hl working running

theorem flitSend_passes : (!linkExists l || (s.link l).width = 0 || (s.link l).retraining) = false := by simp [hl, working, running]

/-- A direction that is up sends the flits of its replay first. -/
theorem exec_flitSend_replay {f : Flit} {rest : List Flit} (replay : (s.link l).toSend = f :: rest) (kind : FlitKind) (load : LinkLoad) :
    exec (.flitSend l kind load) s = .next (replayFlit s l f) := by
  simp only [exec_flitSend, execFlitSend, flitSend_passes hl working running, replay, Bool.false_eq_true, if_false]

theorem exec_flitSend_idle (noReplay : (s.link l).toSend = []) (load : LinkLoad) : exec (.flitSend l .idle load) s = .next (putFlit s l
    { seq := 0, ackseq := 0, nakseq := 0, kind := 0, nakv := false, payload := zeros flitPayload }) := by
  simp only [exec_flitSend, execFlitSend, flitSend_passes hl working running, noReplay, Bool.false_eq_true, if_false]

/-- With no replay, what was taken over from a retired module goes out. -/
theorem exec_flitSend_moved {m : Flit} {rest : List Flit} (noReplay : (s.link l).toSend = []) (moved : (s.link l).moved = m :: rest)
    (room : (s.link l).held.length < 64) (load : LinkLoad) : exec (.flitSend l .data load) s
      = .next (sendData (s.modLink l fun d => { d with moved := rest }) l m.stream m.ord m.payload) := by
  simp only [exec_flitSend, execFlitSend, flitSend_passes hl working running, noReplay, moved, Nat.not_le.mpr room,
    Bool.false_eq_true, if_false]

/-- Where nothing was taken over, the payload given goes out. -/
theorem exec_flitSend_new (noReplay : (s.link l).toSend = []) (noneMoved : (s.link l).moved = [])
    (room : (s.link l).held.length < 64) (load : LinkLoad) :
    exec (.flitSend l .data load) s = .next (sendStream s l load.stream load.payload) := by
  simp only [exec_flitSend, execFlitSend, flitSend_passes hl working running, noReplay, noneMoved, Nat.not_le.mpr room, Bool.false_eq_true,
    if_false]

end Up

/-! ## Replay, and retraining begins (R143, R144, R425) -/

@[simp] theorem State.link_countDie (s : State) (die code n k : Nat) : (s.countDie die code n).link k = s.link k := by
  unfold State.countDie
  split <;> rfl

@[simp] theorem countReplay_link (s : State) (l k : Nat) : (countReplay s l).link k = s.link k := by
  unfold countReplay
  split
  · exact s.link_countDie _ _ _ _
  · rfl

/-- Retraining stops both directions, and what is held stays. -/
theorem beginRetrain_stops (s : State) (l : Nat) : let t := beginRetrain s l
    (t.link l).retraining = true ∧ (t.link (linkBack l)).retraining = true ∧ (t.link l).wire = []
      ∧ (t.link l).held = (s.link l).held := by
  simp only [beginRetrain, State.link_modLink_self, State.link_modLink_back, State.back_modLink_link, and_self]

/-- The state after a flit of a replay went out, before its fourth replay stops the module. -/
def replayed (s : State) (l : Nat) (f : Flit) : State :=
  putFlit (countReplay (s.modLink l fun d => { d with
    toSend := d.toSend.drop 1, replays := aset f.seq.toNat (agetD 0 f.seq.toNat (s.link l).replays + 1) d.replays }) l) l f

theorem replayFlit_eq (s : State) (l : Nat) (f : Flit) : replayFlit s l f =
    if agetD 0 f.seq.toNat (s.link l).replays + 1 = 4 then beginRetrain (replayed s l f) l else replayed s l f := rfl

theorem replayed_link (s : State) (l : Nat) (f : Flit) : let t := (replayed s l f).link l
    t.toSend = (s.link l).toSend.drop 1 ∧ t.wire = (s.link l).wire ++ [{ f with ackseq := s.ackOf l }] ∧ t.held = (s.link l).held := by
  simp only [replayed, putFlit_link, State.ackOf, countReplay_link, State.link_modLink_self, State.back_modLink_link, and_self]

/-! ## A flit arrives (R142, R143) -/

theorem exec_flitReceive_failed {s : State} {l : Nat} {f : Flit} {rest : List Flit} {errors : List (Nat × Byte)}
    (running : (s.link l).retraining = false) (arrives : (s.link l).wire = f :: rest)
    (bad : readFlit (withErrors f.bytes errors) = none) :
    exec (.flitReceive l errors) s = .next (crcFailed (s.modLink l fun d => { d with wire := rest }) l) := by
  simp only [exec_flitReceive, execFlitReceive, running, arrives, bad, Bool.false_eq_true, if_false]

/-- A flit of a known KIND that meets no error is taken as it was sent. -/
theorem exec_flitReceive_whole {s : State} {l : Nat} {f : Flit} {rest : List Flit} (running : (s.link l).retraining = false)
    (arrives : (s.link l).wire = f :: rest) (full : f.payload.length = flitPayload) (known : f.kind.toNat ≤ 1) :
    exec (.flitReceive l []) s = .next (goodFlit (s.modLink l fun d => { d with wire := rest }) l f) := by
  have whole : readFlit (withErrors f.bytes []) = some { f with stream := 0, ord := 0 } := readFlit_bytes full
  simp only [exec_flitReceive, execFlitReceive, running, arrives, whole, Nat.not_lt.mpr known, Bool.false_eq_true, if_false]

/-- DATA with the expected number is delivered, and goes to its boundary. -/
theorem goodFlit_expected {s : State} {l : Nat} {f : Flit} (data : f.kind = 1) (next : f.seq = (s.link l).expected) :
    (goodFlit s l f).link l = { s.link l with
        expected := (s.link l).expected + 1, nakOut := false, delivered := (s.link l).delivered ++ [f.payload] }
      ∧ (goodFlit s l f).bound (boundOf l) = (s.bound (boundOf l)).take f := by
  have here : (backward s l f).link l = s.link l := s.link_modLink_back l _
  have there : (backward s l f).bound (boundOf l) = s.bound (boundOf l) := rfl
  rw [goodFlit, here, if_pos ⟨data, next⟩, State.link_modBound, State.link_modLink_self, here, State.bound_modBound_self,
    State.bound_modLink, there]
  exact ⟨rfl, rfl⟩

/-- A boundary with nothing early delivers a payload whose turn has come. -/
theorem Bound.take_out_due {b : Bound} {f : Flit} (nothing : b.early = []) (due : f.ord = agetD 0 f.stream b.due) :
    (b.take f).out = b.out ++ [(f.stream, f.payload)] := by
  simp [Bound.take, nothing, Bound.settle, due]

/-- It keeps one whose turn has not come. -/
theorem Bound.take_out_early {b : Bound} {f : Flit} (nothing : b.early = []) (early : f.ord ≠ agetD 0 f.stream b.due) :
    (b.take f).out = b.out := by
  simp [Bound.take, nothing, Bound.settle, early]

/-- The IDLE flit that asks for a number again. -/
def nakFlit (n : BitVec 8) : Flit :=
  { seq := 0, ackseq := 0, nakseq := n, kind := 0, nakv := true, payload := zeros flitPayload }

/-- The first NAK for a number leaves in the other direction. -/
theorem sendNak_first {s : State} {l : Nat} (quiet : (s.link l).nakOut = false) :
    (sendNak s l).link l = { s.link l with nakOut := true }
      ∧ ((sendNak s l).link (linkBack l)).wire = (s.link (linkBack l)).wire
        ++ [{ nakFlit (s.link l).expected with ackseq := (s.link l).expected - 1 }] := by
  rw [sendNak, quiet, if_neg Bool.false_ne_true]
  refine ⟨(State.link_modLink_back _ l _).trans (s.link_modLink_self l _), ?_⟩
  simp only [putFlit_link, State.ackOf, linkBack_linkBack, State.back_modLink_link, State.link_modLink_self, nakFlit]

/-- A CRC failure noted with those of the last 1 µs. -/
def noteFailure (s : State) (l : Nat) : State :=
  s.modLink l fun d => { d with fails := s.cycle :: d.fails.filter fun t => s.cycle < t + 1600 }

theorem crcFailed_eq (s : State) (l : Nat) : crcFailed s l =
    if 3 ≤ ((noteFailure s l).link l).fails.length then beginRetrain (noteFailure s l) l else sendNak (noteFailure s l) l := rfl

/-- A CRC failure with none before it in the last 1 µs, and no NAK on its way, is noted, and the expected number asked for. -/
theorem crcFailed_first {s : State} {l : Nat} (first : (s.link l).fails = []) (quiet : (s.link l).nakOut = false) :
    (crcFailed s l).link l = { s.link l with fails := [s.cycle], nakOut := true }
      ∧ ((crcFailed s l).link (linkBack l)).wire = (s.link (linkBack l)).wire
        ++ [{ nakFlit (s.link l).expected with ackseq := (s.link l).expected - 1 }] := by
  have here : (noteFailure s l).link l = { s.link l with fails := [s.cycle] } := by
    rw [noteFailure, State.link_modLink_self, first, List.filter_nil]
  have there : (noteFailure s l).link (linkBack l) = s.link (linkBack l) := s.back_modLink_link l _
  have few : ¬ 3 ≤ ((noteFailure s l).link l).fails.length := by simp [here]
  obtain ⟨link, back⟩ := sendNak_first (s := noteFailure s l) (l := l) (by rw [here]; exact quiet)
  rw [here] at link back
  rw [crcFailed_eq, if_neg few]
  exact ⟨link, there ▸ back⟩

/-! ## NAKs and time-outs (R143) -/

theorem exec_nakReceive_seen {s : State} {l : Nat} {n : BitVec 8} (seen : (s.link l).nakSeen = some n) : exec (.nakReceive l) s =
    .next (s.modLink l fun d => { d with nakSeen := none, toSend := d.held.dropWhile fun f => f.seq != n }) := by
  rw [exec_nakReceive, execNakReceive, seen]

theorem exec_replayTimeout_late {s : State} {l : Nat} (held : (s.link l).held ≠ []) (running : (s.link l).retraining = false)
    (late : (s.link l).lastAck + replayCycles ≤ s.cycle) :
    exec (.replayTimeout l) s = .next (s.modLink l fun d => { d with toSend := d.held, lastAck := s.cycle }) := by
  rw [exec_replayTimeout, execReplayTimeout]
  exact if_neg (by simp [held, running, late])

/-! ## The test of a module's lanes (R144) -/

theorem lower_lanes_work (failing : BitVec 64) : bits failing.toNat 31 0 = 0 ↔ failing.setWidth 32 = (0 : BitVec 32) := by
  rw [← BitVec.toNat_inj, BitVec.toNat_setWidth]
  rfl

theorem upper_lanes_work (failing : BitVec 64) : bits failing.toNat 63 32 = 0 ↔ failing >>> 32 = 0 := by
  have small : failing.toNat >>> 32 < 2 ^ 32 := by
    have := failing.isLt
    omega
  rw [← BitVec.toNat_inj, BitVec.toNat_ushiftRight, bits, Nat.mod_eq_of_lt small]
  rfl

theorem all_lanes_work (failing : BitVec 64) : failing = 0 ↔ failing.setWidth 32 = (0 : BitVec 32) ∧ failing >>> 32 = 0 := by
  bv_omega

/-- The width that a module at full width has after a test, by the halves that work. -/
theorem widthAfter_full {d : LinkDir} (full : d.width = 64) (failing : BitVec 64) : widthAfter d failing =
    if failing.setWidth 32 = (0 : BitVec 32) then (if failing >>> 32 = 0 then (64, false) else (32, false))
    else if failing >>> 32 = 0 then (32, true) else (0, false) := by
  simp only [widthAfter, full, if_true, Bool.and_eq_true, beq_iff_eq, lower_lanes_work, upper_lanes_work, ite_and]
  split_ifs <;> rfl

/-! ## A direction is retired (R144) -/

/-- The module that takes over is another one, in the same direction. -/
theorem otherModule_some {s : State} {l k : Nat} (h : otherModule s l = some k) : k ≠ l ∧ k % 2 = l % 2 := by
  have other := List.find?_some h
  obtain ⟨m, -, rfl⟩ := List.mem_map.mp (List.mem_of_find?_eq_some h)
  simp only [Bool.and_eq_true, bne_iff_ne] at other
  refine ⟨other.1, ?_⟩
  unfold linkKey
  omega

theorem retireDir_link (s : State) (l : Nat) : let t := (retireDir s l).link l
    t.width = 0 ∧ t.retraining = false ∧ t.held = [] := by
  unfold retireDir
  dsimp only
  split
  case h_1 k other => simp only [State.link_modLink_ne _ _ (otherModule_some other).1.symm, State.link_modLink_self, and_self]
  case h_2 => simp only [State.link_modLink_self, and_self]

theorem retireDir_back (s : State) (l : Nat) : (retireDir s l).link (linkBack l) = s.link (linkBack l) := by
  unfold retireDir
  dsimp only
  split
  case h_1 k other =>
    have apart : linkBack l ≠ k := fun h => linkBack_parity l (h ▸ (otherModule_some other).2)
    rw [State.link_modLink_ne _ _ apart, State.back_modLink_link]
  case h_2 => rw [State.back_modLink_link, State.back_modLink_link]

theorem retireDir_log (s : State) (l : Nat) : (retireDir s l).log = s.log := by
  unfold retireDir
  dsimp only
  split <;> rfl

/-! ## Retraining ends (R144, R408, R425) -/

/-- A module as a test leaves it: retired both ways, or up both ways at a width. -/
def afterTest (s : State) (l w : Nat) (half : Bool) : State :=
  if w = 0 then retireDir (retireDir s l) (linkBack l)
  else (s.modLink l fun d => d.resumed w half s.cycle).modLink (linkBack l) fun d => d.resumed w half s.cycle

theorem afterTest_retired (s : State) (l : Nat) (half : Bool) : let t := afterTest s l 0 half
    ((t.link l).width = 0 ∧ (t.link l).retraining = false ∧ (t.link l).held = [])
      ∧ (t.link (linkBack l)).width = 0 ∧ (t.link (linkBack l)).retraining = false := by
  have here : (retireDir (retireDir s l) (linkBack l)).link l = (retireDir s l).link l := by
    simpa using retireDir_back (retireDir s l) (linkBack l)
  obtain ⟨width, retraining, -⟩ := retireDir_link (retireDir s l) (linkBack l)
  simp only [afterTest, if_true, here]
  exact ⟨retireDir_link s l, width, retraining⟩

theorem afterTest_up (s : State) (l : Nat) {w : Nat} (hw : w ≠ 0) (half : Bool) :
    (afterTest s l w half).link l = (s.link l).resumed w half s.cycle
      ∧ (afterTest s l w half).link (linkBack l) = (s.link (linkBack l)).resumed w half s.cycle := by
  simp only [afterTest, hw, if_false, State.link_modLink_back, State.link_modLink_self, State.back_modLink_link, and_self]

theorem afterTest_log (s : State) (l w : Nat) (half : Bool) : (afterTest s l w half).log = s.log := by
  unfold afterTest
  split
  · exact (retireDir_log _ _).trans (retireDir_log _ _)
  · rfl

/-- Whatever width it has now, it is no longer retraining, and that is its width. -/
theorem afterTest_ends (s : State) (l w : Nat) (half : Bool) : let t := afterTest s l w half
    (t.link l).width = w ∧ (t.link l).retraining = false ∧ (t.link (linkBack l)).retraining = false := by
  by_cases hw : w = 0
  · subst hw
    obtain ⟨⟨width, here, -⟩, -, back⟩ := afterTest_retired s l half
    exact ⟨width, here, back⟩
  · obtain ⟨here, back⟩ := afterTest_up s l hw half
    simp only [here, back, LinkDir.resumed, and_self]

/-- Counting leaves the links and the log as they were. -/
theorem countDies_frame (code n : Nat) (dies : List Nat) (s : State) : let t := dies.foldl (fun s x => s.countDie x code n) s
    t.links = s.links ∧ t.log = s.log := by
  induction dies generalizing s with
  | nil => exact ⟨rfl, rfl⟩
  | cons x dies ih =>
    obtain ⟨links, log⟩ := ih (s.countDie x code n)
    have counted : (s.countDie x code n).links = s.links ∧ (s.countDie x code n).log = s.log := by
      unfold State.countDie
      split <;> exact ⟨rfl, rfl⟩
    exact ⟨links.trans counted.1, log.trans counted.2⟩

theorem raiseMsix_links (s : State) (v : Nat) : (s.raiseMsix v).links = s.links := rfl

theorem raiseMsix_log (s : State) (v : Nat) : (s.raiseMsix v).log = s.log := rfl

/-- A log that is not full takes one record more, where its head stood. -/
theorem logFault_room {s : State} (room : s.log.used < logCap) (code ctx tenant die cluster inst addr detail : Nat) :
    let t := s.logFault code ctx tenant die cluster inst addr detail
    t.log.used = s.log.used + 1 ∧ ∃ r, aget s.log.head t.log.recs = some r ∧ r.code = code := by
  rw [State.logFault, if_pos room]
  exact ⟨rfl, _, aget_aset_self _ _ _, rfl⟩

/-- The code (R425) under which the end of a retraining is logged. -/
def retrainCode (before after : Nat) : Nat := if after = 0 then 0xF2 else if after = before then 0xF0 else 0xF1

theorem retrainCode_full (failing : BitVec 64) {d : LinkDir} (full : d.width = 64) : let w := (widthAfter d failing).1
    retrainCode 64 w = if w = 64 then 0xF0 else if w = 32 then 0xF1 else 0xF2 := by
  rw [widthAfter_full full]
  split_ifs <;> rfl

/-- The end of a retraining is counted, logged, and raises vector 5, on the module as the test leaves it. -/
theorem exec_retrainDone_retraining {s : State} {l : Nat} (retraining : (s.link l).retraining = true) (failing : BitVec 64) :
    let test := widthAfter (s.link l) failing
    ∃ (u : State) (die lanes : Nat), exec (.retrainDone l failing) s = .next ((u.logEvent (retrainCode (s.link l).width test.1) die 0
        (linkBoundary l * 256 + linkModule l) lanes).raiseMsix 5)
      ∧ u.links = (afterTest s l test.1 test.2).links ∧ u.log = s.log := by
  intro test
  obtain ⟨links, log⟩ := countDies_frame 0x061 1 (linkDies (linkBoundary l)) (afterTest s l test.1 test.2)
  exact ⟨_, _, _, if_neg (by rw [retraining]; decide), links, log.trans (afterTest_log s l _ _)⟩

/-- After it the links are as the test leaves them, and a log with room holds one record more. -/
theorem exec_retrainDone_ends {s : State} {l : Nat} (retraining : (s.link l).retraining = true) (failing : BitVec 64) :
    let test := widthAfter (s.link l) failing
    ∃ t, exec (.retrainDone l failing) s = .next t ∧ t.links = (afterTest s l test.1 test.2).links
      ∧ (s.log.used < logCap → t.log.used = s.log.used + 1
        ∧ ∃ r, aget s.log.head t.log.recs = some r ∧ r.code = retrainCode (s.link l).width test.1) := by
  obtain ⟨u, die, lanes, exec_s, links, log⟩ := exec_retrainDone_retraining retraining failing
  refine ⟨_, exec_s, ?_, fun room => ?_⟩
  · rw [raiseMsix_links, State.logEvent, logFault_frame, links]
  · rw [raiseMsix_log, State.logEvent, ← log]
    exact logFault_room (log ▸ room) _ _ _ _ _ _ _ _

/-! ## O57 -/

/-- Settles O57: each clause is the step of one event of a direction, given by that event's lemmas above. -/
theorem linkSteps : Obligations.LinkSteps := by
  unfold Obligations.LinkSteps
  refine ⟨?send, ?receive, fun s l => ⟨fun n => exec_nakReceive_seen, exec_replayTimeout_late, ?retrained⟩⟩
  case send =>
    intro s l stream payload hl working running
    refine ⟨fun noReplay noneMoved room => ?new, fun m rest noReplay moved room => ?moved, fun noReplay => ?idle,
      fun f rest kind replay few => ?replay, fun f rest kind replay three => ?fourth⟩
    case new =>
      refine ⟨_, dataFlit (s.link l) stream (agetD 0 stream (s.bound (boundOf l)).sent) payload,
        exec_flitSend_new hl working running noReplay noneMoved room _, rfl, rfl, rfl, rfl, ?_⟩
      rw [sendStream_link, sendData_link, sendStream_sent]
      exact ⟨rfl, rfl, rfl, rfl, rfl, rfl⟩
    case moved =>
      refine ⟨_, dataFlit (s.link l) m.stream m.ord m.payload,
        exec_flitSend_moved hl working running noReplay moved room _, rfl, rfl, rfl, rfl, ?_⟩
      rw [sendData_link, State.ackOf, State.link_modLink_self, State.back_modLink_link]
      exact ⟨rfl, rfl, rfl, rfl⟩
    case idle =>
      refine ⟨_, { seq := 0, ackseq := s.ackOf l, nakseq := 0, kind := 0, nakv := false, payload := zeros flitPayload },
        exec_flitSend_idle hl working running noReplay _, rfl, rfl, rfl, ?_⟩
      rw [putFlit_link]
      exact ⟨rfl, rfl, rfl⟩
    case replay =>
      obtain ⟨toSend, wire, held⟩ := replayed_link s l f
      refine ⟨_, (exec_flitSend_replay hl working running replay kind _).trans
        (congrArg _ ((replayFlit_eq s l f).trans (if_neg (by omega)))), ?_, wire, held⟩
      rw [toSend, replay, List.drop_one, List.tail_cons]
    case fourth =>
      obtain ⟨-, -, held⟩ := replayed_link s l f
      obtain ⟨here, back, wire, kept⟩ := beginRetrain_stops (replayed s l f) l
      exact ⟨_, (exec_flitSend_replay hl working running replay kind _).trans
        (congrArg _ ((replayFlit_eq s l f).trans (if_pos (by omega)))), here, back, wire, kept.trans held⟩
  case receive =>
    intro s l f rest es running arrives
    refine ⟨fun full data next => ?_, fun bad noFails quiet => ?_⟩
    · have known : f.kind.toNat ≤ 1 := by rw [data]; decide
      obtain ⟨link, bound⟩ := goodFlit_expected (s := s.modLink l fun d => { d with wire := rest }) (l := l) data
        (by rwa [State.link_modLink_self])
      rw [State.link_modLink_self] at link
      rw [State.bound_modLink] at bound
      refine ⟨_, exec_flitReceive_whole running arrives full known, ?_⟩
      rw [link, bound]
      refine ⟨rfl, rfl, rfl, fun b hb nothing => ?_⟩
      subst hb
      exact ⟨Bound.take_out_due nothing, Bound.take_out_early nothing⟩
    · obtain ⟨here, back⟩ := crcFailed_first (s := s.modLink l fun d => { d with wire := rest }) (l := l)
        (by rwa [State.link_modLink_self]) (by rwa [State.link_modLink_self])
      rw [State.link_modLink_self] at here back
      rw [State.back_modLink_link] at back
      refine ⟨_, _, exec_flitReceive_failed running arrives bad, ?_, ?_, ?_, back, rfl, rfl⟩
      all_goals rw [here]
  case retrained =>
    intro failing retraining full
    obtain ⟨t, exec_t, links, log⟩ := exec_retrainDone_ends retraining failing
    have link (k : Nat) : t.link k = (afterTest s l (widthAfter (s.link l) failing).1 (widthAfter (s.link l) failing).2).link k :=
      congrArg (agetD LinkDir.fresh k) links
    have test := widthAfter_full full failing
    obtain ⟨width, here, back⟩ := afterTest_ends s l (widthAfter (s.link l) failing).1 (widthAfter (s.link l) failing).2
    rw [← link] at width here back
    refine ⟨t, exec_t, here, back, fun all => ?all, fun notAll low => ?lower, fun low high => ?upper, fun low high => ?retired,
      fun room => ?logged⟩
    case all =>
      obtain ⟨low, high⟩ := (all_lanes_work failing).mp all
      rw [link, test, if_pos low, if_pos high, (afterTest_up s l (by decide) _).1]
      exact ⟨rfl, rfl⟩
    case lower =>
      rw [link, test, if_pos low, if_neg fun high => notAll ((all_lanes_work failing).mpr ⟨low, high⟩),
        (afterTest_up s l (by decide) _).1]
      exact ⟨rfl, rfl, rfl⟩
    case upper =>
      rw [link, test, if_neg low, if_pos high, (afterTest_up s l (by decide) _).1]
      exact ⟨rfl, rfl, rfl⟩
    case retired =>
      obtain ⟨⟨width, -, held⟩, backWidth, -⟩ := afterTest_retired s l false
      rw [link, link, test, if_neg low, if_neg high]
      exact ⟨width, backWidth, held⟩
    case logged =>
      obtain ⟨used, r, record, code⟩ := log room
      rw [width, ← retrainCode_full failing full]
      exact ⟨r, used, record, full ▸ code⟩

end Sys2Proof.Machine
end

section
/-! PROOFS. The firing of an element operation (O52): what entering an iteration leaves alone, and what a firing makes of the
results or of the fault of its operation. -/

namespace Sys2Proof.Machine

/-! ## Entering an iteration (R319) -/

/-- Where no stored error waits, the FE that enters an iteration changes, and no other part of the state. -/
theorem enterIter_frame {s : State} (flaws : s.flaws = []) (x k : Nat) :
    enterIter s x k = { s with fes := (enterIter s x k).fes } := by
  have met : s.meetStreams x = s := meetFlaws_of_no_flaws flaws _ _
  unfold enterIter
  dsimp only
  rw [met, ite_self]
  split <;> rfl

theorem enterIter_mem {s : State} (flaws : s.flaws = []) (x k : Nat) : (enterIter s x k).mem = s.mem := by
  rw [enterIter_frame flaws]

/-- The FE runs the same context there. -/
theorem enterIter_ctxWords {s : State} (flaws : s.flaws = []) (x k : Nat) :
    ((enterIter s x k).fe x).ctxWords = (s.fe x).ctxWords := by
  have met : s.meetStreams x = s := meetFlaws_of_no_flaws flaws _ _
  unfold enterIter
  dsimp only
  rw [met, ite_self]
  split
  · rfl
  · rw [State.fe_modFe_self]
    rfl

/-! ## A firing (R173, R294, R336) -/

/-- The state in which a firing's operation is evaluated: its FE in the iteration, and the region no longer blocked. -/
def firingState (s : State) (i x k : Nat) : State :=
  (markFirst (enterIter s x k) i k).modReg i fun r => { r with blockedFrom := none }

theorem firingState_fe (s : State) (i x k : Nat) : (firingState s i x k).fe x = (enterIter s x k).fe x := rfl

theorem firingState_frame {s : State} (flaws : s.flaws = []) (i x k : Nat) :
    firingState s i x k = { s with insts := (firingState s i x k).insts, fes := (enterIter s x k).fes } := by
  unfold firingState
  rw [enterIter_frame flaws]
  rfl

/-- Where nothing is poisoned and no stored error waits, the operation is evaluated on the FE's state. -/
theorem fireResult_clean {s : State} (flaws : s.flaws = []) (poison : s.poison = []) (x : Nat) (inp : Elements.FireIn)
    (fire : List Word → Fe → Elements.FireIn → Except Elements.FireFault Elements.FireOut) :
    fireResult s x inp fire = (s, fire (s.fe x).ctxWords (s.fe x) inp) := by
  have met (reads : List (Nat × Nat)) : reads.foldl (fun s y => meetFlaws s (shelfKey x y.1) y.2) s = s := by
    induction reads with
    | nil => rfl
    | cons y reads ih => rw [List.foldl_cons, meetFlaws_of_no_flaws flaws, ih]
  have clean (reads : List (Nat × Nat)) : (reads.any fun y => poisonedIn s.poison (shelfKey x y.1) y.2) = false := by
    simp [poisonedIn, poison]
  unfold fireResult
  dsimp only
  rw [met, clean]
  rfl

section Firing

variable {s : State} {i x k : Nat} {fe : FeAt} {r : Region} {nest : Nest} {inp : Elements.FireIn}
  {fire : List Word → Fe → Elements.FireIn → Except Elements.FireFault Elements.FireOut}

/-- The operation is evaluated on the FE's running context and its state in the iteration. -/
theorem fireResult_firingState (flaws : s.flaws = []) (poison : s.poison = []) :
    fireResult (firingState s i x k) x inp fire
      = (firingState s i x k, fire (s.fe x).ctxWords ((enterIter s x k).fe x) inp) := by
  rw [fireResult_clean, firingState_fe, enterIter_ctxWords flaws]
  · rw [firingState_frame flaws]
    exact flaws
  · rw [firingState_frame flaws]
    exact poison

/-- The state whose results a firing spreads: its inputs consumed, the FE's state kept, and a failed check noted (R54, R56). -/
def firedState (s : State) (i : Nat) (fe : FeAt) (x k : Nat) (out : Elements.FireOut) : State :=
  let t := firingState s i x k
  let t := { t with fes := aset x (out.fe.consumed (t.fe x).ctxWords) t.fes, fresh := t.fresh + 4096 }
  if out.failed then t.modReg i fun r => r.modIter k fun it => { it with checkFailed := some (it.checkFailed.getD (fe.c, fe.w)) } else t

/-- It differs in the FEs, the instances and the counter of free values alone. -/
theorem firedState_frame (flaws : s.flaws = []) (out : Elements.FireOut) :
    firedState s i fe x k out = { s with
      insts := (firedState s i fe x k out).insts
      fes := aset x (out.fe.consumed (s.fe x).ctxWords) (enterIter s x k).fes
      fresh := s.fresh + 4096 } := by
  have words : ((firingState s i x k).fe x).ctxWords = (s.fe x).ctxWords := enterIter_ctxWords flaws x k
  unfold firedState
  dsimp only
  rw [words, firingState_frame flaws]
  split <;> rfl

theorem firedState_fe (flaws : s.flaws = []) (out : Elements.FireOut) :
    (firedState s i fe x k out).fe x = out.fe.consumed (s.fe x).ctxWords := by
  rw [firedState_frame flaws]
  exact congrArg (fun y => Option.getD y Fe.fresh) (aget_aset_self x _ _)

/-- A firing with results consumes its inputs and spreads the results. -/
theorem fireNow_spreads {out : Elements.FireOut} (flaws : s.flaws = []) (poison : s.poison = [])
    (result : fire (s.fe x).ctxWords ((enterIter s x k).fe x) inp = .ok out) :
    fireNow s i r nest fe x k inp fire
      = spreadOut (firedState s i fe x k out) i r nest fe x k (s.fe x).ctxWords out := by
  have words : ((firingState s i x k).fe x).ctxWords = (s.fe x).ctxWords := enterIter_ctxWords flaws x k
  rw [← words]
  have evaluated := fireResult_firingState (i := i) (inp := inp) (fire := fire) (x := x) (k := k) flaws poison
  rw [result] at evaluated
  unfold fireNow
  dsimp only
  rw [← firingState, evaluated]
  rfl

/-- A firing that meets a fault, with no FE in a lower place that faults as well, is that fault of the region. -/
theorem fireNow_faults {e : Elements.FireFault} (flaws : s.flaws = []) (poison : s.poison = [])
    (result : fire (s.fe x).ctxWords ((enterIter s x k).fe x) inp = .error e) (first : firstFault s r nest fe = none) :
    fireNow s i r nest fe x k inp fire = fireFault (firingState s i x k) i fe x k e := by
  have evaluated := fireResult_firingState (i := i) (inp := inp) (fire := fire) (x := x) (k := k) flaws poison
  rw [result] at evaluated
  unfold fireNow
  dsimp only
  rw [← firingState, evaluated, first]

/-- An FE fires under its context's EOP code when its inputs hold their tokens, its links have room and its shelf is awake. -/
theorem fireFe_fires {n : Inst} {up : Bool} {eop : Nat} (running : runningNest s i = some (n, r, nest)) (place : s.feOf i fe = some x)
    (code : Cfg.eop (s.fe x).ctxWords = eop) (inputs : fireInputs s x (s.fe x) (s.fe x).ctxWords up = some (inp, k))
    (awake : s.asleep (shelfKey x 0) = false) (room : outRoom s r nest fe (s.fe x).ctxWords = true) :
    fireFe eop fire up i fe s = .next (fireNow s i r nest fe x k inp fire) := by
  simp only [fireFe, running, place, code, awake, room, inputs]
  exact if_neg (by simp)

end Firing

/-! ## O52 -/

/-- Settles O52: each of the operations is `fireFe` with its own code and results, and the clauses are what `fireNow` makes of
the results or of the fault. -/
theorem elementOperationsFire : Obligations.ElementOperationsFire := by
  unfold Obligations.ElementOperationsFire
  intro s i x k fe up n r nest inp op listed running place code inputs awake room flaws poison c f
  have fires : exec op.2.2.1 s = .next (fireNow s i r nest fe x k inp op.2.2.2) := by
    rw [← fireFe_fires running place code inputs awake room]
    fin_cases listed <;> rfl
  refine ⟨fun out result => ?_, fun e result first => ?_⟩
  · refine ⟨_, fires.trans (congrArg _ (fireNow_spreads flaws poison result)), firedState_fe flaws out, ?_⟩
    rw [firedState_frame flaws]
    exact ⟨rfl, poison, rfl, rfl⟩
  · refine ⟨_, _, fires.trans (congrArg _ (fireNow_faults flaws poison result first)), ?_⟩
    rw [firingState_frame flaws]
    exact ⟨rfl, rfl, rfl⟩

end Sys2Proof.Machine
end

section
/-! PROOFS. The steps of a region (O51) while its iterations run: contexts loaded, iterations started, markers, sources and
sinks. -/

namespace Sys2Proof.Machine

open Sys2Proof.Bits

/-! ## What folds keep -/

/-- What every step of a fold keeps, the fold keeps. -/
theorem foldl_keeps {α β : Type} (g : State → β) {f : State → α → State} (keeps : ∀ s a, g (f s a) = g s) (l : List α)
    (s : State) : g (l.foldl f s) = g s := by
  induction l generalizing s with
  | nil => rfl
  | cons a l ih => exact (ih (f s a)).trans (keeps s a)

/-- A change of FEs alone keeps memory. -/
theorem foldl_modFe_mem {α : Type} (x : α → Nat) (f : α → Fe → Fe) (l : List α) (s : State) :
    (l.foldl (fun s a => s.modFe (x a) (f a)) s).mem = s.mem :=
  foldl_keeps State.mem (f := fun s a => s.modFe (x a) (f a)) (fun _ _ => rfl) l s

/-! ## A region in its instance -/

/-- What a running nest is the nest of. -/
theorem runningNest_some {s : State} {i : Nat} {n : Inst} {r : Region} {nest : Nest}
    (running : runningNest s i = some (n, r, nest)) :
    s.inst? i = some n ∧ n.reg = some r ∧ r.nest = some nest ∧ n.fabricLive = true ∧ r.phase = .running := by
  unfold runningNest at running
  split at running
  · cases running
  · rename_i n' inst
    split at running
    · cases running
    · rename_i r' reg
      split at running
      · cases running
      · rename_i nest' isNest
        split at running
        · rename_i live
          cases running
          simp only [Bool.and_eq_true, beq_iff_eq] at live
          obtain ⟨⟨live, phase⟩, -⟩ := live
          exact ⟨inst, reg, isNest, live, phase⟩
        · cases running

/-- An instance whose region is changed. -/
theorem inst_modReg {s : State} {i : Nat} {n : Inst} {r : Region} (inst : s.inst? i = some n) (reg : n.reg = some r)
    (f : Region → Region) : (s.modReg i f).inst? i = some { n with reg := some (f r) } := by
  rw [State.modReg, State.inst_modInst_self, inst, Option.map_some, reg]
  rfl

/-- An instance to whose region an event is posted: a block in flight keeps it as late (R323). -/
theorem inst_postFabric {s : State} {i : Nat} {n : Inst} {r : Region} (inst : s.inst? i = some n) (reg : n.reg = some r)
    (bits : BitVec 4) :
    (postFabric s i bits).inst? i = some { n with
      reg := some { r with events := r.events ||| bits }
      ctl := { n.ctl with blk := n.ctl.blk.map fun y => { y with fabLate := y.fabLate ||| bits } } } := by
  rw [postFabric, State.modBlk, State.inst_modCtl_self, inst_modReg inst reg]
  rfl

/-- The FE at a place of the region whose nest runs. -/
theorem rectFe_of_feOf {s : State} {i x : Nat} {fe : FeAt} {n : Inst} {r : Region} (inst : s.inst? i = some n)
    (reg : n.reg = some r) (place : s.feOf i fe = some x) : rectFe r.rect fe.c fe.w = x := by
  simp only [State.feOf, inst, reg] at place
  split at place
  · exact Option.some.inj place
  · cases place

/-! ## Contexts are loaded (R296, R297) -/

/-- The sequencer of an FE of a nest that has still to start loads its context of the nest's set. -/
theorem exec_configFill_loads {s u : State} {i : Nat} {fe : FeAt} {n : Inst} {r : Region} {nest : Nest} {f : Fe} {slot : Option Nat}
    {ring : List (Nat × Nat)} (inst : s.inst? i = some n) (life : n.life = .running) (reg : n.reg = some r)
    (isNest : r.nest = some nest) (col : fe.c < r.rect.w) (row : fe.w < r.rect.h) (waits : nest.started = false)
    (good : nest.failed = false) (free : r.phase ≠ .held) (new : fe.w * r.rect.w + fe.c ∉ nest.loaded)
    (load : loadFe s n r nest.ctxset fe.c fe.w none = (u, .ok f slot ring)) :
    exec (.configFill i fe) s = .next (maybeStart (({ u with
      fes := aset (rectFe r.rect fe.c fe.w) (f.runCtx slot ring) u.fes }).modReg i fun r => { r with
        nest := r.nest.map fun (y : Nest) => { y with loaded := (fe.w * r.rect.w + fe.c) :: y.loaded } }) i) := by
  have inRegion : (!n.fabricLive || decide (r.rect.w ≤ fe.c) || decide (r.rect.h ≤ fe.w)) = false := by
    simp [Inst.fabricLive, life, col, row]
  have due : (!nest.started && !nest.failed && r.phase != .held && !nest.loaded.contains (fe.w * r.rect.w + fe.c)) = true := by
    simp [waits, good, free, new]
  change execConfigFill i fe s = _
  simp only [execConfigFill, inst, reg, isNest, inRegion, due, fillForNest, load]
  rfl

/-- The FE with an image in one of its slots, which it has just used. -/
def Fe.withImage (f : Fe) (slot : Nat) (image : List Word) : Fe :=
  { f with slots := f.slots.set slot image, lru := touchLru f.lru slot }

/-- An image loaded into the FEs of a list of cells. -/
def loadCells (s : State) (slot : Nat) (image : List Word) (cells : List (Nat × Nat)) : State :=
  cells.foldl (fun s c => s.modFe (feIndex c.1 c.2) fun f => f.withImage slot image) s

theorem loadCells_fe_outside (s : State) (slot : Nat) (image : List Word) {cells : List (Nat × Nat)} {x : Nat}
    (outside : ∀ c ∈ cells, feIndex c.1 c.2 ≠ x) : (loadCells s slot image cells).fe x = s.fe x := by
  induction cells generalizing s with
  | nil => rfl
  | cons c cells ih =>
    obtain ⟨here, there⟩ := List.forall_mem_cons.mp outside
    exact (ih (s.modFe (feIndex c.1 c.2) _) there).trans (s.fe_modFe_ne _ here)

theorem loadCells_fe_listed (s : State) (slot : Nat) (image : List Word) {cells : List (Nat × Nat)} {x : Nat}
    (listed : ∃ c ∈ cells, feIndex c.1 c.2 = x) : ((loadCells s slot image cells).fe x).slots = (s.fe x).slots.set slot image := by
  induction cells generalizing s with
  | nil => exact absurd listed (by simp)
  | cons c cells ih =>
    have unfolds : loadCells s slot image (c :: cells)
      = loadCells (s.modFe (feIndex c.1 c.2) fun f => f.withImage slot image) slot image cells := rfl
    rw [unfolds]
    by_cases here : feIndex c.1 c.2 = x
    · have first : ((s.modFe (feIndex c.1 c.2) fun f => f.withImage slot image).fe x).slots = (s.fe x).slots.set slot image := by
        rw [here, State.fe_modFe_self]
        rfl
      by_cases again : ∃ c ∈ cells, feIndex c.1 c.2 = x
      · rw [ih _ again, first, List.set_set]
      · rw [loadCells_fe_outside _ _ _ fun c hc hx => again ⟨c, hc, hx⟩, first]
    · obtain ⟨d, hd, hx⟩ := listed
      have later : d ∈ cells := (List.mem_cons.mp hd).resolve_left fun same => here (same ▸ hx)
      rw [ih _ ⟨d, later, hx⟩, State.fe_modFe_ne _ _ here]

/-- The FEs that a multicast's selector names. -/
def selectedCells (sel : Word) : List (Nat × Nat) :=
  (rectCells ⟨0, 0, 384, 128⟩).filter fun c => Descr.selects sel.toNat c.1 c.2

theorem mem_selectedCells {sel : Word} {c : Nat × Nat} :
    c ∈ selectedCells sel ↔ (c.1 < 384 ∧ c.2 < 128) ∧ Descr.selects sel.toNat c.1 c.2 = true := by
  obtain ⟨col, row⟩ := c
  simp only [selectedCells, rectCells, List.mem_filter, List.mem_flatMap, List.mem_map, List.mem_range, Nat.zero_add, Prod.mk.injEq]
  refine and_congr_left fun _ => ⟨?_, fun ⟨hc, hr⟩ => ⟨row, hr, col, hc, rfl, rfl⟩⟩
  rintro ⟨_, hr, _, hc, rfl, rfl⟩
  exact ⟨hc, hr⟩

/-- Columns stand below 384, so that an FE's index names its cell. -/
theorem feIndex_inj {col row col' row' : Nat} (hc : col < 384) (hc' : col' < 384) (h : feIndex col row = feIndex col' row') :
    col = col' ∧ row = row' := by
  unfold feIndex at h
  omega

/-- Where no instance has a region, a good image without deltas reaches every FE that the selector names. -/
theorem exec_configMulticast_loads {s : State} {sel : Word} {slot : BitVec 3} {image : List Word}
    (free : ∀ x ∈ s.insts, x.2.reg = none) (len : image.length = 8) (good : Cfg.bad image = false) :
    exec (.configMulticast sel slot image []) s = .next (loadCells s slot.toNat image (selectedCells sel)) := by
  have idle (col row : Nat) : feBusy s col row = false := by
    rw [feBusy, List.any_eq_false]
    intro x hx
    simp [free x hx]
  have plain (col row : Nat) : withDeltas image col row slot.toNat [] = image := rfl
  change execConfigMulticast sel slot image [] s = _
  simp only [execConfigMulticast, len, idle, plain, good, Bool.not_false, Bool.and_true, List.any_nil]
  rfl

/-! ## The next iteration (R176, R179) -/

/-- The next iteration enters flight at the next vector when the one before has formed its accesses and the buffers have room. -/
theorem exec_iterationStart_enters {s : State} {i : Nat} {n : Inst} {r : Region} {nest : Nest} {v : List Nat}
    (running : runningNest s i = some (n, r, nest)) (next : r.nextVec = some v) (life : n.life = .running) (few : r.iters.length < 2)
    (formed : ∀ it ∈ r.iters, sourcesFormed r nest it = true ∧ ∀ x ∈ r.reads, x.iter ≠ it.n)
    (room : roomForNext s r nest = true) :
    let it : Iter := { n := r.nextN, vec := v, pos := [], sinkPos := [], beats := [], takes := [], holds := [], undo := [],
                       marks := r.nextMarks, since := 0, excluded := 0, replays := agetD 0 r.nextN r.replayed, checkFailed := none }
    exec (.iterationStart i) s = .next ((insertMarkers s r nest r.nextN).modReg i fun r => { r with
      iters := r.iters ++ [it], nextN := r.nextN + 1, nextVec := Descr.nextVec nest.loop v, marks := [],
      replayed := adel r.nextN r.replayed, remarks := adel r.nextN r.remarks }) := by
  have prev : (r.iters.all fun it => sourcesFormed r nest it && !(r.reads.any fun x => x.iter == it.n)) = true := by
    simpa [List.all_eq_true] using formed
  have mayStart : (n.life == .stopping || decide (2 ≤ r.iters.length)
      || !(r.iters.all fun it => sourcesFormed r nest it && !(r.reads.any fun x => x.iter == it.n))
      || !roomForNext s r nest) = false := by
    simp [life, few, prev, room]
  change execIterationStart i s = _
  simp only [execIterationStart, running, next, mayStart]
  rfl

/-! ## A marker at an input (R320, R321) -/

/-- The beats at an input of an FE. -/
def Fe.input (f : Fe) : FeIn → List Beat
  | .ia => f.qa
  | .ib => f.qb
  | .ic => f.qc

/-- The FE with other beats at an input. -/
def Fe.withInput (f : Fe) (inp : FeIn) (q : List Beat) : Fe :=
  match inp with
  | .ia => { f with qa := q }
  | .ib => { f with qb := q }
  | .ic => { f with qc := q }

/-- The snapshots of an FE once a marker of a tag has passed it. -/
def Fe.seenMarker (f : Fe) (tag : Nat) : Assoc Snap :=
  f.snaps.map fun (y : Nat × Snap) => (y.1, { y.2 with passed := y.2.passed ++ [tag] })

/-- Where no late KSET waits for the marker, its passing is kept in the snapshots of its FE, and nothing comes with it. -/
theorem notePass_noLate {s : State} {r : Region} {fe : FeAt} {tag : Nat} (i : Nat)
    (noLate : ∀ y ∈ r.ksets, ¬ (y.c = fe.c ∧ y.w = fe.w ∧ y.tag = tag)) :
    ∃ g, notePass s i r fe tag
      = (s.modFe (rectFe r.rect fe.c fe.w) fun f => { f with snaps := f.seenMarker tag }).modReg i g := by
  have none : (r.ksets.filter fun y => (y.c == fe.c && y.w == fe.w && y.tag == tag) && decide (y.after ≤ 1)) = [] := by
    rw [List.filter_eq_nil_iff]
    intro y hy
    simpa [and_assoc] using fun hc hw ht => absurd ⟨hc, hw, ht⟩ (noLate y hy)
  unfold notePass
  dsimp only
  rw [none]
  exact ⟨_, rfl⟩

/-- The state in which a marker at an input has been taken: the FE's beats behind it, the pending constants of its tag
written, and its passing noted. -/
def markerTaken (s : State) (i : Nat) (r : Region) (fe : FeAt) (x : Nat) (inp : FeIn) (m : Beat) (rest : List Beat) : State :=
  let tag := m.data.toNat % 16
  notePass ((enterIter s x m.iter).modFe x fun f => (f.withInput inp rest).applyMarker tag) i r fe tag

/-- A marker at the head of an input is taken and goes on. -/
theorem exec_markerPass_goesOn {s : State} {i x : Nat} {fe : FeAt} {inp : FeIn} {n : Inst} {r : Region} {nest : Nest} {m : Beat}
    {rest : List Beat} (running : runningNest s i = some (n, r, nest)) (place : s.feOf i fe = some x)
    (head : (s.fe x).input inp = m :: rest) (marker : m.isMarker = true) (room : outRoom s r nest fe (s.fe x).ctxWords = true) :
    let u := markerTaken s i r fe x inp m rest
    exec (.markerPass i fe inp) s =
      .next ((outputs (s.fe x).ctxWords).foldl (fun v io => emitBeat v i r nest (netOf u r) fe io m) u) := by
  change execMarkerPass i fe inp s = _
  cases inp
  all_goals
    simp only [Fe.input] at head
    simp only [execMarkerPass, running, place, head, marker, room]
    rfl

theorem State.fe_modReg (s : State) (i : Nat) (g : Region → Region) (x : Nat) : (s.modReg i g).fe x = s.fe x := rfl

/-- What taking it leaves of the FE and of memory. -/
theorem markerTaken_leaves {s : State} {i x : Nat} {fe : FeAt} {inp : FeIn} {r : Region} {m : Beat} {rest : List Beat}
    (flaws : s.flaws = []) (cell : rectFe r.rect fe.c fe.w = x)
    (noLate : ∀ y ∈ r.ksets, ¬ (y.c = fe.c ∧ y.w = fe.w ∧ y.tag = m.data.toNat % 16)) :
    let u := markerTaken s i r fe x inp m rest
    let f := (enterIter s x m.iter).fe x
    u.mem = s.mem
      ∧ u.fe x = ({ f.withInput inp rest with snaps := f.seenMarker (m.data.toNat % 16) }).applyMarker (m.data.toNat % 16) := by
  obtain ⟨g, noted⟩ := notePass_noLate (s := (enterIter s x m.iter).modFe x fun f =>
    (f.withInput inp rest).applyMarker (m.data.toNat % 16)) i noLate
  intro u f
  have taken : u = _ := noted
  rw [taken, cell]
  constructor
  · rw [State.modReg_mem, State.modFe_mem, State.modFe_mem, enterIter_mem flaws]
  · rw [State.fe_modReg, State.fe_modFe_self, State.fe_modFe_self]
    cases inp <;> rfl

/-! ## Sources and fence tokens (R102, R113, R304) -/

theorem portOf_attached {r : Region} {b port : Nat} (attached : aget b r.att = some port) :
    r.portOf b = agetD ⟨0, .virt, false⟩ port r.ports := by
  rw [Region.portOf, attached, Option.getD_some]

/-- The address of a beat, through the binding's port. -/
theorem beatAddr_attached {r : Region} {nest : Nest} {b port p : Nat} {w : List Word} {it : Iter} {a : Int}
    (attached : aget b r.att = some port)
    (at_ : Descr.addrAt w (agetD ⟨0, .virt, false⟩ port r.ports).base.toInt (Descr.vecAt nest.loop it.vec p) = some a) :
    beatAddr r nest b w it p = some (BitVec.ofInt 64 a) := by
  rw [beatAddr, portOf_attached attached, at_, Option.map_some]

section Sources

variable {s : State} {i b : Nat} {n : Inst} {r : Region} {nest : Nest} {w : List Word} {it : Iter}

/-- A source binding forms its next beat in the oldest iteration that lacks one, behind the fence tokens before it. -/
theorem exec_regionSourceAccess_source (running : runningNest s i = some (n, r, nest)) (bound : nest.binds[b]? = some w)
    (clear : frunClear s i nest = true) (source : Descr.isSource w = true) (kind : Descr.kind w ≠ 5)
    (attached : walked r nest b = true) (lacks : r.iters.find? (fun it => it.at b < nest.pass) = some it)
    (placed : fencesPlaced nest it (it.at b) = true) :
    exec (.regionSourceAccess i b) s = .next (formBeat s i n r nest b w it (it.at b)) := by
  change execRegionSourceAccess i b s = _
  simp only [execRegionSourceAccess, running, bound, clear, source, if_neg kind, attached, lacks, placed]
  rfl

/-- A fence binding places its next token in the oldest iteration that lacks one, behind what the sources form before it. -/
theorem exec_regionSourceAccess_fence (running : runningNest s i = some (n, r, nest)) (bound : nest.binds[b]? = some w)
    (clear : frunClear s i nest = true) (kind : Descr.kind w = 5)
    (lacks : r.iters.find? (fun it => it.at b < fencesTo nest.loop (Descr.fdim w) it (nest.pass - 1)) = some it)
    (ready : fenceReady r nest w b it = true) :
    exec (.regionSourceAccess i b) s = .next (placeFence s i nest b w it) := by
  change execRegionSourceAccess i b s = _
  simp only [execRegionSourceAccess, running, bound, clear, if_pos kind, lacks, ready]
  rfl

/-- The read that forms beat `p` of a binding in an iteration, before it has an address or bytes. -/
def newRead (s : State) (nest : Nest) (b : Nat) (w : List Word) (it : Iter) (p : Nat) : RRead :=
  { id := s.fresh + 1, bind := b, iter := it.n, pos := p, pieces := [], got := [], fence := none, zero := false, parked := false,
    missed := false, va := 0, size := Descr.nbytes w
    marks := BitVec.ofNat 6 (Descr.marksAt nest.loop (Descr.vecAt nest.loop it.vec p)) }

/-- A beat of a memory source at an address. -/
theorem formBeat_memory {p : Nat} {addr : Word} (kind : Descr.kind w = 0) (port : (r.portOf b).ch = false)
    (at_ : beatAddr r nest b w it p = some addr) :
    formBeat s i n r nest b w it p = memSource { s with fresh := s.fresh + 1 } i n r b w (newRead s nest b w it p) addr := by
  unfold formBeat
  dsimp only
  rw [if_pos kind, if_neg (by simp [port]), at_]
  rfl

/-- A beat of a channel source that no earlier receive holds back. -/
theorem formBeat_channel {p : Nat} (kind : Descr.kind w = 0) (port : (r.portOf b).ch = true)
    (free : sourceHeld s i n r nest b it p = false) :
    formBeat s i n r nest b w it p = chanSource { s with fresh := s.fresh + 1 } i n b w ((aget b r.att).getD 0) (r.portOf b)
      (newRead s nest b w it p) := by
  have stillFree : sourceHeld { s with fresh := s.fresh + 1 } i n r nest b it p = false := free
  unfold formBeat
  dsimp only [State.takeFresh]
  rw [if_pos kind, if_pos port, stillFree]
  rfl

/-- The region with a read put behind the others and its binding moved on. -/
def Region.withRead (r : Region) (b : Nat) (x : RRead) : Region :=
  { r with reads := r.reads ++ [x], blockedFrom := none }.modIter x.iter fun it => { it with pos := aset b (it.at b + 1) it.pos }

/-- Nothing is delivered past a binding's first read while that is not complete. -/
theorem deliverReads_incomplete {x : RRead} (inst : s.inst? i = some n) (reg : n.reg = some r)
    (first : r.reads.find? (fun y => y.bind == b && y.fence.isNone) = some x) (incomplete : x.complete = false) (fuel : Nat) :
    deliverReads s i b w fuel = s := by
  cases fuel with
  | zero => rfl
  | succ fuel => simp only [deliverReads, inst, Option.bind_some, reg, first, incomplete]; rfl

/-- The first read of a binding waits until its bytes have come. -/
theorem enterRead_waits {x : RRead} (inst : s.inst? i = some n) (reg : n.reg = some r) (others : ∀ y ∈ r.reads, y.bind ≠ b)
    (ours : x.bind = b) (noFence : x.fence = none) (incomplete : x.complete = false) :
    enterRead s i b w x = s.modReg i fun r => r.withRead b x := by
  have first : (r.withRead b x).reads.find? (fun y => y.bind == b && y.fence.isNone) = some x := by
    have absent : r.reads.find? (fun y => y.bind == b && y.fence.isNone) = none := by
      rw [List.find?_eq_none]
      intro y hy
      simp [others y hy]
    simp [Region.withRead, Region.modIter, List.find?_append, absent, ours, noFence]
  exact deliverReads_incomplete (inst_modReg inst reg _) rfl first incomplete _

/-- An access that translates is entered with its pieces. -/
theorem memSource_translated {u : State} {x : RRead} {addr : Word} {ps : List Piece} {core : Nat} (at_ : bindCore r w = core)
    (translated : xlate s (some core) core (dieOfCore core) n.ctx (r.portOf b).as addr x.size 64 1 (portAccess false) false
      = (u, .ok ps)) :
    memSource s i n r b w x addr = enterRead u i b w { x with pieces := ps, va := addr } := by
  subst at_
  simp only [memSource, translated]

theorem deliverRead_keeps (s : State) (i : Nat) (r : Region) (b : Nat) (w : List Word) (x : RRead) :
    (deliverRead s i r b w x).mem = s.mem ∧ (deliverRead s i r b w x).chans = s.chans := by
  unfold deliverRead feedBeat
  dsimp only
  split <;> exact ⟨rfl, rfl⟩

/-- Deliveries change FEs and the region alone. -/
theorem deliverReads_keeps (i b : Nat) (w : List Word) (fuel : Nat) (s : State) :
    (deliverReads s i b w fuel).mem = s.mem ∧ (deliverReads s i b w fuel).chans = s.chans := by
  induction fuel generalizing s with
  | zero => exact ⟨rfl, rfl⟩
  | succ fuel ih =>
    unfold deliverReads
    split
    · exact ⟨rfl, rfl⟩
    · rename_i r _
      split
      · rename_i x _
        split
        · obtain ⟨mem, chans⟩ := deliverRead_keeps s i r b w x
          obtain ⟨mem', chans'⟩ := ih (deliverRead s i r b w x)
          exact ⟨mem'.trans mem, chans'.trans chans⟩
        · exact ⟨rfl, rfl⟩
      · exact ⟨rfl, rfl⟩

theorem enterRead_keeps (s : State) (i b : Nat) (w : List Word) (x : RRead) :
    (enterRead s i b w x).mem = s.mem ∧ (enterRead s i b w x).chans = s.chans := deliverReads_keeps i b w _ _

/-- A channel source takes its channel's first token tentatively and is its reader. -/
theorem chanSource_takes {port : Nat} {p : Port} {x : RRead} {key : Nat} {c : Chan} {t : Tok} {rest : List Tok}
    (query : chanQuery s n.ctx (.port i port) p.base false = .ok (key, c)) (head : c.head = t :: rest) (free : t.taken = false)
    (whole : t.lost = false) (flaws : s.flaws = []) (poison : s.poison = []) :
    ∃ u, chanSource s i n b w port p x = enterRead u i b w { x with got := (t.data ++ zeros x.size).take x.size } ∧ u.mem = s.mem
      ∧ aget key u.chans = some { c with reader := .port i port, head := { t with taken := true } :: rest } := by
  have first : (indexed 0 c.head).find? (fun t => !t.2.taken) = some (0, t) := by
    rw [head]
    exact List.find?_cons_of_pos (by simp [free])
  have good : bufferBad s (c.headPieces t) = (s, false) := by
    rw [bufferBad_of_no_flaws flaws, poisonedPieces_of_no_poison poison]
  have there : (if t.lost = true then (s, true) else bufferBad s (c.headPieces t)) = (s, false) := by rw [whole, good]; rfl
  unfold chanSource
  simp only [query, first, there]
  refine ⟨_, rfl, rfl, ?_⟩
  rw [State.modReg_chans, aget_modChan_self, aget_of_chanQuery query, Option.map_some, head]
  rfl

end Sources

/-! ## Sinks (R81, R102, R304, R321) -/

section Sinks

variable {s : State} {i b port : Nat} {n : Inst} {r : Region} {nest : Nest} {w : List Word} {beat : Beat} {it : Iter}

/-- A sink binding without a parked write to take up takes the beat at its head. -/
theorem exec_regionSinkWrite_head {rest : List Beat} (running : runningNest s i = some (n, r, nest)) (bound : nest.binds[b]? = some w)
    (attached : aget b r.att = some port) (unparked : parkedSink s i r b = none) (head : agetD [] b r.sinks = beat :: rest) :
    exec (.regionSinkWrite i b) s = .next (sinkBeat s i n r nest b w port beat) := by
  change execRegionSinkWrite i b s = _
  simp only [execRegionSinkWrite, running, bound, attached, unparked, head]

/-- A marker leaves its sink and raises SINKMARK. -/
theorem sinkBeat_marker {rest : List Beat} (inst : s.inst? i = some n) (reg : n.reg = some r) (marker : beat.isMarker = true)
    (head : agetD [] b r.sinks = beat :: rest) : let t := sinkBeat s i n r nest b w port beat
    t.mem = s.mem ∧ (t.inst? i).bind (fun n => n.reg) = some { r with sinks := aset b rest r.sinks, events := r.events ||| 8 } := by
  intro t
  have posted : t = postFabric (s.modReg i fun r => { r with sinks := aset b ((agetD [] b r.sinks).drop 1) r.sinks }) i 0b1000 :=
    if_pos marker
  rw [posted]
  refine ⟨rfl, ?_⟩
  rw [inst_postFabric (inst_modReg inst reg _) rfl, head]
  rfl

/-- A beat within its iteration's pass at a memory sink. -/
theorem sinkBeat_memory {addr : Word} (data : beat.isMarker = false) (found : r.iters.find? (fun it => it.n == beat.iter) = some it)
    (inPass : it.sinkAt b < nest.pass) (mem : (r.portOf b).ch = false) (at_ : beatAddr r nest b w it (it.sinkAt b) = some addr) :
    sinkBeat s i n r nest b w port beat = memSink s i n r b w port it beat addr := by
  simp [sinkBeat, data, found, inPass, mem, at_]

/-- A beat within its iteration's pass at a channel sink. -/
theorem sinkBeat_channel (data : beat.isMarker = false) (found : r.iters.find? (fun it => it.n == beat.iter) = some it)
    (inPass : it.sinkAt b < nest.pass) (chan : (r.portOf b).ch = true) :
    sinkBeat s i n r nest b w port beat = chanSink s i n r b w port it.n beat := by
  simp [sinkBeat, data, found, inPass, chan]

/-- A write that translates is held with its pieces. -/
theorem memSink_translated {u : State} {addr : Word} {ps : List Piece} {core : Nat} (at_ : bindCore r w = core)
    (translated : xlate { s with fresh := s.fresh + 1 } (some core) core (dieOfCore core) n.ctx (r.portOf b).as addr (Descr.nbytes w)
      64 1 (portAccess true) false = (u, .ok ps)) :
    memSink s i n r b w port it beat addr = holdItem u i b w it.n core port (.write (s.fresh + 1) b (it.sinkAt b)
      (if Descr.rel w then some ((scopeOf (Descr.scope w)).getD .system) else none) addr (some ps)
      (leBytes (Descr.nbytes w) beat.data.toNat) core) := by
  subst at_
  simp only [memSink, State.takeFresh, length_leBytes, translated]

/-- A token for an open channel that the port may write is held. -/
theorem chanSink_held {k key : Nat} {c : Chan}
    (query : chanQuery s n.ctx (.port i (port % 32)) (r.portOf b).base true = .ok (key, c)) (opened : c.state = .opened) :
    chanSink s i n r b w port k beat = holdItem s i b w k (bindCore r w) port
      (.token b port (r.portOf b).base (leBytes c.width beat.data.toNat) (bindCore r w)) := by
  simp [chanSink, query, opened]

end Sinks

end Sys2Proof.Machine
end

section
/-! PROOFS. The ends of an iteration of a region, and the steps of a region (O51): what commits, discards and stops leave alone,
and what they make of the region and its control context. -/

namespace Sys2Proof.Machine

open Sys2Proof.Bits

/-! ## What the ends of an iteration leave alone (R80, R81, R178) -/

/-- A write that enters an outbound set changes the sets and the counter of names alone. -/
theorem enterWrite_changes (s : State) (a : Agent) (ps : List Piece) (data : List Byte) (rel : Option Scope) (poisoned : Bool) :
    ∃ outb fresh, enterWrite s a ps data rel poisoned = { s with outb, fresh } := by
  unfold enterWrite
  generalize s.fresh + 1 = grp
  suffices ∀ x : State × List Byte, ∃ outb fresh, (ps.foldl _ x).1 = { x.1 with outb, fresh } from this (s, data)
  intro x
  induction ps generalizing x with
  | nil => exact ⟨_, _, rfl⟩
  | cons p ps ih => exact ih _

namespace KeepsAskers

theorem inst {s t : State} (h : KeepsAskers s t) (i : Nat) : t.inst? i = s.inst? i := congrArg (aget i) h.insts

theorem modChan (s : State) (k : Nat) (f : Chan → Chan) : KeepsAskers s (s.modChan k f) := ⟨rfl, rfl⟩

theorem modFe (s : State) (x : Nat) (f : Fe → Fe) : KeepsAskers s (s.modFe x f) := ⟨rfl, rfl⟩

theorem countCore (s : State) (core code n : Nat) : KeepsAskers s (s.countCore core code n) := ite _ ⟨rfl, rfl⟩ (refl s)

theorem meetPieces (s : State) (ps : List Piece) : KeepsAskers s (s.meetPieces ps) :=
  foldl (fun s (p : Piece) => meetFlaws s p.key p.n) ps s

theorem scatter (s : State) (ps : List Piece) (bs : List Byte) : KeepsAskers s (s.scatter ps bs) := by
  induction ps generalizing s bs with
  | nil => exact refl s
  | cons p ps ih => exact (putBytes s p.key _).trans (ih _ _)

theorem pushHead (s : State) (k : Nat) (c : Chan) (data : List Byte) (lost : Bool) :
    KeepsAskers s (pushHead s k c data lost) := by
  have stored : KeepsAskers s (if lost then s else s.putBytes (c.headKey (c.nextSlot * c.width)) data) :=
    ite _ (refl s) (putBytes s _ data)
  exact stored.trans (modChan _ k _)

theorem pullOne {s t : State} {k : Nat} {c : Chan} (h : pullOne s k c = some t) : KeepsAskers s t := by
  unfold Machine.pullOne at h
  split at h
  · cases h
  · rename_i e _ _
    split at h
    · cases h
      exact (meetPieces s (c.tailPieces e)).trans ((modChan _ k _).trans (pushHead _ k c _ _))
    · cases h

theorem enterOne {s t : State} {k : Nat} {c : Chan} (h : enterOne s k c = some t) : KeepsAskers s t := by
  unfold Machine.enterOne at h
  split at h
  · cases h
  · dsimp only at h
    split at h
    · cases h
    · split at h
      · cases h
        exact modChan s k _
      · split at h
        · cases h
          exact (modChan s k _).trans ((scatter _ _ _).trans ((modChan _ k _).trans (modChan _ k _)))
        · cases h

theorem settleSteps (k fuel : Nat) (s : State) : KeepsAskers s (settleSteps k fuel s) := by
  induction fuel generalizing s with
  | zero => exact refl s
  | succ fuel ih =>
    unfold Machine.settleSteps
    split
    · exact refl s
    · split
      · rename_i pulled
        exact (pullOne pulled).trans (ih _)
      · split
        · rename_i entered
          exact (enterOne entered).trans (ih _)
        · exact refl s

theorem settleChan (s : State) (k : Nat) : KeepsAskers s (settleChan s k) := by
  unfold Machine.settleChan
  split
  · exact refl s
  · exact (settleSteps k _ s).trans (modChan _ k _)

theorem enterWrite (s : State) (a : Agent) (ps : List Piece) (data : List Byte) (rel : Option Scope) (poisoned : Bool) :
    KeepsAskers s (enterWrite s a ps data rel poisoned) := by
  obtain ⟨outb, fresh, entered⟩ := enterWrite_changes s a ps data rel poisoned
  rw [entered]
  exact ⟨rfl, rfl⟩

theorem enterRelease (s : State) (i k : Nat) (c : Chan) (toks : List (Nat × Option (List Byte))) :
    KeepsAskers s (enterRelease s i k c toks) := by
  have settled (u : State) (h : KeepsAskers s u) : KeepsAskers s (Machine.settleChan u k) := h.trans (settleChan u k)
  unfold Machine.enterRelease
  dsimp only [State.takeFresh]
  split
  · exact settled _ ⟨rfl, rfl⟩
  · exact ⟨rfl, rfl⟩

theorem releaseHolds (s : State) (i : Nat) (n : Inst) (nest : Nest) (it : Iter) : KeepsAskers s (releaseHolds s i n nest it) := by
  refine (foldl (fun s h => ?item) (holdsInOrder nest it) s).trans (foldl (fun s h => ?tokens) (sentBefore i it) _)
  case item =>
    cases h with
    | write => exact enterWrite s _ _ _ _ _
    | fence => exact ⟨rfl, rfl⟩
    | token => exact refl s
  case tokens =>
    split
    · exact (modChan s _ _).trans (enterRelease _ i _ _ _)
    · exact refl s

theorem freeTaken (s : State) (ctx : Nat) (takes : List Word) : KeepsAskers s (freeTaken s ctx takes) := by
  refine foldl (fun s h => ?_) takes s
  split
  · exact refl s
  · split
    · exact (modChan s _ _).trans (settleChan _ _)
    · exact refl s

theorem closeSinks (s : State) (i : Nat) (n : Inst) (xs : List CloseAt) : KeepsAskers s (closeSinks s i n xs) := by
  refine foldl (fun s x => ?_) xs s
  split
  · exact (modChan s _ _).trans (enterRelease _ i _ _ _)
  · exact refl s

theorem undoWrites (s : State) (undo : List (Nat × Nat × List Byte × Bool)) : KeepsAskers s (undoWrites s undo) := by
  refine foldl (fun s u => ?_) undo.reverse s
  exact ite _ ⟨rfl, rfl⟩ (putBytes s _ _)

theorem untake (s : State) (ctx : Nat) (handles : List Word) : KeepsAskers s (untake s ctx handles) := by
  refine foldl (fun s h => ?_) handles s
  unfold State.modHandle
  split
  · exact modChan s _ _
  · exact refl s

theorem rollbackFe (s : State) (k x : Nat) : KeepsAskers s (rollbackFe s k x) := by
  unfold Machine.rollbackFe
  dsimp only
  split
  · exact modFe s x _
  · rename_i p _ _
    have restored : KeepsAskers s (if (s.fe x).stoch then s.restoreStreams x p.cells p.bad else s) := ite _ ⟨rfl, rfl⟩ (refl s)
    exact restored.trans (modFe _ x _)

end KeepsAskers

/-! ## The ends of an iteration (R56, R81, R178, R180) -/

section Ends

variable {s : State} {i : Nat} {n : Inst} {r : Region} {nest : Nest}

/-- Leave given back changes of the instance the region's leave alone, and no byte of memory. -/
theorem returnLeave_leaves (inst : s.inst? i = some n) (reg : n.reg = some r) :
    (returnLeave s i).mem = s.mem ∧ ∃ leave, (returnLeave s i).inst? i = some { n with reg := some { r with leave } } := by
  simp only [returnLeave, inst, reg]
  cases held : r.leave with
  | none =>
    refine ⟨rfl, none, inst.trans (congrArg some ?_)⟩
    cases n
    cases reg
    cases r
    cases held
    rfl
  | some u =>
    have given : (giveLeave s (leaveDie n) (s.classOf n) u).inst? i = some n := inst
    exact ⟨rfl, none, inst_modReg given reg _⟩

/-- A nest ends: windows and channels are closed, leave is returned, and the region is idle (R306). -/
theorem endNest_eq (inst : s.inst? i = some n) (reg : n.reg = some r) (isNest : r.nest = some nest) :
    ∃ u, endNest s i = (returnLeave u i).modReg i (fun r => { r with phase := .idle, nextVec := none, blockedFrom := none })
      ∧ KeepsAskers s u ∧ (closeAts i r nest = [] → u.mem = s.mem) := by
  simp only [endNest, inst, reg, isNest]
  refine ⟨_, rfl, ?_, fun none => ?_⟩
  · exact (KeepsAskers.foldl (fun s _ => KeepsAskers.modFe s _ _) (relCells r.rect) s).trans (KeepsAskers.closeSinks _ i n _)
  · rw [none]
    exact foldl_modFe_mem _ _ (relCells r.rect) s

/-- What a nest that ends leaves of its instance, and of memory where it closes no channel. -/
theorem endNest_leaves (inst : s.inst? i = some n) (reg : n.reg = some r) (isNest : r.nest = some nest) :
    (∃ leave, (endNest s i).inst? i = some { n with
      reg := some { r with leave, phase := .idle, nextVec := none, blockedFrom := none } })
    ∧ (closeAts i r nest = [] → (endNest s i).mem = s.mem) := by
  obtain ⟨u, ended, keeps, closesNone⟩ := endNest_eq inst reg isNest
  obtain ⟨mem, leave, returned⟩ := returnLeave_leaves ((keeps.inst i).trans inst) reg
  rw [ended]
  refine ⟨⟨leave, ?_⟩, fun none => ?_⟩
  · rw [inst_modReg returned rfl]
  · rw [State.modReg_mem, mem, closesNone none]

/-- Where an iteration holds no token, what it holds leaves memory as it was. -/
theorem releaseHolds_mem {it : Iter} (noToken : heldHandles it = []) : (releaseHolds s i n nest it).mem = s.mem := by
  have unsent : sentBefore i it = [] := by rw [sentBefore, noToken]; rfl
  unfold releaseHolds
  rw [unsent]
  refine foldl_keeps State.mem (fun s h => ?_) (holdsInOrder nest it) s
  cases h with
  | write _ _ _ rel _ ps data _ =>
    obtain ⟨outb, fresh, entered⟩ := enterWrite_changes s (.region i) (ps.getD []) data rel false
    exact (congrArg State.mem entered :)
  | fence => rfl
  | token => rfl

/-- The region once its oldest iteration has committed and been counted (R178). -/
def Region.committedOldest (r : Region) (it : Iter) : Region := { r with
  iters := r.iters.drop 1, committed := min (r.committed + 1) (2 ^ 32 - 1), events := r.events ||| 2, watch := 0, expired := false
  blockedFrom := none
  fcnt := it.beats.foldl (fun m (p : Nat × Nat) => aset p.1 (agetD 0 p.1 m + p.2) m) r.fcnt
  retries := if it.replays = 0 then r.retries else r.retries + 1, retried := r.retried || it.replays != 0 }

/-- The control context beside a region that commits an iteration: an FWAIT in flight sees the event late. -/
def Ctl.sawIteration (c : Ctl) : Ctl := { c with blk := c.blk.map fun y => { y with fabLate := y.fabLate ||| 2 } }

theorem countCore_mem (s : State) (core code n : Nat) : (s.countCore core code n).mem = s.mem := by
  unfold State.countCore
  split <;> rfl

theorem postFabric_mem (s : State) (i : Nat) (bits : BitVec 4) : (postFabric s i bits).mem = s.mem := rfl

/-- A commit is what it releases and takes, the iteration counted, and what it leaves to do after. -/
theorem commitIter_eq (inst : s.inst? i = some n) (reg : n.reg = some r) (it : Iter) :
    ∃ u, commitIter s i n r nest it = afterCommit u i it (lastIter r)
      ∧ u.inst? i = some { n with reg := some (r.committedOldest it), ctl := n.ctl.sawIteration }
      ∧ (it.takes = [] → heldHandles it = [] → u.mem = s.mem) := by
  have released := (KeepsAskers.releaseHolds s i n nest it).trans (KeepsAskers.freeTaken _ n.ctx it.takes)
  have forgotten := released.trans (KeepsAskers.foldl (fun s (x : Nat × Nat) => KeepsAskers.modFe s (rectFe r.rect x.1 x.2) fun f =>
    { f with snaps := f.snaps.filter fun (y : Nat × Snap) => it.n < y.1 }) (relCells r.rect) _)
  refine ⟨_, rfl, ?_, fun noTake noToken => ?_⟩
  · rw [(KeepsAskers.countCore _ n.cluster 0x040 1).inst i]
    rw [inst_modReg (inst_postFabric ((forgotten.inst i).trans inst) reg 0b0010) rfl]
    rfl
  · rw [countCore_mem, State.modReg_mem, postFabric_mem, foldl_modFe_mem, noTake]
    exact releaseHolds_mem noToken

/-- Where no STEP trap is due, a commit leaves the end of the nest to do after its last iteration, and nothing else. -/
theorem afterCommit_noStep (inst : s.inst? i = some n) (noStep : n.ctl.step = false) (it : Iter) (last : Bool) :
    afterCommit s i it last = if last then endNest s i else s := by
  simp only [afterCommit, inst, noStep]
  rfl

theorem lastIter_iff {it : Iter} {rest : List Iter} (iters : r.iters = it :: rest) :
    lastIter r = true ↔ rest = [] ∧ r.nextVec = none := by
  simp [lastIter, iters]

/-- What the commit of an iteration leaves of its instance, and of memory where it releases and closes nothing. -/
theorem commitIter_leaves {it : Iter} {rest : List Iter} (inst : s.inst? i = some n) (reg : n.reg = some r)
    (isNest : r.nest = some nest) (phase : r.phase = .running) (iters : r.iters = it :: rest) (noStep : n.ctl.step = false) :
    ∃ n' r', (commitIter s i n r nest it).inst? i = some n' ∧ n'.reg = some r' ∧ n'.ctl = n.ctl.sawIteration
      ∧ r'.iters = rest ∧ r'.committed = min (r.committed + 1) (2 ^ 32 - 1) ∧ r'.events = r.events ||| 2
      ∧ (r'.phase = if rest = [] ∧ r.nextVec = none then .idle else .running)
      ∧ (it.takes = [] → heldHandles it = [] → (lastIter r = true → closeAts i r nest = []) →
          (commitIter s i n r nest it).mem = s.mem) := by
  obtain ⟨u, committed, counted, mem⟩ := commitIter_eq inst reg (nest := nest) it
  have left : (r.committedOldest it).iters = rest := by rw [Region.committedOldest, iters]; rfl
  rw [committed, afterCommit_noStep counted noStep]
  by_cases last : lastIter r = true
  · obtain ⟨⟨leave, ended⟩, endMem⟩ := endNest_leaves (nest := nest) counted rfl isNest
    rw [if_pos last, if_pos ((lastIter_iff iters).mp last)]
    exact ⟨_, _, ended, rfl, rfl, left, rfl, rfl, rfl, fun noTake noToken noClose =>
      (endMem (noClose last)).trans (mem noTake noToken)⟩
  · rw [if_neg last, if_neg fun done => last ((lastIter_iff iters).mpr done)]
    exact ⟨_, _, counted, rfl, rfl, left, rfl, rfl, phase, fun noTake noToken _ => mem noTake noToken⟩

/-- The oldest iteration, done and drained, commits when nothing that it sends or closes is refused and its tokens find room; it
waits while they find none (R81, R178). -/
theorem exec_iterationCommit_decided {it : Iter} {rest : List Iter} (running : runningNest s i = some (n, r, nest))
    (iters : r.iters = it :: rest) (good : it.checkFailed = none) (done : passesDone r nest it = true)
    (empty : drained s r it.n = true) (taken : tokenRefused s i n nest it = none)
    (closes : lastIter r = true → closeRefused s n (sentBefore i it) (closeAts i r nest) = none ∧ closeFails s r = none) :
    exec (.iterationCommit i) s = .next (if fullChans s n it = [] then commitIter s i n r nest it
      else waitForRoom s i (fullChans s n it)) := by
  have mayEnd : (it.checkFailed.isSome || !passesDone r nest it || !drained s r it.n) = false := by simp [good, done, empty]
  have accepted : closeRefused s n (sentBefore i it) (if lastIter r then closeAts i r nest else []) = none := by
    split
    · exact (closes ‹_›).1
    · rfl
  have parity : (if lastIter r then closeFails s r else none) = none := by
    split
    · exact (closes ‹_›).2
    · rfl
  have refused : ((tokenRefused s i n nest it).orElse fun _ =>
      closeRefused s n (sentBefore i it) (if lastIter r then closeAts i r nest else [])) = none := by
    rw [taken, accepted]
    rfl
  change execIterationCommit i s = _
  simp only [execIterationCommit, running, iters, mayEnd, refused, parity]
  cases fullChans s n it <;> rfl

/-- A region with iterations in flight that is rolled back stands at the vector of the first of them; of its instance nothing
else changes (R178). -/
theorem rollback_inst {it : Iter} {rest : List Iter} (inst : s.inst? i = some n) (reg : n.reg = some r)
    (iters : r.iters = it :: rest) :
    ∃ remarks ksets replayed, (rollback s i).inst? i = some { n with reg := some { r with
      iters := [], reads := [], sinks := [], nextVec := some it.vec, nextN := it.n, remarks, ksets, replayed } } := by
  have undone := KeepsAskers.foldl (fun s (it : Iter) => KeepsAskers.undoWrites s it.undo) (it :: rest).reverse s
  have untaken := undone.trans (KeepsAskers.foldl (fun s (it : Iter) => KeepsAskers.untake s n.ctx it.takes) (it :: rest) _)
  have rolled := untaken.trans (KeepsAskers.foldl (fun s (x : Nat × Nat) => KeepsAskers.rollbackFe s it.n (feIndex x.1 x.2))
    (rectCells r.rect) _)
  simp only [rollback, inst, reg, iters]
  rw [inst_modReg ((rolled.inst i).trans inst) reg]
  exact ⟨_, _, _, rfl⟩

/-- The oldest iteration, a check of which failed, is rolled back and replays from its vector, once. -/
theorem iterationDiscard_replays {it : Iter} {rest : List Iter} {fc : Nat × Nat} (running : runningNest s i = some (n, r, nest))
    (iters : r.iters = it :: rest) (failed : it.checkFailed = some fc) (first : it.replays = 0) :
    ∃ t n' r', exec (.iterationDiscard i) s = .next t ∧ t.inst? i = some n' ∧ n'.reg = some r' ∧ n'.ctl = n.ctl
      ∧ r'.iters = [] ∧ r'.nextVec = some it.vec ∧ r'.nextN = it.n ∧ agetD 0 it.n r'.replayed = 1 ∧ r'.phase = .running := by
  obtain ⟨inst, reg, -, -, phase⟩ := runningNest_some running
  obtain ⟨remarks, ksets, replayed, rolled⟩ := rollback_inst inst reg iters
  have discards : exec (.iterationDiscard i) s = .next (((rollback s i).countCore n.cluster 0x041 1).modReg i fun r =>
      { r with replayed := aset it.n 1 r.replayed }) := by
    change execIterationDiscard i s = _
    simp only [execIterationDiscard, running, iters, List.head?_cons, failed, if_pos first]
  have counted := ((KeepsAskers.countCore (rollback s i) n.cluster 0x041 1).inst i).trans rolled
  refine ⟨_, _, _, discards, inst_modReg counted rfl _, rfl, rfl, rfl, rfl, rfl, ?_, phase⟩
  rw [agetD, aget_aset_self, Option.getD_some]

/-- A replay that fails again raises DATA_ERR at the FE whose check failed. -/
theorem exec_iterationDiscard_again {it : Iter} {rest : List Iter} {fc : Nat × Nat} (running : runningNest s i = some (n, r, nest))
    (iters : r.iters = it :: rest) (failed : it.checkFailed = some fc) (again : it.replays ≠ 0) :
    exec (.iterationDiscard i) s = .next (regionFault s i 0x20 0 (feArg s i fc.1 fc.2) (some it.n) false) := by
  change execIterationDiscard i s = _
  simp only [execIterationDiscard, running, iters, List.head?_cons, failed, if_neg again]
  rfl

theorem life_of_fabricLive (live : n.fabricLive = true) : n.life = .running ∨ n.life = .stopping := by
  simp only [Inst.fabricLive, Bool.or_eq_true, Bool.and_eq_true, beq_iff_eq] at live
  exact live.imp_right And.left

/-- An asynchronous fault of a context whose region works joins its queue, while that has room. -/
theorem postAsync_working (inst : s.inst? i = some n) (reg : n.reg = some r) (live : n.fabricLive = true)
    (phase : r.phase = .running) (t : TrapInfo) : ∃ async, (postAsync s i t).inst? i = some { n with ctl := { n.ctl with async } }
      ∧ (n.ctl.async.length < 16 → async = n.ctl.async ++ [t]) := by
  have busy : n.completed = false := by simp [Inst.completed, regionIdle, reg, phase]
  have queues : postAsync s i t = if n.ctl.async.length < asyncCap then s.modCtl i fun c => { c with async := c.async ++ [t] }
      else s.logInst n 0xFD t.addr.toNat t.code := by
    rcases life_of_fabricLive live with life | life <;> simp only [postAsync, inst, busy, life] <;> rfl
  rw [queues]
  split
  · refine ⟨_, ?_, fun _ => rfl⟩
    rw [State.inst_modCtl_self, inst]
    rfl
  · rename_i full
    refine ⟨n.ctl.async, ?_, fun room => absurd room full⟩
    rw [State.logInst, State.inst?, logFault_insts]
    exact inst

/-- A region with iterations in flight that stops is idle, and its control context stands as before (R386). -/
theorem stopRegion_inst {it : Iter} {rest : List Iter} (inst : s.inst? i = some n) (reg : n.reg = some r)
    (iters : r.iters = it :: rest) :
    ∃ r', (stopRegion s i).inst? i = some { n with reg := some r' } ∧ r'.phase = .idle ∧ r'.iters = [] := by
  obtain ⟨remarks, ksets, replayed, rolled⟩ := rollback_inst inst reg iters
  obtain ⟨-, leave, returned⟩ := returnLeave_leaves rolled rfl
  rw [stopRegion, inst_modReg returned rfl]
  exact ⟨_, rfl, rfl, rfl⟩

/-- A fault that does not hold its region and is no DATA_ERR goes to the control context, and the region stops (R386). -/
theorem regionFault_stops {code : Nat} (inst : s.inst? i = some n) (reg : n.reg = some r) (other : code ≠ codeDataErr)
    (addr arg : Word) (it : Option Nat) : regionFault s i code addr arg it false
      = stopRegion (postAsync s i ⟨code, 0, 0xC0, addr, some arg, some (regionVec r it), 0⟩) i := by
  simp only [regionFault, inst, reg, if_neg other]
  rfl

/-- An iteration in flight for ITERBOUND stops its region with ITER_OVERRUN (R180). -/
theorem iterOverrun_stops {it : Iter} (running : runningNest s i = some (n, r, nest))
    (overran : r.iters.find? (fun it => it.since != 0
      && iterBound nest ≤ (s.cycle + 1 - it.since - it.excluded) / 2) = some it) :
    ∃ t n' r', exec (.iterOverrun i) s = .next t ∧ t.inst? i = some n' ∧ n'.reg = some r' ∧ r'.phase = .idle ∧ r'.iters = []
      ∧ (n.ctl.async.length < 16 →
        n'.ctl.async = n.ctl.async ++ [⟨0x1B, 0, 0xC0, 0, some 0, some (regionVec r (some it.n)), 0⟩]) := by
  obtain ⟨inst, reg, -, live, phase⟩ := runningNest_some running
  have stops : exec (.iterOverrun i) s = .next (stopRegion (postAsync s i
      ⟨0x1B, 0, 0xC0, 0, some 0, some (regionVec r (some it.n)), 0⟩) i) := by
    change execIterOverrun i s = _
    simp only [execIterOverrun, running, overran, regionFault_stops inst reg (code := codeIterOverrun) (by decide)]
    rfl
  obtain ⟨first, rest, iters⟩ : ∃ first rest, r.iters = first :: rest :=
    List.exists_cons_of_ne_nil fun none => by rw [none] at overran; cases overran
  obtain ⟨async, posted, queued⟩ := postAsync_working inst reg live phase
    ⟨0x1B, 0, 0xC0, 0, some 0, some (regionVec r (some it.n)), 0⟩
  obtain ⟨r', stopped, idle, discarded⟩ := stopRegion_inst posted reg iters
  exact ⟨_, _, r', stops, stopped, rfl, idle, discarded, queued⟩

end Ends

/-! ## O51 -/

/-- Settles O51: each clause is the step of one event of a region, given by that event's lemmas above. -/
theorem regionSteps : Obligations.RegionSteps := by
  unfold Obligations.RegionSteps
  refine ⟨?fill, ?multicast, fun s i n r nest running => ?_⟩
  case fill =>
    intro s u i fe n r nest f slot ring inst life _ reg isNest col row waits good free new load
    exact exec_configFill_loads inst life reg isNest col row waits good free new load
  case multicast =>
    intro s sel slot image free len good
    refine ⟨_, exec_configMulticast_loads free len good, ?mem, ?insts,
      fun col row hc hr => ⟨fun selected => ?_, fun other => ?_⟩⟩
    case mem => exact foldl_modFe_mem _ _ (selectedCells sel) s
    case insts => exact (KeepsAskers.foldl (fun s _ => KeepsAskers.modFe s _ _) (selectedCells sel) s).insts
    · exact loadCells_fe_listed s _ _ ⟨(col, row), mem_selectedCells.mpr ⟨⟨hc, hr⟩, selected⟩, rfl⟩
    · refine loadCells_fe_outside s _ _ fun c listed same => ?_
      obtain ⟨⟨hc', -⟩, selected⟩ := mem_selectedCells.mp listed
      obtain ⟨rfl, rfl⟩ := feIndex_inj hc' hc same
      exact absurd selected (by rw [other]; decide)
  obtain ⟨inst, reg, isNest, -, phase⟩ := runningNest_some running
  refine ⟨fun v next life few formed room => exec_iterationStart_enters running next life few formed room,
    ?marker, ?source, fun b w it bound clear kind lacks ready => exec_regionSourceAccess_fence running bound clear kind lacks ready,
    ?sink, ?commit, ?discard, fun it overran => iterOverrun_stops running overran⟩
  case marker =>
    intro fe inp x m rest place head marker room flaws noLate
    have queue : (s.fe x).input inp = m :: rest := by cases inp <;> exact head
    obtain ⟨mem, after⟩ := markerTaken_leaves (i := i) (inp := inp) (rest := rest) flaws (rectFe_of_feOf inst reg place) noLate
    refine ⟨_, exec_markerPass_goesOn running place queue marker room, mem, after.trans ?_⟩
    cases inp <;> rfl
  case source =>
    intro b w it bound clear source kind attached lacks placed
    have forms := exec_regionSourceAccess_source running bound clear source kind attached lacks placed
    refine ⟨forms, fun port isPort att => ?_⟩
    have thePort := portOf_attached att
    rw [forms]
    refine ⟨fun a u ps noChan at_ _ bytes others same translated => ?_,
      fun key c t rest chan free query head untaken whole flaws poison => ?_⟩
    · rw [formBeat_memory isPort (thePort ▸ noChan) (beatAddr_attached att at_),
        memSource_translated rfl (thePort ▸ translated),
        enterRead_waits ((congrArg (aget i) same).trans inst) reg others rfl rfl (by simp [RRead.complete, newRead]; omega)]
      rfl
    · obtain ⟨u, taken, mem, chans⟩ := chanSource_takes (s := { s with fresh := s.fresh + 1 }) (b := b) (w := w)
        (x := newRead s nest b w it (it.at b)) query head untaken whole flaws poison
      obtain ⟨mem', chans'⟩ := enterRead_keeps u i b w
        { newRead s nest b w it (it.at b) with got := (t.data ++ zeros (Descr.nbytes w)).take (Descr.nbytes w) }
      rw [formBeat_channel isPort (thePort ▸ chan) free, att, Option.getD_some, thePort, taken]
      exact ⟨_, rfl, mem'.trans mem, (congrArg (aget key) chans').trans chans⟩
  case sink =>
    intro b w port beat rest head bound attached unparked
    have takes := exec_regionSinkWrite_head running bound attached unparked head
    have thePort := portOf_attached attached
    rw [takes]
    refine ⟨fun marker => ?_, fun it a data found inPass mem at_ => ?_, fun it data found inPass chan => ?_,
      fun it data found inPass => ⟨fun a u ps mem at_ translated => ?_, fun key c chan query opened => ?_⟩⟩
    · obtain ⟨mem, after⟩ := sinkBeat_marker (nest := nest) (w := w) (b := b) (port := port) inst reg marker head
      exact ⟨_, _, rfl, mem, after, rfl⟩
    · rw [sinkBeat_memory data found inPass (thePort ▸ mem) (beatAddr_attached attached at_)]
    · rw [sinkBeat_channel data found inPass (thePort ▸ chan)]
    · rw [sinkBeat_memory data found inPass (thePort ▸ mem) (beatAddr_attached attached at_),
        memSink_translated rfl (thePort ▸ translated)]
      rfl
    · rw [sinkBeat_channel data found inPass (thePort ▸ chan), chanSink_held (thePort ▸ query) opened, thePort]
      rfl
  case commit =>
    intro it rest iters good done empty taken closes
    have decided := exec_iterationCommit_decided running iters good done empty taken closes
    refine ⟨fun room noStep => ?_, fun k ks full => ?_⟩
    · rw [if_pos room] at decided
      obtain ⟨n', r', inst', reg', ctl, left⟩ := commitIter_leaves inst reg isNest phase iters noStep
      exact ⟨_, n', r', decided, inst', reg', ctl, left⟩
    · rwa [full, if_neg (List.cons_ne_nil k ks)] at decided
  case discard =>
    exact fun it rest fc iters failed => ⟨iterationDiscard_replays running iters failed,
      exec_iterationDiscard_again running iters failed⟩

end Sys2Proof.Machine
end

section
/-! PROOFS. A slot word and its instruction determine each other (R211 to R218): the codes of the fields, the words of the
four formats, and the rows of the opcode map. -/

namespace Sys2Proof

open Sys2Proof.Bits Sys2Proof.Rows

/-! ## Codes of the fields (R10, R26, R87, R201, R203, R213, R214) -/

theorem widthOf_eq_some {n : Nat} {x : Width} : widthOf n = some x ↔ n = widthCode x := by
  unfold widthOf
  split <;> cases x <;> simp_all [widthCode]

theorem predOfNat_eq_some {n : Nat} {x : Pred} : predOfNat n = some x ↔ n = predCode x := by
  unfold predOfNat
  split <;> cases x <;> simp_all [predCode]

theorem spaceOf_eq_some {n : Nat} {x : Space} : spaceOf n = some x ↔ n = spaceCode x := by
  unfold spaceOf
  split <;> cases x <;> simp_all [spaceCode]

theorem sizeOf?_eq_some {n : Nat} {x : Size} : sizeOf? n = some x ↔ n = sizeCode x := by
  unfold sizeOf?
  split <;> cases x <;> simp_all [sizeCode]

theorem ordOf_eq_some {n : Nat} {x : MemOrd} : ordOf n = some x ↔ n = ordCode x := by
  unfold ordOf
  split <;> cases x <;> simp_all [ordCode]

theorem scopeOf_eq_some {n : Nat} {x : Scope} : scopeOf n = some x ↔ n = scopeCode x := by
  unfold scopeOf
  split <;> cases x <;> simp_all [scopeCode]

theorem bits_eq_mod (w hi lo : Nat) : bits w hi lo = w / 2 ^ lo % 2 ^ (hi + 1 - lo) := by
  rw [bits, Nat.shiftRight_eq_div_pow]

/-- One bit read as a Boolean. -/
theorem bits_beq_one {w k : Nat} {b : Bool} : (bits w k k == 1) = b ↔ bits w k k = bitCode b := by
  have small : bits w k k < 2 := by
    rw [bits_eq_mod, Nat.add_sub_cancel_left]
    exact Nat.mod_lt _ (by decide)
  cases b with
  | false => simp only [beq_eq_false_iff_ne, bitCode, Bool.false_eq_true, if_false]; omega
  | true => simp only [beq_iff_eq, bitCode, if_true]

/-- An immediate field. -/
theorem ofNat_bits {w hi lo n : Nat} {v : BitVec n} (hn : hi + 1 - lo = n) :
    BitVec.ofNat n (bits w hi lo) = v ↔ bits w hi lo = v.toNat := by
  rw [← BitVec.toNat_inj, BitVec.toNat_ofNat, bits_eq_mod, hn, Nat.mod_mod]

theorem targetCode_lt (t : Target) : targetCode t < 512 := by
  cases t with
  | none => decide
  | opnd k o => have := k.isLt; cases o <;> simp only [targetCode] <;> omega
  | write k => have := k.isLt; simp only [targetCode]; omega

/-- A target of 9 bits that are not all ones, by its operand. -/
theorem targetOf_cases {n : Nat} (h : n < 511) : (n % 4 = 0 ∧ targetOf n = .opnd (BitVec.ofNat 7 (n / 4)) .L)
    ∨ (n % 4 = 1 ∧ targetOf n = .opnd (BitVec.ofNat 7 (n / 4)) .R)
    ∨ (n % 4 = 2 ∧ targetOf n = .opnd (BitVec.ofNat 7 (n / 4)) .P)
    ∨ (n % 4 = 3 ∧ targetOf n = .write (BitVec.ofNat 7 (n / 4))) := by
  have operand : n % 4 = 0 ∨ n % 4 = 1 ∨ n % 4 = 2 ∨ n % 4 = 3 := by omega
  have present : (n % 512 == 511) = false := by rw [beq_eq_false_iff_ne]; omega
  unfold targetOf
  rw [present]
  rcases operand with e | e | e | e <;> simp [e]

theorem targetCode_targetOf {n : Nat} (h : n < 512) : targetCode (targetOf n) = n := by
  rcases (show n = 511 ∨ n < 511 by omega) with rfl | h
  · rfl
  rcases targetOf_cases h with ⟨e, t⟩ | ⟨e, t⟩ | ⟨e, t⟩ | ⟨e, t⟩ <;>
    (rw [t]; simp only [targetCode, BitVec.toNat_ofNat]; omega)

theorem targetFits_targetOf {n : Nat} (h : n < 512) : targetFits (targetOf n) = true := by
  rcases (show n = 511 ∨ n < 511 by omega) with rfl | h
  · rfl
  rcases targetOf_cases h with ⟨e, t⟩ | ⟨e, t⟩ | ⟨e, t⟩ | ⟨e, t⟩ <;> rw [t]
  case inr.inr.inr =>
    have entry : BitVec.ofNat 7 (n / 4) ≠ 127#7 := fun same => by
      have index := congrArg BitVec.toNat same
      simp only [BitVec.toNat_ofNat] at index
      omega
    simpa [targetFits] using entry
  all_goals rfl

theorem targetOf_targetCode {t : Target} (fits : targetFits t = true) : targetOf (targetCode t) = t := by
  have index (k : BitVec 7) (r : Nat) (hr : r < 4) : BitVec.ofNat 7 ((k.toNat * 4 + r) / 4) = k := by
    rw [show (k.toNat * 4 + r) / 4 = k.toNat by omega, BitVec.ofNat_toNat, BitVec.setWidth_eq]
  have present (k : BitVec 7) (r : Nat) (hr : r < 3) : k.toNat * 4 + r < 511 := by have := k.isLt; omega
  cases t with
  | none => rfl
  | opnd k o =>
    cases o <;> simp only [targetCode]
    · have := targetOf_cases (present k 0 (by decide)); simp_all
    · have := targetOf_cases (present k 1 (by decide)); simp_all
    · have := targetOf_cases (present k 2 (by decide)); simp_all
  | write k =>
    have small := k.isLt
    have entry : k.toNat ≠ 127 := fun same => by simp [targetFits, ← BitVec.toNat_inj, same] at fits
    simp only [targetCode]
    have := targetOf_cases (n := k.toNat * 4 + 3) (by omega); simp_all

/-- The 9 bits of a target and the target that they hold. -/
theorem targetOf_bits {w hi lo : Nat} {t : Target} (hn : hi + 1 - lo = 9) :
    targetOf (bits w hi lo) = t ↔ targetFits t = true ∧ bits w hi lo = targetCode t := by
  have small : bits w hi lo < 512 := by
    rw [bits_eq_mod, hn]
    exact Nat.mod_lt _ (by decide)
  constructor
  · rintro rfl
    exact ⟨targetFits_targetOf small, (targetCode_targetOf small).symm⟩
  · rintro ⟨fits, code⟩
    rw [code, targetOf_targetCode fits]

/-! ## The words of the formats (R212 to R217) -/

theorem widthCode_lt (x : Width) : widthCode x < 8 := by cases x <;> decide
theorem predCode_lt (x : Pred) : predCode x < 4 := by cases x <;> decide
theorem spaceCode_lt (x : Space) : spaceCode x < 4 := by cases x <;> decide
theorem sizeCode_lt (x : Size) : sizeCode x < 8 := by cases x <;> decide
theorem ordCode_lt (x : MemOrd) : ordCode x < 8 := by cases x <;> decide
theorem scopeCode_lt (x : Scope) : scopeCode x < 8 := by cases x <;> decide
theorem bitCode_lt (b : Bool) : bitCode b < 2 := by cases b <;> decide

/-- Format G: the fields a word holds are those of its own word. -/
theorem decodeG_eq_some {w : Nat} {f : GOp} : decodeG w = some f ↔
    (targetFits f.t1 = true ∧ targetFits f.t2 = true) ∧ encodeFields (w / 2 ^ 56) (.g f) = w := by
  obtain ⟨i, wd, pr, t1, t2, imm⟩ := f
  have fields : decodeG w = some ⟨i, wd, pr, t1, t2, imm⟩ ↔
      bits w 52 50 = widthCode wd ∧ bits w 49 48 = predCode pr ∧ (bits w 54 53 = 0 ∧ bits w 29 24 = 0)
      ∧ bits w 55 55 = bitCode i ∧ (targetFits t1 = true ∧ bits w 47 39 = targetCode t1)
      ∧ (targetFits t2 = true ∧ bits w 38 30 = targetCode t2) ∧ bits w 23 0 = imm.toNat := by
    rw [← widthOf_eq_some, ← predOfNat_eq_some, ← bits_beq_one, ← targetOf_bits rfl, ← targetOf_bits rfl,
      ← ofNat_bits rfl]
    unfold decodeG
    split <;> aesop
  rw [fields]
  have := widthCode_lt wd; have := predCode_lt pr; have := bitCode_lt i
  have := targetCode_lt t1; have := targetCode_lt t2; have := imm.isLt
  simp only [bits_eq_mod, encodeFields]
  generalize widthCode wd = a at *; generalize predCode pr = b at *; generalize bitCode i = c at *
  generalize targetCode t1 = d at *; generalize targetCode t2 = e at *; generalize imm.toNat = g at *
  constructor
  · rintro ⟨h1, h2, ⟨h3, h4⟩, h5, ⟨f1, h6⟩, ⟨f2, h7⟩, h8⟩
    refine ⟨⟨f1, f2⟩, ?_⟩
    omega
  · rintro ⟨⟨f1, f2⟩, h⟩
    refine ⟨?_, ?_, ⟨?_, ?_⟩, ?_, ⟨f1, ?_⟩, ⟨f2, ?_⟩, ?_⟩ <;> omega

/-- Formats M and A. -/
theorem decodeM_eq_some {w : Nat} {f : MOp} : decodeM w = some f ↔
    targetFits f.t1 = true ∧ encodeFields (w / 2 ^ 56) (.m f) = w := by
  obtain ⟨sz, sg, as, lsid, pr, ord, scope, t1, off⟩ := f
  have fields : decodeM w = some ⟨sz, sg, as, lsid, pr, ord, scope, t1, off⟩ ↔
      bits w 55 53 = sizeCode sz ∧ bits w 51 50 = spaceCode as ∧ bits w 44 43 = predCode pr
      ∧ bits w 42 40 = ordCode ord ∧ bits w 39 37 = scopeCode scope ∧ bits w 27 24 = 0
      ∧ bits w 52 52 = bitCode sg ∧ bits w 49 45 = lsid.toNat
      ∧ (targetFits t1 = true ∧ bits w 36 28 = targetCode t1) ∧ bits w 23 0 = off.toNat := by
    rw [← sizeOf?_eq_some, ← spaceOf_eq_some, ← predOfNat_eq_some, ← ordOf_eq_some, ← scopeOf_eq_some, ← bits_beq_one,
      ← targetOf_bits rfl, ← ofNat_bits rfl, ← ofNat_bits rfl]
    unfold decodeM
    split <;> aesop
  rw [fields]
  have := sizeCode_lt sz; have := bitCode_lt sg; have := spaceCode_lt as; have := lsid.isLt; have := predCode_lt pr
  have := ordCode_lt ord; have := scopeCode_lt scope; have := targetCode_lt t1; have := off.isLt
  simp only [bits_eq_mod, encodeFields]
  generalize sizeCode sz = a at *; generalize bitCode sg = b at *; generalize spaceCode as = c at *
  generalize lsid.toNat = d at *; generalize predCode pr = e at *; generalize ordCode ord = g at *
  generalize scopeCode scope = h at *; generalize targetCode t1 = k at *; generalize off.toNat = l at *
  constructor
  · rintro ⟨h1, h2, h3, h4, h5, h6, h7, h8, ⟨fits, h9⟩, h10⟩
    exact ⟨fits, by omega⟩
  · rintro ⟨fits, word⟩
    refine ⟨?_, ?_, ?_, ?_, ?_, ?_, ?_, ?_, ⟨fits, ?_⟩, ?_⟩ <;> omega

/-- Format B. -/
theorem decodeB_eq_some {w : Nat} {f : BOp} : decodeB w = some f ↔
    targetFits f.t1 = true ∧ encodeFields (w / 2 ^ 56) (.b f) = w := by
  obtain ⟨pr, t1, off⟩ := f
  have fields : decodeB w = some ⟨pr, t1, off⟩ ↔
      bits w 49 48 = predCode pr ∧ (bits w 55 50 = 0 ∧ bits w 38 24 = 0)
      ∧ (targetFits t1 = true ∧ bits w 47 39 = targetCode t1) ∧ bits w 23 0 = off.toNat := by
    rw [← predOfNat_eq_some, ← targetOf_bits rfl, ← ofNat_bits rfl]
    unfold decodeB
    split <;> aesop
  rw [fields]
  have := predCode_lt pr; have := targetCode_lt t1; have := off.isLt
  simp only [bits_eq_mod, encodeFields]
  generalize predCode pr = a at *; generalize targetCode t1 = b at *; generalize off.toNat = c at *
  constructor
  · rintro ⟨h1, ⟨h2, h3⟩, ⟨fits, h4⟩, h5⟩
    exact ⟨fits, by omega⟩
  · rintro ⟨fits, word⟩
    refine ⟨?_, ⟨?_, ?_⟩, ⟨fits, ?_⟩, ?_⟩ <;> omega

/-- Formats E and F. -/
theorem decodeE_eq_some {w : Nat} {f : EOp} : decodeE w = some f ↔
    (targetFits f.t1 = true ∧ targetFits f.t2 = true) ∧ encodeFields (w / 2 ^ 56) (.e f) = w := by
  obtain ⟨as, ch, scope, pr, t1, t2, sel, imm⟩ := f
  have fields : decodeE w = some ⟨as, ch, scope, pr, t1, t2, sel, imm⟩ ↔
      bits w 55 54 = spaceCode as ∧ bits w 52 50 = scopeCode scope ∧ bits w 49 48 = predCode pr
      ∧ bits w 53 53 = bitCode ch ∧ (targetFits t1 = true ∧ bits w 47 39 = targetCode t1)
      ∧ (targetFits t2 = true ∧ bits w 38 30 = targetCode t2) ∧ bits w 29 24 = sel.toNat ∧ bits w 23 0 = imm.toNat := by
    rw [← spaceOf_eq_some, ← scopeOf_eq_some, ← predOfNat_eq_some, ← bits_beq_one, ← targetOf_bits rfl,
      ← targetOf_bits rfl, ← ofNat_bits rfl, ← ofNat_bits rfl]
    unfold decodeE
    split <;> aesop
  rw [fields]
  have := spaceCode_lt as; have := bitCode_lt ch; have := scopeCode_lt scope; have := predCode_lt pr
  have := targetCode_lt t1; have := targetCode_lt t2; have := sel.isLt; have := imm.isLt
  simp only [bits_eq_mod, encodeFields]
  generalize spaceCode as = a at *; generalize bitCode ch = b at *; generalize scopeCode scope = c at *
  generalize predCode pr = d at *; generalize targetCode t1 = e at *; generalize targetCode t2 = g at *
  generalize sel.toNat = h at *; generalize imm.toNat = k at *
  constructor
  · rintro ⟨h1, h2, h3, h4, ⟨f1, h5⟩, ⟨f2, h6⟩, h7, h8⟩
    exact ⟨⟨f1, f2⟩, by omega⟩
  · rintro ⟨⟨f1, f2⟩, word⟩
    refine ⟨?_, ?_, ?_, ?_, ⟨f1, ?_⟩, ⟨f2, ?_⟩, ?_, ?_⟩ <;> omega

/-! ## The rows of the opcode map (R218) -/

/-- The instruction that a row's constructor makes of fields of its format. -/
inductive Builds : Ctor → Fields → Instr → Prop
  | g (c : GOp → Instr) (f : GOp) : Builds (.g c) (.g f) (c f)
  | m (c : MOp → Instr) (f : MOp) : Builds (.m c) (.m f) (c f)
  | b (c : BOp → Instr) (f : BOp) : Builds (.b c) (.b f) (c f)
  | e (c : EOp → Instr) (f : EOp) : Builds (.e c) (.e f) (c f)

/-- Every target of the fields is one that 9 bits hold. -/
def fieldsFit : Fields → Prop
  | .g f => targetFits f.t1 = true ∧ targetFits f.t2 = true
  | .m f => targetFits f.t1 = true
  | .b f => targetFits f.t1 = true
  | .e f => targetFits f.t1 = true ∧ targetFits f.t2 = true

theorem fieldsFit_of_legal {row : Row} {f : Fields} (h : legal row f = true) : fieldsFit f := by
  cases f <;> simp only [legal, Bool.and_eq_true] at h <;> simp only [fieldsFit, h, and_self]

/-- A word read by a row's format gives fields exactly when it is the word of those fields. -/
theorem decodeRow_eq_some {row : Row} {w : Nat} {i : Instr} {f : Fields} : decodeRow row w = some (i, f) ↔
    Builds row.ctor f i ∧ fieldsFit f ∧ encodeFields (w / 2 ^ 56) f = w := by
  unfold decodeRow
  constructor
  · intro h
    split at h <;> rename_i c ctor <;> rw [ctor] <;> obtain ⟨x, fields, made⟩ := Option.map_eq_some_iff.mp h <;> cases made
    · exact ⟨.g c x, decodeG_eq_some.mp fields⟩
    · exact ⟨.m c x, decodeM_eq_some.mp fields⟩
    · exact ⟨.b c x, decodeB_eq_some.mp fields⟩
    · exact ⟨.e c x, decodeE_eq_some.mp fields⟩
  · rintro ⟨made, fields⟩
    generalize row.ctor = ctor at made
    cases made with
    | g c x => simp only [decodeG_eq_some.mpr fields, Option.map_some]
    | m c x => simp only [decodeM_eq_some.mpr fields, Option.map_some]
    | b c x => simp only [decodeB_eq_some.mpr fields, Option.map_some]
    | e c x => simp only [decodeE_eq_some.mpr fields, Option.map_some]

/-- A row stands for the opcode that its instructions have. -/
theorem slotFields_of_mem_rows : ∀ row ∈ rows, ∀ f i, Builds row.ctor f i → i.slotFields = some (row.opc, f) := by
  simp only [rows, rowsG1, rowsG2, rowsM, rowsE1, rowsE2, List.forall_mem_append, List.forall_mem_cons,
    List.not_mem_nil, false_imp_iff, implies_true, and_true]
  repeat' apply And.intro
  all_goals
    rintro _ _ ⟨⟩
    rfl

theorem opc_of_rowOf {opc : Nat} {row : Row} (listed : rowOf opc = some row) : row.opc = opc := by
  have found := List.find?_some listed
  exact beq_iff_eq.mp found

theorem slotFields_of_rowOf {opc : Nat} {row : Row} {f : Fields} {i : Instr} (listed : rowOf opc = some row)
    (made : Builds row.ctor f i) : i.slotFields = some (opc, f) := by
  rw [← opc_of_rowOf listed]
  exact slotFields_of_mem_rows row (List.mem_of_find?_eq_some listed) f i made

/-- An instruction with a slot word has a row, whose constructor makes it of its fields. -/
theorem rowOf_of_slotFields {i : Instr} {opc : Nat} {f : Fields} (h : i.slotFields = some (opc, f)) :
    ∃ row, rowOf opc = some row ∧ Builds row.ctor f i := by
  cases i <;> cases h
  all_goals exact ⟨_, rfl, by constructor⟩

/-- No row has the opcode of BRK. -/
theorem rowOf_break : rowOf 0xA6 = none := rfl

/-! ## Decoding and encoding (R211) -/

theorem bits_opcode (w : Word) : bits w.toNat 63 56 = w.toNat / 2 ^ 56 := by
  rw [bits_eq_mod]
  exact Nat.mod_eq_of_lt (by have := w.isLt; omega)

theorem decodeFull_eq_ok {w : Word} {row : Row} {f : Fields} {i : Instr} : decodeFull w = .ok (row, f, i) ↔
    rowOf (w.toNat / 2 ^ 56) = some row ∧ Builds row.ctor f i ∧ encodeFields (w.toNat / 2 ^ 56) f = w.toNat
      ∧ legal row f = true := by
  unfold decodeFull
  dsimp only
  rw [bits_opcode]
  constructor
  · intro h
    split at h
    · cases h
    · split at h
      · cases h
      · rename_i r listed
        split at h
        · cases h
        · rename_i j g read
          split at h
          · rename_i good
            cases h
            obtain ⟨made, -, word⟩ := decodeRow_eq_some.mp read
            exact ⟨listed, made, word, good⟩
          · cases h
  · rintro ⟨listed, made, word, good⟩
    have notBreak : w.toNat / 2 ^ 56 ≠ 0xA6 := fun brk => by rw [brk, rowOf_break] at listed; cases listed
    have read := decodeRow_eq_some.mpr ⟨made, fieldsFit_of_legal good, word⟩
    simp only [if_neg notBreak, listed, read, good, if_true]

theorem decodeSlot_eq_ok {w : Word} {i : Instr} : decodeSlot w = .ok i ↔
    ∃ row f, decodeFull w = .ok (row, f, i) := by
  unfold decodeSlot
  split <;> simp_all

/-- The bits below the opcode hold the fields. -/
theorem encodeFields_div (opc : Nat) (f : Fields) : encodeFields opc f / 2 ^ 56 = opc := by
  cases f with
  | g f =>
    have := bitCode_lt f.i; have := widthCode_lt f.w; have := predCode_lt f.pr
    have := targetCode_lt f.t1; have := targetCode_lt f.t2; have := f.imm.isLt
    simp only [encodeFields]; omega
  | m f =>
    have := sizeCode_lt f.sz; have := bitCode_lt f.sg; have := spaceCode_lt f.as; have := f.lsid.isLt
    have := predCode_lt f.pr; have := ordCode_lt f.ord; have := scopeCode_lt f.scope
    have := targetCode_lt f.t1; have := f.off.isLt
    simp only [encodeFields]; omega
  | b f =>
    have := predCode_lt f.pr; have := targetCode_lt f.t1; have := f.off.isLt
    simp only [encodeFields]; omega
  | e f =>
    have := spaceCode_lt f.as; have := bitCode_lt f.ch; have := scopeCode_lt f.scope; have := predCode_lt f.pr
    have := targetCode_lt f.t1; have := targetCode_lt f.t2; have := f.sel.isLt; have := f.imm.isLt
    simp only [encodeFields]; omega

/-- BRK is refused before its fields are read (R245). -/
theorem decodeSlot_break {w : Word} (h : w.toNat / 2 ^ 56 = 0xA6) : decodeSlot w = .error .brk := by
  simp only [decodeSlot, decodeFull, bits_opcode, h, if_true]

/-- An opcode without a row is refused (R218). -/
theorem decodeSlot_unlisted {w : Word} (notBreak : w.toNat / 2 ^ 56 ≠ 0xA6) (h : rowOf (w.toNat / 2 ^ 56) = none) :
    decodeSlot w = .error .unlisted := by
  simp only [decodeSlot, decodeFull, bits_opcode, if_neg notBreak, h]

theorem opc_lt_of_rowOf {opc : Nat} {row : Row} (listed : rowOf opc = some row) : opc < 256 := by
  have bound : ∀ opc ∈ rows.map Row.opc, opc < 256 := by decide
  rw [← opc_of_rowOf listed]
  exact bound _ (List.mem_map_of_mem (List.mem_of_find?_eq_some listed))

theorem wf_iff {i : Instr} {opc : Nat} {f : Fields} {row : Row} (h : i.slotFields = some (opc, f))
    (listed : rowOf opc = some row) : i.wf = legal row f := by
  simp only [Instr.wf, h, listed]

/-- Settles O2: by the words of the four formats and the rows of the opcode map. -/
theorem decodeAndEncodeAgree : Obligations.DecodeAndEncodeAgree := by
  unfold Obligations.DecodeAndEncodeAgree
  intro i w
  rw [decodeSlot_eq_ok]
  constructor
  · rintro ⟨row, f, decoded⟩
    obtain ⟨listed, made, word, good⟩ := decodeFull_eq_ok.mp decoded
    have fields := slotFields_of_rowOf listed made
    refine ⟨(wf_iff fields listed).trans good, ?_⟩
    simp only [encode, fields, word, BitVec.ofNat_toNat, BitVec.setWidth_eq]
  · rintro ⟨good, word⟩
    unfold encode at word
    split at word
    next opc f fields =>
      obtain ⟨row, listed, made⟩ := rowOf_of_slotFields fields
      have fits : encodeFields opc f < 2 ^ 64 := by
        have := encodeFields_div opc f; have := opc_lt_of_rowOf listed; omega
      have number : w.toNat = encodeFields opc f := by
        rw [← Option.some.inj word, BitVec.toNat_ofNat, Nat.mod_eq_of_lt fits]
      have opcode : w.toNat / 2 ^ 56 = opc := by rw [number, encodeFields_div]
      exact ⟨row, f, decodeFull_eq_ok.mpr ⟨by rw [opcode, listed], made, by rw [opcode, number],
        (wf_iff fields listed).symm.trans good⟩⟩
    next => cases word

/-- Settles O3: BRK is refused before the map is read, and the map has no row for the other opcodes listed. -/
theorem breakAndUnlistedRefused : Obligations.BreakAndUnlistedRefused := by
  unfold Obligations.BreakAndUnlistedRefused
  refine fun w => ⟨decodeSlot_break, fun listed => ?_⟩
  obtain ⟨none, notBreak⟩ : (rowOf (w.toNat / 2 ^ 56)).isNone = true ∧ w.toNat / 2 ^ 56 ≠ 0xA6 := by
    generalize w.toNat / 2 ^ 56 = opc at listed ⊢
    revert opc
    decide +kernel
  exact decodeSlot_unlisted notBreak (Option.isNone_iff_eq_none.mp none)

/-- Settles O1: each word evaluates. -/
theorem slotWordsDecode : Obligations.SlotWordsDecode := by
  unfold Obligations.SlotWordsDecode
  decide

end Sys2Proof

end

section
/-! PROOFS. The firing of a slot (R200 to R205): what an awaiting slot, a squashed and a nullified one do, what a delivery
reaches, and that a step runs the slot that its move names. -/

namespace Sys2Proof.Machine

open Sys2Proof.Bits Sys2Proof.Rows

/-! ## The fate of a waiting slot (R202 to R204) -/

/-- A slot that no predicate squashes waits for its operands. -/
theorem fate_wait {needs : List (Bool × Option Val)} {pr : Pred} {p : Option Val} (unsquashed : pr = .always ∨ p = none)
    (awaited : (true, none) ∈ needs) : fate needs pr p = .wait := by
  have lacks : needs.any (fun x => x.1 && x.2.isNone) = true := List.any_eq_true.mpr ⟨_, awaited, rfl⟩
  rcases unsquashed with rfl | rfl
  · simp [fate, lacks]
  · cases pr <;> simp [fate, lacks]

/-- A condition of the other value, or a null one, squashes. -/
theorem fate_squash {needs : List (Bool × Option Val)} {pr : Pred} {p : Option Val}
    (other : pr = .ifTrue ∧ (p = some (.val 0) ∨ p = some .null)
      ∨ pr = .ifFalse ∧ (p = some .null ∨ ∃ v, v ≠ 0 ∧ p = some (.val v))) : fate needs pr p = .squash := by
  rcases other with ⟨rfl, rfl | rfl⟩ | ⟨rfl, rfl | ⟨v, nonzero, rfl⟩⟩
  · rfl
  · rfl
  · rfl
  · have other : ¬ v = 0#64 := nonzero
    simp [fate, other]

/-- A null operand nullifies an unsquashed slot once its operands have all arrived. -/
theorem fate_nullify {needs : List (Bool × Option Val)} {pr : Pred} {p : Option Val}
    (fires : pr = .always ∨ pr = .ifTrue ∧ (∃ v, v ≠ 0 ∧ p = some (.val v)) ∨ pr = .ifFalse ∧ p = some (.val 0))
    (arrived : (true, none) ∉ needs) (null : (true, some .null) ∈ needs) : fate needs pr p = .nullify := by
  have has : needs.any (fun x => x.1 && x.2.isNone) = false := by
    rw [List.any_eq_false]
    rintro ⟨awaited, held⟩ mem both
    obtain ⟨rfl, empty⟩ := Bool.and_eq_true_iff.mp both
    exact arrived (Option.isNone_iff_eq_none.mp empty ▸ mem)
  have nulls : needs.any (fun x => x.1 && x.2 == some .null) = true := List.any_eq_true.mpr ⟨_, null, by decide⟩
  rcases fires with rfl | ⟨rfl, v, nonzero, rfl⟩ | ⟨rfl, rfl⟩
  · simp [fate, has, nulls]
  · have other : ¬ v = 0#64 := nonzero
    simp [fate, has, nulls, other]
  · simp [fate, has, nulls]

/-! ## Slots that do not fire (R202 to R204, R251) -/

/-- What the waiting slot of an instruction is. -/
theorem waitingSlot_some {x : Instr} {opc : Nat} {f : Fields} {s : State} {n : Inst} {b : Block} {r : SlotRec}
    {needs : List (Bool × Option Val)} (hx : x.slotFields = some (opc, f)) (h : waitingSlot x s = some (n, b, r, needs)) :
    ∃ row, rowOf opc = some row ∧ s.curSlot = some (n, b, r) ∧ needs = needsOf row f b.words s.cur.2 r := by
  unfold waitingSlot at h
  rw [hx] at h
  split at h
  next named cur =>
    cases named
    split at h
    next row listed =>
      split at h
      · cases h; exact ⟨row, listed, cur, rfl⟩
      · cases h
    next => cases h
  next => cases h

/-- An ST or atomic that has translated its address ahead waits for its other operands. -/
theorem fireMem_translated_waits {x : Instr} {opc align : Nat} {f : MOp} {s : State} {n : Inst} {b : Block} {r : SlotRec}
    {needs : List (Bool × Option Val)} {a : Inst → Access} (go early : Firing → State → List Piece → State)
    (hx : x.slotFields = some (opc, .m f)) (h : waitingSlot x s = some (n, b, r, needs)) (translated : r.st = .translated)
    (waits : fate needs f.pr r.p = .wait) : fireMem opc f s align a go early = .next s := by
  obtain ⟨row, listed, cur, rfl⟩ := waitingSlot_some hx h
  simp only [fireMem, cur, listed, translated, or_true, if_true, waits, true_or]
  split <;> rfl

/-- The opcodes that translate ahead are no exits (R206). -/
theorem isExit_of_translatesAhead {opc : Nat} {row : Row} (listed : rowOf opc = some row) (ahead : translatesAhead opc = true) :
    isExit row = false := by
  have range : opc = 0x61 ∨ 0x68 ≤ opc ∧ opc ≤ 0x71 := by simpa [translatesAhead] using ahead
  have below : ¬ 0xA0 ≤ opc ∧ opc ≠ 0xB4 := by omega
  simp [isExit, opc_of_rowOf listed, below]

/-- Settles O10: an awaited operand that is not there makes the slot wait, and the address that might translate meanwhile is
not there, has translated, or comes after the predicate. -/
theorem slotWaitsForItsOperands : Obligations.SlotWaitsForItsOperands := by
  unfold Obligations.SlotWaitsForItsOperands
  intro x opc f s n b r needs fields waiting unsquashed awaited noAddress
  have waits := fate_wait unsquashed awaited
  cases ahead : translatesAhead opc with
  | false =>
    obtain ⟨go, fires⟩ := exec_slot s fields ahead
    rw [fires, fireOp_wait go fields ahead waiting waits]
  | true =>
    obtain ⟨m, align, a, go, early, rfl, fires⟩ := exec_ahead s fields ahead
    obtain ⟨row, listed, -⟩ := waitingSlot_some fields waiting
    obtain ⟨stays, -, -⟩ := fireMem_unfired (align := align) (a := a) go early fields listed waiting
    rw [fires]
    rcases noAddress ahead with absent | translated | unpredicated
    · exact stays waits (.inl absent)
    · exact fireMem_translated_waits go early fields waiting translated waits
    · exact stays waits (.inr unpredicated)

/-- Settles O11: by the fate of the slot and what the firing of a slot, with or without its address translated ahead, does
of that fate. -/
theorem squashAndNull : Obligations.SquashAndNull := by
  unfold Obligations.SquashAndNull
  refine ⟨fun x opc f row s n b r needs fields listed waiting other => ?_,
    fun x opc f row s n b r needs fields listed _ waiting fires arrived null => ?_⟩
  · have squashed := fate_squash (needs := needs) other
    cases ahead : translatesAhead opc with
    | false =>
      obtain ⟨go, op⟩ := exec_slot s fields ahead
      exact op.trans (fireOp_squash go fields ahead listed waiting squashed)
    | true =>
      obtain ⟨m, align, a, go, early, rfl, op⟩ := exec_ahead s fields ahead
      obtain ⟨-, marked, -⟩ := fireMem_unfired (align := align) (a := a) go early fields listed waiting
      rw [op, marked squashed, isExit_of_translatesAhead listed ahead]
      rfl
  · have nullified := fate_nullify fires arrived null
    cases ahead : translatesAhead opc with
    | false =>
      obtain ⟨go, op⟩ := exec_slot s fields ahead
      exact op.trans (fireOp_nullify go fields ahead listed waiting nullified)
    | true =>
      obtain ⟨m, align, a, go, early, rfl, op⟩ := exec_ahead s fields ahead
      obtain ⟨-, -, marked⟩ := fireMem_unfired (align := align) (a := a) go early fields listed waiting
      rw [op, marked nullified, isExit_of_translatesAhead listed ahead]
      rfl

/-! ## Delivery (R201, R205) -/

theorem length_updateAt {α : Type} (f : α → α) (k : Nat) (l : List α) : (updateAt f k l).length = l.length := by
  induction l generalizing k with
  | nil => cases k <;> rfl
  | cons a l ih => cases k <;> simp [updateAt, ih]

theorem getElem?_updateAt {α : Type} (f : α → α) (k j : Nat) (l : List α) :
    (updateAt f k l)[j]? = if j = k then l[j]?.map f else l[j]? := by
  induction l generalizing k j with
  | nil => cases k <;> simp [updateAt]
  | cons a l ih => cases k <;> cases j <;> simp [updateAt, ih]

@[simp] theorem State.due_modBlk (s : State) (i : Nat) (f : Block → Block) : (s.modBlk i f).due? i = s.due? i := by
  cases h : s.inst? i <;> simp [State.due?, State.modBlk, h]

theorem SlotRec.opnd_put (r : SlotRec) (o o' : Opnd) (v : Val) :
    (r.put o v).opnd o' = if o' = o then some v else r.opnd o' := by
  cases o <;> cases o' <;> rfl

@[simp] theorem SlotRec.put_st (r : SlotRec) (o : Opnd) (v : Val) : (r.put o v).st = r.st := by cases o <;> rfl

section Deliver

variable {s : State} {i : Nat} {b : Block} (hb : s.blk? i = some b)
include hb

theorem deliver_none (v : Val) : deliver s i .none v = s := by
  obtain ⟨n, inst, blk⟩ := Option.bind_eq_some_iff.mp hb
  simp only [deliver, inst, blk]

theorem deliver_opnd {k : BitVec 7} {r : SlotRec} (hr : b.slots[k.toNat]? = some r) (o : Opnd) (v : Val) :
    deliver s i (.opnd k o) v = if r.opnd o = none then s.modSlot i k.toNat fun r => r.put o v
      else raise s i codeBlockFormat k.toNat 0 := by
  obtain ⟨n, inst, blk⟩ := Option.bind_eq_some_iff.mp hb
  simp only [deliver, inst, blk, List.getD_eq_getElem?_getD, hr, Option.getD_some]
  cases r.opnd o <;> rfl

theorem deliver_write {k : BitVec 7} {w : Option Val} (hw : b.writes[k.toNat]? = some w) (v : Val) :
    deliver s i (.write k) v = if w = none then s.modBlk i fun b => { b with writes := updateAt (fun _ => some v) k.toNat b.writes }
      else raise s i codeBlockFormat (0xA0 + k.toNat) 0 := by
  obtain ⟨n, inst, blk⟩ := Option.bind_eq_some_iff.mp hb
  simp only [deliver, inst, blk, List.getD_eq_getElem?_getD, hw, Option.getD_some]
  cases w <;> rfl

/-- A fault of a block leaves what its slots and write entries hold. -/
theorem raise_blk (hd : s.due? i = none) (code slot : Nat) (addr : Word) :
    ∃ b', (raise s i code slot addr).blk? i = some b' ∧ b'.slots = b.slots ∧ b'.writes = b.writes := by
  obtain ⟨n, inst, blk⟩ := Option.bind_eq_some_iff.mp hb
  have due : n.ctl.due = none := by rw [State.due?, inst] at hd; exact hd
  refine ⟨b.faulted (s.outb.any fun o => o.agent == .ctl i), by simp [State.blk?, raise, inst, blk, due], ?_, ?_⟩ <;>
    (unfold Block.faulted; split <;> rfl)

end Deliver

/-- Settles O12: the first delivery changes the one operand or write entry that it names, and a second raises. -/
theorem deliveryReachesItsTargetOnce : Obligations.DeliveryReachesItsTargetOnce := by
  unfold Obligations.DeliveryReachesItsTargetOnce
  refine ⟨fun s i b v hb => ⟨fun k o r hr empty => ?_, fun k empty => ?_, deliver_none hb v⟩,
    fun s i b v w hb hd => ⟨fun k o r hr full => ?_, fun k full => ?_⟩⟩
  · rw [deliver_opnd hb hr, if_pos empty, State.modSlot, State.blk_modBlk, hb]
    refine ⟨_, rfl, rfl, length_updateAt _ _ _, State.due_modBlk _ _ _, fun r' hr' => ?_, fun j other => ?_⟩
    · rw [getElem?_updateAt, if_pos rfl, hr] at hr'
      cases hr'
      exact ⟨by rw [SlotRec.opnd_put, if_pos rfl], fun o' other => by rw [SlotRec.opnd_put, if_neg other], r.put_st o v⟩
    · exact (getElem?_updateAt _ _ _ _).trans (if_neg other)
  · rw [deliver_write hb empty, if_pos rfl, State.blk_modBlk, hb]
    refine ⟨_, rfl, rfl, length_updateAt _ _ _, State.due_modBlk _ _ _, ?_, fun j other => ?_⟩
    · exact (getElem?_updateAt _ _ _ _).trans (by rw [if_pos rfl, empty]; rfl)
    · exact (getElem?_updateAt _ _ _ _).trans (if_neg other)
  · rw [deliver_opnd hb hr, if_neg (by rw [full]; exact Option.some_ne_none w)]
    exact ⟨raise_due hb hd _ _ _, raise_blk hb hd _ _ _⟩
  · rw [deliver_write hb full, if_neg (Option.some_ne_none w)]
    exact ⟨raise_due hb hd _ _ _, raise_blk hb hd _ _ _⟩

end Sys2Proof.Machine

end

section
/-! PROOFS. The frame of the opcodes that name no memory (R205): they change the block they stand in, and the fault due at its
boundary. -/

namespace Sys2Proof.Machine

open Sys2Proof.Bits Sys2Proof.Rows

/-- The instruction changes nothing but its block and the fault due at that block's boundary. -/
def BlockOnly (x : Instr) : Prop := ∀ s t, exec x s = .next t → SlotOnly s.cur.1 s t

/-- Format G (R224 to R239). -/
theorem blockOnly_g (f : GOp) : ∀ x ∈ [Instr.fan f, .null f, .movi f, .appi f, .add f, .sub f, .mul f, .mulh f,
      .mulhu f, .div f, .divu f, .rem f, .remu f, .and f, .or f, .xor f, .andn f, .shl f, .shr f, .sra f, .rol f, .ror f,
      .min f, .max f, .minu f, .maxu f, .adds f, .subs f, .addus f, .subus f, .clz f, .ctz f, .popc f, .bswap f, .sext f,
      .zext f, .neg f, .not f, .abs f, .bfx f, .bfi f, .teq f, .tne f, .tlt f, .tltu f, .tle f, .tleu f, .tgt f, .tgtu f,
      .tge f, .tgeu f, .tbs f, .tbc f, .sel f, .wid f, .time f, .cyc f, .ctx f], BlockOnly x := by
  simp only [List.forall_mem_cons]
  refine ⟨?fan, ?null, ?_, ?_, ?_, ?_, ?_, ?_, ?_, ?div, ?divu, ?rem, ?remu, ?_, ?_, ?_, ?_, ?_, ?_, ?_, ?_, ?_, ?_, ?_, ?_,
    ?_, ?_, ?_, ?_, ?_, ?_, ?_, ?_, ?_, ?_, ?_, ?_, ?_, ?_, ?_, ?_, ?_, ?_, ?_, ?_, ?_, ?_, ?_, ?_, ?_, ?_, ?_, ?_, ?sel,
    ?wid, ?time, ?cyc, ?ctx, List.forall_mem_nil _⟩
  all_goals
    intro s t h
    dsimp only [exec] at h
  case fan | wid | time | cyc | ctx => exact fireOp_slotOnly (fun _ => SlotOnly.done _ _ _ _) h
  case null => exact fireOp_slotOnly (fun _ => SlotOnly.doneAll _ _ _) h
  case div | divu | rem | remu => exact divOp_slotOnly h
  case sel => exact fireOp_slotOnly (fun _ => SlotOnly.ite _ (SlotOnly.doneAll _ _ _) (SlotOnly.doneAll _ _ _)) h
  all_goals exact aluOp_slotOnly h

/-- The exits (R240 to R244, R286): they choose, fault or deliver the return address. -/
theorem blockOnly_exits (b : BOp) (e : EOp) :
    ∀ x ∈ [Instr.br b, .bri b, .call b, .calli b, .halt b, .trap b, .eret e], BlockOnly x := by
  have returns (s : State) (fr : Firing) (next : ExitTo) (v : Val) : SlotOnly fr.i s (deliver (fr.exit s next) fr.i b.t1 v) :=
    (SlotOnly.exit fr s next).trans (SlotOnly.deliver _ _ _ _)
  simp only [List.forall_mem_cons]
  refine ⟨?br, ?bri, ?call, ?calli, ?halt, ?trap, ?eret, List.forall_mem_nil _⟩
  all_goals
    intro s t h
    dsimp only [exec] at h
  case br | halt | trap | eret => exact fireOp_slotOnly (fun _ => SlotOnly.exit _ _ _) h
  case bri => exact fireOp_slotOnly (fun _ => SlotOnly.ite _ (SlotOnly.fault _ _ _ _) (SlotOnly.exit _ _ _)) h
  case call => exact fireOp_slotOnly (fun fr => returns s fr _ _) h
  case calli => exact fireOp_slotOnly (fun fr => SlotOnly.ite _ (SlotOnly.fault _ _ _ _) (returns s fr _ _)) h

/-- The opcodes whose action stands until the commit, and those that read (R231, R276, R279 to R285, R305 to R307, R320 to
R324). -/
theorem blockOnly_notes (e : EOp) : ∀ x ∈ [Instr.sysw e, .yield e, .tlbinv e, .bcinv e, .xstat e, .chlen e, .semread e,
    .src e, .snk e, .kset e, .mark e, .fmtw e, .scalew e, .genseed e, .fcnt e, .fstop e], BlockOnly x := by
  simp only [List.forall_mem_cons]
  refine ⟨?sysw, ?_, ?_, ?_, ?xstat, ?chlen, ?semread, ?_, ?_, ?_, ?_, ?_, ?_, ?_, ?fcnt, ?_, List.forall_mem_nil _⟩
  all_goals
    intro s t h
    dsimp only [exec] at h
  case sysw => exact fireOp_slotOnly (fun _ => SlotOnly.ite _ (SlotOnly.fault _ _ _ _) (SlotOnly.note _ _ _)) h
  case xstat | fcnt => exact fireOp_slotOnly (fun _ => SlotOnly.done _ _ _ _) h
  case chlen =>
    refine fireOp_slotOnly (fun fr => ?_) h
    split
    · exact SlotOnly.fault _ _ _ _
    · exact SlotOnly.ite _ (SlotOnly.done _ _ _ _) (SlotOnly.fault _ _ _ _)
  case semread => exact fireOp_slotOnly (fun _ => SlotOnly.ite _ (SlotOnly.fault _ _ _ _) (SlotOnly.done _ _ _ _)) h
  all_goals exact fireOp_slotOnly (fun _ => SlotOnly.note _ _ _) h

/-- What touches a block alone touches it as well when a core's data cache is invalidated beside it. -/
theorem SlotOnly.modCore {i c : Nat} {s t : State} {f : Core → Core} (h : SlotOnly i (s.modCore c f) t) :
    ∃ u, SlotOnly i s u ∧ t = u.modCore c f := by
  obtain ⟨b, d, rfl⟩ := h
  exact ⟨_, ⟨b, d, rfl⟩, rfl⟩

/-- SYSR touches its block alone, but for the acquire that the serial of a report is (R278). -/
theorem sysr_frame {e : EOp} {s t : State} (h : exec (.sysr e) s = .next t) : ∃ u c, SlotOnly s.cur.1 s u
    ∧ (t = u ∨ e.imm = 0x28 ∧ t = u.modCore c fun y => { y with cache := [] }) := by
  refine fireOp_frame (opc := 0xB0) (f := .e e) (fun s t => ∃ u c, SlotOnly s.cur.1 s u
    ∧ (t = u ∨ e.imm = 0x28 ∧ t = u.modCore c fun y => { y with cache := [] }))
    (fun u touched => ⟨u, 0, touched, .inl rfl⟩) (fun fr here _ => ?_) ((exec_sysr e s).symm.trans h)
  dsimp only
  rw [← here]
  split
  · exact ⟨_, 0, SlotOnly.fault _ _ _ _, .inl rfl⟩
  · split
    next serial =>
      obtain ⟨u, touched, invalidated⟩ := SlotOnly.modCore (c := fr.n.cluster) (f := fun y => { y with cache := [] })
        (SlotOnly.done fr (acquire s fr.n.cluster .system) [e.t1] (sysValue s fr.n e.imm.toNat))
      exact ⟨u, _, touched, .inr ⟨BitVec.eq_of_toNat_eq serial.1, invalidated⟩⟩
    next => exact ⟨_, 0, SlotOnly.done _ _ _ _, .inl rfl⟩

/-- Settles O49: by the firings of format G, of the exits, and of the opcodes that note or read. -/
theorem slotOnlyOpcodesFrame : Obligations.SlotOnlyOpcodesFrame := by
  unfold Obligations.SlotOnlyOpcodesFrame
  intro f b e x listed s t
  refine ⟨?_, sysr_frame⟩
  rcases List.mem_append.mp listed with listed | listed
  · exact blockOnly_g f x listed s t
  · suffices x ∈ [Instr.br b, .bri b, .call b, .calli b, .halt b, .trap b, .eret e]
        ∨ x ∈ [Instr.sysw e, .yield e, .tlbinv e, .bcinv e, .xstat e, .chlen e, .semread e,
          .src e, .snk e, .kset e, .mark e, .fmtw e, .scalew e, .genseed e, .fcnt e, .fstop e] by
      rcases this with listed | listed
      · exact blockOnly_exits b e x listed s t
      · exact blockOnly_notes e x listed s t
    exact List.mem_append.mp listed

end Sys2Proof.Machine

end

section
/-! PROOFS. Every instruction answers a next state, so a step stops only where its move names a slot that decodes to nothing
(R202, R211). -/

namespace Sys2Proof.Machine

open Sys2Proof.Bits Sys2Proof.Rows

/-! ## Every instruction answers a next state -/

theorem fireOp_next (opc : Nat) (f : Fields) (s : State) (go : Firing → State) : ∃ t, fireOp opc f s go = .next t := by
  dsimp only [fireOp]
  repeat' split
  all_goals exact ⟨_, rfl⟩

theorem fireMem_next (opc : Nat) (f : MOp) (s : State) (align : Nat) (a : Inst → Access)
    (go early : Firing → State → List Piece → State) : ∃ t, fireMem opc f s align a go early = .next t := by
  dsimp only [fireMem]
  repeat' split
  all_goals exact ⟨_, rfl⟩

theorem fireFe_next (code : Nat) (f : List Word → Fe → Elements.FireIn → Except Elements.FireFault Elements.FireOut)
    (upset : Bool) (i : Nat) (fe : FeAt) (s : State) : ∃ t, fireFe code f upset i fe s = .next t := by
  dsimp only [fireFe]
  repeat' split
  all_goals exact ⟨_, rfl⟩

/-- A control opcode is a firing of its slot. -/
theorem exec_slot_next {x : Instr} {opc : Nat} {f : Fields} (s : State) (fields : x.slotFields = some (opc, f)) :
    ∃ t, exec x s = .next t := by
  cases ahead : translatesAhead opc with
  | false =>
    obtain ⟨go, fires⟩ := exec_slot s fields ahead
    exact fires ▸ fireOp_next _ _ _ _
  | true =>
    obtain ⟨m, align, a, go, early, rfl, fires⟩ := exec_ahead s fields ahead
    exact fires ▸ fireMem_next _ _ _ _ _ _ _

/-- The other rows of the table answer on every branch of their meanings. -/
theorem exec_event_next {e : Instr} (s : State) (event : e.slotFields = none) : ∃ t, exec e s = .next t := by
  cases e <;> simp only [Instr.slotFields, reduceCtorEq] at event
  all_goals dsimp only [exec]
  case pass | dot | dots | redadd | redmax | redmin | eopAdd | mule | scale | quant | deq | cvt | bfly | split3 | lut6 |
    fsm | table | cmpsel | shiftv | cnt | sgen | sand | sor | smux | snot | sminc | smaxc | sxor | scnt | sregen |
    sfsm =>
    exact fireFe_next _ _ _ _ _ _
  all_goals dsimp only [
    execBringUp, execContextCreate, execContextDestroy, execChannelDestroy, execFirmwareGrant, execBlockFetch,
    execBlockStart, execBlockCommit, execBlockStall, execTrapEntry, execYieldTimeout, execTlbinvDone, execBcinvDone,
    execWaitevTimeout, execFwaitTimeout, execReadPerform, execWritePerform, execCacheLineDrop, execEccWriteback,
    execHomeAtomicPerform, execBarrierOpPerform, execBarwaitPoll, execPageWalk, execWardrobeEntryFill,
    execRetentionEntry, execRetentionExit, execRetentionExitDone, execChannelRequest, execChannelSpill,
    execChannelRefill, execSpillRetry, execBlockedReport, execDeadlockDetector, execGrowthCopyDone,
    execRegionSourceAccess, execRegionSinkWrite, execIterationStart, execIterationCommit, execIterationDiscard,
    execIterOverrun, execConfigFill, execConfigMulticast, execMarkerPass, execLaunchAccept, execImageLoad,
    execInstancePlace, execDoneArrival, execRecordAccept, execEngineRecordStart, execRecordComplete,
    execChunkDecode, execXtloadTakeEffect, execLeaveGrant, execLeaveTimeout, execFlitSend, execFlitReceive,
    execNakReceive, execReplayTimeout, execRetrainDone, execHostPostedWrite, execHostRead, execHostLineAck,
    execHostAtomicop, execHostReadCompletion, execHostReadTimeout, execHostResetCommand, execQueueResetComplete,
    execLaunchWindowWrite, execLaunchTableArm, execLaunchTableDisarm, execLaunchTableFire, execTimebaseSrcWrite,
    execPtmoffWrite, execBar0RegisterWrite, execAttestationRequest, execAttestationReportWrite, execPeerRead,
    execPeerWrite, execPeerWriteOrd, execLlynramResend, execPeerUnreachable, execPtpMessage, execPtmExchange,
    execTimebaseSourceLost, execCalendarSlot, execBorrowLimit, execContextPreempt, execRegionStopDiscard,
    execRegionStopFinish, execFeLazySave, execRestore, execSaveTimeout, execWatchdog, execHeartbeat,
    execStandbyTakeover, execLeafCommand, execLeafAck, execRetentionEntryDone, execPeerAcknowledgement,
    execFeMarkDefective, execFirmwareTableWrite, when_]
  all_goals repeat' split
  all_goals exact ⟨_, rfl⟩

theorem exec_next (x : Instr) (s : State) : ∃ t, exec x s = .next t := by
  cases fields : x.slotFields with
  | none => exact exec_event_next s fields
  | some _ => exact exec_slot_next s fields

/-! ## The move of a step (R202, log 2) -/

/-- A slot that decodes runs, and those who wait for its issue are told (R279). -/
theorem runSlot_of_decodes {s : State} {i k : Nat} {w : Word} {x : Instr} (word : slotWordOf s i k = some w)
    (decodes : decodeSlot w = .ok x) : ∃ t, exec x (s.at i k) = .next t
      ∧ runSlot s i k = .next (if hasIssued s t i k then noteIssue t i else t) := by
  obtain ⟨t, runs⟩ := exec_next x (s.at i k)
  exact ⟨t, runs, by simp only [runSlot, word, decodes, runs]⟩

/-- Settles O4: the move is the slot's, and its turn is `exec` of what its word decodes to. -/
theorem stepRunsDecodedSlot : Obligations.StepRunsDecodedSlot := by
  unfold Obligations.StepRunsDecodedSlot
  intro s u i k w x move word decodes
  obtain ⟨t, runs, turn⟩ := runSlot_of_decodes word decodes
  refine ⟨t, runs, ?_⟩
  simp only [step, move, runMove, turn, hasIssued, Bool.and_eq_true, beq_iff_eq, bne_iff_ne]

/-- An event answers a next state, whether it is accepted or not. -/
theorem runEvent_next (s : State) (e : Instr) : ∃ t, runEvent s e = .next t := by
  unfold runEvent
  split
  · exact ⟨s, rfl⟩
  · exact exec_next e s

/-- The turn of a slot answers a next state, or its word decodes to nothing. -/
theorem runSlot_cases (s : State) (i k : Nat) : (∃ t, runSlot s i k = .next t)
    ∨ ∃ w, slotWordOf s i k = some w ∧ (∀ x, decodeSlot w ≠ .ok x) ∧ runSlot s i k = .fault (.notAnInstruction w) := by
  cases word : slotWordOf s i k with
  | none => exact .inl ⟨s, by simp only [runSlot, word]⟩
  | some w =>
    cases decoded : decodeSlot w with
    | ok x =>
      obtain ⟨t, -, turn⟩ := runSlot_of_decodes word decoded
      exact .inl ⟨_, turn⟩
    | error e =>
      refine .inr ⟨w, rfl, fun x ok => ?_, by simp only [runSlot, word, decoded]⟩
      rw [decoded] at ok
      cases ok

/-- Settles O6: by the move that the step makes. -/
theorem stepStopsOnlyOnUndecodable : Obligations.StepStopsOnlyOnUndecodable := by
  unfold Obligations.StepStopsOnlyOnUndecodable
  intro s
  unfold step
  generalize (nextMove s).2 = u
  cases (nextMove s).1 with
  | slot i k =>
    rcases runSlot_cases u i k with goesOn | ⟨w, word, undecodable, stops⟩
    · exact .inl goesOn
    · exact .inr ⟨i, k, w, rfl, word, undecodable, stops⟩
  | event e => exact .inl (runEvent_next u e)
  | tick n => exact .inl ⟨_, rfl⟩
  | upset key errs => exact .inl ⟨_, rfl⟩
  | accUpset fe acc k => exact .inl ⟨_, rfl⟩
  | barSize port log => exact .inl ⟨_, rfl⟩
  | pace die port on => exact .inl ⟨_, rfl⟩

end Sys2Proof.Machine

end

section
/-! PROOFS. BLOCK_FETCH (R206, R211): a fetch leaves the instances alone, and the block that passes the checks holds only
slots that decode. -/

namespace Sys2Proof.Machine

open Sys2Proof.Bits Sys2Proof.Rows Sys2Proof.Layout

/-! ## Fetching leaves the instances (R30, R206) -/

namespace KeepsAskers

theorem countMiss (s : State) (core : Option Nat) (die : Nat) (hit : Option TlbPlace) :
    KeepsAskers s (countMiss s core die hit) := by
  unfold Machine.countMiss
  dsimp only
  refine trans ?_ (ite _ (countDie _ _ _ _) (refl _))
  split
  · exact refl s
  · exact countCore s _ _ _
  · exact refl s

theorem enterLeaf (s : State) (core : Option Nat) (die ctx va e addr lg : Nat) (a : Access) :
    KeepsAskers s (enterLeaf s core die ctx va e addr lg a).1 := by
  unfold Machine.enterLeaf
  dsimp only
  split <;> exact installLeaf_keepsAskers _ _ _ _ _ _ _ _ _

theorem endWalk {s : State} {w : State × Walk} (h : KeepsAskers s w.1) (core : Option Nat) (die ctx va : Nat) (a : Access) :
    KeepsAskers s (endWalk w core die ctx va a).1 := by
  unfold Machine.endWalk
  split
  · exact h
  · exact h
  · exact h.trans (enterLeaf _ _ _ _ _ _ _ _ _)

theorem throughEntry (s : State) (x : TlbEntry) (core : Option Nat) (die ctx va : Nat) (a : Access) :
    KeepsAskers s (throughEntry s x core die ctx va a).1 := by
  have met := meetFlaws s x.leaf 8
  unfold Machine.throughEntry
  dsimp only
  split
  · exact refl s
  · split
    · split
      · exact met.trans ⟨rfl, rfl⟩
      · have dropped : KeepsAskers (Machine.meetFlaws s x.leaf 8)
            { Machine.meetFlaws s x.leaf 8 with tlb := (Machine.meetFlaws s x.leaf 8).tlb.filter fun y => y != x } := ⟨rfl, rfl⟩
        exact endWalk ((met.trans dropped).trans (walkLevels _ _ _ _)) _ _ _ _ _
    · exact refl s

theorem lookVirt (s : State) (core : Option Nat) (die ctx va : Nat) (a : Access) :
    KeepsAskers s (lookVirt s core die ctx va a).1 := by
  unfold Machine.lookVirt
  split
  · exact (countMiss s core die _).trans (throughEntry _ _ _ _ _ _ _)
  · exact countMiss s core die none

theorem findVirt (s : State) (core : Option Nat) (die ctx va : Nat) (a : Access) :
    KeepsAskers s (findVirt s core die ctx va a).1 := by
  have looked := lookVirt s core die ctx va a
  unfold Machine.findVirt
  split
  · rename_i u missed
    rw [missed] at looked
    split
    · exact endWalk (looked.trans (walk _ _ _)) _ _ _ _ _
    · exact looked
  · exact looked

theorem xlateVirt {find : State → Nat → State × Look} (hf : ∀ s va, KeepsAskers s (find s va).1) (ts : List (Nat × Nat))
    (s : State) (acc : List Piece) : KeepsAskers s (xlateVirt find s ts acc).1 := by
  induction ts generalizing s acc with
  | nil => exact refl s
  | cons t ts ih =>
    have found := hf s (t.1 % 2 ^ 64)
    unfold Machine.xlateVirt
    split <;> rename_i looked <;> rw [looked] at found
    · exact found
    · exact found
    · exact found.trans (ih _ _)

theorem xlate_virt (s : State) (core : Option Nat) (local_ die ctx : Nat) (addr : Word) (n tok align : Nat) (a : Access)
    (fill : Bool) : KeepsAskers s (xlate s core local_ die ctx .virt addr n tok align a fill).1 := by
  have finds (s : State) (va : Nat) :
      KeepsAskers s (if fill then Machine.findVirt s core die ctx va a else Machine.lookVirt s core die ctx va a).1 := by
    split
    · exact findVirt _ _ _ _ _ _
    · exact lookVirt _ _ _ _ _ _
  unfold xlate
  dsimp only
  split
  · exact refl s
  · split
    · exact refl s
    · exact xlateVirt finds _ _ _

theorem fetchUnit (s : State) (n : Inst) (fill : Bool) (addr : Word) : KeepsAskers s (fetchUnit s n fill addr).1 := by
  have translated := xlate_virt s (some n.cluster) n.cluster (dieOfCore n.cluster) n.ctx addr 64 64 1 (fetchAccess n.ctl.cur) fill
  unfold Machine.fetchUnit
  split <;> rename_i looked <;> rw [looked] at translated
  · dsimp only
    split <;> exact translated.trans (meetPieces _ _)
  · exact translated
  · exact translated

theorem fetchUnits (s : State) (n : Inst) (fill : Bool) (addr : Word) (k m : Nat) (ws : List Word) :
    KeepsAskers s (fetchUnits s n fill addr k m ws).1 := by
  induction m generalizing s k ws with
  | zero => exact refl s
  | succ m ih =>
    have unit := fetchUnit s n fill (addr + BitVec.ofNat 64 (64 * k))
    unfold Machine.fetchUnits
    split
    · rename_i fetched
      rw [fetched] at unit
      exact unit.trans (ih _ _ _)
    · exact unit

theorem fetchWords (s : State) (n : Inst) (fill : Bool) (addr : Word) : KeepsAskers s (fetchWords s n fill addr).1 := by
  have unit := fetchUnit s n fill addr
  unfold Machine.fetchWords
  split
  · rename_i fetched
    rw [fetched] at unit
    exact unit.trans (fetchUnits _ _ _ _ _ _ _)
  · exact unit

theorem blockWords (s : State) (n : Inst) (addr : Word) : KeepsAskers s (blockWords s n addr).1 := by
  have fetched := fetchWords s n false addr
  unfold Machine.blockWords
  split
  · exact refl s
  · split
    · rename_i words
      rw [words] at fetched
      exact (fetched.trans (countCore _ _ _ _)).trans ⟨rfl, rfl⟩
    · rename_i words
      rw [words] at fetched
      exact trans fetched (countCore _ n.cluster 0x012 1)
    · exact fetched

theorem blk {s t : State} (h : KeepsAskers s t) (i : Nat) : t.blk? i = s.blk? i := by
  rw [State.blk?, h.inst, State.blk?]

end KeepsAskers

/-! ## The checks of the slots (step 4 of R211) -/

/-- A slot without a fault decodes. -/
theorem decodes_of_slotCheck {ws : List Word} {sup region : Bool} {seen : List Nat} {k : Nat}
    (passes : slotCheck ws sup region seen k = none) : ∃ x, decodeSlot (slotWord ws k) = .ok x := by
  unfold slotCheck at passes
  split at passes
  · cases passes
  · cases passes
  · rename_i row f x decoded
    exact ⟨x, decodeSlot_eq_ok.mpr ⟨row, f, decoded⟩⟩

/-- Slots that all pass decode. -/
theorem decodes_of_slotsCheck {ws : List Word} {sup region : Bool} {ks seen : List Nat}
    (passes : slotsCheck ws sup region seen ks = none) : ∀ k ∈ ks, ∃ x, decodeSlot (slotWord ws k) = .ok x := by
  induction ks generalizing seen with
  | nil => exact fun k listed => absurd listed List.not_mem_nil
  | cons j ks ih =>
    unfold slotsCheck at passes
    split at passes
    · cases passes
    · rename_i first
      exact List.forall_mem_cons.mpr ⟨decodes_of_slotCheck first, ih passes⟩

/-- A block that passes the checks holds only slots that decode. -/
theorem decodes_of_decodeCheck {ws : List Word} {sup region : Bool} (passes : decodeCheck ws sup region = none) {k : Nat}
    (hk : k < nslot ws) : ∃ x, decodeSlot (slotWord ws k) = .ok x := by
  unfold decodeCheck at passes
  split at passes
  · cases passes
  · split at passes
    · cases passes
    · split at passes
      · cases passes
      · rename_i slots
        exact decodes_of_slotsCheck slots k (List.mem_range.mpr hk)

/-- What BLOCK_FETCH can do: leave the context without a block, or install one that passed the checks. -/
theorem blockFetch_cases {s t : State} {i : Nat} (h : exec (.blockFetch i) s = .next t) : t.blk? i = s.blk? i
    ∨ ∃ a ws sup region, decodeCheck ws sup region = none ∧ ∀ b, t.blk? i = some b → b = Block.fresh a ws := by
  rw [exec_blockFetch] at h
  unfold execBlockFetch at h
  split at h
  · cases h; exact .inl rfl
  · rename_i n inst
    split at h
    · have kept := KeepsAskers.blockWords s n n.ctl.next
      have faulted (u : State) (code slot : Nat) (addr : Word) : (fetchFault u i code slot addr).blk? i = u.blk? i := by
        cases there : u.inst? i <;> simp [State.blk?, fetchFault, there]
      split at h <;> rename_i words <;> rw [words] at kept
      · cases h; exact .inl (kept.blk i)
      · cases h; exact .inl ((faulted _ _ _ _).trans (kept.blk i))
      · split at h
        · cases h; exact .inl ((faulted _ _ _ _).trans (kept.blk i))
        · rename_i passes
          cases h
          refine .inr ⟨n.ctl.next, _, _, _, passes, fun b installed => ?_⟩
          simp only [State.blk?, State.inst_modCtl_self, kept.inst, inst, Option.map_some, Option.bind_some] at installed
          exact (Option.some.inj installed).symm
    · cases h; exact .inl rfl

/-- Settles O7: a block in flight after the fetch is one that the fetch installed, and it passed the checks. -/
theorem fetchedBlocksDecode : Obligations.FetchedBlocksDecode := by
  unfold Obligations.FetchedBlocksDecode
  intro s t i k b none fetch after hk
  rcases blockFetch_cases fetch with same | ⟨a, ws, sup, region, passes, installs⟩
  · rw [same, none] at after
    cases after
  · cases installs b after
    exact decodes_of_decodeCheck passes hk

/-! ## The fetch of a cached block (R206) -/

theorem State.modCtl_congr {s : State} {i : Nat} {n : Inst} {f g : Ctl → Ctl} (inst : s.inst? i = some n)
    (same : f n.ctl = g n.ctl) : s.modCtl i f = s.modCtl i g := by
  rw [State.modCtl, State.modCtl, State.modInst, State.modInst, amod_congr_of_aget inst (by rw [same])]

section Cached

variable {s : State} {i x : Nat} {n : Inst} {ws : List Word}

section Boundary

variable (runs : n.life = .running) (noBlock : n.ctl.blk = none) (noDue : n.ctl.due = none)
  (noAsync : n.ctl.async = []) (noWait : n.ctl.wait = []) (noWalk : ∀ w ∈ s.walks, w.by_ ≠ .fetch i)
  (cached : (s.core n.cluster).blocks.find? (fun b => b.1 == cacheCtx n && b.2.1 == n.ctl.next) = some (x, n.ctl.next, ws))
include runs noBlock noDue noAsync noWait noWalk cached

/-- BLOCK_FETCH at a boundary takes the words that the block cache holds for the address. -/
theorem mayFetch_cached : (n.mayFetch && !s.walks.any fun w => w.by_ == .fetch i) = true
    ∧ blockWords s n n.ctl.next = (s, .ok ws) := by
  refine ⟨?_, by simp only [blockWords, cached]⟩
  simpa [Inst.mayFetch, Ctl.atBoundary, runs, noBlock, noDue, noAsync, noWait] using noWalk

variable (inst : s.inst? i = some n)
include inst

theorem exec_blockFetch_passes (passes : decodeCheck ws n.ctl.cur n.reg.isSome = none) :
    exec (.blockFetch i) s = .next (s.modCtl i fun c => { c with blk := some (Block.fresh c.next ws) }) := by
  obtain ⟨may, words⟩ := mayFetch_cached runs noBlock noDue noAsync noWait noWalk cached
  simp only [exec_blockFetch, execBlockFetch, inst, may, words, passes, if_true]

theorem exec_blockFetch_fails {c k : Nat} (fails : decodeCheck ws n.ctl.cur n.reg.isSome = some (c, k)) :
    exec (.blockFetch i) s = .next (fetchFault s i c k 0) := by
  obtain ⟨may, words⟩ := mayFetch_cached runs noBlock noDue noAsync noWait noWalk cached
  simp only [exec_blockFetch, execBlockFetch, inst, may, words, fails, if_true]

end Boundary

/-- A fetch fault is due with FAULTBLK the address of the context's next block. -/
theorem fetchFault_eq (inst : s.inst? i = some n) (code slot : Nat) (addr : Word) : fetchFault s i code slot addr
    = s.modCtl i fun c => { c with due := some ⟨code, n.ctl.next, slot, addr, none, none, 0⟩ } :=
  State.modCtl_congr inst rfl

end Cached

/-! ## A slot that fails its check (R211, R218, R245) -/

/-- Slots that pass hand the checks on to the slots after them. -/
theorem slotsCheck_append {ws : List Word} {sup region : Bool} {ks seen : List Nat} (js : List Nat)
    (passes : slotsCheck ws sup region seen ks = none) :
    ∃ seen', slotsCheck ws sup region seen (ks ++ js) = slotsCheck ws sup region seen' js := by
  induction ks generalizing seen with
  | nil => exact ⟨seen, rfl⟩
  | cons k ks ih =>
    unfold slotsCheck at passes
    split at passes
    · cases passes
    · rename_i first
      obtain ⟨seen', rest⟩ := ih passes
      refine ⟨seen', ?_⟩
      rw [List.cons_append, slotsCheck, first]
      exact rest

/-- The first slot that fails its check is the block's fault, when the header and the entries are good. -/
theorem decodeCheck_slot {ws : List Word} {sup region : Bool} {k c : Nat} (header : headerBad ws = false)
    (entries : entriesBad ws = false) (hk : k < nslot ws) (lower : slotsCheck ws sup region [] (List.range k) = none)
    (fails : ∀ seen, slotCheck ws sup region seen k = some c) : decodeCheck ws sup region = some (c, k) := by
  obtain ⟨rest, slots⟩ : ∃ rest, List.range (nslot ws) = List.range k ++ k :: rest := by
    obtain ⟨m, count⟩ : ∃ m, nslot ws = k + (m + 1) := ⟨nslot ws - k - 1, by omega⟩
    exact ⟨_, by rw [count, List.range_add, List.range_succ_eq_map, List.map_cons, Nat.add_zero]⟩
  obtain ⟨seen, checks⟩ := slotsCheck_append (k :: rest) lower
  have first : slotsCheck ws sup region [] (List.range (nslot ws)) = some (c, k) := by
    rw [slots, checks, slotsCheck, fails]
  simp only [decodeCheck, header, entries, first, Bool.false_eq_true, if_false]

theorem slotCheck_break {ws : List Word} {k : Nat} (h : decodeSlot (slotWord ws k) = .error .brk) (sup region : Bool)
    (seen : List Nat) : slotCheck ws sup region seen k = some codeBreak := by
  unfold decodeSlot at h
  split at h
  · cases h
  · rename_i decoded
    cases h
    simp only [slotCheck, decoded]

theorem slotCheck_illegal {ws : List Word} {k : Nat} {e : DecErr} (other : e ≠ .brk) (h : decodeSlot (slotWord ws k) = .error e)
    (sup region : Bool) (seen : List Nat) : slotCheck ws sup region seen k = some codeIllegal := by
  unfold decodeSlot at h
  split at h
  · cases h
  · rename_i decoded
    cases h
    unfold slotCheck
    split
    · rename_i brk
      rw [decoded] at brk
      cases brk
      exact absurd rfl other
    · rfl
    · rename_i ok
      rw [decoded] at ok
      cases ok

/-- A privileged opcode that is no fabric opcode is refused at level U. -/
theorem slotCheck_priv {ws : List Word} {k opc : Nat} {x : Instr} {row : Row} {f : EOp}
    (h : decodeSlot (slotWord ws k) = .ok x) (fields : x.slotFields = some (opc, .e f)) (listed : rowOf opc = some row)
    (priv : row.priv = true) (control : Rows.isFabric row = false) (notSysw : row.opc ≠ 0xB1) (region : Bool) (seen : List Nat) :
    slotCheck ws false region seen k = some codePriv := by
  obtain ⟨row', f', decoded⟩ := decodeSlot_eq_ok.mp h
  obtain ⟨listed', made, -, -⟩ := decodeFull_eq_ok.mp decoded
  have same := (slotFields_of_rowOf listed' made).symm.trans fields
  cases same
  cases listed.symm.trans listed'
  simp [slotCheck, decoded, control, priv, notSysw]

/-- Settles O36: by the cached block's checks, and by the first slot that fails its own. -/
theorem blockFetchAndItsChecks : Obligations.BlockFetchAndItsChecks := by
  unfold Obligations.BlockFetchAndItsChecks
  refine ⟨fun s i x n ws inst runs noBlock noDue noAsync noWait noWalk cached => ?_,
    fun ws sup region k header entries hk lower => ⟨fun brk => ?_, fun e other illegal => ?_, fun f user privileged => ?_⟩⟩
  · refine ⟨exec_blockFetch_passes runs noBlock noDue noAsync noWait noWalk cached inst, fun c k fails => ?_⟩
    rw [exec_blockFetch_fails runs noBlock noDue noAsync noWait noWalk cached inst fails, ← fetchFault_eq inst]
  · exact decodeCheck_slot header entries hk lower (slotCheck_break brk sup region)
  · exact decodeCheck_slot header entries hk lower (slotCheck_illegal other illegal sup region)
  · subst user
    refine decodeCheck_slot header entries hk lower fun seen => ?_
    simp only [List.mem_cons, List.not_mem_nil, or_false] at privileged
    rcases privileged with decoded | decoded | decoded | decoded <;>
      exact slotCheck_priv decoded rfl rfl rfl rfl (by decide) region seen

end Sys2Proof.Machine

end

section
/-! PROOFS. BLOCK_START (R200, R202, R270) and BLOCK_STALL (R210). -/

namespace Sys2Proof.Machine

open Sys2Proof.Bits Sys2Proof.Rows Sys2Proof.Layout

/-! ## BLOCK_START -/

/-- The state in which a block has started and nothing is delivered yet. -/
def startedBlock (s : State) (i : Nat) (n : Inst) (ws : List Word) : State :=
  { acquireTokens s i n ws with fresh := (acquireTokens s i n ws).fresh + 1 }.modBlk i fun b =>
    { b with started := true, runFrom := s.cycle, id := (acquireTokens s i n ws).fresh + 1 }

theorem acquireTokens_mem (s : State) (i : Nat) (n : Inst) (ws : List Word) : (acquireTokens s i n ws).mem = s.mem := by
  unfold acquireTokens
  dsimp only
  split <;> rfl

theorem acquireTokens_cycle (s : State) (i : Nat) (n : Inst) (ws : List Word) : (acquireTokens s i n ws).cycle = s.cycle := by
  unfold acquireTokens
  dsimp only
  split <;> rfl

/-- A token register among the block's reads makes the read an acquire (R93, R95). -/
theorem acquireTokens_cache {s : State} {i k : Nat} {n : Inst} {ws : List Word} (hk : k < nread ws)
    (token : n.ctl.acq.getLsbD (readEntry ws k).1 = true) : ((acquireTokens s i n ws).core n.cluster).cache = [] := by
  have read : (readEntry ws k).1 ∈
      ((List.range (nread ws)).map fun k => (readEntry ws k).1).filter fun r => n.ctl.acq.getLsbD r :=
    List.mem_filter.mpr ⟨List.mem_map_of_mem (List.mem_range.mpr hk), token⟩
  have some : (((List.range (nread ws)).map fun k => (readEntry ws k).1).filter fun r => n.ctl.acq.getLsbD r).isEmpty = false :=
    List.isEmpty_eq_false_iff.mpr (List.ne_nil_of_mem read)
  simp only [acquireTokens, some, Bool.false_eq_true, if_false]
  exact congrArg Core.cache (State.core_modCore_self s n.cluster fun c => { c with cache := [] })

/-- Reads of other registers acquire nothing. -/
theorem acquireTokens_plain {s : State} {i : Nat} {n : Inst} {ws : List Word}
    (plain : ∀ k, k < nread ws → n.ctl.acq.getLsbD (readEntry ws k).1 = false) : acquireTokens s i n ws = s := by
  have none : ((List.range (nread ws)).map fun k => (readEntry ws k).1).filter (fun r => n.ctl.acq.getLsbD r) = [] := by
    rw [List.filter_eq_nil_iff]
    intro r read
    obtain ⟨k, hk, rfl⟩ := List.mem_map.mp read
    rw [plain k (List.mem_range.mp hk)]
    exact Bool.false_ne_true
  simp only [acquireTokens, none, List.isEmpty_nil, if_true]

/-- The deliveries of the read entries, entry by entry (R200). -/
theorem deliverAll_readDeliveries (s : State) (i : Nat) (c : Ctl) (ws : List Word) : deliverAll s i (readDeliveries c ws)
    = (List.range (nread ws)).foldl (fun t k => deliver (deliver t i (readEntry ws k).2.1 (.val (c.reg (readEntry ws k).1))) i
        (readEntry ws k).2.2 (.val (c.reg (readEntry ws k).1))) s := by
  unfold deliverAll readDeliveries
  rw [List.foldl_flatMap]
  rfl

section Start

variable {s : State} {i : Nat} {n : Inst} {b : Block} (inst : s.inst? i = some n) (blk : n.ctl.blk = some b)
include inst blk

/-- A block waits while a register that it reads or writes is pending (R270). -/
theorem exec_blockStart_waits {r : Nat} (awaited : r ∈ awaitedRegs b.words) (pending : n.ctl.isPending r = true) :
    exec (.blockStart i) s = .next s := by
  have waits : (awaitedRegs b.words).any n.ctl.isPending = true := List.any_eq_true.mpr ⟨r, awaited, pending⟩
  rw [exec_blockStart]
  simp only [execBlockStart, inst, blk, waits, Bool.not_true, Bool.and_false, Bool.false_eq_true, if_false]

variable (runs : n.life = .running) (noDue : n.ctl.due = none) (fresh : b.started = false)
include runs noDue fresh

/-- With no register pending the block starts, and its read entries deliver. -/
theorem exec_blockStart_starts (idle : n.ctl.pending = 0) : exec (.blockStart i) s
    = .next (deliverAll (startedBlock s i n b.words) i (readDeliveries n.ctl b.words)) := by
  have ready : (awaitedRegs b.words).any n.ctl.isPending = false := by
    simp only [List.any_eq_false, Ctl.isPending, idle]
    intro r _
    simp
  have fires : n.canFire = true := by simp [Inst.canFire, Inst.goesOn, runs, noDue]
  rw [exec_blockStart]
  simp only [execBlockStart, inst, blk, fires, fresh, ready, State.takeFresh, startedBlock, acquireTokens_cycle, Bool.not_false,
    Bool.and_self, if_true]

end Start

/-- Settles O37: by the block's start, which acquires what tokens it reads and delivers its read entries in order. -/
theorem blockStartDeliversItsRegisters : Obligations.BlockStartDeliversItsRegisters := by
  unfold Obligations.BlockStartDeliversItsRegisters
  intro s i n b inst blk runs noDue fresh
  refine ⟨?waits, fun idle => ?delivers, fun idle => ?acquires⟩
  case waits =>
    rintro ⟨k, ⟨hk, pending⟩ | ⟨hk, pending⟩⟩
    · refine exec_blockStart_waits inst blk (List.mem_append_left _ (List.mem_append_left _ ?_)) pending
      exact List.mem_map_of_mem (List.mem_range.mpr hk)
    · refine exec_blockStart_waits inst blk (List.mem_append_left _ (List.mem_append_right _ ?_)) pending
      exact List.mem_map_of_mem (List.mem_range.mpr hk)
  case delivers =>
    rw [exec_blockStart_starts inst blk runs noDue fresh idle, deliverAll_readDeliveries]
    rfl
  case acquires =>
    have touched : SlotOnly i _ (deliverAll (startedBlock s i n b.words) i (readDeliveries n.ctl b.words)) :=
      (SlotOnly.modBlk i _ _).trans (SlotOnly.deliverAll _ _ _)
    refine ⟨_, exec_blockStart_starts inst blk runs noDue fresh idle, ?_⟩
    obtain ⟨bl, du, after⟩ := touched
    rw [after]
    exact ⟨acquireTokens_mem s i n b.words, fun ⟨k, hk, token⟩ => acquireTokens_cache hk token,
      fun plain => (congrArg State.cores (acquireTokens_plain plain) : (acquireTokens s i n b.words).cores = s.cores)⟩

/-! ## BLOCK_STALL -/

/-- The fault of a context's block, when none is due yet, by the block (R198, R209). -/
theorem raise_eq {s : State} {i : Nat} {n : Inst} {b : Block} (inst : s.inst? i = some n) (blk : n.ctl.blk = some b)
    (noDue : n.ctl.due = none) (code slot : Nat) (addr : Word) : raise s i code slot addr = s.modCtl i fun c =>
      { c with due := some ⟨code, b.addr, slot, addr, none, none, 0⟩
               blk := some (b.faulted (s.outb.any fun o => o.agent == .ctl i)) } := by
  unfold raise
  exact State.modCtl_congr inst (by simp only [noDue, blk])

/-- A block not bound loses its request at a fault exactly when it has SER and an earlier write is held in the core. -/
theorem faulted_unbound {b : Block} (unbound : b.bound = false) (outb : List Outb) (i : Nat) :
    b.faulted (outb.any fun o => o.agent == .ctl i)
      = if ser b.words = true ∧ (∃ o ∈ outb, o.agent = .ctl i) then { b with req := none } else b := by
  simp only [Block.faulted, unbound, Bool.not_false, Bool.and_true, Bool.and_eq_true, List.any_eq_true, beq_iff_eq]
  exact if_congr and_comm rfl rfl

/-- The timer of a started block raises BLOCK_STALL at its limit, unless the block is bound or waits for a decision. -/
theorem exec_blockStall_late {s : State} {i : Nat} {n : Inst} {b : Block} (inst : s.inst? i = some n) (blk : n.ctl.blk = some b)
    (runs : n.life = .running) (noDue : n.ctl.due = none) (started : b.started = true) : exec (.blockStall i) s
      = .next (if b.bound = false ∧ undecided s i b = false ∧ stallLimit b.words ≤ s.cycle - b.runFrom - b.excluded
          then raise s i codeBlockStall 0xC5 0 else s) := by
  have fires : n.canFire = true := by simp [Inst.canFire, Inst.goesOn, runs, noDue]
  simp only [exec_blockStall, execBlockStall, inst, blk, fires, started, Bool.true_and, Bool.and_eq_true,
    Bool.not_eq_true', decide_eq_true_eq, and_assoc]

/-- Settles O41: the timer's condition, and the fault that it raises. -/
theorem blockStallTimer : Obligations.BlockStallTimer := by
  unfold Obligations.BlockStallTimer
  intro s i n b inst blk runs noDue started
  have limit : stallLimit b.words = if isFabric b.words = true ∨ budget b.words = 0 then 1048576 else 4 * budget b.words := by
    simp only [stallLimit, Bool.or_eq_true, beq_iff_eq]
  have stalls := exec_blockStall_late inst blk runs noDue started
  dsimp only
  rw [← limit, stalls]
  refine ⟨fun unbound decided late => ?_, fun stays => ?_⟩
  · rw [if_pos ⟨unbound, decided, late⟩, raise_eq inst blk noDue, faulted_unbound unbound]
    rfl
  · refine congrArg Host.Outcome.next (if_neg ?_)
    rintro ⟨unbound, decided, late⟩
    rcases stays with bound | waits | early
    · exact absurd (bound.symm.trans unbound) (by decide)
    · exact absurd (waits.symm.trans decided) (by decide)
    · omega

end Sys2Proof.Machine

end

section
/-! PROOFS. TRAP_ENTRY (R209, R380, R381, R383): what discarding a block and ending an instance leave of it, and the entry into
the handler. -/

namespace Sys2Proof.Machine

open Sys2Proof.Bits Sys2Proof.Rows

/-! ## Steps that change of an instance its region alone (R178, R307, R376) -/

/-- Instance `i` is `n` but for its region. -/
def IsButRegion (s : State) (i : Nat) (n : Inst) : Prop := ∃ reg, s.inst? i = some { n with reg }

theorem IsButRegion.of_inst {s : State} {i : Nat} {n : Inst} (inst : s.inst? i = some n) : IsButRegion s i n := ⟨n.reg, inst⟩

section Keeps

variable {s : State} {i : Nat} {n : Inst}

theorem IsButRegion.modReg (h : IsButRegion s i n) (f : Region → Region) : IsButRegion (s.modReg i f) i n := by
  obtain ⟨reg, inst⟩ := h
  exact ⟨reg.map f, by rw [State.modReg, State.inst_modInst_self, inst]; rfl⟩

theorem IsButRegion.modCtl (h : IsButRegion s i n) (f : Ctl → Ctl) :
    IsButRegion (s.modCtl i f) i { n with ctl := f n.ctl } := by
  obtain ⟨reg, inst⟩ := h
  exact ⟨reg, by rw [State.inst_modCtl_self, inst]; rfl⟩

theorem IsButRegion.keeps {t : State} (h : IsButRegion s i n) (k : KeepsAskers s t) : IsButRegion t i n := by
  obtain ⟨reg, inst⟩ := h
  exact ⟨reg, (k.inst i).trans inst⟩

theorem IsButRegion.returnLeave (h : IsButRegion s i n) : IsButRegion (returnLeave s i) i n := by
  obtain ⟨reg, inst⟩ := h
  cases reg with
  | none => exact ⟨none, by simp only [Machine.returnLeave, inst]⟩
  | some r =>
    obtain ⟨-, leave, returned⟩ := returnLeave_leaves inst rfl
    exact ⟨_, returned⟩

theorem IsButRegion.rollback (h : IsButRegion s i n) : IsButRegion (rollback s i) i n := by
  obtain ⟨reg, inst⟩ := h
  cases reg with
  | none => exact ⟨none, by simp only [Machine.rollback, inst]⟩
  | some r =>
    cases iters : r.iters with
    | nil => exact ⟨_, by simp only [Machine.rollback, inst, iters]; exact inst_modReg inst rfl _⟩
    | cons it rest =>
      obtain ⟨remarks, ksets, replayed, rolled⟩ := rollback_inst inst rfl iters
      exact ⟨_, rolled⟩

theorem IsButRegion.stopRegion (h : IsButRegion s i n) : IsButRegion (stopRegion s i) i n := h.rollback.returnLeave.modReg _

/-- A block discarded leaves its context at a boundary; of the instance nothing changes beside that and the region's leave. -/
theorem discardBlock_inst (inst : s.inst? i = some n) :
    ∃ next, IsButRegion (discardBlock s i) i { n with ctl := { n.ctl with blk := none, next } } := by
  unfold discardBlock
  rw [inst]
  dsimp only
  split
  · rename_i noBlock
    exact ⟨n.ctl.next, .of_inst (inst.trans (by rw [← noBlock]))⟩
  · rename_i b _
    have put (u : State) (same : u.insts = s.insts) : IsButRegion
        ((if b.acts.contains .frun then returnLeave u i else u).modCtl i fun c => { c with blk := none, next := b.addr }) i
        { n with ctl := { n.ctl with blk := none, next := b.addr } } := by
      have stands : IsButRegion u i n := .of_inst ((congrArg (aget i) same).trans inst)
      have withdrawn : IsButRegion (if b.acts.contains .frun then returnLeave u i else u) i n := by
        split
        · exact stands.returnLeave
        · exact stands
      exact withdrawn.modCtl _
    refine ⟨b.addr, ?_⟩
    split
    · refine (put _ ?_).keeps (.countCore _ n.cluster 0x011 1)
      exact dropWalks_insts _ _
    · refine put _ ?_
      exact dropWalks_insts _ _

/-- An instance as a fault ends it (R383). -/
def Inst.endedBy (n : Inst) (c : Nat) : Inst :=
  { n with life := .ended, faultEnd := some c, ctl := { n.ctl with blk := none, due := none, async := [], wait := [] } }

theorem IsButRegion.ended (h : IsButRegion s i n) (c : Nat) :
    ∃ n', (s.modInst i fun n => n.endedBy c).inst? i = some n' ∧ n'.life = .ended ∧ n'.faultEnd = some c := by
  obtain ⟨reg, inst⟩ := h
  exact ⟨Inst.endedBy { n with reg } c, by rw [State.inst_modInst_self, inst]; rfl, rfl, rfl⟩

theorem endInstance_inst (inst : s.inst? i = some n) (c : Nat) :
    ∃ n', (endInstance s i c).inst? i = some n' ∧ n'.life = .ended ∧ n'.faultEnd = some c := by
  obtain ⟨next, discarded⟩ := discardBlock_inst inst
  obtain ⟨n', ended, life, fault⟩ := discarded.stopRegion.ended c
  refine ⟨n', ?_, life, fault⟩
  simp only [endInstance, inst]
  rw [State.logInst, State.inst?, logFault_insts]
  exact ended

/-! ## Taking a trap (R381) -/

theorem badHandler_of_aligned {h : Word} (nonzero : h ≠ 0) (aligned : h.toNat % 64 = 0) : badHandler h = false := by
  simp only [badHandler, beq_eq_false_iff_ne.mpr nonzero, aligned, bne_self_eq_false, Bool.or_self]

/-- The state in which a trap has set the fault registers and the level, and the vector is read. -/
def trapEntered (s : State) (i : Nat) (t : TrapInfo) : State :=
  (dropWalks s fun w => w.by_ == .fetch i).modCtl i fun c => c.enterTrap t

theorem trapEntered_inst (inst : s.inst? i = some n) (t : TrapInfo) :
    (trapEntered s i t).inst? i = some { n with ctl := n.ctl.enterTrap t } := by
  have dropped : (dropWalks s fun w => w.by_ == .fetch i).inst? i = some n :=
    (congrArg (aget i) (dropWalks_insts _ _)).trans inst
  rw [trapEntered, State.inst_modCtl_self, dropped]
  rfl

/-- With VECBASE 0 the instance ends with the fault. -/
theorem takeTrap_ends (inst : s.inst? i = some n) (t : TrapInfo) (unset : n.ctl.vecbase = 0) :
    ∃ u n', takeTrap s i t = some u ∧ u.inst? i = some n' ∧ n'.life = .ended ∧ n'.faultEnd = some t.code := by
  have entered := trapEntered_inst inst t
  obtain ⟨n', ended⟩ := endInstance_inst entered t.code
  refine ⟨_, n', ?_, ended⟩
  have vecbase : (n.ctl.enterTrap t).vecbase = 0 := unset
  unfold trapEntered at entered
  simp only [takeTrap, entered, vecbase, if_true]
  rfl

/-- A vector in ordinary memory without a stored error or poison gives the handler's address. -/
theorem takeTrap_enters {u : State} {p : Piece} (inst : s.inst? i = some n) (t : TrapInfo) (set : n.ctl.vecbase ≠ 0)
    (translated : xlate (trapEntered s i t) (some n.cluster) n.cluster (dieOfCore n.cluster) n.ctx .virt
      (n.ctl.vecbase + BitVec.ofNat 64 (t.code * 8)) 8 8 1 ⟨.core, true, false, false, true⟩ true = (u, .ok [p]))
    (flaws : u.flaws = []) (poison : u.poison = []) (ordinary : isDeviceKey p.key = false)
    (good : badHandler (BitVec.ofNat 64 (leNat (u.bytes p.key p.n))) = false) :
    takeTrap s i t = some (u.modCtl i fun c => { c with next := BitVec.ofNat 64 (leNat (u.bytes p.key p.n)) }) := by
  have entered := trapEntered_inst inst t
  unfold trapEntered at entered translated
  have read : readVector ((dropWalks s fun w => w.by_ == .fetch i).modCtl i fun c => c.enterTrap t)
      { n with ctl := n.ctl.enterTrap t } t.code = (u, .at_ (BitVec.ofNat 64 (leNat (u.bytes p.key p.n)))) := by
    have gathered : u.gather [p] = u.bytes p.key p.n := by simp [State.gather]
    have vecbase : (n.ctl.enterTrap t).vecbase = n.ctl.vecbase := rfl
    simp [readVector, vecbase, translated, meetPieces_of_no_flaws flaws, poisonedPieces_of_no_poison poison, ordinary, gathered]
  have vecbase : (n.ctl.enterTrap t).vecbase ≠ 0 := set
  simp only [takeTrap, entered, if_neg vecbase, read, good, Bool.false_eq_true, if_false]

end Keeps

/-! ## TRAP_ENTRY (R380) -/

/-- The state in which the block in flight is put away. -/
def blockPutAway (s : State) (i : Nat) (n : Inst) : State := if n.ctl.blk = none then s else discardBlock s i

/-- The state in which the trap interrupts a HALT wait (R384). -/
def haltLeft (s : State) (i : Nat) (n : Inst) : State := (blockPutAway s i n).modCtl i fun c =>
  { c with inHalt := c.inHalt || n.ctl.wait.contains .halted, wait := c.wait.filter fun w => w != .halted }

section Entry

variable {s : State} {i : Nat} {n : Inst} (inst : s.inst? i = some n)

theorem clearBlock_puts_away (free : n.ctl.blk = none ∨ ∃ b, n.ctl.blk = some b ∧ b.bound = false ∧ undecided s i b = false)
    (sync : Bool) : clearBlock s i n sync = some (blockPutAway s i n) := by
  rcases free with none | ⟨b, blk, unbound, decided⟩
  · simp only [clearBlock, blockPutAway, none, if_true]
  · simp only [clearBlock, blockPutAway, blk, unbound, decided, reduceCtorEq, Bool.false_eq_true, if_false]

include inst

theorem blockPutAway_inst : ∃ next, IsButRegion (blockPutAway s i n) i { n with ctl := { n.ctl with blk := none, next } } := by
  unfold blockPutAway
  split
  · rename_i noBlock
    exact ⟨n.ctl.next, .of_inst (inst.trans (by rw [← noBlock]))⟩
  · exact discardBlock_inst inst

theorem haltLeft_inst : ∃ m, (haltLeft s i n).inst? i = some m ∧ m.cluster = n.cluster ∧ m.ctx = n.ctx
    ∧ m.ctl.regs = n.ctl.regs ∧ m.ctl.vecbase = n.ctl.vecbase ∧ m.ctl.cur = n.ctl.cur := by
  obtain ⟨next, away⟩ := blockPutAway_inst inst
  obtain ⟨reg, halted⟩ := away.modCtl _
  exact ⟨_, halted, rfl, rfl, rfl, rfl, rfl⟩

variable (runs : n.life = .running) (noReset : underReset s i = false)
  (free : n.ctl.blk = none ∨ ∃ b, n.ctl.blk = some b ∧ b.bound = false ∧ undecided s i b = false)
include runs noReset

theorem exec_trapEntry_level (noDue : n.ctl.due = none) (level : n.ctl.cur = true) : exec (.trapEntry i) s = .next s := by
  rw [exec_trapEntry]
  simp only [execTrapEntry, inst, runs, noReset, noDue, level, if_true]
  cases n.ctl.async <;> rfl

include free

theorem exec_trapEntry_due {tr : TrapInfo} (due : n.ctl.due = some tr) :
    exec (.trapEntry i) s = .next ((takeTrap (haltLeft s i n) i tr).getD s) := by
  rw [exec_trapEntry]
  simp only [execTrapEntry, inst, runs, noReset, due, clearBlock_puts_away free]
  rfl

theorem exec_trapEntry_async {tr : TrapInfo} {rest : List TrapInfo} (noDue : n.ctl.due = none)
    (async : n.ctl.async = tr :: rest) (level : n.ctl.cur = false) (unset : n.ctl.vecbase = 0) :
    ∃ t n', exec (.trapEntry i) s = .next t ∧ t.inst? i = some n' ∧ n'.life = .ended ∧ n'.faultEnd = some tr.code := by
  obtain ⟨next, away⟩ := blockPutAway_inst inst
  obtain ⟨reg, left⟩ := away.modCtl fun c => { c with
    async := rest, inHalt := c.inHalt || n.ctl.wait.contains .halted, wait := c.wait.filter fun w => w != .halted }
  obtain ⟨t, n', taken, ended⟩ := takeTrap_ends left
    { tr with blk := if n.ctl.wait.contains .halted then 0 else match n.ctl.blk with | some b => b.addr | none => n.ctl.next } unset
  refine ⟨t, n', ?_, ended⟩
  rw [exec_trapEntry]
  simp only [execTrapEntry, inst, runs, noReset, noDue, async, level, takeAsync, clearBlock_puts_away free]
  exact congrArg (fun u => Host.Outcome.next (Option.getD u s)) taken

end Entry

/-- Settles O42: a trap puts the block away, which leaves the registers, VECBASE and the level as they are; `Ctl.enterTrap` then
sets the fault registers, and the vector names the handler, or ends the instance where there is none. -/
theorem trapEntryTakesTheFault : Obligations.TrapEntryTakesTheFault := by
  unfold Obligations.TrapEntryTakesTheFault
  intro s i n tr inst runs noReset free
  dsimp only
  refine ⟨fun u p due set translated same whole flaws poison ordinary nonzero aligned => ?_, fun due unset => ?_,
    fun noDue _ level => exec_trapEntry_level inst runs noReset noDue level,
    fun rest noDue async level unset => exec_trapEntry_async inst runs noReset free noDue async level unset⟩
  · obtain ⟨m, halted, cluster, ctx, regs, vecbase, cur⟩ := haltLeft_inst inst
    have good : badHandler (BitVec.ofNat 64 (leNat (u.bytes p.key p.n))) = false := by
      rw [whole]
      exact badHandler_of_aligned nonzero aligned
    have taken := takeTrap_enters halted tr (by rwa [vecbase]) (by rw [cluster, ctx, vecbase]; exact translated)
      flaws poison ordinary good
    have entered : u.inst? i = some { m with ctl := m.ctl.enterTrap tr } :=
      (congrArg (aget i) same).trans (trapEntered_inst halted tr)
    rw [whole] at taken
    have handled : exec (.trapEntry i) s = Host.Outcome.next _ :=
      (exec_trapEntry_due inst runs noReset free due).trans (congrArg (fun v => Host.Outcome.next (Option.getD v s)) taken)
    have next : (u.modCtl i fun c => { c with next := BitVec.ofNat 64 (leNat (u.bytes p.key 8)) }).inst? i
        = some { m with ctl := { m.ctl.enterTrap tr with next := BitVec.ofNat 64 (leNat (u.bytes p.key 8)) } } := by
      rw [State.inst_modCtl_self, entered]
      rfl
    exact ⟨_, _, handled, next, regs, rfl, rfl, rfl, rfl, rfl, rfl, cur, rfl, rfl⟩
  · obtain ⟨m, halted, cluster, ctx, regs, vecbase, cur⟩ := haltLeft_inst inst
    obtain ⟨t, n', taken, ended⟩ := takeTrap_ends halted tr (vecbase.trans unset)
    exact ⟨t, n', by rw [exec_trapEntry_due inst runs noReset free due, taken]; rfl, ended⟩

end Sys2Proof.Machine

end

section
/-! PROOFS. The results of the G slots (O13 to O20): the model's arithmetic on the readings u(v) and s(v) of R224 is that of bit
vectors of the operation width. -/

namespace Sys2Proof.Machine

open Sys2Proof.Bits Sys2Proof.Rows

/-! ## Operands and results at an operation width (R224) -/

theorem uOf_eq_toNat (n : Nat) (v : Word) : uOf n v = (v.setWidth n).toNat := (BitVec.toNat_setWidth n v).symm

theorem sOf_eq_toInt (n : Nat) (v : Word) : sOf n v = (v.setWidth n).toInt := by
  rw [sOf, sextI_mod, BitVec.ofNat_toNat]

theorem shOf_eq_mod (n : Nat) (v : Word) : shOf n v = (v.setWidth n).toNat % n := by rw [shOf, uOf_eq_toNat]

/-- A G slot that computes delivers its result under WIDTH. -/
theorem delivers_of_aluOp {x : Instr} {opc : Nat} {f : GOp} {res : Nat → Word → Word → Int} {v : Firing → Word}
    (hx : x.slotFields = some (opc, .g f)) (ha : translatesAhead opc = false) (he : ∀ s, exec x s = aluOp opc f s res)
    (hv : ∀ fr : Firing, maskToWidth (res (opWidth f.w) fr.l (rightVal f fr.r)) f.w = v fr) : Delivers x [f.t1, f.t2] v := by
  intro s fr fires
  rw [he, aluOp, fireOp_of_firing _ hx ha fires, rightOf_eq, hv]

/-- A condition's value, under any WIDTH. -/
theorem maskToWidth_boolInt (c : Bool) (w : Width) : maskToWidth (boolInt c) w = if c then 1 else 0 := by
  cases c <;> cases w <;> rfl

section GSlot

variable {mk : GOp → Instr} {opc : Nat} {res : Nat → Word → Word → Int} (hx : ∀ f, (mk f).slotFields = some (opc, .g f))
  (ha : translatesAhead opc = false) (he : ∀ f s, exec (mk f) s = aluOp opc f s res)
include hx ha he

/-- A result that is an operation's at each of the two widths. -/
theorem computes_of_aluOp {op64 : BitVec 64 → BitVec 64 → BitVec 64} {op32 : BitVec 32 → BitVec 32 → BitVec 32}
    (h64 : ∀ a b, BitVec.ofInt 64 (res 64 a b) = op64 a b)
    (h32 : ∀ a b, BitVec.ofInt 32 (res 32 a b) = op32 (low32 a) (low32 b)) : Computes mk op64 op32 := by
  intro f
  refine delivers_of_aluOp (hx f) ha (he f) fun fr => ?_
  rw [maskToWidth_eq, atWidth]
  cases f.w <;> simp only [opWidth, byWidth, h64, h32]

/-- A result that is one operation's at every width. -/
theorem computes_at_widths (op : (n : Nat) → BitVec n → BitVec n → BitVec n)
    (hop : ∀ n, 0 < n → ∀ a b : Word, BitVec.ofInt n (res n a b) = op n (a.setWidth n) (b.setWidth n)) :
    Computes mk (op 64) (op 32) := by
  refine computes_of_aluOp hx ha he (fun a b => ?_) (hop 32 (by decide))
  rw [hop 64 (by decide), BitVec.setWidth_eq, BitVec.setWidth_eq]

/-- A test whose condition is one condition at every width. -/
theorem tests_at_widths {c : (n : Nat) → BitVec n → BitVec n → Bool}
    (hc : ∀ n, ∀ a b : Word, res n a b = boolInt (c n (a.setWidth n) (b.setWidth n))) : Tests mk c := by
  intro f
  refine delivers_of_aluOp (hx f) ha (he f) fun fr => ?_
  rw [hc, maskToWidth_boolInt]
  cases f.w
  case d => rw [show opWidth Width.d = 64 from rfl, BitVec.setWidth_eq, BitVec.setWidth_eq]
  all_goals rfl

end GSlot

/-- WIDTH's masking of a number that 64 bits hold modulo 2^64. -/
theorem maskToWidth_put (v : Int) (w : Width) :
    maskToWidth v w = byWidth w (BitVec.ofInt 64 v) (low32 (BitVec.ofInt 64 v)) := by
  have low : BitVec.ofInt 32 v = low32 (BitVec.ofInt 64 v) := by
    apply BitVec.eq_of_toNat_eq
    simp only [low32, BitVec.toNat_setWidth, BitVec.toNat_ofInt]
    omega
  rw [maskToWidth_eq, low]

theorem maskToWidth_natCast (v : Nat) (w : Width) : maskToWidth v w = byWidth w (BitVec.ofNat 64 v) (BitVec.ofNat 32 v) := by
  rw [maskToWidth_eq, BitVec.ofInt_natCast, BitVec.ofInt_natCast]

/-- A word under WIDTH. -/
theorem maskToWidth_uOf (v : Word) (w : Width) : maskToWidth (uOf (opWidth w) v) w = byWidth w v (low32 v) := by
  rw [maskToWidth_natCast]
  cases w <;> simp [opWidth, byWidth]

/-! ## Constants and fan-out (R226 to R228) -/

/-- APPI's operand moved up 24 bits, with the immediate below. -/
theorem ofInt_append24 {n : Nat} (a : Word) (k : BitVec 24) :
    BitVec.ofInt n (a.toNat * 2 ^ 24 + k.toNat) = (a.setWidth n <<< 24) ||| k.setWidth n := by
  have moved : BitVec.ofNat n (a.toNat <<< 24) = a.setWidth n <<< 24 := by
    apply BitVec.eq_of_toNat_eq
    simp only [BitVec.toNat_ofNat, BitVec.toNat_shiftLeft, BitVec.toNat_setWidth, Nat.shiftLeft_eq, Nat.mod_mul_mod]
  calc BitVec.ofInt n (a.toNat * 2 ^ 24 + k.toNat)
    _ = BitVec.ofNat n (a.toNat <<< 24 + k.toNat) := by
      rw [Nat.shiftLeft_eq]
      exact_mod_cast BitVec.ofInt_natCast n (a.toNat * 2 ^ 24 + k.toNat)
    _ = (a.setWidth n <<< 24) ||| k.setWidth n := by
      rw [Nat.shiftLeft_add_eq_or_of_lt k.isLt, BitVec.ofNat_or, moved, BitVec.ofNat_toNat]

/-- Settles O13: FAN and NULL deliver as their rules say; MOVI and APPI compute their constants at both widths. -/
theorem constantAndFanOutResults : Obligations.ConstantAndFanOutResults := by
  unfold Obligations.ConstantAndFanOutResults
  intro f
  refine ⟨fun s fr fires => ?_, fun s fr fires => ?_, ?_, ?_⟩
  case refine_1 =>
    rw [exec_fan, execFan, fireOp_of_firing _ rfl rfl fires, maskToWidth_uOf, bits_eq_mod, bits_eq_mod, pow_zero, Nat.div_one]
    rfl
  case refine_2 => rw [exec_null, execNull, fireOp_of_firing _ rfl rfl fires]
  case refine_3 =>
    refine delivers_of_aluOp rfl rfl (exec_movi f) fun fr => ?_
    rw [sextI_toInt, maskToWidth_eq]
    rfl
  case refine_4 =>
    refine delivers_of_aluOp rfl rfl (exec_appi f) fun fr => ?_
    rw [maskToWidth_eq, ofInt_append24, ofInt_append24, BitVec.setWidth_eq]
    rfl

/-! ## Arithmetic and logic (R229) -/

section Arithmetic

variable {n : Nat} (x y : BitVec n)

theorem ofInt_toNat : BitVec.ofInt n x.toNat = x := by rw [BitVec.ofInt_natCast, BitVec.ofNat_toNat, BitVec.setWidth_eq]

/-- The high half of a signed product, by the product at twice the width. -/
theorem ofInt_fdiv_eq_high (p : Int) :
    BitVec.ofInt n (p.fdiv (2 ^ n : Nat)) = (BitVec.ofInt (2 * n) p >>> n).setWidth n := by
  have square : (2 : Int) ^ (2 * n) = 2 ^ n * 2 ^ n := by rw [two_mul, pow_add]
  have wrap : p % (2 ^ n * 2 ^ n) = p - 2 ^ n * (2 ^ n * (p / (2 ^ n * 2 ^ n))) := by rw [Int.emod_def, mul_assoc]
  have pos : (0 : Int) < 2 ^ n := by positivity
  apply BitVec.eq_of_toNat_eq
  rw [Int.fdiv_eq_ediv_of_nonneg _ (by positivity)]
  simp only [BitVec.toNat_setWidth, BitVec.toNat_ofInt, BitVec.toNat_ushiftRight, Nat.shiftRight_eq_div_pow]
  zify
  rw [Int.toNat_of_nonneg (Int.emod_nonneg _ pos.ne'), Int.toNat_of_nonneg (Int.emod_nonneg _ (pow_pos two_pos _).ne'),
    square, wrap, Int.sub_mul_ediv_left _ _ pos.ne', Int.sub_mul_emod_self_left]

theorem ofInt_mulh : BitVec.ofInt n ((x.toInt * y.toInt).fdiv (2 ^ n : Nat))
    = ((x.signExtend (2 * n) * y.signExtend (2 * n)) >>> n).setWidth n := by
  rw [ofInt_fdiv_eq_high, BitVec.ofInt_mul]
  rfl

theorem ofInt_mulhu : BitVec.ofInt n (x.toNat * y.toNat / 2 ^ n)
    = ((x.setWidth (2 * n) * y.setWidth (2 * n)) >>> n).setWidth n := by
  have product : BitVec.ofInt (2 * n) (x.toNat * y.toNat) = x.setWidth (2 * n) * y.setWidth (2 * n) := by
    rw [BitVec.ofInt_mul, BitVec.ofInt_natCast, BitVec.ofInt_natCast, BitVec.ofNat_toNat, BitVec.ofNat_toNat]
  rw [← product, ← ofInt_fdiv_eq_high, Int.fdiv_eq_ediv_of_nonneg _ (by positivity)]
  push_cast
  rfl

theorem ofInt_sub : BitVec.ofInt n (x.toNat - y.toNat) = x - y := by
  rw [Int.sub_eq_add_neg, BitVec.ofInt_add, BitVec.ofInt_neg, ofInt_toNat, ofInt_toNat, BitVec.sub_eq_add_neg]

theorem ofInt_min : BitVec.ofInt n (min x.toInt y.toInt) = if x.slt y then x else y := by
  rw [← BitVec.ofInt_toInt (x := if x.slt y then x else y)]
  congr 1
  split <;> rename_i less <;> rw [BitVec.slt_iff_toInt_lt] at less <;> omega

theorem ofInt_max : BitVec.ofInt n (max x.toInt y.toInt) = if x.slt y then y else x := by
  rw [← BitVec.ofInt_toInt (x := if x.slt y then y else x)]
  congr 1
  split <;> rename_i less <;> rw [BitVec.slt_iff_toInt_lt] at less <;> omega

theorem ofInt_minu : BitVec.ofInt n (min x.toNat y.toNat : Nat) = if x.ult y then x else y := by
  rw [← ofInt_toNat (if x.ult y then x else y)]
  congr 2
  split <;> rename_i less <;> rw [BitVec.ult_iff_toNat_lt] at less <;> omega

theorem ofInt_maxu : BitVec.ofInt n (max x.toNat y.toNat : Nat) = if x.ult y then y else x := by
  rw [← ofInt_toNat (if x.ult y then y else x)]
  congr 2
  split <;> rename_i less <;> rw [BitVec.ult_iff_toNat_lt] at less <;> omega

end Arithmetic

/-- Settles O14: each result is that of a bit-vector operation, at every width. -/
theorem arithmeticAndLogicResults : Obligations.ArithmeticAndLogicResults := by
  unfold Obligations.ArithmeticAndLogicResults
  refine ⟨?_, ?_, ?_, ?_, ?_, ?_, ?_, ?_, ?_, ?_, ?_, ?_, ?_⟩
  · refine computes_at_widths (fun _ => rfl) rfl exec_add (fun _ a b => a + b) fun n _ a b => ?_
    rw [uOf_eq_toNat, uOf_eq_toNat, BitVec.ofInt_add, ofInt_toNat, ofInt_toNat]
  · refine computes_at_widths (fun _ => rfl) rfl exec_sub (fun _ a b => a - b) fun n _ a b => ?_
    rw [uOf_eq_toNat, uOf_eq_toNat, ofInt_sub]
  · refine computes_at_widths (fun _ => rfl) rfl exec_mul (fun _ a b => a * b) fun n _ a b => ?_
    rw [sOf_eq_toInt, sOf_eq_toInt, BitVec.ofInt_mul, BitVec.ofInt_toInt, BitVec.ofInt_toInt]
  · refine computes_at_widths (fun _ => rfl) rfl exec_mulh
      (fun n a b => ((a.signExtend (2 * n) * b.signExtend (2 * n)) >>> n).setWidth n) fun n _ a b => ?_
    rw [sOf_eq_toInt, sOf_eq_toInt, ofInt_mulh]
  · refine computes_at_widths (fun _ => rfl) rfl exec_mulhu
      (fun n a b => ((a.setWidth (2 * n) * b.setWidth (2 * n)) >>> n).setWidth n) fun n _ a b => ?_
    rw [uOf_eq_toNat, uOf_eq_toNat, ofInt_mulhu]
  · refine computes_at_widths (fun _ => rfl) rfl exec_and (fun _ a b => a &&& b) fun n _ a b => ?_
    rw [uOf_eq_toNat, uOf_eq_toNat, ← BitVec.toNat_and, ofInt_toNat]
  · refine computes_at_widths (fun _ => rfl) rfl exec_or (fun _ a b => a ||| b) fun n _ a b => ?_
    rw [uOf_eq_toNat, uOf_eq_toNat, ← BitVec.toNat_or, ofInt_toNat]
  · refine computes_at_widths (fun _ => rfl) rfl exec_xor (fun _ a b => a ^^^ b) fun n _ a b => ?_
    rw [uOf_eq_toNat, uOf_eq_toNat, ← BitVec.toNat_xor, ofInt_toNat]
  · refine computes_of_aluOp (fun _ => rfl) rfl exec_andn (fun a b => ?_) fun a b => ?_
    · rw [uOf_64, ofInt_toNat]
    · rw [uOf_32, ofInt_toNat, low32, BitVec.setWidth_and, BitVec.setWidth_not (by decide)]
      rfl
  · refine computes_at_widths (fun _ => rfl) rfl exec_min (fun _ a b => if a.slt b then a else b) fun n _ a b => ?_
    rw [sOf_eq_toInt, sOf_eq_toInt, ofInt_min]
  · refine computes_at_widths (fun _ => rfl) rfl exec_max (fun _ a b => if a.slt b then b else a) fun n _ a b => ?_
    rw [sOf_eq_toInt, sOf_eq_toInt, ofInt_max]
  · refine computes_at_widths (fun _ => rfl) rfl exec_minu (fun _ a b => if a.ult b then a else b) fun n _ a b => ?_
    rw [uOf_eq_toNat, uOf_eq_toNat, ofInt_minu]
  · refine computes_at_widths (fun _ => rfl) rfl exec_maxu (fun _ a b => if a.ult b then b else a) fun n _ a b => ?_
    rw [uOf_eq_toNat, uOf_eq_toNat, ofInt_maxu]

/-! ## Saturation (R231) -/

theorem clampI_eq {v lo hi : Int} (h : lo ≤ hi) : clampI v lo hi = max lo (min hi v) := by
  unfold clampI
  split <;> [skip; split] <;> omega

/-- The signed range of an operation width. -/
theorem clampI_signed (v : Int) (n : Nat) : clampI v (sMin n) (-1 - sMin n) = max (-(2 ^ (n - 1))) (min (2 ^ (n - 1) - 1) v) := by
  have pos : (0 : Int) < 2 ^ (n - 1) := by positivity
  have least : sMin n = -(2 ^ (n - 1)) := by simp [sMin]
  rw [least, clampI_eq (by omega), show (-1 - -(2 : Int) ^ (n - 1)) = 2 ^ (n - 1) - 1 by ring]

/-- The unsigned range of an operation width. -/
theorem clampI_unsigned (v : Int) (n : Nat) : clampI v 0 ((2 ^ n : Nat) - 1) = max 0 (min (2 ^ n - 1) v) := by
  have pos : (0 : Int) < 2 ^ n := by positivity
  rw [Nat.cast_pow, Nat.cast_ofNat, clampI_eq (by omega)]

/-- Settles O16: the range of the width is that of the clamp; an unsigned sum passes its range only above, and an unsigned
difference only below. -/
theorem saturatingResults : Obligations.SaturatingResults := by
  unfold Obligations.SaturatingResults
  refine ⟨?_, ?_, ?_, ?_⟩
  · refine computes_at_widths (fun _ => rfl) rfl exec_adds
      (fun n a b => BitVec.ofInt n (max (-(2 ^ (n - 1))) (min (2 ^ (n - 1) - 1) (a.toInt + b.toInt)))) fun n _ a b => ?_
    rw [sOf_eq_toInt, sOf_eq_toInt, clampI_signed]
  · refine computes_at_widths (fun _ => rfl) rfl exec_subs
      (fun n a b => BitVec.ofInt n (max (-(2 ^ (n - 1))) (min (2 ^ (n - 1) - 1) (a.toInt - b.toInt)))) fun n _ a b => ?_
    rw [sOf_eq_toInt, sOf_eq_toInt, clampI_signed]
  · refine computes_at_widths (fun _ => rfl) rfl exec_addus
      (fun n a b => BitVec.ofNat n (min (2 ^ n - 1) (a.toNat + b.toNat))) fun n _ a b => ?_
    have whole : (0 : Int) < 2 ^ n := by positivity
    rw [uOf_eq_toNat, uOf_eq_toNat, clampI_unsigned, ← BitVec.ofInt_natCast, Nat.cast_min, Nat.cast_add,
      Nat.cast_pred (by positivity), Nat.cast_pow, Nat.cast_ofNat, max_eq_right (by omega)]
  · refine computes_at_widths (fun _ => rfl) rfl exec_subus (fun n a b => BitVec.ofNat n (a.toNat - b.toNat)) fun n _ a b => ?_
    have bound : ((a.setWidth n).toNat : Int) < 2 ^ n := by exact_mod_cast (a.setWidth n).isLt
    rw [uOf_eq_toNat, uOf_eq_toNat, clampI_unsigned, ← BitVec.ofInt_natCast]
    congr 1
    omega

/-! ## Division (R230) -/

section Division

variable {n : Nat} (x y : BitVec n)

/-- A division of signed operands: the quotient wraps for the most negative dividend by -1. -/
theorem divide_signed (hn : 0 < n) : BitVec.ofInt n (divide x.toInt y.toInt n true).1 = x.sdiv y
    ∧ BitVec.ofInt n (divide x.toInt y.toInt n true).2.1 = x.srem y
    ∧ (divide x.toInt y.toInt n true).2.2 = (y == 0) := by
  have quotient : BitVec.ofInt n (x.toInt.tdiv y.toInt) = x.sdiv y :=
    BitVec.eq_of_toInt_eq (by rw [BitVec.toInt_ofInt, BitVec.toInt_sdiv])
  have remainder : BitVec.ofInt n (x.toInt - x.toInt.tdiv y.toInt * y.toInt) = x.srem y := by
    rw [← BitVec.ofInt_toInt (x := x.srem y), BitVec.toInt_srem, Int.tmod_def, Int.mul_comm]
  unfold divide
  split
  · rename_i zero
    obtain rfl : y = 0 := BitVec.eq_of_toInt_eq (zero.trans BitVec.toInt_zero.symm)
    simp
  · rename_i nonzero
    have flag : (y == 0) = false := beq_false_of_ne fun zero => nonzero (zero ▸ BitVec.toInt_zero)
    split
    · rename_i least
      obtain ⟨-, least, minusOne⟩ := least
      obtain rfl : x = BitVec.intMin n := BitVec.eq_of_toInt_eq (by
        rw [least, BitVec.toInt_intMin, Nat.mod_eq_of_lt (Nat.pow_lt_pow_right (by decide) (by omega)), sMin])
      rw [minusOne, Int.tdiv_neg, Int.tdiv_one] at quotient remainder
      refine ⟨?_, ?_, flag.symm⟩
      · rw [← quotient, BitVec.ofInt_neg, BitVec.ofInt_toInt, BitVec.neg_intMin]
      · rw [← remainder]
        congr 1
        ring
    · exact ⟨quotient, remainder, flag.symm⟩

/-- A division of unsigned operands. -/
theorem divide_unsigned : BitVec.ofInt n (divide x.toNat y.toNat n false).1 = x.udiv y
    ∧ BitVec.ofInt n (divide x.toNat y.toNat n false).2.1 = x.umod y
    ∧ (divide x.toNat y.toNat n false).2.2 = (y == 0) := by
  have quotient : BitVec.ofInt n ((x.toNat : Int).tdiv y.toNat) = x.udiv y := by
    rw [← ofInt_toNat (x.udiv y), BitVec.udiv_eq, BitVec.toNat_udiv, Int.ofNat_tdiv]
  have remainder : BitVec.ofInt n (x.toNat - (x.toNat : Int).tdiv y.toNat * y.toNat) = x.umod y := by
    rw [← ofInt_toNat (x.umod y), BitVec.umod_eq, BitVec.toNat_umod, Int.ofNat_tmod, Int.tmod_def, Int.mul_comm]
  unfold divide
  split
  · rename_i zero
    obtain rfl : y = 0 := BitVec.eq_of_toNat_eq (by simpa using zero)
    simp
  · rename_i nonzero
    have flag : (y == 0) = false := beq_false_of_ne fun zero => nonzero (by rw [zero]; simp)
    rw [if_neg (by simp)]
    exact ⟨quotient, remainder, flag.symm⟩

end Division

/-- The divisor is zero at the operation width. -/
def zeroDivisor (f : GOp) (fr : Firing) : Bool :=
  match f.w with
  | .d => rightVal f fr.r == 0
  | _ => low32 (rightVal f fr.r) == 0

/-- DZ noted for the commit of the block. -/
def notedDz (f : GOp) (s : State) (fr : Firing) : State :=
  if zeroDivisor f fr then s.modBlk fr.i fun b => { b with divZero := true } else s

/-- What a dividing slot delivers and notes, by what its division gives at the two widths. -/
theorem exec_of_divOp {x : Instr} {opc : Nat} {f : GOp} {signed : Bool} {pick : Int × Int × Bool → Int}
    {op64 : BitVec 64 → BitVec 64 → BitVec 64} {op32 : BitVec 32 → BitVec 32 → BitVec 32}
    (hx : x.slotFields = some (opc, .g f)) (ha : translatesAhead opc = false) (he : ∀ s, exec x s = divOp opc f s signed pick)
    (h64 : ∀ a b : Word, let q := if signed then divide (sOf 64 a) (sOf 64 b) 64 true else divide (uOf 64 a) (uOf 64 b) 64 false
      BitVec.ofInt 64 (pick q) = op64 a b ∧ q.2.2 = (b == 0))
    (h32 : ∀ a b : Word, let q := if signed then divide (sOf 32 a) (sOf 32 b) 32 true else divide (uOf 32 a) (uOf 32 b) 32 false
      BitVec.ofInt 32 (pick q) = op32 (low32 a) (low32 b) ∧ q.2.2 = (low32 b == 0))
    {s : State} {fr : Firing} (fires : firing x s = some fr) :
    exec x s = .next (fr.done (notedDz f s fr) [f.t1, f.t2] (atWidth f.w op64 op32 fr.l (rightVal f fr.r))) := by
  rw [he, divOp, fireOp_of_firing _ hx ha fires, rightOf_eq]
  dsimp only at h64 h32 ⊢
  rw [maskToWidth_eq, atWidth, notedDz, zeroDivisor]
  cases f.w <;> simp only [opWidth, byWidth, h64, h32]

/-- Settles O15: the model's division is that of bit vectors, its flag that the divisor is zero. -/
theorem divisionResults : Obligations.DivisionResults := by
  unfold Obligations.DivisionResults
  intro f
  refine ⟨fun s fr fires => ?_, fun s fr fires => ?_, fun s fr fires => ?_, fun s fr fires => ?_⟩
  · refine exec_of_divOp rfl rfl (exec_div f) (fun a b => ?_) (fun a b => ?_) fires
    · rw [sOf_64, sOf_64]
      exact ⟨(divide_signed a b (by decide)).1, (divide_signed a b (by decide)).2.2⟩
    · rw [sOf_32, sOf_32]
      exact ⟨(divide_signed (low32 a) (low32 b) (by decide)).1, (divide_signed (low32 a) (low32 b) (by decide)).2.2⟩
  · refine exec_of_divOp rfl rfl (exec_divu f) (fun a b => ?_) (fun a b => ?_) fires
    · rw [uOf_64, uOf_64]
      exact ⟨(divide_unsigned a b).1, (divide_unsigned a b).2.2⟩
    · rw [uOf_32, uOf_32]
      exact ⟨(divide_unsigned (low32 a) (low32 b)).1, (divide_unsigned (low32 a) (low32 b)).2.2⟩
  · refine exec_of_divOp rfl rfl (exec_rem f) (fun a b => ?_) (fun a b => ?_) fires
    · rw [sOf_64, sOf_64]
      exact (divide_signed a b (by decide)).2
    · rw [sOf_32, sOf_32]
      exact (divide_signed (low32 a) (low32 b) (by decide)).2
  · refine exec_of_divOp rfl rfl (exec_remu f) (fun a b => ?_) (fun a b => ?_) fires
    · rw [uOf_64, uOf_64]
      exact (divide_unsigned a b).2
    · rw [uOf_32, uOf_32]
      exact (divide_unsigned (low32 a) (low32 b)).2

/-! ## Shifts and unary operations (R232, R233) -/

section Shifts

variable {n : Nat} (x : BitVec n)

theorem ofInt_shl (k : Nat) : BitVec.ofInt n (x.toNat * 2 ^ k : Nat) = x <<< k := by
  rw [BitVec.ofInt_natCast, ← Nat.shiftLeft_eq]
  exact BitVec.eq_of_toNat_eq (by rw [BitVec.toNat_ofNat, BitVec.toNat_shiftLeft])

theorem ofInt_shr (k : Nat) : BitVec.ofInt n (x.toNat / 2 ^ k : Nat) = x >>> k := by
  rw [← Nat.shiftRight_eq_div_pow, ← BitVec.toNat_ushiftRight, ofInt_toNat]

theorem ofInt_sra (k : Nat) : BitVec.ofInt n (x.toInt.fdiv (2 ^ k : Nat)) = x.sshiftRight k := by
  rw [Int.fdiv_eq_ediv_of_nonneg _ (by positivity), ← Int.shiftRight_eq_div_pow, ← BitVec.toInt_sshiftRight,
    BitVec.ofInt_toInt]

/-- The bits that ROL moves out at the top come in below. -/
theorem rolBy_eq_rotateLeft {k : Nat} (hk : k < n) : rolBy n x.toNat k = (x.rotateLeft k).toNat := by
  have parts : 2 ^ n = 2 ^ k * 2 ^ (n - k) := by rw [← pow_add, Nat.add_sub_cancel' hk.le]
  have low : x.toNat / 2 ^ (n - k) < 2 ^ k := Nat.div_lt_of_lt_mul (by rw [Nat.mul_comm, ← parts]; exact x.isLt)
  have up : x.toNat <<< k % 2 ^ n = (x.toNat % 2 ^ (n - k)) <<< k := by
    rw [parts, Nat.shiftLeft_eq, Nat.shiftLeft_eq, Nat.mul_comm _ (2 ^ k), Nat.mul_mod_mul_left, Nat.mul_comm]
  rw [rolBy, BitVec.toNat_rotateLeft, Nat.mod_eq_of_lt hk, Nat.shiftRight_eq_div_pow, up, ← Nat.shiftLeft_add_eq_or_of_lt low,
    Nat.shiftLeft_eq, parts, Nat.mod_mul, Nat.mul_comm _ (2 ^ k), Nat.mul_add_mod, Nat.mod_eq_of_lt low,
    Nat.mul_add_div (by positivity), Nat.div_eq_of_lt low, Nat.add_zero]
  ring

/-- A rotation to the right is one to the left by what is left of the width. -/
theorem rotateRight_eq_rotateLeft {k : Nat} (hk : k < n) : x.rotateRight k = x.rotateLeft ((n - k) % n) := by
  apply BitVec.eq_of_getLsbD_eq
  intro j hj
  rw [BitVec.getLsbD_rotateLeft, BitVec.getLsbD_rotateRight, Nat.mod_mod, Nat.mod_eq_of_lt hk]
  rcases Nat.eq_zero_or_pos k with rfl | pos
  · simp [hj]
  · simp only [Nat.mod_eq_of_lt (show n - k < n by omega), hj, decide_true, Bool.true_and, Nat.sub_sub_self hk.le,
      Nat.add_comm k]

theorem toNat_lt_of_lt {c : BitVec n} (h : c < BitVec.ofNat n n) : c.toNat < n := by
  simpa [BitVec.lt_def, Nat.mod_eq_of_lt Nat.lt_two_pow_self] using h

theorem ofNat_clzN (hn : 0 < n) : BitVec.ofNat n (clzN n x.toNat) = x.clz := by
  unfold clzN
  split
  · rename_i zero
    exact (BitVec.clz_eq_iff_eq_zero.mpr (BitVec.eq_of_toNat_eq zero)).symm
  · rename_i nonzero
    have nonzeroWord : x ≠ 0 := fun zero => nonzero (by rw [zero]; rfl)
    have low := BitVec.two_pow_sub_clz_le_toNat_of_ne_zero hn nonzeroWord
    have high := BitVec.toNat_lt_two_pow_sub_clz (x := x)
    have small : x.clz.toNat < n := toNat_lt_of_lt (BitVec.clz_lt_iff_ne_zero.mpr nonzeroWord)
    have log : Nat.log2 x.toNat = n - 1 - x.clz.toNat := by
      rw [Nat.log2_eq_iff nonzero]
      exact ⟨low, by rwa [show n - 1 - x.clz.toNat + 1 = n - x.clz.toNat by omega]⟩
    rw [log, show n - 1 - (n - 1 - x.clz.toNat) = x.clz.toNat by omega, BitVec.ofNat_toNat, BitVec.setWidth_eq]

/-- The lowest bit that is set gives the number of trailing zeros. -/
theorem ctzN_of_lowest {n u k : Nat} (hk : k < n) (set : u.testBit k = true) (clear : ∀ j < k, u.testBit j = false) :
    ctzN n u = k := by
  induction n generalizing u k with
  | zero => omega
  | succ n ih =>
    cases k with
    | zero => simp [ctzN, set]
    | succ k =>
      have rest : ctzN n (u / 2) = k := ih (by omega) (by rwa [Nat.testBit_div_two]) fun j hj => by
        rw [Nat.testBit_div_two]
        exact clear _ (by omega)
      simp only [ctzN, clear 0 (by omega), Bool.false_eq_true, if_false, rest, Nat.add_comm]

theorem ctzN_zero (n : Nat) : ctzN n 0 = n := by
  induction n with
  | zero => rfl
  | succ n ih => simp [ctzN, ih, Nat.add_comm]

theorem ofNat_ctzN : BitVec.ofNat n (ctzN n x.toNat) = x.ctz := by
  by_cases zero : x = 0
  · have all : x.ctz = BitVec.ofNat n n := by
      rw [BitVec.ctz_eq_reverse_clz]
      exact BitVec.clz_eq_iff_eq_zero.mpr (BitVec.reverse_eq_zero_iff.mpr zero)
    rw [all, zero, show (0 : BitVec n).toNat = 0 from BitVec.toNat_zero, ctzN_zero]
  · have small : x.ctz.toNat < n := toNat_lt_of_lt (BitVec.ctz_lt_iff_ne_zero.mpr zero)
    rw [ctzN_of_lowest small (BitVec.getLsbD_true_ctz_of_ne_zero zero) fun j hj => BitVec.getLsbD_false_of_lt_ctz hj,
      BitVec.ofNat_toNat, BitVec.setWidth_eq]

theorem popcN_eq_countP (k v : Nat) : popcN k v = (List.range k).countP fun j => v.testBit j := by
  induction k with
  | zero => rfl
  | succ k ih => simp [popcN, ih, List.range_succ, List.countP_append, List.countP_cons]

theorem ofInt_not : BitVec.ofInt n ((2 ^ n : Nat) - 1 - x.toNat) = ~~~x := by
  have bound := x.isLt
  rw [← ofInt_toNat (~~~x), BitVec.toNat_not]
  congr 1
  omega

theorem ofInt_abs : BitVec.ofInt n x.toInt.natAbs = if x.slt 0 then -x else x := by
  have sign : x.slt 0 ↔ x.toInt < 0 := by rw [BitVec.slt_iff_toInt_lt, show (0 : BitVec n).toInt = 0 from BitVec.toInt_zero]
  split <;> rename_i negative <;> rw [sign] at negative
  · rw [Int.ofNat_natAbs_of_nonpos negative.le, BitVec.ofInt_neg, BitVec.ofInt_toInt]
  · rw [Int.natAbs_of_nonneg (by omega), BitVec.ofInt_toInt]

end Shifts

/-! ### BSWAP -/

/-- Byte `k` of a word, by its number. -/
theorem ofNat_div_eq_extract {n : Nat} (x : BitVec n) (k : Nat) : BitVec.ofNat 8 (x.toNat / 2 ^ k) = x.extractLsb' k 8 := by
  rw [← Nat.shiftRight_eq_div_pow]
  rfl

theorem bswapN_64 (x : BitVec 64) : BitVec.ofNat 64 (bswapN 64 x.toNat)
    = x.extractLsb' 0 8 ++ x.extractLsb' 8 8 ++ x.extractLsb' 16 8 ++ x.extractLsb' 24 8
      ++ x.extractLsb' 32 8 ++ x.extractLsb' 40 8 ++ x.extractLsb' 48 8 ++ x.extractLsb' 56 8 := by
  simp only [← ofNat_div_eq_extract]
  unfold bswapN
  simp only [leBytes, List.reverse_cons, List.reverse_nil, List.nil_append, List.cons_append, Nat.div_div_eq_div_mul,
    Nat.reduceDiv, Nat.reduceMul, Nat.reducePow, Nat.div_one]
  iterate 7 rw [ofNat_leNat_cons]
  rw [ofNat_leNat_singleton]

theorem bswapN_32 (x : BitVec 32) : BitVec.ofNat 32 (bswapN 32 x.toNat)
    = x.extractLsb' 0 8 ++ x.extractLsb' 8 8 ++ x.extractLsb' 16 8 ++ x.extractLsb' 24 8 := by
  simp only [← ofNat_div_eq_extract]
  unfold bswapN
  simp only [leBytes, List.reverse_cons, List.reverse_nil, List.nil_append, List.cons_append, Nat.div_div_eq_div_mul,
    Nat.reduceDiv, Nat.reduceMul, Nat.reducePow, Nat.div_one]
  iterate 3 rw [ofNat_leNat_cons]
  rw [ofNat_leNat_singleton]

/-- Settles O17: the amount is taken modulo the width; each result is that of a bit-vector operation. -/
theorem shiftAndUnaryResults : Obligations.ShiftAndUnaryResults := by
  unfold Obligations.ShiftAndUnaryResults
  refine ⟨?_, ?_, ?_, ?_, ?_, ?_, ?_, ?_, ?_, ?_, ?_, ?_⟩
  · refine computes_at_widths (fun _ => rfl) rfl exec_shl (fun n a b => a <<< (b.toNat % n)) fun n _ a b => ?_
    rw [uOf_eq_toNat, shOf_eq_mod, ofInt_shl]
  · refine computes_at_widths (fun _ => rfl) rfl exec_shr (fun n a b => a >>> (b.toNat % n)) fun n _ a b => ?_
    rw [uOf_eq_toNat, shOf_eq_mod, ofInt_shr]
  · refine computes_at_widths (fun _ => rfl) rfl exec_sra (fun n a b => a.sshiftRight (b.toNat % n)) fun n _ a b => ?_
    rw [sOf_eq_toInt, shOf_eq_mod, ofInt_sra]
  · refine computes_at_widths (fun _ => rfl) rfl exec_rol (fun n a b => a.rotateLeft (b.toNat % n)) fun n hn a b => ?_
    rw [uOf_eq_toNat, shOf_eq_mod, rolBy_eq_rotateLeft _ (Nat.mod_lt _ hn), ofInt_toNat]
  · refine computes_at_widths (fun _ => rfl) rfl exec_ror (fun n a b => a.rotateRight (b.toNat % n)) fun n hn a b => ?_
    rw [uOf_eq_toNat, shOf_eq_mod, rolBy_eq_rotateLeft _ (Nat.mod_lt _ hn), ofInt_toNat,
      rotateRight_eq_rotateLeft _ (Nat.mod_lt _ hn)]
  · refine computes_at_widths (fun _ => rfl) rfl exec_clz (fun _ a _ => a.clz) fun n hn a b => ?_
    rw [uOf_eq_toNat, BitVec.ofInt_natCast, ofNat_clzN _ hn]
  · refine computes_at_widths (fun _ => rfl) rfl exec_ctz (fun _ a _ => a.ctz) fun n _ a b => ?_
    rw [uOf_eq_toNat, BitVec.ofInt_natCast, ofNat_ctzN]
  · refine computes_at_widths (fun _ => rfl) rfl exec_popc
      (fun n a _ => BitVec.ofNat n ((List.range n).countP fun k => a.getLsbD k)) fun n _ a b => ?_
    rw [uOf_eq_toNat, BitVec.ofInt_natCast, popcN_eq_countP]
    rfl
  · refine computes_of_aluOp (fun _ => rfl) rfl exec_bswap (fun a b => ?_) fun a b => ?_
    · rw [uOf_64, BitVec.ofInt_natCast, bswapN_64]
    · rw [uOf_32, BitVec.ofInt_natCast, bswapN_32]
  · refine computes_at_widths (fun _ => rfl) rfl exec_neg (fun _ a _ => -a) fun n _ a b => ?_
    rw [sOf_eq_toInt, BitVec.ofInt_neg, BitVec.ofInt_toInt]
  · refine computes_at_widths (fun _ => rfl) rfl exec_not (fun _ a _ => ~~~a) fun n _ a b => ?_
    rw [uOf_eq_toNat, ofInt_not]
  · refine computes_at_widths (fun _ => rfl) rfl exec_abs (fun _ a _ => if a.slt 0 then -a else a) fun n _ a b => ?_
    rw [sOf_eq_toInt, ofInt_abs]

/-! ## Bit fields (R234) -/

theorem bits_5_0 (k : Nat) : bits k 5 0 = k % 64 := by rw [bits_eq_mod, pow_zero, Nat.div_one]; rfl

theorem bits_11_6 (k : Nat) : bits k 11 6 = k / 64 % 64 := bits_eq_mod ..

/-- A field of a word as a bit vector of its length. -/
theorem field_eq_toNat (a : Word) (lo len : Nat) : bits a.toNat (lo + (len + 1) - 1) lo = (a.extractLsb' lo (len + 1)).toNat := by
  rw [bits, show lo + (len + 1) - 1 + 1 - lo = len + 1 by omega, BitVec.extractLsb'_toNat]

theorem ofInt_bfxOf (imm : BitVec 24) (a : Word) : BitVec.ofInt 64 (bfxOf imm.toNat a) =
    let v := a.extractLsb' (imm.toNat % 64) (imm.toNat / 64 % 64 + 1)
    if imm.getLsbD 12 then v.signExtend 64 else v.setWidth 64 := by
  simp only [bfxOf, bits_5_0, bits_11_6, field_eq_toNat, sextI_toInt]
  change BitVec.ofInt 64 (if imm.getLsbD 12 then _ else _) = _
  split
  · rfl
  · rw [BitVec.ofInt_natCast, BitVec.ofNat_toNat]

/-- The mask of a field. -/
theorem ofNat_fieldMask (lo len : Nat) :
    BitVec.ofNat 64 ((2 ^ len - 1) * 2 ^ lo) = (BitVec.allOnes len).setWidth 64 <<< lo := by
  apply BitVec.eq_of_toNat_eq
  rw [BitVec.toNat_ofNat, BitVec.toNat_shiftLeft, BitVec.toNat_setWidth, BitVec.toNat_allOnes, Nat.shiftLeft_eq, Nat.mod_mul_mod]

theorem ofInt_bfiOf (imm : BitVec 24) (a r : Word) : BitVec.ofInt 64 (bfiOf imm.toNat a r) =
    let mask := (BitVec.allOnes (imm.toNat / 64 % 64 + 1)).setWidth 64 <<< (imm.toNat % 64)
    (a &&& ~~~mask) ||| ((r <<< (imm.toNat % 64)) &&& mask) := by
  simp only [bfiOf, bits_5_0, bits_11_6, ofNat_fieldMask]
  exact ofInt_toNat _

/-- Settles O18: each field is a run of bits of the whole operand, put under WIDTH as 64 bits. -/
theorem bitFieldResults : Obligations.BitFieldResults := by
  unfold Obligations.BitFieldResults
  intro f
  have put := fun v : Int => maskToWidth_put v f.w
  refine ⟨?_, ?_, fun _ => ?_, fun reg _ => ?_⟩
  · refine delivers_of_aluOp rfl rfl (exec_sext f) fun fr => ?_
    rw [put, bits_5_0, sextI_mod, BitVec.ofNat_toNat]
    rfl
  · refine delivers_of_aluOp rfl rfl (exec_zext f) fun fr => ?_
    have field : bits fr.l.toNat (f.imm.toNat % 64) 0 = (fr.l.setWidth (f.imm.toNat % 64 + 1)).toNat := by
      rw [bits_eq_mod, pow_zero, Nat.div_one, Nat.sub_zero, BitVec.toNat_setWidth]
    rw [put, bits_5_0, field, BitVec.ofInt_natCast, BitVec.ofNat_toNat]
  · refine delivers_of_aluOp rfl rfl (exec_bfx f) fun fr => ?_
    rw [put, ofInt_bfxOf]
  · refine delivers_of_aluOp rfl rfl (exec_bfi f) fun fr => ?_
    have right : rightVal f fr.r = fr.r := by simp [rightVal, reg]
    rw [put, right, ofInt_bfiOf]

/-! ## Tests and selection (R235, R236) -/

theorem toNat_beq {n : Nat} (x y : BitVec n) : (x.toNat == y.toNat) = (x == y) := by
  rw [Bool.eq_iff_iff, beq_iff_eq, beq_iff_eq, BitVec.toNat_inj]

/-- SEL looks at its left operand at the operation width. -/
theorem uOf_ne_zero (f : GOp) (l : Word) : uOf (opWidth f.w) l ≠ 0 ↔ (match f.w with
    | .d => l != 0
    | _ => low32 l != 0) = true := by
  cases f.w <;> simp [opWidth, ← BitVec.toNat_inj]

/-- Settles O19: the conditions on u(v) and s(v) are the comparisons of bit vectors, and SEL asks whether u(v) is zero. -/
theorem testAndSelectResults : Obligations.TestAndSelectResults := by
  unfold Obligations.TestAndSelectResults
  refine ⟨⟨?_, ?_, ?_, ?_, ?_, ?_, ?_, ?_, ?_, ?_, ?_, ?_⟩, fun f s fr fires => ?_⟩
  · refine tests_at_widths (fun _ => rfl) rfl exec_teq fun n a b => ?_
    rw [uOf_eq_toNat, uOf_eq_toNat, toNat_beq]
  · refine tests_at_widths (fun _ => rfl) rfl exec_tne fun n a b => ?_
    rw [uOf_eq_toNat, uOf_eq_toNat, bne, toNat_beq]
    rfl
  · refine tests_at_widths (fun _ => rfl) rfl exec_tlt fun n a b => ?_
    rw [sOf_eq_toInt, sOf_eq_toInt, BitVec.slt_eq_decide]
  · refine tests_at_widths (fun _ => rfl) rfl exec_tltu fun n a b => ?_
    rw [uOf_eq_toNat, uOf_eq_toNat, BitVec.ult_eq_decide]
  · refine tests_at_widths (fun _ => rfl) rfl exec_tle fun n a b => ?_
    rw [sOf_eq_toInt, sOf_eq_toInt, BitVec.sle_eq_decide]
  · refine tests_at_widths (fun _ => rfl) rfl exec_tleu fun n a b => ?_
    rw [uOf_eq_toNat, uOf_eq_toNat, BitVec.ule_eq_decide]
  · refine tests_at_widths (fun _ => rfl) rfl exec_tgt fun n a b => ?_
    rw [sOf_eq_toInt, sOf_eq_toInt, BitVec.slt_eq_decide]
  · refine tests_at_widths (fun _ => rfl) rfl exec_tgtu fun n a b => ?_
    rw [uOf_eq_toNat, uOf_eq_toNat, BitVec.ult_eq_decide]
  · refine tests_at_widths (fun _ => rfl) rfl exec_tge fun n a b => ?_
    rw [sOf_eq_toInt, sOf_eq_toInt, BitVec.sle_eq_decide]
  · refine tests_at_widths (fun _ => rfl) rfl exec_tgeu fun n a b => ?_
    rw [uOf_eq_toNat, uOf_eq_toNat, BitVec.ule_eq_decide]
  · refine tests_at_widths (fun _ => rfl) rfl exec_tbs fun n a b => ?_
    rw [uOf_eq_toNat, uOf_eq_toNat]
    rfl
  · refine tests_at_widths (fun _ => rfl) rfl exec_tbc fun n a b => ?_
    rw [uOf_eq_toNat, uOf_eq_toNat]
    rfl
  · rw [exec_sel, execSel, fireOp_of_firing _ rfl rfl fires, rightOf_eq]
    simp only [maskToWidth_uOf]
    exact congrArg Host.Outcome.next (if_congr (uOf_ne_zero f fr.l) rfl rfl)

/-! ## Identity and clock (R237 to R239) -/

/-- A G slot that reads a number delivers it under WIDTH. -/
theorem exec_of_read {x : Instr} {opc : Nat} {f : GOp} {v : State → Firing → Nat} (hx : x.slotFields = some (opc, .g f))
    (ha : translatesAhead opc = false)
    (he : ∀ s, exec x s = fireOp opc (.g f) s fun fr => fr.done s [f.t1, f.t2] (maskToWidth (v s fr) f.w))
    {s : State} {fr : Firing} (fires : firing x s = some fr) :
    exec x s = .next (fr.done s [f.t1, f.t2] (byWidth f.w (BitVec.ofNat 64 (v s fr)) (BitVec.ofNat 32 (v s fr)))) := by
  rw [he, fireOp_of_firing _ hx ha fires, maskToWidth_natCast]

theorem bits_2_0 (k : Nat) : bits k 2 0 = k % 8 := by rw [bits_eq_mod, pow_zero, Nat.div_one]; rfl

/-- Settles O20: the number that each reads is the one its immediate selects. -/
theorem identityAndClockResults : Obligations.IdentityAndClockResults := by
  unfold Obligations.IdentityAndClockResults
  intro f
  refine ⟨fun s fr fires => ?_, fun s fr fires => ?_, fun s fr fires => ?_, fun s fr fires => ?_⟩
  · rw [exec_of_read rfl rfl (exec_wid f) fires, widValue, bits_2_0]
    rfl
  · rw [exec_of_read rfl rfl (exec_time f) fires]
    rfl
  · have count : (if bit f.imm.toNat 0 then (fr.n.ctl.resident : Int) else s.cycle % 2 ^ 64)
        = (if f.imm.getLsbD 0 then fr.n.ctl.resident else s.cycle % 2 ^ 64 : Nat) := by
      rw [bit, BitVec.getLsbD]
      split <;> simp
    rw [exec_cyc, execCyc, fireOp_of_firing _ rfl rfl fires, count, maskToWidth_natCast]
  · rw [exec_of_read rfl rfl (exec_ctx f) fires, bits_2_0]
    rfl

end Sys2Proof.Machine

end

section
/-! PROOFS. The exits (O38): the first that fires chooses what follows its block, and a further one is MULTI_EXIT. -/

namespace Sys2Proof.Machine

open Sys2Proof.Bits Sys2Proof.Rows

section Exits

variable {f : BOp} {e : EOp} {s : State} {fr : Firing}

/-- The slot of an exit that has fired is done as of the next cycle. -/
def Firing.exited (fr : Firing) (s : State) : State :=
  s.modSlot fr.i fr.k fun r => { r with st := .done, since := s.cycle + 1 }

/-- The exit is its block's choice. -/
def Firing.chosen (fr : Firing) (s : State) (x : ExitTo) : State :=
  (fr.exited s).modBlk fr.i fun b => { b with exit := some (fr.k, x) }

/-- The exit named where exit `j` of the block has fired: of those of one cycle the highest (R246). -/
def Firing.namedExit (fr : Firing) (s : State) (j : Nat) : Nat :=
  (readyExits fr.b).foldl max (if (fr.b.rec_ j).since = s.cycle + 1 then max j fr.k else fr.k)

theorem exit_first (first : fr.b.exit = none) (x : ExitTo) : fr.exit s x = fr.chosen s x := by
  simp only [Firing.exit, first]
  rfl

theorem exit_second {j : Nat} {other : ExitTo} (second : fr.b.exit = some (j, other)) (x : ExitTo) :
    fr.exit s x = raise (fr.exited s) fr.i codeMultiExit (fr.namedExit s j) 0 := by
  simp only [Firing.exit, second]
  rfl

theorem branchTarget_eq (b : Block) (f : BOp) : branchTarget b f = b.addr + f.off.signExtend 64 * 64 := by
  rw [branchTarget, sext_eq_signExtend, BitVec.ofNat_toNat, BitVec.setWidth_eq]

/-! ## What a firing of each exit is (R240 to R244, R286) -/

theorem exec_br_of_firing (h : firing (.br f) s = some fr) :
    exec (.br f) s = .next (fr.exit s (.block (fr.b.addr + f.off.signExtend 64 * 64))) := by
  rw [exec_br, execBr, fireOp_of_firing _ rfl rfl h, branchTarget_eq]

theorem exec_bri_of_firing (h : firing (.bri f) s = some fr) (aligned : fr.l.toNat % 64 = 0) :
    exec (.bri f) s = .next (fr.exit s (.block fr.l)) := by
  rw [exec_bri, execBri, fireOp_of_firing _ rfl rfl h, if_neg (not_not.mpr aligned)]

theorem exec_call_of_firing (h : firing (.call f) s = some fr) : exec (.call f) s = .next
    (deliver (fr.exit s (.block (fr.b.addr + f.off.signExtend 64 * 64))) fr.i f.t1 (.val (returnAddr fr.b))) := by
  rw [exec_call, execCall, fireOp_of_firing _ rfl rfl h, branchTarget_eq]

theorem exec_calli_of_firing (h : firing (.calli f) s = some fr) (aligned : fr.l.toNat % 64 = 0) :
    exec (.calli f) s = .next (deliver (fr.exit s (.block fr.l)) fr.i f.t1 (.val (returnAddr fr.b))) := by
  rw [exec_calli, execCalli, fireOp_of_firing _ rfl rfl h, if_neg (not_not.mpr aligned)]

theorem exec_halt_of_firing (h : firing (.halt f) s = some fr) : exec (.halt f) s = .next (fr.exit s .halt) := by
  rw [exec_halt, execHalt, fireOp_of_firing _ rfl rfl h]

theorem exec_trap_of_firing (h : firing (.trap f) s = some fr) :
    exec (.trap f) s = .next (fr.exit s (.trap f.off.toNat)) := by
  rw [exec_trap, execTrap, fireOp_of_firing _ rfl rfl h]

theorem exec_eret_of_firing (h : firing (.eret e) s = some fr) : exec (.eret e) s = .next (fr.exit s .eret) := by
  rw [exec_eret, execEret, fireOp_of_firing _ rfl rfl h]

/-- BRI and CALLI raise MISALIGN for an address inside a 64-byte unit (R242). -/
theorem exec_indirect_misaligned {x : Instr} (hx : x ∈ [Instr.bri f, .calli f]) (h : firing x s = some fr)
    (inside : fr.l.toNat % 64 ≠ 0) : exec x s = .next (raise s fr.i codeMisalign fr.k fr.l) := by
  simp only [List.mem_cons, List.not_mem_nil, or_false] at hx
  rcases hx with rfl | rfl
  · rw [exec_bri, execBri, fireOp_of_firing _ rfl rfl h, if_pos inside, Firing.fault]
  · rw [exec_calli, execCalli, fireOp_of_firing _ rfl rfl h, if_pos inside, Firing.fault]

end Exits

/-- Settles O38: what a firing of each exit is, and what `Firing.exit` makes of a first exit and of a further one. -/
theorem exitsChooseWhatFollows : Obligations.ExitsChooseWhatFollows := by
  unfold Obligations.ExitsChooseWhatFollows
  refine ⟨fun f e s fr first => ?_, fun f s fr x hx h inside => exec_indirect_misaligned hx h inside,
    fun f e s fr j other second => ?_⟩
  · have choose := exit_first (s := s) first
    refine ⟨fun h => ?_, fun h aligned => ?_, fun h => ?_, fun h aligned => ?_, fun h => ?_, fun h => ?_, fun h => ?_⟩
    · rw [exec_br_of_firing h, choose]; rfl
    · rw [exec_bri_of_firing h aligned, choose]; rfl
    · rw [exec_call_of_firing h, choose]; rfl
    · rw [exec_calli_of_firing h aligned, choose]; rfl
    · rw [exec_halt_of_firing h, choose]; rfl
    · rw [exec_trap_of_firing h, choose]; rfl
    · rw [exec_eret_of_firing h, choose]; rfl
  · have meet := exit_second (s := s) second
    refine ⟨fun x hx h => ?_, fun h aligned => ?_, fun x hx h aligned => ?_⟩
    · simp only [List.mem_cons, List.not_mem_nil, or_false] at hx
      rcases hx with rfl | rfl | rfl | rfl
      · rw [exec_br_of_firing h, meet]; rfl
      · rw [exec_halt_of_firing h, meet]; rfl
      · rw [exec_trap_of_firing h, meet]; rfl
      · rw [exec_eret_of_firing h, meet]; rfl
    · rw [exec_bri_of_firing h aligned, meet]; rfl
    · simp only [List.mem_cons, List.not_mem_nil, or_false] at hx
      rcases hx with rfl | rfl
      · rw [exec_call_of_firing h, meet]; rfl
      · rw [exec_calli_of_firing h (aligned rfl), meet]; rfl

end Sys2Proof.Machine

end

section
/-! PROOFS. What a block that HALTs, TRAPs or ERETs does at its commit (O40): the state in which it takes its exit, and the
release of the regions that the trap being left held. -/

namespace Sys2Proof.Machine

open Sys2Proof.Bits Sys2Proof.Rows

/-! ## The state in which a commit takes its exit (R100, R206) -/

/-- A context as its block's write entries and flags leave it (R204, R230). -/
def Ctl.written (b : Block) (c : Ctl) : Ctl :=
  let c := writeRegs b c
  { c with dz := c.dz || b.divZero, watch := 0, expired := false }

theorem written_frame (b : Block) (c : Ctl) : ∃ regs acq,
    c.written b = { c with regs, acq, dz := c.dz || b.divZero, watch := 0, expired := false } := by
  obtain ⟨regs, acq, frame⟩ := writeEntries_frame (Layout.writeReg b.words) (indexed 0 b.writes) c
  refine ⟨regs, acq, ?_⟩
  rw [Ctl.written, writeRegs_eq, frame]

/-- The state in which the commit of block `b` takes its exit: held stores entered, registers and flags written. -/
def exitReached (s : State) (i : Nat) (b : Block) : State := (enterBelow s i 33).modCtl i (Ctl.written b)

section Commit

variable {s : State} {i k : Nat} {n : Inst} {b : Block}

/-- A commit with no effects noted, of a context that does not step, is its exit. -/
theorem commitBlock_takes_exit (acts : b.acts = []) (plain : Layout.isNest b.words = false) (steady : n.ctl.step = false) :
    commitBlock s i n b = (takeExit (exitReached s i b) i b).countCore n.cluster 0x010 1 := by
  have unranked : ranked [] = [] := rfl
  have unstepped (u : State) : stepDue u i n.ctl b = u := by
    unfold stepDue
    rw [steady]
    split <;> rfl
  simp only [commitBlock, unstepped, installNest, plain, acts, unranked, List.foldl_nil, Bool.false_eq_true, if_false]
  rfl

theorem exitReached_mem : (exitReached s i b).mem = s.mem := (OnBindPart.enterBelow i 33).mem s

/-- Of the committing instance its registers, its flags and its block have changed. -/
theorem exitReached_inst (hn : s.inst? i = some n) (hb : n.ctl.blk = some b) : ∃ regs acq blk,
    (exitReached s i b).inst? i = some { n with
      ctl := { n.ctl with regs, acq, blk, dz := n.ctl.dz || b.divZero, watch := 0, expired := false } } := by
  have block : s.blk? i = some b := by rw [State.blk?, hn, Option.bind_some, hb]
  have insts : (exitReached s i b).insts = (s.modCtl i fun c => c.entered.written b).insts := by
    change amod i _ (enterBelow s i 33).insts = _
    rw [enterBelow_insts 33 block, State.modBlk, State.modCtl, State.modInst, amod_amod]
    rfl
  obtain ⟨regs, acq, frame⟩ := written_frame b n.ctl.entered
  refine ⟨regs, acq, n.ctl.entered.blk, ?_⟩
  rw [State.inst?, insts, ← State.inst?, State.inst_modCtl_self, hn, Option.map_some, frame]
  rfl

/-- The commit of such a block: what it leaves of instance and memory is what its exit leaves. -/
theorem exec_blockCommit_exit (hn : s.inst? i = some n) (hb : n.ctl.blk = some b) (hc : committable s i n b = true)
    (acts : b.acts = []) (plain : Layout.isNest b.words = false) (steady : n.ctl.step = false) :
    ∃ t, exec (.blockCommit i) s = .next t ∧ t.inst? i = (takeExit (exitReached s i b) i b).inst? i
      ∧ t.mem = (takeExit (exitReached s i b) i b).mem := by
  refine ⟨_, exec_blockCommit_committable hn hb hc, ?_⟩
  rw [commitBlock_takes_exit acts plain steady]
  exact ⟨(KeepsAskers.countCore _ _ _ _).inst i, countCore_mem _ _ _ _⟩

end Commit

/-! ## The exits (R243, R244, R286) -/

section TakeExit

variable {u : State} {i k : Nat} {m : Inst} {b : Block} (inst : u.inst? i = some m)
include inst

theorem takeExit_halt (exit : b.exit = some (k, .halt)) : (takeExit u i b).mem = u.mem ∧ (takeExit u i b).inst? i
    = some { m with ctl := { m.ctl with blk := none, next := 0, wait := m.ctl.wait ++ [.halted] } } := by
  simp only [takeExit, exit]
  rw [State.inst_modCtl_self, inst]
  exact ⟨rfl, rfl⟩

/-- TRAP at level U is due at the boundary behind its block (R244, R383). -/
theorem takeExit_trap {arg : Nat} (exit : b.exit = some (k, .trap arg)) (level : m.ctl.cur = false) :
    (takeExit u i b).mem = u.mem ∧ (takeExit u i b).inst? i = some { m with ctl := { m.ctl with
      blk := none, next := returnAddr b
      due := some ⟨codeTrap, returnAddr b, k, BitVec.ofNat 64 arg, none, none, 0⟩ } } := by
  have exits : takeExit u i b = (u.modCtl i fun c => { c with blk := none, next := returnAddr b }).modCtl i fun c =>
      { c with due := some ⟨codeTrap, returnAddr b, k, BitVec.ofNat 64 arg, none, none, 0⟩ } := by
    simp only [takeExit, exit, inst, level, Bool.false_eq_true, if_false]
  rw [exits, State.modCtl_modCtl, State.inst_modCtl_self, inst]
  exact ⟨rfl, rfl⟩

/-- TRAP at level S ends the instance (R383). -/
theorem takeExit_trap_ends {arg : Nat} (exit : b.exit = some (k, .trap arg)) (level : m.ctl.cur = true) :
    ∃ n', (takeExit u i b).inst? i = some n' ∧ n'.life = .ended
      ∧ n'.faultEnd = some (if m.ctl.faultCode = 0 then codeTrap else m.ctl.faultCode.toNat) := by
  have boundary : (u.modCtl i fun c => { c with blk := none, next := returnAddr b }).inst? i
      = some { m with ctl := { m.ctl with blk := none, next := returnAddr b } } := by
    rw [State.inst_modCtl_self, inst]
    rfl
  simp only [takeExit, exit, inst, level, if_true]
  exact endInstance_inst boundary _

end TakeExit

/-! ## Releasing held regions (R384, R386) -/

/-- The other faults that hold a region. -/
def Region.others (r : Region) (by_ : Nat) : List Nat := r.heldBy.filter fun k => k != by_

section ReleasedBy

variable {r : Region} {by_ : Nat}

theorem releasedBy_last (holds : r.phase = .held ∧ r.heldBy.contains by_) (last : r.others by_ = []) :
    r.releasedBy by_
      = { r with phase := if (r.nest.map fun n => n.run).getD false then .running else .idle, heldBy := [] } := by
  rw [Region.others] at last
  simp only [Region.releasedBy, if_pos holds, last, List.isEmpty_nil, if_true]

theorem releasedBy_one_of (holds : r.phase = .held ∧ r.heldBy.contains by_) (more : r.others by_ ≠ []) :
    r.releasedBy by_ = { r with heldBy := r.others by_ } := by
  rw [Region.others] at more ⊢
  simp only [Region.releasedBy, if_pos holds, List.isEmpty_iff, if_neg more]

theorem releasedBy_none (free : ¬(r.phase = .held ∧ r.heldBy.contains by_)) : r.releasedBy by_ = r := by
  rw [Region.releasedBy, if_neg free]

/-- A region left by a fault is not left once more. -/
theorem releasedBy_releasedBy : (r.releasedBy by_).releasedBy by_ = r.releasedBy by_ := by
  by_cases holds : r.phase = .held ∧ r.heldBy.contains by_
  · apply releasedBy_none
    rintro ⟨-, still⟩
    by_cases last : r.others by_ = []
    · rw [releasedBy_last holds last] at still
      simp at still
    · rw [releasedBy_one_of holds last] at still
      simp [Region.others] at still
  · rw [releasedBy_none holds, releasedBy_none holds]

/-- A region that the fault alone held runs again where its nest ran. -/
theorem releasedBy_alone {nest : Nest} (held : r.phase = .held) (alone : r.heldBy = [by_]) (hasNest : r.nest = some nest)
    (ran : nest.run = true) : (r.releasedBy by_).phase = .running := by
  have last : r.others by_ = [] := by simp [Region.others, alone]
  rw [releasedBy_last ⟨held, by simp [alone]⟩ last]
  simp [hasNest, ran]

/-- A region that another fault holds stays held. -/
theorem releasedBy_other {j : Nat} (held : r.phase = .held) (other : j ∈ r.heldBy) (ne : j ≠ by_) :
    (r.releasedBy by_).phase = .held := by
  by_cases holds : r.phase = .held ∧ r.heldBy.contains by_
  · have more : r.others by_ ≠ [] := List.ne_nil_of_mem (List.mem_filter.mpr ⟨other, by simpa using ne⟩)
    rw [releasedBy_one_of holds more]
    exact held
  · rw [releasedBy_none holds]
    exact held

end ReleasedBy

section Release

variable {u : State} {i : Nat} {m : Inst} {r : Region}

/-- One step of the release: an instance of the context has its region released. -/
def releaseOne (ctx by_ : Nat) (s : State) (x : Nat × Inst) : State :=
  if x.2.ctx = ctx then s.modReg x.1 fun r => r.releasedBy by_ else s

theorem releaseOne_inst (inst : u.inst? i = some m) (reg : m.reg = some r) (ctx by_ : Nat) (x : Nat × Inst) :
    (releaseOne ctx by_ u x).inst? i
      = some { m with reg := some (if x.2.ctx = ctx ∧ x.1 = i then r.releasedBy by_ else r) } := by
  have same : u.inst? i = some { m with reg := some r } := by rw [inst, ← reg]
  unfold releaseOne
  by_cases theirs : x.2.ctx = ctx <;> by_cases here : x.1 = i
  · rw [if_pos theirs, if_pos ⟨theirs, here⟩, here, inst_modReg inst reg]
  · rw [if_pos theirs, if_neg (not_and_of_not_right _ here), State.modReg, State.inst_modInst_ne u _ here, same]
  · rw [if_neg theirs, if_neg (not_and_of_not_left _ theirs), same]
  · rw [if_neg theirs, if_neg (not_and_of_not_left _ theirs), same]

theorem foldl_releaseOne_inst (inst : u.inst? i = some m) (reg : m.reg = some r) (ctx by_ : Nat) (l : List (Nat × Inst)) :
    (l.foldl (releaseOne ctx by_) u).inst? i
      = some { m with reg := some (if ∃ x ∈ l, x.2.ctx = ctx ∧ x.1 = i then r.releasedBy by_ else r) } := by
  induction l generalizing u m r with
  | nil => simp [inst, ← reg]
  | cons x l ih =>
    rw [List.foldl_cons, ih (releaseOne_inst inst reg ctx by_ x) rfl]
    by_cases first : x.2.ctx = ctx ∧ x.1 = i
    · simp [first, releasedBy_releasedBy]
    · simp only [List.mem_cons, exists_eq_or_imp, first, if_false, false_or]

/-- The release reaches the region of an instance of the context. -/
theorem releaseHeld_inst (inst : u.inst? i = some m) (reg : m.reg = some r) (by_ : Nat) :
    (releaseHeld u m.ctx by_).inst? i = some { m with reg := some (r.releasedBy by_) } := by
  have there : ∃ x ∈ u.insts, x.2.ctx = m.ctx ∧ x.1 = i := ⟨(i, m), mem_of_aget inst, rfl, rfl⟩
  have released := foldl_releaseOne_inst inst reg m.ctx by_ u.insts
  rwa [if_pos there] at released

/-! ## ERET (R286, R384) -/

/-- The instance without its block. -/
theorem inst_at_boundary (inst : u.inst? i = some m) :
    (u.modCtl i fun c => { c with blk := none }).inst? i = some { m with ctl := { m.ctl with blk := none } } := by
  rw [State.inst_modCtl_self, inst]
  rfl

/-- The return from a trap at the boundary behind the ERET block. -/
theorem takeExit_eret_eq {k : Nat} {b : Block} (inst : u.inst? i = some m) (exit : b.exit = some (k, .eret)) :
    takeExit u i b = (let v := u.modCtl i fun c => { c with blk := none }
      let by_ := (m.ctl.traps.head?.map fun t => t.hold).getD 0
      (if by_ = 0 then v else releaseHeld v m.ctx by_).modCtl i Ctl.leaveTrap) := by
  have boundary := inst_at_boundary inst
  simp only [takeExit, exit, returnTrap, boundary]

/-- ERET without a trap to leave goes to FAULTBLK at level PREV. -/
theorem takeExit_eret {k : Nat} {b : Block} (inst : u.inst? i = some m) (exit : b.exit = some (k, .eret))
    (outside : m.ctl.traps = []) : (takeExit u i b).mem = u.mem
      ∧ (takeExit u i b).inst? i = some { m with ctl := { m.ctl with blk := none }.leaveTrap } := by
  have returns : takeExit u i b = (u.modCtl i fun c => { c with blk := none }).modCtl i Ctl.leaveTrap := by
    rw [takeExit_eret_eq inst exit, outside]
    rfl
  rw [returns, State.modCtl_modCtl, State.inst_modCtl_self, inst]
  exact ⟨rfl, rfl⟩

/-- ERET leaves the innermost trap; the region is released from it when it held one. -/
theorem takeExit_eret_releases {k : Nat} {b : Block} {tr : TrapInfo} {rest : List TrapInfo} (inst : u.inst? i = some m)
    (reg : m.reg = some r) (exit : b.exit = some (k, .eret)) (inside : m.ctl.traps = tr :: rest) :
    (takeExit u i b).inst? i = some { m with
      reg := some (if tr.hold = 0 then r else r.releasedBy tr.hold), ctl := { m.ctl with blk := none }.leaveTrap } := by
  have boundary := inst_at_boundary inst
  rw [takeExit_eret_eq inst exit, inside]
  dsimp only [List.head?_cons, Option.map_some, Option.getD_some]
  rw [State.inst_modCtl_self]
  split
  · rw [boundary, Option.map_some, ← reg]
  · rw [releaseHeld_inst (m := { m with ctl := { m.ctl with blk := none } }) boundary reg]
    rfl

end Release

/-- Settles O40: the commit reaches its exit with the block's registers written and nothing else of the context changed; what
each exit makes of it is said by the lemmas `takeExit_*`. -/
theorem commitEndsWithItsExit : Obligations.CommitEndsWithItsExit := by
  unfold Obligations.CommitEndsWithItsExit
  intro s i k n b hn hb hc acts plain steady
  obtain ⟨t, commits, inst, mem⟩ := exec_blockCommit_exit hn hb hc acts plain steady
  obtain ⟨regs, acq, blk, reached⟩ := exitReached_inst hn hb
  rw [← exitReached_mem (s := s) (i := i) (b := b)]
  refine ⟨fun exit => ?_, fun arg exit level => ?_, fun arg exit level => ?_, fun exit outside _ => ?_,
    fun tr rest r nest exit inside holds reg held alone hasNest ran => ?_, fun tr rest r exit inside reg held other => ?_⟩
  · obtain ⟨kept, halted⟩ := takeExit_halt reached exit
    exact ⟨t, _, commits, inst.trans halted, mem.trans kept, rfl, rfl, due_of_committable hc, rfl⟩
  · obtain ⟨kept, due⟩ := takeExit_trap reached exit level
    exact ⟨t, _, commits, inst.trans due, mem.trans kept, rfl, rfl, rfl⟩
  · obtain ⟨n', ended, life, fault⟩ := takeExit_trap_ends reached exit level
    exact ⟨t, n', commits, inst.trans ended, life, fault⟩
  · obtain ⟨kept, left⟩ := takeExit_eret reached exit outside
    exact ⟨t, _, commits, inst.trans left, mem.trans kept, rfl, rfl, rfl, rfl, rfl⟩
  · have left := takeExit_eret_releases reached reg exit inside
    rw [if_neg holds] at left
    exact ⟨t, _, _, commits, inst.trans left, rfl, releasedBy_alone held alone hasNest ran, congrArg (List.drop 1) inside⟩
  · have left := takeExit_eret_releases reached reg exit inside
    refine ⟨t, _, _, commits, inst.trans left, rfl, ?_, congrArg (List.drop 1) inside⟩
    obtain ⟨j, holds, ne⟩ := other
    split
    · exact held
    · exact releasedBy_other held holds ne

end Sys2Proof.Machine

end

section
/-! PROOFS. A FENCE after its earlier loads (O22), and the semaphore instructions (O30). -/

namespace Sys2Proof.Machine

open Sys2Proof.Bits Sys2Proof.Rows

/-! ## O22 -/

/-- Settles O22: the marker is held at the FENCE's LSID; the acquire of one that names LL alone empties the cache when its
scope is CLUSTER or wider. -/
theorem fenceHoldsItsMarker : Obligations.FenceHoldsItsMarker := by
  unfold Obligations.FenceHoldsItsMarker
  intro f s fr h loads
  rw [exec_fence, execFence, fireOp_of_firing _ rfl rfl h]
  have acquired : (if f.off.setWidth 4 = 1 then acquire s fr.n.cluster f.scope else s)
      = if f.off.setWidth 4 = 1 ∧ clusterUp f.scope = true then s.modCore fr.n.cluster fun c => { c with cache := [] } else s := by
    simp only [acquire, ← ite_and]
  simp only [loads, if_true, acquired]

/-! ## Semaphores (R261, R262) -/

@[simp] theorem State.sem_modSem_self (s : State) (core k : Nat) (f : Sem → Sem) :
    (s.modSem core k f).sem core k = f (s.sem core k) := by
  simp only [State.sem, State.modSem, State.core_modCore_self, agetD, aget_aset_self, Option.getD_some]

theorem State.sem_modSem_ne (s : State) {core k c j : Nat} (f : Sem → Sem) (h : c ≠ core ∨ j ≠ k) :
    (s.modSem core k f).sem c j = s.sem c j := by
  by_cases hc : c = core
  · subst hc
    have hj : j ≠ k := h.resolve_left (· rfl)
    simp only [State.sem, State.modSem, State.core_modCore_self, agetD, aget_aset_ne k j _ _ hj]
  · simp only [State.sem, State.modSem, State.core_modCore_ne s _ hc]

theorem sem_of_cores {s t : State} (h : t.cores = s.cores) (core k : Nat) : t.sem core k = s.sem core k := by
  simp only [State.sem, State.core, h]

theorem core_of_cores {s t : State} (h : t.cores = s.cores) (core : Nat) : t.core core = s.core core := by
  simp only [State.core, h]

theorem toNat_sub_ofNat {c : BitVec 32} {n : Nat} (h : n ≤ c.toNat) : (c - BitVec.ofNat 32 n).toNat = c.toNat - n := by
  have small : n % 2 ^ 32 = n := by omega
  rw [BitVec.toNat_sub_of_le (by rw [BitVec.le_def, BitVec.toNat_ofNat, small]; exact h), BitVec.toNat_ofNat, small]

theorem OnlyCaches.sem {s t : State} (h : OnlyCaches s t) (core k : Nat) : t.sem core k = s.sem core k := by
  simp only [State.sem, h.sems]

theorem OnBindPart.cores {f : State → State} (hf : OnBindPart f) (s : State) : (f s).cores = s.cores :=
  (congrArg State.cores (hf.frame s) :)

theorem SlotOnly.cores {i : Nat} {s t : State} (h : SlotOnly i s t) : t.cores = s.cores := by
  obtain ⟨_, _, rfl⟩ := h
  rfl

theorem SlotOnly.mem {i : Nat} {s t : State} (h : SlotOnly i s t) : t.mem = s.mem := by
  obtain ⟨_, _, rfl⟩ := h
  rfl

/-- An acquire at CLUSTER scope or wider leaves no line in the core's data cache (R93). -/
theorem acquire_cache (s : State) (core : Nat) {sc : Scope} (wide : clusterUp sc = true) :
    ((acquire s core sc).core core).cache = [] := by
  rw [acquire, if_pos wide, State.core_modCore_self]

/-- What a post counts up to, and what it leaves alone (R262). -/
theorem semAdd_leaves (s : State) (core k n : Nat) : let t := semAdd s core k n
    t.insts = s.insts ∧ t.mem = s.mem ∧ (t.sem core k).count.toNat = min ((s.sem core k).count.toNat + n) (2 ^ 32 - 1)
      ∧ ∀ c j, c ≠ core ∨ j ≠ k → t.sem c j = s.sem c j := by
  have counted (t : State) (die code n : Nat) : (t.countDie die code n).insts = t.insts ∧ (t.countDie die code n).mem = t.mem
      ∧ (t.countDie die code n).cores = t.cores := by
    unfold State.countDie
    split <;> exact ⟨rfl, rfl, rfl⟩
  have small : min ((s.sem core k).count.toNat + n) (2 ^ 32 - 1) % 2 ^ 32 = min ((s.sem core k).count.toNat + n) (2 ^ 32 - 1) := by
    omega
  unfold semAdd
  dsimp only
  split
  · obtain ⟨insts, mem, cores⟩ := counted (s.modSem core k fun m =>
      { m with count := BitVec.ofNat 32 (min ((s.sem core k).count.toNat + n) (2 ^ 32 - 1)) }) (dieOfCore core) 0x052 1
    refine ⟨insts, mem, ?_, fun c j other => ?_⟩
    · rw [sem_of_cores cores, State.sem_modSem_self, BitVec.toNat_ofNat, small]
    · rw [sem_of_cores cores, State.sem_modSem_ne s _ other]
  · refine ⟨rfl, rfl, ?_, fun c j other => State.sem_modSem_ne s _ other⟩
    rw [State.sem_modSem_self, BitVec.toNat_ofNat, small]

section Semaphore

variable {f : EOp} {s : State} {fr : Firing}

/-- A semaphore that its context may not use refuses each of the three (R261). -/
theorem exec_semaphore_denied {x : Instr} (hx : x ∈ [Instr.semread f, .semwait f, .sempost f]) (h : firing x s = some fr)
    (denied : (s.sem fr.n.cluster f.sel.toNat).allows fr.n.ctx = false) :
    exec x s = .next (raise s fr.i 0x02 fr.k 0) := by
  simp only [List.mem_cons, List.not_mem_nil, or_false] at hx
  rcases hx with rfl | rfl | rfl
  · rw [exec_semread, execSemread, fireOp_of_firing _ rfl rfl h]
    simp only [denied]
    rfl
  · rw [exec_semwait, execSemwait, fireOp_of_firing _ rfl rfl h]
    simp only [denied, firing_waiting rfl rfl h]
    rfl
  · rw [exec_sempost, execSempost, fireOp_of_firing _ rfl rfl h]
    simp only [denied, firing_waiting rfl rfl h]
    rfl

variable (allowed : (s.sem fr.n.cluster f.sel.toNat).allows fr.n.ctx = true)
include allowed

theorem exec_semread_allowed (h : firing (.semread f) s = some fr) : exec (.semread f) s
    = .next (fr.done s [f.t1] ((s.sem fr.n.cluster f.sel.toNat).count.setWidth 64)) := by
  rw [exec_semread, execSemread, fireOp_of_firing _ rfl rfl h]
  simp only [allowed]
  rfl

/-- The block bound and the count of a SEMWAIT taken, as an acquire at its scope. -/
def semTaken (s : State) (fr : Firing) (f : EOp) : State :=
  acquire ((bindBlock s fr.i).modSem fr.n.cluster f.sel.toNat fun m =>
    { m with count := (s.sem fr.n.cluster f.sel.toNat).count - BitVec.ofNat 32 f.imm.toNat
             waiters := m.waiters.filter fun w => !(w.inst == fr.i && w.slot == fr.k) }) fr.n.cluster f.scope

omit allowed in
theorem semTaken_leaves (s : State) (fr : Firing) (f : EOp) : let t := semTaken s fr f
    t.insts = (bindBlock s fr.i).insts ∧ t.mem = s.mem
      ∧ (t.sem fr.n.cluster f.sel.toNat).count = (s.sem fr.n.cluster f.sel.toNat).count - BitVec.ofNat 32 f.imm.toNat
      ∧ (∀ c j, c ≠ fr.n.cluster ∨ j ≠ f.sel.toNat → t.sem c j = s.sem c j)
      ∧ (clusterUp f.scope = true → (t.core fr.n.cluster).cache = []) := by
  have binds := OnBindPart.bindBlock fr.i
  have acquires := OnlyCaches.acquire ((bindBlock s fr.i).modSem fr.n.cluster f.sel.toNat fun m =>
    { m with count := (s.sem fr.n.cluster f.sel.toNat).count - BitVec.ofNat 32 f.imm.toNat
             waiters := m.waiters.filter fun w => !(w.inst == fr.i && w.slot == fr.k) }) fr.n.cluster f.scope
  refine ⟨acquires.insts, acquires.mem.trans (binds.mem s), ?_, fun c j other => ?_, fun wide => acquire_cache _ _ wide⟩
  · rw [semTaken, acquires.sem, State.sem_modSem_self]
  · rw [semTaken, acquires.sem, State.sem_modSem_ne _ _ other, sem_of_cores (binds.cores s)]

/-- A SEMWAIT that nobody waits before, with enough count (R262). -/
theorem exec_semwait_enough (h : firing (.semwait f) s = some fr) (ready : sideReady s fr.i fr.b fr.k = true)
    (first : (s.sem fr.n.cluster f.sel.toNat).waiters = [])
    (enough : f.imm.toNat ≤ (s.sem fr.n.cluster f.sel.toNat).count.toNat) : exec (.semwait f) s
      = .next (fr.done (semTaken s fr f) [f.t1]
          (BitVec.ofNat 64 ((s.sem fr.n.cluster f.sel.toNat).count.toNat - f.imm.toNat))) := by
  have small : f.imm.toNat % 2 ^ 32 = f.imm.toNat := by omega
  have left : ((s.sem fr.n.cluster f.sel.toNat).count - BitVec.ofNat 32 f.imm.toNat).setWidth 64
      = BitVec.ofNat 64 ((s.sem fr.n.cluster f.sel.toNat).count.toNat - f.imm.toNat) :=
    BitVec.eq_of_toNat_eq (by rw [BitVec.toNat_setWidth, toNat_sub_ofNat enough, BitVec.toNat_ofNat])
  rw [exec_semwait, execSemwait, fireOp_of_firing _ rfl rfl h]
  simp only [allowed, ready, semFirst, first, enough, decide_true, Bool.not_true, Bool.and_false, Bool.or_false, Bool.and_true,
    Bool.false_eq_true, if_false, if_true, left]
  rfl

/-- A SEMPOST whose release is clear once its block has bound (R101, R262). -/
theorem exec_sempost_clear (h : firing (.sempost f) s = some fr) (ready : sideReady s fr.i fr.b fr.k = true)
    (clear : ctlReleaseClear (bindBlock s fr.i) fr.i f.scope = true) : exec (.sempost f) s
      = .next (fr.doneAll (semAdd (bindBlock s fr.i) fr.n.cluster f.sel.toNat f.imm.toNat) []) := by
  rw [exec_sempost, execSempost, fireOp_of_firing _ rfl rfl h]
  simp only [allowed, ready, clear, Bool.not_true, Bool.and_false, Bool.false_eq_true, if_false, if_true]

end Semaphore

/-! ## O30 -/

/-- Settles O30: each of the three fires with its own effect on the semaphore, and delivering changes the block alone; where
the semaphore does not allow the context, all three raise. -/
theorem semaphoreResults : Obligations.SemaphoreResults := by
  unfold Obligations.SemaphoreResults
  refine ⟨fun f s fr => ?_, fun f s fr denied x hx h => exec_semaphore_denied hx h denied⟩
  intro core k m allowed
  refine ⟨fun h => exec_semread_allowed allowed h, fun h ready first enough => ?_, fun h ready clear => ?_⟩
  · obtain ⟨insts, mem, count, others, cache⟩ := semTaken_leaves s fr f
    have delivers := SlotOnly.done fr (semTaken s fr f) [f.t1] (BitVec.ofNat 64 (m.count.toNat - f.imm.toNat))
    refine ⟨_, exec_semwait_enough allowed h ready first enough, delivers.mem.trans mem, ?_, fun c j other => ?_,
      fun wide => ?_, _, insts, rfl⟩
    · rw [sem_of_cores delivers.cores, count, toNat_sub_ofNat enough]
    · rw [sem_of_cores delivers.cores, others c j other]
    · rw [core_of_cores delivers.cores, cache wide]
  · obtain ⟨insts, mem, count, others⟩ := semAdd_leaves (bindBlock s fr.i) core k f.imm.toNat
    have binds := OnBindPart.bindBlock fr.i
    have same (c j : Nat) : (bindBlock s fr.i).sem c j = s.sem c j := sem_of_cores (binds.cores s) c j
    have finishes := SlotOnly.doneAll fr (semAdd (bindBlock s fr.i) core k f.imm.toNat) []
    refine ⟨_, exec_sempost_clear allowed h ready clear, finishes.mem.trans (mem.trans (binds.mem s)), ?_,
      fun c j other => ?_, _, insts, rfl⟩
    · rw [sem_of_cores finishes.cores, count, same]
    · rw [sem_of_cores finishes.cores, others c j other, same]

end Sys2Proof.Machine
end

section
/-! PROOFS. Barrier operations at the home of their object (O31): what each writes, and whom it answers. -/

namespace Sys2Proof.Machine

open Sys2Proof.Bits Sys2Proof.Rows

/-! ## The words of a barrier (R263) -/

theorem bit_eq_decide (v b : Nat) : bit v b = decide (v / 2 ^ b % 2 = 1) := Nat.testBit_eq_decide_div_mod_eq

/-- BROKEN is bit 2 of STATUS (R263). -/
theorem bit_of_broken {status : Nat} (broken : status / 4 % 2 = 1) : bit status 2 = true := by
  rw [bit_eq_decide]
  exact decide_eq_true broken

theorem bit_of_good {status : Nat} (good : status / 4 % 2 = 0) : bit status 2 = false := by
  rw [bit_eq_decide]
  exact decide_eq_false (by omega)

theorem phaseOf_eq {w : Nat} (h : w < 2 ^ 64) : phaseOf w = w / 2 ^ 40 := by
  rw [phaseOf, bits_eq_mod]
  omega

theorem barN_eq (w : Nat) : barN w = w / 2 ^ 20 % 2 ^ 20 := bits_eq_mod w 39 20

theorem barRemain_eq (w : Nat) : barRemain w = w % 2 ^ 20 := by
  rw [barRemain, bits_eq_mod, Nat.pow_zero, Nat.div_one]

theorem barMake_lt {phase n remain : Nat} (hp : phase < 2 ^ 24) (hn : n < 2 ^ 20) (hr : remain < 2 ^ 20) :
    barMake phase n remain < 2 ^ 64 := by
  rw [barMake]
  omega

theorem brokenResult_eq {w : Nat} (h : w < 2 ^ 64) : brokenResult (phaseOf w) = BitVec.ofNat 64 (2 ^ 63 + w / 2 ^ 40) := by
  rw [brokenResult, phaseOf_eq h]
  congr 2
  omega

theorem Memory.readN_append (m : Memory) (a j n : Nat) : m.readN a (j + n) = m.readN a j ++ m.readN (a + j) n := by
  induction j generalizing a with
  | zero => rw [Nat.zero_add, Nat.add_zero]; rfl
  | succ j ih =>
    rw [Nat.succ_add, Memory.readN, ih, Memory.readN, List.cons_append, Nat.add_right_comm, Nat.add_assoc a j 1]

/-- What an operation's write of the object's two words leaves. -/
theorem barWrite_leaves {s t : State} {key w0 status : Nat} (hwf : s.mem.wf = true) (hw : w0 < 2 ^ 64) (hs : status < 2 ^ 64)
    (ht : t.mem = (barWrite s key w0 status).mem) :
    SameMemBut s t key 16 ∧ leNat (t.bytes key 8) = w0 ∧ leNat (t.bytes (key + 8) 8) = status := by
  obtain ⟨bytes, others⟩ := bytes_of_writeN (bs := leBytes 8 w0 ++ leBytes 8 status) hwf ht
  have length : (leBytes 8 w0 ++ leBytes 8 status).length = 8 + 8 := by simp only [List.length_append, length_leBytes]
  rw [length] at bytes others
  rw [State.bytes, Memory.readN_append] at bytes
  obtain ⟨first, second⟩ := List.append_inj bytes (by rw [Memory.length_readN, length_leBytes])
  refine ⟨others, ?_, ?_⟩
  · rw [State.bytes, first, leNat_leBytes]
    exact Nat.mod_eq_of_lt hw
  · rw [State.bytes, second, leNat_leBytes]
    exact Nat.mod_eq_of_lt hs

/-! ## The operations on an object that nobody waits at (R264 to R266) -/

section Object

variable {s : State} {key : Nat}

theorem barrierWaiters_barWrite (s : State) (key w0 status k n : Nat) :
    barrierWaiters (barWrite s key w0 status) k n = barrierWaiters s k n := rfl

theorem barInit_of_count {n : Nat} (hlo : 1 ≤ n) (hhi : n ≤ 1048575) (alone : barrierWaiters s key 16 = []) :
    barInit s key n = barWrite s key (barMake 0 n n) 0 := by
  rw [barInit, if_pos ⟨hlo, hhi⟩, releaseAll, barrierWaiters_barWrite, alone, List.foldl_nil]

theorem barArrive_broken (broken : barStatus s key / 4 % 2 = 1) :
    barArrive s key = (s, brokenResult (phaseOf (barWord0 s key))) := by
  simp only [barArrive, bit_of_broken broken, if_true]

/-- An arrival at a good object of which some are still awaited (R265). -/
theorem barArrive_of_good (good : barStatus s key / 4 % 2 = 0) (some_left : 1 ≤ barRemain (barWord0 s key))
    (within : barRemain (barWord0 s key) ≤ barN (barWord0 s key)) (alone : barrierWaiters s key 16 = []) :
    let w0 := barWord0 s key
    let phase := phaseOf w0
    barArrive s key = if barRemain w0 = 1
      then (barWrite s key (barMake ((phase + 1) % 2 ^ 24) (barN w0) (barN w0)) (barStatus s key), BitVec.ofNat 64 (2 ^ 62 + phase))
      else (barWrite s key (barMake phase (barN w0) (barRemain w0 - 1)) (barStatus s key), BitVec.ofNat 64 phase) := by
  have sane : ¬ (barN (barWord0 s key) = 0 ∨ barRemain (barWord0 s key) = 0 ∨ barN (barWord0 s key) < barRemain (barWord0 s key)) := by
    omega
  simp only [barArrive, bit_of_good good, Bool.false_eq_true, if_false, sane, satisfyAll, barrierWaiters_barWrite, alone, List.foldl_nil]

/-- A BARWAIT is answered at once at a BROKEN object (R266). -/
theorem barWaitAnswer_broken (arg : Word) (broken : barStatus s key / 4 % 2 = 1) :
    barWaitAnswer s key arg = some (BitVec.ofNat 64 (2 ^ 63 + barWord0 s key / 2 ^ 40)) := by
  simp only [barWaitAnswer, bit_of_broken broken, if_true, brokenResult_eq (w := barWord0 s key) (s.num8_lt key)]

/-- At a good object it is answered when its phase has ended, and waits otherwise (R266). -/
theorem barWaitAnswer_of_good (arg : Word) (good : barStatus s key / 4 % 2 = 0) :
    (barWord0 s key / 2 ^ 40 ≠ arg.toNat % 2 ^ 24 →
      barWaitAnswer s key arg = some (BitVec.ofNat 64 (barWord0 s key / 2 ^ 40)))
    ∧ (barWord0 s key / 2 ^ 40 = arg.toNat % 2 ^ 24 → barWaitAnswer s key arg = none) := by
  have waited : bits arg.toNat 23 0 = arg.toNat % 2 ^ 24 := by rw [bits_eq_mod, Nat.pow_zero, Nat.div_one]
  have phase := phaseOf_eq (w := barWord0 s key) (s.num8_lt key)
  simp only [barWaitAnswer, bit_of_good good, Bool.false_eq_true, if_false, waited, phase]
  exact ⟨fun ended => if_pos ended, fun now => if_neg (not_not.mpr now)⟩

/-- Behind no line of HBM4 a barrier operation's write renews no copy. -/
theorem barCache_of_high (i : Nat) (high : hbmEnd ≤ key) : barCache s i key = s := by
  unfold barCache
  split
  · exact if_neg (Nat.not_lt.mpr high)
  · rfl

end Object

/-! ## Answers (R266) -/

/-- Of the instances `t` has changed the control context of instance `i` alone. -/
def OnlyCtl (i : Nat) (s t : State) : Prop := ∃ g, t.insts = (s.modCtl i g).insts

namespace OnlyCtl

theorem of_insts {i : Nat} {s t : State} (h : t.insts = s.insts) : OnlyCtl i s t :=
  ⟨fun c => c, h.trans (congrArg State.insts (State.modCtl_id s i)).symm⟩

theorem trans {i : Nat} {s t u : State} (h : OnlyCtl i s t) (k : OnlyCtl i t u) : OnlyCtl i s u := by
  obtain ⟨g, ht⟩ := h
  obtain ⟨g', hu⟩ := k
  refine ⟨fun c => g' (g c), ?_⟩
  rw [← State.modCtl_modCtl]
  have again : (t.modCtl i g').insts = ((s.modCtl i g).modCtl i g').insts := by
    unfold State.modCtl State.modInst
    exact congrArg (amod i _) ht
  exact hu.trans again

theorem modCtl (i : Nat) (s : State) (g : Ctl → Ctl) : OnlyCtl i s (s.modCtl i g) := ⟨g, rfl⟩

theorem of_slotOnly {i : Nat} {s t : State} (h : SlotOnly i s t) : OnlyCtl i s t := by
  obtain ⟨_, _, rfl⟩ := h
  exact modCtl i s _

theorem bindBlock (i : Nat) (s : State) : OnlyCtl i s (bindBlock s i) := by
  unfold Machine.bindBlock
  split
  · exact of_insts rfl
  · rename_i b block
    split
    · exact of_insts rfl
    · have entered : OnlyCtl i s (enterBelow s i (sideLimit b)) := ⟨_, enterBelow_insts (sideLimit b) block⟩
      exact entered.trans (modCtl i _ _)

theorem performed (i k : Nat) (s : State) : OnlyCtl i s (performed s i k) :=
  (bindBlock i s).trans ((modCtl i _ _).trans (modCtl i _ _))

theorem answer (i k : Nat) (v : Option Word) (s : State) : OnlyCtl i s (answer s i k v) := by
  cases v with
  | none => exact performed i k s
  | some v =>
    rw [answer_some]
    cases slotTargets (Machine.performed s i k) i k with
    | nil => exact performed i k s
    | cons x _ => exact (performed i k s).trans (of_slotOnly (SlotOnly.deliver _ i x (.val v)))

/-- The instance stands on its core as before. -/
theorem cluster {i : Nat} {s t : State} {n : Inst} (h : OnlyCtl i s t) (inst : s.inst? i = some n) :
    ∃ m, t.inst? i = some m ∧ m.cluster = n.cluster := by
  obtain ⟨g, insts⟩ := h
  refine ⟨{ n with ctl := g n.ctl }, ?_, rfl⟩
  rw [State.inst?, insts, ← State.inst?, State.inst_modCtl_self, inst, Option.map_some]

end OnlyCtl

/-- An answered BARWAIT: its result, and an acquire at its scope. -/
theorem answerWait_leaves (s : State) (i k key : Nat) (sc : Scope) (v : Word) : let t := answerWait s i k key sc v
    t.mem = s.mem ∧ t.insts = (answer s i k (some v)).insts
      ∧ ∀ n, s.inst? i = some n → clusterUp sc = true → (t.core n.cluster).cache = [] := by
  have answers := (OnBindPart.answer i k (some v)).mem s
  dsimp only
  cases now : (answer s i k (some v)).inst? i with
  | none =>
    simp only [answerWait, now]
    refine ⟨answers, trivial, fun n inst _ => ?_⟩
    obtain ⟨m, here, -⟩ := (OnlyCtl.answer i k (some v) s).cluster inst
    rw [now] at here
    cases here
  | some m =>
    have caches := (OnlyCaches.refreshLine (answer s i k (some v)) m.cluster key).trans (OnlyCaches.acquire _ m.cluster sc)
    simp only [answerWait, now]
    refine ⟨caches.mem.trans answers, caches.insts, fun n inst wide => ?_⟩
    obtain ⟨m', here, core⟩ := (OnlyCtl.answer i k (some v) s).cluster inst
    rw [now] at here
    cases here
    rw [← core]
    exact acquire_cache _ _ wide

/-! ## BARRIER_OP_PERFORM and BARWAIT_POLL (R263 to R266) -/

section Perform

variable {s : State} {i k key : Nat} {b : Block} {op : BarOp} {sc : Scope} {arg : Word}

/-- Where no row or line of a run is poisoned, none is left so by the block's own stores. -/
theorem poisonLeft_of_clean {n : Nat} (clean : poisonedIn s.poison key n = false) : poisonLeft s b key n = false := by
  simp only [poisonedIn, List.any_eq_false, poisonLeft] at clean ⊢
  intro g hg
  simp [clean g hg]

/-- A registered BARWAIT that has its result performs (R104). -/
theorem exec_barrierOpPerform_registered (hb : s.blk? i = some b) (hreq : b.req = some ⟨k, .barrier .wait key sc arg, true⟩)
    (got : (b.rec_ k).got ≠ []) :
    exec (.barrierOpPerform i) s = .next (answerWait s i k key sc (BitVec.ofNat 64 (leNat (b.rec_ k).got))) := by
  have block : (s.inst? i).bind (fun n => n.ctl.blk) = some b := hb
  have some_got : (b.rec_ k).got.isEmpty = false := by simpa using got
  simp only [exec_barrierOpPerform, execBarrierOpPerform, block, hreq, some_got]
  rfl

/-- A BARWAIT that polls looks again after 1 µs (R266). -/
theorem exec_barwaitPoll_due (hb : s.blk? i = some b) (hreq : b.req = some ⟨k, .barrier .wait key sc arg, false⟩)
    (polls : (b.rec_ k).st = .blocked) (due : (b.rec_ k).since + 1600 ≤ s.cycle) (awake : s.asleep key = false)
    (flaws : s.flaws = []) (clean : poisonedIn s.poison key 16 = false) :
    exec (.barwaitPoll i) s = .next (match barWaitAnswer s key arg with
      | some v => answerWait s i k key sc v
      | none => s.modSlot i k fun r => { r with since := s.cycle }) := by
  have block : (s.inst? i).bind (fun n => n.ctl.blk) = some b := hb
  have now : ((b.rec_ k).st == .blocked && decide ((b.rec_ k).since + cyclesPerUs ≤ s.cycle) && !s.asleep key) = true := by
    simp [polls, cyclesPerUs, due, awake]
  simp only [exec_barwaitPoll, execBarwaitPoll, block, hreq, now, meetFlaws_of_no_flaws flaws, clean]
  cases barWaitAnswer s key arg <;> rfl

variable (hb : s.blk? i = some b) (hreq : b.req = some ⟨k, .barrier op key sc arg, false⟩) (ready : sideReady s i b k = true)
  (queued : (b.rec_ k).st = .queued) (awake : s.asleep key = false) (flaws : s.flaws = [])
  (clean : poisonedIn s.poison key 16 = false)
include hb hreq ready queued awake flaws clean

/-- BARINIT and BARARR whose order lets them perform: the block binds in the step (R264, R265). -/
theorem exec_barrierOpPerform_writes (writes : op ≠ .wait) (may : objectMay (bindBlock s i) i key 16 true sc false = true) :
    exec (.barrierOpPerform i) s = .next (performBar (bindBlock s i) i k op key arg) := by
  have block : (s.inst? i).bind (fun n => n.ctl.blk) = some b := hb
  have other : (op == .wait) = false := beq_false_of_ne writes
  have going : ((b.rec_ k).st == .blocked || !sideReady s i b k || s.asleep key) = false := by simp [queued, ready, awake]
  simp only [exec_barrierOpPerform, execBarrierOpPerform, block, hreq, going, other, objectTurn_of_may flaws may,
    poisonLeft_of_clean clean]
  rfl

/-- A BARWAIT whose order lets it look at the object (R266, log 107). -/
theorem exec_barrierOpPerform_waits (waits : op = .wait) (noDue : s.due? i = none)
    (may : objectMay s i key 16 false sc false = true) :
    exec (.barrierOpPerform i) s = .next (performWait s i k key sc arg) := by
  have block : (s.inst? i).bind (fun n => n.ctl.blk) = some b := hb
  have faultless : ((s.inst? i).map fun n => n.ctl.due.isSome).getD false = false := by
    rw [State.due?] at noDue
    cases inst : s.inst? i with
    | none => rfl
    | some n => rw [inst, Option.bind_some] at noDue; simp [noDue]
  have going : ((b.rec_ k).st == .blocked || !sideReady s i b k || s.asleep key) = false := by simp [queued, ready, awake]
  subst waits
  simp only [exec_barrierOpPerform, execBarrierOpPerform, block, hreq, going, faultless, meetFlaws_of_no_flaws flaws]
  simp [may, clean]

end Perform

/-! ## What the block's binding leaves of the object -/

section Bound

variable {s : State} {i key : Nat}

theorem barWord0_bindBlock (s : State) (i key : Nat) : barWord0 (bindBlock s i) key = barWord0 s key := by
  rw [barWord0, State.num8, State.bytes, (OnBindPart.bindBlock i).mem, barWord0, State.num8, State.bytes]

theorem barStatus_bindBlock (s : State) (i key : Nat) : barStatus (bindBlock s i) key = barStatus s key := by
  rw [barStatus, State.num8, State.bytes, (OnBindPart.bindBlock i).mem, barStatus, State.num8, State.bytes]

/-- An arrival in the step in which its block binds, others still awaited (R265). -/
theorem barArrive_bindBlock_more (good : barStatus s key / 4 % 2 = 0) (more : 1 < barWord0 s key % 2 ^ 20)
    (within : barWord0 s key % 2 ^ 20 ≤ barWord0 s key / 2 ^ 20 % 2 ^ 20) (alone : barrierWaiters (bindBlock s i) key 16 = []) :
    barArrive (bindBlock s i) key = (barWrite (bindBlock s i) key (barMake (barWord0 s key / 2 ^ 40)
        (barWord0 s key / 2 ^ 20 % 2 ^ 20) (barWord0 s key % 2 ^ 20 - 1)) (barStatus s key),
      BitVec.ofNat 64 (barWord0 s key / 2 ^ 40)) := by
  have arrives := barArrive_of_good (s := bindBlock s i) (key := key)
  simp only [barStatus_bindBlock, barWord0_bindBlock, phaseOf_eq (w := barWord0 s key) (s.num8_lt key), barN_eq,
    barRemain_eq] at arrives
  exact (arrives good (by omega) within alone).trans (if_neg (by omega))

/-- The last arrival, in the step in which its block binds (R265). -/
theorem barArrive_bindBlock_last (good : barStatus s key / 4 % 2 = 0) (last : barWord0 s key % 2 ^ 20 = 1)
    (some_n : 1 ≤ barWord0 s key / 2 ^ 20 % 2 ^ 20) (alone : barrierWaiters (bindBlock s i) key 16 = []) :
    barArrive (bindBlock s i) key = (barWrite (bindBlock s i) key (barMake ((barWord0 s key / 2 ^ 40 + 1) % 2 ^ 24)
        (barWord0 s key / 2 ^ 20 % 2 ^ 20) (barWord0 s key / 2 ^ 20 % 2 ^ 20)) (barStatus s key),
      BitVec.ofNat 64 (2 ^ 62 + barWord0 s key / 2 ^ 40)) := by
  have arrives := barArrive_of_good (s := bindBlock s i) (key := key)
  simp only [barStatus_bindBlock, barWord0_bindBlock, phaseOf_eq (w := barWord0 s key) (s.num8_lt key), barN_eq,
    barRemain_eq] at arrives
  exact (arrives good (by omega) (by omega) alone).trans (if_pos last)

/-- What is left of an operation that writes the object in the step in which its block binds, and answers. -/
theorem answered_barWrite_leaves (k : Nat) {w0 status : Nat} (x : Option Word) (hwf : s.mem.wf = true) (hw : w0 < 2 ^ 64)
    (hs : status < 2 ^ 64) : let t := answer (barWrite (bindBlock s i) key w0 status) i k x
    SameMemBut s t key 16 ∧ leNat (t.bytes key 8) = w0 ∧ leNat (t.bytes (key + 8) 8) = status := by
  have answers := (OnBindPart.answer i k x).mem (barWrite (bindBlock s i) key w0 status)
  have bound : (barWrite (bindBlock s i) key w0 status).mem = (barWrite s key w0 status).mem :=
    congrArg (fun m => Memory.writeN m key (leBytes 8 w0 ++ leBytes 8 status)) ((OnBindPart.bindBlock i).mem s)
  exact barWrite_leaves hwf hw hs (answers.trans bound)

end Bound

theorem performBar_init {s : State} {key : Nat} (i k : Nat) {arg : Word} (high : hbmEnd ≤ key) (hlo : 1 ≤ arg.toNat)
    (hhi : arg.toNat ≤ 1048575) (alone : barrierWaiters s key 16 = []) : performBar s i k .init key arg
      = answer (barWrite s key (barMake 0 arg.toNat arg.toNat) 0) i k none := by
  rw [performBar, barCache_of_high i high, barInit_of_count hlo hhi alone]

theorem performBar_arrive {s u : State} {key : Nat} {x : Word} (i k : Nat) (arg : Word) (high : hbmEnd ≤ key)
    (arrives : barArrive s key = (u, x)) : performBar s i k .arrive key arg = answer u i k (some x) := by
  simp only [performBar, arrives, barCache_of_high i high]

theorem performWait_answered {s : State} {key : Nat} {arg x : Word} (i k : Nat) (sc : Scope)
    (answered : barWaitAnswer s key arg = some x) : performWait s i k key sc arg = answerWait s i k key sc x := by
  rw [performWait, answered]

theorem performWait_registers {s : State} {key : Nat} {arg : Word} (i k : Nat) (sc : Scope)
    (waits : barWaitAnswer s key arg = none) (room : canRegister s key = true) :
    performWait s i k key sc arg = s.modBlk i fun b => { b with req := some ⟨k, .barrier .wait key sc arg, true⟩ } := by
  rw [performWait, waits]
  exact if_pos room

/-! ## O31 -/

/-- Settles O31: the home decides a request that its order lets perform, by the words of the object, and a wait that is
answered leaves what `answerWait_leaves` says. -/
theorem barrierObjectSteps : Obligations.BarrierObjectSteps := by
  unfold Obligations.BarrierObjectSteps
  refine ⟨?_, fun s i k key b sc arg hb hreq got => ⟨_, exec_barrierOpPerform_registered hb hreq got, answerWait_leaves ..⟩, ?_⟩
  · intro s i k key b op sc arg hwf hb noDue hreq ready queued awake flaws clean high v may alone w0 phase n remain status
    have word : w0 < 2 ^ 64 := s.num8_lt key
    have word1 : status < 2 ^ 64 := s.num8_lt (key + 8)
    have small : phase < 2 ^ 24 ∧ n < 2 ^ 20 ∧ remain < 2 ^ 20 := by omega
    obtain ⟨hphase, hn, hremain⟩ := small
    have writes (other : op ≠ .wait) : exec (.barrierOpPerform i) s = .next (performBar (bindBlock s i) i k op key arg)
        ∧ barrierWaiters (bindBlock s i) key 16 = [] ∧ v = bindBlock s i := by
      have rel : (op != .wait) = true := bne_iff_ne.mpr other
      have bound : v = bindBlock s i := if_neg other
      rw [bound] at may alone
      rw [rel] at may
      exact ⟨exec_barrierOpPerform_writes hb hreq ready queued awake flaws clean other may, alone, bound⟩
    have waits (wait : op = .wait) : exec (.barrierOpPerform i) s = .next (performWait s i k key sc arg) := by
      subst wait
      exact exec_barrierOpPerform_waits hb hreq ready queued awake flaws clean rfl noDue may
    refine ⟨fun init hlo hhi => ?_, fun arrive good more within => ?_, fun arrive good last some_n => ?_,
      fun other broken => ?_, fun wait good ended => ?_, fun wait good now room => ?_⟩
    · subst init
      obtain ⟨performs, alone, -⟩ := writes (by decide)
      rw [performBar_init i k high hlo hhi alone] at performs
      obtain ⟨others, first, second⟩ := answered_barWrite_leaves (i := i) (key := key) k none hwf
        (barMake_lt (phase := 0) (n := arg.toNat) (remain := arg.toNat) (by omega) (by omega) (by omega)) (Nat.two_pow_pos 64)
      exact ⟨_, performs, others, first.trans (by rw [barMake, Nat.zero_mul, Nat.zero_add]), second⟩
    · subst arrive
      obtain ⟨performs, alone, bound⟩ := writes (by decide)
      have arrives := barArrive_bindBlock_more good more within alone
      rw [performBar_arrive i k arg high arrives] at performs
      obtain ⟨others, first, -⟩ := answered_barWrite_leaves (i := i) (key := key) k (some (BitVec.ofNat 64 phase)) hwf
        (barMake_lt (remain := remain - 1) hphase hn (by omega)) word1
      exact ⟨_, performs, others, first, barWrite (bindBlock s i) key _ status, (congrArg State.insts bound.symm :), rfl⟩
    · subst arrive
      obtain ⟨performs, alone, bound⟩ := writes (by decide)
      have arrives := barArrive_bindBlock_last good last some_n alone
      rw [performBar_arrive i k arg high arrives] at performs
      obtain ⟨others, first, -⟩ := answered_barWrite_leaves (i := i) (key := key) k (some (BitVec.ofNat 64 (2 ^ 62 + phase))) hwf
        (barMake_lt (phase := (phase + 1) % 2 ^ 24) (by omega) hn hn) word1
      exact ⟨_, performs, others, first, barWrite (bindBlock s i) key _ status, (congrArg State.insts bound.symm :), rfl⟩
    · cases op with
      | init => exact absurd rfl other
      | arrive =>
        obtain ⟨performs, -⟩ := writes (by decide)
        have arrives := barArrive_broken (s := bindBlock s i) (key := key) (by rw [barStatus_bindBlock]; exact broken)
        rw [barWord0_bindBlock, brokenResult_eq (w := barWord0 s key) word] at arrives
        rw [performBar_arrive i k arg high arrives, answer_bindBlock hb] at performs
        exact ⟨_, performs, (OnBindPart.answer i k _).mem s, rfl⟩
      | wait =>
        have looks := waits rfl
        rw [performWait_answered i k sc (barWaitAnswer_broken arg broken)] at looks
        obtain ⟨mem, insts, -⟩ := answerWait_leaves s i k key sc (BitVec.ofNat 64 (2 ^ 63 + phase))
        exact ⟨_, looks, mem, insts⟩
    · have looks := waits wait
      rw [performWait_answered i k sc ((barWaitAnswer_of_good arg good).1 ended)] at looks
      obtain ⟨mem, insts, -⟩ := answerWait_leaves s i k key sc (BitVec.ofNat 64 phase)
      exact ⟨_, looks, mem, insts⟩
    · have looks := waits wait
      rw [performWait_registers i k sc ((barWaitAnswer_of_good arg good).2 now) room] at looks
      rw [looks, wait]
  · intro s i k key b sc arg hb hreq polls due awake flaws clean good phase
    have polled := exec_barwaitPoll_due hb hreq polls due awake flaws clean
    obtain ⟨ends, goesOn⟩ := barWaitAnswer_of_good arg good
    by_cases now : phase = arg.toNat % 2 ^ 24
    · rw [goesOn now] at polled
      exact ⟨_, polled, rfl, fun ended => absurd now ended, fun _ => rfl⟩
    · rw [ends now] at polled
      obtain ⟨mem, insts, -⟩ := answerWait_leaves s i k key sc (BitVec.ofNat 64 phase)
      exact ⟨_, polled, mem, fun _ => insts, fun same => absurd same now⟩

end Sys2Proof.Machine
end

section
/-! PROOFS. What translating an access changes (R24, R30, R47), and with it the frame of the memory instructions (O27). -/

namespace Sys2Proof.Machine

open Sys2Proof.Bits Sys2Proof.Rows

/-! ## The bytes of a leaf with a bit set (R24) -/

theorem leBytes_leNat (bs : List Byte) : leBytes bs.length (leNat bs) = bs := by
  induction bs with
  | nil => rfl
  | cons b bs ih =>
    have low : BitVec.ofNat 8 (b.toNat + 256 * leNat bs) = b := BitVec.eq_of_toNat_eq (by rw [BitVec.toNat_ofNat]; omega)
    have rest : (b.toNat + 256 * leNat bs) / 256 = leNat bs := by omega
    rw [List.length_cons, leNat, leBytes, low, rest, ih]

/-- Bits below 256 set in a number change its first byte alone. -/
theorem leBytes_or {b : Byte} {bs : List Byte} {k : Nat} (hk : k < 256) :
    leBytes (bs.length + 1) (leNat (b :: bs) ||| k) = (b ||| BitVec.ofNat 8 k) :: bs := by
  have low : BitVec.ofNat 8 (b.toNat + 256 * leNat bs) = b := BitVec.eq_of_toNat_eq (by rw [BitVec.toNat_ofNat]; omega)
  have rest : ((b.toNat + 256 * leNat bs) ||| k) / 256 = leNat bs := by
    rw [show (256 : Nat) = 2 ^ 8 from rfl, ← Nat.shiftRight_eq_div_pow, Nat.shiftRight_or_distrib, Nat.shiftRight_eq_div_pow,
      Nat.shiftRight_eq_div_pow, Nat.div_eq_of_lt hk, Nat.or_zero]
    omega
  rw [leNat, leBytes, BitVec.ofNat_or, low, rest, leBytes_leNat]

/-- D clear, 32 more is D set. -/
theorem add_32_eq_or {v : Nat} (clear : bit v 5 = false) : v + 32 = v ||| 32 := by
  have low : v % 64 < 32 := by
    have := bit_eq_decide v 5
    rw [clear] at this
    have : v / 2 ^ 5 % 2 ≠ 1 := of_decide_eq_false this.symm
    omega
  have upper (r : Nat) (hr : r < 64) : 64 * (v / 64) + r = 64 * (v / 64) ||| r :=
    Nat.two_pow_add_eq_or_of_lt (i := 6) hr (v / 64)
  calc v + 32 = 64 * (v / 64) + (32 + v % 64) := by omega
    _ = 64 * (v / 64) ||| (32 + v % 64) := upper _ (by omega)
    _ = 64 * (v / 64) ||| (v % 64 ||| 32) := by
      rw [Nat.or_comm (v % 64) 32]
      exact congrArg _ (Nat.two_pow_add_eq_or_of_lt (i := 5) low 1)
    _ = v ||| 32 := by rw [← Nat.or_assoc, ← upper _ (by omega), Nat.div_add_mod]

/-- A leaf's bytes, read from `m`, with bits of its first byte set, written over a memory `m'`. -/
theorem read_write_leaf {m m' : Memory} (addr : Nat) {k : Nat} (hk : k < 256) (hwf : m'.wf = true) (a : Nat) :
    (m'.writeN addr (leBytes 8 (leNat (m.readN addr 8) ||| k))).read a
      = if a = addr then m.read addr ||| BitVec.ofNat 8 k else if addr < a ∧ a < addr + 8 then m.read a else m'.read a := by
  have length : (m.readN (addr + 1) 7).length = 7 := Memory.length_readN ..
  have bytes : leBytes 8 (leNat (m.readN addr 8) ||| k) = (m.read addr ||| BitVec.ofNat 8 k) :: m.readN (addr + 1) 7 := by
    have := leBytes_or (b := m.read addr) (bs := m.readN (addr + 1) 7) hk
    rwa [length] at this
  rw [bytes]
  generalize written : (m.read addr ||| BitVec.ofNat 8 k) :: m.readN (addr + 1) 7 = bs
  have size : bs.length = 8 := by rw [← written, List.length_cons, length]
  have inside (j : Nat) (hj : j < 8) : (m'.writeN addr bs).read (addr + j) = bs.getD j 0 := by
    have back := Memory.readN_writeN m' addr bs hwf
    rw [size] at back
    rw [← Memory.getD_readN _ _ hj, back]
  split
  · rename_i here
    rw [here]
    exact (inside 0 (by omega)).trans (by rw [← written]; rfl)
  · split
    · rename_i off within
      obtain ⟨j, rfl⟩ : ∃ j, a = addr + (j + 1) := ⟨a - addr - 1, by omega⟩
      rw [inside (j + 1) (by omega), ← written, List.getD_cons_succ, Memory.getD_readN _ _ (by omega), Nat.add_assoc,
        Nat.add_comm 1 j]
    · exact Memory.read_writeN_outside _ _ _ _ (by omega)

/-! ## What translating leaves -/

/-- Byte `a` reads in `m'` as in `m` but for A and D of a leaf of `L`, and for the rows and lines of the errors `F`. -/
def ByteKept (F : List Flaw) (L : List Nat) (m m' : Memory) (a : Nat) : Prop :=
  m'.read a = m.read a ∨ (a ∈ L ∧ ∃ k ∈ [(0x10 : Byte), 0x20, 0x30], m'.read a = m.read a ||| k)
    ∨ ∃ f ∈ F, f.key ≤ a ∧ a < f.key + granule f.key

theorem ByteKept.trans {F : List Flaw} {L : List Nat} {m m' m'' : Memory} {a : Nat} (h : ByteKept F L m m' a)
    (k : ByteKept F L m' m'' a) : ByteKept F L m m'' a := by
  have both : ∀ x ∈ [(0x10 : Byte), 0x20, 0x30], ∀ y ∈ [(0x10 : Byte), 0x20, 0x30], x ||| y ∈ [(0x10 : Byte), 0x20, 0x30] := by
    decide
  rcases k with same | ⟨leaf, y, hy, set⟩ | flaw
  · rwa [ByteKept, same]
  · rcases h with same | ⟨-, x, hx, set'⟩ | flaw
    · exact .inr (.inl ⟨leaf, y, hy, by rw [set, same]⟩)
    · exact .inr (.inl ⟨leaf, x ||| y, both x hx y hy, by rw [set, set', BitVec.or_assoc]⟩)
    · exact .inr (.inr flaw)
  · exact .inr (.inr flaw)

/-- `t` is `s` but for what translating leaves, of which leaves `L` may get A and D set, and errors `F` may be met. Where a leaf
is written, memory has to be in its canonical form. -/
structure Translates (F : List Flaw) (L : List Nat) (s t : State) : Prop where
  frame : t = { s with
    mem := t.mem, poison := t.poison, flaws := t.flaws, writebacks := t.writebacks, tlb := t.tlb, walks := t.walks,
    cores := t.cores, dies := t.dies, log := t.log, ports := t.ports, fresh := t.fresh }
  cores : ∀ c, t.core c = { s.core c with ccnt := (t.core c).ccnt }
  dies : ∀ d, t.die d = { s.die d with dcnt := (t.die d).dcnt }
  ports : ∀ p, t.port p = { s.port p with msixPending := (t.port p).msixPending, msixSent := (t.port p).msixSent }
  flaws : t.flaws ⊆ s.flaws
  wf : s.mem.wf = true → t.mem.wf = true
  mem : (L = [] ∨ s.mem.wf = true) → ∀ a, ByteKept F L s.mem t.mem a

theorem State.die_modDie_ne (s : State) {d e : Nat} (f : DieState → DieState) (h : e ≠ d) : (s.modDie d f).die e = s.die e := by
  simp only [State.die, State.modDie, agetD, aget_aset_ne d e _ _ h]

namespace Translates

variable {F : List Flaw} {L : List Nat}

/-- What leaves memory, its errors, cores, dies and ports as they are. -/
theorem of_rest {s t : State} (frame : t = { s with
    poison := t.poison, writebacks := t.writebacks, tlb := t.tlb, walks := t.walks, log := t.log, fresh := t.fresh }) :
    Translates F L s t := by
  rw [frame]
  exact ⟨rfl, fun _ => rfl, fun _ => rfl, fun _ => rfl, fun _ h => h, fun h => h, fun _ _ => .inl rfl⟩

theorem refl (s : State) : Translates F L s s := of_rest rfl

theorem trans {s t u : State} (h : Translates F L s t) (k : Translates F L t u) : Translates F L s u where
  frame := by rw [k.frame, h.frame]
  cores c := by rw [k.cores c, h.cores c]
  dies d := by rw [k.dies d, h.dies d]
  ports p := by rw [k.ports p, h.ports p]
  flaws := List.Subset.trans k.flaws h.flaws
  wf hwf := k.wf (h.wf hwf)
  mem canon a := (h.mem canon a).trans (k.mem (canon.imp_right h.wf) a)

theorem ite {s t u : State} (c : Prop) [Decidable c] (ht : Translates F L s t) (hu : Translates F L s u) :
    Translates F L s (if c then t else u) := by
  split
  · exact ht
  · exact hu

/-! ### Counters, log, stored errors -/

theorem countCore (s : State) (core code n : Nat) : Translates F L s (s.countCore core code n) := by
  refine ite _ ⟨rfl, fun c => ?_, fun _ => rfl, fun _ => rfl, fun _ h => h, fun h => h, fun _ _ => .inl rfl⟩ (refl s)
  by_cases here : c = core
  · rw [here, State.core_modCore_self]
  · rw [State.core_modCore_ne s _ here]

theorem countDie (s : State) (die code n : Nat) : Translates F L s (s.countDie die code n) := by
  refine ite _ ⟨rfl, fun _ => rfl, fun d => ?_, fun _ => rfl, fun _ h => h, fun h => h, fun _ _ => .inl rfl⟩ (refl s)
  by_cases here : d = die
  · rw [here, State.die_modDie_self]
  · rw [State.die_modDie_ne s _ here]

theorem countHome (s : State) (h : Home) (code : Nat) : Translates F L s (s.countHome h code) := by
  unfold State.countHome
  split
  · exact refl s
  · exact countDie s _ _ _

theorem signal (s : State) (port v : Nat) : Translates F L s (s.modPort port fun p => p.signal v) := by
  refine ⟨rfl, fun _ => rfl, fun _ => rfl, fun p => ?_, fun _ h => h, fun h => h, fun _ _ => .inl rfl⟩
  by_cases here : p = port
  · rw [here, State.port_modPort_self]
    unfold HostPort.signal
    dsimp only
    split <;> rfl
  · rw [State.port_modPort_ne s _ here]

theorem logFault (s : State) (code ctx tenant die cluster inst addr detail : Nat) :
    Translates F L s (s.logFault code ctx tenant die cluster inst addr detail) := by
  have logged (log : FaultLog) : Translates F L s { s with log } := of_rest rfl
  exact ite _ ((logged _).trans ((signal _ 0 0).trans (signal _ 1 0))) (logged _)

theorem poisonGranule (s : State) (key : Nat) : Translates F L s (poisonGranule s key) := by
  have poisoned : Translates F L s { s with
      poison := if s.poison.contains (granuleOf key) then s.poison else granuleOf key :: s.poison } := of_rest rfl
  exact (poisoned.trans (logFault _ _ _ _ _ _ _ _ _)).trans (countHome _ _ _)

/-- Beyond its code, an error leaves free bytes in its own row or line (R47). -/
theorem freeGranule (s : State) {f : Flaw} (hf : f ∈ F) : Translates F L s (freeGranule s f.key) := by
  refine ⟨rfl, fun _ => rfl, fun _ => rfl, fun _ => rfl, fun _ h => h, freeGranule_wf s f.key, fun _ a => ?_⟩
  by_cases inside : f.key ≤ a ∧ a < f.key + granule f.key
  · exact .inr (.inr ⟨f, hf, inside⟩)
  · refine .inl (Memory.read_writeN_outside _ _ _ _ ?_)
    rw [List.length_map, List.length_range]
    omega

theorem meetFlaw (back : Bool) (s : State) {f : Flaw} (hf : f ∈ F) : Translates F L s (meetFlaw back s f) := by
  have corrected : Translates F L s (s.countHome (homeOf f.key) 0x030) := countHome s (homeOf f.key) 0x030
  exact ite _ (refl s) (ite _ (ite _ (corrected.trans (of_rest rfl)) corrected)
    (ite _ (poisonGranule s f.key) (freeGranule s hf)))

/-- A read meets errors that were there. -/
theorem meetFlaws (s : State) (key n : Nat) (hF : s.flaws ⊆ F) : Translates F L s (meetFlaws s key n) := by
  have taken (p : Flaw → Bool) : Translates F L s { s with flaws := s.flaws.filter p } :=
    ⟨rfl, fun _ => rfl, fun _ => rfl, fun _ => rfl, List.filter_subset_self _, fun h => h, fun _ _ => .inl rfl⟩
  have met (fs : List Flaw) (hfs : fs ⊆ F) (t : State) : Translates F L t (fs.foldl (Machine.meetFlaw true) t) := by
    induction fs generalizing t with
    | nil => exact refl t
    | cons f fs ih =>
      obtain ⟨hf, hfs⟩ := List.cons_subset.mp hfs
      exact (meetFlaw true t hf).trans (ih hfs _)
  exact (taken _).trans (met _ (List.Subset.trans (List.filter_subset_self _) hF) _)

/-! ### Walks and leaves (R17, R20, R24) -/

/-- A leaf's bytes as they stood in `s`, written back with A or D set. -/
theorem setLeaf {s u : State} (h : Translates F L s u) {addr k : Nat} (hL : addr ∈ L) (hk : k ∈ [0x10, 0x20, 0x30]) :
    Translates F L s (u.putBytes addr (leBytes 8 (s.num8 addr ||| k))) where
  frame := (congrArg (fun v : State => v.putBytes addr (leBytes 8 (s.num8 addr ||| k))) h.frame :)
  cores := h.cores
  dies := h.dies
  ports := h.ports
  flaws := List.Subset.trans (List.filter_subset_self _) h.flaws
  wf hwf := Memory.wf_writeN _ _ _ (h.wf hwf)
  mem canon a := by
    have hwf : s.mem.wf = true := canon.resolve_left (List.ne_nil_of_mem hL)
    have small : k < 256 ∧ BitVec.ofNat 8 k ∈ [(0x10 : Byte), 0x20, 0x30] := by
      simp only [List.mem_cons, List.not_mem_nil, or_false] at hk
      rcases hk with rfl | rfl | rfl <;> decide
    have written := read_write_leaf (m := s.mem) addr small.1 (h.wf hwf) a
    change ByteKept F L s.mem (u.mem.writeN addr (leBytes 8 (leNat (s.mem.readN addr 8) ||| k))) a
    split at written
    · rename_i here
      exact .inr (.inl ⟨here ▸ hL, _, small.2, by rw [written, here]⟩)
    · split at written
      · exact .inl written
      · have kept := h.mem canon a
        rwa [ByteKept, ← written] at kept

theorem walkLevels (va : Nat) (ls : List Nat) (s : State) (table : Nat) (hF : s.flaws ⊆ F) :
    Translates F L s (walkLevels va ls s table).1 := by
  induction ls generalizing s table with
  | nil => exact refl s
  | cons lv rest ih =>
    have met : Translates F L s (Machine.meetFlaws s (table + vaIndex va lv * 8) 8) := meetFlaws s _ 8 hF
    unfold Machine.walkLevels
    dsimp only
    split
    · exact refl s
    · split
      · exact met
      · split
        · exact met
        · split
          · exact met.trans (ih _ _ (List.Subset.trans met.flaws hF))
          · exact met

theorem walk (s : State) (ctx va : Nat) (hF : s.flaws ⊆ F) : Translates F L s (walk s ctx va).1 := by
  unfold Machine.walk
  split
  · exact refl s
  · exact walkLevels _ _ _ _ hF

theorem installLeaf (s : State) (core : Option Nat) (die ctx va : Nat) {e addr : Nat} (lg : Nat) (dirty : Bool)
    (hF : s.flaws ⊆ F) (hL : addr ∈ L) (he : s.num8 addr = e) :
    Translates F L s (installLeaf s core die ctx va e addr lg dirty).1 := by
  have read (c : Bool) : Translates F L s (if c then Machine.meetFlaws s (addr - addr % 256) 256 else s) :=
    ite _ (meetFlaws s _ _ hF) (refl s)
  have counted (c : Bool) {u : State} (h : Translates F L s u) : Translates F L s (if c then u.countDie die 0x022 1 else u) :=
    ite _ (h.trans (countDie u _ _ _)) h
  have bits : e ||| 16 ||| (if dirty then 32 else 0) = s.num8 addr ||| (if dirty then 0x30 else 0x10) := by
    rw [he]
    cases dirty
    · exact Nat.or_zero _
    · exact Nat.or_assoc e 16 32
  have swapped {u : State} (h : Translates F L s u) :
      Translates F L s (if e ||| 16 ||| (if dirty then 32 else 0) = e then u
        else u.putBytes addr (leBytes 8 (e ||| 16 ||| (if dirty then 32 else 0)))) := by
    rw [bits]
    exact ite _ h (h.setLeaf hL (by cases dirty <;> decide))
  exact (swapped (counted _ (read _))).trans (of_rest rfl)

theorem endWalk (w : State × Walk) (core : Option Nat) (die ctx va : Nat) (a : Access) (hF : w.1.flaws ⊆ F)
    (hw : ∀ e addr lg, w.2 = .leaf e addr lg → addr ∈ L ∧ w.1.num8 addr = e) :
    Translates F L w.1 (endWalk w core die ctx va a).1 := by
  obtain ⟨s, x⟩ := w
  cases x with
  | absent => exact refl s
  | poisoned => exact refl s
  | leaf e addr lg =>
    obtain ⟨hL, he⟩ := hw e addr lg rfl
    unfold Machine.endWalk Machine.enterLeaf
    dsimp only
    split <;> exact installLeaf s core die ctx va lg _ hF hL he

end Translates

/-- A walk's leaf is the number that stands at its address as the walk ends. -/
theorem num8_of_walkLevels {va e addr lg : Nat} {ls : List Nat} {s : State} {table : Nat}
    (h : (walkLevels va ls s table).2 = .leaf e addr lg) : (walkLevels va ls s table).1.num8 addr = e := by
  induction ls generalizing s table with
  | nil => cases h
  | cons lv rest ih =>
    simp only [walkLevels] at h ⊢
    split at h
    · cases h
    · split at h
      · cases h
      · split at h
        · cases h
        · split at h
          · rename_i low good valid next
            simp only [if_neg low, if_neg good, if_neg valid, if_pos next]
            exact ih h
          · rename_i low good valid last
            simp only [if_neg low, if_neg good, if_neg valid, if_neg last]
            obtain ⟨value, place, -⟩ := Walk.leaf.inj h
            rw [← value, ← place]

/-! ## Translation through the TLBs (R24, R30) -/

/-- The walk that a failed compare at an entry's leaf restarts (R24). -/
def restartedWalk (s : State) (x : TlbEntry) (va : Nat) : State × Walk :=
  walkLevels va (if x.size = 29 then [1, 2] else [2])
    { meetFlaws s x.leaf 8 with tlb := (meetFlaws s x.leaf 8).tlb.filter fun y => y != x } (x.leaf - x.leaf % 65536)

/-- The leaves in which an access through an entry may set a bit. -/
def entryLeaves (s : State) (x : TlbEntry) (va : Nat) : List Nat :=
  x.leaf :: match restartedWalk s x va with
    | (_, .leaf _ addr _) => [addr]
    | _ => []

/-- The leaves of an access's pages, the first page's first. -/
theorem leavesUsed_cons (core : Option Nat) (die ctx : Nat) (a : Access) (s : State) (va n : Nat) (rest : List (Nat × Nat)) :
    leavesUsed core die ctx a s ((va, n) :: rest)
      = ((tlbLookup s core die ctx (va % 2 ^ 64)).elim [] fun x =>
          entryLeaves (countMiss s core die (some x.place)) x (va % 2 ^ 64))
        ++ leavesUsed core die ctx a (lookVirt s core die ctx (va % 2 ^ 64) a).1 rest := by
  rw [leavesUsed]
  cases tlbLookup s core die ctx (va % 2 ^ 64) <;> rfl

namespace Translates

variable {F : List Flaw} {L : List Nat}

theorem throughEntry (s : State) (x : TlbEntry) (core : Option Nat) (die ctx va : Nat) (a : Access)
    (h : a.w = true → s.flaws ⊆ F ∧ entryLeaves s x va ⊆ L) : Translates F L s (throughEntry s x core die ctx va a).1 := by
  unfold Machine.throughEntry
  dsimp only
  split
  · exact refl s
  · split
    · rename_i writes
      obtain ⟨isWrite, clean⟩ := Bool.and_eq_true_iff.mp writes
      obtain ⟨hF, hL⟩ := h isWrite
      have met : Translates F L s (Machine.meetFlaws s x.leaf 8) := meetFlaws s x.leaf 8 hF
      split
      · rename_i current
        obtain ⟨same, -⟩ := Bool.and_eq_true_iff.mp current
        have bits : x.pte + 32 = (Machine.meetFlaws s x.leaf 8).num8 x.leaf ||| 32 := by
          rw [of_decide_eq_true same, add_32_eq_or (by simpa using clean)]
        rw [bits]
        exact met.trans (((refl _).setLeaf (hL List.mem_cons_self) (by decide)).trans (of_rest rfl))
      · have dropped : Translates F L s { Machine.meetFlaws s x.leaf 8 with
            tlb := (Machine.meetFlaws s x.leaf 8).tlb.filter fun y => y != x } := met.trans (of_rest rfl)
        have walked : Translates F L s (restartedWalk s x va).1 :=
          dropped.trans (walkLevels _ _ _ _ (List.Subset.trans dropped.flaws hF))
        refine walked.trans (endWalk (restartedWalk s x va) core die ctx va a (List.Subset.trans walked.flaws hF)
          fun e addr lg leaf => ⟨hL ?_, num8_of_walkLevels leaf⟩)
        have found : restartedWalk s x va = ((restartedWalk s x va).1, .leaf e addr lg) := Prod.ext rfl leaf
        rw [entryLeaves, found]
        exact List.mem_cons_of_mem _ List.mem_cons_self
    · exact refl s

theorem countMiss (s : State) (core : Option Nat) (die : Nat) (hit : Option TlbPlace) :
    Translates F L s (countMiss s core die hit) := by
  have cluster : Translates F L s (match core, hit with
      | some _, some (.cluster _) => s
      | some c, _ => s.countCore c 0x020 1
      | none, _ => s) := by
    split
    · exact refl s
    · exact countCore s _ _ _
    · exact refl s
  exact ite _ (cluster.trans (countDie _ _ _ _)) cluster

theorem lookVirt (s : State) (core : Option Nat) (die ctx va : Nat) (a : Access)
    (h : a.w = true → s.flaws ⊆ F ∧ ∀ x, tlbLookup s core die ctx va = some x →
      entryLeaves (Machine.countMiss s core die (some x.place)) x va ⊆ L) :
    Translates F L s (lookVirt s core die ctx va a).1 := by
  unfold Machine.lookVirt
  split
  · rename_i x found
    have counted : Translates F L s (Machine.countMiss s core die (some x.place)) := countMiss s core die _
    exact counted.trans (throughEntry _ x core die ctx va a fun w =>
      ⟨List.Subset.trans counted.flaws (h w).1, (h w).2 x found⟩)
  · exact countMiss s core die none

theorem xlateVirt (core : Option Nat) (die ctx : Nat) (a : Access) (ts : List (Nat × Nat)) (s : State) (acc : List Piece)
    (h : a.w = true → s.flaws ⊆ F ∧ leavesUsed core die ctx a s ts ⊆ L) :
    Translates F L s (xlateVirt (fun s va => Machine.lookVirt s core die ctx va a) s ts acc).1 := by
  induction ts generalizing s acc with
  | nil => exact refl s
  | cons t rest ih =>
    obtain ⟨va, n⟩ := t
    simp only [leavesUsed_cons, List.append_subset] at h
    have first : Translates F L s (Machine.lookVirt s core die ctx (va % 2 ^ 64) a).1 :=
      lookVirt s core die ctx _ a fun w => ⟨(h w).1, fun x found => by
        have used := (h w).2.1
        rwa [found] at used⟩
    have others (acc : List Piece) := ih (Machine.lookVirt s core die ctx (va % 2 ^ 64) a).1 acc fun w =>
      ⟨List.Subset.trans first.flaws (h w).1, (h w).2.2⟩
    unfold Machine.xlateVirt
    split
    · rename_i u found
      rwa [found] at first
    · rename_i u c found
      rwa [found] at first
    · rename_i u pa policy found
      rw [found] at first others
      exact first.trans (others _)

theorem xlateWar (core : Option Nat) (die ctx : Nat) (a : Access) (ts : List (Nat × Nat)) (s : State) (acc : List Piece) :
    Translates F L s (xlateWar core die ctx a false s ts acc).1 := by
  have found (s : State) (page : Nat) : Translates F L s (findWat s core die ctx page false).1 := by
    unfold findWat
    split
    · rename_i x _
      exact countMiss s core die (some x.place)
    · exact countMiss s core die none
  induction ts generalizing s acc with
  | nil => exact refl s
  | cons t rest ih =>
    obtain ⟨addr, n⟩ := t
    have entry := found s (addr / 0x100000)
    unfold Machine.xlateWar
    split
    · exact refl s
    · split
      · rename_i u e looked
        rwa [looked] at entry
      · rename_i u looked
        rwa [looked] at entry
      · rename_i u e looked
        rw [looked] at entry
        split
        · exact entry
        · exact entry.trans (ih _ _)

/-- A translation through the TLBs alone. -/
theorem xlate (s : State) (core : Option Nat) (local_ die ctx : Nat) (as_ : Space) (addr : Word) (n align : Nat) (a : Access)
    (h : as_ = .virt → a.w = true → s.flaws ⊆ F ∧ leavesUsed core die ctx a s (tokensOf addr.toNat n 8) ⊆ L) :
    Translates F L s (xlate s core local_ die ctx as_ addr n 8 align a false).1 := by
  unfold Machine.xlate
  dsimp only
  split
  · exact refl s
  · cases as_ with
    | virt =>
      dsimp only
      split
      · exact refl s
      · exact xlateVirt core die ctx a _ s [] (h rfl)
    | cab =>
      dsimp only
      split <;> exact refl s
    | war => exact xlateWar core die ctx a _ s []

theorem askWalk (s : State) (w : WalkReq) : Translates F L s (askWalk s w) := of_rest rfl

end Translates

end Sys2Proof.Machine
end

section
/-! PROOFS. The frame of the memory instructions (O27): each translates an access and then changes its own block. What O27 says of
LD, PFT and FENCE holds of every state; what it says of ST and the atomics holds where memory is in its canonical form, which every
step keeps (O9), and fails elsewhere. -/

namespace Sys2Proof.Machine

open Sys2Proof.Bits Sys2Proof.Rows

/-! ## A slot that translates (R30 to R34) -/

/-- `t` is what translating makes of `s`, with the block of instance `i` changed then. -/
def TranslatesThen (F : List Flaw) (L : List Nat) (i : Nat) (s t : State) : Prop := ∃ u, Translates F L s u ∧ SlotOnly i u t

namespace TranslatesThen

variable {F : List Flaw} {L : List Nat} {i : Nat} {s t u : State}

theorem of_slotOnly (h : SlotOnly i s t) : TranslatesThen F L i s t := ⟨s, .refl s, h⟩

theorem then_slotOnly (h : TranslatesThen F L i s t) (k : SlotOnly i t u) : TranslatesThen F L i s u := by
  obtain ⟨v, translated, slot⟩ := h
  exact ⟨v, translated, slot.trans k⟩

theorem translating (h : TranslatesThen s.flaws L i s t) (canon : L = [] ∨ s.mem.wf = true) : Translating i s t L := by
  obtain ⟨u, translated, b, d, rfl⟩ := h
  exact ⟨⟨b, d, (congrArg (fun v : State => v.modCtl i fun c => { c with blk := b c, due := d c }) translated.frame :)⟩,
    translated.mem canon, translated.cores, translated.dies, translated.ports⟩

/-- Where no leaf is written and no error met, memory reads as before. -/
theorem sameMem (h : TranslatesThen [] [] i s t) : SameMem s t := by
  obtain ⟨u, translated, b, d, rfl⟩ := h
  intro a
  rcases translated.mem (.inl rfl) a with same | ⟨leaf, -⟩ | ⟨f, hf, -⟩
  · exact same
  · cases leaf
  · cases hf

end TranslatesThen

section SlotXlate

variable {F : List Flaw} {L : List Nat} {s u : State} {fr : Firing} {as_ : Space} {addr : Word} {n align : Nat} {a : Access}
  {fired : Bool}
  (h : as_ = .virt → a.w = true → s.flaws ⊆ F
    ∧ leavesUsed (some fr.n.cluster) (dieOfCore fr.n.cluster) fr.n.ctx a s (tokensOf addr.toNat n 8) ⊆ L)
include h

theorem translates_of_slotXlate_ok {ps : List Piece} (ok : slotXlate s fr as_ addr n align a fired = .ok u ps) :
    Translates F L s u := by
  have translated := Translates.xlate s (some fr.n.cluster) fr.n.cluster (dieOfCore fr.n.cluster) fr.n.ctx as_ addr n align a h
  unfold slotXlate at ok
  split at ok
  · cases ok
  · split at ok
    · rename_i found
      rw [found] at translated
      cases ok
      exact translated
    · cases ok
    · cases ok

theorem translatesThen_of_slotXlate_stop (stop : slotXlate s fr as_ addr n align a fired = .stop u) :
    TranslatesThen F L fr.i s u := by
  have translated := Translates.xlate s (some fr.n.cluster) fr.n.cluster (dieOfCore fr.n.cluster) fr.n.ctx as_ addr n align a h
  unfold slotXlate at stop
  split at stop
  · cases stop
    exact .of_slotOnly (.refl _ _)
  · split at stop
    · cases stop
    · rename_i found
      rw [found] at translated
      cases stop
      exact ⟨_, translated, SlotOnly.fault _ _ _ _⟩
    · rename_i found
      rw [found] at translated
      cases stop
      exact ⟨_, translated.trans (Translates.askWalk _ _), SlotOnly.modSlot _ _ _ _⟩

end SlotXlate

/-! ## What a firing does behind its translation -/

theorem SlotOnly.deviceRequest (s : State) (fr : Firing) (addr : Word) (ps : List Piece) (data : Option (List Byte)) :
    SlotOnly fr.i s (deviceRequest s fr addr ps data) :=
  .ite _ (.fault _ _ _ _) ((SlotOnly.modSlot _ _ _ _).trans (.modBlk _ _ _))

theorem SlotOnly.holdStore (s : State) (fr : Firing) (f : MOp) (addr : Word) (ps : List Piece) :
    SlotOnly fr.i s (holdStore s fr f addr ps) :=
  .ite _ (.deviceRequest _ _ _ _ _) ((SlotOnly.modSlot _ _ _ _).trans (.modBlk _ _ _))

theorem SlotOnly.putRequest (s : State) (fr : Firing) (q : Req) : SlotOnly fr.i s (putRequest s fr q) :=
  .ite _ (.fault _ _ _ _) ((SlotOnly.modSlot _ _ _ _).trans (.modBlk _ _ _))

/-! ## LD, PFT and FENCE -/

section Reads

variable {f : MOp} {s t : State}

/-- An LD's access writes nothing, so its translation sets no bit and reads no table. -/
theorem ld_translatesThen (h : exec (.ld f) s = .next t) : TranslatesThen [] [] s.cur.1 s t := by
  rw [exec_ld, execLd] at h
  refine fireOp_frame (TranslatesThen [] [] s.cur.1) (fun _ slot => .of_slotOnly slot) (fun fr here _ => ?_) h
  have reads {P : Prop} : f.as = .virt → (loadAccess fr.n).w = true → P := fun _ w => by cases w
  dsimp only
  split
  · rename_i u stop
    exact here ▸ translatesThen_of_slotXlate_stop reads stop
  · rename_i u ps ok
    have translated : Translates [] [] s u := translates_of_slotXlate_ok reads ok
    refine ⟨u, translated, here ▸ ?_⟩
    exact .ite _ (.deviceRequest _ _ _ _ _) (.modSlot _ _ _ _)

theorem Translates.mono {F F' : List Flaw} {L : List Nat} {s t : State} (h : Translates F L s t) (hF : F ⊆ F') :
    Translates F' L s t :=
  { h with mem := fun canon a => (h.mem canon a).imp_right (.imp_right fun ⟨f, hf, inside⟩ => ⟨f, hF hf, inside⟩) }

theorem ld_translating (h : exec (.ld f) s = .next t) : Translating s.cur.1 s t [] ∧ SameMem s t := by
  obtain ⟨u, translated, slot⟩ := ld_translatesThen h
  have widened : TranslatesThen s.flaws [] s.cur.1 s t := ⟨u, translated.mono (List.nil_subset _), slot⟩
  exact ⟨widened.translating (.inl rfl), (ld_translatesThen h).sameMem⟩

/-- What a PFT looks up, and the walk of its own. -/
theorem prefetchPa_translates (s : State) (fr : Firing) (f : MOp) : Translates s.flaws [] s (prefetchPa s fr f).1 := by
  have counted (hit : Option TlbPlace) : Translates s.flaws [] s (countMiss s (some fr.n.cluster) (dieOfCore fr.n.cluster) hit) :=
    .countMiss s _ _ hit
  have walked := (counted none).trans (.walk _ fr.n.ctx (memAddr f fr.l).toNat (counted none).flaws)
  unfold prefetchPa
  dsimp only
  split
  · exact .refl s
  · split
    · rename_i x _
      exact counted (some x.place)
    · split
      · rename_i u e addr lg found
        rwa [found] at walked
      · rename_i u w _ found
        rwa [found] at walked

theorem pft_translating (h : exec (.pft f) s = .next t) : Translating s.cur.1 s t [] := by
  rw [exec_pft, execPft] at h
  refine (fireOp_frame (TranslatesThen s.flaws [] s.cur.1) (fun _ slot => .of_slotOnly slot) (fun fr here _ => ?_) h).translating
    (.inl rfl)
  have looked := prefetchPa_translates s fr f
  dsimp only
  split
  · exact .of_slotOnly (.refl _ _)
  · split
    · rename_i u pa found
      rw [found] at looked
      exact ⟨u, looked, here ▸ .modSlot _ _ _ _⟩
    · rename_i u found
      rw [found] at looked
      exact ⟨u, looked, here ▸ .modSlot _ _ _ _⟩

/-- Where no stored error waits, a walk changes nothing. -/
theorem walk_fst_of_no_flaws (noFlaws : s.flaws = []) (ctx va : Nat) : (walk s ctx va).1 = s := by
  have levels (ls : List Nat) (table : Nat) : (walkLevels va ls s table).1 = s := by
    induction ls generalizing table with
    | nil => rfl
    | cons lv rest ih =>
      simp only [walkLevels, meetFlaws_of_no_flaws noFlaws]
      split
      · rfl
      · split
        · rfl
        · split
          · rfl
          · split
            · exact ih _
            · rfl
  unfold walk
  split
  · rfl
  · exact levels _ _

theorem countMiss_frame (s : State) (core : Option Nat) (die : Nat) (hit : Option TlbPlace) :
    let t := countMiss s core die hit
    t = { s with cores := t.cores, dies := t.dies } ∧ t.flaws = s.flaws := by
  have misses (v : State) : ∃ dies, (if hit.isNone then v.countDie die 0x021 1 else v) = { v with dies } := by
    unfold State.countDie
    split
    · split
      · exact ⟨_, rfl⟩
      · exact ⟨v.dies, rfl⟩
    · exact ⟨v.dies, rfl⟩
  have cluster : ∃ cores, (match core, hit with
      | some _, some (.cluster _) => s
      | some c, _ => s.countCore c 0x020 1
      | none, _ => s) = { s with cores } := by
    unfold State.countCore
    split
    · exact ⟨s.cores, rfl⟩
    · split
      · exact ⟨_, rfl⟩
      · exact ⟨s.cores, rfl⟩
    · exact ⟨s.cores, rfl⟩
  obtain ⟨cores, first⟩ := cluster
  obtain ⟨dies, second⟩ := misses { s with cores }
  have counted : countMiss s core die hit = { s with cores, dies } := by
    rw [← first] at second
    exact second.trans (by rw [first])
  dsimp only
  rw [counted]
  exact ⟨rfl, rfl⟩

theorem prefetchPa_frame (noFlaws : s.flaws = []) (fr : Firing) : let t := (prefetchPa s fr f).1
    t = { s with cores := t.cores, dies := t.dies } := by
  have counted (hit : Option TlbPlace) := countMiss_frame s (some fr.n.cluster) (dieOfCore fr.n.cluster) hit
  have walked := walk_fst_of_no_flaws ((counted none).2.trans noFlaws) fr.n.ctx (memAddr f fr.l).toNat
  unfold prefetchPa
  dsimp only
  split
  · rfl
  · split
    · rename_i x _
      exact (counted (some x.place)).1
    · split
      · rename_i u e addr lg found
        rw [found] at walked
        rw [walked]
        exact (counted none).1
      · rename_i u w _ found
        rw [found] at walked
        rw [walked]
        exact (counted none).1

/-- Where no stored error waits, a PFT changes its block and counts misses. -/
theorem pft_counts (noFlaws : s.flaws = []) (h : exec (.pft f) s = .next t) :
    ∃ u, SlotOnly s.cur.1 s u ∧ t = { u with cores := t.cores, dies := t.dies } := by
  rw [exec_pft, execPft] at h
  refine fireOp_frame (fun s t => ∃ u, SlotOnly s.cur.1 s u ∧ t = { u with cores := t.cores, dies := t.dies })
    (fun u slot => ⟨u, slot, rfl⟩) (fun fr here _ => ?_) h
  have looked := prefetchPa_frame (f := f) noFlaws fr
  have slot (g : SlotRec → SlotRec) {v : State} (frame : v = { s with cores := v.cores, dies := v.dies }) :
      ∃ u, SlotOnly s.cur.1 s u ∧ v.modSlot fr.i fr.k g = { u with cores := v.cores, dies := v.dies } :=
    ⟨s.modSlot fr.i fr.k g, here ▸ SlotOnly.modSlot _ _ _ _, (congrArg (fun v : State => v.modSlot fr.i fr.k g) frame :)⟩
  dsimp only
  split
  · exact ⟨s, .refl _ _, rfl⟩
  · split
    · rename_i u pa found
      rw [found] at looked
      exact slot _ looked
    · rename_i u found
      rw [found] at looked
      exact slot _ looked

/-- The slot is done and its block holds a marker. -/
def Firing.marked (fr : Firing) (s : State) (h : Held) : State :=
  (s.modSlot fr.i fr.k fun r => { r with st := .done }).modBlk fr.i fun b => { b with held := b.held ++ [h] }

theorem SlotOnly.marked (fr : Firing) (s : State) (h : Held) : SlotOnly fr.i s (fr.marked s h) :=
  (SlotOnly.modSlot _ _ _ _).trans (.modBlk _ _ _)

/-- A FENCE changes its block, and empties at most its core's data cache. -/
theorem fence_touches (h : exec (.fence f) s = .next t) : ∃ u c, SlotOnly s.cur.1 s u
    ∧ (t = u ∨ t = u.modCore c fun x => { x with cache := [] }) := by
  rw [exec_fence, execFence] at h
  refine fireOp_frame (fun s t => ∃ u c, SlotOnly s.cur.1 s u ∧ (t = u ∨ t = u.modCore c fun x => { x with cache := [] }))
    (fun u slot => ⟨u, 0, slot, .inl rfl⟩) (fun fr here _ => ?_) h
  have marks (h : Held) {v : State} (kept : v = s ∨ v = s.modCore fr.n.cluster fun x => { x with cache := [] }) :
      ∃ u c, SlotOnly s.cur.1 s u ∧ (fr.marked v h = u ∨ fr.marked v h = u.modCore c fun x => { x with cache := [] }) := by
    refine ⟨fr.marked s h, fr.n.cluster, here ▸ SlotOnly.marked fr s h, ?_⟩
    rcases kept with rfl | rfl
    · exact .inl rfl
    · exact .inr rfl
  have acquired : acquire s fr.n.cluster f.scope = s
      ∨ acquire s fr.n.cluster f.scope = s.modCore fr.n.cluster fun x => { x with cache := [] } := by
    unfold acquire
    split
    · exact .inr rfl
    · exact .inl rfl
  dsimp only
  split
  · split
    · exact marks _ acquired
    · exact marks _ (.inl rfl)
  · exact ⟨s, 0, .refl _ _, .inl rfl⟩

end Reads

/-! ## ST and the atomics -/

section Writes

variable {f : MOp} {s t : State}

/-- A store or atomic slot translates its access, now or ahead, and changes its block. -/
theorem fireMem_translatesThen {F : List Flaw} {opc align : Nat} {a : Inst → Access}
    {go early : Firing → State → List Piece → State} (hF : s.flaws ⊆ F) (hgo : ∀ fr u ps, SlotOnly fr.i u (go fr u ps))
    (hearly : ∀ fr u ps, SlotOnly fr.i u (early fr u ps)) (h : fireMem opc f s align a go early = .next t) :
    TranslatesThen F (accessLeaves f a s) s.cur.1 s t := by
  unfold fireMem at h
  split at h
  · rename_i n b r row slot _
    dsimp only at h
    have leaves : f.as = .virt → (a n).w = true → s.flaws ⊆ F ∧ leavesUsed (some n.cluster) (dieOfCore n.cluster) n.ctx (a n) s
        (tokensOf (memAddr f (valWord r.l)).toNat (sizeBytes f.sz) 8) ⊆ accessLeaves f a s := by
      intro virt _
      rw [accessLeaves, virt, slot]
      exact ⟨hF, fun _ h => h⟩
    have stays : TranslatesThen F (accessLeaves f a s) s.cur.1 s s := .of_slotOnly (.refl _ _)
    split at h
    · split at h
      · cases h
        exact .of_slotOnly (.modSlot _ _ _ _)
      · cases h
        exact .of_slotOnly ((SlotOnly.modSlot _ _ _ _).trans (.deliverAll _ _ _))
      · split at h
        · cases h
          exact .of_slotOnly (hgo _ _ _)
        · split at h
          · rename_i stop
            cases h
            exact translatesThen_of_slotXlate_stop leaves stop
          · rename_i ok
            cases h
            exact ⟨_, translates_of_slotXlate_ok leaves ok, hgo _ _ _⟩
      · split at h
        · split at h
          · cases h
            exact stays
          · split at h
            · rename_i ok
              cases h
              exact ⟨_, translates_of_slotXlate_ok leaves ok, hearly _ _ _⟩
            · rename_i stop
              cases h
              split
              · exact stays
              · exact translatesThen_of_slotXlate_stop leaves stop
        · cases h
          exact stays
    · cases h
      exact stays
  · cases h
    exact .of_slotOnly (.refl _ _)

theorem st_translating (canonical : s.mem.wf = true) (h : exec (.st f) s = .next t) :
    Translating s.cur.1 s t (accessLeaves f storeAccess s) := by
  rw [exec_st, execSt] at h
  refine (fireMem_translatesThen (fun _ h => h) (fun fr u ps => .holdStore _ _ _ _ _) (fun fr u ps => ?_) h).translating
    (.inr canonical)
  exact .ite _ (.fault _ _ _ _) (.modSlot _ _ _ _)

theorem atomic_translating {x : Instr} {op : AtomicOp} (canonical : s.mem.wf = true) (hx : (x, op) ∈ atomicsOf f)
    (h : exec x s = .next t) : Translating s.cur.1 s t (accessLeaves f atomicAccess s) := by
  obtain ⟨opc, -, atomic⟩ := exec_of_mem_atomicsOf hx
  rw [atomic, atomicOp] at h
  exact (fireMem_translatesThen (fun _ h => h) (fun fr u ps => .putRequest _ _ _) (fun fr u ps => .modSlot _ _ _ _) h).translating
    (.inr canonical)

end Writes

/-- O27 over a memory in its canonical form, which every step keeps. -/
theorem memoryOpcodesFrame_of_canonical (f : MOp) (s t : State) (canonical : s.mem.wf = true) :
    (∀ x ∈ [Instr.ld f, .pft f], exec x s = .next t → Translating s.cur.1 s t [])
    ∧ (exec (.st f) s = .next t → Translating s.cur.1 s t (accessLeaves f storeAccess s))
    ∧ (∀ x ∈ [Instr.aadd f, .aand f, .aor f, .axor f, .amin f, .amax f, .aminu f, .amaxu f, .aswp f, .acas f],
        exec x s = .next t → Translating s.cur.1 s t (accessLeaves f atomicAccess s))
    ∧ (exec (.ld f) s = .next t → SameMem s t)
    ∧ (s.flaws = [] → exec (.pft f) s = .next t →
        SameMem s t ∧ ∃ u, SlotOnly s.cur.1 s u ∧ t = { u with cores := t.cores, dies := t.dies })
    ∧ (exec (.fence f) s = .next t →
        ∃ u c, SlotOnly s.cur.1 s u ∧ (t = u ∨ t = u.modCore c fun x => { x with cache := [] })) := by
  refine ⟨fun x hx h => ?_, st_translating canonical, fun x hx h => ?_, fun h => (ld_translating h).2, fun noFlaws h => ?_,
    fence_touches⟩
  · simp only [List.mem_cons, List.not_mem_nil, or_false] at hx
    rcases hx with rfl | rfl
    · exact (ld_translating h).1
    · exact pft_translating h
  · obtain ⟨⟨_, op⟩, listed, rfl⟩ := List.mem_map.mp (show x ∈ (atomicsOf f).map Prod.fst from hx)
    exact atomic_translating canonical listed h
  · obtain ⟨u, slot, counted⟩ := pft_counts noFlaws h
    exact ⟨fun a => by rw [counted, ← slot.mem], u, slot, counted⟩

/-! ## A store over a memory that lists a byte twice -/

/-- A plain store of 8 bytes in the virtual space. -/
def plainStore : MOp := ⟨.d, false, .virt, 0, .always, .plain, .core, .none, 0⟩

/-- The store fires at 0x2000, whose page an entry of the cluster TLB maps; its leaf at 0x1000 has D clear. Of the leaf's second
byte memory lists the value 0, which a canonical memory does not list, and behind it 5. -/
def storeOverTwiceListed : State :=
  { (State.reset.withFetchWord 64 ((encode (.st plainStore)).getD 0).toNat).modSlot 0 0 fun r =>
      { r with l := some (.val 0x2000), r := some (.val 0) } with
    bringup := .up, agenda := [], mem := [(0x1000, 0x0F), (0x1001, 0), (0x1001, 5)]
    tlb := [⟨.cluster 0, false, 0, 0, 29, 0x0F, 0x1000, 0⟩] }

/-- A byte of memory after a step that goes on. -/
def byteAfter (a : Nat) : Host.Outcome State Fault Refusal → Option Byte
  | .next t => some (t.mem.read a)
  | _ => none

/-- Setting D writes the leaf's 8 bytes, and the 0 written over its second byte unlists the first of its two entries. -/
theorem storeOverTwiceListed_uncovers :
    byteAfter 0x1001 (exec (.st plainStore) storeOverTwiceListed) = some 5 ∧ storeOverTwiceListed.mem.read 0x1001 = 0
      ∧ accessLeaves plainStore storeAccess storeOverTwiceListed = [0x1000] ∧ storeOverTwiceListed.flaws = [] := by
  decide +kernel

/-! ## O27 -/

/-- Refutes O27 by its clause on ST, which does not ask that memory be in its canonical form: where memory lists a byte of the
leaf twice, the first time as 0, setting D lets the second entry be read. No step leads to such a memory (O9, settled by
`stepKeepsMemoryForm`), and over a canonical one everything that O27 says holds: `memoryOpcodesFrame_of_canonical`. -/
theorem not_memoryOpcodesFrame : ¬ Obligations.MemoryOpcodesFrame := by
  unfold Obligations.MemoryOpcodesFrame
  intro frame
  obtain ⟨uncovered, listed, leaves, noFlaws⟩ := storeOverTwiceListed_uncovers
  cases stores : exec (.st plainStore) storeOverTwiceListed with
  | next t =>
    obtain ⟨-, store, -⟩ := frame plainStore storeOverTwiceListed t
    obtain ⟨-, kept, -⟩ := store stores
    rw [stores, byteAfter, Option.some.injEq] at uncovered
    rw [leaves] at kept
    rcases kept 0x1001 with same | ⟨leaf, -⟩ | ⟨f, hf, -⟩
    · rw [uncovered, listed] at same
      exact absurd same (by decide)
    · exact absurd leaf (by decide)
    · rw [noFlaws] at hf
      cases hf
  | fault r => rw [stores] at uncovered; cases uncovered
  | refused r => rw [stores] at uncovered; cases uncovered

end Sys2Proof.Machine
end

section
/-! PROOFS. The state when power is applied (O8), and the moves of a step that are events or the passing of time (O5). -/

namespace Sys2Proof.Machine

/-! ## Power-on (log 2, R309, R331) -/

/-- The first step from power-on, with nothing on the agenda, is BRING_UP (R406). -/
theorem step_of_off {s : State} (agenda : s.agenda = []) (off : s.bringup = .off) :
    step s = exec (.bringUp Config.bringUpInput) s := by
  have move : nextMove s = (.event (.bringUp Config.bringUpInput), s) := by simp only [nextMove, agenda, off]
  have accepted : linkAccepts s (.bringUp Config.bringUpInput) = true := by rw [linkAccepts, off]; rfl
  simp only [step, move, runMove, runEvent, accepted]
  rfl

/-- An unlisted FE holds seed `k` and index 0 at generator `k` (R331). -/
theorem feFresh_generators {k : Nat} (h : k < 16) :
    Fe.fresh.core.seed[k]? = some (BitVec.ofNat 12 k) ∧ Fe.fresh.core.idx[k]? = some 0 := by
  constructor
  · revert k
    decide
  · exact (Vector.getElem?_eq_getElem h).trans (congrArg some (Vector.getElem_replicate h))

/-- An unlisted FE's block scales are all 1 (R309). -/
theorem feFresh_scales {k : Nat} (h : k < 32) : Fe.fresh.bs[k]? = some 0x7F7F7F7F :=
  (Vector.getElem?_eq_getElem h).trans (congrArg some (Vector.getElem_replicate h))

/-- Settles O8: the fields of the reset state are read off, the FEs from `Fe.fresh`, and its step is BRING_UP. -/
theorem resetState : Obligations.ResetState := by
  unfold Obligations.ResetState
  refine ⟨rfl, rfl, rfl, rfl, rfl, fun _ => rfl, rfl, rfl, rfl, rfl, fun _ _ => feFresh_generators, fun _ _ => feFresh_scales, ?_⟩
  exact step_of_off rfl rfl

/-! ## Which transactions the module accepts (R405, R406) -/

theorem linkAccepts_iff (s : State) (e : Instr) : linkAccepts s e = true ↔
    s.bringup = .up ∨ atHostLink e = false ∨ identifies e = true ∧ ∃ k, s.bringup = .failed k := by
  unfold linkAccepts
  cases s.bringup with
  | off => simp only [Bool.not_eq_true', reduceCtorEq, exists_false, and_false, or_false, false_or]
  | up => simp only [true_or]
  | failed k => simp only [Bool.or_eq_true, Bool.not_eq_true', reduceCtorEq, false_or, Bringup.failed.injEq, exists_eq', and_true]

/-- An event is its own `exec` where the module accepts it, and changes nothing where it does not. -/
theorem step_event {s u : State} {e : Instr} (move : nextMove s = (.event e, u)) (event : e.slotFields = none) :
    step s = if linkAccepts u e then exec e u else .next u := by
  simp only [step, move, runMove, runEvent, event, Option.isSome_none, Bool.false_or, Bool.not_eq_true']
  cases linkAccepts u e <;> rfl

/-! ## Time passes (R159) -/

theorem advance_keys (s : State) (n : Nat) : (advance s n).insts.map (·.1) = s.insts.map (·.1) := by
  simp only [advance, List.map_map]
  rfl

/-- The answer of a register read goes to its port alone. -/
theorem bar0Read_frame (s : State) (port rid off n tag : Nat) :
    (bar0Read s port rid off n tag).cycle = s.cycle ∧ (bar0Read s port rid off n tag).bringup = s.bringup := by
  unfold bar0Read
  split
  · exact ⟨rfl, rfl⟩
  · exact ⟨rfl, rfl⟩

/-- Reads of the identification region move no time, and bring-up stays failed. -/
theorem identRead_frame (s : State) : (identRead s).cycle = s.cycle ∧ (identRead s).bringup = s.bringup := by
  unfold identRead
  dsimp only
  split
  · split
    · exact bar0Read_frame _ _ _ _ _ _
    · exact ⟨rfl, rfl⟩
  · exact ⟨rfl, rfl⟩

/-- Settles O5: by the move that the step makes. -/
theorem stepRunsEventsAndTime : Obligations.StepRunsEventsAndTime := by
  unfold Obligations.StepRunsEventsAndTime
  intro s u m rest
  refine ⟨fun e move event => ?_, fun n move => ?_, fun agenda => ?_, step_of_off, fun k agenda failed => ?_, fun agenda up => ?_⟩
  · rw [step_event move event]
    exact ⟨fun accepted => if_pos accepted, fun ignored => if_neg (by simp only [ignored, Bool.false_eq_true, not_false_eq_true]),
      linkAccepts_iff u e⟩
  · exact ⟨advance u n, by rw [step, move, runMove], rfl, rfl, advance_keys u n⟩
  · rw [nextMove, agenda]
  · obtain ⟨cycle, bringup⟩ := identRead_frame s
    have move : nextMove s = (.tick 1, identRead s) := by simp only [nextMove, agenda, failed]
    refine ⟨advance (identRead s) 1, by rw [step, move, runMove], ?_, bringup.trans failed⟩
    exact congrArg (· + 1) cycle
  · simp only [nextMove, agenda, up]

end Sys2Proof.Machine
end

section
/-! PROOFS. SYSR and SYSW (O44, O45): who may read and write which system register, what a read delivers, and the other
instructions that only note what their block does at its commit (R279 to R285, R305 to R322). -/

namespace Sys2Proof.Machine

/-! ## Which registers are refused (R280, R282) -/

theorem counterDenied_core {s : State} {n : Inst} {reg : Nat} (h : 0x40 ≤ reg ∧ reg ≤ 0x4F) :
    counterDenied s n reg = ((s.core n.cluster).ctenant != some (BitVec.ofNat 4 (s.tenantOf n.ctx))) := by
  simp only [counterDenied, h, decide_true, Bool.and_self, if_true]

theorem counterDenied_die {s : State} {n : Inst} {reg : Nat} (h : 0x60 ≤ reg ∧ reg ≤ 0x9F) :
    counterDenied s n reg = ((s.die (dieOfCore n.cluster)).dtenant != some (BitVec.ofNat 4 (s.tenantOf n.ctx))) := by
  have above : ¬ reg ≤ 0x4F := by omega
  simp only [counterDenied, h, above, decide_true, decide_false, Bool.and_false, Bool.and_self, Bool.false_eq_true, if_false, if_true]

/-- A register that is no counter or select is nobody's in particular. -/
theorem counterDenied_other {s : State} {n : Inst} {reg : Nat} (core : ¬ (0x40 ≤ reg ∧ reg ≤ 0x4F))
    (die : ¬ (0x60 ≤ reg ∧ reg ≤ 0x9F)) : counterDenied s n reg = false := by
  unfold counterDenied
  rw [if_neg (by simpa using core), if_neg (by simpa using die)]

theorem userHidden_iff (reg : Nat) : userHidden reg = true ↔
    reg = 0x05 ∨ 0x10 ≤ reg ∧ reg ≤ 0x1D ∨ reg = 0x28 ∨ 0x40 ≤ reg ∧ reg ≤ 0x4F ∨ 0x60 ≤ reg ∧ reg ≤ 0x9F := by
  simp only [userHidden, Bool.or_eq_true, beq_iff_eq, Bool.and_eq_true, decide_eq_true_eq, or_assoc]

theorem userHidden_eq_false_iff (reg : Nat) : userHidden reg = false ↔
    reg ≠ 0x05 ∧ ¬ (0x10 ≤ reg ∧ reg ≤ 0x1D) ∧ reg ≠ 0x28 ∧ ¬ (0x40 ≤ reg ∧ reg ≤ 0x4F) ∧ ¬ (0x60 ≤ reg ∧ reg ≤ 0x9F) := by
  simp only [← Bool.not_eq_true, userHidden_iff, not_or, ne_eq]

/-! ## SYSR (R281, R282) -/

section Sysr

variable {f : EOp} {s : State} {fr : Firing} (h : firing (.sysr f) s = some fr)
include h

/-- A SYSR that may read delivers the register; one of a RESETSTAT that shows a serial acquires first (R278). -/
theorem exec_sysr_allowed (visible : fr.n.ctl.cur = true ∨ userHidden f.imm.toNat = false)
    (granted : counterDenied s fr.n f.imm.toNat = false) : exec (.sysr f) s = .next (fr.done
      (if f.imm.toNat = 0x28 ∧ (sysValue s fr.n f.imm.toNat).toNat % 2 ^ 32 ≠ 0 then acquire s fr.n.cluster .system else s)
      [f.t1] (sysValue s fr.n f.imm.toNat)) := by
  have open_ : (!fr.n.ctl.cur && userHidden f.imm.toNat) = false := by
    rcases visible with level | shown
    · rw [level]; rfl
    · rw [shown, Bool.and_false]
  rw [exec_sysr, execSysr, fireOp_of_firing _ rfl rfl h]
  simp only [open_, granted, Bool.or_self, Bool.false_eq_true, if_false]

/-- A SYSR of any register but RESETSTAT delivers it and does nothing more. -/
theorem exec_sysr_gives {v : Word} (visible : fr.n.ctl.cur = true ∨ userHidden f.imm.toNat = false)
    (granted : counterDenied s fr.n f.imm.toNat = false) (other : f.imm.toNat ≠ 0x28) (value : sysValue s fr.n f.imm.toNat = v) :
    exec (.sysr f) s = .next (fr.done s [f.t1] v) := by
  rw [exec_sysr_allowed h visible granted, if_neg (fun c => other c.1), value]

/-- A SYSR that may not read raises PRIV. -/
theorem exec_sysr_denied (closed : fr.n.ctl.cur = false ∧ userHidden f.imm.toNat = true ∨ counterDenied s fr.n f.imm.toNat = true) :
    exec (.sysr f) s = .next (raise s fr.i 0x07 fr.k 0) := by
  have refused : (!fr.n.ctl.cur && userHidden f.imm.toNat || counterDenied s fr.n f.imm.toNat) = true := by
    rcases closed with ⟨level, hidden⟩ | denied
    · rw [level, hidden]; rfl
    · rw [denied, Bool.or_true]
  rw [exec_sysr, execSysr, fireOp_of_firing _ rfl rfl h]
  simp only [refused, if_true]
  rfl

end Sysr

/-! ## The registers that stand in tables (R282) -/

/-- The value of a register that is an entry of a table: FAULTITER, ECSTATE, and the selects and counters of core and die. -/
theorem sysValue_table (s : State) (n : Inst) {reg : Nat} (h : 0x18 ≤ reg) (h20 : reg ≠ 0x20) (h21 : reg ≠ 0x21) (h28 : reg ≠ 0x28)
    (h29 : reg ≠ 0x29) : sysValue s n reg =
      if 0x18 ≤ reg ∧ reg ≤ 0x1D then (n.ctl.faultIter.toList.getD (reg - 0x18) 0).setWidth 64
      else if 0x30 ≤ reg ∧ reg ≤ 0x3F then n.ctl.ecstate.toList.getD (reg - 0x30) 0
      else if 0x40 ≤ reg ∧ reg ≤ 0x47 then ((s.core n.cluster).csel.toList.getD (reg - 0x40) 0).setWidth 64
      else if 0x48 ≤ reg ∧ reg ≤ 0x4F then ((s.core n.cluster).ccnt.toList.getD (reg - 0x48) 0).setWidth 64
      else if 0x60 ≤ reg ∧ reg ≤ 0x7F then ((s.die (dieOfCore n.cluster)).dsel.toList.getD (reg - 0x60) 0).setWidth 64
      else if 0x80 ≤ reg ∧ reg ≤ 0x9F then ((s.die (dieOfCore n.cluster)).dcnt.toList.getD (reg - 0x80) 0).setWidth 64
      else 0 := by
  unfold sysValue
  dsimp only
  split <;> first | rfl | omega

theorem vector_getD {α : Type} {n k : Nat} {w : Vector α n} {v d : α} (h : w[k]? = some v) : w.toList.getD k d = v := by
  rw [List.getD_eq_getElem?_getD, Vector.getElem?_toList, h, Option.getD_some]

section Tables

variable (s : State) (n : Inst) {k : Nat} {v : Word}

theorem sysValue_faultIter {w : BitVec 32} (hk : k < 6) (h : n.ctl.faultIter[k]? = some w) :
    sysValue s n (0x18 + k) = w.setWidth 64 := by
  rw [sysValue_table s n (by omega) (by omega) (by omega) (by omega) (by omega), if_pos (by omega), Nat.add_sub_cancel_left,
    vector_getD h]

theorem sysValue_ecstate (hk : k < 16) (h : n.ctl.ecstate[k]? = some v) : sysValue s n (0x30 + k) = v := by
  rw [sysValue_table s n (by omega) (by omega) (by omega) (by omega) (by omega), if_neg (by omega), if_pos (by omega),
    Nat.add_sub_cancel_left, vector_getD h]

theorem sysValue_csel {w : BitVec 10} (hk : k < 8) (h : (s.core n.cluster).csel[k]? = some w) :
    sysValue s n (0x40 + k) = w.setWidth 64 := by
  rw [sysValue_table s n (by omega) (by omega) (by omega) (by omega) (by omega), if_neg (by omega), if_neg (by omega),
    if_pos (by omega), Nat.add_sub_cancel_left, vector_getD h]

theorem sysValue_ccnt {w : BitVec 48} (hk : k < 8) (h : (s.core n.cluster).ccnt[k]? = some w) :
    sysValue s n (0x48 + k) = w.setWidth 64 := by
  rw [sysValue_table s n (by omega) (by omega) (by omega) (by omega) (by omega), if_neg (by omega), if_neg (by omega),
    if_neg (by omega), if_pos (by omega), Nat.add_sub_cancel_left, vector_getD h]

theorem sysValue_dsel {w : BitVec 10} (hk : k < 32) (h : (s.die (dieOfCore n.cluster)).dsel[k]? = some w) :
    sysValue s n (0x60 + k) = w.setWidth 64 := by
  rw [sysValue_table s n (by omega) (by omega) (by omega) (by omega) (by omega), if_neg (by omega), if_neg (by omega),
    if_neg (by omega), if_neg (by omega), if_pos (by omega), Nat.add_sub_cancel_left, vector_getD h]

theorem sysValue_dcnt {w : BitVec 48} (hk : k < 32) (h : (s.die (dieOfCore n.cluster)).dcnt[k]? = some w) :
    sysValue s n (0x80 + k) = w.setWidth 64 := by
  rw [sysValue_table s n (by omega) (by omega) (by omega) (by omega) (by omega), if_neg (by omega), if_neg (by omega),
    if_neg (by omega), if_neg (by omega), if_neg (by omega), if_pos (by omega), Nat.add_sub_cancel_left, vector_getD h]

end Tables

/-! ## O44 -/

/-- A register that shows itself at level U is read at either level. -/
theorem exec_sysr_shown {f : EOp} {s : State} {fr : Firing} {reg : Nat} {v : Word} (h : firing (.sysr f) s = some fr)
    (imm : f.imm.toNat = reg) (plain : userHidden reg = false) (value : sysValue s fr.n reg = v) :
    exec (.sysr f) s = .next (fr.done s [f.t1] v) := by
  obtain ⟨-, -, other, core, die⟩ := (userHidden_eq_false_iff reg).mp plain
  subst imm
  exact exec_sysr_gives h (.inr plain) (counterDenied_other core die) other value

/-- At level S every register is read, a counter's or its select's by the tenant it is granted to; RESETSTAT stands apart. -/
theorem exec_sysr_supervisor {f : EOp} {s : State} {fr : Firing} {reg : Nat} {v : Word} (h : firing (.sysr f) s = some fr)
    (level : fr.n.ctl.cur = true) (imm : f.imm.toNat = reg) (granted : counterDenied s fr.n reg = false) (other : reg ≠ 0x28)
    (value : sysValue s fr.n reg = v) : exec (.sysr f) s = .next (fr.done s [f.t1] v) := by
  subst imm
  exact exec_sysr_gives h (.inl level) granted other value

/-- RESETSTAT at level S: one that shows a serial is the report's acquire (R278). -/
theorem exec_sysr_resetStat {f : EOp} {s : State} {fr : Firing} (h : firing (.sysr f) s = some fr) (level : fr.n.ctl.cur = true)
    (imm : f.imm.toNat = 0x28) : exec (.sysr f) s = .next (fr.done
      (if fr.n.ctl.resetStat.setWidth 32 = (0 : BitVec 32) then s else s.modCore fr.n.cluster fun x => { x with cache := [] })
      [f.t1] fr.n.ctl.resetStat) := by
  have serial : fr.n.ctl.resetStat.toNat % 2 ^ 32 ≠ 0 ↔ ¬ fr.n.ctl.resetStat.setWidth 32 = (0 : BitVec 32) := by
    rw [← BitVec.toNat_inj, BitVec.toNat_setWidth]
    rfl
  have value : sysValue s fr.n 0x28 = fr.n.ctl.resetStat := rfl
  rw [exec_sysr_allowed h (.inl level) (counterDenied_other (by omega) (by omega)), imm, value]
  simp only [true_and, serial, ite_not, acquire]
  rfl

/-- A counter or select of the core that is granted to the context's tenant. -/
theorem counterDenied_core_granted {s : State} {n : Inst} {reg : Nat} (range : 0x40 ≤ reg ∧ reg ≤ 0x4F)
    (granted : (s.core n.cluster).ctenant = some (BitVec.ofNat 4 (s.tenantOf n.ctx))) : counterDenied s n reg = false := by
  rw [counterDenied_core range, granted, bne_self_eq_false]

/-- A counter or select of the die that is granted to the context's tenant. -/
theorem counterDenied_die_granted {s : State} {n : Inst} {reg : Nat} (range : 0x60 ≤ reg ∧ reg ≤ 0x9F)
    (granted : (s.die (dieOfCore n.cluster)).dtenant = some (BitVec.ofNat 4 (s.tenantOf n.ctx))) : counterDenied s n reg = false := by
  rw [counterDenied_die range, granted, bne_self_eq_false]

/-- Settles O44: a register that shows itself at level U is read at either level, a hidden one at level S alone, and a counter's by
its tenant alone; RESETSTAT acquires when it shows a serial. -/
theorem systemRegisterReads : Obligations.SystemRegisterReads := by
  unfold Obligations.SystemRegisterReads
  intro f s fr h
  have number {x : BitVec 24} (imm : f.imm = x) : f.imm.toNat = x.toNat := congrArg BitVec.toNat imm
  have status (x y : Bool) : BitVec.ofNat 64 (flag x 1 + flag y 0) = BitVec.ofNat 64 (2 * (if x then 1 else 0) + if y then 1 else 0) := by
    cases x <;> cases y <;> rfl
  refine ⟨fun i => exec_sysr_shown h (number i) rfl (status _ _), fun i => exec_sysr_shown h (number i) rfl rfl,
    fun i => exec_sysr_shown h (number i) rfl rfl, fun i => exec_sysr_shown h (number i) rfl rfl,
    fun i => exec_sysr_shown h (number i) rfl (status _ _), fun i => exec_sysr_shown h (number i) rfl rfl,
    fun i => exec_sysr_shown h (number i) rfl rfl, fun i => exec_sysr_shown h (number i) rfl rfl,
    fun k hk i v hv => exec_sysr_shown h i ((userHidden_eq_false_iff _).mpr (by omega)) (sysValue_ecstate s fr.n hk hv),
    fun level => ?_, fun level hidden => exec_sysr_denied h (.inl ⟨level, (userHidden_iff _).mpr ?_⟩)⟩
  · have atS {x : BitVec 24} {v : Word} (i : f.imm = x) (low : x.toNat < 0x20) (value : sysValue s fr.n x.toNat = v) :=
      exec_sysr_supervisor h level (number i) (counterDenied_other (by omega) (by omega)) (by omega) value
    refine ⟨fun i => atS i (by decide) rfl, fun i => atS i (by decide) rfl, fun i => atS i (by decide) rfl,
      fun i => atS i (by decide) rfl, fun i => atS i (by decide) rfl, fun i => atS i (by decide) rfl, fun i none => ?_,
      fun i shows => ?_, fun k hk i v hv => ?_, fun k hk granted => ⟨fun i v hv => ?_, fun i v hv => ?_⟩,
      fun k hk granted => ⟨fun i v hv => ?_, fun i v hv => ?_⟩, fun lo hi other => exec_sysr_denied h (.inr ?_),
      fun lo hi other => exec_sysr_denied h (.inr ?_)⟩
    · rw [exec_sysr_resetStat h level (number i), if_pos none]
    · rw [exec_sysr_resetStat h level (number i), if_neg shows]
    · exact exec_sysr_supervisor h level i (counterDenied_other (by omega) (by omega)) (by omega) (sysValue_faultIter s fr.n hk hv)
    · exact exec_sysr_supervisor h level i (counterDenied_core_granted (by omega) granted) (by omega) (sysValue_csel s fr.n hk hv)
    · exact exec_sysr_supervisor h level i (counterDenied_core_granted (by omega) granted) (by omega) (sysValue_ccnt s fr.n hk hv)
    · exact exec_sysr_supervisor h level i (counterDenied_die_granted (by omega) granted) (by omega) (sysValue_dsel s fr.n hk hv)
    · exact exec_sysr_supervisor h level i (counterDenied_die_granted (by omega) granted) (by omega) (sysValue_dcnt s fr.n hk hv)
    · rw [counterDenied_core ⟨lo, hi⟩, bne_iff_ne]
      exact other
    · rw [counterDenied_die ⟨lo, hi⟩, bne_iff_ne]
      exact other
  · simp only [List.mem_cons, List.not_mem_nil, or_false] at hidden
    omega

/-! ## SYSW, and the instructions that are done once noted (R279 to R285, R305 to R322) -/

/-- An instruction whose meaning is to note an effect notes it when it fires, and is done. -/
theorem exec_notes_of_firing {x : Instr} {opc : Nat} {f : EOp} {s : State} {fr : Firing} (act : Firing → CommitAct)
    (hx : x.slotFields = some (opc, .e f)) (ha : translatesAhead opc = false)
    (meaning : exec x s = fireOp opc (.e f) s fun fr => fr.note s (act fr)) (h : firing x s = some fr) :
    exec x s = .next (fr.note s (act fr)) :=
  meaning.trans (fireOp_of_firing _ hx ha h)

section Sysw

variable {f : EOp} {s : State} {fr : Firing} (h : firing (.sysw f) s = some fr)
include h

/-- A SYSW that may write notes its write. -/
theorem exec_sysw_allowed (may : f.imm.toNat = 0 ∨ fr.n.ctl.cur = true) (granted : counterDenied s fr.n f.imm.toNat = false) :
    exec (.sysw f) s = .next (fr.note s (.sysw f.imm.toNat fr.l)) := by
  have open_ : (!fr.n.ctl.cur && f.imm.toNat != 0) = false := by
    rcases may with zero | level
    · rw [zero]; exact Bool.and_false _
    · rw [level]; rfl
  rw [exec_sysw, execSysw, fireOp_of_firing _ rfl rfl h]
  simp only [open_, granted, Bool.or_self, Bool.false_eq_true, if_false]

/-- A SYSW of anything but STATUS at level U raises PRIV. -/
theorem exec_sysw_user (other : f.imm.toNat ≠ 0) (level : fr.n.ctl.cur = false) :
    exec (.sysw f) s = .next (raise s fr.i 0x07 fr.k 0) := by
  have closed : (!fr.n.ctl.cur && f.imm.toNat != 0) = true := by
    rw [level, bne_iff_ne.mpr other]; rfl
  rw [exec_sysw, execSysw, fireOp_of_firing _ rfl rfl h]
  simp only [closed, Bool.true_or, if_true]
  rfl

end Sysw

/-! ## O45 -/

/-- Settles O45: each is one firing that notes its effect; SYSW asks who may write first. -/
theorem commitEffectsAreNoted : Obligations.CommitEffectsAreNoted := by
  unfold Obligations.CommitEffectsAreNoted
  intro f s fr
  refine ⟨fun may h => ?_, fun h other level => exec_sysw_user h other level,
    exec_notes_of_firing (fun _ => .yield) rfl rfl rfl,
    exec_notes_of_firing (fun fr => .tlbinv (f.imm.toNat % 4) fr.l) rfl rfl rfl,
    exec_notes_of_firing (fun fr => .bcinv fr.l) rfl rfl rfl,
    exec_notes_of_firing (fun fr => .attach f.sel.toNat (f.imm.toNat % 256) fr.l f.as f.ch) rfl rfl rfl,
    exec_notes_of_firing (fun fr => .attach (32 + f.sel.toNat) (f.imm.toNat % 256) fr.l f.as f.ch) rfl rfl rfl,
    exec_notes_of_firing (fun fr => .kset f.sel.toNat fr.l fr.r (f.imm.toNat % 16)) rfl rfl rfl,
    exec_notes_of_firing (fun _ => .mark f.sel.toNat (f.imm.toNat % 16)) rfl rfl rfl,
    exec_notes_of_firing (fun fr => .fmtw f.sel.toNat fr.l (f.imm.toNat % 32)) rfl rfl rfl,
    exec_notes_of_firing (fun fr => .scalew f.sel.toNat fr.l fr.r) rfl rfl rfl,
    exec_notes_of_firing (fun fr => .genseed f.sel.toNat fr.l fr.r) rfl rfl rfl,
    exec_notes_of_firing (fun _ => .fstop) rfl rfl rfl⟩
  rcases may with zero | ⟨level, core, die⟩
  · exact exec_sysw_allowed h (.inl zero) (counterDenied_other (by omega) (by omega))
  · exact exec_sysw_allowed h (.inr level) (counterDenied_other core die)

end Sys2Proof.Machine
end

section
/-! PROOFS. A SYSW at its block's commit (O46): what it makes of its context, and what a select that is written makes of the
counters of its core or die (R281 to R283, R409). -/

namespace Sys2Proof.Machine

/-! ## Registers of the context (R281 to R283) -/

/-- A system register written and the block left, in either order. -/
theorem sysw_leave (c : Ctl) (reg : Nat) (v a : Word) :
    { c.sysw reg v with blk := none, next := a } = { c with blk := none, next := a }.sysw reg v := by
  unfold Ctl.sysw
  split
  all_goals first | rfl | split <;> rfl

/-- A register beyond FAULTITER is none of the context's. -/
theorem sysw_beyond (c : Ctl) {reg : Nat} (v : Word) (h : 0x1D < reg) : c.sysw reg v = c := by
  unfold Ctl.sysw
  split
  all_goals first | omega | exact if_neg (by omega)

theorem sysw_faultIter (c : Ctl) {j : Nat} (v : Word) (h : j < 6) :
    c.sysw (0x18 + j) v = { c with faultIter := c.faultIter.set j (v.setWidth 32) h } := by
  have inside : c.faultIter.setIfInBounds j (v.setWidth 32) = c.faultIter.set j (v.setWidth 32) h := by
    simp only [Vector.setIfInBounds, Vector.set, Array.setIfInBounds, Vector.size_toArray, h, dif_pos]
  unfold Ctl.sysw
  split
  all_goals first | omega | rw [if_pos (by omega), Nat.add_sub_cancel_left, inside]

/-! ## Selects and their counters (R409) -/

/-- The core with select `j` at `x`: its counter is cleared (R409). -/
def Core.selects (c : Core) (j : Nat) (x : BitVec 10) : Core :=
  { c with csel := c.csel.setIfInBounds j x, ccnt := c.ccnt.setIfInBounds j 0 }

/-- The die with select `j` at `x`: its counter is cleared (R409). -/
def DieState.selects (d : DieState) (j : Nat) (x : BitVec 10) : DieState :=
  { d with dsel := d.dsel.setIfInBounds j x, dcnt := d.dcnt.setIfInBounds j 0 }

/-- A commit counted at a core (R409). -/
def Core.countsCommit (c : Core) : Core := { c with ccnt := bumpCounters 0x010 1 c.csel c.ccnt }

theorem countCore_commit (s : State) (core : Nat) : s.countCore core 0x010 1 = s.modCore core Core.countsCommit := by
  rw [State.countCore, if_pos (by decide)]
  rfl

theorem bumpCounters_getElem? {code n k : Nat} (sel : Vector (BitVec 10) k) (cnt : Vector (BitVec 48) k) {j : Nat} (h : j < k) :
    (bumpCounters code n sel cnt)[j]? = some (if sel[j].toNat = code then cnt[j] + BitVec.ofNat 48 n else cnt[j]) := by
  rw [Vector.getElem?_eq_getElem h, bumpCounters, Vector.getElem_zipWith]

/-- A counter whose select does not name the event stands. -/
theorem bumpCounters_other {code n k : Nat} (sel : Vector (BitVec 10) k) (cnt : Vector (BitVec 48) k) {j : Nat}
    (h : sel[j]? ≠ some (BitVec.ofNat 10 code)) : (bumpCounters code n sel cnt)[j]? = cnt[j]? := by
  by_cases hj : j < k
  · have other : sel[j].toNat ≠ code := fun same => h (by
      rw [Vector.getElem?_eq_getElem hj, ← same, BitVec.ofNat_toNat, BitVec.setWidth_eq])
    rw [bumpCounters_getElem? sel cnt hj, if_neg other, Vector.getElem?_eq_getElem hj]
  · rw [Vector.getElem?_eq_none (by omega), Vector.getElem?_eq_none (by omega)]

/-- The written select and its counter, behind the commit of the block that wrote it. -/
theorem selects_self (c : Core) {j : Nat} (x : BitVec 10) (h : j < 8) :
    ((c.selects j x).countsCommit).csel[j]? = some x
      ∧ ((c.selects j x).countsCommit).ccnt[j]? = some (if x = 0x010 then 1 else 0) := by
  refine ⟨Vector.getElem?_setIfInBounds_self_of_lt h, ?_⟩
  have commits : x.toNat = 0x010 ↔ x = 0x010 := BitVec.toNat_inj (x := x) (y := 0x010)
  rw [Core.countsCommit, bumpCounters_getElem? _ _ h]
  simp only [Core.selects, Vector.getElem_setIfInBounds_self, commits]
  split <;> rfl

/-- The other selects stand, and so do their counters but for the commit. -/
theorem selects_ne (c : Core) {j l : Nat} (x : BitVec 10) (h : l ≠ j) :
    ((c.selects j x).countsCommit).csel[l]? = c.csel[l]?
      ∧ (c.csel[l]? ≠ some 0x010 → ((c.selects j x).countsCommit).ccnt[l]? = c.ccnt[l]?) := by
  have select : (c.csel.setIfInBounds j x)[l]? = c.csel[l]? := Vector.getElem?_setIfInBounds_ne h.symm
  refine ⟨select, fun other => ?_⟩
  exact (bumpCounters_other _ _ (select ▸ other)).trans (Vector.getElem?_setIfInBounds_ne h.symm)

theorem dieSelects_self (d : DieState) {j : Nat} (x : BitVec 10) (h : j < 32) :
    (d.selects j x).dsel[j]? = some x ∧ (d.selects j x).dcnt[j]? = some 0 :=
  ⟨Vector.getElem?_setIfInBounds_self_of_lt h, Vector.getElem?_setIfInBounds_self_of_lt h⟩

theorem dieSelects_ne (d : DieState) {j l : Nat} (x : BitVec 10) (h : l ≠ j) :
    (d.selects j x).dsel[l]? = d.dsel[l]? ∧ (d.selects j x).dcnt[l]? = d.dcnt[l]? :=
  ⟨Vector.getElem?_setIfInBounds_ne h.symm, Vector.getElem?_setIfInBounds_ne h.symm⟩

/-! ## The commit of a block that writes a system register (R206, R281) -/

/-- The state behind such a commit, its exit a branch. -/
def sysCommitted (s : State) (i : Nat) (n : Inst) (b : Block) (reg : Nat) (v a : Word) : State :=
  ((applySysw (exitReached s i b) i reg v).modCtl i fun c => { c with blk := none, next := a }).countCore n.cluster 0x010 1

section Commit

variable {s : State} {i : Nat} {n : Inst} {b : Block} {reg : Nat} {v a : Word}

theorem commitBlock_sysw {k : Nat} (acts : b.acts = [.sysw reg v]) (plain : Layout.isNest b.words = false)
    (steady : n.ctl.step = false) (exit : b.exit = some (k, .block a)) :
    commitBlock s i n b = sysCommitted s i n b reg v a := by
  have one : ranked [.sysw reg v] = [.sysw reg v] := rfl
  simp only [commitBlock, installNest, plain, acts, one, takeExit, exit, stepDue, steady, Bool.false_and, List.foldl_cons,
    List.foldl_nil, Bool.false_eq_true, if_false]
  rfl

/-- A block without write entries, held stores or a division by zero changes its context's watchdog alone before its exit. -/
theorem exitReached_of_no_writes (hn : s.inst? i = some n) (hb : n.ctl.blk = some b) (writes : b.writes = []) (held : b.held = [])
    (divides : b.divZero = false) : (exitReached s i b).inst? i = some { n with
      ctl := { n.ctl with watch := 0, expired := false } } := by
  have block : s.blk? i = some b := by rw [State.blk?, hn, Option.bind_some, hb]
  have insts : (exitReached s i b).insts = (s.modCtl i fun c => c.entered.written b).insts := by
    change amod i _ (enterBelow s i 33).insts = _
    rw [enterBelow_insts 33 block, State.modBlk, State.modCtl, State.modInst, amod_amod]
    rfl
  have entered : n.ctl.entered = n.ctl := by
    have none_held : { b with held := b.held.filter fun h => !(h.lsid < 33) } = b := by
      cases b; simp only at held; subst held; rfl
    rw [Ctl.entered, hb, Option.map_some, none_held, ← hb]
  have written : n.ctl.written b = { n.ctl with watch := 0, expired := false } := by
    have unwritten : writeRegs b n.ctl = n.ctl := by rw [writeRegs_eq, writes]; rfl
    simp only [Ctl.written, unwritten, divides, Bool.or_false]
  rw [State.inst?, insts, ← State.inst?, State.inst_modCtl_self, hn, Option.map_some, entered, written]

theorem exitReached_cores (s : State) (i : Nat) (b : Block) : (exitReached s i b).cores = s.cores := (OnBindPart.enterBelow i 33).cores s

theorem exitReached_dies (s : State) (i : Nat) (b : Block) : (exitReached s i b).dies = s.dies := (congrArg State.dies ((OnBindPart.enterBelow i 33).frame s) :)

/-! ## The three kinds of registers -/

variable {m : Inst} {u : State} (hm : u.inst? i = some m)
include hm

theorem applySysw_core {j : Nat} (hj : j < 8) :
    applySysw u i (0x40 + j) v = u.modCore m.cluster fun c => c.selects j (v.setWidth 10) := by
  simp only [applySysw, hm]
  rw [if_pos (by omega), Nat.add_sub_cancel_left]
  rfl

theorem applySysw_die {j : Nat} (hj : j < 32) :
    applySysw u i (0x60 + j) v = u.modDie (dieOfCore m.cluster) fun d => d.selects j (v.setWidth 10) := by
  simp only [applySysw, hm]
  rw [if_neg (by omega), if_pos (by omega), Nat.add_sub_cancel_left]
  rfl

theorem applySysw_ctl (core : ¬ (0x40 ≤ reg ∧ reg ≤ 0x47)) (die : ¬ (0x60 ≤ reg ∧ reg ≤ 0x7F)) :
    applySysw u i reg v = u.modCtl i fun c => c.sysw reg v := by
  simp only [applySysw, hm]
  rw [if_neg core, if_neg die]

/-- A SYSW leaves memory as it was, and of the instance its context's register written. -/
theorem applySysw_inst : (applySysw u i reg v).inst? i = some { m with ctl := m.ctl.sysw reg v }
    ∧ (applySysw u i reg v).mem = u.mem := by
  by_cases core : 0x40 ≤ reg ∧ reg ≤ 0x47
  · obtain ⟨j, rfl⟩ := Nat.exists_eq_add_of_le core.1
    rw [applySysw_core hm (by omega), sysw_beyond _ _ (by omega)]
    exact ⟨hm, rfl⟩
  · by_cases die : 0x60 ≤ reg ∧ reg ≤ 0x7F
    · obtain ⟨j, rfl⟩ := Nat.exists_eq_add_of_le die.1
      rw [applySysw_die hm (by omega), sysw_beyond _ _ (by omega)]
      exact ⟨hm, rfl⟩
    · rw [applySysw_ctl hm core die, State.inst_modCtl_self, hm]
      exact ⟨rfl, rfl⟩

end Commit

/-! ## O46 -/

section Leaves

variable {s : State} {i : Nat} {n : Inst} {b : Block} (reg : Nat) (v a : Word)

/-- What the commit makes of the instance and of memory. -/
theorem sysCommitted_leaves (hn : s.inst? i = some n) (hb : n.ctl.blk = some b) (writes : b.writes = []) (held : b.held = [])
    (divides : b.divZero = false) : let t := sysCommitted s i n b reg v a
    t.inst? i = some { n with
      ctl := { n.ctl with blk := none, next := a, watch := 0, expired := false }.sysw reg v } ∧ t.mem = s.mem := by
  obtain ⟨inst, mem⟩ := applySysw_inst (reg := reg) (v := v) (exitReached_of_no_writes hn hb writes held divides)
  refine ⟨?_, (countCore_mem _ _ _ _).trans (mem.trans exitReached_mem)⟩
  rw [sysCommitted, (KeepsAskers.countCore _ _ _ _).inst i, State.inst_modCtl_self, inst, Option.map_some, sysw_leave]

/-- What it makes of cores and dies: a SYSW of a register of the context leaves their selects. -/
theorem sysCommitted_core_ne {x : Nat} (hx : x ≠ n.cluster) {u : State}
    (h : applySysw (exitReached s i b) i reg v = u) : (sysCommitted s i n b reg v a).core x = u.core x := by
  rw [sysCommitted, h, countCore_commit, State.core_modCore_ne _ _ hx]
  rfl

theorem sysCommitted_core_self {u : State} (h : applySysw (exitReached s i b) i reg v = u) :
    (sysCommitted s i n b reg v a).core n.cluster = (u.core n.cluster).countsCommit := by
  rw [sysCommitted, h, countCore_commit, State.core_modCore_self]
  rfl

theorem sysCommitted_dies {u : State} (h : applySysw (exitReached s i b) i reg v = u) :
    (sysCommitted s i n b reg v a).dies = u.dies := by
  rw [sysCommitted, h, countCore_commit]
  rfl

/-- A SYSW that leaves the cores leaves their selects. -/
theorem sysCommitted_csel {u : State} (h : applySysw (exitReached s i b) i reg v = u) (cores : u.cores = s.cores) (x : Nat) :
    ((sysCommitted s i n b reg v a).core x).csel = (s.core x).csel := by
  by_cases hx : x = n.cluster
  · subst hx
    rw [sysCommitted_core_self reg v a h, core_of_cores cores]
    rfl
  · rw [sysCommitted_core_ne reg v a hx h, core_of_cores cores]

end Leaves

/-- Settles O46: a register of the context is written there and leaves cores and dies; a select is written at its core or die, its
counter cleared before the commit is counted. -/
theorem systemRegisterWrites : Obligations.SystemRegisterWrites := by
  unfold Obligations.SystemRegisterWrites
  intro s i k reg n b a v hn hb hc acts writes held divides plain exit steady
  have reached := exitReached_of_no_writes hn hb writes held divides
  obtain ⟨inst, mem⟩ := sysCommitted_leaves reg v a hn hb writes held divides
  have commits : exec (.blockCommit i) s = .next (sysCommitted s i n b reg v a) := by
    rw [exec_blockCommit_committable hn hb hc, commitBlock_sysw acts plain steady exit]
  refine ⟨_, _, commits, inst, mem, ?_, ?_, ?_, ?_, ?_, ?_, ?_, ?_, fun j h hreg => ?_, fun j h hreg => ?_, fun j h hreg => ?_,
    fun core die => ?_⟩
  · rintro rfl
    rw [Ctl.sysw, steady]
  · rintro rfl; rfl
  · rintro rfl; rfl
  · rintro rfl; rfl
  · rintro rfl; rfl
  · rintro rfl; rfl
  · rintro rfl; rfl
  · rintro rfl; rfl
  · subst hreg
    exact sysw_faultIter _ v h
  · subst hreg
    have applied := applySysw_core (v := v) reached h
    have core : (exitReached s i b).core n.cluster = s.core n.cluster := core_of_cores (exitReached_cores s i b) _
    have self := sysCommitted_core_self (n := n) (0x40 + j) v a applied
    rw [State.core_modCore_self, core] at self
    rw [self]
    obtain ⟨select, count⟩ := selects_self (s.core n.cluster) (v.setWidth 10) h
    refine ⟨sysw_beyond _ _ (by omega), select, count, fun l hl => selects_ne _ _ hl, fun x hx => ?_, ?_⟩
    · rw [sysCommitted_core_ne _ v a hx applied, State.core_modCore_ne _ _ hx, core_of_cores (exitReached_cores s i b)]
    · exact (sysCommitted_dies _ v a applied).trans (exitReached_dies s i b)
  · subst hreg
    have applied := applySysw_die (v := v) reached h
    have dies := sysCommitted_dies (n := n) (0x60 + j) v a applied
    have die (x : Nat) : (exitReached s i b).die x = s.die x := by rw [State.die, State.die, exitReached_dies]
    have now (x : Nat) : (sysCommitted s i n b (0x60 + j) v a).die x
        = ((exitReached s i b).modDie (dieOfCore n.cluster) fun d => d.selects j (v.setWidth 10)).die x := by
      rw [State.die, State.die, dies]
    rw [now, State.die_modDie_self, die]
    obtain ⟨select, count⟩ := dieSelects_self (s.die (dieOfCore n.cluster)) (v.setWidth 10) h
    refine ⟨sysw_beyond _ _ (by omega), select, count, fun l hl => dieSelects_ne _ _ hl, fun x hx => ?_, fun x => ?_⟩
    · rw [now, State.die_modDie_ne _ _ hx, die]
    · exact sysCommitted_csel _ v a applied (exitReached_cores s i b) x
  · have applied := applySysw_ctl (v := v) reached core die
    exact ⟨(sysCommitted_dies reg v a applied).trans (exitReached_dies s i b), sysCommitted_csel reg v a applied (exitReached_cores s i b)⟩

end Sys2Proof.Machine
end

section
/-! PROOFS. TLBINV_DONE and BCINV_DONE (O47): what leaves the TLBs and the block caches, and whom the next block no longer waits
for (R284, R285). -/

namespace Sys2Proof.Machine

/-! ## The range of an extent (R284) -/

/-- log2 of the bytes that a TLBINV of an extent below 3 covers. -/
def extentLog (e : Nat) : Nat :=
  match e with
  | 0 => 16
  | 1 => 21
  | _ => 29

theorem invRange_of_lt {e : Nat} (addr : Word) (h : e < 3) :
    invRange e addr = some (addr.toNat % 2 ^ 55 / 2 ^ extentLog e * 2 ^ extentLog e, extentLog e) := by
  match e, h with
  | 0, _ => rfl
  | 1, _ => rfl
  | 2, _ => rfl

theorem invalidate_range_tlb (s : State) (ctx base lg : Nat) : (invalidate s ctx (some (base, lg))).tlb
    = s.tlb.filter fun x => !(x.ctx = ctx ∧ x.war = false ∧ x.base < base + 2 ^ lg ∧ base < x.base + 2 ^ x.size) := by
  refine List.filter_congr fun x _ => ?_
  cases x.war <;> simp [inRange, beq_eq_decide]

theorem invalidate_whole_tlb (s : State) (ctx : Nat) : (invalidate s ctx none).tlb = s.tlb.filter fun x => !(x.ctx = ctx) := by
  refine List.filter_congr fun x _ => ?_
  cases x.war <;> simp [inRange, beq_eq_decide]

/-! ## TLBINV_DONE (R284) -/

/-- With nothing of the context on its way, no walk of it under way and no record that holds a translation, an invalidation that
has not begun ends in one step. -/
theorem exec_tlbinvDone_quiet {s : State} {i e : Nat} {n : Inst} {addr : Word} {rest : List (Nat × Word × Option (List (Nat × Nat)))}
    (hn : s.inst? i = some n) (quiet : s.outbOf (.ctl i) = [])
    (waits : n.ctl.wait.filterMap CtlWait.tlb = (e, addr, none) :: rest) (walks : ∀ w ∈ s.walks, w.ctx ≠ n.ctx) (recs : s.recs = []) :
    exec (.tlbinvDone i) s = .next ((invalidate s n.ctx (invRange e addr)).modCtl i fun c =>
      { c with wait := c.wait.erase (.tlbinv e addr none) }) := by
  have unheld : reduceHolds s n.ctx (invRange e addr) = [] := by rw [reduceHolds, recs]; rfl
  have walked : (s.walks.any fun w => w.ctx == n.ctx) = false :=
    List.any_eq_false.mpr fun w hw => by simpa using walks w hw
  rw [exec_tlbinvDone, execTlbinvDone, hn]
  simp only [waits, quiet, unheld, walked]
  rfl

/-! ## BCINV_DONE (R285) -/

/-- An address in the 4 KiB range of another. -/
def sameRange (addr a : Word) : Bool := a.toNat / 4096 == addr.toNat / 4096

/-- A core without the block-cache copies of a context's blocks in a range. -/
def Core.dropBlocks (ctx : Nat) (addr : Word) (c : Core) : Core :=
  { c with blocks := c.blocks.filter fun b => !(b.1 / 2 == ctx && sameRange addr b.2.1) }

/-- The state without the block-cache copies of a context's blocks in a range, its unstarted blocks there dropped. -/
def dropBlocks (s : State) (ctx : Nat) (addr : Word) : State :=
  { s with
    cores := s.cores.map fun (x : Nat × Core) => (x.1, x.2.dropBlocks ctx addr)
    insts := s.insts.map fun (x : Nat × Inst) =>
      (x.1, if x.2.ctx = ctx then { x.2 with ctl := x.2.ctl.refetch (sameRange addr) } else x.2) }

theorem exec_bcinvDone_quiet {s : State} {i : Nat} {n : Inst} {addr : Word} {rest : List Word} (hn : s.inst? i = some n)
    (quiet : s.outbOf (.ctl i) = []) (waits : n.ctl.wait.filterMap CtlWait.bc = addr :: rest) :
    exec (.bcinvDone i) s = .next ((dropBlocks s n.ctx addr).modCtl i fun c => { c with wait := c.wait.erase (.bcinv addr) }) := by
  rw [exec_bcinvDone, execBcinvDone, hn]
  simp only [waits, quiet]
  rfl

theorem aget_map {α β : Type} (f : α → β) (k : Nat) (m : Assoc α) :
    aget k (m.map fun x => (x.1, f x.2)) = (aget k m).map f := by
  induction m with
  | nil => rfl
  | cons x m ih =>
    simp only [List.map_cons, aget, ih]
    split <;> rfl

/-- The block cache of every core, listed or not. -/
theorem dropBlocks_blocks (s : State) (ctx : Nat) (addr : Word) (core : Nat) : ((dropBlocks s ctx addr).core core).blocks
    = (s.core core).blocks.filter fun b => !(b.1 / 2 = ctx ∧ b.2.1.toNat / 4096 = addr.toNat / 4096) := by
  have filters : (fun b : Nat × Word × List Word => !(b.1 / 2 == ctx && sameRange addr b.2.1))
      = fun b => !(decide (b.1 / 2 = ctx ∧ b.2.1.toNat / 4096 = addr.toNat / 4096)) := by
    funext b
    simp [sameRange, beq_eq_decide]
  have there : aget core (dropBlocks s ctx addr).cores = (aget core s.cores).map (Core.dropBlocks ctx addr) := aget_map _ _ _
  rw [← filters, State.core, State.core, agetD, agetD, there]
  cases aget core s.cores <;> rfl

/-- Settles O47: each ends in one step when nothing that it waits for is left, and removes what it names. -/
theorem invalidationsComplete : Obligations.InvalidationsComplete := by
  unfold Obligations.InvalidationsComplete
  intro s i n addr hn quiet
  refine ⟨fun e rest waits walks recs => ?_, fun rest waits => ?_⟩
  · refine ⟨_, exec_tlbinvDone_quiet hn quiet waits walks recs, rfl, fun below => ?_, fun whole => ?_, rfl⟩
    · rw [invRange_of_lt addr below]
      exact invalidate_range_tlb s n.ctx _ _
    · rw [whole]
      exact invalidate_whole_tlb s n.ctx
  · refine ⟨_, exec_bcinvDone_quiet hn quiet waits, rfl, rfl, ?_, dropBlocks_blocks s n.ctx addr⟩
    have again (c : Ctl) : c.refetch (sameRange addr) = (match c.blk with
        | some b => if b.started = false ∧ b.addr.toNat / 4096 = addr.toNat / 4096 then { c with blk := none } else c
        | none => c) := by
      unfold Ctl.refetch
      split <;> simp [sameRange, *]
    simp only [dropBlocks, again]
    rfl

end Sys2Proof.Machine
end

section
/-! PROOFS. The waits of YIELD, WAITEV and FWAIT (O48): what the delivery of met events leaves, and the slot whose wait has lasted
its limit. -/

namespace Sys2Proof.Machine

open Sys2Proof.Bits Sys2Proof.Rows

/-! ## The firing slot in its block -/

theorem curSlot_some {s : State} {n : Inst} {b : Block} {r : SlotRec} (h : s.curSlot = some (n, b, r)) :
    s.inst? s.cur.1 = some n ∧ n.ctl.blk = some b ∧ b.slots[s.cur.2]? = some r := by
  unfold State.curSlot at h
  split at h
  · cases h
  · rename_i inst
    split at h
    · cases h
    · rename_i blk
      split at h
      · cases h
      · rename_i slot
        split at h
        · cases h; exact ⟨inst, blk, slot⟩
        · cases h

/-- The slot that fires stands in the block in flight of its context. -/
theorem firing_slot {x : Instr} {s : State} {fr : Firing} (h : firing x s = some fr) :
    s.inst? fr.i = some fr.n ∧ fr.n.ctl.blk = some fr.b ∧ fr.b.slots[fr.k]? = some fr.rec_ := by
  unfold firing at h
  split at h
  · rename_i cur
    split at h
    · split at h
      · cases h; exact curSlot_some cur
      · cases h
    · cases h
  · cases h

theorem amod_congr {α : Type} {k : Nat} {f g : α → α} {m : Assoc α} {a : α} (ha : aget k m = some a) (h : f a = g a) :
    amod k f m = amod k g m := by
  induction m with
  | nil => rfl
  | cons x m ih =>
    simp only [aget] at ha
    simp only [amod]
    split at ha
    · rename_i here
      cases ha
      rw [if_pos here, if_pos here, h]
    · rename_i other
      rw [if_neg other, if_neg other, ih ha]

theorem updateAt_congr {α : Type} {k : Nat} {f g : α → α} {l : List α} {a : α} (ha : l[k]? = some a) (h : f a = g a) :
    updateAt f k l = updateAt g k l := by
  induction l generalizing k with
  | nil => simp at ha
  | cons x l ih =>
    cases k with
    | zero => cases ha; simp only [updateAt, h]
    | succ k => simp only [updateAt, ih ha]

/-- A change of a slot is known by what it makes of the slot's record. -/
theorem modSlot_congr {s : State} {i k : Nat} {n : Inst} {b : Block} {r : SlotRec} {f g : SlotRec → SlotRec}
    (inst : s.inst? i = some n) (blk : n.ctl.blk = some b) (slot : b.slots[k]? = some r) (h : f r = g r) :
    s.modSlot i k f = s.modSlot i k g := by
  have same : amod i (fun n : Inst => { n with ctl := { n.ctl with
        blk := n.ctl.blk.map fun b => { b with slots := updateAt f k b.slots } } }) s.insts
      = amod i (fun n : Inst => { n with ctl := { n.ctl with
        blk := n.ctl.blk.map fun b => { b with slots := updateAt g k b.slots } } }) s.insts := by
    apply amod_congr inst
    simp only [blk, Option.map_some, updateAt_congr slot h]
  simp only [State.modSlot, State.modBlk, State.modCtl, State.modInst, same]

/-- A slot that fires and then waits for a condition stands blocked from now on. -/
theorem block_of_firing {x : Instr} {opc : Nat} {f : Fields} {s : State} {fr : Firing} (hx : x.slotFields = some (opc, f))
    (ha : translatesAhead opc = false) (h : firing x s = some fr) {u : State} (insts : u.insts = s.insts) :
    fr.block u = u.modSlot fr.i fr.k fun r => { r with st := .blocked, since := u.cycle } := by
  obtain ⟨inst, blk, slot⟩ := firing_slot h
  have there : u.inst? fr.i = some fr.n := by rw [State.inst?, insts]; exact inst
  refine modSlot_congr there blk slot (if_neg ?_)
  rw [firing_waiting hx ha h]
  decide

/-! ## The delivery of met events (R287, R323) -/

/-- A slot done, with an effect noted and its value on the way to its first target, behind an acquire or without one. -/
def deliversEvents (s : State) (i k : Nat) (late : Block → Block) (acquires : State → State) (v : Word) : State :=
  deliverAll (acquires ((s.modSlot i k fun r => { r with st := .done }).modBlk i late)) i
    (((slotTargets s i k).take 1).map fun t => (t, .val v))

theorem OnBindPart.deliverAll (i : Nat) (ds : List (Target × Val)) : OnBindPart fun s => deliverAll s i ds :=
  OnBindPart.foldl (f := fun s (d : Target × Val) => Machine.deliver s i d.1 d.2) (fun d => OnBindPart.deliver i d.1 d.2) ds

theorem OnlyCaches.bindPart {s t : State} (h : OnlyCaches s t) : t.bindPart = s.bindPart := (congrArg State.bindPart h.frame :)

/-- The acquire of a delivery leaves instances and memory as the delivery without it. -/
theorem deliversEvents_acquire (s : State) (i k : Nat) (late : Block → Block) (v : Word) {acquires : State → State}
    (h : ∀ u, OnlyCaches u (acquires u)) : let t := deliversEvents s i k late acquires v
    t.insts = (deliversEvents s i k late id v).insts ∧ t.mem = s.mem := by
  have delivers := OnBindPart.deliverAll i (((slotTargets s i k).take 1).map fun t => (t, Val.val v))
  have caches := h ((s.modSlot i k fun r => { r with st := .done }).modBlk i late)
  exact ⟨delivers.insts caches.bindPart, (delivers.mem _).trans caches.mem⟩

/-- What a WAITEV that delivers leaves in its block (R287). -/
def clearsEvents (met : BitVec 4) (b : Block) : Block :=
  { b with acts := b.acts ++ [.clearEvents met.toNat], evLate := b.evLate &&& ~~~met }

/-- What an FWAIT that delivers leaves in its block (R323). -/
def clearsFabric (met : BitVec 4) (b : Block) : Block :=
  { b with acts := b.acts ++ [.clearFabricEvents met.toNat], fabLate := b.fabLate &&& ~~~met }

theorem waitevDone_eq (s : State) (i k core : Nat) (met : BitVec 4) : waitevDone s i k core met
    = deliversEvents s i k (clearsEvents met) (fun u => if met &&& 0b1101#4 = 0 then u else acquire u core .system)
        (met.setWidth 64) := rfl

theorem fwaitDone_eq (s : State) (i k core : Nat) (r : Region) (met : BitVec 4) : fwaitDone s i k core r met
    = deliversEvents s i k (clearsFabric met) (fun u => if met &&& 0b0101#4 = 0 then u else acquire u core .module)
        (fwaitWord r met) := rfl

/-- Of the events LATCH alone makes no acquire. -/
theorem waitevDone_plain (s : State) (i k core : Nat) {met : BitVec 4} (plain : met &&& 0b1101#4 = 0) :
    waitevDone s i k core met = deliversEvents s i k (clearsEvents met) id (met.setWidth 64) := by
  rw [waitevDone_eq]
  simp only [plain, if_true]
  rfl

theorem waitevDone_leaves (s : State) (i k core : Nat) (met : BitVec 4) : let t := waitevDone s i k core met
    t.insts = (deliversEvents s i k (clearsEvents met) id (met.setWidth 64)).insts ∧ t.mem = s.mem := by
  rw [waitevDone_eq]
  exact deliversEvents_acquire s i k _ _ fun u => OnlyCaches.ite _ (OnlyCaches.refl u) (OnlyCaches.acquire u core .system)

theorem fwaitDone_none (s : State) (i k core : Nat) (r : Region) :
    fwaitDone s i k core r 0 = deliversEvents s i k (clearsFabric 0) id (fwaitWord r 0) := rfl

theorem fwaitDone_leaves (s : State) (i k core : Nat) (r : Region) (met : BitVec 4) : let t := fwaitDone s i k core r met
    t.insts = (deliversEvents s i k (clearsFabric met) id (fwaitWord r met)).insts ∧ t.mem = s.mem := by
  rw [fwaitDone_eq]
  exact deliversEvents_acquire s i k _ _ fun u => OnlyCaches.ite _ (OnlyCaches.refl u) (OnlyCaches.acquire u core .module)

/-! ## A wait that has lasted its limit (R279, R287, R323) -/

theorem exec_yieldTimeout_of_yielded {s : State} {i t₀ : Nat} {n : Inst} {rest : List Nat} (hn : s.inst? i = some n)
    (waits : n.ctl.wait.filterMap CtlWait.yielded = t₀ :: rest) : exec (.yieldTimeout i) s = .next
      (if t₀ + 64 ≤ s.cycle then s.modCtl i fun c => { c with wait := c.wait.filter fun w => w.yielded.isNone } else s) := by
  rw [exec_yieldTimeout, execYieldTimeout, hn]
  simp only [waits, when_, decide_eq_true_eq]

section TimedOut

variable {s : State} {i k opc : Nat} {n : Inst} {b : Block} {row : Row} {x : Fields}

/-- The only slot of an opcode, found when it waits for longer than its limit. -/
theorem find?_of_filter_singleton {α : Type} {p q : α → Bool} {l : List α} {a : α} (only : l.filter p = [a]) (holds : q a = true) :
    l.find? (fun y => p y && q y) = some a := by
  have filtered : l.filter (fun y => p y && q y) = [a] := by
    have both : l.filter (fun y => p y && q y) = (l.filter p).filter q := by
      rw [List.filter_filter]
      exact List.filter_congr fun y _ => Bool.and_comm _ _
    rw [both, only, List.filter_cons_of_pos holds, List.filter_nil]
  rw [← List.head?_filter, filtered, List.head?_cons]

variable (hn : s.inst? i = some n) (hb : n.ctl.blk = some b)
  (only : (Layout.slots b.words).filter (fun y => y.2.1.opc == opc) = [(k, row, x)])
include hn hb only

theorem timedOut_only (may : n.canFire = true) (blocked : (b.rec_ k).st = .blocked) (late : (b.rec_ k).since + 65536 ≤ s.cycle) :
    timedOut s i opc = some (n, k) := by
  have lasted : ((b.rec_ k).st == .blocked && decide ((b.rec_ k).since + waitCycles ≤ s.cycle)) = true := by
    simp only [blocked, waitCycles, late, decide_true, Bool.and_true, beq_self_eq_true]
  have found := find?_of_filter_singleton (q := fun y : Nat × Row × Fields => (b.rec_ y.1).st == .blocked
    && decide ((b.rec_ y.1).since + waitCycles ≤ s.cycle)) only lasted
  simp only [timedOut, hn, hb, may, Bool.not_true, Bool.false_eq_true, if_false, Bool.and_assoc, found, Option.map_some]

omit hn in
/-- Its mask is that of its own word. -/
theorem waitMask_only {e : EOp} (word : x = .e e) : waitMask n k = e.imm.setWidth 4 := by
  have member : (k, row, x) ∈ Layout.slots b.words := (List.mem_filter.mp (only ▸ List.mem_singleton_self _)).1
  simp only [Layout.slots, List.mem_filterMap, Option.map_eq_some_iff] at member
  obtain ⟨j, -, y, slot, same⟩ := member
  obtain ⟨row', fields, instr⟩ := y
  cases same
  dsimp only at word
  subst word
  simp only [waitMask, hb, Option.bind_some, slot]

end TimedOut

/-! ## O48 -/

/-- Settles O48: the waiting slot is the one found at its limit, and its delivery is that of a WAITEV or FWAIT that meets events. -/
theorem waitsEnd : Obligations.WaitsEnd := by
  unfold Obligations.WaitsEnd
  intro f s fr i k n b row x
  refine ⟨fun t₀ rest hn waits => ⟨fun late => ?_, fun early => ?_⟩, ?_, ?_, ?_⟩
  · rw [exec_yieldTimeout_of_yielded hn waits, if_pos late]
  · rw [exec_yieldTimeout_of_yielded hn waits, if_neg (by omega)]
  · rintro e ⟨hn, hb, may, only, -, blocked, late⟩ word met
    have ends : exec (.waitevTimeout i) s = .next (waitevDone s i k n.cluster met) := by
      rw [exec_waitevTimeout, execWaitevTimeout, timedOut_only hn hb only may blocked late]
      simp only [waitMask_only hb only word, met]
    refine ⟨fun none => ?_, _, ends, waitevDone_leaves s i k n.cluster met⟩
    rw [ends, none]
    rfl
  · rintro r e ⟨hn, hb, may, only, -, blocked, late⟩ word region met
    have ends : exec (.fwaitTimeout i) s = .next (fwaitDone s i k n.cluster r met) := by
      rw [exec_fwaitTimeout, execFwaitTimeout, timedOut_only hn hb only may blocked late]
      simp only [waitMask_only hb only word, region, met]
    refine ⟨fun none => ?_, _, ends, fwaitDone_leaves s i k n.cluster r met⟩
    rw [ends, none]
    rfl
  · rintro h rfl rfl met
    have fires : exec (.waitev f) s = .next (if met ≠ 0 then waitevDone s fr.i fr.k fr.n.cluster met
        else s.modSlot fr.i fr.k fun r => { r with st := .blocked, since := s.cycle }) := by
      rw [exec_waitev, execWaitev, fireOp_of_firing _ rfl rfl h]
      simp only [firing_waiting rfl rfl h]
      rfl
    refine ⟨fun latch => ?_, fun some => ?_, fun none => ?_⟩
    · rw [fires, latch]
      rfl
    · rw [fires, if_pos some]
      exact ⟨_, rfl, waitevDone_leaves s fr.i fr.k fr.n.cluster met⟩
    · rw [fires, if_neg (not_not_intro none)]

end Sys2Proof.Machine
end

section
/-! PROOFS. ACCR, ACCD, FWAIT, FCNT and FRUN in a block of a context with a region (O50). -/

namespace Sys2Proof.Machine

open Sys2Proof.Bits Sys2Proof.Rows

/-! ## ACCR and ACCD (R325) -/

theorem accWord_eq (c : List Word) (v : BitVec 48) : accWord c v
    = if Cfg.acc c = 1 then (v.setWidth 32).setWidth 64 else if Cfg.acc c = 2 then v.setWidth 64 else v.signExtend 64 := by
  unfold accWord
  split
  · exact BitVec.eq_of_toNat_eq (by simp only [BitVec.toNat_ofNat, BitVec.toNat_setWidth])
  · rfl

section Accumulators

variable {f : EOp} {s : State} {fr : Firing} {r : Region} {g : List Word} (reg : fr.n.reg = some r) (idle : r.phase = .idle)
  (group : groupBinding fr.b.words f.sel.toNat = some g)
include reg idle group

/-- ACCR of an idle region delivers the element's accumulator, or meets its parity error (R55). -/
theorem exec_accr_idle {w : List Word} {a : Acc} (h : firing (.accr f) s = some fr)
    (element : groupAcc s r g (f.imm.toNat % 65536) = some (w, a)) : exec (.accr f) s
      = .next (if Elements.Acc.good a then fr.done s [f.t1] (accWord w a.v) else fr.parity s) := by
  rw [exec_accr, execAccr, fireOp_of_firing _ rfl rfl h]
  simp only [reg, group, idle, element, ne_eq, not_true_eq_false, if_false]

/-- ACCD of an idle region whose range has translated notes its group's writes, in element order. -/
theorem exec_accd_idle {u : State} {ps : List Piece} (h : firing (.accd f) s = some fr)
    (range : slotXlate s fr f.as fr.l (groupSize g * drainSize f.imm.toNat) 1 ⟨.port, false, true, false, fr.n.ctl.cur⟩ = .ok u ps)
    (good : ∀ e w a, e < groupSize g → groupAcc u r g e = some (w, a) → Elements.Acc.good a = true) : exec (.accd f) s
      = .next { fr.note u (.drain (drainWrites u r g f.imm.toNat ps)) with fresh := u.fresh + groupSize g } := by
  rw [exec_accd, execAccd, fireOp_of_firing _ rfl rfl h]
  simp only [reg, group, idle, range, ne_eq, not_true_eq_false, if_false]
  rw [if_neg]
  rw [Bool.not_eq_true]
  refine List.any_eq_false.mpr fun e he => ?_
  split
  · rename_i w a element
    simp only [good e w a (List.mem_range.mp he) element, Bool.not_true, Bool.false_eq_true, not_false_eq_true]
  · exact Bool.false_ne_true

end Accumulators

/-! ## FWAIT and FCNT (R323, R324) -/

section Waits

variable {f : EOp} {s : State} {fr : Firing} {r : Region} (reg : fr.n.reg = some r)
include reg

/-- FWAIT delivers what is met of its mask, or waits. -/
theorem exec_fwait_of_firing (h : firing (.fwait f) s = some fr) : let met := fabricEvents s fr.i r &&& f.imm.setWidth 4
    exec (.fwait f) s = .next (if met ≠ 0 then fwaitDone s fr.i fr.k fr.n.cluster r met
      else s.modSlot fr.i fr.k fun x => { x with st := .blocked, since := s.cycle }) := by
  rw [exec_fwait, execFwait, fireOp_of_firing _ rfl rfl h]
  simp only [reg, block_of_firing rfl rfl h rfl]

theorem exec_fcnt_of_firing (h : firing (.fcnt f) s = some fr) :
    exec (.fcnt f) s = .next (fr.done s [f.t1] (BitVec.ofNat 64 (agetD 0 f.sel.toNat r.fcnt))) := by
  rw [exec_fcnt, execFcnt, fireOp_of_firing _ rfl rfl h]
  simp only [reg, Option.map_some, Option.getD_some]

/-! ## FRUN (R292, R306, R376) -/

/-- FRUN of a context whose request for leave is not in line and that no fault of its own interrupts. -/
theorem exec_frun_of_firing (h : firing (.frun f) s = some fr) (unasked : ∀ q ∈ s.leaves, q.2.for_ ≠ .frun fr.i)
    (clear : fr.n.ctl.async = [] ∨ fr.n.ctl.cur = true) : exec (.frun f) s = .next
      (if r.phase ≠ .idle then fr.block s
      else if drawcls s fr.n < Layout.draw fr.b.words then fr.fault s codeLeaveDenied 0
      else (askLeave s (.frun fr.i) (leaveDie fr.n) (s.classOf fr.n) (Layout.draw fr.b.words * (r.rect.w * r.rect.h))).elim
        (fr.fault s codeLeaveDenied 0) fr.block) := by
  have first : (s.leaves.any fun (q : Nat × LeaveReq) => q.2.for_ == .frun fr.i) = false :=
    List.any_eq_false.mpr fun q hq => by simpa using unasked q hq
  have notDue : fr.n.ctl.asyncDue = false := by
    rcases clear with empty | level
    · rw [Ctl.asyncDue, empty]; rfl
    · rw [Ctl.asyncDue, level]; exact Bool.and_false _
  rw [exec_frun, execFrun, fireOp_of_firing _ rfl rfl h]
  simp only [reg, first, notDue, Bool.or_false, Bool.false_eq_true, if_false, decide_eq_true_eq]
  cases askLeave s (.frun fr.i) (leaveDie fr.n) (s.classOf fr.n) (Layout.draw fr.b.words * (r.rect.w * r.rect.h)) <;> rfl

/-- Leave that its pool can ever grant is asked for, and the slot waits for it. -/
theorem exec_frun_asks (h : firing (.frun f) s = some fr) (unasked : ∀ q ∈ s.leaves, q.2.for_ ≠ .frun fr.i)
    (clear : fr.n.ctl.async = [] ∨ fr.n.ctl.cur = true) (draw : Layout.draw fr.b.words ≤ drawcls s fr.n) (idle : r.phase = .idle)
    (may : leaveNever s (dieOfCore fr.n.cluster) (s.classOf fr.n) (Layout.draw fr.b.words * (r.rect.w * r.rect.h)) = false) :
    exec (.frun f) s = .next (fr.block { s with
      fresh := s.fresh + 1
      leaves := aset (s.fresh + 1) ⟨.frun fr.i, dieOfCore fr.n.cluster, s.classOf fr.n,
        Layout.draw fr.b.words * (r.rect.w * r.rect.h), s.cycle⟩ s.leaves }) := by
  rw [exec_frun_of_firing reg h unasked clear, if_neg (not_not_intro idle), if_neg (by omega)]
  simp only [askLeave, leaveDie, may]
  rfl

end Waits

/-! ## O50 -/

/-- Settles O50: each fires with its own result; a slot that waits for a condition stands blocked from this cycle on. -/
theorem fabricOpcodesFire : Obligations.FabricOpcodesFire := by
  unfold Obligations.FabricOpcodesFire
  intro f s fr r reg
  refine ⟨fun g w a h idle group element => ⟨fun good => ?_, fun bad => ?_⟩, fun g u ps h idle group range good => ?_, fun h => ?_,
    exec_fcnt_of_firing reg, fun h unasked clear => ⟨fun idle above => ?_, fun busy => ?_, fun draw idle may => ?_⟩⟩
  · rw [exec_accr_idle reg idle group h element, if_pos good, accWord_eq]
  · rw [exec_accr_idle reg idle group h element, if_neg (by rw [bad]; exact Bool.false_ne_true)]
    exact ⟨_, rfl, rfl⟩
  · exact ⟨_, drainWrites u r g f.imm.toNat ps, exec_accd_idle reg idle group h range good, rfl, rfl⟩
  · have conditions : fabricEvents s fr.i r = (r.events &&& 0b1010)
        ||| (if r.phase = .idle ∧ regionWrites s fr.i false = false then 1 else 0)
        ||| (if regionWrites s fr.i true = false then 4 else 0) := by
      simp [fabricEvents]
    have fires := exec_fwait_of_firing reg h
    rw [conditions] at fires
    exact ⟨fun none => by rw [fires, if_neg (not_not_intro none)],
      fun some => ⟨_, fires.trans (congrArg _ (if_pos some)), (fwaitDone_leaves s fr.i fr.k fr.n.cluster r _).symm⟩⟩
  · rw [exec_frun_of_firing reg h unasked clear, if_neg (not_not_intro idle), if_pos above]
    rfl
  · rw [exec_frun_of_firing reg h unasked clear, if_pos busy, block_of_firing rfl rfl h rfl]
  · rw [exec_frun_asks reg h unasked clear draw idle may]
    exact congrArg Host.Outcome.next (block_of_firing rfl rfl h rfl)

end Sys2Proof.Machine
end

section
/-! PROOFS. The transfers and the queue-level reset that a slot asks for (O43): what a reset that starts leaves of the serials
(R116, R278), and what CPY, CPYT, CPYC, LAUNCH, XTLOAD, XSTAT and QRESET do when they fire. -/

namespace Sys2Proof.Machine

open Sys2Proof.Bits Sys2Proof.Rows

/-! ## The serial of the resets (R278) -/

/-- `t` goes on with the serial of `s`. -/
def KeepsSerial (s t : State) : Prop := t.resetSerial = s.resetSerial

namespace KeepsSerial

theorem refl (s : State) : KeepsSerial s s := rfl

theorem trans {s t u : State} (h : KeepsSerial s t) (k : KeepsSerial t u) : KeepsSerial s u := Eq.trans k h

theorem ite {s t u : State} (c : Prop) [Decidable c] (ht : KeepsSerial s t) (hu : KeepsSerial s u) :
    KeepsSerial s (if c then t else u) := by
  split
  · exact ht
  · exact hu

theorem foldl {α : Type} {f : State → α → State} (hf : ∀ s a, KeepsSerial s (f s a)) (l : List α) (s : State) :
    KeepsSerial s (l.foldl f s) := by
  induction l generalizing s with
  | nil => exact refl s
  | cons a l ih => exact (hf s a).trans (ih (f s a))

theorem of_onBindPart {f : State → State} (hf : OnBindPart f) (s : State) : KeepsSerial s (f s) :=
  (congrArg State.resetSerial (hf.frame s) :)

/-! ### Counters, log, stored errors (R47 to R50, R408, R409) -/

theorem countDie (s : State) (die code n : Nat) : KeepsSerial s (s.countDie die code n) := ite _ rfl (refl s)

theorem countCore (s : State) (core code n : Nat) : KeepsSerial s (s.countCore core code n) := ite _ rfl (refl s)

theorem countHome (s : State) (h : Home) (code : Nat) : KeepsSerial s (s.countHome h code) := by
  unfold State.countHome
  split
  · exact refl s
  · exact countDie s _ _ _

theorem logFault (s : State) (code ctx tenant die cluster inst addr detail : Nat) :
    KeepsSerial s (s.logFault code ctx tenant die cluster inst addr detail) := ite _ rfl rfl

theorem meetFlaw (back : Bool) (s : State) (f : Flaw) : KeepsSerial s (meetFlaw back s f) := by
  have corrected := countHome s (homeOf f.key) 0x030
  have poisoned : KeepsSerial s (poisonGranule s f.key) :=
    Eq.trans (countHome _ _ _) (logFault _ _ _ _ _ _ _ _ _)
  exact ite _ (refl s) (ite _ (ite _ corrected corrected) (ite _ poisoned rfl))

theorem meetFlaws (s : State) (key n : Nat) : KeepsSerial s (meetFlaws s key n) :=
  (foldl (meetFlaw true) _ _ :)

/-! ### A write to a record, its translation with its walk (R24, R30, R58) -/

theorem walkLevels (va : Nat) (ls : List Nat) (s : State) (table : Nat) : KeepsSerial s (walkLevels va ls s table).1 := by
  induction ls generalizing s table with
  | nil => exact refl s
  | cons lv rest ih =>
    have met := meetFlaws s (table + vaIndex va lv * 8) 8
    unfold Machine.walkLevels
    dsimp only
    split
    · exact refl s
    · split
      · exact met
      · split
        · exact met
        · split
          · exact met.trans (ih _ _)
          · exact met

theorem walk (s : State) (ctx va : Nat) : KeepsSerial s (walk s ctx va).1 := by
  unfold Machine.walk
  split
  · exact refl s
  · exact walkLevels _ _ _ _

theorem installLeaf (s : State) (core : Option Nat) (die ctx va e addr lg : Nat) (dirty : Bool) :
    KeepsSerial s (installLeaf s core die ctx va e addr lg dirty).1 := by
  have read (c : Bool) : KeepsSerial s (if c then Machine.meetFlaws s (addr - addr % 256) 256 else s) :=
    ite _ (meetFlaws s _ _) (refl s)
  have counted (c : Bool) (t : State) : KeepsSerial t (if c then t.countDie die 0x022 1 else t) :=
    ite _ (countDie t _ _ _) (refl t)
  have swapped (c : Prop) [Decidable c] (v : Nat) (t : State) :
      KeepsSerial t (if c then t else t.putBytes addr (leBytes 8 v)) := ite _ (refl t) rfl
  exact ((read _).trans (counted _ _)).trans (swapped _ _ _)

theorem endWalk (w : State × Walk) (core : Option Nat) (die ctx va : Nat) (a : Access) :
    KeepsSerial w.1 (endWalk w core die ctx va a).1 := by
  obtain ⟨s, x⟩ := w
  cases x with
  | absent => exact refl s
  | poisoned => exact refl s
  | leaf e addr lg =>
    change KeepsSerial s (enterLeaf s core die ctx va e addr lg a).1
    unfold enterLeaf
    dsimp only
    split <;> exact installLeaf _ _ _ _ _ _ _ _ _

theorem throughEntry (s : State) (x : TlbEntry) (core : Option Nat) (die ctx va : Nat) (a : Access) :
    KeepsSerial s (throughEntry s x core die ctx va a).1 := by
  have met := meetFlaws s x.leaf 8
  unfold Machine.throughEntry
  dsimp only
  split
  · exact refl s
  · split
    · split
      · exact met
      · exact Eq.trans (endWalk _ _ _ _ _ _) (Eq.trans (walkLevels _ _ _ _) met)
    · exact refl s

theorem countMiss (s : State) (core : Option Nat) (die : Nat) (hit : Option TlbPlace) :
    KeepsSerial s (countMiss s core die hit) := by
  unfold Machine.countMiss
  dsimp only
  refine trans ?_ (ite _ (countDie _ _ _ _) (refl _))
  split
  · exact refl s
  · exact countCore _ _ _ _
  · exact refl s

theorem lookVirt (s : State) (core : Option Nat) (die ctx va : Nat) (a : Access) :
    KeepsSerial s (lookVirt s core die ctx va a).1 := by
  unfold Machine.lookVirt
  split
  · exact (countMiss _ _ _ _).trans (throughEntry _ _ _ _ _ _ _)
  · exact countMiss _ _ _ _

theorem findVirt (s : State) (core : Option Nat) (die ctx va : Nat) (a : Access) :
    KeepsSerial s (findVirt s core die ctx va a).1 := by
  have looked := lookVirt s core die ctx va a
  unfold Machine.findVirt
  split
  · rename_i u hu
    rw [hu] at looked
    split
    · exact (trans looked (walk _ _ _)).trans (endWalk _ _ _ _ _ _)
    · exact looked
  · exact looked

theorem xlateVirt {find : State → Nat → State × Look} (hf : ∀ s va, KeepsSerial s (find s va).1) (ts : List (Nat × Nat))
    (s : State) (acc : List Piece) : KeepsSerial s (xlateVirt find s ts acc).1 := by
  induction ts generalizing s acc with
  | nil => exact refl s
  | cons t ts ih =>
    have found := hf s (t.1 % 2 ^ 64)
    unfold Machine.xlateVirt
    split <;> rename_i hu <;> rw [hu] at found
    · exact found
    · exact found
    · exact trans found (ih _ _)

theorem xlateNow (s : State) (die ctx : Nat) (addr : Word) (n align : Nat) (a : Access) :
    KeepsSerial s (xlateNow s die ctx addr n align a).1 := by
  unfold Machine.xlateNow xlate
  dsimp only
  split
  · exact refl s
  · split
    · exact refl s
    · exact xlateVirt (fun s va => findVirt s none die ctx va a) _ _ _

theorem releaseWaiter (s : State) (v : Word) (x : Nat × Nat × Nat × Scope) : KeepsSerial s (releaseWaiter s v x) := by
  have answered := of_onBindPart (OnBindPart.answer x.1 x.2.1 (some v)) s
  unfold Machine.releaseWaiter
  dsimp only
  split
  · exact answered.trans (ite _ rfl (refl _))
  · exact answered

theorem homeWrite (s : State) (key : Nat) (bs : List Byte) : KeepsSerial s (homeWrite s key bs) := by
  refine trans (t := s.putBytes key bs) rfl (foldl ?_ _ _)
  exact fun s x => Eq.trans (releaseWaiter _ _ x) rfl

theorem writeVirt (s : State) (die ctx : Nat) (addr : Word) (bs : List Byte) :
    KeepsSerial s (writeVirt s die ctx addr bs).1 := by
  have found := xlateNow s die ctx addr bs.length 1 (moduleAccess true)
  have written (ps : List Piece) (x : State × List Byte) : KeepsSerial x.1 (ps.foldl (fun (x : State × List Byte) p =>
      (Machine.homeWrite x.1 p.key (x.2.take p.n), x.2.drop p.n)) x).1 := by
    induction ps generalizing x with
    | nil => exact refl _
    | cons p ps ih => exact (homeWrite x.1 _ _).trans (ih (Machine.homeWrite x.1 p.key (x.2.take p.n), x.2.drop p.n))
  unfold Machine.writeVirt
  split <;> rename_i hu <;> rw [hu] at found
  · exact trans found (written _ (_, bs))
  · exact found
  · exact found

theorem writeRecord (s : State) (ctx : Nat) (addr : Word) (bs : List Byte) : KeepsSerial s (writeRecord s ctx addr bs) := by
  have wrote : KeepsSerial s (unqueued s fun s => Machine.writeVirt s schedDie ctx addr bs).1 :=
    writeVirt { s with walks := [] } schedDie ctx addr bs
  unfold Machine.writeRecord
  split <;> rename_i hu <;> rw [hu] at wrote
  · exact wrote
  · exact trans wrote (logFault _ _ _ _ _ _ _ _ _)

/-! ### Regions and blocks that stop (R100, R116, R178) -/

theorem undoWrites (s : State) (undo : List (Nat × Nat × List Byte × Bool)) : KeepsSerial s (undoWrites s undo) := by
  refine foldl ?_ undo.reverse s
  exact fun s u => ite (u.2.2.2 = true) rfl rfl

theorem untake (s : State) (ctx : Nat) (handles : List Word) : KeepsSerial s (untake s ctx handles) := by
  refine foldl (fun s h => ?_) handles s
  unfold State.modHandle
  split <;> exact rfl

theorem rollbackFe (s : State) (k x : Nat) : KeepsSerial s (rollbackFe s k x) := by
  unfold Machine.rollbackFe
  dsimp only
  split
  · exact rfl
  · rename_i p _ _
    have restored : KeepsSerial s (if (s.fe x).stoch then s.restoreStreams x p.cells p.bad else s) := ite _ rfl (refl s)
    exact restored

theorem rollback (s : State) (i : Nat) : KeepsSerial s (rollback s i) := by
  unfold Machine.rollback
  split
  · exact refl s
  · split
    · exact refl s
    · split
      · exact rfl
      · exact ((foldl (fun s (it : Iter) => undoWrites s it.undo) _ s).trans (foldl (fun s (it : Iter) => untake s _ it.takes) _ _)).trans
          (foldl (fun s (x : Nat × Nat) => rollbackFe s _ _) _ _)

theorem returnLeave (s : State) (i : Nat) : KeepsSerial s (returnLeave s i) := by
  unfold Machine.returnLeave
  split
  · exact refl s
  · split
    · exact refl s
    · split
      · exact refl s
      · exact rfl

theorem stopRegion (s : State) (i : Nat) : KeepsSerial s (stopRegion s i) := (rollback s i).trans (returnLeave _ i)

theorem dropWalks (s : State) (p : WalkReq → Bool) : KeepsSerial s (dropWalks s p) := by
  unfold Machine.dropWalks
  split <;> exact rfl

theorem discardBlock (s : State) (i : Nat) : KeepsSerial s (discardBlock s i) := by
  unfold Machine.discardBlock
  split
  · exact refl s
  · split
    · exact refl s
    · rename_i n _ _ b _
      have returned (u : State) : KeepsSerial u (if b.acts.contains .frun then Machine.returnLeave u i else u) :=
        ite _ (returnLeave u i) (refl u)
      have counted (u : State) : KeepsSerial u (if b.started then u.countCore n.cluster 0x011 1 else u) :=
        ite _ (countCore u _ _ _) (refl u)
      refine trans ?_ (counted _)
      refine trans ?_ (returned { Machine.dropWalks _ _ with pushes := _, leaves := _, outReads := _ })
      exact dropWalks (s.modCore n.cluster _) _

theorem releaseFes (s : State) (cells : List Nat) : KeepsSerial s (releaseFes s cells) :=
  foldl (fun s x => (rfl : KeepsSerial s (s.modFe x _))) cells s

theorem commandAll (s : State) (ls : List Nat) (act : LeafAct) : KeepsSerial s (commandAll s ls act) :=
  foldl (fun s l => (rfl : KeepsSerial s (command act s l))) ls s

theorem resetHeader (s : State) (n : Inst) : KeepsSerial s (resetHeader s n) := by
  refine ite _ ?_ (refl s)
  split
  · exact writeRecord s _ _ _
  · exact refl s

/-- An instance that stops under a reset takes no serial. -/
theorem resetInst (s : State) (i : Nat) : KeepsSerial s (resetInst s i) := by
  unfold Machine.resetInst
  split
  · exact refl s
  · rename_i n _
    have stopped : KeepsSerial s (dropRestore (Machine.stopRegion (Machine.resetHeader s n) i) i) :=
      (resetHeader s n).trans (stopRegion _ i)
    refine ite _ (refl s) (ite _ stopped ?_)
    exact (stopped.trans (discardBlock _ i)).trans (releaseFes (dropRequests _ i) _)

end KeepsSerial

/-- A reset that no request joins takes the next serial (R278). -/
theorem startReset_takes_serial {s : State} (tenant cls mask : Nat) (issuer : Option Nat) (h : s.resets = []) :
    (startReset s tenant cls mask issuer).2 = (s.resetSerial + 1) % 2 ^ 32
      ∧ (startReset s tenant cls mask issuer).1.resetSerial = (s.resetSerial + 1) % 2 ^ 32 := by
  have alone : joins s tenant cls mask = none := by rw [joins, h]; rfl
  simp only [startReset, alone]
  refine ⟨rfl, ?_⟩
  exact (KeepsSerial.commandAll _ _ _).trans (KeepsSerial.foldl KeepsSerial.resetInst _ _)

/-! ## The slots' firings -/

section
variable {f : EOp} {s u : State} {fr : Firing} {ps : List Piece}

/-- A record's slot whose record has translated asks for it (R271). -/
theorem recordOp_asks {x : Instr} {opc : Nat} (q : Word → Req) (hx : x.slotFields = some (opc, .e f))
    (ha : translatesAhead opc = false) (hf : firing x s = some fr) (hreq : fr.b.req = none)
    (hxl : slotXlate s fr .virt fr.l 64 64 (loadAccess fr.n) = .ok u ps) :
    recordOp opc f q s = .next (fr.ask u (q fr.l)) := by
  rw [recordOp, fireOp_of_firing _ hx ha hf, hxl]
  exact congrArg _ (putRequest_eq_ask u _ hreq)

theorem exec_cpyc_asks (hf : firing (.cpyc f) s = some fr) (hreq : fr.b.req = none)
    (allows : (s.sem fr.n.cluster (f.imm.toNat % 64)).allows fr.n.ctx = true)
    (hxl : slotXlate s fr .virt fr.l 64 64 (loadAccess fr.n) = .ok u ps) :
    exec (.cpyc f) s = .next (fr.ask u (.chain fr.l (f.sel.toNat % 16) (f.imm.toNat % 64))) := by
  rw [exec_cpyc, execCpyc, fireOp_of_firing _ rfl rfl hf]
  simp only [allows, hxl, Bool.not_true, Bool.false_eq_true, if_false, putRequest_eq_ask u _ hreq]

theorem exec_launch_asks (hf : firing (.launch f) s = some fr) (hreq : fr.b.req = none)
    (hxl : slotXlate s fr .virt fr.l 128 64 (loadAccess fr.n) = .ok u ps) :
    exec (.launch f) s = .next { fr.ask u (.launch fr.l) with
      pushes := u.pushes ++ [(⟨.ctl fr.i, fr.n.ctx, fr.l, fr.n.ctl.cur, dieOfCore fr.n.cluster⟩ : Push)] } := by
  rw [exec_launch, execLaunch, fireOp_of_firing _ rfl rfl hf]
  simp only [hxl, hreq, Option.isSome_none, Bool.false_eq_true, if_false, putRequest_eq_ask u _ hreq]

/-- The lane group that an X-table slot names. -/
def laneGroupOf (f : EOp) (fr : Firing) : Nat := dieOfCore fr.n.cluster * 2 + f.imm.toNat / 256 % 2

theorem exec_xtload_loads (hf : firing (.xtload f) s = some fr)
    (mine : (agetD LaneGroup.fresh (laneGroupOf f fr) s.lanes).tenant = some (BitVec.ofNat 4 (s.tenantOf fr.n.ctx)))
    (hxl : slotXlate s fr .virt fr.l 8 8 (loadAccess fr.n) = .ok u ps) (ready : sideReady u fr.i fr.b fr.k = true) :
    exec (.xtload f) s = .next (fr.doneAll (({ bindBlock u fr.i with
      lanes := aset (laneGroupOf f fr) { agetD LaneGroup.fresh (laneGroupOf f fr) s.lanes with
        loads := (agetD LaneGroup.fresh (laneGroupOf f fr) s.lanes).loads
          ++ [(⟨fr.i, (bindBlock u fr.i).queueOf fr.n, f.sel.toNat, fr.n.ctx, fr.n.ctl.cur, fr.l, f.imm.toNat % 256, []⟩ : XtLoad)] }
        (bindBlock u fr.i).lanes }).modCtl fr.i
          fun c => { c with pending := c.pending ||| BitVec.twoPow 64 f.sel.toNat }) []) := by
  rw [exec_xtload, execXtload, fireOp_of_firing _ rfl rfl hf]
  have same := bne_eq_false_iff_eq.mpr mine
  unfold laneGroupOf at same
  simp only [same, hxl, ready, Bool.not_true, Bool.false_eq_true, if_false]
  rfl

/-- What XSTAT reads of a lane group of its own tenant (R276). -/
theorem exec_xstat_mine (hf : firing (.xstat f) s = some fr)
    (mine : (agetD LaneGroup.fresh (laneGroupOf f fr) s.lanes).tenant = some (BitVec.ofNat 4 (s.tenantOf fr.n.ctx))) :
    exec (.xstat f) s = .next (fr.done s [f.t1] (BitVec.ofNat 64
      (2 ^ 61 + (if (agetD LaneGroup.fresh (laneGroupOf f fr) s.lanes).xtid != 0
          && (f.imm.toNat % 256 == 0 || (agetD LaneGroup.fresh (laneGroupOf f fr) s.lanes).xtid == f.imm.toNat % 256) then 2 ^ 63 else 0)
        + (if (agetD LaneGroup.fresh (laneGroupOf f fr) s.lanes).loads.isEmpty then 0 else 2 ^ 62)
        + (agetD LaneGroup.fresh (laneGroupOf f fr) s.lanes).xtid * 2 ^ 48 + laneUsers s (laneGroupOf f fr)))) := by
  rw [exec_xstat, execXstat, fireOp_of_firing _ rfl rfl hf]
  unfold laneGroupOf at mine ⊢
  simp only [mine, beq_self_eq_true, if_true]

theorem exec_xstat_other (hf : firing (.xstat f) s = some fr)
    (other : (agetD LaneGroup.fresh (laneGroupOf f fr) s.lanes).tenant ≠ some (BitVec.ofNat 4 (s.tenantOf fr.n.ctx))) :
    exec (.xstat f) s = .next (fr.done s [f.t1] 0) := by
  rw [exec_xstat, execXstat, fireOp_of_firing _ rfl rfl hf]
  unfold laneGroupOf at other
  simp only [beq_eq_false_iff_ne.mpr other, Bool.false_eq_true, if_false]
  rfl

/-! ### The reset's word (R278) -/

theorem bits_above (w : Word) : bits w.toNat 63 16 = w.toNat / 2 ^ 16 := by
  rw [bits_eq_mod]
  exact Nat.mod_eq_of_lt (by have := w.isLt; omega)

theorem bits_3_2 (w : Nat) : bits w 3 2 = w / 4 % 4 := bits_eq_mod ..

theorem bits_7_4 (w : Nat) : bits w 7 4 = w / 16 % 16 := bits_eq_mod ..

theorem bits_1_0 (w : Nat) : bits w 1 0 = w % 4 := by rw [bits_eq_mod, pow_zero, Nat.div_one]; rfl

theorem bits_15_8 (w : Nat) : bits w 15 8 = w / 256 % 256 := bits_eq_mod ..

/-- QRESET refuses this word: a reserved bit set, or another tenant's queue. -/
def qresetBad (s : State) (fr : Firing) : Bool :=
  bits fr.l.toNat 63 16 != 0 || bits fr.l.toNat 3 2 != 0 || bits fr.l.toNat 7 4 != s.tenantOf fr.n.ctx

theorem qresetBad_iff (s : State) (fr : Firing) : qresetBad s fr = true ↔
    fr.l.toNat / 2 ^ 16 ≠ 0 ∨ fr.l.toNat / 4 % 4 ≠ 0 ∨ fr.l.toNat / 16 % 16 ≠ s.tenantOf fr.n.ctx := by
  simp only [qresetBad, bits_above, bits_3_2, bits_7_4, Bool.or_eq_true, bne_iff_ne, or_assoc]

theorem exec_qreset_bad (hf : firing (.qreset f) s = some fr) (ready : sideReady s fr.i fr.b fr.k = true)
    (bad : qresetBad s fr = true) :
    exec (.qreset f) s = .next (fr.done (bindBlock s fr.i) [f.t1] (BitVec.twoPow 64 63)) := by
  unfold qresetBad at bad
  rw [exec_qreset, execQreset, fireOp_of_firing _ rfl rfl hf]
  simp only [ready, bad, Bool.not_true, Bool.false_and, Bool.or_self, Bool.false_eq_true, if_false, if_true]

theorem exec_qreset_good (hf : firing (.qreset f) s = some fr) (ready : sideReady s fr.i fr.b fr.k = true)
    (good : qresetBad s fr = false)
    (may : mayReset s (fr.l.toNat / 16 % 16) (fr.l.toNat % 4) (fullMask (fr.l.toNat / 256 % 256)) (some fr.i) = true) :
    let started := startReset (bindBlock s fr.i) (fr.l.toNat / 16 % 16) (fr.l.toNat % 4) (fullMask (fr.l.toNat / 256 % 256)) (some fr.i)
    exec (.qreset f) s = .next (fr.done
      (started.1.modCtl fr.i fun c => { c with resetStat := c.resetStat ||| BitVec.twoPow 64 63 }) [f.t1]
      (BitVec.ofNat 64 started.2)) := by
  simp only [← bits_7_4, ← bits_1_0, ← bits_15_8] at may ⊢
  unfold qresetBad at good
  rw [exec_qreset, execQreset, fireOp_of_firing _ rfl rfl hf]
  simp only [ready, good, may, Bool.not_true, Bool.and_false, Bool.or_self, Bool.false_eq_true, if_false]

end

/-- Settles O43. -/
theorem transfersAreAsked : Obligations.TransfersAreAsked := by
  unfold Obligations.TransfersAreAsked
  intro f s u fr ps hreq asked sem g lg mine xl
  refine ⟨fun hf hx => ?_, fun hf hx => ?_, fun hf allows hx => exec_cpyc_asks hf hreq allows hx,
    fun hf hx => exec_launch_asks hf hreq hx, fun hf hmine hx ready => exec_xtload_loads hf hmine hx ready, ?_, ?_⟩
  · rw [exec_cpy, execCpy]
    exact recordOp_asks _ rfl rfl hf hreq hx
  · rw [exec_cpyt, execCpyt]
    exact recordOp_asks _ rfl rfl hf hreq hx
  · refine fun hf => ⟨fun hmine => ?_, fun other => exec_xstat_other hf other⟩
    rw [exec_xstat_mine hf hmine]
    refine congrArg (fun v => Host.Outcome.next (fr.done s [f.t1] (BitVec.ofNat 64 v))) ?_
    simp only [Bool.and_eq_true, Bool.or_eq_true, bne_iff_ne, beq_iff_eq, List.isEmpty_iff]
    ac_rfl
  · refine fun hf ready => ⟨fun bad => exec_qreset_bad hf ready ((qresetBad_iff s fr).mpr bad), fun good none may => ?_⟩
    have bound := OnBindPart.bindBlock fr.i |>.frame s
    have same : (bindBlock s fr.i).resetSerial = s.resetSerial := (congrArg State.resetSerial bound :)
    have idle : (bindBlock s fr.i).resets = [] := (congrArg State.resets bound :).trans none
    obtain ⟨serial, counted⟩ := startReset_takes_serial (fr.l.toNat / 16 % 16) (fr.l.toNat % 4)
      (fullMask (fr.l.toNat / 256 % 256)) (some fr.i) idle
    have started := exec_qreset_good hf ready (Bool.eq_false_iff.mpr fun h => good ((qresetBad_iff s fr).mp h)) may
    rw [same] at serial counted
    dsimp only at started
    rw [serial] at started
    exact ⟨_, _, started, rfl, counted⟩

end Sys2Proof.Machine
end

section
/-! PROOFS. A stored error on a parked FE's shelf (O59): the lazy save's copy meets it, and where its code detects no error so
large (R47; log 75) the shelf itself holds free bytes afterwards, so that memory is not the plain copy of the shelf. -/

namespace Sys2Proof.Machine

open Sys2Proof.Bits Sys2Proof.Rows
open Sys2Proof.Tests (mapped parkedSaved lazyInst lazyBytes rewritten xlateNow_virt tokensOf_low copyRun_rewritten saveWrite_rewritten)

/-! ## Translation below 512 MiB, in every state with `mapped`'s TLBs -/

/-- The piece of a token there: itself. -/
def lowPiece (t : Nat × Nat) : Piece := ⟨t.1, t.2, true⟩

theorem findVirt_low {s : State} (h : s.tlb = mapped.tlb) {va : Nat} (hv : va < 2 ^ 29) :
    findVirt s none 0 0 va (moduleAccess true) = (s, .hit va 0) := by
  have page : va % 36028797018963968 / 536870912 = 0 := by omega
  have found : tlbLookup s none 0 0 va = some ⟨.die 0, false, 0, 0, 29, 0x3F, 0x1000, 0⟩ := by
    simp [tlbLookup, lookupPlaces, tlbFind, tlbCovering, h, mapped, List.filter_cons, page]
  have self : 0 + va % 2 ^ 29 = va := by omega
  have good : checkLeaf 0x3F va (moduleAccess true) = none := by
    have : va < hbmEnd := Nat.lt_of_lt_of_le hv (by decide +kernel)
    rw [checkLeaf, if_pos this]
    rfl
  rw [findVirt, lookVirt, found]
  dsimp only
  rw [throughEntry, self, good]
  rfl

theorem xlateVirt_low {s : State} (h : s.tlb = mapped.tlb) (ts : List (Nat × Nat)) (acc : List Piece) (low : ∀ t ∈ ts, t.1 < 2 ^ 29) :
    xlateVirt (fun s va => findVirt s none 0 0 va (moduleAccess true)) s ts acc = (s, .ok (acc.reverse ++ ts.map lowPiece)) := by
  induction ts generalizing acc with
  | nil => rw [xlateVirt, List.map_nil, List.append_nil]
  | cons t ts ih =>
    have ht : t.1 < 2 ^ 29 := low t (.head _)
    have small : t.1 % 2 ^ 64 = t.1 := by omega
    have cached : (decide (t.1 < hbmEnd)) = true := decide_eq_true (Nat.lt_of_lt_of_le ht (by decide +kernel))
    rw [xlateVirt, small, findVirt_low h ht]
    dsimp only
    rw [ih _ fun u hu => low u (.tail _ hu), cached]
    simp [lowPiece]

theorem xlateNow_low {s : State} (h : s.tlb = mapped.tlb) (a : Word) {k : Nat} (hk : 0 < k) (ha : a.toNat + k < 2 ^ 29) :
    xlateNow s 0 0 a k 1 (moduleAccess true) = (s, .ok ((tokensOf a.toNat k 64).map lowPiece)) := by
  rw [xlateNow_virt s a k ha, xlateVirt_low h _ _ (tokensOf_low _ k hk ha)]
  rfl

/-! ## Copies where no error waits and no block is in flight -/

section
variable {s : State} (hf : s.flaws = []) (hb : ∀ x ∈ s.insts, x.2.ctl.blk = none)
include hb

theorem barrierWaiters_of_no_block (key n : Nat) : barrierWaiters s key n = [] := by
  rw [barrierWaiters, List.filterMap_eq_nil_iff]
  intro x hx
  rw [hb x hx]

include hf

/-- Such a copy leaves what lies outside its destination. -/
theorem copyRun_read_outside {a b k key : Nat} (out : key < b ∨ b + k ≤ key) :
    (copyRun s a b k).mem.read key = s.mem.read key := by
  unfold copyRun
  rw [meetFlaws_of_no_flaws hf]
  dsimp only
  rw [homeWrite_of_no_waiters (barrierWaiters_of_no_block hb _ _)]
  exact Memory.read_writeN_outside _ _ _ _ (by rwa [State.bytes, Memory.length_readN])

/-- A shelf's copy changes bytes, poison and write-backs alone, and no byte outside its places. -/
theorem copyShelf_read_outside (f : Nat) {ps : List Piece} {key : Nat} (out : ∀ p ∈ ps, p.key + p.n ≤ key) :
    ∃ x, copyShelf s f ps true = rewritten s x ∧ x.1.read key = s.mem.read key := by
  have go (ps : List Piece) (out : ∀ p ∈ ps, p.key + p.n ≤ key) (x : Memory × List Nat × List Nat) (k : Nat) :
      ∃ y, (ps.foldl (fun (a : State × Nat) p =>
        (if true then copyRun a.1 (shelfKey f a.2) p.key p.n else copyRun a.1 p.key (shelfKey f a.2) p.n, a.2 + p.n))
          (rewritten s x, k)).1 = rewritten s y ∧ y.1.read key = x.1.read key := by
    induction ps generalizing x k with
    | nil => exact ⟨x, rfl, rfl⟩
    | cons p ps ih =>
      have kept := copyRun_read_outside (s := rewritten s x) hf hb (a := shelfKey f k) (.inr (out p (.head _)))
      obtain ⟨y, hy⟩ := copyRun_rewritten (rewritten s x) (shelfKey f k) p.key p.n hf hb
      rw [hy] at kept
      obtain ⟨z, hz, same⟩ := ih (fun p hp => out p (.tail _ hp)) y (k + p.n)
      refine ⟨z, ?_, same.trans kept⟩
      rw [List.foldl_cons, if_pos rfl, hy]
      exact hz
  exact go ps out (s.mem, s.poison, s.writebacks) 0

end

/-- The plain copy of a shelf to its places leaves what lies outside them. -/
theorem plainCopy_read_outside (f : Nat) {ps : List Piece} {key : Nat} (out : ∀ p ∈ ps, p.key + p.n ≤ key) (m : Memory) (k : Nat) :
    (ps.foldl (fun (a : Memory × Nat) p => (a.1.writeN p.key (a.1.readN (shelfKey f a.2) p.n), a.2 + p.n)) (m, k)).1.read key
      = m.read key := by
  induction ps generalizing m k with
  | nil => rfl
  | cons p ps ih =>
    rw [List.foldl_cons, ih fun p hp => out p (.tail _ hp)]
    exact Memory.read_writeN_outside _ _ _ _ (.inr (by rw [Memory.length_readN]; exact out p (.head _)))

/-! ## The parked FE whose shelf has a row with three wrong bits -/

/-- `parkedSaved` with a byte at the start of FE 0's shelf, and three wrong bits in its row. -/
def flawedShelf (b : Byte) : State :=
  { parkedSaved with mem := parkedSaved.mem.writeN (shelfKey 0 0) [b], flaws := [⟨shelfKey 0 0, 3, false⟩] }

/-- The same after a read of that row. -/
def freedShelf (b : Byte) : State := freeGranule { flawedShelf b with flaws := [] } (shelfKey 0 0)

theorem freedShelf_no_block (b : Byte) : ∀ x ∈ (freedShelf b).insts, x.2.ctl.blk = none := by
  change ∀ x ∈ parkedSaved.insts, x.2.ctl.blk = none
  decide +kernel

theorem Memory.read_writeN_head (m : Memory) (a : Nat) (b : Byte) (bs : List Byte) (h : m.wf = true) :
    (m.writeN a (b :: bs)).read a = b := by
  rw [Memory.writeN, Memory.read_writeN_outside _ _ _ _ (.inl (Nat.lt_succ_self a)), Memory.read_write_self m a b h]

theorem parkedSaved_wf : parkedSaved.mem.wf = true := by decide +kernel

theorem flawedShelf_read (b : Byte) : (flawedShelf b).mem.read (shelfKey 0 0) = b :=
  Memory.read_writeN_head _ _ _ _ parkedSaved_wf

theorem freedShelf_read (b : Byte) : (freedShelf b).mem.read (shelfKey 0 0) = Config.freeByte parkedSaved.fresh :=
  Memory.read_writeN_head _ _ _ ((List.range 7).map fun j => Config.freeByte (parkedSaved.fresh + (j + 1)))
    (Memory.wf_writeN _ _ _ parkedSaved_wf)

theorem meetFlaws_flawedShelf (b : Byte) : meetFlaws (flawedShelf b) (shelfKey 0 0) 64 = freedShelf b := rfl

/-- The places of the shelf's copy in the save area. -/
def shelfPlaces : List Piece := (tokensOf (0x30000 : Word).toNat 0x8000 64).map lowPiece

theorem shelfPlaces_head : shelfPlaces = ⟨0x30000, 64, true⟩ :: shelfPlaces.tail := by decide +kernel

theorem shelfPlaces_below : ∀ p ∈ shelfPlaces, p.key + p.n ≤ shelfKey 0 0 := by decide +kernel

/-- The copy's first read meets the error. -/
theorem copyShelf_flawedShelf (b : Byte) : copyShelf (flawedShelf b) 0 shelfPlaces true = copyShelf (freedShelf b) 0 shelfPlaces true := by
  have first : copyRun (flawedShelf b) (shelfKey 0 0) 0x30000 64 = copyRun (freedShelf b) (shelfKey 0 0) 0x30000 64 := by
    rw [copyRun, copyRun, meetFlaws_flawedShelf, meetFlaws_of_no_flaws rfl]
  rw [shelfPlaces_head, copyShelf, copyShelf, List.foldl_cons, List.foldl_cons, if_pos rfl, if_pos rfl, first]

theorem exists_other_byte (c : Byte) : ∃ b : Byte, b ≠ c := by
  by_cases zero : c = 0
  · exact ⟨1, by rw [zero]; decide⟩
  · exact ⟨0, Ne.symm zero⟩

section
variable (b : Byte)

theorem flawedShelf_claim : ((flawedShelf b).fe 0).claimedAt = some 9 := rfl

theorem flawedShelf_mustSave : mustSave (flawedShelf b) 0 = true := by
  simp only [mustSave, flawedShelf_claim, Option.isSome_some, Bool.true_or]

theorem flawedShelf_awake : (flawedShelf b).asleep (shelfKey 0 0) = false := by
  change parkedSaved.asleep (shelfKey 0 0) = false
  decide +kernel

theorem flawedShelf_offset : feSlotOff (recordOf (flawedShelf b) lazyInst) 0 0 = 0x10000 := by
  change feSlotOff (recordOf parkedSaved lazyInst) 0 0 = 0x10000
  decide +kernel

theorem lazyInst_place : dieOfCore lazyInst.cluster = 0 ∧ lazyInst.ctx = 0 := by decide +kernel

/-- The shelf's place in the save area translates. -/
theorem xlateNow_flawedShelf : xlateNow (flawedShelf b) (dieOfCore lazyInst.cluster) lazyInst.ctx
    (saveBase (recordOf (flawedShelf b) lazyInst) lazyInst.pos + BitVec.ofNat 64 0x10000) 0x8000 1 (moduleAccess true)
      = (flawedShelf b, .ok shelfPlaces) := by
  obtain ⟨die, ctx⟩ := lazyInst_place
  rw [show saveBase (recordOf (flawedShelf b) lazyInst) lazyInst.pos = 0x20000 from rfl, die, ctx]
  exact xlateNow_low (s := flawedShelf b) (k := 0x8000) rfl 0x30000 (by decide) (by decide)

/-- After the copy each write into the area goes through: it changes bytes, poison and write-backs alone. -/
theorem saveWrite_freedShelf (x : Memory × List Nat × List Nat) (off : Nat) {k : Nat} {bs : List Byte} (hk : bs.length = k) (pos : 0 < k)
    (low : ((0x20000 : Word) + BitVec.ofNat 64 off).toNat + k < 2 ^ 29) :
    ∃ y, saveWrite (rewritten (freedShelf b) x) lazyInst off bs = some (rewritten (freedShelf b) y) := by
  obtain ⟨die, ctx⟩ := lazyInst_place
  refine saveWrite_rewritten (freedShelf b) lazyInst off k bs rfl (freedShelf_no_block b) hk x ?_
  rw [show saveBase (recordOf (rewritten (freedShelf b) x) lazyInst) lazyInst.pos = 0x20000 from rfl, die, ctx]
  exact ⟨_, xlateNow_low (s := rewritten (freedShelf b) x) rfl _ pos low⟩

end

/-- Refutes O59: three wrong bits in a row of the parked FE's shelf are met by the lazy save's copy, which leaves free bytes in the
row (R47; log 75), while the plain copy leaves the row as it was. -/
theorem not_preemptionSteps : ¬ Obligations.PreemptionSteps := by
  unfold Obligations.PreemptionSteps
  rintro ⟨-, -, -, -, lazySave, -⟩
  obtain ⟨b, other⟩ := exists_other_byte (Config.freeByte parkedSaved.fresh)
  obtain ⟨x, copied, kept⟩ := copyShelf_read_outside (s := freedShelf b) rfl (freedShelf_no_block b) 0 shelfPlaces_below
  obtain ⟨y, record⟩ := saveWrite_freedShelf b x 0x18000 (k := 2048) (bs := lazyBytes) (by decide +kernel) (by decide) (by decide)
  obtain ⟨z, bytes⟩ := saveWrite_freedShelf b y 0x38 (bs := leBytes 8 (lazyInst.bytes + 0x8000 + lazyBytes.length)) (k := 8)
    (by simp [leBytes]) (by decide) (by decide)
  rw [← copyShelf_flawedShelf] at copied
  rw [← copied] at record
  obtain ⟨-, saves⟩ := lazySave (flawedShelf b) 0 0 lazyInst ⟨0, 0⟩ rfl rfl rfl rfl (flawedShelf_mustSave b)
  have saved := saves (flawedShelf b) (rewritten (freedShelf b) y) (rewritten (freedShelf b) z) 9 shelfPlaces (flawedShelf_claim b)
    (flawedShelf_awake b)
  dsimp only at saved
  rw [flawedShelf_offset] at saved
  obtain ⟨plain, -⟩ := saved (xlateNow_flawedShelf b) record bytes
  have same := plain fun p _ => barrierWaiters_of_no_block (s := flawedShelf b) (freedShelf_no_block b) _ _
  have both := congrArg (fun m => m.read (shelfKey 0 0)) same
  rw [plainCopy_read_outside 0 shelfPlaces_below, flawedShelf_read, copied] at both
  exact other (both.symm.trans (kept.trans (freedShelf_read b)))

end Sys2Proof.Machine
end

section
/-! PROOFS. What the arithmetic of the element formats computes (R183 to R195; O53): exact sums, products and comparisons in common
units, decoding of a pattern's fields, the rounding modes, integer codes, windows and group scales. -/

namespace Sys2Proof.Machine

open Sys2Proof.Bits Sys2Proof.Rows

/-! ## Lists -/

/-- A fold that adds something of each element adds their sum. -/
theorem foldl_eq_add_sum {α M : Type} [AddCommMonoid M] {f : M → α → M} {g : α → M} (l : List α) (a : M)
    (h : ∀ x ∈ l, ∀ a, f a x = a + g x) : l.foldl f a = a + (l.map g).sum := by
  induction l generalizing a with
  | nil => exact (add_zero a).symm
  | cons x l ih =>
    rw [List.foldl_cons, ih _ fun y hy => h y (.tail _ hy), h x (.head _), List.map_cons, List.sum_cons, add_assoc]

/-- A fold of maxima gives the largest element. -/
theorem foldl_max_eq {l : List Int} {a t : Int} (mem : t ∈ a :: l) (le : ∀ x ∈ a :: l, x ≤ t) : l.foldl max a = t := by
  induction l generalizing a with
  | nil => exact (List.mem_singleton.mp mem).symm
  | cons b l ih =>
    have first : a ≤ t := le a (.head _)
    have second : b ≤ t := le b (.tail _ (.head _))
    refine ih ?_ ?_
    · rcases List.mem_cons.mp mem with rfl | mem
      · rw [max_eq_left second]; exact .head _
      · rcases List.mem_cons.mp mem with rfl | mem
        · rw [max_eq_right first]; exact .head _
        · exact .tail _ mem
    · intro x hx
      rcases List.mem_cons.mp hx with rfl | hx
      · exact max_le first second
      · exact le x (.tail _ (.tail _ hx))

/-! ## Exact numbers in units (R187, R191) -/

theorem sig_natAbs (i : Int) : NumFmt.sig (decide (i < 0)) i.natAbs = i := by
  unfold NumFmt.sig
  split <;> rename_i h <;> simp only [decide_eq_true_eq] at h <;> omega

theorem sig_mul (x y : Bool) (m n : Nat) : NumFmt.sig (x != y) (m * n) = NumFmt.sig x m * NumFmt.sig y n := by
  cases x <;> cases y <;> simp [NumFmt.sig]

theorem unitsOf_fin (q : Int) (g : Bool) (m : Nat) (e : Int) : unitsOf q (.fin g m e) = NumFmt.sig g m * 2 ^ (e - q).toNat := rfl

theorem unitsOf_ofScaled (q i e : Int) : unitsOf q (NumFmt.ofScaled i e) = i * 2 ^ (e - q).toNat := by
  rw [NumFmt.ofScaled, unitsOf_fin, sig_natAbs]

theorem unitsOf_ofInt (i : Int) : unitsOf 0 (NumFmt.ofInt i) = i := by
  rw [show NumFmt.ofInt i = NumFmt.ofScaled i 0 from rfl, unitsOf_ofScaled]
  exact mul_one i

theorem unitsOf_zero (q : Int) (g : Bool) : unitsOf q (NumFmt.zero g) = 0 := by
  rw [NumFmt.zero, unitsOf_fin]
  cases g <;> simp [NumFmt.sig]

theorem finiteAbove_iff {q : Int} {v : Machine.Num} : finiteAbove q v ↔ ∃ g m e, v = .fin g m e ∧ q ≤ e := by
  constructor
  · intro h
    cases v with
    | nan => exact h.elim
    | inf g => exact h.elim
    | fin g m e => exact ⟨g, m, e, rfl, h⟩
  · rintro ⟨g, m, e, rfl, h⟩
    exact h

theorem two_pow_toNat_split {p g e : Int} (hp : p ≤ g) (hg : g ≤ e) :
    (2 : Int) ^ (e - p).toNat = 2 ^ (e - g).toNat * 2 ^ (g - p).toNat := by
  rw [← pow_add]
  congr 1
  omega

theorem unitsOf_add {p : Int} {a b : Machine.Num} (ha : finiteAbove p a) (hb : finiteAbove p b) :
    unitsOf p (NumFmt.add a b) = unitsOf p a + unitsOf p b := by
  obtain ⟨na, ma, ea, rfl, ha⟩ := finiteAbove_iff.mp ha
  obtain ⟨nb, mb, eb, rfl, hb⟩ := finiteAbove_iff.mp hb
  have low : p ≤ min ea eb := le_min ha hb
  rw [unitsOf_fin, unitsOf_fin, two_pow_toNat_split low (min_le_left ea eb), two_pow_toNat_split low (min_le_right ea eb),
    ← mul_assoc, ← mul_assoc, ← add_mul]
  unfold NumFmt.add
  dsimp only
  split
  · rename_i h
    rw [unitsOf_zero, h, zero_mul]
  · rw [unitsOf_ofScaled]

theorem unitsOf_mul {p q : Int} {a b : Machine.Num} (ha : finiteAbove p a) (hb : finiteAbove q b) :
    unitsOf (p + q) (NumFmt.mul a b) = unitsOf p a * unitsOf q b := by
  obtain ⟨na, ma, ea, rfl, ha⟩ := finiteAbove_iff.mp ha
  obtain ⟨nb, mb, eb, rfl, hb⟩ := finiteAbove_iff.mp hb
  have exps : (ea + eb - (p + q)).toNat = (ea - p).toNat + (eb - q).toNat := by omega
  rw [NumFmt.mul, unitsOf_fin, unitsOf_fin, unitsOf_fin, sig_mul, exps, pow_add]
  ring

theorem lt_iff_unitsOf {p : Int} {a b : Machine.Num} (ha : finiteAbove p a) (hb : finiteAbove p b) :
    NumFmt.lt a b = true ↔ unitsOf p a < unitsOf p b := by
  obtain ⟨na, ma, ea, rfl, ha⟩ := finiteAbove_iff.mp ha
  obtain ⟨nb, mb, eb, rfl, hb⟩ := finiteAbove_iff.mp hb
  have low : p ≤ min ea eb := le_min ha hb
  rw [unitsOf_fin, unitsOf_fin, two_pow_toNat_split low (min_le_left ea eb), two_pow_toNat_split low (min_le_right ea eb),
    ← mul_assoc, ← mul_assoc, mul_lt_mul_iff_left₀ (by positivity)]
  exact decide_eq_true_iff

theorem unitsOf_scale2 {p : Int} {a : Machine.Num} (ha : finiteAbove p a) (k : Int) :
    unitsOf (p + k) (NumFmt.scale2 a k) = unitsOf p a := by
  obtain ⟨g, m, e, rfl, -⟩ := finiteAbove_iff.mp ha
  rw [NumFmt.scale2, unitsOf_fin, unitsOf_fin, add_sub_add_right_eq_sub]

/-! ## Comparison (R316) -/

theorem lt_self (a : Machine.Num) : NumFmt.lt a a = false := by
  cases a with
  | nan => rfl
  | inf g => exact Bool.and_not_self g
  | fin g m e => exact decide_eq_false (lt_irrefl _)

theorem lt_asymm_num {a b : Machine.Num} (h : NumFmt.lt a b = true) : NumFmt.lt b a = false := by
  cases a with
  | nan => exact absurd h Bool.false_ne_true
  | inf x => cases b with
    | nan => rfl
    | inf y =>
      change (x && !y) = true at h
      change (y && !x) = false
      revert h
      cases x <;> cases y <;> decide
    | fin y n f =>
      change x = true at h
      change (!x) = false
      rw [h]; rfl
  | fin x m e => cases b with
    | nan => rfl
    | inf y =>
      change (!y) = true at h
      change y = false
      simpa using h
    | fin y n f =>
      have h := of_decide_eq_true h
      refine decide_eq_false (not_lt.mpr ?_)
      rw [min_comm f e]
      exact h.le

theorem lt_of_eq_num {a b : Machine.Num} (h : NumFmt.eq a b = true) : NumFmt.lt a b = false ∧ NumFmt.lt b a = false := by
  simp only [NumFmt.eq, Bool.and_eq_true, Bool.not_eq_true'] at h
  exact ⟨h.1.2, h.2⟩

/-- REDMAX's choice is one of the two, and neither is above it. -/
theorem redMax_chooses {a b : Machine.Num} (ha : NumFmt.isNan a = false) (hb : NumFmt.isNan b = false) :
    NumFmt.redMax a b ∈ [a, b] ∧ ∀ v ∈ [a, b], NumFmt.lt (NumFmt.redMax a b) v = false := by
  simp only [NumFmt.redMax, ha, hb, Bool.or_self, Bool.false_eq_true, if_false]
  split <;> rename_i h
  · refine ⟨by simp, ?_⟩
    have below : NumFmt.lt b a = false := by
      rw [Bool.or_eq_true] at h
      rcases h with h | h
      · exact lt_asymm_num h
      · simp only [Bool.and_eq_true] at h
        exact (lt_of_eq_num h.1.1).2
    simp [below, lt_self]
  · simp only [Bool.or_eq_true, not_or, Bool.not_eq_true] at h
    exact ⟨by simp, by simp [h.1, lt_self]⟩

/-- REDMIN's choice is one of the two, and neither is below it. -/
theorem redMin_chooses {a b : Machine.Num} (ha : NumFmt.isNan a = false) (hb : NumFmt.isNan b = false) :
    NumFmt.redMin a b ∈ [a, b] ∧ ∀ v ∈ [a, b], NumFmt.lt v (NumFmt.redMin a b) = false := by
  simp only [NumFmt.redMin, ha, hb, Bool.or_self, Bool.false_eq_true, if_false]
  split <;> rename_i h
  · refine ⟨by simp, ?_⟩
    have above : NumFmt.lt a b = false := by
      rw [Bool.or_eq_true] at h
      rcases h with h | h
      · exact lt_asymm_num h
      · simp only [Bool.and_eq_true] at h
        exact (lt_of_eq_num h.1.1).1
    simp [above, lt_self]
  · simp only [Bool.or_eq_true, not_or, Bool.not_eq_true] at h
    exact ⟨by simp, by simp [h.1, lt_self]⟩

/-! ## Decoding (R183) -/

theorem testBit_top {s x n : Nat} (hs : s < 2) (hx : x < 2 ^ n) : (s * 2 ^ n + x).testBit n = (s == 1) := by
  rw [Nat.testBit_eq_decide_div_mod_eq, Nat.add_comm, Nat.add_mul_div_right _ _ (Nat.two_pow_pos n), Nat.div_eq_of_lt hx, zero_add,
    Nat.mod_eq_of_lt hs]
  rfl

/-- A pattern's sign, exponent and fraction are those put into it. -/
theorem decodeFlt_fields {code : Nat} {f : NumFmt.Flt} {s e m : Nat} (heb : 0 < f.eb) (hs : s < 2) (he : e < 2 ^ f.eb)
    (hm : m < 2 ^ f.mb) : NumFmt.decodeFlt code f ((s * 2 ^ f.eb + e) * 2 ^ f.mb + m) =
      if NumFmt.hasInf code && e == 2 ^ f.eb - 1 then (if m = 0 then .inf (s == 1) else .nan)
      else if code == 4 && e == 15 && m == 7 then .nan
      else if e = 0 then .fin (s == 1) m (1 - f.bias - f.mb)
      else .fin (s == 1) (2 ^ f.mb + m) (e - f.bias - f.mb) := by
  have fraction : ((s * 2 ^ f.eb + e) * 2 ^ f.mb + m) % 2 ^ f.mb = m := by
    rw [Nat.add_comm, Nat.add_mul_mod_self_right, Nat.mod_eq_of_lt hm]
  have exponent : bits ((s * 2 ^ f.eb + e) * 2 ^ f.mb + m) (f.eb + f.mb - 1) f.mb = e := by
    rw [bits, Nat.shiftRight_eq_div_pow, Nat.add_comm, Nat.add_mul_div_right _ _ (Nat.two_pow_pos _), Nat.div_eq_of_lt hm, zero_add,
      show f.eb + f.mb - 1 + 1 - f.mb = f.eb by omega, Nat.add_comm, Nat.add_mul_mod_self_right, Nat.mod_eq_of_lt he]
  have sign : bit ((s * 2 ^ f.eb + e) * 2 ^ f.mb + m) (f.eb + f.mb) = (s == 1) := by
    have low : e * 2 ^ f.mb + m < 2 ^ (f.eb + f.mb) := by
      rw [pow_add]
      calc e * 2 ^ f.mb + m < (e + 1) * 2 ^ f.mb := by rw [Nat.succ_mul]; omega
        _ ≤ 2 ^ f.eb * 2 ^ f.mb := Nat.mul_le_mul_right _ he
    rw [bit, show (s * 2 ^ f.eb + e) * 2 ^ f.mb + m = s * 2 ^ (f.eb + f.mb) + (e * 2 ^ f.mb + m) by ring]
    exact testBit_top hs low
  unfold NumFmt.decodeFlt
  simp only [fraction, exponent, sign]

/-- Rows 1 to 8 of the formats: what decoding a pattern's fields gives. -/
theorem decode_fields {code n : Nat} {f : NumFmt.Flt} {s e m : Nat} (hf : NumFmt.fltOf code = some f) (heb : 0 < f.eb)
    (four : code = 4 → f.eb = 4) (hs : s < 2) (he : e < 2 ^ f.eb) (hm : m < 2 ^ f.mb) :
    let v := NumFmt.decode code n ((s * 2 ^ f.eb + e) * 2 ^ f.mb + m)
    let top := 2 ^ f.eb - 1
    (code ∈ [1, 2, 3, 5] → e = top → v = if m = 0 then .inf (s == 1) else .nan)
    ∧ (code = 4 → e = top → m = 7 → v = .nan)
    ∧ (¬ (code ∈ [1, 2, 3, 5] ∧ e = top) → ¬ (code = 4 ∧ e = top ∧ m = 7) →
        v = .fin (s == 1) (if e = 0 then m else 2 ^ f.mb + m) ((max e 1 : Nat) - f.bias - f.mb)) := by
  intro v top
  have value : v = _ := (by simp only [v, NumFmt.decode, hf] : v = NumFmt.decodeFlt code f _).trans (decodeFlt_fields heb hs he hm)
  have infs : NumFmt.hasInf code = true ↔ code ∈ [1, 2, 3, 5] := by simp [NumFmt.hasInf, or_assoc]
  refine ⟨fun hc ht => ?_, fun hc ht h7 => ?_, fun noInf noNan => ?_⟩
  · rw [value, if_pos (by simp only [infs.mpr hc, ht, top, beq_self_eq_true, Bool.and_self])]
  · have top4 : e = 15 := by rw [ht, show top = 2 ^ f.eb - 1 from rfl, four hc]; rfl
    subst hc top4 h7
    rw [value]
    rfl
  · rw [value, if_neg, if_neg]
    · by_cases zero : e = 0
      · subst zero
        rfl
      · rw [if_neg zero, if_neg zero, max_eq_left (Nat.one_le_iff_ne_zero.mpr zero)]
    · intro h
      simp only [Bool.and_eq_true, beq_iff_eq] at h
      obtain ⟨⟨hc, ht⟩, h7⟩ := h
      exact noNan ⟨hc, by rw [ht, show top = 2 ^ f.eb - 1 from rfl, four hc]; rfl, h7⟩
    · intro h
      simp only [Bool.and_eq_true, beq_iff_eq] at h
      exact noInf ⟨infs.mp h.1, h.2⟩

/-! ## Rounding (R188, R189) -/

/-- Rounding `d` bits away: the quotient, or one more. -/
theorem roundAt_add (r : NumFmt.Rnd) (neg : Bool) (m d : Nat) (e : Int) : NumFmt.roundAt r neg m e (e + d)
    = if NumFmt.goesUp r neg (m / 2 ^ d % 2 == 1) (m % 2 ^ d) d then m / 2 ^ d + 1 else m / 2 ^ d := by
  unfold NumFmt.roundAt
  split <;> rename_i h
  · obtain rfl : d = 0 := by omega
    simp [NumFmt.goesUp, Nat.mod_one]
  · rw [show (e + (d : Int) - e).toNat = d by omega]

theorem nearest_bounds {m q low p u : Nat} (parts : q * p + low = m) (small : low < p)
    (value : u = if p < 2 * low ∨ 2 * low = p ∧ q % 2 = 1 then q + 1 else q) :
    2 * m ≤ (2 * u + 1) * p ∧ 2 * u * p ≤ 2 * m + p ∧ (2 * m = (2 * u + 1) * p ∨ 2 * u * p = 2 * m + p → u % 2 = 0) := by
  rw [show (2 * u + 1) * p = 2 * (u * p) + p by ring, show 2 * u * p = 2 * (u * p) by ring]
  split at value <;> subst value
  · rw [Nat.add_one_mul q p]
    omega
  · omega

/-- Nearest, ties to even. -/
theorem roundAt_nearest {r : NumFmt.Rnd} (neg : Bool) (m d : Nat) (e : Int) (mode : r.mode = 0) :
    let u := NumFmt.roundAt r neg m e (e + d)
    2 * m ≤ (2 * u + 1) * 2 ^ d ∧ 2 * u * 2 ^ d ≤ 2 * m + 2 ^ d
      ∧ (2 * m = (2 * u + 1) * 2 ^ d ∨ 2 * u * 2 ^ d = 2 * m + 2 ^ d → u % 2 = 0) := by
  have up : NumFmt.goesUp r neg (m / 2 ^ d % 2 == 1) (m % 2 ^ d) d = true ↔
      2 ^ d < 2 * (m % 2 ^ d) ∨ 2 * (m % 2 ^ d) = 2 ^ d ∧ m / 2 ^ d % 2 = 1 := by
    unfold NumFmt.goesUp
    split <;> rename_i zero
    · have := Nat.two_pow_pos d
      simp only [zero, Bool.false_eq_true, false_iff]
      omega
    · simp only [mode, Bool.or_eq_true, decide_eq_true_eq, Bool.and_eq_true, beq_iff_eq]
  refine nearest_bounds (Nat.div_add_mod' m (2 ^ d)) (Nat.mod_lt m (Nat.two_pow_pos d)) ?_
  rw [roundAt_add]
  simp only [up]

theorem directed_bounds {m q low p u : Nat} {up : Prop} [Decidable up] (parts : q * p + low = m) (small : low < p)
    (value : u = if low ≠ 0 ∧ up then q + 1 else q) :
    (up → m ≤ u * p ∧ u * p < m + p) ∧ (¬ up → u * p ≤ m ∧ m < (u + 1) * p) := by
  rw [Nat.succ_mul]
  split at value <;> rename_i h <;> subst value
  · rw [Nat.succ_mul]
    exact ⟨fun _ => by omega, fun no => absurd h.2 no⟩
  · refine ⟨fun yes => ?_, fun _ => by omega⟩
    have : low = 0 := by tauto
    omega

/-- The directed modes. -/
theorem roundAt_directed {r : NumFmt.Rnd} (neg : Bool) (m d : Nat) (e : Int) (mode : r.mode ≠ 0) (lt4 : r.mode < 4) :
    let u := NumFmt.roundAt r neg m e (e + d)
    let up := (r.mode = 2 ∧ neg = true) ∨ (r.mode = 3 ∧ neg = false)
    (up → m ≤ u * 2 ^ d ∧ u * 2 ^ d < m + 2 ^ d) ∧ (¬ up → u * 2 ^ d ≤ m ∧ m < (u + 1) * 2 ^ d) := by
  have goes : NumFmt.goesUp r neg (m / 2 ^ d % 2 == 1) (m % 2 ^ d) d = true ↔
      m % 2 ^ d ≠ 0 ∧ ((r.mode = 2 ∧ neg = true) ∨ (r.mode = 3 ∧ neg = false)) := by
    have modes : r.mode = 1 ∨ r.mode = 2 ∨ r.mode = 3 := by omega
    unfold NumFmt.goesUp
    split <;> rename_i zero
    · simp [zero]
    · rcases modes with h | h | h <;> cases neg <;> simp [h, zero]
  refine directed_bounds (Nat.div_add_mod' m (2 ^ d)) (Nat.mod_lt m (Nat.two_pow_pos d)) ?_
  rw [roundAt_add]
  simp only [goes]

/-! ## Integer codes (R190) -/

theorem roundAt_int (r : NumFmt.Rnd) (g : Bool) (m : Nat) : NumFmt.roundAt r g m 0 0 = m := by
  rw [NumFmt.roundAt, if_pos (le_refl _)]
  exact mul_one m

theorem encInt_ofInt (signed : Bool) (n : Nat) (r : NumFmt.Rnd) (i : Int) : (NumFmt.encInt signed n r (NumFmt.ofInt i) : Int) =
    (max (if signed then -(2 ^ (n - 1) : Nat) else 0 : Int) (min (if signed then (2 ^ (n - 1) : Nat) - 1 else (2 ^ n : Nat) - 1) i)) % (2 ^ n : Nat) := by
  unfold NumFmt.encInt NumFmt.ofInt
  dsimp only
  rw [roundAt_int, sig_natAbs]
  exact Int.toNat_of_nonneg (Int.emod_nonneg _ (by positivity))

theorem encodeNum_signed (i : Int) (n : Nat) (r : NumFmt.Rnd) : (NumFmt.encodeNum 0x0B n r (NumFmt.ofInt i) : Int) =
    (max (-(2 ^ (n - 1))) (min (2 ^ (n - 1) - 1) i)) % 2 ^ n := by
  have := encInt_ofInt true n r i
  push_cast at this
  exact this

theorem encodeNum_unsigned (i : Int) (n : Nat) (r : NumFmt.Rnd) : (NumFmt.encodeNum 0x0C n r (NumFmt.ofInt i) : Int) =
    max 0 (min (2 ^ n - 1) i) := by
  have value := encInt_ofInt false n r i
  push_cast at value
  have one : (1 : Int) ≤ 2 ^ n := one_le_pow₀ (by decide)
  rw [show NumFmt.encodeNum 0x0C n r (NumFmt.ofInt i) = NumFmt.encInt false n r (NumFmt.ofInt i) from rfl, value]
  exact Int.emod_eq_of_lt (le_max_left _ _) (by omega)

/-! ## Windows (R192) -/

/-- The exponents of the nonzero numbers: floor(log2) of each. -/
def tops (ps : List Machine.Num) : List Int :=
  ps.filterMap fun p => match p with
    | .fin _ m e => if m = 0 then none else some (NumFmt.ilog2 m e)
    | _ => none

theorem mem_tops {ps : List Machine.Num} {t : Int} :
    t ∈ tops ps ↔ ∃ g m e, Machine.Num.fin g m e ∈ ps ∧ m ≠ 0 ∧ NumFmt.ilog2 m e = t := by
  rw [tops, List.mem_filterMap]
  constructor
  · rintro ⟨v, hv, h⟩
    cases v with
    | nan => exact (nomatch h)
    | inf g => exact (nomatch h)
    | fin g m e =>
      by_cases zero : m = 0
      · simp [zero] at h
      · exact ⟨g, m, e, hv, zero, by simpa [zero] using h⟩
  · rintro ⟨g, m, e, hv, hm, rfl⟩
    exact ⟨_, hv, if_neg hm⟩

/-- A finite number floored to a multiple of 2^t, in units of 2^t. -/
theorem floorAt_eq_fdiv (g : Bool) (m : Nat) {q x t : Int} (hx : q ≤ x) (ht : q ≤ t) :
    NumFmt.floorAt g m x t = (unitsOf q (.fin g m x)).fdiv (2 ^ (t - q).toNat) := by
  rw [unitsOf_fin]
  unfold NumFmt.floorAt
  split <;> rename_i h
  · rw [two_pow_toNat_split ht h, ← mul_assoc, Int.mul_fdiv_cancel _ (by positivity)]
  · push_cast
    rw [two_pow_toNat_split hx (not_le.mp h).le, Int.mul_fdiv_mul_of_pos_left _ _ (by positivity)]

theorem windowSum_floors {ps : List Machine.Num} {sa sb : Nat} {q top : Int} (fin : ∀ v ∈ ps, finiteAbove q v) (ha : sa < 255)
    (hb : sb < 255) (low : q ≤ top - 41) (le : ∀ g m e, Machine.Num.fin g m e ∈ ps → m ≠ 0 → NumFmt.ilog2 m e ≤ top)
    (mem : ∃ g m e, Machine.Num.fin g m e ∈ ps ∧ m ≠ 0 ∧ NumFmt.ilog2 m e = top) :
    NumFmt.windowSum ps sa sb = NumFmt.ofScaled ((ps.map fun v => (unitsOf q v).fdiv (2 ^ (top - 41 - q).toNat)).sum)
        (top - 41 + ((sa : Int) - 127) + ((sb : Int) - 127)) := by
  have noNan : ps.any NumFmt.isNan = false := List.any_eq_false.mpr fun v hv => by
    obtain ⟨g, m, e, rfl, -⟩ := finiteAbove_iff.mp (fin v hv)
    exact Bool.false_ne_true
  have noInf (n : Bool) : (ps.any fun p => p == .inf n) = false := List.any_eq_false.mpr fun v hv => by
    obtain ⟨g, m, e, rfl, -⟩ := finiteAbove_iff.mp (fin v hv)
    simp
  have scaleA : (sa == 0xFF) = false := beq_false_of_ne (by omega)
  have scaleB : (sb == 0xFF) = false := beq_false_of_ne (by omega)
  have sum (t : Int) (ht : q ≤ t) : ps.foldl (fun (acc : Int) p => match p with
      | .fin n m x => acc + NumFmt.floorAt n m x t
      | _ => acc) 0 = (ps.map fun v => (unitsOf q v).fdiv (2 ^ (t - q).toNat)).sum := by
    refine (foldl_eq_add_sum (g := fun v => (unitsOf q v).fdiv (2 ^ (t - q).toNat)) ps 0 fun v hv a => ?_).trans (zero_add _)
    obtain ⟨g, m, e, rfl, he⟩ := finiteAbove_iff.mp (fin v hv)
    exact congrArg (a + ·) (floorAt_eq_fdiv g m he ht)
  have inTops : top ∈ tops ps := mem_tops.mpr mem
  have leTops : ∀ x ∈ tops ps, x ≤ top := fun x hx => by
    obtain ⟨g, m, e, hv, hm, rfl⟩ := mem_tops.mp hx
    exact le g m e hv hm
  unfold NumFmt.windowSum
  simp only [noNan, noInf, scaleA, scaleB, Bool.or_self, Bool.and_self, Bool.false_eq_true, if_false]
  change (match tops ps with | [] => _ | e0 :: es => _) = _
  split <;> rename_i h <;> rw [h] at inTops leTops
  · exact absurd inTops List.not_mem_nil
  · rw [foldl_max_eq inTops leTops]
    exact congrArg (fun i => NumFmt.ofScaled i _) (sum _ low)

/-! ## Group scales (R314) -/

/-- One number taken into the largest exponent so far. -/
def topStep (best : Option Int) (x : Machine.Num) : Option Int :=
  match x with
  | .fin _ m e => if m = 0 then best else some (match best with
    | some b => max b (NumFmt.ilog2 m e)
    | none => NumFmt.ilog2 m e)
  | _ => best

theorem foldl_topStep_some (xs : List Machine.Num) (b : Int) : xs.foldl topStep (some b) = some ((tops xs).foldl max b) := by
  induction xs generalizing b with
  | nil => rfl
  | cons x xs ih =>
    rw [List.foldl_cons, tops, List.filterMap_cons]
    cases x with
    | nan => exact ih b
    | inf g => exact ih b
    | fin g m e =>
      by_cases zero : m = 0
      · simp only [topStep, zero, if_true]
        exact ih b
      · simp only [topStep, zero, if_false]
        exact ih _

theorem foldl_topStep_none (xs : List Machine.Num) :
    xs.foldl topStep none = (tops xs).head?.map fun e => (tops xs).tail.foldl max e := by
  induction xs with
  | nil => rfl
  | cons x xs ih =>
    rw [List.foldl_cons, tops, List.filterMap_cons]
    cases x with
    | nan => exact ih
    | inf g => exact ih
    | fin g m e =>
      by_cases zero : m = 0
      · simp only [topStep, zero, if_true]
        exact ih
      · simp only [topStep, zero, if_false]
        exact foldl_topStep_some xs _

theorem groupScale_def (code : Nat) (xs : List Machine.Num) : NumFmt.groupScale code xs =
    if xs.any NumFmt.isNan then 0xFF
    else (xs.foldl topStep none).elim 127 fun t => (max 0 (min 254 (t - NumFmt.emax code + 127))).toNat := by
  unfold NumFmt.groupScale
  change (if _ then _ else match xs.foldl topStep none with | none => _ | some t => _) = _
  cases xs.foldl topStep none <;> rfl

theorem any_isNan (xs : List Machine.Num) : xs.any NumFmt.isNan = true ↔ Machine.Num.nan ∈ xs := by
  simp [NumFmt.isNan]

theorem groupScale_nan (code : Nat) {xs : List Machine.Num} (h : Machine.Num.nan ∈ xs) : NumFmt.groupScale code xs = 255 := by
  rw [groupScale_def, if_pos ((any_isNan xs).mpr h)]

theorem groupScale_zeros (code : Nat) {xs : List Machine.Num} (h : Machine.Num.nan ∉ xs)
    (zeros : ∀ g m e, Machine.Num.fin g m e ∈ xs → m = 0) : NumFmt.groupScale code xs = 127 := by
  have none : tops xs = [] := List.eq_nil_iff_forall_not_mem.mpr fun t ht => by
    obtain ⟨g, m, e, hv, hm, -⟩ := mem_tops.mp ht
    exact hm (zeros g m e hv)
  rw [groupScale_def, if_neg (by rwa [any_isNan]), foldl_topStep_none, none]
  rfl

theorem groupScale_top (code : Nat) {xs : List Machine.Num} (h : Machine.Num.nan ∉ xs) {top : Int}
    (mem : ∃ g m e, Machine.Num.fin g m e ∈ xs ∧ m ≠ 0 ∧ NumFmt.ilog2 m e = top)
    (le : ∀ g m e, Machine.Num.fin g m e ∈ xs → m ≠ 0 → NumFmt.ilog2 m e ≤ top) :
    (NumFmt.groupScale code xs : Int) = max 0 (min 254 (top - NumFmt.emax code + 127)) := by
  have inTops : top ∈ tops xs := mem_tops.mpr mem
  have leTops : ∀ x ∈ tops xs, x ≤ top := fun x hx => by
    obtain ⟨g, m, e, hv, hm, rfl⟩ := mem_tops.mp hx
    exact le g m e hv hm
  rw [groupScale_def, if_neg (by rwa [any_isNan]), foldl_topStep_none]
  cases all : tops xs with
  | nil => exact absurd (all ▸ inTops) List.not_mem_nil
  | cons e es =>
    rw [all] at inTops leTops
    rw [List.head?_cons, List.tail_cons, Option.map_some, foldl_max_eq inTops leTops]
    exact Int.toNat_of_nonneg (le_max_left _ _)

theorem emax_eq {code : Nat} (h : code ∈ [4, 5, 6, 7, 8, 9]) : ([8, 15, 4, 2, 2, 0].getD (code - 4) 0 : Int) = NumFmt.emax code := by
  revert code
  decide

theorem groupScale_le (code : Nat) (xs : List Machine.Num) : NumFmt.groupScale code xs < 256 := by
  rw [groupScale_def]
  split
  · decide
  · cases xs.foldl topStep none with
    | none => exact (by decide : 127 < 256)
    | some t =>
      change (max 0 (min 254 (t - NumFmt.emax code + 127))).toNat < 256
      omega

/-! ## SPLIT3 (R187) -/

theorem split3_nan {p : Nat} (h : NumFmt.f32 p = .nan) : NumFmt.split3 p = 0x7FC0 := by
  rw [NumFmt.split3, h]

theorem split3_inf {p : Nat} {g : Bool} (h : NumFmt.f32 p = .inf g) : NumFmt.split3 p = p / 2 ^ 16 :=
  (by rw [NumFmt.split3, h] : NumFmt.split3 p = p / 65536)

/-- The high and middle parts of a finite pattern. -/
theorem split3_fin {p : Nat} {g : Bool} {m : Nat} {e : Int} (hp : p < 2 ^ 32) (h : NumFmt.f32 p = .fin g m e) :
    let rest := NumFmt.toF32 (NumFmt.add (NumFmt.f32 p) (NumFmt.neg (NumFmt.f32 (p / 2 ^ 16 * 2 ^ 16))))
    NumFmt.split3 p % 2 ^ 16 = p / 2 ^ 16 ∧ NumFmt.split3 p / 2 ^ 16 % 2 ^ 16 = rest / 2 ^ 16 % 2 ^ 16 := by
  intro rest
  obtain ⟨low, parts⟩ : ∃ low, NumFmt.split3 p = p / 65536 * 65536 / 65536 + rest / 65536 * 65536 / 65536 * 2 ^ 16 + low * 2 ^ 32 := by
    refine ⟨NumFmt.encodeNum NumFmt.cBf16 0 NumFmt.rne
      (NumFmt.add (NumFmt.f32 rest) (NumFmt.neg (NumFmt.f32 (rest / 65536 * 65536)))), ?_⟩
    rw [NumFmt.split3]
    split <;> rename_i hx
    · rw [h] at hx; exact (nomatch hx)
    · rw [h] at hx; exact (nomatch hx)
    · rfl
  generalize rest = r at parts
  rw [parts]
  omega

end Sys2Proof.Machine
end

section
/-! PROOFS. Beats and their fields (R308 to R310; O53): packing and its fields, emission without stochastic rounding, and what
decoding a firing's beats leaves. -/

namespace Sys2Proof.Machine

open Sys2Proof.Bits Sys2Proof.Rows

/-! ## Fields of packed numbers -/

/-- A field within the bits that a number is cut to. -/
theorem mod_two_pow_field (n : Nat) {lo w k : Nat} (h : lo + w ≤ k) : n % 2 ^ k / 2 ^ lo % 2 ^ w = n / 2 ^ lo % 2 ^ w := by
  refine Nat.eq_of_testBit_eq fun i => ?_
  simp only [Nat.testBit_mod_two_pow, Nat.testBit_div_two_pow]
  by_cases hi : i < w
  · simp [hi, show i + lo < k by omega]
  · simp [hi]

theorem field_ofNat (k n : Nat) {lo w : Nat} (h : lo + w ≤ k) : (BitVec.ofNat k n).toNat / 2 ^ lo % 2 ^ w = n / 2 ^ lo % 2 ^ w := by
  rw [BitVec.toNat_ofNat, mod_two_pow_field n h]

theorem foldl_indexed_packed (eb : Nat) (ps : List Nat) (k a : Nat) :
    (indexed k ps).foldl (fun n x => n + x.2 % 2 ^ eb * 2 ^ (eb * x.1)) a = a + 2 ^ (eb * k) * Elements.packed eb ps := by
  induction ps generalizing k a with
  | nil => exact (Nat.add_zero a).symm
  | cons p ps ih =>
    have whole : Elements.packed eb (p :: ps) = p % 2 ^ eb + 2 ^ eb * Elements.packed eb ps := by
      change (indexed 1 ps).foldl _ (0 + p % 2 ^ eb * 2 ^ (eb * 0)) = _
      rw [ih, Nat.mul_zero, Nat.mul_one, pow_zero, Nat.mul_one, Nat.zero_add]
    change (indexed (k + 1) ps).foldl _ (a + p % 2 ^ eb * 2 ^ (eb * k)) = _
    rw [ih, whole, Nat.mul_succ, pow_add]
    ring

theorem packed_nil (eb : Nat) : Elements.packed eb [] = 0 := rfl

theorem packed_cons (eb p : Nat) (ps : List Nat) : Elements.packed eb (p :: ps) = p % 2 ^ eb + 2 ^ eb * Elements.packed eb ps := by
  change (indexed 1 ps).foldl _ (0 + p % 2 ^ eb * 2 ^ (eb * 0)) = _
  rw [foldl_indexed_packed, Nat.mul_zero, Nat.mul_one, pow_zero, Nat.mul_one, Nat.zero_add]

/-- Each pattern stands in its field. -/
theorem packed_field (eb : Nat) (ps : List Nat) (k : Nat) :
    Elements.packed eb ps / 2 ^ (eb * k) % 2 ^ eb = ps.getD k 0 % 2 ^ eb := by
  induction ps generalizing k with
  | nil => rw [packed_nil, Nat.zero_div, List.getD_nil]
  | cons p ps ih =>
    have low := Nat.mod_lt p (Nat.two_pow_pos eb)
    rw [packed_cons]
    cases k with
    | zero => rw [Nat.mul_zero, pow_zero, Nat.div_one, Nat.add_mul_mod_self_left, Nat.mod_mod, List.getD_cons_zero]
    | succ k =>
      rw [Nat.mul_succ, Nat.add_comm (eb * k), pow_add, ← Nat.div_div_eq_div_mul, Nat.add_mul_div_left _ _ (Nat.two_pow_pos eb),
        Nat.div_eq_of_lt low, Nat.zero_add, ih, List.getD_cons_succ]

/-! ## Numbers given by their bits -/

theorem ofBits_succ (n : Nat) (g : Nat → Bool) : Elements.ofBits (n + 1) g = Elements.ofBits n g + if g n then 2 ^ n else 0 := by
  rw [Elements.ofBits, List.range_succ, List.foldl_append]
  rfl

theorem ofBits_lt (n : Nat) (g : Nat → Bool) : Elements.ofBits n g < 2 ^ n := by
  induction n with
  | zero => exact Nat.one_pos
  | succ n ih =>
    rw [ofBits_succ, pow_succ]
    split <;> omega

theorem testBit_ofBits {n t : Nat} (g : Nat → Bool) (h : t < n) : (Elements.ofBits n g).testBit t = g t := by
  induction n with
  | zero => omega
  | succ n ih =>
    have cut := Nat.testBit_two_pow_mul_add (if g n then 1 else 0) (ofBits_lt n g) t
    rw [ofBits_succ, show Elements.ofBits n g + (if g n then 2 ^ n else 0) = 2 ^ n * (if g n then 1 else 0) + Elements.ofBits n g by
      split <;> omega, cut]
    split <;> rename_i ht
    · exact ih ht
    · obtain rfl : t = n := by omega
      cases g t <;> simp

/-! ## Emission (R310) -/

theorem roundAll_plain {c : List Word} (rnd : Cfg.rnd c ≠ 4) (f : Fe) (vs : List Machine.Num) : Elements.roundAll c f vs =
    (vs.map fun v => NumFmt.encodeNum (Cfg.ofmt c) (Cfg.outWidth c) ⟨Cfg.rnd c, 0, 12⟩ v, f) := by
  induction vs with
  | nil => rfl
  | cons v vs ih =>
    rw [Elements.roundAll, Elements.roundOut, if_neg fun h => rnd h.1]
    dsimp only
    rw [ih]
    rfl

theorem getElem?_outBeats (c : List Word) (datas : List Nat) (side : Nat) (marks : List (BitVec 6)) (j : Nat) :
    (Elements.outBeats c datas side marks)[j]? = datas[j]?.map fun d => Elements.outBeat c d side (marks.getD j 0) := by
  rw [Elements.outBeats, List.getElem?_map, getElem?_indexed]
  cases datas[j]? <;> simp

theorem length_outBeats (c : List Word) (datas : List Nat) (side : Nat) (marks : List (BitVec 6)) :
    (Elements.outBeats c datas side marks).length = datas.length := by
  rw [Elements.outBeats, List.length_map, ← List.length_map (f := Prod.fst), map_fst_indexed, List.length_range']

theorem getElem?_outBeats_range {c : List Word} {n : Nat} {data : Nat → Nat} {side : Nat} {marks : List (BitVec 6)} {j : Nat} {o : Beat}
    (h : (Elements.outBeats c ((List.range n).map data) side marks)[j]? = some o) :
    j < n ∧ o = Elements.outBeat c (data j) side (marks.getD j 0) := by
  rw [getElem?_outBeats, List.getElem?_map] at h
  by_cases hj : j < n
  · rw [List.getElem?_range hj] at h
    exact ⟨hj, (Option.some.inj h).symm⟩
  · rw [List.getElem?_eq_none (by rw [List.length_range]; omega)] at h
    exact (nomatch h)

/-- A field of an emitted beat. -/
theorem fieldOf_outBeat (c : List Word) (data side : Nat) (marks : BitVec 6) {lo n : Nat} (h : lo + n ≤ 1024) :
    fieldOf (Elements.outBeat c data side marks) lo n = data / 2 ^ lo % 2 ^ n :=
  field_ofNat 1024 data h

/-- A field of an emitted beat of packed patterns. -/
theorem fieldOf_packed (c : List Word) (eb : Nat) (ps : List Nat) (side : Nat) (marks : BitVec 6) {k : Nat}
    (h : eb * k + eb ≤ 1024) :
    fieldOf (Elements.outBeat c (Elements.packed eb ps) side marks) (eb * k) eb = ps.getD k 0 % 2 ^ eb := by
  rw [fieldOf_outBeat _ _ _ _ h, packed_field]

/-- The beats that patterns in OFMT fill. -/
def packedBeats (c : List Word) (ps : List Nat) (side : Nat) (marks : List (BitVec 6)) : List Beat :=
  let per := NumFmt.elemsPerBeat (Cfg.ofmt c) (Cfg.outWidth c)
  let eb := NumFmt.elemBits (Cfg.ofmt c) (Cfg.outWidth c)
  Elements.outBeats c ((List.range (Cfg.noa c)).map fun j => Elements.packed eb ((ps.drop (per * j)).take per)) side marks

theorem length_packedBeats (c : List Word) (ps : List Nat) (side : Nat) (marks : List (BitVec 6)) :
    (packedBeats c ps side marks).length = Cfg.noa c := by
  rw [packedBeats, length_outBeats, List.length_map, List.length_range]

theorem packOut_fits {c : List Word} {ps : List Nat} (side : Nat) (marks : List (BitVec 6))
    (fits : ps.length ≤ Cfg.noa c * NumFmt.elemsPerBeat (Cfg.ofmt c) (Cfg.outWidth c)) (h1 : 1 ≤ Cfg.ofmt c) (h2 : Cfg.ofmt c ≤ 0x0C) :
    Elements.packOut c ps side marks = .ok (packedBeats c ps side marks) := by
  rw [Elements.packOut, if_neg]
  · rfl
  · rintro (h | ⟨h, -⟩) <;> omega

/-- OFMT's elements stay within a beat. -/
theorem elemBits_mul_elemsPerBeat (code n : Nat) (h1 : 1 ≤ code) (h2 : code ≤ 0x0C) :
    NumFmt.elemBits code n * NumFmt.elemsPerBeat code n ≤ 1024 := by
  unfold NumFmt.elemsPerBeat
  split <;> rename_i mx
  · simp only [NumFmt.isMx, Bool.and_eq_true, decide_eq_true_eq] at mx
    obtain ⟨lo, hi⟩ := mx
    interval_cases code <;> simp [NumFmt.elemBits]
  · exact Nat.mul_div_le _ _

/-- The fields of a beat of packed patterns. -/
theorem fieldOf_packedBeats {c : List Word} {ps : List Nat} {side : Nat} {marks : List (BitVec 6)} {j k p : Nat} {o : Beat}
    (ho : (packedBeats c ps side marks)[j]? = some o) (h1 : 1 ≤ Cfg.ofmt c) (h2 : Cfg.ofmt c ≤ 0x0C)
    (hk : k < NumFmt.elemsPerBeat (Cfg.ofmt c) (Cfg.outWidth c))
    (hp : ps[NumFmt.elemsPerBeat (Cfg.ofmt c) (Cfg.outWidth c) * j + k]? = some p) :
    fieldOf o (NumFmt.elemBits (Cfg.ofmt c) (Cfg.outWidth c) * k) (NumFmt.elemBits (Cfg.ofmt c) (Cfg.outWidth c))
      = p % 2 ^ NumFmt.elemBits (Cfg.ofmt c) (Cfg.outWidth c) := by
  have room := elemBits_mul_elemsPerBeat (Cfg.ofmt c) (Cfg.outWidth c) h1 h2
  obtain ⟨-, rfl⟩ := getElem?_outBeats_range ho
  have within : NumFmt.elemBits (Cfg.ofmt c) (Cfg.outWidth c) * k + NumFmt.elemBits (Cfg.ofmt c) (Cfg.outWidth c) ≤ 1024 := by
    rw [← Nat.mul_succ]
    exact (Nat.mul_le_mul_left _ hk).trans room
  rw [fieldOf_packed _ _ _ _ _ within, List.getD_eq_getElem?_getD, List.getElem?_take_of_lt hk, List.getElem?_drop, hp]
  rfl

theorem beat_of_packedBeats {c : List Word} {ps : List Nat} {side : Nat} {marks : List (BitVec 6)} {j : Nat} {o : Beat}
    (ho : (packedBeats c ps side marks)[j]? = some o) :
    o.marks = marks.getD j 0 ∧ o.tag.toNat = Cfg.otag c % 32 ∧ o.side = BitVec.ofNat 32 side := by
  obtain ⟨-, rfl⟩ := getElem?_outBeats_range ho
  exact ⟨rfl, BitVec.toNat_ofNat _ _, rfl⟩

/-- What a firing emits without stochastic rounding, where its values fit. -/
theorem emitWith_fits {c : List Word} {vs : List Machine.Num} (f : Fe) (marks : List (BitVec 6)) (bad : Bool) (rnd : Cfg.rnd c ≠ 4)
    (fits : vs.length ≤ Cfg.noa c * NumFmt.elemsPerBeat (Cfg.ofmt c) (Cfg.outWidth c)) (h1 : 1 ≤ Cfg.ofmt c) (h2 : Cfg.ofmt c ≤ 0x0C) :
    Elements.emitWith c f vs marks bad = .ok ⟨f, packedBeats c
      (vs.map fun v => NumFmt.encodeNum (Cfg.ofmt c) (Cfg.outWidth c) ⟨Cfg.rnd c, 0, 12⟩ v) 0x7F7F7F7F marks, [], bad⟩ := by
  rw [Elements.emitWith, roundAll_plain rnd]
  dsimp only
  rw [packOut_fits _ _ (by rwa [List.length_map]) h1 h2]
  rfl

/-! ## Decoding (R181, R308, R309) -/

/-- Decoding an input changes block-scale registers alone, and the context takes each element's format. -/
theorem decodeBeat_ok {c : List Word} {onB : Bool} {f g : Fe} {b : Beat} {es : List Elements.Elem}
    (h : Elements.decodeBeat c onB f b = .ok (es, g)) : g = { f with bs := g.bs }
      ∧ ∀ e ∈ es, Elements.takes c onB e.code = true ∧ e.num = NumFmt.decode e.code (Elements.inWidth c onB) e.pat := by
  unfold Elements.decodeBeat at h
  dsimp only at h
  split at h
  · exact (nomatch h)
  · split at h
    · exact (nomatch h)
    · rename_i _ taken
      obtain ⟨rfl, rfl⟩ := Prod.mk.inj (Except.ok.inj h)
      refine ⟨rfl, fun e he => ?_⟩
      obtain ⟨k, -, rfl⟩ := List.mem_map.mp he
      exact ⟨by simpa using taken, rfl⟩

theorem decodeBeats_ok {c : List Word} {onB : Bool} {f g : Fe} {bs : List Beat} {es : List Elements.Elem}
    (h : Elements.decodeBeats c onB f bs = .ok (es, g)) : g = { f with bs := g.bs }
      ∧ ∀ e ∈ es, Elements.takes c onB e.code = true ∧ e.num = NumFmt.decode e.code (Elements.inWidth c onB) e.pat := by
  induction bs generalizing f es with
  | nil =>
    obtain ⟨rfl, rfl⟩ := Prod.mk.inj (Except.ok.inj h)
    exact ⟨rfl, fun e he => absurd he List.not_mem_nil⟩
  | cons b bs ih =>
    rw [Elements.decodeBeats] at h
    split at h
    · exact (nomatch h)
    · rename_i first f' hb
      split at h
      · exact (nomatch h)
      · rename_i rest f'' hbs
        obtain ⟨rfl, rfl⟩ := Prod.mk.inj (Except.ok.inj h)
        obtain ⟨frame, elems⟩ := decodeBeat_ok hb
        obtain ⟨frame', elems'⟩ := ih hbs
        refine ⟨by rw [frame', frame], fun e he => ?_⟩
        rcases List.mem_append.mp he with he | he
        · exact elems e he
        · exact elems' e he

section
variable {c : List Word} {onB : Bool} {f g : Fe} {bs : List Beat} {es : List Elements.Elem}
  (h : Elements.decodeBeats c onB f bs = .ok (es, g))
include h

theorem core_of_decodeBeats : g.core = f.core := (congrArg Fe.core (decodeBeats_ok h).1 :)

theorem constant_of_decodeBeats (x : Elements.FireIn) : Elements.constant c g x = Elements.constant c f x := by
  rw [Elements.constant, Elements.constant, core_of_decodeBeats h]

end

end Sys2Proof.Machine
end

section
/-! PROOFS. The element-wise operations (R311, R314; O53): ADD, MULE, SCALE, CVT, CMPSEL, SHIFTV and DEQ on decoded elements. -/

namespace Sys2Proof.Machine

open Sys2Proof.Bits Sys2Proof.Rows

/-! ## Values of elements -/

theorem intOf_eq_unitsOf (v : Machine.Num) : Elements.intOf v = unitsOf 0 v := by
  cases v with
  | nan => rfl
  | inf g => rfl
  | fin g m e => rw [unitsOf_fin, Int.sub_zero]; rfl

theorem value_plain {e : Elements.Elem} (h : e.code < 4 ∨ 9 < e.code) : e.value = e.num := by
  rw [Elements.Elem.value, if_neg]
  simp only [NumFmt.isMx, Bool.and_eq_true, decide_eq_true_eq]
  omega

/-- An element's value by its format: with its block scale in the microscaling codes (R185). -/
theorem value_eq (e : Elements.Elem) : e.value =
    if 4 ≤ e.code ∧ e.code ≤ 9 then (if e.scale = 255 then .nan else NumFmt.scale2 e.num ((e.scale : Int) - 127)) else e.num := by
  simp only [Elements.Elem.value, NumFmt.isMx, Bool.and_eq_true, decide_eq_true_eq]

/-- An element beyond IB is a 0 of IA's format (R311). -/
def absent (a : Elements.Elem) : Elements.Elem := { a with pat := 0, scale := 127, num := NumFmt.zero false }

theorem value_absent (a : Elements.Elem) : (absent a).value = NumFmt.zero false := by
  rw [Elements.Elem.value]
  split
  · rw [show (absent a).scale = 127 from rfl, if_neg (by decide), show ((127 : Nat) : Int) - 127 = 0 from rfl]
    rfl
  · rfl

theorem value_getD_absent (b : List Elements.Elem) (k : Nat) (a : Elements.Elem) :
    (b[k]?.getD (absent a)).value = Elements.valueAt b k := by
  rw [Elements.valueAt]
  cases b[k]? with
  | none => exact value_absent a
  | some e => rfl

theorem code_getD_absent (b : List Elements.Elem) (k : Nat) (a : Elements.Elem) {p : Nat → Prop} (ha : p a.code)
    (hb : ∀ e ∈ b, p e.code) : p (b[k]?.getD (absent a)).code := by
  cases hk : b[k]? with
  | none => exact ha
  | some e => exact hb e (List.mem_of_getElem? hk)

/-! ## The result for one element -/

section
variable {c : List Word} {kv free : Nat} {b : List Elements.Elem} {k : Nat} {e : Elements.Elem}

theorem elemOf_mule_int (heop : Cfg.eop c = 0x08) (hmode : Cfg.mode c = 0) : Elements.elemOf c kv free b k e =
    NumFmt.ofInt (unitsOf 0 e.value * unitsOf 0 (Elements.valueAt b k)) := by
  rw [← value_getD_absent b k e, ← intOf_eq_unitsOf, ← intOf_eq_unitsOf, Elements.elemOf]
  simp only [heop, Elements.muleOf, hmode]
  rfl

theorem elemOf_mule_float (heop : Cfg.eop c = 0x08) (hmode : Cfg.mode c = 1) (ha : e.code ≠ 0x0E ∧ e.code ≠ 0x09)
    (hb : ∀ y ∈ b, y.code ≠ 0x0E) : Elements.elemOf c kv free b k e = NumFmt.mul e.value (Elements.valueAt b k) := by
  have other : (b[k]?.getD (absent e)).code ≠ 0x0E := code_getD_absent b k e (p := (· ≠ 0x0E)) ha.1 hb
  rw [← value_getD_absent b k e, Elements.elemOf]
  simp only [heop, Elements.muleOf, hmode]
  change (if (1 : Nat) = 2 then _ else if (1 : Nat) = 0 then _ else if e.code = 0x0E ∧ (b[k]?.getD (absent e)).code = 0x0E then _
    else if e.code = 0x0E ∨ (b[k]?.getD (absent e)).code = 0x0E then _
    else if e.code = 0x09 ∧ (b[k]?.getD (absent e)).code = 0x09 then _ else NumFmt.mul e.value (b[k]?.getD (absent e)).value) = _
  rw [if_neg (by decide), if_neg (by decide), if_neg fun h => ha.1 h.1, if_neg fun h => h.elim ha.1 other, if_neg fun h => ha.2 h.1]

/-- A half of the constant as CMPSEL reads it. -/
theorem halfOf_eq (w code : Nat) : Elements.halfOf w (!Elements.isInt code) =
    if code = 0x0B ∨ code = 0x0C then NumFmt.ofInt (BitVec.ofNat 32 w).toInt else NumFmt.f32 (w % 2 ^ 32) := by
  rw [Elements.halfOf, sextI_mod]
  by_cases h : code = 0x0B ∨ code = 0x0C
  · rw [if_pos h, if_neg]
    rcases h with rfl | rfl <;> decide
  · rw [if_neg h, if_pos]
    rw [not_or] at h
    simp [Elements.isInt, h]

theorem elemOf_cmpsel (heop : Cfg.eop c = 0x12) : Elements.elemOf c kv free b k e =
    if Elements.cmpHolds (Cfg.cmp c) e.value (Elements.halfOf kv (!Elements.isInt e.code)) then e.value
    else if 0 < Cfg.nib c then Elements.valueAt b k else Elements.halfOf (kv / 2 ^ 32) (!Elements.isInt e.code) := by
  rw [Elements.elemOf]
  simp only [heop]

theorem sextI_emod (i : Int) : sextI (i % 256).toNat 8 = (BitVec.ofInt 8 i).toInt := by
  rw [sextI_mod]
  congr 1
  refine BitVec.eq_of_toNat_eq ?_
  rw [BitVec.toNat_ofNat, BitVec.toNat_ofInt]
  omega

theorem elemOf_shiftv (heop : Cfg.eop c = 0x13) : Elements.elemOf c kv free b k e = NumFmt.scale2 e.value
    (if 0 < Cfg.nib c then (BitVec.ofInt 8 (unitsOf 0 (Elements.valueAt b k))).toInt else (BitVec.ofNat 8 kv).toInt) := by
  rw [Elements.elemOf, ← sextI_emod, ← sextI_mod, ← intOf_eq_unitsOf]
  simp only [heop]

end

/-! ## Firings -/

section
variable {c : List Word} {f g h : Fe} {x : Elements.FireIn} {a b : List Elements.Elem}

theorem bind_ok {ε α β : Type} (a : α) (k : α → Except ε β) : ((Except.ok a : Except ε α) >>= k) = k a := rfl

/-- An element-wise firing emits one value an element. -/
def Maps (c : List Word) (f : Fe) (x : Elements.FireIn) (a : List Elements.Elem) (y : Fe) (v : Nat → Elements.Elem → Machine.Num) :
    Prop :=
  ∃ vs, Elements.mapFire c f x = Elements.emitVals c y x vs x.upset ∧ vs.length = a.length
    ∧ ∀ k e, a[k]? = some e → vs[k]? = some (v k e)

theorem maps_of_eq {y : Fe} {kv : Nat} {b : List Elements.Elem} {v : Nat → Elements.Elem → Machine.Num}
    (fires : Elements.mapFire c f x = Elements.emitVals c y x
      ((indexed 0 a).map fun e => Elements.elemOf c kv x.free b e.1 e.2) x.upset)
    (hv : ∀ k e, a[k]? = some e → Elements.elemOf c kv x.free b k e = v k e) : Maps c f x a y v := by
  refine ⟨_, fires, ?_, fun k e he => ?_⟩
  · rw [List.length_map, ← List.length_map (f := Prod.fst), map_fst_indexed, List.length_range']
  · rw [List.getElem?_map, getElem?_indexed, he, ← hv k e he]
    simp

/-- An operation that does not read IB. -/
theorem mapFire_alone (ha : Elements.decodeBeats c false f x.a = .ok (a, g)) (reads : Elements.readsB c = false)
    {v : Nat → Elements.Elem → Machine.Num}
    (hv : ∀ k e, a[k]? = some e → Elements.elemOf c (Elements.constant c f x) x.free [] k e = v k e) : Maps c f x a g v := by
  refine maps_of_eq ?_ hv
  rw [Elements.mapFire, ha, ← constant_of_decodeBeats ha]
  simp only [reads, bind_ok, Bool.false_eq_true, if_false]

/-- An operation that reads IB. -/
theorem mapFire_both (ha : Elements.decodeBeats c false f x.a = .ok (a, g)) (hb : Elements.decodeBeats c true g x.b = .ok (b, h))
    (reads : Elements.readsB c = true) {v : Nat → Elements.Elem → Machine.Num}
    (hv : ∀ k e, a[k]? = some e → Elements.elemOf c (Elements.constant c f x) x.free b k e = v k e) : Maps c f x a h v := by
  refine maps_of_eq ?_ hv
  rw [Elements.mapFire, ha, ← constant_of_decodeBeats ha, ← constant_of_decodeBeats hb]
  simp only [reads, bind_ok, hb, if_true]

/-- CMPSEL and SHIFTV read IB when NIB is not 0, and their results read it in that case alone. -/
theorem mapFire_optional (ha : Elements.decodeBeats c false f x.a = .ok (a, g)) (hb : Elements.decodeBeats c true g x.b = .ok (b, h))
    (heop : Cfg.eop c = 0x12 ∨ Cfg.eop c = 0x13) {v : Nat → Elements.Elem → Machine.Num}
    (hv : ∀ k e, Elements.elemOf c (Elements.constant c f x) x.free b k e = v k e)
    (same : Cfg.nib c = 0 → ∀ k e, Elements.elemOf c (Elements.constant c f x) x.free [] k e
      = Elements.elemOf c (Elements.constant c f x) x.free b k e) : ∃ y, Maps c f x a y v := by
  by_cases nib : Cfg.nib c = 0
  · refine ⟨g, mapFire_alone ha ?_ fun k e _ => (same nib k e).trans (hv k e)⟩
    rcases heop with h | h <;> simp [Elements.readsB, h, nib]
  · refine ⟨h, mapFire_both ha hb ?_ fun k e _ => hv k e⟩
    rcases heop with h | h <;> simp [Elements.readsB, h, nib]

theorem deqFire_eq (ha : Elements.decodeBeats c false f x.a = .ok (a, g)) :
    Elements.deqFire c f x = Elements.emitVals c g x (a.map Elements.Elem.value) false := by
  rw [Elements.deqFire, ha, bind_ok]

end

end Sys2Proof.Machine
end

section
/-! PROOFS. Reductions (R193, R301, R312, R316, R339; O53): accumulators under updates, and what CNT, SCNT, REDADD, REDMAX, REDMIN, DOT
and DOTS leave and emit. -/

namespace Sys2Proof.Machine

open Sys2Proof.Bits Sys2Proof.Rows Sys2Proof.Machine.Elements

/-! ## Accumulators (R55, R301) -/

theorem accAt_setAcc_same {f : FeCore} {k : Nat} (v : BitVec 48) (h : k < 128) : (accAt (setAcc f k v) k).v = v := by
  have inside : k < f.acc.toList.length := by rw [Vector.length_toList]; exact h
  simp only [accAt, setAcc, List.getD_eq_getElem?_getD, Vector.toList_setIfInBounds, List.getElem?_set_self inside]
  rfl

theorem accAt_setAcc_ne {f : FeCore} {k j : Nat} (v : BitVec 48) (h : j ≠ k) : accAt (setAcc f k v) j = accAt f j := by
  simp only [accAt, setAcc, List.getD_eq_getElem?_getD, Vector.toList_setIfInBounds, List.getElem?_set_ne h.symm]

/-- `g` has the selector, the count, the constants and the windows of `f`. -/
structure SameRun (f g : FeCore) : Prop where
  bank : g.bank = f.bank
  taken : g.taken = f.taken
  k : g.k = f.k
  wins : g.wins = f.wins

namespace SameRun

theorem refl (f : FeCore) : SameRun f f := ⟨rfl, rfl, rfl, rfl⟩

theorem trans {f g h : FeCore} (p : SameRun f g) (q : SameRun g h) : SameRun f h :=
  ⟨q.bank.trans p.bank, q.taken.trans p.taken, q.k.trans p.k, q.wins.trans p.wins⟩

theorem setAcc (f : FeCore) (k : Nat) (v : BitVec 48) : SameRun f (setAcc f k v) := ⟨rfl, rfl, rfl, rfl⟩

theorem runBase {f g : FeCore} (h : SameRun f g) : runBase g = runBase f := by
  rw [Elements.runBase, Elements.runBase, h.bank]

theorem zeroAccs (f : FeCore) (k n : Nat) : SameRun f (zeroAccs f k n) := by
  unfold Elements.zeroAccs
  induction n with
  | zero => exact refl f
  | succ n ih =>
    rw [List.range_succ, List.foldl_append]
    exact ih.trans (setAcc _ _ _)

theorem openRun (f : FeCore) (wide : Bool) : SameRun f (openRun f wide) := by
  unfold Elements.openRun
  split
  · exact refl f
  · split <;> exact zeroAccs f _ _

end SameRun

theorem accAt_zeroAccs_outside {f : FeCore} {k n j : Nat} (h : j < k ∨ k + n ≤ j) : accAt (zeroAccs f k n) j = accAt f j := by
  unfold zeroAccs
  induction n with
  | zero => rfl
  | succ n ih =>
    rw [List.range_succ, List.foldl_append]
    exact (accAt_setAcc_ne 0 (by omega)).trans (ih (by omega))

theorem runBase_le (f : FeCore) : runBase f ≤ 64 := by
  unfold runBase
  split <;> decide

/-- At a reduction end the values completed stay where they are. -/
theorem accAt_flip (f : FeCore) {o : Nat} (h : o < 64) : accAt (Elements.flip f) (runBase f + o) = accAt f (runBase f + o) := by
  refine accAt_zeroAccs_outside (f := { f with bank := !f.bank, taken := 0, wide := false }) ?_
  unfold runBase
  dsimp only
  cases f.bank <;> simp [h]

/-- `g` is `f` with accumulator `j` at `v`. -/
structure Updates (f g : FeCore) (j : Nat) (v : BitVec 48) : Prop where
  same : SameRun f g
  value : (accAt g j).v = v
  others : ∀ i, i ≠ j → accAt g i = accAt f i

namespace Updates

theorem setAcc (f : FeCore) {j : Nat} (v : BitVec 48) (h : j < 128) : Updates f (setAcc f j v) j v :=
  ⟨.setAcc f j v, accAt_setAcc_same v h, fun _ hi => accAt_setAcc_ne v hi⟩

theorem trans {f g h : FeCore} {j : Nat} {v w : BitVec 48} (p : Updates f g j v) (q : Updates g h j w) : Updates f h j w :=
  ⟨p.same.trans q.same, q.value, fun i hi => (q.others i hi).trans (p.others i hi)⟩

end Updates

/-- Steps that each update one accumulator, no two the same one, from what that holds. -/
theorem foldl_updates {σ α : Type} {core : σ → FeCore} {step : σ → α → σ} {ix : α → Nat} {new : α → BitVec 48 → BitVec 48}
    {start : FeCore} (l : List α) (distinct : (l.map ix).Nodup)
    (one : ∀ y, SameRun start (core y) → ∀ x ∈ l, Updates (core y) (core (step y x)) (ix x) (new x (accAt (core y) (ix x)).v))
    (y : σ) (hy : SameRun start (core y)) :
    SameRun start (core (l.foldl step y)) ∧ (∀ x ∈ l, (accAt (core (l.foldl step y)) (ix x)).v = new x (accAt (core y) (ix x)).v)
      ∧ ∀ j, (∀ x ∈ l, ix x ≠ j) → accAt (core (l.foldl step y)) j = accAt (core y) j := by
  induction l generalizing y with
  | nil => exact ⟨hy, fun x hx => absurd hx List.not_mem_nil, fun _ _ => rfl⟩
  | cons a l ih =>
    rw [List.map_cons, List.nodup_cons] at distinct
    obtain ⟨fresh, distinct⟩ := distinct
    have first := one y hy a (.head _)
    obtain ⟨same, values, others⟩ := ih distinct (fun y hy x hx => one y hy x (.tail _ hx)) (step y a) (hy.trans first.same)
    have apart : ∀ x ∈ l, ix x ≠ ix a := fun x hx h => fresh (h ▸ List.mem_map_of_mem hx)
    refine ⟨same, fun x hx => ?_, fun j hj => ?_⟩
    · rcases List.mem_cons.mp hx with rfl | hx
      · rw [List.foldl_cons, others _ apart, first.value]
      · rw [List.foldl_cons, values x hx, first.others _ (apart x hx)]
    · rw [List.foldl_cons, others j fun x hx => hj x (.tail _ hx), first.others j (hj a (.head _)).symm]

/-- Steps that each add to the same accumulator. -/
theorem foldl_adds {σ α : Type} {core : σ → FeCore} {step : σ → α → σ} {j : Nat} {d : α → BitVec 48} {start : FeCore} (l : List α)
    (one : ∀ y, SameRun start (core y) → ∀ x ∈ l, Updates (core y) (core (step y x)) j ((accAt (core y) j).v + d x))
    (y : σ) (hy : SameRun start (core y)) :
    Updates (core y) (core (l.foldl step y)) j ((accAt (core y) j).v + (l.map d).sum) := by
  induction l generalizing y with
  | nil => exact ⟨.refl _, (BitVec.add_zero _).symm, fun _ _ => rfl⟩
  | cons a l ih =>
    have first := one y hy a (.head _)
    have rest := ih (fun y hy x hx => one y hy x (.tail _ hx)) (step y a) (hy.trans first.same)
    rw [first.value, BitVec.add_assoc] at rest
    exact first.trans rest

theorem offsets_nodup (base n : Nat) : ((List.range n).map fun o => base + o).Nodup :=
  List.Nodup.map (fun _ _ h => Nat.add_left_cancel h) List.nodup_range

/-! ## CNT (R316) -/

theorem popcN_field (d l : Nat) : popcN 16 (d / 2 ^ (16 * l)) = (List.range 16).countP fun t => d.testBit (16 * l + t) := by
  rw [popcN_eq_countP]
  refine List.countP_congr fun t _ => ?_
  rw [Nat.testBit_div_two_pow, Nat.add_comm]

/-- One beat's ones added lane by lane. -/
def cntCore (core : FeCore) (b : Beat) : FeCore :=
  (List.range 64).foldl (fun core l => setAcc core (runBase core + l)
    ((accAt core (runBase core + l)).v + BitVec.ofNat 48 (popcN 16 (b.data.toNat / 2 ^ (16 * l))))) core

theorem cntCore_counts (core : FeCore) (b : Beat) : SameRun core (cntCore core b) ∧ ∀ l, l < 64 →
    (accAt (cntCore core b) (runBase core + l)).v = (accAt core (runBase core + l)).v
      + BitVec.ofNat 48 ((List.range 16).countP fun t => b.data.getLsbD (16 * l + t)) := by
  obtain ⟨same, values, -⟩ := foldl_updates (core := id) (ix := fun l => runBase core + l) (start := core)
    (step := fun core l => setAcc core (runBase core + l)
      ((accAt core (runBase core + l)).v + BitVec.ofNat 48 (popcN 16 (b.data.toNat / 2 ^ (16 * l)))))
    (new := fun l old => old + BitVec.ofNat 48 (popcN 16 (b.data.toNat / 2 ^ (16 * l)))) (List.range 64) (offsets_nodup _ _)
    (fun y hy l hl => by
      have inside : runBase core + l < 128 := by have := runBase_le core; have := List.mem_range.mp hl; omega
      dsimp only [id] at hy ⊢
      rw [hy.runBase]
      exact .setAcc y _ inside) core (.refl core)
  refine ⟨same, fun l hl => ?_⟩
  rw [← show popcN 16 (b.data.toNat / 2 ^ (16 * l)) = (List.range 16).countP fun t => b.data.getLsbD (16 * l + t) from popcN_field _ _]
  exact values l (List.mem_range.mpr hl)

theorem ends_single {c : List Word} {b : Beat} : ends c [b] = b.marks.getLsbD (Cfg.rdim c) := Bool.or_false _

theorem accAt_taken (f : FeCore) (n k : Nat) : accAt { f with taken := n } k = accAt f k := rfl

theorem runBase_taken (f : FeCore) (n : Nat) : runBase { f with taken := n } = runBase f := rfl

theorem bank_flip_taken (f : FeCore) (n : Nat) : (flip { f with taken := n }).bank = !f.bank :=
  (SameRun.zeroAccs _ _ _).bank

/-- The FE's state with one beat counted. -/
def cntDone (f : Fe) (b : Beat) : FeCore := { cntCore (openRun f.core false) b with taken := 64 }

/-- Some lane's accumulator has bad parity. -/
def cntBad (f : FeCore) : Bool := (List.range 64).any fun l => badAcc f (runBase f + l)

theorem cntFire_one (c : List Word) (f : Fe) {x : FireIn} {b : Beat} (hx : x.a = [b]) :
    cntFire c f x = if b.marks.getLsbD (Cfg.rdim c) then emitWith c { f with core := flip (cntDone f b) }
        ((List.range 64).map fun l => NumFmt.ofInt (accAt (cntDone f b) (runBase (cntDone f b) + l)).v.toNat) (endMarks c [b])
        (cntBad (openRun f.core false))
      else emitNone { f with core := cntDone f b } (cntBad (openRun f.core false)) := by
  unfold cntFire cntDone cntCore cntBad
  simp only [hx, List.foldl_cons, List.foldl_nil, ends_single]

/-- A CNT firing of one beat. -/
theorem cntFire_counts {c : List Word} (f : Fe) {x : FireIn} {b : Beat} (hx : x.a = [b]) :
    let core := openRun f.core false
    let total := fun (l : Nat) => (accAt core (runBase core + l)).v
      + BitVec.ofNat 48 ((List.range 16).countP fun t => b.data.getLsbD (16 * l + t))
    if b.marks.getLsbD (Cfg.rdim c) then ∃ y bad, cntFire c f x = emitWith c y
        ((List.range 64).map fun l => NumFmt.ofInt (total l).toNat) (endMarks c [b]) bad ∧ y.core.bank = !core.bank
    else ∃ y bad, cntFire c f x = emitNone y bad ∧ ∀ l, l < 64 → (accAt y.core (runBase core + l)).v = total l := by
  intro core total
  obtain ⟨same, values⟩ := cntCore_counts core b
  have base : runBase (cntDone f b) = runBase core := by rw [cntDone, runBase_taken, same.runBase]
  have value (l : Nat) (hl : l < 64) : (accAt (cntDone f b) (runBase core + l)).v = total l := by
    rw [cntDone, accAt_taken, values l hl]
  have bank : (flip (cntDone f b)).bank = !core.bank := by rw [cntDone, bank_flip_taken, same.bank]
  rw [cntFire_one c f hx]
  split
  · refine ⟨{ f with core := flip (cntDone f b) }, cntBad core, ?_, bank⟩
    refine congrArg (fun vs => emitWith c _ vs _ _) (List.map_congr_left fun l hl => ?_)
    rw [base, value l (List.mem_range.mp hl)]
  · exact ⟨{ f with core := cntDone f b }, _, rfl, value⟩

/-! ## REDADD, REDMAX, REDMIN (R316) -/

/-- Element `k` of value `v` taken into an accumulator that holds `old`, after `taken` elements have taken values. -/
def redTotal (c : List Word) (taken k : Nat) (old : BitVec 48) (v : Machine.Num) : BitVec 48 :=
  let o := NumFmt.f32 (old.toNat % 2 ^ 32)
  let i := unitsOf 0 v
  if Cfg.acc c = 1 then BitVec.ofNat 48 (NumFmt.toF32 (if Cfg.eop c = 4 then NumFmt.add o v
    else if taken ≤ k then v else if Cfg.eop c = 5 then NumFmt.redMax o v else NumFmt.redMin o v))
  else if Cfg.eop c = 4 then old + BitVec.ofInt 48 i
  else if taken ≤ k then BitVec.ofInt 48 i
  else if Cfg.eop c = 5 then (if old.toInt < i then BitVec.ofInt 48 i else old) else if i < old.toInt then BitVec.ofInt 48 i else old

/-- The integer that an integer reduction takes from `old` and an element's `i`. -/
def redInt (eop : Nat) (first : Prop) [Decidable first] (old i : Int) : Int :=
  match eop with
  | 0x04 => old + i
  | 0x05 => if first then i else max old i
  | _ => if first then i else min old i

theorem redStep_int {c : List Word} (acc : Cfg.acc c ≠ 1) (base : Nat) (f : FeCore) (x : Nat × Machine.Num) :
    redStep c base f x = setAcc f (base + x.1)
      (BitVec.ofInt 48 (redInt (Cfg.eop c) (f.taken ≤ x.1) (accAt f (base + x.1)).v.toInt (unitsOf 0 x.2))) := by
  rw [← intOf_eq_unitsOf, redStep, if_neg acc]
  rfl

theorem ofInt_redInt (eop : Nat) (first : Prop) [Decidable first] (old : BitVec 48) (i : Int) :
    BitVec.ofInt 48 (redInt eop first old.toInt i) = if eop = 4 then old + BitVec.ofInt 48 i
      else if first then BitVec.ofInt 48 i
      else if eop = 5 then (if old.toInt < i then BitVec.ofInt 48 i else old) else if i < old.toInt then BitVec.ofInt 48 i else old := by
  unfold redInt
  split
  · rw [if_pos rfl, BitVec.ofInt_add, BitVec.ofInt_toInt]
  · rw [max_def_lt, apply_ite (BitVec.ofInt 48), apply_ite (BitVec.ofInt 48), BitVec.ofInt_toInt,
      if_neg (by decide : ¬ (5 : Nat) = 4), if_pos (rfl : (5 : Nat) = 5)]
  · rename_i h4 h5
    have least : min old.toInt i = if i < old.toInt then i else old.toInt := by
      rw [min_comm]
      exact min_def_lt _ _
    rw [if_neg h4, if_neg h5, least, apply_ite (BitVec.ofInt 48), apply_ite (BitVec.ofInt 48), BitVec.ofInt_toInt]

theorem redStep_eq (c : List Word) (base : Nat) (f : FeCore) (x : Nat × Machine.Num) :
    redStep c base f x = setAcc f (base + x.1) (redTotal c f.taken x.1 (accAt f (base + x.1)).v x.2) := by
  unfold redTotal
  by_cases acc : Cfg.acc c = 1
  · rw [redStep, if_pos acc, if_pos acc]
    dsimp only
    congr 2
    split <;> rename_i h
    · simp only [h, if_true]
      rfl
    · simp [h]
    · rename_i h4
      simp only [if_neg h4, if_neg h]
  · rw [redStep_int acc, ofInt_redInt, if_neg acc]

/-- A beat's elements taken in. -/
theorem redSteps_total (c : List Word) {base : Nat} (f : FeCore) {vs : List Machine.Num} (room : base + vs.length ≤ 128) :
    let g := (indexed 0 vs).foldl (redStep c base) f
    SameRun f g ∧ ∀ k v, vs[k]? = some v → (accAt g (base + k)).v = redTotal c f.taken k (accAt f (base + k)).v v := by
  intro g
  have distinct : ((indexed 0 vs).map fun x => base + x.1).Nodup := by
    rw [show (fun x : Nat × Machine.Num => base + x.1) = (fun o => base + o) ∘ Prod.fst from rfl, ← List.map_map, map_fst_indexed]
    exact List.Nodup.map (fun _ _ h => Nat.add_left_cancel h) List.nodup_range'
  obtain ⟨same, values, -⟩ := foldl_updates (core := id) (ix := fun x : Nat × Machine.Num => base + x.1) (start := f)
    (step := redStep c base) (new := fun x old => redTotal c f.taken x.1 old x.2) (indexed 0 vs) distinct
    (fun y hy x hx => by
      have small : x.1 < vs.length := (List.getElem?_eq_some_iff.mp (mem_indexed_zero.mp hx)).1
      dsimp only [id] at hy ⊢
      rw [redStep_eq, hy.taken]
      exact .setAcc y _ (by omega)) f (.refl f)
  exact ⟨same, fun k v hv => values (k, v) (mem_indexed_zero.mpr hv)⟩

section
variable {c : List Word} {f g : Fe} {b : Beat} {es : List Elem}

/-- The first accumulator of a beat of `n` elements. -/
def redBase (core : FeCore) (n : Nat) : Nat := if 64 < n then 0 else runBase core

/-- The state that a decoded beat's elements leave. -/
def redCore (c : List Word) (core : FeCore) (es : List Elem) : FeCore :=
  let core' := (indexed 0 (es.map Elem.value)).foldl (redStep c (redBase core es.length)) core
  { core' with taken := max core'.taken es.length }

theorem redCore_total {core : FeCore} (small : es.length ≤ 128) :
    (redCore c core es).bank = core.bank ∧ es.length ≤ (redCore c core es).taken ∧ ∀ k e, es[k]? = some e →
      (accAt (redCore c core es) (redBase core es.length + k)).v
        = redTotal c core.taken k (accAt core (redBase core es.length + k)).v e.value := by
  have room : redBase core es.length + (es.map Elem.value).length ≤ 128 := by
    rw [List.length_map, redBase]
    have := runBase_le core
    split <;> omega
  obtain ⟨same, values⟩ := redSteps_total c core room
  refine ⟨same.bank, le_max_right _ _, fun k e he => ?_⟩
  rw [redCore, accAt_taken]
  exact values k e.value (by rw [List.getElem?_map, he]; rfl)

theorem redBeat_core (h : decodeBeat c false f b = .ok (es, g)) (small : es.length ≤ 128) : ∃ bad, redBeat c f b =
    .ok ({ g with core := redCore c (openRun g.core (decide (64 < es.length))) es }, es.length, bad) := by
  refine ⟨(List.range es.length).any fun k =>
    badAcc (openRun g.core (decide (64 < es.length))) (redBase (openRun g.core (decide (64 < es.length))) es.length + k), ?_⟩
  rw [redBeat, h, bind_ok]
  dsimp only
  rw [if_neg (by omega)]
  rfl

theorem redFire_single {x : FireIn} {y : Fe} {n : Nat} {bad : Bool} (hx : x.a = [b]) (h : redBeat c f b = .ok (y, n, bad)) :
    redFire c f x = if b.marks.getLsbD (Cfg.rdim c) then
        emitWith c { y with core := if 64 < n then keep y.core else flip y.core }
          ((List.range (Cfg.redCount n)).map (redVal c y.core x.free (redBase y.core n))) (endMarks c [b]) bad
      else emitNone y bad := by
  have beats : redBeats c f 0 false x.a = .ok (y, n, bad) := by
    rw [hx, redBeats, h]
    rfl
  rw [redFire, beats, bind_ok, hx, ← ends_single]
  rfl

/-- A reduction's beat, and the firing that takes it. -/
theorem redFire_totals (h : decodeBeat c false f b = .ok (es, g)) (small : es.length ≤ 128) :
    let n := es.length
    let core := openRun g.core (decide (64 < n))
    let base := redBase core n
    let total := fun (k : Nat) (e : Elem) => redTotal c core.taken k (accAt core (base + k)).v e.value
    ∃ y bad, redBeat c f b = .ok (y, n, bad) ∧ (∀ k e, es[k]? = some e → (accAt y.core (base + k)).v = total k e)
      ∧ ∀ x : FireIn, x.a = [b] → (if b.marks.getLsbD (Cfg.rdim c)
        then ∃ z vs, redFire c f x = emitWith c z vs (endMarks c [b]) bad
          ∧ vs.length = (if 64 < n then 128 else 64) ∧ ∀ k e, es[k]? = some e → vs[k]? = some (accNum c (total k e))
        else redFire c f x = emitNone y bad) := by
  intro n core base total
  obtain ⟨bank, taken, values⟩ := redCore_total (c := c) (core := core) small
  obtain ⟨bad, beat⟩ := redBeat_core h small
  refine ⟨_, bad, beat, values, fun x hx => ?_⟩
  rw [redFire_single hx beat]
  split
  · refine ⟨_, _, rfl, by rw [List.length_map, List.length_range, Cfg.redCount], fun k e he => ?_⟩
    have hk : k < n := (List.getElem?_eq_some_iff.mp he).1
    have sameBase : redBase (redCore c core es) n = base := by
      change redBase _ n = redBase core n
      rw [redBase, redBase, runBase, runBase, bank]
    have inCount : k < Cfg.redCount n := by
      rw [Cfg.redCount]
      split <;> omega
    rw [List.getElem?_map, List.getElem?_range inCount, Option.map_some, redVal,
      if_neg fun h => absurd (hk.trans_le taken) (not_lt.mpr h.2)]
    change some (accNum c (accAt (redCore c core es) (redBase (redCore c core es) n + k)).v) = _
    rw [sameBase]
    exact congrArg (fun v => some (accNum c v)) (values k e he)
  · rfl

end

/-! ## SCNT (R339) -/

section
variable {c : List Word}

theorem operandA_register (istr : Cfg.istr c = false) (f : Fe) (x : FireIn) :
    operandA c f x = .ok (streamReg c x (Cfg.srA c), regMask c f (Cfg.srA c)) := by
  rw [operandA, istr]
  rfl

/-- The ones of the first operand. -/
def scntOnes (c : List Word) (x : FireIn) : Nat := (List.range (Cfg.len c)).countP fun j => (streamReg c x (Cfg.srA c)).testBit j

/-- The state that a count leaves, before a reduction end. -/
def scntCore (core : FeCore) (n : Nat) : FeCore :=
  { setAcc core (runBase core) ((accAt core (runBase core)).v + BitVec.ofNat 48 n) with taken := max core.taken 1 }

theorem scntCore_value (core : FeCore) (n : Nat) :
    (accAt (scntCore core n) (runBase core)).v = (accAt core (runBase core)).v + BitVec.ofNat 48 n := by
  rw [scntCore, accAt_taken]
  exact accAt_setAcc_same _ (by have := runBase_le core; omega)

theorem scntFire_counts (istr : Cfg.istr c = false) (f : Fe) (x : FireIn) :
    let core := openRun f.core false
    ∃ y bad, scntFire c f x = (if Cfg.noa c = 0 then emitNone y bad else emitVals c y x [cntNum c (scntOnes c x)] bad)
      ∧ (accAt y.core (runBase core)).v = (accAt core (runBase core)).v + BitVec.ofNat 48 (scntOnes c x)
      ∧ y.core.bank = (core.bank != x.a.any fun b => b.marks.getLsbD (Cfg.rdim c)) := by
  intro core
  refine ⟨{ f with core := if ends c x.a then flip (scntCore core (scntOnes c x)) else scntCore core (scntOnes c x) },
    badAcc core (runBase core), ?_, ?_, ?_⟩
  · rw [scntFire, operandA_register istr, bind_ok]
    dsimp only
    rw [popcN_eq_countP]
    rfl
  · dsimp only
    split
    · have kept := accAt_flip (scntCore core (scntOnes c x)) (o := 0) (by decide)
      rw [Nat.add_zero, show runBase (scntCore core (scntOnes c x)) = runBase core from rfl] at kept
      rw [kept, scntCore_value]
    · exact scntCore_value _ _
  · dsimp only
    rw [← ends]
    cases ends c x.a
    · exact (Bool.bne_false _).symm
    · exact (bank_flip_taken _ _).trans (Bool.bne_true _).symm

theorem cntNum_unsigned (h : Cfg.ofmt c = 0x0C) (n : Nat) : cntNum c n = NumFmt.ofInt n := by
  simp [cntNum, h, isInt]

theorem cntNum_signed (h : Cfg.ofmt c = 0x0B) (n : Nat) :
    cntNum c n = NumFmt.ofInt (if Cfg.bip c then 2 * (n : Int) - Cfg.len c else n) := by
  simp [cntNum, h, isInt]

theorem cntNum_scaled (h : Cfg.ofmt c < 0x0B) (n : Nat) :
    cntNum c n = NumFmt.ofScaled (if Cfg.bip c then 2 * (n : Int) - Cfg.len c else n) (-(Cfg.lenLog c : Int)) := by
  have h1 : Cfg.ofmt c ≠ 0x0B := by omega
  have h2 : Cfg.ofmt c ≠ 0x0C := by omega
  simp [cntNum, isInt, h1, h2]

end

end Sys2Proof.Machine
end

section
/-! PROOFS. DOT and DOTS (R192, R193, R195, R312; O53): a firing of exact integers, of windows of 32 products and of LNS terms. -/

namespace Sys2Proof.Machine

open Sys2Proof.Bits Sys2Proof.Rows Sys2Proof.Machine.Elements

/-- The IA element of product `k` of output `o`. -/
def dotA (c : List Word) (o k : Nat) : Nat := (o >>> Cfg.ash c) * Cfg.rlen c + k

/-- The IB element of product `k` of output `o`. -/
def dotB (c : List Word) (o k : Nat) : Nat := (o &&& Cfg.bmsk c) * Cfg.rlen c + k

/-! ## Exact integers -/

section
variable {c : List Word}

/-- Elements that MODE INT takes are integers. -/
theorem finiteAbove_value_of_int {onB : Bool} {e : Elem} (mode : Cfg.mode c = 0) (taken : takes c onB e.code = true)
    (num : e.num = NumFmt.decode e.code (inWidth c onB) e.pat) : finiteAbove 0 e.value := by
  have int : e.code = 0x0B ∨ e.code = 0x0C := by
    unfold takes at taken
    simp only [mode, isInt, Bool.and_eq_true, Bool.or_eq_true, beq_iff_eq] at taken
    exact taken.1
  rw [value_plain (by omega), num]
  rcases int with h | h <;> rw [h] <;> exact le_refl (0 : Int)

theorem finiteAbove_valueAt {onB : Bool} {f g : Fe} {bs : List Beat} {es : List Elem} (mode : Cfg.mode c = 0)
    (h : decodeBeats c onB f bs = .ok (es, g)) (k : Nat) : finiteAbove 0 (valueAt es k) := by
  rw [valueAt]
  cases hk : es[k]? with
  | none => exact le_refl (0 : Int)
  | some e =>
    obtain ⟨taken, num⟩ := (decodeBeats_ok h).2 e (List.mem_of_getElem? hk)
    exact finiteAbove_value_of_int mode taken num

theorem intOf_mul {p q : Machine.Num} (hp : finiteAbove 0 p) (hq : finiteAbove 0 q) :
    intOf (NumFmt.mul p q) = unitsOf 0 p * unitsOf 0 q := by
  rw [intOf_eq_unitsOf]
  exact unitsOf_mul (p := 0) (q := 0) hp hq

variable {a b : List Elem} (free : Nat)

/-- One product of integers added to its accumulator. -/
theorem dotStep_int (mode : Cfg.mode c = 0) (fa : ∀ k, finiteAbove 0 (valueAt a k)) (fb : ∀ k, finiteAbove 0 (valueAt b k))
    {o : Nat} (ho : o < 64) (k : Nat) (y : FeCore × Bool) :
    Updates y.1 (dotStep c a b free o k y).1 (runBase y.1 + o) ((accAt y.1 (runBase y.1 + o)).v
      + BitVec.ofInt 48 (unitsOf 0 (valueAt a (dotA c o k)) * unitsOf 0 (valueAt b (dotB c o k)))) := by
  rw [← intOf_mul (fa _) (fb _), dotStep, if_pos mode]
  exact .setAcc y.1 _ (by have := runBase_le y.1; omega)

theorem ofInt_sum (l : List Nat) (f : Nat → Int) : (l.map fun k => BitVec.ofInt 48 (f k)).sum = BitVec.ofInt 48 (l.map f).sum := by
  induction l with
  | nil => rfl
  | cons k l ih => rw [List.map_cons, List.sum_cons, ih, List.map_cons, List.sum_cons, BitVec.ofInt_add]

/-- All products of an output added. -/
theorem dotSteps_int (mode : Cfg.mode c = 0) (fa : ∀ k, finiteAbove 0 (valueAt a k)) (fb : ∀ k, finiteAbove 0 (valueAt b k))
    {o : Nat} (ho : o < 64) (y : FeCore × Bool) :
    Updates y.1 ((List.range (Cfg.rlen c)).foldl (fun y k => dotStep c a b free o k y) y).1 (runBase y.1 + o)
      ((accAt y.1 (runBase y.1 + o)).v + BitVec.ofInt 48 (((List.range (Cfg.rlen c)).map fun k =>
        unitsOf 0 (valueAt a (dotA c o k)) * unitsOf 0 (valueAt b (dotB c o k))).sum)) := by
  rw [← ofInt_sum]
  refine foldl_adds (core := Prod.fst) (start := y.1) _ (fun z hz k _ => ?_) y (.refl _)
  rw [← hz.runBase]
  exact dotStep_int free mode fa fb ho k z

/-! ## Windows -/

/-- `f` with window `o` open on the terms `ts`, and no other. -/
def opened (f : FeCore) (o : Nat) (ts : List Machine.Num) (sa sb : Nat) : FeCore := { f with wins := [(o, ⟨ts, sa, sb⟩)] }

theorem putTerm_first (c : List Word) (o sa sb : Nat) {y : FeCore × Bool} (h : y.1.wins = []) (t : Machine.Num) :
    putTerm c o sa sb y t = (opened y.1 o [t] sa sb, y.2) := by
  unfold putTerm
  rw [h]
  rfl

theorem putTerm_next (c : List Word) (o sa sb sa' sb' : Nat) (f : FeCore) (bad : Bool) {ts : List Machine.Num} (h : ts.length + 1 < 32)
    (t : Machine.Num) : putTerm c o sa' sb' (opened f o ts sa sb, bad) t = (opened f o (ts ++ [t]) sa sb, bad) := by
  have window : agetD ⟨[], sa', sb'⟩ o (opened f o ts sa sb).wins = ⟨ts, sa, sb⟩ := by simp [agetD, opened, aget]
  unfold putTerm
  dsimp only
  rw [window, if_neg (by dsimp only; omega)]
  simp [opened, aset]

theorem putTerm_last (c : List Word) (o sa sb sa' sb' : Nat) (f : FeCore) (bad : Bool) {ts : List Machine.Num} (h : ts.length = 31)
    (t : Machine.Num) :
    (putTerm c o sa' sb' (opened f o ts sa sb, bad) t).1 = closeWin c o (opened f o (ts ++ [t]) sa sb) := by
  have window : agetD ⟨[], sa', sb'⟩ o (opened f o ts sa sb).wins = ⟨ts, sa, sb⟩ := by simp [agetD, opened, aget]
  unfold putTerm
  dsimp only
  rw [window, if_pos (by dsimp only; omega)]
  simp [opened, aset, closeChecked]

/-- The terms of an output whose products put one term each, taken in up to `n`. -/
theorem foldl_putTerm (c : List Word) (o : Nat) (t : Nat → Machine.Num) (sa sb : Nat → Nat) {y : FeCore × Bool} (hy : y.1.wins = [])
    {n : Nat} (h0 : 0 < n) (hn : n < 32) :
    (List.range n).foldl (fun y k => putTerm c o (sa k) (sb k) y (t k)) y
      = (opened y.1 o ((List.range n).map t) (sa 0) (sb 0), y.2) := by
  induction n with
  | zero => omega
  | succ n ih =>
    rw [List.range_succ, List.foldl_append, List.foldl_cons, List.foldl_nil, List.map_append]
    rcases Nat.eq_zero_or_pos n with rfl | pos
    · exact putTerm_first c o _ _ hy _
    · rw [ih pos (by omega), putTerm_next]
      · rfl
      · rw [List.length_map, List.length_range]; exact hn

theorem foldl_putTerm_window (c : List Word) (o : Nat) (t : Nat → Machine.Num) (sa sb : Nat → Nat) {y : FeCore × Bool}
    (hy : y.1.wins = []) : ((List.range 32).foldl (fun y k => putTerm c o (sa k) (sb k) y (t k)) y).1
      = closeWin c o (opened y.1 o ((List.range 32).map t) (sa 0) (sb 0)) := by
  rw [List.range_succ (n := 31), List.foldl_append, List.foldl_cons, List.foldl_nil, foldl_putTerm c o t sa sb hy (by decide) (by decide),
    putTerm_last _ _ _ _ _ _ _ _ (by rw [List.length_map, List.length_range]), List.map_append]
  rfl

/-- What a closed window leaves in its accumulator. -/
theorem closeWin_opened (c : List Word) {f : FeCore} (hf : f.wins = []) {o : Nat} (ho : o < 64) (ts : List Machine.Num) (sa sb : Nat) :
    (Cfg.mode c = 1 → Updates f (closeWin c o (opened f o ts sa sb)) (runBase f + o)
      (BitVec.ofNat 48 (NumFmt.addF32 ((accAt f (runBase f + o)).v.toNat % 2 ^ 32) (NumFmt.windowSum ts sa sb))))
    ∧ (Cfg.mode c = 2 → Cfg.acc c = 0 → Updates f (closeWin c o (opened f o ts sa sb)) (runBase f + o)
      ((accAt f (runBase f + o)).v + BitVec.ofInt 48 (ts.foldl (fun (n : Int) t => match t with
        | .fin g m _ => n + NumFmt.sig g m
        | _ => n) 0))) := by
  have window : aget o (opened f o ts sa sb).wins = some ⟨ts, sa, sb⟩ := by simp [opened, aget]
  have closed : { opened f o ts sa sb with wins := adel o (opened f o ts sa sb).wins } = f := by
    simp only [opened, adel, if_true]
    rw [← hf]
  have inside : runBase f + o < 128 := by have := runBase_le f; omega
  constructor
  · intro mode
    unfold closeWin
    rw [window]
    dsimp only
    rw [closed, if_neg (by omega)]
    exact .setAcc f _ inside
  · intro mode acc
    unfold closeWin
    rw [window]
    dsimp only
    rw [closed, if_pos mode, if_pos acc]
    exact .setAcc f _ inside

end

/-! ## Terms -/

/-- The term of a product of floating elements. -/
def floatTerm (a b : Option Elem) : Machine.Num :=
  match a, b with
  | some y, some z => NumFmt.mul y.num z.num
  | _, _ => NumFmt.zero false

/-- The term of a product of LNS elements, in units of 2^−19. -/
def lnsUnits (a b : Option Elem) : Int :=
  match a, b with
  | some y, some z => NumFmt.lnsTerm y.pat z.pat
  | _, _ => 0

theorem terms_float {c : List Word} (free : Nat) {a b : Option Elem} (mode : Cfg.mode c = 1) (ha : ∀ e ∈ a, e.code ≠ 0x0E)
    (hb : ∀ e ∈ b, e.code ≠ 0x0E) : terms c free a b = [floatTerm a b] := by
  cases a with
  | none => rfl
  | some y => cases b with
    | none => rfl
    | some z =>
      have hy := ha y rfl
      have hz := hb z rfl
      simp only [terms, mode, hy, hz, false_and, or_self, if_false]
      rfl

theorem terms_lns {c : List Word} (free : Nat) (a b : Option Elem) (mode : Cfg.mode c = 2) :
    ∃ t, terms c free a b = [t] ∧ ∀ n : Int, (match t with | .fin g m _ => n + NumFmt.sig g m | _ => n) = n + lnsUnits a b := by
  cases a with
  | none => exact ⟨_, rfl, fun _ => rfl⟩
  | some y => cases b with
    | none => exact ⟨_, rfl, fun _ => rfl⟩
    | some z =>
      refine ⟨NumFmt.ofInt (NumFmt.lnsTerm y.pat z.pat), by rw [terms, if_pos mode], fun n => ?_⟩
      exact congrArg (n + ·) (sig_natAbs _)

section
variable {c : List Word} {a b : List Elem} (free : Nat)

theorem dotStep_term {o k : Nat} (mode : Cfg.mode c ≠ 0) {t : Machine.Num}
    (h : terms c (free + Cfg.rlen c * o + k) (a[dotA c o k]?) (b[dotB c o k]?) = [t]) (y : FeCore × Bool) :
    dotStep c a b free o k y = putTerm c o (scaleOf (a[dotA c o k]?)) (scaleOf (b[dotB c o k]?)) y t := by
  rw [dotStep, if_neg mode]
  change (terms c (free + Cfg.rlen c * o + k) (a[dotA c o k]?) (b[dotB c o k]?)).foldl _ y = _
  rw [h]
  rfl

/-- A window of 32 products of one term each. -/
theorem dotSteps_window {o : Nat} (mode : Cfg.mode c ≠ 0) (rlen : Cfg.rlen c = 32) {t : Nat → Machine.Num}
    (h : ∀ k, terms c (free + Cfg.rlen c * o + k) (a[dotA c o k]?) (b[dotB c o k]?) = [t k]) {y : FeCore × Bool}
    (hy : y.1.wins = []) : ((List.range (Cfg.rlen c)).foldl (fun y k => dotStep c a b free o k y) y).1
      = closeWin c o (opened y.1 o ((List.range 32).map t) (scaleOf (a[dotA c o 0]?)) (scaleOf (b[dotB c o 0]?))) := by
  rw [rlen, ← foldl_putTerm_window c o t (fun k => scaleOf (a[dotA c o k]?)) (fun k => scaleOf (b[dotB c o k]?)) hy]
  congr 2
  funext y k
  exact dotStep_term free mode (h k) y

theorem dotSteps_float {o : Nat} (ho : o < 64) (mode : Cfg.mode c = 1) (rlen : Cfg.rlen c = 32) (plain : ∀ e ∈ a ++ b, e.code ≠ 0x0E)
    {y : FeCore × Bool} (hy : y.1.wins = []) :
    Updates y.1 ((List.range (Cfg.rlen c)).foldl (fun y k => dotStep c a b free o k y) y).1 (runBase y.1 + o)
      (BitVec.ofNat 48 (NumFmt.toF32 (NumFmt.add (NumFmt.f32 ((accAt y.1 (runBase y.1 + o)).v.toNat % 2 ^ 32))
        (NumFmt.windowSum ((List.range 32).map fun k => floatTerm a[dotA c o k]? b[dotB c o k]?)
          (scaleOf a[dotA c o 0]?) (scaleOf b[dotB c o 0]?))))) := by
  rw [dotSteps_window free (by omega) rlen (t := fun k => floatTerm a[dotA c o k]? b[dotB c o k]?) (fun k => ?_) hy]
  · exact (closeWin_opened c hy ho _ _ _).1 mode
  · exact terms_float _ mode (fun e he => plain e (List.mem_append_left _ (List.mem_of_getElem? he)))
      (fun e he => plain e (List.mem_append_right _ (List.mem_of_getElem? he)))

theorem dotSteps_lns {o : Nat} (ho : o < 64) (mode : Cfg.mode c = 2) (acc : Cfg.acc c = 0) (rlen : Cfg.rlen c = 32)
    {y : FeCore × Bool} (hy : y.1.wins = []) :
    Updates y.1 ((List.range (Cfg.rlen c)).foldl (fun y k => dotStep c a b free o k y) y).1 (runBase y.1 + o)
      ((accAt y.1 (runBase y.1 + o)).v
        + BitVec.ofInt 48 (((List.range 32).map fun k => lnsUnits a[dotA c o k]? b[dotB c o k]?).sum)) := by
  choose t one adds using fun k => terms_lns (free + Cfg.rlen c * o + k) (a[dotA c o k]?) (b[dotB c o k]?) mode
  have sum : ((List.range 32).map t).foldl (fun (n : Int) t => match t with
      | .fin g m _ => n + NumFmt.sig g m
      | _ => n) 0 = ((List.range 32).map fun k => lnsUnits a[dotA c o k]? b[dotB c o k]?).sum := by
    rw [List.foldl_map]
    exact (foldl_eq_add_sum (g := fun k => lnsUnits a[dotA c o k]? b[dotB c o k]?) _ 0 fun k _ n => adds k n).trans (zero_add _)
  rw [dotSteps_window free (by omega) rlen one hy, ← sum]
  exact (closeWin_opened c hy ho _ _ _).2 mode acc

end

/-! ## The firing -/

section
variable {c : List Word} {f g h : Fe} {x : FireIn} {a b : List Elem}

/-- All products of a firing taken in, from a running set. -/
def dotCore (c : List Word) (a b : List Elem) (free : Nat) (core : FeCore) (upset : Bool) : FeCore × Bool :=
  (List.range (Cfg.nout c)).foldl (fun y o => (List.range (Cfg.rlen c)).foldl (fun y k => dotStep c a b free o k y) y) (core, upset)

/-- Every output's accumulator is updated from what it held. -/
theorem dotCore_total {core : FeCore} (wins : core.wins = []) (free : Nat) (upset : Bool)
    {new : Nat → BitVec 48 → BitVec 48} (one : ∀ o, o < Cfg.nout c → ∀ y : FeCore × Bool, y.1.wins = [] →
      Updates y.1 ((List.range (Cfg.rlen c)).foldl (fun y k => dotStep c a b free o k y) y).1 (runBase y.1 + o)
        (new o (accAt y.1 (runBase y.1 + o)).v)) :
    SameRun core (dotCore c a b free core upset).1 ∧ ∀ o, o < Cfg.nout c →
      (accAt (dotCore c a b free core upset).1 (runBase core + o)).v = new o (accAt core (runBase core + o)).v := by
  obtain ⟨same, values, -⟩ := foldl_updates (core := Prod.fst) (ix := fun o => runBase core + o) (start := core) (new := new)
    (step := fun y o => (List.range (Cfg.rlen c)).foldl (fun y k => dotStep c a b free o k y) y) (List.range (Cfg.nout c))
    (offsets_nodup _ _) (fun y hy o ho => by
      rw [← hy.runBase]
      exact one o (List.mem_range.mp ho) y (hy.wins.trans wins)) (core, upset) (.refl core)
  exact ⟨same, fun o ho => values o (List.mem_range.mpr ho)⟩

theorem foldl_closeChecked {y : FeCore × Bool} (wins : y.1.wins = []) (l : List Nat) : l.foldl (closeChecked c) y = y := by
  induction l with
  | nil => rfl
  | cons o l ih =>
    have same : closeChecked c y o = y := by
      rw [closeChecked, closeWin, closeBad, wins]
      exact Prod.ext rfl (Bool.or_false _)
    rw [List.foldl_cons, same, ih]

/-- The core after a firing's products, `n` outputs among them. -/
def tookMax (f : FeCore) (n : Nat) : FeCore := { f with taken := max f.taken n }

theorem dotFire_eq (ha : decodeBeats c false f x.a = .ok (a, g)) (hb : decodeBeats c true g x.b = .ok (b, h))
    (widths : ¬ (Cfg.mode c = 1 ∧ (a ++ b).any (fun e => NumFmt.isMx e.code) ∧ Cfg.rlen c % 32 ≠ 0)) {y : FeCore × Bool}
    (hy : dotCore c a b x.free (openRun h.core false) x.upset = y) (wins : y.1.wins = []) :
    dotFire c f x = if ends c x.a then
        emitWith c { h with core := flip (tookMax y.1 (Cfg.nout c)) } (dotVals c { h with core := tookMax y.1 (Cfg.nout c) } x)
          (endMarks c x.a) y.2
      else emitNone { h with core := tookMax y.1 (Cfg.nout c) } y.2 := by
  have closed : (List.range (Cfg.nout c)).foldl (closeChecked c) (tookMax y.1 (Cfg.nout c), y.2) = (tookMax y.1 (Cfg.nout c), y.2) :=
    foldl_closeChecked (y := (tookMax y.1 (Cfg.nout c), y.2)) wins _
  unfold dotCore at hy
  rw [dotFire, ha, bind_ok]
  dsimp only
  rw [hb, bind_ok]
  dsimp only
  rw [if_neg widths, hy]
  unfold tookMax at closed ⊢
  simp only [closed]

theorem constant_congr {f g : Fe} (h : f.core.k = g.core.k) (x : FireIn) : constant c f x = constant c g x := by
  rw [constant, constant, h]

/-- What a firing leaves and, at a reduction end, emits. -/
theorem dotFire_gives (ha : decodeBeats c false f x.a = .ok (a, g)) (hb : decodeBeats c true g x.b = .ok (b, h))
    (wins : h.core.wins = []) (widths : ¬ (Cfg.mode c = 1 ∧ (a ++ b).any (fun e => NumFmt.isMx e.code) ∧ Cfg.rlen c % 32 ≠ 0))
    {new : Nat → BitVec 48 → BitVec 48} (one : ∀ o, o < Cfg.nout c → ∀ y : FeCore × Bool, y.1.wins = [] →
      Updates y.1 ((List.range (Cfg.rlen c)).foldl (fun y k => dotStep c a b x.free o k y) y).1 (runBase y.1 + o)
        (new o (accAt y.1 (runBase y.1 + o)).v)) :
    let core := openRun h.core false
    let total := fun (o : Nat) => new o (accAt core (runBase core + o)).v
    (ends c x.a = false → ∃ y bad, dotFire c f x = emitNone y bad ∧ y.core.bank = core.bank
      ∧ ∀ o, o < Cfg.nout c → (accAt y.core (runBase core + o)).v = total o)
    ∧ (ends c x.a = true → ∃ y bad vs, dotFire c f x = emitWith c y vs (endMarks c x.a) bad
      ∧ y.core.bank = !core.bank ∧ y.core.taken = 0 ∧ vs.length = Cfg.nout c
      ∧ ∀ o, o < Cfg.nout c → vs[o]? = some (let v := accNum c (total o)
          if Cfg.eop c = 3 then NumFmt.mul v (NumFmt.f32 (constant c f x % 2 ^ 32)) else v)) := by
  intro core total
  have opens := SameRun.openRun h.core false
  have empty : core.wins = [] := opens.wins.trans wins
  obtain ⟨same, values⟩ := dotCore_total empty x.free x.upset one
  have fires := dotFire_eq ha hb widths rfl (same.wins.trans empty)
  have value (o : Nat) (ho : o < Cfg.nout c) : (accAt (tookMax (dotCore c a b x.free core x.upset).1 (Cfg.nout c)) (runBase core + o)).v = total o := by
    rw [tookMax, accAt_taken]
    exact values o ho
  refine ⟨fun no => ?_, fun yes => ?_⟩
  · rw [no, if_neg Bool.false_ne_true] at fires
    exact ⟨_, _, fires, same.bank, value⟩
  · rw [yes, if_pos rfl] at fires
    refine ⟨_, _, _, fires, (bank_flip_taken _ _).trans (congrArg not same.bank), (SameRun.zeroAccs _ _ _).taken,
      by rw [dotVals, List.length_map, List.length_range], fun o ho => ?_⟩
    have base : runBase (tookMax (dotCore c a b x.free core x.upset).1 (Cfg.nout c)) = runBase core := same.runBase
    have k : (tookMax (dotCore c a b x.free core x.upset).1 (Cfg.nout c)).k = f.core.k := by
      rw [show (tookMax (dotCore c a b x.free core x.upset).1 (Cfg.nout c)).k = _ from same.k.trans opens.k,
        core_of_decodeBeats hb, core_of_decodeBeats ha]
    rw [dotVals, List.getElem?_map, List.getElem?_range ho, Option.map_some]
    dsimp only
    rw [base, value o ho, constant_congr k]

end

end Sys2Proof.Machine
end

section
/-! PROOFS. Conversions and bit operations (R313 to R318; O53): QUANT, BFLY, SPLIT3, TABLE, LUT6 and FSM. -/

namespace Sys2Proof.Machine

open Sys2Proof.Bits Sys2Proof.Rows Sys2Proof.Machine.Elements

/-! ## QUANT (R314) -/

/-- An element of runs of equal length. -/
theorem getElem?_flatMap_const {α β : Type} {f : α → List β} {l : List α} {n : Nat} (hn : ∀ x ∈ l, (f x).length = n) {k : Nat}
    (hk : k < n) (q : Nat) : (l.flatMap f)[n * q + k]? = l[q]?.bind fun x => (f x)[k]? := by
  induction l generalizing q with
  | nil => rfl
  | cons x l ih =>
    have hx := hn x (.head _)
    rw [List.flatMap_cons]
    cases q with
    | zero =>
      rw [Nat.mul_zero, Nat.zero_add, List.getElem?_append_left (by omega)]
      rfl
    | succ q =>
      rw [List.getElem?_append_right (by rw [hx, Nat.mul_succ]; omega), hx, show n * (q + 1) + k - n = n * q + k by rw [Nat.mul_succ]; omega,
        ih fun y hy => hn y (.tail _ hy)]
      rfl

/-- The patterns of one quantised group. -/
def quantPatterns (c : List Word) (xs : List Machine.Num) : List Nat :=
  (xs.map (NumFmt.underScale (NumFmt.groupScale (Cfg.ofmt c) xs))).map
    fun v => NumFmt.encodeNum (Cfg.ofmt c) (Cfg.outWidth c) ⟨Cfg.rnd c, 0, 12⟩ v

theorem length_quantPatterns (c : List Word) (xs : List Machine.Num) : (quantPatterns c xs).length = xs.length := by
  rw [quantPatterns, List.length_map, List.length_map]

theorem quantAll_plain {c : List Word} (rnd : Cfg.rnd c ≠ 4) (f : Fe) (gs : List (List Machine.Num)) :
    quantAll c f gs = (gs.flatMap (quantPatterns c), gs.map (NumFmt.groupScale (Cfg.ofmt c)), f) := by
  induction gs with
  | nil => rfl
  | cons xs gs ih =>
    rw [quantAll, quantOne, roundAll_plain rnd]
    dsimp only
    rw [ih]
    rfl

/-- The elements of group `q`, before their scale. -/
def groupOf (a : List Elem) (q : Nat) : List Machine.Num := ((a.drop (32 * q)).take 32).map fun e => e.num

theorem length_groupOf {a : List Elem} (ha : a.length = 128) {q : Nat} (hq : q < 4) : (groupOf a q).length = 32 := by
  rw [groupOf, List.length_map, List.length_take, List.length_drop]
  omega

theorem mx_codes {code n : Nat} (h : code ∈ [4, 5, 6, 7, 8, 9]) :
    NumFmt.elemsPerBeat code n = 128 ∧ NumFmt.elemBits code n = NumFmt.elemBits code 0 ∧ 4 ≤ code ∧ code ≤ 9 := by
  simp only [List.mem_cons, List.not_mem_nil, or_false] at h
  rcases h with rfl | rfl | rfl | rfl | rfl | rfl <;> exact ⟨rfl, rfl, by decide, by decide⟩

section
variable {c : List Word} {f g : Fe} {x : FireIn} {a : List Elem}

/-- The beat of a quantised firing. -/
def quantBeat (c : List Word) (a : List Elem) (marks : List (BitVec 6)) : List Beat :=
  packedBeats c (((List.range 4).map (groupOf a)).flatMap (quantPatterns c))
    (packed 8 (((List.range 4).map (groupOf a)).map (NumFmt.groupScale (Cfg.ofmt c)))) marks

theorem quantFire_emits (ha : decodeBeats c false f x.a = .ok (a, g)) (full : a.length = 128)
    (input : Cfg.nia c = 4 ∧ (∀ e ∈ a, e.code = 1) ∨ Cfg.nia c = 2 ∧ ∀ e ∈ a, e.code = 2) (noa : Cfg.noa c = 1)
    (ofmt : Cfg.ofmt c ∈ [4, 5, 6, 7, 8, 9]) (rnd : Cfg.rnd c ≠ 4) :
    ∃ o, quantBeat c a (passMarks x.a (Cfg.noa c)) = [o] ∧ quantFire c f x = .ok ⟨g, [o], [], false⟩ := by
  obtain ⟨per, -, lo, hi⟩ := mx_codes (n := Cfg.outWidth c) ofmt
  have size : (((List.range 4).map (groupOf a)).flatMap (quantPatterns c)).length = 128 := by
    have each (q : Nat) (hq : q < 4) : (quantPatterns c (groupOf a q)).length = 32 := by
      rw [length_quantPatterns, length_groupOf full hq]
    simp [List.range_succ, each]
  have fits := packOut_fits (c := c) (packed 8 (((List.range 4).map (groupOf a)).map (NumFmt.groupScale (Cfg.ofmt c))))
    (passMarks x.a (Cfg.noa c)) (by rw [size, per, noa]) (by omega : 1 ≤ Cfg.ofmt c) (by omega)
  obtain ⟨o, one⟩ : ∃ o, quantBeat c a (passMarks x.a (Cfg.noa c)) = [o] := by
    rw [← List.length_eq_one_iff, quantBeat, length_packedBeats, noa]
  have head : ∃ e, a.head? = some e ∧ e ∈ a := by
    cases a with
    | nil => exact absurd full (by decide)
    | cons e a => exact ⟨e, rfl, .head _⟩
  obtain ⟨e, he, mem⟩ := head
  have good : (!(a.all fun y => y.code == e.code) || !((e.code == NumFmt.cFp32 && Cfg.nia c == 4) || (e.code == NumFmt.cBf16 && Cfg.nia c == 2)))
      = false := by
    rcases input with ⟨nia, codes⟩ | ⟨nia, codes⟩
    · simp [nia, codes e mem, NumFmt.cFp32, List.all_eq_true]
      exact codes
    · simp [nia, codes e mem, NumFmt.cBf16, List.all_eq_true]
      exact codes
  refine ⟨o, one, ?_⟩
  rw [quantFire, ha, bind_ok]
  dsimp only
  rw [he, Option.map_some, Option.getD_some, if_neg (by rw [good]; exact Bool.false_ne_true), quantAll_plain rnd,
    show ((List.range 4).map fun q => ((a.drop (32 * q)).take 32).map fun e => e.num) = (List.range 4).map (groupOf a) from rfl]
  dsimp only
  rw [fits.trans (congrArg Except.ok one)]
  rfl

/-- The scales and the fields of a quantised beat. -/
theorem quantBeat_fields {marks : List (BitVec 6)} {o : Beat} (ho : quantBeat c a marks = [o]) (full : a.length = 128)
    (ofmt : Cfg.ofmt c ∈ [4, 5, 6, 7, 8, 9]) {q k : Nat} {v : Machine.Num} (hq : q < 4) (hv : (groupOf a q)[k]? = some v) :
    let s := NumFmt.groupScale (Cfg.ofmt c) (groupOf a q)
    let eb := NumFmt.elemBits (Cfg.ofmt c) 0
    o.side.toNat / 2 ^ (8 * q) % 256 = s ∧ fieldOf o (eb * (32 * q + k)) eb =
      (NumFmt.encodeNum (Cfg.ofmt c) (Cfg.outWidth c) ⟨Cfg.rnd c, 0, 12⟩
        (if s = 255 then NumFmt.zero false else NumFmt.scale2 v (127 - (s : Int)))) % 2 ^ eb := by
  intro s eb
  obtain ⟨per, bits, lo, hi⟩ := mx_codes (n := Cfg.outWidth c) ofmt
  have first : (quantBeat c a marks)[0]? = some o := by rw [ho]; rfl
  have hk : k < 32 := by
    have := (List.getElem?_eq_some_iff.mp hv).1
    rwa [length_groupOf full hq] at this
  constructor
  · obtain ⟨-, -, side⟩ := beat_of_packedBeats first
    rw [side, show (256 : Nat) = 2 ^ 8 from rfl, field_ofNat 32 _ (by omega), packed_field, List.getD_eq_getElem?_getD, List.getElem?_map,
      List.getElem?_map, List.getElem?_range hq]
    exact Nat.mod_eq_of_lt (groupScale_le _ _)
  · have pattern : (((List.range 4).map (groupOf a)).flatMap (quantPatterns c))[32 * q + k]? =
        some (NumFmt.encodeNum (Cfg.ofmt c) (Cfg.outWidth c) ⟨Cfg.rnd c, 0, 12⟩ (NumFmt.underScale s v)) := by
      rw [getElem?_flatMap_const (n := 32) (fun xs hxs => ?_) hk, List.getElem?_map, List.getElem?_range hq]
      · change (quantPatterns c (groupOf a q))[k]? = _
        rw [quantPatterns, List.getElem?_map, List.getElem?_map, hv]
        rfl
      · obtain ⟨q', hq', rfl⟩ := List.mem_map.mp hxs
        rw [length_quantPatterns, length_groupOf full (List.mem_range.mp hq')]
    have field := fieldOf_packedBeats (j := 0) (k := 32 * q + k) first (by omega) (by omega) (by rw [per]; omega)
      (by rw [Nat.mul_zero, Nat.zero_add]; exact pattern)
    rw [bits] at field
    exact field

/-! ## BFLY, SPLIT3 and TABLE (R313, R315, R318) -/

/-- Both results of one butterfly. -/
theorem getElem?_bflyStage (v : List Nat) {s i : Nat} (hs : i.testBit s = false) (hi : i + 2 ^ s < v.length) :
    let p := NumFmt.f32 (v.getD i 0)
    let q := NumFmt.f32 (v.getD (i + 2 ^ s) 0)
    (bflyStage v s)[i]? = some (NumFmt.toF32 (NumFmt.add p q))
      ∧ (bflyStage v s)[i + 2 ^ s]? = some (NumFmt.toF32 (NumFmt.add p (NumFmt.neg q))) := by
  have upper : (i + 2 ^ s).testBit s = true := by rw [Nat.add_comm, Nat.testBit_two_pow_add_eq, hs]; rfl
  constructor
  · rw [bflyStage, List.getElem?_map, List.getElem?_range ((Nat.le_add_right _ _).trans_lt hi), Option.map_some, if_neg (by rw [hs]; exact Bool.false_ne_true)]
  · rw [bflyStage, List.getElem?_map, List.getElem?_range hi, Option.map_some, if_pos upper, Nat.add_sub_cancel]

theorem bflyFire_eq (ha : decodeBeats c false f x.a = .ok (a, g)) (whole : a.length % 2 ^ Cfg.bstg c = 0) :
    bflyFire c f x = emitVals c g x (((List.range (a.length / 2 ^ Cfg.bstg c)).flatMap fun j =>
      (List.range (Cfg.bstg c)).foldl bflyStage (((a.map fun e => NumFmt.toF32 e.num).drop (2 ^ Cfg.bstg c * j)).take (2 ^ Cfg.bstg c))).map
        NumFmt.f32) false := by
  rw [bflyFire, ha, bind_ok]
  dsimp only
  rw [List.length_map, whole, List.range_zero, List.map_nil, List.append_nil]
  rfl

theorem split3Fire_fields (ha : decodeBeats c false f x.a = .ok (a, g)) :
    ∃ bs, split3Fire c f x = .ok ⟨g, bs, [], false⟩ ∧ bs.length = Cfg.noa c
      ∧ ∀ (j q : Nat) (o : Beat) (e : Elem), bs[j]? = some o → q < 21 → a[32 * j + q]? = some e →
        fieldOf o (48 * q) 48 = NumFmt.split3 e.pat % 2 ^ 48 := by
  refine ⟨_, by rw [split3Fire, ha, bind_ok], ?_, fun j q o e ho hq he => ?_⟩
  · rw [length_outBeats, List.length_map, List.length_range]
  · obtain ⟨-, rfl⟩ := getElem?_outBeats_range ho
    rw [fieldOf_packed _ _ _ _ _ (by omega), List.getD_eq_getElem?_getD, List.getElem?_map, List.getElem?_take_of_lt hq,
      List.getElem?_drop, he]
    rfl

/-- Formats of 8-bit elements fill a beat with 128 of them. -/
theorem elemsPerBeat_of_byte {code n : Nat} (h : NumFmt.elemBits code n = 8) : NumFmt.elemsPerBeat code n = 128 := by
  rw [NumFmt.elemsPerBeat, h]
  split <;> rfl

theorem tableFire_fields (ha : decodeBeats c false f x.a = .ok (a, g)) (byte : NumFmt.elemBits (Cfg.ofmt c) (Cfg.outWidth c) = 8)
    (h1 : 1 ≤ Cfg.ofmt c) (h2 : Cfg.ofmt c ≤ 0x0C) (fits : a.length ≤ Cfg.noa c * 128) :
    ∃ bs, tableFire c f x = .ok ⟨g, bs, [], false⟩ ∧ bs.length = Cfg.noa c
      ∧ ∀ (j k : Nat) (o : Beat) (e : Elem), bs[j]? = some o → k < 128 → a[128 * j + k]? = some e →
        fieldOf o (8 * k) 8 = (x.shelf.read (x.base + (constant c f x % 2 ^ 15 + e.pat) % 0x8000)).toNat := by
  have per := elemsPerBeat_of_byte byte
  refine ⟨packedBeats c (a.map fun e => (x.byte (constant c f x % 2 ^ 15 + e.pat)).toNat) plainSide.toNat (passMarks x.a (Cfg.noa c)),
    ?_, length_packedBeats _ _ _ _, fun j k o e ho hk he => ?_⟩
  · rw [tableFire, ha, bind_ok]
    dsimp only
    rw [constant_of_decodeBeats ha, packOut_fits _ _ (by rw [List.length_map, per]; exact fits) h1 h2]
  · have field := fieldOf_packedBeats (k := k) ho h1 h2 (by rw [per]; exact hk)
      (by rw [per, List.getElem?_map, he]; rfl)
    rw [byte] at field
    rw [field]
    exact Nat.mod_eq_of_lt (BitVec.isLt _)

end

/-! ## LUT6 (R317) -/

theorem lut6Bit_eq (ring : List (Nat × Nat)) (d t : Nat) : lut6Bit ring d t = (ring.getD (t % 96) (0, 0)).1.testBit
    (((List.range 6).map fun q =>
      if d.testBit ((t + (ring.getD (t % 96) (0, 0)).2 / 2 ^ (10 * q) % 1024) % 1024) then 2 ^ q else 0).sum) := by
  have entry (e q : Nat) : bits e (10 * q + 9) (10 * q) = e / 2 ^ (10 * q) % 1024 := by
    rw [bits, Nat.shiftRight_eq_div_pow, show 10 * q + 9 + 1 - 10 * q = 10 by omega]
    rfl
  unfold lut6Bit
  dsimp only
  congr 1
  refine (foldl_eq_add_sum _ 0 fun q _ n => ?_).trans (Nat.zero_add _)
  rw [entry]

theorem getLsbD_outBeat (c : List Word) (data side : Nat) (marks : BitVec 6) {t : Nat} (h : t < 1024) :
    (outBeat c data side marks).data.getLsbD t = data.testBit t := by
  rw [show (outBeat c data side marks).data = BitVec.ofNat 1024 data from rfl, BitVec.getLsbD_ofNat]
  simp [h]

theorem lut6Fire_bits (c : List Word) (f : Fe) (x : FireIn) :
    ∃ bs, lut6Fire c f x = .ok ⟨f, bs, [], false⟩ ∧ bs.length = Cfg.noa c
      ∧ ∀ (j t : Nat) (b o : Beat), x.a[j]? = some b → bs[j]? = some o → t < 1024 →
        let e := f.ring.getD (t % 96) (0, 0)
        o.data.getLsbD t = e.1.testBit (((List.range 6).map fun q =>
          if b.data.getLsbD ((t + e.2 / 2 ^ (10 * q) % 1024) % 1024) then 2 ^ q else 0).sum) := by
  refine ⟨_, rfl, ?_, fun j t b o hb ho ht => ?_⟩
  · rw [length_outBeats, List.length_map, List.length_range]
  · obtain ⟨-, rfl⟩ := getElem?_outBeats_range ho
    dsimp only
    rw [getLsbD_outBeat _ _ _ _ ht, hb]
    dsimp only
    rw [testBit_ofBits _ ht, lut6Bit_eq]
    rfl

/-! ## FSM (R317) -/

theorem ofBits_congr {n : Nat} {g h : Nat → Bool} (same : ∀ t, t < n → g t = h t) : ofBits n g = ofBits n h := by
  induction n with
  | zero => rfl
  | succ n ih => rw [ofBits_succ, ofBits_succ, ih fun t ht => same t (by omega), same n (by omega)]

theorem ofBits_add (n m : Nat) (g : Nat → Bool) : ofBits (n + m) g = ofBits n g + 2 ^ n * ofBits m fun t => g (n + t) := by
  induction m with
  | zero => rfl
  | succ m ih =>
    rw [← Nat.add_assoc, ofBits_succ, ih, ofBits_succ, Nat.mul_add, Nat.add_assoc]
    congr 2
    split
    · rw [pow_add]
    · rfl

/-- The truth-table entry that machine `r` reads at bit `k` in state `s`. -/
def fsmIdx (r d k s : Nat) : Nat := (if d.testBit (64 * r + k) then 32 else 0) + s

/-- The state after it. -/
def fsmNext (ring : List (Nat × Nat)) (r d k s : Nat) : Nat :=
  ofBits 5 fun j => (ring.getD (6 * r + j) (0, 0)).1.testBit (fsmIdx r d k s)

/-- The output bit. -/
def fsmOut (ring : List (Nat × Nat)) (r d k s : Nat) : Bool := (ring.getD (6 * r + 5) (0, 0)).1.testBit (fsmIdx r d k s)

/-- Machine `r`'s states over a beat. -/
def fsmState (ring : List (Nat × Nat)) (r d s : Nat) : Nat → Nat
  | 0 => s
  | k + 1 => fsmNext ring r d k (fsmState ring r d s k)

theorem fsmState_lt (ring : List (Nat × Nat)) (r d : Nat) {s : Nat} (hs : s < 32) (k : Nat) : fsmState ring r d s k < 32 := by
  cases k with
  | zero => exact hs
  | succ k => exact (ofBits_lt 5 fun j => (ring.getD (6 * r + j) (0, 0)).1.testBit (fsmIdx r d k (fsmState ring r d s k)) :)

theorem fsmRun_succ (ring : List (Nat × Nat)) (r d n k s : Nat) : fsmRun ring r d (n + 1) k s =
    ((fsmRun ring r d n (k + 1) (fsmNext ring r d k s)).1,
      (if fsmOut ring r d k s then 2 ^ (64 * r + k) else 0) + (fsmRun ring r d n (k + 1) (fsmNext ring r d k s)).2) := rfl

/-- Machine `r` from bit `k` on: its state, and its output bits in their places. -/
theorem fsmRun_eq (ring : List (Nat × Nat)) (r d s n k : Nat) : fsmRun ring r d n k (fsmState ring r d s k) =
    (fsmState ring r d s (k + n), 2 ^ (64 * r + k) * ofBits n fun t => fsmOut ring r d (k + t) (fsmState ring r d s (k + t))) := by
  induction n generalizing k with
  | zero => rfl
  | succ n ih =>
    have rest := ih (k + 1)
    rw [show fsmState ring r d s (k + 1) = fsmNext ring r d k (fsmState ring r d s k) from rfl] at rest
    rw [fsmRun_succ, rest, Nat.add_comm n 1, ofBits_add, Nat.mul_add, Nat.add_assoc k 1 n]
    refine Prod.ext rfl ?_
    dsimp only
    congr 1
    · rw [ofBits_succ]
      cases fsmOut ring r d k (fsmState ring r d s k) <;> simp [ofBits]
    · rw [← mul_assoc, ← pow_add, Nat.add_assoc (64 * r)]
      simp only [Nat.add_assoc]

section
variable (f : Fe) (b : Beat)

/-- Machine `r`'s states over beat `b`, from the state that the FE keeps. -/
def fsmStates (f : Fe) (b : Beat) (r : Nat) : Nat → Nat := fsmState f.ring r b.data.toNat (f.core.fsm.toList.getD r 0).toNat

/-- All output bits of a beat, by their places. -/
def fsmBit (f : Fe) (b : Beat) (t : Nat) : Bool := fsmOut f.ring (t / 64) b.data.toNat (t % 64) (fsmStates f b (t / 64) (t % 64))

theorem fsmRun_whole (r : Nat) : fsmRun f.ring r b.data.toNat 64 0 (f.core.fsm.toList.getD r 0).toNat =
    (fsmStates f b r 64, 2 ^ (64 * r) * ofBits 64 fun t => fsmBit f b (64 * r + t)) := by
  have run := fsmRun_eq f.ring r b.data.toNat (f.core.fsm.toList.getD r 0).toNat 64 0
  rw [show fsmState f.ring r b.data.toNat (f.core.fsm.toList.getD r 0).toNat 0 = (f.core.fsm.toList.getD r 0).toNat from rfl] at run
  rw [run]
  refine Prod.ext (by rw [Nat.zero_add]; rfl) ?_
  dsimp only
  rw [Nat.add_zero]
  congr 1
  refine ofBits_congr fun t ht => ?_
  rw [Nat.zero_add, fsmBit, show (64 * r + t) / 64 = r by omega, show (64 * r + t) % 64 = t by omega]
  rfl

theorem fsm_sum (n : Nat) : ((List.range n).map fun r => fsmRun f.ring r b.data.toNat 64 0 (f.core.fsm.toList.getD r 0).toNat).foldl
    (fun n x => n + x.2) 0 = ofBits (64 * n) (fsmBit f b) := by
  induction n with
  | zero => rfl
  | succ n ih =>
    rw [List.range_succ, List.map_append, List.foldl_append, ih, Nat.mul_succ, ofBits_add, List.map_cons, List.map_nil,
      List.foldl_cons, List.foldl_nil, fsmRun_whole]

/-- The states that a beat leaves. -/
def fsmAfter (c : List Word) (f : Fe) (b : Beat) : Fe := (fsmBeat c f b).2

theorem outBeats_one (c : List Word) (d side : Nat) (marks : List (BitVec 6)) :
    outBeats c ((List.range 1).map fun j => [d].getD j 0) side marks = [outBeat c d side (marks.getD 0 0)] := rfl

theorem fsmFire_one (c : List Word) {x : FireIn} (hx : x.a = [b]) (noa : Cfg.noa c = 1) : fsmFire c f x =
    .ok ⟨fsmAfter c f b, [outBeat c (ofBits 1024 (fsmBit f b)) plainSide.toNat ((passMarks x.a (Cfg.noa c)).getD 0 0)], [], false⟩ := by
  have total : (fsmBeat c f b).1 = ofBits 1024 (fsmBit f b) := fsm_sum f b 16
  have beats : fsmBeats c f [b] = ([(fsmBeat c f b).1], fsmAfter c f b) := rfl
  rw [fsmFire, hx, beats, noa, total]
  dsimp only
  rw [outBeats_one]

theorem fsmAfter_state (c : List Word) {r : Nat} (hr : r < 16) : ((fsmAfter c f b).core.fsm.toList.getD r 0).toNat =
    if b.marks.getLsbD (Cfg.rdim c) then 0 else fsmStates f b r 64 := by
  have small : fsmStates f b r 64 < 32 := fsmState_lt _ _ _ (BitVec.isLt _) _
  unfold fsmAfter fsmBeat
  dsimp only
  split
  · rw [Vector.toList_replicate, List.getD_eq_getElem?_getD, List.getElem?_replicate]
    split <;> rfl
  · rw [List.getD_eq_getElem?_getD]
    simp only [Vector.getElem?_toList, Vector.getElem?_ofFn]
    rw [dif_pos hr, Option.getD_some, List.getD_eq_getElem?_getD, List.getElem?_map, List.getElem?_range hr, Option.map_some,
      Option.getD_some, fsmRun_whole, BitVec.toNat_ofNat]
    exact Nat.mod_eq_of_lt small

theorem testBit_fsmNext (ring : List (Nat × Nat)) (r d k s : Nat) {j : Nat} (hj : j < 5) :
    (fsmNext ring r d k s).testBit j = (ring.getD (6 * r + j) (0, 0)).1.testBit (fsmIdx r d k s) := testBit_ofBits _ hj

/-- The 16 machines over one beat. -/
theorem fsmFire_runs (c : List Word) (f : Fe) {x : FireIn} {b : Beat} (hx : x.a = [b]) (noa : Cfg.noa c = 1) :
    ∃ o y, fsmFire c f x = .ok ⟨y, [o], [], false⟩
      ∧ ∀ r, r < 16 → ∃ st : Nat → Nat, st 0 = (f.core.fsm.toList.getD r 0).toNat ∧ (∀ k, st k < 32)
        ∧ (∀ k, k < 64 →
          let idx := (if b.data.getLsbD (64 * r + k) then 32 else 0) + st k
          o.data.getLsbD (64 * r + k) = (f.ring.getD (6 * r + 5) (0, 0)).1.testBit idx
          ∧ ∀ j, j < 5 → (st (k + 1)).testBit j = (f.ring.getD (6 * r + j) (0, 0)).1.testBit idx)
        ∧ (y.core.fsm.toList.getD r 0).toNat = if b.marks.getLsbD (Cfg.rdim c) then 0 else st 64 := by
  refine ⟨_, _, fsmFire_one f b c hx noa, fun r hr => ⟨fsmStates f b r, rfl, fsmState_lt _ _ _ (BitVec.isLt _), fun k hk => ⟨?_, ?_⟩,
    fsmAfter_state f b c hr⟩⟩
  · rw [getLsbD_outBeat _ _ _ _ (by omega), testBit_ofBits _ (by omega), fsmBit, show (64 * r + k) / 64 = r by omega,
      show (64 * r + k) % 64 = k by omega]
    rfl
  · exact fun j hj => testBit_fsmNext _ _ _ _ _ hj

end

end Sys2Proof.Machine
end

section
/-! PROOFS. The stochastic streams (R330 to R343; O53): the count that an element gives, SGEN, and the operations on stream registers. -/

namespace Sys2Proof.Machine

open Sys2Proof.Bits Sys2Proof.Rows Sys2Proof.Machine.Elements

/-! ## quantise_stream (R337) -/

section
variable {c : List Word} {e : Elem}

theorem quantiseStream_nan (h : e.value = .nan) : quantiseStream c e = 0 := by rw [quantiseStream, h]

theorem quantiseStream_inf {g : Bool} (h : e.value = .inf g) : quantiseStream c e = if g then 0 else Cfg.len c := by
  rw [quantiseStream, h]

theorem isInt_iff (code : Nat) : isInt code = true ↔ code = 0x0B ∨ code = 0x0C := by simp [isInt]

theorem quantiseStream_int (code : e.code = 0x0B ∨ e.code = 0x0C) {i : Int} (h : e.value = NumFmt.ofInt i) :
    (quantiseStream c e : Int) = max 0 (min (Cfg.len c : Int) i) := by
  have value : intOf (NumFmt.ofInt i) = i := (intOf_eq_unitsOf _).trans (unitsOf_ofInt i)
  rw [← value, quantiseStream, h, NumFmt.ofInt]
  dsimp only
  rw [if_pos ((isInt_iff _).mpr code)]
  exact Int.toNat_of_nonneg (le_max_left _ _)

theorem quantiseStream_float (h1 : e.code ≠ 0x0B) (h2 : e.code ≠ 0x0C) (bip : Cfg.bip c = false) {g : Bool} {m : Nat} {q : Int}
    (h : e.value = .fin g m q) : (quantiseStream c e : Int) =
      if g then 0 else min (Cfg.len c) (NumFmt.roundAt ⟨Cfg.rnd c, 0, 12⟩ g m (q + Cfg.lenLog c) 0) := by
  rw [quantiseStream, h]
  dsimp only
  rw [if_neg (by rw [isInt_iff]; tauto), bip, if_neg Bool.false_ne_true, NumFmt.scale2]
  dsimp only
  cases g
  · simp only [Bool.false_eq_true, if_false]
    omega
  · simp only [if_true]
    omega

end

/-! ## SGEN -/

theorem genStream_testBit (c : List Word) (f : Fe) (k xq : Nat) {t : Nat} (ht : t < Cfg.len c) :
    (genStream c f k xq).testBit t = decide (gen f k t (Cfg.lenLog c) < xq) := testBit_ofBits _ ht

section
variable {c : List Word} {f g : Fe} {x : FireIn} {es : List Elem}

theorem sgenFire_streams (h : decodeBeats c false f x.a = .ok (es, g)) (fits : Cfg.nstr c ≤ es.length) :
    ∃ outs, sgenFire c f x = .ok ⟨g, [], outs, false⟩ ∧ outs.length = Cfg.nstr c
      ∧ ∀ (j : Nat) (e : Elem), j < Cfg.nstr c → es[j]? = some e →
        let k := if Cfg.cinc c then (Cfg.gcls c + j) % 16 else Cfg.gcls c
        ∃ v, outs[j]? = some ⟨Cfg.sd c + j, v, 2 ^ k⟩ ∧ ∀ t, t < Cfg.len c → v.testBit t =
          decide (bitrev (Cfg.lenLog c) (((2 * k + 1) * t + (g.core.seed.toList.getD k 0).toNat) % 2 ^ Cfg.lenLog c)
            < quantiseStream c e) := by
  refine ⟨_, by rw [sgenFire, h, bind_ok]; dsimp only; rw [if_neg (by omega)], ?_, fun j e hj he => ?_⟩
  · rw [List.length_map, List.length_range]
  · refine ⟨_, ?_, fun t ht => genStream_testBit c g _ (quantiseStream c e) ht⟩
    rw [List.getElem?_map, List.getElem?_range hj, Option.map_some]
    rw [he]
    rfl

end

/-! ## Operations on stream registers -/

section
variable {c : List Word} (f : Fe) (x : FireIn)

/-- Without emission a result is written to st(SD) alone. -/
theorem streamOut_silent (noa : Cfg.noa c = 0) (v mask : Nat) : streamOut c f x v mask = ⟨f, [], [⟨Cfg.sd c, v, mask⟩], false⟩ := by
  rw [streamOut, noa]
  rfl

theorem oneBit_iff (m : Nat) : oneBit m = true ↔ (List.range 16).countP (fun j => m.testBit j) = 1 := by
  rw [oneBit, popcN_eq_countP, beq_iff_eq]

variable (istr : Cfg.istr c = false) (noa : Cfg.noa c = 0)
include istr

theorem disjointFire_scorr (op : Nat → Nat → Nat) (h : regMask c f (Cfg.srA c) &&& regMask c f (Cfg.srB c) ≠ 0) :
    disjointFire op c f x = .error ⟨0x18, regMask c f (Cfg.srA c), regMask c f (Cfg.srB c)⟩ := by
  rw [disjointFire, operandA_register istr, bind_ok]
  dsimp only
  rw [if_pos h]
  rfl

theorem sameFire_scorr (op : Nat → Nat → Nat) (h : ¬ (regMask c f (Cfg.srA c) = regMask c f (Cfg.srB c)
      ∧ (List.range 16).countP (fun j => (regMask c f (Cfg.srA c)).testBit j) = 1)) :
    sameFire op c f x = .error ⟨0x18, regMask c f (Cfg.srA c), regMask c f (Cfg.srB c)⟩ := by
  rw [← oneBit_iff] at h
  rw [sameFire, operandA_register istr, bind_ok]
  dsimp only
  rw [if_pos]
  · rfl
  · rw [not_and_or] at h
    rcases h with h | h
    · exact .inl h
    · exact .inr (by simpa using h)

theorem smuxFire_scorr (h : regMask c f (Cfg.srC c) &&& (regMask c f (Cfg.srA c) ||| regMask c f (Cfg.srB c)) ≠ 0) :
    smuxFire c f x = .error ⟨0x18, regMask c f (Cfg.srA c) ||| regMask c f (Cfg.srB c), regMask c f (Cfg.srC c)⟩ := by
  rw [smuxFire, operandA_register istr, bind_ok]
  dsimp only
  rw [if_pos h]
  rfl

include noa

theorem disjointFire_gives (op : Nat → Nat → Nat) (h : regMask c f (Cfg.srA c) &&& regMask c f (Cfg.srB c) = 0) :
    disjointFire op c f x = .ok ⟨f, [], [⟨Cfg.sd c, op (streamReg c x (Cfg.srA c)) (streamReg c x (Cfg.srB c)),
      regMask c f (Cfg.srA c) ||| regMask c f (Cfg.srB c)⟩], false⟩ := by
  rw [disjointFire, operandA_register istr, bind_ok]
  dsimp only
  rw [if_neg (by rw [h]; exact fun n => n rfl), streamOut_silent f x noa]

theorem sameFire_gives (op : Nat → Nat → Nat) (h : regMask c f (Cfg.srA c) = regMask c f (Cfg.srB c))
    (one : (List.range 16).countP (fun j => (regMask c f (Cfg.srA c)).testBit j) = 1) :
    sameFire op c f x = .ok ⟨f, [], [⟨Cfg.sd c, op (streamReg c x (Cfg.srA c)) (streamReg c x (Cfg.srB c)),
      regMask c f (Cfg.srA c)⟩], false⟩ := by
  rw [sameFire, operandA_register istr, bind_ok]
  dsimp only
  rw [if_neg, streamOut_silent f x noa]
  rintro (n | n)
  · exact n h
  · rw [(oneBit_iff _).mpr one] at n
    exact Bool.false_ne_true n

theorem smuxFire_gives (h : regMask c f (Cfg.srC c) &&& (regMask c f (Cfg.srA c) ||| regMask c f (Cfg.srB c)) = 0) :
    ∃ v, smuxFire c f x = .ok ⟨f, [], [⟨Cfg.sd c, v, regMask c f (Cfg.srA c) ||| regMask c f (Cfg.srB c) ||| regMask c f (Cfg.srC c)⟩], false⟩
      ∧ ∀ t, t < Cfg.len c → v.testBit t = if (streamReg c x (Cfg.srC c)).testBit t then (streamReg c x (Cfg.srB c)).testBit t
          else (streamReg c x (Cfg.srA c)).testBit t := by
  refine ⟨_, by
    rw [smuxFire, operandA_register istr, bind_ok]
    dsimp only
    rw [if_neg (by rw [h]; exact fun n => n rfl), streamOut_silent f x noa], fun t ht => ?_⟩
  rw [Nat.testBit_or, Nat.testBit_and, Nat.testBit_and, Nat.testBit_xor, Nat.testBit_two_pow_sub_one, decide_eq_true ht]
  cases (streamReg c x (Cfg.srC c)).testBit t <;> simp

theorem snotFire_gives : ∃ v, snotFire c f x = .ok ⟨f, [], [⟨Cfg.sd c, v, regMask c f (Cfg.srA c)⟩], false⟩
    ∧ ∀ t, t < Cfg.len c → v.testBit t = !(streamReg c x (Cfg.srA c)).testBit t := by
  refine ⟨_, by rw [snotFire, operandA_register istr, bind_ok]; dsimp only; rw [streamOut_silent f x noa], fun t ht => ?_⟩
  rw [Nat.testBit_xor, Nat.testBit_two_pow_sub_one, decide_eq_true ht, Bool.xor_true]

theorem sregenFire_gives : ∃ v, sregenFire c f x = .ok ⟨f, [], [⟨Cfg.sd c, v, 2 ^ Cfg.gcls c⟩], false⟩
    ∧ ∀ t, t < Cfg.len c → v.testBit t = decide (gen f (Cfg.gcls c) t (Cfg.lenLog c)
      < (List.range (Cfg.len c)).countP fun j => (streamReg c x (Cfg.srA c)).testBit j) := by
  refine ⟨_, by rw [sregenFire, operandA_register istr, bind_ok]; dsimp only; rw [streamOut_silent f x noa], fun t ht => ?_⟩
  rw [genStream_testBit _ _ _ _ ht, popcN_eq_countP]

omit istr noa in
/-- SFSM's counter before bit `t`. -/
def sfsmState (k a : Nat) : Nat → Nat
  | 0 => k / 2
  | t + 1 => if a.testBit t then min (sfsmState k a t + 1) (k - 1) else sfsmState k a t - 1

omit istr noa in
theorem sfsmRun_eq (k a n t : Nat) :
    sfsmRun k a n t (sfsmState k a t) = 2 ^ t * ofBits n fun j => decide (k / 2 ≤ sfsmState k a (t + j + 1)) := by
  induction n generalizing t with
  | zero => rfl
  | succ n ih =>
    rw [sfsmRun]
    change (if k / 2 ≤ sfsmState k a (t + 1) then 2 ^ t else 0) + sfsmRun k a n (t + 1) (sfsmState k a (t + 1)) = _
    rw [ih, Nat.add_comm n 1, ofBits_add, Nat.mul_add, ← mul_assoc, ← pow_add, ofBits_succ]
    congr 1
    · by_cases h : k / 2 ≤ sfsmState k a (t + 1) <;> simp [ofBits, h]
    · simp only [Nat.add_assoc]

theorem sfsmFire_gives : ∃ v, sfsmFire c f x = .ok ⟨f, [], [⟨Cfg.sd c, v, regMask c f (Cfg.srA c)⟩], false⟩
    ∧ ∃ st : Nat → Nat, st 0 = 2 ^ Cfg.klog c / 2 ∧ ∀ t, t < Cfg.len c →
      st (t + 1) = (if (streamReg c x (Cfg.srA c)).testBit t then min (st t + 1) (2 ^ Cfg.klog c - 1) else st t - 1)
      ∧ v.testBit t = decide (2 ^ Cfg.klog c / 2 ≤ st (t + 1)) := by
  refine ⟨_, by rw [sfsmFire, operandA_register istr, bind_ok]; dsimp only; rw [streamOut_silent f x noa],
    sfsmState (2 ^ Cfg.klog c) (streamReg c x (Cfg.srA c)), rfl, fun t ht => ⟨rfl, ?_⟩⟩
  have run := sfsmRun_eq (2 ^ Cfg.klog c) (streamReg c x (Cfg.srA c)) (Cfg.len c) 0
  rw [show sfsmState (2 ^ Cfg.klog c) (streamReg c x (Cfg.srA c)) 0 = 2 ^ Cfg.klog c / 2 from rfl, pow_zero, Nat.one_mul] at run
  rw [run, testBit_ofBits _ ht, Nat.zero_add]

end

end Sys2Proof.Machine
end

section
/-! PROOFS. O53 assembled: each clause from the lemmas about its operation. -/

namespace Sys2Proof.Machine

open Sys2Proof.Bits Sys2Proof.Rows Sys2Proof.Machine.Elements

/-- The rows of the floating formats. -/
theorem fltRows : ∀ row ∈ [(1, (⟨8, 23, 127⟩ : NumFmt.Flt)), (2, ⟨8, 7, 127⟩), (3, ⟨5, 10, 15⟩), (4, ⟨4, 3, 7⟩), (5, ⟨5, 2, 15⟩),
    (6, ⟨3, 2, 3⟩), (7, ⟨2, 3, 1⟩), (8, ⟨2, 1, 1⟩)],
    NumFmt.fltOf row.1 = some row.2 ∧ 0 < row.2.eb ∧ (row.1 = 4 → row.2.eb = 4) := by
  decide

/-- Emission by R310: the beats, and their fields. -/
theorem emitWith_fields (c : List Word) (f : Fe) (vs : List Machine.Num) (marks : List (BitVec 6)) (bad : Bool) (h1 : 1 ≤ Cfg.ofmt c)
    (h2 : Cfg.ofmt c ≤ 0x0C) (rnd : Cfg.rnd c ≠ 4)
    (fits : vs.length ≤ Cfg.noa c * NumFmt.elemsPerBeat (Cfg.ofmt c) (Cfg.outWidth c)) :
    let per := NumFmt.elemsPerBeat (Cfg.ofmt c) (Cfg.outWidth c)
    let eb := NumFmt.elemBits (Cfg.ofmt c) (Cfg.outWidth c)
    ∃ bs, emitWith c f vs marks bad = .ok ⟨f, bs, [], bad⟩ ∧ bs.length = Cfg.noa c
      ∧ ∀ (j : Nat) (o : Beat), bs[j]? = some o → o.marks = marks.getD j 0 ∧ o.tag.toNat = Cfg.otag c % 32 ∧ o.side = 0x7F7F7F7F
        ∧ ∀ (k : Nat) (v : Machine.Num), k < per → vs[per * j + k]? = some v →
          fieldOf o (eb * k) eb = NumFmt.encodeNum (Cfg.ofmt c) (Cfg.outWidth c) ⟨Cfg.rnd c, 0, 12⟩ v % 2 ^ eb := by
  intro per eb
  refine ⟨_, emitWith_fits f marks bad rnd fits h1 h2, length_packedBeats _ _ _ _, fun j o ho => ?_⟩
  obtain ⟨hm, ht, hs⟩ := beat_of_packedBeats ho
  exact ⟨hm, ht, hs, fun k v hk hv => fieldOf_packedBeats ho h1 h2 hk (by rw [List.getElem?_map, hv]; rfl)⟩

/-- Settles O53. -/
theorem streamResults : Obligations.StreamResults := by
  unfold Obligations.StreamResults
  refine ⟨fun p q a b ha hb hq => ⟨unitsOf_add ha hb, unitsOf_mul ha hq, lt_iff_unitsOf ha hb, unitsOf_scale2 ha⟩,
    fun row hrow n s e m hs he hm => ?_,
    fun r neg m d e lt4 => ⟨roundAt_nearest neg m d e, fun mode => (roundAt_directed neg m d e mode lt4).1,
      fun mode => (roundAt_directed neg m d e mode lt4).2⟩,
    fun i n r _ => ⟨encodeNum_signed i n r, encodeNum_unsigned i n r⟩,
    fun ps sa sb q top fin ha hb low le mem => windowSum_floors fin ha hb low le mem,
    fun a b ha hb => ?_,
    fun c f vs marks bad h1 h2 rnd fits _ _ => emitWith_fields c f vs marks bad h1 h2 rnd fits,
    ?_, ?_, fun c f g b es h small => redFire_totals h small, fun c f x b hx => cntFire_counts f hx, ?_, ?_,
    fun v s i hs hi => getElem?_bflyStage v hs hi, fun p hp => ⟨split3_nan, fun g => split3_inf, fun g m e => split3_fin hp⟩,
    fun c f x => ⟨lut6Fire_bits c f x, fun b hx noa => fsmFire_runs c f hx noa⟩, ?_,
    fun c f g x es h fits => sgenFire_streams h fits, ?_, ?_⟩
  · obtain ⟨flt, heb, four⟩ := fltRows row hrow
    exact decode_fields flt heb four hs he hm
  · obtain ⟨mem, most⟩ := redMax_chooses ha hb
    obtain ⟨mem', least⟩ := redMin_chooses ha hb
    exact ⟨fun v hv => ⟨most v hv, least v hv⟩, mem, mem'⟩
  · intro c f g h x a b ha hb kv at_ maps
    refine ⟨fun heop => ?_, fun heop mode => ?_, fun heop mode plainA plainB => ?_, fun heop => ?_, fun heop => ?_, fun heop => ?_,
      fun heop => ?_, ?_⟩
    · exact mapFire_both ha hb (by simp [readsB, heop]) fun k e _ => by simp only [elemOf, heop]; rfl
    · exact mapFire_both ha hb (by simp [readsB, heop]) fun k e _ => elemOf_mule_int heop mode
    · exact mapFire_both ha hb (by simp [readsB, heop]) fun k e he =>
        elemOf_mule_float heop mode (plainA e (List.mem_of_getElem? he)) plainB
    · exact mapFire_alone ha (by simp [readsB, heop]) fun k e _ => by simp only [elemOf, heop]; rfl
    · exact mapFire_alone ha (by simp [readsB, heop]) fun k e _ => by simp only [elemOf, heop]
    · refine mapFire_optional ha hb (.inl heop) (fun k e => ?_) fun nib k e => ?_
      · rw [elemOf_cmpsel heop, halfOf_eq, halfOf_eq]
        rfl
      · rw [elemOf_cmpsel heop, elemOf_cmpsel heop, nib]
        rfl
    · refine mapFire_optional ha hb (.inr heop) (fun k e => elemOf_shiftv heop) fun nib k e => ?_
      rw [elemOf_shiftv heop, elemOf_shiftv heop, nib]
      rfl
    · rw [deqFire_eq ha]
      exact congrArg (fun vs => emitVals c g x vs false) (List.map_congr_left fun e _ => value_eq e)
  · intro c f g h x a b ha hb wins nout plain ended core old ia ib gives
    refine ⟨fun mode => ?_, fun mode rlen => ?_, fun mode rlen acc => ?_⟩
    · exact dotFire_gives ha hb wins (fun n => by omega)
        (new := fun o old => old + BitVec.ofInt 48 (((List.range (Cfg.rlen c)).map fun k =>
          unitsOf 0 (valueAt a (dotA c o k)) * unitsOf 0 (valueAt b (dotB c o k))).sum))
        fun o ho y _ => dotSteps_int x.free mode (finiteAbove_valueAt mode ha) (finiteAbove_valueAt mode hb) (by omega) y
    · exact dotFire_gives ha hb wins (fun n => n.2.2 (by rw [rlen]))
        (new := fun o old => BitVec.ofNat 48 (NumFmt.toF32 (NumFmt.add (NumFmt.f32 (old.toNat % 2 ^ 32))
          (NumFmt.windowSum ((List.range 32).map fun k => floatTerm a[dotA c o k]? b[dotB c o k]?)
            (scaleOf a[dotA c o 0]?) (scaleOf b[dotB c o 0]?)))))
        fun o ho y hy => dotSteps_float x.free (by omega) mode rlen plain hy
    · exact dotFire_gives ha hb wins (fun n => by omega)
        (new := fun o old => old + BitVec.ofInt 48 (((List.range 32).map fun k => lnsUnits a[dotA c o k]? b[dotB c o k]?).sum))
        fun o ho y hy => dotSteps_lns x.free (by omega) mode acc rlen hy
  · intro code xs hcode emax
    have named : emax = NumFmt.emax code := emax_eq hcode
    refine ⟨groupScale_nan code, groupScale_zeros code, fun noNan top mem le => ?_⟩
    rw [named]
    exact groupScale_top code noNan mem le
  · intro c f g x a ha n group
    refine ⟨fun full input noa ofmt rnd => ?_, bflyFire_eq ha, split3Fire_fields ha, tableFire_fields ha⟩
    obtain ⟨o, one, fires⟩ := quantFire_emits ha full input noa ofmt rnd
    exact ⟨o, fires, fun q k v hq hv => quantBeat_fields one full ofmt hq hv⟩
  · intro c e l xq
    exact ⟨quantiseStream_nan, quantiseStream_inf, quantiseStream_inf, fun code i => quantiseStream_int code,
      fun h1 h2 bip g m q => quantiseStream_float h1 h2 bip⟩
  · intro c f x istr n core
    obtain ⟨y, bad, fires, value, bank⟩ := scntFire_counts istr f x
    exact ⟨y, bad, fires, value, bank, fun h => cntNum_unsigned h n, fun h => cntNum_signed h n, fun h => cntNum_scaled h n⟩
  · intro c f x istr noa reg mask a b d gives scorr one
    refine ⟨fun op _ => ⟨disjointFire_gives f x istr noa op, disjointFire_scorr f x istr op⟩,
      fun op _ => ⟨sameFire_gives f x istr noa op, sameFire_scorr f x istr op⟩, smuxFire_gives f x istr noa, smuxFire_scorr f x istr,
      snotFire_gives f x istr noa, sregenFire_gives f x istr noa, sfsmFire_gives f x istr noa⟩

end Sys2Proof.Machine
end
